-- ==== Sys2Proof/Word.lean ====
section
/-! DEFINITION. The machine's word and byte, and the plainest values of the notation chapter of the spec. -/

namespace Sys2Proof

/-- A word is 16 bits (spec/00_scope.md, Notation). -/
abbrev Word := BitVec 16

/-- A byte, as packed two to a word under R10. -/
abbrev Byte := BitVec 8

/-- A 24-bit word address (spec/00_scope.md, Notation). -/
abbrev Addr := Nat

end Sys2Proof
end

