-- ==== Sys2Proof/Syntax.lean ====
section
/-! DEFINITION. The commands and events of the block: one constructor of `Instr` for each row of
spec/opcode_table.json, in the table's order, with the operands its rule in spec/ speaks of. The table gives
its rows no operand fields, so which operands a command carries is read from the rule the row cites
(notes/assumptions/2.md). -/

namespace Sys2Proof

/-- A logical core, 0 to 7 (R132). -/
abbrev CoreId := Fin 8

/-- The twelve clock islands of Table 1.1 (R18). -/
inductive Island where
  | sw | act | lux | net | sec | fld | lnk | aon | sup | mem | cpa | cpb
  deriving DecidableEq, Repr

/-- The island's number in Table 1.1. -/
def Island.num : Island → Nat
  | .sw => 0 | .act => 1 | .lux => 2 | .net => 3 | .sec => 4 | .fld => 5
  | .lnk => 6 | .aon => 7 | .sup => 8 | .mem => 9 | .cpa => 10 | .cpb => 11

/-- The output islands, whose channels present the channel port (R188). -/
inductive OutIsl where
  | sw | act | lux | fld
  deriving DecidableEq, Repr

/-- The island an output island is. -/
def OutIsl.island : OutIsl → Island
  | .sw => .sw | .act => .act | .lux => .lux | .fld => .fld

/-- A channel, by its island and its index in Table 7.1 (R188). -/
structure ChanRef where
  isl : OutIsl
  idx : Nat
  deriving DecidableEq, Repr

/-- Who makes an access, as the tag its transfer carries says (R196, R459). A lockstep pair writes as the
logical number of its lead. -/
inductive Requester where
  | core (c : CoreId)
  | fabric (port : Fin 4)
  | service
  | island (i : Island)
  deriving DecidableEq, Repr

/-- The VBUS bands of Table 3.1 (R80), from the lowest up. -/
inductive Band where
  | off | undervoltage | hold | reduced | full | over
  deriving DecidableEq, Repr

/-- Which way a sensor supply is shorted (R73, VSEN_STAT). -/
inductive ShortKind where
  | toBattery | toGround
  deriving DecidableEq, Repr

/-- The operand of a mode-bearing instruction: MODE, SHORT and the extension words (R162, R163). -/
structure Opnd where
  mode  : Fin 8
  short : BitVec 7
  e     : Word
  e2    : Word
  deriving DecidableEq, Repr

/-- The branch conditions of Table 6.4 (R170), opcode 0x31 first. -/
inductive Cond where
  | br | bz | bnz | bc | bnc | bn | bnn | bv | bnv | bhi | bls | bge | blt | bgt | ble
  deriving DecidableEq, Repr

/-- What a replay finds at the mismatching instruction, or that the replay itself differed from its log (R153). -/
inductive Replay where
  | agreed | mismatch | differs
  deriving DecidableEq, Repr

/-- The side of a stage a comparator sits on (R230). -/
inductive Side where
  | high | low
  deriving DecidableEq, Repr

/-- What a thermal latch belongs to: a channel, or a bank high side of ACT (R287). -/
inductive ThermRef where
  | chan (ch : ChanRef)
  | bank (k : Fin 4)
  deriving DecidableEq, Repr

/-- What a governor evaluation takes in (R239): the SW channels' summed dissipation over the last 10 ms, what ACT and
LUX report, each in 10 mW, and the eight case references in 0.1 °C. -/
structure GovInput where
  pSw   : Nat
  pAct  : Nat
  pLux  : Nat
  tcase : List Int
  deriving DecidableEq, Repr

/-- Which of the on-state readings of R250, R254, R284, R312, R313 and R345 a measurement is. -/
inductive MeasKind where
  /-- an on-state reading: R250, Table 10.9, R345 -/
  | onState
  /-- the mean of 16 equivalent-time samples: R254, R313 -/
  | ets
  /-- ACT, hold: the mean over 1 ms -/
  | holdMean
  /-- ACT, hold: the low side on for 1 ms without break -/
  | holdLow
  /-- ACT, 200 µs after the start of the peak -/
  | peakLow
  deriving DecidableEq, Repr

/-- One sample of a thermal sensor with its case reference, in 0.1 °C (R234). -/
structure Therm where
  tj    : Int
  tcase : Int
  deriving DecidableEq, Repr

/-- A current conversion with what is converted beside it: current in the island's unit (Table 7.6), TJ and the case
reference in 0.1 °C, dissipation in 10 mW, energy drawn from VBST in 0.1 mJ (R279), terminal voltage in 0.1 V (in ACT the bank's rail
current in 10 mA, R290). -/
structure Measure where
  kind  : MeasKind
  i     : Int
  tj    : Int
  tcase : Int
  pdiss : Nat
  drawn : Nat
  term  : Nat
  deriving DecidableEq, Repr

/-- Why a valve peak ends, with the current in mA then (R269): it reached I_PEAK; T_PKMAX elapsed; the pulse ended. -/
inductive PeakEnd where
  | reached (i : Nat)
  | tmax (i : Nat)
  | pulse
  deriving DecidableEq, Repr

/-- The two banks of filtered inputs (R321). -/
inductive InBank where
  | si | fi
  deriving DecidableEq, Repr

/-- The states of VFLD (Table 11.5). -/
inductive VfldState where
  | ok | low | missing
  deriving DecidableEq, Repr

/-- A CAN frame on a bus (Table 12.6): its format bits, identifier, data length code and data bytes. -/
structure CanFrame where
  ide  : Bool
  fd   : Bool
  brs  : Bool
  esi  : Bool
  id   : Nat
  dlc  : Nat
  data : List Byte
  deriving DecidableEq, Repr

/-- An Ethernet frame (R355): whether its FCS is good, its VLAN tag if it has one, its bytes from the destination
address onward. -/
structure EthFrame where
  fcsOk : Bool
  tag   : Option (BitVec 12)
  bytes : List Byte
  deriving DecidableEq, Repr

/-- What a CAN channel receives: a frame without error, or an error at which the frame error counter of selective wake
overflows (R364). -/
inductive CanRx where
  | frame (f : CanFrame)
  | errorOverflow
  deriving DecidableEq, Repr

/-- What comes after a subscribed LIN header: the data with their checksum byte, or a bit error (Table 12.4). -/
inductive LinRsp where
  | data (bytes : List Byte) (sum : Byte)
  | bitError
  deriving DecidableEq, Repr

/-- The fields of a ring frame (Table 12.12); its type is the command's. -/
structure RingFrame where
  src     : Fin 64
  round   : Byte
  next    : Byte
  run     : Byte
  consent : Bool
  subj    : Byte
  deriving DecidableEq, Repr

/-- A stitch (Table 16.2) with its payload words. -/
structure Stitch where
  dest    : BitVec 9
  bc      : Bool
  type    : BitVec 4
  src     : BitVec 9
  hop     : BitVec 4
  tag     : Byte
  len     : BitVec 4
  status  : BitVec 4
  addr    : BitVec 24
  seq     : Byte
  payload : List Word
  deriving DecidableEq, Repr

/-- A received activation stitch (Table 17.11): its sender, ARG and MREF; its SUB is the command's. -/
structure UpdMsg where
  src  : BitVec 9
  arg  : BitVec 4
  mref : BitVec 32
  deriving DecidableEq, Repr

/-- The commands and events of spec/opcode_table.json. -/
inductive Instr where
  /-- REGISTER_WRITE (R12): A write to a register that has no row of its own stores, clears W1C bits or is discarded under its access code and seal. -/
  | registerWrite (r : Requester) (a : Nat) (v : Word)
  /-- POWER_ON (R112): VBUS rises through the power-on threshold and the controller runs the L0 bring-up of Table 4.5. -/
  | powerOn
  /-- POWER_LOSS (R81): VBUS falls below the power-on threshold and every island loses power. -/
  | powerLoss
  /-- BAND_CHANGE (R81): VBUS stays past a band threshold for its filter time and the new band acts on every island. -/
  | bandChange (b : Band)
  /-- SECTION_BAND_CHANGE (R57): A section monitor crosses a band threshold, holding off or returning that section's channels and reporting the section-supply fault. -/
  | sectionBandChange (sec : Fin 4) (b : Band)
  /-- GROUND_TAB_FAULT (R57): The voltage between GND_A and GND_B stays above 100 mV for 1 ms and the ground-tab source is raised. -/
  | groundTabFault (present : Bool)
  /-- REVERSE_POLARITY (R85): The battery tabs go more than 2 V below ground and the power dies take the reverse behaviour of Table 3.4. -/
  | reversePolarity
  /-- VCORE_BROWNOUT (R104): VCORE stays below 0.72 V for 2 µs and the controller resets at L0. -/
  | vcoreBrownout
  /-- CLOCK_LOSS (R20): A clock monitor reports loss of an island clock, which acts as reset source 9 or 10. -/
  | clockLoss (i : Island)
  /-- ISLAND_RELEASE (R21): An island leaves reset after lock and 64 stable cycles, reloads its records and reports RUN, lifting its fence. -/
  | islandRelease (i : Island)
  /-- HANDSHAKE_TIMEOUT (R30): A gate acknowledge is not returned within its timeout, the gate is fenced and the transfer dropped. -/
  | handshakeTimeout (src : Island) (dst : Island)
  /-- MEM_SERVICE (R44): In each MEM cycle the arbiter serves the oldest waiting request and records the wait in ICB_MEMWAIT. -/
  | memService
  /-- ICB_MWCLR (R40): Setting ICB_CTRL.MWCLR clears ICB_MEMWAIT of the island. -/
  | icbMwclr (r : Requester) (i : Island) (v : Word)
  /-- STRAP_SAMPLE (R67): Every 10 µs from 200 µs after power-on the strap pins are sampled until two consecutive samples agree. -/
  | strapSample (straps : BitVec 9)
  /-- EXTEST (R70): Loading EXTEST makes the boundary register drive the logic-level terminals and raises the test-access source. -/
  | extest
  /-- SAMPLE_PRELOAD (R69): Loading SAMPLE/PRELOAD makes the boundary register capture every terminal. -/
  | samplePreload (levels : List Bool)
  /-- CLAMP (R70): Loading CLAMP holds the logic-level terminals from the boundary register, selects BYPASS and raises the test-access source. -/
  | clamp
  /-- HIGHZ (R70): Loading HIGHZ places the logic-level terminals in high impedance, selects BYPASS and raises the test-access source. -/
  | highz
  /-- BYPASS (R69): Loading BYPASS, a debug code or an unlisted code selects the one-bit bypass register. -/
  | bypass (code : Byte)
  /-- RESET_N_REQUEST (R75): An external low on RESET_N of 2 µs or longer requests a reset at its mapped level. -/
  | resetNRequest
  /-- HOLD_EXPIRY (R107): 250 ms after the first reset of a series, channels still in hold go to their state of Table 2.11. -/
  | holdExpiry
  /-- DESCRIPTOR_TABLE_ERROR (R104): A double-bit error in a core's descriptor table resets at its mapped level. -/
  | descriptorTableError (c : CoreId)
  /-- SUPERVISOR_STATE_ERROR (R104): A parity error in the severity table or option shadow resets at its mapped level. -/
  | supervisorStateError (src : Option (Fin 256))
  /-- RETIREMENT_RECORD_ERROR (R104): A double-bit error in an island's retirement record shadow resets at its mapped level. -/
  | retirementRecordError (i : OutIsl)
  /-- RST_REQ (R106): A write of RST_REQ with KEY 0x5A resets at the requested level and target, or sets REQ_BAD. -/
  | rstReq (r : Requester) (v : Word)
  /-- OPTION_LOAD_COMPLETE (R115): The option loader finishes copying and trimming all OTP blocks, clears the failure count and releases RESET_N. -/
  | optionLoadComplete (dbe : Option (Fin 1024)) (fixes : Nat)
  /-- OPTION_LOAD_RETRY (R115): 100 µs after a failed attempt the option load restarts from word 0x0000. -/
  | optionLoadRetry
  /-- OTP_PROGRAM (R117): OTP_CMD with KEY 0xC3 and PROG programs one OTP word, or sets DENIED. -/
  | otpProgram (r : Requester) (v : Word)
  /-- OTP_PROGRAM_COMPLETE (R117): 100 µs after the command, OTP programming ends and BUSY clears, with FAIL on a failed verify. -/
  | otpProgramComplete (ok : Bool)
  /-- PAYLOAD_VERIFICATION_COMPLETE (R118): SEC completes the payload CMAC verification and sets or refuses the verified flag. -/
  | payloadVerificationComplete
  /-- ZERO_FILL_COMPLETE (R112): The zero-fill of shared SRAM and core-local memories completes. -/
  | zeroFillComplete
  /-- CALIBRATION_COMPLETE (R121): An output island ends current-sense self-calibration and sets its CAL_DONE bit. -/
  | calibrationComplete (i : OutIsl)
  /-- REFERENCE_FALLBACK (R124): The 25 MHz reference is not stable 5 ms after VPRE regulation and the PLLs fall back to the SUP RC. -/
  | referenceFallback
  /-- MARIONETTE_TABLE_READ (R125): The Marionette sequencer completes its read of the table, checks it and starts evaluation or sets TABLE_BAD. -/
  | marionetteTableRead
  /-- MARIONETTE_EVALUATE (R127): Every 1 ms the service evaluates the triggers and activates or ends entries, claiming channels from hold. -/
  | marionetteEvaluate
  /-- MARIONETTE_TOGGLE (R126): The on-time or off-time of a flashing or pulsing entry expires and its channel toggles or the latched entry completes. -/
  | marionetteToggle (e : Fin 48)
  /-- MAR_STOP (R128): MAR_CTRL.STOP ends every entry at once and uncommitted channels go to their Table 2.11 state. -/
  | marStop (r : Requester) (v : Word)
  /-- PARK_REQUEST (R90): PWR_CTRL with KEY 0xA5 and REQ Park is checked and, if accepted, moves the controller into Park. -/
  | parkRequest (r : Requester) (v : Word)
  /-- DEEP_PARK_REQUEST (R90): PWR_CTRL with KEY 0xA5 and REQ Deep Park is checked and, if accepted, moves the controller into Deep Park. -/
  | deepParkRequest (r : Requester) (v : Word)
  /-- WKL_WAKE (R367): A low held for 50 µs on WKL_A or WKL_B latches its wake cause.
  `us`: how long the level has been low. -/
  | wklWake (line : Fin 2) (us : Nat)
  /-- PARK_VBAT_LOW (R94): VBUS falls below the undervoltage threshold in a parking mode and sets WAKE_CAUSE.VBAT_LOW without waking. -/
  | parkVbatLow
  /-- PARK_VBAT_RETURN (R94): VBUS rises above the HOLD/REDUCED threshold in a parking mode and wakes with cause VBAT_RET if enabled. -/
  | parkVbatReturn
  /-- WAKE_CAUSE_CLEAR (R96): A W1C write to WAKE_CAUSE clears causes and returns WAKE_FIRST to 0x000F when none remain. -/
  | wakeCauseClear (r : Requester) (v : Word)
  /-- RTC_TICK (R98): The RTC advances at each 32.768 kHz tick and carries into the seconds count. -/
  | rtcTick
  /-- RTC_READ (R98): A read of RTC_SEC_LO captures RTC_SEC_HI and RTC_FRAC of the same tick. -/
  | rtcRead (r : Requester)
  /-- RTC_LOAD (R98): RTC_CMD.LOAD sets the seconds to RTC_LOAD and the fraction to 0. -/
  | rtcLoad (r : Requester) (v : Word)
  /-- SUPPLY_MEASURE_UPDATE (R96): Every 100 µs in Run the section and VBUS voltages are averaged and reported. -/
  | supplyMeasureUpdate (va : Word) (vb : Word) (vc : Word) (vd : Word) (vbus : Word)
  /-- VSEN_SHORT (R73): A short to battery switches a sensor supply off and reports it for as long as it lasts. -/
  | vsenShort (n : Fin 4) (kind : ShortKind) (present : Bool)
  /-- VSEN_RESTART (R88): A sensor supply restarts 10 ms after its short is removed. -/
  | vsenRestart (n : Fin 4)
  /-- LD (R171): LD loads ACC with the operand value. -/
  | ld (c : CoreId) (o : Opnd)
  /-- ST (R171): ST stores ACC to the memory operand. -/
  | st (c : CoreId) (o : Opnd)
  /-- LDE (R171): LDE loads ACE with the operand value. -/
  | lde (c : CoreId) (o : Opnd)
  /-- STE (R171): STE stores ACE to the memory operand. -/
  | ste (c : CoreId) (o : Opnd)
  /-- LDX (R171): LDX loads IX with the operand value. -/
  | ldx (c : CoreId) (o : Opnd)
  /-- STX (R171): STX stores IX to the memory operand. -/
  | stx (c : CoreId) (o : Opnd)
  /-- LDY (R171): LDY loads IY with the operand value. -/
  | ldy (c : CoreId) (o : Opnd)
  /-- STY (R171): STY stores IY to the memory operand. -/
  | sty (c : CoreId) (o : Opnd)
  /-- XCH (R171): XCH exchanges ACC with a memory word, not indivisibly. -/
  | xch (c : CoreId) (o : Opnd)
  /-- PUSH (R176): PUSH reads its operand and pushes it onto the stack. -/
  | push (c : CoreId) (o : Opnd)
  /-- POP (R176): POP pops the stack top into the memory operand. -/
  | pop (c : CoreId) (o : Opnd)
  /-- ADD (R171): ADD adds the operand to ACC. -/
  | add (c : CoreId) (o : Opnd)
  /-- ADC (R171): ADC adds the operand and carry to ACC. -/
  | adc (c : CoreId) (o : Opnd)
  /-- SUB (R171): SUB subtracts the operand from ACC. -/
  | sub (c : CoreId) (o : Opnd)
  /-- SBC (R171): SBC subtracts the operand and borrow from ACC. -/
  | sbc (c : CoreId) (o : Opnd)
  /-- CMP (R171): CMP sets flags from ACC minus the operand. -/
  | cmp (c : CoreId) (o : Opnd)
  /-- AND (R171): AND forms ACC AND the operand. -/
  | andOp (c : CoreId) (o : Opnd)
  /-- OR (R171): OR forms ACC OR the operand. -/
  | orOp (c : CoreId) (o : Opnd)
  /-- XOR (R171): XOR forms ACC XOR the operand. -/
  | xorOp (c : CoreId) (o : Opnd)
  /-- BIT (R171): BIT sets flags from ACC AND the operand. -/
  | bit (c : CoreId) (o : Opnd)
  /-- INC (R171): INC increments a memory word. -/
  | inc (c : CoreId) (o : Opnd)
  /-- DEC (R171): DEC decrements a memory word. -/
  | dec (c : CoreId) (o : Opnd)
  /-- ADM (R171): ADM adds ACC to a memory word. -/
  | adm (c : CoreId) (o : Opnd)
  /-- ORM (R171): ORM ORs ACC into a memory word. -/
  | orm (c : CoreId) (o : Opnd)
  /-- BCM (R171): BCM clears the bits of ACC in a memory word. -/
  | bcm (c : CoreId) (o : Opnd)
  /-- MUL (R173): MUL forms the unsigned 32-bit product in ACE:ACC. -/
  | mul (c : CoreId) (o : Opnd)
  /-- MULS (R173): MULS forms the signed 32-bit product in ACE:ACC. -/
  | muls (c : CoreId) (o : Opnd)
  /-- DIV (R173): DIV divides ACE:ACC unsigned, or raises the divide error. -/
  | div (c : CoreId) (o : Opnd)
  /-- DIVS (R173): DIVS divides ACE:ACC signed, or raises the divide error. -/
  | divs (c : CoreId) (o : Opnd)
  /-- SHL (R174): SHL shifts ACC left. -/
  | shl (c : CoreId) (o : Opnd)
  /-- SHR (R174): SHR shifts ACC right with zero fill. -/
  | shr (c : CoreId) (o : Opnd)
  /-- ASR (R174): ASR shifts ACC right with sign fill. -/
  | asr (c : CoreId) (o : Opnd)
  /-- ROL (R174): ROL rotates ACC left. -/
  | rol (c : CoreId) (o : Opnd)
  /-- ROR (R174): ROR rotates ACC right. -/
  | ror (c : CoreId) (o : Opnd)
  /-- SHLD (R174): SHLD shifts ACE:ACC left. -/
  | shld (c : CoreId) (o : Opnd)
  /-- SHRD (R174): SHRD shifts ACE:ACC right with zero fill. -/
  | shrd (c : CoreId) (o : Opnd)
  /-- ASRD (R174): ASRD shifts ACE:ACC right with sign fill. -/
  | asrd (c : CoreId) (o : Opnd)
  /-- EXB (R179): EXB extracts the selected byte of a word into ACC. -/
  | exb (c : CoreId) (o : Opnd)
  /-- INB (R179): INB replaces the selected byte of a word with ACC[7:0]. -/
  | inb (c : CoreId) (o : Opnd)
  /-- ADX (R171): ADX adds the operand to IX. -/
  | adx (c : CoreId) (o : Opnd)
  /-- ADY (R171): ADY adds the operand to IY. -/
  | ady (c : CoreId) (o : Opnd)
  /-- ADS (R171): ADS adds the operand to SP. -/
  | ads (c : CoreId) (o : Opnd)
  /-- CPX (R171): CPX sets flags from IX minus the operand. -/
  | cpx (c : CoreId) (o : Opnd)
  /-- CPY (R171): CPY sets flags from IY minus the operand. -/
  | cpy (c : CoreId) (o : Opnd)
  /-- JMP (R171): JMP loads PC with the operand value. -/
  | jmp (c : CoreId) (o : Opnd)
  /-- CALL (R176): CALL pushes the return offset and loads PC. -/
  | call (c : CoreId) (o : Opnd)
  /-- JMPF (R177): JMPF loads FC and PC from a checked far pointer. -/
  | jmpf (c : CoreId) (o : Opnd)
  /-- CALLF (R177): CALLF pushes FC and the return offset and loads FC and PC from a far pointer. -/
  | callf (c : CoreId) (o : Opnd)
  /-- BCC (R170): A branch of opcode 0x31 or 0x32 adds its displacement to PC when its condition holds. -/
  | bcc (c : CoreId) (cond : Cond) (d : BitVec 7)
  /-- LFD (R136): LFD loads the FD selector after validity and ownership checks. -/
  | lfd (c : CoreId) (o : Opnd)
  /-- LFE (R136): LFE loads the FE selector after validity and ownership checks. -/
  | lfe (c : CoreId) (o : Opnd)
  /-- LFS (R178): LFS loads the FS selector and suppresses events at the following boundary. -/
  | lfs (c : CoreId) (o : Opnd)
  /-- TAS (R180): TAS reads a word and writes 0xFFFF indivisibly. -/
  | tas (c : CoreId) (o : Opnd)
  /-- LRW (R181): LRW reads a word and places the core's reservation on it. -/
  | lrw (c : CoreId) (o : Opnd)
  /-- SCW (R181): SCW stores ACC only while the reservation holds and then clears FL.L. -/
  | scw (c : CoreId) (o : Opnd)
  /-- WEV (R183): WEV waits until a line in its 4-word mask is pending and returns that line in ACC. -/
  | wev (c : CoreId) (o : Opnd)
  /-- SEV (R185): SEV signals the logical cores named in its mask once earlier stores have drained. -/
  | sev (c : CoreId) (o : Opnd)
  /-- SEV_RAISE (R144): After the drain, line 8 + n is raised at every named core that is not in reset or retired. -/
  | sevRaise (c : CoreId)
  /-- SDT (R135): SDT checks a descriptor and writes it into the tables of every named owner core. -/
  | sdt (c : CoreId) (o : Opnd)
  /-- LDT (R135): LDT copies an entry of the core's own descriptor table to four words. -/
  | ldt (c : CoreId) (o : Opnd)
  /-- UNDEFINED_OPCODE (R166): An undefined encoding raises the illegal-instruction exception at decode. -/
  | undefinedOpcode (c : CoreId) (w : Word)
  /-- NOP (R172): NOP does nothing. -/
  | nop (c : CoreId)
  /-- CHK (R187): CHK takes a checkpoint in a lockstep pair and acts as NOP otherwise. -/
  | chk (c : CoreId)
  /-- RET (R172): RET pops PC. -/
  | ret (c : CoreId)
  /-- RETF (R177): RETF pops the return offset and FC word, checks the selector and loads FC and PC. -/
  | retf (c : CoreId)
  /-- RTE (R141): RTE restores PC, FC and FL from the stack and ends an exception in progress. -/
  | rte (c : CoreId)
  /-- EI (R172): EI sets FL.I. -/
  | ei (c : CoreId)
  /-- DI (R172): DI clears FL.I. -/
  | di (c : CoreId)
  /-- SWB (R172): SWB swaps the bytes of ACC. -/
  | swb (c : CoreId)
  /-- SXB (R172): SXB sign-extends ACC[7:0]. -/
  | sxb (c : CoreId)
  /-- NEG (R172): NEG negates ACC. -/
  | neg (c : CoreId)
  /-- NOT (R172): NOT complements ACC. -/
  | notOp (c : CoreId)
  /-- XAE (R172): XAE exchanges ACC and ACE. -/
  | xae (c : CoreId)
  /-- MVAX (R172): MVAX copies ACC to IX. -/
  | mvax (c : CoreId)
  /-- MVXA (R172): MVXA copies IX to ACC. -/
  | mvxa (c : CoreId)
  /-- MVAY (R172): MVAY copies ACC to IY. -/
  | mvay (c : CoreId)
  /-- MVYA (R172): MVYA copies IY to ACC. -/
  | mvya (c : CoreId)
  /-- MVAE (R172): MVAE copies ACC to ACE. -/
  | mvae (c : CoreId)
  /-- MVEA (R172): MVEA copies ACE to ACC. -/
  | mvea (c : CoreId)
  /-- MVAS (R172): MVAS copies ACC to SP. -/
  | mvas (c : CoreId)
  /-- MVSA (R172): MVSA copies SP to ACC. -/
  | mvsa (c : CoreId)
  /-- MVAF (R175): MVAF loads FL from ACC, never raising PRI. -/
  | mvaf (c : CoreId)
  /-- MVFA (R172): MVFA copies FL to ACC. -/
  | mvfa (c : CoreId)
  /-- RFCD (R172): RFCD reads FD and FC into ACC. -/
  | rfcd (c : CoreId)
  /-- RFES (R172): RFES reads FS and FE into ACC. -/
  | rfes (c : CoreId)
  /-- PSHA (R172): PSHA pushes ACC. -/
  | psha (c : CoreId)
  /-- POPA (R172): POPA pops ACC. -/
  | popa (c : CoreId)
  /-- PSHE (R172): PSHE pushes ACE. -/
  | pshe (c : CoreId)
  /-- POPE (R172): POPE pops ACE. -/
  | pope (c : CoreId)
  /-- PSHX (R172): PSHX pushes IX. -/
  | pshx (c : CoreId)
  /-- POPX (R172): POPX pops IX. -/
  | popx (c : CoreId)
  /-- PSHY (R172): PSHY pushes IY. -/
  | pshy (c : CoreId)
  /-- POPY (R172): POPY pops IY. -/
  | popy (c : CoreId)
  /-- PSHF (R172): PSHF pushes FL. -/
  | pshf (c : CoreId)
  /-- POPF (R175): POPF pops FL, never raising PRI. -/
  | popf (c : CoreId)
  /-- INX (R172): INX increments IX. -/
  | inx (c : CoreId)
  /-- DEX (R172): DEX decrements IX. -/
  | dex (c : CoreId)
  /-- INY (R172): INY increments IY. -/
  | iny (c : CoreId)
  /-- DEY (R172): DEY decrements IY. -/
  | dey (c : CoreId)
  /-- CLC (R172): CLC clears the carry flag. -/
  | clc (c : CoreId)
  /-- STC (R172): STC sets the carry flag. -/
  | stc (c : CoreId)
  /-- NEGD (R172): NEGD negates ACE:ACC. -/
  | negd (c : CoreId)
  /-- EVENT_ENTRY (R141): At an instruction boundary the core enters the highest pending enabled line above PRI. -/
  | eventEntry (c : CoreId)
  /-- CHECKPOINT (R151): A lockstep pair reaches a checkpoint condition, copies its registers and empties the rollback log. -/
  | checkpoint (c : CoreId)
  /-- CHECKPOINT_WRITE_DONE (R151): The background write of a checkpoint record to shared SRAM completes. -/
  | checkpointWriteDone (c : CoreId)
  /-- LOCKSTEP_MISMATCH (R153): The comparator sees the two cores disagree and the pair rolls back and replays. -/
  | lockstepMismatch (c : CoreId)
  /-- ROLLBACK_COMPLETE (R153): Replay reaches the mismatching instruction and agreement resumes execution or a disagreement counts again. -/
  | rollbackComplete (c : CoreId) (result : Replay)
  /-- TAKEOVER_COMPLETE (R156): The spare completes its takeover replay and runs the logical pair. -/
  | takeoverComplete (c : CoreId) (result : Replay)
  /-- MISMATCH_WINDOW_END (R154): The 1 s window of LS_MISMATCH expires. -/
  | mismatchWindowEnd (c : CoreId)
  /-- SPARE_DESIGNATE (R155): A write of CCB_SPARE by a core of the named pair places it in standby and makes its logical pair dormant. -/
  | spareDesignate (r : Requester) (v : Word)
  /-- TIMER_EXPIRY (R157): TMR_0 or TMR_1 reaches zero, raises line 6 or 7 and reloads or stops. -/
  | timerExpiry (c : CoreId) (n : Fin 2)
  /-- CYC_READ (R157): A read of CYC_LO captures CYC_HI. -/
  | cycRead (r : Requester) (c : CoreId)
  /-- WDG_KICK (R158): A write to WDG_KICK is judged as part of the kick sequence, reloading or expiring the watchdog. -/
  | wdgKick (r : Requester) (c : CoreId) (v : Word)
  /-- WATCHDOG_WARNING (R158): The watchdog count falls to TIMEOUT / 8 and raises line 5. -/
  | watchdogWarning (c : CoreId)
  /-- WATCHDOG_EXPIRY (R158): The watchdog count expires and acts as reset source 4. -/
  | watchdogExpiry (c : CoreId)
  /-- STAGING_WRITE (R191): A write to a staging word of a channel port stores it if the requester owns the channel, else counts in REJECT. -/
  | stagingWrite (r : Requester) (ch : ChanRef) (w : Fin 15) (v : Word)
  /-- COMMIT (R192): A write to COMMIT snapshots and checks the staging words and applies them or holds them for a period boundary. -/
  | commit (r : Requester) (ch : ChanRef) (v : Word)
  /-- PERIOD_BOUNDARY (R193): A channel reaches a PWM period boundary, where a pending snapshot or lamp result is applied. -/
  | periodBoundary (ch : ChanRef)
  /-- PROFILE_LOAD (R199): PROF_CMD.LOAD starts copying a profile table from shared SRAM or refuses it. -/
  | profileLoad (r : Requester) (i : OutIsl) (v : Word)
  /-- PROFILE_SWAP (R200): The profile copy completes and the banks swap, or the load is refused and the old table kept. -/
  | profileSwap (i : OutIsl)
  /-- RETRY_PAUSE_END (R205): A retry pause elapses and the channel waits at its restart gate. -/
  | retryPauseEnd (ch : ChanRef)
  /-- FORGIVE_EXPIRY (R233): FORGIVE of conducting quiet time passes and COUNT decreases by one. -/
  | forgiveExpiry (ch : ChanRef)
  /-- RECUR_AGEING (R205): A counted trip leaves the RECUR_WIN window and RECUR decreases. -/
  | recurAgeing (ch : ChanRef)
  /-- RETIREMENT_RECORD_WRITE (R210): A queued retirement record, or a compaction, is programmed into a settings generation's area. -/
  | retirementRecordWrite (i : OutIsl)
  /-- RET_CLEAR (R214): A write of RET_CLEAR with KEY 0x3C by an authorised core clears a retirement, or sets DENIED. -/
  | retClear (r : Requester) (i : OutIsl) (v : Word)
  /-- PARTNER_TAKEOVER (R216): A partner adopts a retired channel's active set and starts carrying its load. -/
  | partnerTakeover (ch : ChanRef)
  /-- SHORT_COMPARATOR_TRIP (R230): A short comparator trips within 2 µs and turns the stage off as a counted trip.
  `i`: the side's current in the island's unit, of a row switch in 10 mA. -/
  | shortComparatorTrip (ch : ChanRef) (side : Side) (i : Nat)
  /-- LIMIT_TRIP (R229): Current above the limit in force for the filter time of its load type trips the channel.
  `i`: the lowest current of the last `us` microseconds (of on-time); `term`: the terminal in 10 mV. -/
  | limitTrip (ch : ChanRef) (i : Nat) (us : Nat) (term : Nat)
  /-- INRUSH_WINDOW_END (R228): An inrush window ends and the steady limit applies, with the capacitive-input check at its end.
  `term`: the terminal in 10 mV. -/
  | inrushWindowEnd (ch : ChanRef) (term : Nat)
  /-- THERMAL_LATCH_SET (R234): TJ or DT exceeds its limit at two samples and the thermal latch turns the channel off. -/
  | thermalLatchSet (u : ThermRef) (a : Therm) (b : Therm)
  /-- THERMAL_LATCH_CLEAR (R234): TJ and DT fall below their restart thresholds at two samples and the latch clears. -/
  | thermalLatchClear (u : ThermRef) (a : Therm) (b : Therm)
  /-- WIRE_MODEL_UPDATE (R236): Every 1 ms each channel updates its wire temperature model. -/
  | wireModelUpdate (ch : ChanRef) (meanSquare : Nat)
  /-- CHANNEL_START (R246): A channel waiting to conduct starts once every condition of its restart gate holds. -/
  | channelStart (ch : ChanRef)
  /-- GOVERNOR_EVALUATION (R241): Every 10 ms the governor forms P_now and P_sum, sets its level and adjusts ceilings. -/
  | governorEvaluation (p : GovInput)
  /-- SECTION_CURRENT_UPDATE (R245): Every 1 ms SW sums section currents and raises the section-current source above SEC_IWARN. -/
  | sectionCurrentUpdate (sec : Fin 4) (mean : Nat)
  /-- CURRENT_MEASUREMENT (R250): A current conversion gives an on-state evidence point and updates CURRENT. -/
  | currentMeasurement (ch : ChanRef) (m : Measure)
  /-- OFF_STATE_CHECK (R251): An off-state check reads the terminal against the 20 µA source and gives an evidence point. -/
  | offStateCheck (ch : ChanRef) (v : Nat) (pair : Option Nat)
  /-- SHORT_BAT_CONFIRM (R251): 1 ms after a high off-state reading the terminal is read again to confirm SHORT_BAT. -/
  | shortBatConfirm (ch : ChanRef) (v : Nat) (pair : Option Nat)
  /-- OPEN_CONFIRM (R253): OPEN points without interruption for OPEN_T make CODE OPEN. -/
  | openConfirm (ch : ChanRef)
  /-- HB_REGULATION_PERIOD (R257): At each period end an HB channel in ISLAND adjusts its duty toward IREG. -/
  | hbRegulationPeriod (ch : ChanRef) (mean : Int)
  /-- STALL_DETECT (R258): Current at or above PARAM_A for STALL_T sets STALL and applies STALL_ACT.
  `i`: the least magnitude of the last `ms` milliseconds in 10 mA. -/
  | stallDetect (ch : ChanRef) (i : Nat) (ms : Nat)
  /-- PEAK_START (R281): A waiting valve peak starts when the scheduling rules and energy check allow. -/
  | peakStart (n : Fin 16) (vbst : Nat)
  /-- PEAK_END (R269): A valve peak ends at I_PEAK, at T_PKMAX or at the pulse end, and the channel quenches to hold. -/
  | peakEnd (n : Fin 16) (why : PeakEnd) (drawn : Nat) (vbst : Nat)
  /-- PULSE_END (R265): An ISLAND pulse reaches its length and the valve turns off. -/
  | pulseEnd (n : Fin 16) (vbst : Nat)
  /-- TURN_OFF_END (R272): A valve's quench current falls below 50 mA and the turn-off ends.
  `i`: that current in mA. -/
  | turnOffEnd (n : Fin 16) (i : Nat)
  /-- PEAK_ABANDON (R282): A start not begun within DELAY_MAX is abandoned with SCHED set. -/
  | peakAbandon (n : Fin 16)
  /-- BOOST_UNDER (R276): VBST falls below BST_VMIN and UNDER is set and reported. -/
  | boostUnder (vbst : Nat)
  /-- BOOST_FAULT (R276): VBST stays below 90 % of BST_SET for 100 ms while the boost runs. -/
  | boostFault (vbst : Nat)
  /-- VL_SHORT_GND_TRIP (R285): A VL terminal below 1 V for 5 µs trips SHORT_GND and turns the bank rail off.
  `v`: the highest terminal voltage in 10 mV of the last `us` microseconds. -/
  | vlShortGndTrip (n : Fin 16) (v : Nat) (us : Nat)
  /-- RAIL_SHORT_TRIP (R286): The VH short comparator trips with no VL low, turning the rail off and counting BRETRY.
  `i`: the rail current in 10 mA; `v`: the lowest VL terminal of the bank in 10 mV. -/
  | railShortTrip (k : Fin 4) (i : Nat) (v : Nat)
  /-- RAIL_RETRY (R286): A rail retry pause elapses and the rail returns. -/
  | railRetry (k : Fin 4)
  /-- BANK_OFF_CHECK (R284): Every 10 ms with the rail OFF the bank runs its off-state phases and sets or clears NODELOW. -/
  | bankOffCheck (k : Fin 4) (node : Nat)
  /-- BANK_CLR (R286): A write of BANK_CLR with KEY 0x69 from an authorised core clears rail-short locks. -/
  | bankClr (r : Requester) (v : Word)
  /-- LUX_GC_WRITE (R308): A write to LUX_GC sets PEND and triggers evaluation of every lamp. -/
  | luxGcWrite (r : Requester) (v : Word)
  /-- FRAME_START (R298): A matrix frame starts, taking pending swaps and settings changes. -/
  | frameStart
  /-- ROW_SLOT (R298): A row slot opens with blanking and lights the pixels of its row.
  `cur`: the columns' currents in µA as measured in the slot. -/
  | rowSlot (row : Fin 12) (parityBad : List (Fin 96)) (cur : List (Fin 96 × Nat))
  /-- FRAME_SWAP (R300): FB_CMD.SWAP requests a buffer swap at the next frame start. -/
  | frameSwap (r : Requester)
  /-- FRAME_LOAD (R302): FB_CMD.LOAD starts copying 1152 words from shared SRAM into the back buffer, or sets LERR. -/
  | frameLoad (r : Requester)
  /-- FRAME_LOAD_COMPLETE (R302): The frame load ends, completely or with LERR on a double-bit error. -/
  | frameLoadComplete
  /-- FRAME_BUFFER_WRITE (R300): A write to a frame buffer is applied, or discarded with FWR set. -/
  | frameBufferWrite (r : Requester) (a : Fin 2304) (v : Word)
  /-- LXSYNC_EDGE (R301): An accepted LXSYNC edge starts a frame; an early one is counted in LX_EARLY. -/
  | lxsyncEdge (rising : Bool)
  /-- LXSYNC_MISS (R301): No edge by 1.1 × FR_PERIOD starts the frame internally and counts LX_LATE, with SYNCLOST after 8. -/
  | lxsyncMiss
  /-- CALIBRATION_LOAD (R305): LUX_CALCMD.LOAD starts copying the lamp calibration records. -/
  | calibrationLoad (r : Requester) (v : Word)
  /-- CALIBRATION_SWAP (R305): The calibration copy completes and the banks swap or the swap is refused. -/
  | calibrationSwap
  /-- LAMP_EVALUATION_TICK (R307): Every 10 ms the colour engine starts evaluating each lamp. -/
  | lampEvaluationTick (tdie : Int)
  /-- LAMP_EVALUATION_DONE (R306): A lamp evaluation completes and its on-counts wait for the leader's next period boundary. -/
  | lampEvaluationDone (k : Fin 64)
  /-- LS_SHORT_TRIP (R312): An LS terminal at or above SHORT_V for 50 µs of on-time trips SHORT_BAT.
  `v`: the lowest terminal voltage in 10 mV of the last `us` microseconds of on-time. -/
  | lsShortTrip (n : Fin 96) (v : Nat) (us : Nat)
  /-- INPUT_FILTER_TICK (R321): At each tick an SI or FI input samples its comparator and updates its integrating filter, STATE and wire break. -/
  | inputFilterTick (b : InBank) (n : Fin 48) (raw : Bool) (cur : Nat)
  /-- INPUT_CONFIG_WRITE (R323): A write of THR or TICKSEL presets the input's filter from its next sample. -/
  | inputConfigWrite (r : Requester) (b : InBank) (n : Fin 48) (v : Word)
  /-- SI_CONVERSION (R325): Every 1 ms each switch input's terminal voltage is converted and analog results formed. -/
  | siConversion (n : Fin 48) (v20 : Word) (ratio : Word) (ohm : Nat)
  /-- VSNS_LIMIT (R328): VSNS enters or leaves current limit, holding DIR = 0 inputs and raising the VSNS overload source. -/
  | vsnsLimit (on : Bool)
  /-- CYCLIC_SENSE_PULSE (R330): Every CS_PERIOD AON pulses the wetting of selected inputs and samples them as one filter tick. -/
  | cyclicSensePulse (raw : BitVec 48)
  /-- BARRIER_PATH_FAIL (R333): One transformer path fails and the barrier power source is raised. -/
  | barrierPathFail (path : Fin 2) (failed : Bool)
  /-- FIELD_POWER_LOSS (R333): FLD loses power and every FO output turns off. -/
  | fieldPowerLoss
  /-- FIELD_POWER_UP (R333): Field-side power returns and FLD is released with filters preset and retirement restored. -/
  | fieldPowerUp
  /-- VFLD_STATE_CHANGE (R338): VFLD crosses a threshold for its filter and changes between OK, LOW and MISSING. -/
  | vfldStateChange (st : VfldState) (v : Word)
  /-- VFLD_MISSING_CROSSING (R340): VFLD crosses the MISSING falling threshold and SUPDEP inputs stop their counters at once. -/
  | vfldMissingCrossing (below : Bool)
  /-- INPUT_LOG_WRITE (R346): FLD writes a queued input change entry into the log ring. -/
  | inputLogWrite
  /-- CAN_FRAME_RECEIVED (R359): A CAN frame received is routed, delivered to rings, matched against wake filters or taken by the ring engine. -/
  | canFrameReceived (n : Fin 8) (rx : CanRx)
  /-- ETH_FRAME_RECEIVED (R355): An Ethernet frame received is checked and routed by its VLAN key. -/
  | ethFrameReceived (n : Fin 6) (f : EthFrame)
  /-- RECEIVE_RECORD_WRITE (R358): NET writes a received record into a ring, advances WP and raises the ring event. -/
  | receiveRecordWrite (k : Fin 8)
  /-- FRAME_TRANSMITTED (R358): A port completes a frame transmission and advances TXR_RP or its gateway queue; `ok = false`
  is a wake frame's sixteenth attempt without success (R368). -/
  | frameTransmitted (p : Fin 14) (ok : Bool)
  /-- TXR_WP_WRITE (R358): A write of TXR_WP hands completed records to the port for transmission. -/
  | txrWpWrite (r : Requester) (p : Fin 14) (v : Word)
  /-- CAN_MODE_WRITE (R353): A write to CAN_MODE takes effect, or is held while WFBUSY is set. -/
  | canModeWrite (r : Requester) (n : Fin 8) (v : Word)
  /-- CAN_BUS_OFF (R353): A CAN channel reaches bus-off, leaves the bus and raises the bus-off source. -/
  | canBusOff (n : Fin 8)
  /-- CAN_BOREC (R353): CAN_BOREC.RECOVER starts bus-off recovery. -/
  | canBorec (r : Requester) (n : Fin 8) (v : Word)
  /-- LIN_HEADER (R354): A LIN header on the bus makes the channel publish, subscribe or ignore by its frame entry.
  `rate`: the bit rate of its sync field in 10 bit/s. -/
  | linHeader (n : Fin 12) (id : BitVec 6) (rate : Nat)
  /-- LIN_RESPONSE (R354): A subscribed LIN response completes into LIN_DATA with RXOK or an error flag. -/
  | linResponse (n : Fin 12) (rsp : LinRsp)
  /-- LIN_HDR (R354): A commander write of LIN_HDR sends break, sync and protected ID. -/
  | linHdr (r : Requester) (n : Fin 12) (v : Word)
  /-- LIN_PUB (R354): A write of PUB copies the staging words into the publish buffer. -/
  | linPub (r : Requester) (n : Fin 12) (id : BitVec 6)
  /-- LIN_WAKE_SEND (R354): LIN_WAKE.SEND drives a 1 ms dominant wake-up signal. -/
  | linWakeSend (r : Requester) (n : Fin 12) (v : Word)
  /-- LIN_WAKE (R366): 150 µs of dominant level on an armed LIN channel latches the LIN wake cause.
  `us`: how long the level has been dominant. -/
  | linWake (n : Fin 12) (us : Nat)
  /-- CAN_WAKE_PATTERN (R365): In Deep Park an ISO 11898-2 wake-up pattern on an armed channel latches the CAN wake cause.
  `phase`: the shortest phase of the pattern in 0.5 µs; `us`: the time the whole pattern took. -/
  | canWakePattern (n : Fin 8) (phase : Nat) (us : Nat)
  /-- TC10_WAKE (R366): A TC10 wake-up pulse on an armed 100BASE-T1 port in Park latches the T1 wake cause. -/
  | tc10Wake (n : Fin 2)
  /-- SLEEPREQ (R356): ETH_TC10.SLEEPREQ starts the TC10 sleep handshake. -/
  | sleepreq (r : Requester) (n : Fin 2)
  /-- WUR (R350): ETH_TC10.WUR sends a TC10 wake-up request. -/
  | wur (r : Requester) (n : Fin 2)
  /-- GWSWAP (R360): NET_CMD.GWSWAP checks the back route bank and schedules the swap or sets ROUTEBAD. -/
  | gwswap (r : Requester)
  /-- ROUTE_SWAP_APPLY (R360): The accepted route table swap takes place between frames of every port. -/
  | routeSwapApply
  /-- GW_ISO_WRITE (R362): A write of GW_ISO isolates or frees gateway ports. -/
  | gwIsoWrite (r : Requester) (v : Word)
  /-- WFSEND (R368): NET_CMD.WFSEND sends the wake frames, LIN wake signals and TC10 wakes. -/
  | wfsend (r : Requester)
  /-- WKL_PULSE (R363): WKL_CMD PULSE_A or PULSE_B drives a wake line low. -/
  | wklPulse (r : Requester) (v : Word)
  /-- WKL_PULSE_END (R363): The wake line pulse reaches WKL_PULSE and the line is released. -/
  | wklPulseEnd (line : Fin 2)
  /-- NET_US_READ (R359): A read of NET_US_LO captures NET_US_HI. -/
  | netUsRead (r : Requester)
  /-- RING_ENABLE (R378): TR_CTRL.EN written 1 sends JOIN and enters JOINING. -/
  | ringEnable (r : Requester) (v : Word)
  /-- JOIN (R371): A received JOIN adds the sender and sets reset pending, cancelling a sleep in the quiet window. -/
  | joinFrame (n : Fin 8) (f : RingFrame)
  /-- LEAVE (R371): A received LEAVE removes the sender from the member list. -/
  | leaveFrame (n : Fin 8) (f : RingFrame)
  /-- TOKEN (R372): A received TOKEN updates membership and makes the named node the holder. -/
  | tokenFrame (n : Fin 8) (f : RingFrame)
  /-- RING_COMMIT (R373): A received COMMIT starts the 200 ms quiet window at every member. -/
  | ringCommit (n : Fin 8) (f : RingFrame)
  /-- REVOKE (R374): A REVOKE received in time cancels the sleep and returns members to AWAKE. -/
  | revokeFrame (n : Fin 8) (f : RingFrame)
  /-- OVERRULE (R376): A received OVERRULE removes and bars the named node, which enters OVERRULED if itself. -/
  | overruleFrame (n : Fin 8) (f : RingFrame)
  /-- TOKEN_FORWARD (R372): TR_PACE after receiving the token the holder votes and sends TOKEN or COMMIT. -/
  | tokenForward
  /-- TOKEN_RESEND (R372): A silent successor after TR_PACE + 25 ms makes the holder resend or skip it. -/
  | tokenResend
  /-- TOKEN_LOST (R378): No TOKEN seen for TR_LOST makes a member regenerate the token. -/
  | tokenLost
  /-- QUIET_WINDOW_END (R375): At 202 ms into the window a member goes to SLEEP_DUE and requests its AUTOPARK mode. -/
  | quietWindowEnd
  /-- TR_REVOKE (R374): TR_CMD.REVOKE sends REVOKE within the quiet window. -/
  | trRevoke (r : Requester)
  /-- TR_LEAVE (R371): TR_CMD.LEAVE sends LEAVE and enters LEFT. -/
  | trLeave (r : Requester)
  /-- UNBAR (R376): TR_CMD.UNBAR clears every bar and leaves OVERRULED. -/
  | unbar (r : Requester)
  /-- GENERAL_SESSION (R393): ACC_CMD OP 1 starts a general access session on the antenna mask. -/
  | generalSession (r : Requester) (v : Word)
  /-- ADDRESSED_SESSION (R393): ACC_CMD OP 2 starts an addressed session for one slot. -/
  | addressedSession (r : Requester) (v : Word)
  /-- SESSION_ABORT (R393): ACC_CMD OP 3 aborts the session in progress without grant. -/
  | sessionAbort (r : Requester) (v : Word)
  /-- SESSION_PHASE_END (R393): A session phase reaches its end time and the next phase, addressed challenges or the final grant follows;
  `peak` has the peak currents of AN0 on over the frames that end with it, in 10 mA (R381). -/
  | sessionPhaseEnd (peak : List Nat)
  /-- UHF_FRAME_RECEIVED (R394): A UHF frame is received and authenticates a slot, counts as unknown, or latches the LF wake cause in Park.
  `pre`: how long ago its preamble began, in µs. -/
  | uhfFrameReceived (pre : Nat) (crcOk : Bool) (bytes : List Byte)
  /-- RNG_ARM (R396): RNG_ARM arms ranging for a slot on a UWB port. -/
  | rngArm (r : Requester) (v : Word)
  /-- RNG_TROUND (R396): A write of RNG_TROUND_2 computes RNG_DIST and judges the distance bound. -/
  | rngTround (r : Requester) (v : Word)
  /-- SPI_DATA_WRITE (R380): A write of SPI_DATA sends a byte on a SECSPI port and queues the received byte. -/
  | spiDataWrite (r : Requester) (p : Fin 2) (v : Word) (reply : Byte)
  /-- ENROLMENT (R391): ENR_CMD with KEY 0xE7 and REVOKE 0 checks and challenges a token for enrolment into a slot. -/
  | enrolment (r : Requester) (v : Word)
  /-- ENROLMENT_COMPLETE (R391): The enrolment response arrives or times out and the OTP word and slot records are programmed;
  `peak` is the peak current of the challenge's antenna in 10 mA (R381). -/
  | enrolmentComplete (rsp : Option (List Byte)) (programmed : Bool) (peak : Nat)
  /-- REVOCATION (R392): ENR_CMD with KEY 0xE7 and REVOKE 1 revokes a slot and programs it revoked in both generations. -/
  | revocation (r : Requester) (v : Word)
  /-- POLL (R398): Every POLL_PER in Park AON sends the presence pattern and opens the UHF listen window. -/
  | poll
  /-- POLL_WINDOW_END (R398): The listen window closes, with a spread poll due after a CRC-failed preamble. -/
  | pollWindowEnd
  /-- SPREAD_POLL (R399): 20 ms after a corrupted preamble AON sends the spread poll and listens 21 ms. -/
  | spreadPoll
  /-- POLL_STOP (R400): Park time reaches DAYS and AON stops polling and changes the controller to Deep Park. -/
  | pollStop
  /-- IMMO_RELEASE (R401): IMMO_CMD OP 1 builds a release frame under the five conditions or records a refusal. -/
  | immoRelease (r : Requester) (v : Word)
  /-- IMMO_LOCK (R401): IMMO_CMD OP 2 builds a lock frame. -/
  | immoLock (r : Requester) (v : Word)
  /-- IMMO_SET (R402): IMMO_CMD OP 3 sets IMMO_CNT once per L0. -/
  | immoSet (r : Requester) (v : Word)
  /-- KS_LOAD (R412): KS_CMD OP 1 unwraps a root blob from shared SRAM into an empty slot. -/
  | ksLoad (r : Requester) (v : Word)
  /-- KS_LOADOTP (R412): KS_CMD OP 2 unwraps a root blob from OTP block 7 into an empty slot. -/
  | ksLoadotp (r : Requester) (v : Word)
  /-- KS_GEN (R412): KS_CMD OP 3 draws a random key into a slot and writes its root blob. -/
  | ksGen (r : Requester) (v : Word)
  /-- KS_IMPORT (R412): KS_CMD OP 4 rewraps a transport blob in place as a root blob. -/
  | ksImport (r : Requester) (v : Word)
  /-- KS_ERASE (R412): KS_CMD OP 5 empties a slot. -/
  | ksErase (r : Requester) (v : Word)
  /-- KEY_STORE_COMPLETE (R412): A key store command finishes and KS_STAT reports its code. -/
  | keyStoreComplete
  /-- JOB_STAGING_WRITE (R415): A write to a job context staging word is stored, or discarded for a wrong owner or while busy with WBUSY set. -/
  | jobStagingWrite (r : Requester) (j : Fin 4) (w : Fin 26) (v : Word)
  /-- JOB_GO (R415): A write of JOB_GO snapshots the job context and queues the job. -/
  | jobGo (r : Requester) (j : Fin 4) (v : Word)
  /-- JOB_START (R416): The engine takes the next queued job and makes its checks. -/
  | jobStart
  /-- JOB_COMPLETE (R417): A job finishes, zeroing output on failure and writing tag, IV, counts and status. -/
  | jobComplete
  /-- TRN_READ (R420): A read of TRN_DATA returns 16 fresh random bits or 0x0000. -/
  | trnRead (r : Requester)
  /-- RANDOM_HEALTH_FAIL (R420): The noise source fails a health test, setting FAIL and raising its source until 1024 samples pass. -/
  | randomHealthFail (failed : Bool)
  /-- ERASING_ALARM (R421): An alarm condition at the end of its filter erases every key slot, key register and the cipher buffer. -/
  | erasingAlarm (a : Fin 5)
  /-- ALARM_END (R423): The last alarm condition ends and SEC reloads the root key, K_T and slot 0. -/
  | alarmEnd (a : Fin 5)
  /-- SOURCE_ACTIVATION (R433): A fault source activates and the Sampler applies the reaction of its severity word. -/
  | sourceActivation (s : Fin 256)
  /-- SOURCE_RELEASE (R442): A level source releases, stopping its retry timer and logging the release when REL is set. -/
  | sourceRelease (s : Fin 256)
  /-- WIRE_FAULT (R428): A pair shows equal rails at 3 samples and the source counts as active with WIRE set. -/
  | wireFault (s : Fin 256) (rails : List (Bool × Bool))
  /-- WIRE_FAULT_END (R428): A pair reads complementary at 3 samples and the source takes its shown state. -/
  | wireFaultEnd (s : Fin 256) (rails : List (Bool × Bool))
  /-- SOURCE_CHECK_RESUME (R429): 64 SUP cycles after an island reports RUN the Sampler resumes checking its sources. -/
  | sourceCheckResume (i : Island)
  /-- ESCALATION (R434): A severity 2 level source still active at SMP_RTIME expiry has its ESC severity applied. -/
  | escalation (s : Fin 256)
  /-- ESCALATION_WINDOW_END (R434): The 1 s count window of an event source at severity 2 ends without escalation. -/
  | escalationWindowEnd (s : Fin 256)
  /-- SAFE_END (R437): SMP_CMD.SAFE_END clears the safe latch and channels return to their active sets as starts. -/
  | safeEnd (r : Requester) (v : Word)
  /-- FIRST_CLR (R443): SMP_CMD.FIRST_CLR clears the first-fault record. -/
  | firstClr (r : Requester) (v : Word)
  /-- SAMPLER_LOG_WRITE (R442): The Sampler writes a queued log entry into the ring in shared SRAM. -/
  | samplerLogWrite
  /-- PORT_TRAINED (R447): A link port completes training and exchanges HELLO. -/
  | portTrained (p : Fin 4) (offBoard : Bool)
  /-- PORT_TRAIN_TIMEOUT (R447): An auto port not trained on board within 100 µs trains off board. -/
  | portTrainTimeout (p : Fin 4)
  /-- LINK_RESEND (R450): 1 µs without acknowledgement progress resends from the first unacknowledged stitch. -/
  | linkResend (p : Fin 4)
  /-- PORT_DOWN (R450): A port goes down after 8 fruitless resends or 10 µs without link words and routes move. -/
  | portDown (p : Fin 4)
  /-- STITCH_ARRIVAL (R456): A stitch arrives with a good CRC and is delivered locally, forwarded, dropped at the hop limit or answered unreachable. -/
  | stitchArrival (p : Fin 4) (lw : Word) (st : Stitch)
  /-- READ (R459): An inbound READ is checked and answered with RDATA or ERROR. -/
  | readStitch (p : Fin 4) (st : Stitch)
  /-- WRITE (R459): An inbound WRITE is checked, applied and answered with WACK or ERROR. -/
  | writeStitch (p : Fin 4) (st : Stitch)
  /-- RDATA (R458): An RDATA response completes the waiting remote load. -/
  | rdata (st : Stitch)
  /-- WACK (R458): A WACK response completes a posted remote store. -/
  | wack (st : Stitch)
  /-- CHCMD (R460): An inbound CHCMD writes masked staging words and COMMIT and answers CHACK. -/
  | chcmd (p : Fin 4) (st : Stitch)
  /-- CHACK (R460): A CHACK loads CC_STATE, CC_ACK and CC_ACKSRC and flags DONE. -/
  | chack (st : Stitch)
  /-- MAIL (R461): An inbound MAIL is stored in its mailbox or answered full or refused. -/
  | mail (p : Fin 4) (st : Stitch)
  /-- MACK (R461): A MACK completes a mailbox send and loads MBX_TXSTAT. -/
  | mack (st : Stitch)
  /-- RESET (R462): An inbound RESET stitch passing its checks resets the device as source 13. -/
  | resetStitch (p : Fin 4) (st : Stitch)
  /-- ERROR (R458): An ERROR response fails the waiting remote load or counts a failed store. -/
  | errorStitch (st : Stitch)
  /-- HELLO (R454): A HELLO from a neighbour brings the port UP or sets SYSMIS. -/
  | hello (p : Fin 4) (st : Stitch)
  /-- LINKS (R455): A LINKS stitch is flooded and routes are recomputed. -/
  | linksDisc (p : Fin 4) (st : Stitch)
  /-- NEGREQ (R454): A NEGREQ is flooded and recorded by the allocator. -/
  | negreq (p : Fin 4) (st : Stitch)
  /-- NEGGRANT (R454): A NEGGRANT gives the requester its negotiated ID. -/
  | neggrant (p : Fin 4) (st : Stitch)
  /-- NEGREQ_TIMER (R454): Every 1 ms a device without an ID floods NEGREQ. -/
  | negreqTimer
  /-- NEG_ALLOCATE (R454): 2 ms after its first port came up the allocator grants the requests heard. -/
  | negAllocate
  /-- NEG_FAIL (R454): A negotiating device ungranted after 20 ms sets NEGFAIL. -/
  | negFail
  /-- DISCOVERY_DONE (R454): 1 ms after the last topology change DISC_DONE is set and the discovery event raised. -/
  | discoveryDone
  /-- REMOTE_TIMEOUT (R458): A remote request unanswered within APR_TOUT faults the load or counts the store. -/
  | remoteTimeout (tag : Byte)
  /-- CC_GO (R460): A write of CC_GO sends a CHCMD to the target device. -/
  | ccGo (r : Requester) (v : Word)
  /-- MBX_TXGO (R461): A write of MBX_TXGO sends a MAIL. -/
  | mbxTxgo (r : Requester) (v : Word)
  /-- LNK_RRST (R462): LNK_RRST with KEY 0x5A from an authorised core sends a RESET stitch or sets DENIED. -/
  | lnkRrst (r : Requester) (v : Word)
  /-- PORT_RESTART (R463): PCMD.RESTART lets a shut port train again. -/
  | portRestart (r : Requester) (p : Fin 4) (v : Word)
  /-- PORT_DOWN_REPORT (R463): An enabled port not UP from 1 ms after release raises the link-port-down source. -/
  | portDownReport (p : Fin 4)
  /-- FLASH_PROGRAM (R470): FL_CMD OP 1 programs words into program or settings flash after its checks. -/
  | flashProgram (r : Requester) (v : Word)
  /-- FLASH_ERASE (R470): FL_CMD OP 2 erases a sector or a settings page. -/
  | flashErase (r : Requester) (v : Word)
  /-- FLASH_ERASE_BANK (R470): FL_CMD OP 3 erases a program flash bank. -/
  | flashEraseBank (r : Requester) (v : Word)
  /-- FLASH_ERASE_GEN (R470): FL_CMD OP 4 erases a settings generation except its kept areas. -/
  | flashEraseGen (r : Requester) (v : Word)
  /-- FLASH_COMPLETE (R470): A flash operation finishes and FL_STAT reports its code. -/
  | flashComplete (verifyOk : Bool)
  /-- OPEN (R474): UPD_CMD OP 1 checks a part header and opens the part with FILL at 0. -/
  | openPart (r : Requester) (v : Word)
  /-- CLOSE (R474): UPD_CMD OP 2 checks FILL and PCMAC and programs the part header. -/
  | closePart (r : Requester) (v : Word)
  /-- DROP (R474): UPD_CMD OP 3 abandons the open part. -/
  | dropPart (r : Requester) (v : Word)
  /-- PREPARE (R477): UPD_CMD OP 4 checks the manifest and parts and prepares the free generation. -/
  | preparePart (r : Requester) (v : Word)
  /-- PREPARE_COMPLETE (R477): Local PREPARE finishes, writes PREPARED and sets PHASE PREPARED, or fails with a code. -/
  | prepareComplete (flashOk : Bool)
  /-- START (R482): UPD_CMD OP 5 on the coordinator starts the two-phase activation. -/
  | startActivation (r : Requester) (v : Word)
  /-- HEALTHY (R480): UPD_CMD OP 6 in TRIAL writes HEALTHY, stops the window and reports to the coordinator. -/
  | healthyCmd (r : Requester) (v : Word)
  /-- UPD_PREPARE (R482): A received PREPARE stitch is answered with VOTE. -/
  | updPrepare (u : UpdMsg)
  /-- UPD_VOTE (R482): The coordinator records a VOTE and decides commit or abort when all are in. -/
  | updVote (u : UpdMsg)
  /-- UPD_COMMIT (R483): A PREPARED device receiving COMMIT writes it, answers ACK and resets at L1 onto the new bank. -/
  | updCommit (u : UpdMsg)
  /-- UPD_ABORT (R478): A received ABORT returns a PREPARED device to STABLE. -/
  | updAbort (u : UpdMsg)
  /-- UPD_HEALTHY (R482): The coordinator records HEALTHY and decides confirm when all devices have reported. -/
  | updHealthy (u : UpdMsg)
  /-- UPD_CONFIRM (R485): A device in AWAIT receiving CONFIRM makes the new bank stable. -/
  | updConfirm (u : UpdMsg)
  /-- UPD_REVERT (R479): A received REVERT returns a trial device to its fallback bank and generation. -/
  | updRevert (u : UpdMsg)
  /-- UPD_ACK (R482): The coordinator records an ACK and stops resending to that device. -/
  | updAck (u : UpdMsg)
  /-- UPD_FAILED (R482): The coordinator receiving FAILED decides revert for the group. -/
  | updFailed (u : UpdMsg)
  /-- UPD_QUERY (R483): A received QUERY is answered with the device's STATE for that MREF. -/
  | updQuery (u : UpdMsg)
  /-- UPD_STATE (R484): A received STATE answer makes a querying device commit, confirm, revert or keep waiting. -/
  | updState (u : UpdMsg)
  /-- UPD_RESEND (R481): Every 10 ms a sender resends an activation stitch whose expected answer has not arrived. -/
  | updResend
  /-- VOTE_TIMEOUT (R482): PREP_T passes without all votes and the coordinator decides abort. -/
  | voteTimeout
  /-- HEALTH_DEADLINE (R482): WINDOW × (WRES + 1) + 60 s after DECIDE_C without all HEALTHY the coordinator decides revert. -/
  | healthDeadline
  /-- PREPARED_TIMEOUT (R478): A PREPARED device's timeout passes after its vote and it writes ABORT and returns to STABLE. -/
  | preparedTimeout
  /-- WINDOW_EXPIRY (R479): The confirmation window expires in TRIAL and SUP writes REVERT and resets at L1. -/
  | windowExpiry
  /-- ORPHAN_QUERY (R484): Every 10 s an orphaned device in AWAIT queries every listed device. -/
  | orphanQuery
  /-- RESET_N_RISE (R122): RESET_N rises after being held low and the waiting reset sequence continues from step 1. -/
  | resetNRise
  /-- CAN_BUS_OFF_RECOVERY (R353): A CAN channel completes bus-off recovery under ISO 11898-1 and rejoins the bus as error active. -/
  | canBusOffRecovery (n : Fin 8)
  /-- ETH_LINK_CHANGE (R355): An Ethernet PHY gains or loses its link and ETH_STAT.LINK changes. -/
  | ethLinkChange (n : Fin 6) (up : Bool)
  /-- TC10_SLEEP_ACK (R356): The link partner completes the TC10 sleep handshake and the port enters TC10 sleep (state 3). -/
  | tc10SleepAck (n : Fin 2)
  /-- STITCH_CRC_DISCARD (R450): A stitch arriving with a bad CRC is discarded, counted in PCNT and raised as the stitch error source. -/
  | stitchCrcDiscard (p : Fin 4)
  /-- BOOST_UNDER_CLEAR (R276): VBST rises back above BST_VMIN or out of the fault condition, clearing UNDER or FAULT and releasing their Sampler sources. -/
  | boostUnderClear (vbst : Nat)
  /-- ANTENNA_SHORT_TRIP (R380): The LF short comparator trips at 2.5 A, stopping the antenna for the rest of the frame and setting its AN_STAT short bit. -/
  | antennaShortTrip (n : Fin 8) (i : Nat)
  /-- LIN_NO_RESPONSE (R354): A subscribed LIN frame gets no response within its frame time and NORESP is set. -/
  | linNoResponse (n : Fin 12)
  deriving DecidableEq, Repr

end Sys2Proof
end

