-- ==== Sys2Proof/Decode.lean ====
section
/-! DEFINITION. Words of the opcode table, and the instruction words of the cores. The table's rows give no bits: they are
commands and events of a block, which reach it as register accesses, frames and happenings, not as words
(notes/assumptions/1.md); so no word spells a command by the table. The words a core fetches spell one by Tables 6.1, 6.4, 6.5
and 6.6 (R162–R166, R170–R172). -/

namespace Sys2Proof

/-- The command that a word of `nbits` bits spells by the table: none, since no row of the table gives bits. -/
def decodeTableWord (_nbits _w : Nat) : Option Instr := none

/-! The first word: opcode in [15:10], mode in [9:7], short operand in [6:0] (R162). -/

/-- OP of a first word. -/
def wordOp (w : Word) : Nat := w.toNat / 1024
/-- MODE of a first word. -/
def wordMode (w : Word) : Fin 8 := Fin.ofNat 8 (w.toNat / 128)
/-- SHORT of a first word. -/
def wordShort (w : Word) : BitVec 7 := BitVec.ofNat 7 w.toNat
/-- A first word of its fields. -/
def firstWord (op : Nat) (m : Fin 8) (sh : BitVec 7) : Word := BitVec.ofNat 16 (op * 0x400 + m.val * 0x80 + sh.toNat)

/-- The condition of opcode 0x31 or 0x32 (Table 6.4); none where it is undefined. -/
def condOf (second : Bool) (m : Fin 8) : Option Cond :=
  match second, m.val with
  | false, 0 => some .br | false, 1 => some .bz | false, 2 => some .bnz | false, 3 => some .bc
  | false, 4 => some .bnc | false, 5 => some .bn | false, 6 => some .bnn | false, _ => some .bv
  | true, 0 => some .bnv | true, 1 => some .bhi | true, 2 => some .bls | true, 3 => some .bge
  | true, 4 => some .blt | true, 5 => some .bgt | true, 6 => some .ble | true, _ => none

/-- A condition's opcode and field (Table 6.4). -/
def condWord : Cond → Nat × Fin 8
  | .br => (0x31, 0) | .bz => (0x31, 1) | .bnz => (0x31, 2) | .bc => (0x31, 3)
  | .bnc => (0x31, 4) | .bn => (0x31, 5) | .bnn => (0x31, 6) | .bv => (0x31, 7)
  | .bnv => (0x32, 0) | .bhi => (0x32, 1) | .bls => (0x32, 2) | .bge => (0x32, 3)
  | .blt => (0x32, 4) | .bgt => (0x32, 5) | .ble => (0x32, 6)

/-- The implicit function of a number (Table 6.6). -/
def implicitInstr (c : CoreId) (f : Nat) : Option Instr :=
  match f with
  | 0x00 => some (.nop c)
  | 0x01 => some (.chk c)
  | 0x02 => some (.ret c)
  | 0x03 => some (.retf c)
  | 0x04 => some (.rte c)
  | 0x05 => some (.ei c)
  | 0x06 => some (.di c)
  | 0x07 => some (.swb c)
  | 0x08 => some (.sxb c)
  | 0x09 => some (.neg c)
  | 0x0A => some (.notOp c)
  | 0x0B => some (.xae c)
  | 0x0C => some (.mvax c)
  | 0x0D => some (.mvxa c)
  | 0x0E => some (.mvay c)
  | 0x0F => some (.mvya c)
  | 0x10 => some (.mvae c)
  | 0x11 => some (.mvea c)
  | 0x12 => some (.mvas c)
  | 0x13 => some (.mvsa c)
  | 0x14 => some (.mvaf c)
  | 0x15 => some (.mvfa c)
  | 0x16 => some (.rfcd c)
  | 0x17 => some (.rfes c)
  | 0x18 => some (.psha c)
  | 0x19 => some (.popa c)
  | 0x1A => some (.pshe c)
  | 0x1B => some (.pope c)
  | 0x1C => some (.pshx c)
  | 0x1D => some (.popx c)
  | 0x1E => some (.pshy c)
  | 0x1F => some (.popy c)
  | 0x20 => some (.pshf c)
  | 0x21 => some (.popf c)
  | 0x22 => some (.inx c)
  | 0x23 => some (.dex c)
  | 0x24 => some (.iny c)
  | 0x25 => some (.dey c)
  | 0x26 => some (.clc c)
  | 0x27 => some (.stc c)
  | 0x28 => some (.negd c)
  | _ => none

/-- The instruction with an operand of an opcode (Table 6.5). A mode outside its class, or a SHORT that must be 0, is the
instruction's own decode check (R165, R166). -/
def opcodeInstr (c : CoreId) (op : Nat) (o : Opnd) : Option Instr :=
  match op with
  | 0x01 => some (.ld c o)
  | 0x02 => some (.st c o)
  | 0x03 => some (.lde c o)
  | 0x04 => some (.ste c o)
  | 0x05 => some (.ldx c o)
  | 0x06 => some (.stx c o)
  | 0x07 => some (.ldy c o)
  | 0x08 => some (.sty c o)
  | 0x09 => some (.xch c o)
  | 0x0A => some (.push c o)
  | 0x0B => some (.pop c o)
  | 0x0C => some (.add c o)
  | 0x0D => some (.adc c o)
  | 0x0E => some (.sub c o)
  | 0x0F => some (.sbc c o)
  | 0x10 => some (.cmp c o)
  | 0x11 => some (.andOp c o)
  | 0x12 => some (.orOp c o)
  | 0x13 => some (.xorOp c o)
  | 0x14 => some (.bit c o)
  | 0x15 => some (.inc c o)
  | 0x16 => some (.dec c o)
  | 0x17 => some (.adm c o)
  | 0x18 => some (.orm c o)
  | 0x19 => some (.bcm c o)
  | 0x1A => some (.mul c o)
  | 0x1B => some (.muls c o)
  | 0x1C => some (.div c o)
  | 0x1D => some (.divs c o)
  | 0x1E => some (.shl c o)
  | 0x1F => some (.shr c o)
  | 0x20 => some (.asr c o)
  | 0x21 => some (.rol c o)
  | 0x22 => some (.ror c o)
  | 0x23 => some (.shld c o)
  | 0x24 => some (.shrd c o)
  | 0x25 => some (.asrd c o)
  | 0x26 => some (.exb c o)
  | 0x27 => some (.inb c o)
  | 0x28 => some (.adx c o)
  | 0x29 => some (.ady c o)
  | 0x2A => some (.ads c o)
  | 0x2B => some (.cpx c o)
  | 0x2C => some (.cpy c o)
  | 0x2D => some (.jmp c o)
  | 0x2E => some (.call c o)
  | 0x2F => some (.jmpf c o)
  | 0x30 => some (.callf c o)
  | 0x33 => some (.lfd c o)
  | 0x34 => some (.lfe c o)
  | 0x35 => some (.lfs c o)
  | 0x36 => some (.tas c o)
  | 0x37 => some (.lrw c o)
  | 0x38 => some (.scw c o)
  | 0x39 => some (.wev c o)
  | 0x3A => some (.sev c o)
  | 0x3B => some (.sdt c o)
  | 0x3C => some (.ldt c o)
  | _ => none

/-- The words that belong to the operand: two in mode 6 of JMPF and CALLF, one in modes 1, 6 and 7, else none (R163). -/
def extWords (op : Nat) (m : Fin 8) : Nat :=
  if m.val = 6 ∧ (op = 0x2F ∨ op = 0x30) then 2 else if m.val = 1 ∨ m.val = 6 ∨ m.val = 7 then 1 else 0

/-- The command of an instruction word at a core, with the two words that follow it; a word that spells no row is
UNDEFINED_OPCODE (R162, R166, R172). -/
def coreInstr (c : CoreId) (w e e2 : Word) : Instr :=
  let op := wordOp w
  let m := wordMode w
  let n := extWords op m
  let found : Option Instr :=
    if op = 0x3D then (if m.val = 0 then implicitInstr c (wordShort w).toNat else none)
    else if op = 0x31 ∨ op = 0x32 then (condOf (decide (op = 0x32)) m).map fun k => .bcc c k (wordShort w)
    else opcodeInstr c op ⟨m, wordShort w, if 0 < n then e else 0, if 1 < n then e2 else 0⟩
  found.getD (.undefinedOpcode c w)

/-- The words of an instruction with an operand. -/
def operandWords (op : Nat) (o : Opnd) : List Word := [firstWord op o.mode o.short] ++ [o.e, o.e2].take (extWords op o.mode)

/-- The words of a core's instruction, from the same tables; none for a command that is no instruction (R162). -/
def encode : Instr → Option (List Word)
  | .ld _ o => some (operandWords 0x01 o)
  | .st _ o => some (operandWords 0x02 o)
  | .lde _ o => some (operandWords 0x03 o)
  | .ste _ o => some (operandWords 0x04 o)
  | .ldx _ o => some (operandWords 0x05 o)
  | .stx _ o => some (operandWords 0x06 o)
  | .ldy _ o => some (operandWords 0x07 o)
  | .sty _ o => some (operandWords 0x08 o)
  | .xch _ o => some (operandWords 0x09 o)
  | .push _ o => some (operandWords 0x0A o)
  | .pop _ o => some (operandWords 0x0B o)
  | .add _ o => some (operandWords 0x0C o)
  | .adc _ o => some (operandWords 0x0D o)
  | .sub _ o => some (operandWords 0x0E o)
  | .sbc _ o => some (operandWords 0x0F o)
  | .cmp _ o => some (operandWords 0x10 o)
  | .andOp _ o => some (operandWords 0x11 o)
  | .orOp _ o => some (operandWords 0x12 o)
  | .xorOp _ o => some (operandWords 0x13 o)
  | .bit _ o => some (operandWords 0x14 o)
  | .inc _ o => some (operandWords 0x15 o)
  | .dec _ o => some (operandWords 0x16 o)
  | .adm _ o => some (operandWords 0x17 o)
  | .orm _ o => some (operandWords 0x18 o)
  | .bcm _ o => some (operandWords 0x19 o)
  | .mul _ o => some (operandWords 0x1A o)
  | .muls _ o => some (operandWords 0x1B o)
  | .div _ o => some (operandWords 0x1C o)
  | .divs _ o => some (operandWords 0x1D o)
  | .shl _ o => some (operandWords 0x1E o)
  | .shr _ o => some (operandWords 0x1F o)
  | .asr _ o => some (operandWords 0x20 o)
  | .rol _ o => some (operandWords 0x21 o)
  | .ror _ o => some (operandWords 0x22 o)
  | .shld _ o => some (operandWords 0x23 o)
  | .shrd _ o => some (operandWords 0x24 o)
  | .asrd _ o => some (operandWords 0x25 o)
  | .exb _ o => some (operandWords 0x26 o)
  | .inb _ o => some (operandWords 0x27 o)
  | .adx _ o => some (operandWords 0x28 o)
  | .ady _ o => some (operandWords 0x29 o)
  | .ads _ o => some (operandWords 0x2A o)
  | .cpx _ o => some (operandWords 0x2B o)
  | .cpy _ o => some (operandWords 0x2C o)
  | .jmp _ o => some (operandWords 0x2D o)
  | .call _ o => some (operandWords 0x2E o)
  | .jmpf _ o => some (operandWords 0x2F o)
  | .callf _ o => some (operandWords 0x30 o)
  | .lfd _ o => some (operandWords 0x33 o)
  | .lfe _ o => some (operandWords 0x34 o)
  | .lfs _ o => some (operandWords 0x35 o)
  | .tas _ o => some (operandWords 0x36 o)
  | .lrw _ o => some (operandWords 0x37 o)
  | .scw _ o => some (operandWords 0x38 o)
  | .wev _ o => some (operandWords 0x39 o)
  | .sev _ o => some (operandWords 0x3A o)
  | .sdt _ o => some (operandWords 0x3B o)
  | .ldt _ o => some (operandWords 0x3C o)
  | .bcc _ k d => some [firstWord (condWord k).1 (condWord k).2 d]
  | .nop _ => some [firstWord 0x3D 0 0x00]
  | .chk _ => some [firstWord 0x3D 0 0x01]
  | .ret _ => some [firstWord 0x3D 0 0x02]
  | .retf _ => some [firstWord 0x3D 0 0x03]
  | .rte _ => some [firstWord 0x3D 0 0x04]
  | .ei _ => some [firstWord 0x3D 0 0x05]
  | .di _ => some [firstWord 0x3D 0 0x06]
  | .swb _ => some [firstWord 0x3D 0 0x07]
  | .sxb _ => some [firstWord 0x3D 0 0x08]
  | .neg _ => some [firstWord 0x3D 0 0x09]
  | .notOp _ => some [firstWord 0x3D 0 0x0A]
  | .xae _ => some [firstWord 0x3D 0 0x0B]
  | .mvax _ => some [firstWord 0x3D 0 0x0C]
  | .mvxa _ => some [firstWord 0x3D 0 0x0D]
  | .mvay _ => some [firstWord 0x3D 0 0x0E]
  | .mvya _ => some [firstWord 0x3D 0 0x0F]
  | .mvae _ => some [firstWord 0x3D 0 0x10]
  | .mvea _ => some [firstWord 0x3D 0 0x11]
  | .mvas _ => some [firstWord 0x3D 0 0x12]
  | .mvsa _ => some [firstWord 0x3D 0 0x13]
  | .mvaf _ => some [firstWord 0x3D 0 0x14]
  | .mvfa _ => some [firstWord 0x3D 0 0x15]
  | .rfcd _ => some [firstWord 0x3D 0 0x16]
  | .rfes _ => some [firstWord 0x3D 0 0x17]
  | .psha _ => some [firstWord 0x3D 0 0x18]
  | .popa _ => some [firstWord 0x3D 0 0x19]
  | .pshe _ => some [firstWord 0x3D 0 0x1A]
  | .pope _ => some [firstWord 0x3D 0 0x1B]
  | .pshx _ => some [firstWord 0x3D 0 0x1C]
  | .popx _ => some [firstWord 0x3D 0 0x1D]
  | .pshy _ => some [firstWord 0x3D 0 0x1E]
  | .popy _ => some [firstWord 0x3D 0 0x1F]
  | .pshf _ => some [firstWord 0x3D 0 0x20]
  | .popf _ => some [firstWord 0x3D 0 0x21]
  | .inx _ => some [firstWord 0x3D 0 0x22]
  | .dex _ => some [firstWord 0x3D 0 0x23]
  | .iny _ => some [firstWord 0x3D 0 0x24]
  | .dey _ => some [firstWord 0x3D 0 0x25]
  | .clc _ => some [firstWord 0x3D 0 0x26]
  | .stc _ => some [firstWord 0x3D 0 0x27]
  | .negd _ => some [firstWord 0x3D 0 0x28]
  | .undefinedOpcode _ w => some [w]
  | _ => none

end Sys2Proof
end

