-- ==== Sys2Proof/Machine/Bits.lean ====
section
/-! DEFINITION. Bit fields of words, byte packing (R10), the CRCs the spec names, and small number helpers.
The readings and choices it rests on: notes/assumptions/21. -/

namespace Sys2Proof.Machine

/-- The number in bits [lo+n−1:lo] of a word. -/
def fld (w : Word) (lo n : Nat) : Nat := (w.toNat >>> lo) % 2 ^ n

/-- Bit `n` of a word. -/
def bit (w : Word) (n : Nat) : Bool := w.getLsbD n

/-- A word with bit `n` set to `b`. -/
def putBit (w : Word) (n : Nat) (b : Bool) : Word :=
  if b then w ||| BitVec.ofNat 16 (2 ^ n) else w &&& ~~~ (BitVec.ofNat 16 (2 ^ n))

/-- A word with bits [lo+n−1:lo] holding `v`. -/
def putFld (w : Word) (lo n v : Nat) : Word :=
  (w &&& ~~~ (BitVec.ofNat 16 ((2 ^ n - 1) <<< lo))) ||| BitVec.ofNat 16 ((v % 2 ^ n) <<< lo)

/-- A word of a number, wrapping. -/
abbrev w16 (n : Nat) : Word := BitVec.ofNat 16 n

/-- 1 for true. -/
def b2n (b : Bool) : Nat := if b then 1 else 0

/-- A word from fields given as (low bit, value). -/
def pack (fs : List (Nat × Nat)) : Word := w16 (fs.foldl (fun a f => a + f.2 <<< f.1) 0)

/-- A word from bits given as (bit, value). -/
def packBits (fs : List (Nat × Bool)) : Word := w16 (fs.foldl (fun a f => a + (b2n f.2) <<< f.1) 0)

/-- A value limited to lo … hi. -/
def clampN (lo hi n : Nat) : Nat := if n < lo then lo else if hi < n then hi else n

/-- A value limited to lo … hi. -/
def clampI (lo hi n : Int) : Int := if n < lo then lo else if hi < n then hi else n

/-- The count after one more, saturating at `m`. -/
def satInc (m n : Nat) : Nat := if n < m then n + 1 else m

/-- A word read as two's complement. -/
def signed (w : Word) : Int := w.toInt

/-- An integer as a two's complement word. -/
def wordOfInt (n : Int) : Word := BitVec.ofInt 16 n

/-- A 32-bit number from its high and low words. -/
def hiLo (hi lo : Word) : Nat := hi.toNat * 65536 + lo.toNat

/-- The low byte of a word (byte 0, R10). -/
def loByte (w : Word) : Byte := w.setWidth 8

/-- The high byte of a word (byte 1, R10). -/
def hiByte (w : Word) : Byte := (w >>> 8).setWidth 8

/-- A word from byte 0 and byte 1 (R10). -/
def wordOf (b0 b1 : Byte) : Word := b1.setWidth 16 <<< 8 ||| b0.setWidth 16

/-- The bytes of words, byte 0 of each first (R10). -/
def bytesOf (ws : List Word) : List Byte := ws.flatMap (fun w => [loByte w, hiByte w])

/-- Words from bytes; an odd last byte leaves byte 1 zero (R10). -/
def wordsOf : List Byte → List Word
  | [] => []
  | [a] => [wordOf a 0]
  | a :: b :: r => wordOf a b :: wordsOf r

/-- A byte of a number, wrapping. -/
abbrev byte (n : Nat) : Byte := BitVec.ofNat 8 n

/-- The number a byte string spells, first byte least significant. -/
def leNat : List Byte → Nat
  | [] => 0
  | b :: r => b.toNat + 256 * leNat r

/-- The number a byte string spells, first byte most significant. -/
def beNat (bs : List Byte) : Nat := bs.foldl (fun a b => a * 256 + b.toNat) 0

/-- `n` bytes of a number, least significant first. -/
def leBytes : Nat → Nat → List Byte
  | 0, _ => []
  | n + 1, v => byte v :: leBytes n (v / 256)

/-- `n` bytes of a number, most significant first. -/
def beBytes (n v : Nat) : List Byte := (leBytes n v).reverse

/-- `l` cut or filled with `d` to length `n`. -/
def padTo {α : Type} (d : α) (n : Nat) (l : List α) : List α := (l ++ List.replicate n d).take n

/-- Eight shifts of a CRC-16 register with polynomial 0x1021. -/
def crc16Shift : Nat → Word → Word
  | 0, c => c
  | n + 1, c => crc16Shift n (if c.msb then (c <<< 1) ^^^ 0x1021#16 else c <<< 1)

/-- One byte into the CRC-16 of R497, most significant bit first. -/
def crc16Byte (c : Word) (b : Byte) : Word := crc16Shift 8 (c ^^^ (b.setWidth 16 <<< 8))

/-- The CRC-16 of R497 over bytes. -/
def crc16Bytes (bs : List Byte) : Word := bs.foldl crc16Byte 0xFFFF#16

/-- The CRC-16 of R497 over words. -/
def crc16 (ws : List Word) : Word := crc16Bytes (bytesOf ws)

/-- How many bits of a word are set. -/
def popCount (w : Word) : Nat := (List.range 16).foldl (fun a n => a + b2n (bit w n)) 0

/-- The numbers below `n` whose bit is set in a number. -/
def bitsSet (n : Nat) (m : Nat) : List Nat := (List.range n).filter (fun k => m.testBit k)

/-- A signed quotient rounded to nearest, ties away from zero. -/
def roundDiv (a b : Int) : Int :=
  if 0 ≤ a then (2 * a + b) / (2 * b) else - ((2 * (-a) + b) / (2 * b))

/-- The integer square root by `n` halvings of an interval; exact when `n` covers the bits of the argument. -/
def isqrtFrom : Nat → Nat → Nat → Nat
  | 0, r, _ => r
  | n + 1, r, v => if (r + 2 ^ n) * (r + 2 ^ n) ≤ v then isqrtFrom n (r + 2 ^ n) v else isqrtFrom n r v

/-- The integer square root of a number below 2^64. -/
def isqrt (v : Nat) : Nat := isqrtFrom 32 0 v

/-- A list with its entry `n` replaced. -/
def setAt {α : Type} : List α → Nat → α → List α
  | [], _, _ => []
  | _ :: r, 0, v => v :: r
  | a :: r, n + 1, v => a :: setAt r n v

end Sys2Proof.Machine
end

