-- ==== Sys2Proof/Machine/Regs.lean ====
section
/-! DEFINITION. The register map: every register word of spec/ by address, with its reset value, the bits a write
stores (RW, RWL), the bits a write of 1 clears (W1C), and the seal of an RWL word (R12). A word whose write starts an
action (WO, SC), or whose read is formed by hardware (RO), has neither kind of bit here; the bus gives it its effect.
The readings and choices it rests on: notes/assumptions/11, 12. -/

namespace Sys2Proof.Machine

/-- A run of registers of one kind: the words lo, lo + stride, … (n of them). -/
structure RegRow where
  lo : Nat
  n : Nat
  stride : Nat
  reset : Word
  /-- bits a write stores -/
  rw : Word
  /-- bits a 1 clears -/
  w1c : Word
  /-- the address and bit of the seal -/
  sealAt : Option (Nat × Nat)
  deriving DecidableEq, Repr

/-- The register at an address lies in the run. -/
def RegRow.has (r : RegRow) (a : Nat) : Bool :=
  decide (r.lo ≤ a) && decide ((a - r.lo) % r.stride = 0) && decide ((a - r.lo) / r.stride < r.n)

/-- The run reaches into the 256-word block of an address (R38). -/
def RegRow.inBlock (r : RegRow) (a : Nat) : Bool :=
  decide (r.lo / 256 ≤ a / 256) && decide (a / 256 ≤ (r.lo + (r.n - 1) * r.stride) / 256)

/-- Registers of window 0xA7_0000, part 0. -/
def regsAon0 : List RegRow := [
  ⟨0xA70100, 1, 1, 0x0008, 0x0, 0x0, none⟩, -- PWR_STATUS
  ⟨0xA70101, 1, 1, 0x0, 0x0, 0x0, none⟩, -- PWR_CTRL
  ⟨0xA70102, 1, 1, 0x0, 0x0, 0x0, none⟩, -- PWR_REFUSE
  ⟨0xA70103, 1, 1, 0x0, 0x01FF, 0x0, none⟩, -- WAKE_EN
  ⟨0xA70104, 1, 1, 0x0, 0x0, 0x03FF, none⟩, -- WAKE_CAUSE
  ⟨0xA70105, 1, 1, 0x000F, 0x0, 0x0, none⟩, -- WAKE_FIRST
  ⟨0xA70106, 5, 1, 0x0, 0x0, 0x0, none⟩, -- PWR_VSEC_0-3,PWR_VBUS
  ⟨0xA7010B, 1, 1, 0x0, 0x00FF, 0x0, none⟩, -- VSEN_CTRL
  ⟨0xA7010C, 1, 1, 0x0, 0x0, 0x0, none⟩, -- VSEN_STAT
  ⟨0xA70110, 3, 1, 0x0, 0x0, 0x0, none⟩, -- RTC_SEC_LO,RTC_SEC_HI,RTC_FRAC
  ⟨0xA70113, 4, 1, 0x0, 0xFFFF, 0x0, none⟩, -- RTC_ALM,RTC_LOAD
  ⟨0xA70117, 1, 1, 0x0, 0x0, 0x0, none⟩, -- RTC_CMD
  ⟨0xA70300, 4, 1, 0x0, 0x0, 0x0, none⟩, -- SMP_FIRST,SMP_FIRST_RES,SMP_FIRST_T,SMP_SAFE
  ⟨0xA7FF00, 1, 1, 0x7001, 0x0, 0x0, none⟩, -- ICB_ID_AON
  ⟨0xA7FF01, 2, 1, 0x0, 0x0, 0x0, none⟩, -- ICB_CLK,ICB_STATE_AON
  ⟨0xA7FF03, 1, 1, 0x0, 0x0, 0x3, none⟩, -- ICB_GATE_ERR_AON
  ⟨0xA7FF04, 1, 1, 0x0, 0xFFFF, 0x0, none⟩, -- ICB_DISCARD_AON
  ⟨0xA7FF05, 2, 1, 0x0, 0x0, 0x0, none⟩, -- ICB_MEMWAIT,ICB_CTRL_AON
  ⟨0xA7FF07, 1, 1, 0x1, 0x0, 0x0, none⟩, -- ICB_REQ_AON
  ⟨0xA70200, 48, 1, 0x0100, 0xFFFF, 0x0, none⟩, -- SI_CFG
  ⟨0xA70230, 48, 1, 0x0000, 0x0, 0x0, none⟩, -- SI_STAT
  ⟨0xA70260, 48, 1, 0x0000, 0x0, 0x0, none⟩, -- SI_ANA
  ⟨0xA70290, 4, 1, 0x0063, 0x03FF, 0x0, none⟩, -- SI_TICK
  ⟨0xA70294, 1, 1, 0x2710, 0xFFFF, 0x0, none⟩, -- SI_NTC_NOM_A
  ⟨0xA70295, 1, 1, 0x0DAC, 0xFFFF, 0x0, none⟩, -- SI_NTC_BETA_A
  ⟨0xA70296, 1, 1, 0x2710, 0xFFFF, 0x0, none⟩, -- SI_NTC_NOM_B
  ⟨0xA70297, 1, 1, 0x0DAC, 0xFFFF, 0x0, none⟩, -- SI_NTC_BETA_B
  ⟨0xA70298, 3, 1, 0x0000, 0xFFFF, 0x0, none⟩, -- SI_NTCSEL
  ⟨0xA7029B, 3, 1, 0x0000, 0x0, 0x0, none⟩, -- SI_STATE
  ⟨0xA7029E, 3, 1, 0x0000, 0x0, 0xFFFF, none⟩, -- SI_CHG
  ⟨0xA702A1, 3, 1, 0x0000, 0xFFFF, 0x0, none⟩, -- SI_CSEN
  ⟨0xA702A4, 3, 1, 0x0000, 0xFFFF, 0x0, none⟩, -- SI_EVEN
  ⟨0xA702A7, 1, 1, 0x0000, 0x0001, 0x0, none⟩, -- SI_CSCTRL
  ⟨0xA702A8, 1, 1, 0x0064, 0xFFFF, 0x0, none⟩, -- SI_CSPER
  ⟨0xA702A9, 1, 1, 0x0014, 0xFFFF, 0x0, none⟩, -- SI_CSWID
  ⟨0xA702AA, 1, 1, 0x0000, 0x01FF, 0x0, none⟩, -- SI_EV_ROUTE
  ⟨0xA702AB, 1, 1, 0x0000, 0x0, 0x0, none⟩ ] -- SI_GSTAT

/-- Registers of window 0xA7_0000. -/
def regsAon : List RegRow := regsAon0

/-- Registers of window 0xA8_0000, part 0. -/
def regsSup0 : List RegRow := [
  ⟨0xA80000, 1, 1, 0x0001, 0x0, 0xFFFF, none⟩, -- RST_CAUSE
  ⟨0xA80001, 6, 1, 0x0, 0x0, 0x0, none⟩, -- RST_LAST,RST_REQ,RST_CNT,OPT_STAT,BRG_STATUS,BRG_TAKEOVER
  ⟨0xA80007, 8, 1, 0x0, 0x0, 0x0, none⟩, -- MAR_CTRL,MAR_STAT,MAR_ACT_0-2,MAR_DONE_0-2
  ⟨0xA80010, 1, 1, 0x0, 0x03FF, 0x0, none⟩, -- OTP_ADDR
  ⟨0xA80011, 1, 1, 0x0, 0xFFFF, 0x0, none⟩, -- OTP_DATA
  ⟨0xA80012, 2, 1, 0x0, 0x0, 0x0, none⟩, -- OTP_CMD,OTP_STAT
  ⟨0xA80400, 1024, 1, 0x0, 0x0, 0x0, none⟩, -- option_shadow
  ⟨0xA81000, 1, 1, 0x0, 0xFFFF, 0x0, none⟩, -- SMP_LOG_BASE_LO
  ⟨0xA81001, 1, 1, 0x0, 0x0FFF, 0x0, none⟩, -- SMP_LOG_BASE_HI
  ⟨0xA81002, 1, 1, 0x0, 0x0003, 0x0, none⟩, -- SMP_LOG_CTRL
  ⟨0xA81003, 1, 1, 0x0, 0x0, 0x0, none⟩, -- SMP_LOG_WP
  ⟨0xA81004, 1, 1, 0x0, 0xFFFF, 0x0, none⟩, -- SMP_LOG_LOST
  ⟨0xA81005, 1, 1, 0x0064, 0xFFFF, 0x0, some (0xA81006, 0)⟩, -- SMP_RTIME
  ⟨0xA81006, 1, 1, 0x0, 0x0001, 0x0, some (0xA81006, 0)⟩, -- SMP_SEAL
  ⟨0xA81007, 1, 1, 0x0, 0x00FF, 0x0, some (0xA81006, 0)⟩, -- SMP_AUTH
  ⟨0xA81008, 2, 1, 0x0, 0x0, 0x0, none⟩, -- SMP_CMD,SMP_STAT
  ⟨0xA8100A, 1, 1, 0x0, 0x0FFF, 0x0, none⟩, -- SMP_EV_ROUTE
  ⟨0xA8100B, 1, 1, 0x0, 0x0, 0x0007, none⟩, -- SMP_EV_FLAG
  ⟨0xA8100C, 1, 1, 0x0, 0x0, 0x0, none⟩, -- SMP_EV_SRC
  ⟨0xA81010, 16, 1, 0x0, 0x0, 0x0, none⟩, -- SMP_ACT_0-15
  ⟨0xA81020, 16, 1, 0x0, 0x0, 0xFFFF, none⟩, -- SMP_LATCH_0-15
  ⟨0xA81030, 16, 1, 0x0, 0x0, 0xFFFF, none⟩, -- SMP_WIRE_0-15
  ⟨0xA81040, 4, 1, 0x0, 0xFFFF, 0x0, some (0xA81006, 0)⟩, -- SAFE_KEEP_SW_0-3
  ⟨0xA81044, 1, 1, 0x0, 0x0FFF, 0x0, some (0xA81006, 0)⟩, -- SAFE_KEEP_SW_4
  ⟨0xA81045, 1, 1, 0x0, 0xFFFF, 0x0, some (0xA81006, 0)⟩, -- SAFE_KEEP_ACT
  ⟨0xA81046, 6, 1, 0x0, 0xFFFF, 0x0, some (0xA81006, 0)⟩, -- SAFE_KEEP_LUX_0-5
  ⟨0xA8104C, 1, 1, 0x0, 0x0FFF, 0x0, some (0xA81006, 0)⟩, -- SAFE_KEEP_LUX_6
  ⟨0xA8104D, 1, 1, 0x0, 0xFFFF, 0x0, some (0xA81006, 0)⟩, -- SAFE_KEEP_FLD
  ⟨0xA81100, 3, 1, 0x1, 0x007F, 0x0, some (0xA81006, 0)⟩, -- SMP_SEV_0-2
  ⟨0xA81103, 1, 1, 0x9, 0x007F, 0x0, some (0xA81006, 0)⟩, -- SMP_SEV_3-3
  ⟨0xA81104, 1, 1, 0x1, 0x007F, 0x0, some (0xA81006, 0)⟩, -- SMP_SEV_4-4
  ⟨0xA81105, 11, 1, 0x0, 0x007F, 0x0, some (0xA81006, 0)⟩, -- SMP_SEV_5-15
  ⟨0xA81110, 8, 1, 0x1, 0x007F, 0x0, some (0xA81006, 0)⟩, -- SMP_SEV_16-23
  ⟨0xA81118, 8, 1, 0x0, 0x007F, 0x0, some (0xA81006, 0)⟩, -- SMP_SEV_24-31
  ⟨0xA81120, 2, 1, 0x1, 0x007F, 0x0, some (0xA81006, 0)⟩, -- SMP_SEV_32-33
  ⟨0xA81122, 14, 1, 0x0, 0x007F, 0x0, some (0xA81006, 0)⟩, -- SMP_SEV_34-47
  ⟨0xA81130, 4, 1, 0x1, 0x007F, 0x0, some (0xA81006, 0)⟩, -- SMP_SEV_48-51
  ⟨0xA81134, 12, 1, 0x0, 0x007F, 0x0, some (0xA81006, 0)⟩, -- SMP_SEV_52-63
  ⟨0xA81140, 4, 1, 0x1, 0x007F, 0x0, some (0xA81006, 0)⟩, -- SMP_SEV_64-67
  ⟨0xA81144, 12, 1, 0x0, 0x007F, 0x0, some (0xA81006, 0)⟩ ] -- SMP_SEV_68-79

/-- Registers of window 0xA8_0000, part 1. -/
def regsSup1 : List RegRow := [
  ⟨0xA81150, 3, 1, 0x1, 0x007F, 0x0, some (0xA81006, 0)⟩, -- SMP_SEV_80-82
  ⟨0xA81153, 1, 1, 0x0, 0x007F, 0x0, some (0xA81006, 0)⟩, -- SMP_SEV_83-83
  ⟨0xA81154, 1, 1, 0x1, 0x007F, 0x0, some (0xA81006, 0)⟩, -- SMP_SEV_84-84
  ⟨0xA81155, 2, 1, 0x0, 0x007F, 0x0, some (0xA81006, 0)⟩, -- SMP_SEV_85-86
  ⟨0xA81157, 1, 1, 0x1, 0x007F, 0x0, some (0xA81006, 0)⟩, -- SMP_SEV_87-87
  ⟨0xA81158, 1, 1, 0x0, 0x007F, 0x0, some (0xA81006, 0)⟩, -- SMP_SEV_88-88
  ⟨0xA81159, 10, 1, 0x1, 0x007F, 0x0, some (0xA81006, 0)⟩, -- SMP_SEV_89-98
  ⟨0xA81163, 13, 1, 0x0, 0x007F, 0x0, some (0xA81006, 0)⟩, -- SMP_SEV_99-111
  ⟨0xA81170, 3, 1, 0x1, 0x007F, 0x0, some (0xA81006, 0)⟩, -- SMP_SEV_112-114
  ⟨0xA81173, 1, 1, 0x0, 0x007F, 0x0, some (0xA81006, 0)⟩, -- SMP_SEV_115-115
  ⟨0xA81174, 1, 1, 0x1, 0x007F, 0x0, some (0xA81006, 0)⟩, -- SMP_SEV_116-116
  ⟨0xA81175, 1, 1, 0x0, 0x007F, 0x0, some (0xA81006, 0)⟩, -- SMP_SEV_117-117
  ⟨0xA81176, 4, 1, 0x1, 0x007F, 0x0, some (0xA81006, 0)⟩, -- SMP_SEV_118-121
  ⟨0xA8117A, 6, 1, 0x0, 0x007F, 0x0, some (0xA81006, 0)⟩, -- SMP_SEV_122-127
  ⟨0xA81180, 3, 1, 0x1, 0x007F, 0x0, some (0xA81006, 0)⟩, -- SMP_SEV_128-130
  ⟨0xA81183, 1, 1, 0x0, 0x007F, 0x0, some (0xA81006, 0)⟩, -- SMP_SEV_131-131
  ⟨0xA81184, 1, 1, 0x1, 0x007F, 0x0, some (0xA81006, 0)⟩, -- SMP_SEV_132-132
  ⟨0xA81185, 1, 1, 0x0, 0x007F, 0x0, some (0xA81006, 0)⟩, -- SMP_SEV_133-133
  ⟨0xA81186, 1, 1, 0x1, 0x007F, 0x0, some (0xA81006, 0)⟩, -- SMP_SEV_134-134
  ⟨0xA81187, 9, 1, 0x0, 0x007F, 0x0, some (0xA81006, 0)⟩, -- SMP_SEV_135-143
  ⟨0xA81190, 3, 1, 0x1, 0x007F, 0x0, some (0xA81006, 0)⟩, -- SMP_SEV_144-146
  ⟨0xA81193, 1, 1, 0x0, 0x007F, 0x0, some (0xA81006, 0)⟩, -- SMP_SEV_147-147
  ⟨0xA81194, 1, 1, 0x1, 0x007F, 0x0, some (0xA81006, 0)⟩, -- SMP_SEV_148-148
  ⟨0xA81195, 1, 1, 0x0, 0x007F, 0x0, some (0xA81006, 0)⟩, -- SMP_SEV_149-149
  ⟨0xA81196, 4, 1, 0x1, 0x007F, 0x0, some (0xA81006, 0)⟩, -- SMP_SEV_150-153
  ⟨0xA8119A, 6, 1, 0x0, 0x007F, 0x0, some (0xA81006, 0)⟩, -- SMP_SEV_154-159
  ⟨0xA811A0, 6, 1, 0x1, 0x007F, 0x0, some (0xA81006, 0)⟩, -- SMP_SEV_160-165
  ⟨0xA811A6, 10, 1, 0x0, 0x007F, 0x0, some (0xA81006, 0)⟩, -- SMP_SEV_166-175
  ⟨0xA811B0, 7, 1, 0x1, 0x007F, 0x0, some (0xA81006, 0)⟩, -- SMP_SEV_176-182
  ⟨0xA811B7, 9, 1, 0x0, 0x007F, 0x0, some (0xA81006, 0)⟩, -- SMP_SEV_183-191
  ⟨0xA811C0, 3, 1, 0x1, 0x007F, 0x0, some (0xA81006, 0)⟩, -- SMP_SEV_192-194
  ⟨0xA811C3, 1, 1, 0x0, 0x007F, 0x0, some (0xA81006, 0)⟩, -- SMP_SEV_195-195
  ⟨0xA811C4, 1, 1, 0x1, 0x007F, 0x0, some (0xA81006, 0)⟩, -- SMP_SEV_196-196
  ⟨0xA811C5, 59, 1, 0x0, 0x007F, 0x0, some (0xA81006, 0)⟩, -- SMP_SEV_197-255
  ⟨0xA8FF00, 1, 1, 0x8032, 0x0, 0x0, none⟩, -- ICB_ID_SUP
  ⟨0xA8FF01, 2, 1, 0x0, 0x0, 0x0, none⟩, -- ICB_CLK,ICB_STATE_SUP
  ⟨0xA8FF03, 1, 1, 0x0, 0x0, 0x3, none⟩, -- ICB_GATE_ERR_SUP
  ⟨0xA8FF04, 1, 1, 0x0, 0xFFFF, 0x0, none⟩, -- ICB_DISCARD_SUP
  ⟨0xA8FF05, 2, 1, 0x0, 0x0, 0x0, none⟩, -- ICB_MEMWAIT,ICB_CTRL_SUP
  ⟨0xA8FF07, 1, 1, 0x3, 0x0, 0x0, none⟩ ] -- ICB_REQ_SUP

/-- Registers of window 0xA8_0000, part 2. -/
def regsSup2 : List RegRow := [
  ⟨0xA8FB00, 1, 1, 0xA0FA, 0x0, 0x0, none⟩, -- ICB_ID_CPA
  ⟨0xA8FB01, 2, 1, 0x0, 0x0, 0x0, none⟩, -- ICB_CLK,ICB_STATE_CPA
  ⟨0xA8FB03, 1, 1, 0x0, 0x0, 0x3, none⟩, -- ICB_GATE_ERR_CPA
  ⟨0xA8FB04, 1, 1, 0x0, 0xFFFF, 0x0, none⟩, -- ICB_DISCARD_CPA
  ⟨0xA8FB05, 2, 1, 0x0, 0x0, 0x0, none⟩, -- ICB_MEMWAIT,ICB_CTRL_CPA
  ⟨0xA8FB07, 1, 1, 0x4, 0x0, 0x0, none⟩, -- ICB_REQ_CPA
  ⟨0xA8FC00, 1, 1, 0xB0FA, 0x0, 0x0, none⟩, -- ICB_ID_CPB
  ⟨0xA8FC01, 2, 1, 0x0, 0x0, 0x0, none⟩, -- ICB_CLK,ICB_STATE_CPB
  ⟨0xA8FC03, 1, 1, 0x0, 0x0, 0x3, none⟩, -- ICB_GATE_ERR_CPB
  ⟨0xA8FC04, 1, 1, 0x0, 0xFFFF, 0x0, none⟩, -- ICB_DISCARD_CPB
  ⟨0xA8FC05, 2, 1, 0x0, 0x0, 0x0, none⟩, -- ICB_MEMWAIT,ICB_CTRL_CPB
  ⟨0xA8FC07, 1, 1, 0x4, 0x0, 0x0, none⟩, -- ICB_REQ_CPB
  ⟨0xA8FD00, 1, 1, 0x1, 0x0001, 0x0, none⟩, -- CCB_MODE_A
  ⟨0xA8FD01, 1, 1, 0x0, 0x0, 0x0, none⟩, -- CCB_CORE_A
  ⟨0xA8FD02, 1, 1, 0x0, 0x000F, 0x0, some (0xA8FD05, 0)⟩, -- CCB_SPARE_A
  ⟨0xA8FD03, 1, 1, 0x01FB, 0x01FF, 0x0, some (0xA8FD05, 0)⟩, -- CCB_CKPT
  ⟨0xA8FD04, 1, 1, 0x00E4, 0x0, 0x0, none⟩, -- CCB_MAP
  ⟨0xA8FD05, 1, 1, 0x0, 0x0001, 0x0, some (0xA8FD05, 0)⟩, -- CCB_SEAL_A
  ⟨0xA8FD06, 10, 1, 0x0, 0x0, 0x0, none⟩, -- CCB_reserved_A
  ⟨0xA8FD10, 4, 0x30, 0x0, 0x0, 0x0, none⟩, -- CORE_STAT_A
  ⟨0xA8FD11, 4, 0x30, 0x0, 0xFF, 0x0, none⟩, -- EVT_SEL_A
  ⟨0xA8FD12, 4, 0x30, 0x0, 0xFFE0, 0x0, none⟩, -- EV_EN_0_A
  ⟨0xA8FD13, 4, 0x30, 0x0, 0xFFFF, 0x0, none⟩, -- EV_EN_1_A
  ⟨0xA8FD14, 4, 0x30, 0x0, 0xFFFF, 0x0, none⟩, -- EV_EN_2_A
  ⟨0xA8FD15, 4, 0x30, 0x0, 0xFFFF, 0x0, none⟩, -- EV_EN_3_A
  ⟨0xA8FD16, 4, 0x30, 0x0, 0x0, 0xFFFF, none⟩, -- EV_PEND_0_A
  ⟨0xA8FD17, 4, 0x30, 0x0, 0x0, 0xFFFF, none⟩, -- EV_PEND_1_A
  ⟨0xA8FD18, 4, 0x30, 0x0, 0x0, 0xFFFF, none⟩, -- EV_PEND_2_A
  ⟨0xA8FD19, 4, 0x30, 0x0, 0x0, 0xFFFF, none⟩, -- EV_PEND_3_A
  ⟨0xA8FD1A, 4, 0x30, 0x0, 0xFC00, 0x0, none⟩, -- EV_LVL_0_A
  ⟨0xA8FD1B, 4, 0x30, 0x0, 0xFFFF, 0x0, none⟩, -- EV_LVL_1_A
  ⟨0xA8FD1C, 4, 0x30, 0x0, 0xFFFF, 0x0, none⟩, -- EV_LVL_2_A
  ⟨0xA8FD1D, 4, 0x30, 0x0, 0xFFFF, 0x0, none⟩, -- EV_LVL_3_A
  ⟨0xA8FD1E, 4, 0x30, 0x0, 0xFFFF, 0x0, none⟩, -- EV_LVL_4_A
  ⟨0xA8FD1F, 4, 0x30, 0x0, 0xFFFF, 0x0, none⟩, -- EV_LVL_5_A
  ⟨0xA8FD20, 4, 0x30, 0x0, 0xFFFF, 0x0, none⟩, -- EV_LVL_6_A
  ⟨0xA8FD21, 4, 0x30, 0x0, 0xFFFF, 0x0, none⟩, -- EV_LVL_7_A
  ⟨0xA8FD22, 4, 0x30, 0x0, 0x0, 0x0, none⟩, -- FLT_0_A
  ⟨0xA8FD23, 4, 0x30, 0x0, 0x0, 0x0, none⟩, -- FLT_1_A
  ⟨0xA8FD24, 4, 0x30, 0x0, 0x0, 0x0, none⟩ ] -- FLT_2_A

/-- Registers of window 0xA8_0000, part 3. -/
def regsSup3 : List RegRow := [
  ⟨0xA8FD25, 4, 0x30, 0x0, 0x0, 0x0, none⟩, -- FLT_3_A
  ⟨0xA8FD26, 4, 0x30, 0x0, 0x0, 0x0, none⟩, -- FLT_4_A
  ⟨0xA8FD27, 4, 0x30, 0x0, 0x0, 0x0, none⟩, -- FLT_5_A
  ⟨0xA8FD28, 4, 0x30, 0x0, 0x0, 0x0, none⟩, -- FLT_6_A
  ⟨0xA8FD29, 4, 0x30, 0x0, 0x0, 0x0, none⟩, -- FLT_7_A
  ⟨0xA8FD2A, 4, 0x30, 0x0, 0x0, 0x0, none⟩, -- TMR_0_A
  ⟨0xA8FD2B, 4, 0x30, 0x0, 0x0, 0x0, none⟩, -- TMR_1_A
  ⟨0xA8FD2C, 4, 0x30, 0x0, 0x3, 0x0, none⟩, -- TMR_CTRL_A
  ⟨0xA8FD2D, 4, 0x30, 0x0, 0xFFFF, 0x0, none⟩, -- TMR_RLD_0_A
  ⟨0xA8FD2E, 4, 0x30, 0x0, 0xFFFF, 0x0, none⟩, -- TMR_RLD_1_A
  ⟨0xA8FD2F, 4, 0x30, 0xFFF, 0x7FFF, 0x0, some (0xA8FD05, 0)⟩, -- WDG_CTRL_A
  ⟨0xA8FD30, 4, 0x30, 0x0, 0x0, 0x0, none⟩, -- WDG_KICK_A
  ⟨0xA8FD31, 4, 0x30, 0xFFF, 0x0, 0x0, none⟩, -- WDG_COUNT_A
  ⟨0xA8FD32, 4, 0x30, 0x0, 0x0, 0x0, none⟩, -- LS_0_A
  ⟨0xA8FD33, 4, 0x30, 0x0, 0x0, 0x0, none⟩, -- LS_1_A
  ⟨0xA8FD34, 4, 0x30, 0x0, 0x0, 0x0, none⟩, -- LS_2_A
  ⟨0xA8FD35, 4, 0x30, 0x0, 0x0, 0x0, none⟩, -- LS_3_A
  ⟨0xA8FD36, 4, 0x30, 0x0, 0x0, 0x0, none⟩, -- pc_reserved_0_A
  ⟨0xA8FD37, 4, 0x30, 0x0, 0x0, 0x0, none⟩, -- pc_reserved_1_A
  ⟨0xA8FD38, 4, 0x30, 0x0, 0x0, 0x0, none⟩, -- pc_reserved_2_A
  ⟨0xA8FD39, 4, 0x30, 0x0, 0x0, 0x0, none⟩, -- pc_reserved_3_A
  ⟨0xA8FD3A, 4, 0x30, 0x0, 0x0, 0x0, none⟩, -- pc_reserved_4_A
  ⟨0xA8FD3B, 4, 0x30, 0x0, 0x0, 0x0, none⟩, -- pc_reserved_5_A
  ⟨0xA8FD3C, 4, 0x30, 0x0, 0x0, 0x0, none⟩, -- pc_reserved_6_A
  ⟨0xA8FD3D, 4, 0x30, 0x0, 0x0, 0x0, none⟩, -- pc_reserved_7_A
  ⟨0xA8FD3E, 4, 0x30, 0x0, 0x0, 0x0, none⟩, -- pc_reserved_8_A
  ⟨0xA8FD3F, 4, 0x30, 0x0, 0x0, 0x0, none⟩, -- pc_reserved_9_A
  ⟨0xA8FDD0, 48, 1, 0x0, 0x0, 0x0, none⟩, -- CCB_reserved2_A
  ⟨0xA8FE00, 1, 1, 0x1, 0x0001, 0x0, none⟩, -- CCB_MODE_B
  ⟨0xA8FE01, 1, 1, 0x0, 0x0, 0x0, none⟩, -- CCB_CORE_B
  ⟨0xA8FE02, 1, 1, 0x0, 0x0, 0x0, none⟩, -- CCB_SPARE_B
  ⟨0xA8FE05, 1, 1, 0x0, 0x0001, 0x0, some (0xA8FE05, 0)⟩, -- CCB_SEAL_B
  ⟨0xA8FE06, 10, 1, 0x0, 0x0, 0x0, none⟩, -- CCB_reserved_B
  ⟨0xA8FE10, 4, 0x30, 0x0, 0x0, 0x0, none⟩, -- CORE_STAT_B
  ⟨0xA8FE11, 4, 0x30, 0x0, 0xFF, 0x0, none⟩, -- EVT_SEL_B
  ⟨0xA8FE12, 4, 0x30, 0x0, 0xFFE0, 0x0, none⟩, -- EV_EN_0_B
  ⟨0xA8FE13, 4, 0x30, 0x0, 0xFFFF, 0x0, none⟩, -- EV_EN_1_B
  ⟨0xA8FE14, 4, 0x30, 0x0, 0xFFFF, 0x0, none⟩, -- EV_EN_2_B
  ⟨0xA8FE15, 4, 0x30, 0x0, 0xFFFF, 0x0, none⟩, -- EV_EN_3_B
  ⟨0xA8FE16, 4, 0x30, 0x0, 0x0, 0xFFFF, none⟩ ] -- EV_PEND_0_B

/-- Registers of window 0xA8_0000, part 4. -/
def regsSup4 : List RegRow := [
  ⟨0xA8FE17, 4, 0x30, 0x0, 0x0, 0xFFFF, none⟩, -- EV_PEND_1_B
  ⟨0xA8FE18, 4, 0x30, 0x0, 0x0, 0xFFFF, none⟩, -- EV_PEND_2_B
  ⟨0xA8FE19, 4, 0x30, 0x0, 0x0, 0xFFFF, none⟩, -- EV_PEND_3_B
  ⟨0xA8FE1A, 4, 0x30, 0x0, 0xFC00, 0x0, none⟩, -- EV_LVL_0_B
  ⟨0xA8FE1B, 4, 0x30, 0x0, 0xFFFF, 0x0, none⟩, -- EV_LVL_1_B
  ⟨0xA8FE1C, 4, 0x30, 0x0, 0xFFFF, 0x0, none⟩, -- EV_LVL_2_B
  ⟨0xA8FE1D, 4, 0x30, 0x0, 0xFFFF, 0x0, none⟩, -- EV_LVL_3_B
  ⟨0xA8FE1E, 4, 0x30, 0x0, 0xFFFF, 0x0, none⟩, -- EV_LVL_4_B
  ⟨0xA8FE1F, 4, 0x30, 0x0, 0xFFFF, 0x0, none⟩, -- EV_LVL_5_B
  ⟨0xA8FE20, 4, 0x30, 0x0, 0xFFFF, 0x0, none⟩, -- EV_LVL_6_B
  ⟨0xA8FE21, 4, 0x30, 0x0, 0xFFFF, 0x0, none⟩, -- EV_LVL_7_B
  ⟨0xA8FE22, 4, 0x30, 0x0, 0x0, 0x0, none⟩, -- FLT_0_B
  ⟨0xA8FE23, 4, 0x30, 0x0, 0x0, 0x0, none⟩, -- FLT_1_B
  ⟨0xA8FE24, 4, 0x30, 0x0, 0x0, 0x0, none⟩, -- FLT_2_B
  ⟨0xA8FE25, 4, 0x30, 0x0, 0x0, 0x0, none⟩, -- FLT_3_B
  ⟨0xA8FE26, 4, 0x30, 0x0, 0x0, 0x0, none⟩, -- FLT_4_B
  ⟨0xA8FE27, 4, 0x30, 0x0, 0x0, 0x0, none⟩, -- FLT_5_B
  ⟨0xA8FE28, 4, 0x30, 0x0, 0x0, 0x0, none⟩, -- FLT_6_B
  ⟨0xA8FE29, 4, 0x30, 0x0, 0x0, 0x0, none⟩, -- FLT_7_B
  ⟨0xA8FE2A, 4, 0x30, 0x0, 0x0, 0x0, none⟩, -- TMR_0_B
  ⟨0xA8FE2B, 4, 0x30, 0x0, 0x0, 0x0, none⟩, -- TMR_1_B
  ⟨0xA8FE2C, 4, 0x30, 0x0, 0x3, 0x0, none⟩, -- TMR_CTRL_B
  ⟨0xA8FE2D, 4, 0x30, 0x0, 0xFFFF, 0x0, none⟩, -- TMR_RLD_0_B
  ⟨0xA8FE2E, 4, 0x30, 0x0, 0xFFFF, 0x0, none⟩, -- TMR_RLD_1_B
  ⟨0xA8FE2F, 4, 0x30, 0xFFF, 0x7FFF, 0x0, some (0xA8FE05, 0)⟩, -- WDG_CTRL_B
  ⟨0xA8FE30, 4, 0x30, 0x0, 0x0, 0x0, none⟩, -- WDG_KICK_B
  ⟨0xA8FE31, 4, 0x30, 0xFFF, 0x0, 0x0, none⟩, -- WDG_COUNT_B
  ⟨0xA8FE32, 4, 0x30, 0x0, 0x0, 0x0, none⟩, -- LS_0_B
  ⟨0xA8FE33, 4, 0x30, 0x0, 0x0, 0x0, none⟩, -- LS_1_B
  ⟨0xA8FE34, 4, 0x30, 0x0, 0x0, 0x0, none⟩, -- LS_2_B
  ⟨0xA8FE35, 4, 0x30, 0x0, 0x0, 0x0, none⟩, -- LS_3_B
  ⟨0xA8FE36, 4, 0x30, 0x0, 0x0, 0x0, none⟩, -- pc_reserved_0_B
  ⟨0xA8FE37, 4, 0x30, 0x0, 0x0, 0x0, none⟩, -- pc_reserved_1_B
  ⟨0xA8FE38, 4, 0x30, 0x0, 0x0, 0x0, none⟩, -- pc_reserved_2_B
  ⟨0xA8FE39, 4, 0x30, 0x0, 0x0, 0x0, none⟩, -- pc_reserved_3_B
  ⟨0xA8FE3A, 4, 0x30, 0x0, 0x0, 0x0, none⟩, -- pc_reserved_4_B
  ⟨0xA8FE3B, 4, 0x30, 0x0, 0x0, 0x0, none⟩, -- pc_reserved_5_B
  ⟨0xA8FE3C, 4, 0x30, 0x0, 0x0, 0x0, none⟩, -- pc_reserved_6_B
  ⟨0xA8FE3D, 4, 0x30, 0x0, 0x0, 0x0, none⟩, -- pc_reserved_7_B
  ⟨0xA8FE3E, 4, 0x30, 0x0, 0x0, 0x0, none⟩ ] -- pc_reserved_8_B

/-- Registers of window 0xA8_0000, part 5. -/
def regsSup5 : List RegRow := [
  ⟨0xA8FE3F, 4, 0x30, 0x0, 0x0, 0x0, none⟩, -- pc_reserved_9_B
  ⟨0xA8FED0, 48, 1, 0x0, 0x0, 0x0, none⟩, -- CCB_reserved2_B
  ⟨0xA82000, 3, 1, 0x0000, 0x0, 0x0, none⟩, -- UPD_STAT,UPD_MREF_LO,UPD_MREF_HI
  ⟨0xA82003, 1, 1, 0x0000, 0xFFFF, 0x0, none⟩, -- UPD_HADDR_LO
  ⟨0xA82004, 1, 1, 0x0000, 0x00FF, 0x0, none⟩, -- UPD_HADDR_HI
  ⟨0xA82005, 1, 1, 0x0000, 0xFFFF, 0x0, none⟩, -- UPD_OFFS_LO
  ⟨0xA82006, 1, 1, 0x0000, 0x003F, 0x0, none⟩, -- UPD_OFFS_HI
  ⟨0xA82007, 5, 1, 0x0000, 0x0, 0x0, none⟩, -- UPD_CMD,UPD_PSTAT,UPD_FILL_LO,UPD_FILL_HI,UPD_LEFT
  ⟨0xA8200C, 1, 1, 0x0000, 0x00FF, 0x0, some (0xA8200D, 0)⟩, -- UPD_AUTH
  ⟨0xA8200D, 1, 1, 0x0000, 0x0001, 0x0, some (0xA8200D, 0)⟩, -- UPD_SEAL
  ⟨0xA8200E, 1, 1, 0x0000, 0x0FFF, 0x0, none⟩, -- UPD_EV_ROUTE
  ⟨0xA8200F, 1, 1, 0x0000, 0x0, 0x0007, none⟩, -- UPD_EV_FLAG
  ⟨0xA82010, 2, 1, 0x0000, 0x0, 0x0, none⟩ ] -- UPD_CDONE,UPD_CMISS

/-- Registers of window 0xA8_0000. -/
def regsSup : List RegRow := regsSup0 ++ regsSup1 ++ regsSup2 ++ regsSup3 ++ regsSup4 ++ regsSup5

/-- Registers of window 0xA0_0000, part 0. -/
def regsSw0 : List RegRow := [
  ⟨0xA0FF00, 1, 1, 0x50, 0x0, 0x0, none⟩, -- ICB_ID_SW
  ⟨0xA0FF01, 2, 1, 0x0, 0x0, 0x0, none⟩, -- ICB_CLK,ICB_STATE_SW
  ⟨0xA0FF03, 1, 1, 0x0, 0x0, 0x3, none⟩, -- ICB_GATE_ERR_SW
  ⟨0xA0FF04, 1, 1, 0x0, 0xFFFF, 0x0, none⟩, -- ICB_DISCARD_SW
  ⟨0xA0FF05, 2, 1, 0x0, 0x0, 0x0, none⟩, -- ICB_MEMWAIT,ICB_CTRL_SW
  ⟨0xA0FF07, 1, 1, 0x4, 0x0, 0x0, none⟩, -- ICB_REQ_SW
  ⟨0xA00011, 76, 0x20, 0x0005, 0x0, 0x1FF8, none⟩, -- DIAG
  ⟨0xA00016, 76, 0x20, 0x8000, 0x0, 0x0, none⟩, -- WIRE_T
  ⟨0xA00019, 76, 0x20, 0x0, 0xFFFF, 0x0, none⟩, -- REJECT
  ⟨0xA00000, 2432, 1, 0x0, 0x0, 0x0, none⟩, -- channel_ports
  ⟨0xA0F800, 1, 1, 0x0, 0xFFFF, 0x0, none⟩, -- PROF_BASE_LO
  ⟨0xA0F801, 1, 1, 0x0, 0x00FF, 0x0, none⟩, -- PROF_BASE_HI
  ⟨0xA0F802, 6, 1, 0x0, 0x0, 0x0, none⟩, -- PROF_CMD,PROF_STAT,PROF_VALID
  ⟨0xA0F808, 1, 1, 0x0, 0x00FF, 0x0, some (0xA0F80C, 0)⟩, -- RET_AUTH
  ⟨0xA0F809, 2, 1, 0x0, 0x0, 0x0, none⟩, -- RET_CLEAR,RET_STAT
  ⟨0xA0F80B, 1, 1, 0x0, 0x0FFF, 0x0, none⟩, -- EV_ROUTE
  ⟨0xA0F80C, 1, 1, 0x0, 0x0001, 0x0, some (0xA0F80C, 0)⟩, -- OIB_SEAL
  ⟨0xA0F810, 32, 1, 0x8888, 0xFFFF, 0x0, some (0xA0F80C, 0)⟩, -- OWNER
  ⟨0xA0F830, 8, 1, 0x0, 0x0, 0x0, none⟩, -- RETIRED
  ⟨0xA0F000, 1, 1, 0x0E10, 0xFFFF, 0x0, some (0xA0F80C, 0)⟩, -- GOV_LIMIT
  ⟨0xA0F001, 2, 1, 0x0, 0x0, 0x0, none⟩, -- GOV_STAT,GOV_PSUM
  ⟨0xA0F003, 1, 1, 0x0E10, 0x0, 0x0, none⟩, -- GOV_PCEIL
  ⟨0xA0F004, 3, 1, 0x0, 0x0, 0x0, none⟩, -- GOV_PNOW,GOV_TBASE,GOV_PEXT
  ⟨0xA0F007, 1, 1, 0x07D0, 0xFFFF, 0x0, none⟩, -- GOV_WAITMAX
  ⟨0xA0F008, 1, 1, 0x0046, 0x00FF, 0x0, some (0xA0F80C, 0)⟩, -- WM_TAMB
  ⟨0xA0F010, 8, 1, 0x0, 0x0, 0x0, none⟩, -- CLU_TCASE
  ⟨0xA0F018, 8, 1, 0xFF00, 0x0, 0x0, none⟩, -- CLU_STAT
  ⟨0xA0F020, 8, 1, 0x0, 0x0, 0x0, none⟩, -- SEC_I,SEC_INOW
  ⟨0xA0F028, 1, 1, 0x0320, 0xFFFF, 0x0, some (0xA0F80C, 0)⟩, -- SEC_IWARN
  ⟨0xA0F029, 1, 1, 0x0, 0x1FFF, 0x0, none⟩, -- SW_EV_ROUTE
  ⟨0xA0F02A, 1, 1, 0x0, 0x0, 0x000F, none⟩, -- SW_EV_FLAG
  ⟨0xA0F02B, 1, 1, 0x0, 0x0, 0x0, none⟩ ] -- SW_EV_CHAN

/-- Registers of window 0xA0_0000. -/
def regsSw : List RegRow := regsSw0

/-- Registers of window 0xA1_0000, part 0. -/
def regsAct0 : List RegRow := [
  ⟨0xA1FF00, 1, 1, 0x1064, 0x0, 0x0, none⟩, -- ICB_ID_ACT
  ⟨0xA1FF01, 2, 1, 0x0, 0x0, 0x0, none⟩, -- ICB_CLK,ICB_STATE_ACT
  ⟨0xA1FF03, 1, 1, 0x0, 0x0, 0x3, none⟩, -- ICB_GATE_ERR_ACT
  ⟨0xA1FF04, 1, 1, 0x0, 0xFFFF, 0x0, none⟩, -- ICB_DISCARD_ACT
  ⟨0xA1FF05, 2, 1, 0x0, 0x0, 0x0, none⟩, -- ICB_MEMWAIT,ICB_CTRL_ACT
  ⟨0xA1FF07, 1, 1, 0x2, 0x0, 0x0, none⟩, -- ICB_REQ_ACT
  ⟨0xA1F000, 1, 1, 0x0258, 0xFFFF, 0x0, some (0xA1F80C, 0)⟩, -- BST_SET
  ⟨0xA1F001, 1, 1, 0x0190, 0xFFFF, 0x0, some (0xA1F80C, 0)⟩, -- BST_VMIN
  ⟨0xA1F002, 1, 1, 0x0064, 0xFFFF, 0x0, some (0xA1F80C, 0)⟩, -- BST_CAP
  ⟨0xA1F003, 1, 1, 0x0000, 0x0001, 0x0, none⟩, -- BST_CTRL
  ⟨0xA1F004, 4, 1, 0x0000, 0x0, 0x0, none⟩, -- BST_STAT,BST_VNOW,BST_EAVAIL,BST_EREQ
  ⟨0xA1F008, 1, 1, 0x0000, 0x000F, 0x0, some (0xA1F80C, 0)⟩, -- BANK_PAR
  ⟨0xA1F009, 1, 1, 0x0000, 0x0, 0x0, none⟩, -- BANK_CLR
  ⟨0xA1F010, 8, 1, 0x0000, 0x0, 0x0, none⟩, -- BANK_STAT_0-3,BANK_I_0-3
  ⟨0xA1F018, 1, 1, 0x0000, 0x0, 0x0, none⟩, -- PK_QUEUE
  ⟨0xA1F019, 1, 1, 0x0000, 0x1FFF, 0x0, none⟩, -- ACT_EV_ROUTE
  ⟨0xA1F01A, 1, 1, 0x0000, 0x0, 0x000F, none⟩, -- ACT_EV_FLAG
  ⟨0xA1F01B, 2, 1, 0x0000, 0x0, 0x0, none⟩, -- ACT_EV_CHAN,ACT_PDISS
  ⟨0xA10011, 16, 0x20, 0x0005, 0x0, 0x1FF8, none⟩, -- DIAG
  ⟨0xA10016, 16, 0x20, 0x8000, 0x0, 0x0, none⟩, -- WIRE_T
  ⟨0xA10019, 16, 0x20, 0x0, 0xFFFF, 0x0, none⟩, -- REJECT
  ⟨0xA10000, 512, 1, 0x0, 0x0, 0x0, none⟩, -- channel_ports
  ⟨0xA1F800, 1, 1, 0x0, 0xFFFF, 0x0, none⟩, -- PROF_BASE_LO
  ⟨0xA1F801, 1, 1, 0x0, 0x00FF, 0x0, none⟩, -- PROF_BASE_HI
  ⟨0xA1F802, 6, 1, 0x0, 0x0, 0x0, none⟩, -- PROF_CMD,PROF_STAT,PROF_VALID
  ⟨0xA1F808, 1, 1, 0x0, 0x00FF, 0x0, some (0xA1F80C, 0)⟩, -- RET_AUTH
  ⟨0xA1F809, 2, 1, 0x0, 0x0, 0x0, none⟩, -- RET_CLEAR,RET_STAT
  ⟨0xA1F80B, 1, 1, 0x0, 0x0FFF, 0x0, none⟩, -- EV_ROUTE
  ⟨0xA1F80C, 1, 1, 0x0, 0x0001, 0x0, some (0xA1F80C, 0)⟩, -- OIB_SEAL
  ⟨0xA1F810, 32, 1, 0x8888, 0xFFFF, 0x0, some (0xA1F80C, 0)⟩, -- OWNER
  ⟨0xA1F830, 8, 1, 0x0, 0x0, 0x0, none⟩ ] -- RETIRED

/-- Registers of window 0xA1_0000. -/
def regsAct : List RegRow := regsAct0

/-- Registers of window 0xA2_0000, part 0. -/
def regsLux0 : List RegRow := [
  ⟨0xA2FF00, 1, 1, 0x2064, 0x0, 0x0, none⟩, -- ICB_ID_LUX
  ⟨0xA2FF01, 2, 1, 0x0, 0x0, 0x0, none⟩, -- ICB_CLK,ICB_STATE_LUX
  ⟨0xA2FF03, 1, 1, 0x0, 0x0, 0x3, none⟩, -- ICB_GATE_ERR_LUX
  ⟨0xA2FF04, 1, 1, 0x0, 0xFFFF, 0x0, none⟩, -- ICB_DISCARD_LUX
  ⟨0xA2FF05, 2, 1, 0x0, 0x0, 0x0, none⟩, -- ICB_MEMWAIT,ICB_CTRL_LUX
  ⟨0xA2FF07, 1, 1, 0x4, 0x0, 0x0, none⟩, -- ICB_REQ_LUX
  ⟨0xA24000, 2304, 1, 0x0000, 0x0, 0x0, none⟩, -- frame_buffers
  ⟨0xA24900, 72, 1, 0x0000, 0x0, 0xFFFF, none⟩, -- LUX_PIXFAULT
  ⟨0xA2F000, 1, 1, 0x0000, 0x00FF, 0x0, none⟩, -- LUX_GC
  ⟨0xA2F001, 1, 1, 0x0000, 0x0, 0x0, none⟩, -- LUX_GCSTAT
  ⟨0xA2F002, 1, 1, 0x00EA, 0x0, 0x0, none⟩, -- LUX_IGLOB
  ⟨0xA2F003, 1, 1, 0x000C, 0x003F, 0x0, none⟩, -- MX_CFG
  ⟨0xA2F004, 1, 1, 0x09C4, 0xFFFF, 0x0, none⟩, -- MX_FPER
  ⟨0xA2F005, 1, 1, 0x0000, 0x0001, 0x0, none⟩, -- LUX_MXCTRL
  ⟨0xA2F006, 2, 1, 0x0000, 0x0, 0x0, none⟩, -- FB_CMD,FB_STAT
  ⟨0xA2F008, 1, 1, 0x0000, 0xFFFF, 0x0, none⟩, -- FB_LOAD_LO
  ⟨0xA2F009, 1, 1, 0x0000, 0x00FF, 0x0, none⟩, -- FB_LOAD_HI
  ⟨0xA2F00A, 1, 1, 0x0008, 0x000F, 0x0, some (0xA2F80C, 0)⟩, -- FB_OWNER
  ⟨0xA2F00B, 1, 1, 0x0000, 0xFFFF, 0x0, none⟩, -- LX_ERR
  ⟨0xA2F00C, 6, 1, 0x0000, 0x0, 0x0, none⟩, -- LUX_CALCMD,LUX_CALSTAT,LUX_CALVALID_0-3
  ⟨0xA2F012, 1, 1, 0x0000, 0x1FFF, 0x0, none⟩, -- LUX_EV_ROUTE
  ⟨0xA2F013, 1, 1, 0x0000, 0x0, 0x001F, none⟩, -- LUX_EV_FLAG
  ⟨0xA2F014, 3, 1, 0x0000, 0x0, 0x0, none⟩, -- LUX_EV_CHAN,LUX_PDISS,LUX_TDIE
  ⟨0xA2F040, 64, 1, 0x8000, 0x0, 0x0, none⟩, -- LAMP_DRF
  ⟨0xA2F080, 64, 1, 0x0000, 0x0, 0x0, none⟩, -- LAMP_T
  ⟨0xA2F0C0, 64, 1, 0x0000, 0x0, 0x0, none⟩, -- LAMP_LEAD
  ⟨0xA20011, 108, 0x20, 0x0005, 0x0, 0x1FF8, none⟩, -- DIAG
  ⟨0xA20016, 108, 0x20, 0x8000, 0x0, 0x0, none⟩, -- WIRE_T
  ⟨0xA20019, 108, 0x20, 0x0, 0xFFFF, 0x0, none⟩, -- REJECT
  ⟨0xA20000, 3456, 1, 0x0, 0x0, 0x0, none⟩, -- channel_ports
  ⟨0xA2F800, 1, 1, 0x0, 0xFFFF, 0x0, none⟩, -- PROF_BASE_LO
  ⟨0xA2F801, 1, 1, 0x0, 0x00FF, 0x0, none⟩, -- PROF_BASE_HI
  ⟨0xA2F802, 6, 1, 0x0, 0x0, 0x0, none⟩, -- PROF_CMD,PROF_STAT,PROF_VALID
  ⟨0xA2F808, 1, 1, 0x0, 0x00FF, 0x0, some (0xA2F80C, 0)⟩, -- RET_AUTH
  ⟨0xA2F809, 2, 1, 0x0, 0x0, 0x0, none⟩, -- RET_CLEAR,RET_STAT
  ⟨0xA2F80B, 1, 1, 0x0, 0x0FFF, 0x0, none⟩, -- EV_ROUTE
  ⟨0xA2F80C, 1, 1, 0x0, 0x0001, 0x0, some (0xA2F80C, 0)⟩, -- OIB_SEAL
  ⟨0xA2F810, 32, 1, 0x8888, 0xFFFF, 0x0, some (0xA2F80C, 0)⟩, -- OWNER
  ⟨0xA2F830, 8, 1, 0x0, 0x0, 0x0, none⟩ ] -- RETIRED

/-- Registers of window 0xA2_0000. -/
def regsLux : List RegRow := regsLux0

/-- Registers of window 0xA3_0000, part 0. -/
def regsNet0 : List RegRow := [
  ⟨0xA3FF00, 1, 1, 0x307D, 0x0, 0x0, none⟩, -- ICB_ID_NET
  ⟨0xA3FF01, 2, 1, 0x0, 0x0, 0x0, none⟩, -- ICB_CLK,ICB_STATE_NET
  ⟨0xA3FF03, 1, 1, 0x0, 0x0, 0x3, none⟩, -- ICB_GATE_ERR_NET
  ⟨0xA3FF04, 1, 1, 0x0, 0xFFFF, 0x0, none⟩, -- ICB_DISCARD_NET
  ⟨0xA3FF05, 2, 1, 0x0, 0x0, 0x0, none⟩, -- ICB_MEMWAIT,ICB_CTRL_NET
  ⟨0xA3FF07, 1, 1, 0x8, 0x0, 0x0, none⟩, -- ICB_REQ_NET
  ⟨0xA30000, 1, 1, 0x0, 0x0001, 0x0, none⟩, -- NET_CTRL
  ⟨0xA30001, 2, 1, 0x0, 0x0, 0x0, none⟩, -- NET_CMD,NET_STAT
  ⟨0xA30003, 2, 1, 0x0, 0xFFFF, 0x0, none⟩, -- GW_NOMATCH,GW_DROP
  ⟨0xA30005, 1, 1, 0x0, 0x1FFF, 0x0, none⟩, -- NET_EV_ROUTE
  ⟨0xA30006, 1, 1, 0x0, 0x0, 0x000F, none⟩, -- NET_EV_FLAG
  ⟨0xA30007, 2, 1, 0x0, 0x0, 0x0, none⟩, -- NET_US
  ⟨0xA30010, 8, 4, 0x0, 0xFFFF, 0x0, none⟩, -- RXR_LO
  ⟨0xA30011, 8, 4, 0x0, 0x1FFF, 0x0, none⟩, -- RXR_HI
  ⟨0xA30012, 8, 4, 0x0, 0x0, 0x0, none⟩, -- RXR_WP
  ⟨0xA30013, 8, 4, 0x0, 0xFFFF, 0x0, none⟩, -- RXR_RP
  ⟨0xA30040, 1, 1, 0x0, 0x000F, 0x0, none⟩, -- TR_CTRL
  ⟨0xA30041, 1, 1, 0x0, 0x07FF, 0x0, none⟩, -- TR_CFG
  ⟨0xA30042, 1, 1, 0x0, 0x00FF, 0x0, none⟩, -- TR_SEG
  ⟨0xA30043, 1, 1, 0x0014, 0x00FF, 0x0, none⟩, -- TR_PACE
  ⟨0xA30044, 1, 1, 0x01F4, 0xFFFF, 0x0, none⟩, -- TR_LOST
  ⟨0xA30045, 1, 1, 0x0384, 0xFFFF, 0x0, none⟩, -- TR_MAXAW
  ⟨0xA30046, 1, 1, 0x0, 0x0001, 0x0, none⟩, -- TR_VOTE
  ⟨0xA30047, 1, 1, 0x0, 0x0, 0x0, none⟩, -- TR_CMD
  ⟨0xA30048, 1, 1, 0x00C7, 0x03FF, 0x0, none⟩, -- TR_REVOKE_EN
  ⟨0xA30049, 1, 1, 0x0, 0x0, 0x0, none⟩, -- TR_STAT
  ⟨0xA3004A, 1, 1, 0x00FF, 0x0, 0x0, none⟩, -- TR_RUN
  ⟨0xA3004B, 4, 1, 0x0, 0x0, 0x0, none⟩, -- TR_QUIET,TR_VETO,TR_VETOAGE,TR_CNT
  ⟨0xA30050, 4, 1, 0x0, 0x0, 0x0, none⟩, -- TR_MEMB_0-3
  ⟨0xA30054, 4, 1, 0x0, 0x0, 0x0, none⟩, -- TR_BAR_0-3
  ⟨0xA30060, 16, 1, 0xFFFF, 0x0, 0x0, none⟩, -- TR_MPORT_0-15
  ⟨0xA30100, 8, 0x20, 0x0, 0x007F, 0x0, none⟩, -- CAN_MODE
  ⟨0xA30101, 8, 0x20, 0x0, 0xFF1F, 0x0, none⟩, -- CAN_NBT_0
  ⟨0xA30102, 8, 0x20, 0x0, 0x7F7F, 0x0, none⟩, -- CAN_NBT_1
  ⟨0xA30103, 8, 0x20, 0x0, 0x1F1F, 0x0, none⟩, -- CAN_DBT_0
  ⟨0xA30104, 8, 0x20, 0x0, 0x0F0F, 0x0, none⟩, -- CAN_DBT_1
  ⟨0xA30105, 8, 0x20, 0x0, 0x007F, 0x0, none⟩, -- CAN_TDCO
  ⟨0xA30106, 8, 0x20, 0x0, 0x0, 0x0, none⟩, -- CAN_STAT
  ⟨0xA30107, 8, 0x20, 0x0, 0x0, 0x0, none⟩, -- CAN_ERRC
  ⟨0xA30108, 8, 0x20, 0x0, 0xFFFF, 0x0, none⟩ ] -- CAN_TXR_BASE_LO

/-- Registers of window 0xA3_0000, part 1. -/
def regsNet1 : List RegRow := [
  ⟨0xA30109, 8, 0x20, 0x0, 0x0FFF, 0x0, none⟩, -- CAN_TXR_BASE_HI
  ⟨0xA3010A, 8, 0x20, 0x0, 0xFFFF, 0x0, none⟩, -- CAN_TXR_WP
  ⟨0xA3010B, 8, 0x20, 0x0, 0x0, 0x0, none⟩, -- CAN_TXR_RP
  ⟨0xA3010C, 8, 0x20, 0x0, 0x0, 0x0, none⟩, -- CAN_GWQ
  ⟨0xA3010D, 8, 0x20, 0x0, 0x0, 0x0, none⟩, -- CAN_RXCNT
  ⟨0xA3010E, 8, 0x20, 0x0, 0x0, 0x0, none⟩, -- CAN_TXCNT
  ⟨0xA3010F, 8, 0x20, 0x0, 0x0, 0x0, none⟩, -- CAN_BOREC
  ⟨0xA30200, 6, 0x20, 0x0, 0x000F, 0x0, none⟩, -- ETH_MODE
  ⟨0xA30201, 6, 0x20, 0x0800, 0xFFFF, 0x0, none⟩, -- ETH_PLCA_A
  ⟨0xA30202, 6, 0x20, 0x0020, 0xFFFF, 0x0, none⟩, -- ETH_PLCA_B
  ⟨0xA30203, 6, 0x20, 0x0, 0xFFFF, 0x0, none⟩, -- ETH_MAC_0
  ⟨0xA30204, 6, 0x20, 0x0, 0xFFFF, 0x0, none⟩, -- ETH_MAC_1
  ⟨0xA30205, 6, 0x20, 0x0, 0xFFFF, 0x0, none⟩, -- ETH_MAC_2
  ⟨0xA30206, 6, 0x20, 0x0, 0x0FFF, 0x0, none⟩, -- ETH_PVID
  ⟨0xA30207, 6, 0x20, 0x0, 0x0, 0x0, none⟩, -- ETH_STAT
  ⟨0xA30208, 6, 0x20, 0x0, 0x0, 0x0, none⟩, -- ETH_TC10
  ⟨0xA30209, 6, 0x20, 0x0, 0xFFFF, 0x0, none⟩, -- ETH_TXR_BASE_LO
  ⟨0xA3020A, 6, 0x20, 0x0, 0x0FFF, 0x0, none⟩, -- ETH_TXR_BASE_HI
  ⟨0xA3020B, 6, 0x20, 0x0, 0xFFFF, 0x0, none⟩, -- ETH_TXR_WP
  ⟨0xA3020C, 6, 0x20, 0x0, 0x0, 0x0, none⟩, -- ETH_TXR_RP
  ⟨0xA3020D, 6, 0x20, 0x0, 0x0, 0x0, none⟩, -- ETH_GWQ
  ⟨0xA3020E, 6, 0x20, 0x0, 0x0, 0x0, none⟩, -- ETH_RXCNT
  ⟨0xA3020F, 6, 0x20, 0x0, 0x0, 0x0, none⟩, -- ETH_TXCNT
  ⟨0xA30210, 6, 0x20, 0x0, 0x0, 0x0, none⟩, -- ETH_ERR
  ⟨0xA30300, 12, 0x10, 0x0, 0x0003, 0x0, none⟩, -- LIN_MODE
  ⟨0xA30301, 12, 0x10, 0x07D0, 0xFFFF, 0x0, none⟩, -- LIN_BAUD
  ⟨0xA30302, 12, 0x10, 0x0, 0x0, 0x0, none⟩, -- LIN_HDR
  ⟨0xA30303, 12, 0x10, 0x0, 0x0, 0x0, none⟩, -- LIN_STAT
  ⟨0xA30304, 12, 0x10, 0x0, 0x0, 0x0, none⟩, -- LIN_DATA_0
  ⟨0xA30305, 12, 0x10, 0x0, 0x0, 0x0, none⟩, -- LIN_DATA_1
  ⟨0xA30306, 12, 0x10, 0x0, 0x0, 0x0, none⟩, -- LIN_DATA_2
  ⟨0xA30307, 12, 0x10, 0x0, 0x0, 0x0, none⟩, -- LIN_DATA_3
  ⟨0xA30308, 12, 0x10, 0x0, 0x0, 0x0, none⟩, -- LIN_WAKE
  ⟨0xA30800, 1, 1, 0x0, 0x00FF, 0x0, none⟩, -- WK_CAN_EN
  ⟨0xA30801, 1, 1, 0xAAAA, 0xFFFF, 0x0, none⟩, -- WK_RATE
  ⟨0xA30802, 1, 1, 0x0001, 0x000F, 0x0, none⟩, -- WK_WUPF
  ⟨0xA30803, 1, 1, 0x0, 0x0FFF, 0x0, none⟩, -- WK_LIN_EN
  ⟨0xA30804, 1, 1, 0x0, 0x0003, 0x0, none⟩, -- WK_T1_EN
  ⟨0xA30805, 1, 1, 0x0, 0x3FFF, 0x0, none⟩, -- GW_ISO
  ⟨0xA30806, 1, 1, 0x0, 0x0, 0x0, none⟩ ] -- WKL_CMD

/-- Registers of window 0xA3_0000, part 2. -/
def regsNet2 : List RegRow := [
  ⟨0xA30807, 1, 1, 0x0032, 0x00FF, 0x0, none⟩, -- WKL_PULSE
  ⟨0xA30808, 1, 1, 0x0, 0x0, 0x0, none⟩, -- WKL_STAT
  ⟨0xA30809, 1, 1, 0x00C1, 0x03FF, 0x0, none⟩, -- WF_CAUSE
  ⟨0xA3080A, 1, 1, 0x0, 0x00FF, 0x0, none⟩, -- WF_CAN
  ⟨0xA3080B, 1, 1, 0x0, 0x0FFF, 0x0, none⟩, -- WF_LIN
  ⟨0xA3080C, 1, 1, 0x0, 0x0003, 0x0, none⟩, -- WF_T1
  ⟨0xA3080D, 1, 1, 0x0, 0xFFFF, 0x0, none⟩, -- WF_ID_LO
  ⟨0xA3080E, 1, 1, 0x0, 0x3FFF, 0x0, none⟩, -- WF_ID_HI
  ⟨0xA3080F, 1, 1, 0x0008, 0x000F, 0x0, none⟩, -- WF_DLC
  ⟨0xA30810, 4, 1, 0x0, 0xFFFF, 0x0, none⟩, -- WF_DATA
  ⟨0xA30814, 1, 1, 0x0, 0x0, 0x0, none⟩, -- WF_STAT
  ⟨0xA31000, 128, 0x10, 0x0, 0xFFFF, 0x0, none⟩, -- FLT_W0
  ⟨0xA31001, 128, 0x10, 0x0, 0x3FFF, 0x0, none⟩, -- FLT_W1
  ⟨0xA31002, 128, 0x10, 0x0, 0xFFFF, 0x0, none⟩, -- FLT_W2
  ⟨0xA31003, 128, 0x10, 0x0, 0x1FFF, 0x0, none⟩, -- FLT_W3
  ⟨0xA31004, 128, 0x10, 0x0, 0x801F, 0x0, none⟩, -- FLT_W4
  ⟨0xA31005, 128, 0x10, 0x0, 0xFFFF, 0x0, none⟩, -- FLT_W5
  ⟨0xA31006, 128, 0x10, 0x0, 0xFFFF, 0x0, none⟩, -- FLT_W6
  ⟨0xA31007, 128, 0x10, 0x0, 0xFFFF, 0x0, none⟩, -- FLT_W7
  ⟨0xA31008, 128, 0x10, 0x0, 0xFFFF, 0x0, none⟩, -- FLT_W8
  ⟨0xA32000, 256, 8, 0x0, 0xFFFF, 0x0, none⟩, -- RTE_W0
  ⟨0xA32001, 256, 8, 0x0, 0xBFFF, 0x0, none⟩, -- RTE_W1
  ⟨0xA32002, 256, 8, 0x0, 0xFFFF, 0x0, none⟩, -- RTE_W2
  ⟨0xA32003, 256, 8, 0x0, 0x1FFF, 0x0, none⟩, -- RTE_W3
  ⟨0xA32004, 256, 8, 0x0, 0x0F0F, 0x0, none⟩, -- RTE_W4
  ⟨0xA32005, 256, 8, 0x0, 0x3FFF, 0x0, none⟩, -- RTE_W5
  ⟨0xA34000, 768, 8, 0x0, 0x007F, 0x0, none⟩, -- LFT_W0
  ⟨0xA34001, 768, 8, 0x0, 0xFFFF, 0x0, none⟩, -- LFT_D0
  ⟨0xA34002, 768, 8, 0x0, 0xFFFF, 0x0, none⟩, -- LFT_D1
  ⟨0xA34003, 768, 8, 0x0, 0xFFFF, 0x0, none⟩, -- LFT_D2
  ⟨0xA34004, 768, 8, 0x0, 0xFFFF, 0x0, none⟩, -- LFT_D3
  ⟨0xA34005, 768, 8, 0x0, 0x0, 0x0, none⟩ ] -- LFT_PUB

/-- Registers of window 0xA3_0000. -/
def regsNet : List RegRow := regsNet0 ++ regsNet1 ++ regsNet2

/-- Registers of window 0xA4_0000, part 0. -/
def regsSec0 : List RegRow := [
  ⟨0xA4FF00, 1, 1, 0x40FA, 0x0, 0x0, none⟩, -- ICB_ID_SEC
  ⟨0xA4FF01, 2, 1, 0x0, 0x0, 0x0, none⟩, -- ICB_CLK,ICB_STATE_SEC
  ⟨0xA4FF03, 1, 1, 0x0, 0x0, 0x3, none⟩, -- ICB_GATE_ERR_SEC
  ⟨0xA4FF04, 1, 1, 0x0, 0xFFFF, 0x0, none⟩, -- ICB_DISCARD_SEC
  ⟨0xA4FF05, 2, 1, 0x0, 0x0, 0x0, none⟩, -- ICB_MEMWAIT,ICB_CTRL_SEC
  ⟨0xA4FF07, 1, 1, 0x4, 0x0, 0x0, none⟩, -- ICB_REQ_SEC
  ⟨0xA40800, 1, 1, 0x002B, 0x007F, 0x0, none⟩, -- POLL_CTRL
  ⟨0xA40801, 1, 1, 0x01F4, 0xFFFF, 0x0, none⟩, -- POLL_PER
  ⟨0xA40802, 1, 1, 0x0003, 0x00FF, 0x0, none⟩, -- POLL_ANT
  ⟨0xA40803, 4, 1, 0x0000, 0x0, 0x0, none⟩, -- POLL_DAY,POLL_CNT,IMMO_CNT_LO,IMMO_CNT_HI
  ⟨0xA41000, 2, 1, 0x0000, 0xFFFF, 0x0, some (0xA41004, 0)⟩, -- ACC_VID
  ⟨0xA41002, 1, 1, 0x0000, 0x003F, 0x0, some (0xA41004, 0)⟩, -- ACC_CFG
  ⟨0xA41003, 1, 1, 0x0000, 0x00FF, 0x0, some (0xA41004, 0)⟩, -- ACC_AUTHCORE
  ⟨0xA41004, 1, 1, 0x0000, 0x0001, 0x0, some (0xA41004, 0)⟩, -- ACC_SEAL
  ⟨0xA41005, 1, 1, 0x0064, 0x00FF, 0x0, none⟩, -- AN_IPK
  ⟨0xA41006, 9, 1, 0x0000, 0x0, 0x0, none⟩, -- AN_STAT,ACC_CMD,ACC_STAT,ACC_AUTH,ACC_GRANT,ACC_MOTION
  ⟨0xA4100F, 1, 1, 0x0000, 0xFFFF, 0x0, none⟩, -- ACC_UNK
  ⟨0xA41010, 4, 1, 0x0000, 0x0, 0x0, none⟩, -- ACC_CORRUPT,TOK_STATE,RNG_ARM
  ⟨0xA41014, 2, 1, 0x0000, 0xFFFF, 0x0, none⟩, -- RNG_TROUND_0-1
  ⟨0xA41016, 1, 1, 0x0000, 0x00FF, 0x0, none⟩, -- RNG_TROUND_2
  ⟨0xA41017, 2, 1, 0x0000, 0x0, 0x0, none⟩, -- RNG_STAT,RNG_DIST
  ⟨0xA41019, 2, 1, 0x00C8, 0xFFFF, 0x0, some (0xA41004, 0)⟩, -- UWB_DMAX
  ⟨0xA4101B, 1, 1, 0x00C8, 0xFFFF, 0x0, none⟩, -- RNG_WAIT
  ⟨0xA41020, 1, 1, 0x0007, 0x00FF, 0x0, none⟩, -- SPI_CFG_A
  ⟨0xA41023, 1, 1, 0x0007, 0x00FF, 0x0, none⟩, -- SPI_CFG_B
  ⟨0xA41021, 2, 1, 0x0000, 0x0, 0x0, none⟩, -- SPI_DATA_A,SPI_STAT_A
  ⟨0xA41024, 2, 1, 0x0000, 0x0, 0x0, none⟩, -- SPI_DATA_B,SPI_STAT_B
  ⟨0xA41040, 1, 1, 0x0000, 0x003F, 0x0, some (0xA41004, 0)⟩, -- IMMO_KSLOT
  ⟨0xA41041, 1, 1, 0x001E, 0x00FF, 0x0, some (0xA41004, 0)⟩, -- IMMO_AGE
  ⟨0xA41042, 1, 1, 0x00FF, 0x00FF, 0x0, some (0xA41004, 0)⟩, -- IMMO_ANT
  ⟨0xA41043, 1, 1, 0x0000, 0xFFFF, 0x0, none⟩, -- IMMO_SET_LO
  ⟨0xA41044, 1, 1, 0x0000, 0x00FF, 0x0, none⟩, -- IMMO_SET_HI
  ⟨0xA41045, 6, 1, 0x0000, 0x0, 0x0, none⟩, -- IMMO_CMD,IMMO_STAT,IMMO_FRAME
  ⟨0xA41060, 3, 1, 0x0000, 0xFFFF, 0x0, none⟩, -- ENR_TID_LO,ENR_TID_HI,ENR_BLOB_LO
  ⟨0xA41063, 1, 1, 0x0000, 0x00FF, 0x0, none⟩, -- ENR_BLOB_HI
  ⟨0xA41064, 1, 1, 0x0000, 0x0007, 0x0, none⟩, -- ENR_ANT
  ⟨0xA41065, 2, 1, 0x0000, 0x0, 0x0, none⟩, -- ENR_CMD,ENR_STAT
  ⟨0xA41070, 1, 1, 0x0000, 0x07FF, 0x0, none⟩, -- SEC_AEV_ROUTE
  ⟨0xA41071, 1, 1, 0x0000, 0x0, 0x0003, none⟩, -- SEC_AEV_FLAG
  ⟨0xA42000, 1, 1, 0x8888, 0xFFFF, 0x0, some (0xA42002, 0)⟩ ] -- CIPH_OWNER

/-- Registers of window 0xA4_0000, part 1. -/
def regsSec1 : List RegRow := [
  ⟨0xA42001, 1, 1, 0x0000, 0x00FF, 0x0, some (0xA42002, 0)⟩, -- KS_AUTH
  ⟨0xA42002, 1, 1, 0x0000, 0x0001, 0x0, some (0xA42002, 0)⟩, -- CIPH_SEAL
  ⟨0xA42003, 1, 1, 0x0000, 0x003F, 0x0, none⟩, -- KS_SLOT
  ⟨0xA42004, 1, 1, 0x0000, 0xFFFF, 0x0, none⟩, -- KS_ADDR_LO
  ⟨0xA42005, 1, 1, 0x0000, 0x00FF, 0x0, none⟩, -- KS_ADDR_HI
  ⟨0xA42006, 1, 1, 0x000C, 0x001F, 0x0, none⟩, -- KS_WLEN
  ⟨0xA42007, 1, 1, 0x0000, 0x00FF, 0x0, none⟩, -- KS_MASK
  ⟨0xA42008, 1, 1, 0x0000, 0x03FF, 0x0, none⟩, -- KS_GEN
  ⟨0xA42009, 1, 1, 0x0000, 0xFFFF, 0x0, none⟩, -- KS_KID
  ⟨0xA4200A, 1, 1, 0x0000, 0x007F, 0x0, none⟩, -- KS_KEK
  ⟨0xA4200B, 2, 1, 0x0000, 0x0, 0x0, none⟩, -- KS_CMD,KS_STAT
  ⟨0xA4200D, 1, 1, 0x0000, 0x0, 0x001F, none⟩, -- SEC_ALARM
  ⟨0xA4200E, 4, 1, 0x0000, 0x0, 0x0, none⟩, -- SEC_ALIVE,TRN_DATA,TRN_STAT,CIPH_QUEUE
  ⟨0xA42012, 1, 1, 0x0000, 0x0FFF, 0x0, none⟩, -- CIPH_EV_ROUTE
  ⟨0xA42013, 1, 1, 0x0000, 0x0, 0x0007, none⟩, -- CIPH_EV_FLAG
  ⟨0xA42014, 1, 1, 0x0000, 0x0, 0x0, none⟩, -- CIPH_EV_CTX
  ⟨0xA42020, 128, 1, 0x0000, 0x0, 0x0, none⟩, -- JOB_0-3
  ⟨0xA42100, 256, 1, 0x0000, 0x0, 0x0, none⟩, -- KS_INFO
  ⟨0xA44000, 4096, 1, 0x0000, 0xFFFF, 0x0, none⟩ ] -- cipher_buffer

/-- Registers of window 0xA4_0000. -/
def regsSec : List RegRow := regsSec0 ++ regsSec1

/-- Registers of window 0xA5_0000, part 0. -/
def regsFld0 : List RegRow := [
  ⟨0xA5FF00, 1, 1, 0x5014, 0x0, 0x0, none⟩, -- ICB_ID_FLD
  ⟨0xA5FF01, 2, 1, 0x0, 0x0, 0x0, none⟩, -- ICB_CLK,ICB_STATE_FLD
  ⟨0xA5FF03, 1, 1, 0x0, 0x0, 0x3, none⟩, -- ICB_GATE_ERR_FLD
  ⟨0xA5FF04, 1, 1, 0x0, 0xFFFF, 0x0, none⟩, -- ICB_DISCARD_FLD
  ⟨0xA5FF05, 2, 1, 0x0, 0x0, 0x0, none⟩, -- ICB_MEMWAIT,ICB_CTRL_FLD
  ⟨0xA5FF07, 1, 1, 0x1, 0x0, 0x0, none⟩, -- ICB_REQ_FLD
  ⟨0xA5F000, 2, 1, 0x0000, 0x0, 0x0, none⟩, -- FLD_VSTAT,FLD_VFLD
  ⟨0xA5F002, 4, 1, 0x0063, 0x03FF, 0x0, none⟩, -- FI_TICK
  ⟨0xA5F010, 32, 1, 0x0100, 0xFF7F, 0x0, none⟩, -- FI_CFG
  ⟨0xA5F030, 32, 1, 0x0000, 0x0, 0x0, none⟩, -- FI_STAT
  ⟨0xA5F050, 32, 1, 0x0000, 0x0, 0x0, none⟩, -- FI_CUR
  ⟨0xA5F070, 2, 1, 0x0000, 0x0, 0x0, none⟩, -- FI_STATE
  ⟨0xA5F072, 2, 1, 0x0000, 0x0, 0xFFFF, none⟩, -- FI_CHG
  ⟨0xA5F074, 4, 1, 0x0000, 0x0, 0x0, none⟩, -- FI_WBRK,FI_SUPINV
  ⟨0xA5F078, 1, 1, 0x0000, 0x1FFF, 0x0, none⟩, -- FLD_EV_ROUTE
  ⟨0xA5F079, 1, 1, 0x0000, 0x0, 0x000F, none⟩, -- FLD_EV_FLAG
  ⟨0xA5F07A, 1, 1, 0x0000, 0x0, 0x0, none⟩, -- FLD_EV_CHAN
  ⟨0xA5F07B, 1, 1, 0x0000, 0xFFFF, 0x0, none⟩, -- FLD_LOG_BASE_LO
  ⟨0xA5F07C, 1, 1, 0x0000, 0x00FF, 0x0, none⟩, -- FLD_LOG_BASE_HI
  ⟨0xA5F07D, 1, 1, 0x0000, 0x001F, 0x0, none⟩, -- FLD_LOG_CTRL
  ⟨0xA5F07E, 1, 1, 0x0000, 0x0, 0x0, none⟩, -- FLD_LOG_WP
  ⟨0xA5F07F, 1, 1, 0x0000, 0xFFFF, 0x0, none⟩, -- FLD_LOG_LOST
  ⟨0xA50011, 16, 0x20, 0x0005, 0x0, 0x1FF8, none⟩, -- DIAG
  ⟨0xA50016, 16, 0x20, 0x8000, 0x0, 0x0, none⟩, -- WIRE_T
  ⟨0xA50019, 16, 0x20, 0x0, 0xFFFF, 0x0, none⟩, -- REJECT
  ⟨0xA50000, 512, 1, 0x0, 0x0, 0x0, none⟩, -- channel_ports
  ⟨0xA5F800, 1, 1, 0x0, 0xFFFF, 0x0, none⟩, -- PROF_BASE_LO
  ⟨0xA5F801, 1, 1, 0x0, 0x00FF, 0x0, none⟩, -- PROF_BASE_HI
  ⟨0xA5F802, 6, 1, 0x0, 0x0, 0x0, none⟩, -- PROF_CMD,PROF_STAT,PROF_VALID
  ⟨0xA5F808, 1, 1, 0x0, 0x00FF, 0x0, some (0xA5F80C, 0)⟩, -- RET_AUTH
  ⟨0xA5F809, 2, 1, 0x0, 0x0, 0x0, none⟩, -- RET_CLEAR,RET_STAT
  ⟨0xA5F80B, 1, 1, 0x0, 0x0FFF, 0x0, none⟩, -- EV_ROUTE
  ⟨0xA5F80C, 1, 1, 0x0, 0x0001, 0x0, some (0xA5F80C, 0)⟩, -- OIB_SEAL
  ⟨0xA5F810, 32, 1, 0x8888, 0xFFFF, 0x0, some (0xA5F80C, 0)⟩, -- OWNER
  ⟨0xA5F830, 8, 1, 0x0, 0x0, 0x0, none⟩ ] -- RETIRED

/-- Registers of window 0xA5_0000. -/
def regsFld : List RegRow := regsFld0

/-- Registers of window 0xA6_0000, part 0. -/
def regsLnk0 : List RegRow := [
  ⟨0xA6FF00, 1, 1, 0x6190, 0x0, 0x0, none⟩, -- ICB_ID_LNK
  ⟨0xA6FF01, 2, 1, 0x0, 0x0, 0x0, none⟩, -- ICB_CLK,ICB_STATE_LNK
  ⟨0xA6FF03, 1, 1, 0x0, 0x0, 0x3, none⟩, -- ICB_GATE_ERR_LNK
  ⟨0xA6FF04, 1, 1, 0x0, 0xFFFF, 0x0, none⟩, -- ICB_DISCARD_LNK
  ⟨0xA6FF05, 2, 1, 0x0, 0x0, 0x0, none⟩, -- ICB_MEMWAIT,ICB_CTRL_LNK
  ⟨0xA6FF07, 1, 1, 0x4, 0x0, 0x0, none⟩, -- ICB_REQ_LNK
  ⟨0xA60000, 7, 1, 0x0000, 0x0, 0x0, none⟩, -- LNK_ID,LNK_SERIAL,LNK_SYSID,LNK_STAT,LNK_DEVS
  ⟨0xA60007, 1, 1, 0x0000, 0x00FF, 0x0, some (0xA6000A, 0)⟩, -- LNK_AUTH
  ⟨0xA60008, 1, 1, 0x0000, 0x000F, 0x0, some (0xA6000A, 0)⟩, -- LNK_INEN
  ⟨0xA60009, 1, 1, 0x0000, 0x03FF, 0x0, some (0xA6000A, 0)⟩, -- LNK_INWIN
  ⟨0xA6000A, 1, 1, 0x0000, 0x0001, 0x0, some (0xA6000A, 0)⟩, -- LNK_SEAL
  ⟨0xA6000B, 1, 1, 0x0000, 0x3FFF, 0x0, none⟩, -- LNK_EV_ROUTE
  ⟨0xA6000C, 1, 1, 0x0000, 0x0, 0x001F, none⟩, -- LNK_EV_FLAG
  ⟨0xA6000D, 1, 1, 0x0000, 0x01FF, 0x0, none⟩, -- LNK_RRST_T
  ⟨0xA6000E, 2, 1, 0x0000, 0x0, 0x0, none⟩, -- LNK_RRST,RRST_STAT
  ⟨0xA60010, 4, 8, 0x0000, 0x0007, 0x0, none⟩, -- PCFG
  ⟨0xA60011, 4, 8, 0x0000, 0x0, 0x0, none⟩, -- PSTAT
  ⟨0xA60012, 4, 8, 0x0000, 0xFFFF, 0x0, none⟩, -- PCNT
  ⟨0xA60013, 4, 8, 0x0000, 0x0, 0x0, none⟩, -- PCMD
  ⟨0xA60040, 8, 4, 0x0000, 0x81FF, 0x0, none⟩, -- APR_CTRL
  ⟨0xA60041, 8, 4, 0x0000, 0xFFFF, 0x0, none⟩, -- APR_BASE_LO
  ⟨0xA60042, 8, 4, 0x0000, 0x00FF, 0x0, none⟩, -- APR_BASE_HI
  ⟨0xA60043, 8, 4, 0x0000, 0xFFFF, 0x0, none⟩, -- APR_ERR
  ⟨0xA60060, 1, 1, 0x0064, 0x00FF, 0x0, none⟩, -- APR_TOUT
  ⟨0xA60070, 8, 1, 0x0000, 0xFFFF, 0x0, none⟩, -- MBX_TXD
  ⟨0xA60078, 1, 1, 0x0000, 0x1FFF, 0x0, none⟩, -- MBX_TXA
  ⟨0xA60079, 2, 1, 0x0000, 0x0, 0x0, none⟩, -- MBX_TXGO,MBX_TXSTAT
  ⟨0xA60080, 1, 1, 0x0000, 0x01FF, 0x0, none⟩, -- CC_DEV
  ⟨0xA60081, 1, 1, 0x0000, 0xFFFF, 0x0, none⟩, -- CC_ADDR_LO
  ⟨0xA60082, 1, 1, 0x0000, 0x00FF, 0x0, none⟩, -- CC_ADDR_HI
  ⟨0xA60083, 1, 1, 0x0000, 0x7FFF, 0x0, none⟩, -- CC_MASK
  ⟨0xA60084, 6, 1, 0x0000, 0xFFFF, 0x0, none⟩, -- CC_VAL
  ⟨0xA6008A, 5, 1, 0x0000, 0x0, 0x0, none⟩, -- CC_GO,CC_STAT,CC_STATE,CC_ACK,CC_ACKSRC
  ⟨0xA60090, 10, 1, 0x0000, 0x0, 0x0, none⟩, -- LNK_INSRC
  ⟨0xA60128, 8, 0x40, 0x0000, 0x0003, 0x0, none⟩, -- MBX_RXRP
  ⟨0xA6012A, 8, 0x40, 0x0000, 0xFFFF, 0x0, none⟩, -- MBX_RXLOST
  ⟨0xA60100, 512, 1, 0x0000, 0x0, 0x0, none⟩, -- MBX,MBX_RXWP
  ⟨0xA61000, 512, 1, 0x0000, 0x0, 0x0, none⟩ ] -- RT

/-- Registers of window 0xA6_0000. -/
def regsLnk : List RegRow := regsLnk0

/-- Registers of window 0xA9_0000, part 0. -/
def regsMem0 : List RegRow := [
  ⟨0xA9FF00, 1, 1, 0x90C8, 0x0, 0x0, none⟩, -- ICB_ID_MEM
  ⟨0xA9FF01, 2, 1, 0x0, 0x0, 0x0, none⟩, -- ICB_CLK,ICB_STATE_MEM
  ⟨0xA9FF03, 1, 1, 0x0, 0x0, 0x3, none⟩, -- ICB_GATE_ERR_MEM
  ⟨0xA9FF04, 1, 1, 0x0, 0xFFFF, 0x0, none⟩, -- ICB_DISCARD_MEM
  ⟨0xA9FF05, 2, 1, 0x0, 0x0, 0x0, none⟩, -- ICB_MEMWAIT,ICB_CTRL_MEM
  ⟨0xA9FF07, 1, 1, 0x1, 0x0, 0x0, none⟩, -- ICB_REQ_MEM
  ⟨0xA90000, 1, 1, 0x0000, 0xFFFF, 0x0, none⟩, -- FL_ADDR_LO
  ⟨0xA90001, 1, 1, 0x0000, 0x00FF, 0x0, none⟩, -- FL_ADDR_HI
  ⟨0xA90002, 1, 1, 0x0000, 0xFFFF, 0x0, none⟩, -- FL_SRC_LO
  ⟨0xA90003, 1, 1, 0x0000, 0x00FF, 0x0, none⟩, -- FL_SRC_HI
  ⟨0xA90004, 1, 1, 0x0000, 0x03FF, 0x0, none⟩, -- FL_COUNT
  ⟨0xA90005, 2, 1, 0x0000, 0x0, 0x0, none⟩, -- FL_CMD,FL_STAT
  ⟨0xA90007, 1, 1, 0x0000, 0x00FF, 0x0, some (0xA90008, 0)⟩, -- FL_AUTH
  ⟨0xA90008, 1, 1, 0x0000, 0x0001, 0x0, some (0xA90008, 0)⟩ ] -- FL_SEAL

/-- Registers of window 0xA9_0000. -/
def regsMem : List RegRow := regsMem0

/-- The registers of the window an address lies in. -/
def regRows (a : Nat) : List RegRow :=
  match a / 65536 with
  | 0xA7 => regsAon
  | 0xA8 => regsSup
  | 0xA0 => regsSw
  | 0xA1 => regsAct
  | 0xA2 => regsLux
  | 0xA3 => regsNet
  | 0xA4 => regsSec
  | 0xA5 => regsFld
  | 0xA6 => regsLnk
  | 0xA9 => regsMem
  | _ => []

/-- The run a register address lies in. -/
def regRow (a : Nat) : Option RegRow := (regRows a).find? (fun r => r.has a)

/-- What a register reads as after reset; 0 for an undefined word (R38). -/
def regReset (a : Nat) : Word :=
  match regRow a with
  | some r => r.reset
  | none => 0

/-- The 256-word block of an address contains a defined word (R38). -/
def blockDefined (a : Nat) : Bool := (regRows a).any (fun r => r.inBlock a)

end Sys2Proof.Machine
end

