-- ==== Sys2Proof/Config.lean ====
section
/-! DEFINITION. The values the spec leaves open. Each is an opaque constant: nothing in Lean can evaluate it, so what
is proved of the model holds whatever the value is. A meaning applies one to the counter `State.free`, which it
advances, so that every use is a fresh value (notes/assumptions/5.md). -/

namespace Sys2Proof

/-- A word whose value the spec leaves open. -/
opaque Config.freeWord : Nat → Word

/-- A byte whose value the spec leaves open. -/
opaque Config.freeByte : Nat → Byte

/-- A bit whose value the spec leaves open. -/
opaque Config.freeBool : Nat → Bool

/-- The module's 48-bit serial, which its trim blocks hold (R452). -/
opaque Config.serial : BitVec 48

/-- Whether an island's copy of MEM's tick lags it by 3 cycles rather than 2: by island number and tick (R42). -/
opaque Config.tickLag : Nat → Nat → Bool

/-- A number whose value the spec leaves open; whoever uses it reduces it to the range the spec gives. -/
opaque Config.freeNat : Nat → Nat

end Sys2Proof
end

