-- ==== Sys2Proof/Machine/Sparse.lean ====
section
/-! DEFINITION. Tables by number in one canonical form: the entries sorted by key, none listed that equals what an
unlisted key reads as. Registers, memory cells and every numbered unit of the block are kept so. -/

namespace Sys2Proof.Machine

/-- Pairs of key and value. -/
abbrev Sparse (α : Type) := List (Nat × α)

/-- What key `k` reads as: its entry, or the value `d k` of an unlisted key. -/
def Sparse.get {α : Type} (d : Nat → α) : Sparse α → Nat → α
  | [], k => d k
  | (j, v) :: r, k => if j = k then v else Sparse.get d r k

/-- The table without an entry for `k`. -/
def Sparse.erase {α : Type} : Sparse α → Nat → Sparse α
  | [], _ => []
  | (j, v) :: r, k => if j = k then Sparse.erase r k else (j, v) :: Sparse.erase r k

/-- The table with an entry for `k` before the first larger key. -/
def Sparse.insert {α : Type} : Sparse α → Nat → α → Sparse α
  | [], k, v => [(k, v)]
  | (j, w) :: r, k, v => if k ≤ j then (k, v) :: (j, w) :: r else (j, w) :: Sparse.insert r k v

/-- The table in which `k` reads as `v`. -/
def Sparse.set {α : Type} [DecidableEq α] (d : Nat → α) (m : Sparse α) (k : Nat) (v : α) : Sparse α :=
  if v = d k then m.erase k else (m.erase k).insert k v

/-- The canonical form: keys strictly rising, no entry equal to what the unlisted key reads as. -/
def Sparse.wf {α : Type} [DecidableEq α] (d : Nat → α) : Sparse α → Bool
  | [] => true
  | (j, v) :: r =>
    decide (v ≠ d j) && r.all (fun e => decide (j < e.1)) && Sparse.wf d r

/-- The table with the entries a predicate on keys selects returned to the unlisted value. -/
def Sparse.drop {α : Type} (m : Sparse α) (p : Nat → Bool) : Sparse α :=
  m.filter (fun e => !p e.1)

end Sys2Proof.Machine
end

