-- ==== Sys2Proof/Machine/State.lean ====
section
/-! DEFINITION. The block's state as plain data: the registers by word address, memory as byte cells, and beside
them what the spec gives the block that no register shows. Every field's default is its value right after power-on.
The readings and choices it rests on: notes/assumptions/8, 10, 11, 72. -/

namespace Sys2Proof.Machine

/-- Why a command stops the block. -/
inductive Fault where
  /-- Raised by a command whose operand names a unit that the part does not have (a channel beyond Table 7.1, say).
  Safe: the hardware has no such unit, so no run of it has such a step. -/
  | noSuchUnit
  deriving DecidableEq, Repr

/-- Why a command has no meaning. -/
inductive Refusal where
  /-- Raised by an arm of `exec` whose command has no meaning yet. Safe: nothing can be proved of it. -/
  | notModelled (mnemonic : String)
  deriving DecidableEq, Repr

/-! Islands, gates and the memory arbiter (01_architecture.md). -/

/-- ICB_STATE.STATE (Table 1.9). -/
inductive IslSt where
  | inReset | clockWait | run | isolated | clockLost
  deriving DecidableEq, Repr

/-- What SUP holds of an island beside the words of its island control block. -/
structure Isl where
  /-- STATE (Table 1.9) -/
  st : IslSt := .inReset
  /-- LOCK, READY and LOSS (Table 1.8) -/
  lock : Bool := false
  ready : Bool := false
  loss : Bool := false
  /-- L2COUNT (Table 1.9) -/
  l2count : Nat := 0
  /-- the Sampler checks the island's source range (R429) -/
  chk : Bool := false
  /-- stable cycles counted in CLOCK_WAIT, up to 64 (R21, R122) -/
  cnt : Nat := 0
  /-- when it reported RUN last (R429) -/
  runAt : Nat := 0
  /-- the requester its head arbiter served last (R43) -/
  headLast : Nat := 0
  /-- the times of its L2 resets within the last second (R123) -/
  l2Times : List Nat := []
  deriving DecidableEq, Repr

/-- A posted store waiting in a gate (R22, R23). -/
structure Xfer where
  r : Requester
  a : Nat
  v : Word
  deriving DecidableEq, Repr

/-- The gate from one island to another: its FIFO of at most 4 entries, oldest first; the transfers a full FIFO stalls on
its source side (R22); its own fence after a handshake timeout, or in the entry into a power mode (R30, R91). -/
structure Gate where
  q : List Xfer := []
  src : List Xfer := []
  fenced : Bool := false
  deriving DecidableEq, Repr

/-- A request waiting at the memory arbiter (R42). -/
structure MemReq where
  /-- the island, and the requester's number in it (Table 1.10): of a core island the logical core, its lead in a pair -/
  isl : Island
  k : Nat
  /-- its age stamp, the island's copy of the tick (R42) -/
  stamp : Nat
  /-- the true tick at issue, from which the wait is counted (R44) -/
  issued : Nat
  /-- a posted store's address and word; none for a read -/
  put : Option (Nat × Word) := none
  deriving DecidableEq, Repr

/-! The Sampler (15_fault_collection.md). -/

/-- A fault source: its island's side (condition of a level source, occurrences of an event source not yet ended) and
the Sampler's side. -/
structure Src where
  /-- the condition of a level source lasts (R430) -/
  lvl : Bool := false
  lvlRes : Option Nat := none
  /-- occurrences of an event source, the one presented first; at most 4 (R430) -/
  q : List (Option Nat) := []
  /-- the source is active at the Sampler (R427) -/
  active : Bool := false
  res : Option Nat := none
  /-- its pair is in wire fault (R428) -/
  wire : Bool := false
  /-- the severity last applied for the present activation (R442) -/
  sev : Nat := 0
  /-- the recorded ESC of a running retry timer, and when it expires (R434) -/
  timer : Option (Nat × Nat) := none
  /-- the recorded ESC and the count of an escalation window, and when it opened (R434) -/
  win : Option (Nat × Nat × Nat) := none
  deriving DecidableEq, Repr

/-- A fault log entry waiting to be written: its four words (R442). -/
abbrev LogEntry := List Word

/-! Supply, straps, test access, reset and bring-up (02, 03 and 04). -/

/-- The power modes of Table 3.6, with the entry into one (R91). -/
inductive PMode where
  | run
  | entering (deep : Bool)
  | park
  | deepPark
  deriving DecidableEq, Repr

/-- What the TAP's instruction register selects (Table 2.10). -/
inductive Tap where
  | bypass | extest | sample | clamp | highz
  deriving DecidableEq, Repr

/-- How far a bring-up under Table 4.5 or 4.6 has come. -/
structure Bring where
  /-- the level of the reset in progress: 0 or 1; none once programs have taken over -/
  level : Option Nat := some 0
  /-- the reset reference of BRG_TAKEOVER -/
  ref : Nat := 0
  /-- the option load runs, waits for its next attempt, or has halted the controller (R115) -/
  loading : Bool := false
  retry : Bool := false
  /-- when the last attempt failed -/
  failAt : Nat := 0
  halted : Bool := false
  loaded : Bool := false
  /-- the zero-fill of shared SRAM, and of the local memories, is still to complete; the retention area is kept (R93) -/
  filling : Bool := true
  retain : Bool := false
  /-- the header check has been made -/
  checked : Bool := false
  /-- the header check has passed, and the payload verification runs (R118), in the other bank where the active image has
  failed (R119) -/
  verifying : Bool := false
  second : Bool := false
  /-- the check has passed -/
  imgOk : Bool := false
  /-- the check has failed in both banks (R119) -/
  bothBad : Bool := false
  /-- cores are released and programs have taken over -/
  taken : Bool := false
  /-- the pin RESET_N is held low from outside, and the sequence waits (R122) -/
  held : Bool := false
  deriving DecidableEq, Repr

/-- The state of a sensor supply; `since` is when its short to battery ended (R73, R88). -/
inductive Vsen where
  | normal
  | shorted (k : ShortKind)
  | restarting (since : Nat)
  deriving DecidableEq, Repr

/-- The runtime of a Marionette entry (R126, R127). -/
structure MarEntry where
  /-- the trigger as met or not at the last evaluation, and the state it has formed over two -/
  metLast : Bool := false
  trig : Bool := false
  active : Bool := false
  /-- on-phase of a flash or pulse -/
  on : Bool := false
  /-- flashes or pulses done -/
  count : Nat := 0
  /-- time from which the trigger has been false since its record in MAR_DONE, and that this has lasted 1 s (R122) -/
  falseSince : Option Nat := none
  rearmed : Bool := false
  /-- the channels a COMMIT has taken from it (R128) -/
  lost : List Nat := []
  deriving DecidableEq, Repr

/-! Cores (05 and 06). -/

/-- CCB_CORE's running, stopped and in reset, for a logical core (R131). -/
inductive CoreSt where
  | inReset | running | stopped
  deriving DecidableEq, Repr

/-- An entry of the rollback log (R152). -/
inductive LogEnt where
  /-- a store to local memory, with the old contents -/
  | undo (a : Nat) (old : Word)
  /-- an SDT to the own table, with the old descriptor -/
  | undoDesc (e : Nat) (old : List Word)
  /-- a value loaded from outside the own local memory -/
  | loaded (v : Word)
  /-- a transfer released to a gate -/
  | released (a : Nat) (v : Word)
  /-- the outcome of TAS or SCW -/
  | outcome (v : Word)
  /-- an event entry, or a WEV completion (R184), with the instruction count and line -/
  | entry (count line : Nat)
  deriving DecidableEq, Repr

/-- The registers of Table 5.1. -/
structure Regs where
  acc : Word := 0x0000
  ace : Word := 0x0000
  ix : Word := 0x0000
  iy : Word := 0x0000
  sp : Word := 0x0000
  pc : Word := 0x0000
  fl : Word := 0x00C0
  fc : Byte := 0
  fd : Byte := 1
  fe : Byte := 1
  fs : Byte := 1
  deriving DecidableEq, Repr

/-- What a mismatch had reached since the checkpoint (R153): the registers, the words of the own local memory and the
descriptors of the own table that the rollback undoes. -/
structure Redo where
  r : Regs
  mem : List (Nat × Word)
  desc : List (Nat × List Word)
  deriving DecidableEq, Repr

/-- A logical core (or, under its lead's number, a lockstep pair). -/
structure Core where
  r : Regs := {}
  /-- the descriptor table: word k of entry e at 4e + k (R134) -/
  desc : Sparse Word := []
  st : CoreSt := .inReset
  /-- waiting in WEV, with the mask it has read (R183) -/
  wait : Option Nat := none
  /-- stopped by a double fault (R142) -/
  dfault : Bool := false
  /-- an exception is in progress (R141) -/
  exc : Bool := false
  /-- the last instruction was LFS: no event at this boundary (R178) -/
  inhibit : Bool := false
  /-- the reservation of LRW: a word address (R181) -/
  resv : Option Nat := none
  /-- when CYC counted from 0 -/
  cycBase : Nat := 0
  /-- when TMR_0 and TMR_1 reach zero (R157) -/
  tmr0 : Option Nat := none
  tmr1 : Option Nat := none
  /-- the watchdog: latched TIMEOUT and WINDOW, when it was loaded, its frozen count, the first half of a kick (R158) -/
  wdgTo : Nat := 0xFFF
  wdgWin : Nat := 0
  wdgAt : Nat := 0
  wdgFrozen : Option Nat := some 0xFFF
  wdgHalf : Bool := false
  /-- the warning of line 5 has been raised since the last load -/
  wdgWarned : Bool := false
  /-- the checkpoint buffer, and the descriptor table as of it (R151) -/
  ckpt : Regs := {}
  ckDesc : Sparse Word := []
  /-- the background write of the checkpoint record runs -/
  ckBusy : Bool := false
  /-- descriptors changed since the previous checkpoint record -/
  ckDirty : List Nat := []
  /-- instructions since the last checkpoint (LS_SINCE) -/
  since : Nat := 0
  /-- the rollback log, newest first (R152) -/
  log : List LogEnt := []
  /-- a rollback is in progress; a takeover by a spare physical pair is (R153, R156) -/
  rolling : Bool := false
  taking : Option Nat := none
  /-- mismatches in the running 1 s window (R154) -/
  mism : Nat := 0
  /-- the logical pair gave its physical pair to standby (R155) -/
  dormant : Bool := false
  /-- writes of other requesters to its local memory, held until a checkpoint (R151, Table 5.10): who, address, word -/
  held : List (Requester × Nat × Word) := []
  /-- a checkpoint has come due at the next boundary: CHK, or a condition reached while an instruction is part-way or the
  previous record is being written (R151) -/
  ckDue : Bool := false
  /-- while a rollback or takeover runs: what the mismatch had reached, which the replay brings back (R153) -/
  redo : Option Redo := none
  /-- an exception whose entry waits: its line (R141, R151) -/
  excLine : Option Nat := none
  /-- SEV waits until the core's earlier stores are served (R144): the mask -/
  sevMask : Option Byte := none
  /-- the tag of an outstanding remote load, and the answer that has come for it -/
  remTag : Option Nat := none
  remAns : Option (Nat × Word) := none
  /-- an instruction or an entry waits part-way (R140); the words it has loaded so far, each read once (R164), and how many
  of them it has taken since it was last given -/
  partway : Bool := false
  got : List Word := []
  pos : Nat := 0
  /-- the line whose event entry waits part-way -/
  entering : Option Nat := none
  /-- the times of its L3 resets within the last second (R123) -/
  l3Times : List Nat := []
  deriving DecidableEq, Repr

/-- A physical pair (R155, R156). -/
structure Phys where
  retired : Bool := false
  standby : Bool := false
  deriving DecidableEq, Repr

/-! Channels (07), and SW (08). -/

/-- A channel's stage domain and control state beside its port words. Words of a set are in port order (Table 7.2),
words of a profile in the order of Table 7.10a. -/
structure Chan where
  /-- the active set (R192) -/
  act : List Word := []
  /-- the profile words latched with it -/
  prof : List Word := []
  /-- the set and profile a Marionette entry drives the channel with (R127) -/
  mar : Option (List Word × List Word) := none
  /-- a pending period-sync snapshot: its words, sequence number and requester (R193) -/
  pend : Option (List Word × Word × Requester) := none
  /-- in hold after a reset (R107) -/
  hold : Bool := false
  /-- the stage conducts under its mode -/
  on : Bool := false
  /-- when it began to conduct -/
  onAt : Nat := 0
  /-- the inrush window runs: the limit it started with, and when it ends (R200, R228) -/
  win : Option Nat := none
  winEnd : Nat := 0
  /-- its period was restarted at a takeover (R216) -/
  perRef : Option Nat := none
  /-- after a supply band it goes on only at a period boundary (R82, R84) -/
  atEdge : Bool := false
  /-- the restart is a retry restart, and when its trip was (R243) -/
  retry : Bool := false
  tripAt : Nat := 0
  /-- when a waiting start passed condition 7, and when it began to wait for the governor (R242, R243) -/
  readyAt : Option Nat := none
  waitFrom : Option Nat := none
  waitRep : Bool := false
  admitted : Bool := false
  /-- the thermal latch, and the latches of one regulating start (R231, R234) -/
  latch : Bool := false
  tlstart : Nat := 0
  /-- the retry pause: what remained, in µs, when it last began to elapse, and since when it does -/
  pause : Option Nat := none
  pauseRun : Option Nat := none
  /-- the wire temperature in °C, once the model has run, and WIRELOCK (R236, R237) -/
  wireT : Option Rat := none
  wirelock : Bool := false
  /-- COUNT, the quiet time gathered toward forgiving one count and since when it runs (R205, R233) -/
  count : Nat := 0
  quiet : Nat := 0
  quietFrom : Option Nat := none
  /-- the times of the counted trips in the recurrence window, the latest first (R205) -/
  recur : List Nat := []
  /-- RET_INFO: the reason, 0 while not retired, and the diagnosis code at the decision (R207) -/
  reason : Nat := 0
  retDiag : Nat := 0
  /-- CARRY, the partner's own set and profile kept aside, and when a takeover that is due was decided (R216, R217) -/
  carries : Option Nat := none
  carriedBy : Option Nat := none
  aside : List Word := []
  asideProf : List Word := []
  tkDue : Option Nat := none
  /-- evidence points, the run of OK points, when an unbroken run of OPEN points began, the outcome that stands (R253) -/
  evid : Nat := 0
  okRun : Nat := 0
  openRun : Option Nat := none
  outcome : Option Nat := none
  /-- when the reading was made that a second reading for SHORT_BAT has to confirm, and the last off-state check (R251) -/
  shbDue : Option Nat := none
  offAt : Option Nat := none
  /-- the governor's ceiling, 0 none (Table 8.7) -/
  ceil : Nat := 0
  /-- HB: stall, the action a stall holds and the leader whose stall it is, the regulated on-fraction; regulation of an
  inrush (R231, R257, R258) -/
  stall : Bool := false
  stallAct : Option (Nat × Nat) := none
  duty : Option Nat := none
  regul : Bool := false
  deriving DecidableEq, Repr

/-- A retirement record that waits to be written: channel, retire or clear, RTC seconds, reason, code (R210). -/
structure RetRec where
  ch : Nat
  clear : Bool
  at_ : Word
  reason : Nat
  code : Nat
  deriving DecidableEq, Repr

/-- What an output island keeps beside its channels (R199, R210). -/
structure OutRec where
  /-- the pinned profile memory, and the copy being made with the address it was taken from (Table 7.10a) -/
  bank : Sparse Word := []
  copy : Option (Nat × Sparse Word) := none
  copyBad : Bool := false
  /-- retirement records queued, those written in generation 0 only, COMPDUE and the generations already compacted -/
  queue : List RetRec := []
  half : Option RetRec := none
  compDue : Bool := false
  compGen0 : Bool := false
  deriving DecidableEq, Repr

/-- The governor, the clusters and the section meters of SW (R239–R245). -/
structure SwRec where
  /-- the last 100 values of P_now, newest first -/
  pnow : List Nat := []
  level : Nat := 0
  /-- evaluations without break with P_sum at or above P_CEIL -/
  overFor : Nat := 0
  /-- evaluations at level 0 since ceilings were last raised -/
  raiseIn : Nat := 0
  /-- starts admitted in the preceding second: time and E_in (R242) -/
  admitted : List (Nat × Nat) := []
  /-- the 1 ms means of each section's current, newest first -/
  means : Sparse (List Nat) := []
  deriving DecidableEq, Repr

/-! ACT (09). -/

/-- What a valve's stage does (R269, R272). -/
inductive VlPh where
  | off | peak | hold | quench
  deriving DecidableEq, Repr

/-- Where the coil current goes while the low side is off: nowhere, into the bank rail, into VBST (R270, R272, R277). -/
inductive VlPath where
  | none | freewheel | recovery
  deriving DecidableEq, Repr

/-- A valve channel beside its channel record. -/
structure Valve where
  ph : VlPh := .off
  /-- when the present start was made, and when its hold began (R265, R269) -/
  at_ : Nat := 0
  holdAt : Nat := 0
  /-- the low side is on, and since when it is or is not; else the way its current takes (R270, R272, R277) -/
  low : Bool := false
  lowAt : Nat := 0
  path : VlPath := .none
  /-- the peak runs from VBST, and what it has drawn, 0.1 mJ (R279) -/
  fromBst : Bool := false
  drawn : Nat := 0
  /-- an ISLAND pulse is due; an ISLAND pulse runs (R265) -/
  pulse : Bool := false
  firing : Bool := false
  /-- when the waiting start became due; it was abandoned (R282) -/
  due : Option Nat := none
  gaveUp : Bool := false
  /-- the profile number E_LAST was taken under (R279) -/
  pf : Nat := 0
  deriving DecidableEq, Repr

/-- A bank of ACT (R285, R286). -/
structure BankRec where
  /-- the channel whose SHORT_GND pause holds the rail off -/
  heldBy : Option Nat := none
  /-- when the rail's retry comes, BRETRY, the time at the rail current since the last forgiven one, LOCKWHY 2 -/
  retryAt : Option Nat := none
  bretry : Nat := 0
  quiet : Nat := 0
  lock2 : Bool := false
  /-- the thermal latch of the VH switch (R287) -/
  hot : Bool := false
  /-- NODELOW, and when the probe of the rail that precedes a move out of OFF began (R284) -/
  nodeLow : Bool := false
  probe : Option Nat := none
  deriving DecidableEq, Repr

/-! LUX (10). -/

/-- A sink or row beside its channel (R293, R306, R309). -/
structure Sink where
  /-- the applied on-count of 16,384 and current setting in µA, for the period in progress -/
  on14 : Nat := 0
  iset : Nat := 0
  /-- DOT as the colour engine set it, for a sink of a lamp -/
  dot : Nat := 0
  /-- temperatures of the last second, newest first, in 0.1 °C, and the derating factor in 1/32,768 -/
  hist : List Int := []
  drf : Nat := 32768
  /-- the NTC input is invalid -/
  tsrcBad : Bool := false
  /-- off-state checks without break that read below 1.0 V -/
  low : Nat := 0
  deriving DecidableEq, Repr

/-- The outcome of a lamp evaluation: the flags of STAT_C, and slot, on-count and DOT of each sink. -/
structure LampResult where
  flags : Nat
  slots : List (Nat × Nat × Nat)
  deriving DecidableEq, Repr

/-- A colour lamp (R306, R307). -/
structure Lamp where
  /-- an evaluation runs, or has been triggered -/
  evaluating : Bool := false
  /-- a result waits for the leader's next period boundary -/
  ready : Option LampResult := none
  /-- the flags of the last evaluation, and the usable slots and ceiling it was made with -/
  flags : Nat := 0
  usable : List Nat := []
  ceil : Nat := 0
  deriving DecidableEq, Repr

/-- The settings of the matrix scan: ROWS, FR_PERIOD, SYNC and EDGE (R298). -/
structure MxCfg where
  rows : Nat := 12
  per : Nat := 2500
  sync : Bool := false
  edge : Bool := false
  deriving DecidableEq, Repr

/-- LUX beside its channels, sinks and lamps. -/
structure LuxRec where
  /-- the front buffer is buffer 1; a swap is pending; frames since reset -/
  front : Bool := false
  swPend : Bool := false
  frames : Nat := 0
  /-- the frame load that runs: its source and the copy; LERR -/
  load : Option (Nat × Sparse Word) := none
  loadBad : Bool := false
  lerr : Bool := false
  /-- LXSYNC: misses without break, SYNCLOST -/
  misses : Nat := 0
  syncLost : Bool := false
  /-- the settings of the frames since RUN was set; the scan goes on through a hold -/
  cfg : MxCfg := {}
  live : Bool := false
  keep : Bool := false
  /-- when the frame in progress started (R298, R301) -/
  frameAt : Nat := 0
  /-- the row slot in progress: the row and its lit columns with their on-times in LUX cycles -/
  slot : Option (Nat × List (Nat × Nat)) := none
  /-- pixels below OPEN_ON: frames without break, by 96 × row + column -/
  below : Sparse Nat := []
  /-- columns measured in this frame, and those with a pixel that was not open -/
  measured : List Nat := []
  sound : List Nat := []
  /-- the new LUX_GC is pending, and the sinks that have loaded it (R308) -/
  gcPend : Bool := false
  gcDone : List Nat := []
  /-- I_GLOBAL in force as LUX_GC gives it -/
  gc : Word := 0x0000
  /-- the calibration bank, 24 words a record; LUX_CALCMD is at work -/
  cal : Sparse Word := []
  calBusy : Bool := false
  deriving DecidableEq, Repr

/-! Inputs and FLD (11). -/

/-- An input's filter (R321, R336, R340). -/
structure Filt where
  started : Bool := false
  c : Nat := 0
  st : Bool := false
  raw : Bool := false
  /-- ticks since the preset, or since WBRK or SUPINV cleared -/
  since : Nat := 0
  w : Nat := 0
  wbrk : Bool := false
  supinv : Bool := false
  deriving DecidableEq, Repr

/-- FLD beside its channels. -/
structure FldRec where
  vfld : VfldState := .ok
  /-- VFLD is below the MISSING falling threshold, before the filter has run (R340) -/
  crossed : Bool := false
  unpowered : Bool := false
  pathA : Bool := false
  pathB : Bool := false
  /-- when the stage-domain microsecond counter was 0 -/
  usBase : Nat := 0
  /-- the input log: waiting entries and the running sequence number (R346) -/
  logq : List (List Word) := []
  logSeq : Nat := 0
  deriving DecidableEq, Repr

/-! SEC (13 and 14). -/

/-- A key slot's content (R410). -/
structure KeySlot where
  key : List Byte
  usage : Byte
  kid : Word
  mask : Byte
  deriving DecidableEq, Repr

/-- A key store command in progress: its operation, who wrote it, the staged words KS_SLOT to KS_KEK (R412). -/
structure KsCmd where
  op : Nat
  r : Requester
  staged : List Word
  /-- an erasing alarm came while it ran (R422) -/
  alarmed : Bool := false
  /-- the health test failed while it ran (R424) -/
  noRandom : Bool := false
  deriving DecidableEq, Repr

/-- A job context beside its words (R415, R416). -/
structure Job where
  busy : Bool := false
  run : Bool := false
  code : Nat := 0
  wbusy : Bool := false
  /-- the snapshot, the sequence number and who wrote GO -/
  snap : List Word := []
  seq : Word := 0
  r : Requester := .service
  /-- the key it runs with, as its slot stood at the start -/
  key : List Byte := []
  deriving DecidableEq, Repr

/-- A token that has authenticated: slot, MOTION, antenna of its strongest field, challenge type it answered, whether
it has been ranged, whether its bound passed (R394–R397). -/
structure TokAuth where
  slot : Nat
  motion : Bool
  ant : Nat
  chal : Nat
  ranged : Bool := false
  passed : Bool := false
  deriving DecidableEq, Repr

/-- A Vilud session (R393). -/
structure Session where
  addressed : Bool
  slot : Nat
  mask : Nat
  phase : Nat
  /-- bytes 1 to 12 of its challenges: VID and nonce (Table 13.2) -/
  chal : List Byte
  /-- response slots with a detected preamble, and those in which a frame authenticated -/
  heard : List Nat := []
  good : List Nat := []
  /-- slots still to be challenged in phase 3, the one challenged first -/
  resolve : List Nat := []
  auth : List TokAuth := []
  /-- antennas that tripped in this session -/
  tripped : List Nat := []
  /-- the armed slot and port, and TREPLY of its report (R396) -/
  armed : Option (Nat × Nat) := none
  report : Option Nat := none
  /-- when its present phase, or challenge of phase 3, began (Table 13.7) -/
  from_ : Nat := 0
  deriving DecidableEq, Repr

/-- A window of the Park poll, and when its pattern began (R398, R399). -/
structure PollWin where
  spread : Bool
  at_ : Nat := 0
  /-- when the first frame of the window failed its CRC -/
  corrupt : Option Nat := none
  hit : Bool := false
  deriving DecidableEq, Repr

/-- What the block has put on its terminals: the model's own trace, newest first. -/
inductive Sent where
  /-- an LF challenge on an antenna at a peak current in 10 mA (Tables 13.1 and 13.2) -/
  | lf (ant : Nat) (ipk : Nat) (bytes : List Byte)
  /-- the presence pattern or the spread pattern, on its antennas (R398, R399) -/
  | presence (spread : Bool) (mask : Nat)
  /-- a byte on a SECSPI port, its divider, and whether CS_N is low (R380, R404) -/
  | spi (port : Nat) (div : Nat) (cs : Bool) (b : Byte)
  /-- the link word and the fifteen words of a stitch on a link port (R449) -/
  | stitch (port : Nat) (words : List Word)
  /-- a CAN frame on a channel, with its nominal and data-phase bit times in cycles of f_CAN (R351); an Ethernet frame on a
  port; a LIN header at a rate in 10 bit/s, with the data and the checksum sent -/
  | can (n : Nat) (bit data : Nat) (f : CanFrame)
  | eth (n : Nat) (bytes : List Byte)
  | lin (n : Nat) (rate : Nat) (id : Byte) (data : List Byte)
  /-- a wake-up signal on a LIN channel; a TC10 request on a 100BASE-T1 port: sleep, or wake -/
  | linWake (n : Nat)
  | tc10 (n : Nat) (wake : Bool)
  deriving DecidableEq, Repr

/-- SEC beside its registers. -/
structure SecRec where
  /-- the SEC copies of the root key and of K_T (R406, R407) -/
  root : Option (List Byte) := none
  kt : Option (List Byte) := none
  slots : Sparse (Option KeySlot) := []
  ks : Option KsCmd := none
  jobs : Sparse Job := []
  /-- contexts whose jobs are queued or running, in the order of their GO writes -/
  jobQ : List Nat := []
  trnReady : Bool := true
  trnFail : Bool := false
  session : Option Session := none
  /-- an enrolment or revocation in progress, and one held until the session's end: the requester and ENR_CMD's value -/
  enr : Option (Requester × Word) := none
  enrHeld : Option (Requester × Word) := none
  /-- bytes 1 to 12 of the enrolment challenge, and the key K_t unwrapped for it -/
  enrChal : List Byte := []
  enrKey : List Byte := []
  /-- the antenna that drives the enrolment challenge, and whether its short comparator has tripped in it (R381) -/
  enrAnt : Option (Nat × Bool) := none
  /-- when the enrolment challenge began (R391) -/
  enrAt : Nat := 0
  /-- grants of ended sessions: when, and the antenna of the strongest field -/
  grants : List (Nat × Nat) := []
  /-- the receive FIFOs of SECSPI_A and SECSPI_B -/
  spi : Sparse (List Byte) := []
  /-- when each port's transfer ends (R380) -/
  spiEnd : Sparse Nat := []
  deriving DecidableEq, Repr

/-! LNK (16). -/

/-- A stitch waiting at an output: the input it came from (4 the local agent), its 12-bit stamp (R457). -/
structure OutEnt where
  inp : Nat
  stamp : Nat
  st : Stitch
  deriving DecidableEq, Repr

/-- A link port beside its words. -/
structure LPort where
  /-- it has trained; an auto port tries off board; since when it trains (R447) -/
  trained : Bool := false
  tryOff : Bool := false
  trainFrom : Nat := 0
  /-- the stitches that wait at this output -/
  q : List OutEnt := []
  /-- the class sent last was the responses, the input served last, and when the line is free, in ns -/
  lastResp : Bool := false
  rr : Nat := 4
  freeAt : Nat := 0
  /-- the link sequence of the next stitch sent, and of the last one received with a good CRC (R450) -/
  txSeq : Nat := 0
  rxSeq : Nat := 15
  /-- credits of the request and of the response class that the next link word returns (R450, R451) -/
  owedReq : Nat := 0
  owedResp : Nat := 0
  /-- stitches not yet acknowledged with their link sequence, oldest first; resends without progress; when the first began to
  wait or the last progress came (R450) -/
  unacked : List (Nat × Stitch) := []
  rounds : Nat := 0
  ackAt : Nat := 0
  deriving DecidableEq, Repr

/-- What a LINKS stitch says of a device (Table 16.6): serial [47:16] and the neighbours on its ports. -/
structure Links where
  id : Nat
  serial : Nat
  nbrs : List (Option Nat)
  deriving DecidableEq, Repr

/-- Who waits for the answer to a request. -/
inductive ReqKind where
  | load (c : Nat)
  | store (k : Nat)
  | mail
  | chan
  deriving DecidableEq, Repr

/-- An unanswered request (R458). -/
structure LReq where
  tag : Nat
  dev : Nat
  kind : ReqKind
  /-- when it times out (Table 16.9) -/
  due : Nat := 0
  deriving DecidableEq, Repr

/-- LNK beside its words. -/
structure LnkRec where
  ports : Sparse LPort := []
  /-- when LNK was released -/
  since : Nat := 0
  /-- the LINKS heard, and discovery stitches already forwarded (R453): subtype, SRC, three words, SEQ -/
  devs : List Links := []
  seen : List (Nat × Nat × List Word × Nat) := []
  /-- own sequence of flooded stitches, next tag -/
  seq : Nat := 0
  tag : Nat := 0
  /-- serials that asked for an ID, grants seen, and whether the allocator has begun (R454) -/
  negs : List Nat := []
  given : List (Nat × Nat) := []
  allocating : Bool := false
  /-- unanswered requests, and those held back for a device whose route changed (R456) -/
  reqs : List LReq := []
  held : List (LReq × Stitch) := []
  moved : List Nat := []
  /-- broadcast mail passed on and delivered: SRC and SEQ -/
  bcast : List (Nat × Nat) := []
  /-- stitches for this device itself, and inbound reads that wait for a busy region (R34) -/
  selfq : List Stitch := []
  waitq : List (Nat × Stitch) := []
  /-- ports reported down -/
  down : List Nat := []
  /-- the topology changed then, and the discovery run has not ended; when the first port came up; when NEGREQ was flooded
  last (Table 16.7) -/
  topoAt : Option Nat := none
  upAt : Option Nat := none
  negAt : Option Nat := none
  deriving DecidableEq, Repr
/-! NET (12). -/

/-- A frame in a gateway queue. -/
inductive GwFrame where
  | can (f : CanFrame)
  | eth (bytes : List Byte)
  deriving DecidableEq, Repr

/-- The holder's wait for its successor (R372): whom the token went to, the frame's bytes 1 to 5, and whether it has been
sent twice. -/
structure RingWait where
  succ : Nat
  bytes : List Byte
  again : Bool := false
  /-- when the TOKEN it waits after was sent (R372) -/
  since : Nat := 0
  deriving DecidableEq, Repr

/-- The tatting ring engine beside its words. -/
structure RingRec where
  /-- TR_CFG as taken at EN -/
  node : Nat := 0
  base : Nat := 0
  /-- the token held or awaited carries RUN 0xFF (R374, R378) -/
  regen : Bool := false
  /-- the wait for the successor -/
  wait : Option RingWait := none
  /-- when the quiet window began; when the token held was received; when the last TOKEN was seen, or the engine began to
  wait for one (R372, R374, R378) -/
  quietFrom : Option Nat := none
  heldFrom : Nat := 0
  lostFrom : Nat := 0
  /-- each member's first veto of its unbroken series, and the TOKENs that skipped it without break (R371, R376) -/
  veto : Sparse (Option Nat) := []
  skips : Sparse Nat := []
  deriving DecidableEq, Repr

/-- NET beside its words. -/
structure NetRec where
  /-- the active route table: word k of entry e at 8e + k (R359) -/
  routes : Sparse Word := []
  /-- the gateway queues by port, and the records that wait for a receive ring -/
  txq : Sparse (List GwFrame) := []
  rxq : Sparse (List (List Word)) := []
  /-- the port's last frame came from its transmit ring (R358) -/
  fromRing : Sparse Bool := []
  /-- a write to CAN_MODE held while WFBUSY is set, and the wake frame being sent (R353, R368) -/
  modeHeld : Sparse (Option Word) := []
  wake : Sparse (Option CanFrame) := []
  /-- channels whose bus-off recovery a program has asked for (R353) -/
  recov : List Nat := []
  /-- when the microsecond counter was 0 -/
  usBase : Nat := 0
  /-- the LIN publish buffers: word k of frame i of channel n at 256n + 4i + k; the frame a channel subscribes to now -/
  pub : Sparse Word := []
  lin : Sparse (Option (BitVec 6)) := []
  /-- when each LIN channel's wake-up signal ends; when each wake line's pulse began (R354, R363) -/
  linWakeEnd : Sparse Nat := []
  wklAt : Sparse Nat := []
  ring : RingRec := {}
  deriving DecidableEq, Repr


/-! Flash and update (17). -/

/-- A flash command at work (R470): its operation, target, word count and the source words it took. -/
structure FlashOp where
  op : Nat
  addr : Nat
  n : Nat := 0
  data : List Word := []
  deriving DecidableEq, Repr

/-- The open part (R474): its bank offset, its header, FILL, and the payload words folded into the running CMAC. -/
structure PartRec where
  off : Nat
  header : List Word
  fill : Nat := 0
  body : List Word := []
  deriving DecidableEq, Repr

/-- The update activation state SUP forms from its journal, and what it does with it (R476–R484). -/
structure UpdRec where
  /-- active bank and generation, PHASE, the outcome, MREF, BOOT records since COMMIT -/
  bank : Nat := 0
  gen : Nat := 0
  phase : Nat := 0
  outcome : Nat := 0
  mref : Nat := 0
  boots : Nat := 0
  /-- the base state's MREF and outcome (R476, R481) -/
  baseMref : Nat := 0
  baseOutcome : Nat := 0
  /-- the coordinator's decision of record: 0 none, 1 DECIDE_C, 2 DECIDE_K, 3 DECIDE_R; the last after a DECIDE_C -/
  dec : Nat := 0
  afterC : Bool := false
  /-- the journal has been formed since SUP's release -/
  formed : Bool := false
  part : Option PartRec := none
  /-- local PREPARE at work -/
  preparing : Bool := false
  /-- the coordinator's step of R482, the devices that have answered it, those that have reported HEALTHY -/
  step : Nat := 0
  acks : List Nat := []
  healthy : List Nat := []
  /-- own requests that wait for an answer: 5 HEALTHY, 9 FAILED to the coordinator, 10 QUERY to it (R481) -/
  wait : List Nat := []
  /-- the peer query of R484 runs; since when the coordinator is not in the routes; when the peers were asked last -/
  orphan : Bool := false
  lostAt : Option Nat := none
  queryAt : Option Nat := none
  /-- when the coordinator's step began, and when requests were sent last (R481, R482) -/
  stepAt : Nat := 0
  sentAt : Nat := 0
  /-- received activation stitches, by SUB, and a command of UPD_CMD that wait while MEM holds the requests of the activation
  state aside (R34, R476) -/
  held : List (Nat × UpdMsg) := []
  cmd : Option Nat := none
  /-- the reset at L1 that follows an answer under way (R483) -/
  resetDue : Bool := false
  deriving DecidableEq, Repr

/-- What AON holds of the update: the banks' verified flags, the run time of the trial so far and since when it runs,
EXPIRED, a report of a revert that is due, and that this device has voted (R118, R478, R479); the run time since its vote,
and the coordinator's since DECIDE_C (R478, R482). -/
structure UpdAon where
  okA : Bool := false
  okB : Bool := false
  ran : Nat := 0
  since : Option Nat := none
  expired : Bool := false
  report : Bool := false
  voted : Bool := false
  voteRan : Nat := 0
  voteSince : Option Nat := none
  coordRan : Nat := 0
  coordSince : Option Nat := none
  deriving DecidableEq, Repr

/-- The block's state. -/
structure State where
  /-- the commands that wait, first in, first out -/
  pending : List Instr := []
  /-- time since power-on of the model, in µs; a step on an empty queue advances it -/
  now : Nat := 0
  /-- the model's own counter of free values used -/
  free : Nat := 0
  /-- the register words of spec/ by word address -/
  regs : Sparse Word := []
  /-- memory: flash banks, shared SRAM, core-local memories and settings flash, as byte cells at twice the word
  address, byte 0 first -/
  mem : List Host.Cell := []
  /-- words whose check bits show a double-bit error (R35) -/
  dbe : List Nat := []
  /-- runs of flash words whose content an abandoned operation left undefined: first word, length, and the number of the
  free value its first word reads as (R471) -/
  undef : List (Nat × Nat × Nat) := []
  /-- the OTP fuses and the option shadow, by OTP word (R114, R130) -/
  otp : Sparse Word := []
  shadow : Sparse Word := []
  /-- the islands by number (Table 1.1) -/
  isl : Sparse Isl := []
  /-- the gates, at 16 × source + destination -/
  gates : Sparse Gate := []
  /-- the memory arbiter: waiting requests, its tick, the island it served last (R42, R43) -/
  memq : List MemReq := []
  memTick : Nat := 0
  memLast : Nat := 0
  /-- the fault sources, the entries waiting for the log writer, the running sequence number (R430, R442) -/
  srcs : Sparse Src := []
  logq : List LogEntry := []
  logSeq : Nat := 0
  /-- the band of VBUS and of each section, and reversed battery tabs (R80, R57, R85) -/
  band : Band := .full
  secBand : Sparse Band := []
  reversed : Bool := false
  /-- the power mode (Table 3.6) and when an entry was accepted -/
  mode : PMode := .run
  enterAt : Nat := 0
  /-- VBUS has fallen below the undervoltage threshold in a parking mode, and not risen since (R94) -/
  parkLow : Bool := false
  /-- the sensor supplies (R73, R88) -/
  vsen : Sparse Vsen := []
  /-- the RTC (R98) -/
  rtcSec : Nat := 0
  rtcFrac : Nat := 0
  /-- the strap pins as last sampled, and the strap latch (R67) -/
  strapLast : Option (BitVec 9) := none
  straps : Option (BitVec 9) := none
  /-- the TAP, its boundary register and its one-bit bypass register (R69) -/
  tap : Tap := .bypass
  boundary : List Bool := []
  bypassReg : Bool := false
  /-- the open-drain terminals FAULT_N and RESET_N as the controller drives them, and when it released RESET_N -/
  faultNLow : Bool := true
  resetNLow : Bool := true
  resetNFree : Nat := 0
  /-- bring-up, and the start of the hold series (R107, R109) -/
  bring : Bring := {}
  holdStart : Option Nat := none
  /-- SW, ACT, LUX and FLD are calibrated: kept in the stage domains (R121) -/
  calib : Sparse Bool := []
  /-- the OTP word being programmed, and the words programmed (R117) -/
  otpBusy : Option (Nat × Word) := none
  otpDone : List Nat := []
  /-- the Marionette table as read, 8 words an entry, and its entries' runtime (R125) -/
  marTable : List (List Word) := []
  mar : Sparse MarEntry := []
  /-- logical cores, physical pairs, and the pairing of CPA and CPB in effect (R149, R155) -/
  cores : Sparse Core := []
  phys : Sparse Phys := []
  pairedA : Bool := true
  pairedB : Bool := true

  /-- the channels, at 128 × island number + index (Table 7.1) -/
  chans : Sparse Chan := []
  /-- the output islands beside their channels, by island number -/
  outs : Sparse OutRec := []
  /-- SW's governor and meters -/
  sw : SwRec := {}
  /-- when the microsecond counters of the stage domains were 0: at the last power-on (R225, R295) -/
  stageBase : Nat := 0
  /-- when each cluster last made a staggered start (R243), in the stage domain -/
  cluLast : Sparse (Option Nat) := []

  /-- the valve channels and banks of ACT -/
  valves : Sparse Valve := []
  banks : Sparse BankRec := []
  /-- what the boost keeps through a hold: BST_CTRL, BST_SET, BST_VMIN (R290, Table 4.4) -/
  boostKeep : Option (Word × Word × Word) := none
  /-- since when VBST has been below 90 % of BST_SET while the boost ran (R276) -/
  boostLow : Option Nat := none

  /-- LUX: its own record, sinks by channel, lamps by number -/
  lux : LuxRec := {}
  sinks : Sparse Sink := []
  lamps : Sparse Lamp := []
  /-- the input filters: SI n at n, FI n at 64 + n; FLD's own record; VSNS limits (R328) -/
  filts : Sparse Filt := []
  /-- when each tick generator last began to count: SI's 0 to 3, FI's at 4 to 7 (R322) -/
  tickBase : Sparse Nat := []
  fieldRec : FldRec := {}
  vsnsLim : Bool := false

  /-- what the block has put on its terminals, newest first; the model's own trace -/
  sent : List Sent := []
  /-- SEC -/
  sec : SecRec := {}
  /-- alarm conditions present, bits as Table 14.11 -/
  alive : Nat := 0
  /-- the immobiliser counter has been set since the last L0; kept in AON (R402) -/
  cntSet : Bool := false
  /-- the Park poll: its window, when a spread poll is due, when the last poll began, RTC seconds at the entry into Park
  (R398–R400) -/
  poll : Option PollWin := none
  spreadDue : Option Nat := none
  pollAt : Nat := 0
  parkSec : Nat := 0

  /-- LNK -/
  lnk : LnkRec := {}


  /-- NET -/
  net : NetRec := {}

  /-- the flash command at work; update activation, and its part in AON -/
  flashOp : Option FlashOp := none
  upd : UpdRec := {}
  updAon : UpdAon := {}
  deriving DecidableEq, Repr

/-- The machine right after power-on (Table 4.5, step 1). -/
def State.reset : State := {}

end Sys2Proof.Machine
end

