-- ==== Sys2Proof/Machine/Ops.lean ====
section
/-! DEFINITION. The named operations over State that every family uses: registers, memory words, islands, gates,
fault sources, event lines, cores.
The readings and choices it rests on: notes/assumptions/5, 9, 18, 68. -/

namespace Sys2Proof.Machine

/-- The outcome of a command. -/
abbrev Out := Host.Outcome State Fault Refusal

/-! Free values (Config). -/

/-- The free word of this use. -/
def State.freeWord (s : State) : Word := Config.freeWord s.free
/-- The free bit of this use. -/
def State.freeBool (s : State) : Bool := Config.freeBool s.free
/-- The free number of this use, below `n`. -/
def State.freeBelow (n : Nat) (s : State) : Nat := Config.freeNat s.free % n
/-- One more free value used. -/
def State.used (s : State) : State := { s with free := s.free + 1 }

/-! Registers. -/

/-- The word of a register address. -/
def State.reg (s : State) (a : Nat) : Word := s.regs.get regReset a
/-- The state with a register word written. -/
def State.setReg (s : State) (a : Nat) (v : Word) : State := { s with regs := s.regs.set regReset a v }
/-- A register word as a number. -/
def State.regN (s : State) (a : Nat) : Nat := (s.reg a).toNat
/-- A bit of a register. -/
def State.regBit (s : State) (a n : Nat) : Bool := bit (s.reg a) n
/-- A register with a bit written. -/
def State.setRegBit (s : State) (a n : Nat) (b : Bool) : State := s.setReg a (putBit (s.reg a) n b)
/-- A field of a register. -/
def State.regFld (s : State) (a lo n : Nat) : Nat := fld (s.reg a) lo n
/-- A register with a field written. -/
def State.setRegFld (s : State) (a lo n v : Nat) : State := s.setReg a (putFld (s.reg a) lo n v)
/-- A register counting up to 0xFFFF. -/
def State.regInc (s : State) (a : Nat) : State := s.setReg a (w16 (satInc 0xFFFF (s.regN a)))
/-- Registers returned to their reset values. -/
def State.dropRegs (s : State) (p : Nat → Bool) : State := { s with regs := s.regs.drop p }
/-- The registers that start at an address, as a list of words. -/
def State.regList (s : State) (a n : Nat) : List Word := (List.range n).map (fun k => s.reg (a + k))
/-- Registers from an address on, written from a list. -/
def State.setRegList (s : State) (a : Nat) : List Word → State
  | [] => s
  | v :: r => (s.setReg a v).setRegList (a + 1) r

/-- The effect of a plain write under the access codes (R12): RW and RWL bits store unless their seal is set, W1C
bits written 1 clear, every other bit stays. -/
def State.plainWrite (s : State) (a : Nat) (v : Word) : State :=
  match regRow a with
  | none => s
  | some r =>
    let old := s.reg a
    let sealed := match r.sealAt with
      | some (sa, sb) => s.regBit sa sb
      | none => false
    let rw := if sealed then 0#16 else r.rw
    s.setReg a (((old &&& ~~~ rw) ||| (v &&& rw)) &&& ~~~ (v &&& r.w1c))

/-! Memory: words over byte cells. -/

/-- The flash banks and the settings generations, erased to ones. -/
def isFlash (a : Nat) : Bool := decide (a < 0x800000) || (decide (0x900000 ≤ a) && decide (a < 0x920000))

/-- What a byte that nothing has written reads as: ones in flash, zeros in SRAM and local memory. -/
def Memory.unlisted (b : Nat) : Byte := if isFlash (b / 2) then 0xFF#8 else 0x00#8

/-- The canonical form of memory. -/
abbrev Memory.wf (m : List Host.Cell) : Bool := Sparse.wf Memory.unlisted m

/-- The byte at a byte address. -/
def State.byteAt (s : State) (b : Nat) : Byte := Sparse.get Memory.unlisted s.mem b
/-- A byte written. -/
def State.setByte (s : State) (b : Nat) (v : Byte) : State := { s with mem := Sparse.set Memory.unlisted s.mem b v }
/-- The free value that an undefined flash word reads as: the number of its use, where an abandoned operation left the
word undefined (R471). -/
def State.undefAt (s : State) (a : Nat) : Option Nat :=
  (s.undef.find? fun r => decide (r.1 ≤ a) && decide (a < r.1 + r.2.1)).map fun r => r.2.2 + (a - r.1)
/-- Runs of undefined words without the `n` words from `a` on. -/
def cutRuns (a n : Nat) : List (Nat × Nat × Nat) → List (Nat × Nat × Nat)
  | [] => []
  | (b, m, k) :: r =>
    let low := if b < a then [(b, Nat.min m (a - b), k)] else []
    let high := if a + n < b + m ∧ b < b + m then
      let c := Nat.max b (a + n)
      [(c, b + m - c, k + (c - b))] else []
    low ++ high ++ cutRuns a n r
/-- The memory word at a word address: its two bytes, or the free value of an undefined flash word. -/
def State.memWord (s : State) (a : Nat) : Word :=
  match s.undefAt a with
  | some k => Config.freeWord k
  | none => wordOf (s.byteAt (2 * a)) (s.byteAt (2 * a + 1))
/-- A memory word written. -/
def State.setMem (s : State) (a : Nat) (v : Word) : State :=
  let t := (s.setByte (2 * a) (loByte v)).setByte (2 * a + 1) (hiByte v)
  { t with undef := cutRuns a 1 t.undef }
/-- Memory words from an address on. -/
def State.memList (s : State) (a n : Nat) : List Word := (List.range n).map (fun k => s.memWord (a + k))
/-- Memory words from an address on, written from a list. -/
def State.setMemList (s : State) (a : Nat) : List Word → State
  | [] => s
  | v :: r => (s.setMem a v).setMemList (a + 1) r
/-- A run of memory words returned to what nothing written reads as. -/
def State.clearMem (s : State) (a n : Nat) : State :=
  { s with mem := s.mem.filter (fun c => !(decide (2 * a ≤ c.1) && decide (c.1 < 2 * (a + n)))),
           dbe := s.dbe.filter (fun w => !(decide (a ≤ w) && decide (w < a + n))),
           undef := cutRuns a n s.undef }
/-- A word reads with a double-bit error (R35, R471). -/
def State.isDbe (s : State) (a : Nat) : Bool :=
  decide (a ∈ s.dbe) || (match s.undefAt a with | some k => Config.freeBool k | none => false)
/-- One of `n` words from `a` on reads with a double-bit error. -/
def State.anyDbe (s : State) (a n : Nat) : Bool :=
  s.dbe.any (fun w => decide (a ≤ w) && decide (w < a + n)) ||
    s.undef.any (fun r => (List.range r.2.1).any fun j =>
      decide (a ≤ r.1 + j) && decide (r.1 + j < a + n) && Config.freeBool (r.2.2 + j))

/-- An OTP word programmed (R117). -/
def State.fuse (s : State) (a : Nat) (w : Word) : State :=
  { s with otp := s.otp.set (fun _ => 0#16) a w, otpDone := a :: s.otpDone }

/-! Islands and gates. -/

/-- The record of island `i`. -/
def State.island (s : State) (i : Island) : Isl := s.isl.get (fun _ => {}) i.num
/-- The record of island `i` written. -/
def State.setIsland (s : State) (i : Island) (r : Isl) : State :=
  { s with isl := s.isl.set (fun _ => {}) i.num r }
/-- The island is in RUN (Table 1.9). -/
def State.running (s : State) (i : Island) : Bool := decide ((s.island i).st = .run)
/-- The address of an island's control block (Table 1.7). -/
def icb : Island → Nat
  | .cpa => 0xA8FB00
  | .cpb => 0xA8FC00
  | i => 0xA0FF00 + i.num * 0x10000
/-- The window base of an island (Table 1.6). -/
def window (i : Island) : Nat := 0xA00000 + i.num * 0x10000
/-- The twelve islands. -/
def allIslands : List Island := [.sw, .act, .lux, .net, .sec, .fld, .lnk, .aon, .sup, .mem, .cpa, .cpb]
/-- The island of a number. -/
def islandOf (n : Nat) : Option Island := allIslands[n]?
/-- The island whose window an address lies in; a control block is answered by SUP (R40). -/
def windowIsland (a : Nat) : Option Island :=
  if 0xA00000 ≤ a ∧ a < 0xAA0000 then
    if 0xFF00 ≤ a % 0x10000 then some .sup else islandOf (a / 0x10000 - 0xA0)
  else none

/-- A gate. -/
def State.gate (s : State) (src dst : Nat) : Gate := s.gates.get (fun _ => {}) (16 * src + dst)
/-- A gate written. -/
def State.setGate (s : State) (src dst : Nat) (g : Gate) : State :=
  { s with gates := s.gates.set (fun _ => {}) (16 * src + dst) g }
/-- Transfers from one island reach another: it is in RUN, and the gate into it is not fenced at its source (R30, R41).
Inside an island there is no gate. -/
def State.gateOpen (s : State) (src dst : Island) : Bool :=
  s.running dst && (decide (src = dst) || !(s.gate src.num dst.num).fenced)

/-! Cores. -/

/-- A logical core's record. -/
def State.core (s : State) (c : Nat) : Core := s.cores.get (fun _ => {}) c
/-- A logical core's record written. -/
def State.setCore (s : State) (c : Nat) (k : Core) : State := { s with cores := s.cores.set (fun _ => {}) c k }
/-- A logical core's record changed. -/
def State.modCore (s : State) (c : Nat) (f : Core → Core) : State := s.setCore c (f (s.core c))
/-- Word `k` of descriptor `e` of a core (R134). -/
def Core.descWord (c : Core) (e k : Nat) : Word := c.desc.get (fun _ => 0#16) (4 * e + k)
/-- The four words of a descriptor. -/
def Core.descWords (c : Core) (e : Nat) : List Word := (List.range 4).map (c.descWord e)
/-- A descriptor written; the reserved bits of word 3 stay 0 (R16, R134). -/
def Core.setDesc (c : Core) (e : Nat) (ws : List Word) : Core :=
  { c with desc := (List.range 4).foldl (fun d k =>
      d.set (fun _ => 0#16) (4 * e + k) (if k = 3 then ws.getD 3 0 &&& 0x803F#16 else ws.getD k 0)) c.desc }
/-- A physical pair's record. -/
def State.physPair (s : State) (p : Nat) : Phys := s.phys.get (fun _ => {}) p
/-- A physical pair's record written. -/
def State.setPhys (s : State) (p : Nat) (k : Phys) : State := { s with phys := s.phys.set (fun _ => {}) p k }

/-- The physical pair that runs logical pair `q` (CCB_MAP, R159). -/
def State.mapPair (s : State) (q : Nat) : Nat := s.regFld 0xA8FD04 (2 * q) 2
/-- The physical core that runs logical core `c`. -/
def State.physCore (s : State) (c : Nat) : Nat := 2 * s.mapPair (c / 2) + c % 2
/-- The core island a logical core runs in: 10 for CPA, 11 for CPB. -/
def State.coreIsland (s : State) (c : Nat) : Island := if s.physCore c < 4 then .cpa else .cpb
/-- The island of logical core `c` runs its cores as lockstep pairs. -/
def State.paired (s : State) (c : Nat) : Bool := if s.physCore c < 4 then s.pairedA else s.pairedB
/-- The logical core whose record and block govern `c`: the lead's in a pair (R159). -/
def State.lead (s : State) (c : Nat) : Nat := if s.paired c then 2 * (c / 2) else c
/-- The per-core block of a logical core (R159). -/
def coreBlock (c : Nat) : Nat := (if c < 4 then 0xA8FD10 else 0xA8FE10) + (c % 4) * 0x30
/-- The block that governs logical core `c`. -/
def State.block (s : State) (c : Nat) : Nat := coreBlock (s.lead c)
/-- The island a requester's transfers leave from (R22, Table 1.10): SUP for its services, LNK for the fabric's agents. -/
def State.reqIsland (s : State) : Requester → Island
  | .core c => s.coreIsland c
  | .fabric _ => .lnk
  | .service => .sup
  | .island i => i

/-- A line becomes pending at a logical core (R138). -/
def State.raiseLine (s : State) (c line : Nat) : State :=
  s.setRegBit (s.block c + 6 + line / 16) (line % 16) true
/-- The event a route word names: line in [5:0], core in [8:6]; a line below 16 raises nothing (R446). -/
def State.route (s : State) (w : Word) : State :=
  if fld w 0 6 < 16 then s else s.raiseLine (fld w 6 3) (fld w 0 6)

/-! Fault sources (R427–R431). -/

/-- A source's record. -/
def State.src (s : State) (n : Nat) : Src := s.srcs.get (fun _ => {}) n
/-- A source's record written. -/
def State.setSrc (s : State) (n : Nat) (r : Src) : State := { s with srcs := s.srcs.set (fun _ => {}) n r }
/-- The island of a source's range (Table 15.2); none for S_208 to S_255. -/
def srcIsland (n : Nat) : Option Island :=
  match n / 16 with
  | 0 => some .sup | 1 => some .aon | 2 => some .mem | 3 => some .cpa | 4 => some .cpb
  | 5 => some .sw | 6 => some .sw | 7 => some .act | 8 => some .lux | 9 => some .fld
  | 10 => some .net | 11 => some .sec | 12 => some .lnk
  | _ => none
/-- The first source of an island's range (Table 15.2). -/
def srcBase : Island → Nat
  | .sup => 0 | .aon => 16 | .mem => 32 | .cpa => 48 | .cpb => 64 | .sw => 80
  | .act => 112 | .lux => 128 | .fld => 144 | .net => 160 | .sec => 176 | .lnk => 192
/-- The Sampler, which runs in SUP, looks at the source's pair: always in the ranges of SUP, AON and MEM and for reserved
sources, else while the island is in RUN and checking has resumed (R427, R429). -/
def State.checked (s : State) (n : Nat) : Bool :=
  s.running .sup && match srcIsland n with
  | some i =>
    if i = .sup ∨ i = .aon ∨ i = .mem then true else s.running i && (s.island i).chk
  | none => true
/-- An occurrence of an event source: queued, or dropped and counted when 4 are there (R430). An unchecked pair loses
it (R429). -/
def State.raise (s : State) (n : Nat) (res : Option Nat) : State :=
  if s.checked n then
    let r := s.src n
    if r.q.length < 4 then s.setSrc n { r with q := r.q ++ [res] }
    else s.setRegFld 0xA81009 8 8 (satInc 0xFF (s.regFld 0xA81009 8 8))
  else s
/-- An occurrence raised before the island is in RUN: it waits until its range is checked again (R211, R411, R429). -/
def State.raiseHeld (s : State) (n : Nat) (res : Option Nat) : State :=
  let r := s.src n
  if r.q.length < 4 then s.setSrc n { r with q := r.q ++ [res] }
  else s.setRegFld 0xA81009 8 8 (satInc 0xFF (s.regFld 0xA81009 8 8))
/-- The condition of a level source begins or ends (R430). -/
def State.level (s : State) (n : Nat) (b : Bool) (res : Option Nat := none) : State :=
  s.setSrc n { s.src n with lvl := b, lvlRes := res }

/-- A source of an island, by its offset in the range. -/
def State.raiseIsl (s : State) (i : Island) (off : Nat) (res : Option Nat) : State := s.raise (srcBase i + off) res

/-! Sections (Table 2.5) and the section monitors. -/

/-- The band of a section's monitor. -/
def State.section (s : State) (k : Nat) : Band := s.secBand.get (fun _ => .full) k
/-- A band from the lowest up. -/
def Band.num : Band → Nat
  | .off => 0 | .undervoltage => 1 | .hold => 2 | .reduced => 3 | .full => 4 | .over => 5

/-- The time in seconds and fraction the RTC shows, packed: 15 bits of fraction. -/
def State.rtc (s : State) : Nat := s.rtcSec * 32768 + s.rtcFrac

end Sys2Proof.Machine
end

