-- ==== Sys2Proof/Machine/Sram.lean ====
section
/-! DEFINITION. What a write does to memory beside its words: reservations (R181), check bits (R35), the partner's copy
of a lockstep pair's local memory (R37).
The readings and choices it rests on: notes/assumptions/64. -/

namespace Sys2Proof.Machine

/-- A write to a word by anyone clears the reservations on it (R181). -/
def State.clearResv (s : State) (a : Nat) : State :=
  { s with cores := s.cores.map fun e => (e.1, if e.2.resv = some a then { e.2 with resv := none } else e.2) }

/-- The word of the partner core's local memory that holds the same as the word at `a`, where a lockstep pair's cores keep
identical memories; an even physical core and the next are a pair (R37). -/
def State.twinAddr (s : State) (a : Nat) : Option Nat :=
  if 0x880000 ≤ a ∧ a < 0x8C0000 ∧ (if a < 0x8A0000 then s.pairedA else s.pairedB) = true then
    some (if a / 0x8000 % 2 = 0 then a + 0x8000 else a - 0x8000)
  else none

/-- One memory word put with good check bits. -/
def State.putOne (s : State) (a : Nat) (v : Word) : State :=
  let s1 := s.setMem a v
  { s1 with dbe := s1.dbe.filter fun w => decide (w ≠ a) }

/-- A memory word put, in both local memories of a lockstep pair (R37); no reservation is touched, as in the repair of a
word and in a rollback (R181). -/
def State.putWord (s : State) (a : Nat) (v : Word) : State :=
  match s.twinAddr a with
  | some b => (s.putOne a v).putOne b v
  | none => s.putOne a v

/-- A word written in memory, in both local memories of a lockstep pair (R37). -/
def State.storeWord (s : State) (a : Nat) (v : Word) : State :=
  match s.twinAddr a with
  | some b => ((s.putWord a v).clearResv a).clearResv b
  | none => (s.putWord a v).clearResv a

/-- The words at an address that show a double-bit error: in a pair the partner's word must show one too (R150). -/
def State.badWord (s : State) (a : Nat) : Bool :=
  s.isDbe a && (match s.twinAddr a with | some b => s.isDbe b | none => true)

/-- A pair's word with a double-bit error is repaired from the partner's, in both memories (R150). -/
def State.heal (s : State) (a : Nat) : State :=
  match s.twinAddr a with
  | some b => if s.isDbe a && !s.isDbe b then s.putWord a (s.memWord b) else s
  | none => s

/-! Local memory (R37). -/

/-- The address lies in the core-local memories at their own addresses. -/
def inLocals (a : Nat) : Bool := decide (0x880000 ≤ a) && decide (a < 0x8C0000)
/-- The address lies in the alias of the own local memory. -/
def inAlias (a : Nat) : Bool := decide (0x8C0000 ≤ a) && decide (a < 0x8C8000)
/-- The logical core whose local memory an address names. -/
def localOf (a : Nat) : Nat := (a - 0x880000) / 0x8000
/-- An access of a core to its own local memory; both ranges of a pair count as its own. -/
def ownLocal (s : State) (c a : Nat) : Bool := inAlias a || (inLocals a && decide (s.lead (localOf a) = s.lead c))
/-- Where memory holds a word that a core names: a local memory is that of the physical core, a pair's that of its
lead. -/
def localAddr (s : State) (c a : Nat) : Nat :=
  if inAlias a then 0x880000 + 0x8000 * s.physCore (s.lead c) + a % 0x8000
  else if inLocals a then 0x880000 + 0x8000 * s.physCore (s.lead (localOf a)) + a % 0x8000
  else a

/-- Words written in memory from an address on. -/
def State.storeList (s : State) (a : Nat) : List Word → State
  | [] => s
  | v :: r => (s.storeWord a v).storeList (a + 1) r

/-- The words lie in shared SRAM. -/
def inSram (a n : Nat) : Bool := decide (0x800000 ≤ a) && decide (a + n ≤ 0x880000)

/-- An island writes words through its MEM requester; words outside shared SRAM have nowhere to go. -/
def islandStoreList (a : Nat) (ws : List Word) (s : State) : State := if inSram a ws.length then s.storeList a ws else s

end Sys2Proof.Machine
end

