-- ==== Sys2Proof/Machine/Arbiter.lean ====
section
/-! DEFINITION. Shared-memory arbitration: age stamps, the head arbiters of the islands, the MEM arbiter, the wait each
island has seen (R42–R44, Table 1.10).
The readings and choices it rests on: notes/assumptions/16. -/

namespace Sys2Proof.Machine

/-- An island's copy of the tick, which lags the true one by 2 to 3 cycles (R42). -/
def islandTick (s : State) (i : Island) : Nat := (s.memTick + 1022 - b2n (Config.tickLag i.num s.memTick)) % 1024

/-- A request's age as its island's head arbiter works it out, on its own copy of the tick (R43). -/
def headAge (s : State) (q : MemReq) : Nat := (islandTick s q.isl + 1024 - q.stamp) % 1024
/-- A request's age as MEM works it out (R43). -/
def memAge (s : State) (q : MemReq) : Nat := (s.memTick % 1024 + 1024 - q.stamp) % 1024

/-- A request's place at its head arbiter: the greatest age first, then round-robin after the requester served last
(R43). -/
def headRank (s : State) (q : MemReq) : Nat := (1023 - headAge s q) * 8 + (q.k + 7 - (s.island q.isl).headLast) % 8
/-- A head's place at the MEM arbiter: the greatest age first, then round-robin after the island served last (R43). -/
def memRank (s : State) (q : MemReq) : Nat := (1023 - memAge s q) * 12 + (q.isl.num + 11 - s.memLast) % 12

/-- The request of least rank, the first of equal ones. -/
def leastBy (f : MemReq → Nat) : List MemReq → Option MemReq
  | [] => none
  | q :: r => match leastBy f r with
    | none => some q
    | some b => if f b < f q then some b else some q

/-- The request an island's head arbiter forwards. -/
def headNext (s : State) (i : Island) : Option MemReq := leastBy (headRank s) (s.memq.filter fun q => decide (q.isl = i))
/-- The heads of the gates to MEM. -/
def memHeads (s : State) : List MemReq := allIslands.filterMap (headNext s)
/-- The request MEM serves next. -/
def memNext (s : State) : Option MemReq := leastBy (memRank s) (memHeads s)

/-- MEM accepts a request: a store's word is written, and the wait recorded; above 48 cycles it is reported (R44). -/
def memServe (s : State) : State :=
  match memNext s with
  | none => s
  | some q =>
    let wait := s.memTick - q.issued
    let s1 := { s with memq := s.memq.erase q, memLast := q.isl.num }
    let s2 := s1.setIsland q.isl { s1.island q.isl with headLast := q.k }
    let s3 := match q.put with
      | some (a, v) => s2.storeWord a v
      | none => s2
    let s4 := s3.setReg (icb q.isl + 5) (w16 (Nat.min 0xFFFF (Nat.max wait (s3.regN (icb q.isl + 5)))))
    if 48 < wait then s4.raise 4 none else s4

/-- One MEM cycle. -/
def memCycle (s : State) : State := memServe { s with memTick := s.memTick + 1 }

/-- MEM_SERVICE (R44). -/
def execMemService (s : State) : Out := .next (if s.running .mem then memCycle s else s)

/-- Every request that waits is served. -/
def serveAll (s : State) : State := (List.range s.memq.length).foldl (fun t _ => memCycle t) s

/-- A requester's request waits at the arbiter. -/
def memWaits (s : State) (i : Island) (k : Nat) : Bool := s.memq.any fun q => decide (q.isl = i) && decide (q.k = k)

/-- MEM serves requests until none of a requester waits (R27, R42). -/
def serveOwn (i : Island) (k : Nat) (s : State) : State :=
  (List.range s.memq.length).foldl (fun t _ => if memWaits t i k then memCycle t else t) s

/-- A requester issues a request with its stamp, once its previous one has been served (R42). -/
def issueMem (i : Island) (k : Nat) (put : Option (Nat × Word)) (s : State) : State :=
  let s1 := serveOwn i k s
  { s1 with memq := s1.memq ++ [{ isl := i, k := k, stamp := islandTick s1 i, issued := s1.memTick, put := put }] }

/-- A requester makes an access and waits until MEM has served it (R42). -/
def memAccess (i : Island) (k : Nat) (s : State) : State :=
  if s.running .mem then serveOwn i k (issueMem i k none s) else s

/-- A run of `n` accesses, one after another (R42). -/
def memBurst (i : Island) (k n : Nat) (s : State) : State := (List.range n).foldl (fun t _ => memAccess i k t) s

end Sys2Proof.Machine
end

