-- ==== Sys2Proof/Machine/Channel.lean ====
section
/-! DEFINITION. Channels: indices and ports, sets and profiles, limits, the state and diagnosis words (R188–R203,
R221–R227, R249, R253, R255).
The readings and choices it rests on: notes/assumptions/31, 34, 35. -/

namespace Sys2Proof
open Sys2Proof.Machine

/-- How many channels an island has (Table 7.1). -/
def OutIsl.count : OutIsl → Nat
  | .sw => 76 | .act => 16 | .lux => 108 | .fld => 16
/-- The channel exists. -/
def ChanRef.ok (c : ChanRef) : Bool := decide (c.idx < c.isl.count)
/-- The key of a channel in `State.chans`. -/
def ChanRef.key (c : ChanRef) : Nat := 128 * c.isl.island.num + c.idx
/-- The address of a port word (R188). -/
def ChanRef.port (c : ChanRef) (w : Nat) : Nat := window c.isl.island + c.idx * 0x20 + w
/-- The output island control block (R218). -/
def OutIsl.oib (i : OutIsl) : Nat := window i.island + 0xF800
/-- The channels of an island. -/
def OutIsl.chans (i : OutIsl) : List ChanRef := (List.range i.count).map fun k => ⟨i, k⟩

end Sys2Proof

namespace Sys2Proof.Machine

/-- The output islands. -/
def outIslands : List OutIsl := [.sw, .act, .lux, .fld]
/-- The output island of an island. -/
def outOf : Island → Option OutIsl
  | .sw => some .sw | .act => some .act | .lux => some .lux | .fld => some .fld | _ => none

/-- A channel's record. -/
def State.chan (s : State) (c : ChanRef) : Chan := s.chans.get (fun _ => {}) c.key
/-- A channel's record written. -/
def State.setChan (s : State) (c : ChanRef) (r : Chan) : State := { s with chans := s.chans.set (fun _ => {}) c.key r }
/-- A channel's record changed. -/
def State.modChan (s : State) (c : ChanRef) (f : Chan → Chan) : State := s.setChan c (f (s.chan c))
/-- A channel of an island is in hold. -/
def islHeld (o : OutIsl) (s : State) : Bool := o.chans.any fun ch => (s.chan ch).hold
/-- An output island's record. -/
def State.out (s : State) (i : OutIsl) : OutRec := s.outs.get (fun _ => {}) i.island.num
/-- An output island's record written. -/
def State.setOut (s : State) (i : OutIsl) (r : OutRec) : State :=
  { s with outs := s.outs.set (fun _ => {}) i.island.num r }

/-- A DIAG flag set (Table 7.5). -/
def State.diag (s : State) (c : ChanRef) (b : Nat) : State := s.setRegBit (c.port 0x11) b true
/-- An event of EV_ROUTE: 9 retirement, 10 takeover or TKF, 11 refused commit (R219). -/
def State.oibEvent (s : State) (i : OutIsl) (b : Nat) : State :=
  if s.regBit (i.oib + 0x0B) b then s.route (s.reg (i.oib + 0x0B)) else s

/-! Sets. -/

/-- The set the stage runs: a Marionette entry's, else the active set. -/
def Chan.set (c : Chan) : List Word := match c.mar with | some m => m.1 | none => c.act
/-- The profile the stage runs. -/
def Chan.pf (c : Chan) : List Word := match c.mar with | some m => m.2 | none => c.prof
/-- Word `k` of a set or profile. -/
def wd (l : List Word) (k : Nat) : Word := l.getD k 0
/-- MODE of a set (Table 7.3). -/
def modeOf (l : List Word) : Nat := fld (wd l 0) 0 2
/-- The channel is committed to conduct and has not retired. -/
def Chan.wants (c : Chan) : Bool := decide (modeOf c.set ≠ 0) && decide (c.reason = 0)
/-- Profile `p` of an island's pinned table. -/
def profileWords (s : State) (i : OutIsl) (p : Nat) : List Word :=
  (List.range 16).map fun k => (s.out i).bank.get (fun _ => 0#16) (16 * p + k)
/-- The staged words of a port. -/
def staged (s : State) (c : ChanRef) : List Word := s.regList (c.port 0) 15

/-! SW: classes, sections, clusters (Tables 2.5, 8.1 and 8.3). -/

/-- A class of Table 8.1. Currents in 10 mA, the maximum on-resistance in mΩ, the clamp energy in mJ. -/
structure SwClass where
  nominal : Nat
  res : Nat
  steadyMin : Nat
  steadyMax : Nat
  inrushMax : Nat
  short : Nat
  fullScale : Nat
  clampMj : Nat
  deriving DecidableEq, Repr

/-- The class of an SW channel: HS-L, HS-M, HS-S, HB (Table 8.1). -/
def swClass (n : Nat) : SwClass :=
  if n < 8 then ⟨3000, 5, 1000, 12000, 15000, 20000, 16000, 1000⟩
  else if n < 24 then ⟨1200, 16, 200, 6000, 6000, 9000, 6400, 300⟩
  else if n < 64 then ⟨300, 80, 50, 1500, 1500, 2500, 1600, 50⟩
  else ⟨2000, 11, 400, 4000, 4000, 6000, 4800, 0⟩
/-- The cluster of an SW channel. -/
def swCluster (n : Nat) : Nat :=
  if n < 8 then n
  else if n < 24 then (n - 8) / 2
  else if n < 64 then (n - 24) / 5
  else (([0, 0, 1, 2, 2, 3, 4, 4, 5, 6, 6, 7] : List Nat).getD (n - 64) 7)
end Sys2Proof.Machine

namespace Sys2Proof
open Sys2Proof.Machine

/-- The supply section of a channel: A to D as 0 to 3; none where no section feeds it. -/
def ChanRef.section (c : ChanRef) : Option Nat :=
  match c.isl with
  | .sw => some (swCluster c.idx / 2)
  | .act => some (c.idx / 4)
  | .lux => if c.idx < 96 then none else some ((c.idx - 96) / 3)
  | .fld => none

end Sys2Proof

namespace Sys2Proof.Machine

/-- The lower of the VBUS band and the channel's section band (R255). -/
def lowerBand (s : State) (c : ChanRef) : Nat :=
  match c.section with
  | some k => Nat.min (Band.num s.band) (Band.num (s.section k))
  | none => Band.num s.band

/-- A limit tightened by an override and held within the class (R201, R222). -/
def limitOf (v : Nat) (ovr : Bool) (o lo hi : Nat) : Nat := clampN lo hi (if ovr then Nat.min v o else v)
/-- The steady limit of an SW channel in 10 mA. -/
def swSteady (c : Chan) (n : Nat) : Nat :=
  let k := swClass n
  limitOf (wd c.pf 3).toNat (bit (wd c.set 5) 0) (wd c.set 6).toNat k.steadyMin k.steadyMax
/-- The limit of an SW inrush window in 10 mA: the larger of the two limits (R222). -/
def swInrush (c : Chan) (n : Nat) : Nat :=
  let k := swClass n
  Nat.max (limitOf (wd c.pf 1).toNat (bit (wd c.set 5) 1) (wd c.set 7).toNat k.steadyMin k.inrushMax) (swSteady c n)
/-- A current reading of an SW channel: the converter's range is the class's full scale; HB reads both signs (R190, R221). -/
def swReading (n : Nat) (i : Int) : Int :=
  let fs : Int := (swClass n).fullScale
  clampI (if n < 64 then 0 else -fs) fs i
/-- The ΔT limit in K (R234). -/
def dtLimit (c : Chan) : Nat :=
  let p := fld (wd c.pf 13) 0 8
  if bit (wd c.set 5) 2 then Nat.min p (fld (wd c.set 8) 0 8) else p
/-- The wire limit in force in °C (R237). -/
def wireLimit (c : Chan) : Nat :=
  match c.mar with
  | some _ => 105
  | none => if fld (wd c.prof 4) 8 8 = 0 then 105 else fld (wd c.prof 4) 8 8
/-- I_50K in A and τ in s of a wire (Table 8.9). -/
def wireConst (w : Nat) : Nat × Nat :=
  (([(8, 10), (10, 13), (13, 17), (15, 22), (20, 30), (27, 45), (37, 65), (48, 90)] : List (Nat × Nat)).getD w (8, 10))
/-- WM_TAMB in °C. -/
def wireAmb (s : State) : Int := (loByte (s.reg 0xA0F008)).toInt
/-- T_w of a channel: WM_TAMB until the model has run (R236). -/
def wireTemp (s : State) (c : Chan) : Rat := c.wireT.getD (wireAmb s : Rat)
/-- The PWM period of a set in µs: the island's default and minimum apply (Table 7.2, R225). -/
def periodOf (c : ChanRef) (l : List Word) : Nat :=
  let p := (wd l 3).toNat
  match c.isl with
  | .sw => if c.idx < 64 then (if p = 0 then 5000 else Nat.max p 250) else (if p = 0 then 50 else Nat.max p 40)
  | .act => if p = 0 then 0 else p
  | .lux => if p = 0 then 2500 else Nat.max p 200
  | .fld => if p = 0 then 10000 else Nat.max p 1000
/-- DUTY of a set, at most 0x8000. -/
def dutyOf (l : List Word) : Nat := Nat.min (wd l 2).toNat 0x8000
/-- The set whose PERIOD and PHASE a channel runs by: its own; of a carried load the retired channel's; of a member of a
colour lamp the leader's (R217, R303). -/
def timingSet (s : State) (ch : ChanRef) : List Word :=
  let own := match (s.chan ch).carries with
    | some r => (s.chan ⟨ch.isl, r⟩).act
    | none => (s.chan ch).set
  if ch.isl = .lux ∧ modeOf own = 3 ∧ fld (wd own 14) 0 2 = 2 then (s.chan ⟨.lux, fld (wd own 0x0A) 0 7⟩).act else own
/-- The period of a channel in µs. -/
def period (s : State) (ch : ChanRef) : Nat := periodOf ch (timingSet s ch)
/-- The microsecond counter of a channel's stage domain (R225, R295, R343). -/
def stageTime (s : State) (ch : ChanRef) : Nat :=
  s.now - (match ch.isl with | .fld => s.fieldRec.usBase | _ => s.stageBase)
/-- Time since the channel's last period boundary: the boundaries are where (t − PHASE) mod PERIOD = 0, or are counted from
a takeover that restarted the period (R193, R216, R225). -/
def periodTime (s : State) (ch : ChanRef) : Nat :=
  let p := period s ch
  match (s.chan ch).perRef with
  | some r => (s.now - r) % p
  | none => (stageTime s ch + p - (wd (timingSet s ch) 4).toNat % p) % p
/-- A period boundary of the channel is now. -/
def isBoundary (s : State) (ch : ChanRef) : Bool := decide (0 < period s ch) && decide (periodTime s ch = 0)
/-- A set runs under PWM: MODE PWM, or in SW the current regulation of ISLAND (R256). -/
def pwmSet (ch : ChanRef) (l : List Word) : Bool :=
  decide (modeOf l = 2) || (decide (modeOf l = 3) && decide (ch.isl = .sw))

/-- The on-fraction in 1/32,768 of an SW channel under its ceiling and its regulation (R241, R257). -/
def swDuty (c : Chan) : Nat :=
  let d := match c.duty with
    | some x => if modeOf c.set = 3 then Nat.min x (dutyOf c.set) else dutyOf c.set
    | none => dutyOf c.set
  if c.ceil ≠ 0 ∧ bit (wd c.set 0) 3 then Nat.min d (c.ceil * 128) else d
/-- The dead time that shortens the on-time of a half bridge, in SW cycles: none where its low side stays off (R256). -/
def deadTime (n : Nat) (c : Chan) : Nat :=
  if n < 64 ∨ bit (wd c.set 0x0D) 1 then 0 else Nat.max 8 (fld (wd c.set 0x0C) 0 8)
/-- The on-time of an SW channel in whole SW cycles, 80 a µs (R225, R256). -/
def swOnCycles (ch : ChanRef) (c : Chan) : Nat := swDuty c * periodOf ch c.set * 80 / 32768 - deadTime ch.idx c
/-- The on-time of a PWM output of FLD in FLD cycles of 50 ns (R343). -/
def foOnCycles (ch : ChanRef) (c : Chan) : Nat := dutyOf c.set * periodOf ch c.set * 20 / 32768
/-- An on-edge of the channel is now: the start of a period with an on-time; a channel not in PWM may start at any instant
(R228, R243). -/
def onEdge (s : State) (ch : ChanRef) : Bool :=
  let c := s.chan ch
  !pwmSet ch c.set || (isBoundary s ch && decide (0 < (match ch.isl with
    | .sw => swOnCycles ch c
    | .fld => foOnCycles ch c
    | _ => 1)))
/-- Time since the last on-edge in µs, of a channel that conducts. -/
def edgeAge (s : State) (ch : ChanRef) : Nat :=
  let c := s.chan ch
  let since := s.now - c.onAt
  if pwmSet ch c.set then Nat.min since (periodTime s ch) else since

/-! What holds a channel off. -/

/-- The safe latch holds the channel off (R437). -/
def safeHeld (s : State) (c : ChanRef) : Bool :=
  s.regBit 0xA70303 0 &&
    !(match c.isl with
      | .sw => s.regBit (0xA81040 + c.idx / 16) (c.idx % 16)
      | .act => s.regBit 0xA81045 c.idx
      | .lux => s.regBit (0xA81046 + c.idx / 16) (c.idx % 16)
      | .fld => s.regBit 0xA8104D c.idx)
/-- A supply band turns the channel off (R82, R84, R255, R292, R339; Tables 2.6, 3.1 and 3.3). -/
def bandOff (s : State) (c : ChanRef) : Bool :=
  match c.isl with
  | .sw => decide (lowerBand s c ≤ 2)
  | .act => decide (lowerBand s c ≤ 2)
  | .lux => decide (s.band = .over) ||
      (if c.idx < 96 then decide (Band.num s.band ≤ 3) else
        match c.section with
        | some k => decide (Band.num (s.section k) ≤ 2)
        | none => false)
  | .fld => decide (s.fieldRec.vfld = .missing) || s.fieldRec.unpowered
/-- What remains of a retry pause in µs. -/
def pauseLeft (s : State) (c : Chan) : Option Nat :=
  c.pause.map fun p => match c.pauseRun with
    | some t => p - (s.now - t)
    | none => p
/-- The pause elapses: not while the thermal latch is set, nor while a band holds the channel off (Table 8.13, R82, R339);
OVER does not turn an SW channel off (R84). -/
def pauseElapses (s : State) (ch : ChanRef) : Bool := !(s.chan ch).latch && !bandOff s ch
/-- The pause stops or goes on as its conditions change. -/
def refreshPause (ch : ChanRef) (s : State) : State :=
  let c := s.chan ch
  match c.pause with
  | none => s
  | some _ =>
    let go := pauseElapses s ch
    if go = c.pauseRun.isSome then s
    else s.setChan ch { c with pause := pauseLeft s c, pauseRun := if go then some s.now else none }

/-- The quiet time gathered so far, in µs. -/
def quietTime (s : State) (c : Chan) : Nat := c.quiet + (match c.quietFrom with | some t => s.now - t | none => 0)
/-- Quiet time runs: in SW while the channel conducts (R233); in the other islands, for which R205 says no more than that
FORGIVE passes, while COUNT is not frozen under Table 8.13. -/
def quietRuns (s : State) (ch : ChanRef) : Bool :=
  let c := s.chan ch
  decide (c.count ≠ 0) && (if ch.isl = .sw then c.on else pauseElapses s ch)
/-- The quiet time stops or goes on as its conditions change. -/
def refreshQuiet (ch : ChanRef) (s : State) : State :=
  let c := s.chan ch
  let go := quietRuns s ch
  if go = c.quietFrom.isSome then s
  else s.setChan ch { c with quiet := quietTime s c, quietFrom := if go then some s.now else none }
/-- The quiet time starts again from 0 (R233). -/
def restartQuiet (ch : ChanRef) (s : State) : State :=
  refreshQuiet ch (s.modChan ch fun c => { c with quiet := 0, quietFrom := none })

/-- Another channel of the cluster is inside its inrush window (R244). -/
def clusterWindow (s : State) (ch : ChanRef) : Bool :=
  OutIsl.sw.chans.any fun d => decide (d ≠ ch) && decide (swCluster d.idx = swCluster ch.idx) && (s.chan d).win.isSome
/-- When the cluster last made a staggered start. -/
def clusterLast (s : State) (k : Nat) : Option Nat := s.cluLast.get (fun _ => none) k
/-- E_in of a start, in 10⁻⁹ of 10 mW (R242). -/
def startEnergy (c : Chan) (n : Nat) : Nat :=
  swInrush c n * swInrush c n * (swClass n).res * (wd c.pf 2).toNat
/-- E_res: what was admitted in the preceding second. -/
def reservedEnergy (s : State) : Nat :=
  (s.sw.admitted.filter fun e => decide (s.now < e.1 + 1000000)).foldl (fun a e => a + e.2) 0
/-- The governor admits a start of this energy (R242). -/
def admits (s : State) (e : Nat) : Bool :=
  decide (s.regN 0xA0F002 * 1000000000 + reservedEnergy s + e ≤ s.regN 0xA0F003 * 1000000000)
/-- The age of a waiting start of an SW channel (R243). -/
def startAge (s : State) (c : Chan) : Nat := if c.retry then c.tripAt else c.readyAt.getD s.now

end Sys2Proof.Machine
end

