-- ==== Sys2Proof/Machine/Aes.lean ====
section
/-! DEFINITION. AES and its modes on byte strings: FIPS 197, SP 800-38A to 38D, RFC 3394, as the cipher chapter names
them (14_cipher_engine.md). The standards themselves are taken from outside spec/ (notes/assumptions/20.md).
The readings and choices it rests on: notes/assumptions/20. -/

namespace Sys2Proof.Machine

/-! The field and the S-box (FIPS 197). -/

/-- Multiplication by x in GF(2^8). -/
def xtime (a : Byte) : Byte := if a.msb then (a <<< 1) ^^^ 0x1B#8 else a <<< 1
/-- Multiplication in GF(2^8) by the low `n` bits of `b`. -/
def gmul : Nat → Byte → Byte → Byte
  | 0, _, _ => 0
  | n + 1, a, b => (if b.getLsbD 0 then a else 0) ^^^ gmul n (xtime a) (b >>> 1)
/-- A table of 256 bytes: eight rows of 32, the first byte of a row its most significant. -/
def byteOf (rows : List Nat) (a : Byte) : Byte := BitVec.ofNat 8 (rows.getD (a.toNat / 32) 0 / 256 ^ (31 - a.toNat % 32))
/-- The S-box (FIPS 197, figure 7). -/
def sbox : Byte → Byte := byteOf
  [0x637c777bf26b6fc53001672bfed7ab76ca82c97dfa5947f0add4a2af9ca472c0,
   0xb7fd9326363ff7cc34a5e5f171d8311504c723c31896059a071280e2eb27b275,
   0x09832c1a1b6e5aa0523bd6b329e32f8453d100ed20fcb15b6acbbe394a4c58cf,
   0xd0efaafb434d338545f9027f503c9fa851a3408f929d38f5bcb6da2110fff3d2,
   0xcd0c13ec5f974417c4a77e3d645d197360814fdc222a908846eeb814de5e0bdb,
   0xe0323a0a4906245cc2d3ac629195e479e7c8376d8dd54ea96c56f4ea657aae08,
   0xba78252e1ca6b4c6e8dd741f4bbd8b8a703eb5664803f60e613557b986c11d9e,
   0xe1f8981169d98e949b1e87e9ce5528df8ca1890dbfe6426841992d0fb054bb16]
/-- The inverse S-box (FIPS 197, figure 14). -/
def sboxInv : Byte → Byte := byteOf
  [0x52096ad53036a538bf40a39e81f3d7fb7ce339829b2fff87348e4344c4dee9cb,
   0x547b9432a6c2233dee4c950b42fac34e082ea16628d924b2765ba2496d8bd125,
   0x72f8f66486689816d4a45ccc5d65b6926c704850fdedb9da5e154657a78d9d84,
   0x90d8ab008cbcd30af7e45805b8b34506d02c1e8fca3f0f02c1afbd0301138a6b,
   0x3a9111414f67dcea97f2cfcef0b4e67396ac7422e7ad3585e2f937e81c75df6e,
   0x47f11a711d29c5896fb7620eaa18be1bfc563e4bc6d279209adbc0fe78cd5af4,
   0x1fdda8338807c731b11210592780ec5f60517fa919b54a0d2de57a9f93c99cef,
   0xa0e03b4dae2af5b0c8ebbb3c83539961172b047eba77d626e169146355210c7d]

/-! Keys and blocks: byte lists. -/

/-- Two byte strings added, to the length of the shorter. -/
def bxor (a b : List Byte) : List Byte := List.zipWith (· ^^^ ·) a b
/-- Four bytes of a byte string. -/
def quad (l : List Byte) (k : Nat) : List Byte := (l.drop (4 * k)).take 4
/-- The key schedule, one word a step: `nk` words of key, `n` steps from word `i`, round constant `rc`. -/
def expandFrom (nk : Nat) : Nat → Nat → Byte → List Byte → List Byte
  | 0, _, _, w => w
  | n + 1, i, rc, w =>
    let prev := quad w (i - 1)
    let (t, rc1) :=
      if i % nk = 0 then
        let r := ((prev.drop 1) ++ prev.take 1).map sbox
        (bxor r [rc, 0, 0, 0], xtime rc)
      else if nk = 8 ∧ i % nk = 4 then (prev.map sbox, rc)
      else (prev, rc)
    expandFrom nk n (i + 1) rc1 (w ++ bxor (quad w (i - nk)) t)
/-- The expanded key of a key of 16, 24 or 32 bytes. -/
def expandKey (key : List Byte) : List Byte :=
  let nk := key.length / 4
  expandFrom nk (4 * (nk + 7) - nk) nk 1 key
/-- Rounds of a key. -/
def aesRounds (key : List Byte) : Nat := key.length / 4 + 6
/-- Round key `r`. -/
def roundKey (w : List Byte) (r : Nat) : List Byte := (w.drop (16 * r)).take 16
/-- A permutation of a block's bytes. -/
def permute (p : List Nat) (b : List Byte) : List Byte := p.map fun k => b.getD k 0
/-- ShiftRows. -/
def shiftRows (b : List Byte) : List Byte := permute [0, 5, 10, 15, 4, 9, 14, 3, 8, 13, 2, 7, 12, 1, 6, 11] b
/-- Its inverse. -/
def shiftRowsInv (b : List Byte) : List Byte := permute [0, 13, 10, 7, 4, 1, 14, 11, 8, 5, 2, 15, 12, 9, 6, 3] b
/-- A column times a circulant row of coefficients below 16. -/
def mixColumn (m : List Byte) (c : List Byte) : List Byte :=
  (List.range 4).map fun r => (List.range 4).foldl (fun a k => a ^^^ gmul 4 (c.getD k 0) (m.getD ((k + 4 - r) % 4) 0)) 0
/-- MixColumns with coefficients `m`. -/
def mixColumns (m : List Byte) (b : List Byte) : List Byte := (List.range 4).flatMap fun k => mixColumn m (quad b k)
/-- The AES encryption of a block. -/
def aesEnc (key blk : List Byte) : List Byte :=
  let w := expandKey key
  let n := aesRounds key
  let s := (List.range (n - 1)).foldl (fun b r =>
    bxor (mixColumns [2, 3, 1, 1] (shiftRows (b.map sbox))) (roundKey w (r + 1))) (bxor blk (roundKey w 0))
  bxor (shiftRows (s.map sbox)) (roundKey w n)
/-- The AES decryption of a block. -/
def aesDec (key blk : List Byte) : List Byte :=
  let w := expandKey key
  let n := aesRounds key
  let s := (List.range (n - 1)).foldl (fun b r =>
    mixColumns [14, 11, 13, 9] (bxor ((shiftRowsInv b).map sboxInv) (roundKey w (n - 1 - r)))) (bxor blk (roundKey w n))
  bxor ((shiftRowsInv s).map sboxInv) (roundKey w 0)

/-! Modes (SP 800-38A). -/

/-- Blocks of 16 bytes, the last perhaps shorter; `n` at most. -/
def blocksOf : Nat → List Byte → List (List Byte)
  | 0, _ => []
  | n + 1, l => if l.isEmpty then [] else l.take 16 :: blocksOf n (l.drop 16)
/-- The blocks of a byte string. -/
def blocks (l : List Byte) : List (List Byte) := blocksOf (l.length / 16 + 1) l
/-- A block of zeros. -/
def zeroBlock : List Byte := List.replicate 16 0
/-- A block as a big-endian number plus one, modulo 2^128. -/
def incBlock (b : List Byte) : List Byte := beBytes 16 ((beNat b + 1) % 2 ^ 128)
/-- ECB. -/
def ecb (f : List Byte → List Byte) (l : List Byte) : List Byte := (blocks l).flatMap f
/-- CBC encryption: output and last ciphertext block. -/
def cbcEnc (key iv l : List Byte) : List Byte × List Byte :=
  (blocks l).foldl (fun (a : List Byte × List Byte) b =>
    let c := aesEnc key (bxor b a.2)
    (a.1 ++ c, c)) ([], iv)
/-- CBC decryption. -/
def cbcDec (key iv l : List Byte) : List Byte × List Byte :=
  (blocks l).foldl (fun (a : List Byte × List Byte) b => (a.1 ++ bxor (aesDec key b) a.2, b)) ([], iv)
/-- CFB-128 encryption. -/
def cfbEnc (key iv l : List Byte) : List Byte × List Byte :=
  (blocks l).foldl (fun (a : List Byte × List Byte) b =>
    let c := bxor b (aesEnc key a.2)
    (a.1 ++ c, c)) ([], iv)
/-- CFB-128 decryption. -/
def cfbDec (key iv l : List Byte) : List Byte × List Byte :=
  (blocks l).foldl (fun (a : List Byte × List Byte) b => (a.1 ++ bxor b (aesEnc key a.2), b)) ([], iv)
/-- CTR: output and the counter of the next block (R418). -/
def ctr (key c0 l : List Byte) : List Byte × List Byte :=
  (blocks l).foldl (fun (a : List Byte × List Byte) b => (a.1 ++ bxor b (aesEnc key a.2), incBlock a.2)) ([], c0)

/-! CMAC (SP 800-38B), CCM (38C), GCM (38D), key wrap (RFC 3394). -/

/-- A subkey doubled. -/
def dbl (b : List Byte) : List Byte :=
  let v := beNat b
  let w := (2 * v) % 2 ^ 128
  beBytes 16 (if 2 ^ 127 ≤ v then w ^^^ 0x87 else w)
/-- AES-CMAC. -/
def cmac (key l : List Byte) : List Byte :=
  let k1 := dbl (aesEnc key zeroBlock)
  let bs := blocks l
  let last := bs.getLastD []
  let fin := if last.length = 16 then bxor last k1 else bxor (padTo 0 16 (last ++ [0x80#8])) (dbl k1)
  aesEnc key (bxor fin (bs.dropLast.foldl (fun a b => aesEnc key (bxor b a)) zeroBlock))
/-- A byte string filled with zeros to whole blocks. -/
def zeroPad (l : List Byte) : List Byte := l ++ List.replicate ((16 - l.length % 16) % 16) 0
/-- CBC-MAC. -/
def cbcMac (key l : List Byte) : List Byte := (blocks l).foldl (fun a b => aesEnc key (bxor b a)) zeroBlock
/-- The CCM tag before truncation, and the keystream's start, by SP 800-38C appendix A; AAD lengths in 2 bytes (R419). -/
def ccmTag (key nonce aad l : List Byte) (t : Nat) : List Byte :=
  let q := 15 - nonce.length
  let b0 := byte ((if aad.isEmpty then 0 else 64) + (t - 2) / 2 * 8 + (q - 1)) :: nonce ++ beBytes q l.length
  let a := if aad.isEmpty then [] else zeroPad (beBytes 2 aad.length ++ aad)
  let mac := cbcMac key (b0 ++ a ++ zeroPad l)
  let c0 := byte (q - 1) :: nonce ++ List.replicate q 0
  bxor mac (aesEnc key c0)
/-- The CCM keystream applied. -/
def ccmCrypt (key nonce l : List Byte) : List Byte :=
  let q := 15 - nonce.length
  (ctr key (byte (q - 1) :: nonce ++ beBytes q 1) l).1
/-- Multiplication in GF(2^128) as GHASH numbers its bits. -/
def ghMul : Nat → Nat → Nat → Nat → Nat
  | 0, _, _, z => z
  | n + 1, x, v, z =>
    ghMul n x (if v % 2 = 1 then (v / 2) ^^^ (0xE1 * 2 ^ 120) else v / 2) (if x.testBit n then z ^^^ v else z)
/-- GHASH. -/
def ghash (h : List Byte) (l : List Byte) : List Byte :=
  beBytes 16 ((blocks l).foldl (fun y b => ghMul 128 (y ^^^ beNat b) (beNat h) 0) 0)
/-- The increment of GCM: the last 32 bits. -/
def inc32 (b : List Byte) : List Byte := b.take 12 ++ beBytes 4 ((beNat (b.drop 12) + 1) % 2 ^ 32)
/-- GCTR. -/
def gctr (key c0 l : List Byte) : List Byte :=
  ((blocks l).foldl (fun (a : List Byte × List Byte) b => (a.1 ++ bxor b (aesEnc key a.2), inc32 a.2)) ([], c0)).1
/-- The GCM tag before truncation, over AAD and ciphertext, with a 12-byte IV. -/
def gcmTag (key iv aad c : List Byte) : List Byte :=
  let h := aesEnc key zeroBlock
  let s := ghash h (zeroPad aad ++ zeroPad c ++ beBytes 8 (8 * aad.length) ++ beBytes 8 (8 * c.length))
  bxor s (aesEnc key (iv ++ [0, 0, 0, 1]))
/-- GCM's keystream applied. -/
def gcmCrypt (key iv l : List Byte) : List Byte := gctr key (iv ++ [0, 0, 0, 2]) l
/-- Registers of 8 bytes of a byte string. -/
def eights : Nat → List Byte → List (List Byte)
  | 0, _ => []
  | n + 1, l => l.take 8 :: eights n (l.drop 8)
/-- RFC 3394 key wrap with an initial value of 8 bytes. -/
def keyWrap (kek iv key : List Byte) : List Byte :=
  let n := key.length / 8
  let (a, r) := (List.range 6).foldl (fun (p : List Byte × List (List Byte)) j =>
    (List.range n).foldl (fun (p : List Byte × List (List Byte)) i =>
      let b := aesEnc kek (p.1 ++ p.2.getD i [])
      (bxor (b.take 8) (beBytes 8 (n * j + i + 1)), setAt p.2 i (b.drop 8))) p) (iv, eights n key)
  a ++ r.flatten
/-- RFC 3394 key unwrap: the recovered initial value and the key. -/
def keyUnwrap (kek blob : List Byte) : List Byte × List Byte :=
  let n := blob.length / 8 - 1
  let (a, r) := (List.range 6).foldl (fun (p : List Byte × List (List Byte)) j =>
    (List.range n).foldl (fun (p : List Byte × List (List Byte)) i =>
      let t := n * (5 - j) + (n - i)
      let b := aesDec kek (bxor p.1 (beBytes 8 t) ++ p.2.getD (n - 1 - i) [])
      (b.take 8, setAt p.2 (n - 1 - i) (b.drop 8))) p) (blob.take 8, eights n (blob.drop 8))
  (a, r.flatten)

end Sys2Proof.Machine
end

