-- ==== Sys2Proof/Machine/SecKeys.lean ====
section
/-! DEFINITION. The root key, the transport key, key blobs and key slots of SEC (R406–R411). -/

namespace Sys2Proof.Machine

/-- An OTP word. -/
def State.otpWord (s : State) (a : Nat) : Word := s.otp.get (fun _ => 0#16) a
/-- Bytes of OTP words. -/
def otpBytes (s : State) (a n : Nat) : List Byte := bytesOf ((List.range n).map fun k => s.otpWord (a + k))
/-- The root key in the fuses (R406). -/
def rootKey (s : State) : List Byte := otpBytes s 0x100 16
/-- The transport key of a root key (R407). -/
def transportKey (root : List Byte) : List Byte := aesEnc root (List.replicate 16 0x54#8)

/-- A blob's initial value (Table 14.1). -/
def blobIv (kind : Byte) (k : KeySlot) : List Byte :=
  [0x5C#8, 0xB7#8, byte k.key.length, k.usage, hiByte k.kid, loByte k.kid, kind, 0x00#8]
/-- A key wrapped as a blob (R408). -/
def wrapBlob (kek : List Byte) (kind : Byte) (k : KeySlot) : List Word := wordsOf (keyWrap kek (blobIv kind k) k.key)
/-- The attributes of a key are allowed: USAGE bit 7 clear, TOKEN or BOOT alone and with 128 bits (R409). -/
def usageOk (klen : Nat) (u : Byte) : Bool :=
  !u.getLsbD 7 && (if u.getLsbD 5 || u.getLsbD 6 then decide (klen = 16) && decide (u = 0x20#8 ∨ u = 0x40#8) else true)

/-- What an unwrap gives: a key with its attributes, or a code of Table 14.4. -/
inductive Unwrapped where
  | key (k : KeySlot)
  | code (n : Nat)
  deriving DecidableEq, Repr

/-- A blob unwrapped and checked (R408, R409): code 4 where the recovered value has not the magic, code 5 for the
attributes. -/
def unwrapBlob (kek : List Byte) (kind : Byte) (ws : List Word) : Unwrapped :=
  let (iv, key) := keyUnwrap kek (bytesOf ws)
  let b (n : Nat) : Byte := iv.getD n 0
  if iv.take 2 ≠ [0x5C#8, 0xB7#8] then .code 4
  else if b 2 ≠ byte key.length ∨ b 6 ≠ kind ∨ b 7 ≠ 0x00#8 ∨ !usageOk key.length (b 3) then .code 5
  else .key ⟨key, b 3, wordOf (b 5) (b 4), 0⟩

/-- A key slot. -/
def State.slot (s : State) (n : Nat) : Option KeySlot := s.sec.slots.get (fun _ => none) n
/-- A key slot loaded or emptied. -/
def State.setSlot (s : State) (n : Nat) (k : Option KeySlot) : State :=
  { s with sec := { s.sec with slots := s.sec.slots.set (fun _ => none) n k } }

/-- The boot blob's words in OTP (R411). -/
def bootBlob (s : State) : List Word := (List.range 12).map fun k => s.otpWord (0x1C0 + k)

/-- Slot 0 from what the boot blob unwraps to (R411). -/
def takeBootKey (u : Unwrapped) (s : State) : State :=
  match u with
  | .key k => if k.usage = 0x40#8 then s.setSlot 0 (some k) else s.raiseHeld 181 none
  | .code _ => s.raiseHeld 181 none

/-- SEC loads the root key from the fuses, derives K_T and loads slot 0 (R407, R411). -/
def loadRoot (s : State) : State :=
  let root := rootKey s
  let kt := transportKey root
  let s1 := { s with sec := { s.sec with root := some root, kt := some kt } }
  if (bootBlob s).all (· = 0#16) then s1.setSlot 0 (some ⟨kt, 0x40#8, 0#16, 0#8⟩)
  else takeBootKey (unwrapBlob root 0x00#8 (bootBlob s)) s1

/-- The CMAC of bytes under slot 0 (R472); none where it is empty. -/
def bootMac (s : State) (bs : List Byte) : Option (List Byte) := (s.slot 0).map fun k => cmac k.key bs

end Sys2Proof.Machine
end

