-- ==== Sys2Proof/Machine/Enrol.lean ====
section
/-! DEFINITION. Token slots, their forming at release, the enrolment counter, the checks of Table 13.6 and the start of
an enrolment or revocation (R383–R392).
The readings and choices it rests on: notes/assumptions/21, 50. -/

namespace Sys2Proof.Machine

/-- A flag of SEC_AEV_FLAG with its routed event (R405). -/
def accessEvent (k : Nat) (s : State) : State :=
  let s1 := s.setRegBit 0xA41071 k true
  if s1.regBit 0xA41070 (9 + k) then s1.route (s1.reg 0xA41070) else s1

/-- A frame put on a terminal, in the model's trace. -/
def State.send (s : State) (m : Sent) : State := { s with sent := m :: s.sent }

/-- `n` fresh bytes of the random source. -/
def freshBytes : Nat → State → List Byte × State
  | 0, s => ([], s)
  | n + 1, s =>
    let (bs, t) := freshBytes n s.used
    (Config.freeByte s.free :: bs, t)

/-- A slot's record in a generation (Table 13.5). -/
def tokAt (g n : Nat) : Nat := 0x90F400 + 0x10000 * g + 16 * n
/-- Its words. -/
def tokRec (s : State) (g n : Nat) : List Word := s.memList (tokAt g n) 16
/-- A token identity in a record. -/
def tokTid (r : List Word) : Nat := hiLo (r.getD 2 0) (r.getD 1 0)
/-- The slot is enrolled (TOK_STATE). -/
def enrolled (s : State) (n : Nat) : Bool := s.regBit (0xA41011 + n / 16) (n % 16)
/-- TOK_STATE's bit of a slot. -/
def setEnrolled (n : Nat) (b : Bool) (s : State) : State := s.setRegBit (0xA41011 + n / 16) (n % 16) b
/-- A slot's token identity. -/
def slotTid (s : State) (n : Nat) : Nat := tokTid (tokRec s 0 n)
/-- The enrolled slot of a token identity. -/
def slotOfTid (s : State) (tid : Nat) : Option Nat :=
  (List.range 32).find? fun n => enrolled s n && decide (slotTid s n = tid)
/-- K_t of a slot, unwrapped from its blob (R385). -/
def tokKey (s : State) (n : Nat) : Option (List Byte) :=
  match s.sec.root with
  | none => none
  | some root =>
    match unwrapBlob root 0x00#8 ((tokRec s 0 n).drop 4) with
    | .key k => if k.usage = 0x20#8 then some k.key else none
    | .code _ => none

/-- The state of a slot's record in a generation as R389 reads it: 0 free, 1 enrolled, 2 revoked; and whether a word has a
double-bit error. -/
def tokStateIn (s : State) (g n : Nat) : Nat × Bool :=
  if s.anyDbe (tokAt g n) 16 then (2, true)
  else
    let w := s.memWord (tokAt g n)
    (if w = 0xFFFF#16 then 0 else if w = 0xA55A#16 then 1 else 2, false)

/-- A slot formed from both generations, the other written to match, a mismatch or error reported (R389). -/
def formSlot (n : Nat) (s0 : State) : State :=
  let s := memBurst .sec 2 32 s0
  let (a, ea) := tokStateIn s 0 n
  let (b, eb) := tokStateIn s 1 n
  let ra := tokRec s 0 n
  let rb := tokRec s 1 n
  let differ := ea || eb || decide (ra ≠ rb)
  let revoke := decide (a = 2) || decide (b = 2) || (decide (a = 1) && decide (b = 1) && decide (tokTid ra ≠ tokTid rb))
  let s1 :=
    if !differ then s
    else if revoke then ((s.storeList (tokAt 0 n) (0#16 :: ra.drop 1)).storeList (tokAt 1 n) (0#16 :: ra.drop 1))
    else if a = 0 ∧ b = 1 then s.storeList (tokAt 0 n) rb
    else s.storeList (tokAt 1 n) ra
  let s2 := setEnrolled n (!revoke && (decide (a = 1) || decide (b = 1))) s1
  if differ then s2.raiseHeld 179 none else s2

/-- Before SEC reports RUN: the slots formed, the root key, K_T and slot 0 loaded unless an alarm condition is present
(R389, R411, R423). -/
def releaseSec (s : State) : State :=
  let s1 := (List.range 32).foldl (fun t n => formSlot n t) s
  if s1.alive = 0 then loadRoot s1 else s1

/-- Enrolments used: the words of OTP block 6 that are not 0 (R390). -/
def enrolments (s : State) : Nat := ((List.range 64).filter fun k => decide (s.otpWord (0x180 + k) ≠ 0#16)).length

/-- ENR_STAT while a command runs, or with a code at its end. -/
def enrStatus (busy : Bool) (code : Nat) (s : State) : State := s.setReg 0xA41066 (pack [(0, b2n busy), (1, code)])
/-- An enrolment or revocation ends with a code (R405). -/
def endEnrol (code : Nat) (s : State) : State :=
  accessEvent 1 (enrStatus false code { s with sec := { s.sec with enr := none, enrChal := [], enrKey := [], enrAnt := none } })

/-- The bytes of a number of 32 bits in two registers, most significant first. -/
def regBytes (s : State) (a : Nat) : List Byte := beBytes 4 (hiLo (s.reg (a + 1)) (s.reg a))

/-- CRC-8 of Table 13.2: eight shifts. -/
def crc8Shift : Nat → Byte → Byte
  | 0, c => c
  | n + 1, c => crc8Shift n (if c.msb then (c <<< 1) ^^^ 0x2F#8 else c <<< 1)
/-- CRC-8 of Table 13.2 over bytes. -/
def crc8 (bs : List Byte) : Byte := bs.foldl (fun c b => crc8Shift 8 (c ^^^ b)) 0xFF#8

/-- A challenge frame (Table 13.2). -/
def challenge (type slot ant remain : Nat) (body : List Byte) : List Byte :=
  let bs := (byte (16 + type) :: body) ++ [byte (slot + 32 * ant), byte remain]
  bs ++ [crc8 bs]
/-- The LF antennas run in the bands REDUCED and FULL (Tables 3.1 and 3.3). -/
def antennasOn (s : State) : Bool := decide (s.band = .reduced) || decide (s.band = .full)
/-- AN_IPK in 10 mA (Table 13.11). -/
def anIpk (s : State) : Nat := clampN 10 150 (s.regFld 0xA41005 0 8)
/-- The peak current of an LF frame that begins now: at most 0.8 A in REDUCED (R380, R382). -/
def lfPeak (s : State) : Nat := if s.band = .reduced then Nat.min (anIpk s) 80 else anIpk s
/-- The same challenge on each antenna of a mask, in ascending order (R383). -/
def sendChallenges (type slot mask : Nat) (body : List Byte) (s : State) : State :=
  let ants := if antennasOn s then bitsSet 8 mask else []
  (ants.zipIdx).foldl (fun t e => t.send (.lf e.1 (lfPeak t) (challenge type slot e.1 (ants.length - 1 - e.2) body))) s

/-- The words of an enrolment blob, if it lies in shared SRAM and reads without a double-bit error (R391). -/
def enrBlob (s : State) : Option (List Word) :=
  let a := (s.reg 0xA41062).toNat + 65536 * s.regFld 0xA41063 0 8
  if inSram a 12 ∧ !s.anyDbe a 12 then some (s.memList a 12) else none

/-- The token key of an enrolment blob (R391, R409). -/
def enrBlobKey (s : State) : Option (List Byte) :=
  match enrBlob s, s.sec.root with
  | some ws, some root =>
    match unwrapBlob root 0x00#8 ws with
    | .key k => if k.usage = 0x20#8 then some k.key else none
    | .code _ => none
  | _, _ => none

/-- The requester is a core that the register's low byte names. -/
def coreNamed (s : State) (a : Nat) (r : Requester) : Bool :=
  match r with
  | .core c => s.regBit a c
  | _ => false

/-- A session loses a slot at once (R392). -/
def dropSlot (n : Nat) (s : State) : State :=
  let s1 := match s.sec.session with
    | none => s
    | some x => { s with sec := { s.sec with session := some { x with
        resolve := x.resolve.filter (· ≠ n), auth := x.auth.filter fun t => decide (t.slot ≠ n) } } }
  let clr (a : Nat) (t : State) := t.setRegBit (a + n / 16) (n % 16) false
  clr 0xA4100D (clr 0xA4100B (clr 0xA41009 s1))

/-- The checks of Table 13.6 for an enrolment: the first failing code, or the key. -/
def enrolChecks (s : State) (r : Requester) (n : Nat) : Nat × List Byte :=
  if !coreNamed s 0xA41003 r then (1, [])
  else if 64 ≤ enrolments s then (2, [])
  else if enrolled s n then (3, [])
  else if (slotOfTid s (hiLo (s.reg 0xA41061) (s.reg 0xA41060))).isSome then (4, [])
  else match enrBlobKey s with
    | none => (5, [])
    | some k => (0, k)

/-- An enrolment begins: its checks, then the challenge on the named antenna (R391). -/
def beginEnrolment (r : Requester) (v : Word) (s : State) : State :=
  let n := fld v 0 5
  let (code, key) := enrolChecks s r n
  if code ≠ 0 then endEnrol code s
  else
    let (nonce, s1) := freshBytes 8 (memBurst .sec 2 12 s)
    let body := regBytes s1 0xA41000 ++ nonce
    let ant := s1.regFld 0xA41064 0 3
    sendChallenges 3 n (2 ^ ant) body
      (enrStatus true 0 { s1 with sec := { s1.sec with enr := some (r, v), enrChal := body, enrKey := key, enrAnt := some (ant, false), enrAt := s1.now } })

/-- A revocation begins: the slot leaves TOK_STATE and every session in the cycle of the write (R392). -/
def beginRevocation (r : Requester) (v : Word) (s : State) : State :=
  let n := fld v 0 5
  if !coreNamed s 0xA41003 r then endEnrol 1 s
  else if !enrolled s n then endEnrol 3 s
  else enrStatus true 0 (dropSlot n (setEnrolled n false { s with sec := { s.sec with enr := some (r, v) } }))

/-- A write of ENR_CMD (R391, R392, Table 13.9): another key is ignored, and so is a command while one runs; an enrolment
during a session is held until its end. -/
def enrCmd (r : Requester) (v : Word) (s : State) : State :=
  if fld v 8 8 ≠ 0xE7 ∨ s.sec.enr.isSome then s
  else if bit v 5 then beginRevocation r v s
  else if s.sec.session.isSome then
    if s.sec.enrHeld.isSome then s else { s with sec := { s.sec with enrHeld := some (r, v) } }
  else beginEnrolment r v s

/-- A held enrolment runs once the session has ended (Table 13.9). -/
def runHeld (s : State) : State :=
  match s.sec.enrHeld, s.sec.enr with
  | some (r, v), none => beginEnrolment r v { s with sec := { s.sec with enrHeld := none } }
  | _, _ => s

/-- The MAC of a token's frame: 64 bits of the CMAC over challenge bytes 0 to 12 and the frame's own (R385). -/
def tokenMac (key : List Byte) (type : Nat) (body own : List Byte) : List Byte :=
  (cmac key ((byte (16 + type) :: body) ++ own)).take 8

/-- The first `n` bytes of a frame carry its CRC-16 after them (Table 13.3). -/
def frameCrcOk (bytes : List Byte) (n : Nat) : Bool :=
  decide (bytes.length = n + 2) && decide (beBytes 2 (crc16Bytes (bytes.take n)).toNat = bytes.drop n)

/-- The response an enrolment waits for (R391, Table 13.3): TYPE 3, CRC, TID, slot and MAC under the new key. -/
def enrolAnswer (s : State) (n : Nat) (bytes : List Byte) : Bool :=
  let b (k : Nat) : Byte := bytes.getD k 0
  frameCrcOk bytes 16 && decide (b 0 = 0x13#8) && !s.sec.enrKey.isEmpty && !s.sec.enrChal.isEmpty &&
  decide (beNat ((bytes.drop 1).take 4) = hiLo (s.reg 0xA41061) (s.reg 0xA41060)) &&
  decide ((b 5).toNat % 32 = n) &&
  decide (tokenMac s.sec.enrKey 3 s.sec.enrChal (bytes.take 8) = (bytes.drop 8).take 8)

/-- The lowest word of OTP block 6 that still reads 0 (R390). -/
def nextEnrolment (s : State) : Option Nat := (List.range 64).find? fun k => decide (s.otpWord (0x180 + k) = 0#16)

/-- The antenna fault source lasts while a bit of AN_STAT is set (R381). -/
def antennaLevel (s : State) : State := s.level 178 (decide (s.reg 0xA41006 ≠ 0))
/-- A whole frame has ended on an antenna: a peak below 50 % of AN_IPK, in 10 mA, is its fault; a good frame clears both
its bits (R381, Table 13.1, AN_STAT). -/
def antennaFrame (n peak : Nat) (s : State) : State :=
  if 2 * peak < anIpk s then s.setRegBit 0xA41006 n true else (s.setRegBit 0xA41006 n false).setRegBit 0xA41006 (8 + n) false
/-- The enrolment challenge's frame has ended. -/
def enrFrameEnded (peak : Nat) (s : State) : State :=
  match s.sec.enrAnt with
  | some (n, false) => antennaLevel (antennaFrame n peak s)
  | _ => s
/-- The time of T_L + 12 ms of an enrolment challenge has come (R391, Table 13.6). -/
def enrLate (s : State) : Bool := decide (s.sec.enrAt + 18432 + 12000 ≤ s.now)

/-- A revocation's words are programmed (R392), one generation after the other; a programming that fails leaves open which
word it was and what it left. -/
def revoked (n : Nat) (programmed : Bool) (s : State) : State :=
  let s1 := memBurst .sec 2 2 s
  if programmed then endEnrol 0 ((s1.storeWord (tokAt 0 n) 0#16).storeWord (tokAt 1 n) 0#16)
  else endEnrol 7 { s1.used with undef := (tokAt 0 n, 1, s1.free) :: s1.undef }

/-- The OTP word that counts an enrolment and the slot's records are programmed (R388, R390, R391); a programming that fails
leaves open which word it was and what it left. -/
def enrolRecords (n : Nat) (programmed : Bool) (s : State) : State :=
  match nextEnrolment s with
  | none => endEnrol 2 s
  | some k =>
    let tid := hiLo (s.reg 0xA41061) (s.reg 0xA41060)
    let w := w16 (0x8000 + n * 0x100 + tid % 256)
    let record := [0xA55A#16, s.reg 0xA41060, s.reg 0xA41061, w16 k] ++ (enrBlob s).getD []
    if programmed then
      let s1 := memBurst .sec 2 32 (s.fuse (0x180 + k) w)
      endEnrol 0 (setEnrolled n true ((s1.storeList (tokAt 0 n) record).storeList (tokAt 1 n) record))
    else if s.freeBool then
      endEnrol 7 (s.used.used.fuse (0x180 + k) s.used.freeWord)
    else
      let s1 := s.used.fuse (0x180 + k) w
      endEnrol 7 { s1 with undef := (tokAt 0 n, 16, s1.free) :: s1.undef, free := s1.free + 16 }

/-- ENROLMENT_COMPLETE: a revocation is programmed; an enrolment's answer by T_L + 12 ms is judged, and its words are
programmed (R391, R392). An answer that does not satisfy Table 13.6 is passed over until that time. -/
def execEnrolmentComplete (rsp : Option (List Byte)) (programmed : Bool) (peak : Nat) (s : State) : Out :=
  match s.sec.enr with
  | none => .next s
  | some (_, v) =>
    let n := fld v 0 5
    if bit v 5 then .next (revoked n programmed s)
    else if (match rsp with | some bs => enrolAnswer s n bs | none => false) then
      .next (enrolRecords n programmed (enrFrameEnded peak s))
    else if enrLate s then .next (endEnrol 6 (enrFrameEnded peak s))
    else .next s

/-- The reset of SEC's own part: slots, session, jobs, commands (R103, R410, Table 13.9). -/
def resetSec (s : State) : State := { s with sec := {} }

end Sys2Proof.Machine
end

