-- ==== Sys2Proof/Machine/KeyErase.lean ====
section
/-! DEFINITION. Erasing alarms (R421–R423, R426) and the flags of the cipher engine.
The readings and choices it rests on: notes/assumptions/51, 53. -/

namespace Sys2Proof.Machine

/-- A flag of CIPH_EV_FLAG with its routed event (R426). -/
def cipherEvent (k : Nat) (s : State) : State :=
  let s1 := s.setRegBit 0xA42013 k true
  if s1.regBit 0xA42012 (9 + k) then s1.route (s1.reg 0xA42012) else s1

/-- Every key slot and key register, and the cipher buffer, erased (R421). -/
def eraseSlots (s : State) : State :=
  let s1 := { s with sec := { s.sec with slots := [], root := none, kt := none, enrKey := [] } }
  s1.dropRegs fun a => decide (0xA44000 ≤ a) && decide (a < 0xA45000)

/-- A session ends without grant (R382, R397): ABORTED, GRANT 0; a command held for its end may run. -/
def abortSession (s : State) : State :=
  match s.sec.session with
  | none => s
  | some _ =>
    let s1 := { s with sec := { s.sec with session := none } }
    let s2 := (s1.setReg 0xA4100B 0).setReg 0xA4100C 0
    runHeld <| s2.setReg 0xA41008 (putFld (putBit (putBit (putBit (s2.reg 0xA41008) 3 false) 4 false) 5 true) 0 3 0)

/-- A running job ends with a code; its completion is JOB_COMPLETE (R422, R424). -/
def endRunning (code : Nat) (s : State) : State :=
  { s with sec := { s.sec with jobs := s.sec.jobs.map fun e => (e.1, if e.2.run then { e.2 with code := code } else e.2) } }

/-- An erasing alarm acts (R421, R422). -/
def eraseAlarm (b : Nat) (s : State) : State :=
  let s0 := { s with alive := if s.alive.testBit b then s.alive else s.alive + 2 ^ b }
  if !s0.running .sec then s0
  else
    let s1 := abortSession (eraseSlots s0)
    let s2 := endRunning 8 (s1.setRegBit 0xA4200D b true)
    let s3 := { s2 with sec := { s2.sec with ks := s2.sec.ks.map fun k : KsCmd => { k with alarmed := true } } }
    cipherEvent 2 (s3.raise 180 none)

/-- An active source is marked SECURE (R438). -/
def secureActive (s : State) : Bool := s.srcs.any fun e => e.2.active && s.regBit (0xA81100 + e.1) 3

/-- ERASING_ALARM: the condition at the end of its filter; the Sampler's own needs an active source marked SECURE. -/
def execErasingAlarm (a : Fin 5) (s : State) : Out :=
  .next (if a = 4 ∧ !secureActive s then s else eraseAlarm a s)

/-- ALARM_END: a condition ends; after the last SEC loads its root key, K_T and slot 0 again (R423). -/
def execAlarmEnd (a : Fin 5) (s : State) : Out :=
  if !s.alive.testBit a ∨ (a = 4 ∧ secureActive s) then .next s
  else
    let s1 := { s with alive := s.alive - 2 ^ a.val }
    .next (if s1.alive = 0 ∧ s1.running .sec then loadRoot s1 else s1)

end Sys2Proof.Machine
end

