-- ==== Sys2Proof/Machine/Image.lean ====
section
/-! DEFINITION. Image headers, the manifest, the activation journal, busy flash, and the release of a core onto the
active image (R118–R120, R139, R158, R468–R479).
The readings and choices it rests on: notes/assumptions/3, 25, 31, 59, 63, 68. -/

namespace Sys2Proof.Machine

/-! Banks and busy regions (R34, R468, R469). -/

/-- The address of a bank. -/
def bankBase (b : Nat) : Nat := 0x400000 * b
/-- The bank the bank pointer selects. -/
def activeBank (s : State) : Nat := s.upd.bank
/-- The other bank. -/
def inactiveBank (s : State) : Nat := 1 - s.upd.bank
/-- The active settings generation. -/
def activeGen (s : State) : Nat := s.upd.gen
/-- PHASE is TRIAL or AWAIT (R478). -/
def inTrial (s : State) : Bool := decide (s.upd.phase = 2 ∨ s.upd.phase = 3)
/-- A flash or settings operation is in progress. -/
def flashBusy (s : State) : Bool := s.flashOp.isSome || s.upd.preparing
/-- A program flash bank is busy (R34). -/
def bankBusy (s : State) (b : Nat) : Bool :=
  match s.flashOp with
  | some o => decide (o.addr < 0x800000) && decide (o.addr / 0x400000 = b)
  | none => false
/-- A settings generation is busy (R34). -/
def settingsBusyIn (s : State) (g : Nat) : Bool :=
  (match s.flashOp with
    | some o => decide (0x900000 ≤ o.addr) && decide ((o.addr - 0x900000) / 0x10000 = g)
    | none => false) ||
  (s.upd.preparing && decide (g = 1 - activeGen s))
/-- The same. -/
def settingsBusy (s : State) (g : Nat) : Bool := settingsBusyIn s g
/-- The confirmation window of a trial is open (Table 3.7, R486). -/
def healthOpen (s : State) : Bool := inTrial s
/-- The region of a flash word is busy. -/
def regionBusy (s : State) (a : Nat) : Bool :=
  if a < 0x800000 then bankBusy s (a / 0x400000)
  else decide (0x900000 ≤ a) && decide (a < 0x920000) && settingsBusyIn s ((a - 0x900000) / 0x10000)

/-- The bank's verified flag (R118). -/
def verified (s : State) (b : Nat) : Bool := if b = 0 then s.updAon.okA else s.updAon.okB
/-- It set or cleared. -/
def setVerified (b : Nat) (v : Bool) (s : State) : State :=
  { s with updAon := if b = 0 then { s.updAon with okA := v } else { s.updAon with okB := v } }

/-- Words left with undefined contents (R471). -/
def leaveUndefined (a n : Nat) (s : State) : State :=
  if n = 0 then s else { s with undef := (a, n, s.free) :: cutRuns a n s.undef, free := s.free + n }

/-- What an abandoned operation leaves: the page or sector it worked on undefined; of a whole bank or generation the units
before it erased, the others untouched (R471). -/
def abandonOp (o : FlashOp) (s : State) : State :=
  let prog := decide (o.addr < 0x800000)
  match o.op with
  | 1 | 2 => if prog then leaveUndefined (o.addr / 4096 * 4096) 4096 s else leaveUndefined (o.addr / 64 * 64) 64 s
  | 3 =>
    let base := o.addr / 0x400000 * 0x400000
    let k := s.freeBelow 1024
    leaveUndefined (base + 4096 * k) 4096 (s.used.clearMem base (4096 * k))
  | _ =>
    let base := o.addr / 0x10000 * 0x10000
    let k := s.freeBelow 1024
    let p := base + 64 * k
    let s1 := (List.range k).foldl (fun t j => if keptPage j then t else t.clearMem (base + 64 * j) 64) s.used
    if keptPage k then s1 else leaveUndefined p 64 s1
where
  /-- A page of an area kept identical in both generations (Table 17.1). -/
  keptPage (k : Nat) : Bool := decide (0xF300 ≤ 64 * k ∧ 64 * k < 0xF600) || decide (0xFC00 ≤ 64 * k ∧ 64 * k < 0xFE00)

/-- A flash or settings operation in progress is abandoned, and so is a PREPARE, which leaves the free generation's own
areas undefined (R122, R471, R477). -/
def abandonFlash (s : State) : State :=
  let s1 := match s.flashOp with
    | some o => { abandonOp o s with flashOp := none }
    | none => s
  if s1.upd.preparing then
    let base := 0x900000 + 0x10000 * (1 - activeGen s1)
    let s2 := leaveUndefined (base + 0xFE00) 0x200 (leaveUndefined (base + 0xF600) 0x600 (leaveUndefined base 0xF300 s1))
    { s2 with upd := { s2.upd with preparing := false } }
  else s1

/-- The reset of MEM's own part; its operation has been abandoned. -/
def resetMem (s : State) : State := { s with memq := [], memTick := 0, memLast := 0 }

/-! Headers (R472, R473). -/

/-- LEN of a header. -/
def headerLen (h : List Word) : Nat := (h.getD 5 0).toNat + 65536 * fld (h.getD 6 0) 0 6
/-- MREF of a header. -/
def headerMref (h : List Word) : Nat := hiLo (h.getD 8 0) (h.getD 7 0)
/-- TYPE of a header. -/
def headerType (h : List Word) : Nat := fld (h.getD 2 0) 0 4
/-- The system identity of OTP (Table 16.5). -/
def sysId (s : State) : Word := s.shadow.get (fun _ => 0#16) 0x143

/-- The constant fields of Table 17.5: MAGIC, FAMILY, FORMAT, a known TYPE and every word or bit required to be 0. -/
def headerForm (h : List Word) : Bool :=
  let w (k : Nat) : Word := h.getD k 0
  decide (w 0 = 0x464C#16) && decide (w 1 = 0x8600#16) && decide (fld (w 2) 4 12 = 1) &&
  decide (1 ≤ headerType h ∧ headerType h ≤ 6) && decide (fld (w 6) 6 10 = 0) &&
  (if headerType h = 1 then decide (fld (w 9) 2 14 = 0) else decide (w 9 = 0#16)) &&
  ((h.drop 0x0C).take 0x24).all (· = 0#16)
/-- LEN is of Table 17.6. -/
def headerLenOk (h : List Word) : Bool :=
  let n := headerLen h
  match headerType h with
  | 1 | 5 => decide (1 ≤ n ∧ n ≤ 0x3EFFC0)
  | 2 => decide (1 ≤ n ∧ n % 1024 = 0 ∧ n ≤ 0x3EFFC0)
  | 3 => decide (n = 1536)
  | 4 => decide (n = 512)
  | 6 => decide (16 ≤ n ∧ n % 8 = 0 ∧ n ≤ 0xFFC0)
  | _ => false
/-- KID is that of slot 0, which is not empty. -/
def headerKid (s : State) (h : List Word) : Bool :=
  match s.slot 0 with
  | some k => decide (h.getD 0x0A 0 = k.kid)
  | none => false
/-- HCMAC verifies under slot 0. -/
def headerMac (s : State) (h : List Word) : Bool :=
  match bootMac s (bytesOf (h.take 0x38)) with
  | some m => decide (m = bytesOf ((h.drop 0x38).take 8))
  | none => false
/-- PCMAC verifies over a payload in flash. -/
def payloadMac (s : State) (h : List Word) (a : Nat) : Bool :=
  let n := headerLen h
  match bootMac s (bytesOf (s.memList a n)) with
  | some m => decide (m = bytesOf ((h.drop 0x30).take 8)) && !s.anyDbe a n
  | none => false
/-- Every field of a header of a type holds, and its HCMAC (R473). -/
def headerGood (s : State) (t : Nat) (h : List Word) : Bool :=
  headerForm h && decide (headerType h = t) && headerLenOk h && decide (h.getD 0x0B 0 = sysId s) && headerKid s h && headerMac s h

/-- The header of the core code part in a bank. -/
def bankHeader (s : State) (b : Nat) : List Word := s.memList (bankBase b) 64
/-- The header check of R118. -/
def headerOk (s : State) (b : Nat) : Bool := !s.anyDbe (bankBase b) 64 && headerGood s 1 (bankHeader s b)
/-- The payload verification of R118. -/
def payloadOk (s : State) (b : Nat) : Bool := headerOk s b && payloadMac s (bankHeader s b) (bankBase b + 0x40)

/-- Each core island takes its pairing from the core-mode word of the image header (R120). -/
def setPairing (b : Nat) (s : State) : State :=
  let w := (bankHeader s b).getD 9 0
  let s1 := (s.setRegBit 0xA8FD00 0 (bit w 0)).setRegBit 0xA8FE00 0 (bit w 1)
  { s1 with pairedA := bit w 0, pairedB := bit w 1 }

/-! The manifest (R475). -/

/-- The bank that holds the manifest in force: the inactive one before a trial, the active one during it and once it is
confirmed, while the coordinator still sends its decision. -/
def manifestBank (s : State) : Nat :=
  if inTrial s ∨ (s.upd.phase = 0 ∧ s.upd.outcome = 1 ∧ s.upd.dec = 2) then activeBank s else inactiveBank s
/-- The address of a bank's manifest. -/
def manifestAt (b : Nat) : Nat := bankBase b + 0x3F0000
/-- A word of the manifest's payload in force. -/
def manifestWord (s : State) (k : Nat) : Word := s.memWord (manifestAt (manifestBank s) + 0x40 + k)
/-- A closed manifest stands in a bank. -/
def manifestGood (s : State) (b : Nat) : Bool :=
  !s.anyDbe (manifestAt b) 64 && headerGood s 6 (s.memList (manifestAt b) 64)
/-- COORD. -/
def coordOf (s : State) : Nat := fld (manifestWord s 0) 0 9
/-- WINDOW in seconds. -/
def windowOf (s : State) : Nat :=
  let w := (manifestWord s 3).toNat
  if w = 0 then 30 else Nat.min w 600
/-- PREP_T in seconds. -/
def prepTime (s : State) : Nat :=
  let w := (manifestWord s 5).toNat
  if w = 0 then 10 else w
/-- ORPHAN_T in seconds. -/
def orphanTime (s : State) : Nat := clampN 60 3600 (manifestWord s 6).toNat
/-- WRES. -/
def wresOf (s : State) : Nat := fld (manifestWord s 4) 0 2

/-- An entry of a manifest (Table 17.8). -/
structure Entry where
  dev : Nat
  type : Nat
  off : Nat
  len : Nat
  ver : Nat
  tag : Word
  deriving DecidableEq, Repr

/-- Entry `e` of the manifest of a bank. -/
def entryAt (s : State) (b e : Nat) : Entry :=
  let w (k : Nat) : Word := s.memWord (manifestAt b + 0x40 + 0x10 + 8 * e + k)
  { dev := fld (w 0) 0 9, type := fld (w 0) 9 4, off := (w 1).toNat + 65536 * fld (w 2) 0 6,
    len := (w 3).toNat + 65536 * fld (w 4) 0 6, ver := hiLo (w 6) (w 5), tag := w 7 }
/-- The entries of the manifest of a bank. -/
def entries (s : State) (b : Nat) : List Entry :=
  (List.range (s.memWord (manifestAt b + 0x42)).toNat).map (entryAt s b)
/-- The devices of the manifest in force, ascending (R475). -/
def manifestDevs (s : State) : List Nat :=
  let es := entries s (manifestBank s)
  (List.range 512).filter fun d => es.any fun e => decide (e.dev = d)

/-- The own device ID, where it is valid (LNK_ID). -/
def ownId (s : State) : Option Nat := if s.regBit 0xA60000 11 then some (s.regFld 0xA60000 0 9) else none

/-! The journal (R476), read and written as the retirement areas are (R209, R210). -/

/-- The journal's address in a generation. -/
def journalAt (g : Nat) : Nat := 0x90F300 + 0x10000 * g
/-- A half's condition: 0 unused, 1 valid, 2 failed. -/
def journalHalf (s : State) (a : Nat) : Nat :=
  let w (k : Nat) : Word := s.memWord (a + k)
  if w 0 ≠ 0x4A52#16 then 0
  else if crc16 [w 1, w 4, w 5, w 6, w 7] = w 2 ∧ !s.anyDbe a 128 then 1 else 2
/-- The records of a half, and whether a broken one ends them. -/
def journalRecords : Nat → List Word → List (List Word) × Bool
  | 0, _ => ([], false)
  | n + 1, ws =>
    let r := ws.take 4
    let w0 := r.getD 0 0
    if w0 = 0xFFFF#16 then ([], false)
    else if r.getD 3 0 = w0 ^^^ 0xFFFF#16 ∧ 1 ≤ fld w0 12 4 ∧ fld w0 12 4 ≤ 0xB then
      let (rs, b) := journalRecords n (ws.drop 4)
      (r :: rs, b)
    else ([], true)

/-- A half read. -/
structure Journal where
  half : Nat
  seq : Nat
  base : List Word
  recs : List (List Word)
  broken : Bool
  deriving DecidableEq, Repr

/-- Half `h` of the journal of a generation. -/
def readJournalHalf (s : State) (g h : Nat) : Journal :=
  let a := journalAt g + 128 * h
  let (rs, b) := journalRecords 30 (s.memList (a + 8) 120)
  ⟨h, (s.memWord (a + 1)).toNat, s.memList (a + 4) 3, rs, b⟩

/-- Sequence b is later than sequence a (R209). -/
def seqLater (a b : Nat) : Bool :=
  if b = a + 1 ∨ (a = 0xFFFE ∧ b = 1) then true
  else if a = b + 1 ∨ (b = 0xFFFE ∧ a = 1) then false
  else decide (a < b)

/-- The active half of a generation's journal. -/
def readJournal (s : State) (g : Nat) : Option Journal :=
  let v0 := decide (journalHalf s (journalAt g) = 1)
  let v1 := decide (journalHalf s (journalAt g + 128) = 1)
  let h0 := readJournalHalf s g 0
  let h1 := readJournalHalf s g 1
  if v0 && v1 then
    if h0.seq = h1.seq then (if h0.recs.length < h1.recs.length then some h1 else some h0)
    else if seqLater h0.seq h1.seq then some h1 else some h0
  else if v0 then some h0
  else if v1 then some h1
  else none

/-- A journal record: TYPE, BANK, GEN, MREF (R476). -/
def journalRecord (type bank gen mref : Nat) : List Word :=
  let w0 := pack [(10, gen), (11, bank), (12, type)]
  [w0, w16 mref, w16 (mref / 65536), w0 ^^^ 0xFFFF#16]

/-- A record applied to the activation state (Tables 17.9 and 17.10). -/
def applyRecord (u : UpdRec) (r : List Word) : UpdRec :=
  let w0 := r.getD 0 0
  let mref := hiLo (r.getD 2 0) (r.getD 1 0)
  let b := fld w0 11 1
  let g := fld w0 10 1
  match fld w0 12 4 with
  | 1 => { u with phase := 1, mref := mref, outcome := 0, boots := 0, dec := 0, afterC := false }
  | 2 => { u with phase := 2, bank := b, gen := g, boots := 0 }
  | 3 => { u with boots := u.boots + 1 }
  | 4 => { u with phase := 3 }
  | 5 => { u with phase := 0, outcome := 1 }
  | 6 => { u with phase := 0, outcome := 2, bank := 1 - u.bank, gen := 1 - u.gen }
  | 7 => { u with phase := 0, outcome := 3 }
  | 8 => { u with dec := 1 }
  | 9 => { u with dec := 2 }
  | 0xA => { u with dec := 3, afterC := decide (u.dec = 1) || u.afterC }
  | 0xB => { u with bank := b }
  | _ => u

/-- The activation state a journal half holds: its base state with its records applied. -/
def Journal.state (j : Journal) : UpdRec :=
  let w := j.base.getD 0 0
  let mref := hiLo (j.base.getD 2 0) (j.base.getD 1 0)
  j.recs.foldl applyRecord
    { bank := fld w 0 1, gen := fld w 1 1, phase := fld w 2 2, outcome := fld w 4 2, mref := mref, baseMref := mref,
      baseOutcome := fld w 4 2 }

/-- A record written into one generation, or a compaction in its place: the other half erased, the state with the record
applied as its base, the magic last (R210). -/
def programJournal (g : Nat) (r : List Word) (u : UpdRec) (s : State) : State :=
  match readJournal s g with
  | some j =>
    if j.recs.length < 30 ∧ !j.broken then s.storeList (journalAt g + 128 * j.half + 8 + 4 * j.recs.length) r
    else compactTo (1 - j.half) (if j.seq = 0xFFFE then 1 else j.seq + 1)
  | none => compactTo 0 1
where
  /-- A half with a base state. -/
  compactTo (h seq : Nat) : State :=
    let a := journalAt g + 128 * h
    let base := [pack [(0, u.bank), (1, u.gen), (2, u.phase), (4, u.outcome)], w16 u.mref, w16 (u.mref / 65536), 0#16]
    (s.clearMem a 128).storeList a ([0x4A52#16, w16 seq, crc16 (w16 seq :: base), 0#16] ++ base)

/-- The flag of UPD_EV_FLAG with its routed event (R487). -/
def updEvent (k : Nat) (s : State) : State :=
  let s1 := s.setRegBit 0xA8200F k true
  if s1.regBit 0xA8200E (9 + k) then s1.route (s1.reg 0xA8200E) else s1

/-- A record programmed in generation 0 and then in generation 1, and the state it leads to; a change of PHASE is flagged
(R476, R487). -/
def journalPut (type bank gen mref : Nat) (s : State) : State :=
  let r := journalRecord type bank gen mref
  let u := applyRecord s.upd r
  let s1 := programJournal 1 r u (programJournal 0 r u (memBurst .sup 2 2 s))
  let b := match readJournal s1 0 with
    | some j => j.state
    | none => u
  let s2 := { s1 with upd := { u with baseMref := b.baseMref, baseOutcome := b.baseOutcome } }
  let s3 := if s.upd.phase ≠ u.phase then updEvent 1 s2 else s2
  if 8 ≤ type ∧ type ≤ 0xA then updEvent 2 s3 else s3

/-- SUP's activation state reads `n` words through its requester; a double-bit error among them is raised as SUP's memory
error (R35, Table 1.10). -/
def updRead (a n : Nat) (s : State) : State :=
  let s1 := memBurst .sup 2 ((n + 7) / 8) s
  if s.anyDbe a n then s1.raiseHeld 1 none else s1

/-- The fallback is taken: REVERT in the journal, the window over, a report to the coordinator due (R479). -/
def revertRecord (s : State) : State :=
  let s1 := journalPut 6 (1 - s.upd.bank) (1 - s.upd.gen) s.upd.mref s
  { s1 with updAon := { s1.updAon with ran := 0, since := none, report := true } }

/-- At bring-up SUP forms the journal's state from one generation and writes the other to match; in TRIAL it writes BOOT,
or REVERT once WRES + 1 BOOT records stand since COMMIT (R476, R479). A coordinator resumes at the step its journal
records (R482). -/
def formJournal (s0 : State) : State :=
  let s := updRead (journalAt 1) 256 (updRead (journalAt 0) 256 s0)
  let j0 := readJournal s 0
  let j1 := readJournal s 1
  let pick : Nat := match j0, j1 with
    | some a, some b =>
      if a.seq ≠ b.seq then (if seqLater a.seq b.seq then 1 else 0)
      else if a.recs.length < b.recs.length then 1 else 0
    | none, some _ => 1
    | _, _ => 0
  let s1 :=
    if s.memList (journalAt 0) 256 = s.memList (journalAt 1) 256 then s
    else s.storeList (journalAt (1 - pick)) (s.memList (journalAt pick) 256)
  let u : UpdRec := match readJournal s pick with
    | some j => j.state
    | none => {}
  let s2 := { s1 with upd := { u with
    formed := true, wait := (if u.phase = 1 then [10] else if u.phase = 3 then [5] else []),
    step := (match u.dec with | 1 => 2 | 2 => 3 | 3 => (if u.afterC then 4 else 2) | _ => 0) } }
  if u.phase = 2 then
    if wresOf s2 + 1 ≤ s2.upd.boots then revertRecord s2 else journalPut 3 s2.upd.bank s2.upd.gen s2.upd.mref s2
  else s2

/-- The bank pointer set to the other bank under R119: SWITCH in the journal, or in TRIAL the revert of R479. -/
def setActiveBank (b : Nat) (s : State) : State :=
  if s.upd.phase = 2 then revertRecord s else journalPut 0xB b s.upd.gen s.upd.mref s

/-- A run time so far. -/
def runTime (s : State) (ran : Nat) (since : Option Nat) : Nat := ran + (match since with | some t => s.now - t | none => 0)

/-- Programs take over: the run times go on that count, the window's in TRIAL, that since the vote while PREPARED, the
coordinator's after DECIDE_C (R478, R479, R482). -/
def trialBoot (s : State) : State :=
  let u := s.updAon
  let go (b : Bool) (t : Option Nat) : Option Nat := if b && t.isNone then some s.now else t
  { s with updAon := { u with
    since := go (decide (s.upd.phase = 2)) u.since, voteSince := go (decide (s.upd.phase = 1) && u.voted) u.voteSince,
    coordSince := go (decide (s.upd.dec = 1)) u.coordSince } }

/-- The cores stop: the run times stop (R479). -/
def trialPause (s : State) : State :=
  let u := s.updAon
  { s with updAon := { u with
    ran := runTime s u.ran u.since, since := none, voteRan := runTime s u.voteRan u.voteSince, voteSince := none,
    coordRan := runTime s u.coordRan u.coordSince, coordSince := none } }

/-- UPD_LEFT. -/
def updLeft (s : State) : Nat :=
  if s.upd.phase = 2 then windowOf s - runTime s s.updAon.ran s.updAon.since / 1000000 else 0

/-! The release of a core (R120, R134, R139, R158). -/

/-- TIMEOUT and WINDOW of a core's WDG_CTRL; TIMEOUT 0 is read as 1. -/
def wdgSettings (s : State) (c : Nat) : Nat × Nat :=
  let b := s.block c
  (Nat.max 1 (s.regFld (b + 0x1F) 0 12), s.regFld (b + 0x1F) 12 3)

/-- The watchdog loads (R158). -/
def loadWatchdog (c : Nat) (s : State) : State :=
  let (t, w) := wdgSettings s c
  s.modCore c fun k => { k with wdgTo := t, wdgWin := w, wdgAt := s.now, wdgFrozen := none, wdgHalf := false, wdgWarned := false }

/-- The watchdog's count now (R158). -/
def wdgCount (s : State) (c : Nat) : Nat :=
  let k := s.core c
  match k.wdgFrozen with
  | some n => n
  | none => k.wdgTo - (s.now - k.wdgAt) / 64

/-- The watchdog of a core stops counting. -/
def freezeWatchdog (c : Nat) (s : State) : State :=
  s.modCore c fun k => if k.wdgFrozen.isSome then k else { k with wdgFrozen := some (wdgCount s c) }

/-- A core is released onto the active image: its boot descriptors, FC and PC from entry 0 of the event table, its
watchdog loaded (R120, R139, R158). -/
def releaseCore (c : Nat) (s : State) : State :=
  let base := bankBase (activeBank s) + 0x40
  let own (hi : Nat) : Word := w16 (hi % 256 + 256 * 2 ^ (c % 8))
  let d0 := [w16 base, own (base / 65536), 0xFFFF#16, 0x8005#16]
  let d1 := [0x0000#16, own 0x8C, 0x7FFF#16, 0x8003#16]
  let desc : Sparse Word := ((d0 ++ d1).zipIdx).foldl (fun m e => m.set (fun _ => 0#16) e.2 e.1) []
  let k := s.core c
  let s1 := s.setCore c { k with
    st := .running, desc := desc, ckDesc := desc, cycBase := s.now, since := 0, log := [],
    r := { ({} : Regs) with pc := s.memWord base, fc := loByte (s.memWord (base + 1)) },
    ckpt := { ({} : Regs) with pc := s.memWord base, fc := loByte (s.memWord (base + 1)) } }
  loadWatchdog c s1

end Sys2Proof.Machine
end

