-- ==== Sys2Proof/Machine/LinkSend.lean ====
section
/-! DEFINITION. Stitches on the Bobbin link: their words, ports and outputs, routes, discovery stitches sent, requests
of the local agent (R447–R463).
The readings and choices it rests on: notes/assumptions/12, 21, 54, 55, 56, 58, 66. -/

namespace Sys2Proof.Machine

/-! Words of a stitch (R449). -/

/-- Eight shifts of the CRC-32 of R449. -/
def crc32Shift : Nat → BitVec 32 → BitVec 32
  | 0, c => c
  | n + 1, c => crc32Shift n (if c.msb then (c <<< 1) ^^^ 0x04C11DB7#32 else c <<< 1)
/-- The CRC-32 of R449 over words, each most significant bit first. -/
def crc32 (ws : List Word) : BitVec 32 :=
  ws.foldl (fun c w => crc32Shift 16 (c ^^^ (w ++ (0#16 : Word) : BitVec 32))) 0xFFFFFFFF#32
/-- Header and payload words (Table 16.2). -/
def stitchBody (t : Stitch) : List Word :=
  [pack [(0, t.dest.toNat), (9, b2n t.bc), (10, t.type.toNat)], pack [(0, t.src.toNat), (9, t.hop.toNat)],
   pack [(0, t.tag.toNat), (8, t.len.toNat), (12, t.status.toNat)], w16 t.addr.toNat,
   pack [(0, t.addr.toNat / 65536), (8, t.seq.toNat)]] ++ padTo 0#16 8 (t.payload.take t.len.toNat)
/-- Words 0 to 14 of a stitch on the wire. -/
def stitchWords (t : Stitch) : List Word :=
  let c := crc32 (stitchBody t)
  stitchBody t ++ [(c >>> 16).setWidth 16, c.setWidth 16]

/-- The link word before a stitch: its link sequence, the last one received with a good CRC, the credits returned (R450). -/
def linkWord (r : LPort) (seq : Nat) : Word :=
  pack [(0, seq), (4, r.rxSeq), (8, Nat.min 15 r.owedReq), (12, Nat.min 15 r.owedResp)]

/-- A type of the response class (Table 16.3). -/
def isResponse (t : Nat) : Bool := t ∈ [3, 4, 6, 8, 0xA, 0xB]

/-! Ports. -/

/-- A port's record. -/
def State.lport (s : State) (p : Nat) : LPort := s.lnk.ports.get (fun _ => {}) p
/-- A port's record written. -/
def State.setLport (s : State) (p : Nat) (r : LPort) : State :=
  { s with lnk := { s.lnk with ports := s.lnk.ports.set (fun _ => {}) p r } }
/-- PCFG_p. -/
def pcfg (p : Nat) : Nat := 0xA60010 + 8 * p
/-- PSTAT_p. -/
def pstat (p : Nat) : Nat := 0xA60011 + 8 * p
/-- The port is UP. -/
def portUp (s : State) (p : Nat) : Bool := s.running .lnk && s.regBit (pstat p) 0
/-- The four ports. -/
def fourPorts : List Nat := [0, 1, 2, 3]

/-- A flag of LNK_EV_FLAG with its routed event (R467): 0 MBX, 1 PORT, 2 DISC, 3 DONE, 4 ERR. -/
def linkEvent (k : Nat) (s : State) : State :=
  let s1 := s.setRegBit 0xA6000C k true
  if s1.regBit 0xA6000B (9 + k) then s1.route (s1.reg 0xA6000B) else s1

/-- The 12-bit tick of the routers, one step in 40 ns (R457). -/
def stitchTick (s : State) : Nat := s.now * 25 % 4096

/-- A stitch queued at an output. -/
def enqueue (inp p : Nat) (t : Stitch) (s : State) : State :=
  let r := s.lport p
  s.setLport p { r with q := r.q ++ [⟨inp, stitchTick s, t⟩] }

/-- The class and the input of two waiting stitches are the same: they stand in one queue of the output (R457). -/
def sameQueue (a b : OutEnt) : Bool :=
  decide (a.inp = b.inp) && (isResponse a.st.type.toNat == isResponse b.st.type.toNat)

/-- A queue holds 4 stitches: behind the one that leaves, the stitch that now enters as its fourth takes its stamp (R457). -/
def refill (tick : Nat) (e : OutEnt) : Nat → List OutEnt → List OutEnt
  | _, [] => []
  | n, x :: r =>
    if !sameQueue e x then x :: refill tick e n r
    else match n with
      | 0 => { x with stamp := tick } :: r
      | k + 1 => x :: refill tick e k r

/-- What an output sends next: the classes take turns where both wait; within one, the oldest head, round-robin from the
input after the one served last between equal ages (R43, R457). -/
def nextOut (tick : Nat) (r : LPort) : Option OutEnt :=
  let resp := r.q.filter fun e => isResponse e.st.type.toNat
  let req := r.q.filter fun e => !isResponse e.st.type.toNat
  let cls := if resp.isEmpty then req else if req.isEmpty then resp else if r.lastResp then req else resp
  let heads := (List.range 5).filterMap fun k =>
    let i := (r.rr + 1 + k) % 5
    cls.find? fun e => decide (e.inp = i)
  let age (e : OutEnt) : Nat := (tick + 4096 - e.stamp) % 4096
  heads.foldl (fun best e => match best with
    | none => some e
    | some b => if age b < age e then some e else some b) none

/-- The stitch time of a port's medium in ns (Table 16.1). -/
def stitchTime (s : State) (p : Nat) : Nat := if s.regBit (pstat p) 1 then 1280 else 320

/-- A stitch on the wire behind its link word, which returns the credits due (R449, R450). -/
def putLine (p seq : Nat) (t : Stitch) (s : State) : State :=
  let r := s.lport p
  (s.setLport p { r with owedReq := r.owedReq - 15, owedResp := r.owedResp - 15 }).send (.stitch p (linkWord r seq :: stitchWords t))

/-- An output sends what its line has time for until now: at most `n` stitches, at most 8 unacknowledged (R450). A port that
has trained but is not UP has only HELLO to send (R454). -/
def transmit (p : Nat) : Nat → State → State
  | 0, s => s
  | n + 1, s =>
    let r := s.lport p
    if !s.running .lnk ∨ !r.trained ∨ 8 ≤ r.unacked.length ∨ s.now * 1000 < r.freeAt + stitchTime s p then s
    else match nextOut (stitchTick s) r with
      | none => s
      | some e =>
        let start := Nat.max r.freeAt (s.now * 1000 - 1000)
        let r1 := { r with
          q := refill (stitchTick s) e 3 (r.q.erase e), lastResp := isResponse e.st.type.toNat, rr := e.inp,
          freeAt := start + stitchTime s p, txSeq := (r.txSeq + 1) % 16, unacked := r.unacked ++ [(r.txSeq, e.st)],
          ackAt := if r.unacked.isEmpty then s.now else r.ackAt }
        let s1 := putLine p r.txSeq e.st (s.setLport p r1)
        transmit p n (if e.st.type = 9 ∧ e.inp = 4 then s1.setRegBit 0xA6000F 0 true else s1)

/-- The neighbour's idle link words acknowledge what it has received, 2 µs after it was sent unless it is sent again, and the
outputs go on sending (R450). -/
def linkTick (s : State) : State :=
  if !s.running .lnk then s
  else fourPorts.foldl (fun t p =>
    let r := t.lport p
    if !r.trained then t
    else
      let quiet := decide (r.ackAt + 2 ≤ t.now)
      transmit p 4 (if !r.unacked.isEmpty && quiet then t.setLport p { r with unacked := [], rounds := 0, ackAt := t.now } else t)) s

/-! Routes (R455). -/

/-- RT_d: the output port towards a device. -/
def routeTo (s : State) (d : Nat) : Option Nat :=
  if d < 512 ∧ s.regBit (0xA61000 + d) 2 then some (s.regFld (0xA61000 + d) 0 2) else none

/-- The neighbours of a device by the LINKS heard: both ends name each other. -/
def nbrsOf (ls : List Links) (d : Nat) : List Nat :=
  match ls.find? fun l => decide (l.id = d) with
  | none => []
  | some l => (l.nbrs.filterMap id).filter fun n => ls.any fun m => decide (m.id = n) && m.nbrs.contains (some d)

/-- One step of a breadth-first search: distances so far, those reached in `k` steps. -/
def spread (ls : List Links) : Nat → Nat → List (Nat × Nat) → List (Nat × Nat)
  | 0, _, ds => ds
  | n + 1, k, ds =>
    let new := (ds.filter fun e => decide (e.2 = k)).flatMap fun e => nbrsOf ls e.1
    let add := (new.eraseDups).filter fun d => !(ds.any fun e => decide (e.1 = d))
    spread ls n (k + 1) (ds ++ add.map fun d => (d, k + 1))

/-- Devices reachable from `d` with their distances. -/
def reach (ls : List Links) (d : Nat) : List (Nat × Nat) := spread ls 512 0 [(d, 0)]

/-- A device's level: its distance from the root (R455). -/
def levelIn (lv : List (Nat × Nat)) (d : Nat) : Nat := match lv.find? fun e => decide (e.1 = d) with | some e => e.2 | none => 0

/-- A link from `a` to `b` is up (R455). -/
def linkUp (lv : List (Nat × Nat)) (a b : Nat) : Bool :=
  decide (levelIn lv b < levelIn lv a) || (decide (levelIn lv a = levelIn lv b) && decide (b < a))

/-- Legal paths one link further: a device with whether up links are still allowed, and the length reached. -/
def legalSpread (ls : List Links) (lv : List (Nat × Nat)) : Nat → Nat → List ((Nat × Bool) × Nat) → List ((Nat × Bool) × Nat)
  | 0, _, ds => ds
  | n + 1, k, ds =>
    let new := (ds.filter fun e => decide (e.2 = k)).flatMap fun e =>
      (nbrsOf ls e.1.1).filterMap fun b =>
        if linkUp lv e.1.1 b then (if e.1.2 then some (b, true) else none) else some (b, false)
    let add := (new.eraseDups).filter fun d => !(ds.any fun e => decide (e.1 = d))
    legalSpread ls lv n (k + 1) (ds ++ add.map fun d => (d, k + 1))

/-- The lengths of the shortest legal paths whose first link is the one on a port of `own`. -/
def legalFrom (ls : List Links) (lv : List (Nat × Nat)) (own nbr : Nat) : List ((Nat × Bool) × Nat) :=
  if (nbrsOf ls own).contains nbr then legalSpread ls lv 15 1 [((nbr, linkUp lv own nbr), 1)] else []

/-- The routes of a device: for each other device the port and the length (R455). -/
def routesOf (ls : List Links) (own : Nat) : List (Nat × Nat × Nat) :=
  let ds := reach ls own
  let root := (ds.map (·.1)).foldl Nat.min own
  let lv := reach ls root
  let nb := match ls.find? fun l => decide (l.id = own) with | some l => l.nbrs | none => []
  let from_ (p : Nat) := match nb.getD p none with | some n => legalFrom ls lv own n | none => []
  let best (d : Nat) : Option (Nat × Nat × Nat) := fourPorts.foldl (fun b p =>
    match ((from_ p).filter fun e => decide (e.1.1 = d)).map (·.2) with
    | [] => b
    | x :: xs =>
      let len := xs.foldl Nat.min x
      match b with
      | some (_, _, l) => if len < l then some (d, p, len) else b
      | none => some (d, p, len)) none
  (ds.filter fun e => decide (e.1 ≠ own)).filterMap fun e => best e.1

/-- Own LINKS as its ports stand. -/
def ownLinks (s : State) (id : Nat) : Links :=
  { id := id, serial := (Config.serial >>> 16).toNat,
    nbrs := fourPorts.map fun p => if s.regBit (pstat p) 0 ∧ s.regBit (pstat p) 13 then some (s.regFld (pstat p) 4 9) else none }

/-- All LINKS known, own ones included. -/
def allLinks (s : State) : List Links :=
  match ownId s with
  | some id => ownLinks s id :: s.lnk.devs.filter fun l => decide (l.id ≠ id)
  | none => []

/-- The root of the system as this device knows it. -/
def rootOf (s : State) (own : Nat) : Nat := ((reach (allLinks s) own).map (·.1)).foldl Nat.min own

/-- The routes recomputed: RT_d, LNK_DEVS and LNK_STAT.ROOT; a device whose route changed under an unanswered request has
its new requests held (R455, R456). -/
def reroute (s : State) : State :=
  let rts := match ownId s with
    | some id => routesOf (allLinks s) id
    | none => []
  let word (d : Nat) : Word := match rts.find? fun e => decide (e.1 = d) with
    | some (_, p, l) => pack [(0, p), (2, 1), (3, l)]
    | none => 0#16
  let changed := (s.lnk.reqs.map (·.dev)).filter fun d => decide (word d ≠ s.reg (0xA61000 + d))
  let s1 := s.dropRegs fun a => decide (0xA61000 ≤ a) && decide (a < 0xA61200)
  let s2 := rts.foldl (fun t e => t.setReg (0xA61000 + e.1) (word e.1)) s1
  let n := match ownId s with | some _ => rts.length + 1 | none => 0
  let isRoot := match ownId s with | some id => decide (rootOf s id = id) | none => false
  let s3 := (s2.setReg 0xA60006 (w16 n)).setRegBit 0xA60005 3 isRoot
  { s3 with lnk := { s3.lnk with moved := (s3.lnk.moved ++ changed).eraseDups } }

/-! Sending. -/

/-- A stitch of the local agent for a device: to itself, or on its route; nowhere without one. -/
def sendStitch (t : Stitch) (s : State) : State :=
  if ownId s = some t.dest.toNat then { s with lnk := { s.lnk with selfq := s.lnk.selfq ++ [t] } }
  else match routeTo s t.dest.toNat with
    | some p => enqueue 4 p t s
    | none => s

/-- An empty stitch of a type from this device. -/
def stitchFrom (s : State) (type dest : Nat) : Stitch :=
  { dest := BitVec.ofNat 9 dest, bc := false, type := BitVec.ofNat 4 type, src := BitVec.ofNat 9 ((ownId s).getD 0), hop := 0,
    tag := 0, len := 0, status := 0, addr := 0, seq := 0, payload := [] }

/-- The device can be reached: it is itself, or has a route; and the own ID is valid. -/
def reachable (s : State) (d : Nat) : Bool := s.running .lnk && (ownId s).isSome && (ownId s == some d || (routeTo s d).isSome)

/-- Requests unanswered or held. -/
def openRequests (s : State) : Nat := s.lnk.reqs.length + s.lnk.held.length

/-- When a request sent now times out: APR_TOUT in 10 µs units, 0 as 1 (Table 16.11). -/
def requestDue (s : State) : Nat := s.now + 10 * Nat.max 1 (s.regFld 0xA60060 0 8)

/-- A request of the local agent: tagged, recorded, sent, or held while an earlier one to a moved device is unanswered
(R456, R458). -/
def request (kind : ReqKind) (t : Stitch) (s : State) : State :=
  let used := (s.lnk.reqs.map (·.tag)) ++ (s.lnk.held.map (·.1.tag))
  let tag := ((List.range 256).map fun k => (s.lnk.tag + k) % 256).find? fun k => !used.contains k
  match tag with
  | none => s
  | some k =>
    let q : LReq := ⟨k, t.dest.toNat, kind, requestDue s⟩
    let t1 := { t with tag := byte k }
    let s1 := { s with lnk := { s.lnk with tag := (k + 1) % 256 } }
    if s.lnk.moved.contains q.dev ∧ s.lnk.reqs.any (fun e => decide (e.dev = q.dev)) then
      { s1 with lnk := { s1.lnk with held := s1.lnk.held ++ [(q, t1)] } }
    else sendStitch t1 { s1 with lnk := { s1.lnk with reqs := s1.lnk.reqs ++ [q] } }

/-- A request is answered or has timed out: requests held for its device go out once none is unanswered (R456). -/
def requestDone (q : LReq) (s : State) : State :=
  let s1 := { s with lnk := { s.lnk with reqs := s.lnk.reqs.erase q } }
  if s1.lnk.reqs.any fun e => decide (e.dev = q.dev) then s1
  else
    let go := s1.lnk.held.filter fun e => decide (e.1.dev = q.dev)
    let s2 := { s1 with lnk := { s1.lnk with
      held := s1.lnk.held.filter (fun e => decide (e.1.dev ≠ q.dev)), moved := s1.lnk.moved.filter (· ≠ q.dev) } }
    go.foldl (fun t e => sendStitch e.2 { t with lnk := { t.lnk with reqs := t.lnk.reqs ++ [{ e.1 with due := requestDue t }] } }) s2

/-- The target of an address in the remote window: aperture, device, address (R39, R458). -/
def aperture (s : State) (a : Nat) : Nat × Nat × Nat :=
  let k := (a - 0xC00000) / 0x40000
  let c := 0xA60040 + 4 * k
  let base := (s.reg (c + 1)).toNat + 65536 * s.regFld (c + 2) 0 8
  (k, s.regFld c 0 9, (base + (a - 0xC00000) % 0x40000) % 0x1000000)

/-- A failed posted store (R458). -/
def storeFailed (k : Nat) (s : State) : State := linkEvent 4 (s.regInc (0xA60043 + 4 * k))

/-- A store into the remote window as LNK takes it: a WRITE of one word (R458). -/
def remoteStore (a : Nat) (v : Word) (s : State) : State :=
  let (k, d, t) := aperture s a
  if !s.regBit (0xA60040 + 4 * k) 15 ∨ !reachable s d then storeFailed k s
  else request (.store k) { stitchFrom s 2 d with len := 1, addr := BitVec.ofNat 24 t, payload := [v] } s

/-- A load from the remote window: a READ of one word (R458). -/
def remoteLoad (c a : Nat) (s : State) : State :=
  let (_, d, t) := aperture s a
  request (.load c) { stitchFrom s 1 d with len := 1, addr := BitVec.ofNat 24 t } s

/-! Discovery stitches (R453, R454). -/

/-- A discovery stitch with its payload and a new sequence number. -/
def discStitch (s : State) (ws : List Word) : Stitch :=
  { stitchFrom s 0xB 0x1FF with bc := true, len := 8, seq := byte s.lnk.seq, payload := ws }
/-- A discovery stitch on every port that is UP. -/
def flood (ws : List Word) (s : State) : State :=
  let t := discStitch s ws
  let s1 := { s with lnk := { s.lnk with seq := (s.lnk.seq + 1) % 256 } }
  fourPorts.foldl (fun u p => if portUp u p then enqueue 4 p t u else u) s1
/-- Serial words, [15:0] first. -/
def serialWords : List Word := [Config.serial.setWidth 16, (Config.serial >>> 16).setWidth 16, (Config.serial >>> 32).setWidth 16]
/-- HELLO queued at a port (Table 16.6); it goes out whether or not the port is UP yet. -/
def sendHello (p : Nat) (s : State) : State :=
  let ws := [0x0001#16, w16 p] ++ serialWords ++ [sysId s, s.reg 0xA60000 &&& 0x01FF#16 ||| (if (ownId s).isSome then 0x8000#16 else 0#16), 0#16]
  let t := discStitch s ws
  enqueue 4 p t { s with lnk := { s.lnk with seq := (s.lnk.seq + 1) % 256 } }
/-- LINKS flooded by a device with a valid ID. -/
def sendLinks (s : State) : State :=
  match ownId s with
  | none => s
  | some id =>
    let nb := (ownLinks s id).nbrs.map fun n => match n with | some d => w16 (0x8000 + d) | none => 0#16
    flood ([0x0002#16] ++ nb ++ [sysId s] ++ serialWords.drop 1) s
/-- NEGREQ flooded. -/
def sendNegreq (s : State) : State := flood ([0x0003#16, 0#16] ++ serialWords ++ [0#16, 0#16, 0#16]) s
/-- NEGGRANT flooded. -/
def sendNeggrant (serial id : Nat) (s : State) : State :=
  flood [0x0004#16, 0#16, w16 serial, w16 (serial / 65536), w16 (serial / 2 ^ 32), w16 id, 0#16, 0#16] s

/-! Release and ports that fall (R450, R452, R463, R464). -/

/-- The device ID source of OTP: 0 straps, 1 fuses, 2 negotiated (Table 16.5). -/
def idSource (s : State) : Nat :=
  let n := fld (s.shadow.get (fun _ => 0#16) 0x142) 9 2
  if n = 3 then 0 else n

/-- LNK released: its identity words, the ports enabled, discovery from step 1 (R452, R454). DESIGN CHOICE: while the strap
latch is still empty a device that takes its ID from the straps has none, LNK_ID.VALID stays 0 until a later release; R67
names no ID for that case (notes/assumptions/21.md). -/
def releaseLnk (s : State) : State :=
  let src := idSource s
  let id : Option Nat := match src with
    | 1 => some (fld (s.shadow.get (fun _ => 0#16) 0x142) 0 9)
    | 2 => none
    | _ => s.straps.map fun v => v.toNat
  let off := fld (s.shadow.get (fun _ => 0#16) 0x144) 9 4
  let s1 := { s with lnk := { since := s.now, topoAt := some s.now } }
  let s2 := s1.setRegList 0xA60000
    ([pack [(0, id.getD 0), (9, src), (11, b2n id.isSome)]] ++ serialWords ++ [sysId s])
  fourPorts.foldl (fun t p =>
    (t.setReg (pcfg p) (packBits [(0, !off.testBit p)])).setLport p { trainFrom := s.now }) s2

/-- The reset of LNK takes its ports down (R464). -/
def resetLnk (s : State) : State := { s with lnk := {} }

/-- The source of ports that are down, with the lowest one reported (R463). -/
def portSource (s : State) : State :=
  match (fourPorts.filter fun p => s.lnk.down.contains p).head? with
  | some p => s.level 194 true (some p)
  | none => s.level 194 false

/-- The topology has changed: the discovery run ends 1 ms after the last such change (Table 16.7). -/
def topoChanged (s : State) : State := { s with lnk := { s.lnk with topoAt := some s.now } }

/-- A port goes down: what it held is discarded, the routes move away (R450, R463). -/
def dropPort (p : Nat) (s : State) : State :=
  let was := s.regBit (pstat p) 0
  let s1 := (s.setLport p { trainFrom := s.now }).setReg (pstat p) (s.reg (pstat p) &&& 0x0004#16)
  if was then linkEvent 1 (topoChanged (reroute (sendLinks s1))) else s1

/-- Severity 4 on the link-port-down source shuts the port (R463). -/
def shutPort (p : Nat) (s : State) : State := if p < 4 then dropPort p (s.setRegBit (pstat p) 2 true) else s

/-- LNK_RRST (R462). -/
def remoteReset (r : Requester) (v : Word) (s : State) : State :=
  let d := s.regFld 0xA6000D 0 9
  if fld v 8 8 ≠ 0x5A ∨ !coreNamed s 0xA60007 r ∨ ownId s = some d then s.setRegBit 0xA6000F 1 true
  else if !bit v 0 then s
  else sendStitch { stitchFrom s 9 d with len := 1, payload := [0x5A5A#16] } (s.setReg 0xA6000F 0)

/-- A write of CC_GO: the channel command sent (R460). -/
def channelGo (v : Word) (s : State) : State :=
  let d := s.regFld 0xA60080 0 9
  if s.regBit 0xA6008B 0 then s
  else if !reachable s d then linkEvent 3 (s.setReg 0xA6008B (pack [(1, 5)]))
  else
    let a := (s.reg 0xA60081).toNat + 65536 * s.regFld 0xA60082 0 8
    let ws := [s.reg 0xA60083 &&& 0x7FFF#16] ++ s.regList 0xA60084 6 ++ [v]
    request .chan { stitchFrom s 5 d with len := 8, addr := BitVec.ofNat 24 a, payload := ws } (s.setReg 0xA6008B 0x0001#16)

/-- Where a broadcast goes from here: down the tree of levels, or up towards the root (R456). -/
def bcastPorts (s : State) (own : Nat) (up : Bool) : List Nat :=
  let root := rootOf s own
  let lv := reach (allLinks s) root
  if up ∧ own ≠ root then (match routeTo s root with | some p => [p] | none => [])
  else fourPorts.filter fun p => portUp s p && s.regBit (pstat p) 13 && decide (levelIn lv own < levelIn lv (s.regFld (pstat p) 4 9))

/-- A write of MBX_TXGO: the mail sent (R461). -/
def mailGo (v : Word) (s : State) : State :=
  let d := s.regFld 0xA60078 0 9
  let t := { stitchFrom s 7 d with len := 8, addr := BitVec.ofNat 24 (s.regFld 0xA60078 9 3), seq := byte (fld v 0 8),
                                   payload := s.regList 0xA60070 8 }
  if s.regBit 0xA6007A 0 then s
  else if s.regBit 0xA60078 12 then
    match ownId s with
    | none => linkEvent 3 (s.setReg 0xA6007A (pack [(1, 5)]))
    | some own =>
      let s1 := { s with lnk := { s.lnk with bcast := (own, fld v 0 8) :: s.lnk.bcast } }
      linkEvent 3 ((bcastPorts s1 own true).foldl (fun u p => enqueue 4 p { t with dest := 0x1FF, bc := true } u) (s1.setReg 0xA6007A 0))
  else if !reachable s d then linkEvent 3 (s.setReg 0xA6007A (pack [(1, 5)]))
  else request .mail t (s.setReg 0xA6007A 0x0001#16)

/-- PCMD.RESTART: a shut port may train again (R463). -/
def portCommand (p : Nat) (v : Word) (s : State) : State :=
  if bit v 0 && s.regBit (pstat p) 2 then (s.setRegBit (pstat p) 2 false).setLport p { trainFrom := s.now } else s

/-- A write of PCFG: a port that is disabled goes down, one that is enabled begins to train. -/
def portConfig (p : Nat) (v : Word) (s : State) : State :=
  let was := s.regBit (pcfg p) 0
  let s1 := s.plainWrite (pcfg p) v
  if s1.regBit (pcfg p) 0 then (if was then s1 else s1.setLport p { trainFrom := s.now })
  else
    let s2 := dropPort p s1
    portSource { s2 with lnk := { s2.lnk with down := s2.lnk.down.filter (· ≠ p) } }

end Sys2Proof.Machine
end

