-- ==== Sys2Proof/Machine/GateAct.lean ====
section
/-! DEFINITION. ACT's channels: rails, boost and energy, the restart gate, starting and stopping a valve (R262–R288).
The readings and choices it rests on: notes/assumptions/37. -/

namespace Sys2Proof.Machine

/-- A valve's record. -/
def State.valve (s : State) (n : Nat) : Valve := s.valves.get (fun _ => {}) n
/-- A valve's record changed. -/
def State.modValve (s : State) (n : Nat) (f : Valve → Valve) : State :=
  { s with valves := s.valves.set (fun _ => {}) n (f (s.valve n)) }
/-- A bank's record. -/
def State.bank (s : State) (k : Nat) : BankRec := s.banks.get (fun _ => {}) k
/-- A bank's record changed. -/
def State.modBank (s : State) (k : Nat) (f : BankRec → BankRec) : State :=
  { s with banks := s.banks.set (fun _ => {}) k (f (s.bank k)) }
/-- The channel of a valve number. -/
abbrev vl (n : Nat) : ChanRef := ⟨.act, n⟩
/-- The valves of a bank (Table 9.1). -/
def bankValves (k : Nat) : List Nat := (List.range 4).map fun j => 4 * k + j

/-! The boost rail (R273–R280). -/

/-- BST_CTRL, BST_SET and BST_VMIN in force: those of the reset island while a channel of ACT is in hold (Table 4.4,
R290). -/
def boostWords (s : State) : Word × Word × Word :=
  match s.boostKeep with
  | some k => if islHeld .act s then k else (s.reg 0xA1F003, s.reg 0xA1F000, s.reg 0xA1F001)
  | none => (s.reg 0xA1F003, s.reg 0xA1F000, s.reg 0xA1F001)
/-- The VBST set point in 0.1 V. -/
def bstSet (s : State) : Nat := clampN 240 900 (boostWords s).2.1.toNat
/-- The lowest VBST for a peak start in 0.1 V. -/
def bstVmin (s : State) : Nat := Nat.min (boostWords s).2.2.toNat (bstSet s - 20)
/-- The boost runs (R273). -/
def bstRun (s : State) : Bool :=
  bit (boostWords s).1 0 && decide (s.band = .full) && (decide ((s.island .act).st = .run) || (s.boostKeep.isSome && islHeld .act s))
/-- VBST as last measured, in 0.1 V. -/
def bstNow (s : State) : Nat := s.regN 0xA1F005
/-- The recovery ceiling in 0.1 V (R277). -/
def bstCeil (s : State) : Nat := Nat.min (bstSet s + 60) 960
/-- UNDER. -/
def bstUnder (s : State) : Bool := s.regBit 0xA1F004 2
/-- BST_STAT (Table 9.12). -/
def bstStat (s : State) : Word :=
  packBits [(0, bstRun s), (1, decide (98 * bstSet s ≤ 100 * bstNow s) && decide (100 * bstNow s ≤ 102 * bstSet s)),
    (2, bstUnder s), (3, decide (bstCeil s ≤ bstNow s)), (4, s.regBit 0xA1F004 4)]
/-- E_avail in 0.1 mJ (R280): ½ C (V² − V_MIN²), C in µF and voltages in 0.1 V. -/
def bstEavail (s : State) : Nat :=
  if bstNow s < bstVmin s then 0
  else s.regN 0xA1F002 * (bstNow s * bstNow s - bstVmin s * bstVmin s) / 20000

/-- A happening of ACT_EV_FLAG with its routed event (R291); `n` is the channel, `k` the bank it names. -/
def actEvent (f : Nat) (n k : Option Nat) (s : State) : State :=
  let s1 := match n with | some n => s.setRegFld 0xA1F01B 0 4 n | none => s
  let s2 := match k with | some k => s1.setRegFld 0xA1F01B 4 2 k | none => s1
  let s3 := s2.setRegBit 0xA1F01A f true
  if s3.regBit 0xA1F019 (9 + f) then s3.route (s3.reg 0xA1F019) else s3

/-- VBST is measured: UNDER follows BST_VMIN, the time below 90 % of BST_SET runs while the boost does, and FAULT ends
with its condition (R276). -/
def boostMeasure (v : Nat) (s : State) : State :=
  let weak := bstRun s && decide (10 * v < 9 * bstSet s)
  let s0 := { s with boostLow := if weak then some (s.boostLow.getD s.now) else none }
  let s1 := s0.setReg 0xA1F005 (w16 (Nat.min v 0xFFFF))
  let under := decide (v < bstVmin s1)
  let s2 := if under = bstUnder s1 then s1
    else
      let t := (s1.setRegBit 0xA1F004 2 under).level 118 under
      if under then actEvent 2 none none t else t
  if s2.regBit 0xA1F004 4 && (!bstRun s2 || decide (9 * bstSet s2 ≤ 10 * v)) then
    (s2.setRegBit 0xA1F004 4 false).level 119 false
  else s2

/-- The boost stopped: FAULT ends with it. -/
def boostFollow (s : State) : State :=
  if bstRun s then s
  else
    let s1 := { s with boostLow := none }
    if s1.regBit 0xA1F004 4 then (s1.setRegBit 0xA1F004 4 false).level 119 false else s1

/-! Profiles and sets in ACT (R265, R266). -/

/-- ACT accepts OFF, ON and ISLAND. -/
def actModeOk (l : List Word) : Bool := decide (modeOf l ≠ 2)
/-- ACT accepts the valve coil. -/
def actTypeOk (t : Nat) : Bool := decide (t = 4)
/-- The bits of ACT's own staging words (Table 9.4). -/
def actStagingMask (w : Nat) : Word :=
  match w with
  | 0x0C => 0x00FF#16
  | 0x0E => 0x0000#16
  | _ => 0xFFFF#16
/-- The fields of Table 9.3 lie in their ranges. Its reserved bits have no range there and are not checked, as those of
Table 7.10a are not (R16, R199; DEDUCED, notes/assumptions/34). -/
def actProfileOk (p : List Word) : Bool :=
  let i := (wd p 1).toNat
  let h := (wd p 3).toNat
  decide (500 ≤ i) && decide (i ≤ 8000) && decide (h ≤ i) && decide ((wd p 2).toNat ≤ 100) && decide (200 ≤ h) &&
    decide (h ≤ 3000) && decide ((wd p 9).toNat < h)
/-- I_PEAK in mA. -/
def iPeak (c : Chan) : Nat := limitOf (wd c.pf 1).toNat (bit (wd c.set 5) 1) (wd c.set 7).toNat 500 8000
/-- I_HOLD in mA. -/
def iHold (c : Chan) : Nat := limitOf (wd c.pf 3).toNat (bit (wd c.set 5) 0) (wd c.set 6).toNat 200 3000
/-- The hold band around I_HOLD: HYST + 1 times 2.5 % of it, in mA (R270). -/
def holdBand (c : Chan) : Nat := iHold c * (fld (wd c.pf 15) 0 4 + 1) / 40
/-- The length of an ISLAND pulse in µs (Table 9.4). -/
def pulseUs (c : Chan) : Nat := 10 * Nat.max 1 (wd c.act 0x0B).toNat
/-- The longest wait of a start in µs (Table 9.4). -/
def delayUs (c : Chan) : Nat := 10 * Nat.max 1 (fld (wd c.act 0x0C) 0 8)
/-- The start has a peak. -/
def hasPeak (c : Chan) : Bool := decide (wd c.pf 2 ≠ 0)
/-- SRC: the peak runs from the battery rail. -/
def srcBat (c : Chan) : Bool := bit (wd c.pf 14) 8
/-- E_est of a channel, none where it has no estimate (R279). -/
def eEst (s : State) (n : Nat) : Option Nat :=
  let last := s.regN ((vl n).port 0x1F)
  let given := (wd (s.chan (vl n)).act 0x0D).toNat
  if last ≠ 0 then some last else if given ≠ 0 then some given else none

/-! Banks (R268, R285–R287). -/

/-- A channel of the bank that retired with SHORT_GND locks it (R285). -/
def lockedBy (s : State) (k : Nat) : Bool :=
  (bankValves k).any fun n => decide ((s.chan (vl n)).reason ≠ 0) && decide ((s.chan (vl n)).retDiag = 3)
/-- LOCKWHY. -/
def lockWhy (s : State) (k : Nat) : Nat := if lockedBy s k then 1 else if (s.bank k).lock2 then 2 else 0
/-- The rail is held off or locked. -/
def railHeld (s : State) (k : Nat) : Bool :=
  let b := s.bank k
  decide (lockWhy s k ≠ 0) || b.retryAt.isSome || b.hot || (match b.heldBy with
    | some n => (s.chan (vl n)).pause.isSome
    | none => false)
/-- A peak of the bank runs from VBST. -/
def bstPeak (s : State) (k : Nat) : Bool := (bankValves k).any fun n => decide ((s.valve n).ph = .peak) && (s.valve n).fromBst
/-- A valve of the bank is in peak, hold or turn-off. -/
def bankWorks (s : State) (k : Nat) : Bool := (bankValves k).any fun n => decide ((s.valve n).ph ≠ .off)
/-- The 20 µs probe of the rail runs: the rail at BAT, every low side off (R284). -/
def probing (s : State) (k : Nat) : Bool := match (s.bank k).probe with
  | some t => decide (s.now < t + 20)
  | none => false
/-- RAIL (Table 9.6): 0 OFF, 1 BAT, 2 BST. -/
def rail (s : State) (k : Nat) : Nat :=
  if railHeld s k then 0
  else if bstPeak s k then 2
  else if bankWorks s k || probing s k then 1
  else 0
/-- BANK_STAT (Table 9.12). -/
def bankStat (s : State) (k : Nat) : Word :=
  let b := s.bank k
  pack [(0, rail s k), (2, b2n (decide (lockWhy s k ≠ 0))), (3, lockWhy s k), (5, b2n b.nodeLow),
    (8, ((bankValves k).filter fun n => (s.valve n).ph = .peak).length), (12, Nat.min b.bretry 15)]

/-! The restart gate (Table 9.10). -/

/-- The channel is to start: MODE ON and not conducting, or an ISLAND pulse that is due (R265, R282). -/
def actWants (s : State) (n : Nat) : Bool :=
  let c := s.chan (vl n)
  let v := s.valve n
  decide (c.reason = 0) && ((decide (modeOf c.act = 1) && !c.on && !v.gaveUp) || (decide (modeOf c.act = 3) && v.pulse))
/-- The channel is held by its own hold after a reset, or its takeover by the retired channel's (Table 4.4). -/
def actInHold (s : State) (n : Nat) : Bool :=
  let c := s.chan (vl n)
  c.hold || (match c.carries with
    | some r => (s.chan (vl r)).hold
    | none => false)
/-- The first unmet condition of 2 to 6; 0 when none. -/
def actHeld26 (s : State) (n : Nat) : Nat :=
  let c := s.chan (vl n)
  if actInHold s n then 2
  else if c.latch ∨ (s.bank (n / 4)).hot then 3
  else if c.pause.isSome then 4
  else if railHeld s (n / 4) then 5
  else if (s.valve n).ph = .quench then 6
  else 0
/-- The starts that wait with a peak from VBST. -/
def peakQueue (s : State) : List Nat :=
  (List.range 16).filter fun n =>
    let c := s.chan (vl n)
    (s.valve n).due.isSome && hasPeak c && !srcBat c
/-- A waiting peak is older than another: due earlier, or at the same time with the lower index (R281). -/
def peakOlder (s : State) (a b : Nat) : Bool :=
  let x := (s.valve a).due.getD s.now
  let y := (s.valve b).due.getD s.now
  decide (x < y) || (decide (x = y) && decide (a < b))
/-- The peaks that run from VBST. -/
def bstPeaks (s : State) : List Nat := (List.range 16).filter fun n => decide ((s.valve n).ph = .peak) && (s.valve n).fromBst
/-- E_req for a waiting peak; none where a peak concerned has no estimate (R280). -/
def eReq (s : State) (n : Nat) : Option Nat :=
  (bstPeaks s).foldl (fun a m => match a, eEst s m with
    | some t, some e => some (t + (e - (s.valve m).drawn))
    | _, _ => none) (eEst s n)
/-- The energy check passes. -/
def energyOk (s : State) (n : Nat) : Bool :=
  match eReq s n with
  | some e => decide (e ≤ bstEavail s)
  | none => false
/-- The supply band permits the start (condition 1). -/
def actBandOk (s : State) (n : Nat) : Bool :=
  let c := s.chan (vl n)
  let b := lowerBand s (vl n)
  decide (s.band ≠ .over) && (if hasPeak c && !srcBat c then decide (4 ≤ b) else decide (3 ≤ b))
/-- The first unmet condition of Table 9.10, 0 when none. -/
def actGate (s : State) (n : Nat) : Nat :=
  let c := s.chan (vl n)
  let k := n / 4
  let bst := hasPeak c && !srcBat c
  if safeHeld s (vl n) then 11
  else if !actBandOk s n then 1
  else if actHeld26 s n ≠ 0 then actHeld26 s n
  else if srcBat c ∧ rail s k = 2 then 7
  else if bst && (decide (bstNow s < bstVmin s) || bstUnder s) then 8
  else if bst && bstPeak s k && !s.regBit 0xA1F008 k then 9
  else if bst && ((!(bstPeaks s).isEmpty && !energyOk s n) || (peakQueue s).any fun m => decide (m ≠ n) && peakOlder s m n) then 10
  else 0
/-- WAITWHY of STAT_B. -/
def actWhy (s : State) (n : Nat) : Nat := if actWants s n then actGate s n else 0
/-- STAT_B (Table 9.5). -/
def actStatB (s : State) (n : Nat) : Word :=
  s.reg ((vl n).port 0x1E) ||| pack [(10, b2n ((s.valve n).due.isSome && hasPeak (s.chan (vl n)))), (12, actWhy s n)]
/-- PK_QUEUE (Table 9.12). -/
def pkQueue (s : State) : Word :=
  let q := peakQueue s
  match q.find? fun n => q.all fun m => decide (m = n) || peakOlder s n m with
  | some n => pack [(0, q.length), (8, n), (12, 1)]
  | none => 0

/-- A start runs (R269): a peak, or hold at once where INRUSH_WIN is 0. -/
def actStart (n : Nat) (s : State) : State :=
  let c := s.chan (vl n)
  let peak := hasPeak c
  let s1 := s.modValve n fun v => { v with
    ph := if peak then .peak else .hold, fromBst := peak && !srcBat c, drawn := 0, pulse := false,
    firing := decide (modeOf c.act = 3), due := none, at_ := s.now, holdAt := s.now, low := true, lowAt := s.now, path := .none }
  s1.modChan (vl n) fun c => { c with
    on := true, onAt := s.now, retry := false,
    win := if peak then some (iPeak c) else none, winEnd := s.now + 100 * (wd c.pf 2).toNat }

/-- A start whose gate is open is made; where NODELOW is set and the rail would move out of OFF, a probe of 20 µs comes
first (R284). -/
def actGo (n : Nat) (s : State) : State :=
  let k := n / 4
  if !(s.bank k).nodeLow || bankWorks s k then actStart n s
  else match (s.bank k).probe with
    | none => s.modBank k fun b => { b with probe := some s.now }
    | some t => if t + 20 ≤ s.now then actStart n (s.modBank k fun b => { b with probe := none }) else s

/-- A start becomes due once conditions 2 to 6 hold (R282). -/
def actDue (n : Nat) (s : State) : State :=
  if actWants s n ∧ (s.valve n).due.isNone ∧ actHeld26 s n = 0 then s.modValve n fun v => { v with due := some s.now } else s

/-- A start that takes no part in the queue is made where its gate is open; one from VBST waits for the scheduler's
evaluation (R281). -/
def actTry (n : Nat) (s : State) : State :=
  let s1 := actDue n s
  let c := s1.chan (vl n)
  if actWants s1 n ∧ actGate s1 n = 0 ∧ (!hasPeak c ∨ srcBat c) then actGo n s1 else s1

/-- The scheduler looks at a waiting peak: the energy check forms E_req where R281 requires it. -/
def actSchedule (n : Nat) (s : State) : State :=
  let s1 := actDue n s
  if !actWants s1 n then s1
  else
    let g := actGate s1 n
    let bst := hasPeak (s1.chan (vl n)) && !srcBat (s1.chan (vl n))
    let s2 := if bst && (decide (g = 0) || decide (g = 10)) && !(bstPeaks s1).isEmpty then
        (match eReq s1 n with
          | some e => s1.setReg 0xA1F007 (w16 (Nat.min e 0xFFFF))
          | none => s1)
      else s1
    if g = 0 then actGo n s2 else s2

/-- The way a turn-off that begins now quenches its current: at the recovery ceiling through the freewheel path (R277). -/
def quenchPath (s : State) : VlPath := if bstCeil s ≤ bstNow s then .freewheel else .recovery

/-- The stage turns off: a conducting valve quenches (R272, R277); a waiting start and its probe are dropped. -/
def actStop (n : Nat) (s : State) : State :=
  let v := s.valve n
  let s0 := if v.due.isSome then s.modBank (n / 4) fun b => { b with probe := none } else s
  if v.ph = .peak ∨ v.ph = .hold then
    let s1 := s0.modValve n fun v => { v with
      ph := .quench, fromBst := false, firing := false, pulse := false, due := none,
      low := false, lowAt := s.now, path := quenchPath s }
    s1.setRegBit ((vl n).port 0x1E) 11 (decide (quenchPath s = .freewheel))
  else s0.modValve n fun v => { v with firing := false, pulse := false, due := none }

/-- Hold regulation on a reading of the coil current in mA: the low side on at the lower edge of the band, off at the
upper edge with the current freewheeling; a side is changed 2 µs after the last change at the earliest, so the band widens
(R270, Table 9.2). -/
def holdChop (n i : Nat) (s : State) : State :=
  let v := s.valve n
  let c := s.chan (vl n)
  let on := if v.low then decide (i < iHold c + holdBand c) else decide (i + holdBand c ≤ iHold c)
  if v.ph ≠ .hold ∨ on = v.low ∨ s.now < v.lowAt + 2 then s
  else s.modValve n fun v => { v with low := on, lowAt := s.now, path := if on then .none else .freewheel }

/-- A commit is applied: a running pulse ends, an ISLAND set makes a pulse due, SCHED clears, E_LAST returns to 0 with
another profile number (R265, R279, R282). -/
def actApply (n : Nat) (s : State) : State :=
  let c := s.chan (vl n)
  let island := decide (modeOf c.act = 3)
  let v := s.valve n
  let s1 := if (v.firing || island) && c.on then
      (actStop n s).modChan (vl n) fun c => { c with on := false, win := none }
    else s
  let p := fld (wd c.act 1) 0 6
  let s2 := (s1.modValve n fun v => { v with pulse := island, due := none, gaveUp := false, pf := p }).setRegBit ((vl n).port 0x1E) 9 false
  if p ≠ v.pf then s2.setReg ((vl n).port 0x1F) 0 else s2

/-- Every valve of a bank that waits tries its gate. -/
def tryBank (k : Nat) (s : State) : State := (bankValves k).foldl (fun t n => actTry n t) s

/-- The bank lock source lasts as long as a bank is locked (R291). -/
def bankLocks (s : State) : State := s.level 120 ((List.range 4).any fun k => decide (lockWhy s k ≠ 0))

/-- The absolute junction limit is reached at two consecutive samples (Table 9.2). -/
def actHot (a b : Therm) : Bool := decide (1750 ≤ a.tj) && decide (1750 ≤ b.tj)
/-- The junction has cooled at two consecutive samples (Table 9.2). -/
def actCool (a b : Therm) : Bool := decide (a.tj ≤ 1500) && decide (b.tj ≤ 1500)

/-- The island's own state after a reset: the stage domain and the boost go on (R290, Table 4.4). -/
def resetAct (s : State) : State := s

end Sys2Proof.Machine
end

