-- ==== Sys2Proof/Machine/GateFld.lean ====
section
/-! DEFINITION. FLD's channels: modes, limits, the field supply, starting an output (R333–R345).
The readings and choices it rests on: notes/assumptions/40. -/

namespace Sys2Proof.Machine

/-- The channel of an FO number. -/
abbrev fo (n : Nat) : ChanRef := ⟨.fld, n⟩
/-- An input's filter. -/
def State.filt (s : State) (n : Nat) : Filt := s.filts.get (fun _ => {}) n
/-- An input's filter written. -/
def State.setFilt (s : State) (n : Nat) (f : Filt) : State := { s with filts := s.filts.set (fun _ => {}) n f }

/-- FLD has field-side power: not in the parking modes, nor without VXFR, which needs band HOLD or above, nor with both
paths failed (Table 3.1, R333, R334). -/
def fieldPowered (s : State) : Bool :=
  !s.fieldRec.unpowered && decide (2 ≤ Band.num s.band) && (match s.mode with
    | .run | .entering _ => true
    | _ => false)

/-- FLD accepts OFF, ON and PWM (R343). -/
def fldModeOk (l : List Word) : Bool := decide (modeOf l ≠ 3)
/-- FLD accepts every load type. -/
def fldTypeOk (t : Nat) : Bool := decide (t ≤ 5)
/-- SET_A to SET_D are reserved in FLD. -/
def fldStagingMask (w : Nat) : Word := if 0x0B ≤ w ∧ w ≤ 0x0E then 0#16 else 0xFFFF#16
/-- FLD states no range of its own for the profile fields (R344). -/
def fldProfileOk (_p : List Word) : Bool := true
/-- The steady limit of an FO channel in mA. -/
def foSteady (c : Chan) : Nat := limitOf (wd c.pf 3).toNat (bit (wd c.set 5) 0) (wd c.set 6).toNat 100 700
/-- The limit of an FO inrush window in mA. -/
def foInrush (c : Chan) : Nat :=
  Nat.max (limitOf (wd c.pf 1).toNat (bit (wd c.set 5) 1) (wd c.set 7).toNat 0 1500) (foSteady c)
/-- The on-time of a PWM output in whole µs. -/
def foOnUs (n : Nat) (c : Chan) : Nat := foOnCycles (fo n) c / 20

/-- What holds an FO channel off beside its set: safe latch, VFLD, thermal latch, pause; in hold it acts as in service
(Table 4.4). -/
def fldHeld (s : State) (n : Nat) : Bool :=
  let c := s.chan (fo n)
  safeHeld s (fo n) || bandOff s (fo n) || c.latch || c.pause.isSome

/-- An FO channel that is to conduct starts where nothing holds it off, in PWM at an on-edge (R339, R344). -/
def fldTry (n : Nat) (s : State) : State :=
  let c := s.chan (fo n)
  if !c.wants || c.on || fldHeld s n || !onEdge s (fo n) then s
  else s.setChan (fo n) { c with
    on := true, onAt := s.now, retry := false,
    win := if wd c.pf 2 ≠ 0 then some (foInrush c) else none, winEnd := s.now + 100 * (wd c.pf 2).toNat }

/-- The absolute junction limit is reached at two consecutive samples (R234, R342). -/
def fldHot (a b : Therm) : Bool := decide (1750 ≤ a.tj) && decide (1750 ≤ b.tj)
/-- The junction has cooled at two consecutive samples. -/
def fldCool (a b : Therm) : Bool := decide (a.tj ≤ 1500) && decide (b.tj ≤ 1500)

/-- A happening of FLD_EV_FLAG with its routed event (R348). -/
def fldEvent (f : Nat) (n : Option (Nat × Bool)) (s : State) : State :=
  let s1 := match n with | some (k, o) => s.setReg 0xA5F07A (pack [(0, k), (5, b2n o)]) | none => s
  let s2 := s1.setRegBit 0xA5F079 f true
  if s2.regBit 0xA5F078 (9 + f) then s2.route (s2.reg 0xA5F078) else s2

/-- A reset of FLD: the filters keep running in the stage domain; entries queued for the log are lost (Table 11.9). -/
def resetFld (s : State) : State := { s with fieldRec := { s.fieldRec with logq := [], logSeq := 0 } }

/-- FLD_VSTAT (Table 11.7). -/
def fldVstat (s : State) : Word :=
  pack [(0, match s.fieldRec.vfld with | .ok => 0 | .low => 1 | .missing => 2), (2, b2n s.fieldRec.pathA), (3, b2n s.fieldRec.pathB)]

/-- The field side loses power: every FO output off, nothing of the stage domain outlasts it (R333). -/
def fieldDown (s : State) : State :=
  { s with chans := s.chans.drop (fun k => decide (k / 128 = 5)), filts := s.filts.drop (fun k => decide (64 ≤ k)),
           fieldRec := { unpowered := s.fieldRec.unpowered, pathA := s.fieldRec.pathA, pathB := s.fieldRec.pathB, usBase := s.now } }

/-- Tick generators begin to count: SI's are 0 to 3, FI's 4 to 7 (R322). -/
def startTicks (ks : List Nat) (s : State) : State :=
  { s with tickBase := ks.foldl (fun m k => m.set (fun _ => 0) k s.now) s.tickBase }

/-- The field side has power: FLD's microsecond counter and tick generators begin (R322, R333, R346). -/
def fieldUp (s : State) : State := startTicks [4, 5, 6, 7] { s with fieldRec := { s.fieldRec with usBase := s.now } }

end Sys2Proof.Machine
end

