-- ==== Sys2Proof/Machine/GateLux.lean ====
section
/-! DEFINITION. LUX's channels: modes, settings, lamps and their sinks, starting a sink (R292–R297, R303).
The readings and choices it rests on: notes/assumptions/38. -/

namespace Sys2Proof.Machine

/-- A sink's record. -/
def State.sink (s : State) (n : Nat) : Sink := s.sinks.get (fun _ => {}) n
/-- A sink's record changed. -/
def State.modSink (s : State) (n : Nat) (f : Sink → Sink) : State :=
  { s with sinks := s.sinks.set (fun _ => {}) n (f (s.sink n)) }
/-- A lamp's record. -/
def State.lamp (s : State) (k : Nat) : Lamp := s.lamps.get (fun _ => {}) k
/-- A lamp's record changed. -/
def State.modLamp (s : State) (k : Nat) (f : Lamp → Lamp) : State :=
  { s with lamps := s.lamps.set (fun _ => {}) k (f (s.lamp k)) }
/-- The channel of a LUX index. -/
abbrev lx (n : Nat) : ChanRef := ⟨.lux, n⟩
/-- The sinks LS00 to LS95. -/
def allSinks : List Nat := List.range 96

/-- A happening of LUX_EV_FLAG with its routed event (R320). -/
def luxEvent (f : Nat) (ch : Option Nat) (s : State) : State :=
  let s1 := match ch with | some n => s.setReg 0xA2F014 (w16 n) | none => s
  let s2 := s1.setRegBit 0xA2F013 f true
  if s2.regBit 0xA2F012 (9 + f) then s2.route (s2.reg 0xA2F012) else s2

/-! Currents (R293). -/

/-- I_GLOBAL of a LUX_GC value, in µA. -/
def iGlobal (gc : Word) : Rat :=
  let fs : Nat := match fld gc 0 2 with | 0 => 15000 | 1 => 30000 | _ => 60000
  ((fs * (fld gc 2 6 + 1) : Nat) : Rat) / 64
/-- STEADY_LIM of a sink in µA, with its override. -/
def lsSteady (c : Chan) : Nat := limitOf (wd c.pf 3).toNat (bit (wd c.set 5) 0) (wd c.set 6).toNat 250 60000
/-- I_SET in µA of a sink with dot current `dot` under a LUX_GC value; a Marionette entry names its current itself
(R317). -/
def iSet (c : Chan) (gc : Word) (dot : Nat) : Nat :=
  match c.mar with
  | some m => (wd m.1 6).toNat
  | none =>
    if dot = 0 then 0
    else
      let i := (iGlobal gc * ((dot : Nat) : Rat) / 1023).floor.toNat
      Nat.min (Nat.max i 250) (lsSteady c)

/-! Sets: matrix columns, lamp leaders and members (Tables 10.2 and 10.5). -/

/-- SET_D.ISL. -/
def islOf (l : List Word) : Nat := fld (wd l 14) 0 2
/-- SET_D.LAMP. -/
def lampNo (l : List Word) : Nat := fld (wd l 14) 2 6
/-- SET_D.SLOT. -/
def slotOf (l : List Word) : Nat := fld (wd l 14) 8 2
/-- A set is a colour leader's. -/
def isLeaderSet (l : List Word) : Bool := decide (modeOf l = 3) && decide (islOf l = 1)
/-- A set is a colour member's. -/
def isMemberSet (l : List Word) : Bool := decide (modeOf l = 3) && decide (islOf l = 2)
/-- A sink is a matrix column. -/
def isColumn (s : State) (n : Nat) : Bool :=
  let c := s.chan (lx n)
  decide (modeOf c.act = 3) && decide (islOf c.act = 0) && c.mar.isNone
/-- The leader of lamp `k`: its active set defines the lamp even when it has retired (Table 10.10). -/
def leaderOf (s : State) (k : Nat) : Option Nat :=
  allSinks.find? fun n =>
    let c := s.chan (lx n)
    isLeaderSet c.act && decide (lampNo c.act = k) && c.carries.isNone && c.mar.isNone
/-- The members of a leader. -/
def membersOf (s : State) (n : Nat) : List Nat :=
  allSinks.filter fun m =>
    let c := s.chan (lx m)
    isMemberSet c.act && bit (wd c.act 0x0A) 7 && decide (fld (wd c.act 0x0A) 0 7 = n) && c.carries.isNone && c.mar.isNone
/-- The lamp a sink belongs to. -/
def lampOf (s : State) (n : Nat) : Option Nat :=
  let c := s.chan (lx n)
  match c.carries with
  | some r => own s r
  | none => own s n
where
  /-- As leader or member of its own set. -/
  own (s : State) (n : Nat) : Option Nat :=
    let c := s.chan (lx n)
    if isLeaderSet c.act then some (lampNo c.act)
    else if isMemberSet c.act then
      let d := s.chan (lx (fld (wd c.act 0x0A) 0 7))
      if bit (wd c.act 0x0A) 7 && isLeaderSet d.act then some (lampNo d.act) else none
    else none
/-- The channel that drives a sink's load: its partner while it carries. -/
def driverOf (s : State) (n : Nat) : Nat := (s.chan (lx n)).carriedBy.getD n
/-- The sinks of a lamp: the leader first. -/
def lampSinks (s : State) (k : Nat) : List Nat :=
  match leaderOf s k with
  | some n => n :: membersOf s n
  | none => []

/-! Calibration (R304). -/

/-- Word `w` of calibration record `k`. -/
def calWord (s : State) (k w : Nat) : Word := s.lux.cal.get (fun _ => 0#16) (24 * k + w)
/-- Record `k` is valid in the bank in use. -/
def calOk (s : State) (k : Nat) : Bool := s.regBit (0xA2F00E + k / 16) (k % 16)
/-- The primaries of record `k`. -/
def calPrims (s : State) (k : Nat) : Nat := fld (calWord s k 1) 0 2 + 1

/-- LUX accepts the mode of a set on a channel (Table 10.2, R303). -/
def luxModeOk (s : State) (n : Nat) (l : List Word) : Bool :=
  if 96 ≤ n then decide (modeOf l ≠ 2)
  else if modeOf l ≠ 3 then true
  else
    match islOf l with
    | 0 => true
    | 1 =>
      let k := lampNo l
      calOk s k && (match leaderOf s k with
        | some m => decide (m = n)
        | none => true) && slotFree k n (membersOf s n)
    | 2 =>
      let m := fld (wd l 0x0A) 0 7
      let d := s.chan (lx m)
      bit (wd l 0x0A) 7 && decide (m < 96) && isLeaderSet d.act &&
        slotFree (lampNo d.act) n (m :: (membersOf s m).filter fun j => decide (j ≠ n))
    | _ => false
where
  /-- The slot lies in the record and no other sink of the lamp drives it. -/
  slotFree (k n : Nat) (others : List Nat) : Bool :=
    decide (slotOf l < calPrims s k) && !(others.any fun j => decide (j ≠ n) && decide (slotOf (s.chan (lx j)).act = slotOf l))

/-- LUX accepts the LED module. -/
def luxTypeOk (_n t : Nat) : Bool := decide (t = 1)
/-- The bits of LUX's own staging words (Table 10.4). -/
def luxStagingMask (_n w : Nat) : Word :=
  match w with
  | 0x0E => 0x07FF#16
  | _ => 0xFFFF#16
/-- The fields of Table 10.3 lie in their ranges. Its reserved bit has no range there and is not checked (R16, R199;
DEDUCED, notes/assumptions/34). -/
def luxProfileOk (p : List Word) : Bool :=
  let h := (wd p 3).toNat
  let off := (wd p 10).toNat
  let knee := fld (wd p 14) 0 8
  decide (250 ≤ h) && decide (h ≤ 60000) && decide ((wd p 9).toNat < h) && decide (350 ≤ off) && decide (off ≤ 6000) &&
    (decide (knee = 0) || (decide (60 ≤ knee) && decide (knee ≤ 130))) && decide (fld (wd p 15) 0 6 ≤ 47) &&
    decide (fld (wd p 15) 8 8 ≤ 240)

/-! PWM and starting. -/

/-- The duty of a PWM sink in 1/16,384, under derating and the governor's ceiling (R295, R309, R310). -/
def lsDuty (s : State) (n : Nat) : Nat :=
  let c := s.chan (lx n)
  let d := if c.ceil ≠ 0 ∧ bit (wd c.set 0) 3 ∧ c.mar.isNone then Nat.min (dutyOf c.set) (c.ceil * 128) else dutyOf c.set
  let knee := fld (wd c.pf 14) 0 8
  if knee = 0 ∨ c.mar.isSome then d / 2 else d / 2 * (s.sink n).drf / 32768
/-- The on-count of 16,384 of a sink's mode. -/
def lsCount (s : State) (n : Nat) : Nat :=
  let c := s.chan (lx n)
  match modeOf c.set with
  | 1 => 16384
  | 2 => lsDuty s n
  | _ => (s.sink n).on14
/-- The on-time of a sink in whole LUX cycles of 10 ns (R295). -/
def lsCycles (s : State) (n : Nat) : Nat := (s.sink n).on14 * (periodOf (lx n) (s.chan (lx n)).set * 100) / 16384
/-- The dot current of a sink: its own, or the engine's. -/
def dotOf (s : State) (n : Nat) : Nat :=
  let c := s.chan (lx n)
  if isLeaderSet c.act || isMemberSet c.act then (s.sink n).dot else fld (wd c.act 0x0B) 0 10
/-- Every evaluation a new LUX_GC has triggered is ready (R308). -/
def gcReady (s : State) : Bool := !((List.range 64).any fun k => (s.lamp k).evaluating && (leaderOf s k).isSome)
/-- The LUX_GC value a sink loads now. -/
def gcNow (s : State) : Word := if s.lux.gcPend && gcReady s then s.reg 0xA2F000 else s.lux.gc
/-- The sinks that have yet to load a new LUX_GC: those that conduct or are columns of a running matrix. -/
def gcWaits (s : State) : List Nat :=
  allSinks.filter fun n =>
    let c := s.chan (lx n)
    c.mar.isNone && !c.hold && decide (n ∉ s.lux.gcDone) &&
      (if isColumn s n then s.regBit 0xA2F005 0 && c.on else c.on)
/-- PEND clears when every sink has loaded the setting (R308). -/
def gcSettle (s : State) : State :=
  if s.lux.gcPend && gcReady s && (gcWaits s).isEmpty then
    let g := s.reg 0xA2F000
    { s.setReg 0xA2F002 (w16 (iGlobal g).floor.toNat) with lux := { s.lux with gcPend := false, gcDone := [], gc := g } }
  else s
/-- A sink loads its setting and its duty at a period boundary (R293, R295, R308); in hold a sink keeps its last values, and
a partner takes those of the sink whose load it carries (Table 4.4). -/
def loadSink (n : Nat) (s : State) : State :=
  let c := s.chan (lx n)
  let g := gcNow s
  if c.hold then
    (match c.carries with
      | some r => s.modSink n fun k => { k with iset := (s.sink r).iset, on14 := (s.sink r).on14, dot := (s.sink r).dot }
      | none => s)
  else
  let s1 := s.modSink n fun k => { k with iset := iSet c g (dotOf s n), on14 := lsCount s n }
  if s1.lux.gcPend && gcReady s1 then gcSettle { s1 with lux := { s1.lux with gcDone := n :: s1.lux.gcDone } } else s1

/-- A lamp's evaluation is triggered (R307). -/
def lampTrigger (k : Nat) (s : State) : State := s.modLamp k fun l => { l with evaluating := true }
/-- The lamp of a sink, if it has one, is triggered. -/
def lampTouch (n : Nat) (s : State) : State :=
  match lampOf s n with
  | some k => lampTrigger k s
  | none => s

/-- What holds a LUX channel off beside its set: safe latch, band, hold after a reset, thermal latch, pause. -/
def luxHeld (s : State) (n : Nat) : Bool :=
  let c := s.chan (lx n)
  safeHeld s (lx n) || bandOff s (lx n) || (c.hold && c.carries.isNone) || c.latch || c.pause.isSome

/-- The instant at which a LUX channel may begin to conduct: a sink in PWM or of a lamp at a period boundary, where it
loads its setting; a sink that a band had turned off at its next one; a matrix column at a frame start (R82, R84, R293,
R298, R307). A row switch, and a sink set ON, at any. -/
def luxEdge (s : State) (n : Nat) : Bool :=
  let c := s.chan (lx n)
  if 96 ≤ n ∨ c.mar.isSome then true
  else if isColumn s n then false
  else !(decide (modeOf c.set = 2) || (lampOf s n).isSome || c.atEdge) || isBoundary s (lx n)

/-- A LUX channel begins to conduct; a sink's first period begins then. -/
def luxStart (n : Nat) (s : State) : State :=
  let s1 := s.modChan (lx n) fun c => { c with on := true, onAt := s.now, retry := false, atEdge := false }
  if n < 96 then loadSink n s1 else s1

/-- A LUX channel that is to conduct starts where nothing holds it off, at its edge. -/
def luxTry (n : Nat) (s : State) : State :=
  let c := s.chan (lx n)
  if !c.wants || c.on || luxHeld s n || !luxEdge s n then s else luxStart n s
/-- The columns that are to conduct start with the frame. -/
def luxColumns (s : State) : State :=
  allSinks.foldl (fun t n =>
    let c := t.chan (lx n)
    if isColumn t n && c.wants && !c.on && !luxHeld t n then luxStart n t else t) s

/-- The absolute junction limit is reached at two consecutive samples (Table 10.1). -/
def luxHot (a b : Therm) : Bool := decide (1750 ≤ a.tj) && decide (1750 ≤ b.tj)
/-- The junction has cooled at two consecutive samples. -/
def luxCool (a b : Therm) : Bool := decide (a.tj ≤ 1500) && decide (b.tj ≤ 1500)

/-- The matrix scans: RUN, or what a hold keeps (R298, Table 4.4). -/
def matrixRuns (s : State) : Bool := s.regBit 0xA2F005 0 || (s.lux.keep && islHeld .lux s)

/-- The 20 µA source of a LUX terminal is on: from reset until the channel's first applied commit, never while the matrix
scans, nor in Park or Deep Park; after that commit an off-state check turns it on for 200 µs (R315, Table 3.8). -/
def luxSource (s : State) (n : Nat) : Bool :=
  (s.chan (lx n)).act.isEmpty && !matrixRuns s && (match s.mode with | .park | .deepPark => false | _ => true)

/-- A reset of LUX discards a pending swap, load or LUX_GC value; the scan goes on from the front buffer (Table 10.10). -/
def resetLux (s : State) : State :=
  { s with lux := { s.lux with swPend := false, frames := 0, load := none, loadBad := false, lerr := false, misses := 0,
                               syncLost := false, gcPend := false, gcDone := [], gc := 0, cal := [], calBusy := false,
                               below := [], measured := [], sound := [] },
           lamps := s.lamps.map fun e => (e.1, { e.2 with evaluating := false, ready := none }) }

end Sys2Proof.Machine
end

