-- ==== Sys2Proof/Machine/Gate.lean ====
section
/-! DEFINITION. The restart gate of SW (Table 8.12) with staggering and the governor's admission, and starting and
stopping a channel of any output island (R228, R242–R246).
The readings and choices it rests on: notes/assumptions/33, 34. -/

namespace Sys2Proof.Machine

/-- The start is subject to admission and staggering (R242, R243). -/
def hasInrush (c : Chan) : Bool := decide (wd c.pf 2 ≠ 0)

/-- The first unmet condition of the gate up to number 6; 0 when none (Table 8.12). In OVER the inrush starts and the retry
restarts of HS wait (R84). -/
def swHeld (s : State) (ch : ChanRef) : Nat :=
  let c := s.chan ch
  let wireHeld := c.wirelock || (match c.carries with
    | some r => bit (wd c.act 9) 8 && (s.chan ⟨.sw, r⟩).wirelock
    | none => false)
  if safeHeld s ch then 9
  else if bandOff s ch ∨ (s.band = .over ∧ ch.idx < 64 ∧ (hasInrush c ∨ c.retry)) then 1
  else if c.hold ∧ c.carries.isNone then 2
  else if c.latch then 3
  else if c.pause.isSome then 4
  else if wireHeld then 5
  else if c.retry ∧ clusterWindow s ch then 6
  else 0

/-- The stagger rule permits the start: 1 ms since the cluster's last staggered start, and no older start of it that has
passed conditions 1 to 7 (R243). -/
def staggerOk (s : State) (ch : ChanRef) : Bool :=
  let c := s.chan ch
  let k := swCluster ch.idx
  (match clusterLast s k with
    | some t => decide (t + 1000 ≤ s.now)
    | none => true) &&
  !(OutIsl.sw.chans.any fun d =>
      let e := s.chan d
      decide (d ≠ ch) && decide (swCluster d.idx = k) && e.wants && !e.on && e.stallAct.isNone &&
        decide (swHeld s d = 0) && (hasInrush e || e.retry) && (!hasInrush e || e.admitted) &&
        (decide (startAge s e < startAge s c) || (decide (startAge s e = startAge s c) && decide (d.idx < ch.idx))))

/-- WAITWHY: the first condition of Table 8.12 the channel does not meet, 0 when none. -/
def swWhy (s : State) (ch : ChanRef) : Nat :=
  let c := s.chan ch
  if !c.wants || c.on || c.stallAct.isSome then 0
  else
    let h := swHeld s ch
    if h ≠ 0 then h
    else if hasInrush c && !c.admitted then 7
    else if (hasInrush c || c.retry) && !staggerOk s ch then 8
    else 0

/-- A waiting start comes before another in the governor's order (R242). -/
def govBefore (s : State) (a b : ChanRef) : Bool :=
  let x := s.chan a
  let y := s.chan b
  let dx := bit (wd x.set 0) 3
  let dy := bit (wd y.set 0) 3
  let tx := x.waitFrom.getD s.now
  let ty := y.waitFrom.getD s.now
  if dx ≠ dy then !dx
  else if tx ≠ ty then decide (tx < ty)
  else decide (a.idx < b.idx)

/-- The starts that wait for admission: condition 7 is the first they fail. -/
def govWaiting (s : State) : List ChanRef :=
  OutIsl.sw.chans.filter fun d => decide (swWhy s d = 7) && (s.chan d).waitFrom.isSome

/-- The governor looks at a start that comes to condition 7: admitted if it fits and no start ahead of it waits, else
it waits (R242). -/
def govAsk (ch : ChanRef) (s : State) : State :=
  let c := s.chan ch
  if c.waitFrom.isSome then s
  else
    let e := startEnergy c ch.idx
    if admits s e && !((govWaiting s).any fun d => govBefore s d ch) then
      { s.setChan ch { c with admitted := true } with sw := { s.sw with admitted := (s.now, e) :: s.sw.admitted } }
    else (s.setChan ch { c with waitFrom := some s.now }).diag ch 9

/-- The evidence is reset (R253). -/
def Chan.resetEvidence (c : Chan) : Chan := { c with evid := 0, okRun := 0, openRun := none, outcome := none, shbDue := none }

/-- An SW channel begins to conduct at an on-edge: its window opens, with its length; its place in the stagger (R228,
R243); a start in ISLAND runs its first period at DUTY / 4 (R257). -/
def swStart (ch : ChanRef) (s : State) : State :=
  let c := s.chan ch
  let stag := hasInrush c || c.retry
  let c1 := { c with
    on := true, onAt := s.now, win := if hasInrush c then some (swInrush c ch.idx) else none,
    winEnd := s.now + 100 * (wd c.pf 2).toNat, atEdge := decide (s.band = .over),
    retry := false, readyAt := none, waitFrom := none, waitRep := false, admitted := false, regul := false,
    duty := if modeOf c.set = 3 then some (dutyOf c.set / 4) else none }
  let s1 := refreshQuiet ch (s.setChan ch c1)
  if stag then { s1 with cluLast := s1.cluLast.set (fun _ => none) (swCluster ch.idx) (some s.now) } else s1

/-- An SW channel that is to conduct starts if its gate is open, in PWM at an on-edge; else it waits, asking the governor
when it comes to condition 7. Its age counts while it has passed condition 7 (R243, R246). -/
def swTry (ch : ChanRef) (s : State) : State :=
  let c := s.chan ch
  if !c.wants || c.on || c.stallAct.isSome then s
  else
    let s1 := if swHeld s ch = 0 ∧ hasInrush c ∧ !c.admitted then govAsk ch s else s
    let c1 := s1.chan ch
    let ready := decide (swHeld s1 ch = 0) && (!hasInrush c1 || c1.admitted)
    let s2 := s1.setChan ch { c1 with readyAt := if ready then some (c1.readyAt.getD s1.now) else none }
    if swWhy s2 ch = 0 ∧ swHeld s2 ch = 0 ∧ onEdge s2 ch then swStart ch s2 else s2

/-- A channel may start: its island runs (R78); a partner that takes over may while it does not, and an FO output in hold
acts as in service (Table 4.4). -/
def mayStart (s : State) (ch : ChanRef) : Bool :=
  let c := s.chan ch
  s.running ch.isl.island || c.carries.isSome || (decide (ch.isl = .fld) && c.hold)

/-- A channel that is to conduct starts where its island's gate is open. -/
def tryStart (ch : ChanRef) (s : State) : State :=
  if !mayStart s ch then s
  else match ch.isl with
    | .sw => swTry ch s
    | .act => actTry ch.idx s
    | .lux => luxTry ch.idx s
    | .fld => fldTry ch.idx s

/-- The stage turns off: a start ends, its window with it (R228, R231). -/
def stopChan (ch : ChanRef) (s : State) : State :=
  let s1 := refreshQuiet ch (s.modChan ch fun c => { c with
    on := false, win := none, regul := false, duty := none, readyAt := none, waitFrom := none, waitRep := false,
    admitted := false, tlstart := 0 })
  match ch.isl with
  | .act => actStop ch.idx s1
  | _ => s1

/-- Every channel of an island that waits tries its gate. -/
def tryAll (i : OutIsl) (s : State) : State := i.chans.foldl (fun t c => tryStart c t) s

/-- A channel's stage follows what holds it off: band and safe latch turn it off, their end lets it start again. A sink that
a band turned off, and a bridge in OVER, go on at a period boundary (R82, R84). -/
def followHolds (ch : ChanRef) (s : State) : State :=
  let band := bandOff s ch
  let off := band || safeHeld s ch
  let c := s.chan ch
  let edge := (decide (ch.isl = .lux) && band && c.on) || (decide (ch.isl = .sw) && decide (s.band = .over)) || c.atEdge
  let s1 := if off && c.on then stopChan ch s else s
  let s2 := if band then s1.modChan ch fun c => { c.resetEvidence with tlstart := 0 } else s1
  let s3 := refreshQuiet ch (refreshPause ch (s2.modChan ch fun c => { c with atEdge := edge }))
  if off then s3 else tryStart ch s3

/-- One evidence point toward CODE (R253): an OK point, or an OPEN point. -/
def evidence (ch : ChanRef) (okPoint : Bool) (s : State) : State :=
  let c := s.chan ch
  let e := satInc 127 c.evid
  if okPoint then
    let n := c.okRun + 1
    s.setChan ch { c with evid := e, okRun := n, openRun := none, outcome := if 4 ≤ n then some 0 else c.outcome }
  else s.setChan ch { c with evid := e, okRun := 0, openRun := some (c.openRun.getD s.now) }

/-- The next off-state check of a channel that is off is due: one every 10 ms (R251). -/
def offDue (s : State) (c : Chan) : Bool :=
  match c.offAt with
  | some t => decide (t + 10000 ≤ s.now)
  | none => true
/-- An off-state check is made. -/
def noteOff (ch : ChanRef) (s : State) : State := s.modChan ch fun c => { c with offAt := some s.now }

end Sys2Proof.Machine
end

