-- ==== Sys2Proof/Machine/Retire.lean ====
section
/-! DEFINITION. Counted trips, retry, retirement with its records, partner takeover (R204–R217).
The readings and choices it rests on: notes/assumptions/33, 36. -/

namespace Sys2Proof.Machine

/-- The channels are of one kind (R215). -/
def sameKind (a b : ChanRef) : Bool :=
  decide (a.isl = b.isl) && (match a.isl with
    | .sw => decide (a.idx < 64) == decide (b.idx < 64)
    | .lux => decide (a.idx < 96) == decide (b.idx < 96)
    | _ => true)

/-- The partner a set names, if any. -/
def partnerOf (ch : ChanRef) (l : List Word) : Option ChanRef :=
  if bit (wd l 9) 7 then some ⟨ch.isl, fld (wd l 9) 0 7⟩ else none

/-- The partner meets R215. -/
def partnerOk (s : State) (ch p : ChanRef) : Bool :=
  p.ok && sameKind ch p && decide (p ≠ ch) && decide ((s.chan p).reason = 0) &&
    (match partnerOf p (s.chan p).act with
      | some q => decide (q = ch)
      | none => true)

/-- The bit of a channel in RETIRED, and the count of retired channels. -/
def retiredBit (ch : ChanRef) (b : Bool) (s : State) : State :=
  s.setRegBit (ch.isl.oib + 0x30 + ch.idx / 16) (ch.idx % 16) b

/-- A record queued, or the compaction made due where the queue is full (R210). -/
def queueRecord (ch : ChanRef) (clear : Bool) (reason code : Nat) (s : State) : State :=
  let o := s.out ch.isl
  if o.queue.length < 8 then
    s.setOut ch.isl { o with queue := o.queue ++ [⟨ch.idx, clear, w16 s.rtcSec, reason, code⟩] }
  else s.setOut ch.isl { o with compDue := true, compGen0 := false }

/-- Carrying between a retired channel and its partner ends; the partner returns to its own set where `back` (R217). A
snapshot pending for the retired channel has no channel left to run on and is dropped (DESIGN CHOICE,
notes/assumptions/33). -/
def endCarry (p : ChanRef) (back : Bool) (s : State) : State :=
  match (s.chan p).carries with
  | none => s
  | some r =>
    let s1 := s.modChan ⟨p.isl, r⟩ fun c => { c with carriedBy := none, pend := none }
    let s2 := s1.modChan p fun c =>
      if back then { c with carries := none, act := c.aside, prof := c.asideProf, aside := [], asideProf := [], perRef := none }
      else { c with carries := none, aside := [], asideProf := [], perRef := none }
    if back then stopChan p (s2.modChan p fun c => { c.resetEvidence with pause := none, pauseRun := none, retry := false })
    else s2

/-- A takeover that was due does not take place: TKF on both channels, the takeover and the retirement event (R216,
Table 7.12). -/
def takeoverFails (ch p : ChanRef) (s : State) : State := (((s.diag ch 12).diag p 12).oibEvent ch.isl 9).oibEvent ch.isl 10

/-- A channel retires (R207): the stage off, the words, the pending snapshot discarded with code 7, the record queued, a
takeover due or failed (R216). That snapshot's code raises no refused-commit event of EV_ROUTE: the spec names none
(DESIGN CHOICE, notes/assumptions/36). -/
def retireChannel (ch : ChanRef) (reason : Nat) (s : State) : State :=
  let c := s.chan ch
  if !ch.ok || decide (c.reason ≠ 0) then s
  else
    let code := (c.outcome.getD 5)
    let own := match c.carries with | some _ => c.aside | none => c.act
    let s0 := endCarry ch true s
    let s1 := stopChan ch (s0.modChan ch fun c => { c with
      reason := reason, retDiag := code, pend := none, pause := none, pauseRun := none, retry := false })
    let s2 := match c.pend with
      | some p => (s1.setRegFld (ch.port 0x18) 4 3 7).setRegFld (ch.port 0x18) 8 8 (fld p.2.1 0 8)
      | none => s1
    let s3 := (retiredBit ch true (s2.diag ch 10)).raiseIsl ch.isl.island 4 (some ch.idx)
    let s4 := queueRecord ch false reason code s3
    let s5 := s4.oibEvent ch.isl 9
    match partnerOf ch own with
    | none => s5
    | some p =>
      if !p.ok then s5
      else if decide (modeOf (s5.chan p).act = 0) && partnerOk s5 ch p then
        s5.modChan ch fun c => { c with tkDue := some s5.now }
      else takeoverFails ch p s5

/-- P0 × G^(k − 1) in µs (R205). -/
def pauseOf (pf : List Word) (k : Nat) : Nat :=
  let p0 := (wd pf 6).toNat * 1000
  match fld (wd pf 5) 4 2 with
  | 0 => p0 * 3 ^ (k - 1) / 2 ^ (k - 1)
  | 1 => p0 * 2 ^ (k - 1)
  | 2 => p0 * 3 ^ (k - 1)
  | _ => p0 * 4 ^ (k - 1)

/-- The counted trips of the last RECUR_WIN seconds (R205). -/
def recurNow (now : Nat) (c : Chan) : List Nat :=
  c.recur.filter fun t => decide (now < t + 1000000 * fld (wd c.pf 8) 4 12)

/-- A counted trip (R204–R206): `code` is the diagnosis; off, counted, then a pause or retirement. -/
def countedTrip (ch : ChanRef) (code : Nat) (s : State) : State :=
  let c := s.chan ch
  let s1 := stopChan ch s
  let n := c.count + 1
  let trips := s.now :: recurNow s.now c
  let m := trips.length
  let flag := match code with | 2 => 3 | 3 => 4 | _ => 5
  let s2 := (s1.modChan ch fun c => { c.resetEvidence with
    count := n, recur := trips, outcome := some code, retry := true, tripAt := s1.now }).diag ch flag
  let s3 := restartQuiet ch (s2.raiseIsl ch.isl.island 3 (some ch.idx))
  let budget := fld (wd c.pf 5) 0 4
  let rm := fld (wd c.pf 8) 0 4
  if budget < n then retireChannel ch 1 s3
  else if rm ≠ 0 ∧ rm ≤ m then retireChannel ch 2 s3
  else refreshPause ch (s3.modChan ch fun c => { c with pause := some (pauseOf c.pf n), pauseRun := none })

/-- A record's four words (R208). -/
def RetRec.words (r : RetRec) : List Word :=
  let w0 := pack [(0, r.ch), (12, if r.clear then 2 else 1)]
  [w0, r.at_, pack [(0, r.reason), (3, r.code)], w0 ^^^ 0xFFFF#16]

/-- The address of an island's retirement area in a generation (R208). -/
def retArea (i : OutIsl) (g : Nat) : Nat :=
  0x900000 + 0x10000 * g + 0xFC00 + (match i with | .sw => 0 | .act => 0x80 | .lux => 0x100 | .fld => 0x180)

/-- The condition of a half (R209). -/
inductive HalfSt where
  | unused | valid | failed
  deriving DecidableEq, Repr

/-- A half's 64 words, and whether one reads with a double-bit error. -/
def halfWords (s : State) (a : Nat) : List Word := s.memList a 64
/-- R209's three conditions. -/
def halfState (s : State) (a : Nat) : HalfSt :=
  let h := halfWords s a
  if wd h 0 ≠ 0x5A3C#16 then .unused
  else if crc16 ((h.drop 1).take 1 ++ (h.drop 4).take 8) = wd h 2 ∧ !s.anyDbe a 64
    then .valid else .failed

/-- The records of a half in order, and whether a broken one ends them (R209). -/
def recordsOf (i : OutIsl) : Nat → List Word → List (List Word) × Bool
  | 0, _ => ([], false)
  | n + 1, ws =>
    let r := ws.take 4
    let w0 := wd r 0
    if w0 = 0xFFFF#16 then ([], false)
    else if wd r 3 = w0 ^^^ 0xFFFF#16 ∧ (fld w0 12 4 = 1 ∨ fld w0 12 4 = 2) ∧ fld w0 0 7 < i.count then
      let (rs, b) := recordsOf i n (ws.drop 4)
      (r :: rs, b)
    else ([], true)

/-- A half read: sequence, retired channels with their reasons and codes (none from a base set), number of records,
broken. -/
structure HalfRead where
  seq : Nat := 0
  set : List (Nat × Nat × Option Nat) := []
  n : Nat := 0
  broken : Bool := false
  deriving DecidableEq, Repr

/-- The set of a half: its base set with the records applied (R209); a base set restores REASON 5 (R211). -/
def readHalf (s : State) (i : OutIsl) (a : Nat) : HalfRead :=
  let h := halfWords s a
  let base := ((List.range i.count).filter fun c => !bit (wd h (4 + c / 16)) (c % 16)).map fun c => (c, 5, none)
  let (rs, b) := recordsOf i 13 (h.drop 12)
  let set := rs.foldl (fun l r =>
    let c := fld (wd r 0) 0 7
    let l1 := l.filter fun e => decide (e.1 ≠ c)
    if fld (wd r 0) 12 4 = 1 then l1 ++ [(c, fld (wd r 2) 0 3, some (fld (wd r 2) 3 3))] else l1) base
  ⟨(wd h 1).toNat, set, rs.length, b⟩

/-- Sequence b is later than sequence a (R209). -/
def laterSeq (a b : Nat) : Bool :=
  if b = a + 1 ∨ (a = 0xFFFE ∧ b = 1) then true
  else if a = b + 1 ∨ (b = 0xFFFE ∧ a = 1) then false
  else decide (a < b)

/-- An area read: its active half (0 or 1, none if no valid half), the half's reading, and whether a check failed. -/
def readArea (s : State) (i : OutIsl) (g : Nat) : Option Nat × HalfRead × Bool :=
  let a := retArea i g
  let st0 := halfState s a
  let st1 := halfState s (a + 64)
  let bad := decide (st0 = .failed) || decide (st1 = .failed)
  let h0 := readHalf s i a
  let h1 := readHalf s i (a + 64)
  if st0 = .valid ∧ st1 = .valid then
    if h0.seq = h1.seq then
      if h0.n < h1.n then (some 1, h1, true) else (some 0, h0, true)
    else if laterSeq h0.seq h1.seq then (some 1, h1, bad || h1.broken) else (some 0, h0, bad || h0.broken)
  else if st0 = .valid then (some 0, h0, bad || h0.broken)
  else if st1 = .valid then (some 1, h1, bad || h1.broken)
  else (none, {}, bad)

/-- The retired channels of an island now. -/
def retiredSet (s : State) (i : OutIsl) : List Nat := (List.range i.count).filter fun k => decide ((s.chan ⟨i, k⟩).reason ≠ 0)

/-- The accesses an island makes to write its retirement area, through the requester R210 names (Table 1.10). -/
def recordBurst (i : OutIsl) (n : Nat) (s : State) : State :=
  memBurst i.island (match i with | .sw => 2 | .act => 1 | .lux => 1 | .fld => 0) n s

/-- A compaction of an area: the other half erased, written with the current set and the next sequence, its magic last
(R210). -/
def compact (i : OutIsl) (g : Nat) (set : List Nat) (s0 : State) : State :=
  let s := recordBurst i 14 s0
  let (act, h, _) := readArea s i g
  let half := match act with | some 0 => 1 | _ => 0
  let a := retArea i g + 64 * half
  let seq := match act with
    | none => 1
    | some _ => if h.seq = 0xFFFE then 1 else h.seq + 1
  let base := (List.range 8).map fun k =>
    (List.range 16).foldl (fun w b => putBit w b (!(decide (16 * k + b ∈ set)))) 0xFFFF#16
  let crc := crc16 (w16 seq :: base)
  let s1 := s.clearMem a 64
  s1.setMemList a ([0x5A3C#16, w16 seq, crc, 0#16] ++ base)

/-- A record programmed into an area, or a compaction in its place (R210). An area without a valid half holds no records to
add to: its first record is written as a compaction into half 0 with sequence 1, whose base set later restores REASON 5
(DESIGN CHOICE, notes/assumptions/36). -/
def programRecord (i : OutIsl) (g : Nat) (r : RetRec) (s : State) : State :=
  let (act, h, _) := readArea s i g
  match act with
  | some k =>
    if h.n < 13 ∧ !h.broken ∧ !(s.out i).compDue then
      (recordBurst i 4 s).setMemList (retArea i g + 64 * k + 12 + 4 * h.n) r.words
    else compact i g (retiredSet s i) s
  | none => compact i g (retiredSet s i) s

/-- RET_STAT (Table 7.12). -/
def retStat (s : State) (i : OutIsl) : Word :=
  let o := s.out i
  let n := o.queue.length + (if o.half.isSome then 1 else 0)
  pack [(4, Nat.min n 15), (8, (retiredSet s i).length)] |||
    packBits [(0, decide (n ≠ 0) || o.compDue), (1, s.regBit (i.oib + 0x0A) 1), (2, o.compDue)]

/-- A channel restored as retired (R211). A base set keeps no diagnosis code: a code the stage domain does not hold is
a free value then. REASON is the restored one also where the stage domain holds another: 5 from a base set (DESIGN CHOICE,
notes/assumptions/36). -/
def restoreOne (ch : ChanRef) (reason : Nat) (code : Option Nat) (s : State) : State :=
  let put (k : Nat) (t : State) := retiredBit ch true (t.modChan ch fun c => { c with reason := reason, retDiag := k })
  match code with
  | some k => put k s
  | none => if (s.chan ch).reason ≠ 0 then put (s.chan ch).retDiag s else put (s.freeBelow 8) s.used

/-- A set with a record applied. -/
def RetRec.onto (r : RetRec) (l : List (Nat × Nat × Option Nat)) : List (Nat × Nat × Option Nat) :=
  let l1 := l.filter fun e => decide (e.1 ≠ r.ch)
  if r.clear then l1 else l1 ++ [(r.ch, r.reason, some r.code)]

/-- RETIREMENT_RESTORE (R211): the set formed from both generations, the other compacted where they differ; records that a
reset left unprogrammed are queued again and count in the set (R210); what the stage domain holds is kept and queued. While
COMPDUE stands the stage domain's set alone is whole (R210). -/
def restoreRetired (i : OutIsl) (s : State) : State :=
  let (_, h0, b0) := readArea s i 0
  let (_, h1, b1) := readArea s i 1
  let (set, which) :=
    if h0.seq ≠ h1.seq then (if laterSeq h0.seq h1.seq then (h1.set, 1) else (h0.set, 0))
    else if h0.n ≠ h1.n then (if h0.n < h1.n then (h1.set, 1) else (h0.set, 0))
    else (h0.set ++ h1.set.filter fun e => !(h0.set.any fun f => decide (f.1 = e.1)), 2)
  let names (l : List (Nat × Nat × Option Nat)) := (List.range i.count).filter fun k => l.any fun e => decide (e.1 = k)
  let s0 := if s.anyDbe (retArea i 0) 128 || s.anyDbe (retArea i 1) 128 then s.raiseHeld (srcBase i.island + 1) none else s
  let s1 := if b0 || b1 then s0.raiseHeld (srcBase i.island + 2) none else s0
  let s2 :=
    if names h0.set = names h1.set then s1
    else match which with
      | 0 => compact i 1 (names set) s1
      | 1 => compact i 0 (names set) s1
      | _ => compact i 0 (names set) (compact i 1 (names set) s1)
  let o := s2.out i
  let now := retiredSet s2 i
  let whole := if o.compDue then set.filter fun e => decide (e.1 ∈ now) else o.queue.foldl (fun l r => r.onto l) set
  let held := now.filter fun k => !(names whole).contains k
  let s3 := whole.foldl (fun t e => restoreOne ⟨i, e.1⟩ e.2.1 e.2.2 t) s2
  let s4 := bankLocks (s3.setOut i { s3.out i with half := none, compGen0 := false })
  held.foldl (fun t k =>
    let c := t.chan ⟨i, k⟩
    queueRecord ⟨i, k⟩ false c.reason c.retDiag (retiredBit ⟨i, k⟩ true t)) s4

end Sys2Proof.Machine
end

