-- ==== Sys2Proof/Machine/Commit.lean ====
section
/-! DEFINITION. Staging, commits and links, profiles, retirement commands and takeover (R191–R217).
The readings and choices it rests on: notes/assumptions/32, 33, 36. -/

namespace Sys2Proof.Machine

/-- An owner code names the requester: a logical core, 8 for anyone, 9 for the fabric (R196, Table 7.12). -/
def ownerAllows (o : Nat) (r : Requester) : Bool :=
  match r with
  | .core c => decide (o = c.val) || decide (o = 8)
  | .fabric _ => decide (o = 9) || decide (o = 8)
  | _ => decide (o = 8)

/-- The requester may write a channel's port: the owner table's field (R196, Table 7.12). -/
def ownerOk (s : State) (ch : ChanRef) (r : Requester) : Bool :=
  ownerAllows (s.regFld (ch.isl.oib + 0x10 + ch.idx / 4) (4 * (ch.idx % 4)) 4) r

/-- A write discarded under the owner rule (R196). -/
def reject (ch : ChanRef) (s : State) : State := s.regInc (ch.port 0x19)

/-- The channel accepts the mode of a set (Table 8.2 and its like in the other islands). -/
def modeOk (s : State) (ch : ChanRef) (l : List Word) : Bool :=
  match ch.isl with
  | .sw => decide (modeOf l ≤ 2) || decide (64 ≤ ch.idx)
  | .act => actModeOk l
  | .lux => luxModeOk s ch.idx l
  | .fld => fldModeOk l

/-- The channel accepts a load type. -/
def typeOk (ch : ChanRef) (t : Nat) : Bool :=
  match ch.isl with
  | .sw => if ch.idx < 64 then decide (t ≤ 5) else decide (t = 2) || decide (t = 4)
  | .act => actTypeOk t
  | .lux => luxTypeOk ch.idx t
  | .fld => fldTypeOk t

/-- The refusal code of Table 7.7 for a snapshot; 0 where it passes. Code 3 looks at a profile there is, whatever MODE. -/
def refusal (s : State) (ch : ChanRef) (l : List Word) : Nat :=
  let p := fld (wd l 1) 0 6
  let pw := profileWords s ch.isl p
  let pinned := s.regBit (ch.isl.oib + 3) 0
  let valid := s.regBit (ch.isl.oib + 4 + p / 16) (p % 16)
  if !modeOk s ch l then 1
  else if modeOf l ≠ 0 ∧ !(pinned && valid) then 2
  else if pinned && valid && !typeOk ch (fld (wd pw 0) 0 3) then 3
  else if (match partnerOf ch l with | some q => !partnerOk s ch q | none => false) then 4
  else if bit (wd l 0x0A) 7 ∧
      (let d : ChanRef := ⟨ch.isl, fld (wd l 0x0A) 0 7⟩
       d = ch ∨ !d.ok ∨ bit (wd (s.chan d).act 0x0A) 7) then 5
  else if (s.chan ch).reason ≠ 0 ∧ (s.chan ch).carriedBy.isNone then 6
  else 0

/-- A refused snapshot: the code and the sequence number's low byte (R192). -/
def refuse (ch : ChanRef) (code : Nat) (v : Word) (s : State) : State :=
  ((s.setRegFld (ch.port 0x18) 4 3 code).setRegFld (ch.port 0x18) 8 8 (fld v 0 8)).oibEvent ch.isl 11

/-- ACK and the requester's fields of ACK_SRC (R192). -/
def acknowledge (ch : ChanRef) (v : Word) (r : Requester) (s : State) : State :=
  let low := match r with
    | .core c => pack [(0, c.val)]
    | .fabric p => pack [(0, p.val), (7, 1)]
    | .service => pack [(3, 1)]
    | .island _ => 0#16
  let old := s.reg (ch.port 0x18)
  (s.setReg (ch.port 0x17) v).setReg (ch.port 0x18) ((old &&& 0xFF70#16) ||| low)

/-- A snapshot becomes the active set of one channel (R192, R207): it ends hold and a Marionette entry's claim; MODE OFF ends a
pause; a change of MODE resets the evidence. A set applied later than a takeover counts its periods from the island's
reference again. ISLAND applied to a half bridge that conducts regulates on from its present duty, which R257 gives for
starts only (DESIGN CHOICE, notes/assumptions/34). -/
def applyActive (ch : ChanRef) (l : List Word) (s0 : State) : State :=
  let c := s0.chan ch
  let was := modeOf c.set
  let c1 := { c with act := l, prof := profileWords s0 ch.isl (fld (wd l 1) 0 6), mar := none, hold := false, pend := none,
                     stall := false, perRef := none,
                     duty := if modeOf l = 3 ∧ c.on ∧ ch.isl = .sw then some (swDuty c) else none }
  let c2 := if modeOf l ≠ was then c1.resetEvidence else c1
  let c3 := if modeOf l = 0 then { c2 with pause := none, pauseRun := none, retry := false } else c2
  let s1 := marClaim ch (s0.setChan ch c3)
  match ch.isl with
  | .act => let s2 := actApply ch.idx s1; if modeOf l = 0 then stopChan ch s2 else tryStart ch s2
  | .lux =>
    let s2 := lampTouch ch.idx (match lampOf s0 ch.idx with | some k => lampTrigger k s1 | none => s1)
    if modeOf l = 0 then stopChan ch s2 else if c3.on then s2 else tryStart ch s2
  | _ => if modeOf l = 0 then stopChan ch s1 else if c3.on then s1 else tryStart ch s1
where
  /-- The Marionette entries that name the channel lose it (R128). -/
  marClaim (ch : ChanRef) (s : State) : State :=
    (List.range s.marTable.length).foldl (fun t n =>
      let e := s.marTable.getD n []
      let k := fld (wd e 1) 0 12
      let isl := fld (wd e 1) 12 4
      let hit := decide (isl = ch.isl.island.num) &&
        (decide (k = ch.idx) || (bit (wd e 2) 5 && decide (k + 1 = ch.idx)))
      let m := t.mar.get (fun _ => {}) n
      if hit then { t with mar := t.mar.set (fun _ => {}) n { m with lost := ch.idx :: m.lost } } else t) s

/-- A snapshot applied to the channel itself: a channel that carries another's load ends carrying (R217). -/
def applySet (ch : ChanRef) (l : List Word) (s : State) : State := applyActive ch l (endCarry ch false s)

/-- The set a partner runs for a retired channel: the channel's own but for PARTNER, of which SHWIRE alone is kept for the
gate of the takeover's start, and LINK, which reads 0 (R216; DESIGN CHOICE, notes/assumptions/33). -/
def carriedSet (l : List Word) : List Word := (l.set 9 (l.getD 9 0 &&& 0x0100#16)).set 0x0A 0

/-- The set applied on the channel, or on the partner that carries a retired channel's load, with ACK (R217). -/
def applyOne (ch : ChanRef) (l : List Word) (v : Word) (r : Requester) (s : State) : State :=
  match (s.chan ch).carriedBy with
  | some p =>
    let q : ChanRef := ⟨ch.isl, p⟩
    acknowledge q v r (acknowledge ch v r
      (applyActive q (carriedSet l) (s.modChan ch fun c => { c with act := l, pend := none, hold := false })))
  | none => acknowledge ch v r (applySet ch l s)

/-- The followers of a leader (R195): those whose staged or active LINK names it. -/
def followersOf (s : State) (ch : ChanRef) : List ChanRef :=
  ch.isl.chans.filter fun d =>
    let st := s.reg (d.port 0x0A)
    let ac := wd (s.chan d).act 0x0A
    decide (d ≠ ch) && ((bit st 7 && decide (fld st 0 7 = ch.idx)) || (bit ac 7 && decide (fld ac 0 7 = ch.idx)))

/-- The half bridges that hold the action of a stall of leader `n`. -/
def stalledBy (s : State) (n : Nat) : List ChanRef :=
  OutIsl.sw.chans.filter fun d => match (s.chan d).stallAct with
    | some (_, k) => decide (k = n)
    | none => false

/-- A commit applied with its followers, each under its own check; a commit to a follower applies to it alone (R195). An
applied commit of a leader ends the action of its stall on every half (R258). -/
def applyCommit (ch : ChanRef) (l : List Word) (v : Word) (r : Requester) (s : State) : State :=
  let fs := if bit (wd (s.chan ch).act 0x0A) 7 then [] else followersOf s ch
  let held := if ch.isl = .sw then stalledBy s ch.idx else []
  let s1 := held.foldl (fun t d => t.modChan d fun c => { c with stallAct := none }) s
  let s2 := fs.foldl (fun t d =>
    let fl := staged t d
    let code := refusal t d fl
    if code ≠ 0 then refuse d code v t else applyOne d fl v r t) (applyOne ch l v r s1)
  held.foldl (fun t d => tryStart d t) s2

/-- A snapshot committed: refused, held for a period boundary, or applied (R192–R194). -/
def commitSet (ch : ChanRef) (l : List Word) (v : Word) (r : Requester) (s : State) : State :=
  let code := refusal s ch l
  if code ≠ 0 then refuse ch code v s
  else
    let target : ChanRef := match (s.chan ch).carriedBy with | some p => ⟨ch.isl, p⟩ | none => ch
    if bit (wd l 0) 2 ∧ modeOf (s.chan target).act = 2 ∧ (s.chan ch).mar.isNone then
      s.modChan ch fun c => { c with pend := some (l, v, r) }
    else applyCommit ch l v r s

/-- A write to COMMIT (R192, R196). -/
def commitWrite (r : Requester) (ch : ChanRef) (v : Word) (s : State) : State :=
  if ownerOk s ch r then commitSet ch (staged s ch) v r s else reject ch s

/-- A write to a staging word (R191, R196); the words marked HB only ignore it on HS (R226). -/
def stagingWrite (r : Requester) (ch : ChanRef) (w : Nat) (v : Word) (s : State) : State :=
  if ownerOk s ch r then
    if ch.isl = .sw ∧ ch.idx < 64 ∧ (w = 0x0C ∨ w = 0x0D ∨ w = 0x0E) then s
    else s.setReg (ch.port w) (v &&& stagingMask ch w)
  else reject ch s
where
  /-- The bits a staging word has; reserved bits read 0 (R16, Table 7.2). -/
  stagingMask (ch : ChanRef) (w : Nat) : Word :=
    match w with
    | 0x00 => 0x000F#16
    | 0x01 => 0x003F#16
    | 0x05 => 0x0007#16
    | 0x08 => 0x00FF#16
    | 0x09 => 0x01FF#16
    | 0x0A => 0x00FF#16
    | _ =>
      match ch.isl with
      | .sw => match w with | 0x0B => 0xFF03#16 | 0x0C => 0x00FF#16 | 0x0D => 0x0003#16 | _ => 0xFFFF#16
      | .act => actStagingMask w
      | .lux => luxStagingMask ch.idx w
      | .fld => fldStagingMask w

/-- A pending snapshot of one channel applied. -/
def applyPending (ch : ChanRef) (s : State) : State :=
  match (s.chan ch).pend with
  | some (l, v, r) => applyCommit ch l v r (s.modChan ch fun c => { c with pend := none })
  | none => s

/-- At a period boundary a pending snapshot is applied: the channel's own, and that of the retired channel whose load it
carries (R193, R217); a start that waits for the on-edge is made, and a bridge goes on after OVER (R84, R243). -/
def periodBoundary (ch : ChanRef) (s : State) : State :=
  if !isBoundary s ch then s
  else
    let s1 := match (s.chan ch).carries with
      | some r => applyPending ⟨ch.isl, r⟩ s
      | none => s
    let s2 := (applyPending ch s1).modChan ch fun c =>
      { c with atEdge := c.atEdge && (decide (s.band = .over) || decide (ch.isl = .lux)) }
    tryStart ch s2

/-! Profiles (R198–R200). -/

/-- The fields of a profile lie in their ranges (R199, Table 7.10a and the island's own). -/
def profileValid (i : OutIsl) (p : List Word) : Bool :=
  let rng (lo hi n : Nat) : Bool := decide (lo ≤ n) && decide (n ≤ hi)
  let common := bit (wd p 0) 15 && rng 0 5 (fld (wd p 0) 0 3) && rng 1 15 (fld (wd p 5) 0 4) &&
    rng 1 1000 (wd p 6).toNat && (rng 2 15 (fld (wd p 8) 0 4) || decide (fld (wd p 8) 0 4 = 0)) && rng 1 4095 (fld (wd p 8) 4 12)
  common && (match i with
    | .sw => (rng 80 200 (fld (wd p 4) 8 8) || decide (fld (wd p 4) 8 8 = 0)) && rng 20 80 (fld (wd p 13) 0 8) &&
        swStall p
    | .act => actProfileOk p
    | .lux => luxProfileOk p
    | .fld => fldProfileOk p)
where
  /-- STALL_ACT 3 makes the profile invalid, and STALL_T is 1 to 255 in a profile of a load type that HB takes; HS ignores
  both words (R223, R227; DEDUCED, notes/assumptions/34). -/
  swStall (p : List Word) : Bool :=
    decide (fld (wd p 15) 8 2 ≠ 3) && (!decide (fld (wd p 0) 0 3 = 2 ∨ fld (wd p 0) 0 3 = 4) || decide (1 ≤ fld (wd p 15) 0 8))

/-- PROF_BASE as an address. -/
def profBase (s : State) (i : OutIsl) : Nat := (s.reg i.oib).toNat + 65536 * s.regFld (i.oib + 1) 0 8

/-- A write of PROF_CMD: LOAD checks the address and starts the copy, or is refused (R199, R200). -/
def profCmd (i : OutIsl) (v : Word) (s : State) : State :=
  if !bit v 0 ∨ s.regBit (i.oib + 3) 1 then s
  else
    let a := profBase s i
    if a < 0x800000 ∨ 0x880000 < a + 1024 then s.setRegFld (i.oib + 3) 2 2 2
    else
      let copy := (List.range 1024).foldl (fun m k => Sparse.set (fun _ => 0#16) m k (s.memWord (a + k))) ([] : Sparse Word)
      let bad := s.anyDbe a 1024
      let s1 := s.setOut i { s.out i with copy := some (a, copy), copyBad := bad }
      s1.setRegBit (i.oib + 3) 1 true

/-- Word `k` as the copy holds it at its end: a word stored to since LOAD is the old or the new one (R199). -/
def copyWord (a : Nat) (copy : Sparse Word) (k : Nat) (s : State) : Word × State :=
  let old := Sparse.get (fun _ => 0#16) copy k
  let now := s.memWord (a + k)
  if old = now then (old, s) else (if s.freeBool then now else old, s.used)

/-- The copy with each changed word decided. -/
def settleCopy (a : Nat) (copy : Sparse Word) : List Nat → Sparse Word → State → Sparse Word × State
  | [], m, s => (m, s)
  | k :: r, m, s =>
    let (v, s1) := copyWord a copy k s
    settleCopy a copy r (Sparse.set (fun _ => 0#16) m k v) s1

/-- The profiles channels of an island use (R200). -/
def usedProfiles (s : State) (i : OutIsl) : List Nat :=
  (List.range 64).filter fun p => i.chans.any fun ch =>
    let c := s.chan ch
    (decide (modeOf c.act ≠ 0) && decide (fld (wd c.act 1) 0 6 = p)) ||
      (match c.pend with
        | some (l, _, _) => decide (modeOf l ≠ 0) && decide (fld (wd l 1) 0 6 = p)
        | none => false)

/-- The 16 words of profile `p` in a bank. -/
def bankWords (m : Sparse Word) (p : Nat) : List Word := (List.range 16).map fun k => Sparse.get (fun _ => 0#16) m (16 * p + k)

/-- A channel goes on with its profile as the bank now in use holds it; a changed valve starts from its profile's own
time-averages (R200). -/
def renewProfile (i : OutIsl) (m : Sparse Word) (t : State) (ch : ChanRef) : State :=
  let c := t.chan ch
  let pw := bankWords m (fld (wd c.act 1) 0 6)
  if c = {} then t
  else
    let t1 := t.setChan ch { c with
      prof := pw,
      asideProf := if c.aside = [] then c.asideProf else bankWords m (fld (wd c.aside 1) 0 6) }
    if i = .act ∧ pw ≠ c.prof then t1.setReg (ch.port 0x1F) 0 else t1

/-- The copied bank comes into use, with the validity words of its profiles (R199, R200). -/
def useBank (i : OutIsl) (m : Sparse Word) (valid : List Nat) (s : State) : State :=
  let firstBad := ((List.range 64).find? fun p => !valid.contains p).getD 0
  let s1 := (s.setOut i { s.out i with bank := m }).setReg (i.oib + 3) (pack [(0, 1), (2, 1), (4, firstBad)])
  let s2 := (List.range 4).foldl (fun t k => t.setReg (i.oib + 4 + k)
    (packBits ((List.range 16).map fun b => (b, valid.contains (16 * k + b))))) s1
  i.chans.foldl (renewProfile i m) s2

/-- A copy read without an error settles and its bank comes into use, unless a profile in use is invalid there (R200). -/
def takeCopy (i : OutIsl) (a : Nat) (copy : Sparse Word) (s : State) : State :=
  let (m, s1) := settleCopy a copy (List.range 1024) [] s
  let valid := (List.range 64).filter fun p => profileValid i (bankWords m p)
  match (usedProfiles s1 i).find? fun p => !valid.contains p with
  | some p => s1.setReg (i.oib + 3) (putFld (putFld (putBit (s.reg (i.oib + 3)) 1 false) 2 2 2) 4 6 p)
  | none => useBank i m valid s1

/-- PROFILE_SWAP: the copy completes and the banks swap, or the load is refused and the old table kept (R200). -/
def profileSwap (i : OutIsl) (s : State) : State :=
  let o := s.out i
  match o.copy with
  | none => s
  | some (a, copy) =>
    let s0 := (memBurst i.island 0 1024 s).setOut i { o with copy := none, copyBad := false }
    if o.copyBad then
      (s0.raiseIsl i.island 1 none).setReg (i.oib + 3) (putFld (putBit (s0.reg (i.oib + 3)) 1 false) 2 2 3)
    else takeCopy i a copy s0

/-! Retirement commands and takeover. -/

/-- A write of RET_CLEAR (R214). -/
def retClear (r : Requester) (i : OutIsl) (v : Word) (s : State) : State :=
  let ch : ChanRef := ⟨i, fld v 0 7⟩
  let auth := match r with
    | .core c => s.regBit (i.oib + 8) c
    | _ => false
  if auth && decide (fld v 8 8 = 0x3C) && ch.ok && decide ((s.chan ch).reason ≠ 0) then
    let s1 := match (s.chan ch).carriedBy with
      | some p => endCarry ⟨i, p⟩ true s
      | none => s
    let s2 := s1.modChan ch fun c => { c.resetEvidence with
      act := c.act.set 0 0, reason := 0, retDiag := 0, count := 0, recur := [], carriedBy := none, tkDue := none, pend := none,
      quiet := 0, quietFrom := none,
      pause := none, pauseRun := none, retry := false }
    let s3 := bankLocks (queueRecord ch true 0 0 (retiredBit ch false s2))
    s3.setRegBit (i.oib + 0x0A) 1 false
  else s.setRegBit (i.oib + 0x0A) 1 true

/-- A takeover that is due may take effect now: of a channel under PWM, or of a lamp's sink, at its period boundary, or once
5 ms have passed since the decision; of any other at once (R216, Table 10.10). -/
def takeoverTime (s : State) (ch : ChanRef) (at_ : Nat) : Bool :=
  let c := s.chan ch
  let timed := pwmSet ch c.act || (decide (ch.isl = .lux) && (lampOf s ch.idx).isSome)
  !timed || isBoundary s ch || decide (at_ + 5000 ≤ s.now)

/-- PARTNER_TAKEOVER: the partner adopts the retired channel's set and starts under its own gate; where the takeover is not
made at a period boundary the period restarts with it (R216). -/
def partnerTakeover (ch : ChanRef) (s : State) : State :=
  let c := s.chan ch
  match c.tkDue with
  | none => s
  | some t0 =>
    if !takeoverTime s ch t0 then s
    else
      let s0 := s.modChan ch fun c => { c with tkDue := none }
      match partnerOf ch c.act with
      | none => s0
      | some p =>
        let q := s0.chan p
        if q.reason ≠ 0 ∨ modeOf q.act ≠ 0 then takeoverFails ch p s0
        else
          let ref := if isBoundary s ch then (s.chan ch).perRef else some s.now
          let s1 := s0.setChan p { q.resetEvidence with
            aside := q.act, asideProf := q.prof, act := carriedSet c.act, prof := c.prof, carries := some ch.idx,
            perRef := if pwmSet ch c.act || decide (ch.isl = .lux) then ref else none }
          let s2 := s1.modChan ch fun c => { c with carriedBy := some p.idx }
          let s3 := (s2.diag ch 11).diag p 11
          let s4 := if (s3.chan p).latch then takeoverFails ch p s3 else s3
          (tryStart p s4).oibEvent ch.isl 10

/-- RETIREMENT_RECORD_WRITE: the oldest queued record, or the compaction that is due, goes into generation 0 and then
into generation 1 (R210). -/
def recordWrite (i : OutIsl) (s : State) : State :=
  let o := s.out i
  let free (g : Nat) := !settingsBusyIn s g
  if o.compDue ∧ o.half.isNone then
    if !o.compGen0 then
      if free 0 then (compact i 0 (retiredSet s i) s).setOut i { o with compGen0 := true, queue := [] } else s
    else if free 1 then (compact i 1 (retiredSet s i) s).setOut i { o with compGen0 := false, compDue := false }
    else s
  else
    match o.half with
    | some r => if free 1 then (programRecord i 1 r s).setOut i { o with half := none } else s
    | none =>
      match o.queue with
      | [] => s
      | r :: q => if free 0 then (programRecord i 0 r s).setOut i { o with queue := q, half := some r } else s

end Sys2Proof.Machine
end

