-- ==== Sys2Proof/Machine/NetBase.lean ====
section
/-! DEFINITION. Ports, isolation, wake frames and the sending side of the tatting ring (R350–R378): what reset, the
Sampler and the wake causes use of NET.
The readings and choices it rests on: notes/assumptions/42, 43, 46, 47, 66. -/

namespace Sys2Proof.Machine

/-! Addresses and ports (R351, R352). -/

/-- The block of CAN_n (Table 12.3). -/
def canBase (n : Nat) : Nat := 0xA30100 + 0x20 * n
/-- The block of Ethernet port k (Table 12.5). -/
def ethBase (k : Nat) : Nat := 0xA30200 + 0x20 * k
/-- The block of LIN_n (Table 12.4). -/
def linBase (n : Nat) : Nat := 0xA30300 + 0x10 * n
/-- A word of a port's transmit ring group: 0, 1 BASE, 2 WP, 3 RP, 4 GWQ, 5 RXCNT, 6 TXCNT. -/
def txr (p w : Nat) : Nat := (if p < 8 then canBase p + 8 else ethBase (p - 8) + 9) + w
/-- The port is isolated (R362). -/
def isolated (s : State) (p : Nat) : Bool := s.regBit 0xA30805 p
/-- The port's block enables it. -/
def portEn (s : State) (p : Nat) : Bool := s.regBit (if p < 8 then canBase p else ethBase (p - 8)) 0
/-- The port takes part in its bus: NET in RUN, enabled, not isolated, not bus-off. -/
def onBus (s : State) (p : Nat) : Bool :=
  s.running .net && portEn s p && !isolated s p && !(decide (p < 8) && decide (s.regFld (canBase p + 6) 0 2 = 2))

/-- A flag of NET_EV_FLAG with its routed event: 0 RX, 1 TR, 2 ISO, 3 BOFF. -/
def netEvent (k : Nat) (s : State) : State :=
  let s1 := s.setRegBit 0xA30006 k true
  if s1.regBit 0xA30005 (9 + k) then s1.route (s1.reg 0xA30005) else s1

/-- A frame dropped: GW_DROP. -/
def gwDrop (s : State) : State := s.regInc 0xA30004
/-- A frame dropped at a destination port: its own count and GW_DROP (R361). -/
def gwDropAt (p : Nat) (s : State) : State :=
  gwDrop (s.setRegFld (txr p 4) 8 8 (satInc 0xFF (s.regFld (txr p 4) 8 8)))
/-- A count modulo 65,536. -/
def countUp (a : Nat) (s : State) : State := s.setReg a (w16 (s.regN a + 1))

/-- A CAN channel can send: on its bus, neither monitoring nor restricted (ISO 11898-1). -/
def canSends (s : State) (n : Nat) : Bool := onBus s n && !s.regBit (canBase n) 3 && !s.regBit (canBase n) 4
/-- The nominal bit time of a CAN channel in cycles of f_CAN (R351, Table 12.3). -/
def canBit (s : State) (n : Nat) : Nat :=
  let b := canBase n
  (s.regFld (b + 1) 0 5 + 1) * (1 + (s.regFld (b + 1) 8 8 + 1) + (s.regFld (b + 2) 0 7 + 1))
/-- The bit time of the data phase, of a frame sent with bit-rate switch. -/
def canDataBit (s : State) (n : Nat) : Nat :=
  let b := canBase n
  (s.regFld (b + 3) 0 5 + 1) * (1 + (s.regFld (b + 3) 8 5 + 1) + (s.regFld (b + 4) 0 4 + 1))
/-- A CAN frame goes on a channel's bus. -/
def putCan (n : Nat) (f : CanFrame) (s : State) : State :=
  countUp (txr n 6) (s.send (.can n (canBit s n) (if f.brs then canDataBit s n else canBit s n) f))
/-- A CAN frame put on a channel's bus at once; toward an isolated port it is dropped and counted. -/
def sendCan (n : Nat) (f : CanFrame) (s : State) : State :=
  if isolated s n then gwDropAt n s
  else if canSends s n then putCan n f s else s

/-! The state of the ring (Tables 12.14 and 12.16). -/

/-- TR_STAT.STATE. -/
def trState (s : State) : Nat := s.regFld 0xA30049 0 3
/-- The engine goes to a state; a change sets NET_EV_FLAG.TR, and the ring overruled source follows OVERRULED. -/
def setTrState (k : Nat) (s : State) : State :=
  if trState s = k then s
  else netEvent 1 ((s.setRegFld 0xA30049 0 3 k).level 165 (decide (k = 5)))
/-- The channels of the ring medium. -/
def trSeg (s : State) : List Nat := bitsSet 8 (s.regN 0xA30042)
/-- Node m is a member. -/
def isMember (s : State) (m : Nat) : Bool := decide (m < 64) && s.regBit (0xA30050 + m / 16) (m % 16)
/-- Node m is barred. -/
def isBarred (s : State) (m : Nat) : Bool := decide (m < 64) && s.regBit (0xA30054 + m / 16) (m % 16)
/-- The members in order. -/
def members (s : State) : List Nat := (List.range 64).filter fun m => isMember s m
/-- A node joins or leaves the member list (R371). -/
def setMember (m : Nat) (b : Bool) (s : State) : State :=
  if b && isBarred s m then s else s.setRegBit (0xA30050 + m / 16) (m % 16) b
/-- The ring engine's record changed. -/
def modRing (f : RingRec → RingRec) (s : State) : State := { s with net := { s.net with ring := f s.net.ring } }
/-- A member's run of vetoes ends. -/
def clearVeto (m : Nat) (s : State) : State := modRing (fun r => { r with veto := r.veto.set (fun _ => none) m none }) s
/-- A member's run of skips ends. -/
def clearSkips (m : Nat) (s : State) : State := modRing (fun r => { r with skips := r.skips.set (fun _ => 0) m 0 }) s
/-- A node is no longer a member: what was recorded of it goes. -/
def removeMember (m : Nat) (s : State) : State := clearSkips m (clearVeto m (setMember m false s))
/-- The lowest-numbered member. -/
def lowestMember (s : State) : Option Nat := (members s).head?

/-- HOLDER of TR_STAT; a token received is held from now on. -/
def setHolder (b : Bool) (s : State) : State :=
  let s1 := s.setRegBit 0xA30049 3 b
  if b then modRing (fun r => { r with heldFrom := s.now }) s1 else s1
/-- The wait for a TOKEN begins anew (R378). -/
def tokenTimer (s : State) : State := modRing (fun r => { r with lostFrom := s.now }) s

/-- The eight data bytes of a ring frame (Table 12.12). -/
def ringData (typ round next run : Nat) (consent : Bool) (subj : Nat) : List Byte :=
  [byte (0x10 + typ), byte round, byte next, byte run, byte (b2n consent), byte subj, 0, 0]
/-- A ring frame of a node: identifier TR_BASE + node, DLC 8 (R369). -/
def ringCan (s : State) (src : Nat) (data : List Byte) : CanFrame :=
  { ide := false, fd := false, brs := false, esi := false, id := s.net.ring.base + src, dlc := 8, data := data }
/-- The controller sends a ring frame on every channel of TR_SEG (R369). -/
def sendRing (data : List Byte) (s : State) : State :=
  (trSeg s).foldl (fun t n => sendCan n (ringCan t t.net.ring.node data) t) s
/-- ROUND last seen. -/
def trRound (s : State) : Nat := s.regFld 0xA30049 8 8
/-- The controller sends JOIN: it is a member, and reset is pending (R371). -/
def sendJoin (s : State) : State :=
  (setMember s.net.ring.node true (sendRing (ringData 1 (trRound s) 0xFF 0xFF false 0xFF) s)).setRegBit 0xA30049 5 true
/-- The engine enters JOINING and sends JOIN (R378, Table 12.14). -/
def enterJoining (s : State) : State :=
  sendJoin (tokenTimer (setTrState 1 (setHolder false (modRing (fun r => { r with wait := none, quietFrom := none, regen := false }) s))))

/-- A sleep is cancelled (R374): back to AWAKE; the lowest-numbered member sends a TOKEN with RUN 0xFF after TR_PACE. -/
def cancelSleep (s : State) : State :=
  let s1 := tokenTimer (setTrState 2 (modRing (fun r => { r with quietFrom := none }) s))
  let s2 := s1.setRegFld 0xA3004E 8 8 (satInc 0xFF (s1.regFld 0xA3004E 8 8))
  if lowestMember s2 = some s2.net.ring.node then setHolder true (modRing (fun r => { r with regen := true }) s2)
  else s2

/-- The quiet window has been running for less than or exactly so many µs. -/
def inQuiet (s : State) (us : Nat) : Bool :=
  decide (trState s = 3) && (match s.net.ring.quietFrom with | some t => decide (s.now ≤ t + us) | none => false)

/-- The controller cancels a committed sleep, no later than 198 ms into the window (R374). -/
def ringRevoke (s : State) : State :=
  if s.running .net && inQuiet s 198000 then
    cancelSleep (setMember s.net.ring.node true (sendRing (ringData 5 (trRound s) 0xFF 0xFF false 0xFF) s))
  else s
/-- A wake cause latches: it revokes a committed sleep where TR_REVOKE_EN names it. -/
def ringWake (b : Nat) (s : State) : State := if s.regBit 0xA30048 b then ringRevoke s else s

/-! Isolation (R362). -/

/-- What a port's isolation does to its PHY: a 100BASE-T1 port goes into TC10 sleep, a 10BASE-T1S port is disabled. -/
def isolatePhy (p : Nat) (s : State) : State :=
  if p < 8 then s
  else
    let a := ethBase (p - 8) + 7
    let s1 := s.setRegBit a 0 false
    if p < 10 then s1.setRegFld a 1 3 3 else s1.setRegBit a 4 false
/-- GW_ISO takes a value: ISO on each new isolation, the segment isolation source while a port is isolated. -/
def setIso (v : Word) (s : State) : State :=
  let new := bitsSet 14 ((v &&& ~~~ s.reg 0xA30805) &&& 0x3FFF#16).toNat
  let s1 := (s.setReg 0xA30805 (v &&& 0x3FFF#16)).level 164 (decide (v &&& 0x3FFF#16 ≠ 0))
  if new = [] then s1 else netEvent 2 (new.foldl (fun t p => isolatePhy p t) s1)
/-- A port is isolated: by the Sampler (R436) or the ring engine (R377). -/
def isolatePort (p : Nat) (s : State) : State :=
  if p < 14 then setIso (putBit (s.reg 0xA30805) p true) s else s

/-! Wake frames (R368). -/

/-- The wake frame of the wake block. -/
def wakeFrame (s : State) : CanFrame :=
  let ide := s.regBit 0xA3080E 13
  let id := s.regN 0xA3080D + 65536 * s.regFld 0xA3080E 0 13
  let n := Nat.min 8 (s.regFld 0xA3080F 0 4)
  { ide := ide, fd := false, brs := false, esi := false, id := if ide then id else id % 2048, dlc := n,
    data := (bytesOf (s.regList 0xA30810 4)).take n }
/-- A LIN channel's wake-up signal is on (R354). -/
def linWaking (s : State) (n : Nat) : Bool := decide (s.now < s.net.linWakeEnd.get (fun _ => 0) n)
/-- A LIN channel drives a 1 ms dominant wake-up signal, once while one is on (R14, R354). -/
def linWakeStart (n : Nat) (s : State) : State :=
  if linWaking s n then s
  else { s with net := { s.net with linWakeEnd := s.net.linWakeEnd.set (fun _ => 0) n (s.now + 1000) } }.send (.linWake n)
/-- Wake frames or LIN wake-up signals are under way. -/
def wakeBusy (s : State) : Bool :=
  ((List.range 8).any fun n => (s.net.wake.get (fun _ => none) n).isSome) || ((List.range 12).any fun n => linWaking s n)
/-- NET starts the wake frames, LIN wake-up signals and TC10 wakes on ports that are not isolated. -/
def sendWake (s : State) : State :=
  if !s.running .net then s
  else
    let s1 := (bitsSet 8 (s.regN 0xA3080A)).foldl (fun t n =>
      if isolated t n ∨ (t.net.wake.get (fun _ => none) n).isSome then t
      else { t.setRegBit (canBase n + 6) 2 true with net := { t.net with wake := t.net.wake.set (fun _ => none) n (some (wakeFrame t)) } }) s
    let s2 := (bitsSet 12 (s1.regN 0xA3080B)).foldl (fun t n => linWakeStart n t) s1
    let s3 := (bitsSet 2 (s2.regN 0xA3080C)).foldl (fun t n =>
      if isolated t (8 + n) then t else (t.setRegFld (ethBase n + 7) 1 3 4).send (.tc10 n true)) s2
    s3.setRegBit 0xA30814 0 true

/-- NET is released: the microsecond counter starts, the isolation source follows GW_ISO, and wake frames follow an exit
from a parking mode whose first cause WF_CAUSE names (R362, R368). -/
def netOnRun (s : State) : State :=
  let s1 := ({ s with net := { s.net with usBase := s.now } }).level 164 (decide (s.reg 0xA30805 ≠ 0))
  let first := s1.regFld 0xA70105 0 4
  let parked := s1.regFld 0xA70100 0 2 = 1 ∨ s1.regFld 0xA70100 0 2 = 2
  if parked ∧ !s1.bring.taken ∧ first ≠ 15 ∧ s1.regBit 0xA30809 first then sendWake s1 else s1

/-! Reset, Park and the wake lines. -/

/-- A reset of NET: all it holds beside the words in AON. -/
def resetNet (s : State) : State := { s with net := {} }
/-- The links of NET's terminals drop where NET is isolated (Table 2.11). -/
def netTerminals (s : State) : State := (List.range 6).foldl (fun t k => t.setReg (ethBase k + 7) (t.reg (ethBase k + 7) &&& 0xFFEE#16)) s
/-- Step 3 of Table 3.8: in Park the 100BASE-T1 ports go into TC10 sleep (R356). -/
def netSleep (deep : Bool) (s : State) : State :=
  if deep then s
  else [0, 1].foldl (fun t k =>
    if t.regBit (ethBase k) 0 && t.regBit (ethBase k) 3 then (t.setRegFld (ethBase k + 7) 1 3 3).setRegBit (ethBase k + 7) 0 false
    else t) s
/-- A reset of AON: what it holds beside its words. -/
def resetAon (s : State) : State :=
  { s with filts := s.filts.filter (fun e => decide (64 ≤ e.1)), poll := none, spreadDue := none, pollAt := 0, parkSec := 0 }
/-- The level of a wake line while this controller does not drive it is the vehicle's; `k` numbers the free value. -/
def wakeLineLow (s : State) (k n : Nat) : Bool := s.regBit 0xA30808 (2 + n) || Config.freeBool (k + n)

end Sys2Proof.Machine
end

