-- ==== Sys2Proof/Machine/Hold.lean ====
section
/-! DEFINITION. Hold after a reset (R107–R109), the safe latch's effect on channels (R437), and what an island's reset
does to the records beside its registers.
The readings and choices it rests on: notes/assumptions/37. -/

namespace Sys2Proof.Machine

/-- Every channel of an output island goes into hold with its committed state; a retired one stays retired; the series
starts (R107, R109). What only the control part holds is lost: a pending snapshot; the governor's ceiling stays latched. -/
def enterHold (i : Island) (s : State) : State :=
  match outOf i with
  | none => s
  | some o =>
    let s1 := o.chans.foldl (fun t ch =>
      let c := t.chan ch
      t.setChan ch { c with pend := none, hold := true, waitFrom := none, admitted := false, readyAt := none }) s
    { s1 with boostKeep := if i = .act then some (boostWords s) else s1.boostKeep,
              lux := if i = .lux then { s1.lux with keep := matrixRuns s } else s1.lux,
              holdStart := if s1.holdStart.isSome && outIslands.any (fun o => islHeld o s) then s1.holdStart else some s1.now }

/-- A channel goes to its state of Table 2.11: off, nothing committed, carrying made again from the retirement set
(R107, R217). -/
def toTable211 (ch : ChanRef) (s : State) : State :=
  let c := s.chan ch
  let s1 := endCarry ch false s
  let s2 := match c.carries with
    | some r => s1.modChan ⟨ch.isl, r⟩ fun d => { d with tkDue := some s.now }
    | none => s1
  stopChan ch (s2.modChan ch fun d => { d.resetEvidence with
    act := if d.reason = 0 then [] else d.act, mar := none, hold := false, pause := none, pauseRun := none, retry := false,
    ceil := 0, stall := false, stallAct := none, atEdge := false, perRef := none })

/-- After 250 ms every channel still in hold goes to its state of Table 2.11 (R107). -/
def leaveHold (s : State) : State :=
  outIslands.foldl (fun t i => i.chans.foldl (fun u ch => if (u.chan ch).hold then toTable211 ch u else u) t) s

/-- At least one channel is in hold (Table 4.13). -/
def anyHeld (s : State) : Bool := outIslands.any fun i => islHeld i s

/-- The safe latch turns off every channel that is not kept (R437). -/
def safeOff (s : State) : State :=
  outIslands.foldl (fun t i => i.chans.foldl (fun u ch =>
    if (u.chan ch).on && safeHeld u ch then stopChan ch u else u) t) s

/-- At SAFE_END each channel that was not kept returns to its active set as a start (R437). -/
def safeEnd (s : State) : State := outIslands.foldl (fun t i => tryAll i t) s

/-- The first channel that is neither committed off nor retired, in island and index order (Table 3.7). -/
def parkOffender (s : State) : Option (Nat × Nat) :=
  (outIslands.flatMap OutIsl.chans).findSome? fun ch =>
    let c := s.chan ch
    if c.reason = 0 ∧ (modeOf c.act ≠ 0 ∨ c.pause.isSome ∨ c.mar.isSome) then some (ch.isl.island.num, ch.idx) else none

/-- A reset takes an output island's pinned table and its copy; retirement records not yet programmed are not lost (R103,
R210). -/
def keepRecords (i : OutIsl) (s : State) : State :=
  let o := s.out i
  s.setOut i { queue := o.queue, half := o.half, compDue := o.compDue, compGen0 := o.compGen0 }

/-- What a reset of an island does to its records: the control part returns to its reset state, the stage domain stays
(R101, R103); NET drives no wake line any more (Table 2.11). -/
def resetRecords (i : Island) (s : State) : State :=
  match i with
  | .sw => { keepRecords .sw s with sw := {} }
  | .act => resetAct (keepRecords .act s)
  | .lux => resetLux (keepRecords .lux s)
  | .fld => resetFld (keepRecords .fld s)
  | .net => resetNet (s.setRegFld 0xA30808 2 2 0)
  | .sec => resetSec s
  | .lnk => resetLnk s
  | .aon => resetAon s
  | .sup => { s with srcs := s.srcs.map (fun e => (e.1, { lvl := e.2.lvl, lvlRes := e.2.lvlRes })), logq := [], logSeq := 0,
                     marTable := [], mar := [] }
  | .mem => resetMem s
  | _ => s

end Sys2Proof.Machine
end

