-- ==== Sys2Proof/Machine/MarTable.lean ====
section
/-! DEFINITION. Marionette entries: which are valid, the channels they name and the sets they drive them with
(Table 4.9, R126–R128).
The readings and choices it rests on: notes/assumptions/26. -/

namespace Sys2Proof.Machine

/-- The island of an entry, and its PORT. -/
def marIsl (e : List Word) : Option OutIsl :=
  match fld (wd e 1) 12 4 with
  | 0 => some .sw
  | 2 => some .lux
  | 5 => some .fld
  | _ => none
/-- PORT of an entry. -/
def marPort (e : List Word) : Nat := fld (wd e 1) 0 12
/-- BRIDGE of an entry. -/
def marBridge (e : List Word) : Bool := bit (wd e 2) 5
/-- The entry names channels that exist, outside ACT, and uses defined codes only (R126). -/
def marValid (e : List Word) : Bool :=
  let p := fld (wd e 0) 0 12
  let trig := match fld (wd e 0) 12 4 with
    | 1 => true
    | 2 => decide (p < 48)
    | 3 => decide (p < 48)
    | 4 => decide (p < 2)
    | 5 => decide (p < 10)
    | 6 => decide (p < 4)
    | _ => false
  let port := match marIsl e with
    | some i => decide (marPort e < i.count)
    | none => false
  let bridge := !marBridge e || (decide (marIsl e = some .sw) && decide (64 ≤ marPort e) && decide (marPort e % 2 = 0))
  trig && port && bridge && decide (fld (wd e 2) 0 4 ≤ 3) && decide (fld (wd e 6) 0 8 ≤ 7)

/-- The channels an entry names: one, or both half bridges of a full bridge. -/
def marChans (e : List Word) : List ChanRef :=
  match marIsl e with
  | some i => if marBridge e then [⟨i, marPort e⟩, ⟨i, marPort e + 1⟩] else [⟨i, marPort e⟩]
  | none => []

/-- The set an entry drives a channel with: ON or OFF; a sink's current; the side of a half bridge (R127). -/
def marSet (e : List Word) (ch : ChanRef) (on : Bool) : List Word :=
  let high := !marBridge e || (decide (ch.idx = marPort e) == !bit (wd e 2) 4)
  let ua := clampN 250 60000 ((wd e 5).toNat * 250)
  (((List.replicate 15 0#16).set 0 (pack [(0, b2n on)])).set 6 (if ch.isl = .lux then w16 ua else 0#16)).set 0x0D
    (if ch.isl = .sw then packBits [(0, !high)] else 0#16)
/-- The fixed settings of an entry as a profile: LEVEL with twice LEVEL for 20 ms, N = 3, P0 = 100 ms, G = 2, 40 K,
WIRE at 105 °C, load type 0 or, for a half bridge, 2 (R127). -/
def marProfile (e : List Word) (ch : ChanRef) : List Word :=
  let lim := (wd e 5).toNat * 25
  let cap (n : Nat) := w16 (Nat.min n 0xFFFF)
  [if ch.isl = .sw ∧ 64 ≤ ch.idx then 0x8002#16 else 0x8000#16, cap (2 * lim), if ch.isl = .sw then 200#16 else 0#16, cap lim,
   pack [(0, fld (wd e 6) 0 3), (8, 105)], 0x0013#16, 100#16, 0#16, 0x0010#16, 0#16, 0#16, 0#16, 0#16, 40#16, 0#16, 0#16]

/-- MAR_ACT and MAR_DONE bit of an entry. -/
def marBit (base n : Nat) (b : Bool) (s : State) : State := s.setRegBit (base + n / 16) (n % 16) b

/-- An entry's runtime. -/
def State.marAt (s : State) (n : Nat) : MarEntry := s.mar.get (fun _ => {}) n
/-- An entry's runtime written. -/
def State.setMar (s : State) (n : Nat) (m : MarEntry) : State := { s with mar := s.mar.set (fun _ => {}) n m }

/-- The entry that drives a channel: the lowest-numbered active one that names it and has not lost it (R127, R128). -/
def marDriver (s : State) (ch : ChanRef) : Option Nat :=
  (List.range s.marTable.length).find? fun n =>
    let m := s.mar.get (fun _ => {}) n
    m.active && decide (ch ∈ marChans (s.marTable.getD n [])) && decide (ch.idx ∉ m.lost)

/-- A channel takes what an entry drives it with, once its island runs (R78): the entry claims it from hold, and it starts or
stops where that changed (R127). Evidence from before a change of what drives it does not count (R203). -/
def marTake (e : List Word) (on : Bool) (ch : ChanRef) (s : State) : State :=
  let new := (marSet e ch (on && decide (fld (wd e 2) 0 4 ≠ 0)), marProfile e ch)
  let c := s.chan ch
  if (c.mar = some new ∧ !c.hold) ∨ !s.running ch.isl.island then s
  else
    let d := if c.mar.map (fun m => modeOf m.1) = some (modeOf new.1) then c else c.resetEvidence
    let s1 := s.setChan ch { d with mar := some new, hold := false, win := if c.mar.isNone then none else c.win }
    if modeOf new.1 = 0 then stopChan ch s1
    else if c.on ∧ c.mar.isSome then s1
    else tryStart ch (stopChan ch s1)
/-- The channels follow their entries (R127). -/
def marDrive (s : State) : State :=
  (List.range s.marTable.length).foldl (fun t n =>
    let e := t.marTable.getD n []
    (marChans e).foldl (fun u ch =>
      if marDriver u ch = some n then marTake e (u.mar.get (fun _ => {}) n).on ch u else u) t) s
/-- An entry has ended: its channels go to their state of Table 2.11 unless another entry drives them (R128). -/
def marRelease (e : List Word) (s : State) : State :=
  (marChans e).foldl (fun t ch =>
    if (marDriver t ch).isNone ∧ (t.chan ch).mar.isSome then toTable211 ch t else t) s

/-- An entry ends: its channels go to their state of Table 2.11 unless another entry drives them (R128). -/
def marEnd (n : Nat) (s : State) : State :=
  let m := s.marAt n
  let s1 := marBit 0xA80009 n false (s.setMar n { m with active := false, on := false, count := 0 })
  if m.active then marRelease (s.marTable.getD n []) s1 else s1

/-- A reset of SUP, or of the island whose channels they drive, stops the pulses that run (R122). -/
def stopPulses (i : Island) (s : State) : State :=
  (List.range s.marTable.length).foldl (fun t n =>
    let e := t.marTable.getD n []
    if (t.marAt n).active ∧ fld (wd e 2) 0 4 = 3 ∧ (i = .sup ∨ (marIsl e).map OutIsl.island = some i) then marEnd n t else t) s

/-- The service stops evaluating once programs have taken over and every output island is calibrated (R128). -/
def marCheckEnd (s : State) : State :=
  if s.regBit 0xA80005 9 && s.bring.taken && decide (s.regFld 0xA80005 5 4 = 15) then
    (s.setRegBit 0xA80005 9 false).setRegBit 0xA80005 10 true
  else s

end Sys2Proof.Machine
end

