-- ==== Sys2Proof/Machine/Valve.lean ====
section
/-! DEFINITION. The events of ACT: peaks, turn-offs, boost, bank rails, diagnosis of valves (R265–R291).
The readings and choices it rests on: notes/assumptions/6, 37. -/

namespace Sys2Proof.Machine

/-- A new lock of a bank: its source and its event (R286). -/
def newLock (k : Nat) (was : Bool) (s : State) : State :=
  let s1 := bankLocks s
  if !was && decide (lockWhy s1 k ≠ 0) then actEvent 1 none (some k) s1 else s1

/-- Every channel of a bank in peak or hold turns off through its recovery path and counts nothing (R285). -/
def bankOff (k : Nat) (s : State) : State :=
  (bankValves k).foldl (fun t n => if (t.chan (vl n)).on then
    (actStop n t).modChan (vl n) fun c => { c with on := false, win := none } else t) s

/-- A counted trip of a valve; one diagnosed SHORT_GND turns the bank rail off, and locks the bank where it retires the
channel (R285). -/
def valveTrip (n code : Nat) (s : State) : State :=
  let k := n / 4
  let was := decide (lockWhy s k ≠ 0)
  let s1 := countedTrip (vl n) code s
  if code = 3 then newLock k was (bankOff k (s1.modBank k fun b => { b with heldBy := some n, probe := none }))
  else newLock k was s1

/-- The peak of a valve is over: the low side is off and the current quenches to I_HOLD through the recovery path, then is
regulated; E_LAST takes what a peak from VBST drew (R269, R279). -/
def endPeak (n drawn : Nat) (s : State) : State :=
  let v := s.valve n
  let s1 := if v.fromBst then s.setReg ((vl n).port 0x1F) (w16 (Nat.min drawn 0xFFFF)) else s
  (s1.modValve n fun v => { v with
      ph := .hold, fromBst := false, drawn := 0, holdAt := s.now, low := false, lowAt := s.now, path := .recovery }).modChan
    (vl n) fun c => { c with win := none }

/-- The evaluation at the end of a peak: the waiting starts of every bank, the oldest peak first as the gate orders them
(R281). -/
def afterPeak (s : State) : State := (List.range 16).foldl (fun t n => actSchedule n t) s

/-- A pulse reaches its length: the valve turns off (R265). -/
def endPulse (n : Nat) (s : State) : State := stopChan (vl n) s

/-- PEAK_START: the scheduler's evaluation for a waiting start (R281). -/
def execPeakStart (n : Fin 16) (vbst : Nat) (s : State) : Out :=
  .next (if s.running .act then actSchedule n (boostMeasure vbst s) else s)

/-- PEAK_END (R269, Table 9.8): the current reached I_PEAK; T_PKMAX elapsed; or the pulse is over. -/
def execPeakEnd (n : Fin 16) (why : PeakEnd) (drawn vbst : Nat) (s : State) : Out :=
  let s0 := boostMeasure vbst s
  if (s0.valve n).ph ≠ .peak then .next s0
  else
    let c := s0.chan (vl n)
    let v := s0.valve n
    let b := (vl n).port 0x1E
    let us := s0.now - v.at_
    let s1 := endPeak n drawn s0
    .next (match why with
      | .reached i =>
        if i < iPeak c then s0
        else
          let s2 := (s1.setRegFld b 0 8 (Nat.min (us / 10) 255)).setRegBit b 8 false
          afterPeak (if us < fld (wd c.pf 14) 0 8 then valveTrip n 4 s2 else evidence (vl n) true s2)
      | .tmax i =>
        if s0.now < c.winEnd then s0
        else
          let s2 := s1.setRegBit b 8 true
          afterPeak (if i < (wd c.pf 9).toNat then evidence (vl n) false s2 else s2)
      | .pulse =>
        if !v.firing ∨ s0.now < v.at_ + pulseUs c then s0
        else afterPeak (endPulse n (s1.setRegBit b 8 false)))

/-- PULSE_END (R265): PULSE × 10 µs after the start of the peak. -/
def execPulseEnd (n : Fin 16) (vbst : Nat) (s : State) : Out :=
  let s0 := boostMeasure vbst s
  let v := s0.valve n
  if !v.firing ∨ s0.now < v.at_ + pulseUs (s0.chan (vl n)) then .next s0
  else if v.ph = .peak then .next (afterPeak (endPulse n (endPeak n v.drawn s0)))
  else .next (endPulse n s0)

/-- TURN_OFF_END: the quench current is below 50 mA; a start that waited for it becomes due (R272, R282). -/
def execTurnOffEnd (n : Fin 16) (i : Nat) (s : State) : Out :=
  if (s.valve n).ph = .quench ∧ i < 50 then .next (actTry n (s.modValve n fun v => { v with ph := .off, path := .none }))
  else .next s

/-- PEAK_ABANDON: a start not begun within DELAY_MAX of becoming due (R282). -/
def execPeakAbandon (n : Fin 16) (s : State) : Out :=
  match (s.valve n).due with
  | none => .next s
  | some t =>
    if s.now < t + delayUs (s.chan (vl n)) then .next s
    else
      let s1 := (s.modValve n fun v => { v with due := none, gaveUp := true, pulse := false }).modBank (n.val / 4) fun b =>
        { b with probe := none }
      let s2 := (s1.modChan (vl n) fun c => { c with retry := false }).setRegBit ((vl n).port 0x1E) 9 true
      .next (actEvent 0 (some n) none (s2.raise 121 (some n)))

/-- BOOST_UNDER (R276). -/
def execBoostUnder (vbst : Nat) (s : State) : Out := .next (boostMeasure vbst s)

/-- BOOST_FAULT: VBST has stayed below 90 % of BST_SET for 100 ms without break while the boost ran (R276). -/
def execBoostFault (vbst : Nat) (s : State) : Out :=
  let s1 := boostMeasure vbst s
  match s1.boostLow with
  | none => .next s1
  | some t =>
    if t + 100000 ≤ s1.now ∧ s1.regBit 0xA1F004 4 = false then
      .next (actEvent 2 none none ((s1.setRegBit 0xA1F004 4 true).level 119 true))
    else .next s1

/-- BOOST_UNDER_CLEAR: VBST is back above BST_VMIN, or out of the fault condition (R276). -/
def execBoostUnderClear (vbst : Nat) (s : State) : Out := .next (boostMeasure vbst s)

/-- VL_SHORT_GND_TRIP: a VL terminal below 1 V for 5 µs with its low side off and the rail at BAT or BST, the probe of
R284 among them (Table 9.8, R285). -/
def execVlShortGndTrip (n : Fin 16) (v us : Nat) (s : State) : Out :=
  let k := n.val / 4
  let w := s.valve n
  if 100 ≤ v ∨ us < 5 ∨ w.low ∨ s.now < w.lowAt + 5 ∨ rail s k = 0 ∨ (s.chan (vl n)).reason ≠ 0 then .next s
  else
    let c := s.chan (vl n)
    let s1 := if c.prof = [] then s.setChan (vl n) { c with prof := profileWords s .act (fld (wd c.act 1) 0 6) } else s
    .next (valveTrip n 3 s1)

/-- RAIL_SHORT_TRIP: 40 A into the rail with no VL terminal of the bank below 1 V; the rail retries with N = 3,
P0 = 10 ms, G = 2, then the bank locks (R286). -/
def execRailShortTrip (k : Fin 4) (i v : Nat) (s : State) : Out :=
  if rail s k = 0 ∨ i < 4000 ∨ v < 100 then .next s
  else
    let was := decide (lockWhy s k ≠ 0)
    let s1 := bankOff k s
    let n := (s1.bank k).bretry + 1
    .next (newLock k was (s1.modBank k fun b => { b with
      bretry := n, quiet := 0, probe := none, lock2 := decide (3 < n),
      retryAt := if n ≤ 3 then some (s.now + 10000 * 2 ^ (n - 1)) else none }))

/-- RAIL_RETRY: the rail's pause has elapsed (R286). -/
def execRailRetry (k : Fin 4) (s : State) : Out :=
  match (s.bank k).retryAt with
  | none => .next s
  | some t => .next (if s.now < t then s else tryBank k (s.modBank k fun b => { b with retryAt := none }))

/-- The rail's time at its current forgives one count of BRETRY each 10 s (R286); one microsecond passes. -/
def railQuiet (s : State) : State :=
  (List.range 4).foldl (fun t k =>
    let b := t.bank k
    if b.bretry = 0 ∨ b.lock2 ∨ rail t k = 0 then t
    else if 10000000 ≤ b.quiet + 1 then t.modBank k fun b => { b with bretry := b.bretry - 1, quiet := 0 }
    else t.modBank k fun b => { b with quiet := b.quiet + 1 }) s

/-- BANK_OFF_CHECK: phase 2 of the off-state check sets or clears NODELOW; `node` in 10 mV (R284). A channel of the
bank with OFFDIAG makes the check. -/
def execBankOffCheck (k : Fin 4) (node : Nat) (s : State) : Out :=
  if rail s k ≠ 0 ∨ !((bankValves k).any fun n => bit (wd (s.chan (vl n)).pf 12) 0) then .next s
  else .next (s.modBank k fun b => { b with nodeLow := decide (node < 100) })

/-- A write of BANK_CLR with its key from a core named in RET_AUTH (R286, Table 9.12). -/
def bankClr (r : Requester) (v : Word) (s : State) : State :=
  let auth := match r with
    | .core c => s.regBit (OutIsl.act.oib + 8) c
    | _ => false
  if fld v 8 8 ≠ 0x69 ∨ !auth then s.setRegBit (OutIsl.act.oib + 0x0A) 1 true
  else
    bankLocks ((List.range 4).foldl (fun t k =>
      if bit v k ∧ (t.bank k).lock2 then tryBank k (t.modBank k fun b => { b with lock2 := false, bretry := 0, quiet := 0 })
      else t) s)

/-- A VH switch's thermal latch turns the rail off and holds the bank's channels, with no count (R287); `a` and `b` are the
last two samples. -/
def bankLatchSet (k : Fin 4) (a b : Therm) (s : State) : State :=
  if (s.bank k).hot ∨ !actHot a b then s
  else actEvent 3 none none ((bankOff k (s.modBank k fun b => { b with hot := true, probe := none })).raiseIsl .act 5 none)

/-- The VH switch has cooled to 150 °C (R287). -/
def bankLatchClear (k : Fin 4) (a b : Therm) (s : State) : State :=
  if !(s.bank k).hot ∨ !actCool a b then s else tryBank k (s.modBank k fun b => { b with hot := false })

/-- The VL short comparator: a low side that is on and carries 12 A, `i` in mA (Table 9.8). -/
def actShortTrip (n : Nat) (side : Side) (i : Nat) (s : State) : State :=
  if side = .low ∧ (s.valve n).low ∧ 12000 ≤ i then afterPeak (valveTrip n 4 s) else s

/-- ACT has no trip at a limit: its limits are regulated (R269, R270). -/
def actLimitTrip (_n : Nat) (s : State) : State := s

/-- The readings of Table 9.8 on a conducting valve, which hold regulation follows; its dissipation, its peak's energy, and
the rail current. -/
def actMeasure (n : Nat) (m : Measure) (s : State) : State :=
  let c := s.chan (vl n)
  let s1 := (s.setReg ((vl n).port 0x1D) (w16 m.pdiss)).setReg (0xA1F014 + n / 4) (w16 m.term)
  let v := s1.valve n
  let s2 := holdChop n m.i.natAbs (if v.ph = .peak ∧ v.fromBst then s1.modValve n fun v => { v with drawn := m.drawn } else s1)
  let low := decide (m.i < ((wd c.pf 9).toNat : Int))
  match m.kind with
  | .peakLow =>
    if v.ph = .peak ∧ low ∧ v.at_ + 200 ≤ s.now then
      afterPeak (evidence (vl n) false ((endPeak n m.drawn s2).setRegBit ((vl n).port 0x1E) 8 false))
    else s2
  | .holdMean =>
    let h : Int := (iHold c : Int)
    if v.ph = .hold ∧ v.holdAt + 1000 ≤ s.now ∧ 9 * h ≤ 10 * m.i ∧ 10 * m.i ≤ 11 * h then evidence (vl n) true s2 else s2
  | .holdLow => if v.ph = .hold ∧ v.low ∧ v.lowAt + 1000 ≤ s.now ∧ low then evidence (vl n) false s2 else s2
  | _ => s2

/-- An off-state reading of phase 1 judged. -/
def actJudge (n v : Nat) (s : State) : State := evidence (vl n) (decide (v ≤ (wd (s.chan (vl n)).pf 10).toNat)) s

/-- The off-state readings of Table 9.8: `v` the terminal and `rv` the rail, in 10 mV. At rail BAT an OPEN point is of the
last millisecond; with the rail OFF phase 1 is made every 10 ms in Run. -/
def actOffCheck (n v : Nat) (rv : Option Nat) (s : State) : State :=
  let c := s.chan (vl n)
  let w := s.valve n
  if c.on ∨ w.ph ≠ .off ∨ c.reason ≠ 0 ∨ s.mode ≠ .run then s
  else
    match rail s (n / 4) with
    | 1 =>
      match rv with
      | some r =>
        if r ≤ v + 200 then evidence (vl n) true s
        else if 100 ≤ v ∧ w.lowAt + 1000 ≤ s.now then evidence (vl n) false s
        else s
      | none => s
    | 0 =>
      if !bit (wd c.pf 12) 0 ∨ bandOff s (vl n) ∨ !offDue s c then s
      else
        let s1 := noteOff (vl n) s
        if 450 ≤ v then s1.modChan (vl n) fun c => { c with shbDue := some s.now } else actJudge n v s1
    | _ => s

/-- STATE.OUT of a valve (Table 7.4). -/
def actOut (s : State) (n : Nat) : Nat :=
  let c := s.chan (vl n)
  if c.reason ≠ 0 then 7
  else if safeHeld s (vl n) then 0
  else if c.latch then 6
  else if c.on then (if (s.valve n).ph = .peak then 4 else if modeOf c.act = 3 then 3 else 1)
  else if c.pause.isSome ∧ modeOf c.act ≠ 0 then 5
  else 0

end Sys2Proof.Machine
end

