-- ==== Sys2Proof/Machine/Reset.lean ====
section
/-! DEFINITION. The reset engine: levels, sources, the reset level map, escalation and coincidence (R101–R106, R122,
R123), what each level resets (Table 4.1, R161), and the latching of wake causes that can end a power mode (R92, R93,
R97).
The readings and choices it rests on: notes/assumptions/15, 19, 24, 28. -/

namespace Sys2Proof.Machine

/-- Transfers waiting in the gates into an island are discarded unapplied and counted when its fence closes (R30). -/
def discardGates (i : Island) (s : State) : State :=
  (List.range 12).foldl (fun t src =>
    let g := t.gate src i.num
    let n := g.q.length + g.src.length
    if n = 0 then t
    else
      let t1 := t.setGate src i.num { g with q := [], src := [] }
      let t2 := t1.setReg (icb i + 4) (w16 (clampN 0 0xFFFF (t1.regN (icb i + 4) + n)))
      t2.setRegBit (icb i + 3) 0 true) s

/-- SUP fences the source side of every gate into an island that runs on, as at the entry into a power mode (R91). -/
def fenceGates (i : Island) (s : State) : State :=
  (List.range 12).foldl (fun t src => t.setGate src i.num { t.gate src i.num with fenced := true }) (discardGates i s)

/-- The gates into an island open again (R41). -/
def liftFences (i : Island) (s : State) : State :=
  (List.range 12).foldl (fun t src => t.setGate src i.num { t.gate src i.num with fenced := false }) s

/-- The sources of an island's range read inactive (R429). -/
def maskRange (i : Island) (s : State) : State :=
  (List.range 256).foldl (fun t n =>
    if srcIsland n = some i ∧ (t.src n) ≠ {} then
      let r := t.src n
      (t.setSrc n { r with q := [], active := false, wire := false, timer := none }).setRegBit (0xA81010 + n / 16) (n % 16) false
    else t) s

/-- A level source whose condition lies outside its island's logic: test access, VBUS, VSNS and VSEN, the section supplies,
the ground tabs, the barrier (Table 15.3). A reset of the island does not end it. -/
def outsideLevel (n : Nat) : Bool := decide (n = 3 ∨ (18 ≤ n ∧ n ≤ 23) ∨ (94 ≤ n ∧ n ≤ 98) ∨ n = 152)

/-- The island's own reset ends the conditions of its level sources that its logic forms. -/
def clearLevels (i : Island) (s : State) : State :=
  (List.range 256).foldl (fun t n =>
    if srcIsland n = some i ∧ (t.src n).lvl ∧ !outsideLevel n then t.level n false else t) s

/-- The level OTP maps a source to, as the four-bit field of the map says (R105): `d` the default, `allowed` the levels
Table 4.2 allows. -/
def mapLevel (s : State) (w lo d : Nat) (allowed : List Nat) : Nat :=
  match fld (s.shadow.get (fun _ => 0#16) w) lo 4 with
  | 0 => d
  | n => if n ≤ 4 ∧ (n - 1) ∈ allowed then n - 1 else 0

/-- The level of a reset source (Table 4.2). -/
def sourceLevel (s : State) (n : Nat) : Nat :=
  match n with
  | 3 => mapLevel s 0x140 0 1 [0, 1]
  | 4 => mapLevel s 0x140 4 3 [0, 1, 2, 3]
  | 5 => mapLevel s 0x140 8 1 [0, 1, 2]
  | 6 => mapLevel s 0x140 12 3 [0, 1, 2, 3]
  | 7 => mapLevel s 0x141 0 1 [0, 1]
  | 8 => mapLevel s 0x141 4 2 [0, 1, 2]
  | 9 => mapLevel s 0x141 8 2 [0, 1, 2]
  | 13 => mapLevel s 0x141 12 1 [0, 1]
  | _ => 0

/-- A core returns to Table 5.1 and its block to its reset values, WDG_CTRL, LS_ROLLBACK and LS_MISMATCH apart
(R161). -/
def resetCore (c : Nat) (s : State) : State :=
  let b := coreBlock c
  let k := s.core c
  let s1 := s.dropRegs fun a => decide (b ≤ a) && decide (a < b + 0x30) && decide (a ≠ b + 0x1F) && decide (a ≠ b + 0x22)
  s1.setCore c { mism := k.mism, dormant := k.dormant, l3Times := k.l3Times,
                 wdgTo := Nat.max 1 (s.regFld (b + 0x1F) 0 12), wdgFrozen := some (Nat.max 1 (s.regFld (b + 0x1F) 0 12)),
                 st := if k.dormant then .stopped else .inReset,
                 r := if k.dormant then k.ckpt else {}, desc := if k.dormant then k.ckDesc else [],
                 ckpt := if k.dormant then k.ckpt else {}, ckDesc := if k.dormant then k.ckDesc else [] }

/-- The logical core can never be released before the next L0: its pair is dormant or retired (R155, R156). -/
def outOfUse (s : State) (c : Nat) : Bool :=
  let k := s.core (s.lead c)
  k.dormant || ((s.physPair (s.mapPair (c / 2))).retired && k.taking.isNone)

/-- The logical cores that run in a core island (R161). -/
def coresOf (s : State) (i : Island) : List Nat :=
  (List.range 8).filter fun c => decide (s.coreIsland c = i) && !outOfUse s c

/-- The wake block and the filters of NET's window, held in AON (R352). -/
def netInAon (a : Nat) : Bool :=
  (decide (0xA30800 ≤ a) && decide (a < 0xA30900)) || (decide (0xA31000 ≤ a) && decide (a < 0xA31800))

/-- The stored words of an output island's block that a program cannot write and its L2 reset leaves (R259, R290, R319,
R347). LUX's current in force and its calibration report follow what they report, which the reset clears. -/
def readOnlyWord (i : Island) (a : Nat) : Bool :=
  match i with
  | .sw => decide (0xA0F002 ≤ a ∧ a ≤ 0xA0F006) || decide (0xA0F010 ≤ a ∧ a ≤ 0xA0F017) ||
      decide (0xA0F020 ≤ a ∧ a ≤ 0xA0F027) || decide (a = 0xA0F02B)
  | .act => decide (a ∈ [0xA1F004, 0xA1F005, 0xA1F007, 0xA1F01B, 0xA1F01C]) || decide (0xA1F014 ≤ a ∧ a ≤ 0xA1F017)
  | .lux => decide (0xA2F014 ≤ a ∧ a ≤ 0xA2F016) || decide (0xA2F040 ≤ a ∧ a ≤ 0xA2F0BF)
  | .fld => decide (a = 0xA5F001) || decide (0xA5F050 ≤ a ∧ a ≤ 0xA5F06F) || decide (a = 0xA5F07A)
  | _ => false

/-- Register words of an island's window that a reset of the island returns to their reset values: all of it but its
control block, which SUP holds; of SUP's window the reset record and the blocks of the core islands stay, which have
rules of their own (R103, R161), of SEC's and NET's windows the blocks held in AON (R352, R404), of the blocks of SW, ACT,
LUX and FLD the words that are RO (R259, R290, R319, R347), and the frame buffers of LUX, which the scan goes on reading
(Table 4.4). -/
def windowReset (i : Island) (a : Nat) : Bool :=
  (decide (i = .aon) && ((decide (0xA40800 ≤ a) && decide (a < 0xA40900)) || netInAon a)) ||
  decide (a / 0x10000 = 0xA0 + i.num) && decide (i.num < 10) && decide (a % 0x10000 < 0xFF00) &&
    !(readOnlyWord i a) &&
    !(decide (i = .sec) && decide (0xA40800 ≤ a) && decide (a < 0xA40900)) &&
    !(decide (i = .net) && netInAon a) &&
    !(decide (i = .lux) && decide (0xA24000 ≤ a) && decide (a < 0xA24900)) &&
    !(decide (i = .sup) && (decide (a ∈ [0xA80000, 0xA80001, 0xA80003, 0xA8000C, 0xA8000D, 0xA8000E]) ||
      decide (0xA8FB00 ≤ a)))

/-- The control logic of an island is reset: its registers and records, its cores, the gates into it; an output island
goes into hold unless the reset is a power-on (R101–R103, R107). Of OPT_STAT the count of failed attempts stays, which is
in the reset record (R103, R129). -/
def resetLogic (i : Island) (s : State) : State :=
  let s1 := discardGates i (stopPulses i s)
  let s2 := match i with
    | .sw | .act | .lux | .fld => enterHold i s1
    | .cpa | .cpb => (coresOf s1 i).foldl (fun t c => resetCore c t) s1
    | _ => s1
  let s3 := resetRecords i (s2.dropRegs (windowReset i))
  let s4 := if i = .sup then s3.setReg 0xA80004 (s.reg 0xA80004 &&& 0x0006#16) else s3
  let r := s4.island i
  clearLevels i (maskRange i (s4.setIsland i { r with st := .inReset, lock := false, ready := false, chk := false, cnt := 0 }))

/-- The reset record: the cause bit, and the last reset (Table 4.12). -/
def recordCause (n : Nat) (s : State) : State := s.setRegBit 0xA80000 n true
/-- RST_LAST. -/
def recordLast (n lvl target : Nat) (s : State) : State :=
  s.setReg 0xA80001 (pack [(0, lvl), (2, target), (12, n)])

/-- The words of the core island control blocks at L1 (R161): all but LS_ROLLBACK, CCB_SPARE and CCB_MAP. -/
def ccbResetL1 (a : Nat) : Bool :=
  decide (0xA8FD00 ≤ a) && decide (a < 0xA8FF00) && decide (a ≠ 0xA8FD02) && decide (a ≠ 0xA8FD04) &&
    !((List.range 8).any fun c => decide (a = coreBlock c + 0x22))

/-- The programming of a fuse word that a reset of SUP or a loss of power cuts short. DESIGN CHOICE: R117 does not say what
the word then holds; it reads as a free value and counts as programmed (notes/assumptions/27.md). -/
def abandonOtp (s : State) : State :=
  match s.otpBusy with
  | some (a, _) => { s.used.fuse a s.freeWord with otpBusy := none }
  | none => s

/-- A flash, settings or fuse operation in progress is abandoned (R117, R122). -/
def dropPowered (s : State) : State := abandonOtp (abandonFlash s)

/-- A cold reset: every island including AON and MEM; the reset record, the strap latch and the stage domains stay
(Table 4.1); so do the sensor supplies' shorts, which lie outside the controller (R73), and what the clock monitors have
reported until the island next leaves reset (R111, Table 1.8). -/
def resetL0 (s : State) : State :=
  let s0 := dropPowered s
  let s1 := allIslands.foldl (fun t i => resetLogic i t) s0
  let s2 := s1.dropRegs fun a => (decide (0xA8FB00 ≤ a) && decide (a < 0xA90000)) || decide (a % 0x10000 ≥ 0xFF00)
  let s3 := { s2 with
    phys := []
    cores := []
    pairedA := true
    pairedB := true
    tap := .bypass
    mode := .run
    calib := []
    memq := []
    isl := (s2.isl.filter fun (e : Nat × Isl) => e.2.loss).map fun (e : Nat × Isl) => (e.1, { loss := true })
    gates := []
    logq := []
    logSeq := 0
    marTable := []
    mar := []
    upd := {}
    updAon := {}
    cntSet := false
    rtcSec := 0
    rtcFrac := 0
    parkLow := false
    faultNLow := true
    resetNLow := true
    bring := { level := some 0, ref := s.now, held := s.bring.held } }
  startTicks [0, 1, 2, 3] ((s3.level 3 false).setRegFld 0xA80003 8 8 (satInc 0xFF (s3.regFld 0xA80003 8 8)))

/-- A warm reset: every island except AON and MEM; from a power mode, or its entry, it is the exit from that mode
(R93, R101, R113), from which the tick generators and FLD's counter run again (R330). -/
def resetL1 (s : State) : State :=
  let exit : Option Bool := match s.mode with
    | .run => none
    | .entering d => some d
    | .park => some false
    | .deepPark => some true
  let deep := exit = some true
  let s0 := trialPause (dropPowered s)
  let s1 := (allIslands.filter fun i => i ≠ .aon ∧ (i ≠ .mem ∨ deep)).foldl (fun t i => resetLogic i t) s0
  let s2 := s1.dropRegs fun a => ccbResetL1 a || decide (a % 0x10000 ≥ 0xFF00) ||
    (decide (0xA8FB00 ≤ a) && decide (a < 0xA8FD00))
  let entry := match exit with | none => 3 | some false => 1 | some true => 2
  let s3 := { s2 with
    mode := .run
    isl := s2.isl.map fun (e : Nat × Isl) => (e.1, { e.2 with l2Times := [] })
    cores := s2.cores.map fun (e : Nat × Core) => (e.1, { e.2 with
      l3Times := [], mism := 0, wdgTo := 0xFFF, wdgFrozen := some 0xFFF, tmr0 := none, tmr1 := none })
    memq := []
    logq := []
    logSeq := 0
    marTable := []
    mar := []
    parkLow := false
    upd := {}
    faultNLow := true
    resetNLow := true
    bring := { level := some 1, ref := s.now, held := s.bring.held, filling := exit.isSome,
               retain := exit = some false } }
  let kept := if s3.regBit 0xA70303 0 then safeOff s3 else s3
  let s4 := (if exit.isSome then startTicks [0, 1, 2, 3] (fieldUp kept) else kept).setRegFld 0xA70100 0 2 entry
  s4.setRegFld 0xA80003 0 8 (satInc 0xFF (s4.regFld 0xA80003 0 8))

/-- An island reset (R102): its logic, L2COUNT, and for a core island the pairing CCB_MODE asks for (R131). -/
def resetL2 (i : Island) (s : State) : State :=
  let s1 := resetLogic i s
  let r := s1.island i
  let s2 := s1.setIsland i { r with l2count := satInc 0xFF r.l2count, l2Times := (s.now :: r.l2Times).take 4 }
  match i with
  | .cpa => { s2 with pairedA := s2.regBit 0xA8FD00 0 }
  | .cpb => { s2 with pairedB := s2.regBit 0xA8FE00 0 }
  | _ => s2

/-- A core reset: the core, or both cores of its pair (R102). -/
def resetL3 (c : Nat) (s : State) : State :=
  let l := s.lead c
  let k := s.core l
  let s1 := s.setCore l { k with l3Times := (s.now :: k.l3Times).take 4 }
  resetCore l s1

/-- The times that lie within the last second. -/
def within1s (s : State) (ts : List Nat) : Nat := (ts.filter fun t => decide (s.now < t + 1000000)).length

/-- A reset at a level: absorbed by a stronger one, or restarting an equal or weaker one (R122); L2 and L3 escalate at
the fourth within 1 s (R123); for an island in CLOCK_WAIT the count of stable cycles restarts (R122). `target` is an island number at L2 and a core at L3. -/
def resetAt (n lvl target : Nat) (s : State) : State :=
  if s.bring.halted then s
  else
    let cur := if s.bring.taken then none else s.bring.level
    match lvl with
    | 0 => resetL0 (recordLast n 0 0 s)
    | 1 => if cur = some 0 then s else resetL1 (recordLast n 1 0 s)
    | 2 =>
      match islandOf target with
      | none => s
      | some i =>
        if cur.isSome then s
        else if (s.island i).st = .clockWait then s.setIsland i { s.island i with cnt := 0, ready := false }
        else if 3 ≤ within1s s (s.island i).l2Times then
          resetL1 (recordLast 14 1 target (s.setRegBit 0xA80000 14 true))
        else resetL2 i (recordLast n 2 target s)
    | _ =>
      let i := s.coreIsland target
      if cur.isSome ∨ !s.running i ∨ outOfUse s target then s
      else if 3 ≤ within1s s (s.core (s.lead target)).l3Times then
        if 3 ≤ within1s s (s.island i).l2Times then
          resetL1 (recordLast 14 1 i.num (s.setRegBit 0xA80000 14 true))
        else resetL2 i (recordLast 14 2 i.num (s.setRegBit 0xA80000 14 true))
      else coreCheck (s.lead target) (resetL3 target (recordLast n 3 target s))
where
  /-- The header check after an L3 (R102): the core waits for the payload verification, is released, or the reset
  becomes an L1. -/
  coreCheck (c : Nat) (s : State) : State :=
    if (s.physPair (s.mapPair (c / 2))).retired then s
    else if !headerOk s (activeBank s) then resetL1 (recordLast 14 1 0 (s.setRegBit 0xA80000 14 true))
    else if verified s (activeBank s) then releaseCore c s
    else { s with bring := { s.bring with verifying := true } }

/-- A reset source acts at its level (Table 4.2): its cause bit, then the reset. `isl` and `c` are its targets at L2
and L3. -/
def resetSource (n isl c : Nat) (s : State) : State :=
  let lvl := sourceLevel s n
  resetAt n lvl (if lvl = 3 then c else isl) (recordCause n s)

/-- The watchdog of a core expires: reset source 4 (R158). -/
def watchdogExpire (c : Nat) (s : State) : State := resetSource 4 (s.coreIsland c).num c s

/-- The lockstep failure reset, source 5 (R156). -/
def lockstepFail (c : Nat) (s : State) : State := resetSource 5 (s.coreIsland c).num c s

/-! Wake causes (R92, R93, R97). -/

/-- The wake sources a parking mode offers (Table 3.6). -/
def wakeMask (deep : Bool) : Word := if deep then 0x015F#16 else 0x01FF#16

/-- A wake cause is latched, with the first cause after WAKE_CAUSE last became 0 (R93, R97); a new one named in
TR_REVOKE_EN revokes a committed sleep (R374). -/
def latchOnly (b idx : Nat) (s : State) : State :=
  let was := s.regBit 0xA70104 b
  let s1 := if s.reg 0xA70104 = 0 then s.setReg 0xA70105 (pack [(0, b), (4, idx)]) else s
  let s2 := s1.setRegBit 0xA70104 b true
  if was then s2 else ringWake b s2

/-- An enabled wake cause that the mode offers aborts an entry or leaves the mode (R92, R93, R97). -/
def wakeBy (b : Nat) (s : State) : State :=
  if s.regBit 0xA70103 b ∧ b ≠ 9 then
    match s.mode with
    | .run => s
    | .entering d => if bit (wakeMask d) b then resetL1 ((s.setRegBit 0xA70100 13 true).setRegFld 0xA80001 0 2 1) else s
    | .park => if bit (wakeMask false) b then resetL1 (s.setRegFld 0xA80001 0 2 1) else s
    | .deepPark => if bit (wakeMask true) b then resetL1 (s.setRegFld 0xA80001 0 2 1) else s
  else s

/-- A wake cause is latched and acts. -/
def latchCause (b idx : Nat) (s : State) : State := wakeBy b (latchOnly b idx s)

end Sys2Proof.Machine
end

