-- ==== Sys2Proof/Machine/Vilud.lean ====
section
/-! DEFINITION. Vilud sessions, ranging, the Park poll, the immobiliser and the SPI ports of SEC (R380–R405).
The readings and choices it rests on: notes/assumptions/22, 48, 49, 50. -/

namespace Sys2Proof.Machine

/-! Sessions (R393–R397). -/

/-- The session changed. -/
def modSession (f : Session → Session) (s : State) : State :=
  { s with sec := { s.sec with session := s.sec.session.map f } }
/-- ACC_STAT.PHASE and the session's own, which begins now. -/
def setPhase (k : Nat) (s : State) : State :=
  (modSession (fun x => { x with phase := k, from_ := s.now }) s).setRegFld 0xA41008 0 3 k
/-- The time of a session's challenge on its antennas in µs (R383). -/
def challengeUs (x : Session) : Nat := (bitsSet 8 x.mask).length * 18432
/-- The length of a session's present phase in µs (Table 13.7). -/
def phaseUs (s : State) (x : Session) : Nat :=
  match x.phase with
  | 1 => challengeUs x
  | 2 => if x.addressed then 12000 else 82000
  | 3 => challengeUs x + 12000
  | _ => 1000 * s.regN 0xA4101B
/-- The response slot in which a preamble began `pre` µs ago (Table 13.7, R394, R395). -/
def respSlot (s : State) (x : Session) (pre : Nat) : Option Nat :=
  let t := s.now - pre
  let open_ := x.from_ + 2000 + (if x.phase = 3 then challengeUs x else 0)
  let k := (t - open_) / 10000
  if (x.phase = 2 ∨ x.phase = 3) ∧ open_ ≤ t ∧ k < (if x.addressed ∨ x.phase = 3 then 1 else 8) then some k else none

/-- A session starts: results cleared, the number advanced, challenges on the antennas of the mask. With the random
source failed or VBUS in OVER it is aborted (R382, R420). -/
def startSession (addressed : Bool) (v : Word) (s : State) : State :=
  if s.sec.session.isSome ∨ s.sec.enr.isSome then s
  else
    let num := (s.regFld 0xA41008 8 8 + 1) % 256
    let (nonce, s0) := freshBytes 8 s
    let body := regBytes s0 0xA41000 ++ nonce
    let slot := if addressed then fld v 2 5 else 0x1F
    let s1 := s0.setRegList 0xA41009 [0, 0, 0, 0, 0, 0]
    let s2 := (s1.setReg 0xA41010 0).setReg 0xA41008 (pack [(0, 1), (4, 1), (8, num)])
    let x : Session := { addressed := addressed, slot := slot, mask := fld v 8 8, phase := 1, chal := body, from_ := s.now }
    let s3 := { s2 with sec := { s2.sec with session := some x } }
    if s.sec.trnFail ∨ s.band = .over then abortSession s3
    else sendChallenges (if addressed then 2 else 1) slot (fld v 8 8) body s3

/-- A write of ACC_CMD. -/
def accCmd (v : Word) (s : State) : State :=
  match fld v 0 2 with
  | 1 => startSession false v s
  | 2 => startSession true v s
  | 3 => abortSession s
  | _ => s

/-- A frame has ended on the session's antennas: those that tripped keep their bits (R381). -/
def framesEnded (peak : List Nat) (s : State) : State :=
  match s.sec.session with
  | none => s
  | some x =>
    let s1 := ((bitsSet 8 x.mask).filter (· ∉ x.tripped)).foldl (fun t n => antennaFrame n (peak.getD n 0) t) s
    antennaLevel (modSession (fun x => { x with tripped := [] }) s1)
/-- The antenna sends nothing for the rest of its frame, of a session or of an enrolment (R380). -/
def markTrip (n : Nat) (s : State) : State :=
  let s1 := modSession (fun x => { x with tripped := n :: x.tripped }) s
  { s1 with sec := { s1.sec with enrAnt := s1.sec.enrAnt.map fun a => (a.1, true) } }
/-- ANTENNA_SHORT_TRIP: at 2.5 A, `i` in 10 mA, the antenna stops for the rest of the frame (R380, R381). -/
def execAntennaShortTrip (n : Fin 8) (i : Nat) (s : State) : Out :=
  let driving := match s.sec.session with
    | some x => (decide (x.phase = 1) || decide (x.phase = 3)) && x.mask.testBit n
    | none => s.sec.enrAnt.any fun a => decide (a.1 = n.val)
  .next (if s.running .sec && driving && decide (250 ≤ i) then
    antennaLevel ((markTrip n s).setRegBit 0xA41006 (8 + n) true) else s)

/-- A slot is granted (R397). -/
def grantedTok (s : State) (t : TokAuth) : Bool :=
  (t.motion || !s.regBit 0xA41002 0) && (t.passed || !s.regBit 0xA41002 1)
/-- Phase 5: the grants are final, the session event is raised, a held command runs (R393, R397, R405). -/
def endSession (s : State) : State :=
  match s.sec.session with
  | none => s
  | some x =>
    let won := x.auth.filter (grantedTok s)
    let s1 := won.foldl (fun t k => t.setRegBit (0xA4100B + k.slot / 16) (k.slot % 16) true) s
    let s2 := { s1 with sec := { s1.sec with session := none, grants := won.map (fun (k : TokAuth) => (s.now, k.ant)) ++ s1.sec.grants } }
    let st := putFld (putBit (putBit (s2.reg 0xA41008) 3 (!won.isEmpty)) 4 false) 0 3 5
    runHeld (accessEvent 0 (s2.setReg 0xA41008 st))
/-- Phase 4 begins, or is skipped, or ends at once where nothing is left to be ranged. -/
def enterRanging (s : State) : State :=
  let left := match s.sec.session with
    | some x => x.auth.any fun t => !t.ranged
    | none => false
  if s.regBit 0xA41002 1 && left then setPhase 4 s else endSession s
/-- The next addressed challenge of phase 3, or the end of the phase (R395). -/
def nextResolve (s : State) : State :=
  match s.sec.session with
  | none => s
  | some x =>
    match x.resolve with
    | [] => enterRanging s
    | n :: _ => sendChallenges 2 n x.mask x.chal (setPhase 3 s)
/-- The response slots of phase 2 that are corrupted: a preamble, and no frame that authenticates (R394). -/
def corrupted (x : Session) : List Nat := (List.range 8).filter fun k => decide (k ∈ x.heard) && decide (k ∉ x.good)
/-- The slots phase 3 challenges (R395). -/
def toResolve (s : State) (x : Session) : List Nat :=
  (List.range 32).filter fun n =>
    enrolled s n && !(x.auth.any fun t => decide (t.slot = n)) &&
      (decide (n % 8 ∈ corrupted x) || (s.regBit 0xA41002 2 && x.auth.any fun t => decide (t.slot % 8 = n % 8)))

/-- SESSION_PHASE_END: the phase reaches its end time (Table 13.7). -/
def execSessionPhaseEnd (peak : List Nat) (s : State) : Out :=
  if !s.running .sec then .next s
  else match s.sec.session with
  | none => .next s
  | some x =>
    if s.now < x.from_ + phaseUs s x then .next s
    else .next (match x.phase with
      | 1 => setPhase 2 (framesEnded peak s)
      | 2 =>
        let s1 := s.setReg 0xA41010 (packBits ((List.range 8).map fun k => (k, decide (k ∈ corrupted x))))
        if x.addressed then enterRanging s1
        else nextResolve (modSession (fun y => { y with resolve := toResolve s x }) s1)
      | 3 => nextResolve (framesEnded peak (modSession (fun y => { y with resolve := y.resolve.tail }) s))
      | _ => endSession s)

/-- A frame that fails after its CRC passed is counted (R394). -/
def countUnknown (bytes : List Byte) (s : State) : State :=
  let tid := beNat ((bytes.drop 1).take 4)
  if (slotOfTid s tid).isSome then s.setRegFld 0xA4100F 8 8 (satInc 0xFF (s.regFld 0xA4100F 8 8))
  else s.setRegFld 0xA4100F 0 8 (satInc 0xFF (s.regFld 0xA4100F 0 8))
/-- A ranging report is counted as BADMAC where it is not taken (Table 13.9). -/
def countBadMac (s : State) : State := s.setRegFld 0xA4100F 8 8 (satInc 0xFF (s.regFld 0xA4100F 8 8))

/-- The slot a response authenticates: type, TID, slot number, response slot and MAC (R394). -/
def authenticates (s : State) (x : Session) (slot : Option Nat) (bytes : List Byte) : Option Nat :=
  let b (k : Nat) : Byte := bytes.getD k 0
  let n := (b 5).toNat % 32
  let chal := if x.addressed ∨ x.phase = 3 then 2 else 1
  let here := match slot with
    | some k => x.addressed || decide (x.phase = 3) || decide (n % 8 = k)
    | none => false
  let tid := beNat ((bytes.drop 1).take 4)
  match tokKey s n with
  | none => none
  | some k =>
    if here && decide (b 0 = 0x11#8) && enrolled s n && decide (slotTid s n = tid) &&
        decide (tokenMac k chal x.chal (bytes.take 8) = (bytes.drop 8).take 8) then some n
    else none

/-- A token's response in a session, once it is known whether and as which slot it authenticates. -/
def takeResponse (x : Session) (slot : Option Nat) (bytes : List Byte) (who : Option Nat) (s : State) : State :=
  let b (k : Nat) : Byte := bytes.getD k 0
  match who with
  | none => countUnknown bytes s
  | some n =>
    if x.auth.any fun t => decide (t.slot = n) then s
    else
      let t : TokAuth := { slot := n, motion := (b 5).getLsbD 5, ant := (b 7).toNat % 8,
                           chal := if x.addressed ∨ x.phase = 3 then 2 else 1 }
      let s1 := modSession (fun y => { y with auth := y.auth ++ [t], good := if y.phase = 2 then slot.toList ++ y.good else y.good }) s
      let s2 := s1.setRegBit (0xA41009 + n / 16) (n % 16) true
      if t.motion then s2.setRegBit (0xA4100D + n / 16) (n % 16) true else s2
/-- A token's response in a session. -/
def sessionResponse (x : Session) (slot : Option Nat) (bytes : List Byte) (s : State) : State :=
  takeResponse x slot bytes (authenticates s x slot bytes) s
/-- A ranging report in a session (R396). -/
def rangingReport (x : Session) (bytes : List Byte) (s : State) : State :=
  let b (k : Nat) : Byte := bytes.getD k 0
  let n := (b 5).toNat % 32
  let tid := beNat ((bytes.drop 1).take 4)
  let known := match x.armed with
    | some (m, _) => decide (m = n) && x.auth.any fun t => decide (t.slot = n)
    | none => false
  let good := match x.auth.find? (fun t => decide (t.slot = n)), tokKey s n with
    | some t, some k => enrolled s n && decide (slotTid s n = tid) &&
        decide (tokenMac k t.chal x.chal (bytes.take 10) = (bytes.drop 10).take 8)
    | _, _ => false
  if !known then countBadMac s
  else if good then
    (modSession (fun y => { y with report := some (beNat ((bytes.drop 6).take 4)) }) s).setRegBit 0xA41017 0 true
  else countUnknown bytes s

/-- The antennas of the Park poll. -/
def pollAnts (s : State) : Nat := (bitsSet 8 (s.regFld 0xA40802 0 8)).length
/-- The listen window of a poll opens 200 µs after the end of the first antenna's carrier, 240 µs or 1.0 ms (R398, R399). -/
def pollOpens (w : PollWin) : Nat := w.at_ + (if w.spread then 1000 else 240) + 200
/-- The window closes: 1.0 ms after it opened, or 400 µs after the end of the whole pattern where that is later; of a
spread poll 21 ms after the end of the pattern (R398, R399). -/
def pollCloses (s : State) (w : PollWin) : Nat :=
  if w.spread then w.at_ + 1000 * pollAnts s + 21000 else Nat.max (w.at_ + 1440) (w.at_ + 240 * pollAnts s + 400)
/-- A frame of the Park poll whose preamble began in the window, `pre` µs ago: an enrolled token's presence response latches
the LF cause (R398). -/
def pollFrame (pre : Nat) (crcOk : Bool) (bytes : List Byte) (s : State) : State :=
  match s.poll with
  | none => s
  | some w =>
    if s.now < pollOpens w + pre ∨ pollCloses s w + pre < s.now then s
    else if !crcOk ∨ !frameCrcOk bytes 6 then
      if crcOk ∧ (frameCrcOk bytes 16 ∨ frameCrcOk bytes 18) then countStray s else { s with poll := some { w with corrupt := some (w.corrupt.getD s.now) } }
    else
      let b (k : Nat) : Byte := bytes.getD k 0
      let n := (b 5).toNat % 32
      if b 0 = 0x12#8 ∧ enrolled s n ∧ slotTid s n = beNat ((bytes.drop 1).take 4) then
        latchCause 7 n { s with poll := some { w with hit := true } }
      else countStray s
where
  /-- POLL_CNT.UNKNOWN. -/
  countStray (s : State) : State := s.setRegFld 0xA40804 8 8 (satInc 0xFF (s.regFld 0xA40804 8 8))

/-- UHF_FRAME_RECEIVED: a preamble with its frame in a session's response slot, or in the window of the Park poll
(R394–R398). -/
def execUhfFrameReceived (pre : Nat) (crcOk : Bool) (bytes : List Byte) (s : State) : Out :=
  if s.mode = .park then .next (pollFrame pre crcOk bytes s)
  else if !s.running .sec then .next s
  else match s.sec.session with
  | none => .next s
  | some x =>
    let slot := respSlot s x pre
    let s1 := if x.phase = 2 then modSession (fun y => { y with heard := slot.toList ++ y.heard }) s else s
    .next (
      if crcOk ∧ frameCrcOk bytes 18 then
        (if bytes.getD 0 0 = 0x14#8 then rangingReport x bytes s1 else countUnknown bytes s1)
      else if crcOk ∧ frameCrcOk bytes 16 then sessionResponse x slot bytes s1
      else if crcOk ∧ frameCrcOk bytes 6 then countUnknown bytes s1
      else s1)

/-! Ranging (R396). -/

/-- A write of RNG_ARM: ranging is armed for a slot on a port. -/
def rngArm (v : Word) (s : State) : State :=
  (modSession (fun x => { x with armed := some (fld v 0 5, fld v 5 1), report := none }) s).setReg 0xA41017 0
/-- The distance in cm of a difference of round-trip times in units of 15.65 ps. -/
def rngDistance (d : Nat) : Nat := Nat.min 0xFFFF ((d * 23459 + 50000) / 100000)
/-- A write of RNG_TROUND_2: the distance, and the bound of the armed port; a slot not authenticated or a missing report
fails it. -/
def rngTround (v : Word) (s : State) : State :=
  let s1 := s.plainWrite 0xA41016 v
  let t := s1.regN 0xA41014 + 65536 * s1.regN 0xA41015 + 4294967296 * s1.regFld 0xA41016 0 8
  match s1.sec.session.bind fun x => x.armed.map fun a => (x, a) with
  | none => (s1.setReg 0xA41018 s1.freeWord).used.setReg 0xA41017 (pack [(1, 1)])
  | some (x, n, port) =>
    let auth := x.auth.any fun k => decide (k.slot = n)
    let done (pass neg : Bool) (u : State) : State :=
      let u1 := u.setReg 0xA41017 (packBits [(0, x.report.isSome), (1, true), (2, pass), (3, neg)])
      let u2 := modSession (fun y => { y with auth := y.auth.map fun k =>
        if k.slot = n then { k with ranged := true, passed := pass } else k }) u1
      let all := match u2.sec.session with
        | some y => decide (y.phase = 4) && y.auth.all fun k => k.ranged
        | none => false
      if all then endSession u2 else u2
    match x.report with
    | none => done false false (s1.setReg 0xA41018 s1.freeWord).used
    | some r =>
      if t < r then done false true (s1.setReg 0xA41018 0)
      else
        let d := rngDistance (t - r)
        done (auth && decide (d ≤ s1.regN (0xA41019 + port))) false (s1.setReg 0xA41018 (w16 d))

/-! The SPI ports (R380, R404). -/

/-- The divider of a SECSPI port, 7 to 127 (Table 13.1). -/
def spiDiv (s : State) (p : Nat) : Nat := Nat.max 7 (s.regFld (0xA41020 + 3 * p) 0 7)
/-- A write of SPI_DATA: a byte out, a byte in, eight clocks of 250 MHz / (2 × (DIV + 1)); a seventeenth waiting byte is
lost. Before the strap latch is loaded the terminals are not driven (R67). -/
def spiWrite (p : Nat) (v : Word) (reply : Byte) (s : State) : State :=
  let q := s.sec.spi.get (fun _ => []) p
  let s0 := if s.straps.isSome then s.send (.spi p (spiDiv s p) (s.regBit (0xA41020 + 3 * p) 7) (loByte v)) else s
  let s1 := { s0 with sec := { s0.sec with
    spiEnd := s0.sec.spiEnd.set (fun _ => 0) p (s.now + (16 * (spiDiv s p + 1) + 249) / 250) } }
  if 16 ≤ q.length then s1.setRegBit (0xA41022 + 3 * p) 6 true
  else { s1 with sec := { s1.sec with spi := s1.sec.spi.set (fun _ => []) p (q ++ [reply]) } }
/-- A read of SPI_DATA takes the oldest byte; of an empty FIFO the spec states no value. -/
def spiRead (p : Nat) (s : State) : Word × State :=
  match s.sec.spi.get (fun _ => []) p with
  | b :: q => (b.setWidth 16, { s with sec := { s.sec with spi := s.sec.spi.set (fun _ => []) p q } })
  | [] => ((Config.freeByte s.free).setWidth 16, s.used)
/-- SPI_STAT. -/
def spiStat (s : State) (p : Nat) : Word :=
  pack [(0, (s.sec.spi.get (fun _ => []) p).length), (5, b2n (decide (s.now < s.sec.spiEnd.get (fun _ => 0) p))), (6, b2n (s.regBit (0xA41022 + 3 * p) 6))]

/-! The Park poll (R398–R400). -/

/-- DAYS of POLL_CTRL, 7 to 63. -/
def pollDays (s : State) : Nat := clampN 7 63 (s.regFld 0xA40800 1 6)
/-- The time in Park on the RTC, in s (R400). -/
def parkTime (s : State) : Nat := (s.rtcSec + 2 ^ 32 - s.parkSec) % 2 ^ 32
/-- The poll scheduler starts at the entry into Park. -/
def pollStart (s : State) : State :=
  ({ s with poll := none, spreadDue := none, pollAt := s.now, parkSec := s.rtcSec }.setReg 0xA40804 0).setReg 0xA40803 0
/-- The scheduler polls now. -/
def polling (s : State) : Bool := decide (s.mode = .park) && s.regBit 0xA40800 0 && antennasOn s
/-- POLL_PER in µs, 250 ms to 2000 ms. -/
def pollPer (s : State) : Nat := 1000 * clampN 250 2000 (s.regN 0xA40801)
/-- POLL: every POLL_PER the presence pattern, then the listen window (R398). -/
def execPoll (s : State) : Out :=
  .next (if polling s ∧ s.poll.isNone ∧ s.pollAt + pollPer s ≤ s.now then
    { s.send (.presence false (s.regFld 0xA40802 0 8)) with poll := some { spread := false, at_ := s.now }, pollAt := s.now } else s)
/-- POLL_WINDOW_END: a corrupted preamble calls for a spread poll; a spread poll without an enrolled TID counts (R398,
R399). -/
def execPollWindowEnd (s : State) : Out :=
  match s.poll with
  | none => .next s
  | some w =>
    let s1 := { s with poll := none }
    .next (if s.now < pollCloses s w then s
      else if w.spread then
        (if w.hit then s1 else s1.setRegFld 0xA40804 0 8 (satInc 0xFF (s1.regFld 0xA40804 0 8)))
      else { s1 with spreadDue := w.corrupt.map fun t => t + 20000 })
/-- SPREAD_POLL: 20 ms after the frame that failed its CRC (R399). -/
def execSpreadPoll (s : State) : Out :=
  .next (match s.spreadDue with
    | none => s
    | some t =>
      if polling s ∧ t ≤ s.now ∧ s.poll.isNone then
        { s.send (.presence true (s.regFld 0xA40802 0 8)) with poll := some { spread := true, at_ := s.now }, spreadDue := none }
      else s)
/-- POLL_STOP: after DAYS in Park polling stops and the controller changes to Deep Park (R400). -/
def execPollStop (s : State) : Out :=
  .next (if s.mode = .park ∧ s.regBit 0xA40800 0 ∧ 86400 * pollDays s ≤ parkTime s then
    let s1 := s.setReg 0xA40803 (pack [(0, pollDays s), (6, 1)])
    let s2 := s1.setIsland .mem { s1.island .mem with st := .inReset, lock := false, ready := false, chk := false }
    { netSleep true (maskRange .mem s2) with mode := .deepPark, poll := none, spreadDue := none }
  else s)
/-- POLL_DAY as the RTC goes on in Park. -/
def pollDay (s : State) : State :=
  if s.mode = .park then s.setRegFld 0xA40803 0 6 (Nat.min 63 (parkTime s / 86400)) else s
/-- OVER ends the session or poll in progress, and abandons an enrolment challenge, which is then never answered (R382,
Table 3.3). -/
def secBand (s : State) : State :=
  if s.band ≠ .over then s
  else
    let s1 := abortSession { s with poll := none, spreadDue := none }
    if s1.now < s1.sec.enrAt + 18432 then { s1 with sec := { s1.sec with enrChal := [], enrAnt := none } } else s1

/-! The immobiliser (R401, R402). -/

/-- IMMO_CNT. -/
def immoCnt (s : State) : Nat := s.regN 0xA40805 + 65536 * s.regFld 0xA40806 0 8
/-- IMMO_CNT written. -/
def setImmoCnt (n : Nat) (s : State) : State := (s.setReg 0xA40805 (w16 n)).setReg 0xA40806 (w16 (n / 65536 % 256))
/-- A grant within IMMO_AGE with its strongest field on a cabin antenna. -/
def recentGrant (s : State) : Bool :=
  let age := Nat.max 1 (s.regFld 0xA41041 0 8)
  s.sec.grants.any fun g => decide (s.now ≤ g.1 + age * 1000000) && s.regBit 0xA41042 g.2
/-- The first condition of R401 that fails; 0 where all hold. -/
def immoRefusal (s : State) (r : Requester) (release : Bool) : Nat :=
  if !coreNamed s 0xA41003 r then 1
  else if !s.cntSet then 2
  else if !(match s.slot (s.regFld 0xA41040 0 6) with | some k => k.usage.getLsbD 2 | none => false) then 3
  else if release ∧ !recentGrant s then 4
  else if 0xFFFFFF ≤ immoCnt s then 5
  else 0
/-- A release or lock frame under the conditions of R401 (Table 13.10). -/
def immoFrame (r : Requester) (release : Bool) (s : State) : State :=
  match immoRefusal s r release, s.slot (s.regFld 0xA41040 0 6) with
  | 0, some k =>
    let n := immoCnt s + 1
    let body := byte (if release then 0x11 else 0x12) :: beBytes 3 n
    let mac := (cmac k.key (regBytes s 0xA41000 ++ body)).take 4
    ((setImmoCnt n s).setRegList 0xA41047 (wordsOf (body ++ mac))).setReg 0xA41046 (pack [(1, 1)])
  | code, _ => s.setReg 0xA41046 (pack [(2, code)])
/-- A write of IMMO_CMD. -/
def immoCmd (r : Requester) (v : Word) (s : State) : State :=
  if fld v 8 8 ≠ 0x96 then s
  else match fld v 0 2 with
  | 1 => immoFrame r true s
  | 2 => immoFrame r false s
  | 3 =>
    let s1 := s.setReg 0xA41046 0
    if s.cntSet then s1
    else { setImmoCnt (s.regN 0xA41043 + 65536 * s.regFld 0xA41044 0 8) s1 with cntSet := true }
  | _ => s
/-- IMMO_STAT with CNTOK. -/
def immoStat (s : State) : Word := putBit (s.reg 0xA41046) 0 s.cntSet

end Sys2Proof.Machine
end

