-- ==== Sys2Proof/Machine/Band.lean ====
section
/-! DEFINITION. What a band change does to the islands (R82–R84, R255).
The readings and choices it rests on: notes/assumptions/28. -/

namespace Sys2Proof.Machine

/-- Every channel follows the band; what of a band acts on an island beyond its channels follows too. -/
def bandChanged (_old _new : Band) (s : State) : State :=
  let s1 := outIslands.foldl (fun t i => i.chans.foldl (fun u ch =>
    let c := u.chan ch
    if c = {} then u else followHolds ch u) t) s
  secBand (boostFollow s1)

/-- A section's channels follow its band (R57). -/
def sectionChanged (k : Nat) (_old _new : Band) (s : State) : State :=
  outIslands.foldl (fun t i => i.chans.foldl (fun u ch =>
    if ch.section = some k ∧ u.chan ch ≠ {} then followHolds ch u else u) t) s

end Sys2Proof.Machine
end

