-- ==== Sys2Proof/Machine/PairRetire.lean ====
section
/-! DEFINITION. Undoing a pair's work back to its checkpoint and bringing it back (R153), retirement of a lockstep pair and
the start of a spare's takeover (R156).
The readings and choices it rests on: notes/assumptions/31. -/

namespace Sys2Proof.Machine

/-- An undo entry of the log applied (Table 5.7, step 3). -/
def undoEntry (c : Nat) (s : State) : LogEnt → State
  | .undo a old => s.putWord (localAddr s c a) old
  | .undoDesc e old => s.modCore c fun k => k.setDesc e old
  | _ => s

/-- What undoing a log will take away, to be brought back by an agreed replay. -/
def redoOf (c : Nat) (s : State) : Redo :=
  let k := s.core c
  { r := k.r,
    mem := k.log.filterMap fun e => match e with | .undo a _ => some (a, s.memWord (localAddr s c a)) | _ => none,
    desc := k.log.filterMap fun e => match e with | .undoDesc d _ => some (d, k.descWords d) | _ => none }

/-- The pair goes back to its checkpoint: the undo entries newest first, then the registers; an answer not yet logged is
discarded (Table 5.7, steps 2 to 4). Once back it stays there until its replay has ended. -/
def unwind (c : Nat) (s : State) : State :=
  if (s.core c).redo.isSome then s
  else
    let back := redoOf c s
    ((s.core c).log.foldl (undoEntry c) s).modCore c fun k =>
      { k with r := k.ckpt, redo := some back, remTag := none, remAns := none, pos := 0 }

/-- An agreed replay has brought the pair back to where the mismatch had found it (Table 5.7, step 6). -/
def rewind (c : Nat) (s : State) : State :=
  match (s.core c).redo with
  | none => s
  | some x =>
    (x.mem.foldl (fun t e => t.putWord (localAddr t c e.1) e.2) s).modCore c fun k =>
      { x.desc.foldl (fun d e => d.setDesc e.1 e.2) k with r := x.r, redo := none }

/-- A spare pair in standby that no takeover uses yet. -/
def spareInStandby (s : State) : Option Nat :=
  (List.range 4).find? fun k =>
    let p := s.physPair k
    p.standby && !p.retired && (List.range 8).all fun c => decide ((s.core c).taking ≠ some k)

/-- A core stops where it stands. -/
def stopCore (c : Nat) (s : State) : State := s.modCore c fun k => { k with st := .stopped, wait := none }

/-- The logical pair's physical pair retires for good: its source, then a spare takes over, or the lockstep failure reset
acts. In an isolated island no takeover starts (R156, R435). -/
def retirePair (q : Nat) (s : State) : State :=
  let c := 2 * q
  let p := s.mapPair q
  let ph := s.physPair p
  let isl := s.coreIsland c
  if 4 ≤ q ∨ ph.retired ∨ (s.core c).dormant then s
  else
    let s1 := (s.setPhys p { ph with retired := true, standby := false }).modCore c fun k =>
      { k with st := .stopped, wait := none, rolling := false, taking := none }
    let s2 := s1.raiseIsl isl 3 (some q)
    match spareInStandby s2 with
    | some k => if (s2.island isl).st = .isolated then s2 else unwind c (s2.modCore c fun r => { r with taking := some k })
    | none => lockstepFail c s2

end Sys2Proof.Machine
end

