-- ==== Sys2Proof/Machine/Sampler.lean ====
section
/-! DEFINITION. The Sampler: activation and release of sources, the reactions of Table 15.5, escalation, isolation,
the safe latch, the log (R427–R446).
The readings and choices it rests on: notes/assumptions/18, 19, 72. -/

namespace Sys2Proof.Machine

/-- The level sources of Table 15.3; every other named source is an event source (R430). -/
def isLevelSource (n : Nat) : Bool :=
  n ∈ [2, 3, 18, 19, 20, 21, 22, 23, 87, 89, 90, 91, 92, 93, 94, 95, 96, 97, 98, 118, 119, 120, 134, 150, 151, 152, 153,
    164, 165, 178, 182, 194]

/-- The log ring lies inside shared SRAM (R442). -/
def logInside (s : State) : Bool :=
  let base := s.regN 0xA81000 + 65536 * s.regFld 0xA81001 0 8
  let n := 2 ^ clampN 4 12 (s.regFld 0xA81001 8 4)
  decide (0x800000 ≤ base) && decide (base + 4 * n ≤ 0x880000)

/-- A log entry formed: queued, or counted as lost (R442). -/
def logPut (s : State) (n sev : Nat) (edge esc nores secure : Bool) : State :=
  if !s.regBit 0xA81002 0 then s
  else if !logInside s then s.regInc 0xA81004
  else if 8 ≤ s.logq.length then s.regInc 0xA81004
  else
    let r := s.src n
    let w0 := pack [(0, n), (8, sev)] ||| packBits [(11, r.wire), (12, edge), (13, esc), (14, nores), (15, secure)]
    let w1 := pack [(0, (r.res.getD 0) % 128), (8, s.logSeq % 256)] ||| packBits [(7, r.res.isSome)]
    { s with logq := s.logq ++ [[w0, w1, w16 s.rtcSec, w16 s.rtcFrac]], logSeq := s.logSeq + 1 }

/-- A flag of SMP_EV_FLAG with its routed event (R446). -/
def samplerEvent (k : Nat) (s : State) : State :=
  let s1 := s.setRegBit 0xA8100B k true
  if s1.regBit 0xA8100A (9 + k) then s1.route (s1.reg 0xA8100A) else s1

/-- Severity 3: the island's control part stops, its gates are fenced (R435). -/
def isolate (i : Island) (s : State) : State :=
  let s1 := discardGates i (maskRange i s)
  let s2 := s1.setIsland i { s1.island i with st := .isolated, chk := false }
  match i with
  | .sw | .act | .lux | .fld => enterHold i s2
  | .cpa | .cpb => (coresOf s2 i).foldl (fun t c => freezeWatchdog c (t.modCore c fun k => { k with st := .stopped, wait := none })) s2
  | .sec => eraseSlots s2
  | .net => netTerminals s2
  | _ => s2

/-- Severity 4: the presented resource is retired (R436). -/
def retireResource (i : Island) (res : Nat) (s : State) : State :=
  match i with
  | .sw => retireChannel ⟨.sw, res⟩ 4 s
  | .act => retireChannel ⟨.act, res⟩ 4 s
  | .lux => retireChannel ⟨.lux, res⟩ 4 s
  | .fld => retireChannel ⟨.fld, res⟩ 4 s
  | .cpa => retirePair res s
  | .cpb => retirePair res s
  | .net => isolatePort res s
  | .lnk => shutPort res s
  | _ => s

/-- Severity 5: the safe latch is set (R437). -/
def safeState (s : State) : State :=
  if s.regBit 0xA70303 0 then s
  else
    let s1 := s.setReg 0xA70303 0x0001#16
    samplerEvent 2 (safeOff s1)

/-- The severity a source's reaction takes: 3 is 6 for SUP, AON and MEM and 1 for a reserved source, 4 is 1 without a
resource (R435, R436). -/
def effectiveSev (n sev : Nat) (res : Option Nat) : Nat :=
  match sev with
  | 3 =>
    match srcIsland n with
    | none => 1
    | some i => if i = .sup ∨ i = .aon ∨ i = .mem then 6 else 3
  | 4 => if res.isNone then 1 else 4
  | k => k

/-- The first-fault record (R443). -/
def recordFirst (n sev : Nat) (wire : Bool) (res : Option Nat) (s : State) : State :=
  if s.regBit 0xA70300 15 then s
  else
    let s1 := s.setReg 0xA70300 (pack [(0, n), (8, sev)] ||| packBits [(11, wire), (15, true)])
    let s2 := s1.setReg 0xA70301 (pack [(0, (res.getD 0) % 128)] ||| packBits [(7, res.isSome)])
    s2.setReg 0xA70302 (w16 s.rtcSec)

/-- The reaction of Table 15.5 at a severity, with its log entry and notification (R433). -/
def react (n sev0 : Nat) (esc : Bool) (s : State) : State :=
  let r := s.src n
  let sev := effectiveSev n sev0 r.res
  let secure := s.regBit (0xA81100 + n) 3
  let s1 := s.setSrc n { r with sev := sev }
  let s2 := logPut s1 n sev true esc (decide (sev0 = 4) && r.res.isNone) secure
  let s3 := if 3 ≤ sev then recordFirst n sev r.wire r.res s2 else s2
  let notified : State :=
    if 1 ≤ sev ∧ sev ≤ 5 then
      samplerEvent 0 (s3.setReg 0xA8100C (pack [(0, n), (8, (r.res.getD 0) % 128)] ||| packBits [(15, r.res.isSome)]))
    else s3
  match sev with
  | 3 => match srcIsland n with
    | some i => isolate i notified
    | none => notified
  | 4 => match srcIsland n, r.res with
    | some i, some k => retireResource i k notified
    | _, _ => notified
  | 5 => safeState notified
  | 6 => resetAt 11 1 0 (recordCause 11 notified)
  | 7 => resetAt 11 0 0 (recordCause 11 notified)
  | _ => notified

/-- The severity an escalation applies: a recorded ESC below 3 acts as 3 (Table 15.4). -/
def escSev (e : Nat) : Nat := if e < 3 then 3 else e

/-- SMP_RTIME in microseconds (Table 15.9). -/
def retryTime (s : State) : Nat := 1000 * clampN 1 1000 (s.regN 0xA81005)

/-- Severity 2: a retry timer for a level source or a wire fault, a window of 1 s for an event source; the third
activation within it escalates, and the next one after it opens a new window (R434). -/
def escalateCount (n : Nat) (s : State) : State :=
  let r := s.src n
  let esc := s.regFld (0xA81100 + n) 4 3
  if isLevelSource n || r.wire then s.setSrc n { r with timer := some (esc, s.now + retryTime s) }
  else
    match r.win.filter fun w => decide (s.now < w.2.2 + 1000000) with
    | none => s.setSrc n { r with win := some (esc, 1, s.now) }
    | some (e, k, t) =>
      if 2 ≤ k then react n (escSev e) true (s.setSrc n { r with win := none })
      else s.setSrc n { r with win := some (e, k + 1, t) }

/-- A source activates: SMP_ACT and SMP_LATCH, the erasing alarm of a SECURE source, the reaction (R433, R438). -/
def activate (n : Nat) (s : State) : State :=
  let r := s.src n
  let res := if r.lvl then r.lvlRes else (r.q.head?).join
  let s1 := s.setSrc n { r with active := true, res := res }
  let s2 := (s1.setRegBit (0xA81010 + n / 16) (n % 16) true).setRegBit (0xA81020 + n / 16) (n % 16) true
  let s3 := if s2.regBit (0xA81100 + n) 3 then eraseAlarm 4 s2 else s2
  let sev := s3.regFld (0xA81100 + n) 0 3
  let s4 := react n sev false s3
  if sev = 2 then escalateCount n s4 else s4

/-- SOURCE_ACTIVATION: a checked source whose pair shows it active (R433). -/
def execSourceActivation (n : Fin 256) (s : State) : Out :=
  let r := s.src n
  if s.checked n && !r.active && (r.lvl || !r.q.isEmpty) then .next (activate n s) else .next s

/-- A source releases: SMP_ACT, the timer of a level source, the release entry (R430, R434, R442). -/
def release (n : Nat) (s : State) : State :=
  let r := s.src n
  let s1 := s.setSrc n { r with active := false, timer := none, q := r.q.tail }
  let s2 := s1.setRegBit (0xA81010 + n / 16) (n % 16) false
  if isLevelSource n && s2.regBit 0xA81002 1 then
    logPut s2 n r.sev false false false (s2.regBit (0xA81100 + n) 3)
  else s2

/-- SOURCE_RELEASE: the condition of a level source has ended, or the presented occurrence has (R430). -/
def execSourceRelease (n : Fin 256) (s : State) : Out :=
  let r := s.src n
  if r.active && !r.wire && !(isLevelSource n && r.lvl) then .next (release n s) else .next s

/-- Three consecutive samples of a pair, TRUE and COMP of each, that all show what is asked: equal rails, or
complementary ones (R428, Table 15.1). -/
def threeSamples (equal : Bool) (rails : List (Bool × Bool)) : Bool :=
  decide (rails.length = 3) && rails.all fun p => (p.1 == p.2) == equal

/-- WIRE_FAULT: the rails are equal at 3 consecutive samples and the source counts as active (R428). -/
def execWireFault (n : Fin 256) (rails : List (Bool × Bool)) (s : State) : Out :=
  let r := s.src n
  if s.checked n && !r.wire && threeSamples true rails then
    let s1 := s.setSrc n { r with wire := true }
    let s2 := samplerEvent 1 (s1.setRegBit (0xA81030 + n.val / 16) (n.val % 16) true)
    .next (if r.active then s2 else activate n s2)
  else .next s

/-- WIRE_FAULT_END: the pair reads complementary at 3 consecutive samples and the source takes the state it shows; an
event source is no longer timed as a level source (R428, R434). -/
def execWireFaultEnd (n : Fin 256) (rails : List (Bool × Bool)) (s : State) : Out :=
  let r := s.src n
  if s.checked n && r.wire && threeSamples false rails then
    let s1 := s.setSrc n { r with wire := false, timer := if isLevelSource n then r.timer else none }
    .next (if (rails.getLastD (false, true)).1 then s1 else release n s1)
  else .next s

/-- SOURCE_CHECK_RESUME: 64 SUP cycles, 1.28 µs, after the island reports RUN its range is checked again (R429). -/
def execSourceCheckResume (i : Island) (s : State) : Out :=
  if s.running i && decide ((s.island i).runAt + 1 ≤ s.now) then .next (s.setIsland i { s.island i with chk := true })
  else .next s

/-- ESCALATION: the retry timer expires with the source still active, or its wire fault still there (R434). -/
def execEscalation (n : Fin 256) (s : State) : Out :=
  let r := s.src n
  match r.timer with
  | none => .next s
  | some (e, due) =>
    if !s.running .sup ∨ s.now < due then .next s
    else
      let s1 := s.setSrc n { r with timer := none }
      .next (if r.active && (isLevelSource n || r.wire) then react n (escSev e) true s1 else s1)

/-- The escalation window of a source still runs (R434). -/
def winRuns (s : State) (r : Src) : Bool :=
  match r.win with
  | some w => decide (s.now < w.2.2 + 1000000)
  | none => false

/-- ESCALATION_WINDOW_END: 1 s after it opened the count and the window end (R434). -/
def execEscalationWindowEnd (n : Fin 256) (s : State) : Out :=
  if winRuns s (s.src n) then .next s else .next (s.setSrc n { s.src n with win := none })

/-- A write of SMP_CMD: only from a core named in SMP_AUTH with KEY 0x5C (R445). -/
def samplerCmd (r : Requester) (v : Word) (s : State) : State :=
  let allowed := match r with
    | .core c => s.regBit 0xA81007 c
    | _ => false
  if allowed && decide (fld v 8 8 = 0x5C) then
    let s1 := s.setRegBit 0xA81009 1 false
    let s2 := if bit v 0 then safeEnd (s1.setReg 0xA70303 0) else s1
    if bit v 1 then ((s2.setReg 0xA70300 0).setReg 0xA70301 0).setReg 0xA70302 0 else s2
  else s.setRegBit 0xA81009 1 true

/-- SAMPLER_LOG_WRITE: the oldest waiting entry goes into the ring (R442). -/
def execSamplerLogWrite (s : State) : Out :=
  match s.logq with
  | [] => .next s
  | e :: rest =>
    let s1 := { s with logq := rest }
    if !s.running .sup ∨ !s.running .mem then .next s
    else if !logInside s then .next (s1.regInc 0xA81004)
    else
      let base := s.regN 0xA81000 + 65536 * s.regFld 0xA81001 0 8
      let n := 2 ^ clampN 4 12 (s.regFld 0xA81001 8 4)
      let wp := s.regN 0xA81003 % n
      .next ((islandStoreList (base + 4 * wp) e (memBurst .sup 0 4 s1)).setReg 0xA81003 (w16 ((wp + 1) % n)))

/-- SMP_STAT with the bits formed on a read: ESCRUN and LOGBAD (Table 15.9). -/
def samplerStat (s : State) : Word :=
  let run := s.srcs.any fun e => e.2.timer.isSome || winRuns s e.2
  putBit (putBit (putBit (s.reg 0xA81009) 0 (s.regBit 0xA70303 0)) 2 run) 3 (s.regBit 0xA81002 0 && !logInside s)

end Sys2Proof.Machine
end

