-- ==== Sys2Proof/Machine/Supply.lean ====
section
/-! DEFINITION. Supply bands, sections, reverse polarity, straps, test access, sensor supplies, the RTC and the power
modes (02 and 03).
The readings and choices it rests on: notes/assumptions/23, 28, 29. -/

namespace Sys2Proof.Machine

/-- The flash content that outlasts a loss of power: the flash regions. -/
def flashOnly (m : List Host.Cell) : List Host.Cell := m.filter fun c => isFlash (c.1 / 2)

/-- Everything without power but what is non-volatile: flash, fuses; an operation on either is abandoned (R117, R471). -/
def unpowered (s : State) : State :=
  let s0 := abandonOtp (abandonFlash s)
  { State.reset with
    pending := s.pending, now := s.now, free := s0.free, mem := flashOnly s0.mem, dbe := s0.dbe.filter isFlash,
    undef := s0.undef, otp := s0.otp, otpDone := s0.otpDone }

/-- POWER_ON: the state right after power-on (Table 4.5, step 1); the stage domains' counters and the tick generators begin
(R225, R322). -/
def execPowerOn (s : State) : Out :=
  let t := unpowered s
  .next (startTicks [0, 1, 2, 3] (fieldUp { t with stageBase := s.now, bring := { t.bring with ref := s.now } }))

/-- POWER_LOSS: every island loses power (R81). -/
def execPowerLoss (s : State) : Out := .next { unpowered s with band := .off }

/-- REVERSE_POLARITY: VBUS is cut off, every island unpowered, the HS stages conduct in reverse (R85). -/
def execReversePolarity (s : State) : Out := .next { unpowered s with band := .off, reversed := true }

/-- VCORE_BROWNOUT: reset source 1, while VCORE is on (R104). -/
def execVcoreBrownout (s : State) : Out :=
  match s.mode with
  | .park | .deepPark => .next s
  | _ => .next (resetSource 1 0 0 s)

/-- The section-supply sources of SW: the section is below FULL while another is at 6 V or above (R57). -/
def sectionSources (s : State) : State :=
  (List.range 4).foldl (fun t k =>
    let low := decide (Band.num (t.section k) ≤ 3) && (List.range 4).any fun j => decide (4 ≤ Band.num (t.section j))
    t.level (94 + k) low) s

/-- VBUS falls below the undervoltage threshold in a parking mode: VBAT_LOW is set, nothing wakes (R94). -/
def parkFall (s : State) : State := latchCause 9 0 { s with parkLow := true }
/-- VBUS rises above the HOLD/REDUCED threshold after such a fall: VBAT_RET is latched, and wakes where enabled (R94). -/
def parkRise (s : State) : State := if s.parkLow then latchCause 8 0 { s with parkLow := false } else s

/-- The band takes a value and acts on every island; the overvoltage source follows it (R81–R84). -/
def enterBand (b : Band) (s : State) : State :=
  let s1 := ({ s with band := b }).level 18 (decide (b = Band.over))
  bandChanged s.band b (if s.band = .undervoltage then fieldUp s1 else s1)

/-- BAND_CHANGE: the band acts on every island; the undervoltage band is reset source 2 outside the parking modes, and
below the power-on threshold every island loses power; from there only POWER_ON leads back (R81, R82, R84, R94). In the
undervoltage band the outputs stay off through the hold that the reset brings (Table 3.1, R109), and FLD has no supply. -/
def execBandChange (b : Band) (s : State) : Out :=
  if s.band = .off then .next s
  else
    match b with
    | .off => .next { unpowered s with band := .off }
    | .undervoltage =>
      match s.mode with
      | .park | .deepPark => .next (parkFall (enterBand b s))
      | _ => .next (fieldDown (bandChanged s.band b (resetSource 2 0 0 (({ s with band := b }).level 18 false))))
    | .hold => .next (enterBand b s)
    | _ =>
      match s.mode with
      | .park | .deepPark => .next (parkRise (enterBand b s))
      | _ => .next (enterBand b s)

/-- SECTION_BAND_CHANGE: the section's channels are held off or return, and the section-supply source follows (R57,
R81). -/
def execSectionBandChange (sec : Fin 4) (b : Band) (s : State) : Out :=
  let s1 := { s with secBand := s.secBand.set (fun _ => .full) sec.val b }
  .next (sectionChanged sec (s.section sec) b (sectionSources s1))

/-- GROUND_TAB_FAULT (R57). -/
def execGroundTabFault (present : Bool) (s : State) : Out := .next (s.level 98 present)

/-- PWR_STATUS with its bands (Table 3.11). -/
def pwrStatus (s : State) : Word :=
  let band := match s.band with
    | .reduced => 1 | .full => 2 | .over => 3 | _ => 0
  let low := (List.range 4).map fun k => (5 + k, decide (Band.num (s.section k) ≤ 2))
  let red := (List.range 4).map fun k => (9 + k, decide (Band.num (s.section k) ≤ 3))
  putFld (s.reg 0xA70100) 2 3 band ||| packBits (low ++ red)

/-! Straps and test access (R66–R72). -/

/-- STRAP_SAMPLE: the first value two consecutive samples agree on is latched, once per power-on (R67). -/
def execStrapSample (v : BitVec 9) (s : State) : Out :=
  if s.straps.isSome || decide (s.band = .off) then .next s
  else if s.strapLast = some v then .next { s with straps := some v }
  else .next { s with strapLast := some v }

/-- The TAP is held in Test-Logic-Reset throughout an L0 reset (R72); without power, and in the parking modes, where VIO and
VCORE are off, it does not run (R87, R95). -/
def tapHeld (s : State) : Bool :=
  decide (s.band = .off) || (s.resetNLow && decide (s.bring.level = some 0)) ||
  (match s.mode with | .park => true | .deepPark => true | _ => false)

/-- An instruction is loaded into the TAP; EXTEST, CLAMP and HIGHZ raise the test-access source (R70). -/
def loadTap (t : Tap) (s : State) : State :=
  if tapHeld s then s
  else ({ s with tap := t, bypassReg := false }).level 3
    (decide (t = Tap.extest) || decide (t = Tap.clamp) || decide (t = Tap.highz))

/-- The data register the TAP's instruction selects between TDI and TDO: the boundary register, or the one-bit bypass
register (Table 2.10). -/
def tapData (s : State) : List Bool :=
  match s.tap with
  | .extest | .sample => s.boundary
  | _ => [s.bypassReg]

/-- TDO may be driven: the strap latch is loaded and the TAP runs (R67, R72). -/
def tdoMayDrive (s : State) : Bool := s.straps.isSome && !tapHeld s

/-- The logic-level terminals besides JTAG: FAULT_N, RESET_N and the outputs of SECSPI_A and SECSPI_B (Table 2.8, Table
2.10). -/
inductive LogicPin where
  | faultN | resetN
  | secspi (port : Fin 2) (line : Fin 3)
  deriving DecidableEq, Repr

/-- The boundary cell of a logic-level terminal. The BSDL description is not part of the spec: the model numbers the cells
by signal pin, S001 first (notes/assumptions/29.md). -/
def LogicPin.cell : LogicPin → Nat
  | .faultN => 265
  | .resetN => 266
  | .secspi p l => 243 + 4 * p + (if l.val = 2 then 3 else l)

/-- What the controller drives on a logic-level terminal: none where it leaves it undriven. `idle` is the level a SECSPI
output has between transfers; the open-drain terminals are driven low or not at all (R67, R70, R74, R75, R95). -/
def pinDrive (s : State) (idle : Bool) (p : LogicPin) : Option Bool :=
  if s.band = .off then none
  else match s.tap with
    | .extest | .clamp => s.boundary[p.cell]?
    | .highz => none
    | _ => match p with
      | .faultN => if s.faultNLow then some false else none
      | .resetN => if s.resetNLow then some false else none
      | .secspi _ _ =>
        if s.straps.isSome && s.running .sec && (match s.mode with | .park => false | .deepPark => false | _ => true)
        then some idle else none

/-- EXTEST (R70). -/
def execExtest (s : State) : Out := .next (loadTap .extest s)
/-- SAMPLE_PRELOAD: the boundary register captures every terminal, or takes what is shifted in before EXTEST or CLAMP
(R69). -/
def execSamplePreload (levels : List Bool) (s : State) : Out :=
  .next (if tapHeld s then s else { loadTap .sample s with boundary := levels })
/-- CLAMP (R70). -/
def execClamp (s : State) : Out := .next (loadTap .clamp s)
/-- HIGHZ (R70). -/
def execHighz (s : State) : Out := .next (loadTap .highz s)
/-- BYPASS, debug codes and unlisted codes; the four codes with an instruction of their own are not of this row
(R69). -/
def execBypass (code : Byte) (s : State) : Out :=
  if code.toNat ∈ [0x00, 0x01, 0x03, 0x04] then .next s else .next (loadTap .bypass s)

/-! Sensor supplies (R73, R88). -/

/-- VSEN_n is on (R88). -/
def vsenOn (s : State) (n : Nat) : Bool :=
  let ok := match s.vsen.get (fun _ => .normal) n with
    | .normal => true
    | .shorted .toGround => true
    | _ => false
  ok && match s.mode with
    | .run => decide (2 ≤ Band.num s.band) && s.regBit 0xA7010B n
    | .entering _ => decide (2 ≤ Band.num s.band) && s.regBit 0xA7010B n
    | .park => decide (2 ≤ Band.num s.band) && s.regBit 0xA7010B (4 + n)
    | .deepPark => false

/-- VSEN_STAT (Table 3.10): a short to battery is reported as long as the supply is off for it, the 10 ms before its restart
included (R88). -/
def vsenStat (s : State) : Word :=
  let st (n : Nat) := s.vsen.get (fun _ => Vsen.normal) n
  packBits (((List.range 4).map fun n => (n, vsenOn s n)) ++
    ((List.range 4).map fun n => (4 + n, decide (st n = .shorted .toGround))) ++
    ((List.range 4).map fun n => (8 + n, match st n with
      | .shorted .toBattery => true
      | .restarting _ => true
      | _ => false)))

/-- VSEN_SHORT: a short to battery switches the supply off and raises its source as long as it lasts; a short to ground
is limited and reported in VSEN_STAT (R73). -/
def execVsenShort (n : Fin 4) (k : ShortKind) (present : Bool) (s : State) : Out :=
  let old := s.vsen.get (fun _ => .normal) n.val
  let put (v : Vsen) (t : State) : State := { t with vsen := t.vsen.set (fun _ => .normal) n.val v }
  match k, present with
  | .toBattery, true => .next ((put (.shorted .toBattery) s).level (20 + n) true)
  | .toBattery, false =>
    .next (if old = .shorted .toBattery then (put (.restarting s.now) s).level (20 + n) false else s)
  | .toGround, true => .next (if old = .normal then put (.shorted .toGround) s else s)
  | .toGround, false => .next (if old = .shorted .toGround then put .normal s else s)

/-- VSEN_RESTART: 10 ms after the short is removed (R88). -/
def execVsenRestart (n : Fin 4) (s : State) : Out :=
  match s.vsen.get (fun _ => .normal) n.val with
  | .restarting t => .next (if s.now < t + 10000 then s else { s with vsen := s.vsen.set (fun _ => .normal) n.val .normal })
  | _ => .next s

/-- SUPPLY_MEASURE_UPDATE: every 100 µs in Run (R96). -/
def execSupplyMeasureUpdate (va vb vc vd vbus : Word) (s : State) : Out :=
  .next (if s.mode = .run ∧ s.running .aon then s.setRegList 0xA70106 [va, vb, vc, vd, vbus] else s)

/-! Wake and the power modes (R89–R98). -/

/-- WKL_WAKE: a low held for 50 µs, but not by an edge this controller causes while it drives the line (R97, R367). -/
def execWklWake (l : Fin 2) (us : Nat) (s : State) : Out :=
  .next (if s.running .aon && !s.regBit 0xA30808 (2 + l) && decide (50 ≤ us) then latchCause (1 + l) 0 s else s)

/-- PARK_VBAT_LOW: in a parking mode the fall sets VBAT_LOW without waking (R94). -/
def execParkVbatLow (s : State) : Out :=
  match s.mode with
  | .park | .deepPark => .next (if s.band = .off then s else parkFall { s with band := .undervoltage })
  | _ => .next s

/-- PARK_VBAT_RETURN: the rise after that fall wakes with cause VBAT_RET where enabled (R94). -/
def execParkVbatReturn (s : State) : Out :=
  match s.mode with
  | .park | .deepPark => .next (if s.parkLow then parkRise { s with band := .reduced } else s)
  | _ => .next s

/-- A W1C write to WAKE_CAUSE; at 0 WAKE_FIRST returns to 0x000F (R96). -/
def wakeClear (v : Word) (s : State) : State :=
  let s1 := s.plainWrite 0xA70104 v
  if s1.reg 0xA70104 = 0 then s1.setReg 0xA70105 0x000F#16 else s1

/-- The conditions of Table 3.7 in their order: the refusal word, or none where all are met. -/
def parkRefusal (s : State) (deep : Bool) : Option Word :=
  match parkOffender s with
  | some (i, k) => some (pack [(0, 1), (4, i), (8, k)])
  | none =>
    if s.reg 0xA70104 &&& s.reg 0xA70103 &&& 0x01FF#16 ≠ 0 then some 0x0002#16
    else if s.reg 0xA70103 &&& wakeMask deep = 0 then some 0x0003#16
    else if flashBusy s then some 0x0004#16
    else if healthOpen s then some 0x0005#16
    else none

/-- A write of PWR_CTRL (R90, R91): accepted, the controller enters the mode; SUP stops every core and fences
every gate into every island other than AON, SUP and MEM. -/
def pwrCtrl (v : Word) (s : State) : State :=
  if fld v 8 8 ≠ 0xA5 ∨ (fld v 0 2 ≠ 1 ∧ fld v 0 2 ≠ 2) ∨ s.mode ≠ .run then s
  else
    let deep := decide (fld v 0 2 = 2)
    match parkRefusal s deep with
    | some w => s.setReg 0xA70102 w
    | none =>
      let s1 := (s.setReg 0xA70102 0).setRegBit 0xA70100 13 false
      let s2 := (List.range 8).foldl (fun t c => freezeWatchdog c (t.modCore c fun k => { k with st := .stopped, wait := none })) s1
      let s3 := (allIslands.filter fun i => i ≠ .aon ∧ i ≠ .sup ∧ i ≠ .mem).foldl (fun t i => fenceGates i t) s2
      { netSleep deep s3 with mode := .entering deep, enterAt := s.now }

/-- The entry reaches its mode at 1 ms (R91): every island but AON without VCORE, the TAP with them, FAULT_N released, the LF
poll scheduler running in Park (R87, R95). -/
def modeReached (deep : Bool) (s : State) : State :=
  let s1 := (allIslands.filter fun i => i ≠ .aon ∧ (i ≠ .mem ∨ deep)).foldl (fun t i =>
    maskRange i (t.setIsland i { t.island i with st := .inReset, lock := false, ready := false, chk := false })) s
  let s2 := { (fieldDown s1).level 3 false with
    mode := if deep then .deepPark else .park, faultNLow := false, tap := .bypass, parkLow := false }
  if deep then s2 else pollStart s2

/-! The RTC (R98). -/

/-- The seconds take a value; the RTC cause latches where it is new and equals RTC_ALM. -/
def rtcSeconds (v : Nat) (s : State) : State :=
  let s1 := pollDay { s with rtcSec := v % 2 ^ 32 }
  if s1.rtcSec ≠ s.rtcSec ∧ s1.rtcSec = hiLo (s.reg 0xA70114) (s.reg 0xA70113) then latchCause 0 0 s1 else s1

/-- RTC_TICK (R98). -/
def execRtcTick (s : State) : Out :=
  if s.running .aon then
    if s.rtcFrac + 1 < 32768 then .next { s with rtcFrac := s.rtcFrac + 1 }
    else .next (rtcSeconds (s.rtcSec + 1) { s with rtcFrac := 0 })
  else .next s

/-- A read of RTC_SEC_LO captures the whole RTC. -/
def rtcCapture (s : State) : State :=
  ((s.setReg 0xA70110 (w16 s.rtcSec)).setReg 0xA70111 (w16 (s.rtcSec / 65536))).setReg 0xA70112 (w16 s.rtcFrac)

/-- A write of RTC_CMD: LOAD. -/
def rtcCmd (v : Word) (s : State) : State :=
  if bit v 0 then { rtcSeconds (hiLo (s.reg 0xA70116) (s.reg 0xA70115)) s with rtcFrac := 0 } else s

end Sys2Proof.Machine
end

