-- ==== Sys2Proof/Machine/Boot.lean ====
section
/-! DEFINITION. Islands leaving reset, clock loss, the option load and OTP, the image check, the zero-fill and the
take-over by programs (R18–R41, R110–R131).
The readings and choices it rests on: notes/assumptions/24, 25, 27, 72. -/

namespace Sys2Proof.Machine

/-- The supply lets islands run: VBUS above the undervoltage band, not reversed, a mode with VCORE. -/
def supplyOk (s : State) : Bool :=
  decide (2 ≤ Band.num s.band) && !s.reversed && (match s.mode with | .park => false | .deepPark => false | _ => true)

/-- Programs take over: every core whose island is in RUN is released with its boot descriptors, FAULT_N and the
bring-up end (R110, R119, R120). DESIGN CHOICE: after take-over nothing but a reset drives FAULT_N low. R74 lets the
Sampler or the program assert it and names no reaction and no register for that (notes/assumptions/73.md). -/
def takeOver (s : State) : State :=
  let s1 := (List.range 8).foldl (fun t c =>
    let k := t.core c
    let p := t.physPair (t.mapPair (c / 2))
    if t.lead c = c ∧ k.st = .inReset ∧ t.running (t.coreIsland c) ∧ p.retired = false ∧ p.standby = false ∧ k.dormant = false
    then releaseCore c t else t) s
  if s.bring.taken then s1
  else
    let s2 := s1.setReg 0xA80006 (w16 (clampN 0 0xFFFF ((s.now - s.bring.ref) / 10)))
    marCheckEnd (trialBoot { s2 with faultNLow := false, bring := { s2.bring with taken := true } })

/-- The islands ahead of the cores in the order of R110, and the core islands themselves, are released. -/
def aheadOfCores (s : State) : Bool := allIslands.all fun i => s.running i

/-- The bank whose image is being checked: the active one, or the other once the active image has failed (R119). -/
def bankInCheck (s : State) : Nat := if s.bring.second then 1 - activeBank s else activeBank s

/-- The image under check has passed: where it is the other bank's, the bank pointer moves to it now and ALT_BANK is set
(R118, R119). -/
def imagePassed (s : State) : State :=
  let b := bankInCheck s
  let s1 := if s.bring.second then (setActiveBank b s).setRegBit 0xA80005 2 true else s
  let s2 := (s1.setRegBit 0xA80005 1 (decide (b = 1))).setRegBit 0xA80005 0 true
  { s2 with bring := { s2.bring with imgOk := true, verifying := false, checked := true, second := false } }

/-- The header of the bank under check has passed: the payload has still to be verified, or the flag spares it (R118). -/
def headerPassed (s : State) : State :=
  let s1 := setPairing (bankInCheck s) s
  if verified s1 (bankInCheck s) ∧ s1.bring.level ≠ some 0 then imagePassed (s1.setRegBit 0xA80005 3 true)
  else { s1 with bring := { s1.bring with verifying := true, checked := true } }

/-- Both images have failed: no core is released (R119). -/
def imagesFailed (s : State) : State :=
  { s with bring := { s.bring with checked := true, bothBad := true, verifying := false, second := false } }

/-- The active image has failed: the image in the other bank is checked (R119). -/
def checkOther (s0 : State) : State :=
  let s := updRead (bankBase (1 - activeBank s0)) 64 s0
  if headerOk s (1 - activeBank s) then headerPassed { s with bring := { s.bring with second := true } } else imagesFailed s

/-- The check of the image header of the active bank, then of the other bank (R118, R119). -/
def checkHeader (s : State) : State :=
  let s1 := updRead (bankBase (activeBank s)) 64 (s.setRegBit 0xA80005 1 (decide (activeBank s = 1)))
  if headerOk s1 (activeBank s1) then headerPassed s1 else checkOther s1

/-- What the bring-up can do next: the header check once MEM and SEC run, and the take-over once the check has passed,
the zero-fill is complete and the parts ahead are released. -/
def proceed (s : State) : State :=
  let s1 := if !s.bring.checked && !s.bring.taken && s.running .mem && s.running .sec && s.running .sup && !flashBusy s
    then checkHeader s else s
  if s1.bring.imgOk && !s1.bring.filling && aheadOfCores s1 then takeOver s1 else s1

/-- An island may leave reset now (R21, R110, R122). An output island, and SEC, read their records in the settings
generations first; while one is busy that read waits at MEM (R34). -/
def releasable (i : Island) (s : State) : Bool :=
  supplyOk s && !s.bring.held && !decide ((s.island i).st = .run) && !decide ((s.island i).st = .isolated) &&
  (match outOf i with
    | some _ => !settingsBusyIn s 0 && !settingsBusyIn s 1
    | none => decide (i ≠ .sec) || (!settingsBusyIn s 0 && !settingsBusyIn s 1)) &&
  (match i with
    | .aon => true
    | .sup => s.running .aon
    | .mem => s.running .sup && s.bring.loaded && !s.bring.halted
    | .fld => s.running .mem && s.bring.loaded && !s.bring.halted && fieldPowered s
    | _ => s.running .mem && s.bring.loaded && !s.bring.halted)

/-- What an island does once it runs: SUP and MEM together form the update state (R476), LNK and NET start. -/
def onRun (i : Island) (s : State) : State :=
  match i with
  | .sup | .mem => if s.running .sup && s.running .mem && !s.upd.formed then formJournal s else s
  | .lnk => releaseLnk s
  | .net => netOnRun s
  | _ => s

/-- The nominal clock of an island in MHz (Table 1.1). -/
def islandMhz : Island → Nat
  | .sw => 80 | .act => 100 | .lux => 100 | .net => 125 | .sec => 250 | .fld => 20 | .lnk => 400 | .aon => 1
  | .sup => 50 | .mem => 200 | .cpa => 250 | .cpb => 250

/-- One microsecond of the clocks of islands that may leave reset: from IN_RESET to CLOCK_WAIT, then lock, and the count of
64 stable cycles (R21, R102, Table 1.9). -/
def clockTime (s : State) : State :=
  allIslands.foldl (fun t i =>
    let r := t.island i
    if !releasable i t then t
    else match r.st with
      | .inReset => t.setIsland i { r with st := .clockWait, lock := false, ready := false, cnt := 0 }
      | .clockWait =>
        let n := Nat.min 64 (r.cnt + islandMhz i)
        t.setIsland i { r with lock := true, cnt := n, ready := decide (n = 64) }
      | _ => t) s

/-- ISLAND_RELEASE: lock, 64 stable cycles, RUN, the fence lifted; before RUN the island reloads its records (R21,
R41, R102). The release of SUP starts the option load. -/
def execIslandRelease (i : Island) (s : State) : Out :=
  if !releasable i s then .next s
  else
    let s1 := match i with
      | .sw => restoreRetired .sw s
      | .act => restoreRetired .act s
      | .lux => restoreRetired .lux s
      | .fld => restoreRetired .fld s
      | .sec => releaseSec s
      | .sup => { s with bring := { s.bring with loading := true, loaded := false, retry := false } }
      | _ => s
    let s2 := liftFences i (s1.setIsland i
      { s1.island i with st := .run, lock := true, ready := true, loss := false, chk := false, cnt := 64, runAt := s.now })
    let s3 := match i with
      | .sw => s2.setRegBit 0xA80005 5 (s2.calib.get (fun _ => false) 0)
      | .act => s2.setRegBit 0xA80005 6 (s2.calib.get (fun _ => false) 1)
      | .lux => s2.setRegBit 0xA80005 7 (s2.calib.get (fun _ => false) 2)
      | .fld => s2.setRegBit 0xA80005 8 (s2.calib.get (fun _ => false) 5)
      | _ => s2
    let s4 := onRun i s3
    .next (match i with
      | .cpa | .cpb => if s4.bring.taken then recheckCores i s4 else proceed s4
      | _ => marCheckEnd (proceed s4))
where
  /-- The cores of an island released after an L2: the header check first (R102). -/
  recheckCores (i : Island) (s : State) : State :=
    if !headerOk s (activeBank s) then
      resetL1 (recordLast 14 1 i.num (s.setRegBit 0xA80000 14 true))
    else if verified s (activeBank s) then takeOver s
    else { s with bring := { s.bring with verifying := true } }

/-- The rail of an island's clock monitor is up: with power, and in the parking modes for AON alone (R87, R111). -/
def monitored (s : State) (i : Island) : Bool :=
  decide (s.band ≠ .off) && (match s.mode with
    | .park | .deepPark => decide (i = .aon)
    | _ => true)

/-- CLOCK_LOSS: LOSS is recorded and reset source 9 or 10 acts (R20, R104); the monitors of islands in reset run on
(R111). -/
def execClockLoss (i : Island) (s : State) : Out :=
  let r := s.island i
  if r.st = .clockLost ∨ !monitored s i then .next s
  else
    let s1 := s.setIsland i { r with loss := true, lock := false, ready := false, chk := false, cnt := 0,
                                     st := if r.st = .inReset then .inReset else .clockLost }
    let s2 := discardGates i (maskRange i s1)
    .next (if i = .aon ∨ i = .sup ∨ i = .mem then resetSource 10 0 0 s2
      else resetSource 9 i.num 0 s2)

/-- HANDSHAKE_TIMEOUT: the transfer is dropped, the gate fenced, the gate fault source of the destination raised (R30). -/
def execHandshakeTimeout (src dst : Island) (s : State) : Out :=
  let g := s.gate src.num dst.num
  if g.fenced ∨ !s.running dst ∨ src = dst then .next s
  else
    let s1 := s.setGate src.num dst.num { q := [], src := [], fenced := true }
    let n := g.q.length + g.src.length - 1
    let s2 := if n = 0 then s1
      else (s1.setReg (icb dst + 4) (w16 (clampN 0 0xFFFF (s1.regN (icb dst + 4) + n)))).setRegBit (icb dst + 3) 0 true
    .next ((s2.setRegBit (icb dst + 3) 1 true).raiseIsl dst 0 none)

/-- ICB_CLK (Table 1.8). -/
def icbClk (s : State) (i : Island) : Word :=
  let r := s.island i
  packBits [(0, r.lock), (1, r.ready), (2, r.loss)]

/-- ICB_STATE (Table 1.9). -/
def icbState (s : State) (i : Island) : Word :=
  let r := s.island i
  let st := match r.st with
    | .inReset => 0 | .clockWait => 1 | .run => 2 | .isolated => 3 | .clockLost => 4
  pack [(0, st), (8, r.l2count)]

/-! Reset sources with rows of their own (R75, R104–R109). -/

/-- RESET_N_REQUEST: ignored while the controller drives RESET_N and for 5 µs after (R75); the sequence waits while the
pin stays low (R122). -/
def execResetNRequest (s : State) : Out :=
  if s.resetNLow ∨ s.now < s.resetNFree + 5 ∨ s.band = .off then .next s
  else .next (resetSource 3 0 0 { s with bring := { s.bring with held := true } })

/-- RESET_N_RISE: the pin is high again; the sequence goes on (R75, R122). -/
def execResetNRise (s : State) : Out := .next { s with bring := { s.bring with held := false } }

/-- HOLD_EXPIRY: 250 ms after the first reset of a series (R107). -/
def execHoldExpiry (s : State) : Out :=
  .next (if s.holdStart.isSome then { leaveHold s with holdStart := none } else s)

/-- DESCRIPTOR_TABLE_ERROR: reset source 6 (R104). -/
def execDescriptorTableError (c : CoreId) (s : State) : Out :=
  .next (if (s.core (s.lead c)).st = .running then resetSource 6 (s.coreIsland c).num c s else s)

/-- SUPERVISOR_STATE_ERROR: reset source 7; an activation whose severity word was being read goes into the first-fault
record with severity 7 (R104, Table 15.7). -/
def execSupervisorStateError (n : Option (Fin 256)) (s : State) : Out :=
  if !s.running .sup then .next s
  else
    let s1 := match n with
      | some k => recordFirst k 7 (s.src k).wire (s.src k).res s
      | none => s
    .next (resetSource 7 0 0 s1)

/-- RETIREMENT_RECORD_ERROR: reset source 8 (R104). -/
def execRetirementRecordError (i : OutIsl) (s : State) : Out :=
  .next (if s.running i.island then resetSource 8 i.island.num 0 s else s)

/-- A write of RST_REQ (R106). -/
def rstRequest (v : Word) (s : State) : State :=
  if fld v 8 8 ≠ 0x5A then s
  else
    let lvl := fld v 0 2
    let t := fld v 2 4
    let bad := (lvl = 2 ∧ (t = 7 ∨ t = 8 ∨ t = 9 ∨ 12 ≤ t)) ∨ (lvl = 3 ∧ 8 ≤ t)
    if bad then s.setRegBit 0xA80000 15 true
    else resetAt 12 lvl t (recordCause 12 s)

/-! Option load and OTP (R114–R117). -/

/-- OPTION_LOAD_COMPLETE: a double-bit error in a word ends the attempt, the words before it copied, and the third halts
the controller; else the shadow is loaded whole and RESET_N released (R112, R115). `fixes` counts the single-bit
corrections of this load. -/
def execOptionLoadComplete (bad : Option (Fin 1024)) (fixes : Nat) (s : State) : Out :=
  let copied (n : Nat) : Sparse Word := s.otp.filter fun (e : Nat × Word) => decide (e.1 < n) && !(decide (0x100 ≤ e.1) && decide (e.1 < 0x140))
  if !s.bring.loading ∨ s.bring.halted ∨ !s.running .sup then .next s
  else
    match bad with
    | some w =>
      let n := satInc 3 (s.regFld 0xA80004 1 2)
      let s0 := s.setReg 0xA80004 (pack [(0, s.regFld 0xA80004 0 1), (1, n), (4, w.val / 64), (8, clampN 0 0xFF fixes)])
      let s1 := { s0 with shadow := copied w ++ s0.shadow.filter fun (e : Nat × Word) => decide (w.val ≤ e.1) }
      if 3 ≤ n then .next { s1 with bring := { s1.bring with loading := false, retry := false, halted := true } }
      else .next { s1 with bring := { s1.bring with loading := false, retry := true, failAt := s.now } }
    | none =>
      let s1 := s.setReg 0xA80004 (pack [(0, 1), (4, s.regFld 0xA80004 4 4), (8, clampN 0 0xFF fixes)])
      .next { s1 with shadow := copied 1024, resetNLow := false, resetNFree := s.now,
                      bring := { s1.bring with loading := false, loaded := true } }

/-- OPTION_LOAD_RETRY: the load restarts 100 µs after a failed attempt (R115). -/
def execOptionLoadRetry (s : State) : Out :=
  .next (if s.bring.retry ∧ !s.bring.halted ∧ s.bring.failAt + 100 ≤ s.now then { s with bring := { s.bring with retry := false, loading := true } } else s)

/-- A write of OTP_CMD (R117). DESIGN CHOICE: DENIED and FAIL stay until the next OTP_CMD with its key, which overwrites
OTP_STAT; R117 does not say when they clear (notes/assumptions/27.md). -/
def otpCmd (v : Word) (s : State) : State :=
  if fld v 8 8 ≠ 0xC3 ∨ !bit v 0 ∨ s.otpBusy.isSome then s
  else
    let a := s.regFld 0xA80010 0 10
    let open_ := decide (a / 64 = 5) || decide (a / 64 = 7) || decide (8 ≤ a / 64)
    if !open_ ∨ a ∈ s.otpDone then s.setReg 0xA80013 (pack [(1, 1)])
    else { s.setReg 0xA80013 (pack [(0, 1)]) with otpBusy := some (a, s.reg 0xA80011) }

/-- OTP_PROGRAM_COMPLETE: BUSY clears; a failed verify sets FAIL and leaves the word's content open (R117). -/
def execOtpProgramComplete (ok : Bool) (s : State) : Out :=
  match s.otpBusy with
  | none => .next s
  | some (a, v) =>
    let w := if ok then v else s.freeWord
    let s1 := (if ok then s else s.used).setReg 0xA80013 (packBits [(2, !ok)])
    .next { s1.fuse a w with otpBusy := none }

/-! Image check, zero-fill, calibration (R110, R118–R121, R124). -/

/-- PAYLOAD_VERIFICATION_COMPLETE: SEC completes the CMAC over the payload (R118, R119). -/
def execPayloadVerificationComplete (s : State) : Out :=
  if !s.bring.verifying ∨ !s.running .sec then .next s
  else
    let b := bankInCheck s
    let s1 := { s with bring := { s.bring with verifying := false } }
    if payloadOk s b then
      let s2 := imagePassed (setVerified b true s1)
      .next (if s2.bring.taken then takeOver s2 else proceed s2)
    else if s.bring.taken then .next (resetL1 (recordLast 14 1 0 (s1.setRegBit 0xA80000 14 true)))
    else .next (if s.bring.second then imagesFailed s1 else proceed (checkOther s1))

/-- ZERO_FILL_COMPLETE: shared SRAM, but for a retention area that was kept, and the local memories read 0 (R93,
R112). -/
def execZeroFillComplete (s : State) : Out :=
  if !s.bring.filling ∨ !s.running .mem then .next s
  else
    let n := if s.bring.retain then 0x7F000 else 0x80000
    let s1 := (s.clearMem 0x800000 n).clearMem 0x880000 0x40000
    .next (proceed { s1 with bring := { s1.bring with filling := false } })

/-- CALIBRATION_COMPLETE: the island's bit of CAL_DONE (R121). -/
def execCalibrationComplete (i : OutIsl) (s : State) : Out :=
  if s.running i.island then
    let k := match i with | .sw => 0 | .act => 1 | .lux => 2 | .fld => 3
    let s1 := { s with calib := s.calib.set (fun _ => false) i.island.num true }
    .next (marCheckEnd (s1.setRegBit 0xA80005 (5 + k) true))
  else .next s

/-- REFERENCE_FALLBACK: the PLLs take the SUP RC; REF_FB and its source (R124). -/
def execReferenceFallback (s : State) : Out :=
  if s.bring.taken ∨ !s.running .sup then .next s
  else .next ((s.setRegBit 0xA80005 4 true).level 2 true)

/-- BRG_STATUS with HOLD formed on a read (Table 4.13). -/
def brgStatus (s : State) : Word := putBit (s.reg 0xA80005) 11 (anyHeld s)

end Sys2Proof.Machine
end

