-- ==== Sys2Proof/Machine/Cipher.lean ====
section
/-! DEFINITION. Key store commands, jobs and the random source (R412–R420, R424).
The readings and choices it rests on: notes/assumptions/51, 52, 53. -/

namespace Sys2Proof.Machine

/-! Key store commands (R412). -/

/-- Key bytes of a KLEN code of KS_GEN; 0 where it is refused. -/
def klenOf (n : Nat) : Nat := match n with | 0 => 16 | 1 => 24 | 2 => 32 | _ => 0

/-- The KEY of KS_CMD and no command running: the command begins with its staged words. -/
def ksCmd (r : Requester) (v : Word) (s : State) : State :=
  let op := fld v 0 3
  if fld v 8 8 ≠ 0x4B ∨ s.sec.ks.isSome ∨ op = 0 ∨ 5 < op then s
  else
    let s1 := { s with sec := { s.sec with ks := some { op := op, r := r, staged := s.regList 0xA42003 8 } } }
    s1.setReg 0xA4200C 0x0001#16

/-- The staged words of a command by name. -/
def KsCmd.slot (k : KsCmd) : Nat := fld (k.staged.getD 0 0) 0 6
/-- KS_ADDR. -/
def KsCmd.addr (k : KsCmd) : Nat := (k.staged.getD 1 0).toNat + 65536 * fld (k.staged.getD 2 0) 0 8
/-- KS_WLEN. -/
def KsCmd.wlen (k : KsCmd) : Nat := fld (k.staged.getD 3 0) 0 5
/-- KS_MASK. -/
def KsCmd.mask (k : KsCmd) : Byte := loByte (k.staged.getD 4 0)
/-- KS_GEN's USAGE. -/
def KsCmd.genUsage (k : KsCmd) : Byte := byte (fld (k.staged.getD 5 0) 2 8)
/-- KS_GEN's key length in bytes. -/
def KsCmd.genLen (k : KsCmd) : Nat := klenOf (fld (k.staged.getD 5 0) 0 2)

/-- The first failing check of Table 14.4 that does not need the unwrap; 0 where all pass. -/
def ksCheck (s : State) (k : KsCmd) : Nat :=
  let loads := decide (k.op ≤ 3)
  let reads := decide (k.op = 1 ∨ k.op = 2 ∨ k.op = 4)
  let kek := fld (k.staged.getD 7 0) 0 6
  let tk := bit (k.staged.getD 7 0) 6
  let words := if k.op = 3 then k.genLen / 2 + 4 else k.wlen
  let otp := k.addr % 1024
  let badKek : Bool := decide (kek = 0) || (match s.slot kek with | some e => !e.usage.getLsbD 4 | none => true)
  if k.alarmed then 8
  else if !coreNamed s 0xA42001 k.r then 1
  else if k.slot = 0 ∨ (loads ∧ (s.slot k.slot).isSome) then 2
  else if reads ∧ k.wlen ≠ 12 ∧ k.wlen ≠ 16 ∧ k.wlen ≠ 20 then 3
  else if k.op = 3 ∧ (k.genLen = 0 ∨ (k.genUsage.toNat / 32) ≠ 0) then 5
  else if k.op = 2 ∧ !(decide (0x1C0 ≤ otp) && decide (otp + k.wlen ≤ 0x200)) then 6
  else if (k.op = 1 ∨ k.op = 3 ∨ k.op = 4) ∧ !inSram k.addr words then 6
  else if decide (k.op = 4) && !tk && badKek then 7
  else if s.alive ≠ 0 then 8
  else if (k.op = 1 ∨ k.op = 4) ∧ s.anyDbe k.addr k.wlen then 9
  else if k.op = 3 ∧ (s.sec.trnFail ∨ k.noRandom) then 10
  else 0

/-- The code of a blob that does not unwrap: whether a MAGIC that is wrong is 4 or 5 is open, Table 14.4 names it in both
(R408). -/
def unwrapCode (n : Nat) (s : State) : Nat × State := if n = 4 then (4 + s.freeBelow 2, s.used) else (n, s)

/-- The command's own work, its checks passed: the code it ends with (Table 14.3). -/
def ksWork (k : KsCmd) (s : State) : Nat × State :=
  let root := s.sec.root.getD []
  match k.op with
  | 1 | 2 =>
    let ws := if k.op = 1 then s.memList k.addr k.wlen
      else (List.range k.wlen).map fun j => s.shadow.get (fun _ => 0#16) (k.addr % 1024 + j)
    match unwrapBlob root 0x00#8 ws with
    | .code n => unwrapCode n s
    | .key e =>
      if e.usage.getLsbD 5 || e.usage.getLsbD 6 then (5, s)
      else (0, s.setSlot k.slot (some { e with mask := k.mask }))
  | 3 =>
    let (key, s1) := freshBytes k.genLen s
    let e : KeySlot := ⟨key, k.genUsage, k.staged.getD 6 0, k.mask⟩
    (0, (s1.setSlot k.slot (some e)).storeList k.addr (wrapBlob root 0x00#8 e))
  | 4 =>
    let kw := k.staged.getD 7 0
    let kek := if bit kw 6 then s.sec.kt.getD [] else match s.slot (fld kw 0 6) with | some e => e.key | none => []
    match unwrapBlob kek 0x01#8 (s.memList k.addr k.wlen) with
    | .code n => unwrapCode n s
    | .key e => (0, s.storeList k.addr (wrapBlob root 0x00#8 e))
  | _ =>
    let uses := s.sec.jobs.any fun e => e.2.run && decide (fld (e.2.snap.getD 1 0) 0 6 = k.slot)
    let s1 := s.setSlot k.slot none
    (0, if uses then endRunning 7 s1 else s1)

/-- The words of shared SRAM a command reads or writes go through the key store requester (Table 1.10). -/
def ksAccess (k : KsCmd) (s : State) : State :=
  match k.op with
  | 1 => memBurst .sec 2 k.wlen s
  | 3 => memBurst .sec 2 (k.genLen / 2 + 4) s
  | 4 => memBurst .sec 2 (2 * k.wlen) s
  | _ => s

/-- KEY_STORE_COMPLETE: the outcome in KS_STAT, the flag (R412, R426). -/
def execKeyStoreComplete (s : State) : Out :=
  match s.sec.ks with
  | none => .next s
  | some k =>
    let c := ksCheck s k
    let (code, s1) := if c = 0 then ksWork k (ksAccess k s) else (c, if c = 9 then s.raiseIsl .sec 1 none else s)
    let s2 := { s1 with sec := { s1.sec with ks := none } }
    .next (cipherEvent 1 (s2.setReg 0xA4200C (pack [(1, code)])))

/-- KS_INFO, KID and mask words of a slot (R425). -/
def ksInfo (s : State) (a : Nat) : Word :=
  match s.slot ((a - 0xA42100) / 4) with
  | none => 0#16
  | some e =>
    match a % 4 with
    | 0 => pack [(0, 1), (1, (e.key.length - 16) / 8), (3, e.usage.toNat)]
    | 1 => e.kid
    | 2 => e.mask.setWidth 16
    | _ => 0#16

/-! Jobs (R415–R419). -/

/-- A job context. -/
def State.job (s : State) (j : Nat) : Job := s.sec.jobs.get (fun _ => {}) j
/-- A job context's word. -/
def jobAt (j w : Nat) : Nat := 0xA42020 + 0x20 * j + w
/-- A job context written, with its JOB_STAT. -/
def State.setJob (s : State) (j : Nat) (x : Job) : State :=
  let s1 := { s with sec := { s.sec with jobs := s.sec.jobs.set (fun _ => {}) j x } }
  s1.setReg (jobAt j 0x1B) (packBits [(0, x.busy), (1, x.run), (6, x.wbusy)] ||| pack [(2, x.code)])

/-- The writable bits of a staging word (Table 14.6). -/
def jobMask (w : Nat) : Word :=
  match w with
  | 0 => 0x007F#16 | 1 => 0x003F#16 | 3 => 0x00FF#16 | 5 => 0x00FF#16 | 7 => 0x000F#16 | 9 => 0x01FF#16
  | _ => 0xFFFF#16

/-- The requester owns the context (CIPH_OWNER, R415). -/
def jobOwner (s : State) (j : Nat) (r : Requester) : Bool := ownerAllows (s.regFld 0xA42000 (4 * j) 4) r

/-- A write of a staging word (R415). -/
def jobStage (r : Requester) (j w : Nat) (v : Word) (s : State) : State :=
  if !jobOwner s j r then s
  else if (s.job j).busy then s.setJob j { s.job j with wbusy := true }
  else s.setReg (jobAt j w) (v &&& jobMask w)

/-- A write of JOB_GO: the snapshot, queued (R415). -/
def jobGo (r : Requester) (j : Nat) (v : Word) (s : State) : State :=
  if !jobOwner s j r then s
  else if (s.job j).busy then s.setJob j { s.job j with wbusy := true }
  else
    let s1 := s.setJob j { s.job j with busy := true, run := false, wbusy := false, code := 0, key := [], seq := v, r := r,
                                         snap := s.regList (jobAt j 0) 26 }
    { s1 with sec := { s1.sec with jobQ := s1.sec.jobQ ++ [j] } }

/-- MODE. -/
def Job.mode (x : Job) : Nat := fld (x.snap.getD 0 0) 0 4
/-- DIR. -/
def Job.dec (x : Job) : Bool := bit (x.snap.getD 0 0) 4
/-- PAD counts in ECB and CBC. -/
def Job.pad (x : Job) : Bool := bit (x.snap.getD 0 0) 5 && decide (x.mode ≤ 1)
/-- Source address. -/
def Job.src (x : Job) : Nat := (x.snap.getD 2 0).toNat + 65536 * fld (x.snap.getD 3 0) 0 8
/-- Destination address. -/
def Job.dst (x : Job) : Nat := (x.snap.getD 4 0).toNat + 65536 * fld (x.snap.getD 5 0) 0 8
/-- Payload length. -/
def Job.len (x : Job) : Nat := (x.snap.getD 6 0).toNat + 65536 * fld (x.snap.getD 7 0) 0 4
/-- Associated data length, in GCM and CCM. -/
def Job.aad (x : Job) : Nat := if x.mode = 4 ∨ x.mode = 5 then (x.snap.getD 8 0).toNat else 0
/-- TAGLEN. -/
def Job.tagLen (x : Job) : Nat := fld (x.snap.getD 9 0) 0 5
/-- NLEN. -/
def Job.nLen (x : Job) : Nat := fld (x.snap.getD 9 0) 5 4
/-- The bytes of JOB_IV. -/
def Job.iv (x : Job) : List Byte := bytesOf ((x.snap.drop 10).take 8)
/-- The bytes of JOB_TAG. -/
def Job.tag (x : Job) : List Byte := bytesOf ((x.snap.drop 18).take 8)
/-- Words of the source: associated data, then payload (R416). -/
def Job.srcWords (x : Job) : Nat := (x.aad + 1) / 2 + (x.len + 1) / 2
/-- Words of the destination; with padding on decryption, those of LEN bytes. -/
def Job.dstWords (x : Job) : Nat :=
  if x.mode = 6 then 0
  else if x.pad && !x.dec then (x.len + (16 - x.len % 16) + 1) / 2 else (x.len + 1) / 2

/-- TAGLEN, NLEN and the lengths are of Table 14.9. -/
def jobParamsOk (x : Job) : Bool :=
  let t := x.tagLen
  match x.mode with
  | 0 | 1 => if x.pad then !x.dec || (decide (x.len % 16 = 0) && decide (16 ≤ x.len)) else decide (x.len % 16 = 0)
  | 2 | 3 => true
  | 4 => decide (t = 4 ∨ t = 8 ∨ (12 ≤ t ∧ t ≤ 16)) && decide (x.aad ≤ 0xFEFF)
  | 5 => decide (4 ≤ t ∧ t ≤ 16 ∧ t % 2 = 0) && decide (7 ≤ x.nLen ∧ x.nLen ≤ 13) &&
      decide (x.len < 256 ^ (15 - x.nLen)) && decide (x.aad ≤ 0xFEFF)
  | 6 => decide (1 ≤ t ∧ t ≤ 16)
  | _ => false

/-- `n` words at an address lie in shared SRAM or in the cipher buffer (R416). -/
def jobRegion (a n : Nat) : Bool :=
  decide (n = 0) || inSram a n || (decide (0xA44000 ≤ a) && decide (a + n ≤ 0xA45000))

/-- The checks of Table 14.8 at the start (R416). -/
def jobCheck (s : State) (x : Job) : Nat :=
  let n := fld (x.snap.getD 1 0) 0 6
  let need := if x.mode = 6 then (if x.dec then 3 else 2) else (if x.dec then 1 else 0)
  let a := x.src
  let b := x.dst
  let overlap := decide (0 < x.dstWords) && decide (0 < x.srcWords) && decide (a ≠ b) &&
    decide (a < b + x.dstWords) && decide (b < a + x.srcWords)
  if !jobParamsOk x then 1
  else match (if n = 0 then none else s.slot n) with
    | none => 2
    | some e =>
      if !(match x.r with | .core c => e.mask.getLsbD c | _ => false) then 2
      else if !e.usage.getLsbD need then 3
      else if !jobRegion a x.srcWords || !jobRegion b x.dstWords || overlap then 4
      else 0

/-- The job that runs. -/
def runningJob (s : State) : Option Nat := (List.range 4).find? fun j => (s.job j).run

/-- JOB_START: the next queued job and its checks (R416). -/
def execJobStart (s : State) : Out :=
  match s.sec.jobQ, runningJob s with
  | j :: rest, none =>
    let x := s.job j
    let s1 := { s with sec := { s.sec with jobQ := rest } }
    let key := match s.slot (fld (x.snap.getD 1 0) 0 6) with | some e => e.key | none => []
    .next (s1.setJob j { x with run := true, code := jobCheck s x, key := key })
  | _, _ => .next s

/-- The requests of the cipher input or output requester for words of shared SRAM, one 8-word line each (R413). -/
def jobLines (k a n : Nat) (s : State) : State := if a < 0xA00000 then memBurst .sec k ((n + 7) / 8) s else s

/-- Words the engine reads: shared SRAM or the cipher buffer. -/
def jobRead (s : State) (a n : Nat) : List Word := if a < 0xA00000 then s.memList a n else s.regList a n
/-- Words the engine writes. -/
def jobWrite (a : Nat) (ws : List Word) (s : State) : State := if a < 0xA00000 then s.storeList a ws else s.setRegList a ws

/-- What a job computes: code, output, tag, the IV written back. -/
structure JobOut where
  code : Nat := 0
  out : List Byte := []
  tag : Option (List Byte) := none
  iv : Option (List Byte) := none
  deriving DecidableEq, Repr

/-- The padding of Table 14.9 taken off; none where it is invalid. -/
def unpad (l : List Byte) : Option (List Byte) :=
  let p := (l.getLastD 0).toNat
  if 1 ≤ p ∧ p ≤ 16 ∧ p ≤ l.length ∧ l.drop (l.length - p) = List.replicate p (byte p) then some (l.take (l.length - p)) else none

/-- The work of a job over its associated data and payload (Tables 14.7 and 14.9). -/
def jobCompute (x : Job) (aad pl : List Byte) : JobOut :=
  let k := x.key
  let p := 16 - pl.length % 16
  let padded := if x.pad && !x.dec then pl ++ List.replicate p (byte p) else pl
  let finish (o : List Byte) (iv : Option (List Byte)) : JobOut :=
    if x.pad && x.dec then match unpad o with
      | some q => { out := q, iv := iv }
      | none => { code := 6, out := o, iv := iv }
    else { out := o, iv := iv }
  let iv12 := x.iv.take 12
  let nonce := x.iv.take x.nLen
  match x.mode, x.dec with
  | 0, false => finish (ecb (aesEnc k) padded) none
  | 0, true => finish (ecb (aesDec k) padded) none
  | 1, false => let (o, iv) := cbcEnc k x.iv padded; finish o (some iv)
  | 1, true => let (o, iv) := cbcDec k x.iv padded; finish o (some iv)
  | 2, _ => let (o, c) := ctr k x.iv pl; { out := o, iv := some c }
  | 3, false => let (o, iv) := cfbEnc k x.iv pl; { out := o, iv := some iv }
  | 3, true => let (o, iv) := cfbDec k x.iv pl; { out := o, iv := some iv }
  | 4, false => let o := gcmCrypt k iv12 pl; { out := o, tag := some ((gcmTag k iv12 aad o).take x.tagLen) }
  | 4, true =>
    { code := if (gcmTag k iv12 aad pl).take x.tagLen = x.tag.take x.tagLen then 0 else 5, out := gcmCrypt k iv12 pl }
  | 5, false => { out := ccmCrypt k nonce pl, tag := some ((ccmTag k nonce aad pl x.tagLen).take x.tagLen) }
  | 5, true =>
    let o := ccmCrypt k nonce pl
    { code := if (ccmTag k nonce aad o x.tagLen).take x.tagLen = x.tag.take x.tagLen then 0 else 5, out := o }
  | _, false => { tag := some ((cmac k pl).take x.tagLen) }
  | _, true => { code := if (cmac k pl).take x.tagLen = x.tag.take x.tagLen then 0 else 5 }

/-- A job ends: JOB_OUT, CODE, JOB_ACK, BUSY, the flag (R417). -/
def jobEnd (j code outBytes : Nat) (s : State) : State :=
  let x := s.job j
  let s1 := s.setRegList (jobAt j 0x1C) [w16 outBytes, w16 (outBytes / 65536), x.seq]
  let s2 := s1.setJob j { x with busy := false, run := false, code := code, key := [] }
  if bit (x.snap.getD 0 0) 6 then cipherEvent 0 (s2.setReg 0xA42014 (w16 j)) else s2

/-- A byte string of 16 in eight registers; bytes that are missing are free. -/
def putBlock (a : Nat) (bs : List Byte) (s : State) : State :=
  let (more, s1) := freshBytes (16 - bs.length) s
  s1.setRegList a (wordsOf (bs ++ more))

/-- JOB_COMPLETE (R416, R417): how far a job came that an erasure or a memory error ended is open, and so is what is
written back of it. -/
def execJobComplete (s0 : State) : Out :=
  match runningJob s0 with
  | none => .next s0
  | some j =>
    let x := s0.job j
    let s := if x.code = 0 then jobLines 1 x.dst x.dstWords (jobLines 0 x.src x.srcWords s0) else s0
    let aadWords := (x.aad + 1) / 2
    let dbe := decide (x.src < 0xA00000) && s.anyDbe x.src x.srcWords
    let chained := decide (x.mode = 1 ∨ x.mode = 2 ∨ x.mode = 3)
    if 1 ≤ x.code ∧ x.code ≤ 4 then .next (jobEnd j x.code 0 s)
    else if x.code ≠ 0 ∨ dbe then
      let n := s.freeBelow (x.dstWords + 1)
      let s1 := jobWrite x.dst (List.replicate n 0#16) s.used
      let s2 := if chained then putBlock (jobAt j 0x0A) [] s1 else s1
      if x.code ≠ 0 then .next (jobEnd j x.code (2 * n) s2)
      else .next (jobEnd j 9 (2 * n) (s2.raiseIsl .sec 1 none))
    else
      let aad := (bytesOf (jobRead s x.src aadWords)).take x.aad
      let pl := (bytesOf (jobRead s (x.src + aadWords) ((x.len + 1) / 2))).take x.len
      let o := jobCompute x aad pl
      let s1 :=
        if o.code = 0 then jobWrite x.dst (wordsOf o.out) s
        else if o.code = 6 then
          let n := x.dstWords - s.freeBelow 9
          jobWrite x.dst (List.replicate n 0#16) s.used
        else jobWrite x.dst (List.replicate x.dstWords 0#16) s
      let written := if o.code = 6 then 2 * (x.dstWords - s.freeBelow 9) else o.out.length
      let s2 := match o.tag with
        | some t => s1.setRegList (jobAt j 0x12) (wordsOf (padTo 0 16 t))
        | none => s1
      let s3 := match o.iv with
        | some iv => putBlock (jobAt j 0x0A) iv s2
        | none => s2
      .next (jobEnd j o.code written s3)

/-- CIPH_QUEUE (Table 14.13). -/
def cipherQueue (s : State) : Word :=
  let n := ((List.range 4).filter fun j => (s.job j).busy).length
  match runningJob s with
  | some j => pack [(0, n), (4, j), (6, 1)]
  | none => pack [(0, n)]

/-! The random source (R420). -/

/-- A read of TRN_DATA: fresh bits when READY, and READY falls until more are supplied. -/
def trnRead (s : State) : Word × State :=
  if s.sec.trnReady then (s.freeWord, { s.used with sec := { s.sec with trnReady := false } }) else (0#16, s)

/-- TRN_STAT. -/
def trnStat (s : State) : Word := packBits [(0, s.sec.trnReady), (1, s.sec.trnFail)]

/-- RANDOM_HEALTH_FAIL: FAIL set, its source raised, a session aborted; or cleared after 1024 samples passed (R420). -/
def execRandomHealthFail (failed : Bool) (s : State) : Out :=
  if !s.running .sec then .next s
  else
    let ks := if failed then s.sec.ks.map fun k : KsCmd => { k with noRandom := true } else s.sec.ks
    let s1 := ({ s with sec := { s.sec with trnFail := failed, ks := ks } }).level 182 failed
    .next (if failed then abortSession s1 else s1)

end Sys2Proof.Machine
end

