-- ==== Sys2Proof/Machine/Field.lean ====
section
/-! DEFINITION. Inputs and FLD: the integrating filter, conversions, wire break, the input log, FO diagnosis (R321–R349).
What wakes the controller and what resets FLD stands in Machine/FieldPower.lean.
The readings and choices it rests on: notes/assumptions/39, 40. -/

namespace Sys2Proof.Machine

/-! The filter (R321–R323). -/

/-- The key of an input's filter. -/
def filtKey : InBank → Nat → Nat
  | .si, n => n
  | .fi, n => 64 + n
/-- The configuration word of an input. -/
def inCfg : InBank → Nat → Nat
  | .si, n => 0xA70200 + n
  | .fi, n => 0xA5F010 + n
/-- THR of an input; 0 acts as 1. -/
def inThr (s : State) (b : InBank) (n : Nat) : Nat := Nat.max 1 (s.regFld (inCfg b n) 8 8)
/-- The input's counter holds: VSNS limits and it sources its wetting (R328), or VFLD is gone under a dependent sensor
(R340). -/
def inHeld (s : State) (b : InBank) (n : Nat) : Bool :=
  match b with
  | .si => s.vsnsLim && !s.regBit (inCfg .si n) 3
  | .fi => s.regBit (inCfg .fi n) 2 && (s.fieldRec.crossed || decide (s.fieldRec.vfld = .missing))
/-- VALID of an input (R323, R328, R336, R340). -/
def inValid (s : State) (b : InBank) (n : Nat) : Bool :=
  let f := s.filt (filtKey b n)
  f.started && decide (inThr s b n ≤ f.since) && !f.wbrk && !f.supinv && !(decide (b = .si) && inHeld s .si n)

/-- One sample into a filter (R321, R323). -/
def Filt.tick (f : Filt) (thr : Nat) (raw : Bool) : Filt :=
  if !f.started then { f with started := true, raw := raw, c := if raw then thr else 0, st := raw, since := 0 }
  else
    let c := if raw then (if f.c < thr then f.c + 1 else f.c) else f.c - 1
    { f with raw := raw, c := c, st := if c = thr then true else if c = 0 then false else f.st, since := Nat.min 255 (f.since + 1) }

/-- The change of an SI input: flag, last index, event outside the parking modes (R332). -/
def siChanged (n : Nat) (s : State) : State :=
  let s1 := (s.setRegBit (0xA7029E + n / 16) (n % 16) true).setRegFld 0xA702AB 1 6 n
  let awake := match s.mode with
    | .park | .deepPark => false
    | _ => true
  if awake && s1.regBit (0xA702A4 + n / 16) (n % 16) then s1.route (s1.reg 0xA702AA) else s1

/-- A sample of an SI input; whether its filtered state changed. The preset is no filtered change (R323). -/
def siSample (n : Nat) (raw : Bool) (s : State) : State × Bool :=
  let f := s.filt n
  if inHeld s .si n then (s.setFilt n { f with raw := raw }, false)
  else
    let f1 := f.tick (inThr s .si n) raw
    let s1 := s.setFilt n f1
    if f.started && decide (f1.st ≠ f.st) then (siChanged n s1, true) else (s1, false)

/-! FI (R336, R340, R346). -/

/-- An entry of the input log: queued, or dropped and counted (R346). -/
def inputLog (n : Nat) (s : State) : State :=
  if !s.regBit 0xA5F07D 0 || !s.regBit (inCfg .fi n) 4 then s
  else
    let f := s.filt (64 + n)
    let us := s.now - s.fieldRec.usBase
    let e := [pack [(0, n), (5, b2n f.st), (6, b2n f.wbrk), (7, b2n f.supinv), (8, s.fieldRec.logSeq % 256)], w16 us, w16 (us / 65536), 0#16]
    let s1 := { s with fieldRec := { s.fieldRec with logSeq := (s.fieldRec.logSeq + 1) % 256 } }
    if s.fieldRec.logq.length < 4 then { s1 with fieldRec := { s1.fieldRec with logq := s1.fieldRec.logq ++ [e] } }
    else s1.regInc 0xA5F07F
/-- The wire-break source lasts while any WBRK is set (R348). -/
def wireBreaks (s : State) : State := s.level 153 ((List.range 32).any fun n => (s.filt (64 + n)).wbrk)

/-- A sample of an FI input with its measured current in 10 µA (R321, R336). -/
def fiSample (n : Nat) (raw : Bool) (cur : Nat) (s : State) : State :=
  let s0 := s.setReg (0xA5F050 + n) (w16 cur)
  let f := s0.filt (64 + n)
  if inHeld s0 .fi n then s0.setFilt (64 + n) { f with raw := raw }
  else
    let thr := inThr s0 .fi n
    let runW := s0.regBit (inCfg .fi n) 1 && decide (s0.fieldRec.vfld = .ok)
    let w := if !runW then f.w else if !raw && decide (cur < 35) then (if f.w < thr then f.w + 1 else f.w) else f.w - 1
    let brk := if !runW then f.wbrk else if w = thr then true else if w = 0 then false else f.wbrk
    if brk then
      let s1 := s0.setFilt (64 + n) { f with raw := raw, w := w, wbrk := true }
      if f.wbrk then s1 else fldEvent 1 (some (n, false)) (wireBreaks (inputLog n s1))
    else
      let f0 := { f with w := w, wbrk := false, since := if f.wbrk then 0 else f.since }
      let f1 := if f.wbrk ∧ f.started then { (f0.tick thr raw) with since := 0 } else f0.tick thr raw
      let s1 := s0.setFilt (64 + n) f1
      let s2 := if f.wbrk then wireBreaks (inputLog n s1) else s1
      if f.started && decide (f1.st ≠ f.st) then
        let s3 := s2.setRegBit (0xA5F072 + n / 16) (n % 16) true
        let s4 := if f.wbrk then s3 else inputLog n s3
        if s4.regBit (inCfg .fi n) 3 then fldEvent 0 (some (n, false)) s4 else s4
      else s2

/-- A write of an input's configuration word: THR and TICKSEL are written, so its filter starts anew (R323). -/
def inputConfig (b : InBank) (n : Nat) (v : Word) (s : State) : State :=
  let s1 := s.plainWrite (inCfg b n) v
  s1.setFilt (filtKey b n) { s1.filt (filtKey b n) with started := false, since := 0 }

/-- The status word of an input (Tables 11.3 and 11.7). -/
def inStat (s : State) (b : InBank) (n : Nat) : Word :=
  let f := s.filt (filtKey b n)
  packBits [(0, f.st), (1, f.raw), (2, inValid s b n), (3, match b with | .si => s.regBit (0xA70230 + n) 3 | .fi => f.wbrk), (4, f.supinv)]
    ||| pack [(8, f.c)]
/-- Sixteen inputs' bits of one kind, from input `k` on. -/
def inBits (s : State) (base k : Nat) (g : Filt → Bool) : Word := packBits ((List.range 16).map fun b => (b, g (s.filt (base + k + b))))

/-! Analog conversions (R325–R327). -/

/-- 2^40 times the natural logarithm of m / 2^40 for m in [2^40, 2^41): twice the area tangent series. -/
def lnSeries (m : Int) : Int :=
  let one : Int := 2 ^ 40
  let y := (m - one) * one / (m + one)
  let y2 := y * y / one
  ((List.range 14).foldl (fun (a : Int × Int) (k : Nat) => (a.1 + a.2 / (2 * (k : Int) + 1), a.2 * y2 / one)) (0, y)).1 * 2
/-- 2^40 times ln(a / b), by halving or doubling into [1, 2) at most 40 times. -/
def lnRatio (a b : Nat) : Int :=
  let one : Nat := 2 ^ 40
  let x := a * one / b
  let (m, k) := (List.range 40).foldl (fun (p : Nat × Int) _ =>
    if 2 * one ≤ p.1 then (p.1 / 2, p.2 + 1) else if p.1 < one then (p.1 * 2, p.2 - 1) else p) (x, (0 : Int))
  lnSeries (m : Int) + k * 762123384786
/-- The temperature of a thermistor in 0.1 °C, before its error (R327); none where the curve has no value. -/
def ntcTemp (ohm nom beta : Nat) : Option Int :=
  if nom = 0 ∨ beta = 0 then none
  else
    let one : Int := 2 ^ 40
    let inv := 2 ^ 20 * one * 100 / 29815 + 2 ^ 20 * lnRatio ohm nom / (beta : Int)
    if inv ≤ 0 then none else some ((2 ^ 20 * one * 100 / inv - 27315 + 5) / 10)

/-- SI_CONVERSION: the 1 ms conversion of an input under its MODE; the thermistor's temperature is the curve's within
0.3 K (R326, R327, Table 11.3). -/
def execSiConversion (n : Fin 48) (v20 ratio : Word) (ohm : Nat) (s : State) : Out :=
  if !s.running .aon then .next s
  else
    let bad (b : Bool) (t : State) := t.setRegBit (0xA70230 + n) 3 b
    let put (v : Word) (t : State) := t.setReg (0xA70260 + n) v
    match s.regFld (inCfg .si n) 4 2 with
    | 2 => .next (bad false (put (w16 (Nat.min ratio.toNat 5000)) s))
    | 3 =>
      if 400000 < ohm ∨ ohm < 20 then .next (bad true (put 0x8000#16 s))
      else
        let setB := s.regBit (0xA70298 + n / 16) (n % 16)
        let nom := s.regN (if setB then 0xA70296 else 0xA70294)
        let beta := s.regN (if setB then 0xA70297 else 0xA70295)
        match ntcTemp ohm nom beta with
        | some t =>
          let d : Int := (State.freeBelow 7 s : Int) - 3
          .next (bad false (put (wordOfInt (t + d)) s.used))
        | none => .next (bad false (put s.freeWord s.used))
    | _ => .next (bad false (put v20 s))

/-- The tick generator of an input: SI's 0 to 3, FI's as 4 to 7 (R322). -/
def tickGen (s : State) (b : InBank) (n : Nat) : Nat :=
  match b with
  | .si => s.regFld (inCfg .si n) 6 2
  | .fi => 4 + s.regFld (inCfg .fi n) 5 2
/-- The TICK word of a generator. -/
def tickWord (k : Nat) : Nat := if k < 4 then 0xA70290 + k else 0xA5F002 + (k - 4)
/-- The tick of a generator in µs (R322). -/
def tickUs (s : State) (k : Nat) : Nat := 10 * (Nat.min 999 (s.regFld (tickWord k) 0 10) + 1)
/-- A tick of the input's generator is now: whole ticks since it began to count, the first one tick after (R322). -/
def tickNow (s : State) (b : InBank) (n : Nat) : Bool :=
  let k := tickGen s b n
  let t := s.now - s.tickBase.get (fun _ => 0) k
  decide (0 < t) && decide (t % tickUs s k = 0)
/-- VSNS_LIMIT: VSNS limits its current (R328). -/
def execVsnsLimit (on : Bool) (s : State) : Out :=
  .next (({ s with vsnsLim := on }.setRegBit 0xA702AB 0 on).level 19 on)

/-- INPUT_LOG_WRITE: the oldest entry goes into the ring (R346). -/
def execInputLogWrite (s : State) : Out :=
  match s.fieldRec.logq with
  | [] => .next s
  | e :: q =>
    let n := 2 ^ clampN 4 12 (s.regFld 0xA5F07D 1 4)
    let wp := s.regN 0xA5F07E % n
    let base := s.regN 0xA5F07B + 65536 * s.regFld 0xA5F07C 0 8
    let s1 := memBurst .fld 0 4 { s with fieldRec := { s.fieldRec with logq := q } }
    .next ((islandStoreList (base + 4 * wp) e s1).setReg 0xA5F07E (w16 ((wp + 1) % n)))

/-! VFLD (R338–R340). -/

/-- VFLD_MISSING_CROSSING: VFLD crosses the MISSING falling threshold, before the filter (R340). -/
def execVfldMissingCrossing (below : Bool) (s : State) : Out :=
  .next (if fieldPowered s then { s with fieldRec := { s.fieldRec with crossed := below } } else s)

/-- SUPINV of every dependent input set or cleared, with its log entry (R340). -/
def setSupinv (b : Bool) (s : State) : State :=
  (List.range 32).foldl (fun t n =>
    let f := t.filt (64 + n)
    if b then
      if t.regBit (inCfg .fi n) 2 ∧ !f.supinv then inputLog n (t.setFilt (64 + n) { f with supinv := true }) else t
    else if f.supinv then inputLog n (t.setFilt (64 + n) { f with supinv := false, since := 0 })
    else t) s

/-- VFLD_STATE_CHANGE: the state moves to a neighbouring row; the FO outputs and the dependent inputs follow (R338–R340). -/
def execVfldStateChange (st : VfldState) (v : Word) (s : State) : Out :=
  let num : VfldState → Nat
    | .ok => 0 | .low => 1 | .missing => 2
  let old := s.fieldRec.vfld
  let s0 := s.setReg 0xA5F001 v
  if !fieldPowered s ∨ st = old ∨ (num old + 1 ≠ num st ∧ num st + 1 ≠ num old) then .next (if fieldPowered s then s0 else s)
  else
    let s1 : State := { s0 with fieldRec := { s0.fieldRec with vfld := st, crossed := decide (st = VfldState.missing) } }
    let s2 := (s1.level 150 (decide (st = VfldState.low))).level 151 (decide (st = VfldState.missing))
    let s3 := if st = VfldState.missing then setSupinv true s2 else if old = VfldState.missing then setSupinv false s2 else s2
    let s4 := OutIsl.fld.chans.foldl (fun t ch => if t.chan ch = {} then t else followHolds ch t) s3
    .next (fldEvent 2 none s4)

/-! FO (R344, R345). -/

/-- STATE.OUT of an FO channel. -/
def fldOut (s : State) (n : Nat) : Nat :=
  let c := s.chan (fo n)
  if c.reason ≠ 0 then 7
  else if safeHeld s (fo n) then 0
  else if c.latch then 6
  else if modeOf c.set = 0 then 0
  else if c.pause.isSome then 5
  else if !c.on then 0
  else if c.win.isSome then 4
  else modeOf c.set
/-- The current in mA has been above an FO channel's limit in force for the last `us` microseconds: regulated inside the
window for load types 0 and 5, else a trip after 100 µs; SHORT_GND where the terminal, in 10 mV, lies below VFLD / 3
(R344). -/
def fldLimitTrip (n i us term : Nat) (s : State) : State :=
  let c := s.chan (fo n)
  let t := fld (wd c.pf 0) 0 3
  if i ≤ c.win.getD (foSteady c) then s
  else if c.win.isSome ∧ (t = 0 ∨ t = 5) then s.setChan (fo n) { c with regul := true }
  else if us < 100 then s
  else countedTrip (fo n) (if 3 * term < 10 * s.regN 0xA5F001 then 3 else 2) s
/-- The FO short comparator, 2.5 A (R344, Table 11.6). -/
def fldShortTrip (n : Nat) (side : Side) (i : Nat) (s : State) : State :=
  if side = .high ∧ (s.chan (fo n)).on ∧ 2500 ≤ i then countedTrip (fo n) 3 s else s
/-- The readings of an FO channel: its terminal voltage and dissipation; an on-state reading is valid from 50 µs after an
on-edge, and one of 10 µs ends within the on-time (R343, R345). -/
def fldMeasure (n : Nat) (m : Measure) (s : State) : State :=
  let c := s.chan (fo n)
  let s1 := (s.setReg ((fo n).port 0x1E) (w16 m.term)).setReg ((fo n).port 0x1F) (w16 m.pdiss)
  let age := edgeAge s (fo n)
  if m.kind = .onState ∧ c.on ∧ 60 ≤ age ∧ (modeOf c.set ≠ 2 ∨ age ≤ foOnUs n c) then
    let s2 := (s1.setReg ((fo n).port 0x12) (w16 m.i.natAbs)).modChan (fo n) fun c =>
      { c with regul := c.regul && decide (c.win.getD (foSteady c) ≤ m.i.natAbs) }
    evidence (fo n) (decide ((wd c.pf 9).toNat ≤ m.i.natAbs)) s2
  else s1
/-- An off-state reading of an FO channel judged. -/
def fldJudge (n v : Nat) (s : State) : State := evidence (fo n) (decide (v ≤ (wd (s.chan (fo n)).pf 10).toNat)) s
/-- The off-state check of an FO channel: every 10 ms while it is OFF, and at the end of an off-time of 500 µs or more;
suspended while VFLD is MISSING (R251, R345). -/
def fldOffCheck (n v : Nat) (s : State) : State :=
  let c := s.chan (fo n)
  let due := if c.on then decide (modeOf c.set = 2) && isBoundary s (fo n) && decide (foOnUs n c + 500 ≤ period s (fo n))
    else decide (fldOut s n = 0) && offDue s c
  if !bit (wd c.pf 12) 0 ∨ c.reason ≠ 0 ∨ bandOff s (fo n) ∨ !due then s
  else
    let s1 := noteOff (fo n) s
    if 450 ≤ v then s1.modChan (fo n) fun c => { c with shbDue := some s.now } else fldJudge n v s1
/-- STAT_A of an FO channel (R343). -/
def fldStatA (s : State) (n : Nat) : Word :=
  packBits [(0, decide (modeOf (s.chan (fo n)).set ≠ 0) && bandOff s (fo n)), (1, decide (s.fieldRec.vfld = .low))]

end Sys2Proof.Machine
end

