-- ==== Sys2Proof/Machine/FieldPower.lean ====
section
/-! DEFINITION. The inputs' events that wake the controller, and the loss and return of FLD's power (R330, R333). -/

namespace Sys2Proof.Machine

/-- INPUT_FILTER_TICK: a tick of the input's generator; in Run a filtered change of a selected SI input latches its wake
cause (R321, R330). -/
def execInputFilterTick (b : InBank) (n : Fin 48) (raw : Bool) (cur : Nat) (s : State) : Out :=
  match b with
  | .si =>
    match s.mode with
    | .park | .deepPark => .next s
    | _ =>
      if !s.running .aon ∨ !tickNow s .si n then .next s
      else
        let (s1, ch) := siSample n raw s
        .next (if ch && s1.regBit (0xA702A1 + n / 16) (n % 16) then latchCause 6 n s1 else s1)
  | .fi => .next (if fieldPowered s && decide (n.val < 32) && tickNow s .fi n then fiSample n raw cur s else s)

/-- CYCLIC_SENSE_PULSE: in the parking modes each selected digital input takes one sample (R330). -/
def execCyclicSensePulse (raw : BitVec 48) (s : State) : Out :=
  let parked := match s.mode with
    | .park | .deepPark => true
    | _ => false
  if !parked || !s.regBit 0xA702A7 0 then .next s
  else
    .next ((List.range 48).foldl (fun t n =>
      if t.regBit (0xA702A1 + n / 16) (n % 16) && decide (t.regFld (inCfg .si n) 4 2 ≤ 1) then
        let (t1, ch) := siSample n (raw.getLsbD n) t
        if ch then latchCause 6 n t1 else t1
      else t) s)

/-- FLD without field-side power: its outputs off, its clock lost, which is reset source 9 (R20, R333). -/
def fieldPowerLoss (s : State) : State :=
  let s1 := fieldDown { s with fieldRec := { s.fieldRec with unpowered := true } }
  let r := s1.island .fld
  if r.st = .inReset ∨ r.st = .clockWait ∨ r.st = .clockLost then s1
  else
    let s2 := s1.setIsland .fld { r with loss := true, lock := false, ready := false, st := .clockLost, chk := false }
    fieldDown (resetSource 9 Island.fld.num 0 (discardGates .fld (maskRange .fld s2)))

/-- FIELD_POWER_LOSS (R333). -/
def execFieldPowerLoss (s : State) : Out := .next (if s.fieldRec.unpowered then s else fieldPowerLoss s)

/-- FIELD_POWER_UP: power returns; the release of FLD follows (R333). -/
def execFieldPowerUp (s : State) : Out :=
  .next (if s.fieldRec.unpowered then fieldUp { s with fieldRec := { s.fieldRec with unpowered := false } } else s)

/-- BARRIER_PATH_FAIL: one path is enough; the source lasts while one has failed (R333). -/
def execBarrierPathFail (path : Fin 2) (failed : Bool) (s : State) : Out :=
  let f := if path = 0 then { s.fieldRec with pathA := failed } else { s.fieldRec with pathB := failed }
  let s1 := ({ s with fieldRec := f }).level 152 (f.pathA || f.pathB)
  .next (if f.pathA && f.pathB && !s.fieldRec.unpowered then fieldPowerLoss s1 else s1)

end Sys2Proof.Machine
end

