-- ==== Sys2Proof/Machine/Lockstep.lean ====
section
/-! DEFINITION. Lockstep pairs: checkpoints, rollback, the spare (R149–R156), and the timers and watchdogs of the cores
(R157, R158).
The readings and choices it rests on: notes/assumptions/6, 30, 31. -/

namespace Sys2Proof.Machine

/-! Checkpoints (R151). -/

/-- A checkpoint has come due: by the instructions executed, the log's fill, a write that waits, CHK or a CHECKPOINT
command, which also says the condition of time (R151). -/
def checkpointDue (s : State) (c : Nat) : Bool :=
  let k := s.core c
  s.paired c && (decide (4096 ≤ k.since) || decide (960 ≤ k.log.length) || k.ckDue || k.held != [])

/-- The base of a logical pair's checkpoint record (R159). -/
def recordBase (s : State) (c : Nat) : Nat := 0x800000 + 1024 * s.regFld 0xA8FD03 0 9 + (c / 2) * 0x480

/-- The 32 register words of a record: the spec does not say how they hold the registers. -/
def recordRegs (a : Nat) : Nat → State → State
  | 0, s => s
  | n + 1, s => recordRegs (a + 1) n (islandStoreList a [s.freeWord] s.used)

/-- The 8-word lines of a record: four of register words, and those that hold a changed descriptor (R151). -/
def recordLines (k : Core) : Nat := 4 + ((k.ckDirty.map (· / 2)).eraseDups).length

/-- The background write of the checkpoint record is complete: the register words, and every descriptor changed since
the previous record, line by line through the lead's MEM requester (R151). -/
def finishRecord (c : Nat) (s : State) : State :=
  let k := s.core c
  if !k.ckBusy then s
  else
    let base := recordBase s c
    let s1 := recordRegs base 32 (memBurst (s.coreIsland c) c (recordLines k) s)
    let s2 := k.ckDirty.foldl (fun t e =>
      islandStoreList (base + 32 + 4 * e) ((List.range 4).map fun j => k.ckDesc.get (fun _ => 0#16) (4 * e + j)) t) s1
    s2.modCore c fun k => { k with ckBusy := false, ckDirty := [] }

/-- A checkpoint: the registers copied, the log emptied, the record's background write begun; writes of other requesters
that waited are applied after it (R151). -/
def takeCheckpoint (c : Nat) (s : State) : State :=
  let s1 := s.modCore c fun k =>
    let dirty := (List.range 256).filter fun e => (List.range 4).any fun j =>
      decide (k.desc.get (fun _ => 0#16) (4 * e + j) ≠ k.ckDesc.get (fun _ => 0#16) (4 * e + j))
    { k with ckpt := k.r, ckDesc := k.desc, since := 0, log := [], ckBusy := true, ckDirty := dirty, ckDue := false, held := [] }
  (s.core c).held.foldl (fun t e => t.storeWord e.2.1 e.2.2) s1

/-- A pair stands at an instruction boundary at which it can take a checkpoint: no replay, no takeover, no instruction
part-way, the previous record written (R151, Table 5.10). -/
def atBoundary (k : Core) : Bool := !k.rolling && k.taking.isNone && !k.ckBusy && !k.partway && k.redo.isNone

/-- A checkpoint that has come due is taken at a boundary. -/
def settle (c : Nat) (s : State) : State :=
  if checkpointDue s c && atBoundary (s.core c) then takeCheckpoint c s else s

/-- A core's local memory takes another requester's write at once, in a pair after the checkpoint it takes for it. -/
def takesWrite (c : Nat) (s : State) : Bool :=
  !s.paired c || !decide ((s.core c).st = .running) || (atBoundary (s.core c) && decide ((s.core c).held = []))

/-- Another requester's write to a core's local memory: at once, or, in a pair, after a checkpoint; a pair that stopped for
a takeover holds it too (R151, Table 5.10). -/
def foreignStore (r : Requester) (c a : Nat) (v : Word) (s : State) : State :=
  if s.paired c ∧ ((s.core c).st = .running ∨ (s.core c).taking.isSome) then
    settle c (s.modCore c fun k => { k with held := k.held ++ [(r, a, v)] })
  else s.storeWord a v

/-- The logical core is the lead of a pair that runs. -/
def pairRuns (s : State) (c : Nat) : Bool :=
  let k := s.core c
  s.paired c && decide (s.lead c = c) && decide (k.st = .running) && s.running (s.coreIsland c) && !k.dormant

/-- CHECKPOINT: a condition of R151 is reached; part-way through an instruction the checkpoint waits for its boundary, and
one that finds the previous record unfinished stalls the pair. -/
def execCheckpoint (c : CoreId) (s : State) : Out :=
  let k := s.core c
  .next (if pairRuns s c && !k.rolling && k.taking.isNone then settle c (s.modCore c fun k => { k with ckDue := true }) else s)

/-! Mismatch, rollback, takeover (R153–R156). -/

/-- A mismatch counts: its source, and the third within the window retires the pair (R154). -/
def countMismatch (c : Nat) (s : State) : State :=
  let n := satInc 3 (s.core c).mism
  let s1 := (s.modCore c fun k => { k with mism := n }).raiseIsl (s.coreIsland c) 2 (some (c / 2))
  if 3 ≤ n then retirePair (c / 2) s1 else unwind c (s1.modCore c fun k => { k with rolling := true })

/-- LOCKSTEP_MISMATCH: the pair stops and rolls back to its checkpoint (R153). DESIGN CHOICE: the replay between is not
shown step by step: until it ends, memory, descriptors and registers stand as at the checkpoint
(notes/assumptions/31.md). -/
def execLockstepMismatch (c : CoreId) (s : State) : Out :=
  let k := s.core c
  .next (if pairRuns s c && !k.rolling && k.taking.isNone then countMismatch c s else s)

/-- A replay has ended in agreement: what the mismatch had reached stands again, LS_ROLLBACK, and normal execution goes on
(R154). -/
def replayAgreed (c : Nat) (s : State) : State :=
  settle c (((rewind c s).modCore c fun k => { k with rolling := false }).regInc (coreBlock c + 0x22))

/-- What a replay comes to (R153, R154). -/
def replayEnds (c : Nat) (r : Replay) (s : State) : State :=
  match r with
  | .agreed => replayAgreed c s
  | .mismatch => countMismatch c s
  | .differs => retirePair (c / 2) s

/-- ROLLBACK_COMPLETE: a replay in agreement brings back the state of the mismatch, from which execution goes on. -/
def execRollbackComplete (c : CoreId) (r : Replay) (s : State) : Out :=
  .next (if pairRuns s c && (s.core c).rolling then replayEnds c r s else s)

/-- The local memory of a physical pair's lead copied to both of another's; words with a double-bit error are taken from
the partner (Table 5.9, steps 3 and 4). -/
def copyLocal (src dst : Nat) (s : State) : State :=
  let a := 0x880000 + 0x10000 * src
  let b := 0x880000 + 0x10000 * dst
  let s1 := (s.dbe.filter fun w => decide (a ≤ w) && decide (w < a + 0x8000)).foldl State.heal s
  let cells := s1.mem.filter fun e => decide (2 * a ≤ e.1) && decide (e.1 < 2 * (a + 0x8000))
  let bad := s1.dbe.filter fun w => decide (a ≤ w) && decide (w < a + 0x8000)
  let s2 := cells.foldl (fun t e => (t.setByte (e.1 - 2 * a + 2 * b) e.2).setByte (e.1 - 2 * a + 2 * (b + 0x8000)) e.2)
    (s1.clearMem b 0x10000)
  { s2 with dbe := s2.dbe ++ bad.map (fun w => w - a + b) ++ bad.map (fun w => w - a + b + 0x8000) }

/-- TAKEOVER_COMPLETE: the record completed, the memory copied, CCB_MAP names the spare, and its replay ends (R156,
Table 5.9). -/
def execTakeoverComplete (c : CoreId) (r : Replay) (s : State) : Out :=
  match (s.core c).taking with
  | none => .next s
  | some p =>
    let q := c.val / 2
    let s1 := copyLocal (s.mapPair q) p (finishRecord c s)
    let s2 := ((s1.setRegFld 0xA8FD04 (2 * q) 2 p).setRegBit 0xA8FD04 8 true).setPhys p { s1.physPair p with standby := false }
    let s3 := s2.modCore c fun k => { k with st := .running, taking := none, rolling := true }
    .next (replayEnds c r s3)

/-- MISMATCH_WINDOW_END (R154). -/
def execMismatchWindowEnd (c : CoreId) (s : State) : Out := .next (s.modCore (s.lead c) fun k => { k with mism := 0 })

/-! The spare (R155). -/

/-- A running timer's value now (R157). -/
def timerLeft (s : State) (c n : Nat) : Nat :=
  match (if n = 0 then (s.core c).tmr0 else (s.core c).tmr1) with
  | some t => t - s.now
  | none => s.regN (coreBlock c + 0x1A + n)
/-- A timer set to run to a time, or stopped. -/
def setTimer (c n : Nat) (t : Option Nat) (s : State) : State :=
  s.modCore c fun k => if n = 0 then { k with tmr0 := t } else { k with tmr1 := t }
/-- A timer stops counting and keeps its value. -/
def freezeTimer (c n : Nat) (s : State) : State :=
  setTimer c n none (s.setReg (coreBlock c + 0x1A + n) (w16 (timerLeft s c n)))
/-- A write of TMR_n (R157). -/
def timerWrite (c n : Nat) (v : Word) (s : State) : State :=
  let s1 := s.setReg (coreBlock c + 0x1A + n) 0
  if (s.core c).dormant then s1.setReg (coreBlock c + 0x1A + n) v
  else setTimer c n (if v = 0 then none else some (s.now + v.toNat)) s1

/-- A logical pair becomes dormant: stopped, its watchdog and timers with it, its registers those of its last
checkpoint. -/
def makeDormant (c : Nat) (s : State) : State :=
  let s1 := freezeTimer c 1 (freezeTimer c 0 (freezeWatchdog c s))
  (s1.modCore c fun k => { k with st := .stopped, wait := none, dormant := true, r := k.ckpt, desc := k.ckDesc }).setRegBit
    0xA8FD04 (9 + c / 2) true

/-- A write of CCB_SPARE (R155). DESIGN CHOICE: a write with EN 0 while a spare is in standby stores the word, so EN reads 0,
and leaves the pair in standby; the spec speaks only of further designations (notes/assumptions/31.md). -/
def spareWrite (r : Requester) (v : Word) (s : State) : State :=
  let sealed := s.regBit 0xA8FD05 0
  if sealed then s
  else
    let isl := fld v 3 1
    let p := 2 * isl + fld v 1 2
    let c : Option Nat := match r with
      | .core c => some (s.lead c)
      | _ => none
    let own := match c with
      | some c => decide (s.mapPair (c / 2) = p) && decide (fld v 1 2 < 2)
      | none => false
    let standing := (List.range 4).any fun k => (s.physPair k).standby
    if !bit v 0 then s.setReg 0xA8FD02 (v &&& 0x000F#16)
    else if standing then s
    else if own && (if isl = 0 then s.pairedA else s.pairedB) && !(s.physPair p).retired then
      makeDormant (c.getD 0) ((s.setReg 0xA8FD02 (v &&& 0x000F#16)).setPhys p { s.physPair p with standby := true })
    else s.setReg 0xA8FD02 (v &&& 0x000E#16)

/-! Timers and watchdogs (R157, R158). -/

/-- TIMER_EXPIRY: line 6 or 7, then the reload or a stop (R157). -/
def execTimerExpiry (c : CoreId) (n : Fin 2) (s : State) : Out :=
  let l := s.lead c
  let t := if n = 0 then (s.core l).tmr0 else (s.core l).tmr1
  if t.isNone then .next s
  else
    let b := coreBlock l
    let rld := s.regN (b + 0x1D + n)
    .next (setTimer l n (if s.regBit (b + 0x1C) n ∧ rld ≠ 0 then some (s.now + rld) else none) (s.raiseLine l (6 + n)))

/-- The watchdog of a logical core counts. -/
def wdgCounts (s : State) (c : Nat) : Bool := (s.core c).wdgFrozen.isNone

/-- A write of WDG_KICK (R158). -/
def wdgKick (r : Requester) (c : Nat) (v : Word) (s : State) : State :=
  let owner := match r with
    | .core d => decide (s.lead d = c)
    | _ => false
  if !owner || !wdgCounts s c then s
  else
    let k := s.core c
    if !k.wdgHalf then
      if v = 0x5A5A#16 then s.modCore c fun k => { k with wdgHalf := true } else watchdogExpire c s
    else if v = 0xA5A5#16 ∧ wdgCount s c * 8 ≤ k.wdgTo * (8 - k.wdgWin) then loadWatchdog c s
    else watchdogExpire c (s.modCore c fun k => { k with wdgHalf := false })

/-- WATCHDOG_WARNING: line 5, once a load (R158). -/
def execWatchdogWarning (c : CoreId) (s : State) : Out :=
  let l := s.lead c
  .next (if wdgCounts s l && !(s.core l).wdgWarned then (s.modCore l fun k => { k with wdgWarned := true }).raiseLine l 5 else s)

/-- WATCHDOG_EXPIRY: reset source 4 (R158). -/
def execWatchdogExpiry (c : CoreId) (s : State) : Out := .next (if wdgCounts s (s.lead c) then watchdogExpire c s else s)

end Sys2Proof.Machine
end

