-- ==== Sys2Proof/Machine/Marionette.lean ====
section
/-! DEFINITION. The Marionette service: reading its table, evaluating triggers, driving and ending entries
(R125–R128).
The readings and choices it rests on: notes/assumptions/26. -/

namespace Sys2Proof.Machine

/-- MARIONETTE_TABLE_READ: the table of the selected settings generation is read and checked; evaluation starts unless
cores were released first (R125, R126, R128). A double-bit error in a word read is SUP's memory-error source (R35). -/
def execMarionetteTableRead (s : State) : Out :=
  if !s.running .sup ∨ !s.running .mem ∨ s.bring.taken ∨ s.regBit 0xA80005 9 ∨ s.regBit 0xA80005 10 ∨ settingsBusy s (activeGen s) then .next s
  else
    let base := 0x900000 + 0x10000 * activeGen s + 0xFE00
    let hdr := s.memList base 8
    let n := (hdr.getD 1 0).toNat
    let words := s.memList (base + 8) (8 * Nat.min n 48)
    let t := memBurst .sup 1 (8 + 8 * Nat.min n 48) s
    let s := if s.anyDbe base (8 + 8 * Nat.min n 48) then t.raiseIsl .sup 1 none else t
    if hdr.getD 0 0 ≠ 0x4D41#16 ∨ n = 0 ∨ 48 < n ∨ crc16 words ≠ hdr.getD 2 0 then
      .next (s.setRegBit 0xA80008 6 true)
    else
      let es := (List.range n).map fun k => (words.drop (8 * k)).take 8
      let es := es.takeWhile fun e => decide (fld (e.getD 0 0) 12 4 ≠ 0)
      let bad := es.any fun e => !marValid e
      let s1 := s.setReg 0xA80008 (pack [(0, es.length)] ||| packBits [(7, bad)])
      .next { s1.setRegBit 0xA80005 9 true with marTable := es, mar := [] }

/-- The filtered state of a switch input. -/
def siHigh (s : State) (n : Nat) : Bool := (s.filt n).st

/-- A trigger is met now (Table 4.9); `k` numbers the free values of the wake lines. -/
def marMet (s : State) (k : Nat) (e : List Word) : Bool :=
  let p := fld (e.getD 0 0) 0 12
  match fld (e.getD 0 0) 12 4 with
  | 1 => true
  | 2 => siHigh s p
  | 3 => !siHigh s p
  | 4 => wakeLineLow s k p
  | 5 => s.regBit 0xA70104 p
  | 6 => decide (s.regFld 0xA70100 0 2 = p)
  | _ => false

/-- The entries in phase with an entry: its group, or itself. -/
def marGroup (s : State) (n : Nat) : List Nat :=
  let g := fld ((s.marTable.getD n []).getD 7 0) 0 8
  if g = 0 then [n]
  else (List.range s.marTable.length).filter fun k => decide (fld ((s.marTable.getD k []).getD 7 0) 0 8 = g)

/-- The phase a starting entry takes: that of an active entry of its group, else on (R126). -/
def marPhase (s : State) (n : Nat) : Bool :=
  match (marGroup s n).find? fun k => k ≠ n && (s.marAt k).active with
  | some k => (s.marAt k).on
  | none => true

/-- One entry at an evaluation: the trigger over two evaluations, start and end (R126, R127). A latched entry that
MAR_DONE records runs again only once its trigger has been false for 1 s; the record stays (R103, R122). -/
def marEvalOne (k n : Nat) (s : State) : State :=
  let e := s.marTable.getD n []
  if !marValid e then s
  else
    let m := s.marAt n
    let met := marMet s k e
    let trig := if met = m.metLast then met else m.trig
    let since := if trig then none else match m.falseSince with
      | some t => some t
      | none => some s.now
    let rep := fld (e.getD 6 0) 8 8
    let done := s.regBit (0xA8000C + n / 16) (n % 16)
    let rearmed := m.rearmed || (match since with
      | some t => decide (t + 1000000 ≤ s.now)
      | none => false)
    let s2 := s.setMar n { m with metLast := met, trig := trig, falseSince := since, rearmed := rearmed }
    if trig && !m.active && !(decide (rep ≠ 0) && done && !rearmed) then
      let s3 := s2.setMar n { s2.marAt n with active := true, on := marPhase s2 n, count := 0, rearmed := false }
      marBit 0xA80009 n true s3
    else if !trig && m.active && decide (rep = 0) then marEnd n s2
    else s2

/-- MARIONETTE_EVALUATE: every 1 ms while the service evaluates (R127). -/
def execMarionetteEvaluate (s : State) : Out :=
  if s.regBit 0xA80005 9 then
    .next (marDrive ((List.range s.marTable.length).foldl (fun t n => marEvalOne s.free n t) s.used.used))
  else .next s

/-- A latched entry has made its flashes or pulses: MAR_DONE, and it ends (R126, R128). -/
def marComplete (n : Nat) (s : State) : State := marEnd n (marBit 0xA8000C n true s)

/-- One entry goes to its other phase: at the end of an on-time one flash or pulse more is done. -/
def marFlip (on : Bool) (n : Nat) (s : State) : State :=
  let e := s.marTable.getD n []
  let m := s.marAt n
  let rep := fld (e.getD 6 0) 8 8
  if m.on = on then s
  else if on then s.setMar n { m with on := true }
  else if rep ≠ 0 ∧ rep ≤ m.count + 1 then marComplete n s
  else s.setMar n { m with on := false, count := m.count + 1 }

/-- MARIONETTE_TOGGLE: the on-time or off-time of a flash ends, and every active flash of its group goes with it; or a
pulse ends (R126). -/
def execMarionetteToggle (n : Fin 48) (s : State) : Out :=
  let act (k : Nat) : Nat := fld ((s.marTable.getD k []).getD 2 0) 0 4
  let rep := fld ((s.marTable.getD n []).getD 6 0) 8 8
  let m := s.marAt n
  if !m.active ∨ (act n ≠ 2 ∧ act n ≠ 3) then .next s
  else if act n = 3 then
    if !m.on ∧ rep = 0 then .next s else .next (marDrive (marFlip (!m.on) n s))
  else
    .next (marDrive (((marGroup s n).filter fun k => (s.marAt k).active && decide (act k = 2)).foldl (fun t k => marFlip (!m.on) k t) s))

/-- A write of MAR_CTRL: STOP ends every entry at once (R128). DESIGN CHOICE: STOP also stops the evaluation of triggers; R128
says only that every entry ends (notes/assumptions/26.md). -/
def marCtrl (v : Word) (s : State) : State :=
  if bit v 0 then
    let s1 := (List.range s.marTable.length).foldl (fun t n => marEnd n t) s
    if s1.regBit 0xA80005 9 then (s1.setRegBit 0xA80005 9 false).setRegBit 0xA80005 10 true else s1
  else s

end Sys2Proof.Machine
end

