-- ==== Sys2Proof/Machine/Net.lean ====
section
/-! DEFINITION. NET: reception, the gateway, frame rings, transmission, LIN, Ethernet sleep, wake, and the tatting ring
(R350–R379).
The readings and choices it rests on: notes/assumptions/31, 42, 43, 44, 45, 46, 47, 66. -/

namespace Sys2Proof.Machine

/-! Gateway queues and receive rings (R357–R361). -/

/-- A port's gateway queue. -/
def State.gwq (s : State) (p : Nat) : List GwFrame := s.net.txq.get (fun _ => []) p
/-- A port's gateway queue written. -/
def setGwq (p : Nat) (q : List GwFrame) (s : State) : State := { s with net := { s.net with txq := s.net.txq.set (fun _ => []) p q } }
/-- NET's microsecond counter. -/
def netUs (s : State) : Nat := s.now - s.net.usBase

/-- A frame enters a destination port's queue, or is dropped there (R361, Table 12.8). -/
def toPort (p : Nat) (f : GwFrame) (s : State) : State :=
  let fd := match f with | .can c => c.fd | .eth _ => false
  let f1 := match f with
    | .can c => GwFrame.can { c with brs := c.brs && s.regBit (canBase p) 2 }
    | .eth b => .eth b
  if isolated s p || (fd && !s.regBit (canBase p) 1) || decide (16 ≤ (s.gwq p).length) then gwDropAt p s
  else setGwq p (s.gwq p ++ [f1]) s

/-- The header words of a record (Table 12.6). -/
def recordHead (s : State) (port flags len key : Nat) : List Word :=
  [w16 (port + flags), w16 len, w16 key, w16 (key / 65536), w16 (netUs s), w16 (netUs s / 65536), 0, 0]
/-- A record waits to be written into a receive ring. -/
def toRing (k : Nat) (rec_ : List Word) (s : State) : State :=
  { s with net := { s.net with rxq := s.net.rxq.set (fun _ => []) k (s.net.rxq.get (fun _ => []) k ++ [rec_]) } }

/-- A word of entry `e` of the active route table (Table 12.9). -/
def routeWord (s : State) (e k : Nat) : Word := s.net.routes.get (fun _ => 0#16) (8 * e + k)
/-- The first entry that decides a frame (R359). -/
def routeOf (s : State) (port key : Nat) (ide : Bool) : Option Nat :=
  (List.range 256).find? fun e =>
    let w1 := routeWord s e 1
    let k := (routeWord s e 0).toNat + 65536 * fld w1 0 13
    let m := (routeWord s e 2).toNat + 65536 * fld (routeWord s e 3) 0 13
    bit w1 15 && decide (fld (routeWord s e 4) 0 4 = port) && decide ((key ^^^ k) &&& m = 0) &&
      (decide (8 ≤ port) || bit w1 13 == ide)
/-- A received frame is routed (R359). -/
def routeFrame (port key : Nat) (ide : Bool) (f : GwFrame) (rec_ : List Word) (s : State) : State :=
  if !s.regBit 0xA30000 0 then s
  else match routeOf s port key ide with
  | none => s.regInc 0xA30003
  | some e =>
    let w4 := routeWord s e 4
    let s1 := (bitsSet 14 (routeWord s e 5).toNat).foldl (fun t p => toPort p f t) s
    if bit w4 11 then toRing (fld w4 8 3) rec_ s1 else s1

/-- A frame ring: its base, the exponent of its slot count, and its slot size in words, where it lies inside shared SRAM
(R357). -/
def ringOk (s : State) (lo : Nat) (slot : Nat) : Option (Nat × Nat) :=
  let base := s.regN lo + 65536 * s.regFld (lo + 1) 0 8
  let n := s.regFld (lo + 1) 8 4
  if 2 ≤ n ∧ n ≤ 10 ∧ inSram base (2 ^ n * slot) then some (base, n) else none
/-- A ring that is not used: RINGBAD. -/
def ringBad (s : State) : State := s.setRegBit 0xA30002 2 true
/-- Words of a slot: CAN 40, Ethernet 776 (R357). -/
def txSlot (p : Nat) : Nat := if p < 8 then 40 else 776

/-- RECEIVE_RECORD_WRITE: the oldest record of a ring is written by its frame mover, WP advances once MEM has served every
word, the ring event is raised (R358). -/
def execReceiveRecordWrite (k : Fin 8) (s : State) : Out :=
  match s.net.rxq.get (fun _ => []) k.val with
  | [] => .next s
  | r :: q =>
    let b := 0xA30010 + 4 * k.val
    let s1 := { s with net := { s.net with rxq := s.net.rxq.set (fun _ => []) k.val q } }
    let slot := if s.regBit (b + 1) 12 then 776 else 40
    match ringOk s b slot with
    | none => .next (ringBad s1)
    | some (base, n) =>
      let wp := s.regN (b + 2) % 2 ^ n
      if (wp + 1) % 2 ^ n = s.regN (b + 3) % 2 ^ n ∨ slot < r.length then .next (gwDrop s1)
      else .next (netEvent 0 (((memBurst .net k r.length s1).storeList (base + wp * slot) r).setReg (b + 2) (w16 ((wp + 1) % 2 ^ n))))

/-! The tatting ring (R369–R379). -/

/-- Now is the time a veto of a member is recorded at, if its series has just begun (R376). -/
def noteVote (m : Nat) (consent : Bool) (s : State) : State :=
  if consent then clearVeto m s
  else modRing (fun r => if (r.veto.get (fun _ => none) m).isSome then r
    else { r with veto := r.veto.set (fun _ => none) m (some s.now) }) s
/-- RUN and ROUND last seen. -/
def noteRun (round run : Nat) (s : State) : State := (s.setRegFld 0xA30049 8 8 round).setReg 0xA3004A (w16 (run % 256))
/-- Reset pending. -/
def setResetPend (b : Bool) (s : State) : State := s.setRegBit 0xA30049 5 b
/-- The member after node `m`, wrapping; `m` itself where there is no other (R372). -/
def nextMember (s : State) (m : Nat) : Nat :=
  match (members s).find? fun k => decide (m < k) with
  | some k => k
  | none => (lowestMember s).getD m

/-- A skipped member: at the third TOKEN without a frame of its own it is removed; the controller then joins anew
(R371). -/
def noteSkip (k : Nat) (s : State) : State :=
  if !isMember s k then s
  else
    let n := s.net.ring.skips.get (fun _ => 0) k + 1
    if n < 3 then modRing (fun r => { r with skips := r.skips.set (fun _ => 0) k n }) s
    else
      let s1 := removeMember k s
      if k = s.net.ring.node ∧ (trState s = 1 ∨ trState s = 2) then enterJoining s1 else s1

/-- The holder's TOKEN to a successor, and the wait for it; a token to itself stays with it (R372). -/
def sendToken (succ : Nat) (round run : Nat) (consent : Bool) (subj : Nat) (s : State) : State :=
  let me := s.net.ring.node
  let bytes := ringData 3 round succ run consent subj
  let s1 := noteRun round run (setMember me true (sendRing bytes s))
  let s2 := setResetPend false (setHolder (decide (succ = me)) s1)
  tokenTimer (modRing (fun r => { r with regen := false, wait := if succ = me then none else some ⟨succ, bytes, false, s.now⟩ }) s2)

/-- The controller's own vote: CONSENT and no wake cause that vetoes (R372). -/
def ownVote (s : State) : Bool := s.regBit 0xA30046 0 && decide (s.reg 0xA70104 &&& s.reg 0xA30048 = 0)

/-- The lowest-numbered member that has been vetoing without break for TR_MAXAW (R376). -/
def toOverrule (s : State) : Option Nat :=
  if s.regN 0xA30045 = 0 then none
  else (members s).find? fun m => decide (m ≠ s.net.ring.node) && (match s.net.ring.veto.get (fun _ => none) m with
    | some t => decide (t + s.regN 0xA30045 * 1000000 ≤ s.now)
    | none => false)
/-- A node removed and barred (R371). -/
def barNode (m : Nat) (s : State) : State := (removeMember m s).setRegBit (0xA30054 + m / 16) (m % 16) true

/-- The quiet window begins (R373, R374). -/
def enterQuiet (s : State) : State :=
  let s1 := setHolder false (modRing (fun r => { r with wait := none, regen := false, quietFrom := some s.now }) s)
  setTrState 3 (s1.setRegFld 0xA3004E 0 8 (satInc 0xFF (s1.regFld 0xA3004E 0 8)))

/-- The holder forwards the token: it overrules, votes, and sends TOKEN or COMMIT (R372, R373, R376). -/
def forward (s : State) : State :=
  let me := s.net.ring.node
  let consent := ownVote s
  let s0 := noteVote me consent s
  let s1 := match (if consent then toOverrule s0 else none) with
    | some v => barNode v (sendRing (ringData 6 (trRound s0) 0xFF 0xFF false v) s0)
    | none => s0
  let succ := nextMember s1 me
  let round := if lowestMember s1 = some me then (trRound s1 + 1) % 256 else trRound s1
  let pend := s1.regBit 0xA30049 5
  let got := s1.regFld 0xA3004A 0 8
  let run := if pend ∨ s1.net.ring.regen ∨ !isMember s1 got then 0xFF else got
  if consent ∧ run = me ∧ !pend then
    enterQuiet (noteRun (trRound s1) me (setMember me true (sendRing (ringData 4 (trRound s1) 0xFF me false 0xFF) s1)))
  else
    let run1 := if !consent then 0xFF else if run = 0xFF ∧ !s1.net.ring.regen then me else run
    sendToken succ round run1 consent 0xFF s1

/-- TR_PACE in µs. -/
def trPace (s : State) : Nat := 1000 * Nat.max 5 (s.regFld 0xA30043 0 8)
/-- TOKEN_FORWARD: TR_PACE after the holder received the token (R372). -/
def execTokenForward (s : State) : Out :=
  .next (if s.running .net && s.regBit 0xA30049 3 && decide (trState s = 2) && decide (s.net.ring.heldFrom + trPace s ≤ s.now)
    then forward s else s)

/-- The holder passes its token to the member after the one it waits for. -/
def passOn (skipped : Bool) (w : RingWait) (s : State) : State :=
  let b (k : Nat) : Nat := (w.bytes.getD k 0).toNat
  let run := if skipped ∨ b 3 = w.succ ∨ !isMember s (b 3) then 0xFF else b 3
  let s1 := sendToken (nextMember s w.succ) (b 1) run (decide (b 4 = 1)) (if skipped then w.succ else 0xFF) s
  if skipped then noteSkip w.succ s1 else s1
/-- TOKEN_RESEND: a successor silent for TR_PACE + 25 ms: the same TOKEN once more, then the following member (R372). -/
def execTokenResend (s : State) : Out :=
  match s.net.ring.wait with
  | none => .next s
  | some w =>
    .next (if !s.running .net || decide (trState s ≠ 2) || decide (s.now < w.since + trPace s + 25000) then s
      else if w.again then passOn true w s
      else tokenTimer (modRing (fun r => { r with wait := some { w with again := true, since := s.now } }) (sendRing w.bytes s)))

/-- TR_LOST in µs. -/
def trLost (s : State) : Nat := 1000 * clampN 100 5000 (s.regN 0xA30044)
/-- The controller's rank in the member list, the lowest being 0. -/
def ringRank (s : State) : Nat := ((members s).filter fun m => decide (m < s.net.ring.node)).length
/-- TOKEN_LOST: no TOKEN seen for TR_LOST: a node that is entering proceeds as a member, and a member of rank r regenerates
the token r × 20 ms later (R378). -/
def execTokenLost (s : State) : Out :=
  if !s.running .net || decide (trState s ≠ 1 ∧ trState s ≠ 2) || decide (s.now < s.net.ring.lostFrom + trLost s) then .next s
  else
    let s1 := setTrState 2 s
    .next (if s1.now < s1.net.ring.lostFrom + trLost s1 + 20000 * ringRank s1 then s1
      else forward (modRing (fun r => { r with regen := true, wait := none }) s1))

/-- Node `x` lies after `a` and before `b` in the cyclic order of node numbers. -/
def passedOver (a x b : Nat) : Bool :=
  decide (x ≠ a) && decide (x ≠ b) && decide ((x + 64 - a) % 64 < (if b = a then 64 else (b + 64 - a) % 64))

/-- A TOKEN is seen (R371, R372, R378). -/
def tokenSeen (m : Nat) (f : RingFrame) (s : State) : State :=
  let me := s.net.ring.node
  let st := trState s
  let held := s.regBit 0xA30049 3 && decide (st = 2)
  let s1 := noteVote m f.consent (noteRun f.round.toNat f.run.toNat (setMember m true (tokenTimer s)))
  let s2 := noteSkip f.subj.toNat (setTrState (if st = 1 then 2 else st) s1)
  let s3 := setResetPend (held || decide (trState s2 = 1)) s2
  let s4 := if trState s3 = 2 then setHolder (decide (f.next.toNat = me)) s3 else s3
  if trState s4 = 2 ∧ f.subj.toNat ≠ me ∧ passedOver m me f.next.toNat then sendJoin s4 else s4

/-- A ring frame of a node that is not barred acts (Table 12.13, R371–R376). -/
def ringActs (typ m : Nat) (f : RingFrame) (s : State) : State :=
  let me := s.net.ring.node
  let early := inQuiet s 202000
  match typ with
  | 1 =>
    let s1 := setResetPend true (setMember m true s)
    if early then cancelSleep s1 else s1
  | 2 =>
    if trState s = 3 then s
    else
      let s1 := removeMember m s
      match s.net.ring.wait with
      | some w => if w.succ = m ∧ trState s = 2 then passOn false w s1 else s1
      | none => s1
  | 3 => tokenSeen m f s
  | 4 =>
    let s1 := noteRun f.round.toNat f.run.toNat (setMember m true s)
    if trState s1 = 2 then enterQuiet s1 else s1
  | 5 => if early then cancelSleep (setMember m true s) else s
  | _ =>
    let k := f.subj.toNat
    if 64 ≤ k ∨ isBarred s k then s
    else
      let s1 := barNode k s
      if k = me then setHolder false (setTrState 5 (modRing (fun r => { r with wait := none, quietFrom := none }) s1))
      else match s.net.ring.wait with
        | some w => if w.succ = k ∧ trState s = 2 then passOn false w s1 else s1
        | none => s1

/-- A ring frame taken by the engine and forwarded to the other channels of the ring medium (R370, R371). -/
def ringTake (n typ m : Nat) (f : RingFrame) (c : CanFrame) (s : State) : State :=
  let s1 := ((trSeg s).filter (· ≠ n)).foldl (fun t k => sendCan k c t) s
  if isBarred s m then s1
  else
    let s2 := clearSkips m (s1.setRegFld (0xA30060 + m / 4) (4 * (m % 4)) 4 n)
    let waited := s2.net.ring.wait.any fun w => decide (w.succ = m)
    let s3 := if waited ∧ typ ≠ 2 then modRing (fun r => { r with wait := none }) s2 else s2
    ringActs typ m f s3

/-- A frame in the ring's range: classical, 11-bit (R369). -/
def inRingRange (s : State) (f : CanFrame) : Bool :=
  decide (trState s ≠ 0) && !f.ide && !f.fd && decide (s.net.ring.base ≤ f.id) && decide (f.id < s.net.ring.base + 64)
/-- A ring frame's fields: its type and what Table 12.12 gives, or none where it is to be ignored (R369). -/
def ringFields (s : State) (f : CanFrame) : Option (Nat × RingFrame) :=
  let b (k : Nat) : Byte := f.data.getD k 0
  let typ := (b 0).toNat % 16
  if f.dlc = 8 ∧ (b 0).toNat / 16 = 1 ∧ 1 ≤ typ ∧ typ ≤ 6 then
    some (typ, { src := ⟨(f.id - s.net.ring.base) % 64, Nat.mod_lt _ (by decide)⟩, round := b 1, next := b 2, run := b 3,
                 consent := (b 4).getLsbD 0, subj := b 5 })
  else none

/-! Reception (R353, R355, R359, R364). -/

/-- A frame matches one of a channel's filters (R364). -/
def filterMatch (s : State) (n : Nat) (f : CanFrame) : Bool :=
  !f.fd && (List.range 16).any fun k =>
    let a := 0xA31000 + 0x100 * n + 0x10 * k
    let id := s.regN a + 65536 * s.regFld (a + 1) 0 13
    let mask := s.regN (a + 2) + 65536 * s.regFld (a + 3) 0 13
    let dmask := bytesOf (s.regList (a + 5) 8)
    s.regBit (a + 4) 15 && (s.regBit (a + 1) 13 == f.ide) && decide ((id ^^^ f.id) &&& mask = 0) &&
      (!s.regBit (a + 4) 4 ||
        (decide (s.regFld (a + 4) 0 4 = f.dlc) && (f.data.zip dmask).any fun p => decide (p.1 &&& p.2 ≠ 0)))
/-- The selective-wake decoder in AON (R364): a match latches the cause; in Park an armed channel wakes. -/
def selectiveWake (n : Nat) (f : CanFrame) (s : State) : State :=
  if s.mode = .deepPark ∨ !s.running .aon ∨ isolated s n ∨ !filterMatch s n f then s
  else
    let s1 := latchOnly 3 n s
    if s1.regBit 0xA30800 n then wakeBy 3 s1 else s1

/-- A CAN frame received on a channel: the wake filters, isolation, the ring engine, the gateway. -/
def canReceive (n : Nat) (f : CanFrame) (s0 : State) : State :=
  let s := selectiveWake n f s0
  if !s.running .net || !portEn s n then s
  else if isolated s n then gwDrop s
  else if !onBus s n then s
  else
    let s1 := countUp (txr n 5) s
    let barredHere := (List.range 64).any fun m => isBarred s m && decide (s.regFld (0xA30060 + m / 4) (4 * (m % 4)) 4 = n)
    let iso := inQuiet s 200000 && s.regBit 0xA30040 3 && barredHere
    let inRing := inRingRange s f
    let s2 :=
      if inRing && decide (n ∈ trSeg s) then
        match ringFields s f with
        | some (typ, r) => ringTake n typ r.src r f s1
        | none => s1
      else
        let flags := (if f.fd then 16 else 0) + (if f.brs then 32 else 0) + (if f.ide then 64 else 0) + (if f.esi then 128 else 0) +
          (if inRing then 256 else 0)
        routeFrame n f.id f.ide (.can f) (recordHead s1 n flags f.data.length f.id ++ wordsOf f.data) s1
    if iso then isolatePort n s2 else s2

/-- The frame error counter overflows on an armed channel: it wakes in the same way as a match (R364). -/
def frameErrors (n : Nat) (s : State) : State :=
  if s.mode = .deepPark ∨ !s.running .aon ∨ isolated s n ∨ !s.regBit 0xA30800 n then s else wakeBy 3 (latchOnly 3 n s)

/-- CAN_FRAME_RECEIVED. -/
def execCanFrameReceived (n : Fin 8) (rx : CanRx) (s : State) : Out :=
  .next (match rx with
    | .frame f => canReceive n f s
    | .errorOverflow => frameErrors n s)
/-- A ring frame of a node as the CAN frame it is (R369). -/
def ringReceive (typ : Nat) (n : Fin 8) (f : RingFrame) (s : State) : Out :=
  .next (canReceive n (ringCan s f.src (ringData typ f.round.toNat f.next.toNat f.run.toNat f.consent f.subj.toNat)) s)
/-- JOIN. -/
def execJoinFrame (n : Fin 8) (f : RingFrame) (s : State) : Out := ringReceive 1 n f s
/-- LEAVE. -/
def execLeaveFrame (n : Fin 8) (f : RingFrame) (s : State) : Out := ringReceive 2 n f s
/-- TOKEN. -/
def execTokenFrame (n : Fin 8) (f : RingFrame) (s : State) : Out := ringReceive 3 n f s
/-- COMMIT of the ring. -/
def execRingCommit (n : Fin 8) (f : RingFrame) (s : State) : Out := ringReceive 4 n f s
/-- REVOKE. -/
def execRevokeFrame (n : Fin 8) (f : RingFrame) (s : State) : Out := ringReceive 5 n f s
/-- OVERRULE. -/
def execOverruleFrame (n : Fin 8) (f : RingFrame) (s : State) : Out := ringReceive 6 n f s

/-- ETH_FRAME_RECEIVED (R355). -/
def execEthFrameReceived (n : Fin 6) (f : EthFrame) (s : State) : Out :=
  let p := 8 + n.val
  if !s.running .net || !portEn s p then .next s
  else if isolated s p then .next (gwDrop s)
  else if !f.fcsOk then
    let a := ethBase n + 0x10
    .next (s.setRegFld a 0 8 (satInc 0xFF (s.regFld a 0 8)))
  else
    let key := match f.tag with | some v => v.toNat | none => s.regFld (ethBase n + 6) 0 12
    let s1 := countUp (txr p 5) s
    .next (routeFrame p key false (.eth f.bytes) (recordHead s1 p 0 f.bytes.length key ++ wordsOf f.bytes) s1)

/-! Transmission (R358, R361, R374). -/

/-- The order of CAN identifiers on a bus: the lower wins, an 11-bit one before a 29-bit one that begins with it. -/
def canOrder (f : CanFrame) : Nat := if f.ide then 2 * f.id + 1 else 2 * (f.id * 262144)
/-- Data bytes of a data length code. -/
def dlcLen (d : Nat) : Nat := if d ≤ 8 then d else ([12, 16, 20, 24, 32, 48, 64] : List Nat).getD (d - 9) 64
/-- The least data length code that holds `n` bytes. -/
def dlcOf (n : Nat) : Nat := ((List.range 16).find? fun d => decide (n ≤ dlcLen d)).getD 15

/-- The record at the head of a port's transmit ring: its address, where the ring is used and holds one. -/
def txHead (s : State) (p : Nat) : Option Nat :=
  match ringOk s (txr p 0) (txSlot p) with
  | none => none
  | some (base, n) =>
    let rp := s.regN (txr p 3) % 2 ^ n
    if rp = s.regN (txr p 2) % 2 ^ n then none else some (base + rp * txSlot p)
/-- TXR_RP advances. -/
def txAdvance (p : Nat) (s : State) : State :=
  let n := s.regFld (txr p 1) 8 4
  s.setReg (txr p 3) (w16 ((s.regN (txr p 3) + 1) % 2 ^ n))
/-- A frame mover reads a record; the data of one with a double-bit error are open (R35). -/
def readRecord (p a len : Nat) (s : State) : List Byte × State :=
  let n := (len + 1) / 2
  let s1 := memBurst .net (p % 8) (8 + n) s
  if s.anyDbe a (8 + n) then freshBytes len (s1.raiseIsl .net 1 none) else ((bytesOf (s.memList (a + 8) n)).take len, s1)
/-- The CAN frame a record spells; bytes its data length code adds are open. -/
def recordCan (n a : Nat) (s : State) : CanFrame × State :=
  let w0 := s.memWord a
  let len := Nat.min 64 (s.memWord (a + 1)).toNat
  let d := dlcOf len
  let id := (s.memWord (a + 2)).toNat + 65536 * fld (s.memWord (a + 3)) 0 13
  let (bs, s1) := readRecord n a len s
  let (pad, s2) := freshBytes (dlcLen d - len) s1
  ({ ide := bit w0 6, fd := bit w0 4, brs := bit w0 5, esi := false, id := if bit w0 6 then id else id % 2048, dlc := d,
     data := bs ++ pad }, s2)
/-- The Ethernet frame a record spells, with the port's source address (Table 12.5). -/
def recordEth (p a : Nat) (s : State) : List Byte × State :=
  let len := Nat.min 1536 (s.memWord (a + 1)).toNat
  let (bs, s1) := readRecord p a len s
  ((bs.take 6 ++ bytesOf (s.regList (ethBase (p - 8) + 3) 3) ++ bs.drop 12).take len, s1)

/-- The frame of lowest identifier in a queue, with the queue without it. -/
def takeLowest : List GwFrame → Option (CanFrame × List GwFrame)
  | [] => none
  | .eth b :: q => (takeLowest q).map fun r => (r.1, .eth b :: r.2)
  | .can f :: q =>
    match takeLowest q with
    | none => some (f, q)
    | some (g, r) => if canOrder g < canOrder f then some (g, .can f :: r) else some (f, q)

/-- A write to CAN_MODE takes effect. -/
def setCanMode (n : Nat) (v : Word) (s : State) : State := s.setReg (canBase n) (v &&& 0x007F#16)
/-- A wake frame has ended: WFBUSY clears, and a held write of CAN_MODE takes effect (R353, R368). -/
def endWake (n : Nat) (s : State) : State :=
  let s1 := { s with net := { s.net with wake := s.net.wake.set (fun _ => none) n none, modeHeld := s.net.modeHeld.set (fun _ => none) n none } }
  let s2 := s1.setRegBit (canBase n + 6) 2 false
  match s.net.modeHeld.get (fun _ => none) n with
  | some v => setCanMode n v s2
  | none => s2

/-- A CAN port has sent its next frame. -/
def canSent (n : Nat) (s : State) : State :=
  let sent (f : CanFrame) (t : State) := putCan n f t
  let fromQueue := takeLowest (s.gwq n)
  match txHead s n with
  | none =>
    match fromQueue with
    | some (f, q) => sent f (setGwq n q s)
    | none => s
  | some a =>
    let (r, s1) := recordCan n a s
    let ringFirst := match fromQueue with
      | some (f, _) => decide (canOrder r < canOrder f)
      | none => true
    if ringFirst then
      if r.fd && !s.regBit (canBase n) 1 then txAdvance n (gwDropAt n s1)
      else txAdvance n (sent { r with brs := r.brs && s.regBit (canBase n) 2 } s1)
    else match fromQueue with
      | some (f, q) => sent f (setGwq n q s)
      | none => s
/-- An Ethernet port has sent its next frame: the two sources take turns. -/
def ethSent (p : Nat) (s : State) : State :=
  let sent (b : List Byte) (ring : Bool) (t : State) : State :=
    let t1 := countUp (txr p 6) (t.send (.eth (p - 8) b))
    { t1 with net := { t1.net with fromRing := t1.net.fromRing.set (fun _ => false) p ring } }
  let head := match s.gwq p with
    | .eth b :: q => some (b, q)
    | .can _ :: q => some ([], q)
    | [] => none
  let fromRing (a : Nat) (put : List Byte → Bool → State → State) : State :=
    let (b, s1) := recordEth p a s
    txAdvance p (put b true s1)
  match txHead s p, head with
  | none, none => s
  | some a, none => fromRing a sent
  | none, some (b, q) => sent b false (setGwq p q s)
  | some a, some (b, q) =>
    if s.net.fromRing.get (fun _ => false) p then sent b false (setGwq p q s) else fromRing a sent
/-- A transmit ring that cannot be used is marked. -/
def checkTxRing (p : Nat) (s : State) : State := if (ringOk s (txr p 0) (txSlot p)).isNone then ringBad s else s

/-- A wake frame has failed (R368). -/
def wakeFailed (n : Nat) (s : State) : State :=
  ((endWake n (s.setRegBit (canBase n + 6) 3 true)).setRegBit 0xA30814 (8 + n) true).raise 163 (some n)
/-- The channel is of the ring medium and the quiet window runs: nothing but REVOKE is sent on it (R374). -/
def quietOn (s : State) (n : Nat) : Bool := inQuiet s 200000 && decide (n ∈ trSeg s)
/-- The bit time of a wake frame in cycles of f_CAN: the rate of WK_RATE (R368, Table 12.10). -/
def wakeBit (s : State) (n : Nat) : Nat := 640 / 2 ^ s.regFld 0xA30801 (2 * n) 2
/-- FRAME_TRANSMITTED: a wake frame first, else the port's next frame; an isolated port, and a channel of the ring medium
in the quiet window, send nothing (R358, R362, R374). A wake frame that is not transmitted after 16 attempts fails
(R368). -/
def execFrameTransmitted (p : Fin 14) (ok : Bool) (s : State) : Out :=
  if !s.running .net || isolated s p then .next s
  else if !ok then .next (if p.val < 8 ∧ (s.net.wake.get (fun _ => none) p.val).isSome then wakeFailed p s else s)
  else if p.val < 8 then
    match s.net.wake.get (fun _ => none) p.val with
    | some f => .next (if quietOn s p then s else
        endWake p (countUp (txr p 6) (s.send (.can p (wakeBit s p) (wakeBit s p) f))))
    | none => .next (if canSends s p && !quietOn s p then canSent p s else s)
  else .next (if onBus s p then ethSent p s else s)
/-- A write of TXR_WP (R358). -/
def txrWp (p : Nat) (v : Word) (s : State) : State := checkTxRing p (s.setReg (txr p 2) v)

/-! CAN channels (R353, R368). -/

/-- A write of CAN_MODE: held while WFBUSY is set. -/
def canMode (n : Nat) (v : Word) (s : State) : State :=
  if (s.net.wake.get (fun _ => none) n).isSome then
    { s with net := { s.net with modeHeld := s.net.modeHeld.set (fun _ => none) n (some v) } }
  else setCanMode n v s
/-- CAN_BUS_OFF: the channel leaves the bus; flag, source (R353). The counters and the last error code are open. -/
def execCanBusOff (n : Fin 8) (s : State) : Out :=
  let s0 := if (s.net.wake.get (fun _ => none) n.val).isSome ∧ s.running .net then wakeFailed n s else s
  if !onBus s0 n then .next s0
  else
    let a := canBase n + 6
    let s1 := ((s0.setRegFld a 0 2 2).setRegFld a 7 3 (s0.freeBelow 8)).used
    let s2 := (s1.setReg (a + 1) s1.freeWord).used
    .next ((netEvent 3 { s2 with net := { s2.net with recov := s2.net.recov.filter (· ≠ n.val) } }).raise 162 (some n.val))
/-- CAN_BOREC: RECOVER reads 1 until the recovery it asked for (R12). -/
def canBorecWord (s : State) (n : Nat) : Word := packBits [(0, decide (n ∈ s.net.recov))]
/-- A write of CAN_BOREC: RECOVER. -/
def canBorec (n : Nat) (v : Word) (s : State) : State :=
  if bit v 0 ∧ s.regFld (canBase n + 6) 0 2 = 2 ∧ n ∉ s.net.recov then { s with net := { s.net with recov := n :: s.net.recov } } else s
/-- CAN_BUS_OFF_RECOVERY: on its own with ABOR, or as asked; a ring node whose only channel it is joins again (R353,
Table 12.15). -/
def execCanBusOffRecovery (n : Fin 8) (s : State) : Out :=
  let a := canBase n + 6
  if s.running .net ∧ s.regFld a 0 2 = 2 ∧ (s.regBit (canBase n) 6 ∨ n.val ∈ s.net.recov) then
    let s1 := ({ s with net := { s.net with recov := s.net.recov.filter (· ≠ n.val) } }.setRegFld a 0 2 0).setReg (a + 1) 0
    .next (if trSeg s1 = [n.val] ∧ (trState s1 = 1 ∨ trState s1 = 2) then sendJoin s1 else s1)
  else .next s
/-- CAN_STAT with SYNC, QUIET and ISO. -/
def canStat (s : State) (n : Nat) : Word :=
  putBit (putBit (putBit (s.reg (canBase n + 6)) 4 (onBus s n)) 5 (quietOn s n)) 6 (isolated s n)
/-- CAN_GWQ and ETH_GWQ. -/
def gwqWord (s : State) (p : Nat) : Word := putFld (s.reg (txr p 4)) 0 5 (s.gwq p).length

/-! LIN channels (R354). -/

/-- The protected identifier of a frame ID (ISO 17987). -/
def linPid (id : BitVec 6) : Byte :=
  let b (k : Nat) := id.getLsbD k
  byte (id.toNat + (if b 0 ^^ b 1 ^^ b 2 ^^ b 4 then 64 else 0) + (if b 1 ^^ b 3 ^^ b 4 ^^ b 5 then 0 else 128))
/-- The entry of a frame ID (Table 12.4a). -/
def linEntry (n : Nat) (id : BitVec 6) : Nat := 0xA34000 + 0x200 * n + 8 * id.toNat
/-- LEN of an entry. -/
def linLen (s : State) (n : Nat) (id : BitVec 6) : Nat := let l := s.regFld (linEntry n id) 3 4; if l = 0 then 8 else Nat.min 8 l
/-- LIN_STAT: the flags of the last frame. -/
def linFlags (n : Nat) (busy : Bool) (flags : Nat) (s : State) : State :=
  s.setReg (linBase n + 3) (putFld (w16 (flags + b2n busy)) 8 6 (s.regFld (linBase n + 3) 8 6))
/-- The channel no longer waits for a response. -/
def linIdle (n : Nat) (s : State) : State := { s with net := { s.net with lin := s.net.lin.set (fun _ => none) n none } }

/-- LIN_BAUD in 10 bit/s (Table 12.4). -/
def linBaud (s : State) (n : Nat) : Nat := clampN 100 2000 (s.regN (linBase n + 1))
/-- A sync field lies within ±14 % of LIN_BAUD (R354). -/
def linSync (s : State) (n rate : Nat) : Bool :=
  decide (86 * linBaud s n ≤ 100 * rate) && decide (100 * rate ≤ 114 * linBaud s n)
/-- The checksum of a LIN frame: the classic one over the data, the enhanced one over the protected ID as well (ISO 17987;
CHK of Table 12.4a). -/
def linSum (enhanced : Bool) (pid : Byte) (data : List Byte) : Byte :=
  let add (a : Nat) (b : Byte) : Nat := if a + b.toNat < 256 then a + b.toNat else a + b.toNat - 255
  byte (255 - (if enhanced then pid :: data else data).foldl add 0)

/-- LIN_HEADER: the channel publishes, subscribes or ignores by the entry of the frame ID. A responder synchronises to the
sync field. -/
def execLinHeader (n : Fin 12) (id : BitVec 6) (rate : Nat) (s : State) : Out :=
  if !s.running .net || !s.regBit (linBase n) 0 then .next s
  else if !s.regBit (linBase n) 1 && !linSync s n rate then .next (linFlags n false 64 (linIdle n s))
  else
    let s1 := (linIdle n s).setRegFld (linBase n + 3) 8 6 id.toNat
    match s1.regFld (linEntry n id) 0 2 with
    | 1 =>
      let ws := (List.range 4).map fun k => s1.net.pub.get (fun _ => 0#16) (256 * n.val + 4 * id.toNat + k)
      let data := (bytesOf ws).take (linLen s1 n id)
      let sum := linSum (s1.regBit (linEntry n id) 2) (linPid id) data
      .next (linFlags n false 4 (s1.send (.lin n (linBaud s1 n) (linPid id) (data ++ [sum]))))
    | 2 => .next (linFlags n true 0 { s1 with net := { s1.net with lin := s1.net.lin.set (fun _ => none) n.val (some id) } })
    | _ => .next (linFlags n false 0 s1)
/-- LIN_RESPONSE: into LIN_DATA with RXOK where its checksum is right, or an error flag. -/
def execLinResponse (n : Fin 12) (rsp : LinRsp) (s : State) : Out :=
  match s.net.lin.get (fun _ => none) n.val with
  | none => .next s
  | some id =>
    let s1 := linIdle n s
    .next (match rsp with
      | .data bs sum =>
        if sum ≠ linSum (s.regBit (linEntry n id) 2) (linPid id) (bs.take (linLen s n id)) then linFlags n false 8 s1
        else linFlags n false 2 (s1.setRegList (linBase n + 4) (wordsOf (bs.take (linLen s n id))))
      | .bitError => linFlags n false 32 s1)
/-- LIN_NO_RESPONSE. -/
def execLinNoResponse (n : Fin 12) (s : State) : Out :=
  .next (if (s.net.lin.get (fun _ => none) n.val).isSome then linFlags n false 16 (linIdle n s) else s)
/-- A write of LIN_HDR: break, sync and protected ID; ignored in a responder, while off or BUSY. -/
def linHdr (n : Nat) (v : Word) (s : State) : State :=
  if s.regFld (linBase n) 0 2 ≠ 3 ∨ s.regBit (linBase n + 3) 0 then s
  else
    let id := BitVec.ofNat 6 (fld v 0 6)
    (s.setReg (linBase n + 3) (pack [(0, 1), (8, id.toNat)])).send (.lin n (linBaud s n) (linPid id) [])
/-- A write of PUB: the staging words into the publish buffer at once. -/
def linPub (n : Nat) (id : BitVec 6) (s : State) : State :=
  let pub := (List.range 4).foldl (fun m k =>
    Sparse.set (fun _ => 0#16) m (256 * n + 4 * id.toNat + k) (s.reg (linEntry n id + 1 + k))) s.net.pub
  { s with net := { s.net with pub := pub } }
/-- A write of LIN_WAKE: SEND. -/
def linWakeSend (n : Nat) (v : Word) (s : State) : State := if bit v 0 then linWakeStart n s else s
/-- LIN_WAKE: SEND reads 1 while the signal is driven (R12). -/
def linWakeWord (s : State) (n : Nat) : Word := packBits [(0, linWaking s n)]

/-! Wake sources of the buses (R365, R366). -/

/-- LIN_WAKE: 150 µs of dominant level (R366). -/
def execLinWake (n : Fin 12) (us : Nat) (s : State) : Out :=
  .next (if s.running .aon && s.regBit 0xA30803 n && decide (150 ≤ us) then latchCause 4 n s else s)
/-- CAN_WAKE_PATTERN: in Deep Park; each phase passes the filter of WK_WUPF, the whole within 1.0 ms (R365). -/
def execCanWakePattern (n : Fin 8) (phase us : Nat) (s : State) : Out :=
  .next (if decide (s.mode = .deepPark ∨ s.mode = .entering true) && s.regBit 0xA30800 n && !isolated s n &&
      decide (s.regFld 0xA30802 0 4 + 1 ≤ phase) && decide (us ≤ 1000) then latchCause 3 n s else s)
/-- TC10_WAKE: in Park. -/
def execTc10Wake (n : Fin 2) (s : State) : Out :=
  .next (if decide (s.mode = .park ∨ s.mode = .entering false) && s.regBit 0xA30804 n && !isolated s (8 + n) then latchCause 5 n s else s)

/-! Ethernet (R355, R356). -/

/-- ETH_STAT: TC10 reads off where it is not on, active where it has not been put to sleep; ISO. -/
def ethStat (s : State) (k : Nat) : Word :=
  let w := s.reg (ethBase k + 7)
  let on := decide (k < 2) && (s.regBit (ethBase k) 3 || isolated s (8 + k))
  let t := if !on then 0 else if fld w 1 3 = 0 then 1 else fld w 1 3
  putBit (putFld w 1 3 t) 5 (isolated s (8 + k))
/-- ETH_LINK_CHANGE. -/
def execEthLinkChange (n : Fin 6) (up : Bool) (s : State) : Out :=
  if !onBus s (8 + n) then .next s
  else
    let a := ethBase n + 7
    let s1 := s.setRegBit a 0 up
    .next (if 2 ≤ n.val then s1.setRegBit a 4 (up && s.regBit (ethBase n) 1)
      else if up then s1.setRegFld a 1 3 0 else s1)
/-- A write of ETH_TC10: SLEEPREQ starts the handshake of an active port, WUR sends a wake-up request. -/
def ethTc10 (n : Nat) (v : Word) (s : State) : State :=
  if !onBus s (8 + n) || !s.regBit (ethBase n) 3 then s
  else
    let st := fld (ethStat s n) 1 3
    let s1 := if bit v 0 ∧ st = 1 then (s.setRegFld (ethBase n + 7) 1 3 2).send (.tc10 n false) else s
    if bit v 1 ∧ st ≠ 4 then
      (if st = 3 then s1.setRegFld (ethBase n + 7) 1 3 4 else s1).send (.tc10 n true)
    else s1
/-- ETH_TC10: SLEEPREQ reads 1 while the request is pending, WUR while the wake is in progress (R12). -/
def ethTc10Word (s : State) (k : Nat) : Word :=
  let st := fld (ethStat s k) 1 3
  packBits [(0, decide (k < 2 ∧ st = 2)), (1, decide (k < 2 ∧ st = 4))]
/-- TC10_SLEEP_ACK: a pending request is acknowledged, the port sleeps. -/
def execTc10SleepAck (n : Fin 2) (s : State) : Out :=
  let a := ethBase n + 7
  .next (if s.running .net ∧ s.regFld a 1 3 = 2 then (s.setRegFld a 1 3 3).setRegBit a 0 false else s)

/-! Route swaps, the counter, wake lines (R360, R363). -/

/-- An entry of the back bank the swap refuses. -/
def routeBad (s : State) (e : Nat) : Bool :=
  let a := 0xA32000 + 8 * e
  let src := s.regFld (a + 4) 0 4
  let dest := s.regFld (a + 5) 0 14
  s.regBit (a + 1) 15 && (decide (13 < src) || dest.testBit src || (if src < 8 then decide (256 ≤ dest) else decide (dest % 256 ≠ 0)))
/-- NET_CMD.GWSWAP: the back bank is checked; the swap is scheduled or refused. While one is pending a second request has
no effect (R14, R360). -/
def gwSwap (s : State) : State :=
  if s.regBit 0xA30002 0 then s
  else match (List.range 256).find? (routeBad s) with
  | some e => (s.setRegBit 0xA30002 1 true).setRegFld 0xA30002 3 8 e
  | none => ((s.setRegBit 0xA30002 1 false).setRegFld 0xA30002 3 8 0).setRegBit 0xA30002 0 true
/-- The back bank's words. -/
def inBackBank (a : Nat) : Bool := decide (0xA32000 ≤ a) && decide (a < 0xA32800)
/-- ROUTE_SWAP_APPLY: the banks change places. -/
def execRouteSwapApply (s : State) : Out :=
  if !s.regBit 0xA30002 0 then .next s
  else
    let new := (s.regs.filter fun e => inBackBank e.1).map fun e => (e.1 - 0xA32000, e.2)
    let s1 := s.net.routes.foldl (fun t e => t.setReg (0xA32000 + e.1) e.2) (s.dropRegs inBackBank)
    .next ({ s1 with net := { s1.net with routes := new } }.setRegBit 0xA30002 0 false)
/-- A write of NET_CMD. -/
def netCmd (v : Word) (s : State) : State :=
  let s1 := if bit v 0 then gwSwap s else s
  if bit v 1 ∧ !wakeBusy s1 then sendWake s1 else s1
/-- NET_CMD: its bits read 1 while the swap waits or wake frames are under way (R12). -/
def netCmdWord (s : State) : Word := packBits [(0, s.regBit 0xA30002 0), (1, wakeBusy s)]
/-- A read of NET_US_LO captures NET_US_HI. -/
def netUsCapture (s : State) : State := (s.setReg 0xA30007 (w16 (netUs s))).setReg 0xA30008 (w16 (netUs s / 65536))
/-- A write of WKL_CMD: the lines named are driven low, but one that is driven already (R14, R363). -/
def wklCmd (v : Word) (s : State) : State :=
  (List.range 2).foldl (fun t n =>
    if bit v n && !t.regBit 0xA30808 (2 + n) then
      { t.setRegBit 0xA30808 (2 + n) true with net := { t.net with wklAt := t.net.wklAt.set (fun _ => 0) n t.now } }
    else t) s
/-- WKL_CMD: a bit reads 1 while its pulse lasts (R12). -/
def wklCmdWord (s : State) : Word := packBits [(0, s.regBit 0xA30808 2), (1, s.regBit 0xA30808 3)]
/-- WKL_PULSE_END: after WKL_PULSE the line is released (R363). -/
def execWklPulseEnd (l : Fin 2) (s : State) : Out :=
  .next (if s.now < s.net.wklAt.get (fun _ => 0) l.val + 1000 * Nat.max 1 (s.regFld 0xA30807 0 8) then s
    else s.setRegBit 0xA30808 (2 + l) false)
/-- WKL_STAT: a line that is not driven is at the vehicle's level. -/
def wklStat (s : State) : Word × State :=
  (putBit (putBit (s.reg 0xA30808) 0 (!wakeLineLow s s.free 0)) 1 (!wakeLineLow s s.free 1), s.used.used)

/-! The ring engine's words (Table 12.16). -/

/-- A write of TR_CTRL: EN written 1 joins from OFF or LEFT with TR_CFG as it stands; EN 0 turns the engine off, but for
OVERRULED, which only UNBAR or a reset leaves (Table 12.14). -/
def trCtrl (v : Word) (s : State) : State :=
  let s1 := s.setReg 0xA30040 (v &&& 0x000F#16)
  if bit v 0 then
    if trState s = 0 ∨ trState s = 6 then
      enterJoining (modRing (fun r => { r with node := s.regFld 0xA30041 0 6, base := 64 * s.regFld 0xA30041 6 5 }) s1)
    else s1
  else if trState s = 5 ∨ trState s = 0 then s1
  else trOff s1
where
  /-- The engine off: its member list is no longer kept. -/
  trOff (s : State) : State :=
    let s1 := s.setRegList 0xA30050 [0, 0, 0, 0]
    setTrState 0 (setResetPend false (setHolder false (modRing (fun r => { node := r.node, base := r.base }) s1)))
/-- A write of TR_CMD: REVOKE, LEAVE, UNBAR. -/
def trCmd (v : Word) (s : State) : State :=
  let s1 := if bit v 0 then ringRevoke s else s
  let s2 := if bit v 1 ∧ trState s1 = 2 then leave s1 else s1
  if bit v 2 then unbarAll s2 else s2
where
  /-- LEAVE is sent (R371). -/
  leave (s : State) : State :=
    let s1 := removeMember s.net.ring.node (sendRing (ringData 2 (trRound s) 0xFF 0xFF false 0xFF) s)
    setTrState 6 (setHolder false (modRing (fun r => { r with wait := none }) s1))
  /-- Every bar is cleared; an overruled node joins again (R376). -/
  unbarAll (s : State) : State :=
    let s1 := s.setRegList 0xA30054 [0, 0, 0, 0]
    if trState s = 5 then (if s.regBit 0xA30040 0 then enterJoining s1 else setTrState 0 s1) else s1

/-- QUIET_WINDOW_END: 202 ms into the window SLEEP_DUE, and the AUTOPARK request; a refusal sets PARKREF, sends the wake frames where a late
event caused it, and the engine joins again (R375). -/
def execQuietWindowEnd (s : State) : Out :=
  if !s.running .net ∨ trState s ≠ 3 ∨ inQuiet s 201999 then .next s
  else
    let s1 := setTrState 4 (modRing (fun r => { r with quietFrom := none }) s)
    let mode := s1.regFld 0xA30040 1 2
    if mode = 0 ∨ mode = 3 then .next s1
    else
      let s2 := pwrCtrl (pack [(0, mode), (8, 0xA5)]) s1
      if s2.mode ≠ .run then .next (s2.setRegBit 0xA30049 4 false)
      else
        let s3 := s2.setRegBit 0xA30049 4 true
        let late := s3.regFld 0xA70102 0 4 = 2 ∧ s3.reg 0xA70104 &&& s3.reg 0xA30809 ≠ 0
        .next (enterJoining (if late then sendWake s3 else s3))

/-- TR_RUN with the number of members. -/
def trRun (s : State) : Word := putFld (s.reg 0xA3004A) 8 7 (members s).length
/-- TR_QUIET: what is left of the window, in ms. -/
def trQuiet (s : State) : Word :=
  match s.net.ring.quietFrom with
  | some t => w16 ((t + 200000 - s.now) / 1000)
  | none => 0
/-- The member with the longest unbroken veto, and since when. -/
def longestVeto (s : State) : Option (Nat × Nat) :=
  (members s).foldl (fun best m =>
    match s.net.ring.veto.get (fun _ => none) m, best with
    | none, b => b
    | some t, none => some (m, t)
    | some t, some (k, u) => if t < u then some (m, t) else some (k, u)) none
/-- TR_VETO. -/
def trVeto (s : State) : Word := match longestVeto s with | some (m, _) => pack [(0, m), (6, 1)] | none => 0
/-- TR_VETOAGE. -/
def trVetoAge (s : State) : Word := match longestVeto s with | some (_, t) => w16 (Nat.min 0xFFFF ((s.now - t) / 1000000)) | none => 0

end Sys2Proof.Machine
end

