-- ==== Sys2Proof/Machine/Colour.lean ====
section
/-! DEFINITION. The colour engine (R306): temperatures, the gamut, the solution in exact rationals, the result of one
evaluation.
The readings and choices it rests on: notes/assumptions/38. -/

namespace Sys2Proof.Machine

/-- The temperature source of a LUX channel's profile in 0.1 °C, and whether its NTC input is invalid (R309). -/
def lampSource (s : State) (n : Nat) : Int × Bool :=
  let p := wd (s.chan (lx n)).pf 15
  let die := signed (s.reg 0xA2F016)
  if bit p 6 then
    let k := fld p 0 6
    if s.regFld (0xA70200 + k) 4 2 = 3 ∧ !s.regBit (0xA70230 + k) 3 then (signed (s.reg (0xA70260 + k)), false) else (die, true)
  else (die, false)
/-- T of a LUX channel in 0.1 °C: the mean of the last second, or the source before there is one. -/
def lampTemp (s : State) (n : Nat) : Int :=
  match (s.sink n).hist with
  | [] => (lampSource s n).1
  | h => h.foldl (· + ·) 0 / (h.length : Int)
/-- The derating factor in 1/32,768 of a temperature in 0.1 °C (R309). -/
def derate (p : Word) (t : Int) : Nat :=
  let knee : Int := ((fld p 0 8 : Nat) : Int) * 10
  if fld p 0 8 = 0 ∨ t ≤ knee then 32768
  else
    let slope : Int := ((fld p 8 4 : Nat) : Int) + 1
    let d : Int := (32768 * 2000 - 32768 * slope * (t - knee)) / 2000
    let fl : Int := ((fld p 12 4 : Nat) : Int) * 2048
    (if d < fl then fl else d).toNat

/-- A point of the chromaticity plane. -/
abbrev Pt := Rat × Rat

/-- A usable primary: slot, driving sink, chromaticity, flux in 0.1 lm, I_REF in µA. -/
structure Prim where
  slot : Nat
  sink : Nat
  at_ : Pt
  flux : Rat
  iref : Rat
  deriving DecidableEq, Repr

/-- Barycentric coordinates of a point in a triangle; none where the triangle has no area. -/
def bary (a b c p : Pt) : Option (Rat × Rat × Rat) :=
  let det := (b.1 - a.1) * (c.2 - a.2) - (c.1 - a.1) * (b.2 - a.2)
  if det = 0 then none
  else
    let u := ((p.1 - a.1) * (c.2 - a.2) - (c.1 - a.1) * (p.2 - a.2)) / det
    let v := ((b.1 - a.1) * (p.2 - a.2) - (p.1 - a.1) * (b.2 - a.2)) / det
    some (1 - u - v, u, v)
/-- How far along a segment the point nearest to another lies, 0 to 1. -/
def along (a b p : Pt) : Rat :=
  let d := (b.1 - a.1) * (b.1 - a.1) + (b.2 - a.2) * (b.2 - a.2)
  if d = 0 then 0
  else
    let t := ((p.1 - a.1) * (b.1 - a.1) + (p.2 - a.2) * (b.2 - a.2)) / d
    if t < 0 then 0 else if 1 < t then 1 else t
/-- The point at a fraction of a segment. -/
def between (a b : Pt) (t : Rat) : Pt := (a.1 + t * (b.1 - a.1), a.2 + t * (b.2 - a.2))
/-- The squared distance of two points. -/
def dist2 (a b : Pt) : Rat := (a.1 - b.1) * (a.1 - b.1) + (a.2 - b.2) * (a.2 - b.2)

/-- The target moved into the gamut of one, two or three primaries, and the share each has in it; none where three
primaries lie on a line, of which R306 says nothing. -/
def gamut (ps : List Pt) (p : Pt) : Option (Pt × List Rat) :=
  match ps with
  | [a] => some (a, [1])
  | [a, b] => let t := along a b p; some (between a b t, [1 - t, t])
  | [a, b, c] =>
    match bary a b c p with
    | none => none
    | some (x, y, z) =>
      if 0 ≤ x ∧ 0 ≤ y ∧ 0 ≤ z then some (p, [x, y, z])
      else
        let t1 := along a b p
        let t2 := along b c p
        let t3 := along c a p
        let q1 := between a b t1
        let q2 := between b c t2
        let q3 := between c a t3
        if dist2 q1 p ≤ dist2 q2 p ∧ dist2 q1 p ≤ dist2 q3 p then some (q1, [1 - t1, t1, 0])
        else if dist2 q2 p ≤ dist2 q3 p then some (q2, [0, 1 - t2, t2])
        else some (q3, [t3, 0, 1 - t3])
  | _ => none

/-- The weights w of the usable primaries for a target flux, with the target as moved; none where the equations have no
stated solution. A fourth primary takes the largest share that leaves the others at or above 0. -/
def solve (ps : List Prim) (target : Pt) (lum : Rat) : Option (Pt × List Rat) :=
  let base := ps.take 3
  match gamut (base.map Prim.at_) target with
  | none => none
  | some (t, shares) =>
    if t.2 = 0 ∨ (ps.any fun p => decide (p.flux = 0) || decide (p.at_.2 = 0)) then none
    else
      let total := lum / t.2
      let weight (p : Prim) (m : Rat) : Rat := m * p.at_.2 / p.flux
      match ps, shares with
      | [a, b, c, d], [x, y, z] =>
        match bary a.at_ b.at_ c.at_ d.at_ with
        | none => none
        | some (u, v, w) =>
          let unit := d.flux / d.at_.2
          let cut (have_ per : Rat) (m : Rat) : Rat :=
            if 0 < per * unit then (if have_ * total / (per * unit) < m then have_ * total / (per * unit) else m) else m
          let w3 := cut z w (cut y v (cut x u 1))
          some (t, [weight a (x * total - w3 * unit * u), weight b (y * total - w3 * unit * v),
                    weight c (z * total - w3 * unit * w), w3])
      | _, _ => some (t, List.zipWith (fun p x => weight p (x * total)) base shares)

/-- A slot's sink is usable: neither retired nor in the thermal latch, or carried by a partner (R306). -/
def sinkUsable (s : State) (n : Nat) : Bool :=
  let c := s.chan (lx n)
  (decide (c.reason = 0) && !c.latch) || c.carriedBy.isSome
/-- The usable slots of a lamp with their sinks, in slot order. -/
def usableSlots (s : State) (k : Nat) : List (Nat × Nat) :=
  (List.range 4).filterMap fun p =>
    ((lampSinks s k).find? fun n => decide (slotOf (s.chan (lx n)).act = p) && sinkUsable s n).map fun n => (p, n)
/-- A primary of the record has no driving sink. -/
def lampLost (s : State) (k : Nat) : Bool :=
  (List.range (calPrims s k)).any fun p => !((usableSlots s k).any fun e => decide (e.1 = p))

/-- A usable primary at a temperature in °C. -/
def primAt (s : State) (k : Nat) (t : Rat) (p n : Nat) : Prim :=
  let w (j : Nat) := calWord s k (4 + 5 * p + j)
  let dt := t - (((hiByte (calWord s k 1)).toInt : Int) : Rat)
  let co (lo : Nat) : Rat := (((BitVec.ofNat 4 (fld (w 4) lo 4)).toInt : Int) : Rat) * 2 / 100000
  ⟨p, n, (((w 0).toNat : Rat) / 65536 + co 8 * dt, ((w 1).toNat : Rat) / 65536 + co 12 * dt),
    ((w 2).toNat : Rat) * (1 + (((loByte (w 4)).toInt : Int) : Rat) / 10000 * dt), ((w 3).toNat : Rat)⟩

/-- A number rounded to the nearest whole one. -/
def roundRat (x : Rat) : Nat := (x + 1 / 2).floor.toNat

/-- The dot current of a primary and the current it gives (R306). -/
def primDot (s : State) (p : Prim) : Nat × Rat :=
  let g := iGlobal (s.reg 0xA2F000)
  let lim : Rat := (lsSteady (s.chan (lx (driverOf s p.sink))) : Rat)
  let i := if p.iref ≤ g ∧ p.iref ≤ lim then p.iref else if g ≤ lim then g else lim
  let dot := roundRat (i * 1023 / g)
  (dot, g * (dot : Rat) / 1023)

/-- One evaluation of lamp `k` with leader `n`; none where the equations give no result. -/
def evalLamp (s : State) (k n : Nat) : Option LampResult :=
  let c := s.chan (lx n)
  let us := usableSlots s k
  let d : Rat := ((s.sink n).drf : Rat) / 32768
  let derating := decide (fld (wd c.pf 14) 0 8 ≠ 0 ∧ (s.sink n).drf < 32768)
  let lost := lampLost s k
  let common := (if derating then 4 else 0) + (if (s.sink n).tsrcBad then 16 else 0) + (if lost then 32 else 0)
  let dark : LampResult := ⟨common, (lampSinks s k).map fun m => (slotOf (s.chan (lx m)).act, 0, 0)⟩
  if us.isEmpty ∨ (lost ∧ bit (wd c.act 14) 10) then some dark
  else
    let t : Rat := ((lampTemp s n : Int) : Rat) / 10
    let ps := us.map fun e => primAt s k t e.1 e.2
    let target : Pt := (((wd c.act 11).toNat : Rat) / 65536, ((wd c.act 12).toNat : Rat) / 65536)
    match solve ps target ((wd c.act 13).toNat : Rat) with
    | none => none
    | some (moved, ws) =>
      let dots := ps.map (primDot s)
      let raw := List.zipWith (fun (p : Prim × Rat) (e : Nat × Rat) => p.2 * p.1.iref / e.2) (List.zip ps ws) dots
      if raw.any fun x => decide (x < 0) then none
      else
        let m := raw.foldl (fun a x => if a < x then x else a) 0
        let ds := if 1 < m then raw.map (· / m) else raw
        let ds := if derating then ds.map (· * d) else ds
        let top := ds.foldl (fun a x => if a < x then x else a) 0
        let lim : Rat := (c.ceil : Rat) / 256
        let gov := decide (c.ceil ≠ 0) && bit (wd c.act 0) 3 && decide (lim < top)
        let ds := if gov then ds.map (· * lim / top) else ds
        let off (a b : Rat) : Bool := decide (5 / 10000 < a - b) || decide (5 / 10000 < b - a)
        let flags := common + (if off target.1 moved.1 || off target.2 moved.2 then 1 else 0) + (if 1 < m then 2 else 0) +
          (if (List.zip ps dots).any fun e => decide (e.2.2 < e.1.iref) then 8 else 0) + (if gov then 64 else 0)
        let lit := List.zipWith (fun (e : Prim × (Nat × Rat)) (x : Rat) => (e.1.slot, roundRat (x * 16384), e.2.1)) (List.zip ps dots) ds
        let rest := (lampSinks s k).filterMap fun m =>
          let p := slotOf (s.chan (lx m)).act
          if us.any fun e => decide (e.1 = p) then none else some (p, 0, 0)
        some ⟨flags, lit ++ rest⟩

end Sys2Proof.Machine
end

