-- ==== Sys2Proof/Machine/Light.lean ====
section
/-! DEFINITION. The events and commands of LUX: matrix, frame buffers, LXSYNC, calibration, lamps, diagnosis (R298–R320).
The readings and choices it rests on: notes/assumptions/38. -/

namespace Sys2Proof.Machine

/-! The matrix (R298–R302). -/

/-- The scan settings as the registers give them. -/
def mxRegs (s : State) : MxCfg :=
  { rows := clampN 1 12 (s.regFld 0xA2F003 0 4), per := clampN 2500 10000 (s.regN 0xA2F004),
    sync := s.regBit 0xA2F003 4, edge := s.regBit 0xA2F003 5 }
/-- The scan settings of the frame in progress. -/
def mxCfg (s : State) : MxCfg := if s.lux.live then s.lux.cfg else mxRegs s
/-- T_slot in LUX cycles of 10 ns. -/
def slotTime (s : State) : Nat :=
  let c := mxCfg s
  (if c.sync then c.per * 90 else c.per * 100) / c.rows
/-- The active time of a slot in LUX cycles, after 2 µs of blanking. -/
def slotActive (s : State) : Nat := slotTime s - 200
/-- The slot of a row opens now: its time in the frame has come, and no later row's slot has opened in it (R298). -/
def slotOpens (s : State) (r : Nat) : Bool :=
  let t := 100 * (s.now - s.lux.frameAt)
  decide (r * slotTime s < t + 100) && decide (t < (r + 1) * slotTime s) && (match s.lux.slot with
    | some (q, _) => decide (q < r)
    | none => true)
/-- FB_CMD: SWAP and LOAD read 1 while the swap and the load they started wait or run (R12, Table 10.11). -/
def fbCmdWord (s : State) : Word := packBits [(0, s.lux.swPend), (1, s.lux.load.isSome)]
/-- LUX_CALCMD: LOAD reads 1 while the copy runs (R12, Table 10.11). -/
def calCmdWord (s : State) : Word := packBits [(0, s.lux.calBusy)]
/-- A word of a frame buffer. -/
def bufWord (s : State) (one : Bool) (k : Nat) : Word := s.reg (0xA24000 + (if one then 0x480 else 0) + k)
/-- FB_STAT (Table 10.11). -/
def fbStat (s : State) : Word :=
  packBits [(0, s.lux.front), (1, s.lux.swPend), (2, s.lux.load.isSome), (3, s.lux.lerr), (4, s.lux.syncLost)] |||
    pack [(8, s.lux.frames % 256)]

/-- The columns measured in the frame that ends take their points (R314). -/
def columnPoints (s : State) : State :=
  let s1 := s.lux.measured.eraseDups.foldl (fun t n =>
    if (t.chan (lx n)).on then evidence (lx n) (decide (n ∈ s.lux.sound)) t else t) s
  { s1 with lux := { s1.lux with measured := [], sound := [] } }

/-- A frame starts: columns' points, a pending swap, the settings, new settings of the columns (R293, R298, R300,
R308). -/
def frameStart (s : State) : State :=
  let s1 := columnPoints s
  let swap := s1.lux.swPend && s1.lux.load.isNone && !islHeld .lux s1
  let s2 := { s1 with lux := { s1.lux with
    front := if swap then !s1.lux.front else s1.lux.front, swPend := s1.lux.swPend && !swap,
    frames := (s1.lux.frames + 1) % 256, cfg := if s1.regBit 0xA2F005 0 then mxRegs s1 else s1.lux.cfg, live := true,
    slot := none, frameAt := s1.now } }
  let s3 := if swap then luxEvent 0 none s2 else s2
  luxColumns (allSinks.foldl (fun t n => if isColumn t n && (t.chan (lx n)).on then loadSink n t else t) s3)

/-- FRAME_START: a frame timed internally: the first one at once, each other FR_PERIOD after the last (R298, R301). -/
def execFrameStart (s : State) : Out :=
  .next (if matrixRuns s && (!s.lux.live ||
      ((!(mxCfg s).sync || s.lux.syncLost) && decide (s.lux.frameAt + (mxCfg s).per ≤ s.now))) then frameStart s else s)

/-- The frames without break in which a pixel was below OPEN_ON; at four its bit of LUX_PIXFAULT is set. A frame in which
it was not measured breaks the run (R314). -/
def pixelSeen (row n : Nat) (below : Bool) (s : State) : State :=
  let key := 96 * row + n
  let k := if below then satInc 4 (s.lux.below.get (fun _ => 0) key) else 0
  let s1 := { s with lux := { s.lux with below := s.lux.below.set (fun _ => 0) key k } }
  if k = 4 then s1.setRegBit (0xA24900 + 6 * row + n / 16) (n % 16) true else s1

/-- The current measured in a column, in µA. -/
def columnCurrent (cur : List (Fin 96 × Nat)) (n : Nat) : Nat :=
  match cur.find? fun e => decide (e.1.val = n) with
  | some e => e.2
  | none => 0

/-- ROW_SLOT: the row's pixels light, and those with 5 µs of on-time are measured (R298, R299, R314). A column that `cur`
does not name carried no current. -/
def execRowSlot (row : Fin 12) (parityBad : List (Fin 96)) (cur : List (Fin 96 × Nat)) (s : State) : Out :=
  if !matrixRuns s || !s.lux.live || decide ((mxCfg s).rows ≤ row.val) || !slotOpens s row then .next s
  else
    let mx := s.chan (lx (96 + row))
    let dark := !mx.on || decide (modeOf mx.act ≠ 3) || mx.mar.isSome
    let cols := if dark then [] else allSinks.filter fun n => isColumn s n && (s.chan (lx n)).on
    let bad (n : Nat) : Bool := parityBad.any fun b => decide (b.val = n)
    let pix (n : Nat) : Nat := if bad n then 0 else fld (bufWord s s.lux.front (96 * row.val + n)) 0 12
    let lit := (cols.filter fun n => decide (pix n ≠ 0)).map fun n => (n, pix n * slotActive s / 4096)
    let s1 := (cols.filter bad).foldl (fun t _ => t.raise 135 none) { s with lux := { s.lux with slot := some (row.val, lit) } }
    let meas : List Nat := (lit.filter fun e => decide (500 ≤ e.2)).map (·.1)
    let low (n : Nat) : Bool := (meas.contains n) && decide (columnCurrent cur n < (wd (s.chan (lx n)).pf 9).toNat)
    let s2 := allSinks.foldl (fun t n => pixelSeen row n (low n) t) s1
    .next { s2 with lux := { s2.lux with
      measured := meas ++ s2.lux.measured, sound := (meas.filter fun n => !low n) ++ s2.lux.sound } }

/-- A swap is requested (R300). -/
def swapRequest (s : State) : State := { s with lux := { s.lux with swPend := true } }
/-- FB_LOAD as an address. -/
def fbLoad (s : State) : Nat := s.regN 0xA2F008 + 65536 * s.regFld 0xA2F009 0 8
/-- A frame load starts, or is refused with LERR; the words the program stored before are in it (R302). -/
def frameLoad (s : State) : State :=
  if s.lux.load.isSome then s
  else
    let a := fbLoad s
    if !inSram a 1152 then { s with lux := { s.lux with lerr := true } }
    else
      let copy := (List.range 1152).foldl (fun m k => Sparse.set (fun _ => 0#16) m k (s.memWord (a + k))) ([] : Sparse Word)
      { s with lux := { s.lux with load := some (a, copy), lerr := false,
                                   loadBad := s.anyDbe a 1152 } }
/-- A write of FB_CMD. -/
def fbCmd (v : Word) (s : State) : State :=
  let s1 := if bit v 1 then frameLoad s else s
  if bit v 0 then swapRequest s1 else s1

/-- FRAME_LOAD_COMPLETE: the copy is in the back buffer; after a double-bit error a part of it (R302). -/
def execFrameLoadComplete (s : State) : Out :=
  match s.lux.load with
  | none => .next s
  | some (a, copy) =>
    let back := 0xA24000 + (if s.lux.front then 0 else 0x480)
    let (m, s1) := settleCopy a copy (List.range 1152) [] s
    let s2 := (List.range 1152).foldl (fun t k =>
      let put := t.setReg (back + k) (m.get (fun _ => 0#16) k &&& 0x0FFF#16)
      if s.lux.loadBad then (if t.freeBool then put else t).used else put) s1
    let s3 := memBurst .lux 3 1152 { s2 with lux := { s2.lux with load := none, loadBad := false, lerr := s.lux.loadBad } }
    .next (if s.lux.loadBad then s3.raiseIsl .lux 1 none else s3)

/-- A write to a frame buffer, or what discards it (R300). -/
def bufferWrite (r : Requester) (k : Nat) (v : Word) (s : State) : State :=
  let front := decide (1152 ≤ k) == s.lux.front
  if front || s.lux.load.isSome || !ownerAllows (s.regFld 0xA2F00A 0 4) r then s.setRegBit 0xA2F013 4 true
  else s.setReg (0xA24000 + k) (v &&& 0x0FFF#16)

/-- LXSYNC_EDGE: an edge of the selected direction starts a frame from 0.9 × FR_PERIOD after the last start on; an earlier
one is counted (R301). -/
def execLxsyncEdge (rising : Bool) (s : State) : Out :=
  let c := mxCfg s
  if !matrixRuns s || !c.sync || decide (rising = c.edge) then .next s
  else if s.lux.live ∧ 10 * (s.now - s.lux.frameAt) < 9 * c.per then
    .next (s.setRegFld 0xA2F00B 0 8 (satInc 255 (s.regFld 0xA2F00B 0 8)))
  else
    let s1 := { s with lux := { s.lux with misses := 0, syncLost := false } }
    .next (frameStart (s1.level 134 false))

/-- LXSYNC_MISS: no edge by 1.1 × FR_PERIOD; the eighth in a row sets SYNCLOST (R301). -/
def execLxsyncMiss (s : State) : Out :=
  if !matrixRuns s || !s.lux.live || !(mxCfg s).sync || s.lux.syncLost ||
      decide (10 * (s.now - s.lux.frameAt) < 11 * (mxCfg s).per) then .next s
  else
    let s1 := s.setRegFld 0xA2F00B 8 8 (satInc 255 (s.regFld 0xA2F00B 8 8))
    let lost := decide (8 ≤ s1.lux.misses + 1)
    let s2 := { s1 with lux := { s1.lux with misses := s1.lux.misses + 1, syncLost := lost } }
    .next (frameStart (if lost then luxEvent 1 none (s2.level 134 true) else s2))

/-! Calibration (R304, R305). -/

/-- A record's 24 words are valid (R304). -/
def calRecordOk (w : List Word) : Bool :=
  let n := fld (wd w 1) 0 2 + 1
  let prim (p : Nat) : Bool :=
    let k := 4 + 5 * p
    decide (wd w (k + 1) ≠ 0) && decide (wd w (k + 2) ≠ 0) && decide (250 ≤ (wd w (k + 3)).toNat) && decide ((wd w (k + 3)).toNat ≤ 60000)
  let pt (p : Nat) : Pt := (((wd w (4 + 5 * p)).toNat : Rat), ((wd w (5 + 5 * p)).toNat : Rat))
  decide (wd w 0 = 0x4C43#16) && decide (crc16 (wd w 1 :: (w.drop 3).take 21) = wd w 2) && decide (fld (wd w 1) 2 6 = 0) &&
    (List.range n).all prim &&
    (if n = 4 then
      match bary (pt 0) (pt 1) (pt 2) (pt 3) with
      | some (x, y, z) => decide (0 ≤ x) && decide (0 ≤ y) && decide (0 ≤ z)
      | none => false
    else true)

/-- A write of LUX_CALCMD starts the copy (R305). -/
def calCmd (v : Word) (s : State) : State :=
  if bit v 0 && !s.lux.calBusy then { s.setRegBit 0xA2F00D 1 true with lux := { s.lux with calBusy := true } } else s

/-- CALIBRATION_SWAP: the copy of generation `g` is made; the banks swap or the old one stays (R305). -/
def calSwap (g : Nat) (s : State) : State :=
  let base := 0x900000 + 0x10000 * g + 0xF600
  let s0 := memBurst .lux 1 1536 { s with lux := { s.lux with calBusy := false } }
  let stat := 0xA2F00D
  if s.anyDbe base 1536 then
    (s0.raiseIsl .lux 1 none).setReg stat (putFld (putBit (s.reg stat) 1 false) 2 2 3)
  else
    let rec_ (k : Nat) := s.memList (base + 24 * k) 24
    let valid := (List.range 64).filter fun k => calRecordOk (rec_ k)
    match (List.range 64).find? fun k => (leaderOf s k).isSome && decide (k ∉ valid) with
    | some k => s0.setReg stat (putFld (putFld (putBit (s.reg stat) 1 false) 2 2 2) 4 6 k)
    | none =>
      let bank := (List.range 1536).foldl (fun m k => Sparse.set (fun _ => 0#16) m k (s.memWord (base + k))) ([] : Sparse Word)
      let bad := ((List.range 64).find? fun k => decide (k ∉ valid)).getD 0
      let s1 := { s0 with lux := { s0.lux with cal := bank } }
      let s2 := s1.setReg stat (pack [(0, 1), (2, 1), (4, bad)])
      let s3 := (List.range 4).foldl (fun t j => t.setReg (0xA2F00E + j)
        (packBits ((List.range 16).map fun b => (b, decide (16 * j + b ∈ valid))))) s2
      (List.range 64).foldl (fun t k => if (leaderOf t k).isSome then lampTrigger k t else t) s3

/-! Lamps (R306–R311). -/

/-- A write of LUX_GC (R308). -/
def gcWrite (v : Word) (s : State) : State :=
  let s1 := s.plainWrite 0xA2F000 v
  let s2 := { s1 with lux := { s1.lux with gcPend := true, gcDone := [] } }
  gcSettle ((List.range 64).foldl (fun t k => if (leaderOf t k).isSome then lampTrigger k t else t) s2)

/-- The derating of one LUX channel is formed anew, frozen in hold (R309). -/
def derateSink (n : Nat) (s : State) : State :=
  let c := s.chan (lx n)
  if c.hold then s
  else
    let (t, bad) := lampSource s n
    let s1 := s.modSink n fun k => { k with hist := (t :: k.hist).take 100, tsrcBad := bad }
    let d := derate (wd c.pf 14) (lampTemp s1 n)
    s1.modSink n fun k => { k with drf := d }

/-- LAMP_EVALUATION_TICK: every 10 ms temperatures and factors are formed and each lamp is evaluated (R307, R309). -/
def execLampEvaluationTick (tdie : Int) (s : State) : Out :=
  if !s.running .lux then .next s
  else
    let s1 := s.setReg 0xA2F016 (wordOfInt tdie)
    let s2 := allSinks.foldl (fun t n =>
      let c := t.chan (lx n)
      if decide (modeOf c.act = 2) && decide (fld (wd c.pf 14) 0 8 ≠ 0) && c.mar.isNone then derateSink n t else t) s1
    .next ((List.range 64).foldl (fun t k =>
      match leaderOf t k with
      | none => t
      | some n =>
        let t1 := derateSink n t
        lampTrigger k ((t1.setReg (0xA2F040 + k) (w16 (t1.sink n).drf)).setReg (0xA2F080 + k) (wordOfInt (lampTemp t1 n)))) s2)

/-- LAMP_EVALUATION_DONE: the result of a triggered evaluation is ready; usable primaries or a ceiling that changed
trigger one as well (R306, R307). -/
def execLampEvaluationDone (k : Fin 64) (s : State) : Out :=
  match leaderOf s k with
  | none => .next s
  | some n =>
    let l := s.lamp k
    let us := (usableSlots s k).map (·.1)
    let ceil := (s.chan (lx n)).ceil
    if !s.running .lux || !(l.evaluating || decide (us ≠ l.usable) || decide (ceil ≠ l.ceil)) then .next s
    else
      let (r, s1) := match evalLamp s k n with
        | some r => (r, s)
        | none => freeResult s n
      let s2 := s1.modLamp k fun l => { l with evaluating := false, ready := some r, flags := r.flags, usable := us, ceil := ceil }
      let news := (35 : Nat).land r.flags ≠ (35 : Nat).land (r.flags.land l.flags)
      .next (gcSettle (if news then luxEvent 2 (some n) s2 else s2))
where
  /-- What the equations do not give is free; the flags that do not rest on them are as they are. -/
  freeResult (s : State) (n : Nat) : LampResult × State :=
    let c := s.chan (lx n)
    let common := (if fld (wd c.pf 14) 0 8 ≠ 0 ∧ (s.sink n).drf < 32768 then 4 else 0) + (if (s.sink n).tsrcBad then 16 else 0) +
      (if lampLost s k then 32 else 0)
    let free := (State.freeBelow 128 s).land 75
    let (ss, s1) := (lampSinks s k).foldl (fun (a : List (Nat × Nat × Nat) × State) m =>
      let p := slotOf (a.2.chan (lx m)).act
      let on := State.freeBelow 16385 a.2
      let dot := State.freeBelow 1024 a.2.used
      (a.1 ++ [(p, on, dot)], a.2.used.used)) (([] : List (Nat × Nat × Nat)), s.used)
    (⟨common + free, ss⟩, s1)

/-- A period boundary of a LUX channel: a leader's result takes effect on every sink of its lamp together, and its sinks
that wait for the boundary start; a sink outside a lamp loads its setting and duty (R293, R307). -/
def luxBoundary (n : Nat) (s : State) : State :=
  if 96 ≤ n ∨ !isBoundary s (lx n) then s
  else
    let c := s.chan (lx n)
    if isLeaderSet c.act && c.carries.isNone && c.mar.isNone then
      let k := lampNo c.act
      let s1 := match (s.lamp k).ready with
        | none => s
        | some r =>
          let t := (lampSinks s k).foldl (fun t m =>
            let d := driverOf t m
            if (t.chan (lx d)).hold then t
            else match r.slots.find? fun e => decide (e.1 = slotOf (t.chan (lx m)).act) with
              | some (_, on, dot) => t.modSink d fun x => { x with on14 := on, dot := dot }
              | none => t) s
          t.modLamp k fun l => { l with ready := none }
      (lampSinks s1 k).foldl (fun t m => luxTry (driverOf t m) (loadSink (driverOf t m) t)) s1
    else if (lampOf s n).isSome || isColumn s n || !c.on then s
    else loadSink n s

/-- PERIOD_BOUNDARY: a pending snapshot is applied, a lamp result takes effect (R193, R307). -/
def execPeriodBoundary (ch : ChanRef) (s : State) : Out :=
  if !ch.ok then .fault .noSuchUnit
  else
    let s1 := periodBoundary ch s
    .next (if ch.isl = .lux then luxBoundary ch.idx s1 else s1)

/-! Diagnosis (R312–R314). -/

/-- LS_SHORT_TRIP: the terminal of a conducting sink has been at or above SHORT_V for the last `us` microseconds of
on-time, `v` in 10 mV: 50 µs of it trip; SHORT_V = 0 turns the check off (Table 10.9). -/
def execLsShortTrip (n : Fin 96) (v us : Nat) (s : State) : Out :=
  let c := s.chan (lx n)
  let lim := fld (wd c.pf 15) 8 8
  .next (if c.on ∧ lim ≠ 0 ∧ 25 * lim ≤ v ∧ 50 ≤ us then countedTrip (lx n) 4 s else s)

/-- The row switches' short comparator, 10 A: `i` in 10 mA, trips SHORT_GND (R314, Table 10.1). -/
def luxShortTrip (n i : Nat) (s : State) : State :=
  if 96 ≤ n ∧ (s.chan (lx n)).on ∧ 1000 ≤ i then countedTrip (lx n) 3 s else s
/-- A sink has no trip at a limit: it is a current source. -/
def luxLimitTrip (_n : Nat) (s : State) : State := s

/-- The on-time of a sink lies below 5 µs (R313). -/
def lsLowDuty (s : State) (n : Nat) : Bool :=
  let c := s.chan (lx n)
  c.on && (decide (modeOf c.set = 2) || isLeaderSet c.set || isMemberSet c.set) && decide (lsCycles s n < 500)
/-- Per-pulse sampling is in use (R313). -/
def lsEts (s : State) (n : Nat) : Bool :=
  lsLowDuty s n && bit (wd (s.chan (lx n)).pf 12) 1 && decide (200 ≤ lsCycles s n)

/-- Time since the last on-edge of a conducting sink in µs; a sink in PWM or of a lamp has one each period. -/
def lsAge (s : State) (n : Nat) : Nat :=
  let c := s.chan (lx n)
  let since := s.now - c.onAt
  if modeOf c.set = 2 ∨ (lampOf s n).isSome then Nat.min since (periodTime s (lx n)) else since

/-- The on-state readings of a sink, from 3 µs after the on-edge on and within the on-time; the row current of an MX. A
column's points come from its slots (Tables 10.1, 10.4 and 10.9). -/
def luxMeasure (n : Nat) (m : Measure) (s : State) : State :=
  if 96 ≤ n then s.setReg ((lx n).port 0x1E) (wordOfInt m.i)
  else
    let c := s.chan (lx n)
    let age := lsAge s n
    let takes := match m.kind with
      | .onState => c.on && !lsLowDuty s n && !isColumn s n && decide (3 ≤ age) &&
          (decide (modeOf c.set = 1) || decide (100 * age ≤ lsCycles s n))
      | .ets => lsEts s n
      | _ => false
    let i : Int := ((s.sink n).iset : Int)
    if !takes then s
    else
      let s1 := s.setReg ((lx n).port 0x12) (wordOfInt m.i)
      if 9 * i ≤ 10 * m.i ∧ 10 * m.i ≤ 11 * i then evidence (lx n) true s1
      else if m.i < ((wd c.pf 9).toNat : Int) then evidence (lx n) false s1
      else s1

/-- The off-state check of a sink, every 10 ms while it is OFF; sources are off while the matrix scans and outside Run
(R91, R312, R315). -/
def luxOffCheck (n v : Nat) (s : State) : State :=
  let c := s.chan (lx n)
  if 96 ≤ n ∨ modeOf c.set ≠ 0 ∨ !bit (wd c.pf 12) 0 ∨ c.reason ≠ 0 ∨ bandOff s (lx n) ∨ matrixRuns s ∨ s.mode ≠ .run ∨
      !offDue s c then s
  else
    let s0 := noteOff (lx n) s
    if (wd c.pf 10).toNat ≤ v then evidence (lx n) true (s0.modSink n fun k => { k with low := 0 })
    else if 100 ≤ v then evidence (lx n) false (s0.modSink n fun k => { k with low := 0 })
    else
      let k := (s0.sink n).low + 1
      let s1 := (s0.modSink n fun d => { d with low := Nat.min k 3 }).modChan (lx n) fun c => { c with okRun := 0, openRun := none }
      if 3 ≤ k then (s1.modChan (lx n) fun c => { c with outcome := some 3 }).diag (lx n) 4 else s1

/-! Status words (Tables 10.4, 10.6 and 10.11). -/

/-- STATE.OUT of a LUX channel. -/
def luxOut (s : State) (n : Nat) : Nat :=
  let c := s.chan (lx n)
  if c.reason ≠ 0 then 7
  else if safeHeld s (lx n) then 0
  else if c.latch then 6
  else if modeOf c.set = 0 then 0
  else if c.pause.isSome then 5
  else if c.on then modeOf c.set else 0
/-- STAT_A. -/
def luxStatA (s : State) (n : Nat) : Word := if n < 96 ∧ (s.chan (lx n)).on then w16 (s.sink n).on14 else 0
/-- STAT_B. -/
def luxStatB (s : State) (n : Nat) : Word :=
  if 96 ≤ n then s.reg ((lx n).port 0x1E) else if (s.chan (lx n)).on then w16 (s.sink n).iset else 0
/-- STAT_C. -/
def luxStatC (s : State) (n : Nat) : Word :=
  let c := s.chan (lx n)
  let flags := if isLeaderSet c.act ∧ c.carries.isNone then (s.lamp (lampNo c.act)).flags else 0
  w16 flags ||| packBits [(7, decide (n < 96) && lsLowDuty s n), (8, decide (n < 96) && lsEts s n)]
/-- LAMP_LEAD. -/
def lampLead (s : State) (k : Nat) : Word :=
  match leaderOf s k with
  | some n => pack [(0, n), (7, 1), (8, ((lampSinks s k).filter fun m => sinkUsable s m).length)]
  | none => 0

end Sys2Proof.Machine
end

