-- ==== Sys2Proof/Machine/Switch.lean ====
section
/-! DEFINITION. The events of SW's channels and governor (R228–R261), and the retry events every output island shares
(R205, R233).
The readings and choices it rests on: notes/assumptions/6, 34, 35, 41. -/

namespace Sys2Proof.Machine

/-- A happening of SW_EV_FLAG with its routed event (R260). -/
def swEvent (k : Nat) (ch : Option Nat) (s : State) : State :=
  let s1 := match ch with
    | some n => s.setReg 0xA0F02B (w16 n)
    | none => s
  let s2 := s1.setRegBit 0xA0F02A k true
  if s2.regBit 0xA0F029 (9 + k) then s2.route (s2.reg 0xA0F029) else s2

/-- RETRY_PAUSE_END: the pause has elapsed and the channel waits at its restart gate (R205, R233). -/
def execRetryPauseEnd (ch : ChanRef) (s : State) : Out :=
  if !ch.ok then .fault .noSuchUnit
  else
    let c := s.chan ch
    if c.pauseRun.isSome ∧ pauseLeft s c = some 0 ∧ c.reason = 0 then
      let s1 := s.setChan ch { c.resetEvidence with pause := none, pauseRun := none }
      .next (match ch.isl with
        | .act => tryBank (ch.idx / 4) s1
        | _ => tryStart ch s1)
    else .next s

/-- FORGIVE_EXPIRY: FORGIVE of quiet time has been gathered; one count is forgiven and the quiet time starts again (R205,
R233). -/
def execForgiveExpiry (ch : ChanRef) (s : State) : Out :=
  if !ch.ok then .fault .noSuchUnit
  else
    let c := s.chan ch
    if wd c.pf 7 ≠ 0 ∧ c.count ≠ 0 ∧ c.reason = 0 ∧ 100000 * (wd c.pf 7).toNat ≤ quietTime s c then
      .next (restartQuiet ch (s.setChan ch { c with count := c.count - 1 }))
    else .next s

/-- RECUR_AGEING: the counted trips that have left the recurrence window no longer count (R205). -/
def execRecurAgeing (ch : ChanRef) (s : State) : Out :=
  if !ch.ok then .fault .noSuchUnit
  else .next (s.modChan ch fun c => { c with recur := recurNow s.now c })

/-! What an SW stage drives (R256). -/

/-- The sides that are on: the high one and the low one. -/
abbrev Sides := Bool × Bool

/-- An SW channel's sides during its on-time and outside it (Table 8.17, Table 3.3, R258). A stage that is off, or held off,
drives neither; an HS channel has no low side. -/
def swSides (s : State) (ch : ChanRef) : Sides × Sides :=
  let c := s.chan ch
  let hb := decide (64 ≤ ch.idx)
  let none : Sides × Sides := ((false, false), (false, false))
  if c.reason ≠ 0 ∨ c.latch ∨ c.pause.isSome ∨ bandOff s ch ∨ safeHeld s ch then none
  else match c.stallAct with
    | some (a, _) => if a = 2 then ((false, true), (false, true)) else none
    | _ =>
      if !c.on then none
      else if modeOf c.set = 1 then
        (let low := hb && bit (wd c.set 0x0D) 0
         ((!low, low), (!low, low)))
      else if hb && (decide (s.band = .over) || c.atEdge) then ((false, true), (false, true))
      else ((true, false), (false, hb && !bit (wd c.set 0x0D) 1))
/-- A side is on in some part of the period. -/
def sideOn (s : State) (ch : ChanRef) (side : Side) : Bool :=
  let (a, b) := swSides s ch
  match side with
  | .high => a.1 || b.1
  | .low => a.2 || b.2

/-- The section voltage of a channel in 20 mV (PWR_VSEC). -/
def sectionVolt (s : State) (ch : ChanRef) : Nat :=
  match ch.section with
  | some k => s.regN (0xA70106 + k)
  | none => 0
/-- A terminal, in 10 mV, lies below one third of its section voltage while the stage drives it high (R230). -/
def pulledLow (s : State) (ch : ChanRef) (term : Nat) : Bool :=
  decide (3 * term < 2 * sectionVolt s ch) && sideOn s ch .high
/-- The diagnosis of a trip under Table 8.8 (R230). -/
def limitCode (s : State) (ch : ChanRef) (term : Nat) : Nat := if pulledLow s ch term then 3 else 2
/-- The limit in force of an SW channel in 10 mA (R222). -/
def swLimit (c : Chan) (n : Nat) : Nat := c.win.getD (swSteady c n)
/-- The filter time of a trip in µs, by load type, inside the inrush window or after it; none where the current is
regulated (Table 8.8). -/
def limitFilter (t : Nat) (inWindow : Bool) : Option Nat :=
  match t, inWindow with
  | 0, true => none
  | 0, false => some 100
  | 1, _ => some 10
  | 2, true => some 200
  | 2, false => some 1000
  | 3, true => some 100
  | 3, false => some 1000
  | 5, true => none
  | _, _ => some 50

/-- SHORT_COMPARATOR_TRIP: the current of a side that is on crosses the comparator's threshold, in every state of the
stage (R230, Tables 8.1, 9.2, 10.1 and 11.6). -/
def execShortComparatorTrip (ch : ChanRef) (side : Side) (i : Nat) (s : State) : Out :=
  if !ch.ok then .fault .noSuchUnit
  else
    match ch.isl with
    | .sw =>
      if sideOn s ch side && decide ((swClass ch.idx).short ≤ i) then
        .next (countedTrip ch (match side with | .high => 3 | .low => 4) s)
      else .next s
    | .act => .next (actShortTrip ch.idx side i s)
    | .lux => .next (luxShortTrip ch.idx i s)
    | .fld => .next (fldShortTrip ch.idx side i s)

/-- LIMIT_TRIP: the current has been above the limit in force for the last `us` microseconds of on-time: inside the window of
a regulating load type it is held at the limit; for the others it trips once the filter time has passed (R229, R230,
Table 8.8). -/
def execLimitTrip (ch : ChanRef) (i us term : Nat) (s : State) : Out :=
  if !ch.ok then .fault .noSuchUnit
  else
    let c := s.chan ch
    if !c.on then .next s
    else
      match ch.isl with
      | .sw =>
        if i ≤ swLimit c ch.idx then .next s
        else match limitFilter (fld (wd c.pf 0) 0 3) c.win.isSome with
          | none => .next (s.setChan ch { c with regul := true })
          | some f => if f ≤ us then .next (countedTrip ch (limitCode s ch term) s) else .next s
      | .act => .next (actLimitTrip ch.idx s)
      | .lux => .next (luxLimitTrip ch.idx s)
      | .fld => .next (fldLimitTrip ch.idx i us term s)

/-- Waiting retries of a cluster go at the end of its last inrush window, the oldest first (R243, R244). -/
def clusterRetries (k : Nat) (s : State) : State :=
  let w := OutIsl.sw.chans.filter fun d => decide (swCluster d.idx = k) && (s.chan d).retry
  let before (a b : ChanRef) : Bool :=
    decide ((s.chan a).tripAt < (s.chan b).tripAt) || (decide ((s.chan a).tripAt = (s.chan b).tripAt) && decide (a.idx ≤ b.idx))
  (w.mergeSort before).foldl (fun t d => tryStart d t) s

/-- INRUSH_WINDOW_END: the window has run its length; a capacitive input whose terminal is not within 1.0 V of the section
voltage trips (Table 8.8); waiting retries of the cluster may go (R244). -/
def execInrushWindowEnd (ch : ChanRef) (term : Nat) (s : State) : Out :=
  if !ch.ok then .fault .noSuchUnit
  else
    let c := s.chan ch
    if c.win.isNone ∨ s.now < c.winEnd then .next s
    else match ch.isl with
      | .fld => .next (s.setChan ch { c with win := none, regul := false })
      | .sw =>
        let s1 := s.setChan ch { c with win := none, regul := false, tlstart := 0 }
        let s2 := if fld (wd c.pf 0) 0 3 = 5 ∧ term + 100 < 2 * sectionVolt s ch then countedTrip ch (limitCode s ch term) s1 else s1
        .next (clusterRetries (swCluster ch.idx) s2)
      | _ => .next s

/-- TJ and DT of a port take a sample (R190, R234). -/
def putThermal (ch : ChanRef) (t : Therm) (s : State) : State :=
  (s.setReg (ch.port 0x13) (wordOfInt t.tj)).setReg (ch.port 0x14) (wordOfInt (if ch.isl = .fld then 0 else t.tj - t.tcase))

/-- The thermal latch of a channel sets and turns it off (R231, R234). -/
def latchSet (ch : ChanRef) (t : Therm) (s : State) : State :=
  let c := s.chan ch
  let s1 := putThermal ch t s
  let regStart := decide (ch.isl = .sw) && c.win.isSome && c.on && decide (fld (wd c.pf 0) 0 3 = 0 ∨ fld (wd c.pf 0) 0 3 = 5)
  let latches := if regStart then c.tlstart + 1 else c.tlstart
  let s2 := ((stopChan ch (s1.modChan ch fun c => { c with latch := true })).modChan ch fun c => { c with tlstart := latches }).diag ch 7
  let s3 := (s2.raiseIsl ch.isl.island 5 (some ch.idx))
  let s4 := match ch.isl with
    | .sw => swEvent 2 (some ch.idx) s3
    | .act => actEvent 3 (some ch.idx) none s3
    | .lux => luxEvent 3 (some ch.idx) s3
    | .fld => fldEvent 3 (some (ch.idx, true)) s3
  let s5 := if 3 ≤ latches then countedTrip ch 2 s4 else s4
  refreshQuiet ch (refreshPause ch s5)

/-- A sample of an SW channel lies below its restart thresholds (R234). -/
def swCool (c : Chan) (t : Therm) : Bool := decide (t.tj ≤ 1500) && decide (t.tj - t.tcase ≤ ((dtLimit c : Int) - 10) * 10)

/-- The channel's thermal limits at two consecutive samples (R234; of the two limits of SW, the same at both; the other
islands' are their chapters'). -/
def thermalOver (s : State) (ch : ChanRef) (a b : Therm) : Bool :=
  match ch.isl with
  | .sw =>
    let lim : Int := dtLimit (s.chan ch) * 10
    (decide (1750 ≤ a.tj) && decide (1750 ≤ b.tj)) || (decide (lim ≤ a.tj - a.tcase) && decide (lim ≤ b.tj - b.tcase))
  | .act => actHot a b
  | .lux => luxHot a b
  | .fld => fldHot a b

/-- The channel has cooled below its restart thresholds at two consecutive samples. -/
def thermalCool (s : State) (ch : ChanRef) (a b : Therm) : Bool :=
  match ch.isl with
  | .sw => swCool (s.chan ch) a && swCool (s.chan ch) b
  | .act => actCool a b
  | .lux => luxCool a b
  | .fld => fldCool a b

/-- THERMAL_LATCH_SET (R234, R287, R292, R342). -/
def execThermalLatchSet (u : ThermRef) (a b : Therm) (s : State) : Out :=
  match u with
  | .chan ch =>
    if !ch.ok then .fault .noSuchUnit
    else if (s.chan ch).latch ∨ !thermalOver s ch a b then .next s
    else .next (latchSet ch b s)
  | .bank k => .next (bankLatchSet k a b s)

/-- THERMAL_LATCH_CLEAR (R234, R287, R292, R342). -/
def execThermalLatchClear (u : ThermRef) (a b : Therm) (s : State) : Out :=
  match u with
  | .chan ch =>
    if !ch.ok then .fault .noSuchUnit
    else if !(s.chan ch).latch ∨ !thermalCool s ch a b then .next s
    else
      .next (tryStart ch (refreshQuiet ch (refreshPause ch ((putThermal ch b s).modChan ch fun c => { c with latch := false }))))
  | .bank k => .next (bankLatchClear k a b s)

/-- WIRE_MODEL_UPDATE: T_w moves by R236; at the limit the channel trips and locks, 10 K below it unlocks (R237).
`meanSquare` is the mean of the squared current in (10 mA)². -/
def execWireModelUpdate (ch : ChanRef) (meanSquare : Nat) (s : State) : Out :=
  if !ch.ok ∨ ch.isl ≠ .sw then .fault .noSuchUnit
  else
    let c := s.chan ch
    let w := if s.regBit (OutIsl.sw.oib + 3) 0 ∨ c.mar.isSome ∨ c.prof ≠ [] then fld (wd c.pf 4) 0 3 else 0
    let (i50, tau) := wireConst w
    let t := wireTemp s c
    let rise : Rat := 50 * ((meanSquare : Rat) / 10000) / ((i50 * i50 : Nat) : Rat)
    let t1 := t + (1 / ((tau * 1000 : Nat) : Rat)) * ((wireAmb s : Rat) + rise - t)
    let lim : Rat := (wireLimit c : Rat)
    let s1 := s.setChan ch { c with wireT := some t1 }
    if lim ≤ t1 ∧ !c.wirelock ∧ c.on then
      let s2 := s1.modChan ch fun c => { c with wirelock := true }
      let s3 := countedTrip ch 2 (s2.diag ch 8)
      .next (swEvent 3 (some ch.idx) (s3.raise 86 (some ch.idx)))
    else if c.wirelock ∧ t1 ≤ lim - 10 then
      let s2 := s1.modChan ch fun c => { c with wirelock := false }
      let s3 := tryStart ch s2
      .next (match c.carriedBy with
        | some p => tryStart ⟨.sw, p⟩ s3
        | none => s3)
    else .next s1

/-- CHANNEL_START: a waiting channel starts once every condition of its gate holds (R246). -/
def execChannelStart (ch : ChanRef) (s : State) : Out :=
  if !ch.ok then .fault .noSuchUnit else .next (tryStart ch s)

/-! The governor (R239–R242). -/

/-- P_CEIL in 10 mW (R240). -/
def ceiling (lim : Nat) (tbase : Int) : Nat :=
  let d : Int := if tbase ≤ 1050 then 3600 else if tbase ≤ 1150 then 3600 - 24 * (tbase - 1050) else 1200
  Nat.min (Nat.min lim 0x0E10) d.toNat

/-- The floor a ceiling keeps (R241, Table 8.5). -/
def govFloor (ch : ChanRef) (c : Chan) : Nat :=
  match ch.isl with
  | .sw => Nat.max 1 (fld (wd c.set 0x0B) 8 8)
  | _ => 1

/-- Ceilings act on channels with DEFER in PWM or ISLAND (R241). -/
def deferrable (c : Chan) : Bool := bit (wd c.set 0) 3 && (decide (modeOf c.set = 2) || decide (modeOf c.set = 3)) && decide (c.reason = 0)

/-- The ceiling of one channel lowered or raised by 16/256. -/
def govStep (down : Bool) (ch : ChanRef) (s : State) : State :=
  let c := s.chan ch
  if !deferrable c then (if c.ceil = 0 then s else s.setChan ch { c with ceil := 0 })
  else if down then
    let now := if c.ceil = 0 then 256 else c.ceil
    s.setChan ch { c with ceil := Nat.max (govFloor ch c) (now - 16) }
  else if c.ceil = 0 then s
  else s.setChan ch { c with ceil := if 256 ≤ c.ceil + 16 then 0 else c.ceil + 16 }

/-- The channels the governor's ceilings reach: SW, and the sinks of LUX (R241, R310). -/
def govChans : List ChanRef := OutIsl.sw.chans ++ (List.range 96).map fun k => ⟨.lux, k⟩

/-- Waiting starts admitted in their order, to the first that does not fit (R242). -/
def admitWaiting : Nat → State → State
  | 0, s => s
  | n + 1, s =>
    let w := govWaiting s
    match w.find? fun d => w.all fun e => decide (e = d) || govBefore s d e with
    | none => s
    | some d =>
      let c := s.chan d
      let e := startEnergy c d.idx
      if admits s e then
        let s1 := { s.setChan d { c with admitted := true, waitFrom := none } with sw := { s.sw with admitted := (s.now, e) :: s.sw.admitted } }
        admitWaiting n (tryStart d s1)
      else s

/-- A start that has waited longer than GOV_WAITMAX raises the governor wait source once (R242). -/
def waitReports (s : State) : State :=
  (govWaiting s).foldl (fun t d =>
    let c := t.chan d
    if !c.waitRep ∧ (c.waitFrom.getD t.now) + t.regN 0xA0F007 * 1000 < t.now then
      (t.setChan d { c with waitRep := true }).raise 88 (some d.idx)
    else t) s

/-- GOVERNOR_EVALUATION (R239–R242). -/
def execGovernorEvaluation (p : GovInput) (s : State) : Out :=
  if !s.running .sw then .next s
  else
    let pext := p.pAct + p.pLux
    let pnow := p.pSw + pext + 250
    let hist := (pnow :: s.sw.pnow).take 100
    let psum := hist.foldl (· + ·) 0 / hist.length
    let tb := p.tcase.foldl (fun a t => if a < t then t else a) (p.tcase.headD 0)
    let lim := s.regN 0xA0F000
    let ceil := ceiling lim tb
    let held := if ceil ≤ psum then s.sw.overFor + 1 else 0
    let lvl :=
      if s.sw.level = 3 ∧ 95 * ceil ≤ 100 * psum then 3
      else if 100 < held then 3
      else if 95 * ceil ≤ 100 * psum then 2
      else if 85 * ceil ≤ 100 * psum then 1
      else 0
    let raiseIn := if lvl = 0 then s.sw.raiseIn + 1 else 0
    let s1 := { s with sw := { s.sw with pnow := hist, level := lvl, overFor := held,
                                         raiseIn := if raiseIn = 10 then 0 else raiseIn,
                                         admitted := s.sw.admitted.filter fun e => decide (s.now < e.1 + 1000000) } }
    let s2 := s1.setRegList 0xA0F002 [w16 psum, w16 ceil, w16 pnow, wordOfInt tb, w16 pext]
    let s3 := (List.range 8).foldl (fun t k => t.setReg (0xA0F010 + k) (wordOfInt (p.tcase.getD k 0))) s2
    let s4 := s3.setReg 0xA0F001 (pack [(0, lvl)] ||| packBits [(2, decide (ceil < Nat.min lim 0x0E10)), (3, decide (1150 < tb))])
    let s5 := if 2 ≤ lvl then govChans.foldl (fun t c => govStep true c t) s4
      else if raiseIn = 10 then govChans.foldl (fun t c => govStep false c t) s4 else s4
    let s6 := (s5.level 87 (decide (lvl = 3))).level 89 (decide (1150 < tb))
    let e1 := if lvl = 3 ∧ s.sw.level ≠ 3 then swEvent 1 none s6 else s6
    let e2 := if s.running .lux then e1.setReg 0xA2F015 (w16 p.pLux) else e1
    let s7 := if s.running .act then e2.setReg 0xA1F01C (w16 p.pAct) else e2
    .next (waitReports (admitWaiting 77 s7))

/-- GOV_STAT with the count of waiting starts (Table 8.18). -/
def govStat (s : State) : Word := putFld (s.reg 0xA0F001) 8 8 (clampN 0 255 (govWaiting s).length)

/-- SECTION_CURRENT_UPDATE: the 1 ms mean in 100 mA, the RMS over 10 s, the section-current source (R245). -/
def execSectionCurrentUpdate (k : Fin 4) (mean : Nat) (s : State) : Out :=
  if !s.running .sw then .next s
  else
    let ms := (mean :: s.sw.means.get (fun _ => []) k.val).take 10000
    let rms := isqrt (ms.foldl (fun a m => a + m * m) 0 / ms.length)
    let s1 := { s with sw := { s.sw with means := s.sw.means.set (fun _ => []) k.val ms } }
    let s2 := (s1.setReg (0xA0F024 + k) (w16 mean)).setReg (0xA0F020 + k) (w16 rms)
    .next (s2.level (90 + k) (decide (s2.regN 0xA0F028 < rms)))

/-- CLU_STAT (Table 8.18). -/
def cluStat (s : State) (k : Nat) : Word :=
  let w := OutIsl.sw.chans.filter fun d => decide (swCluster d.idx = k)
  let n := (w.filter fun d => decide (swWhy s d = 8)).length
  let win := w.any fun d => (s.chan d).win.isSome
  let age := match clusterLast s k with
    | some t => clampN 0 255 ((s.now - t) / 1000)
    | none => 255
  pack [(0, Nat.min n 15), (8, age)] ||| packBits [(4, win)]

/-! Diagnosis (R250–R254). -/

/-- The on-time of an SW channel in PWM or ISLAND is below 40 µs (R254). -/
def lowDuty (ch : ChanRef) (c : Chan) : Bool :=
  decide (ch.isl = .sw) && pwmSet ch c.set && decide (swOnCycles ch c < 3200)
/-- Equivalent-time sampling is in use: at low duty with ETS, and an on-time of 3 µs or more (R254). -/
def etsUsed (ch : ChanRef) (c : Chan) : Bool := lowDuty ch c && bit (wd c.pf 12) 1 && decide (240 ≤ swOnCycles ch c)

/-- CURRENT_MEASUREMENT: CURRENT, TJ, DT and PDISS, and an evidence point (R250, R254, and the other islands'). An on-state
reading of SW is the mean of a conversion of 10 µs that began 30 µs or more after the on-edge and ends within the on-time;
CURRENT takes no other (R250). A reading below the limit in force shows that it is not being regulated. -/
def execCurrentMeasurement (ch : ChanRef) (m : Measure) (s : State) : Out :=
  if !ch.ok then .fault .noSuchUnit
  else
    let s1 := putThermal ch ⟨m.tj, m.tcase⟩ s
    match ch.isl with
    | .sw =>
      let c := s1.chan ch
      let s2 := s1.setReg (ch.port 0x1D) (w16 m.pdiss)
      let i := swReading ch.idx m.i
      let age := edgeAge s1 ch
      let valid := c.on && decide (m.kind = .onState) && decide (40 ≤ age) && (!pwmSet ch c.set || decide (80 * age ≤ swOnCycles ch c))
      let ets := c.on && decide (m.kind = .ets) && lowDuty ch c && etsUsed ch c
      let s3 := if valid then
          (s2.setReg (ch.port 0x12) (wordOfInt i)).modChan ch fun c => { c with regul := c.regul && decide (swLimit c ch.idx ≤ i.natAbs) }
        else s2
      .next (if valid || ets then evidence ch (decide ((wd c.pf 9).toNat ≤ i.natAbs)) s3 else s3)
    | .act => .next (actMeasure ch.idx m (s1.setReg (ch.port 0x12) (wordOfInt m.i)))
    | .lux => .next (luxMeasure ch.idx m s1)
    | .fld => .next (fldMeasure ch.idx m s1)

/-- OUT of an SW channel, the first that applies in the order of R249. -/
def swOut (s : State) (ch : ChanRef) : Nat :=
  let c := s.chan ch
  if c.reason ≠ 0 then 7
  else if safeHeld s ch then 0
  else if c.latch then 6
  else if modeOf c.set = 0 then 0
  else if c.pause.isSome ∨ (c.wirelock ∧ !c.on) then 5
  else if bandOff s ch then 0
  else match c.stallAct with
    | some (a, _) => if a = 2 then 1 else 0
    | none => if !c.on then 0 else if c.win.isSome then 4 else modeOf c.set

/-- The channel makes an off-state check now (R251, R254): OFFDIAG; not while a band holds it off, nor with the off-state
sources switched off outside Run (R82, R91). While it is OFF, every 10 ms; in PWM, HS only, at the end of an off-time of
500 µs or more, and under LOWDUTY of every period. HB only while its active MODE is OFF. -/
def offChecks (s : State) (ch : ChanRef) : Bool :=
  let c := s.chan ch
  bit (wd c.pf 12) 0 && decide (c.reason = 0) && !bandOff s ch && decide (s.mode = .run) &&
    (if c.on then
      decide (ch.idx < 64) && decide (modeOf c.set = 2) && isBoundary s ch &&
        (lowDuty ch c || decide (40000 + swOnCycles ch c ≤ 80 * period s ch))
    else
      (decide (ch.idx < 64) || decide (modeOf c.act = 0)) && decide (swOut s ch = 0) && offDue s c)

/-- An off-state reading below 4.5 V judged: the terminal's own, or for an HB pair under LINK the difference of the two
(R251). -/
def offJudge (ch : ChanRef) (v : Nat) (pair : Option Nat) (s : State) : State :=
  let lim := (wd (s.chan ch).pf 10).toNat
  match pair with
  | none => evidence ch (decide (v ≤ lim)) s
  | some d =>
    let linked (a b : ChanRef) : Bool :=
      let l := wd (s.chan a).act 0x0A
      bit l 7 && decide (fld l 0 7 = b.idx)
    let other := OutIsl.sw.chans.filter fun e => decide (64 ≤ e.idx) && decide (e ≠ ch) && (linked e ch || linked ch e)
    (ch :: other).foldl (fun t e => evidence e (decide (d ≤ lim)) t) s

/-- OFF_STATE_CHECK: the terminal read against the 20 µA source, in 10 mV; `pair` is the difference to the other
terminal of an HB pair under LINK (R251). -/
def execOffStateCheck (ch : ChanRef) (v : Nat) (pair : Option Nat) (s : State) : Out :=
  if !ch.ok then .fault .noSuchUnit
  else
    match ch.isl with
    | .sw =>
      if !offChecks s ch then .next s
      else
        let s1 := noteOff ch s
        if 450 ≤ v then .next (s1.modChan ch fun c => { c with shbDue := some s.now }) else .next (offJudge ch v pair s1)
    | .act => .next (actOffCheck ch.idx v pair s)
    | .lux => .next (luxOffCheck ch.idx v s)
    | .fld => .next (fldOffCheck ch.idx v s)

/-- SHORT_BAT_CONFIRM: the second reading 1 ms after the first; a lower one is judged as any other (R251). -/
def execShortBatConfirm (ch : ChanRef) (v : Nat) (pair : Option Nat) (s : State) : Out :=
  if !ch.ok then .fault .noSuchUnit
  else
    let c := s.chan ch
    match c.shbDue with
    | none => .next s
    | some t =>
      if s.now < t + 1000 then .next s
      else if 450 ≤ v then
        .next ((s.setChan ch { c with shbDue := none, evid := satInc 127 c.evid, okRun := 0, openRun := none, outcome := some 4 }).diag ch 5)
      else .next (offJudge ch v (if ch.isl = .sw then pair else none) (s.setChan ch { c with shbDue := none }))

/-- OPEN_CONFIRM: OPEN points without interruption for OPEN_T (R253); PERM_OPEN makes it a permanent fault (R206). -/
def execOpenConfirm (ch : ChanRef) (s : State) : Out :=
  if !ch.ok then .fault .noSuchUnit
  else
    let c := s.chan ch
    match c.openRun with
    | none => .next s
    | some t =>
      if c.reason ≠ 0 ∨ s.now < t + 1000 * (wd c.pf 11).toNat then .next s
      else
      let s1 := (s.setChan ch { c with outcome := some 1 }).diag ch 6
      .next (if bit (wd c.pf 12) 2 then retireChannel ch 3 s1 else s1)

/-- HB_REGULATION_PERIOD: the duty of the next period (R257); `mean` in 10 mA. -/
def execHbRegulationPeriod (ch : ChanRef) (mean : Int) (s : State) : Out :=
  if !ch.ok ∨ ch.isl ≠ .sw ∨ ch.idx < 64 then .fault .noSuchUnit
  else
    let c := s.chan ch
    let ireg : Int := ((wd c.set 0x0E).toNat : Int)
    match c.duty with
    | none => .next s
    | some d =>
      if modeOf c.set ≠ 3 ∨ !c.on ∨ !isBoundary s ch then .next s
      else if ireg = 0 then .next (s.setChan ch { c with duty := some 0 })
      else
        let d1 : Int := (d : Int) + ((ireg - mean) * 1024).tdiv ireg
        .next (s.setChan ch { c with duty := some (clampI 0 (dutyOf c.set) d1).toNat })

/-- STALL_DETECT: the current has been at or above PARAM_A for the last `ms` milliseconds; at STALL_T, once the inrush window
has ended, STALL_ACT acts on the leader and its followers (R258). -/
def execStallDetect (ch : ChanRef) (i ms : Nat) (s : State) : Out :=
  if !ch.ok ∨ ch.isl ≠ .sw ∨ ch.idx < 64 then .fault .noSuchUnit
  else
    let c := s.chan ch
    if !c.on ∨ c.win.isSome ∨ wd c.pf 14 = 0 ∨ bit (wd c.act 0x0A) 7 ∨ c.stall ∨ i < (wd c.pf 14).toNat ∨
        ms < fld (wd c.pf 15) 0 8 then .next s
    else
      let act := fld (wd c.pf 15) 8 2
      let s1 := swEvent 0 (some ch.idx) (s.setChan ch { c with stall := true })
      if act = 0 then .next s1
      else
        let fs := OutIsl.sw.chans.filter fun d => bit (wd (s.chan d).act 0x0A) 7 && decide (fld (wd (s.chan d).act 0x0A) 0 7 = ch.idx)
        .next ((ch :: fs).foldl (fun t d => (stopChan d t).modChan d fun c => { c with stallAct := some (act, ch.idx) }) s1)

/-! The status words of a port (Tables 7.2, 7.4, 7.5). -/

/-- CODE (R202, R203, R82). In LOWDUTY a channel that gathers evidence by neither method reads UNVERIFIED (R254). -/
def codeOf (s : State) (ch : ChanRef) : Nat :=
  let c := s.chan ch
  if c.reason ≠ 0 then 6
  else if bandOff s ch then (if c.latch then 2 else 5)
  else
    let o := c.outcome
    if o = some 4 then 4
    else if o = some 3 then 3
    else if c.latch ∨ c.wirelock ∨ o = some 2 then 2
    else if modeOf c.set = 0 ∧ !bit (wd c.pf 12) 0 then 5
    else if lowDuty ch c ∧ !etsUsed ch c ∧ !(bit (wd c.pf 12) 0 && decide (ch.idx < 64)) then 5
    else if o = some 1 then 1
    else if o = some 0 then 0
    else 5

/-- CTRL (Table 7.4). -/
def ctrlOf (c : Chan) : Nat := if c.carries.isSome then 3 else if c.mar.isSome then 1 else if c.hold then 2 else 0

end Sys2Proof.Machine
end

