-- ==== Sys2Proof/Machine/Flash.lean ====
section
/-! DEFINITION. The flash command block of MEM: its checks, and the end of an operation (R470, R471).
The readings and choices it rests on: notes/assumptions/59. -/

namespace Sys2Proof.Machine

/-- The address in FL_ADDR, and in FL_SRC. -/
def flAddr (s : State) : Nat := s.regN 0xA90000 + 65536 * s.regFld 0xA90001 0 8
/-- FL_SRC. -/
def flSrc (s : State) : Nat := s.regN 0xA90002 + 65536 * s.regFld 0xA90003 0 8

/-- Program flash. -/
def inProgram (a : Nat) : Bool := decide (a < 0x800000)
/-- Settings flash. -/
def inSettings (a : Nat) : Bool := decide (0x900000 ≤ a) && decide (a < 0x920000)

/-- A PROGRAM of `n` words at `a` fits the open part's fill window; `ws` are its source words (R474). -/
def inFillWindow (s : State) (a n : Nat) (ws : List Word) : Bool :=
  match s.upd.part with
  | none => false
  | some p =>
    let len := headerLen p.header
    let at_ := bankBase (inactiveBank s) + p.off + 0x40 + p.fill
    decide (a = at_) && decide (p.fill < len) &&
      (decide (p.fill + n ≤ len) ||
        (decide (p.fill + n ≤ (len + 7) / 8 * 8) && (ws.drop (len - p.fill)).all (· = 0xFFFF#16)))

/-- FL_COUNT, alignment and region are of Table 17.3. -/
def flashShape (op a n : Nat) : Bool :=
  match op with
  | 1 =>
    if inProgram a then decide (8 ≤ n ∧ n ≤ 512 ∧ n % 8 = 0 ∧ a % 8 = 0 ∧ a + n ≤ 0x800000)
    else inSettings a && decide (1 ≤ n ∧ n ≤ 64 ∧ a % 64 + n ≤ 64)
  | 2 => inProgram a || inSettings a
  | 3 => inProgram a
  | _ => inSettings a

/-- The first failing check of Table 17.4 for an operation; 0 where it starts. -/
def flashCheck (r : Requester) (op : Nat) (s : State) : Nat :=
  let a := flAddr s
  let n := s.regFld 0xA90004 0 10
  let src := flSrc s
  let gen := (a - 0x900000) / 0x10000
  let off := a % 0x10000
  let ws := s.memList src n
  if !coreNamed s 0xA90007 r then 1
  else if inProgram a ∧ (a / 0x400000 = activeBank s ∨ s.upd.phase ≠ 0) then 2
  else if op = 4 ∧ inSettings a ∧ (gen = activeGen s ∨ inTrial s) then 2
  else if op = 1 ∧ inProgram a ∧ !inFillWindow s a n (if inSram src n then ws else []) then 3
  else if (op = 1 ∨ op = 2) ∧ inSettings a ∧ (0xF300 ≤ off ∨ (inTrial s ∧ gen ≠ activeGen s)) then 4
  else if op = 1 ∧ !(s.memList a n).all (· = 0xFFFF#16) then 5
  else if op = 1 ∧ !inSram src n then 6
  else if !flashShape op a n then 7
  else if op = 1 ∧ s.anyDbe src n then 8
  else 0

/-- A write of FL_CMD: ignored with another key, while BUSY, or with no operation of Table 17.3; else checked, and started
(R470). -/
def flashCmd (r : Requester) (v : Word) (s : State) : State :=
  let op := fld v 0 3
  if fld v 8 8 ≠ 0xF1 ∨ s.flashOp.isSome ∨ op = 0 ∨ 4 < op then s
  else
    match flashCheck r op s with
    | 8 => (s.raiseIsl .mem 1 none).setReg 0xA90006 (pack [(1, 8)])
    | 0 =>
      let a := flAddr s
      let n := if op = 1 then s.regFld 0xA90004 0 10 else 0
      let s1 := { s with flashOp := some { op := op, addr := a, n := n, data := s.memList (flSrc s) n } }
      (if inProgram a then setVerified (a / 0x400000) false s1 else s1).setReg 0xA90006 0x0001#16
    | k => s.setReg 0xA90006 (pack [(1, k)])

/-- The runs of words an operation works on (Table 17.3). -/
def flashRuns (o : FlashOp) : List (Nat × Nat) :=
  match o.op with
  | 1 => [(o.addr, o.n)]
  | 2 => if inProgram o.addr then [(o.addr / 4096 * 4096, 4096)] else [(o.addr / 64 * 64, 64)]
  | 3 => [(o.addr / 0x400000 * 0x400000, 0x400000)]
  | _ =>
    let b := o.addr / 0x10000 * 0x10000
    [(b, 0xF300), (b + 0xF600, 0x600), (b + 0xFE00, 0x200)]

/-- The effect of an operation on its words. -/
def flashApply (o : FlashOp) (s : State) : State :=
  if o.op = 1 then s.storeList o.addr o.data
  else (flashRuns o).foldl (fun t e => t.clearMem e.1 e.2) s

/-- The payload words of a PROGRAM are folded into the running CMAC, and FILL advances, to LEN at most (R474). -/
def advanceFill (o : FlashOp) (s : State) : State :=
  match s.upd.part with
  | some p =>
    if o.op = 1 ∧ inProgram o.addr then
      let len := headerLen p.header
      { s with upd := { s.upd with part := some { p with
        fill := Nat.min len (p.fill + o.n), body := p.body ++ o.data.take (len - p.fill) } } }
    else s
  | none => s

/-- FLASH_COMPLETE: the operation ends; where its verify fails the words it worked on are left undefined (R470). -/
def execFlashComplete (ok : Bool) (s : State) : Out :=
  match s.flashOp with
  | none => .next s
  | some o =>
    let s1 := { s with flashOp := none }
    .next (if ok then (advanceFill o (flashApply o s1)).setReg 0xA90006 0x0000#16
      else ((flashRuns o).foldl (fun t e => leaveUndefined e.1 e.2 t) s1).setReg 0xA90006 (pack [(1, 9)]))

end Sys2Proof.Machine
end

