-- ==== Sys2Proof/Machine/Update.lean ====
section
/-! DEFINITION. Writing a part, local PREPARE, and the two-phase activation (R474–R487).
The readings and choices it rests on: notes/assumptions/12, 60, 61, 62, 63. -/

namespace Sys2Proof.Machine

/-! Parts (R474). -/

/-- UPD_PSTAT.CODE, with the event of a part step that is done (R487). -/
def partDone (code : Nat) (s : State) : State := updEvent 0 (s.setRegFld 0xA82008 2 4 code)

/-- UPD_HADDR and UPD_OFFS. -/
def updHaddr (s : State) : Nat := s.regN 0xA82003 + 65536 * s.regFld 0xA82004 0 8
/-- UPD_OFFS. -/
def updOffs (s : State) : Nat := s.regN 0xA82005 + 65536 * s.regFld 0xA82006 0 6

/-- The end of the span of a part at an offset: header, and payload in groups of 8 words (R474). -/
def spanEnd (off len : Nat) : Nat := off + 0x40 + (len + 7) / 8 * 8

/-- The place of Table 17.6 for a type. -/
def placeOk (t off len : Nat) : Bool :=
  if t = 1 then decide (off = 0) && decide (spanEnd off len ≤ 0x3F0000)
  else if t = 6 then decide (off = 0x3F0000)
  else decide (off % 0x40 = 0) && decide (spanEnd off len ≤ 0x3F0000)

/-- The entry of a manifest that a header at an offset answers to (Table 17.7, code 10). -/
def entryMatches (e : Entry) (own : Nat) (h : List Word) (off : Nat) : Bool :=
  decide (e.dev = own) && decide (e.type = headerType h) && decide (e.off = off) && decide (e.len = headerLen h) &&
  decide (e.ver = hiLo (h.getD 4 0) (h.getD 3 0)) && decide (e.tag = h.getD 0x38 0)

/-- The part's span overlaps another part that the manifest in the inactive bank lists for this device. -/
def spanOverlaps (s : State) (h : List Word) (off : Nat) : Bool :=
  let b := inactiveBank s
  manifestGood s b && (entries s b).any fun e =>
    decide (ownId s = some e.dev) && !decide (e.type = headerType h ∧ e.off = off) &&
      decide (e.off < spanEnd off (headerLen h)) && decide (off < spanEnd e.off e.len)

/-- The first failing check of OPEN; 0 where the part opens (Table 17.7). -/
def openCheck (s : State) : Nat :=
  let a := updHaddr s
  let off := updOffs s
  let h := s.memList a 64
  let b := inactiveBank s
  if s.upd.phase ≠ 0 then 2
  else if s.upd.part.isSome then 3
  else if !inSram a 64 || s.anyDbe a 64 then 4
  else if !headerForm h then 5
  else if h.getD 0x0B 0 ≠ sysId s then 6
  else if !headerKid s h then 7
  else if !headerMac s h then 8
  else if !headerLenOk h || !placeOk (headerType h) off (headerLen h) || (headerType h ≠ 6 && spanOverlaps s h off) then 9
  else if headerType h ≠ 6 ∧ !(manifestGood s b && decide (headerMref (s.memList (manifestAt b) 64) = headerMref h) &&
      (entries s b).any fun e => match ownId s with | some own => entryMatches e own h off | none => false) then 10
  else 0

/-- OPEN: SUP reads the header through its requester. -/
def openStep (s0 : State) : State :=
  let s := if s0.upd.phase = 0 ∧ s0.upd.part.isNone ∧ inSram (updHaddr s0) 64 then updRead (updHaddr s0) 64 s0 else s0
  match openCheck s with
  | 0 => partDone 0 { s with upd := { s.upd with part := some { off := updOffs s, header := s.memList (updHaddr s) 64 } } }
  | k => partDone k s

/-- CLOSE: a part refused here is no longer open. -/
def closeStep (s : State) : State :=
  match s.upd.part with
  | none => partDone 11 s
  | some p =>
    let a := bankBase (inactiveBank s) + p.off
    let s1 := { s with upd := { s.upd with part := none } }
    if p.fill ≠ headerLen p.header then partDone 11 s1
    else if bootMac s (bytesOf p.body) ≠ some (bytesOf ((p.header.drop 0x30).take 8)) then partDone 12 s1
    else if !(s.memList a 64).all (· = 0xFFFF#16) then partDone 13 s1
    else partDone 0 ((setVerified (inactiveBank s) false (memBurst .sup 2 8 s1)).storeList a p.header)

/-! Local PREPARE (R477). -/

/-- A part of the own device passes its entry and its CMACs (R477, step 2). -/
def partGood (s : State) (mref : Nat) (e : Entry) : Bool :=
  let a := bankBase (inactiveBank s) + e.off
  let h := s.memList a 64
  !s.anyDbe a 64 && headerGood s e.type h && entryMatches e e.dev h e.off && decide (headerMref h = mref) &&
    payloadMac s h (a + 0x40)

/-- The entries of the own device in the inactive bank's manifest. -/
def ownEntries (s : State) : List Entry :=
  (entries s (inactiveBank s)).filter fun e => decide (ownId s = some e.dev)

/-- The parts of the own device are read for their check (R477, step 2). -/
def readParts (s : State) : State :=
  (ownEntries s).foldl (fun t e => updRead (bankBase (inactiveBank s) + e.off) (0x40 + e.len) t) s

/-- PREPARE, steps 1 and 2; the copy engine's steps end at PREPARE_COMPLETE. -/
def prepareStep (s0 : State) : State :=
  if s0.upd.phase ≠ 0 then s0
  else
    let s := readParts (updRead (manifestAt (inactiveBank s0)) 64 s0)
    let b := inactiveBank s
    let h := s.memList (manifestAt b) 64
    if !(manifestGood s b && payloadMac s h (manifestAt b + 0x40)) then partDone 10 s
    else
      let s1 := { s with upd := { s.upd with mref := headerMref h } }
      let es := ownEntries s
      let s2 := if es.any fun e => decide (e.type = 1) && partGood s (headerMref h) e then setVerified b true s1 else s1
      if !es.all (partGood s (headerMref h)) then partDone 10 s2
      else { s2.setRegBit 0xA82008 1 true with upd := { s2.upd with preparing := true } }

/-- A payload of the own device, or the area of the active generation where the manifest lists none (R477, step 4). -/
def preparedArea (s : State) (type off n : Nat) : List Word :=
  match (ownEntries s).find? fun e => decide (e.type = type) with
  | some e => s.memList (bankBase (inactiveBank s) + e.off + 0x40) n
  | none => s.memList (0x900000 + 0x10000 * activeGen s + off) n

/-- PREPARE_COMPLETE: the free generation is erased and filled, PREPARED written (R477). -/
def execPrepareComplete (ok : Bool) (s : State) : Out :=
  if !s.upd.preparing then .next s
  else
    let g := 0x900000 + 0x10000 * (1 - activeGen s)
    let s1 := { s.setRegBit 0xA82008 1 false with upd := { s.upd with preparing := false } }
    if ok then
      let s2 := (((memBurst .mem 0 0x100 s1).clearMem g 0xF300).clearMem (g + 0xF600) 0x600).clearMem (g + 0xFE00) 0x200
      let s3 := (s2.storeList (g + 0xF600) (preparedArea s 3 0xF600 0x600)).storeList (g + 0xFE00) (preparedArea s 4 0xFE00 0x200)
      .next (partDone 0 (journalPut 1 (activeBank s) (activeGen s) s.upd.mref
        { s3 with updAon := { s3.updAon with voted := false } }))
    else
      .next (partDone 13 (leaveUndefined (g + 0xFE00) 0x200 (leaveUndefined (g + 0xF600) 0x600 (leaveUndefined g 0xF300 s1))))

/-! Activation stitches (R481). -/

/-- An activation stitch (Table 17.11). -/
def updStitch (s : State) (sub arg dest mref : Nat) : Stitch :=
  { stitchFrom s 0xC dest with len := 3, payload := [pack [(0, sub), (4, arg)], w16 mref, w16 (mref / 65536)] }
/-- It sent. -/
def sendUpd (sub arg dest mref : Nat) (s : State) : State := sendStitch (updStitch s sub arg dest mref) s
/-- It sent to every device of a list. -/
def sendUpdAll (sub : Nat) (ds : List Nat) (s : State) : State :=
  ds.foldl (fun t d => sendUpd sub 0 d s.upd.mref t) s

/-- This device coordinates: the manifest in force names it. -/
def coordinates (s : State) : Bool :=
  let b := manifestBank s
  manifestGood s b && decide (headerMref (s.memList (manifestAt b) 64) = s.upd.mref) && decide (ownId s = some (coordOf s))

/-- ARG of STATE for an MREF (Table 17.11): by phase and outcome for UPD_MREF, by the base outcome for the base state's,
else 6. -/
def stateArg (s : State) (mref : Nat) : Nat :=
  let done (k : Nat) : Nat := match k with | 1 => 4 | 2 | 3 => 5 | _ => 0
  if mref = s.upd.mref then
    match s.upd.phase with | 1 => 1 | 2 => 2 | 3 => 3 | _ => done s.upd.outcome
  else if mref = s.upd.baseMref then done s.upd.baseOutcome
  else 6

/-- MEM holds requests of the activation state aside: a generation, or the bank of the manifest, is busy (R34). -/
def updBusy (s : State) : Bool := settingsBusyIn s 0 || settingsBusyIn s 1 || bankBusy s (manifestBank s)

/-- A received activation stitch acts in its turn: it waits behind others that wait, and while MEM holds the requests of the
activation state aside (R34, R476). -/
def updGate (sub : Nat) (u : UpdMsg) (s : State) (f : State → State) : State :=
  if !s.running .sup then s
  else if !s.upd.held.isEmpty || updBusy s then { s with upd := { s.upd with held := s.upd.held ++ [(sub, u)] } }
  else f s

/-- A received request acts where its MREF is known; else it is answered with STATE 6 (R481). -/
def updKnown (u : UpdMsg) (s : State) (f : State → State) : State :=
  if u.mref.toNat = s.upd.mref ∨ u.mref.toNat = s.upd.baseMref then f s
  else sendUpd 11 6 u.src.toNat u.mref.toNat s

/-- A received answer acts at the coordinator that waits for it, from a listed device, for its MREF. -/
def atCoord (u : UpdMsg) (s : State) (f : State → State) : State :=
  if coordinates s ∧ u.mref.toNat = s.upd.mref ∧ u.src.toNat ∈ manifestDevs s then f s else s

/-! The coordinator (R482). -/

/-- The answers of the present step: votes and ACKs, or HEALTHY reports in step 3 before DECIDE_K. -/
def stepAnswers (s : State) : List Nat := if s.upd.step = 3 ∧ s.upd.dec = 1 then s.upd.healthy else s.upd.acks
/-- What the present step sends to a device that has not answered: its SUB, 0 nothing. -/
def stepSub (s : State) : Nat :=
  match s.upd.step with
  | 1 => 1
  | 2 => if s.upd.dec = 1 then 3 else 4
  | 3 => if s.upd.dec = 2 then 6 else 0
  | 4 => 7
  | _ => 0
/-- Listed devices that have not answered the present step. -/
def unanswered (s : State) : List Nat := (manifestDevs s).filter fun d => !(stepAnswers s).contains d

/-- A step begins: what it sends goes to every listed device. -/
def enterStep (k : Nat) (s : State) : State :=
  let s1 := { s with upd := { s.upd with step := k, acks := [], stepAt := s.now, sentAt := s.now } }
  match stepSub s1 with
  | 0 => s1
  | sub => sendUpdAll sub (manifestDevs s1) s1

/-- A decision written and sent (R482): 8 DECIDE_C, 9 DECIDE_K, 0xA DECIDE_R; a revert follows a DECIDE_C. -/
def decideStep (type : Nat) (s : State) : State :=
  let k := match type with | 8 => 2 | 9 => 3 | _ => if s.upd.dec = 1 then 4 else 2
  let s1 := journalPut type s.upd.bank s.upd.gen s.upd.mref s
  enterStep k (if type = 8 then
    { s1 with updAon := { s1.updAon with coordRan := 0, coordSince := if s.bring.taken then some s.now else none } } else s1)

/-- DECIDE_R where it is still open: in step 1, or after DECIDE_C before DECIDE_K. -/
def decideRevert (s : State) : State :=
  if (s.upd.step = 1 ∧ s.upd.dec = 0) ∨ s.upd.dec = 1 then decideStep 0xA s else s

/-- START, on the device named by COORD while PREPARED, with no activation under way (R482). -/
def startStep (s : State) : State :=
  if s.upd.phase = 1 ∧ coordinates s ∧ s.upd.step = 0 ∧ s.upd.dec = 0 then enterStep 1 s else s

/-! HEALTHY and the revert (R479, R480). -/

/-- The window no longer runs. -/
def stopWindow (s : State) : State := { s with updAon := { s.updAon with ran := 0, since := none } }

/-- HEALTHY in TRIAL (R480). -/
def healthyStep (s : State) : State :=
  if s.upd.phase ≠ 2 then s
  else
    let s1 := stopWindow (journalPut 4 s.upd.bank s.upd.gen s.upd.mref s)
    sendUpd 5 0 (coordOf s1) s1.upd.mref { s1 with upd := { s1.upd with wait := [5], sentAt := s1.now } }

/-- The controller resets itself at L1 as source 12 of Table 4.2 (R479, R483). -/
def updReset (s : State) : State := resetAt 12 1 0 (recordCause 12 s)

/-- The answer on its way, the reset at L1 follows once it has left (R483). -/
def resetSoon (s : State) : State := { s with upd := { s.upd with resetDue := true } }

/-- A step of UPD_CMD (Table 17.13). -/
def updOp (op : Nat) (s : State) : State :=
  match op with
  | 1 => openStep s
  | 2 => closeStep s
  | 3 => partDone 0 { s with upd := { s.upd with part := none } }
  | 4 => prepareStep s
  | 5 => startStep s
  | 6 => healthyStep s
  | _ => s

/-- A step of UPD_CMD needs a region that is busy: it waits, and the command is BUSY (R34). PREPARE waits for a running flash
operation as well, since its copy engine erases and programs. -/
def updMustWait (op : Nat) (s : State) : Bool :=
  match op with
  | 1 | 2 => bankBusy s (inactiveBank s)
  | 4 => s.flashOp.isSome
  | 5 | 6 => updBusy s
  | _ => false

/-- A write of UPD_CMD (R474, R487); while a step is under way it is ignored. -/
def updCmd (r : Requester) (v : Word) (s : State) : State :=
  let op := fld v 0 4
  if fld v 8 8 ≠ 0xD2 ∨ s.upd.preparing ∨ s.upd.cmd.isSome then s
  else if !coreNamed s 0xA8200C r then s.setRegFld 0xA82008 2 4 1
  else if updMustWait op s then { s with upd := { s.upd with cmd := some op } }
  else updOp op s

/-! Received activation stitches. -/

/-- This device's vote is given: the run time since it counts (R478). -/
def giveVote (s : State) : State :=
  if s.updAon.voted then s
  else { s with updAon := { s.updAon with voted := true, voteRan := 0, voteSince := if s.bring.taken then some s.now else none } }

/-- PREPARE is answered with VOTE (R482). -/
def updPrepareAct (u : UpdMsg) (s : State) : State :=
  updKnown u s fun s =>
    let arg := if s.upd.phase = 1 then (if u.mref.toNat = s.upd.mref then 0 else 2) else 1
    sendUpd 2 arg u.src.toNat u.mref.toNat (if arg = 0 then giveVote s else s)

/-- A device is entered in a list of answers. -/
def addDev (d : Nat) (l : List Nat) : List Nat := if l.contains d then l else d :: l

/-- A vote: yes is recorded, and all yes decides COMMIT; any other decides ABORT (R482). -/
def updVoteAct (u : UpdMsg) (s : State) : State :=
  updKnown u s fun s => atCoord u s fun s =>
    if s.upd.step ≠ 1 then s
    else if u.arg ≠ 0 then decideRevert s
    else
      let s1 := { s with upd := { s.upd with acks := addDev u.src.toNat s.upd.acks } }
      if unanswered s1 = [] then decideStep 8 s1 else s1

/-- COMMIT acted on by a PREPARED device: the record, the ACK, L1 (R483). -/
def commitNow (u : UpdMsg) (s : State) : State :=
  let s1 := journalPut 2 (1 - s.upd.bank) (1 - s.upd.gen) s.upd.mref s
  let s2 := { s1 with
    upd := { s1.upd with wait := [] }
    updAon := { s1.updAon with
      ran := 0, since := none, expired := false, report := false, voted := false, voteRan := 0, voteSince := none } }
  resetSoon (sendUpd 8 0 u.src.toNat u.mref.toNat s2)

/-- ABORT in the journal (R478). -/
def abortNow (s : State) : State :=
  let s1 := journalPut 7 s.upd.bank s.upd.gen s.upd.mref s
  { s1 with upd := { s1.upd with wait := [] }
            updAon := { s1.updAon with voted := false, voteRan := 0, voteSince := none } }

/-- PREP_T + 60 s of run time have passed since this device's vote (Table 17.10). -/
def preparedOver (s : State) : Bool :=
  decide (s.upd.phase = 1) && s.updAon.voted &&
    decide ((prepTime s + 60) * 1000000 ≤ runTime s s.updAon.voteRan s.updAon.voteSince)

/-- COMMIT (R483); a trial or confirmed device answers ACK again, any other with its STATE. The timeout of a PREPARED device
in the same cycle wins (R486). -/
def updCommitAct (u : UpdMsg) (s : State) : State :=
  updKnown u s fun s0 =>
    let s := if preparedOver s0 then abortNow s0 else s0
    match stateArg s u.mref.toNat with
    | 1 => commitNow u s
    | 2 | 3 | 4 => sendUpd 8 0 u.src.toNat u.mref.toNat s
    | k => sendUpd 11 k u.src.toNat u.mref.toNat s

/-- ABORT: PREPARED returns to STABLE; STABLE answers ACK and changes nothing (R478, R483). -/
def updAbortAct (u : UpdMsg) (s : State) : State :=
  updKnown u s fun s =>
    match stateArg s u.mref.toNat with
    | 1 => sendUpd 8 0 u.src.toNat u.mref.toNat (abortNow s)
    | 2 => sendUpd 11 2 u.src.toNat u.mref.toNat s
    | 3 => sendUpd 11 3 u.src.toNat u.mref.toNat s
    | _ => sendUpd 8 0 u.src.toNat u.mref.toNat { s with updAon := { s.updAon with report := false } }

/-- HEALTHY at the coordinator: recorded; all HEALTHY decides CONFIRM; after a decision it is answered with it (R482). -/
def updHealthyAct (u : UpdMsg) (s : State) : State :=
  updKnown u s fun s => atCoord u s fun s =>
    if s.upd.dec = 1 then
      let s1 := { s with upd := { s.upd with healthy := addDev u.src.toNat s.upd.healthy } }
      if (manifestDevs s1).all (s1.upd.healthy.contains ·) then decideStep 9 s1 else s1
    else if s.upd.dec = 2 then sendUpd 6 0 u.src.toNat u.mref.toNat s
    else if s.upd.dec = 3 then sendUpd 7 0 u.src.toNat u.mref.toNat s
    else s

/-- CONFIRM in the journal (R485). -/
def confirmNow (s : State) : State :=
  let s1 := journalPut 5 s.upd.bank s.upd.gen s.upd.mref s
  { s1 with upd := { s1.upd with wait := [], orphan := false } }

/-- CONFIRM (R485). -/
def updConfirmAct (u : UpdMsg) (s : State) : State :=
  updKnown u s fun s =>
    match stateArg s u.mref.toNat with
    | 3 => sendUpd 8 0 u.src.toNat u.mref.toNat (confirmNow s)
    | 4 => sendUpd 8 0 u.src.toNat u.mref.toNat s
    | k => sendUpd 11 k u.src.toNat u.mref.toNat s

/-- REVERT: a trial returns to its fallback and resets; PREPARED returns to STABLE; STABLE answers ACK (R478, R479, R483). -/
def updRevertAct (u : UpdMsg) (s : State) : State :=
  updKnown u s fun s =>
    match stateArg s u.mref.toNat with
    | 2 | 3 =>
      let s1 := revertRecord s
      resetSoon (sendUpd 8 0 u.src.toNat u.mref.toNat { s1 with upd := { s1.upd with wait := [] } })
    | 1 => sendUpd 8 0 u.src.toNat u.mref.toNat (abortNow s)
    | _ => sendUpd 8 0 u.src.toNat u.mref.toNat { s with updAon := { s.updAon with report := false } }

/-- ACK at the coordinator: all ACKs to COMMIT let it collect HEALTHY, all others end the activation (R482). -/
def updAckAct (u : UpdMsg) (s : State) : State :=
  updKnown u s fun s => atCoord u s fun s =>
    if s.upd.step < 2 ∨ (s.upd.step = 3 ∧ s.upd.dec = 1) then s
    else
      let s1 := { s with upd := { s.upd with acks := addDev u.src.toNat s.upd.acks } }
      if unanswered s1 ≠ [] then s1
      else { s1 with upd := { s1.upd with step := if s1.upd.step = 2 ∧ s1.upd.dec = 1 then 3 else 0, acks := [] } }

/-- FAILED: the coordinator decides revert; it answers REVERT once that is decided (R482). -/
def updFailedAct (u : UpdMsg) (s : State) : State :=
  updKnown u s fun s => atCoord u s fun s =>
    if s.upd.dec = 3 then sendUpd 7 0 u.src.toNat u.mref.toNat s else decideRevert s

/-- QUERY is answered with STATE (R483, R484). -/
def updQueryAct (u : UpdMsg) (s : State) : State :=
  updKnown u s fun s => sendUpd 11 (stateArg s u.mref.toNat) u.src.toNat u.mref.toNat s

/-- STATE: the coordinator takes STATE 5 as a failed COMMIT and any STATE as a vote other than yes; a PREPARED device acts on
its coordinator's answer, an orphan in AWAIT on any peer's (R482–R484). One for another MREF is not answered: two devices
would answer each other without end. -/
def updStateAct (u : UpdMsg) (s : State) : State :=
  let fromCoord := decide (u.src.toNat = coordOf s)
  if u.mref.toNat ≠ s.upd.mref then s
  else if coordinates s ∧ u.src.toNat ∈ manifestDevs s ∧ s.upd.step = 1 then decideRevert s
  else if coordinates s ∧ u.src.toNat ∈ manifestDevs s ∧ s.upd.step = 2 ∧ s.upd.dec = 1 ∧ u.arg = 5 then decideRevert s
  else if s.upd.phase = 3 ∧ s.upd.orphan then
    if u.arg = 4 then confirmNow s
    else if u.arg = 5 then updReset (revertRecord s)
    else s
  else if s.upd.phase = 1 ∧ fromCoord ∧ s.upd.wait.contains 10 then
    let s1 := { s with upd := { s.upd with wait := s.upd.wait.filter (· ≠ 10) } }
    if u.arg = 2 ∨ u.arg = 3 ∨ u.arg = 4 then commitNow u s1
    else if u.arg = 5 then abortNow s1
    else s1
  else if fromCoord then { s with updAon := { s.updAon with report := false } }
  else s

/-- A received activation stitch by its SUB (Table 17.11); another is of no effect. -/
def updAct (sub : Nat) (u : UpdMsg) (s : State) : State :=
  match sub with
  | 1 => updPrepareAct u s
  | 2 => updVoteAct u s
  | 3 => updCommitAct u s
  | 4 => updAbortAct u s
  | 5 => updHealthyAct u s
  | 6 => updConfirmAct u s
  | 7 => updRevertAct u s
  | 8 => updAckAct u s
  | 9 => updFailedAct u s
  | 10 => updQueryAct u s
  | 11 => updStateAct u s
  | _ => s

/-- A received activation stitch acts in its turn. -/
def updReceive (sub : Nat) (u : UpdMsg) (s : State) : State := updGate sub u s (updAct sub u)

/-- UPD_PREPARE (R482). -/
def execUpdPrepare (u : UpdMsg) (s : State) : Out := .next (updReceive 1 u s)
/-- UPD_VOTE (R482). -/
def execUpdVote (u : UpdMsg) (s : State) : Out := .next (updReceive 2 u s)
/-- UPD_COMMIT (R483). -/
def execUpdCommit (u : UpdMsg) (s : State) : Out := .next (updReceive 3 u s)
/-- UPD_ABORT (R478, R483). -/
def execUpdAbort (u : UpdMsg) (s : State) : Out := .next (updReceive 4 u s)
/-- UPD_HEALTHY (R482). -/
def execUpdHealthy (u : UpdMsg) (s : State) : Out := .next (updReceive 5 u s)
/-- UPD_CONFIRM (R485). -/
def execUpdConfirm (u : UpdMsg) (s : State) : Out := .next (updReceive 6 u s)
/-- UPD_REVERT (R479, R483). -/
def execUpdRevert (u : UpdMsg) (s : State) : Out := .next (updReceive 7 u s)
/-- UPD_ACK (R482). -/
def execUpdAck (u : UpdMsg) (s : State) : Out := .next (updReceive 8 u s)
/-- UPD_FAILED (R482). -/
def execUpdFailed (u : UpdMsg) (s : State) : Out := .next (updReceive 9 u s)
/-- UPD_QUERY (R483, R484). -/
def execUpdQuery (u : UpdMsg) (s : State) : Out := .next (updReceive 10 u s)
/-- UPD_STATE (R482–R484). -/
def execUpdState (u : UpdMsg) (s : State) : Out := .next (updReceive 11 u s)

/-- What waited for a busy region acts, in its order: a command of UPD_CMD, then the stitches (R34). -/
def retryUpd (s : State) : State :=
  if !s.running .sup then s
  else
    let s1 := match s.upd.cmd with
      | some op => if updMustWait op s then s else updOp op { s with upd := { s.upd with cmd := none } }
      | none => s
    if s1.upd.held.isEmpty || updBusy s1 then s1
    else s1.upd.held.foldl (fun t e => updReceive e.1 e.2 t) { s1 with upd := { s1.upd with held := [] } }

/-! What time brings (R478–R484). -/

/-- Own requests whose answer has not come go to the coordinator: HEALTHY, QUERY, and the report of a revert. -/
def sendWaiting (s : State) : State :=
  let s1 := s.upd.wait.foldl (fun t k => sendUpd k 0 (coordOf s) s.upd.mref t) s
  if s1.updAon.report then sendUpd 9 0 (coordOf s1) s1.upd.mref s1 else s1

/-- UPD_RESEND: every 10 ms what has not been answered is sent again (R481). -/
def execUpdResend (s : State) : Out :=
  if !s.running .sup ∨ s.now < s.upd.sentAt + 10000 then .next s
  else
    let s0 := { s with upd := { s.upd with sentAt := s.now } }
    let s1 := match stepSub s0 with
      | 0 => s0
      | sub => if coordinates s0 then sendUpdAll sub (unanswered s0) s0 else s0
    .next (sendWaiting s1)

/-- VOTE_TIMEOUT: PREP_T has passed without all votes (R482). -/
def execVoteTimeout (s : State) : Out :=
  .next (if s.running .sup ∧ updBusy s = false ∧ s.upd.step = 1 ∧ s.upd.stepAt + prepTime s * 1000000 ≤ s.now then
    decideRevert s else s)

/-- WINDOW × (WRES + 1) + 60 s of run time have passed since DECIDE_C (R482). -/
def healthOver (s : State) : Bool :=
  decide ((windowOf s * (wresOf s + 1) + 60) * 1000000 ≤ runTime s s.updAon.coordRan s.updAon.coordSince)

/-- HEALTH_DEADLINE (R482). -/
def execHealthDeadline (s : State) : Out :=
  .next (if s.running .sup ∧ updBusy s = false ∧ s.upd.dec = 1 ∧ coordinates s ∧ healthOver s then decideRevert s else s)

/-- PREPARED_TIMEOUT (R478). -/
def execPreparedTimeout (s : State) : Out :=
  .next (if s.running .sup ∧ updBusy s = false ∧ preparedOver s then abortNow s else s)

/-- WINDOW_EXPIRY: REVERT, EXPIRED, L1 (R479). -/
def execWindowExpiry (s : State) : Out :=
  if !s.running .sup ∨ updBusy s ∨ s.upd.phase ≠ 2 ∨ runTime s s.updAon.ran s.updAon.since < windowOf s * 1000000 then .next s
  else
    let s1 := revertRecord s
    .next (updReset { s1 with updAon := { s1.updAon with expired := true } })

/-- The coordinator has left this device's routes. -/
def orphaned (s : State) : Bool :=
  decide (s.upd.phase = 3) && decide (ownId s ≠ some (coordOf s)) && (routeTo s (coordOf s)).isNone

/-- How long the coordinator has been out of the routes is watched (R484). -/
def watchCoord (s : State) : State :=
  if orphaned s then
    if s.upd.lostAt.isSome then s else { s with upd := { s.upd with lostAt := some s.now } }
  else if s.upd.lostAt.isNone && !s.upd.orphan then s
  else { s with upd := { s.upd with lostAt := none, orphan := false } }

/-- ORPHAN_QUERY: after ORPHAN_T without the coordinator, every 10 s QUERY to every other listed device (R484). -/
def execOrphanQuery (s0 : State) : Out :=
  let s := watchCoord s0
  let due := match s.upd.lostAt with
    | some t => decide (t + orphanTime s * 1000000 ≤ s.now)
    | none => false
  let pace := match s.upd.queryAt with
    | some t => decide (t + 10000000 ≤ s.now)
    | none => true
  if !s.running .sup ∨ !orphaned s ∨ !due ∨ !pace then .next s
  else
    let s1 := { s with upd := { s.upd with orphan := true, queryAt := some s.now } }
    .next (sendUpdAll 10 ((manifestDevs s1).filter fun d => decide (ownId s ≠ some d)) s1)

/-- An answer of the local agent's activation has not left yet. -/
def updLeaving (s : State) : Bool :=
  s.running .lnk && (s.lnk.selfq.any (fun t => decide (t.type = 0xC)) ||
    fourPorts.any fun p => (s.lport p).q.any fun e => decide (e.inp = 4) && decide (e.st.type = 0xC))

/-- What the activation does of itself in a microsecond: what waited goes on, the reset after an answer comes, the coordinator
is watched (R34, R483, R484). -/
def updTime (s : State) : State :=
  let s1 := watchCoord (retryUpd s)
  if s1.upd.resetDue && !updLeaving s1 then updReset s1 else s1

/-! Status words formed on a read (Table 17.13). -/

/-- UPD_STAT. -/
def updStat (s : State) : Word :=
  pack [(0, s.upd.phase), (2, s.upd.bank), (3, s.upd.gen), (4, b2n (coordinates s)), (5, b2n s.updAon.expired),
        (6, b2n (s.upd.orphan && orphaned s)), (10, clampN 0 3 s.upd.boots), (12, s.upd.step)]
/-- UPD_PSTAT. -/
def updPstat (s : State) : Word :=
  let w := putBit (s.reg 0xA82008) 0 s.upd.part.isSome
  if s.upd.cmd.isSome then putBit w 1 true else w
/-- FILL. -/
def updFill (s : State) : Nat := match s.upd.part with | some p => p.fill | none => 0
/-- UPD_CDONE. -/
def updCdone (s : State) : Word := if s.upd.step = 0 then 0 else w16 (((stepAnswers s).filter fun d => (manifestDevs s).contains d).length)
/-- UPD_CMISS. -/
def updCmiss (s : State) : Word :=
  match unanswered s with
  | d :: _ => if s.upd.step = 0 then 0 else pack [(0, d), (15, 1)]
  | [] => 0

end Sys2Proof.Machine
end

