-- ==== Sys2Proof/Machine/BusRead.lean ====
section
/-! DEFINITION. What a read of an island window returns: the stored words, and those that hardware forms.
The readings and choices it rests on: notes/assumptions/7, 12, 17, 31, 34, 35, 67. -/

namespace Sys2Proof.Machine

/-! Control blocks. -/

/-- The island whose control block an address lies in (Tables 1.6 and 1.7). -/
def icbIsland (a : Nat) : Option Island :=
  if a / 256 = 0xA8FB then some .cpa
  else if a / 256 = 0xA8FC then some .cpb
  else if a % 0x10000 / 256 = 0xFF ∧ 0xA00000 ≤ a then islandOf (a / 0x10000 - 0xA0)
  else none

/-- A word of an island control block. -/
def formIcb (s : State) (i : Island) (a : Nat) : Word :=
  match a % 256 with
  | 1 => icbClk s i
  | 2 => icbState s i
  | _ => s.reg a

/-- The logical core whose per-core block an address lies in, and the word in it (Table 5.11). -/
def coreWord (a : Nat) : Option (Nat × Nat) :=
  let k := a % 256
  let first := if a / 256 = 0xA8FD then 0 else 4
  if (a / 256 = 0xA8FD ∨ a / 256 = 0xA8FE) ∧ 0x10 ≤ k ∧ k < 0xD0 then some (first + (k - 0x10) / 0x30, (k - 0x10) % 0x30) else none

/-- CCB_CORE's two bits of a physical core (R131, R155, R156). -/
def coreBits (s : State) (p : Nat) : Nat :=
  let ph := s.physPair (p / 2)
  if ph.retired then 3
  else if ph.standby then 2
  else
    match (List.range 8).find? fun c => decide (s.physCore c = p) && !(s.core (s.lead c)).dormant with
    | none => 0
    | some c => match (s.core (s.lead c)).st with | .inReset => 0 | .running => 1 | .stopped => 2
/-- CCB_CORE of CPA, or of CPB. -/
def ccbCore (s : State) (first : Nat) : Word := pack ((List.range 4).map fun k => (2 * k, coreBits s (first + k)))

/-- A word of a per-core block (Table 5.12); a partner's block reads as its lead's. -/
def formCore (s : State) (c k : Nat) : Word :=
  let l := s.lead c
  let e := s.core l
  match k with
  | 0x00 => if e.st = .inReset then 0 else packBits [(0, decide (e.st = .running)), (1, e.wait.isSome), (2, s.paired l),
      (3, (s.physPair (s.mapPair (l / 2))).standby), (4, e.dfault)] ||| pack [(5, s.physCore l)]
  | 0x1A => w16 (timerLeft s l 0)
  | 0x1B => w16 (timerLeft s l 1)
  | 0x21 => w16 (wdgCount s l)
  | 0x23 => w16 e.mism
  | 0x24 => pack [(0, Nat.min 0xFFF e.since)]
  | 0x25 => pack [(0, Nat.min 0x3FF e.log.length)]
  | _ => s.reg (coreBlock l + k)

/-! Channel ports (Tables 7.2, 7.4, 7.5). -/

/-- The channel whose port an address lies in, and the word. -/
def portWord (a : Nat) : Option (ChanRef × Nat) :=
  (outIslands.find? fun i => decide (window i.island ≤ a) && decide (a < window i.island + 0x20 * i.count)).map fun i =>
    (⟨i, (a - window i.island) / 0x20⟩, a % 0x20)

/-- STATE.OUT by island. -/
def outOfChan (s : State) (ch : ChanRef) : Nat :=
  match ch.isl with
  | .sw => swOut s ch
  | .act => actOut s ch.idx
  | .lux => luxOut s ch.idx
  | .fld => fldOut s ch.idx

/-- The channel waits for staggering or the governor. -/
def chanWaits (s : State) (ch : ChanRef) : Bool :=
  match ch.isl with
  | .sw => decide (swWhy s ch = 7) || decide (swWhy s ch = 8)
  | _ => false

/-- STATE. -/
def portState (s : State) (ch : ChanRef) : Word :=
  let c := s.chan ch
  pack [(0, outOfChan s ch), (3, ctrlOf c)] |||
    packBits [(5, c.pend.isSome), (6, bandOff s ch), (7, decide (c.ceil ≠ 0) || c.waitFrom.isSome), (8, chanWaits s ch)]

/-- A temperature of the wire model in 0.1 °C. -/
def wireWord (c : Chan) : Word :=
  match c.wireT with
  | none => 0x8000#16
  | some t => wordOfInt (clampI (-32767) 32767 (t * 10).floor)

/-- STAT_B of an SW channel (Table 8.6). -/
def swStatB (s : State) (ch : ChanRef) : Word :=
  let c := s.chan ch
  pack [(0, c.evid), (7, b2n (lowDuty ch c)), (8, b2n (etsUsed ch c)), (9, swWhy s ch), (13, swCluster ch.idx)]
/-- STAT_C of an SW channel (Table 8.7). -/
def swStatC (c : Chan) : Word :=
  pack [(0, b2n c.stall), (1, b2n c.regul), (2, Nat.min 3 c.tlstart), (4, b2n c.wirelock), (8, c.ceil)]

/-- A word of a channel port. -/
def formPort (s : State) (ch : ChanRef) (w : Nat) : Word :=
  let c := s.chan ch
  let stored := s.reg (ch.port w)
  match w with
  | 0x10 => portState s ch
  | 0x11 => putFld stored 0 3 (codeOf s ch)
  | 0x15 => pack [(0, Nat.min 31 c.count), (5, Nat.min 15 c.recur.length)]
  | 0x16 => if ch.isl = .sw then wireWord c else 0x8000#16
  | 0x1A => w16 (((pauseLeft s c).getD 0 + 999) / 1000)
  | 0x1B => pack ((match c.carries with | some k => [(0, k), (7, 1)] | none => []) ++
      (match c.carriedBy with | some k => [(8, k), (15, 1)] | none => []))
  | 0x1C => pack [(0, c.reason), (3, c.retDiag)]
  | 0x1D => match ch.isl with | .lux => luxStatA s ch.idx | .fld => fldStatA s ch.idx | _ => stored
  | 0x1E => match ch.isl with
      | .sw => swStatB s ch | .act => actStatB s ch.idx | .lux => luxStatB s ch.idx | .fld => stored
  | 0x1F => match ch.isl with | .sw => swStatC c | .lux => luxStatC s ch.idx | _ => stored
  | _ => stored

/-! The windows. -/

/-- Words of the SW, ACT and LUX blocks formed on a read. -/
def formOut (s : State) (a : Nat) : Word :=
  if a = 0xA0F001 then govStat s
  else if 0xA0F018 ≤ a ∧ a < 0xA0F020 then cluStat s (a - 0xA0F018)
  else if a = 0xA1F004 then bstStat s
  else if a = 0xA1F006 then w16 (Nat.min 0xFFFF (bstEavail s))
  else if 0xA1F010 ≤ a ∧ a < 0xA1F014 then bankStat s (a - 0xA1F010)
  else if a = 0xA1F018 then pkQueue s
  else if a = 0xA2F001 then packBits [(0, s.lux.gcPend)]
  else if a = 0xA2F006 then fbCmdWord s
  else if a = 0xA2F007 then fbStat s
  else if a = 0xA2F00C then calCmdWord s
  else if 0xA2F0C0 ≤ a ∧ a < 0xA2F100 then lampLead s (a - 0xA2F0C0)
  else s.reg a

/-- Words of NET formed on a read. -/
def formNet (s : State) (a : Nat) : Word :=
  if 0xA30100 ≤ a ∧ a < 0xA30200 then
    let n := (a - 0xA30100) / 0x20
    match a % 0x20 with | 6 => canStat s n | 0xC => gwqWord s n | 0xF => canBorecWord s n | _ => s.reg a
  else if 0xA30200 ≤ a ∧ a < 0xA302C0 then
    let k := (a - 0xA30200) / 0x20
    match a % 0x20 with | 7 => ethStat s k | 8 => ethTc10Word s k | 0xD => gwqWord s (8 + k) | _ => s.reg a
  else if 0xA30300 ≤ a ∧ a < 0xA303C0 ∧ a % 0x10 = 8 then linWakeWord s ((a - 0xA30300) / 0x10)
  else match a with
    | 0xA30001 => netCmdWord s
    | 0xA30806 => wklCmdWord s
    | 0xA3004A => trRun s
    | 0xA3004B => trQuiet s
    | 0xA3004C => trVeto s
    | 0xA3004D => trVetoAge s
    | _ => s.reg a

/-- Words of SEC formed on a read. -/
def formSec (s : State) (a : Nat) : Word :=
  if 0xA42100 ≤ a ∧ a < 0xA42200 then ksInfo s a
  else match a with
    | 0xA41022 => spiStat s 0
    | 0xA41025 => spiStat s 1
    | 0xA41046 => immoStat s
    | 0xA41066 => putFld (s.reg a) 4 7 (enrolments s)
    | 0xA4200E => w16 s.alive
    | 0xA42010 => trnStat s
    | 0xA42011 => cipherQueue s
    | _ => s.reg a

/-- Words of FLD formed on a read. -/
def formFld (s : State) (a : Nat) : Word :=
  if 0xA5F030 ≤ a ∧ a < 0xA5F050 then inStat s .fi (a - 0xA5F030)
  else match a with
    | 0xA5F000 => fldVstat s
    | 0xA5F070 => inBits s 64 0 (·.st)
    | 0xA5F071 => inBits s 64 16 (·.st)
    | 0xA5F074 => inBits s 64 0 (·.wbrk)
    | 0xA5F075 => inBits s 64 16 (·.wbrk)
    | 0xA5F076 => inBits s 64 0 (·.supinv)
    | 0xA5F077 => inBits s 64 16 (·.supinv)
    | _ => s.reg a

/-- Words of AON formed on a read. -/
def formAon (s : State) (a : Nat) : Word :=
  if 0xA70230 ≤ a ∧ a < 0xA70260 then inStat s .si (a - 0xA70230)
  else match a with
    | 0xA70100 => pwrStatus s
    | 0xA7010C => vsenStat s
    | 0xA7029B => inBits s 0 0 (·.st)
    | 0xA7029C => inBits s 0 16 (·.st)
    | 0xA7029D => inBits s 0 32 (·.st)
    | _ => s.reg a

/-- Words of SUP formed on a read. -/
def formSup (s : State) (a : Nat) : Word :=
  if 0xA80400 ≤ a ∧ a < 0xA80800 then s.shadow.get (fun _ => 0#16) (a - 0xA80400)
  else match coreWord a with
    | some (c, k) => formCore s c k
    | none =>
      match a with
      | 0xA80005 => brgStatus s
      | 0xA81009 => samplerStat s
      | 0xA82000 => updStat s
      | 0xA82001 => w16 s.upd.mref
      | 0xA82002 => w16 (s.upd.mref / 65536)
      | 0xA82008 => updPstat s
      | 0xA82009 => w16 (updFill s)
      | 0xA8200A => w16 (updFill s / 65536)
      | 0xA8200B => w16 (updLeft s)
      | 0xA82010 => updCdone s
      | 0xA82011 => updCmiss s
      | 0xA8FD01 => ccbCore s 0
      | 0xA8FE01 => ccbCore s 4
      | _ => s.reg a

/-- What a register word reads as, but for the reads that change something. -/
def formed (s : State) (a : Nat) : Word :=
  match icbIsland a with
  | some i => formIcb s i a
  | none =>
    match portWord a with
    | some (ch, w) => formPort s ch w
    | none =>
      match outIslands.find? fun i => decide (a = i.oib + 0x0A), outIslands.find? fun i => decide (a = i.oib + 2) with
      | some i, _ => retStat s i
      | _, some i => packBits [(0, s.regBit (i.oib + 3) 1)]
      | _, _ =>
        match a / 65536 with
        | 0xA3 => formNet s a
        | 0xA4 => formSec s a
        | 0xA5 => formFld s a
        | 0xA7 => formAon s a
        | 0xA8 => formSup s a
        | _ => formOut s a

/-- A read of CYC_LO of a logical core: it captures CYC_HI (R157). -/
def cycRead (c : Nat) (s : State) : Word × State :=
  let l := s.lead c
  let n := if (s.core l).st = .inReset then 0 else 250 * (s.now - (s.core l).cycBase)
  (w16 n, s.setReg (coreBlock l + 0x19) (w16 (n / 65536)))

/-- A read of an island window: the word, and what the read changes. -/
def busRead (a : Nat) (s : State) : Word × State :=
  match coreWord a with
  | some (c, 0x18) => cycRead c s
  | _ =>
    match a with
    | 0xA70110 => let t := rtcCapture s; (t.reg a, t)
    | 0xA30007 => let t := netUsCapture s; (t.reg a, t)
    | 0xA30808 => wklStat s
    | 0xA41021 => spiRead 0 s
    | 0xA41024 => spiRead 1 s
    | 0xA4200F => trnRead s
    | _ => (formed s a, s)

end Sys2Proof.Machine
end

