-- ==== Sys2Proof/Machine/BusWrite.lean ====
section
/-! DEFINITION. What a write to an island window does, once it reaches the island (R12, R40 and the rules of each
word that starts an action).
The readings and choices it rests on: notes/assumptions/7, 17, 22. -/

namespace Sys2Proof.Machine

/-- A write to an island control block (R40). -/
def icbWrite (i : Island) (a : Nat) (v : Word) (s : State) : State :=
  if a % 256 = 6 then (if bit v 0 then s.setReg (icb i + 5) 0 else s) else s.plainWrite a v

/-- A write to a per-core block: a partner's ignores it (R159). -/
def coreWrite (r : Requester) (c k : Nat) (v : Word) (s : State) : State :=
  if s.lead c ≠ c then s
  else match k with
    | 0x1A => timerWrite c 0 v s
    | 0x1B => timerWrite c 1 v s
    | 0x20 => wdgKick r c v s
    | _ => s.plainWrite (coreBlock c + k) v

/-- A write to a channel port (R191, R192, R196). -/
def portWrite (r : Requester) (ch : ChanRef) (w : Nat) (v : Word) (s : State) : State :=
  if w < 15 then stagingWrite r ch w v s
  else if w = 15 then commitWrite r ch v s
  else s.plainWrite (ch.port w) v

/-- A write to an output island control block (Table 7.12). -/
def oibWrite (r : Requester) (i : OutIsl) (k : Nat) (v : Word) (s : State) : State :=
  match k with
  | 2 => profCmd i v s
  | 9 => retClear r i v s
  | _ => s.plainWrite (i.oib + k) v

/-- A write of BST_SET, BST_VMIN, BST_CAP or BST_CTRL: the converter follows (R276). -/
def boostWrite (a : Nat) (v : Word) (s : State) : State := boostFollow (s.plainWrite a v)

/-- A write of LUX_MXCTRL: with RUN clear the scan stops (R298). -/
def matrixCtrl (v : Word) (s : State) : State :=
  let s1 := s.plainWrite 0xA2F005 v
  if bit v 0 then s1 else { s1 with lux := { s1.lux with live := false, slot := none } }

/-- A write to the SW, ACT and LUX blocks. -/
def outWrite (r : Requester) (a : Nat) (v : Word) (s : State) : State :=
  if 0xA24000 ≤ a ∧ a < 0xA24900 then bufferWrite r (a - 0xA24000) v s
  else match a with
    | 0xA1F000 | 0xA1F001 | 0xA1F002 | 0xA1F003 => boostWrite a v s
    | 0xA1F009 => bankClr r v s
    | 0xA2F000 => gcWrite v s
    | 0xA2F005 => matrixCtrl v s
    | 0xA2F006 => fbCmd v s
    | 0xA2F00C => calCmd v s
    | _ => s.plainWrite a v

/-- A write to NET's window. -/
def netWrite (a : Nat) (v : Word) (s : State) : State :=
  if 0xA30100 ≤ a ∧ a < 0xA30200 then
    let n := (a - 0xA30100) / 0x20
    match a % 0x20 with
    | 0 => canMode n v s
    | 0xA => txrWp n v s
    | 0xF => canBorec n v s
    | _ => s.plainWrite a v
  else if 0xA30200 ≤ a ∧ a < 0xA302C0 then
    let k := (a - 0xA30200) / 0x20
    match a % 0x20 with
    | 8 => if k < 2 then ethTc10 k v s else s
    | 0xB => txrWp (8 + k) v s
    | _ => s.plainWrite a v
  else if 0xA30300 ≤ a ∧ a < 0xA303C0 then
    let n := (a - 0xA30300) / 0x10
    match a % 0x10 with
    | 2 => linHdr n v s
    | 8 => linWakeSend n v s
    | _ => s.plainWrite a v
  else if 0xA34000 ≤ a ∧ a < 0xA35800 ∧ a % 8 = 5 then
    linPub ((a - 0xA34000) / 0x200) (BitVec.ofNat 6 ((a - 0xA34000) / 8)) s
  else match a with
    | 0xA30001 => netCmd v s
    | 0xA30040 => trCtrl v s
    | 0xA30047 => trCmd v s
    | 0xA30805 => setIso v s
    | 0xA30806 => wklCmd v s
    | _ => s.plainWrite a v

/-- A write to SEC's window. -/
def secWrite (r : Requester) (a : Nat) (v : Word) (s : State) : State :=
  if 0xA42020 ≤ a ∧ a < 0xA420A0 then
    let j := (a - 0xA42020) / 0x20
    let w := a % 0x20
    if w < 0x1A then jobStage r j w v s
    else if w = 0x1A then jobGo r j v s
    else s
  else match a with
    | 0xA41007 => accCmd v s
    | 0xA41013 => rngArm v s
    | 0xA41016 => rngTround v s
    | 0xA41021 => spiWrite 0 v (Config.freeByte s.free) s.used
    | 0xA41024 => spiWrite 1 v (Config.freeByte s.free) s.used
    | 0xA41045 => immoCmd r v s
    | 0xA41065 => enrCmd r v s
    | 0xA4200B => ksCmd r v s
    | _ => s.plainWrite a v

/-- A write of a tick generator's word: its first tick falls one new period later (R322). -/
def tickWrite (a k : Nat) (v : Word) (s : State) : State := startTicks [k] (s.plainWrite a v)

/-- A write to FLD's own words. -/
def fldWrite (a : Nat) (v : Word) (s : State) : State :=
  if 0xA5F010 ≤ a ∧ a < 0xA5F030 then inputConfig .fi (a - 0xA5F010) v s
  else if 0xA5F002 ≤ a ∧ a < 0xA5F006 then tickWrite a (4 + (a - 0xA5F002)) v s
  else s.plainWrite a v

/-- A write to AON's window. -/
def aonWrite (a : Nat) (v : Word) (s : State) : State :=
  if 0xA70200 ≤ a ∧ a < 0xA70230 then inputConfig .si (a - 0xA70200) v s
  else match a with
    | 0xA70101 => pwrCtrl v s
    | 0xA70104 => wakeClear v s
    | 0xA70117 => rtcCmd v s
    | 0xA70290 | 0xA70291 | 0xA70292 | 0xA70293 => tickWrite a (a - 0xA70290) v s
    | _ => s.plainWrite a v

/-- A write to LNK's window. -/
def lnkWrite (r : Requester) (a : Nat) (v : Word) (s : State) : State :=
  if 0xA60010 ≤ a ∧ a < 0xA60030 ∧ a % 8 = 0 then portConfig ((a - 0xA60010) / 8) v s
  else if 0xA60010 ≤ a ∧ a < 0xA60030 ∧ a % 8 = 3 then portCommand ((a - 0xA60010) / 8) v s
  else match a with
    | 0xA6000E => remoteReset r v s
    | 0xA60079 => mailGo v s
    | 0xA6008A => channelGo v s
    | _ => s.plainWrite a v

/-- A write of a word of SAFE_KEEP: while the safe latch is set a channel no longer kept turns off, and one now kept runs on
under its active set (R437). -/
def keepWrite (a : Nat) (v : Word) (s : State) : State :=
  let s1 := s.plainWrite a v
  if s1.regBit 0xA70303 0 then safeEnd (safeOff s1) else s1

/-- A write to SUP's window. -/
def supWrite (r : Requester) (a : Nat) (v : Word) (s : State) : State :=
  if 0xA81040 ≤ a ∧ a < 0xA8104E then keepWrite a v s
  else match coreWord a with
  | some (c, k) => coreWrite r c k v s
  | none =>
    match a with
    | 0xA80002 => rstRequest v s
    | 0xA80007 => marCtrl v s
    | 0xA80012 => otpCmd v s
    | 0xA81008 => samplerCmd r v s
    | 0xA82007 => updCmd r v s
    | 0xA8FD02 => spareWrite r v s
    | _ => s.plainWrite a v

/-- A write to an island window, as the island or SUP applies it. -/
def busWrite (r : Requester) (a : Nat) (v : Word) (s : State) : State :=
  match icbIsland a with
  | some i => icbWrite i a v s
  | none =>
    match portWord a with
    | some (ch, w) => portWrite r ch w v s
    | none =>
      match outIslands.find? fun i => decide (a / 256 = i.oib / 256) with
      | some i => oibWrite r i (a - i.oib) v s
      | none =>
        match a / 65536 with
        | 0xA3 => netWrite a v s
        | 0xA4 => secWrite r a v s
        | 0xA5 => fldWrite a v s
        | 0xA6 => lnkWrite r a v s
        | 0xA7 => aonWrite a v s
        | 0xA8 => supWrite r a v s
        | 0xA9 => if a = 0xA90005 then flashCmd r v s else s.plainWrite a v
        | _ => outWrite r a v s

end Sys2Proof.Machine
end

