-- ==== Sys2Proof/Machine/Bus.lean ====
section
/-! DEFINITION. How a core's loads and stores reach memory, islands and the remote window: the region rules of R137, the
gates (R22–R30), local memory (R37).
The readings and choices it rests on: notes/assumptions/14, 15, 16, 17, 68. -/

namespace Sys2Proof.Machine

/-! Gates. -/

/-- The destination logic applies a transfer: at LNK a store into the remote window is sent on (R458); an access to MEM's
window is a request to MEM (R42). -/
def applyXfer (x : Xfer) (s : State) : State :=
  if 0xC00000 ≤ x.a then remoteStore x.a x.v s
  else if windowIsland x.a = some .mem then
    busWrite x.r x.a x.v (match x.r with | .core c => memAccess (s.coreIsland c) c s | _ => s)
  else busWrite x.r x.a x.v s

/-- The head of a gate is applied, unless its destination does not run, its source side is fenced, or LNK holds 32 requests
(R24, R30, R458); a transfer that waited at the source takes the free entry (R22). -/
def gateStep (src dst : Nat) (s : State) : State :=
  let g := s.gate src dst
  match g.q with
  | [] => s
  | x :: rest =>
    let run := match islandOf dst with | some i => s.running i | none => false
    if !run ∨ g.fenced ∨ (0xC00000 ≤ x.a ∧ 32 ≤ openRequests s) then s
    else applyXfer x (s.setGate src dst { g with q := rest ++ g.src.take 1, src := g.src.drop 1 })

/-- The transfers a gate holds and those that wait at its source are applied in their order, as far as its destination
takes them. -/
def drainGate (src dst : Nat) (s : State) : State :=
  (List.range ((s.gate src dst).q.length + (s.gate src dst).src.length)).foldl (fun t _ => gateStep src dst t) s

/-- Nothing is left in a gate. -/
def gateEmpty (s : State) (src dst : Nat) : Bool := (s.gate src dst).q.isEmpty && (s.gate src dst).src.isEmpty

/-- A posted store enters a gate of 4 entries; where the FIFO is full its head is applied first, and where that cannot be
the store waits on the source side and stalls its core (R22, R23). -/
def post (src dst : Nat) (x : Xfer) (s : State) : State :=
  let s1 := if 4 ≤ (s.gate src dst).q.length then gateStep src dst s else s
  let g := s1.gate src dst
  s1.setGate src dst (if 4 ≤ g.q.length ∨ g.src ≠ [] then { g with src := g.src ++ [x] } else { g with q := g.q ++ [x] })

/-- A core is stalled: one of its stores waits at the source of a full gate (R22). -/
def coreStalled (s : State) (c : Nat) : Bool :=
  (List.range 12).any fun dst => (s.gate (s.coreIsland c).num dst).src.any fun x =>
    match x.r with | .core d => decide (s.lead d = s.lead c) | _ => false

/-- The gates out of the cores deliver what they hold. -/
def drainCores (s : State) : State :=
  (List.range 12).foldl (fun t dst => drainGate 11 dst (drainGate 10 dst t)) s

/-! The region rules (R137, step 5). -/

/-- The cause of the region rule an access breaks; none where it proceeds. -/
def regionCode (s : State) (c : Nat) (w at_ : Bool) (a : Nat) : Option Nat :=
  let via := s.gateOpen (s.coreIsland c)
  let flash (busy : Bool) : Option Nat :=
    if !via .mem then some 0x0B
    else if at_ then some 0x13
    else if w then some 0x0D
    else if busy then some 0x0C else none
  if a < 0x800000 then flash (bankBusy s (a / 0x400000))
  else if a < 0x880000 then (if via .mem then none else some 0x0B)
  else if inAlias a then none
  else if inLocals a then
    if ownLocal s c a then none
    else if !via (s.coreIsland (localOf a)) then some 0x0B
    else if s.lead (localOf a) ≠ localOf a then some 0x0E else none
  else if 0x900000 ≤ a ∧ a < 0x920000 then flash (settingsBusyIn s ((a - 0x900000) / 0x10000))
  else match windowIsland a with
    | some i =>
      if !via i then some 0x0B
      else if at_ then some 0x13
      else if !blockDefined a then some 0x12 else none
    | none =>
      if 0xC00000 ≤ a ∧ a < 0xE00000 then
        let (k, d, _) := aperture s a
        if !via .lnk then some 0x0B
        else if !s.regBit (0xA60040 + 4 * k) 15 then some 0x0F
        else if at_ then some 0x13
        else if w then none
        else match (s.core (s.lead c)).remTag, (s.core (s.lead c)).remAns with
          | _, some (k, _) => if k = 0 then none else some 0x14
          | some _, none => none
          | none, none => if reachable s d then none else some 0x14
      else some 0x0A

/-! Loads and stores of a core. -/

/-- What a load comes to. -/
inductive Loaded where
  | value (v : Word) (s : State)
  | doubleBit
  | waiting (s : State)

/-- A word that a core names reads with a double-bit error (R35, R150). -/
def coreDouble (s : State) (c a : Nat) : Bool :=
  (decide (a < 0x900000) || inSettings a) && s.badWord (localAddr s c a)

/-- The core goes on as it did: nothing that arrived has reset or stopped it. -/
def runsOn (c : Nat) (s t : State) : Bool :=
  decide ((t.core c).st = (s.core c).st) && decide ((t.core c).cycBase = (s.core c).cycBase)

/-- A load from the remote window: sent once, then waiting for its answer (R458). -/
def remoteLoaded (s : State) (c a : Nat) : Loaded :=
  let k := s.core c
  match k.remTag, k.remAns with
  | _, some (_, v) => .value v (s.modCore c fun k => { k with remTag := none, remAns := none })
  | some _, none => .waiting s
  | none, none =>
    if 32 ≤ openRequests s then .waiting s
    else
      let s1 := remoteLoad c a s
      let sent := (s1.lnk.reqs ++ s1.lnk.held.map (·.1)).find? fun q => decide (q.kind = .load c)
      .waiting (s1.modCore c fun k => { k with remTag := sent.map (·.tag) })

/-- A store of a core waits to be applied to another pair's local memory (R151). -/
def heldBy (l : Nat) (k : Core) : Bool :=
  k.held.any fun e => match e.1 with | .core d => decide (d.val = l) | _ => false

/-- A load by a core at a checked address (R23, R25, R37, R42); it waits behind earlier stores that its island has not yet
applied. A load in flight when its island stops is not applied
(R30): it waits, and meets the fence when it is issued again. -/
def coreLoad (s : State) (c a : Nat) : Loaded :=
  if ownLocal s c a ∨ inLocals a then
    if coreDouble s c a then .doubleBit
    else if !ownLocal s c a && heldBy (s.lead c) (s.core (s.lead (localOf a))) then .waiting s
    else
      let s1 := s.heal (localAddr s c a)
      .value (s1.memWord (localAddr s c a)) s1
  else if a < 0x920000 then
    let s1 := memAccess (s.coreIsland c) (s.lead c) s
    if coreDouble s1 c a then .doubleBit else .value (s1.memWord a) s1
  else match windowIsland a with
    | some i =>
      let s1 := drainGate (s.coreIsland c).num i.num s
      if !s1.running i then .waiting (s1.setRegBit (icb i + 3) 0 true)
      else if runsOn c s s1 && gateEmpty s1 (s.coreIsland c).num i.num then
        let p := busRead a (if i = .mem then memAccess (s1.coreIsland c) (s1.lead c) s1 else s1)
        .value p.1 p.2
      else .waiting s1
    | none =>
      let s1 := drainGate (s.coreIsland c).num 6 s
      if gateEmpty s1 (s.coreIsland c).num 6 then remoteLoaded s1 (s.lead c) a else .waiting s1

/-- A store by a core at a checked address (R23, R27, R37, R42). A store to RST_REQ is done before the core's next
instruction (R106). -/
def coreStore (s : State) (c a : Nat) (v : Word) : State :=
  let l := s.lead c
  if ownLocal s c a then s.storeWord (localAddr s c a) v
  else if inLocals a then foreignStore (.core (Fin.ofNat 8 l)) (s.lead (localOf a)) (localAddr s c a) v s
  else if a < 0x880000 then issueMem (s.coreIsland c) l (some (a, v)) s
  else
    let x : Xfer := { r := .core (Fin.ofNat 8 l), a := a, v := v }
    let s1 := serveOwn (s.coreIsland c) l s
    match windowIsland a with
    | some i =>
      let s2 := post (s.coreIsland c).num i.num x s1
      if a = 0xA80002 then drainGate (s.coreIsland c).num i.num s2 else s2
    | none => post (s.coreIsland c).num 6 x s1

/-- An access that must read and write at once can: one to another pair's local memory waits while that pair cannot take a
write (R148, R151). -/
def atomicOpen (s : State) (c a : Nat) : Bool := !inLocals a || ownLocal s c a || takesWrite (s.lead (localOf a)) s

/-- The write of an atomic access, at once with its read (R180, R181). -/
def coreWriteNow (s : State) (c a : Nat) (v : Word) : State :=
  if inLocals a ∧ !ownLocal s c a then
    foreignStore (.core (Fin.ofNat 8 (s.lead c))) (s.lead (localOf a)) (localAddr s c a) v s
  else s.storeWord (localAddr s c a) v

/-- Every earlier store of a core is served or applied (R144). -/
def drainCore (c : Nat) (s : State) : State :=
  let s1 := serveOwn (s.coreIsland c) (s.lead c) s
  (List.range 12).foldl (fun t dst => drainGate (s.coreIsland c).num dst t) s1

/-- Nothing that a core has stored is still on its way: no request at MEM, no transfer of its own in a gate, no word held
back for another pair's local memory (R144). -/
def storesDone (c : Nat) (s : State) : Bool :=
  !memWaits s (s.coreIsland c) (s.lead c) && (List.range 8).all (fun d => !heldBy (s.lead c) (s.core d)) &&
  (List.range 12).all (fun dst => let g := s.gate (s.coreIsland c).num dst
    (g.q ++ g.src).all fun x => match x.r with | .core d => decide (s.lead d ≠ s.lead c) | _ => true)

/-! Accesses that arrive as commands of their own. -/

/-- The requester as the island sees it: a pair under its lead's number (R196). -/
def asRequester (s : State) (r : Requester) : Requester :=
  match r with
  | .core c => .core (Fin.ofNat 8 (s.lead c))
  | _ => r

/-- What a requester sent earlier arrives first (R24, R25, R27). -/
def arriveAfter (r : Requester) (i : Island) (s : State) : State :=
  match r with
  | .core c => drainGate (s.coreIsland c).num i.num (serveOwn (s.coreIsland c) (s.lead c) s)
  | _ => s

/-- Everything a requester sent earlier to an island has been applied there. -/
def nothingAhead (r : Requester) (i : Island) (s : State) : Bool :=
  match r with
  | .core c => gateEmpty s (s.coreIsland c).num i.num
  | _ => true

/-- A write by a requester that reaches an island in RUN through an open gate; another island takes nothing (R30). Behind
earlier transfers that the island has not applied it queues in the gate (R24). -/
def accessWrite (r : Requester) (a : Nat) (v : Word) (s : State) : State :=
  match windowIsland a with
  | none => s
  | some i =>
    if !s.gateOpen (s.reqIsland r) i then s
    else
      let s1 := arriveAfter r i s
      if !s1.gateOpen (s1.reqIsland r) i then s1
      else if nothingAhead r i s1 then busWrite (asRequester s1 r) a v s1
      else post (s1.reqIsland r).num i.num { r := asRequester s1 r, a := a, v := v } s1

/-- A read by a requester: what it changes in the island, once what the requester sent earlier is applied (R25). -/
def accessRead (r : Requester) (a : Nat) (s : State) : State :=
  match windowIsland a with
  | none => s
  | some i =>
    if !s.gateOpen (s.reqIsland r) i then s
    else
      let s1 := arriveAfter r i s
      if s1.gateOpen (s1.reqIsland r) i && nothingAhead r i s1 then (busRead a s1).2 else s1

end Sys2Proof.Machine
end

