-- ==== Sys2Proof/Machine/LinkIn.lean ====
section
/-! DEFINITION. The Bobbin link's ports, what arrives over them, the inbound agent, and discovery
(R447, R450, R453–R463).
The readings and choices it rests on: notes/assumptions/54, 55, 56, 57, 58. -/

namespace Sys2Proof.Machine

/-! Ports (R447, R450, R463). -/

/-- An enabled port that is not UP from 1 ms after the release stands in the link-port-down source (R463). -/
def portReport (p : Nat) (s : State) : State :=
  if s.running .lnk ∧ s.regBit (pcfg p) 0 ∧ !portUp s p ∧ s.lnk.since + 1000 ≤ s.now then
    portSource { s with lnk := { s.lnk with down := p :: s.lnk.down.filter (· ≠ p) } }
  else s

/-- A port falls (R450). -/
def portFalls (p : Nat) (s : State) : State := portReport p (dropPort p s)

/-- The medium a port trains in: 1 on board, 2 off board; an auto port on board first (R447). -/
def trainsIn (s : State) (p : Nat) : Nat :=
  match s.regFld (pcfg p) 1 2 with
  | 1 => 1
  | 2 => 2
  | _ => if (s.lport p).tryOff then 2 else 1

/-- The port may train. -/
def mayTrain (s : State) (p : Nat) : Bool :=
  s.running .lnk && s.regBit (pcfg p) 0 && !s.regBit (pstat p) 2 && !(s.lport p).trained

/-- PORT_TRAINED: the port has trained and sends its HELLO (R447, Table 16.7). -/
def execPortTrained (p : Fin 4) (offBoard : Bool) (s : State) : Out :=
  if !mayTrain s p ∨ trainsIn s p ≠ (if offBoard then 2 else 1) then .next s
  else
    let s1 := (s.setLport p { s.lport p with trained := true }).setRegBit (pstat p) 1 offBoard
    .next (sendHello p s1)

/-- PORT_TRAIN_TIMEOUT: an auto port not trained on board within 100 µs trains off board (R447). -/
def execPortTrainTimeout (p : Fin 4) (s : State) : Out :=
  .next (if mayTrain s p ∧ s.regFld (pcfg p) 1 2 ∈ [0, 3] ∧ (s.lport p).trainFrom + 100 ≤ s.now then
    s.setLport p { s.lport p with tryOff := true } else s)

/-- LINK_RESEND: after 1 µs without progress in acknowledgement everything is sent again from the first unacknowledged
stitch; the eighth such round takes the port down (R450). -/
def execLinkResend (p : Fin 4) (s : State) : Out :=
  let r := s.lport p
  if !portUp s p ∨ r.unacked.isEmpty ∨ s.now < r.ackAt + 1 then .next s
  else
    let s1 := (s.setLport p { r with rounds := r.rounds + 1, ackAt := s.now }).setRegFld (pcfg p + 2) 8 8
      (satInc 0xFF (s.regFld (pcfg p + 2) 8 8))
    .next (if 8 ≤ r.rounds + 1 then portFalls p s1 else r.unacked.foldl (fun t e => putLine p e.1 e.2 t) s1)

/-- PORT_DOWN (R450). -/
def execPortDown (p : Fin 4) (s : State) : Out := .next (if portUp s p then portFalls p s else s)

/-- PORT_DOWN_REPORT (R463). -/
def execPortDownReport (p : Fin 4) (s : State) : Out := .next (portReport p s)

/-- STITCH_CRC_DISCARD (R450, R467). -/
def execStitchCrcDiscard (p : Fin 4) (s : State) : Out :=
  .next (if portUp s p then
    (s.setRegFld (pcfg p + 2) 0 8 (satInc 0xFF (s.regFld (pcfg p + 2) 0 8))).raise 195 (some p.val)
  else s)

/-! Answers (R456, R459). -/

/-- An answer to a request: its tag copied, its data (Table 16.2). -/
def answer (type status : Nat) (ws : List Word) (st : Stitch) (s : State) : State :=
  sendStitch { stitchFrom s type st.src.toNat with tag := st.tag, status := BitVec.ofNat 4 status, addr := st.addr,
                                                   len := BitVec.ofNat 4 ws.length, payload := ws } s
/-- ERROR with its reason (Table 16.4). -/
def answerError (code : Nat) (st : Stitch) (s : State) : State := answer 0xA code [] st s

/-! The inbound agent (R459–R462). -/

/-- LEN is 0 or above 8, or BC is set on another type than MAIL (Table 16.4, code 7). -/
def malformed (st : Stitch) : Bool :=
  decide (st.len.toNat = 0) || decide (8 < st.len.toNat) || (st.bc && decide (st.type ≠ 7))

/-- The addresses of a request. -/
def requestAddrs (st : Stitch) : List Nat := (List.range st.len.toNat).map (st.addr.toNat + ·)

/-- Where the fabric may read (R39). -/
def fabricReads (a : Nat) : Bool := decide (a < 0x880000) || inSettings a || (windowIsland a).isSome
/-- The island of Table 1.1 in whose window an address lies. -/
def winIndex (a : Nat) : Nat := a / 0x10000 - 0xA0

/-- The island that answers an address is fenced: it does not run, or the gate from LNK to it is fenced (R30, R41). -/
def fencedAt (s : State) (a : Nat) : Bool := !s.gateOpen .lnk ((windowIsland a).getD .mem)

/-- The first reason to refuse a READ; 0 where it is read (R459, in the order of its table). -/
def readRefusal (s : State) (st : Stitch) : Nat :=
  let as := requestAddrs st
  if malformed st then 7
  else if as.any fun a => !fabricReads a then 1
  else if as.any fun a => if (windowIsland a).isSome then !s.regBit 0xA60008 1 else !s.regBit 0xA60008 0 then 2
  else if as.any fun a => fencedAt s a then 3
  else if as.any fun a => (windowIsland a).isNone && s.isDbe a then 4
  else 0

/-- The words of an inbound READ; a block with no defined word reads as a free value. -/
def inboundWords : List Nat → State → List Word × State
  | [], s => ([], s)
  | a :: r, s =>
    let p := if (windowIsland a).isNone then (s.memWord a, s)
      else if blockDefined a then busRead a s else (s.freeWord, s.used)
    let q := inboundWords r p.2
    (p.1 :: q.1, q.2)

/-- The requests of an arrival port's agent to MEM, one word each (Table 1.10, R457). -/
def agentAccess (p : Fin 4) (st : Stitch) (s : State) : State :=
  memBurst .lnk p ((requestAddrs st).filter fun a => (windowIsland a).isNone).length s

/-- A READ served; a double-bit error is LNK's memory error as well (R35). -/
def serveRead (p : Fin 4) (st : Stitch) (s : State) : State :=
  match readRefusal s st with
  | 0 =>
    let w := inboundWords (requestAddrs st) (agentAccess p st s)
    answer 3 0 w.1 st w.2
  | 4 => answerError 4 st ((agentAccess p st s).raiseIsl .lnk 1 none)
  | k => answerError k st s

/-- The first reason to refuse a WRITE (R39, R459). -/
def writeRefusal (s : State) (st : Stitch) : Nat :=
  let as := requestAddrs st
  if malformed st then 7
  else if as.any fun a => (windowIsland a).isNone then 1
  else if as.any fun a => !s.regBit 0xA60009 (winIndex a) then 2
  else if as.any fun a => fencedAt s a then 3
  else 0

/-- LNK_INSRC: the device of the last inbound write applied (Table 16.11). -/
def noteSource (a : Nat) (st : Stitch) (s : State) : State :=
  s.setReg (0xA60090 + winIndex a) (pack [(0, st.src.toNat), (15, 1)])

/-- A word of an inbound write; one that the owner rule discards is counted and not noted (R196, R459). -/
def inboundWrite (p : Fin 4) (a : Nat) (v : Word) (st : Stitch) (s : State) : State :=
  let s1 := busWrite (.fabric p) a v s
  match portWord a with
  | some (ch, w) => if w < 16 ∧ !ownerOk s ch (.fabric p) then s1 else noteSource a st s1
  | none => noteSource a st s1

/-- A WRITE served, word by word upwards. -/
def serveWrite (p : Fin 4) (st : Stitch) (s : State) : State :=
  match writeRefusal s st with
  | 0 =>
    let s1 := (List.range st.len.toNat).foldl (fun t k => inboundWrite p (st.addr.toNat + k) (st.payload.getD k 0) st t) s
    answer 4 0 [] st s1
  | k => answerError k st s

/-- The staging words a CHCMD's mask names, in ascending order. -/
def maskWords (m : Word) : List Nat := (List.range 15).filter fun k => bit m k

/-- The first reason to refuse a CHCMD (R460). -/
def chcmdRefusal (s : State) (st : Stitch) : Nat :=
  let a := st.addr.toNat
  if malformed st ∨ 6 < (maskWords (st.payload.getD 0 0)).length then 7
  else if (portWord a).isNone then 1
  else if !s.regBit 0xA60009 (winIndex a) then 2
  else if fencedAt s a then 3
  else 0

/-- A CHCMD served: the masked words, COMMIT, then STATE, ACK and ACK_SRC (R460). -/
def serveChcmd (p : Fin 4) (st : Stitch) (s : State) : State :=
  match chcmdRefusal s st, portWord st.addr.toNat with
  | 0, some (ch, _) =>
    let ks := maskWords (st.payload.getD 0 0)
    let s1 := ((List.range ks.length).zip ks).foldl
      (fun t e => inboundWrite p (ch.port e.2) (st.payload.getD (e.1 + 1) 0) st t) s
    let s2 := inboundWrite p (ch.port 0xF) (st.payload.getD 7 0) st s1
    answer 6 0 [formPort s2 ch 0x10, formPort s2 ch 0x17, formPort s2 ch 0x18] st s2
  | k, _ => answerError k st s

/-- MBX_m. -/
def mailbox (m : Nat) : Nat := 0xA60100 + 0x40 * m
/-- The mailbox is full: WP + 1 = RP modulo 4 (Table 16.11). -/
def mailFull (s : State) (m : Nat) : Bool :=
  decide ((s.regFld (mailbox m + 0x29) 0 2 + 1) % 4 = s.regFld (mailbox m + 0x28) 0 2)
/-- A MAIL stored in its slot (R461). -/
def storeMail (m : Nat) (st : Stitch) (s : State) : State :=
  let k := s.regFld (mailbox m + 0x29) 0 2
  let ws := [pack [(0, st.src.toNat), (9, b2n st.bc)], pack [(0, st.seq.toNat)]] ++ (List.range 8).map (st.payload.getD · 0)
  linkEvent 0 ((s.setRegList (mailbox m + 10 * k) ws).setReg (mailbox m + 0x29) (w16 ((k + 1) % 4)))

/-- A MAIL served; a broadcast is never answered (R461). -/
def serveMail (st : Stitch) (s : State) : State :=
  let m := st.addr.toNat % 8
  if st.bc then
    if malformed st ∨ !s.regBit 0xA60008 2 then s
    else if mailFull s m then s.regInc (mailbox m + 0x2A)
    else storeMail m st s
  else if malformed st then answerError 7 st s
  else if !s.regBit 0xA60008 2 then answerError 2 st s
  else if mailFull s m then answerError 6 st s
  else answer 8 0 [] st (storeMail m st s)

/-- A RESET served (R462). -/
def serveReset (st : Stitch) (s : State) : State :=
  if malformed st then answerError 7 st s
  else if !s.regBit 0xA60008 3 ∨ st.payload.getD 0 0 ≠ 0x5A5A#16 then answerError 2 st s
  else resetSource 13 0 0 s

/-- A request served by the inbound agent. -/
def serveRequest (p : Fin 4) (st : Stitch) (s : State) : State :=
  match st.type.toNat with
  | 1 => serveRead p st s
  | 2 => serveWrite p st s
  | 5 => serveChcmd p st s
  | 7 => serveMail st s
  | 9 => serveReset st s
  | _ => s

/-- A READ that MEM holds aside: its bank or generation is busy (R34). -/
def mustWait (s : State) (st : Stitch) : Bool :=
  decide (st.type = 1) && decide (readRefusal s st ∈ [0, 4]) && (requestAddrs st).any fun a =>
    (decide (a < 0x800000) && bankBusy s (a / 0x400000)) ||
      (inSettings a && settingsBusyIn s ((a - 0x900000) / 0x10000))

/-- The requests of one arrival port are served in their order (R459). -/
def inbound (p : Fin 4) (st : Stitch) (s : State) : State :=
  if (s.lnk.waitq.any fun e => decide (e.1 = p.val)) ∨ mustWait s st then
    { s with lnk := { s.lnk with waitq := s.lnk.waitq ++ [(p.val, st)] } }
  else serveRequest p st s

/-- Requests that waited for MEM are tried again. -/
def retryWaiting (s : State) : State :=
  if !s.running .lnk then s else
  s.lnk.waitq.foldl (fun t e => inbound (Fin.ofNat 4 e.1) e.2 t) { s with lnk := { s.lnk with waitq := [] } }

/-- The stitch came over a port that is UP, or from this device itself (R458). -/
def cameIn (s : State) (p : Fin 4) (st : Stitch) : Bool := portUp s p || ownId s == some st.src.toNat

/-- The stitch is for the local agent of a device with a valid ID. -/
def forUs (s : State) (st : Stitch) : Bool :=
  s.running .lnk && (ownId s).isSome && (st.bc || ownId s == some st.dest.toNat)

/-- READ (R459). -/
def execReadStitch (p : Fin 4) (st : Stitch) (s : State) : Out :=
  .next (if st.type = 1 ∧ forUs s st ∧ cameIn s p st then inbound p st s else s)
/-- WRITE (R459). -/
def execWriteStitch (p : Fin 4) (st : Stitch) (s : State) : Out :=
  .next (if st.type = 2 ∧ forUs s st ∧ cameIn s p st then inbound p st s else s)
/-- CHCMD (R460). -/
def execChcmd (p : Fin 4) (st : Stitch) (s : State) : Out :=
  .next (if st.type = 5 ∧ forUs s st ∧ cameIn s p st then inbound p st s else s)
/-- RESET (R462). -/
def execResetStitch (p : Fin 4) (st : Stitch) (s : State) : Out :=
  .next (if st.type = 9 ∧ forUs s st ∧ cameIn s p st then inbound p st s else s)

/-! Broadcast mail (R456). -/

/-- The list of SRC and SEQ with one more; what lies 128 or more behind of the same sender is forgotten, since SEQ counts
modulo 256. -/
def remember (src seq : Nat) (l : List (Nat × Nat)) : List (Nat × Nat) :=
  (src, seq) :: l.filter fun e => decide (e.1 ≠ src) || decide ((seq + 256 - e.2) % 256 < 128)

/-- A broadcast passes on through outputs, unless it has crossed 15 links (R456). -/
def mailOn (inp : Nat) (ps : List Nat) (st : Stitch) (s : State) : State :=
  if ps.isEmpty then s
  else if st.hop = 15 then s.raise 196 none
  else ps.foldl (fun t p => enqueue inp p { st with hop := st.hop + 1 } t) s

/-- A broadcast MAIL: upwards until the root, then down, each way once; delivered once, and never to its sender. What has
gone down is kept under SRC + 512. -/
def broadcastMail (p : Fin 4) (st : Stitch) (s : State) : State :=
  match ownId s with
  | none => s
  | some own =>
    let src := st.src.toNat
    let root := rootOf s own
    let lv := reach (allLinks s) root
    let nbr := s.regFld (pstat p) 4 9
    let up := decide (own ≠ root) && linkUp lv nbr own
    let key := if up then src else src + 512
    let first := !(s.lnk.bcast.contains (src, st.seq.toNat) || s.lnk.bcast.contains (src + 512, st.seq.toNat))
    let goes := if up then first else !s.lnk.bcast.contains (key, st.seq.toNat)
    let s1 := { s with lnk := { s.lnk with bcast := remember key st.seq.toNat s.lnk.bcast } }
    let s2 := if first ∧ src ≠ own then inbound p st s1 else s1
    if goes then mailOn p.val (bcastPorts s2 own up) st s2 else s2

/-- MAIL (R461). -/
def execMail (p : Fin 4) (st : Stitch) (s : State) : Out :=
  .next (if st.type = 7 ∧ forUs s st ∧ cameIn s p st then (if st.bc then broadcastMail p st s else inbound p st s) else s)

/-! Responses (R458, R460, R461). -/

/-- The open request a response answers. -/
def openRequest (s : State) (st : Stitch) : Option LReq :=
  s.lnk.reqs.find? fun q => decide (q.tag = st.tag.toNat) && decide (q.dev = st.src.toNat)

/-- The answer for a core's load. -/
def loadAnswer (c tag code : Nat) (v : Word) (s : State) : State :=
  if (s.core c).remTag = some tag then s.modCore c fun k => { k with remAns := some (code, v) } else s

/-- A request ends without its answer: a reason of Table 16.4, or 8 for a timeout. -/
def requestFails (q : LReq) (code : Nat) (s : State) : State :=
  let s1 := requestDone q s
  match q.kind with
  | .load c => loadAnswer c q.tag code 0#16 s1
  | .store k => storeFailed k s1
  | .mail => linkEvent 3 (s1.setReg 0xA6007A (pack [(1, code)]))
  | .chan => linkEvent 3 (s1.setReg 0xA6008B (pack [(1, code)]))

/-- RDATA (R458). -/
def execRdata (st : Stitch) (s : State) : Out :=
  .next (if st.type ≠ 3 ∨ !forUs s st then s
    else match openRequest s st with
      | some q => match q.kind with
        | .load c => loadAnswer c q.tag 0 (st.payload.getD 0 0) (requestDone q s)
        | _ => s
      | none => s)

/-- WACK (R458). -/
def execWack (st : Stitch) (s : State) : Out :=
  .next (if st.type ≠ 4 ∨ !forUs s st then s
    else match openRequest s st with
      | some q => match q.kind with
        | .store _ => requestDone q s
        | _ => s
      | none => s)

/-- CHACK (R460). -/
def execChack (st : Stitch) (s : State) : Out :=
  .next (if st.type ≠ 6 ∨ !forUs s st then s
    else match openRequest s st with
      | some q => match q.kind with
        | .chan => linkEvent 3 (((requestDone q s).setReg 0xA6008B (pack [(1, st.status.toNat)])).setRegList 0xA6008C
            [st.payload.getD 0 0, st.payload.getD 1 0, st.payload.getD 2 0])
        | _ => s
      | none => s)

/-- MACK (R461). -/
def execMack (st : Stitch) (s : State) : Out :=
  .next (if st.type ≠ 8 ∨ !forUs s st then s
    else match openRequest s st with
      | some q => match q.kind with
        | .mail => linkEvent 3 ((requestDone q s).setReg 0xA6007A (pack [(1, st.status.toNat)]))
        | _ => s
      | none => s)

/-- ERROR (R458). -/
def execErrorStitch (st : Stitch) (s : State) : Out :=
  .next (if st.type ≠ 0xA ∨ !forUs s st then s
    else match openRequest s st with
      | some q => requestFails q st.status.toNat s
      | none => s)

/-- REMOTE_TIMEOUT: no response within the APR_TOUT of the time it was sent (Table 16.9). -/
def execRemoteTimeout (tag : Byte) (s : State) : Out :=
  .next (if !s.running .lnk then s
    else match s.lnk.reqs.find? fun q => decide (q.tag = tag.toNat) && decide (q.due ≤ s.now) with
      | some q => requestFails q 8 s
      | none => s)

/-! Discovery (R453, R454). -/

/-- The subtype of a discovery stitch. -/
def discSub (st : Stitch) : Nat := fld (st.payload.getD 0 0) 0 4
/-- A discovery stitch of a subtype that a port takes in: UP, or HELLO after training. -/
def discHere (s : State) (p : Nat) (sub : Nat) (st : Stitch) : Bool :=
  s.running .lnk && decide (st.type = 0xB) && decide (discSub st = sub) &&
    (if sub = 1 then (s.lport p).trained else portUp s p)

/-- What identifies the sender of a flooded stitch, with its SEQ (R453). -/
def floodKey (st : Stitch) : Nat × Nat × List Word × Nat :=
  (discSub st, st.src.toNat,
    (match discSub st with | 2 => st.payload.drop 6 | 3 => (st.payload.drop 2).take 3 | _ => []), st.seq.toNat)
/-- The stitch has been here before. -/
def heard (s : State) (st : Stitch) : Bool := s.lnk.seen.contains (floodKey st)
/-- It is remembered; what lies 128 or more behind of the same sender is forgotten. -/
def noteFlood (st : Stitch) (s : State) : State :=
  let k := floodKey st
  let keep (e : Nat × Nat × List Word × Nat) : Bool :=
    !(decide (e.1 = k.1) && decide (e.2.1 = k.2.1) && decide (e.2.2.1 = k.2.2.1)) ||
      decide ((k.2.2.2 + 256 - e.2.2.2) % 256 < 128)
  { s with lnk := { s.lnk with seen := k :: s.lnk.seen.filter keep } }
/-- A flooded stitch goes out of every other port that is UP, up to HOP 15 (R453). -/
def refloods (p : Nat) (st : Stitch) (s : State) : State :=
  if st.hop = 15 then s
  else fourPorts.foldl (fun t q => if q ≠ p ∧ portUp t q then enqueue p q { st with hop := st.hop + 1 } t else t) s

/-- HELLO: the port comes UP with a neighbour of the same system; else it only carries HELLO (R454). -/
def execHello (p : Fin 4) (st : Stitch) (s : State) : Out :=
  if !discHere s p 1 st then .next s
  else
    let w := st.payload.getD 6 0
    let port := fld (st.payload.getD 1 0) 0 2
    let old := s.reg (pstat p)
    if st.payload.getD 5 0 ≠ sysId s then
      let s1 := if portUp s p then portFalls p s else s
      .next ((s1.setLport p { s1.lport p with trained := true }).setReg (pstat p) ((old &&& 0x0006#16) ||| 0x0008#16))
    else
      let new := (old &&& 0x0006#16) ||| pack [(0, 1), (4, fld w 0 9), (13, b2n (bit w 15)), (14, port)]
      let s1 := s.setReg (pstat p) new
      if new = old then .next s1
      else
        let s2 := portSource { s1 with lnk := { s1.lnk with down := s1.lnk.down.filter (· ≠ p.val) } }
        let s3 := topoChanged (sendLinks (reroute s2))
        .next (if bit old 0 then s3
          else linkEvent 1 { s3 with lnk := { s3.lnk with upAt := some (s3.lnk.upAt.getD s.now) } })

/-- An ID withdrawn: the device of the higher serial gives way (R454). -/
def withdrawId (s : State) : State :=
  topoChanged (reroute ((s.setRegBit 0xA60000 11 false).setRegBit 0xA60005 1 true))

/-- LINKS: flooded on, the map of the system renewed, routes computed (R453–R455). -/
def execLinksDisc (p : Fin 4) (st : Stitch) (s : State) : Out :=
  if !discHere s p 2 st ∨ heard s st then .next s
  else
    let s1 := refloods p st (noteFlood st s)
    let id := st.src.toNat
    let serial := hiLo (st.payload.getD 7 0) (st.payload.getD 6 0)
    let nbr (k : Nat) : Option Nat :=
      let w := st.payload.getD (1 + k) 0
      if bit w 15 then some (fld w 0 9) else none
    let l : Links := { id := id, serial := serial, nbrs := [nbr 0, nbr 1, nbr 2, nbr 3] }
    let mine := (Config.serial >>> 16).toNat
    if ownId s1 = some id then
      .next (if serial < mine then withdrawId { s1 with lnk := { s1.lnk with devs := l :: s1.lnk.devs } } else s1)
    else
      let old := s1.lnk.devs.find? fun e => decide (e.id = id)
      match old with
      | some o =>
        if o = l ∨ o.serial < serial then .next s1
        else
          let s2 := topoChanged (reroute { s1 with lnk := { s1.lnk with devs := l :: s1.lnk.devs.filter fun e => decide (e.id ≠ id) } })
          .next (if s2.regBit 0xA60005 0 then sendLinks s2 else s2)
      | none =>
        let s2 := topoChanged (reroute { s1 with lnk := { s1.lnk with devs := l :: s1.lnk.devs } })
        .next (if s2.regBit 0xA60005 0 then sendLinks s2 else s2)

/-- Serial words of a discovery stitch as a number. -/
def discSerial (st : Stitch) : Nat :=
  (st.payload.getD 2 0).toNat + 65536 * (st.payload.getD 3 0).toNat + 2 ^ 32 * (st.payload.getD 4 0).toNat

/-- This device allocates: its ID is fixed, and no reachable fixed ID is lower; IDs granted are not fixed (R454). -/
def isAllocator (s : State) : Bool :=
  match ownId s with
  | none => false
  | some id =>
    decide (idSource s ≠ 2) &&
      (reach (allLinks s) id).all fun e => decide (id ≤ e.1) || s.lnk.given.any fun g => decide (g.2 = e.1)

/-- The next free ID from NEG_BASE upwards. -/
def nextId (s : State) : Option Nat :=
  let base := fld (s.shadow.get (fun _ => 0#16) 0x144) 0 9
  let used := (allLinks s).map (·.id) ++ s.lnk.given.map (·.2)
  ((List.range (512 - base)).map (base + ·)).find? fun d => !used.contains d

/-- A serial gets its grant: the one it has had, or the next free ID. -/
def grantOne (serial : Nat) (s : State) : State :=
  match s.lnk.given.find? fun g => decide (g.1 = serial) with
  | some g => sendNeggrant serial g.2 s
  | none => match nextId s with
    | some id => sendNeggrant serial id { s with lnk := { s.lnk with given := (serial, id) :: s.lnk.given } }
    | none => s

/-- Serials in ascending order. -/
def insertSerial (n : Nat) : List Nat → List Nat
  | [] => [n]
  | m :: r => if n ≤ m then n :: m :: r else m :: insertSerial n r

/-- The requests heard are granted in ascending order of serial. -/
def grantHeard (s : State) : State :=
  (s.lnk.negs.foldr insertSerial []).foldl (fun t n => grantOne n t) { s with lnk := { s.lnk with negs := [] } }

/-- NEGREQ: flooded on and recorded; an allocator that has begun grants at once (R454). -/
def execNegreq (p : Fin 4) (st : Stitch) (s : State) : Out :=
  if !discHere s p 3 st ∨ heard s st then .next s
  else
    let s1 := refloods p st (noteFlood st s)
    let n := discSerial st
    let s2 := { s1 with lnk := { s1.lnk with negs := n :: s1.lnk.negs.filter (· ≠ n) } }
    .next (if s2.lnk.allocating ∧ isAllocator s2 then grantHeard s2 else s2)

/-- A time has passed since an event that has happened. -/
def timePassed (s : State) (t : Option Nat) (d : Nat) : Bool := match t with | some a => decide (a + d ≤ s.now) | none => false

/-- NEG_ALLOCATE: 2 ms after the allocator's first port came up it grants the requests heard (R454). -/
def execNegAllocate (s : State) : Out :=
  .next (if s.running .lnk ∧ isAllocator s ∧ timePassed s s.lnk.upAt 2000 ∧ s.lnk.allocating = false then
    grantHeard { s with lnk := { s.lnk with allocating := true } } else s)

/-- NEGGRANT: flooded on; the device it names takes its ID, and says so to its neighbours and in LINKS (R454). -/
def execNeggrant (p : Fin 4) (st : Stitch) (s : State) : Out :=
  if !discHere s p 4 st ∨ heard s st then .next s
  else
    let s1 := refloods p st (noteFlood st s)
    let id := fld (st.payload.getD 5 0) 0 9
    let n := discSerial st
    let s2 := { s1 with lnk := { s1.lnk with given := (n, id) :: s1.lnk.given.filter (fun g => decide (g.1 ≠ n)),
                                             negs := s1.lnk.negs.filter (· ≠ n) } }
    if n = Config.serial.toNat ∧ idSource s2 = 2 ∧ (ownId s2).isNone then
      let s3 := s2.setReg 0xA60000 (pack [(0, id), (9, 2), (11, 1)])
      let s4 := fourPorts.foldl (fun t q => if portUp t q then sendHello q t else t) s3
      .next (topoChanged (sendLinks (reroute s4)))
    else .next s2

/-- A negotiating device without an ID. -/
def negotiating (s : State) : Bool := s.running .lnk && decide (idSource s = 2) && (ownId s).isNone

/-- NEGREQ_TIMER: NEGREQ flooded every 1 ms until granted (R454). -/
def execNegreqTimer (s : State) : Out :=
  .next (if negotiating s ∧ (s.lnk.negAt.isNone ∨ timePassed s s.lnk.negAt 1000) then
    sendNegreq { s with lnk := { s.lnk with negAt := some s.now } } else s)
/-- NEG_FAIL: 20 ms after the release without a grant (R454). -/
def execNegFail (s : State) : Out :=
  .next (if negotiating s ∧ s.lnk.since + 20000 ≤ s.now then s.setRegBit 0xA60005 2 true else s)

/-- DISCOVERY_DONE: 1 ms after the last change of the topology, LNK_STAT and the discovery event; requests of the activation
that wait go out (R454, R483). -/
def execDiscoveryDone (s : State) : Out :=
  if !s.running .lnk ∨ !timePassed s s.lnk.topoAt 1000 then .next s
  else
    let s0 := { s with lnk := { s.lnk with topoAt := none } }
    let s1 := (s0.setRegBit 0xA60005 0 true).setRegFld 0xA60005 8 8 (s.regFld 0xA60005 8 8 + 1)
    let s2 := linkEvent 2 s1
    .next (if s2.running .sup then sendWaiting s2 else s2)

/-! Arrival (R456). -/

/-- A type of Table 16.3. -/
def knownType (t : Nat) : Bool := decide (1 ≤ t) && decide (t ≤ 0xC)

/-- A stitch delivered to the local agent. -/
def deliver (p : Fin 4) (st : Stitch) (s : State) : Out :=
  match st.type.toNat with
  | 3 => execRdata st s
  | 4 => execWack st s
  | 6 => execChack st s
  | 7 => execMail p st s
  | 8 => execMack st s
  | 0xA => execErrorStitch st s
  | 0xC => if malformed st then .next (answerError 7 st s)
      else .next <| updReceive (fld (st.payload.getD 0 0) 0 4)
        ⟨st.src, BitVec.ofNat 4 (fld (st.payload.getD 0 0) 4 4), (st.payload.getD 2 0 ++ st.payload.getD 1 0)⟩ s
  | _ => .next (inbound p st s)

/-- A discovery stitch that arrives. -/
def deliverDisc (p : Fin 4) (st : Stitch) (s : State) : Out :=
  match discSub st with
  | 1 => execHello p st s
  | 2 => execLinksDisc p st s
  | 3 => execNegreq p st s
  | 4 => execNeggrant p st s
  | _ => .next (if portUp s p ∧ !heard s st then refloods p st (noteFlood st s) else s)

/-- A stitch for another device (R456). -/
def forwardOn (p : Nat) (st : Stitch) (s : State) : State :=
  if st.hop = 15 then s.raise 196 none
  else match routeTo s st.dest.toNat with
    | some q => enqueue p q { st with hop := st.hop + 1 } s
    | none => if isResponse st.type.toNat then s else answerError 5 st s

/-- What a link word acknowledges is no longer kept for a resend (R450). -/
def takeAck (p seq : Nat) (s : State) : State :=
  let r := s.lport p
  if r.unacked.any fun e => decide (e.1 = seq) then
    s.setLport p { r with unacked := (r.unacked.dropWhile fun e => decide (e.1 ≠ seq)).tail, rounds := 0, ackAt := s.now }
  else s

/-- The stitch is the next in its link sequence: it is taken, and its credit is due (R450, R451). -/
def takeNext (p seq : Nat) (st : Stitch) (s : State) : State :=
  let r := s.lport p
  let resp := isResponse st.type.toNat
  s.setLport p { r with rxSeq := seq, owedReq := r.owedReq + b2n (!resp), owedResp := r.owedResp + b2n resp }

/-- A stitch that has been taken in goes its way (R456): a device without a valid ID carries only discovery, a port that is
not UP only HELLO. -/
def routeStitch (p : Fin 4) (st : Stitch) (s : State) : Out :=
  if st.type = 0xB then deliverDisc p st s
  else if !portUp s p then .next s
  else if !knownType st.type.toNat then .next (s.raise 195 (some p.val))
  else match ownId s with
    | none => .next s
    | some own =>
      if st.bc ∨ st.dest.toNat = own then deliver p st s else .next (forwardOn p st s)

/-- STITCH_ARRIVAL: a stitch with a good CRC behind its link word, which acknowledges and says the link sequence; one that
has been received before, or that comes out of its turn, is not taken again (R450, R456). -/
def execStitchArrival (p : Fin 4) (lw : Word) (st : Stitch) (s : State) : Out :=
  if !s.running .lnk ∨ !(s.lport p).trained then .next s
  else
    let s1 := takeAck p (fld lw 4 4) s
    if fld lw 0 4 ≠ ((s1.lport p).rxSeq + 1) % 16 then .next s1
    else routeStitch p st (takeNext p (fld lw 0 4) st s1)

end Sys2Proof.Machine
end

