-- ==== Sys2Proof/Machine/Access.lean ====
section
/-! DEFINITION. Commands that are one access to a register: the write goes to its address, with what the value says, and
acts as that register's rule has it; a read's own effect is kept and its word goes to the requester. A command whose
field names another operation is that other operation (WellFormed says which value is whose).
The readings and choices it rests on: notes/assumptions/7, 22. -/

namespace Sys2Proof.Machine

/-- REGISTER_WRITE (R12): a write to an address of an island window. -/
def execRegisterWrite (r : Requester) (a : Nat) (v : Word) (s : State) : Out :=
  if (windowIsland a).isSome then .next (accessWrite r a v s) else .fault .noSuchUnit

/-- STAGING_WRITE (R191). -/
def execStagingWrite (r : Requester) (ch : ChanRef) (w : Fin 15) (v : Word) (s : State) : Out :=
  if ch.ok then .next (accessWrite r (ch.port w) v s) else .fault .noSuchUnit
/-- COMMIT (R192). -/
def execCommit (r : Requester) (ch : ChanRef) (v : Word) (s : State) : Out :=
  if ch.ok then .next (accessWrite r (ch.port 0xF) v s) else .fault .noSuchUnit
/-- The address of THR or TICKSEL of an input (Tables 11.5, 11.8). -/
def inputConfigAddr : InBank → Nat → Nat
  | .si, n => 0xA70200 + n
  | .fi, n => 0xA5F010 + n
/-- INPUT_CONFIG_WRITE (R323). -/
def execInputConfigWrite (r : Requester) (b : InBank) (n : Fin 48) (v : Word) (s : State) : Out :=
  if b = .fi ∧ 32 ≤ n.val then .fault .noSuchUnit else .next (accessWrite r (inputConfigAddr b n) v s)
/-- SPI_DATA_WRITE with the byte the wire brings back (R380). -/
def execSpiDataWrite (r : Requester) (p : Fin 2) (v : Word) (reply : Byte) (s : State) : Out :=
  .next (if s.gateOpen (s.reqIsland r) .sec then
    (let s1 := arriveAfter r .sec s
     if s1.gateOpen (s1.reqIsland r) .sec && nothingAhead r .sec s1 then spiWrite p v reply s1 else s1) else s)

/-- RTC_READ (R98). -/
def execRtcRead (r : Requester) (s : State) : Out := .next (accessRead r (0xA70110) s)
/-- CYC_READ (R157). -/
def execCycRead (r : Requester) (c : CoreId) (s : State) : Out := .next (accessRead r (coreBlock c + 0x18) s)
/-- NET_US_READ (R359). -/
def execNetUsRead (r : Requester) (s : State) : Out := .next (accessRead r (0xA30007) s)
/-- TRN_READ (R420). -/
def execTrnRead (r : Requester) (s : State) : Out := .next (accessRead r (0xA4200F) s)
/-- RST_REQ (R106). -/
def execRstReq (r : Requester) (v : Word) (s : State) : Out := .next (accessWrite r (0xA80002) v s)
/-- SPARE_DESIGNATE (R155). -/
def execSpareDesignate (r : Requester) (v : Word) (s : State) : Out := .next (accessWrite r 0xA8FD02 v s)
/-- OTP_PROGRAM (R117). -/
def execOtpProgram (r : Requester) (v : Word) (s : State) : Out := .next (accessWrite r (0xA80012) v s)
/-- MAR_STOP (R128). -/
def execMarStop (r : Requester) (v : Word) (s : State) : Out := .next (accessWrite r (0xA80007) v s)
/-- PARK_REQUEST (R90). -/
def execParkRequest (r : Requester) (v : Word) (s : State) : Out := .next (accessWrite r (0xA70101) v s)
/-- DEEP_PARK_REQUEST (R90). -/
def execDeepParkRequest (r : Requester) (v : Word) (s : State) : Out := .next (accessWrite r (0xA70101) v s)
/-- WAKE_CAUSE_CLEAR (R96). -/
def execWakeCauseClear (r : Requester) (v : Word) (s : State) : Out := .next (accessWrite r (0xA70104) v s)
/-- RTC_LOAD (R98). -/
def execRtcLoad (r : Requester) (v : Word) (s : State) : Out := .next (accessWrite r (0xA70117) v s)
/-- WDG_KICK (R158). -/
def execWdgKick (r : Requester) (c : CoreId) (v : Word) (s : State) : Out := .next (accessWrite r (coreBlock c + 0x20) v s)
/-- RET_CLEAR (R214). -/
def execRetClear (r : Requester) (i : OutIsl) (v : Word) (s : State) : Out := .next (accessWrite r (i.oib + 9) v s)
/-- PROFILE_LOAD (R199). -/
def execProfileLoad (r : Requester) (i : OutIsl) (v : Word) (s : State) : Out := .next (accessWrite r (i.oib + 2) v s)
/-- ICB_MWCLR (R40). -/
def execIcbMwclr (r : Requester) (i : Island) (v : Word) (s : State) : Out := .next (accessWrite r (icb i + 6) v s)
/-- BANK_CLR (R286). -/
def execBankClr (r : Requester) (v : Word) (s : State) : Out := .next (accessWrite r (0xA1F009) v s)
/-- LUX_GC_WRITE (R308). -/
def execLuxGcWrite (r : Requester) (v : Word) (s : State) : Out := .next (accessWrite r (0xA2F000) v s)
/-- FRAME_SWAP (R300). -/
def execFrameSwap (r : Requester) (s : State) : Out := .next (accessWrite r (0xA2F006) 0x0001#16 s)
/-- FRAME_LOAD (R302). -/
def execFrameLoad (r : Requester) (s : State) : Out := .next (accessWrite r (0xA2F006) 0x0002#16 s)
/-- FRAME_BUFFER_WRITE (R300). -/
def execFrameBufferWrite (r : Requester) (a : Fin 2304) (v : Word) (s : State) : Out := .next (accessWrite r (0xA24000 + a) v s)
/-- CALIBRATION_LOAD (R305). -/
def execCalibrationLoad (r : Requester) (v : Word) (s : State) : Out := .next (accessWrite r (0xA2F00C) v s)
/-- TXR_WP_WRITE (R358). -/
def execTxrWpWrite (r : Requester) (p : Fin 14) (v : Word) (s : State) : Out := .next (accessWrite r ((if p.val < 8 then 0xA3010A + 0x20 * p.val else 0xA3020B + 0x20 * (p.val - 8))) v s)
/-- CAN_MODE_WRITE (R353). -/
def execCanModeWrite (r : Requester) (n : Fin 8) (v : Word) (s : State) : Out := .next (accessWrite r (0xA30100 + 0x20 * n.val) v s)
/-- CAN_BOREC (R353). -/
def execCanBorec (r : Requester) (n : Fin 8) (v : Word) (s : State) : Out := .next (accessWrite r (0xA3010F + 0x20 * n.val) v s)
/-- LIN_HDR (R354). -/
def execLinHdr (r : Requester) (n : Fin 12) (v : Word) (s : State) : Out := .next (accessWrite r (0xA30302 + 0x10 * n.val) v s)
/-- LIN_PUB (R354). -/
def execLinPub (r : Requester) (n : Fin 12) (id : BitVec 6) (s : State) : Out := .next (accessWrite r (0xA34005 + 0x200 * n.val + 8 * id.toNat) 0#16 s)
/-- LIN_WAKE_SEND (R354). -/
def execLinWakeSend (r : Requester) (n : Fin 12) (v : Word) (s : State) : Out := .next (accessWrite r (0xA30308 + 0x10 * n.val) v s)
/-- SLEEPREQ (R356). -/
def execSleepreq (r : Requester) (n : Fin 2) (s : State) : Out := .next (accessWrite r (0xA30208 + 0x20 * n.val) 0x0001#16 s)
/-- WUR (R350). -/
def execWur (r : Requester) (n : Fin 2) (s : State) : Out := .next (accessWrite r (0xA30208 + 0x20 * n.val) 0x0002#16 s)
/-- GWSWAP (R360). -/
def execGwswap (r : Requester) (s : State) : Out := .next (accessWrite r (0xA30001) 0x0001#16 s)
/-- WFSEND (R368). -/
def execWfsend (r : Requester) (s : State) : Out := .next (accessWrite r (0xA30001) 0x0002#16 s)
/-- GW_ISO_WRITE (R362). -/
def execGwIsoWrite (r : Requester) (v : Word) (s : State) : Out := .next (accessWrite r (0xA30805) v s)
/-- WKL_PULSE (R363). -/
def execWklPulse (r : Requester) (v : Word) (s : State) : Out := .next (accessWrite r (0xA30806) v s)
/-- RING_ENABLE (R378). -/
def execRingEnable (r : Requester) (v : Word) (s : State) : Out := .next (accessWrite r (0xA30040) v s)
/-- TR_REVOKE (R374). -/
def execTrRevoke (r : Requester) (s : State) : Out := .next (accessWrite r (0xA30047) 0x0001#16 s)
/-- TR_LEAVE (R371). -/
def execTrLeave (r : Requester) (s : State) : Out := .next (accessWrite r (0xA30047) 0x0002#16 s)
/-- UNBAR (R376). -/
def execUnbar (r : Requester) (s : State) : Out := .next (accessWrite r (0xA30047) 0x0004#16 s)
/-- GENERAL_SESSION (R393). -/
def execGeneralSession (r : Requester) (v : Word) (s : State) : Out := .next (accessWrite r (0xA41007) v s)
/-- ADDRESSED_SESSION (R393). -/
def execAddressedSession (r : Requester) (v : Word) (s : State) : Out := .next (accessWrite r (0xA41007) v s)
/-- SESSION_ABORT (R393). -/
def execSessionAbort (r : Requester) (v : Word) (s : State) : Out := .next (accessWrite r (0xA41007) v s)
/-- RNG_ARM (R396). -/
def execRngArm (r : Requester) (v : Word) (s : State) : Out := .next (accessWrite r (0xA41013) v s)
/-- RNG_TROUND (R396). -/
def execRngTround (r : Requester) (v : Word) (s : State) : Out := .next (accessWrite r (0xA41016) v s)
/-- ENROLMENT (R391). -/
def execEnrolment (r : Requester) (v : Word) (s : State) : Out := .next (accessWrite r (0xA41065) v s)
/-- REVOCATION (R392). -/
def execRevocation (r : Requester) (v : Word) (s : State) : Out := .next (accessWrite r (0xA41065) v s)
/-- IMMO_RELEASE (R401). -/
def execImmoRelease (r : Requester) (v : Word) (s : State) : Out := .next (accessWrite r (0xA41045) v s)
/-- IMMO_LOCK (R401). -/
def execImmoLock (r : Requester) (v : Word) (s : State) : Out := .next (accessWrite r (0xA41045) v s)
/-- IMMO_SET (R402). -/
def execImmoSet (r : Requester) (v : Word) (s : State) : Out := .next (accessWrite r (0xA41045) v s)
/-- KS_LOAD (R412). -/
def execKsLoad (r : Requester) (v : Word) (s : State) : Out := .next (accessWrite r (0xA4200B) v s)
/-- KS_LOADOTP (R412). -/
def execKsLoadotp (r : Requester) (v : Word) (s : State) : Out := .next (accessWrite r (0xA4200B) v s)
/-- KS_GEN (R412). -/
def execKsGen (r : Requester) (v : Word) (s : State) : Out := .next (accessWrite r (0xA4200B) v s)
/-- KS_IMPORT (R412). -/
def execKsImport (r : Requester) (v : Word) (s : State) : Out := .next (accessWrite r (0xA4200B) v s)
/-- KS_ERASE (R412). -/
def execKsErase (r : Requester) (v : Word) (s : State) : Out := .next (accessWrite r (0xA4200B) v s)
/-- JOB_STAGING_WRITE (R415). -/
def execJobStagingWrite (r : Requester) (j : Fin 4) (w : Fin 26) (v : Word) (s : State) : Out := .next (accessWrite r (0xA42020 + 0x20 * j.val + w.val) v s)
/-- JOB_GO (R415). -/
def execJobGo (r : Requester) (j : Fin 4) (v : Word) (s : State) : Out := .next (accessWrite r (0xA4203A + 0x20 * j.val) v s)
/-- SAFE_END (R437). -/
def execSafeEnd (r : Requester) (v : Word) (s : State) : Out := .next (accessWrite r (0xA81008) v s)
/-- FIRST_CLR (R443). -/
def execFirstClr (r : Requester) (v : Word) (s : State) : Out := .next (accessWrite r (0xA81008) v s)
/-- CC_GO (R460). -/
def execCcGo (r : Requester) (v : Word) (s : State) : Out := .next (accessWrite r (0xA6008A) v s)
/-- MBX_TXGO (R461). -/
def execMbxTxgo (r : Requester) (v : Word) (s : State) : Out := .next (accessWrite r (0xA60079) v s)
/-- LNK_RRST (R462). -/
def execLnkRrst (r : Requester) (v : Word) (s : State) : Out := .next (accessWrite r (0xA6000E) v s)
/-- PORT_RESTART (R463). -/
def execPortRestart (r : Requester) (p : Fin 4) (v : Word) (s : State) : Out := .next (accessWrite r (pcfg p + 3) v s)
/-- FLASH_PROGRAM (R470). -/
def execFlashProgram (r : Requester) (v : Word) (s : State) : Out := .next (accessWrite r (0xA90005) v s)
/-- FLASH_ERASE (R470). -/
def execFlashErase (r : Requester) (v : Word) (s : State) : Out := .next (accessWrite r (0xA90005) v s)
/-- FLASH_ERASE_BANK (R470). -/
def execFlashEraseBank (r : Requester) (v : Word) (s : State) : Out := .next (accessWrite r (0xA90005) v s)
/-- FLASH_ERASE_GEN (R470). -/
def execFlashEraseGen (r : Requester) (v : Word) (s : State) : Out := .next (accessWrite r (0xA90005) v s)
/-- OPEN (R474). -/
def execOpenPart (r : Requester) (v : Word) (s : State) : Out := .next (accessWrite r (0xA82007) v s)
/-- CLOSE (R474). -/
def execClosePart (r : Requester) (v : Word) (s : State) : Out := .next (accessWrite r (0xA82007) v s)
/-- DROP (R474). -/
def execDropPart (r : Requester) (v : Word) (s : State) : Out := .next (accessWrite r (0xA82007) v s)
/-- PREPARE (R477). -/
def execPreparePart (r : Requester) (v : Word) (s : State) : Out := .next (accessWrite r (0xA82007) v s)
/-- START (R482). -/
def execStartActivation (r : Requester) (v : Word) (s : State) : Out := .next (accessWrite r (0xA82007) v s)
/-- HEALTHY (R480). -/
def execHealthyCmd (r : Requester) (v : Word) (s : State) : Out := .next (accessWrite r (0xA82007) v s)

/-! Copies that complete, records, takeover. -/

/-- PROFILE_SWAP (R200). -/
def execProfileSwap (i : OutIsl) (s : State) : Out := .next (if s.running i.island then profileSwap i s else s)
/-- CALIBRATION_SWAP: from the active generation, once it is not busy (R34, R305). -/
def execCalibrationSwap (s : State) : Out :=
  .next (if s.running .lux ∧ s.lux.calBusy ∧ !settingsBusyIn s (activeGen s) then calSwap (activeGen s) s else s)
/-- RETIREMENT_RECORD_WRITE (R210). -/
def execRetirementRecordWrite (i : OutIsl) (s : State) : Out := .next (if s.running i.island then recordWrite i s else s)
/-- PARTNER_TAKEOVER (R216). -/
def execPartnerTakeover (ch : ChanRef) (s : State) : Out :=
  if !ch.ok then .fault .noSuchUnit else .next (if s.running ch.isl.island then partnerTakeover ch s else s)

end Sys2Proof.Machine
end

