-- ==== Sys2Proof/Machine/Flags.lean ====
section
/-! DEFINITION. The flags of FL (Table 5.2) and how a result sets them (R169, R173, R174). -/

namespace Sys2Proof.Machine

/-- The four result flags. -/
structure Flags where
  z : Bool
  n : Bool
  c : Bool
  v : Bool
  deriving DecidableEq, Repr

/-- The flags FL holds. -/
def flagsOf (fl : Word) : Flags := ⟨bit fl 0, bit fl 1, bit fl 2, bit fl 3⟩

/-- FL with the four result flags replaced. -/
def withFlags (fl : Word) (f : Flags) : Word :=
  putBit (putBit (putBit (putBit fl 0 f.z) 1 f.n) 2 f.c) 3 f.v

/-- FL with Z and N from a word. -/
def flZN (fl : Word) (r : Word) : Word := withFlags fl { flagsOf fl with z := decide (r = 0), n := r.msb }

/-- FL with Z and N from a 32-bit result. -/
def flZN32 (fl : Word) (r : BitVec 32) : Word := withFlags fl { flagsOf fl with z := decide (r = 0), n := r.msb }

/-- The signed value fits 16 bits. -/
def fits16 (n : Int) : Bool := decide (-32768 ≤ n) && decide (n ≤ 32767)

/-- A sum with carry in: result and flags (R169). -/
def addFlags (a b : Word) (cin : Bool) : Word × Flags :=
  let t := a.toNat + b.toNat + b2n cin
  let r := w16 t
  (r, ⟨decide (r = 0), r.msb, decide (65536 ≤ t), !fits16 (a.toInt + b.toInt + (b2n cin : Int))⟩)

/-- A difference with borrow in: result and flags; C is the borrow (R169). -/
def subFlags (a b : Word) (bin : Bool) : Word × Flags :=
  let r := a - b - w16 (b2n bin)
  (r, ⟨decide (r = 0), r.msb, decide (a.toNat < b.toNat + b2n bin), !fits16 (a.toInt - b.toInt - (b2n bin : Int))⟩)

/-- A shift of a value of `w` bits (Table 6.7): the result and the carry after n ≥ 1. -/
structure Shifted (w : Nat) where
  r : BitVec w
  c : Bool
  deriving DecidableEq, Repr

/-- SHL and SHLD. -/
def shl {w : Nat} (a : BitVec w) (n : Nat) : Shifted w :=
  if n ≤ w then ⟨a <<< n, a.getLsbD (w - n)⟩ else ⟨0, false⟩
/-- SHR and SHRD. -/
def shr {w : Nat} (a : BitVec w) (n : Nat) : Shifted w :=
  if n ≤ w then ⟨a >>> n, a.getLsbD (n - 1)⟩ else ⟨0, false⟩
/-- ASR and ASRD. -/
def asr {w : Nat} (a : BitVec w) (n : Nat) : Shifted w :=
  ⟨a.sshiftRight n, if n < w then a.getLsbD (n - 1) else a.msb⟩
/-- ROL. -/
def rol (a : Word) (n : Nat) : Shifted 16 :=
  let r := a.rotateLeft (n % 16)
  ⟨r, r.getLsbD 0⟩
/-- ROR. -/
def ror (a : Word) (n : Nat) : Shifted 16 :=
  let r := a.rotateRight (n % 16)
  ⟨r, r.getLsbD 15⟩

/-- FL after a shift by `n`: Z and N of the result always, C when n ≥ 1 (R174). -/
def flShift {w : Nat} (fl : Word) (n : Nat) (x : Shifted w) : Word :=
  withFlags fl { flagsOf fl with z := decide (x.r = 0), n := x.r.msb, c := if n = 0 then bit fl 2 else x.c }

/-- FL as MVAF, POPF and RTE write it: Z N C V I from the value, PRI the smaller of the two, L as given (R175). -/
def flWrite (fl v : Word) (l : Bool) : Word :=
  let p := if fld v 6 2 ≤ fld fl 6 2 then fld v 6 2 else fld fl 6 2
  packBits [(0, bit v 0), (1, bit v 1), (2, bit v 2), (3, bit v 3), (4, bit v 4), (5, l)] ||| pack [(6, p)]

/-- The condition of a branch (Table 6.4). -/
def condHolds (k : Cond) (fl : Word) : Bool :=
  let f := flagsOf fl
  match k with
  | .br => true
  | .bz => f.z
  | .bnz => !f.z
  | .bc => f.c
  | .bnc => !f.c
  | .bn => f.n
  | .bnn => !f.n
  | .bv => f.v
  | .bnv => !f.v
  | .bhi => !f.c && !f.z
  | .bls => f.c || f.z
  | .bge => f.n == f.v
  | .blt => f.n != f.v
  | .bgt => !f.z && (f.n == f.v)
  | .ble => f.z || (f.n != f.v)

end Sys2Proof.Machine
end

