-- ==== Sys2Proof/Machine/Operands.lean ====
section
/-! DEFINITION. What an instruction of a core reads and writes: descriptors and the checks of R137, the operand forms
of Table 6.2, the stack, and what each access does to the rollback log.
The readings and choices it rests on: notes/assumptions/17, 64, 65. -/

namespace Sys2Proof

/-- The signed short operand d (R163). -/
def Opnd.d (o : Opnd) : Word := o.short.signExtend 16

end Sys2Proof

namespace Sys2Proof.Machine

/-- A synchronous exception (Table 5.5). -/
inductive Exc where
  /-- a frame fault: cause, frame, selector or entry, offset (R145) -/
  | frame (code fr sel off : Nat)
  /-- a memory error at an address -/
  | memErr (a : Nat)
  | illegal
  | divide
  deriving DecidableEq, Repr

/-- What an access, or a whole instruction, comes to: a value and the state; an exception; or a wait after which the
instruction is issued again. -/
inductive Res (α : Type) where
  | ok (a : α) (s : State)
  | exc (e : Exc)
  | wait (s : State)

/-- Go on with the value and the state. -/
def Res.bind {α β : Type} (x : Res α) (f : α → State → Res β) : Res β :=
  match x with
  | .ok a s => f a s
  | .exc e => .exc e
  | .wait s => .wait s

/-- The frame registers by the frame numbers of FLT_CAUSE: 0 FC, 1 FD, 2 FE, 3 FS. -/
def Regs.sel (r : Regs) (fr : Nat) : Nat :=
  match fr with
  | 0 => r.fc.toNat
  | 1 => r.fd.toNat
  | 2 => r.fe.toNat
  | _ => r.fs.toNat

/-- The base address of a descriptor. -/
def descBase (ws : List Word) : Nat := (ws.getD 0 0).toNat + 65536 * fld (ws.getD 1 0) 0 8

/-- What an access needs of its descriptor (R137). -/
structure Need where
  r : Bool := false
  w : Bool := false
  x : Bool := false
  at_ : Bool := false
  deriving DecidableEq, Repr

/-- A 24-bit address in the island windows. -/
def inWindows (a : Nat) : Bool := decide (0xA00000 ≤ a) && decide (a ≤ 0xA9FFFF)

/-- The checks of R137 in their order; the address where they pass, else the cause. -/
def checkAccess (s : State) (c : Nat) (ws : List Word) (off : Nat) (n : Need) : Except Nat Nat :=
  let a := (descBase ws + off) % 0x1000000
  let w3 := ws.getD 3 0
  if (ws.getD 2 0).toNat < off then .error 0x01
  else if n.r && !bit w3 0 then .error 0x02
  else if n.w && !bit w3 1 then .error 0x03
  else if n.x && !bit w3 2 then .error 0x04
  else if n.at_ && !bit w3 5 then .error 0x07
  else if inWindows a && !bit w3 3 then .error 0x05
  else if bit w3 3 && !inWindows a then .error 0x06
  else match regionCode s c n.w n.at_ a with
    | some code => .error code
    | none => .ok a

/-- The address of an access through a frame, or the frame fault with its record (R145). -/
def address (s : State) (c fr : Nat) (off : Word) (n : Need) : Except Exc Nat :=
  let k := s.core c
  let sel := k.r.sel fr
  match checkAccess s c (k.descWords sel) off.toNat n with
  | .ok a => .ok a
  | .error code => .error (.frame code fr sel off.toNat)

/-- An entry into the rollback log of a pair (R152). -/
def logEntry (c : Nat) (e : LogEnt) (s : State) : State :=
  if s.paired c then s.modCore c (fun k => { k with log := e :: k.log }) else s

/-- The word an instruction that waited has already loaded at this point: each access is made once (R164, R167). -/
def alreadyLoaded (c : Nat) (s : State) : Option Word := (s.core c).got[(s.core c).pos]?
/-- The word of a load taken: an instruction that has to wait for a later one finds it again. -/
def took (c : Nat) (v : Word) (s : State) : State := s.modCore c fun k => { k with got := k.got ++ [v], pos := k.pos + 1 }
/-- A word loaded before is passed. -/
def passed (c : Nat) (s : State) : State := s.modCore c fun k => { k with pos := k.pos + 1 }

/-- A load at a checked address, with its log entry (R152). -/
def loadAt (c a : Nat) (s : State) : Res Word :=
  match coreLoad s c a with
  | .value v s1 => .ok v (took c v (if ownLocal s c a then s1 else logEntry c (.loaded v) s1))
  | .doubleBit => .exc (.memErr a)
  | .waiting s1 => .wait s1

/-- A load through a frame (R167). -/
def load (c fr : Nat) (off : Word) (at_ : Bool) (s : State) : Res Word :=
  match alreadyLoaded c s with
  | some v => .ok v (passed c s)
  | none =>
    match address s c fr off { r := true, at_ := at_ } with
    | .error e => .exc e
    | .ok a => loadAt c a s

/-- The checks of a store through a frame, made before any write (R167). -/
def storeOk (c fr : Nat) (off : Word) (at_ : Bool) (s : State) : Res Nat :=
  match address s c fr off { w := true, at_ := at_ } with
  | .error e => .exc e
  | .ok a => .ok a s

/-- A store at a checked address, with its log entry (R152). -/
def storeAt (c a : Nat) (v : Word) (s : State) : State :=
  let s1 := if ownLocal s c a then logEntry c (.undo a (s.memWord (localAddr s c a))) s
    else logEntry c (.released a v) s
  coreStore s1 c a v

/-- A store through a frame. -/
def store (c fr : Nat) (off v : Word) (s : State) : Res Unit :=
  (storeOk c fr off false s).bind fun a s1 => .ok () (storeAt c a v s1)

/-- The registers of a core. -/
def State.r (s : State) (c : Nat) : Regs := (s.core c).r
/-- The registers of a core changed. -/
def State.modR (s : State) (c : Nat) (f : Regs → Regs) : State := s.modCore c (fun k => { k with r := f k.r })

/-- The frame and offset of a memory operand; the pointer of mode 5 is read on the way (Table 6.2). -/
def effective (c : Nat) (o : Opnd) (s : State) : Res (Nat × Word) :=
  let r := s.r c
  match o.mode.val with
  | 1 => .ok (1, o.e) s
  | 2 => .ok (1, r.ix + o.d) s
  | 3 => .ok (2, r.iy + o.d) s
  | 4 => .ok (3, r.sp + o.d) s
  | 5 => (load c 1 (o.short.zeroExtend 16) false s).bind fun p s1 => .ok (1, p) s1
  | _ => .ok (2, o.e) s

/-- The operand value of class S (Table 6.2). -/
def source (c : Nat) (o : Opnd) (s : State) : Res Word :=
  match o.mode.val with
  | 0 => .ok o.d s
  | 6 => .ok o.e s
  | _ => (effective c o s).bind fun p s1 => load c p.1 p.2 false s1

/-- The memory operand of a byte instruction: frame, offset, and which byte (R179). -/
def byteOperand (c : Nat) (o : Opnd) (s : State) : Res (Nat × Word × Bool) :=
  let r := s.r c
  match o.mode.val with
  | 2 => .ok (1, (r.ix >>> 1) + o.d, r.ix.getLsbD 0) s
  | 3 => .ok (2, (r.iy >>> 1) + o.d, r.iy.getLsbD 0) s
  | _ => (effective c o s).bind fun p s1 => .ok (p.1, p.2, r.ace.getLsbD 0) s1

/-- `n` words of an operand read in order (R164). -/
def loadWords (c fr : Nat) (off : Word) : Nat → State → Res (List Word)
  | 0, s => .ok [] s
  | n + 1, s =>
    (load c fr off false s).bind fun v s1 =>
      (loadWords c fr (off + 1) n s1).bind fun vs s2 => .ok (v :: vs) s2

/-- The checks of `n` words to be written (R164, R167). -/
def storeWordsOk (c fr : Nat) (off : Word) : Nat → State → Res (List Nat)
  | 0, s => .ok [] s
  | n + 1, s =>
    (storeOk c fr off false s).bind fun a s1 =>
      (storeWordsOk c fr (off + 1) n s1).bind fun as s2 => .ok (a :: as) s2

/-- Words written at checked addresses in order. -/
def storeAll (c : Nat) : List (Nat × Word) → State → State
  | [], s => s
  | (a, v) :: r, s => storeAll c r (storeAt c a v s)

/-- Words pushed in order, all checked before the first write (R133, R167). -/
def pushWords (c : Nat) (ws : List Word) (s : State) : Res Unit :=
  let sp := (s.r c).sp
  let offs := (List.range ws.length).map (fun k => sp - w16 (k + 1))
  let rec chk : List Word → State → Res (List Nat)
    | [], s => .ok [] s
    | o :: r, s => (storeOk c 3 o false s).bind fun a s1 => (chk r s1).bind fun as s2 => .ok (a :: as) s2
  (chk offs s).bind fun as s1 =>
    .ok () ((storeAll c (as.zip ws) s1).modR c (fun r => { r with sp := sp - w16 ws.length }))

/-- `n` words popped in order; SP moves past them (R133). -/
def popWords (c n : Nat) (s : State) : Res (List Word) :=
  let sp := (s.r c).sp
  (loadWords c 3 sp n s).bind fun vs s1 => .ok vs (s1.modR c (fun r => { r with sp := sp + w16 n }))

/-- The check of a selector for a frame register (R136): valid, owned, then what the frame needs. -/
def selectorCode (s : State) (c fr sel : Nat) : Option Nat :=
  let ws := (s.core c).descWords sel
  let w3 := ws.getD 3 0
  if !bit w3 15 then some 0x09
  else if !bit (ws.getD 1 0) (8 + c) then some 0x08
  else if fr = 0 && !bit w3 2 then some 0x04
  else if fr = 3 && !(bit w3 0 && bit w3 1) then some 0x09
  else none

/-- FL.L cleared and the reservation given up, as every frame load does (R136, R181). -/
def dropReservation (c : Nat) (s : State) : State :=
  s.modCore c (fun k => { k with resv := none, r := { k.r with fl := putBit k.r.fl 5 false } })

/-- A selector loaded into a frame register (R136). -/
def loadFrame (c fr sel : Nat) (s : State) : Res Unit :=
  match selectorCode s c fr sel with
  | some code => .exc (.frame code fr sel 0)
  | none =>
    .ok () ((dropReservation c s).modR c fun r =>
      match fr with
      | 0 => { r with fc := byte sel }
      | 1 => { r with fd := byte sel }
      | 2 => { r with fe := byte sel }
      | _ => { r with fs := byte sel })

end Sys2Proof.Machine
end

