-- ==== Sys2Proof/Machine/Cpu.lean ====
section
/-! DEFINITION. How a core takes an instruction or an event: what it must be able to do so, the fetch and the decode
checks, entry into a line (R141), the fault record (R145) and the double fault (R142).
The readings and choices it rests on: notes/assumptions/3, 13, 14. -/

namespace Sys2Proof.Machine

/-- The mode classes of Table 6.3. -/
inductive Cls where
  | src | dst | jump | far | byt
  deriving DecidableEq, Repr

end Sys2Proof.Machine

namespace Sys2Proof
open Sys2Proof.Machine

/-- The words of a mode-bearing instruction (R163). -/
def Opnd.len (o : Opnd) (k : Cls) : Nat :=
  if o.mode.val = 6 then (if k = .far then 3 else 2) else if o.mode.val = 1 ∨ o.mode.val = 7 then 2 else 1

/-- The encoding is defined: a mode of the class, SHORT 0 in modes 1, 6 and 7 (R165, R166). -/
def Opnd.legal (o : Opnd) (k : Cls) : Bool :=
  let m := o.mode.val
  (match k with
    | .src => true
    | .dst => m != 0 && m != 6
    | .byt => m != 0 && m != 6
    | .jump => m != 0
    | .far => m != 0) &&
  (if m = 1 ∨ m = 6 ∨ m = 7 then decide (o.short = 0) else true)

end Sys2Proof

namespace Sys2Proof.Machine

/-- The line R140 takes at this boundary: the highest level above PRI among pending enabled lines, the lowest number
among equals; none while I = 0 and at the boundary after LFS. -/
def eventLine (s : State) (c : Nat) : Option Nat :=
  let k := s.core c
  let b := s.block c
  if !bit k.r.fl 4 || k.inhibit then none
  else
    let cand := (List.range 64).filter fun l =>
      s.regBit (b + 6 + l / 16) (l % 16) && s.regBit (b + 2 + l / 16) (l % 16) &&
        decide (fld k.r.fl 6 2 < s.regFld (b + 10 + l / 8) (2 * (l % 8)) 2)
    cand.foldl (fun best l =>
      match best with
      | none => some l
      | some m => if s.regFld (b + 10 + m / 8) (2 * (m % 8)) 2 < s.regFld (b + 10 + l / 8) (2 * (l % 8)) 2
          then some l else some m) none

/-- The lowest pending line of a WEV mask, lines 0 to 4 apart (R183). -/
def maskedLine (s : State) (c mask : Nat) : Option Nat :=
  (List.range 64).find? fun l => decide (5 ≤ l) && mask.testBit l && s.regBit (s.block c + 6 + l / 16) (l % 16)

/-- The logical core runs: released, its island in RUN, not in standby, retired, rolled back, taken over or dormant,
no checkpoint, full gate or waiting entry stalls it (R22, R151, R153, R155, R156, R435). -/
def coreUp (s : State) (c : Nat) : Bool :=
  let k := s.core c
  let p := s.physPair (s.mapPair (c / 2))
  decide (s.lead c = c) && decide (k.st = .running) && s.running (s.coreIsland c) &&
    !p.retired && !p.standby && !k.rolling && k.taking.isNone && !k.dormant &&
    !(checkpointDue s c && k.ckBusy) && k.sevMask.isNone && k.excLine.isNone && !coreStalled s c

/-- An instruction executes at this boundary, or goes on where it waits part-way: the core runs, does not wait in WEV, and
takes no event; part-way no event is considered (R140). -/
def coreReady (s : State) (c : Nat) : Bool :=
  coreUp s c && (s.core c).wait.isNone && (s.core c).entering.isNone && ((s.core c).partway || (eventLine s c).isNone)

/-- The record made before entry (R145). -/
def recordFault (c : Nat) (e : Exc) (s : State) : State :=
  let b := s.block c
  let r := s.r c
  let here (t : State) : State := (t.setReg (b + 0x14) r.pc).setReg (b + 0x15) (r.fc.setWidth 16)
  match e with
  | .frame code fr sel off =>
    here ((s.setReg (b + 0x12) (pack [(0, code), (5, fr), (8, sel % 256)])).setReg (b + 0x13) (w16 off))
  | .memErr a => here ((s.setReg (b + 0x16) (w16 a)).setReg (b + 0x17) (w16 (a / 65536)))
  | _ => s

/-- The line of an exception (Table 5.5). -/
def Exc.line : Exc → Nat
  | .frame _ _ _ _ => 1
  | .memErr _ => 2
  | .illegal => 3
  | .divide => 4

/-- A word of the event table, read with R through the descriptor EVT_SEL selects (R139, R152). -/
def tableWord (c off : Nat) (s : State) : Res Word :=
  match alreadyLoaded c s with
  | some v => .ok v (passed c s)
  | none =>
    let sel := s.regFld (s.block c + 1) 0 8
    match checkAccess s c ((s.core c).descWords sel) off { r := true } with
    | .error code => .exc (.frame code 0 sel off)
    | .ok a => loadAt c a s

/-- The two words of a line's entry in the event table (R139). -/
def tableEntry (c line : Nat) (s : State) : Res (Word × Word) :=
  (tableWord c (2 * line) s).bind fun pc s1 => (tableWord c (2 * line + 1) s1).bind fun sel s2 => .ok (pc, sel) s2

/-- An entry whose table words must be waited for has pushed nothing yet: it is made again as a whole. -/
def waitUnpushed (c line : Nat) (s : State) (x : Res (Word × Word)) : Res (Word × Word) :=
  match x with
  | .wait _ =>
    match tableEntry c line s with
    | .ok _ t => .wait t
    | .exc _ => .wait s
    | .wait t => .wait t
  | _ => x

/-- Entry into a line (R141). -/
def enterLine (c line : Nat) (ret : Word) (exc : Bool) (s : State) : Res Unit :=
  let r := s.r c
  let b := s.block c
  let lvl := if exc then 3 else s.regFld (b + 10 + line / 8) (2 * (line % 8)) 2
  (pushWords c [r.fl, r.fc.setWidth 16, ret] s).bind fun _ s1 =>
  (waitUnpushed c line s (tableEntry c line s1)).bind fun e s3 =>
  (loadFrame c 0 (fld e.2 0 8) s3).bind fun _ s4 =>
    let pc := e.1
    let s5 := s4.setRegBit (b + 6 + line / 16) (line % 16) false
    .ok () (logEntry c (.entry (s5.core c).since line) (s5.modCore c fun k =>
      { k with
        exc := k.exc || exc
        wait := none
        excLine := none, partway := false, got := [], pos := 0, entering := none
        r := { k.r with
          pc := pc
          fl := if exc then putBit (putFld k.r.fl 6 2 lvl) 4 false else putFld k.r.fl 6 2 lvl } }))

/-- A double fault stops the core and makes its watchdog expire (R142). -/
def doubleFault (c : Nat) (s : State) : State :=
  watchdogExpire c (s.modCore c fun k => { k with st := .stopped, dfault := true, wait := none })

/-- An instruction or an entry that waits has changed no register of its core, nor what LFS holds off, and is issued again;
one whose core was reset meanwhile is over (R140, R167, R178). -/
def waits (c : Nat) (s1 s : State) : State :=
  if runsOn c s s1 then s1.modCore c fun k => { k with r := s.r c, inhibit := (s.core c).inhibit, partway := true, pos := 0 }
  else s1

/-- What an instruction has loaded so far is forgotten: it is over. -/
def forgetLoads (k : Core) : Core := { k with partway := false, got := [], pos := 0, entering := none }

/-- Entry into an exception's line; a further exception is a double fault; an entry that must wait is made later (R141,
R142). -/
def enterExc (c line : Nat) (s : State) : State :=
  match enterLine c line (s.r c).pc true s with
  | .ok _ s1 => s1
  | .exc e => doubleFault c (recordFault c e s)
  | .wait s1 => (waits c s1 s).modCore c fun k => { k with excLine := if k.partway then some line else none }

/-- An exception whose entry has waited is entered: in a pair after the checkpoint that precedes it (R151). -/
def excEntry (c : Nat) (s : State) : State :=
  match (s.core c).excLine with
  | none => s
  | some l =>
    if s.paired c && (s.core c).ckBusy && !(s.core c).partway then s
    else enterExc c l (if s.paired c && !(s.core c).partway then takeCheckpoint c s else s)

/-- A synchronous exception taken: its record, a checkpoint in a pair, entry at level 3; one while one is in progress is a
double fault; one that finds the previous checkpoint record unfinished waits for it (R141, R142, R151). -/
def takeExc (c : Nat) (e : Exc) (s : State) : State :=
  let s1 := (recordFault c e s).modCore c fun k => { forgetLoads k with remTag := none, remAns := none }
  if (s1.core c).exc then doubleFault c s1
  else if s1.paired c then excEntry c (s1.modCore c fun k => { k with excLine := some e.line })
  else enterExc c e.line s1

/-- The fetch checks of words k, k+1, … of the instruction (R137, R145, R35). -/
def fetchOk (c k : Nat) : Nat → State → Except Exc Unit
  | 0, _ => .ok ()
  | n + 1, s =>
    match address s c 0 ((s.r c).pc + w16 k) { x := true } with
    | .error e => .error e
    | .ok a => if coreDouble s c a then .error (.memErr a) else fetchOk c (k + 1) n s

/-- CHECKPOINT_WRITE_DONE: the record is complete; a checkpoint or an exception entry the pair stalls for is taken (R151). -/
def execCheckpointWriteDone (c : CoreId) (s : State) : Out :=
  if !(s.core c).ckBusy then .next s
  else
    let s1 := finishRecord c s
    let k := s1.core c
    .next (if pairRuns s1 c && !k.rolling && k.taking.isNone then (if k.excLine.isSome then excEntry c s1 else settle c s1) else s1)

/-- The words an instruction is fetched from, a pair's repaired where one core's shows a double-bit error (R150). -/
def fetched (c len : Nat) (s : State) : State :=
  if s.paired c then
    (List.range len).foldl (fun t k => match address t c 0 ((t.r c).pc + w16 k) { x := true } with
      | .ok a => t.heal (localAddr t c a)
      | .error _ => t) s
  else s

/-- What an instruction does after its effect: the count, and a checkpoint that has come due (R151). -/
def retired (c : Nat) (s : State) : State :=
  if s.paired c then settle c (s.modCore c fun k => { forgetLoads k with since := k.since + 1 })
  else s.modCore c forgetLoads

/-- An instruction of `len` words: fetch of the first word, decode, fetch of the rest, effect. The effect sees PC past
the instruction; an exception undoes it all (R167). -/
def execute (c len : Nat) (legal : Bool) (body : State → Res Unit) (s : State) : State :=
  match fetchOk c 0 1 s with
  | .error e => takeExc c e s
  | .ok _ =>
    if !legal then takeExc c .illegal s
    else match fetchOk c 1 (len - 1) s with
      | .error e => takeExc c e s
      | .ok _ =>
        match body ((fetched c len s).modCore c fun k => { k with inhibit := false, r := { k.r with pc := k.r.pc + w16 len } }) with
        | .ok _ s1 => retired c s1
        | .exc e => takeExc c e (s.modCore c fun k => { k with inhibit := false })
        | .wait s1 => waits c s1 s

/-- An instruction at a core: executed where one can be, else nothing happens. -/
def issue (c : CoreId) (len : Nat) (legal : Bool) (s : State) (body : State → Res Unit) : Out :=
  if coreReady s c then .next (execute c len legal body s) else .next s

/-- A mode-bearing instruction. -/
def issueOp (k : Cls) (c : CoreId) (o : Opnd) (s : State) (body : State → Res Unit) : Out :=
  issue c (o.len k) (o.legal k) s body

/-- An instruction of one word. -/
def issue1 (c : CoreId) (s : State) (body : State → Res Unit) : Out := issue c 1 true s body

/-- A register-only effect. -/
def regs (c : CoreId) (f : Regs → Regs) (s : State) : Res Unit := .ok () (s.modR c f)

/-- A class S instruction whose effect is on the registers alone. -/
def sourceOp (c : CoreId) (o : Opnd) (s : State) (f : Word → Regs → Regs) : Out :=
  issueOp .src c o s fun s => (source c o s).bind fun v s1 => regs c (f v) s1

/-- A store of a register to the operand. -/
def storeOp (c : CoreId) (o : Opnd) (s : State) (f : Regs → Word) : Out :=
  issueOp .dst c o s fun s =>
    let v := f (s.r c)
    (effective c o s).bind fun p s1 => store c p.1 p.2 v s1

/-- A read and then a write of one word through a frame, every check before both (R167). -/
def modifyAt (c fr : Nat) (off : Word) (f : Regs → Word → Word × Regs) (s : State) : Res Unit :=
  match address s c fr off { r := true } with
  | .error e => .exc e
  | .ok _ =>
    (storeOk c fr off false s).bind fun a s1 =>
    (load c fr off false s1).bind fun m s2 =>
      let w := f (s2.r c) m
      .ok () ((storeAt c a w.1 s2).modR c fun _ => w.2)

/-- A read-modify-write instruction. -/
def modifyOp (c : CoreId) (o : Opnd) (s : State) (f : Regs → Word → Word × Regs) : Out :=
  issueOp .dst c o s fun s => (effective c o s).bind fun p s1 => modifyAt c p.1 p.2 f s1

/-- A pop into a register. -/
def popOp (c : CoreId) (s : State) (f : Word → Regs → Regs) : Out :=
  issue1 c s fun s => (popWords c 1 s).bind fun vs s1 => regs c (f (vs.headD 0)) s1

/-- A push of a register. -/
def pushOp (c : CoreId) (s : State) (f : Regs → Word) : Out :=
  issue1 c s fun s => pushWords c [f (s.r c)] s

end Sys2Proof.Machine
end

