-- ==== Sys2Proof/Machine/CpuControl.lean ====
section
/-! DEFINITION. Control flow, frames, atomic operations, events and descriptors of the cores (R135, R170–R187).
The readings and choices it rests on: notes/assumptions/14, 64. -/

namespace Sys2Proof.Machine

/-- PC written. -/
def setPc (c : CoreId) (v : Word) (s : State) : Res Unit := regs c (fun r => { r with pc := v }) s

/-- JMP (R171). -/
def execJmp (c : CoreId) (o : Opnd) (s : State) : Out :=
  issueOp .jump c o s fun s => (source c o s).bind fun v s1 => setPc c v s1
/-- CALL: the target is read before the push (R176). -/
def execCall (c : CoreId) (o : Opnd) (s : State) : Out :=
  issueOp .jump c o s fun s =>
    (source c o s).bind fun v s1 =>
    (pushWords c [(s1.r c).pc] s1).bind fun _ s2 => setPc c v s2

/-- The far pointer of class F: offset and selector (R164, R177). -/
def farPointer (c : Nat) (o : Opnd) (s : State) : Res (Word × Nat) :=
  if o.mode.val = 6 then .ok (o.e, fld o.e2 0 8) s
  else
    (effective c o s).bind fun p s1 =>
    (loadWords c p.1 p.2 2 s1).bind fun ws s2 => .ok (ws.getD 0 0, fld (ws.getD 1 0) 0 8) s2

/-- The check of a selector for FC, before anything is pushed (R177). -/
def checkCode (c sel : Nat) (s : State) : Res Unit :=
  match selectorCode s c 0 sel with
  | some code => .exc (.frame code 0 sel 0)
  | none => .ok () s

/-- JMPF (R177). -/
def execJmpf (c : CoreId) (o : Opnd) (s : State) : Out :=
  issueOp .far c o s fun s =>
    (farPointer c o s).bind fun p s1 =>
    (loadFrame c 0 p.2 s1).bind fun _ s2 => setPc c p.1 s2
/-- CALLF (R177). -/
def execCallf (c : CoreId) (o : Opnd) (s : State) : Out :=
  issueOp .far c o s fun s =>
    (farPointer c o s).bind fun p s1 =>
    (checkCode c p.2 s1).bind fun _ s2 =>
    (pushWords c [(s2.r c).fc.setWidth 16, (s2.r c).pc] s2).bind fun _ s3 =>
    (loadFrame c 0 p.2 s3).bind fun _ s4 => setPc c p.1 s4
/-- Bcc (R170). -/
def execBcc (c : CoreId) (k : Cond) (d : BitVec 7) (s : State) : Out :=
  issue1 c s fun s =>
    if condHolds k (s.r c).fl then setPc c ((s.r c).pc + d.signExtend 16) s else .ok () s
/-- RET (R172). -/
def execRet (c : CoreId) (s : State) : Out :=
  issue1 c s fun s => (popWords c 1 s).bind fun vs s1 => setPc c (vs.headD 0) s1
/-- RETF (R177). -/
def execRetf (c : CoreId) (s : State) : Out :=
  issue1 c s fun s =>
    (popWords c 2 s).bind fun vs s1 =>
    (loadFrame c 0 (fld (vs.getD 1 0) 0 8) s1).bind fun _ s2 => setPc c (vs.getD 0 0) s2
/-- RTE: return offset, FC and FL; ends an exception in progress (R141, R175). -/
def execRte (c : CoreId) (s : State) : Out :=
  issue1 c s fun s =>
    (popWords c 3 s).bind fun vs s1 =>
    (loadFrame c 0 (fld (vs.getD 1 0) 0 8) s1).bind fun _ s2 =>
      .ok () (s2.modCore c fun k =>
        { k with exc := false, r := { k.r with pc := vs.getD 0 0, fl := flWrite k.r.fl (vs.getD 2 0) false } })

/-- LFD (R178). -/
def execLfd (c : CoreId) (o : Opnd) (s : State) : Out :=
  issueOp .src c o s fun s => (source c o s).bind fun v s1 => loadFrame c 1 (fld v 0 8) s1
/-- LFE (R178). -/
def execLfe (c : CoreId) (o : Opnd) (s : State) : Out :=
  issueOp .src c o s fun s => (source c o s).bind fun v s1 => loadFrame c 2 (fld v 0 8) s1
/-- LFS: no event at the boundary that follows (R178). -/
def execLfs (c : CoreId) (o : Opnd) (s : State) : Out :=
  issueOp .src c o s fun s =>
    (source c o s).bind fun v s1 =>
    (loadFrame c 3 (fld v 0 8) s1).bind fun _ s2 => .ok () (s2.modCore c fun k => { k with inhibit := true })

/-- The address of an atomic access with its checks (R137, R182). -/
def atomicAddr (c : Nat) (o : Opnd) (n : Need) (s : State) : Res Nat :=
  (effective c o s).bind fun p s1 =>
    match address s1 c p.1 p.2 n with
    | .error e => .exc e
    | .ok a => .ok a s1

/-- TAS: read and write of 0xFFFF as one access, whose checks are made once (R137, R180). -/
def execTas (c : CoreId) (o : Opnd) (s : State) : Out :=
  issueOp .dst c o s fun s =>
    (atomicAddr c o { r := true, w := true, at_ := true } s).bind fun a s1 =>
      if !atomicOpen s1 c a then .wait s1
      else match coreLoad s1 c a with
      | .doubleBit => .exc (.memErr a)
      | .waiting s2 => .wait s2
      | .value m s2 =>
        let s3 := logEntry c (.outcome m) (if ownLocal s2 c a then logEntry c (.undo a m) s2 else s2)
        regs c (fun r => { r with acc := m, fl := flZN r.fl m }) (coreWriteNow s3 c a 0xFFFF#16)
/-- LRW: the word read and reserved (R181). -/
def execLrw (c : CoreId) (o : Opnd) (s : State) : Out :=
  issueOp .dst c o s fun s =>
    (atomicAddr c o { r := true, at_ := true } s).bind fun a s1 =>
      match coreLoad s1 c a with
      | .doubleBit => .exc (.memErr a)
      | .waiting s2 => .wait s2
      | .value m s2 =>
        let s3 := if ownLocal s2 c a then s2 else logEntry c (.loaded m) s2
        .ok () (s3.modCore c fun k =>
          { k with resv := some (localAddr s3 c a), r := { k.r with acc := m, fl := putBit (flZN k.r.fl m) 5 true } })
/-- SCW's access: where the core's reservation stands on the address, or has been cleared since LRW, MEM serves it in its
turn; else it fails at the core (R43, R181). -/
def scwAccess (c a : Nat) (s : State) : State :=
  let k := s.core c
  if bit k.r.fl 5 && (k.resv.isNone || decide (k.resv = some (localAddr s c a))) && inSram a 1
  then memAccess (s.coreIsland c) (s.lead c) s else s
/-- SCW: stores while the reservation holds; Z tells; L and the reservation are gone after it (R181). -/
def execScw (c : CoreId) (o : Opnd) (s : State) : Out :=
  issueOp .dst c o s fun s =>
    (atomicAddr c o { w := true, at_ := true } s).bind fun a s1 =>
      if !atomicOpen s1 c a then .wait s1
      else
      let s2 := scwAccess c a s1
      let k := s2.core c
      let ok := bit k.r.fl 5 && decide (k.resv = some (localAddr s2 c a))
      let s3 := logEntry c (.outcome (w16 (b2n ok))) s2
      let s4 := if ok then
          coreWriteNow (if ownLocal s3 c a then logEntry c (.undo a (s3.memWord (localAddr s3 c a))) s3 else s3) c a k.r.acc
        else s3
      .ok () (s4.modCore c fun k =>
        { k with resv := none, r := { k.r with fl := putBit (putBit k.r.fl 0 ok) 5 false } })

/-- The number a four-word mask spells, line 0 in bit 0 (R183). -/
def maskOf (ws : List Word) : Nat := (ws.getD 0 0).toNat + 65536 * ((ws.getD 1 0).toNat + 65536 * ((ws.getD 2 0).toNat + 65536 * (ws.getD 3 0).toNat))

/-- WEV completes on a line: ACC takes its number, a level-0 line clears, PC moves on (R183, R184). -/
def wevComplete (c : CoreId) (line len : Nat) (s : State) : State :=
  let b := s.block c
  let s1 := if s.regFld (b + 10 + line / 8) (2 * (line % 8)) 2 = 0
    then s.setRegBit (b + 6 + line / 16) (line % 16) false else s
  retired c (logEntry c (.entry (s1.core c).since line) (s1.modCore c fun k =>
    { k with wait := none, r := { k.r with acc := w16 line, pc := k.r.pc + w16 len } }))

/-- WEV: the mask is read once; the core waits until a line of it is pending, and the command given again then
completes it (R183). -/
def execWev (c : CoreId) (o : Opnd) (s : State) : Out :=
  match (s.core c).wait with
  | some mask =>
    if coreUp s c then
      match maskedLine s c mask with
      | some l => .next (wevComplete c l (o.len .dst) s)
      | none => .next s
    else .next s
  | none =>
    if coreReady s c then
      match fetchOk c 0 1 s with
      | .error e => .next (takeExc c e s)
      | .ok _ =>
        if !o.legal .dst then .next (takeExc c .illegal s)
        else
          match fetchOk c 1 (o.len .dst - 1) s with
          | .error e => .next (takeExc c e s)
          | .ok _ =>
            match (effective c o (fetched c (o.len .dst) s)).bind fun p s1 => loadWords c p.1 p.2 4 s1 with
            | .exc e => .next (takeExc c e s)
            | .wait s1 => .next (waits c s1 s)
            | .ok ws s1 =>
              let s2 := s1.modCore c fun k => { forgetLoads k with inhibit := false, wait := some (maskOf ws) }
              match maskedLine s2 c (maskOf ws) with
              | some l => .next (wevComplete c l (o.len .dst) s2)
              | none => .next s2
    else .next s

/-- SEV: the mask is taken and the core drains its earlier stores (R185). -/
def execSev (c : CoreId) (o : Opnd) (s : State) : Out :=
  issueOp .src c o s fun s =>
    (source c o s).bind fun v s1 => .ok () (s1.modCore c fun k => { k with sevMask := some (loByte v) })

/-- SEV_RAISE: every earlier store served or applied, line 8 + n at every named core neither in reset nor retired; while a
store is still on its way the core waits on (R144, R185). -/
def execSevRaise (c : CoreId) (s : State) : Out :=
  match (s.core c).sevMask with
  | none => .next s
  | some m =>
    let s0 := drainCore c s
    if !storesDone c s0 ∨ (s0.core c).sevMask ≠ some m then .next s0
    else
    let s1 := s0.modCore c fun k => { k with sevMask := none }
    .next ((List.range 8).foldl (fun t n =>
      if m.getLsbD n && !decide ((t.core (t.lead n)).st = .inReset) && !(t.physPair (t.mapPair (n / 2))).retired
      then t.raiseLine n (8 + c.val) else t) s1)

/-- SDT refuses a valid descriptor (R135). -/
def descRefused (ws : List Word) : Bool :=
  let w1 := ws.getD 1 0
  let w3 := ws.getD 3 0
  let owners := (List.range 8).foldl (fun a n => a + b2n (bit w1 (8 + n))) 0
  bit w3 15 &&
    (owners == 0 || decide (0xFFFFFF < descBase ws + (ws.getD 2 0).toNat) || (bit w3 1 && bit w3 2) ||
      (bit w3 3 && (bit w3 2 || bit w3 5)) || (decide (1 < owners) && !bit w3 4))

/-- A descriptor written into one core's table, with the undo entry of the own table (R135, R152). DESIGN CHOICE: an OWNER
that names the partner of a lockstep pair means the pair's one table, that of the lead; R135 does not say which table is
meant (notes/assumptions/64.md). -/
def writeDesc (self n e : Nat) (ws : List Word) (s : State) : State :=
  let l := s.lead n
  let s1 := if l = self then logEntry self (.undoDesc e ((s.core self).descWords e)) s else s
  s1.modCore l fun k => k.setDesc e ws

/-- SDT (R135, R136). -/
def execSdt (c : CoreId) (o : Opnd) (s : State) : Out :=
  issueOp .dst c o s fun s =>
    let e := fld (s.r c).acc 0 8
    if fld (s.r c).fl 6 2 ≠ 3 then .exc (.frame 0x10 4 e 0)
    else
      (effective c o s).bind fun p s1 =>
      (loadWords c p.1 p.2 4 s1).bind fun ws s2 =>
        if descRefused ws then .exc (.frame 0x11 4 e 0)
        else
          let named := (List.range 8).filter fun n => bit (ws.getD 1 0) (8 + n)
          let up := named.filter fun n => !decide ((s2.core (s2.lead n)).st = .inReset)
          let s3 := up.foldl (fun t n => writeDesc c n e ws t) s2
          regs c (fun r => { r with fl := putBit r.fl 0 (decide (up.length = named.length)) }) s3
/-- LDT: the own entry copied to the operand (R135, R136). -/
def execLdt (c : CoreId) (o : Opnd) (s : State) : Out :=
  issueOp .dst c o s fun s =>
    let e := fld (s.r c).acc 0 8
    if fld (s.r c).fl 6 2 ≠ 3 then .exc (.frame 0x10 4 e 0)
    else
      (effective c o s).bind fun p s1 =>
      (storeWordsOk c p.1 p.2 4 s1).bind fun as s2 =>
        .ok () (storeAll c (as.zip ((s2.core c).descWords e)) s2)

/-- The encodings R166 leaves undefined. -/
def undefinedWord (w : Word) : Bool :=
  let op := fld w 10 6
  let m := fld w 7 3
  let sh := fld w 0 7
  let cls : Option Cls :=
    if op ∈ [0x01, 0x03, 0x05, 0x07, 0x0A, 0x0C, 0x0D, 0x0E, 0x0F, 0x10, 0x11, 0x12, 0x13, 0x14, 0x1A, 0x1B, 0x1C, 0x1D,
        0x1E, 0x1F, 0x20, 0x21, 0x22, 0x23, 0x24, 0x25, 0x28, 0x29, 0x2A, 0x2B, 0x2C, 0x33, 0x34, 0x35, 0x3A] then some .src
    else if op ∈ [0x02, 0x04, 0x06, 0x08, 0x09, 0x0B, 0x15, 0x16, 0x17, 0x18, 0x19, 0x36, 0x37, 0x38, 0x39, 0x3B, 0x3C] then
      some .dst
    else if op = 0x26 ∨ op = 0x27 then some .byt
    else if op = 0x2D ∨ op = 0x2E then some .jump
    else if op = 0x2F ∨ op = 0x30 then some .far
    else none
  match cls with
  | some k => !Opnd.legal ⟨⟨m % 8, Nat.mod_lt _ (by decide)⟩, BitVec.ofNat 7 sh, 0, 0⟩ k
  | none => op = 0x00 || op = 0x3E || op = 0x3F || (op = 0x32 && m = 7) ||
      (op = 0x3D && (decide (m ≠ 0) || decide (0x29 ≤ sh)))

/-- UNDEFINED_OPCODE: the illegal-instruction exception at decode (R166). A word that is defined has a row of its
own, and nothing happens under this one. -/
def execUndefinedOpcode (c : CoreId) (w : Word) (s : State) : Out :=
  if undefinedWord w then issue c 1 false s (fun s => .ok () s) else .next s

/-- CHK: a checkpoint in a pair, else NOP (R187). -/
def execChk (c : CoreId) (s : State) : Out :=
  issue1 c s fun s => .ok () (if s.paired c then s.modCore c (fun k => { k with ckDue := true }) else s)

/-- EVENT_ENTRY: an exception entry that waits is made; else the line R140 takes at this boundary is entered; an exception
in the entry is a double fault (R141, R142). A line in the mask of a waiting WEV completes WEV first (R183); an instruction
that waits part-way is not interrupted (R140, R186). -/
def execEventEntry (c : CoreId) (s : State) : Out :=
  if (s.core c).excLine.isSome then .next (if coreUp (s.modCore c fun k => { k with excLine := none }) c then excEntry c s else s)
  else if coreUp s c then
    match (if (s.core c).partway then (s.core c).entering else eventLine s c) with
    | none => .next s
    | some l =>
      let masked := match (s.core c).wait with
        | some m => (maskedLine s c m).isSome
        | none => false
      if masked then .next s
      else
        match enterLine c l (s.r c).pc false s with
        | .ok _ s1 => .next s1
        | .exc e => .next (doubleFault c (recordFault c e s))
        | .wait s1 => .next ((waits c s1 s).modCore c fun k => { k with entering := if k.partway then some l else none })
  else .next s

end Sys2Proof.Machine
end

