-- ==== Sys2Proof/Machine/CpuData.lean ====
section
/-! DEFINITION. The data instructions of Tables 6.5 and 6.6: loads, stores, arithmetic, logic, shifts, bytes,
registers and stack (R171–R176, R179).
The readings and choices it rests on: notes/assumptions/65. -/

namespace Sys2Proof.Machine

/-- LD (R171). -/
def execLd (c : CoreId) (o : Opnd) (s : State) : Out :=
  sourceOp c o s fun v r => { r with acc := v, fl := flZN r.fl v }
/-- ST (R171). -/
def execSt (c : CoreId) (o : Opnd) (s : State) : Out := storeOp c o s (·.acc)
/-- LDE (R171). -/
def execLde (c : CoreId) (o : Opnd) (s : State) : Out :=
  sourceOp c o s fun v r => { r with ace := v, fl := flZN r.fl v }
/-- STE (R171). -/
def execSte (c : CoreId) (o : Opnd) (s : State) : Out := storeOp c o s (·.ace)
/-- LDX (R171). -/
def execLdx (c : CoreId) (o : Opnd) (s : State) : Out :=
  sourceOp c o s fun v r => { r with ix := v, fl := flZN r.fl v }
/-- STX (R171). -/
def execStx (c : CoreId) (o : Opnd) (s : State) : Out := storeOp c o s (·.ix)
/-- LDY (R171). -/
def execLdy (c : CoreId) (o : Opnd) (s : State) : Out :=
  sourceOp c o s fun v r => { r with iy := v, fl := flZN r.fl v }
/-- STY (R171). -/
def execSty (c : CoreId) (o : Opnd) (s : State) : Out := storeOp c o s (·.iy)
/-- XCH: ACC and the memory word exchanged, not indivisibly (R171). -/
def execXch (c : CoreId) (o : Opnd) (s : State) : Out :=
  modifyOp c o s fun r m => (r.acc, { r with acc := m, fl := flZN r.fl m })
/-- PUSH: the operand is read before SP moves (R176). -/
def execPush (c : CoreId) (o : Opnd) (s : State) : Out :=
  issueOp .src c o s fun s => (source c o s).bind fun v s1 => pushWords c [v] s1
/-- POP: the pointer of mode 5 is read first, then the stack word; a mode 4 destination is formed after SP has moved, and
SP moves with the store (R167, R176). -/
def execPop (c : CoreId) (o : Opnd) (s : State) : Out :=
  issueOp .dst c o s fun s =>
    let sp := (s.r c).sp
    (effective c o (s.modR c fun r => { r with sp := sp + 1 })).bind fun p s1 =>
    (load c 3 sp false s1).bind fun v s2 => store c p.1 p.2 v s2

/-- ACC and FL from an addition or subtraction. -/
def accFlags (r : Regs) (x : Word × Flags) : Regs := { r with acc := x.1, fl := withFlags r.fl x.2 }

/-- ADD (R171). -/
def execAdd (c : CoreId) (o : Opnd) (s : State) : Out := sourceOp c o s fun v r => accFlags r (addFlags r.acc v false)
/-- ADC (R171). -/
def execAdc (c : CoreId) (o : Opnd) (s : State) : Out :=
  sourceOp c o s fun v r => accFlags r (addFlags r.acc v (bit r.fl 2))
/-- SUB (R171). -/
def execSub (c : CoreId) (o : Opnd) (s : State) : Out := sourceOp c o s fun v r => accFlags r (subFlags r.acc v false)
/-- SBC (R171). -/
def execSbc (c : CoreId) (o : Opnd) (s : State) : Out :=
  sourceOp c o s fun v r => accFlags r (subFlags r.acc v (bit r.fl 2))
/-- CMP (R171). -/
def execCmp (c : CoreId) (o : Opnd) (s : State) : Out :=
  sourceOp c o s fun v r => { r with fl := withFlags r.fl (subFlags r.acc v false).2 }
/-- AND (R171). -/
def execAndOp (c : CoreId) (o : Opnd) (s : State) : Out :=
  sourceOp c o s fun v r => { r with acc := r.acc &&& v, fl := flZN r.fl (r.acc &&& v) }
/-- OR (R171). -/
def execOrOp (c : CoreId) (o : Opnd) (s : State) : Out :=
  sourceOp c o s fun v r => { r with acc := r.acc ||| v, fl := flZN r.fl (r.acc ||| v) }
/-- XOR (R171). -/
def execXorOp (c : CoreId) (o : Opnd) (s : State) : Out :=
  sourceOp c o s fun v r => { r with acc := r.acc ^^^ v, fl := flZN r.fl (r.acc ^^^ v) }
/-- BIT (R171). -/
def execBit (c : CoreId) (o : Opnd) (s : State) : Out :=
  sourceOp c o s fun v r => { r with fl := flZN r.fl (r.acc &&& v) }
/-- INC: Z, N and V (R171). -/
def execInc (c : CoreId) (o : Opnd) (s : State) : Out :=
  modifyOp c o s fun r m =>
    let x := addFlags m 1 false
    (x.1, { r with fl := withFlags r.fl { x.2 with c := bit r.fl 2 } })
/-- DEC: Z, N and V (R171). -/
def execDec (c : CoreId) (o : Opnd) (s : State) : Out :=
  modifyOp c o s fun r m =>
    let x := subFlags m 1 false
    (x.1, { r with fl := withFlags r.fl { x.2 with c := bit r.fl 2 } })
/-- ADM (R171). -/
def execAdm (c : CoreId) (o : Opnd) (s : State) : Out :=
  modifyOp c o s fun r m =>
    let x := addFlags m r.acc false
    (x.1, { r with fl := withFlags r.fl x.2 })
/-- ORM (R171). -/
def execOrm (c : CoreId) (o : Opnd) (s : State) : Out :=
  modifyOp c o s fun r m => (m ||| r.acc, { r with fl := flZN r.fl (m ||| r.acc) })
/-- BCM (R171). -/
def execBcm (c : CoreId) (o : Opnd) (s : State) : Out :=
  modifyOp c o s fun r m => (m &&& ~~~r.acc, { r with fl := flZN r.fl (m &&& ~~~r.acc) })

/-- ACE:ACC (R173). -/
def Regs.long (r : Regs) : BitVec 32 := r.ace ++ r.acc
/-- ACE:ACC written. -/
def Regs.setLong (r : Regs) (x : BitVec 32) : Regs := { r with ace := x.extractLsb' 16 16, acc := x.extractLsb' 0 16 }

/-- MUL: C when ACE is not 0, V clear (R173). -/
def execMul (c : CoreId) (o : Opnd) (s : State) : Out :=
  sourceOp c o s fun v r =>
    let p := BitVec.ofNat 32 (r.acc.toNat * v.toNat)
    let r1 := r.setLong p
    { r1 with fl := withFlags r.fl ⟨decide (p = 0), p.msb, decide (r1.ace ≠ 0), false⟩ }
/-- MULS: C and V when ACE is not the sign extension of ACC (R173). -/
def execMuls (c : CoreId) (o : Opnd) (s : State) : Out :=
  sourceOp c o s fun v r =>
    let p := BitVec.ofInt 32 (r.acc.toInt * v.toInt)
    let r1 := r.setLong p
    let big := decide (r1.acc.signExtend 32 ≠ p)
    { r1 with fl := withFlags r.fl ⟨decide (p = 0), p.msb, big, big⟩ }

/-- A divide: the quotient and remainder, or line 4 after the operand read (R173). -/
def divideOp (c : CoreId) (o : Opnd) (s : State) (f : Regs → Word → Option (Word × Word)) : Out :=
  issueOp .src c o s fun s =>
    (source c o s).bind fun v s1 =>
      match f (s1.r c) v with
      | none => .exc .divide
      | some (q, m) =>
        regs c (fun r => { r with acc := q, ace := m, fl := withFlags r.fl ⟨decide (q = 0), q.msb, false, false⟩ }) s1

/-- DIV (R173). -/
def execDiv (c : CoreId) (o : Opnd) (s : State) : Out :=
  divideOp c o s fun r v =>
    let n := r.long.toNat
    if v = 0 ∨ 65536 ≤ n / v.toNat then none else some (w16 (n / v.toNat), w16 (n % v.toNat))
/-- DIVS: truncated toward zero, the remainder with the sign of the dividend (R173). -/
def execDivs (c : CoreId) (o : Opnd) (s : State) : Out :=
  divideOp c o s fun r v =>
    let n := r.long.toInt
    if v = 0 ∨ fits16 (n.tdiv v.toInt) = false then none
    else some (wordOfInt (n.tdiv v.toInt), wordOfInt (n.tmod v.toInt))

/-- A 16-bit shift of ACC by v[4:0] (R174). -/
def shiftOp (c : CoreId) (o : Opnd) (s : State) (f : Word → Nat → Shifted 16) : Out :=
  sourceOp c o s fun v r =>
    let n := fld v 0 5
    let x := f r.acc n
    { r with acc := x.r, fl := flShift r.fl n x }
/-- A 32-bit shift of ACE:ACC by v[4:0] (R174). -/
def shiftLongOp (c : CoreId) (o : Opnd) (s : State) (f : BitVec 32 → Nat → Shifted 32) : Out :=
  sourceOp c o s fun v r =>
    let n := fld v 0 5
    let x := f r.long n
    { r.setLong x.r with fl := flShift r.fl n x }

/-- SHL (R174). -/
def execShl (c : CoreId) (o : Opnd) (s : State) : Out := shiftOp c o s shl
/-- SHR (R174). -/
def execShr (c : CoreId) (o : Opnd) (s : State) : Out := shiftOp c o s shr
/-- ASR (R174). -/
def execAsr (c : CoreId) (o : Opnd) (s : State) : Out := shiftOp c o s asr
/-- ROL (R174). -/
def execRol (c : CoreId) (o : Opnd) (s : State) : Out := shiftOp c o s rol
/-- ROR (R174). -/
def execRor (c : CoreId) (o : Opnd) (s : State) : Out := shiftOp c o s ror
/-- SHLD (R174). -/
def execShld (c : CoreId) (o : Opnd) (s : State) : Out := shiftLongOp c o s shl
/-- SHRD (R174). -/
def execShrd (c : CoreId) (o : Opnd) (s : State) : Out := shiftLongOp c o s shr
/-- ASRD (R174). -/
def execAsrd (c : CoreId) (o : Opnd) (s : State) : Out := shiftLongOp c o s asr

/-- EXB: the selected byte, zero extended (R179). -/
def execExb (c : CoreId) (o : Opnd) (s : State) : Out :=
  issueOp .byt c o s fun s =>
    (byteOperand c o s).bind fun p s1 =>
    (load c p.1 p.2.1 false s1).bind fun m s2 =>
      let v := (if p.2.2 then hiByte m else loByte m).setWidth 16
      regs c (fun r => { r with acc := v, fl := flZN r.fl v }) s2
/-- INB: the selected byte replaced; not indivisible (R179). -/
def execInb (c : CoreId) (o : Opnd) (s : State) : Out :=
  issueOp .byt c o s fun s =>
    (byteOperand c o s).bind fun p s1 =>
    modifyAt c p.1 p.2.1 (fun r m =>
      (if p.2.2 then wordOf (loByte m) (loByte r.acc) else wordOf (loByte r.acc) (hiByte m), r)) s1

/-- ADX: Z, N and C (R171). -/
def execAdx (c : CoreId) (o : Opnd) (s : State) : Out :=
  sourceOp c o s fun v r =>
    let x := addFlags r.ix v false
    { r with ix := x.1, fl := withFlags r.fl { x.2 with v := bit r.fl 3 } }
/-- ADY: Z, N and C (R171). -/
def execAdy (c : CoreId) (o : Opnd) (s : State) : Out :=
  sourceOp c o s fun v r =>
    let x := addFlags r.iy v false
    { r with iy := x.1, fl := withFlags r.fl { x.2 with v := bit r.fl 3 } }
/-- ADS (R171). -/
def execAds (c : CoreId) (o : Opnd) (s : State) : Out := sourceOp c o s fun v r => { r with sp := r.sp + v }
/-- CPX (R171). -/
def execCpx (c : CoreId) (o : Opnd) (s : State) : Out :=
  sourceOp c o s fun v r => { r with fl := withFlags r.fl (subFlags r.ix v false).2 }
/-- CPY (R171). -/
def execCpy (c : CoreId) (o : Opnd) (s : State) : Out :=
  sourceOp c o s fun v r => { r with fl := withFlags r.fl (subFlags r.iy v false).2 }

/-- A register-only function of the implicit group. -/
def implicitOp (c : CoreId) (s : State) (f : Regs → Regs) : Out := issue1 c s fun s => regs c f s

/-- NOP (R172). -/
def execNop (c : CoreId) (s : State) : Out := implicitOp c s id
/-- EI (R172). -/
def execEi (c : CoreId) (s : State) : Out := implicitOp c s fun r => { r with fl := putBit r.fl 4 true }
/-- DI (R172). -/
def execDi (c : CoreId) (s : State) : Out := implicitOp c s fun r => { r with fl := putBit r.fl 4 false }
/-- SWB (R172). -/
def execSwb (c : CoreId) (s : State) : Out :=
  implicitOp c s fun r =>
    let v := wordOf (hiByte r.acc) (loByte r.acc)
    { r with acc := v, fl := flZN r.fl v }
/-- SXB (R172). -/
def execSxb (c : CoreId) (s : State) : Out :=
  implicitOp c s fun r =>
    let v := (loByte r.acc).signExtend 16
    { r with acc := v, fl := flZN r.fl v }
/-- NEG (R172). -/
def execNeg (c : CoreId) (s : State) : Out := implicitOp c s fun r => accFlags r (subFlags 0 r.acc false)
/-- NOT (R172). -/
def execNotOp (c : CoreId) (s : State) : Out :=
  implicitOp c s fun r => { r with acc := ~~~r.acc, fl := flZN r.fl (~~~r.acc) }
/-- XAE (R172). -/
def execXae (c : CoreId) (s : State) : Out := implicitOp c s fun r => { r with acc := r.ace, ace := r.acc }
/-- MVAX (R172). -/
def execMvax (c : CoreId) (s : State) : Out := implicitOp c s fun r => { r with ix := r.acc }
/-- MVXA (R172). -/
def execMvxa (c : CoreId) (s : State) : Out := implicitOp c s fun r => { r with acc := r.ix, fl := flZN r.fl r.ix }
/-- MVAY (R172). -/
def execMvay (c : CoreId) (s : State) : Out := implicitOp c s fun r => { r with iy := r.acc }
/-- MVYA (R172). -/
def execMvya (c : CoreId) (s : State) : Out := implicitOp c s fun r => { r with acc := r.iy, fl := flZN r.fl r.iy }
/-- MVAE (R172). -/
def execMvae (c : CoreId) (s : State) : Out := implicitOp c s fun r => { r with ace := r.acc }
/-- MVEA (R172). -/
def execMvea (c : CoreId) (s : State) : Out := implicitOp c s fun r => { r with acc := r.ace, fl := flZN r.fl r.ace }
/-- MVAS (R172). -/
def execMvas (c : CoreId) (s : State) : Out := implicitOp c s fun r => { r with sp := r.acc }
/-- MVSA (R172). -/
def execMvsa (c : CoreId) (s : State) : Out := implicitOp c s fun r => { r with acc := r.sp, fl := flZN r.fl r.sp }
/-- MVAF (R175). -/
def execMvaf (c : CoreId) (s : State) : Out :=
  implicitOp c s fun r => { r with fl := flWrite r.fl r.acc (bit r.fl 5) }
/-- MVFA (R172). -/
def execMvfa (c : CoreId) (s : State) : Out := implicitOp c s fun r => { r with acc := r.fl }
/-- RFCD (R172). -/
def execRfcd (c : CoreId) (s : State) : Out := implicitOp c s fun r => { r with acc := wordOf r.fc r.fd }
/-- RFES (R172). -/
def execRfes (c : CoreId) (s : State) : Out := implicitOp c s fun r => { r with acc := wordOf r.fe r.fs }
/-- PSHA (R172). -/
def execPsha (c : CoreId) (s : State) : Out := pushOp c s (·.acc)
/-- POPA (R172). -/
def execPopa (c : CoreId) (s : State) : Out := popOp c s fun v r => { r with acc := v }
/-- PSHE (R172). -/
def execPshe (c : CoreId) (s : State) : Out := pushOp c s (·.ace)
/-- POPE (R172). -/
def execPope (c : CoreId) (s : State) : Out := popOp c s fun v r => { r with ace := v }
/-- PSHX (R172). -/
def execPshx (c : CoreId) (s : State) : Out := pushOp c s (·.ix)
/-- POPX (R172). -/
def execPopx (c : CoreId) (s : State) : Out := popOp c s fun v r => { r with ix := v }
/-- PSHY (R172). -/
def execPshy (c : CoreId) (s : State) : Out := pushOp c s (·.iy)
/-- POPY (R172). -/
def execPopy (c : CoreId) (s : State) : Out := popOp c s fun v r => { r with iy := v }
/-- PSHF (R172). -/
def execPshf (c : CoreId) (s : State) : Out := pushOp c s (·.fl)
/-- POPF (R175). -/
def execPopf (c : CoreId) (s : State) : Out := popOp c s fun v r => { r with fl := flWrite r.fl v (bit r.fl 5) }
/-- INX (R172). -/
def execInx (c : CoreId) (s : State) : Out := implicitOp c s fun r => { r with ix := r.ix + 1, fl := flZN r.fl (r.ix + 1) }
/-- DEX (R172). -/
def execDex (c : CoreId) (s : State) : Out := implicitOp c s fun r => { r with ix := r.ix - 1, fl := flZN r.fl (r.ix - 1) }
/-- INY (R172). -/
def execIny (c : CoreId) (s : State) : Out := implicitOp c s fun r => { r with iy := r.iy + 1, fl := flZN r.fl (r.iy + 1) }
/-- DEY (R172). -/
def execDey (c : CoreId) (s : State) : Out := implicitOp c s fun r => { r with iy := r.iy - 1, fl := flZN r.fl (r.iy - 1) }
/-- CLC (R172). -/
def execClc (c : CoreId) (s : State) : Out := implicitOp c s fun r => { r with fl := putBit r.fl 2 false }
/-- STC (R172). -/
def execStc (c : CoreId) (s : State) : Out := implicitOp c s fun r => { r with fl := putBit r.fl 2 true }
/-- NEGD: the 32-bit negation with its flags (R172). -/
def execNegd (c : CoreId) (s : State) : Out :=
  implicitOp c s fun r =>
    let x := r.long
    { r.setLong (0 - x) with
      fl := withFlags r.fl ⟨decide (0 - x = 0), (0 - x).msb, decide (x ≠ 0), decide (x = BitVec.intMin 32)⟩ }

end Sys2Proof.Machine
end

