-- ==== Sys2Proof/Machine/Dispatch.lean ====
section
/-! DEFINITION. The meaning of each command, one arm per row of spec/opcode_table.json. -/

namespace Sys2Proof.Machine

/-- The effect of a command on everything but the queue. -/
def exec (i : Instr) (s : State) : Host.Outcome State Fault Refusal :=
  match i with
  | .registerWrite r a v => Sys2Proof.Machine.execRegisterWrite r a v s
  | .powerOn => Sys2Proof.Machine.execPowerOn s
  | .powerLoss => Sys2Proof.Machine.execPowerLoss s
  | .bandChange b => Sys2Proof.Machine.execBandChange b s
  | .sectionBandChange sec b => Sys2Proof.Machine.execSectionBandChange sec b s
  | .groundTabFault present => Sys2Proof.Machine.execGroundTabFault present s
  | .reversePolarity => Sys2Proof.Machine.execReversePolarity s
  | .vcoreBrownout => Sys2Proof.Machine.execVcoreBrownout s
  | .clockLoss isl => Sys2Proof.Machine.execClockLoss isl s
  | .islandRelease isl => Sys2Proof.Machine.execIslandRelease isl s
  | .handshakeTimeout src dst => Sys2Proof.Machine.execHandshakeTimeout src dst s
  | .memService => Sys2Proof.Machine.execMemService s
  | .icbMwclr r isl v => Sys2Proof.Machine.execIcbMwclr r isl v s
  | .strapSample straps => Sys2Proof.Machine.execStrapSample straps s
  | .extest => Sys2Proof.Machine.execExtest s
  | .samplePreload levels => Sys2Proof.Machine.execSamplePreload levels s
  | .clamp => Sys2Proof.Machine.execClamp s
  | .highz => Sys2Proof.Machine.execHighz s
  | .bypass code => Sys2Proof.Machine.execBypass code s
  | .resetNRequest => Sys2Proof.Machine.execResetNRequest s
  | .holdExpiry => Sys2Proof.Machine.execHoldExpiry s
  | .descriptorTableError c => Sys2Proof.Machine.execDescriptorTableError c s
  | .supervisorStateError src => Sys2Proof.Machine.execSupervisorStateError src s
  | .retirementRecordError isl => Sys2Proof.Machine.execRetirementRecordError isl s
  | .rstReq r v => Sys2Proof.Machine.execRstReq r v s
  | .optionLoadComplete dbe fixes => Sys2Proof.Machine.execOptionLoadComplete dbe fixes s
  | .optionLoadRetry => Sys2Proof.Machine.execOptionLoadRetry s
  | .otpProgram r v => Sys2Proof.Machine.execOtpProgram r v s
  | .otpProgramComplete ok => Sys2Proof.Machine.execOtpProgramComplete ok s
  | .payloadVerificationComplete => Sys2Proof.Machine.execPayloadVerificationComplete s
  | .zeroFillComplete => Sys2Proof.Machine.execZeroFillComplete s
  | .calibrationComplete isl => Sys2Proof.Machine.execCalibrationComplete isl s
  | .referenceFallback => Sys2Proof.Machine.execReferenceFallback s
  | .marionetteTableRead => Sys2Proof.Machine.execMarionetteTableRead s
  | .marionetteEvaluate => Sys2Proof.Machine.execMarionetteEvaluate s
  | .marionetteToggle e => Sys2Proof.Machine.execMarionetteToggle e s
  | .marStop r v => Sys2Proof.Machine.execMarStop r v s
  | .parkRequest r v => Sys2Proof.Machine.execParkRequest r v s
  | .deepParkRequest r v => Sys2Proof.Machine.execDeepParkRequest r v s
  | .wklWake line us => Sys2Proof.Machine.execWklWake line us s
  | .parkVbatLow => Sys2Proof.Machine.execParkVbatLow s
  | .parkVbatReturn => Sys2Proof.Machine.execParkVbatReturn s
  | .wakeCauseClear r v => Sys2Proof.Machine.execWakeCauseClear r v s
  | .rtcTick => Sys2Proof.Machine.execRtcTick s
  | .rtcRead r => Sys2Proof.Machine.execRtcRead r s
  | .rtcLoad r v => Sys2Proof.Machine.execRtcLoad r v s
  | .supplyMeasureUpdate va vb vc vd vbus => Sys2Proof.Machine.execSupplyMeasureUpdate va vb vc vd vbus s
  | .vsenShort n kind present => Sys2Proof.Machine.execVsenShort n kind present s
  | .vsenRestart n => Sys2Proof.Machine.execVsenRestart n s
  | .ld c o => Sys2Proof.Machine.execLd c o s
  | .st c o => Sys2Proof.Machine.execSt c o s
  | .lde c o => Sys2Proof.Machine.execLde c o s
  | .ste c o => Sys2Proof.Machine.execSte c o s
  | .ldx c o => Sys2Proof.Machine.execLdx c o s
  | .stx c o => Sys2Proof.Machine.execStx c o s
  | .ldy c o => Sys2Proof.Machine.execLdy c o s
  | .sty c o => Sys2Proof.Machine.execSty c o s
  | .xch c o => Sys2Proof.Machine.execXch c o s
  | .push c o => Sys2Proof.Machine.execPush c o s
  | .pop c o => Sys2Proof.Machine.execPop c o s
  | .add c o => Sys2Proof.Machine.execAdd c o s
  | .adc c o => Sys2Proof.Machine.execAdc c o s
  | .sub c o => Sys2Proof.Machine.execSub c o s
  | .sbc c o => Sys2Proof.Machine.execSbc c o s
  | .cmp c o => Sys2Proof.Machine.execCmp c o s
  | .andOp c o => Sys2Proof.Machine.execAndOp c o s
  | .orOp c o => Sys2Proof.Machine.execOrOp c o s
  | .xorOp c o => Sys2Proof.Machine.execXorOp c o s
  | .bit c o => Sys2Proof.Machine.execBit c o s
  | .inc c o => Sys2Proof.Machine.execInc c o s
  | .dec c o => Sys2Proof.Machine.execDec c o s
  | .adm c o => Sys2Proof.Machine.execAdm c o s
  | .orm c o => Sys2Proof.Machine.execOrm c o s
  | .bcm c o => Sys2Proof.Machine.execBcm c o s
  | .mul c o => Sys2Proof.Machine.execMul c o s
  | .muls c o => Sys2Proof.Machine.execMuls c o s
  | .div c o => Sys2Proof.Machine.execDiv c o s
  | .divs c o => Sys2Proof.Machine.execDivs c o s
  | .shl c o => Sys2Proof.Machine.execShl c o s
  | .shr c o => Sys2Proof.Machine.execShr c o s
  | .asr c o => Sys2Proof.Machine.execAsr c o s
  | .rol c o => Sys2Proof.Machine.execRol c o s
  | .ror c o => Sys2Proof.Machine.execRor c o s
  | .shld c o => Sys2Proof.Machine.execShld c o s
  | .shrd c o => Sys2Proof.Machine.execShrd c o s
  | .asrd c o => Sys2Proof.Machine.execAsrd c o s
  | .exb c o => Sys2Proof.Machine.execExb c o s
  | .inb c o => Sys2Proof.Machine.execInb c o s
  | .adx c o => Sys2Proof.Machine.execAdx c o s
  | .ady c o => Sys2Proof.Machine.execAdy c o s
  | .ads c o => Sys2Proof.Machine.execAds c o s
  | .cpx c o => Sys2Proof.Machine.execCpx c o s
  | .cpy c o => Sys2Proof.Machine.execCpy c o s
  | .jmp c o => Sys2Proof.Machine.execJmp c o s
  | .call c o => Sys2Proof.Machine.execCall c o s
  | .jmpf c o => Sys2Proof.Machine.execJmpf c o s
  | .callf c o => Sys2Proof.Machine.execCallf c o s
  | .bcc c cond d => Sys2Proof.Machine.execBcc c cond d s
  | .lfd c o => Sys2Proof.Machine.execLfd c o s
  | .lfe c o => Sys2Proof.Machine.execLfe c o s
  | .lfs c o => Sys2Proof.Machine.execLfs c o s
  | .tas c o => Sys2Proof.Machine.execTas c o s
  | .lrw c o => Sys2Proof.Machine.execLrw c o s
  | .scw c o => Sys2Proof.Machine.execScw c o s
  | .wev c o => Sys2Proof.Machine.execWev c o s
  | .sev c o => Sys2Proof.Machine.execSev c o s
  | .sevRaise c => Sys2Proof.Machine.execSevRaise c s
  | .sdt c o => Sys2Proof.Machine.execSdt c o s
  | .ldt c o => Sys2Proof.Machine.execLdt c o s
  | .undefinedOpcode c w => Sys2Proof.Machine.execUndefinedOpcode c w s
  | .nop c => Sys2Proof.Machine.execNop c s
  | .chk c => Sys2Proof.Machine.execChk c s
  | .ret c => Sys2Proof.Machine.execRet c s
  | .retf c => Sys2Proof.Machine.execRetf c s
  | .rte c => Sys2Proof.Machine.execRte c s
  | .ei c => Sys2Proof.Machine.execEi c s
  | .di c => Sys2Proof.Machine.execDi c s
  | .swb c => Sys2Proof.Machine.execSwb c s
  | .sxb c => Sys2Proof.Machine.execSxb c s
  | .neg c => Sys2Proof.Machine.execNeg c s
  | .notOp c => Sys2Proof.Machine.execNotOp c s
  | .xae c => Sys2Proof.Machine.execXae c s
  | .mvax c => Sys2Proof.Machine.execMvax c s
  | .mvxa c => Sys2Proof.Machine.execMvxa c s
  | .mvay c => Sys2Proof.Machine.execMvay c s
  | .mvya c => Sys2Proof.Machine.execMvya c s
  | .mvae c => Sys2Proof.Machine.execMvae c s
  | .mvea c => Sys2Proof.Machine.execMvea c s
  | .mvas c => Sys2Proof.Machine.execMvas c s
  | .mvsa c => Sys2Proof.Machine.execMvsa c s
  | .mvaf c => Sys2Proof.Machine.execMvaf c s
  | .mvfa c => Sys2Proof.Machine.execMvfa c s
  | .rfcd c => Sys2Proof.Machine.execRfcd c s
  | .rfes c => Sys2Proof.Machine.execRfes c s
  | .psha c => Sys2Proof.Machine.execPsha c s
  | .popa c => Sys2Proof.Machine.execPopa c s
  | .pshe c => Sys2Proof.Machine.execPshe c s
  | .pope c => Sys2Proof.Machine.execPope c s
  | .pshx c => Sys2Proof.Machine.execPshx c s
  | .popx c => Sys2Proof.Machine.execPopx c s
  | .pshy c => Sys2Proof.Machine.execPshy c s
  | .popy c => Sys2Proof.Machine.execPopy c s
  | .pshf c => Sys2Proof.Machine.execPshf c s
  | .popf c => Sys2Proof.Machine.execPopf c s
  | .inx c => Sys2Proof.Machine.execInx c s
  | .dex c => Sys2Proof.Machine.execDex c s
  | .iny c => Sys2Proof.Machine.execIny c s
  | .dey c => Sys2Proof.Machine.execDey c s
  | .clc c => Sys2Proof.Machine.execClc c s
  | .stc c => Sys2Proof.Machine.execStc c s
  | .negd c => Sys2Proof.Machine.execNegd c s
  | .eventEntry c => Sys2Proof.Machine.execEventEntry c s
  | .checkpoint c => Sys2Proof.Machine.execCheckpoint c s
  | .checkpointWriteDone c => Sys2Proof.Machine.execCheckpointWriteDone c s
  | .lockstepMismatch c => Sys2Proof.Machine.execLockstepMismatch c s
  | .rollbackComplete c result => Sys2Proof.Machine.execRollbackComplete c result s
  | .takeoverComplete c result => Sys2Proof.Machine.execTakeoverComplete c result s
  | .mismatchWindowEnd c => Sys2Proof.Machine.execMismatchWindowEnd c s
  | .spareDesignate r v => Sys2Proof.Machine.execSpareDesignate r v s
  | .timerExpiry c n => Sys2Proof.Machine.execTimerExpiry c n s
  | .cycRead r c => Sys2Proof.Machine.execCycRead r c s
  | .wdgKick r c v => Sys2Proof.Machine.execWdgKick r c v s
  | .watchdogWarning c => Sys2Proof.Machine.execWatchdogWarning c s
  | .watchdogExpiry c => Sys2Proof.Machine.execWatchdogExpiry c s
  | .stagingWrite r ch w v => Sys2Proof.Machine.execStagingWrite r ch w v s
  | .commit r ch v => Sys2Proof.Machine.execCommit r ch v s
  | .periodBoundary ch => Sys2Proof.Machine.execPeriodBoundary ch s
  | .profileLoad r isl v => Sys2Proof.Machine.execProfileLoad r isl v s
  | .profileSwap isl => Sys2Proof.Machine.execProfileSwap isl s
  | .retryPauseEnd ch => Sys2Proof.Machine.execRetryPauseEnd ch s
  | .forgiveExpiry ch => Sys2Proof.Machine.execForgiveExpiry ch s
  | .recurAgeing ch => Sys2Proof.Machine.execRecurAgeing ch s
  | .retirementRecordWrite isl => Sys2Proof.Machine.execRetirementRecordWrite isl s
  | .retClear r isl v => Sys2Proof.Machine.execRetClear r isl v s
  | .partnerTakeover ch => Sys2Proof.Machine.execPartnerTakeover ch s
  | .shortComparatorTrip ch side n => Sys2Proof.Machine.execShortComparatorTrip ch side n s
  | .limitTrip ch n us term => Sys2Proof.Machine.execLimitTrip ch n us term s
  | .inrushWindowEnd ch term => Sys2Proof.Machine.execInrushWindowEnd ch term s
  | .thermalLatchSet u a b => Sys2Proof.Machine.execThermalLatchSet u a b s
  | .thermalLatchClear u a b => Sys2Proof.Machine.execThermalLatchClear u a b s
  | .wireModelUpdate ch meanSquare => Sys2Proof.Machine.execWireModelUpdate ch meanSquare s
  | .channelStart ch => Sys2Proof.Machine.execChannelStart ch s
  | .governorEvaluation p => Sys2Proof.Machine.execGovernorEvaluation p s
  | .sectionCurrentUpdate sec mean => Sys2Proof.Machine.execSectionCurrentUpdate sec mean s
  | .currentMeasurement ch m => Sys2Proof.Machine.execCurrentMeasurement ch m s
  | .offStateCheck ch v pair => Sys2Proof.Machine.execOffStateCheck ch v pair s
  | .shortBatConfirm ch v pair => Sys2Proof.Machine.execShortBatConfirm ch v pair s
  | .openConfirm ch => Sys2Proof.Machine.execOpenConfirm ch s
  | .hbRegulationPeriod ch mean => Sys2Proof.Machine.execHbRegulationPeriod ch mean s
  | .stallDetect ch n ms => Sys2Proof.Machine.execStallDetect ch n ms s
  | .peakStart n vbst => Sys2Proof.Machine.execPeakStart n vbst s
  | .peakEnd n why drawn vbst => Sys2Proof.Machine.execPeakEnd n why drawn vbst s
  | .pulseEnd n vbst => Sys2Proof.Machine.execPulseEnd n vbst s
  | .turnOffEnd n cur => Sys2Proof.Machine.execTurnOffEnd n cur s
  | .peakAbandon n => Sys2Proof.Machine.execPeakAbandon n s
  | .boostUnder vbst => Sys2Proof.Machine.execBoostUnder vbst s
  | .boostFault vbst => Sys2Proof.Machine.execBoostFault vbst s
  | .vlShortGndTrip n v us => Sys2Proof.Machine.execVlShortGndTrip n v us s
  | .railShortTrip k n v => Sys2Proof.Machine.execRailShortTrip k n v s
  | .railRetry k => Sys2Proof.Machine.execRailRetry k s
  | .bankOffCheck k node => Sys2Proof.Machine.execBankOffCheck k node s
  | .bankClr r v => Sys2Proof.Machine.execBankClr r v s
  | .luxGcWrite r v => Sys2Proof.Machine.execLuxGcWrite r v s
  | .frameStart => Sys2Proof.Machine.execFrameStart s
  | .rowSlot row parityBad cur => Sys2Proof.Machine.execRowSlot row parityBad cur s
  | .frameSwap r => Sys2Proof.Machine.execFrameSwap r s
  | .frameLoad r => Sys2Proof.Machine.execFrameLoad r s
  | .frameLoadComplete => Sys2Proof.Machine.execFrameLoadComplete s
  | .frameBufferWrite r a v => Sys2Proof.Machine.execFrameBufferWrite r a v s
  | .lxsyncEdge rising => Sys2Proof.Machine.execLxsyncEdge rising s
  | .lxsyncMiss => Sys2Proof.Machine.execLxsyncMiss s
  | .calibrationLoad r v => Sys2Proof.Machine.execCalibrationLoad r v s
  | .calibrationSwap => Sys2Proof.Machine.execCalibrationSwap s
  | .lampEvaluationTick tdie => Sys2Proof.Machine.execLampEvaluationTick tdie s
  | .lampEvaluationDone k => Sys2Proof.Machine.execLampEvaluationDone k s
  | .lsShortTrip n v us => Sys2Proof.Machine.execLsShortTrip n v us s
  | .inputFilterTick b n raw cur => Sys2Proof.Machine.execInputFilterTick b n raw cur s
  | .inputConfigWrite r b n v => Sys2Proof.Machine.execInputConfigWrite r b n v s
  | .siConversion n v20 ratio ohm => Sys2Proof.Machine.execSiConversion n v20 ratio ohm s
  | .vsnsLimit on => Sys2Proof.Machine.execVsnsLimit on s
  | .cyclicSensePulse raw => Sys2Proof.Machine.execCyclicSensePulse raw s
  | .barrierPathFail path failed => Sys2Proof.Machine.execBarrierPathFail path failed s
  | .fieldPowerLoss => Sys2Proof.Machine.execFieldPowerLoss s
  | .fieldPowerUp => Sys2Proof.Machine.execFieldPowerUp s
  | .vfldStateChange st v => Sys2Proof.Machine.execVfldStateChange st v s
  | .vfldMissingCrossing below => Sys2Proof.Machine.execVfldMissingCrossing below s
  | .inputLogWrite => Sys2Proof.Machine.execInputLogWrite s
  | .canFrameReceived n rx => Sys2Proof.Machine.execCanFrameReceived n rx s
  | .ethFrameReceived n f => Sys2Proof.Machine.execEthFrameReceived n f s
  | .receiveRecordWrite k => Sys2Proof.Machine.execReceiveRecordWrite k s
  | .frameTransmitted p ok => Sys2Proof.Machine.execFrameTransmitted p ok s
  | .txrWpWrite r p v => Sys2Proof.Machine.execTxrWpWrite r p v s
  | .canModeWrite r n v => Sys2Proof.Machine.execCanModeWrite r n v s
  | .canBusOff n => Sys2Proof.Machine.execCanBusOff n s
  | .canBorec r n v => Sys2Proof.Machine.execCanBorec r n v s
  | .linHeader n id rate => Sys2Proof.Machine.execLinHeader n id rate s
  | .linResponse n rsp => Sys2Proof.Machine.execLinResponse n rsp s
  | .linHdr r n v => Sys2Proof.Machine.execLinHdr r n v s
  | .linPub r n id => Sys2Proof.Machine.execLinPub r n id s
  | .linWakeSend r n v => Sys2Proof.Machine.execLinWakeSend r n v s
  | .linWake n us => Sys2Proof.Machine.execLinWake n us s
  | .canWakePattern n phase us => Sys2Proof.Machine.execCanWakePattern n phase us s
  | .tc10Wake n => Sys2Proof.Machine.execTc10Wake n s
  | .sleepreq r n => Sys2Proof.Machine.execSleepreq r n s
  | .wur r n => Sys2Proof.Machine.execWur r n s
  | .gwswap r => Sys2Proof.Machine.execGwswap r s
  | .routeSwapApply => Sys2Proof.Machine.execRouteSwapApply s
  | .gwIsoWrite r v => Sys2Proof.Machine.execGwIsoWrite r v s
  | .wfsend r => Sys2Proof.Machine.execWfsend r s
  | .wklPulse r v => Sys2Proof.Machine.execWklPulse r v s
  | .wklPulseEnd line => Sys2Proof.Machine.execWklPulseEnd line s
  | .netUsRead r => Sys2Proof.Machine.execNetUsRead r s
  | .ringEnable r v => Sys2Proof.Machine.execRingEnable r v s
  | .joinFrame n f => Sys2Proof.Machine.execJoinFrame n f s
  | .leaveFrame n f => Sys2Proof.Machine.execLeaveFrame n f s
  | .tokenFrame n f => Sys2Proof.Machine.execTokenFrame n f s
  | .ringCommit n f => Sys2Proof.Machine.execRingCommit n f s
  | .revokeFrame n f => Sys2Proof.Machine.execRevokeFrame n f s
  | .overruleFrame n f => Sys2Proof.Machine.execOverruleFrame n f s
  | .tokenForward => Sys2Proof.Machine.execTokenForward s
  | .tokenResend => Sys2Proof.Machine.execTokenResend s
  | .tokenLost => Sys2Proof.Machine.execTokenLost s
  | .quietWindowEnd => Sys2Proof.Machine.execQuietWindowEnd s
  | .trRevoke r => Sys2Proof.Machine.execTrRevoke r s
  | .trLeave r => Sys2Proof.Machine.execTrLeave r s
  | .unbar r => Sys2Proof.Machine.execUnbar r s
  | .generalSession r v => Sys2Proof.Machine.execGeneralSession r v s
  | .addressedSession r v => Sys2Proof.Machine.execAddressedSession r v s
  | .sessionAbort r v => Sys2Proof.Machine.execSessionAbort r v s
  | .sessionPhaseEnd peak => Sys2Proof.Machine.execSessionPhaseEnd peak s
  | .uhfFrameReceived pre crcOk bytes => Sys2Proof.Machine.execUhfFrameReceived pre crcOk bytes s
  | .rngArm r v => Sys2Proof.Machine.execRngArm r v s
  | .rngTround r v => Sys2Proof.Machine.execRngTround r v s
  | .spiDataWrite r p v reply => Sys2Proof.Machine.execSpiDataWrite r p v reply s
  | .enrolment r v => Sys2Proof.Machine.execEnrolment r v s
  | .enrolmentComplete rsp programmed peak => Sys2Proof.Machine.execEnrolmentComplete rsp programmed peak s
  | .revocation r v => Sys2Proof.Machine.execRevocation r v s
  | .poll => Sys2Proof.Machine.execPoll s
  | .pollWindowEnd => Sys2Proof.Machine.execPollWindowEnd s
  | .spreadPoll => Sys2Proof.Machine.execSpreadPoll s
  | .pollStop => Sys2Proof.Machine.execPollStop s
  | .immoRelease r v => Sys2Proof.Machine.execImmoRelease r v s
  | .immoLock r v => Sys2Proof.Machine.execImmoLock r v s
  | .immoSet r v => Sys2Proof.Machine.execImmoSet r v s
  | .ksLoad r v => Sys2Proof.Machine.execKsLoad r v s
  | .ksLoadotp r v => Sys2Proof.Machine.execKsLoadotp r v s
  | .ksGen r v => Sys2Proof.Machine.execKsGen r v s
  | .ksImport r v => Sys2Proof.Machine.execKsImport r v s
  | .ksErase r v => Sys2Proof.Machine.execKsErase r v s
  | .keyStoreComplete => Sys2Proof.Machine.execKeyStoreComplete s
  | .jobStagingWrite r j w v => Sys2Proof.Machine.execJobStagingWrite r j w v s
  | .jobGo r j v => Sys2Proof.Machine.execJobGo r j v s
  | .jobStart => Sys2Proof.Machine.execJobStart s
  | .jobComplete => Sys2Proof.Machine.execJobComplete s
  | .trnRead r => Sys2Proof.Machine.execTrnRead r s
  | .randomHealthFail failed => Sys2Proof.Machine.execRandomHealthFail failed s
  | .erasingAlarm a => Sys2Proof.Machine.execErasingAlarm a s
  | .alarmEnd a => Sys2Proof.Machine.execAlarmEnd a s
  | .sourceActivation src => Sys2Proof.Machine.execSourceActivation src s
  | .sourceRelease src => Sys2Proof.Machine.execSourceRelease src s
  | .wireFault src rails => Sys2Proof.Machine.execWireFault src rails s
  | .wireFaultEnd src rails => Sys2Proof.Machine.execWireFaultEnd src rails s
  | .sourceCheckResume isl => Sys2Proof.Machine.execSourceCheckResume isl s
  | .escalation src => Sys2Proof.Machine.execEscalation src s
  | .escalationWindowEnd src => Sys2Proof.Machine.execEscalationWindowEnd src s
  | .safeEnd r v => Sys2Proof.Machine.execSafeEnd r v s
  | .firstClr r v => Sys2Proof.Machine.execFirstClr r v s
  | .samplerLogWrite => Sys2Proof.Machine.execSamplerLogWrite s
  | .portTrained p offBoard => Sys2Proof.Machine.execPortTrained p offBoard s
  | .portTrainTimeout p => Sys2Proof.Machine.execPortTrainTimeout p s
  | .linkResend p => Sys2Proof.Machine.execLinkResend p s
  | .portDown p => Sys2Proof.Machine.execPortDown p s
  | .stitchArrival p lw st => Sys2Proof.Machine.execStitchArrival p lw st s
  | .readStitch p st => Sys2Proof.Machine.execReadStitch p st s
  | .writeStitch p st => Sys2Proof.Machine.execWriteStitch p st s
  | .rdata st => Sys2Proof.Machine.execRdata st s
  | .wack st => Sys2Proof.Machine.execWack st s
  | .chcmd p st => Sys2Proof.Machine.execChcmd p st s
  | .chack st => Sys2Proof.Machine.execChack st s
  | .mail p st => Sys2Proof.Machine.execMail p st s
  | .mack st => Sys2Proof.Machine.execMack st s
  | .resetStitch p st => Sys2Proof.Machine.execResetStitch p st s
  | .errorStitch st => Sys2Proof.Machine.execErrorStitch st s
  | .hello p st => Sys2Proof.Machine.execHello p st s
  | .linksDisc p st => Sys2Proof.Machine.execLinksDisc p st s
  | .negreq p st => Sys2Proof.Machine.execNegreq p st s
  | .neggrant p st => Sys2Proof.Machine.execNeggrant p st s
  | .negreqTimer => Sys2Proof.Machine.execNegreqTimer s
  | .negAllocate => Sys2Proof.Machine.execNegAllocate s
  | .negFail => Sys2Proof.Machine.execNegFail s
  | .discoveryDone => Sys2Proof.Machine.execDiscoveryDone s
  | .remoteTimeout tag => Sys2Proof.Machine.execRemoteTimeout tag s
  | .ccGo r v => Sys2Proof.Machine.execCcGo r v s
  | .mbxTxgo r v => Sys2Proof.Machine.execMbxTxgo r v s
  | .lnkRrst r v => Sys2Proof.Machine.execLnkRrst r v s
  | .portRestart r p v => Sys2Proof.Machine.execPortRestart r p v s
  | .portDownReport p => Sys2Proof.Machine.execPortDownReport p s
  | .flashProgram r v => Sys2Proof.Machine.execFlashProgram r v s
  | .flashErase r v => Sys2Proof.Machine.execFlashErase r v s
  | .flashEraseBank r v => Sys2Proof.Machine.execFlashEraseBank r v s
  | .flashEraseGen r v => Sys2Proof.Machine.execFlashEraseGen r v s
  | .flashComplete verifyOk => Sys2Proof.Machine.execFlashComplete verifyOk s
  | .openPart r v => Sys2Proof.Machine.execOpenPart r v s
  | .closePart r v => Sys2Proof.Machine.execClosePart r v s
  | .dropPart r v => Sys2Proof.Machine.execDropPart r v s
  | .preparePart r v => Sys2Proof.Machine.execPreparePart r v s
  | .prepareComplete flashOk => Sys2Proof.Machine.execPrepareComplete flashOk s
  | .startActivation r v => Sys2Proof.Machine.execStartActivation r v s
  | .healthyCmd r v => Sys2Proof.Machine.execHealthyCmd r v s
  | .updPrepare u => Sys2Proof.Machine.execUpdPrepare u s
  | .updVote u => Sys2Proof.Machine.execUpdVote u s
  | .updCommit u => Sys2Proof.Machine.execUpdCommit u s
  | .updAbort u => Sys2Proof.Machine.execUpdAbort u s
  | .updHealthy u => Sys2Proof.Machine.execUpdHealthy u s
  | .updConfirm u => Sys2Proof.Machine.execUpdConfirm u s
  | .updRevert u => Sys2Proof.Machine.execUpdRevert u s
  | .updAck u => Sys2Proof.Machine.execUpdAck u s
  | .updFailed u => Sys2Proof.Machine.execUpdFailed u s
  | .updQuery u => Sys2Proof.Machine.execUpdQuery u s
  | .updState u => Sys2Proof.Machine.execUpdState u s
  | .updResend => Sys2Proof.Machine.execUpdResend s
  | .voteTimeout => Sys2Proof.Machine.execVoteTimeout s
  | .healthDeadline => Sys2Proof.Machine.execHealthDeadline s
  | .preparedTimeout => Sys2Proof.Machine.execPreparedTimeout s
  | .windowExpiry => Sys2Proof.Machine.execWindowExpiry s
  | .orphanQuery => Sys2Proof.Machine.execOrphanQuery s
  | .resetNRise => Sys2Proof.Machine.execResetNRise s
  | .canBusOffRecovery n => Sys2Proof.Machine.execCanBusOffRecovery n s
  | .ethLinkChange n up => Sys2Proof.Machine.execEthLinkChange n up s
  | .tc10SleepAck n => Sys2Proof.Machine.execTc10SleepAck n s
  | .stitchCrcDiscard p => Sys2Proof.Machine.execStitchCrcDiscard p s
  | .boostUnderClear vbst => Sys2Proof.Machine.execBoostUnderClear vbst s
  | .antennaShortTrip n cur => Sys2Proof.Machine.execAntennaShortTrip n cur s
  | .linNoResponse n => Sys2Proof.Machine.execLinNoResponse n s

end Sys2Proof.Machine
end

