-- ==== Sys2Proof/Machine/Tick.lean ====
section
/-! DEFINITION. One microsecond without a command: what the block does of itself, whatever is commanded. It is what a
step does on an empty queue.
The readings and choices it rests on: notes/assumptions/4, 53, 56. -/

namespace Sys2Proof.Machine

/-- MEM serves what waits; its tick advances 200 cycles (Table 1.2, R42–R44). -/
def memTime (s : State) : State :=
  let s1 := if s.running .mem then serveAll s else s
  { s1 with memTick := Nat.max s1.memTick (s.memTick + 200) }

/-- An entry into Park or Deep Park reaches its mode 1 ms after it was accepted (R91). -/
def modeTime (s : State) : State :=
  match s.mode with
  | .entering deep => if s.enterAt + 1000 ≤ s.now then modeReached deep s else s
  | _ => s

/-- The next random word is ready (R420). -/
def trnTime (s : State) : State := { s with sec := { s.sec with trnReady := true } }

/-- One stitch that this device sent to itself arrives (R458). -/
def selfArrival (s : State) : Out :=
  match s.lnk.selfq with
  | [] => .next s
  | st :: rest => if s.running .lnk then deliver 0 st { s with lnk := { s.lnk with selfq := rest } } else .next s

/-- One microsecond. -/
def tick (s : State) : Out :=
  let s1 := memTime { s with now := s.now + 1 }
  let s2 := linkTick (drainCores s1)
  let s3 := clockTime (railQuiet (trnTime (retryWaiting s2)))
  selfArrival (updTime (modeTime s3))

end Sys2Proof.Machine
end

