-- ==== Sys2Proof/WellFormed.lean ====
section
/-! DEFINITION. The well-formed commands: what a command's operands name exists (Table 7.1, Table 1.5), a stitch or frame
has the form its rule gives it, and the value of a command register holds the operation that the row stands for. -/

namespace Sys2Proof

/-- The field of `n` bits from `lo` on holds `k`. -/
def fieldIs (v : Word) (lo n k : Nat) : Bool := decide ((v.toNat >>> lo) % 2 ^ n = k)

/-- The channels of an output island (Table 7.1). -/
def OutIsl.channels : OutIsl → Nat
  | .sw => 76 | .act => 16 | .lux => 108 | .fld => 16

/-- The channel exists. -/
def chanOk (ch : ChanRef) : Bool := decide (ch.idx < ch.isl.channels)

/-- The latch's unit exists (R287). -/
def thermOk : ThermRef → Bool
  | .chan ch => chanOk ch
  | .bank _ => true

/-- The input exists: 48 SI, 32 FI. -/
def inputOk (b : InBank) (n : Fin 48) : Bool :=
  match b with
  | .si => true
  | .fi => decide (n.val < 32)

/-- A stitch has at most 8 payload words, and LEN of them at least (Table 16.2). -/
def stitchOk (st : Stitch) : Bool := decide (st.payload.length ≤ 8) && decide (Nat.min st.len.toNat 8 ≤ st.payload.length)

/-- A discovery stitch of a subtype: DEST 0x1FF, BC, eight payload words (R453). -/
def discOk (st : Stitch) (sub : Nat) : Bool :=
  decide (st.type = 0xB) && st.bc && decide (st.dest = 0x1FF) && decide (st.payload.length = 8) &&
    fieldIs (st.payload.getD 0 0) 0 4 sub

/-- A CAN frame: the identifier fits its format, the data its length code (Table 12.6). -/
def canOk (f : CanFrame) : Bool :=
  decide (f.id < if f.ide then 2 ^ 29 else 2 ^ 11) && decide (f.dlc ≤ 15) && decide (f.data.length ≤ if f.fd then 64 else 8)

/-- A reception holds a frame of the right form. -/
def canRxOk : CanRx → Bool
  | .frame f => canOk f
  | .errorOverflow => true

/-- A LIN response carries at most 8 bytes (Table 12.4). -/
def linRspOk : LinRsp → Bool
  | .data bytes _ => decide (bytes.length ≤ 8)
  | .bitError => true

/-- The command is well formed. -/
def wellFormed (i : Instr) : Bool :=
  match i with
  | .registerWrite _ a _ => decide (0xA00000 ≤ a) && decide (a < 0xAA0000)
  | .powerOn => true
  | .powerLoss => true
  | .bandChange _ => true
  | .sectionBandChange _ _ => true
  | .groundTabFault _ => true
  | .reversePolarity => true
  | .vcoreBrownout => true
  | .clockLoss _ => true
  | .islandRelease _ => true
  | .handshakeTimeout _ _ => true
  | .memService => true
  | .icbMwclr _ _ v => fieldIs v 0 1 1
  | .strapSample _ => true
  | .extest => true
  | .samplePreload _ => true
  | .clamp => true
  | .highz => true
  | .bypass _ => true
  | .resetNRequest => true
  | .holdExpiry => true
  | .descriptorTableError _ => true
  | .supervisorStateError _ => true
  | .retirementRecordError _ => true
  | .rstReq _ _ => true
  | .optionLoadComplete _ _ => true
  | .optionLoadRetry => true
  | .otpProgram _ v => fieldIs v 0 1 1
  | .otpProgramComplete _ => true
  | .payloadVerificationComplete => true
  | .zeroFillComplete => true
  | .calibrationComplete _ => true
  | .referenceFallback => true
  | .marionetteTableRead => true
  | .marionetteEvaluate => true
  | .marionetteToggle _ => true
  | .marStop _ v => fieldIs v 0 1 1
  | .parkRequest _ v => fieldIs v 0 2 1
  | .deepParkRequest _ v => fieldIs v 0 2 2
  | .wklWake _ _ => true
  | .parkVbatLow => true
  | .parkVbatReturn => true
  | .wakeCauseClear _ _ => true
  | .rtcTick => true
  | .rtcRead _ => true
  | .rtcLoad _ v => fieldIs v 0 1 1
  | .supplyMeasureUpdate _ _ _ _ _ => true
  | .vsenShort _ _ _ => true
  | .vsenRestart _ => true
  | .ld _ _ => true
  | .st _ _ => true
  | .lde _ _ => true
  | .ste _ _ => true
  | .ldx _ _ => true
  | .stx _ _ => true
  | .ldy _ _ => true
  | .sty _ _ => true
  | .xch _ _ => true
  | .push _ _ => true
  | .pop _ _ => true
  | .add _ _ => true
  | .adc _ _ => true
  | .sub _ _ => true
  | .sbc _ _ => true
  | .cmp _ _ => true
  | .andOp _ _ => true
  | .orOp _ _ => true
  | .xorOp _ _ => true
  | .bit _ _ => true
  | .inc _ _ => true
  | .dec _ _ => true
  | .adm _ _ => true
  | .orm _ _ => true
  | .bcm _ _ => true
  | .mul _ _ => true
  | .muls _ _ => true
  | .div _ _ => true
  | .divs _ _ => true
  | .shl _ _ => true
  | .shr _ _ => true
  | .asr _ _ => true
  | .rol _ _ => true
  | .ror _ _ => true
  | .shld _ _ => true
  | .shrd _ _ => true
  | .asrd _ _ => true
  | .exb _ _ => true
  | .inb _ _ => true
  | .adx _ _ => true
  | .ady _ _ => true
  | .ads _ _ => true
  | .cpx _ _ => true
  | .cpy _ _ => true
  | .jmp _ _ => true
  | .call _ _ => true
  | .jmpf _ _ => true
  | .callf _ _ => true
  | .bcc _ _ _ => true
  | .lfd _ _ => true
  | .lfe _ _ => true
  | .lfs _ _ => true
  | .tas _ _ => true
  | .lrw _ _ => true
  | .scw _ _ => true
  | .wev _ _ => true
  | .sev _ _ => true
  | .sevRaise _ => true
  | .sdt _ _ => true
  | .ldt _ _ => true
  | .undefinedOpcode _ _ => true
  | .nop _ => true
  | .chk _ => true
  | .ret _ => true
  | .retf _ => true
  | .rte _ => true
  | .ei _ => true
  | .di _ => true
  | .swb _ => true
  | .sxb _ => true
  | .neg _ => true
  | .notOp _ => true
  | .xae _ => true
  | .mvax _ => true
  | .mvxa _ => true
  | .mvay _ => true
  | .mvya _ => true
  | .mvae _ => true
  | .mvea _ => true
  | .mvas _ => true
  | .mvsa _ => true
  | .mvaf _ => true
  | .mvfa _ => true
  | .rfcd _ => true
  | .rfes _ => true
  | .psha _ => true
  | .popa _ => true
  | .pshe _ => true
  | .pope _ => true
  | .pshx _ => true
  | .popx _ => true
  | .pshy _ => true
  | .popy _ => true
  | .pshf _ => true
  | .popf _ => true
  | .inx _ => true
  | .dex _ => true
  | .iny _ => true
  | .dey _ => true
  | .clc _ => true
  | .stc _ => true
  | .negd _ => true
  | .eventEntry _ => true
  | .checkpoint _ => true
  | .checkpointWriteDone _ => true
  | .lockstepMismatch _ => true
  | .rollbackComplete _ _ => true
  | .takeoverComplete _ _ => true
  | .mismatchWindowEnd _ => true
  | .spareDesignate _ _ => true
  | .timerExpiry _ _ => true
  | .cycRead _ _ => true
  | .wdgKick _ _ _ => true
  | .watchdogWarning _ => true
  | .watchdogExpiry _ => true
  | .stagingWrite _ ch _ _ => chanOk ch
  | .commit _ ch _ => chanOk ch
  | .periodBoundary ch => chanOk ch
  | .profileLoad _ _ v => fieldIs v 0 1 1
  | .profileSwap _ => true
  | .retryPauseEnd ch => chanOk ch
  | .forgiveExpiry ch => chanOk ch
  | .recurAgeing ch => chanOk ch
  | .retirementRecordWrite _ => true
  | .retClear _ _ _ => true
  | .partnerTakeover ch => chanOk ch
  | .shortComparatorTrip ch _ _ => chanOk ch
  | .limitTrip ch _ _ _ => chanOk ch
  | .inrushWindowEnd ch _ => chanOk ch
  | .thermalLatchSet u _ _ => thermOk u
  | .thermalLatchClear u _ _ => thermOk u
  | .wireModelUpdate ch _ => chanOk ch && decide (ch.isl = .sw)
  | .channelStart ch => chanOk ch
  | .governorEvaluation p => decide (p.tcase.length = 8)
  | .sectionCurrentUpdate _ _ => true
  | .currentMeasurement ch _ => chanOk ch
  | .offStateCheck ch _ _ => chanOk ch
  | .shortBatConfirm ch _ _ => chanOk ch
  | .openConfirm ch => chanOk ch
  | .hbRegulationPeriod ch _ => chanOk ch && decide (ch.isl = .sw) && decide (64 ≤ ch.idx)
  | .stallDetect ch _ _ => chanOk ch && decide (ch.isl = .sw) && decide (64 ≤ ch.idx)
  | .peakStart _ _ => true
  | .peakEnd _ _ _ _ => true
  | .pulseEnd _ _ => true
  | .turnOffEnd _ _ => true
  | .peakAbandon _ => true
  | .boostUnder _ => true
  | .boostFault _ => true
  | .vlShortGndTrip _ _ _ => true
  | .railShortTrip _ _ _ => true
  | .railRetry _ => true
  | .bankOffCheck _ _ => true
  | .bankClr _ _ => true
  | .luxGcWrite _ _ => true
  | .frameStart => true
  | .rowSlot _ _ _ => true
  | .frameSwap _ => true
  | .frameLoad _ => true
  | .frameLoadComplete => true
  | .frameBufferWrite _ _ _ => true
  | .lxsyncEdge _ => true
  | .lxsyncMiss => true
  | .calibrationLoad _ v => fieldIs v 0 1 1
  | .calibrationSwap => true
  | .lampEvaluationTick _ => true
  | .lampEvaluationDone _ => true
  | .lsShortTrip _ _ _ => true
  | .inputFilterTick b n _ _ => inputOk b n
  | .inputConfigWrite _ b n _ => inputOk b n
  | .siConversion _ _ _ _ => true
  | .vsnsLimit _ => true
  | .cyclicSensePulse _ => true
  | .barrierPathFail _ _ => true
  | .fieldPowerLoss => true
  | .fieldPowerUp => true
  | .vfldStateChange _ _ => true
  | .vfldMissingCrossing _ => true
  | .inputLogWrite => true
  | .canFrameReceived _ rx => canRxOk rx
  | .ethFrameReceived _ _ => true
  | .receiveRecordWrite _ => true
  | .frameTransmitted _ _ => true
  | .txrWpWrite _ _ _ => true
  | .canModeWrite _ _ _ => true
  | .canBusOff _ => true
  | .canBorec _ _ _ => true
  | .linHeader _ _ _ => true
  | .linResponse _ rsp => linRspOk rsp
  | .linHdr _ _ _ => true
  | .linPub _ _ _ => true
  | .linWakeSend _ _ _ => true
  | .linWake _ _ => true
  | .canWakePattern _ _ _ => true
  | .tc10Wake _ => true
  | .sleepreq _ _ => true
  | .wur _ _ => true
  | .gwswap _ => true
  | .routeSwapApply => true
  | .gwIsoWrite _ _ => true
  | .wfsend _ => true
  | .wklPulse _ _ => true
  | .wklPulseEnd _ => true
  | .netUsRead _ => true
  | .ringEnable _ v => fieldIs v 0 1 1
  | .joinFrame _ _ => true
  | .leaveFrame _ _ => true
  | .tokenFrame _ _ => true
  | .ringCommit _ _ => true
  | .revokeFrame _ _ => true
  | .overruleFrame _ _ => true
  | .tokenForward => true
  | .tokenResend => true
  | .tokenLost => true
  | .quietWindowEnd => true
  | .trRevoke _ => true
  | .trLeave _ => true
  | .unbar _ => true
  | .generalSession _ v => fieldIs v 0 2 1
  | .addressedSession _ v => fieldIs v 0 2 2
  | .sessionAbort _ v => fieldIs v 0 2 3
  | .sessionPhaseEnd _ => true
  | .uhfFrameReceived _ _ _ => true
  | .rngArm _ _ => true
  | .rngTround _ _ => true
  | .spiDataWrite _ _ _ _ => true
  | .enrolment _ v => fieldIs v 5 1 0
  | .enrolmentComplete _ _ _ => true
  | .revocation _ v => fieldIs v 5 1 1
  | .poll => true
  | .pollWindowEnd => true
  | .spreadPoll => true
  | .pollStop => true
  | .immoRelease _ v => fieldIs v 0 2 1
  | .immoLock _ v => fieldIs v 0 2 2
  | .immoSet _ v => fieldIs v 0 2 3
  | .ksLoad _ v => fieldIs v 0 3 1
  | .ksLoadotp _ v => fieldIs v 0 3 2
  | .ksGen _ v => fieldIs v 0 3 3
  | .ksImport _ v => fieldIs v 0 3 4
  | .ksErase _ v => fieldIs v 0 3 5
  | .keyStoreComplete => true
  | .jobStagingWrite _ _ _ _ => true
  | .jobGo _ _ _ => true
  | .jobStart => true
  | .jobComplete => true
  | .trnRead _ => true
  | .randomHealthFail _ => true
  | .erasingAlarm _ => true
  | .alarmEnd _ => true
  | .sourceActivation _ => true
  | .sourceRelease _ => true
  | .wireFault _ rails => decide (rails.length = 3)
  | .wireFaultEnd _ rails => decide (rails.length = 3)
  | .sourceCheckResume _ => true
  | .escalation _ => true
  | .escalationWindowEnd _ => true
  | .safeEnd _ v => fieldIs v 0 1 1
  | .firstClr _ v => fieldIs v 1 1 1
  | .samplerLogWrite => true
  | .portTrained _ _ => true
  | .portTrainTimeout _ => true
  | .linkResend _ => true
  | .portDown _ => true
  | .stitchArrival _ _ st => stitchOk st
  | .readStitch _ st => stitchOk st && decide (st.type = 1)
  | .writeStitch _ st => stitchOk st && decide (st.type = 2)
  | .rdata st => stitchOk st && decide (st.type = 3)
  | .wack st => stitchOk st && decide (st.type = 4)
  | .chcmd _ st => stitchOk st && decide (st.type = 5)
  | .chack st => stitchOk st && decide (st.type = 6)
  | .mail _ st => stitchOk st && decide (st.type = 7)
  | .mack st => stitchOk st && decide (st.type = 8)
  | .resetStitch _ st => stitchOk st && decide (st.type = 9)
  | .errorStitch st => stitchOk st && decide (st.type = 0xA)
  | .hello _ st => discOk st 1
  | .linksDisc _ st => discOk st 2
  | .negreq _ st => discOk st 3
  | .neggrant _ st => discOk st 4
  | .negreqTimer => true
  | .negAllocate => true
  | .negFail => true
  | .discoveryDone => true
  | .remoteTimeout _ => true
  | .ccGo _ _ => true
  | .mbxTxgo _ _ => true
  | .lnkRrst _ _ => true
  | .portRestart _ _ v => fieldIs v 0 1 1
  | .portDownReport _ => true
  | .flashProgram _ v => fieldIs v 0 3 1
  | .flashErase _ v => fieldIs v 0 3 2
  | .flashEraseBank _ v => fieldIs v 0 3 3
  | .flashEraseGen _ v => fieldIs v 0 3 4
  | .flashComplete _ => true
  | .openPart _ v => fieldIs v 0 4 1
  | .closePart _ v => fieldIs v 0 4 2
  | .dropPart _ v => fieldIs v 0 4 3
  | .preparePart _ v => fieldIs v 0 4 4
  | .prepareComplete _ => true
  | .startActivation _ v => fieldIs v 0 4 5
  | .healthyCmd _ v => fieldIs v 0 4 6
  | .updPrepare _ => true
  | .updVote _ => true
  | .updCommit _ => true
  | .updAbort _ => true
  | .updHealthy _ => true
  | .updConfirm _ => true
  | .updRevert _ => true
  | .updAck _ => true
  | .updFailed _ => true
  | .updQuery _ => true
  | .updState _ => true
  | .updResend => true
  | .voteTimeout => true
  | .healthDeadline => true
  | .preparedTimeout => true
  | .windowExpiry => true
  | .orphanQuery => true
  | .resetNRise => true
  | .canBusOffRecovery _ => true
  | .ethLinkChange _ _ => true
  | .tc10SleepAck _ => true
  | .stitchCrcDiscard _ => true
  | .boostUnderClear _ => true
  | .antennaShortTrip _ _ => true
  | .linNoResponse _ => true

end Sys2Proof
end

