-- ==== Sys2Proof/Safety.lean ====
section
/-! DEFINITION. What the claims about the whole block are stated in: what every command keeps, the invariant that every
step keeps, when a write or a read reaches its island, when an instruction of a core executes, and the shapes of
instruction effects. -/

namespace Sys2Proof.Machine

/-- What a command, an event or an operation inside one keeps from `s` to `t`: the queue and the time; that memory and
the registers are in their canonical form; that a fuse word once programmed stays counted as programmed (R117). -/
structure Keeps (s t : State) : Prop where
  queue : t.pending = s.pending
  time : t.now = s.now
  mem : Memory.wf s.mem = true → Memory.wf t.mem = true
  regs : Sparse.wf regReset s.regs = true → Sparse.wf regReset t.regs = true
  otp : ∀ a ∈ s.otpDone, a ∈ t.otpDone

/-- An outcome is a next state that keeps what a command keeps. -/
def Runs (s : State) (o : Out) : Prop := ∃ t, o = .next t ∧ Keeps s t

/-- The invariant: what waits is well formed, memory and registers are in their canonical form. -/
structure Inv (s : State) : Prop where
  queue : ∀ c ∈ s.pending, wellFormed c = true
  mem : Memory.wf s.mem = true
  regs : Sparse.wf regReset s.regs = true

/-- An access by `r` reaches island `i` in state `t`: its gate is open, and still is once what the requester sent before
has arrived, none of which waits in the gate any more (R24, R25, R27, R30). -/
structure Arrives (r : Requester) (i : Island) (s t : State) : Prop where
  runs : s.gateOpen (s.reqIsland r) i = true
  before : arriveAfter r i s = t
  still : t.gateOpen (t.reqIsland r) i = true
  first : nothingAhead r i t = true

/-- An instruction of `len` words executes at this boundary: the core is ready for one, its words are fetched, its
encoding is defined. -/
structure Issues (c : CoreId) (len : Nat) (legal : Bool) (s : State) : Prop where
  ready : coreReady s c = true
  first : fetchOk c 0 1 s = .ok ()
  defined : legal = true
  rest : fetchOk c 1 (len - 1) s = .ok ()

/-- The state an instruction's effect starts from: its words fetched, PC past them (R150, R167). -/
def issued (c : CoreId) (len : Nat) (s : State) : State :=
  (fetched c len s).modCore c fun k => { k with inhibit := false, r := { k.r with pc := k.r.pc + w16 len } }

/-- No write of another requester waits for a checkpoint of the core's pair (R151). -/
def NoneHeld (c : CoreId) (s : State) : Prop := s.paired c = true → (s.core c).held = []

/-- A class S instruction reads its operand value `v` and changes the core's registers by `f v`, nothing else. -/
def SourceEffect (mk : CoreId → Opnd → Instr) (f : Word → Regs → Regs) : Prop :=
  ∀ (c : CoreId) (o : Opnd) (s s1 : State) (v : Word), Issues c (o.len .src) (o.legal .src) s →
    source c o (issued c (o.len .src) s) = .ok v s1 → exec (mk c o) s = .next (retired c (s1.modR c (f v)))

/-- A store writes the word `f` gives at the address its operand names, when the checks of a write allow it. -/
def StoreEffect (mk : CoreId → Opnd → Instr) (f : Regs → Word) : Prop :=
  ∀ (c : CoreId) (o : Opnd) (s s1 : State) (fr : Nat) (off : Word) (a : Nat), Issues c (o.len .dst) (o.legal .dst) s →
    effective c o (issued c (o.len .dst) s) = .ok (fr, off) s1 → address s1 c fr off { w := true } = .ok a →
    exec (mk c o) s = .next (retired c (storeAt c a (f ((issued c (o.len .dst) s).r c)) s1))

/-- A read-modify-write reads its operand word `m`, writes `(f r m).1` there and leaves the registers `(f r m).2`. -/
def ModifyEffect (mk : CoreId → Opnd → Instr) (f : Regs → Word → Word × Regs) : Prop :=
  ∀ (c : CoreId) (o : Opnd) (s s1 s2 : State) (fr : Nat) (off : Word) (a b : Nat) (m : Word),
    Issues c (o.len .dst) (o.legal .dst) s →
    effective c o (issued c (o.len .dst) s) = .ok (fr, off) s1 → address s1 c fr off { r := true } = .ok b →
    address s1 c fr off { w := true } = .ok a → load c fr off false s1 = .ok m s2 →
    exec (mk c o) s = .next (retired c ((storeAt c a (f (s2.r c) m).1 s2).modR c fun _ => (f (s2.r c) m).2))

/-- An instruction of one word changes the core's registers by `f`, nothing else. -/
def ImplicitEffect (mk : CoreId → Instr) (f : Regs → Regs) : Prop :=
  ∀ (c : CoreId) (s : State), Issues c 1 true s → exec (mk c) s = .next (retired c ((issued c 1 s).modR c f))

/-- A push stores the word `f` gives at FS:SP − 1 and moves SP there (R133). -/
def PushEffect (mk : CoreId → Instr) (f : Regs → Word) : Prop :=
  ∀ (c : CoreId) (s : State) (a : Nat), Issues c 1 true s →
    address (issued c 1 s) c 3 ((s.r c).sp - 1) { w := true } = .ok a →
    exec (mk c) s = .next (retired c ((storeAt c a (f ((issued c 1 s).r c)) (issued c 1 s)).modR c fun r =>
      { r with sp := (s.r c).sp - 1 }))

/-- A pop loads the word at FS:SP, moves SP past it and changes the registers by `f` (R133). -/
def PopEffect (mk : CoreId → Instr) (f : Word → Regs → Regs) : Prop :=
  ∀ (c : CoreId) (s s1 : State) (v : Word), Issues c 1 true s →
    load c 3 (s.r c).sp false (issued c 1 s) = .ok v s1 →
    exec (mk c) s = .next (retired c ((s1.modR c fun r => { r with sp := (s.r c).sp + 1 }).modR c (f v)))

end Sys2Proof.Machine
end

