-- ==== Sys2Proof/Certificates/Slice0/Obligations.lean ====
section
/-! DEFINITION. The statements about the machine, for the provers. Each is listed in OBLIGATIONS.json with the rules of spec/ it
rests on. -/

open Sys2Proof Sys2Proof.Machine

/-- The state after reset meets the invariant. -/
def Obligations.ResetMeetsInvariant : Prop :=
  Inv State.reset

/-- From every state that meets the invariant a step is a next state that meets it again. -/
def Obligations.EveryStepKeepsInvariant : Prop :=
  ∀ s : State, Inv s →
    ∃ t, step s = .next t ∧ Inv t ∧ t.pending = s.pending.tail ∧ ∀ a ∈ s.otpDone, a ∈ t.otpDone

/-- A step runs the command at the front of the queue on the rest of the queue. -/
def Obligations.StepRunsFrontCommand : Prop :=
  ∀ (c : Instr) (rest : List Instr) (s : State),
    step { s with pending := c :: rest } = exec c { s with pending := rest }

/-- On an empty queue a step lets one microsecond pass. -/
def Obligations.IdleStepIsOneMicrosecond : Prop :=
  ∀ s : State, s.pending = [] → Memory.wf s.mem = true → Sparse.wf regReset s.regs = true →
    ∃ t, step s = .next t ∧ t.now = s.now + 1 ∧ t.pending = [] ∧ Memory.wf t.mem = true ∧
      Sparse.wf regReset t.regs = true ∧ ∀ a ∈ s.otpDone, a ∈ t.otpDone

/-- Every command that is well formed completes: in every state exec answers a next state, which keeps the queue, the time,
the canonical form of memory and registers and every programmed fuse. A command stops only where an operand names a unit
the part does not have. -/
def Obligations.OnlyMissingUnitsStop : Prop :=
  ∀ (s : State) (r : Requester) (v : Word) (w : Fin 15) (ch : ChanRef) (sd : Side) (x y : Therm) (i us term : Nat) (mean : Int)
    (p : Option Nat) (m : Measure) (k : Fin 48) (a : Nat),
    (∀ c, wellFormed c = true → ∃ t, exec c s = .next t ∧ t.pending = s.pending ∧ t.now = s.now ∧
      (Memory.wf s.mem = true → Memory.wf t.mem = true) ∧
      (Sparse.wf regReset s.regs = true → Sparse.wf regReset t.regs = true) ∧ ∀ f ∈ s.otpDone, f ∈ t.otpDone) ∧
    (∀ c, exec c s = .fault .noSuchUnit ∨ ∃ t, exec c s = .next t) ∧
    (ch.ok = false →
      exec (.stagingWrite r ch w v) s = .fault .noSuchUnit ∧ exec (.commit r ch v) s = .fault .noSuchUnit ∧
      exec (.periodBoundary ch) s = .fault .noSuchUnit ∧ exec (.partnerTakeover ch) s = .fault .noSuchUnit ∧
      exec (.retryPauseEnd ch) s = .fault .noSuchUnit ∧ exec (.forgiveExpiry ch) s = .fault .noSuchUnit ∧
      exec (.recurAgeing ch) s = .fault .noSuchUnit ∧ exec (.shortComparatorTrip ch sd i) s = .fault .noSuchUnit ∧
      exec (.limitTrip ch i us term) s = .fault .noSuchUnit ∧ exec (.inrushWindowEnd ch term) s = .fault .noSuchUnit ∧
      exec (.thermalLatchSet (.chan ch) x y) s = .fault .noSuchUnit ∧
      exec (.thermalLatchClear (.chan ch) x y) s = .fault .noSuchUnit ∧
      exec (.channelStart ch) s = .fault .noSuchUnit ∧ exec (.currentMeasurement ch m) s = .fault .noSuchUnit ∧
      exec (.offStateCheck ch i p) s = .fault .noSuchUnit ∧ exec (.shortBatConfirm ch i p) s = .fault .noSuchUnit ∧
      exec (.openConfirm ch) s = .fault .noSuchUnit) ∧
    (ch.ok = false ∨ ch.isl ≠ .sw → exec (.wireModelUpdate ch i) s = .fault .noSuchUnit) ∧
    (ch.ok = false ∨ ch.isl ≠ .sw ∨ ch.idx < 64 →
      exec (.hbRegulationPeriod ch mean) s = .fault .noSuchUnit ∧ exec (.stallDetect ch i us) s = .fault .noSuchUnit) ∧
    (32 ≤ k.val → exec (.inputConfigWrite r .fi k v) s = .fault .noSuchUnit) ∧
    (a < 0xA00000 ∨ 0xAA0000 ≤ a → exec (.registerWrite r a v) s = .fault .noSuchUnit)

/-- A memory word reads as it was last written, every other word as before. -/
def Obligations.MemoryReadsBack : Prop :=
  ∀ (s : State) (a : Nat) (v : Word),
    (s.setMem a v).memWord a = v ∧ (∀ b, b ≠ a → (s.setMem a v).memWord b = s.memWord b) ∧
      (Memory.wf s.mem = true → Memory.wf (s.setMem a v).mem = true)

/-- A plain register write stores RW and RWL bits, clears W1C bits written 1 and leaves all others. -/
def Obligations.AccessCodesGovernWrites : Prop :=
  ∀ (s : State) (a k : Nat) (v : Word) (row : RegRow), regRow a = some row → k < 16 →
    (s.plainWrite a v).regBit a k =
      (if bit row.w1c k && bit v k then false
       else if bit row.rw k && !(match row.sealAt with | some (x, y) => s.regBit x y | none => false) then bit v k
       else s.regBit a k) ∧
    (∀ b, b ≠ a → (s.plainWrite a v).reg b = s.reg b) ∧ { s.plainWrite a v with regs := s.regs } = s ∧
    ∀ (r : Requester) (t : State),
      (Arrives r .aon s t → exec (.registerWrite r 0xA70103 v) s = .next (t.plainWrite 0xA70103 v)) ∧
      (Arrives r .lnk s t → exec (.registerWrite r 0xA60007 v) s = .next (t.plainWrite 0xA60007 v)) ∧
      (Arrives r .sec s t → exec (.registerWrite r 0xA41003 v) s = .next (t.plainWrite 0xA41003 v)) ∧
      (Arrives r .sup s t → exec (.registerWrite r 0xA81007 v) s = .next (t.plainWrite 0xA81007 v))

/-- The class S instructions write their register and the flags of Table 6.5. -/
def Obligations.RegisterResultInstructions : Prop :=
  SourceEffect .ld (fun v r => { r with acc := v, fl := flZN r.fl v }) ∧
  SourceEffect .lde (fun v r => { r with ace := v, fl := flZN r.fl v }) ∧
  SourceEffect .ldx (fun v r => { r with ix := v, fl := flZN r.fl v }) ∧
  SourceEffect .ldy (fun v r => { r with iy := v, fl := flZN r.fl v }) ∧
  SourceEffect .cmp (fun v r => { r with fl := withFlags r.fl (subFlags r.acc v false).2 }) ∧
  SourceEffect .cpx (fun v r => { r with fl := withFlags r.fl (subFlags r.ix v false).2 }) ∧
  SourceEffect .cpy (fun v r => { r with fl := withFlags r.fl (subFlags r.iy v false).2 }) ∧
  SourceEffect .bit (fun v r => { r with fl := flZN r.fl (r.acc &&& v) }) ∧
  SourceEffect .ads (fun v r => { r with sp := r.sp + v }) ∧
  SourceEffect .add (fun v r => { r with acc := (addFlags r.acc v false).1, fl := withFlags r.fl (addFlags r.acc v false).2 }) ∧
  SourceEffect .adc (fun v r =>
    { r with acc := (addFlags r.acc v (bit r.fl 2)).1, fl := withFlags r.fl (addFlags r.acc v (bit r.fl 2)).2 }) ∧
  SourceEffect .sub (fun v r => { r with acc := (subFlags r.acc v false).1, fl := withFlags r.fl (subFlags r.acc v false).2 }) ∧
  SourceEffect .sbc (fun v r =>
    { r with acc := (subFlags r.acc v (bit r.fl 2)).1, fl := withFlags r.fl (subFlags r.acc v (bit r.fl 2)).2 }) ∧
  SourceEffect .andOp (fun v r => { r with acc := r.acc &&& v, fl := flZN r.fl (r.acc &&& v) }) ∧
  SourceEffect .orOp (fun v r => { r with acc := r.acc ||| v, fl := flZN r.fl (r.acc ||| v) }) ∧
  SourceEffect .xorOp (fun v r => { r with acc := r.acc ^^^ v, fl := flZN r.fl (r.acc ^^^ v) }) ∧
  SourceEffect .mul (fun v r =>
    let p := BitVec.ofNat 32 (r.acc.toNat * v.toNat)
    { r with ace := p.extractLsb' 16 16, acc := p.extractLsb' 0 16,
             fl := withFlags r.fl ⟨decide (p = 0), p.msb, decide (p.extractLsb' 16 16 ≠ 0), false⟩ }) ∧
  SourceEffect .muls (fun v r =>
    let p := BitVec.ofInt 32 (r.acc.toInt * v.toInt)
    let big := decide ((p.extractLsb' 0 16).signExtend 32 ≠ p)
    { r with ace := p.extractLsb' 16 16, acc := p.extractLsb' 0 16,
             fl := withFlags r.fl ⟨decide (p = 0), p.msb, big, big⟩ }) ∧
  SourceEffect .adx (fun v r => { r with
    ix := r.ix + v, fl := withFlags r.fl { (addFlags r.ix v false).2 with v := bit r.fl 3 } }) ∧
  SourceEffect .ady (fun v r => { r with
    iy := r.iy + v, fl := withFlags r.fl { (addFlags r.iy v false).2 with v := bit r.fl 3 } })

/-- What a sum and a difference give: the wrapped result, Z, N, the carry or borrow, the signed overflow. -/
def Obligations.FlagsOfSumsAndDifferences : Prop :=
  ∀ (a b fl : Word) (cin : Bool),
    (addFlags a b cin).1.toNat = (a.toNat + b.toNat + (if cin then 1 else 0)) % 65536 ∧
    (addFlags a b cin).2 = ⟨decide ((addFlags a b cin).1 = 0), (addFlags a b cin).1.msb,
      decide (65535 < a.toNat + b.toNat + (if cin then 1 else 0)), a.msb == b.msb && a.msb != (addFlags a b cin).1.msb⟩ ∧
    (subFlags a b cin).1.toNat = (a.toNat + 65536 - b.toNat + 65536 - (if cin then 1 else 0)) % 65536 ∧
    (subFlags a b cin).2 = ⟨decide ((subFlags a b cin).1 = 0), (subFlags a b cin).1.msb,
      decide (a.toNat < b.toNat + (if cin then 1 else 0)), a.msb != b.msb && a.msb != (subFlags a b cin).1.msb⟩ ∧
    ∀ (f : Flags) (n : Nat), bit (withFlags fl f) n =
      (match n with | 0 => f.z | 1 => f.n | 2 => f.c | 3 => f.v | _ => bit fl n) ∧
      (n < 5 → bit (flWrite fl a cin) n = bit a n) ∧ (8 ≤ n → bit (flWrite fl a cin) n = false) ∧
      bit (flWrite fl a cin) 5 = cin ∧ fld (flWrite fl a cin) 6 2 = Nat.min (fld a 6 2) (fld fl 6 2)

/-- The eight shift and rotate instructions take the count from v[4:0] and set Z, N and, for a count of 1 or more, C. -/
def Obligations.ShiftsMoveByTheCount : Prop :=
  (∀ p ∈ [((fun c o => .shl c o : CoreId → Opnd → Instr), (shl : Word → Nat → Shifted 16)), (.shr, shr), (.asr, asr),
        (.rol, rol), (.ror, ror)],
      SourceEffect p.1 fun v r =>
        let n := v.toNat % 32
        let x := p.2 r.acc n
        { r with acc := x.r, fl := withFlags r.fl ⟨decide (x.r = 0), x.r.msb, if n = 0 then bit r.fl 2 else x.c, bit r.fl 3⟩ }) ∧
  ∀ p ∈ [((fun c o => .shld c o : CoreId → Opnd → Instr), (shl : BitVec 32 → Nat → Shifted 32)), (.shrd, shr), (.asrd, asr)],
      SourceEffect p.1 fun v r =>
        let n := v.toNat % 32
        let x := p.2 (r.ace ++ r.acc) n
        { r with ace := x.r.extractLsb' 16 16, acc := x.r.extractLsb' 0 16,
                 fl := withFlags r.fl ⟨decide (x.r = 0), x.r.msb, if n = 0 then bit r.fl 2 else x.c, bit r.fl 3⟩ }

/-- Shift results and carries bit by bit. -/
def Obligations.ShiftResultsAreTable67 : Prop :=
  ∀ (w : Nat) (a : BitVec w) (b : Word) (n k : Nat), w = 16 ∨ w = 32 → 1 ≤ n → n < 32 →
    (k < w → (shl a n).r.getLsbD k = (decide (n ≤ k) && a.getLsbD (k - n)) ∧ (shr a n).r.getLsbD k = a.getLsbD (k + n) ∧
      (asr a n).r.getLsbD k = (if k + n < w then a.getLsbD (k + n) else a.msb)) ∧
    (shl a n).c = (decide (n ≤ w) && a.getLsbD (w - n)) ∧ (shr a n).c = a.getLsbD (n - 1) ∧
    (asr a n).c = (if n < w then a.getLsbD (n - 1) else a.msb) ∧
    (k < 16 → (rol b n).r.getLsbD ((k + n) % 16) = b.getLsbD k ∧ (ror b n).r.getLsbD k = b.getLsbD ((k + n) % 16)) ∧
    (rol b n).c = (rol b n).r.getLsbD 0 ∧ (ror b n).c = (ror b n).r.getLsbD 15

/-- DIV and DIVS leave quotient and remainder, or take the divide exception and change nothing else. -/
def Obligations.DivisionsGiveQuotientOrTrap : Prop :=
  ∀ (c : CoreId) (o : Opnd) (s s1 : State) (v : Word), Issues c (o.len .src) (o.legal .src) s →
    source c o (issued c (o.len .src) s) = .ok v s1 →
    let n := (s1.r c).ace ++ (s1.r c).acc
    let trap : State := takeExc c .divide (s.modCore c fun k => { k with inhibit := false })
    let done (q m : Word) : State := retired c (s1.modR c fun r =>
      { r with acc := q, ace := m, fl := withFlags r.fl ⟨decide (q = 0), q.msb, false, false⟩ })
    (v ≠ 0 ∧ n.toNat / v.toNat < 65536 →
      exec (.div c o) s = .next (done (BitVec.ofNat 16 (n.toNat / v.toNat)) (BitVec.ofNat 16 (n.toNat % v.toNat)))) ∧
    (v = 0 ∨ 65536 ≤ n.toNat / v.toNat → exec (.div c o) s = .next trap) ∧
    (v ≠ 0 ∧ -32768 ≤ n.toInt.tdiv v.toInt ∧ n.toInt.tdiv v.toInt ≤ 32767 →
      exec (.divs c o) s = .next (done (BitVec.ofInt 16 (n.toInt.tdiv v.toInt)) (BitVec.ofInt 16 (n.toInt.tmod v.toInt)))) ∧
    (v = 0 ∨ n.toInt.tdiv v.toInt < -32768 ∨ 32767 < n.toInt.tdiv v.toInt → exec (.divs c o) s = .next trap)

/-- ST, STE, STX, STY store at their operand; XCH, INC, DEC, ADM, ORM, BCM read, change and write it back. -/
def Obligations.StoresAndModificationsWriteTheirOperand : Prop :=
  StoreEffect .st (·.acc) ∧ StoreEffect .ste (·.ace) ∧ StoreEffect .stx (·.ix) ∧ StoreEffect .sty (·.iy) ∧
  ModifyEffect .xch (fun r m => (r.acc, { r with acc := m, fl := flZN r.fl m })) ∧
  ModifyEffect .inc (fun r m =>
    (m + 1, { r with fl := withFlags r.fl { (addFlags m 1 false).2 with c := bit r.fl 2 } })) ∧
  ModifyEffect .dec (fun r m =>
    (m - 1, { r with fl := withFlags r.fl { (subFlags m 1 false).2 with c := bit r.fl 2 } })) ∧
  ModifyEffect .adm (fun r m => (m + r.acc, { r with fl := withFlags r.fl (addFlags m r.acc false).2 })) ∧
  ModifyEffect .orm (fun r m => (m ||| r.acc, { r with fl := flZN r.fl (m ||| r.acc) })) ∧
  ModifyEffect .bcm (fun r m => (m &&& ~~~r.acc, { r with fl := flZN r.fl (m &&& ~~~r.acc) }))

/-- EXB extracts and INB inserts one byte of the operand word. -/
def Obligations.ByteInstructionsSelectOneByte : Prop :=
  ∀ (c : CoreId) (o : Opnd) (s s1 s2 : State) (fr : Nat) (off m : Word) (h : Bool),
    Issues c (o.len .byt) (o.legal .byt) s → byteOperand c o (issued c (o.len .byt) s) = .ok (fr, off, h) s1 →
    load c fr off false s1 = .ok m s2 →
    exec (.exb c o) s = .next (retired c (s2.modR c fun r =>
      let v := BitVec.ofNat 16 (if h then m.toNat / 256 else m.toNat % 256)
      { r with acc := v, fl := flZN r.fl v })) ∧
    ∀ a b, address s1 c fr off { r := true } = .ok b → address s1 c fr off { w := true } = .ok a →
      exec (.inb c o) s = .next (retired c ((storeAt c a (if h then wordOf (loByte m) (loByte (s2.r c).acc)
        else wordOf (loByte (s2.r c).acc) (hiByte m)) s2).modR c fun _ => s2.r c))

/-- The one-word register instructions of Table 6.6 change the registers the table names. -/
def Obligations.RegisterMovesAndImplicitFunctions : Prop :=
  ImplicitEffect .nop id ∧
  ImplicitEffect .ei (fun r => { r with fl := putBit r.fl 4 true }) ∧
  ImplicitEffect .di (fun r => { r with fl := putBit r.fl 4 false }) ∧
  ImplicitEffect .swb (fun r => let v := wordOf (hiByte r.acc) (loByte r.acc); { r with acc := v, fl := flZN r.fl v }) ∧
  ImplicitEffect .sxb (fun r => let v := (loByte r.acc).signExtend 16; { r with acc := v, fl := flZN r.fl v }) ∧
  ImplicitEffect .neg (fun r => { r with acc := 0 - r.acc, fl := withFlags r.fl (subFlags 0 r.acc false).2 }) ∧
  ImplicitEffect .notOp (fun r => { r with acc := ~~~r.acc, fl := flZN r.fl (~~~r.acc) }) ∧
  ImplicitEffect .xae (fun r => { r with acc := r.ace, ace := r.acc }) ∧
  ImplicitEffect .mvax (fun r => { r with ix := r.acc }) ∧
  ImplicitEffect .mvxa (fun r => { r with acc := r.ix, fl := flZN r.fl r.ix }) ∧
  ImplicitEffect .mvay (fun r => { r with iy := r.acc }) ∧
  ImplicitEffect .mvya (fun r => { r with acc := r.iy, fl := flZN r.fl r.iy }) ∧
  ImplicitEffect .mvae (fun r => { r with ace := r.acc }) ∧
  ImplicitEffect .mvea (fun r => { r with acc := r.ace, fl := flZN r.fl r.ace }) ∧
  ImplicitEffect .mvas (fun r => { r with sp := r.acc }) ∧
  ImplicitEffect .mvsa (fun r => { r with acc := r.sp, fl := flZN r.fl r.sp }) ∧
  ImplicitEffect .mvaf (fun r => { r with fl := flWrite r.fl r.acc (bit r.fl 5) }) ∧
  ImplicitEffect .mvfa (fun r => { r with acc := r.fl }) ∧
  ImplicitEffect .rfcd (fun r => { r with acc := wordOf r.fc r.fd }) ∧
  ImplicitEffect .rfes (fun r => { r with acc := wordOf r.fe r.fs }) ∧
  ImplicitEffect .inx (fun r => { r with ix := r.ix + 1, fl := flZN r.fl (r.ix + 1) }) ∧
  ImplicitEffect .dex (fun r => { r with ix := r.ix - 1, fl := flZN r.fl (r.ix - 1) }) ∧
  ImplicitEffect .iny (fun r => { r with iy := r.iy + 1, fl := flZN r.fl (r.iy + 1) }) ∧
  ImplicitEffect .dey (fun r => { r with iy := r.iy - 1, fl := flZN r.fl (r.iy - 1) }) ∧
  ImplicitEffect .clc (fun r => { r with fl := putBit r.fl 2 false }) ∧
  ImplicitEffect .stc (fun r => { r with fl := putBit r.fl 2 true }) ∧
  ImplicitEffect .negd (fun r =>
    let x : BitVec 32 := r.ace ++ r.acc
    { r with ace := (0 - x).extractLsb' 16 16, acc := (0 - x).extractLsb' 0 16,
             fl := withFlags r.fl ⟨decide (0 - x = 0), (0 - x).msb, decide (x ≠ 0), decide (x = 0x80000000#32)⟩ })

/-- The pushes store below SP and move it there, the pops load at SP and move it past. -/
def Obligations.StackInstructionsPushAndPop : Prop :=
  PushEffect .psha (·.acc) ∧ PushEffect .pshe (·.ace) ∧ PushEffect .pshx (·.ix) ∧ PushEffect .pshy (·.iy) ∧
  PushEffect .pshf (·.fl) ∧
  PopEffect .popa (fun v r => { r with acc := v }) ∧ PopEffect .pope (fun v r => { r with ace := v }) ∧
  PopEffect .popx (fun v r => { r with ix := v }) ∧ PopEffect .popy (fun v r => { r with iy := v }) ∧
  PopEffect .popf (fun v r => { r with fl := flWrite r.fl v (bit r.fl 5) }) ∧
  (∀ (c : CoreId) (o : Opnd) (s s1 : State) (v : Word) (a : Nat), Issues c (o.len .src) (o.legal .src) s →
    source c o (issued c (o.len .src) s) = .ok v s1 → address s1 c 3 ((s1.r c).sp - 1) { w := true } = .ok a →
    exec (.push c o) s = .next (retired c ((storeAt c a v s1).modR c fun r => { r with sp := (s1.r c).sp - 1 }))) ∧
  ∀ (c : CoreId) (o : Opnd) (s s1 s2 : State) (v : Word) (fr : Nat) (off : Word) (a : Nat),
    Issues c (o.len .dst) (o.legal .dst) s →
    effective c o ((issued c (o.len .dst) s).modR c fun r => { r with sp := (s.r c).sp + 1 }) = .ok (fr, off) s1 →
    load c 3 (s.r c).sp false s1 = .ok v s2 →
    address s2 c fr off { w := true } = .ok a → exec (.pop c o) s = .next (retired c (storeAt c a v s2))

/-- A branch whose condition of Table 6.4 holds goes to the word after it plus the displacement. -/
def Obligations.BranchesTestTable64 : Prop :=
  ∀ (c : CoreId) (k : Cond) (d : BitVec 7) (s : State), Issues c 1 true s →
    let z := bit (s.r c).fl 0
    let n := bit (s.r c).fl 1
    let cy := bit (s.r c).fl 2
    let v := bit (s.r c).fl 3
    let holds := match k with
      | .br => true | .bz => z | .bnz => !z | .bc => cy | .bnc => !cy | .bn => n | .bnn => !n | .bv => v | .bnv => !v
      | .bhi => !cy && !z | .bls => cy || z | .bge => n == v | .blt => n != v | .bgt => !z && n == v
      | .ble => z || n != v
    exec (.bcc c k d) s = .next (retired c (if holds then
      (issued c 1 s).modR c fun r => { r with pc := r.pc + d.signExtend 16 } else issued c 1 s))

/-- JMP loads PC, CALL pushes the return offset first, RET pops it. -/
def Obligations.JumpsCallsAndReturns : Prop :=
  ∀ (c : CoreId) (o : Opnd) (s s1 : State) (v : Word) (a : Nat),
    (Issues c (o.len .jump) (o.legal .jump) s → source c o (issued c (o.len .jump) s) = .ok v s1 →
      exec (.jmp c o) s = .next (retired c (s1.modR c fun r => { r with pc := v })) ∧
      (address s1 c 3 ((s1.r c).sp - 1) { w := true } = .ok a →
        exec (.call c o) s = .next (retired c ((storeAt c a (s1.r c).pc s1).modR c fun r =>
          { r with sp := (s1.r c).sp - 1, pc := v })))) ∧
    (Issues c 1 true s → load c 3 (s.r c).sp false (issued c 1 s) = .ok v s1 →
      exec (.ret c) s = .next (retired c (s1.modR c fun r => { r with sp := (s.r c).sp + 1, pc := v })))

/-- JMPF, CALLF, RETF and RTE load FC and PC; a selector that fails its checks is a frame fault. -/
def Obligations.FarTransfersLoadTheCodeFrame : Prop :=
  ∀ (c : CoreId) (o : Opnd) (s s1 s2 s3 : State) (off : Word) (sel : Nat) (vs : List Word),
    let undone : State := s.modCore c fun k => { k with inhibit := false }
    (Issues c (o.len .far) (o.legal .far) s → farPointer c o (issued c (o.len .far) s) = .ok (off, sel) s1 →
      (selectorCode s1 c 0 sel = none →
        exec (.jmpf c o) s = .next (retired c ((dropReservation c s1).modR c fun r => { r with fc := byte sel, pc := off }))) ∧
      (selectorCode s1 c 0 sel = none → pushWords c [(s1.r c).fc.setWidth 16, (s1.r c).pc] s1 = .ok () s2 →
        selectorCode s2 c 0 sel = none → exec (.callf c o) s =
          .next (retired c ((dropReservation c s2).modR c fun r => { r with fc := byte sel, pc := off }))) ∧
      (∀ k, selectorCode s1 c 0 sel = some k →
        exec (.jmpf c o) s = .next (takeExc c (.frame k 0 sel 0) undone) ∧
        exec (.callf c o) s = .next (takeExc c (.frame k 0 sel 0) undone))) ∧
    (Issues c 1 true s → popWords c 2 (issued c 1 s) = .ok vs s3 → selectorCode s3 c 0 (fld (vs.getD 1 0) 0 8) = none →
      exec (.retf c) s = .next (retired c ((dropReservation c s3).modR c fun r =>
        { r with fc := byte (fld (vs.getD 1 0) 0 8), pc := vs.getD 0 0 }))) ∧
    (Issues c 1 true s → popWords c 3 (issued c 1 s) = .ok vs s3 → selectorCode s3 c 0 (fld (vs.getD 1 0) 0 8) = none →
      exec (.rte c) s = .next (retired c ((dropReservation c s3).modCore c fun k => { k with
        exc := false, r := { k.r with fc := byte (fld (vs.getD 1 0) 0 8), pc := vs.getD 0 0,
                                      fl := flWrite k.r.fl (vs.getD 2 0) false } })))

/-- LFD, LFE and LFS load their frame with v[7:0], clear L and the reservation, and LFS holds events off for one
boundary. -/
def Obligations.FrameLoadsCheckTheSelector : Prop :=
  ∀ (c : CoreId) (o : Opnd) (s s1 : State) (v : Word), Issues c (o.len .src) (o.legal .src) s →
    source c o (issued c (o.len .src) s) = .ok v s1 →
    let sel := v.toNat % 256
    let fault (k fr : Nat) : Out := .next (takeExc c (.frame k fr sel 0) (s.modCore c fun k => { k with inhibit := false }))
    (selectorCode s1 c 1 sel = none →
      exec (.lfd c o) s = .next (retired c ((dropReservation c s1).modR c fun r => { r with fd := byte sel }))) ∧
    (selectorCode s1 c 2 sel = none →
      exec (.lfe c o) s = .next (retired c ((dropReservation c s1).modR c fun r => { r with fe := byte sel }))) ∧
    (selectorCode s1 c 3 sel = none →
      exec (.lfs c o) s = .next (retired c ((dropReservation c s1).modCore c fun k =>
        { k with inhibit := true, r := { k.r with fs := byte sel } })) ∧
      ∀ t : State, (t.core c).inhibit = true → eventLine t c = none) ∧
    ∀ k, (selectorCode s1 c 1 sel = some k → exec (.lfd c o) s = fault k 1) ∧
      (selectorCode s1 c 2 sel = some k → exec (.lfe c o) s = fault k 2) ∧
      (selectorCode s1 c 3 sel = some k → exec (.lfs c o) s = fault k 3)

/-- TAS sets the word and returns the old one, LRW reserves, SCW writes only under its reservation; where another pair
cannot take the write at once, TAS and SCW wait. -/
def Obligations.AtomicsReadAndWriteAtOnce : Prop :=
  ∀ (c : CoreId) (o : Opnd) (s s1 s2 : State) (a : Nat) (m : Word), Issues c (o.len .dst) (o.legal .dst) s →
    let own := ownLocal s2 c a
    (atomicAddr c o { r := true, w := true, at_ := true } (issued c (o.len .dst) s) = .ok a s1 →
      (atomicOpen s1 c a = true → coreLoad s1 c a = .value m s2 →
        exec (.tas c o) s = .next (retired c ((coreWriteNow
          (logEntry c (.outcome m) (if own then logEntry c (.undo a m) s2 else s2)) c a 0xFFFF#16).modR c fun r =>
            { r with acc := m, fl := flZN r.fl m }))) ∧
      (atomicOpen s1 c a = false → exec (.tas c o) s = .next (waits c s1 s))) ∧
    (atomicAddr c o { r := true, at_ := true } (issued c (o.len .dst) s) = .ok a s1 → coreLoad s1 c a = .value m s2 →
      exec (.lrw c o) s = .next (retired c ((if own then s2 else logEntry c (.loaded m) s2).modCore c fun k =>
        { k with resv := some (localAddr (if own then s2 else logEntry c (.loaded m) s2) c a)
                 r := { k.r with acc := m, fl := putBit (flZN k.r.fl m) 5 true } }))) ∧
    (atomicAddr c o { w := true, at_ := true } (issued c (o.len .dst) s) = .ok a s1 →
      (atomicOpen s1 c a = true → scwAccess c a s1 = s2 →
        let ok := bit (s2.core c).r.fl 5 && decide ((s2.core c).resv = some (localAddr s2 c a))
        let s3 := logEntry c (.outcome (if ok then 1#16 else 0#16)) s2
        let s4 := if ok then coreWriteNow (if ownLocal s3 c a then logEntry c (.undo a (s3.memWord (localAddr s3 c a))) s3 else s3)
          c a (s2.core c).r.acc else s3
        exec (.scw c o) s = .next (retired c (s4.modCore c fun k =>
          { k with resv := none, r := { k.r with fl := putBit (putBit k.r.fl 0 ok) 5 false } }))) ∧
      (atomicOpen s1 c a = false → exec (.scw c o) s = .next (waits c s1 s)))

/-- WEV reads its mask, completes at once with the lowest pending line named, and waits when none is pending. -/
def Obligations.WaitForEventCompletesOrWaits : Prop :=
  ∀ (c : CoreId) (o : Opnd) (s s1 : State) (ws : List Word) (mask l : Nat),
    (Issues c (o.len .dst) (o.legal .dst) s →
      ((effective c o (fetched c (o.len .dst) s)).bind fun p t => loadWords c p.1 p.2 4 t) = .ok ws s1 →
      let s2 := s1.modCore c fun k => { forgetLoads k with inhibit := false, wait := some (maskOf ws) }
      (maskedLine s2 c (maskOf ws) = some l → exec (.wev c o) s = .next (wevComplete c l (o.len .dst) s2)) ∧
      (maskedLine s2 c (maskOf ws) = none → exec (.wev c o) s = .next s2)) ∧
    ((s.core c).wait = some mask → coreUp s c = true → maskedLine s c mask = some l → s.paired c = false →
      ∃ t, exec (.wev c o) s = .next t ∧ (t.core c).wait = none ∧ (t.r c).acc = BitVec.ofNat 16 l ∧
        (t.r c).pc = (s.r c).pc + BitVec.ofNat 16 (o.len .dst) ∧
        (s.regFld (s.block c + 10 + l / 8) (2 * (l % 8)) 2 = 0 → t.regBit (s.block c + 6 + l / 16) (l % 16) = false))

/-- SEV takes the mask of its operand; once every earlier store of the core is served or applied, line 8 + n is pending at
every core named that is neither in reset nor retired; while one is still on its way the core waits on. -/
def Obligations.SendEventRaisesLinesAfterStores : Prop :=
  ∀ (c : CoreId) (o : Opnd) (s s1 : State) (v : Word) (m : Byte),
    (Issues c (o.len .src) (o.legal .src) s → source c o (issued c (o.len .src) s) = .ok v s1 →
      exec (.sev c o) s = .next (retired c (s1.modCore c fun k => { k with sevMask := some (BitVec.ofNat 8 v.toNat) }))) ∧
    ((s.core c).sevMask = some m →
      let d := drainCore c s
      (storesDone c d = true → (d.core c).sevMask = some m →
        ∃ t, exec (.sevRaise c) s = .next t ∧ t.cores = (d.modCore c fun k => { k with sevMask := none }).cores ∧ t.mem = d.mem ∧
          ∀ n, n < 8 → m.getLsbD n = true → (d.core (d.lead n)).st ≠ .inReset → (d.physPair (d.mapPair (n / 2))).retired = false →
            t.regBit (d.block n + 6) (8 + c.val) = true) ∧
      (storesDone c d = false → exec (.sevRaise c) s = .next d))

/-- SDT and LDT below PRI 3, and SDT of a refused descriptor, raise a frame fault. -/
def Obligations.DescriptorInstructionsNeedPriority3 : Prop :=
  ∀ (c : CoreId) (o : Opnd) (s s1 s2 : State) (fr : Nat) (off : Word) (ws : List Word),
    Issues c (o.len .dst) (o.legal .dst) s →
    let e := (s.r c).acc.toNat % 256
    let undone : State := s.modCore c fun k => { k with inhibit := false }
    (fld (s.r c).fl 6 2 ≠ 3 →
      exec (.sdt c o) s = .next (takeExc c (.frame 0x10 4 e 0) undone) ∧
      exec (.ldt c o) s = .next (takeExc c (.frame 0x10 4 e 0) undone)) ∧
    (fld (s.r c).fl 6 2 = 3 → effective c o (issued c (o.len .dst) s) = .ok (fr, off) s1 →
      loadWords c fr off 4 s1 = .ok ws s2 → descRefused ws = true →
      exec (.sdt c o) s = .next (takeExc c (.frame 0x11 4 e 0) undone))

/-- SDT writes its four words into the table of every owner that is released, LDT stores an entry. -/
def Obligations.DescriptorInstructionsReadAndWriteTables : Prop :=
  ∀ (c : CoreId) (o : Opnd) (s s1 s2 : State) (fr : Nat) (off : Word) (ws : List Word) (as : List Nat),
    Issues c (o.len .dst) (o.legal .dst) s → fld (s.r c).fl 6 2 = 3 →
    effective c o (issued c (o.len .dst) s) = .ok (fr, off) s1 →
    let e := (s.r c).acc.toNat % 256
    (loadWords c fr off 4 s1 = .ok ws s2 → descRefused ws = false →
      ∃ t, exec (.sdt c o) s = .next t ∧
        (∀ n, n < 8 → bit (ws.getD 1 0) (8 + n) = true → (s2.core (s2.lead n)).st ≠ .inReset →
          (t.core (s2.lead n)).descWords e = ws) ∧
        bit (t.r c).fl 0 = (List.range 8).all fun n =>
          !bit (ws.getD 1 0) (8 + n) || decide ((s2.core (s2.lead n)).st ≠ .inReset)) ∧
    (storeWordsOk c fr off 4 s1 = .ok as s2 →
      exec (.ldt c o) s = .next (retired c (storeAll c (as.zip ((s2.core c).descWords e)) s2)))

/-- A core's instruction words and its commands name each other, and no bit of a word is lost; undefined opcodes and undefined
mode or SHORT encodings take the illegal-instruction exception before any data access. -/
def Obligations.UndefinedEncodingsTakeLine3 : Prop :=
  (∀ (c : CoreId) (w e e2 : Word),
    (∃ n, n ≤ 2 ∧ encode (coreInstr c w e e2) = some (w :: [e, e2].take n)) ∧
    (∀ ws, encode (coreInstr c w e e2) = some ws →
      coreInstr c (ws.getD 0 0) (ws.getD 1 0) (ws.getD 2 0) = coreInstr c w e e2) ∧
    (coreInstr c w e e2 = .undefinedOpcode c w → undefinedWord w = true)) ∧
  ∀ (c : CoreId) (o : Opnd) (s : State) (w : Word), coreReady s c = true → fetchOk c 0 1 s = .ok () →
    (undefinedWord w = true → exec (.undefinedOpcode c w) s = .next (takeExc c .illegal s)) ∧
    (o.legal .src = false → ∀ mk ∈ [(fun c o => .ld c o : CoreId → Opnd → Instr), .lde, .ldx, .ldy, .push, .add, .adc, .sub, .sbc,
        .cmp, .andOp, .orOp, .xorOp, .bit, .mul, .muls, .div, .divs, .shl, .shr, .asr, .rol, .ror, .shld, .shrd, .asrd, .adx,
        .ady, .ads, .cpx, .cpy, .lfd, .lfe, .lfs, .sev],
      exec (mk c o) s = .next (takeExc c .illegal s)) ∧
    (o.legal .dst = false → ∀ mk ∈ [(fun c o => .st c o : CoreId → Opnd → Instr), .ste, .stx, .sty, .xch, .pop, .inc, .dec, .adm,
        .orm, .bcm, .tas, .lrw, .scw, .wev, .sdt, .ldt],
      exec (mk c o) s = .next (takeExc c .illegal s)) ∧
    (o.legal .jump = false → exec (.jmp c o) s = .next (takeExc c .illegal s) ∧ exec (.call c o) s = .next (takeExc c .illegal s)) ∧
    (o.legal .far = false → exec (.jmpf c o) s = .next (takeExc c .illegal s) ∧ exec (.callf c o) s = .next (takeExc c .illegal s)) ∧
    (o.legal .byt = false → exec (.exb c o) s = .next (takeExc c .illegal s) ∧ exec (.inb c o) s = .next (takeExc c .illegal s))

/-- Event entry pushes FL, FC and PC, loads PC and FC from the line's entry, sets PRI to its level and clears it. -/
def Obligations.EventEntryTakesTheLine : Prop :=
  ∀ (c : CoreId) (l : Nat) (pc sel : Word) (s a b d : State), coreUp s c = true → (s.core c).partway = false →
    eventLine s c = some l → (∀ m, (s.core c).wait = some m → maskedLine s c m = none) →
    pushWords c [(s.r c).fl, (s.r c).fc.setWidth 16, (s.r c).pc] s = .ok () a →
    tableWord c (2 * l) a = .ok pc b → tableWord c (2 * l + 1) b = .ok sel d → selectorCode d c 0 (fld sel 0 8) = none →
    ∃ t, exec (.eventEntry c) s = .next t ∧ (t.r c).pc = pc ∧ (t.r c).fc = byte (fld sel 0 8) ∧
      fld (t.r c).fl 6 2 = s.regFld (s.block c + 10 + l / 8) (2 * (l % 8)) 2 ∧ bit (t.r c).fl 5 = false ∧
      bit (t.r c).fl 4 = bit (d.r c).fl 4 ∧ (t.r c).acc = (d.r c).acc ∧ (t.r c).sp = (d.r c).sp ∧ (t.core c).wait = none ∧
      (t.core c).resv = none ∧ t.regBit (s.block c + 6 + l / 16) (l % 16) = false

/-- An exception is entered with PRI 3 and I 0 at its line, its record made first; a further one stops the core. -/
def Obligations.ExceptionsEnterAtLevel3 : Prop :=
  ∀ (c : CoreId) (e : Exc) (s : State), s.paired c = false →
    let s1 := (recordFault c e s).modCore c fun k => { forgetLoads k with remTag := none, remAns := none }
    (∀ code fr sel off, e = .frame code fr sel off →
      s1.reg (s.block c + 0x12) = pack [(0, code), (5, fr), (8, sel % 256)] ∧ s1.reg (s.block c + 0x13) = w16 off ∧
      s1.reg (s.block c + 0x14) = (s.r c).pc ∧ s1.reg (s.block c + 0x15) = (s.r c).fc.setWidth 16) ∧
    ((s.core c).exc = true → takeExc c e s = doubleFault c s1) ∧
    ((s.core c).exc = false → ∀ t, enterLine c e.line (s.r c).pc true s1 = .ok () t →
      takeExc c e s = t ∧ (t.core c).exc = true ∧ fld (t.r c).fl 6 2 = 3 ∧ bit (t.r c).fl 4 = false ∧ bit (t.r c).fl 5 = false) ∧
    ((s.core c).exc = false → ∀ e2, enterLine c e.line (s.r c).pc true s1 = .exc e2 →
      takeExc c e s = doubleFault c (recordFault c e2 s1)) ∧
    doubleFault c s = watchdogExpire c (s.modCore c fun k => { k with st := .stopped, dfault := true, wait := none })

/-- CHK advances PC alone at an independent core; in a pair it takes a checkpoint, or, while the previous record is still
being written, stalls the pair until it is done. -/
def Obligations.CheckpointInstruction : Prop :=
  ∀ (c : CoreId) (s : State), Issues c 1 true s →
    (s.paired c = false → exec (.chk c) s = .next (retired c (issued c 1 s))) ∧
    (s.paired c = true → (s.core c).held = [] → (s.core c).redo = none →
      ∃ t, exec (.chk c) s = .next t ∧ t.r c = (issued c 1 s).r c ∧
        ((s.core c).ckBusy = false → (t.core c).ckpt = t.r c ∧ (t.core c).log = [] ∧ (t.core c).since = 0 ∧
          (t.core c).ckBusy = true ∧ (t.core c).ckDue = false) ∧
        ((s.core c).ckBusy = true → (t.core c).ckDue = true ∧ coreUp t c = false))

/-- What the one-word register instructions leave unchanged: everything but their own core's record, where no word they are
fetched from is repaired and no write of another requester waits for the pair's checkpoint. -/
def Obligations.RegisterInstructionsFrame : Prop :=
  ∀ (c : CoreId) (s t : State) (mk : CoreId → Instr), Issues c 1 true s → fetched c 1 s = s → NoneHeld c s →
    mk ∈ [(fun c => .nop c : CoreId → Instr), .ei, .di, .swb, .sxb, .neg, .notOp, .xae, .mvax, .mvxa, .mvay, .mvya, .mvae, .mvea,
      .mvas, .mvsa, .mvaf, .mvfa, .rfcd, .rfes, .inx, .dex, .iny, .dey, .clc, .stc, .negd] →
    exec (mk c) s = .next t →
    { t with cores := s.cores } = s ∧ (∀ d, d ≠ c.val → t.core d = s.core d) ∧ (∀ a, t.memWord a = s.memWord a) ∧
      (t.core c).desc = (s.core c).desc ∧ (t.r c).fc = (s.r c).fc ∧ (t.r c).fd = (s.r c).fd ∧ (t.r c).fe = (s.r c).fe ∧
      (t.r c).fs = (s.r c).fs ∧ (t.r c).pc = (s.r c).pc + 1 ∧ (mk c ≠ .mvas c → (t.r c).sp = (s.r c).sp)

/-- What the class S instructions with a register result leave unchanged after their operand is read. -/
def Obligations.SourceInstructionsFrame : Prop :=
  ∀ (c : CoreId) (o : Opnd) (s s1 t : State) (v : Word) (mk : CoreId → Opnd → Instr), Issues c (o.len .src) (o.legal .src) s →
    mk ∈ [(fun c o => .ld c o : CoreId → Opnd → Instr), .lde, .ldx, .ldy, .add, .adc, .sub, .sbc, .cmp, .andOp, .orOp, .xorOp, .bit,
      .mul, .muls, .shl, .shr, .asr, .rol, .ror, .shld, .shrd, .asrd, .adx, .ady, .ads, .cpx, .cpy] →
    source c o (issued c (o.len .src) s) = .ok v s1 → NoneHeld c s1 → exec (mk c o) s = .next t →
    { t with cores := s1.cores } = s1 ∧ (∀ d, d ≠ c.val → t.core d = s1.core d) ∧ (∀ a, t.memWord a = s1.memWord a) ∧
      (t.core c).desc = (s1.core c).desc ∧ (t.r c).fc = (s1.r c).fc ∧ (t.r c).fd = (s1.r c).fd ∧ (t.r c).fe = (s1.r c).fe ∧
      (t.r c).fs = (s1.r c).fs ∧ (o.mode.val = 0 → s1 = issued c (o.len .src) s ∧ v = o.short.signExtend 16) ∧
      (o.mode.val = 6 → s1 = issued c (o.len .src) s ∧ v = o.e)

/-- A store to the core's own local memory changes that word alone and reads back. -/
def Obligations.StoreToOwnLocalMemoryFrame : Prop :=
  ∀ (c : CoreId) (a : Nat) (v : Word) (s : State), s.paired c = false → ownLocal s c a = true →
    (storeAt c a v s).memWord (localAddr s c a) = v ∧
    (∀ b, b ≠ localAddr s c a → (storeAt c a v s).memWord b = s.memWord b) ∧
    (∀ d, ((storeAt c a v s).core d).r = (s.core d).r) ∧ (storeAt c a v s).regs = s.regs ∧
    (storeAt c a v s).gates = s.gates ∧ (storeAt c a v s).memq = s.memq ∧ (storeAt c a v s).chans = s.chans

/-- A store to shared SRAM waits for MEM, and the core's next load of the word returns it. -/
def Obligations.StoreToSharedSramReadsBack : Prop :=
  ∀ (c a : Nat) (v : Word) (s : State), 0x800000 ≤ a → a < 0x880000 → s.memq = [] →
    (∀ b, (coreStore s c a v).memWord b = s.memWord b) ∧ (∀ k, (coreStore s c a v).core k = s.core k) ∧
    (coreStore s c a v).regs = s.regs ∧ (coreStore s c a v).memq.length = 1 ∧
    (s.running .mem = true →
      ∃ t, coreLoad (coreStore s c a v) c a = .value v t ∧ t.memq = [] ∧ ∀ b, b ≠ a → t.memWord b = s.memWord b)

/-- An access outside every region of the memory map raises a frame fault. -/
def Obligations.AccessOutsideTheMapFaults : Prop :=
  ∀ (s : State) (c fr : Nat) (off : Word) (n : Need),
    let sel := (s.core c).r.sel fr
    let ws := (s.core c).descWords sel
    let a := (descBase ws + off.toNat) % 0x1000000
    (0x8C8000 ≤ a ∧ a < 0x900000) ∨ (0x920000 ≤ a ∧ a < 0xA00000) ∨ (0xAA0000 ≤ a ∧ a < 0xC00000) ∨ 0xE00000 ≤ a →
    (∃ code, address s c fr off n = .error (.frame code fr sel off.toNat)) ∧
    (off.toNat ≤ (ws.getD 2 0).toNat → (n.r = true → bit (ws.getD 3 0) 0 = true) → (n.w = true → bit (ws.getD 3 0) 1 = true) →
      (n.x = true → bit (ws.getD 3 0) 2 = true) → (n.at_ = true → bit (ws.getD 3 0) 5 = true) → bit (ws.getD 3 0) 3 = false →
      address s c fr off n = .error (.frame 0x0A fr sel off.toNat))

/-- The operand of each addressing mode is the immediate, or the word at the mode's frame and offset. -/
def Obligations.OperandFormsAreTable62 : Prop :=
  ∀ (c : Nat) (o : Opnd) (s : State),
    (-64 ≤ o.d.toInt ∧ o.d.toInt ≤ 63 ∧ (o.d.toInt - (o.short.toNat : Int)) % 128 = 0 ∧ o.short.toNat ≤ 127) ∧
    (∀ k : Cls, o.len k = 1 + (match o.mode.val with | 1 => 1 | 7 => 1 | 6 => if k = .far then 2 else 1 | _ => 0)) ∧
    (o.mode.val = 0 → source c o s = .ok o.d s) ∧ (o.mode.val = 6 → source c o s = .ok o.e s) ∧
    (o.mode.val = 1 → source c o s = load c 1 o.e false s) ∧ (o.mode.val = 7 → source c o s = load c 2 o.e false s) ∧
    (o.mode.val = 2 → source c o s = load c 1 ((s.r c).ix + o.d) false s) ∧
    (o.mode.val = 3 → source c o s = load c 2 ((s.r c).iy + o.d) false s) ∧
    (o.mode.val = 4 → source c o s = load c 3 ((s.r c).sp + o.d) false s) ∧
    (o.mode.val = 5 → source c o s =
      (load c 1 (BitVec.ofNat 16 o.short.toNat) false s).bind fun p s1 => load c 1 p false s1)

/-- A write of RST_REQ with KEY 0x5A resets at the level it gives; another key does nothing. -/
def Obligations.ResetRequestKeyed : Prop :=
  ∀ (r : Requester) (v : Word) (s t : State), Arrives r .sup s t →
    let lvl := v.toNat % 4
    let tgt := v.toNat / 4 % 16
    let bad := (lvl = 2 ∧ (tgt = 7 ∨ tgt = 8 ∨ tgt = 9 ∨ 12 ≤ tgt)) ∨ (lvl = 3 ∧ 8 ≤ tgt)
    (v.toNat / 256 = 0x5A → ¬bad → exec (.rstReq r v) s = .next (resetAt 12 lvl tgt (recordCause 12 t))) ∧
    (v.toNat / 256 = 0x5A → bad → exec (.rstReq r v) s = .next (t.setRegBit 0xA80000 15 true)) ∧
    (v.toNat / 256 ≠ 0x5A → exec (.rstReq r v) s = .next t)

/-- OTP_CMD starts programming one fuse word, once; a programmed word stays in OTP and a second attempt is denied. -/
def Obligations.FuseProgramming : Prop :=
  ∀ (r : Requester) (v d : Word) (s t : State) (a : Nat), Arrives r .sup s t →
    v.toNat / 256 = 0xC3 → v.getLsbD 0 = true → t.otpBusy = none → t.regFld 0xA80010 0 10 = a →
    let opened := a / 64 = 5 ∨ a / 64 = 7 ∨ 8 ≤ a / 64
    (opened → a ∉ t.otpDone →
      exec (.otpProgram r v) s = .next { t.setReg 0xA80013 0x0001#16 with otpBusy := some (a, t.reg 0xA80011) }) ∧
    (¬opened ∨ a ∈ t.otpDone → exec (.otpProgram r v) s = .next (t.setReg 0xA80013 0x0002#16)) ∧
    ∀ u : State, u.otpBusy = some (a, d) → ∃ w, exec (.otpProgramComplete true) u = .next w ∧
      w.otp.get (fun _ => 0#16) a = d ∧ a ∈ w.otpDone ∧ w.shadow = u.shadow ∧ w.otpBusy = none ∧ w.reg 0xA80013 = 0

/-- MAR_CTRL.STOP, SMP_CMD, WDG_KICK, the spare write and CYC through their register accesses. -/
def Obligations.SupervisorCommands : Prop :=
  ∀ (r : Requester) (c d : CoreId) (v : Word) (s t : State), Arrives r .sup s t →
    let ended : State := (List.range t.marTable.length).foldl (fun u n => marEnd n u) t
    let authority := asRequester t r = .core d ∧ t.regBit 0xA81007 d = true ∧ v.toNat / 256 = 0x5C
    let p := 2 * fld v 3 1 + fld v 1 2
    (bit v 0 = true → ended.regBit 0xA80005 9 = true →
      exec (.marStop r v) s = .next ((ended.setRegBit 0xA80005 9 false).setRegBit 0xA80005 10 true)) ∧
    (authority → bit v 0 = true → bit v 1 = false →
      exec (.safeEnd r v) s = .next (safeEnd ((t.setRegBit 0xA81009 1 false).setReg 0xA70303 0))) ∧
    (authority → bit v 0 = false → bit v 1 = true → exec (.firstClr r v) s =
      .next ((((t.setRegBit 0xA81009 1 false).setReg 0xA70300 0).setReg 0xA70301 0).setReg 0xA70302 0)) ∧
    (asRequester t r = .core d → t.regBit 0xA81007 d = false ∨ v.toNat / 256 ≠ 0x5C →
      exec (.safeEnd r v) s = .next (t.setRegBit 0xA81009 1 true) ∧ exec (.firstClr r v) s = .next (t.setRegBit 0xA81009 1 true)) ∧
    (t.lead c = c.val → asRequester t r = .core d → t.lead d = c.val → wdgCounts t c = true →
      ((t.core c).wdgHalf = false → v = 0x5A5A#16 →
        exec (.wdgKick r c v) s = .next (t.modCore c fun k => { k with wdgHalf := true })) ∧
      ((t.core c).wdgHalf = true → v = 0xA5A5#16 → wdgCount t c * 8 ≤ (t.core c).wdgTo * (8 - (t.core c).wdgWin) →
        exec (.wdgKick r c v) s = .next (loadWatchdog c t))) ∧
    (t.regBit 0xA8FD05 0 = false →
      (bit v 0 = false → exec (.spareDesignate r v) s = .next (t.setReg 0xA8FD02 (v &&& 0x000F#16))) ∧
      (bit v 0 = true → (∀ k, k < 4 → (t.physPair k).standby = false) → asRequester t r = .core d → fld v 1 2 < 2 →
        t.mapPair (t.lead d / 2) = p → (if fld v 3 1 = 0 then t.pairedA else t.pairedB) = true → (t.physPair p).retired = false →
        exec (.spareDesignate r v) s = .next (makeDormant (t.lead d)
          ((t.setReg 0xA8FD02 (v &&& 0x000F#16)).setPhys p { t.physPair p with standby := true })))) ∧
    (t.regBit 0xA8FD05 0 = true → exec (.spareDesignate r v) s = .next t) ∧
    exec (.cycRead r c) s = .next (busRead (coreBlock c + 0x18) t).2

/-- The six UPD_CMD operations, accepted from a core of UPD_AUTH with KEY 0xD2; one that needs a busy region waits. -/
def Obligations.UpdateCommands : Prop :=
  ∀ (r : Requester) (v : Word) (s t : State), Arrives r .sup s t → v.toNat / 256 = 0xD2 → t.upd.preparing = false →
    t.upd.cmd = none →
    let named := coreNamed t 0xA8200C (asRequester t r) = true
    let op := v.toNat % 16
    let free := updMustWait op t = false
    (named → free → op = 1 → openCheck t = 0 → let u := updRead (updHaddr t) 64 t
      exec (.openPart r v) s = .next (partDone 0 { u with upd := { u.upd with
        part := some { off := updOffs u, header := u.memList (updHaddr u) 64 } } })) ∧
    (named → free → op = 2 → ∀ p, t.upd.part = some p → p.fill = headerLen p.header →
      bootMac t (bytesOf p.body) = some (bytesOf ((p.header.drop 0x30).take 8)) →
      (t.memList (bankBase (inactiveBank t) + p.off) 64).all (· = 0xFFFF#16) = true →
      exec (.closePart r v) s = .next (partDone 0 ((setVerified (inactiveBank t) false
        (memBurst .sup 2 8 { t with upd := { t.upd with part := none } })).storeList (bankBase (inactiveBank t) + p.off) p.header))) ∧
    (named → op = 3 → exec (.dropPart r v) s = .next (partDone 0 { t with upd := { t.upd with part := none } })) ∧
    (named → free → op = 4 → exec (.preparePart r v) s = .next (prepareStep t) ∧
      (t.upd.phase = 0 → let u := readParts (updRead (manifestAt (inactiveBank t)) 64 t)
        let b := inactiveBank u
        let h := u.memList (manifestAt b) 64
        manifestGood u b = true → payloadMac u h (manifestAt b + 0x40) = true →
        (ownEntries u).all (partGood u (headerMref h)) = true →
        (prepareStep t).upd.preparing = true ∧ (prepareStep t).regBit 0xA82008 1 = true)) ∧
    (named → free → op = 5 → t.upd.phase = 1 → coordinates t = true → t.upd.step = 0 → t.upd.dec = 0 →
      exec (.startActivation r v) s = .next (enterStep 1 t)) ∧
    (named → free → op = 6 → t.upd.phase = 2 →
      let u := stopWindow (journalPut 4 t.upd.bank t.upd.gen t.upd.mref t)
      exec (.healthyCmd r v) s = .next (sendUpd 5 0 (coordOf u) u.upd.mref
        { u with upd := { u.upd with wait := [5], sentAt := u.now } })) ∧
    (∀ mk ∈ [(fun r v => .openPart r v : Requester → Word → Instr), .closePart, .dropPart, .preparePart, .startActivation,
        .healthyCmd],
      (named → updMustWait op t = true → exec (mk r v) s = .next { t with upd := { t.upd with cmd := some op } }) ∧
      (coreNamed t 0xA8200C (asRequester t r) = false → exec (mk r v) s = .next (t.setRegFld 0xA82008 2 4 1)))

/-- PWR_CTRL enters Park or Deep Park or records why not; wake causes, the RTC and switch inputs through AON. -/
def Obligations.PowerControlCommands : Prop :=
  ∀ (r : Requester) (v : Word) (n : Fin 48) (s t : State), Arrives r .aon s t →
    (v.toNat / 256 = 0xA5 → t.mode = .run →
      (v.toNat % 4 = 1 → (∀ w, parkRefusal t false = some w → exec (.parkRequest r v) s = .next (t.setReg 0xA70102 w)) ∧
        (parkRefusal t false = none → ∃ u, exec (.parkRequest r v) s = .next u ∧ u.mode = .entering false ∧ u.enterAt = t.now ∧
          u.reg 0xA70102 = 0 ∧ u.mem = t.mem ∧ ∀ c, c < 8 → (u.core c).st = .stopped ∧ (u.core c).r = (t.core c).r)) ∧
      (v.toNat % 4 = 2 → (∀ w, parkRefusal t true = some w → exec (.deepParkRequest r v) s = .next (t.setReg 0xA70102 w)) ∧
        (parkRefusal t true = none → ∃ u, exec (.deepParkRequest r v) s = .next u ∧ u.mode = .entering true ∧ u.enterAt = t.now ∧
          u.reg 0xA70102 = 0 ∧ u.mem = t.mem ∧ ∀ c, c < 8 → (u.core c).st = .stopped ∧ (u.core c).r = (t.core c).r))) ∧
    (∃ u, exec (.wakeCauseClear r v) s = .next u ∧ u.reg 0xA70104 = t.reg 0xA70104 &&& ~~~(v &&& 0x03FF#16) ∧
      (u.reg 0xA70104 = 0 → u.reg 0xA70105 = 0x000F#16)) ∧
    (∃ u, exec (.rtcRead r) s = .next u ∧ u.reg 0xA70110 = BitVec.ofNat 16 t.rtcSec ∧
      u.reg 0xA70111 = BitVec.ofNat 16 (t.rtcSec / 65536) ∧ u.rtcSec = t.rtcSec ∧ u.mem = t.mem) ∧
    (v.getLsbD 0 = true →
      let sec := (t.reg 0xA70116).toNat * 65536 + (t.reg 0xA70115).toNat
      exec (.rtcLoad r v) s = .next { rtcSeconds sec t with rtcFrac := 0 } ∧
      (sec ≠ hiLo (t.reg 0xA70114) (t.reg 0xA70113) → (rtcSeconds sec t).rtcSec = sec)) ∧
    exec (.inputConfigWrite r .si n v) s = .next ((t.plainWrite (0xA70200 + n) v).setFilt n
      { t.filt n with started := false, since := 0 })

/-- Staging words and COMMIT at a channel's port: the owner's write takes effect, any other is counted and discarded. -/
def Obligations.ChannelPortCommands : Prop :=
  ∀ (r : Requester) (ch : ChanRef) (w : Fin 15) (v : Word) (s t : State), ch.ok = true → Arrives r ch.isl.island s t →
    let allowed := ownerOk t ch (asRequester t r)
    (allowed = true → exec (.stagingWrite r ch w v) s = .next (stagingWrite (asRequester t r) ch w v t) ∧
      (ch.isl ≠ .sw ∨ 64 ≤ ch.idx ∨ w.val < 12 →
        ∃ m, stagingWrite (asRequester t r) ch w v t = t.setReg (ch.port w) (v &&& m)) ∧
      exec (.commit r ch v) s = .next (commitSet ch (t.regList (ch.port 0) 15) v (asRequester t r) t)) ∧
    (allowed = false → exec (.stagingWrite r ch w v) s = .next (t.regInc (ch.port 0x19)) ∧
      exec (.commit r ch v) s = .next (t.regInc (ch.port 0x19)))

/-- PROF_CMD, RET_CLEAR, BANK_CLR, ICB_CTRL and the LUX commands through their registers. -/
def Obligations.OutputIslandCommands : Prop :=
  ∀ (r : Requester) (i : OutIsl) (j : Island) (v : Word) (k : Fin 2304) (s t : State),
    (Arrives r i.island s t → v.getLsbD 0 = true → t.regBit (i.oib + 3) 1 = false →
      (profBase t i < 0x800000 ∨ 0x880000 < profBase t i + 1024 →
        exec (.profileLoad r i v) s = .next (t.setRegFld (i.oib + 3) 2 2 2)) ∧
      (0x800000 ≤ profBase t i → profBase t i + 1024 ≤ 0x880000 →
        ∃ u, exec (.profileLoad r i v) s = .next u ∧ u.regBit (i.oib + 3) 1 = true ∧ (u.out i).copy.isSome = true)) ∧
    (Arrives r i.island s t → ∀ c ch, asRequester t r = .core c → ch = ⟨i, v.toNat % 128⟩ → ch.ok = true → v.toNat / 256 = 0x3C →
      (t.regBit (i.oib + 8) c = false ∨ (t.chan ch).reason = 0 →
        exec (.retClear r i v) s = .next (t.setRegBit (i.oib + 0x0A) 1 true)) ∧
      (t.regBit (i.oib + 8) c = true → (t.chan ch).reason ≠ 0 →
        let u : State := match (t.chan ch).carriedBy with | some p => endCarry ⟨i, p⟩ true t | none => t
        exec (.retClear r i v) s = .next ((bankLocks (queueRecord ch true 0 0 (retiredBit ch false (u.modChan ch fun x =>
          { x.resetEvidence with act := x.act.set 0 0, reason := 0, retDiag := 0, count := 0, recur := [], carriedBy := none,
                                 tkDue := none, pend := none, quiet := 0, quietFrom := none, pause := none, pauseRun := none
                                 retry := false })))).setRegBit (i.oib + 0x0A) 1 false))) ∧
    (Arrives r .act s t → ∀ c, asRequester t r = .core c →
      (v.toNat / 256 ≠ 0x69 ∨ t.regBit 0xA1F008 c = false → exec (.bankClr r v) s = .next (t.setRegBit 0xA1F00A 1 true)) ∧
      (v.toNat / 256 = 0x69 → t.regBit 0xA1F008 c = true → exec (.bankClr r v) s =
        .next (bankLocks ((List.range 4).foldl (fun u b => if bit v b ∧ (u.bank b).lock2 then
          tryBank b (u.modBank b fun x => { x with lock2 := false, bretry := 0, quiet := 0 }) else u) t)))) ∧
    (Arrives r .sup s t → v.getLsbD 0 = true → exec (.icbMwclr r j v) s = .next (t.setReg (icb j + 5) 0)) ∧
    (Arrives r .lux s t →
      (∃ u, exec (.luxGcWrite r v) s = .next (gcSettle u) ∧ u.lux.gcPend = true ∧ u.reg 0xA2F000 = (t.plainWrite 0xA2F000 v).reg 0xA2F000) ∧
      exec (.frameSwap r) s = .next { t with lux := { t.lux with swPend := true } } ∧
      (t.lux.load = none → inSram (fbLoad t) 1152 = true → ∃ u a m, exec (.frameLoad r) s = .next u ∧ u.lux.load = some (a, m) ∧
        a = fbLoad t ∧ u.mem = t.mem ∧ u.regs = t.regs) ∧
      (t.lux.load = none → inSram (fbLoad t) 1152 = false →
        exec (.frameLoad r) s = .next { t with lux := { t.lux with lerr := true } }) ∧
      (decide (1152 ≤ k.val) ≠ t.lux.front → t.lux.load = none → ownerAllows (t.regFld 0xA2F00A 0 4) (asRequester t r) = true →
        exec (.frameBufferWrite r k v) s = .next (t.setReg (0xA24000 + k) (v &&& 0x0FFF#16))) ∧
      (decide (1152 ≤ k.val) = t.lux.front → exec (.frameBufferWrite r k v) s = .next (t.setRegBit 0xA2F013 4 true)) ∧
      (v.getLsbD 0 = true → t.lux.calBusy = false → exec (.calibrationLoad r v) s =
        .next { t.setRegBit 0xA2F00D 1 true with lux := { t.lux with calBusy := true } }))

/-- What the NET command registers do: transmit pointers, CAN, LIN, Ethernet TC10, gateway and tatting-ring commands. -/
def Obligations.NetworkCommands : Prop :=
  ∀ (r : Requester) (p : Fin 14) (n : Fin 8) (l : Fin 12) (k : Fin 2) (id : BitVec 6) (v : Word) (s t : State), Arrives r .net s t →
    exec (.txrWpWrite r p v) s = .next (checkTxRing p (t.setReg (txr p 2) v)) ∧
    (t.net.wake.get (fun _ => none) n = none → exec (.canModeWrite r n v) s = .next (t.setReg (canBase n) (v &&& 0x007F#16))) ∧
    ((t.net.wake.get (fun _ => none) n).isSome = true → exec (.canModeWrite r n v) s = .next
      { t with net := { t.net with modeHeld := t.net.modeHeld.set (fun _ => none) n (some v) } }) ∧
    (v.getLsbD 0 = true → t.regFld (canBase n + 6) 0 2 = 2 → n.val ∉ t.net.recov →
      exec (.canBorec r n v) s = .next { t with net := { t.net with recov := n :: t.net.recov } }) ∧
    (t.regFld (linBase l) 0 2 = 3 → t.regBit (linBase l + 3) 0 = false →
      let i := BitVec.ofNat 6 (v.toNat % 64)
      exec (.linHdr r l v) s = .next ((t.setReg (linBase l + 3) (pack [(0, 1), (8, i.toNat)])).send
        (.lin l (linBaud t l) (linPid i) []))) ∧
    exec (.linPub r l id) s = .next (linPub l id t) ∧
    (v.getLsbD 0 = true → linWaking t l = false → exec (.linWakeSend r l v) s = .next ({ t with net := { t.net with
      linWakeEnd := t.net.linWakeEnd.set (fun _ => 0) l (t.now + 1000) } }.send (.linWake l))) ∧
    (onBus t (8 + k) = true → t.regBit (ethBase k) 3 = true →
      (fld (ethStat t k) 1 3 = 1 → exec (.sleepreq r k) s = .next ((t.setRegFld (ethBase k + 7) 1 3 2).send (.tc10 k false))) ∧
      (fld (ethStat t k) 1 3 ≠ 4 → exec (.wur r k) s =
        .next ((if fld (ethStat t k) 1 3 = 3 then t.setRegFld (ethBase k + 7) 1 3 4 else t).send (.tc10 k true)))) ∧
    (t.regBit 0xA30002 0 = false → (List.range 256).find? (routeBad t) = none → exec (.gwswap r) s =
      .next (((t.setRegBit 0xA30002 1 false).setRegFld 0xA30002 3 8 0).setRegBit 0xA30002 0 true)) ∧
    (wakeBusy t = false → exec (.wfsend r) s = .next (sendWake t)) ∧
    (v &&& ~~~ t.reg 0xA30805 &&& 0x3FFF#16 = 0 → exec (.gwIsoWrite r v) s =
      .next ((t.setReg 0xA30805 (v &&& 0x3FFF#16)).level 164 (decide (v &&& 0x3FFF#16 ≠ 0)))) ∧
    exec (.gwIsoWrite r v) s = .next (setIso v t) ∧
    (v.getLsbD k = true → v.getLsbD (1 - k.val) = false → t.regBit 0xA30808 (2 + k) = false → exec (.wklPulse r v) s =
      .next { t.setRegBit 0xA30808 (2 + k) true with net := { t.net with wklAt := t.net.wklAt.set (fun _ => 0) k t.now } }) ∧
    exec (.netUsRead r) s = .next ((t.setReg 0xA30007 (w16 (netUs t))).setReg 0xA30008 (w16 (netUs t / 65536))) ∧
    (v.getLsbD 0 = true → trState t = 0 ∨ trState t = 6 → exec (.ringEnable r v) s = .next (enterJoining
      (modRing (fun x => { x with node := t.regFld 0xA30041 0 6, base := 64 * t.regFld 0xA30041 6 5 })
        (t.setReg 0xA30040 (v &&& 0x000F#16))))) ∧
    (inQuiet t 198000 = true → exec (.trRevoke r) s = .next (cancelSleep (setMember t.net.ring.node true
      (sendRing (ringData 5 (trRound t) 0xFF 0xFF false 0xFF) t)))) ∧
    (trState t = 2 → exec (.trLeave r) s = .next (trCmd.leave t)) ∧
    exec (.unbar r) s = .next (trCmd.unbarAll t)

/-- What the SEC command registers do: sessions, ranging, the transceiver FIFO, enrolment, release frames, key store and
jobs. -/
def Obligations.SecurityCommands : Prop :=
  ∀ (r : Requester) (p : Fin 2) (j : Fin 4) (w : Fin 26) (v : Word) (b : Byte) (s t : State), Arrives r .sec s t →
    let q := asRequester t r
    (t.sec.session = none → t.sec.enr = none →
      (v.toNat % 4 = 1 → exec (.generalSession r v) s = .next (startSession false v t)) ∧
      (v.toNat % 4 = 2 → exec (.addressedSession r v) s = .next (startSession true v t)) ∧
      (t.sec.trnFail = false → t.band ≠ .over →
        (startSession false v t).sec.session.isSome = true ∧ (startSession true v t).sec.session.isSome = true)) ∧
    (v.toNat % 4 = 3 → t.sec.session.isSome = true → exec (.sessionAbort r v) s = .next (abortSession t)) ∧
    exec (.rngArm r v) s = .next
      ((modSession (fun x => { x with armed := some (v.toNat % 32, v.toNat / 32 % 2), report := none }) t).setReg 0xA41017 0) ∧
    exec (.rngTround r v) s = .next (rngTround v t) ∧
    ((t.sec.spi.get (fun _ => []) p).length < 16 → exec (.spiDataWrite r p v b) s =
      .next { (if t.straps.isSome then t.send (.spi p (spiDiv t p) (t.regBit (0xA41020 + 3 * p) 7) (loByte v)) else t) with
        sec := { t.sec with
          spiEnd := t.sec.spiEnd.set (fun _ => 0) p (t.now + (16 * (spiDiv t p + 1) + 249) / 250)
          spi := t.sec.spi.set (fun _ => []) p (t.sec.spi.get (fun _ => []) p ++ [b]) } }) ∧
    (v.toNat / 256 = 0xE7 → t.sec.enr = none →
      (v.getLsbD 5 = false → t.sec.session = none → exec (.enrolment r v) s = .next (beginEnrolment q v t)) ∧
      (v.getLsbD 5 = false → t.sec.session.isSome = true → t.sec.enrHeld = none →
        exec (.enrolment r v) s = .next { t with sec := { t.sec with enrHeld := some (q, v) } }) ∧
      (v.getLsbD 5 = true → coreNamed t 0xA41003 q = true → enrolled t (v.toNat % 32) = true → exec (.revocation r v) s =
        .next (enrStatus true 0 (dropSlot (v.toNat % 32) (setEnrolled (v.toNat % 32) false
          { t with sec := { t.sec with enr := some (q, v) } }))))) ∧
    (v.toNat / 256 = 0x96 → ∀ k, t.slot (t.regFld 0xA41040 0 6) = some k →
      let n := immoCnt t + 1
      let frame (op : Byte) : State :=
        let body := op :: beBytes 3 n
        ((setImmoCnt n t).setRegList 0xA41047
          (wordsOf (body ++ (cmac k.key (regBytes t 0xA41000 ++ body)).take 4))).setReg 0xA41046 0x0002#16
      (v.toNat % 4 = 1 → immoRefusal t q true = 0 → exec (.immoRelease r v) s = .next (frame 0x11)) ∧
      (v.toNat % 4 = 2 → immoRefusal t q false = 0 → exec (.immoLock r v) s = .next (frame 0x12))) ∧
    (v.toNat / 256 = 0x96 → v.toNat % 4 = 3 → t.cntSet = false → exec (.immoSet r v) s =
      .next { setImmoCnt (t.regN 0xA41043 + 65536 * t.regFld 0xA41044 0 8) (t.setReg 0xA41046 0) with cntSet := true }) ∧
    (v.toNat / 256 = 0x4B → t.sec.ks = none → 1 ≤ v.toNat % 8 → v.toNat % 8 ≤ 5 →
      ∀ mk ∈ [(fun r v => .ksLoad r v : Requester → Word → Instr), .ksLoadotp, .ksGen, .ksImport, .ksErase],
      exec (mk r v) s = .next ({ t with sec := { t.sec with
        ks := some { op := v.toNat % 8, r := q, staged := t.regList 0xA42003 8 } } }.setReg 0xA4200C 0x0001#16)) ∧
    (jobOwner t j q = true → (t.job j).busy = false →
      exec (.jobStagingWrite r j w v) s = .next (t.setReg (0xA42020 + 0x20 * j + w) (v &&& jobMask w)) ∧
      ∃ u, exec (.jobGo r j v) s = .next u ∧ u.sec.jobQ = t.sec.jobQ ++ [j.val] ∧ (u.job j).busy = true ∧
        (u.job j).snap = t.regList (0xA42020 + 0x20 * j) 26 ∧ u.mem = t.mem) ∧
    (t.sec.trnReady = true → exec (.trnRead r) s = .next { t.used with sec := { t.sec with trnReady := false } })

/-- A remote reset leaves only for a core of LNK_AUTH with KEY 0x5A and another device; any other write sets DENIED. -/
def Obligations.RemoteResetAuthority : Prop :=
  ∀ (r : Requester) (v : Word) (s t : State), Arrives r .lnk s t →
    let d := t.regFld 0xA6000D 0 9
    (v.toNat / 256 = 0x5A → coreNamed t 0xA60007 (asRequester t r) = true → ownId t ≠ some d → v.getLsbD 0 = true →
      exec (.lnkRrst r v) s =
        .next (sendStitch { stitchFrom t 9 d with len := 1, payload := [0x5A5A#16] } (t.setReg 0xA6000F 0))) ∧
    (v.toNat / 256 ≠ 0x5A ∨ coreNamed t 0xA60007 (asRequester t r) = false ∨ ownId t = some d →
      exec (.lnkRrst r v) s = .next (t.setRegBit 0xA6000F 1 true))

/-- Channel command, mail, port restart and the flash commands through their registers. -/
def Obligations.LinkAndFlashCommands : Prop :=
  ∀ (r : Requester) (p : Fin 4) (v : Word) (s t : State),
    (Arrives r .lnk s t →
      let a := (t.reg 0xA60081).toNat + 65536 * t.regFld 0xA60082 0 8
      let d := t.regFld 0xA60080 0 9
      let m := t.regFld 0xA60078 0 9
      (t.regBit 0xA6008B 0 = false → reachable t d = true → exec (.ccGo r v) s =
        .next (request .chan { stitchFrom t 5 d with
          len := 8, addr := BitVec.ofNat 24 a
          payload := [t.reg 0xA60083 &&& 0x7FFF#16] ++ t.regList 0xA60084 6 ++ [v] } (t.setReg 0xA6008B 0x0001#16))) ∧
      (t.regBit 0xA6008B 0 = false → reachable t d = false →
        exec (.ccGo r v) s = .next (linkEvent 3 (t.setReg 0xA6008B (pack [(1, 5)])))) ∧
      (t.regBit 0xA6007A 0 = false → t.regBit 0xA60078 12 = false → reachable t m = true → exec (.mbxTxgo r v) s =
        .next (request .mail { stitchFrom t 7 m with
          len := 8, addr := BitVec.ofNat 24 (t.regFld 0xA60078 9 3), seq := byte (v.toNat % 256)
          payload := t.regList 0xA60070 8 } (t.setReg 0xA6007A 0x0001#16))) ∧
      (v.getLsbD 0 = true → t.regBit (pstat p) 2 = true →
        exec (.portRestart r p v) s = .next ((t.setRegBit (pstat p) 2 false).setLport p { trainFrom := t.now }))) ∧
    (Arrives r .mem s t → v.toNat / 256 = 0xF1 → t.flashOp = none → 1 ≤ v.toNat % 8 → v.toNat % 8 ≤ 4 →
      let op := v.toNat % 8
      let n := if op = 1 then t.regFld 0xA90004 0 10 else 0
      ∀ mk ∈ [(fun r v => .flashProgram r v : Requester → Word → Instr), .flashErase, .flashEraseBank, .flashEraseGen],
        (flashCheck (asRequester t r) op t = 0 → ∃ u, exec (mk r v) s = .next u ∧
          u.flashOp = some { op := op, addr := flAddr t, n := n, data := t.memList (flSrc t) n } ∧ u.reg 0xA90006 = 0x0001#16 ∧
          u.mem = t.mem) ∧
        (flashCheck (asRequester t r) op t ≠ 0 → exec (mk r v) s =
          .next ((if flashCheck (asRequester t r) op t = 8 then t.raiseIsl .mem 1 none else t).setReg 0xA90006
            (pack [(1, flashCheck (asRequester t r) op t)]))))

/-- What power, bands, straps and the test access port do to the state. -/
def Obligations.SupplyAndTestAccessEvents : Prop :=
  ∀ (s : State) (b : Band) (sec : Fin 4) (present : Bool) (v : BitVec 9) (ls : List Bool) (code : Byte),
    let parked := s.mode = .park ∨ s.mode = .deepPark
    (∃ t, exec .powerOn s = .next t ∧ t.bring.ref = s.now ∧ t.stageBase = s.now ∧ t.regs = State.reset.regs ∧
      t.chans = State.reset.chans ∧ t.cores = State.reset.cores ∧ (∀ i, t.island i = State.reset.island i) ∧
      (s.otpBusy = none → t.otp = s.otp ∧ t.otpDone = s.otpDone)) ∧
    (∃ t, exec .powerLoss s = .next t ∧ t.band = .off ∧ (∀ i, t.running i = false) ∧
      (s.otpBusy = none → t.otp = s.otp ∧ t.otpDone = s.otpDone) ∧
      (s.flashOp = none → s.upd.preparing = false → ∀ a, a < 0x800000 → t.memWord a = s.memWord a)) ∧
    (∃ t, exec .reversePolarity s = .next t ∧ t.band = .off ∧ t.reversed = true ∧ (∀ i, t.running i = false) ∧
      (s.otpBusy = none → t.otp = s.otp ∧ t.otpDone = s.otpDone)) ∧
    (¬parked → exec .vcoreBrownout s = .next (resetSource 1 0 0 s)) ∧ (parked → exec .vcoreBrownout s = .next s) ∧
    (s.band ≠ .off →
      exec (.bandChange .off) s = .next { unpowered s with band := .off } ∧
      (¬parked → exec (.bandChange .undervoltage) s = .next (fieldDown (bandChanged s.band .undervoltage
        (resetSource 2 0 0 (({ s with band := .undervoltage }).level 18 false))))) ∧
      (parked → exec (.bandChange .undervoltage) s = .next (latchCause 9 0 { enterBand .undervoltage s with parkLow := true })) ∧
      exec (.bandChange .hold) s = .next (enterBand .hold s) ∧
      (b ≠ .off → b ≠ .undervoltage → b ≠ .hold →
        (¬parked → exec (.bandChange b) s = .next (enterBand b s)) ∧
        (parked → exec (.bandChange b) s = .next (parkRise (enterBand b s))))) ∧
    (s.band ≠ .undervoltage → enterBand b s = bandChanged s.band b (({ s with band := b }).level 18 (decide (b = Band.over)))) ∧
    exec (.sectionBandChange sec b) s = .next (sectionChanged sec (s.section sec) b
      (sectionSources { s with secBand := s.secBand.set (fun _ => .full) sec.val b })) ∧
    exec (.groundTabFault present) s = .next (s.level 98 present) ∧
    (s.straps = none → s.band ≠ .off →
      (s.strapLast = some v → exec (.strapSample v) s = .next { s with straps := some v }) ∧
      (s.strapLast ≠ some v → exec (.strapSample v) s = .next { s with strapLast := some v })) ∧
    (tapHeld s = false →
      exec .extest s = .next ({ s with tap := .extest, bypassReg := false }.level 3 true) ∧
      exec .clamp s = .next ({ s with tap := .clamp, bypassReg := false }.level 3 true) ∧
      exec .highz s = .next ({ s with tap := .highz, bypassReg := false }.level 3 true) ∧
      exec (.samplePreload ls) s = .next { { s with tap := .sample, bypassReg := false }.level 3 false with boundary := ls } ∧
      (code.toNat ∉ [0x00, 0x01, 0x03, 0x04] →
        exec (.bypass code) s = .next ({ s with tap := .bypass, bypassReg := false }.level 3 false)))

/-- Clock loss, release, handshake timeout and MEM service. -/
def Obligations.ClockGateAndMemoryEvents : Prop :=
  ∀ (s : State) (i j : Island),
    ((s.island i).st ≠ .clockLost → monitored s i = true → ∃ t, exec (.clockLoss i) s =
        .next (if i = .aon ∨ i = .sup ∨ i = .mem then resetSource 10 0 0 t else resetSource 9 i.num 0 t) ∧
      t.running i = false ∧ (t.island i).loss = true ∧ ∀ k, k < 12 → (t.gate k i.num).q = [] ∧ (t.gate k i.num).src = []) ∧
    (releasable i s = true → ∃ t, t.running i = true ∧ (∀ k, k < 12 → (t.gate k i.num).fenced = false) ∧
      (i ≠ .cpa → i ≠ .cpb → exec (.islandRelease i) s = .next (marCheckEnd (proceed (onRun i t)))) ∧
      (i = .cpa ∨ i = .cpb →
        (t.bring.taken = false → exec (.islandRelease i) s = .next (proceed t)) ∧
        (t.bring.taken = true → exec (.islandRelease i) s = .next (execIslandRelease.recheckCores i t)))) ∧
    (i ≠ j → s.running j = true → (s.gate i.num j.num).fenced = false →
      let u := s.setGate i.num j.num { q := [], src := [], fenced := true }
      let n := (s.gate i.num j.num).q.length + (s.gate i.num j.num).src.length
      (n ≤ 1 → exec (.handshakeTimeout i j) s = .next ((u.setRegBit (icb j + 3) 1 true).raiseIsl j 0 none)) ∧
      (2 ≤ n → exec (.handshakeTimeout i j) s = .next ((((u.setReg (icb j + 4)
        (w16 (clampN 0 0xFFFF (s.regN (icb j + 4) + (n - 1))))).setRegBit (icb j + 3) 0 true).setRegBit
          (icb j + 3) 1 true).raiseIsl j 0 none))) ∧
    (s.running .mem = true → exec .memService s = .next (memServe { s with memTick := s.memTick + 1 })) ∧
    ∀ q, memNext s = some q → (∀ p ∈ memHeads s, memRank s q ≤ memRank s p) ∧ q ∈ s.memq ∧ (memServe s).memq = s.memq.erase q ∧
      ∀ a v, q.put = some (a, v) → (memServe s).memWord a = v

/-- The reset requests and the steps of bring-up. -/
def Obligations.ResetAndBringUpEvents : Prop :=
  ∀ (s : State) (c : CoreId) (i : OutIsl) (w : Fin 1024) (fixes : Nat) (n : Fin 48) (src : Fin 256),
    (s.resetNLow = false → s.resetNFree + 5 ≤ s.now → s.band ≠ .off →
      exec .resetNRequest s = .next (resetSource 3 0 0 { s with bring := { s.bring with held := true } })) ∧
    exec .resetNRise s = .next { s with bring := { s.bring with held := false } } ∧
    (s.holdStart.isSome = true → exec .holdExpiry s = .next { leaveHold s with holdStart := none }) ∧
    ((s.core (s.lead c)).st = .running → exec (.descriptorTableError c) s = .next (resetSource 6 (s.coreIsland c).num c s)) ∧
    (s.running .sup = true → exec (.supervisorStateError none) s = .next (resetSource 7 0 0 s) ∧
      exec (.supervisorStateError (some src)) s =
        .next (resetSource 7 0 0 (recordFirst src 7 (s.src src).wire (s.src src).res s))) ∧
    (s.running i.island = true → exec (.retirementRecordError i) s = .next (resetSource 8 i.island.num 0 s) ∧
      exec (.calibrationComplete i) s = .next (marCheckEnd ({ s with calib := s.calib.set (fun _ => false) i.island.num true }.setRegBit
        0xA80005 (5 + (match i with | .sw => 0 | .act => 1 | .lux => 2 | .fld => 3)) true))) ∧
    (s.bring.loading = true → s.bring.halted = false → s.running .sup = true →
      (∃ t, exec (.optionLoadComplete none fixes) s = .next t ∧ t.bring.loaded = true ∧ t.bring.loading = false ∧
        t.resetNLow = false ∧ t.resetNFree = s.now ∧ t.otp = s.otp ∧ t.regBit 0xA80004 0 = true ∧
        t.shadow = s.otp.filter fun e => decide (e.1 < 1024) && !(decide (0x100 ≤ e.1) && decide (e.1 < 0x140))) ∧
      ∃ t, exec (.optionLoadComplete (some w) fixes) s = .next t ∧ t.bring.loading = false ∧ t.bring.loaded = s.bring.loaded ∧
        t.resetNLow = s.resetNLow ∧ t.regFld 0xA80004 4 4 = w.val / 64 ∧
        t.regFld 0xA80004 1 2 = (if s.regFld 0xA80004 1 2 < 3 then s.regFld 0xA80004 1 2 + 1 else 3) ∧
        (if t.regFld 0xA80004 1 2 = 3 then t.bring.halted = true else t.bring.retry = true ∧ t.bring.failAt = s.now) ∧
        t.shadow = (s.otp.filter fun e => decide (e.1 < w.val) && !(decide (0x100 ≤ e.1) && decide (e.1 < 0x140))) ++
          s.shadow.filter fun e => decide (w.val ≤ e.1)) ∧
    (s.bring.retry = true → s.bring.halted = false → s.bring.failAt + 100 ≤ s.now → exec .optionLoadRetry s =
      .next { s with bring := { s.bring with retry := false, loading := true } }) ∧
    (s.bring.verifying = true → s.running .sec = true → s.bring.taken = false → payloadOk s (bankInCheck s) = true →
      exec .payloadVerificationComplete s = .next (proceed (imagePassed (setVerified (bankInCheck s) true
        { s with bring := { s.bring with verifying := false } }))) ∧
      ∀ u, (imagePassed u).bring.imgOk = true ∧ (imagePassed u).bring.verifying = false ∧ (imagePassed u).regBit 0xA80005 0 = true) ∧
    (s.bring.filling = true → s.running .mem = true → ∃ t, exec .zeroFillComplete s = .next (proceed t) ∧ t.bring.filling = false ∧
      (∀ a, 0x800000 ≤ a → a < 0x800000 + (if s.bring.retain then 0x7F000 else 0x80000) → t.memWord a = 0) ∧
      ∀ a, 0x880000 ≤ a → a < 0x8C0000 → t.memWord a = 0) ∧
    (s.bring.taken = false → s.running .sup = true →
      exec .referenceFallback s = .next ((s.setRegBit 0xA80005 4 true).level 2 true)) ∧
    (s.regBit 0xA80005 9 = true → exec .marionetteEvaluate s =
      .next (marDrive ((List.range s.marTable.length).foldl (fun t k => marEvalOne s.free k t) s.used.used))) ∧
    (s.running .sup = true → s.running .mem = true → s.bring.taken = false → s.regBit 0xA80005 9 = false →
      s.regBit 0xA80005 10 = false → settingsBusy s (activeGen s) = false →
      ∃ t, exec .marionetteTableRead s = .next t ∧ (t.regBit 0xA80008 6 = true ∨
        t.regBit 0xA80005 9 = true ∧ t.mar = [] ∧ t.marTable.length ≤ 48)) ∧
    ((s.marAt n).active = true →
      let act (k : Nat) : Nat := fld ((s.marTable.getD k []).getD 2 0) 0 4
      (act n = 2 → exec (.marionetteToggle n) s = .next (marDrive (((marGroup s n).filter fun k =>
        (s.marAt k).active && decide (act k = 2)).foldl (fun t k => marFlip (!(s.marAt n).on) k t) s))) ∧
      (act n = 3 → (s.marAt n).on = true → exec (.marionetteToggle n) s = .next (marDrive (marFlip false n s))))

/-- Wake lines, the battery in Park, the RTC tick, supply measurements and the sensor supplies. -/
def Obligations.ParkingAndSensorEvents : Prop :=
  ∀ (s : State) (l : Fin 2) (n : Fin 4) (us at_ : Nat) (va vb vc vd vbus : Word),
    let vs := s.vsen.get (fun _ => Vsen.normal) n.val
    let put (v : Vsen) : State := { s with vsen := s.vsen.set (fun _ => .normal) n.val v }
    (s.running .aon = true → s.regBit 0xA30808 (2 + l) = false → 50 ≤ us →
      exec (.wklWake l us) s = .next (latchCause (1 + l) 0 s)) ∧
    (s.mode = .park ∨ s.mode = .deepPark →
      (s.band ≠ .off → exec .parkVbatLow s = .next (latchCause 9 0 { s with band := .undervoltage, parkLow := true })) ∧
      (s.parkLow = true → exec .parkVbatReturn s = .next (latchCause 8 0 { s with band := .reduced, parkLow := false }))) ∧
    (s.running .aon = true →
      (s.rtcFrac + 1 < 32768 → exec .rtcTick s = .next { s with rtcFrac := s.rtcFrac + 1 }) ∧
      (32768 ≤ s.rtcFrac + 1 →
        let u := pollDay { s with rtcFrac := 0, rtcSec := (s.rtcSec + 1) % 2 ^ 32 }
        ((s.rtcSec + 1) % 2 ^ 32 ≠ s.rtcSec → (s.rtcSec + 1) % 2 ^ 32 = hiLo (s.reg 0xA70114) (s.reg 0xA70113) →
          exec .rtcTick s = .next (latchCause 0 0 u)) ∧
        ((s.rtcSec + 1) % 2 ^ 32 ≠ hiLo (s.reg 0xA70114) (s.reg 0xA70113) → exec .rtcTick s = .next u))) ∧
    (s.mode = .run → s.running .aon = true → ∃ t, exec (.supplyMeasureUpdate va vb vc vd vbus) s = .next t ∧
      t.regList 0xA70106 5 = [va, vb, vc, vd, vbus]) ∧
    exec (.vsenShort n .toBattery true) s = .next ((put (.shorted .toBattery)).level (20 + n) true) ∧
    (vs = .shorted .toBattery →
      exec (.vsenShort n .toBattery false) s = .next ((put (.restarting s.now)).level (20 + n) false)) ∧
    (vs = .normal → exec (.vsenShort n .toGround true) s = .next (put (.shorted .toGround))) ∧
    (vs = .shorted .toGround → exec (.vsenShort n .toGround false) s = .next (put .normal)) ∧
    (vs = .restarting at_ → at_ + 10000 ≤ s.now → exec (.vsenRestart n) s = .next (put .normal))

/-- Checkpoints, mismatches, rollback, takeover, timers and watchdogs of the cores. -/
def Obligations.LockstepTimerAndWatchdogEvents : Prop :=
  ∀ (s : State) (c : CoreId) (n : Fin 2) (x : Replay),
    (pairRuns s c = true → (s.core c).rolling = false → (s.core c).taking = none →
      let u := s.modCore c fun k => { k with ckDue := true }
      (atBoundary (u.core c) = true → checkpointDue u c = true ∧ exec (.checkpoint c) s = .next (takeCheckpoint c u)) ∧
      (atBoundary (u.core c) = false → exec (.checkpoint c) s = .next u) ∧
      exec (.lockstepMismatch c) s = .next (countMismatch c s)) ∧
    ((s.core c).ckBusy = true →
      let u := finishRecord c s
      (u.core c).ckBusy = false ∧
      (pairRuns u c = true → (u.core c).rolling = false → (u.core c).taking = none → (u.core c).excLine = none →
        exec (.checkpointWriteDone c) s = .next (settle c u)) ∧
      (pairRuns u c = true → (u.core c).rolling = false → (u.core c).taking = none → (u.core c).excLine.isSome = true →
        exec (.checkpointWriteDone c) s = .next (excEntry c u)) ∧
      (pairRuns u c = false ∨ (u.core c).rolling = true ∨ (u.core c).taking.isSome = true →
        exec (.checkpointWriteDone c) s = .next u)) ∧
    (pairRuns s c = true → (s.core c).rolling = true →
      exec (.rollbackComplete c .agreed) s = .next (replayAgreed c s) ∧
      exec (.rollbackComplete c .mismatch) s = .next (countMismatch c s) ∧
      exec (.rollbackComplete c .differs) s = .next (retirePair (c / 2) s)) ∧
    (∀ p, p < 4 → (s.core c).taking = some p → ∃ t, exec (.takeoverComplete c x) s = .next (replayEnds c x t) ∧
      (t.core c).st = .running ∧ (t.core c).taking = none ∧ (t.core c).rolling = true ∧ t.mapPair (c / 2) = p ∧
      (t.physPair p).standby = false) ∧
    exec (.mismatchWindowEnd c) s = .next (s.modCore (s.lead c) fun k => { k with mism := 0 }) ∧
    ((if n = 0 then (s.core (s.lead c)).tmr0 else (s.core (s.lead c)).tmr1).isSome = true →
      let b := coreBlock (s.lead c)
      let u := s.raiseLine (s.lead c) (6 + n)
      (s.regBit (b + 0x1C) n = false ∨ s.regN (b + 0x1D + n) = 0 →
        exec (.timerExpiry c n) s = .next (setTimer (s.lead c) n none u)) ∧
      (s.regBit (b + 0x1C) n = true → s.regN (b + 0x1D + n) ≠ 0 →
        exec (.timerExpiry c n) s = .next (setTimer (s.lead c) n (some (s.now + s.regN (b + 0x1D + n))) u))) ∧
    (wdgCounts s (s.lead c) = true →
      ((s.core (s.lead c)).wdgWarned = false → exec (.watchdogWarning c) s =
        .next ((s.modCore (s.lead c) fun k => { k with wdgWarned := true }).raiseLine (s.lead c) 5)) ∧
      exec (.watchdogExpiry c) s = .next (resetSource 4 (s.coreIsland c).num c s))

/-- What a channel's periods, pauses, trips, thermal latch, wire model, governor and diagnosis points do. -/
def Obligations.ChannelLifecycleAndProtection : Prop :=
  ∀ (s : State) (ch p : ChanRef) (i : OutIsl) (side : Side) (x y : Therm) (mean : Int) (n us term at_ : Nat) (k : Fin 4)
    (g : GovInput) (m : Measure), ch.ok = true →
    let c := s.chan ch
    let trip (code : Nat) : Out := .next (countedTrip ch code s)
    (∀ l v r, c.pend = some (l, v, r) → ch.isl ≠ .lux → c.carries = none → isBoundary s ch = true →
      exec (.periodBoundary ch) s = .next (tryStart ch ((applyCommit ch l v r (s.modChan ch fun x => { x with pend := none })).modChan
        ch fun x => { x with atEdge := x.atEdge && decide (s.band = .over) }))) ∧
    (ch.isl ≠ .lux → isBoundary s ch = false → exec (.periodBoundary ch) s = .next s) ∧
    (ch.isl = .lux → exec (.periodBoundary ch) s = .next (luxBoundary ch.idx (periodBoundary ch s))) ∧
    (s.running i.island = true →
      ((s.out i).copy = none → exec (.profileSwap i) s = .next s) ∧
      (∀ a l, (s.out i).copy = some (a, l) →
        let u := (memBurst i.island 0 1024 s).setOut i { s.out i with copy := none, copyBad := false }
        ((s.out i).copyBad = false → exec (.profileSwap i) s = .next (takeCopy i a l u)) ∧
        ((s.out i).copyBad = true → exec (.profileSwap i) s = .next ((u.raiseIsl i.island 1 none).setReg (i.oib + 3)
          (putFld (putBit (u.reg (i.oib + 3)) 1 false) 2 2 3)))) ∧
      (∀ r q, (s.out i).queue = r :: q → (s.out i).half = none → (s.out i).compDue = false → settingsBusyIn s 0 = false →
        exec (.retirementRecordWrite i) s = .next ((programRecord i 0 r s).setOut i { s.out i with queue := q, half := some r }))) ∧
    (c.pauseRun.isSome = true → pauseLeft s c = some 0 → c.reason = 0 →
      let u := s.setChan ch { c.resetEvidence with pause := none, pauseRun := none }
      (ch.isl = .act → exec (.retryPauseEnd ch) s = .next (tryBank (ch.idx / 4) u)) ∧
      (ch.isl ≠ .act → exec (.retryPauseEnd ch) s = .next (tryStart ch u))) ∧
    (wd c.pf 7 ≠ 0 → c.count ≠ 0 → c.reason = 0 → 100000 * (wd c.pf 7).toNat ≤ quietTime s c →
      exec (.forgiveExpiry ch) s = .next (restartQuiet ch (s.setChan ch { c with count := c.count - 1 }))) ∧
    exec (.recurAgeing ch) s = .next (s.modChan ch fun c => { c with recur := recurNow s.now c }) ∧
    exec (.channelStart ch) s = .next (tryStart ch s) ∧
    (s.running ch.isl.island = true → c.tkDue = some at_ → takeoverTime s ch at_ = true → partnerOf ch c.act = some p → p ≠ ch →
      p.idx < 128 → ch.idx < 128 → (s.chan p).reason = 0 → modeOf (s.chan p).act = 0 → (s.chan p).latch = false →
      ∃ t, exec (.partnerTakeover ch) s = .next ((tryStart p t).oibEvent ch.isl 10) ∧ (t.chan p).carries = some ch.idx ∧
        (t.chan p).act = carriedSet c.act ∧ (t.chan ch).carriedBy = some p.idx ∧ (t.chan ch).tkDue = none) ∧
    (ch.isl = .sw → sideOn s ch side = true → (swClass ch.idx).short ≤ n →
      exec (.shortComparatorTrip ch side n) s = trip (match side with | .high => 3 | .low => 4)) ∧
    (ch.isl = .sw → c.on = true → swLimit c ch.idx < n →
      (limitFilter (fld (wd c.pf 0) 0 3) c.win.isSome = none →
        exec (.limitTrip ch n us term) s = .next (s.setChan ch { c with regul := true })) ∧
      ∀ f, limitFilter (fld (wd c.pf 0) 0 3) c.win.isSome = some f →
        (f ≤ us → exec (.limitTrip ch n us term) s = trip (limitCode s ch term)) ∧
        (us < f → exec (.limitTrip ch n us term) s = .next s)) ∧
    (c.win.isSome = true → c.winEnd ≤ s.now →
      (ch.isl = .fld → exec (.inrushWindowEnd ch term) s = .next (s.setChan ch { c with win := none, regul := false })) ∧
      (ch.isl = .sw → fld (wd c.pf 0) 0 3 ≠ 5 → exec (.inrushWindowEnd ch term) s =
        .next (clusterRetries (swCluster ch.idx) (s.setChan ch { c with win := none, regul := false, tlstart := 0 })))) ∧
    (c.latch = false → thermalOver s ch x y = true → exec (.thermalLatchSet (.chan ch) x y) s = .next (latchSet ch y s)) ∧
    (c.latch = true → thermalCool s ch x y = true → exec (.thermalLatchClear (.chan ch) x y) s =
      .next (tryStart ch (refreshQuiet ch (refreshPause ch ((putThermal ch y s).modChan ch fun c => { c with latch := false }))))) ∧
    (ch.isl = .sw →
      let w := if s.regBit (OutIsl.sw.oib + 3) 0 ∨ c.mar.isSome ∨ c.prof ≠ [] then fld (wd c.pf 4) 0 3 else 0
      let t1 : Rat := wireTemp s c + (1 / (((wireConst w).2 * 1000 : Nat) : Rat)) * ((wireAmb s : Rat) +
        50 * ((n : Rat) / 10000) / (((wireConst w).1 * (wireConst w).1 : Nat) : Rat) - wireTemp s c)
      let u := s.setChan ch { c with wireT := some t1 }
      (c.wirelock = false → t1 < (wireLimit c : Rat) → exec (.wireModelUpdate ch n) s = .next u) ∧
      (c.wirelock = true → (wireLimit c : Rat) - 10 < t1 → exec (.wireModelUpdate ch n) s = .next u) ∧
      (c.wirelock = true → t1 ≤ (wireLimit c : Rat) - 10 → c.carriedBy = none → exec (.wireModelUpdate ch n) s =
        .next (tryStart ch (u.modChan ch fun x => { x with wirelock := false }))) ∧
      (c.wirelock = false → (wireLimit c : Rat) ≤ t1 → c.on = true → exec (.wireModelUpdate ch n) s =
        .next (swEvent 3 (some ch.idx) ((countedTrip ch 2 ((u.modChan ch fun x => { x with wirelock := true }).diag ch 8)).raise
          86 (some ch.idx))))) ∧
    (ch.isl = .sw → 64 ≤ ch.idx → c.on = true →
      (c.win = none → wd c.pf 14 ≠ 0 → bit (wd c.act 0x0A) 7 = false → c.stall = false → (wd c.pf 14).toNat ≤ n →
        fld (wd c.pf 15) 0 8 ≤ us → fld (wd c.pf 15) 8 2 = 0 →
        exec (.stallDetect ch n us) s = .next (swEvent 0 (some ch.idx) (s.setChan ch { c with stall := true }))) ∧
      ∀ d, c.duty = some d → modeOf c.set = 3 → isBoundary s ch = true → wd c.set 0x0E ≠ 0 →
        exec (.hbRegulationPeriod ch mean) s =
          .next (s.setChan ch { c with duty := some (clampI 0 (dutyOf c.set) ((d : Int) +
            ((((wd c.set 0x0E).toNat : Int) - mean) * 1024).tdiv ((wd c.set 0x0E).toNat : Int))).toNat })) ∧
    (s.running .sw = true →
      (∃ t, exec (.governorEvaluation g) s = .next (waitReports (admitWaiting 77 t)) ∧
        t.sw.pnow = ((g.pSw + (g.pAct + g.pLux) + 250) :: s.sw.pnow).take 100) ∧
      ∃ t, exec (.sectionCurrentUpdate k n) s = .next t ∧ t.reg (0xA0F024 + k) = w16 n ∧
        t.sw.means.get (fun _ => []) k = (n :: s.sw.means.get (fun _ => []) k).take 10000) ∧
    (ch.isl = .sw → ∃ t, exec (.currentMeasurement ch m) s = .next t ∧ t.reg (ch.port 0x13) = wordOfInt m.tj ∧
      t.reg (ch.port 0x14) = wordOfInt (m.tj - m.tcase) ∧ t.reg (ch.port 0x1D) = w16 m.pdiss ∧
      (c.on = true → m.kind = .onState → pwmSet ch c.set = false → 40 ≤ s.now - c.onAt →
        t.reg (ch.port 0x12) = wordOfInt (swReading ch.idx m.i))) ∧
    (ch.isl = .sw → offChecks s ch = true →
      let u := s.modChan ch fun x => { x with offAt := some s.now }
      (450 ≤ n → exec (.offStateCheck ch n none) s = .next (u.modChan ch fun x => { x with shbDue := some s.now })) ∧
      (n < 450 → exec (.offStateCheck ch n none) s = .next (evidence ch (decide (n ≤ (wd (u.chan ch).pf 10).toNat)) u))) ∧
    (c.shbDue = some at_ → at_ + 1000 ≤ s.now → 450 ≤ n → exec (.shortBatConfirm ch n none) s = .next ((s.setChan ch { c with
      shbDue := none, evid := satInc 127 c.evid, okRun := 0, openRun := none, outcome := some 4 }).diag ch 5)) ∧
    (c.openRun = some at_ → c.reason = 0 → at_ + 1000 * (wd c.pf 11).toNat ≤ s.now → bit (wd c.pf 12) 2 = false →
      exec (.openConfirm ch) s = .next ((s.setChan ch { c with outcome := some 1 }).diag ch 6))

/-- What the peak, pulse, bank and boost events of the valve drive do. -/
def Obligations.ValveAndBoostEvents : Prop :=
  ∀ (s : State) (n : Fin 16) (k : Fin 4) (x y : Therm) (drawn vbst node i v us at_ : Nat),
    let m := boostMeasure vbst s
    let b := (vl n).port 0x1E
    let c := m.chan (vl n)
    let ended := endPeak n drawn m
    (s.running .act = true → exec (.peakStart n vbst) s = .next (actSchedule n m)) ∧
    ((m.valve n).ph = .peak →
      ((m.valve n).firing = true → (m.valve n).at_ + pulseUs c ≤ m.now →
        exec (.peakEnd n .pulse drawn vbst) s = .next (afterPeak (endPulse n (ended.setRegBit b 8 false)))) ∧
      (c.winEnd ≤ m.now →
        (i < (wd c.pf 9).toNat → exec (.peakEnd n (.tmax i) drawn vbst) s =
          .next (afterPeak (evidence (vl n) false (ended.setRegBit b 8 true)))) ∧
        ((wd c.pf 9).toNat ≤ i → exec (.peakEnd n (.tmax i) drawn vbst) s =
          .next (afterPeak (ended.setRegBit b 8 true)))) ∧
      (iPeak c ≤ i →
        let u := (ended.setRegFld b 0 8 (Nat.min ((m.now - (m.valve n).at_) / 10) 255)).setRegBit b 8 false
        (fld (wd c.pf 14) 0 8 ≤ m.now - (m.valve n).at_ → exec (.peakEnd n (.reached i) drawn vbst) s =
          .next (afterPeak (evidence (vl n) true u))) ∧
        (m.now - (m.valve n).at_ < fld (wd c.pf 14) 0 8 → exec (.peakEnd n (.reached i) drawn vbst) s =
          .next (afterPeak (valveTrip n 4 u))))) ∧
    ((m.valve n).firing = true → (m.valve n).at_ + pulseUs c ≤ m.now → (m.valve n).ph ≠ .peak →
      exec (.pulseEnd n vbst) s = .next (endPulse n m)) ∧
    ((s.valve n).ph = .quench → i < 50 →
      exec (.turnOffEnd n i) s = .next (actTry n (s.modValve n fun v => { v with ph := .off, path := .none }))) ∧
    ((s.valve n).due = some at_ → at_ + delayUs (s.chan (vl n)) ≤ s.now →
      exec (.peakAbandon n) s = .next (actEvent 0 (some n) none (((((s.modValve n fun v =>
        { v with due := none, gaveUp := true, pulse := false }).modBank (n.val / 4) fun b => { b with probe := none }).modChan (vl n)
          fun c => { c with retry := false }).setRegBit b 9 true).raise 121 (some n)))) ∧
    exec (.boostUnder vbst) s = .next m ∧ exec (.boostUnderClear vbst) s = .next m ∧
    (m.boostLow = some at_ → at_ + 100000 ≤ m.now → m.regBit 0xA1F004 4 = false →
      exec (.boostFault vbst) s = .next (actEvent 2 none none ((m.setRegBit 0xA1F004 4 true).level 119 true))) ∧
    (v < 100 → 5 ≤ us → (s.valve n).low = false → (s.valve n).lowAt + 5 ≤ s.now → rail s (n.val / 4) ≠ 0 →
      (s.chan (vl n)).reason = 0 → (s.chan (vl n)).prof ≠ [] →
      exec (.vlShortGndTrip n v us) s = .next (valveTrip n 3 s)) ∧
    (rail s k ≠ 0 → 4000 ≤ i → 100 ≤ v →
      let w := ((bankOff k s).bank k).bretry + 1
      exec (.railShortTrip k i v) s = .next (newLock k (decide (lockWhy s k ≠ 0)) ((bankOff k s).modBank k fun b => { b with
        bretry := w, quiet := 0, probe := none, lock2 := decide (3 < w),
        retryAt := if w ≤ 3 then some (s.now + 10000 * 2 ^ (w - 1)) else none }))) ∧
    ((s.bank k).retryAt = some at_ → at_ ≤ s.now →
      exec (.railRetry k) s = .next (tryBank k (s.modBank k fun b => { b with retryAt := none }))) ∧
    (rail s k = 0 → ((bankValves k).any fun v => bit (wd (s.chan (vl v)).pf 12) 0) = true →
      exec (.bankOffCheck k node) s = .next (s.modBank k fun b => { b with nodeLow := decide (node < 100) })) ∧
    ((s.bank k).hot = false → actHot x y = true → exec (.thermalLatchSet (.bank k) x y) s =
      .next (actEvent 3 none none ((bankOff k (s.modBank k fun b => { b with hot := true, probe := none })).raiseIsl .act 5 none))) ∧
    ((s.bank k).hot = true → actCool x y = true → exec (.thermalLatchClear (.bank k) x y) s =
      .next (tryBank k (s.modBank k fun b => { b with hot := false })))

/-- What the matrix, lamp, switch-input and isolated-field events do. -/
def Obligations.LightAndFieldEvents : Prop :=
  ∀ (s : State) (row : Fin 12) (n : Fin 48) (m : Fin 96) (k : Fin 64) (v ratio : Word) (ohm us cur : Nat) (td : Int)
    (raw on rise : Bool) (bits : BitVec 48) (path : Fin 2),
    let took := if (siSample n raw s).2 && (siSample n raw s).1.regBit (0xA702A1 + n / 16) (n % 16)
      then latchCause 6 n (siSample n raw s).1 else (siSample n raw s).1
    (matrixRuns s = true →
      (s.lux.live = false → exec .frameStart s = .next (frameStart s)) ∧
      ((mxCfg s).sync = false ∨ s.lux.syncLost = true → s.lux.frameAt + (mxCfg s).per ≤ s.now →
        exec .frameStart s = .next (frameStart s))) ∧
    (matrixRuns s = true → s.lux.live = true → row.val < (mxCfg s).rows → slotOpens s row = true →
      (s.chan (lx (96 + row))).on = false → ∃ t, exec (.rowSlot row [] []) s = .next t ∧ t.lux.slot = some (row.val, []) ∧
        t.lux.measured = s.lux.measured ∧ t.lux.sound = s.lux.sound) ∧
    (∀ a copy, s.lux.load = some (a, copy) → s.lux.loadBad = false → ∃ t, exec .frameLoadComplete s = .next t ∧ t.lux.load = none ∧
      t.lux.loadBad = false ∧ t.lux.lerr = false) ∧
    (matrixRuns s = true → (mxCfg s).sync = true →
      (rise ≠ (mxCfg s).edge → s.lux.live = true → 10 * (s.now - s.lux.frameAt) < 9 * (mxCfg s).per →
        exec (.lxsyncEdge rise) s = .next (s.setRegFld 0xA2F00B 0 8 (satInc 255 (s.regFld 0xA2F00B 0 8)))) ∧
      (rise ≠ (mxCfg s).edge → s.lux.live = false ∨ 9 * (mxCfg s).per ≤ 10 * (s.now - s.lux.frameAt) →
        exec (.lxsyncEdge rise) s =
          .next (frameStart ({ s with lux := { s.lux with misses := 0, syncLost := false } }.level 134 false))) ∧
      (s.lux.live = true → s.lux.syncLost = false → 11 * (mxCfg s).per ≤ 10 * (s.now - s.lux.frameAt) → s.lux.misses < 7 →
        exec .lxsyncMiss s = .next (frameStart (let u := s.setRegFld 0xA2F00B 8 8 (satInc 255 (s.regFld 0xA2F00B 8 8))
          { u with lux := { u.lux with misses := u.lux.misses + 1, syncLost := false } }))) ∧
      (s.lux.live = true → s.lux.syncLost = false → 11 * (mxCfg s).per ≤ 10 * (s.now - s.lux.frameAt) → 7 ≤ s.lux.misses →
        exec .lxsyncMiss s = .next (frameStart (luxEvent 1 none
          (let u := s.setRegFld 0xA2F00B 8 8 (satInc 255 (s.regFld 0xA2F00B 8 8))
           { u with lux := { u.lux with misses := u.lux.misses + 1, syncLost := true } }.level 134 true))))) ∧
    (s.running .lux = true →
      (s.lux.calBusy = true → settingsBusyIn s (activeGen s) = false → exec .calibrationSwap s = .next (calSwap (activeGen s) s)) ∧
      (∃ t, exec (.lampEvaluationTick td) s = .next t ∧ t.reg 0xA2F016 = wordOfInt td) ∧
      ∀ l r, leaderOf s k = some l → evalLamp s k l = some r → (s.lamp k).evaluating = true →
        ∃ t, exec (.lampEvaluationDone k) s = .next (gcSettle t) ∧ (t.lamp k).ready = some r ∧ (t.lamp k).evaluating = false ∧
          (t.lamp k).flags = r.flags) ∧
    ((s.chan (lx m)).on = true → fld (wd (s.chan (lx m)).pf 15) 8 8 ≠ 0 → 25 * fld (wd (s.chan (lx m)).pf 15) 8 8 ≤ ohm → 50 ≤ us →
      exec (.lsShortTrip m ohm us) s = .next (countedTrip (lx m) 4 s)) ∧
    (s.mode = .run → s.running .aon = true → tickNow s .si n = true → exec (.inputFilterTick .si n raw cur) s = .next took) ∧
    (fieldPowered s = true → n.val < 32 → tickNow s .fi n = true →
      exec (.inputFilterTick .fi n raw cur) s = .next (fiSample n raw cur s)) ∧
    (s.running .aon = true →
      (s.regFld (0xA70200 + n) 4 2 ≤ 1 → exec (.siConversion n v ratio ohm) s =
        .next ((s.setReg (0xA70260 + n) v).setRegBit (0xA70230 + n) 3 false)) ∧
      (s.regFld (0xA70200 + n) 4 2 = 2 → exec (.siConversion n v ratio ohm) s =
        .next ((s.setReg (0xA70260 + n) (w16 (Nat.min ratio.toNat 5000))).setRegBit (0xA70230 + n) 3 false)) ∧
      (s.regFld (0xA70200 + n) 4 2 = 3 → 400000 < ohm ∨ ohm < 20 → exec (.siConversion n v ratio ohm) s =
        .next ((s.setReg (0xA70260 + n) 0x8000#16).setRegBit (0xA70230 + n) 3 true))) ∧
    exec (.vsnsLimit on) s = .next (({ s with vsnsLim := on }.setRegBit 0xA702AB 0 on).level 19 on) ∧
    (s.mode = .park ∨ s.mode = .deepPark → s.regBit 0xA702A7 0 = true → exec (.cyclicSensePulse bits) s =
      .next ((List.range 48).foldl (fun t j => if t.regBit (0xA702A1 + j / 16) (j % 16) && decide (t.regFld (0xA70200 + j) 4 2 ≤ 1)
        then (if (siSample j (bits.getLsbD j) t).2 then latchCause 6 j (siSample j (bits.getLsbD j) t).1
          else (siSample j (bits.getLsbD j) t).1) else t) s)) ∧
    (s.fieldRec.pathA = false → s.fieldRec.pathB = false → ∃ t, exec (.barrierPathFail path true) s = .next t ∧
      (t.src 152).lvl = true ∧ t.fieldRec.pathA = decide (path = 0) ∧ t.fieldRec.pathB = decide (path = 1) ∧ t.chans = s.chans) ∧
    (s.fieldRec.unpowered = false → exec .fieldPowerLoss s = .next (fieldPowerLoss s)) ∧
    (s.fieldRec.unpowered = true → exec .fieldPowerUp s =
      .next (fieldUp { s with fieldRec := { s.fieldRec with unpowered := false } })) ∧
    (fieldPowered s = true →
      exec (.vfldMissingCrossing on) s = .next { s with fieldRec := { s.fieldRec with crossed := on } } ∧
      (s.fieldRec.vfld = .ok → exec (.vfldStateChange .low v) s = .next (fldEvent 2 none
        (OutIsl.fld.chans.foldl (fun t c => if t.chan c = {} then t else followHolds c t)
          (({ s.setReg 0xA5F001 v with fieldRec := { s.fieldRec with vfld := .low, crossed := false } }.level 150 true).level 151 false))))) ∧
    (∀ e q, s.fieldRec.logq = e :: q → ∃ t, exec .inputLogWrite s = .next t ∧ t.fieldRec.logq = q ∧
      t.reg 0xA5F07E = w16 ((s.regN 0xA5F07E % 2 ^ clampN 4 12 (s.regFld 0xA5F07D 1 4) + 1) %
        2 ^ clampN 4 12 (s.regFld 0xA5F07D 1 4)))

/-- What received and sent frames, bus-off, LIN, wake patterns, route swaps and the tatting ring's events do. -/
def Obligations.BusAndRingEvents : Prop :=
  ∀ (s : State) (n : Fin 8) (e : Fin 6) (k : Fin 2) (l : Fin 12) (id : BitVec 6) (f : CanFrame) (g : EthFrame) (rf : RingFrame)
    (up : Bool) (bs : List Byte) (sum : Byte) (us phase : Nat),
    (let u := selectiveWake n f s
     u.running .net = true → portEn u n = true → isolated u n = false → onBus u n = true → inQuiet u 200000 = false →
      (∀ typ x, inRingRange u f = true → n.val ∈ trSeg u → ringFields u f = some (typ, x) →
        exec (.canFrameReceived n (.frame f)) s = .next (ringTake n typ x.src x f (countUp (txr n 5) u))) ∧
      (inRingRange u f = false → f.fd = false → f.brs = false → f.ide = false → f.esi = false → exec (.canFrameReceived n (.frame f)) s =
        .next (routeFrame n f.id false (.can f) (recordHead (countUp (txr n 5) u) n 0 f.data.length f.id ++ wordsOf f.data)
          (countUp (txr n 5) u)))) ∧
    (∀ p ∈ [((fun n f => .joinFrame n f : Fin 8 → RingFrame → Instr), 1), (.leaveFrame, 2), (.tokenFrame, 3), (.ringCommit, 4),
        (.revokeFrame, 5), (.overruleFrame, 6)],
      let c := ringCan s rf.src (ringData p.2 rf.round.toNat rf.next.toNat rf.run.toNat rf.consent rf.subj.toNat)
      let u := selectiveWake n c s
      exec (p.1 n rf) s = .next (canReceive n c s) ∧
      (u.running .net = true → portEn u n = true → isolated u n = false → onBus u n = true → inQuiet u 200000 = false →
        ∀ typ x, inRingRange u c = true → n.val ∈ trSeg u → ringFields u c = some (typ, x) →
          exec (p.1 n rf) s = .next (ringTake n typ x.src x c (countUp (txr n 5) u)))) ∧
    (s.running .net = true → portEn s (8 + e) = true → isolated s (8 + e) = false →
      (g.fcsOk = true → ∀ v, g.tag = some v → exec (.ethFrameReceived e g) s = .next (routeFrame (8 + e) v.toNat false (.eth g.bytes)
        (recordHead (countUp (txr (8 + e) 5) s) (8 + e) 0 g.bytes.length v.toNat ++ wordsOf g.bytes) (countUp (txr (8 + e) 5) s))) ∧
      (g.fcsOk = false → exec (.ethFrameReceived e g) s = .next (s.setRegFld (ethBase e + 0x10) 0 8
        (satInc 0xFF (s.regFld (ethBase e + 0x10) 0 8))))) ∧
    (∀ r q, s.net.rxq.get (fun _ => []) n.val = r :: q →
      let b := 0xA30010 + 4 * n.val
      let slot := if s.regBit (b + 1) 12 then 776 else 40
      let u := { s with net := { s.net with rxq := s.net.rxq.set (fun _ => []) n.val q } }
      ∀ base m, ringOk s b slot = some (base, m) → r.length ≤ slot →
        (s.regN (b + 2) % 2 ^ m + 1) % 2 ^ m ≠ s.regN (b + 3) % 2 ^ m → exec (.receiveRecordWrite n) s =
          .next (netEvent 0 (((memBurst .net n r.length u).storeList (base + s.regN (b + 2) % 2 ^ m * slot) r).setReg (b + 2)
            (w16 ((s.regN (b + 2) % 2 ^ m + 1) % 2 ^ m))))) ∧
    (s.running .net = true → isolated s n = false → isolated s (8 + e) = false →
      (s.net.wake.get (fun _ => none) n.val = none → canSends s n = true → inQuiet s 200000 = false →
        ∀ p : Fin 14, p.val = n.val → exec (.frameTransmitted p true) s = .next (canSent n s)) ∧
      (∀ w, s.net.wake.get (fun _ => none) n.val = some w → ∀ p : Fin 14, p.val = n.val →
        exec (.frameTransmitted p false) s = .next (wakeFailed n s) ∧
        (inQuiet s 200000 = false → exec (.frameTransmitted p true) s = .next (endWake n (countUp (txr n 6)
          (s.send (.can n (wakeBit s n) (wakeBit s n) w)))))) ∧
      (onBus s (8 + e) = true → ∀ p : Fin 14, p.val = 8 + e.val → exec (.frameTransmitted p true) s = .next (ethSent (8 + e) s))) ∧
    (s.net.wake.get (fun _ => none) n.val = none → onBus s n = true → ∃ t, exec (.canBusOff n) s =
      .next ((netEvent 3 t).raise 162 (some n.val)) ∧ t.regFld (canBase n + 6) 0 2 = 2) ∧
    (s.running .net = true → s.regFld (canBase n + 6) 0 2 = 2 → s.regBit (canBase n) 6 = true ∨ n.val ∈ s.net.recov →
      ∃ t, exec (.canBusOffRecovery n) s = .next (if trSeg t = [n.val] ∧ (trState t = 1 ∨ trState t = 2) then sendJoin t else t) ∧
        t.regFld (canBase n + 6) 0 2 = 0 ∧ t.reg (canBase n + 7) = 0 ∧ n.val ∉ t.net.recov) ∧
    (s.running .net = true → s.regBit (linBase l) 0 = true →
      (s.regBit (linBase l) 1 = false → linSync s l us = false →
        exec (.linHeader l id us) s = .next (linFlags l false 64 (linIdle l s))) ∧
      (s.regBit (linBase l) 1 = true ∨ linSync s l us = true → s.regFld (linEntry l id) 0 2 = 2 →
        ∃ t, exec (.linHeader l id us) s = .next (linFlags l true 0 t) ∧ t.net.lin.get (fun _ => none) l.val = some id)) ∧
    (s.net.lin.get (fun _ => none) l.val = some id →
      (sum = linSum (s.regBit (linEntry l id) 2) (linPid id) (bs.take (linLen s l id)) →
        exec (.linResponse l (.data bs sum)) s = .next (linFlags l false 2 ((linIdle l s).setRegList (linBase l + 4)
          (wordsOf (bs.take (linLen s l id)))))) ∧
      (sum ≠ linSum (s.regBit (linEntry l id) 2) (linPid id) (bs.take (linLen s l id)) →
        exec (.linResponse l (.data bs sum)) s = .next (linFlags l false 8 (linIdle l s))) ∧
      exec (.linResponse l .bitError) s = .next (linFlags l false 32 (linIdle l s)) ∧
      exec (.linNoResponse l) s = .next (linFlags l false 16 (linIdle l s))) ∧
    (s.running .aon = true → s.regBit 0xA30803 l = true → 150 ≤ us → exec (.linWake l us) s = .next (latchCause 4 l s)) ∧
    (s.mode ≠ .deepPark → s.running .aon = true → isolated s n = false → s.regBit 0xA30800 n = true →
      exec (.canFrameReceived n .errorOverflow) s = .next (wakeBy 3 (latchOnly 3 n s))) ∧
    (s.mode = .deepPark → s.regBit 0xA30800 n = true → isolated s n = false → s.regFld 0xA30802 0 4 + 1 ≤ phase → us ≤ 1000 →
      exec (.canWakePattern n phase us) s = .next (latchCause 3 n s)) ∧
    (s.mode = .park → s.regBit 0xA30804 k = true → isolated s (8 + k) = false → exec (.tc10Wake k) s = .next (latchCause 5 k s)) ∧
    (onBus s (8 + e) = true → 2 ≤ e.val → exec (.ethLinkChange e up) s = .next ((s.setRegBit (ethBase e + 7) 0 up).setRegBit
      (ethBase e + 7) 4 (up && s.regBit (ethBase e) 1))) ∧
    (s.running .net = true → s.regFld (ethBase k + 7) 1 3 = 2 → exec (.tc10SleepAck k) s =
      .next ((s.setRegFld (ethBase k + 7) 1 3 3).setRegBit (ethBase k + 7) 0 false)) ∧
    (s.regBit 0xA30002 0 = true → ∃ t, exec .routeSwapApply s = .next t ∧ t.regBit 0xA30002 0 = false ∧
      t.net.routes = (s.regs.filter fun x => inBackBank x.1).map fun x => (x.1 - 0xA32000, x.2)) ∧
    (s.net.wklAt.get (fun _ => 0) k.val + 1000 * Nat.max 1 (s.regFld 0xA30807 0 8) ≤ s.now →
      exec (.wklPulseEnd k) s = .next (s.setRegBit 0xA30808 (2 + k) false)) ∧
    (s.running .net = true → trState s = 2 →
      (s.regBit 0xA30049 3 = true → s.net.ring.heldFrom + trPace s ≤ s.now → exec .tokenForward s = .next (forward s)) ∧
      (s.net.ring.lostFrom + trLost s ≤ s.now →
        let u := setTrState 2 s
        u.net.ring.lostFrom + trLost u + 20000 * ringRank u ≤ u.now →
          exec .tokenLost s = .next (forward (modRing (fun r => { r with regen := true, wait := none }) u))) ∧
      ∀ w, s.net.ring.wait = some w → w.since + trPace s + 25000 ≤ s.now →
        (w.again = true → exec .tokenResend s = .next (passOn true w s)) ∧
        (w.again = false → exec .tokenResend s = .next (tokenTimer
          (modRing (fun r => { r with wait := some { w with again := true, since := s.now } }) (sendRing w.bytes s))))) ∧
    (s.running .net = true → trState s = 3 → inQuiet s 201999 = false →
      let u := setTrState 4 (modRing (fun r => { r with quietFrom := none }) s)
      (u.regFld 0xA30040 1 2 = 0 → exec .quietWindowEnd s = .next u) ∧
      ((u.regFld 0xA30040 1 2 = 1 ∨ u.regFld 0xA30040 1 2 = 2) →
        (pwrCtrl (pack [(0, u.regFld 0xA30040 1 2), (8, 0xA5)]) u).mode ≠ .run → exec .quietWindowEnd s =
          .next ((pwrCtrl (pack [(0, u.regFld 0xA30040 1 2), (8, 0xA5)]) u).setRegBit 0xA30049 4 false)))

/-- What session phases, received frames, polling, enrolment, key store, jobs and erasing alarms do. -/
def Obligations.AccessAndCipherEvents : Prop :=
  ∀ (s : State) (a : Fin 8) (q : Fin 5) (bytes : List Byte) (peak : List Nat) (pre i lo at_ : Nat),
    (s.running .sec = true → ∀ x, s.sec.session = some x →
      (x.from_ + phaseUs s x ≤ s.now →
        (x.phase = 1 → exec (.sessionPhaseEnd peak) s = .next (setPhase 2 (framesEnded peak s))) ∧
        (x.phase = 3 → exec (.sessionPhaseEnd peak) s =
          .next (nextResolve (framesEnded peak (modSession (fun y => { y with resolve := y.resolve.tail }) s)))) ∧
        (x.phase = 4 → exec (.sessionPhaseEnd peak) s = .next (endSession s))) ∧
      (s.mode ≠ .park → x.phase = 3 → frameCrcOk bytes 18 = false → frameCrcOk bytes 16 = true →
        exec (.uhfFrameReceived pre true bytes) s = .next (sessionResponse x (respSlot s x pre) bytes s)) ∧
      (x.phase = 1 → x.mask.testBit a = true → 250 ≤ i → exec (.antennaShortTrip a i) s = .next (antennaLevel
        ((markTrip a s).setRegBit 0xA41006 (8 + a) true)))) ∧
    (s.mode = .park → exec (.uhfFrameReceived pre true bytes) s = .next (pollFrame pre true bytes s)) ∧
    (polling s = true → s.poll = none →
      (s.pollAt + pollPer s ≤ s.now → exec .poll s = .next { s.send (.presence false (s.regFld 0xA40802 0 8)) with
        poll := some { spread := false, at_ := s.now }, pollAt := s.now }) ∧
      (s.spreadDue = some at_ → at_ ≤ s.now → exec .spreadPoll s = .next { s.send (.presence true (s.regFld 0xA40802 0 8)) with
        poll := some { spread := true, at_ := s.now }, spreadDue := none })) ∧
    (∀ w, s.poll = some w → pollCloses s w ≤ s.now →
      (w.spread = false → exec .pollWindowEnd s = .next { s with poll := none, spreadDue := w.corrupt.map fun t => t + 20000 }) ∧
      (w.spread = true → w.hit = true → exec .pollWindowEnd s = .next { s with poll := none }) ∧
      (w.spread = true → w.hit = false → exec .pollWindowEnd s =
        .next ({ s with poll := none }.setRegFld 0xA40804 0 8 (satInc 0xFF (s.regFld 0xA40804 0 8))))) ∧
    (s.mode = .park → s.regBit 0xA40800 0 = true → 86400 * pollDays s ≤ parkTime s → ∃ t, exec .pollStop s = .next t ∧
      t.mode = .deepPark ∧ t.poll = none ∧ t.spreadDue = none ∧ t.running .mem = false) ∧
    (∀ r v, s.sec.enr = some (r, v) →
      (v.getLsbD 5 = true → exec (.enrolmentComplete none true lo) s = .next (revoked (fld v 0 5) true s)) ∧
      (v.getLsbD 5 = false → enrolAnswer s (fld v 0 5) bytes = true →
        exec (.enrolmentComplete (some bytes) true lo) s = .next (enrolRecords (fld v 0 5) true (enrFrameEnded lo s))) ∧
      (v.getLsbD 5 = false → enrLate s = true →
        exec (.enrolmentComplete none true lo) s = .next (endEnrol 6 (enrFrameEnded lo s)))) ∧
    (∀ n, revoked n true s = endEnrol 0 (((memBurst .sec 2 2 s).storeWord (tokAt 0 n) 0).storeWord (tokAt 1 n) 0)) ∧
    (∀ n k, nextEnrolment s = some k → ∃ t, enrolRecords n true s = endEnrol 0 (setEnrolled n true t) ∧ (0x180 + k) ∈ t.otpDone) ∧
    (∀ k, s.sec.ks = some k →
      (ksCheck s k = 0 → exec .keyStoreComplete s = .next (let (code, t) := ksWork k (ksAccess k s)
        cipherEvent 1 ({ t with sec := { t.sec with ks := none } }.setReg 0xA4200C (pack [(1, code)])))) ∧
      (ksCheck s k ≠ 0 → ksCheck s k ≠ 9 → exec .keyStoreComplete s =
        .next (cipherEvent 1 ({ s with sec := { s.sec with ks := none } }.setReg 0xA4200C (pack [(1, ksCheck s k)]))))) ∧
    (∀ j rest, s.sec.jobQ = j :: rest → runningJob s = none → ∃ t, exec .jobStart s = .next t ∧ t.sec.jobQ = rest ∧
      (t.job j).run = true ∧ (t.job j).code = jobCheck s (s.job j)) ∧
    (∀ j, runningJob s = some j → 1 ≤ (s.job j).code → (s.job j).code ≤ 4 →
      exec .jobComplete s = .next (jobEnd j (s.job j).code 0 s)) ∧
    (s.running .sec = true →
      exec (.randomHealthFail true) s = .next (abortSession ({ s with sec := { s.sec with
        trnFail := true, ks := s.sec.ks.map fun k : KsCmd => { k with noRandom := true } } }.level 182 true)) ∧
      exec (.randomHealthFail false) s = .next ({ s with sec := { s.sec with trnFail := false } }.level 182 false)) ∧
    (q ≠ 4 ∨ secureActive s = true → exec (.erasingAlarm q) s = .next (eraseAlarm q s)) ∧
    (s.alive = 2 ^ q.val → q ≠ 4 ∨ secureActive s = false → s.running .sec = true →
      exec (.alarmEnd q) s = .next (loadRoot { s with alive := 0 }))

/-- Activation and release of fault sources, wire faults, escalation, the first-fault record and the log ring. -/
def Obligations.SamplerEvents : Prop :=
  ∀ (s : State) (n : Fin 256) (i : Island) (e due sev : Nat) (w : Bool) (res : Option Nat) (rails : List (Bool × Bool))
    (ent : List Word) (rest : List (List Word)),
    let r := s.src n
    (s.checked n = true → r.active = false → (r.lvl = true ∨ r.q ≠ []) →
      exec (.sourceActivation n) s = .next (activate n s)) ∧
    (r.active = true → r.wire = false → (isLevelSource n = true → r.lvl = false) →
      ∃ t, exec (.sourceRelease n) s = .next t ∧ t = release n s ∧ (t.src n).active = false ∧
        t.regBit (0xA81010 + n.val / 16) (n.val % 16) = false) ∧
    (s.checked n = true → r.wire = false → threeSamples true rails = true →
      let u := samplerEvent 1 ((s.setSrc n { r with wire := true }).setRegBit (0xA81030 + n.val / 16) (n.val % 16) true)
      exec (.wireFault n rails) s = .next (if r.active then u else activate n u) ∧ (u.src n).wire = true ∧
        u.regBit (0xA81030 + n.val / 16) (n.val % 16) = true) ∧
    (s.checked n = true → r.wire = true → threeSamples false rails = true →
      let u := s.setSrc n { r with wire := false, timer := if isLevelSource n then r.timer else none }
      ((rails.getLastD (false, true)).1 = true → exec (.wireFaultEnd n rails) s = .next u) ∧
      ((rails.getLastD (false, true)).1 = false → exec (.wireFaultEnd n rails) s = .next (release n u))) ∧
    (s.running i = true → (s.island i).runAt + 1 ≤ s.now →
      exec (.sourceCheckResume i) s = .next (s.setIsland i { s.island i with chk := true })) ∧
    (r.timer = some (e, due) → s.running .sup = true → due ≤ s.now →
      (r.active = true → isLevelSource n = true ∨ r.wire = true →
        exec (.escalation n) s = .next (react n (escSev e) true (s.setSrc n { r with timer := none }))) ∧
      (r.active = false → exec (.escalation n) s = .next (s.setSrc n { r with timer := none }))) ∧
    (winRuns s r = false → exec (.escalationWindowEnd n) s = .next (s.setSrc n { r with win := none })) ∧
    (s.logq = ent :: rest → s.running .sup = true → s.running .mem = true → logInside s = true → ent.length = 4 →
      let size := 2 ^ clampN 4 12 (s.regFld 0xA81001 8 4)
      let wp := s.regN 0xA81003 % size
      ∃ t, exec .samplerLogWrite s = .next t ∧ t.logq = rest ∧ t.reg 0xA81003 = w16 ((wp + 1) % size) ∧
        t.memList (s.regN 0xA81000 + 65536 * s.regFld 0xA81001 0 8 + 4 * wp) 4 = ent) ∧
    (s.regBit 0xA70300 15 = true → recordFirst n sev w res s = s) ∧
    (s.regBit 0xA70300 15 = false → let t := recordFirst n sev w res s
      t.reg 0xA70300 = pack [(0, n.val), (8, sev)] ||| packBits [(11, w), (15, true)] ∧
      t.reg 0xA70301 = pack [(0, (res.getD 0) % 128)] ||| packBits [(7, res.isSome)] ∧ t.reg 0xA70302 = w16 s.rtcSec)

/-- Bobbin link: ports, arriving requests and the answers to requests sent. -/
def Obligations.LinkPortAndRequestEvents : Prop :=
  ∀ (s : State) (p : Fin 4) (lw : Word) (st : Stitch) (off : Bool) (q : LReq) (c k own : Nat) (tag : Byte),
    (mayTrain s p = true → trainsIn s p = (if off then 2 else 1) → exec (.portTrained p off) s =
      .next (sendHello p ((s.setLport p { s.lport p with trained := true }).setRegBit (pstat p) 1 off))) ∧
    (mayTrain s p = true → (s.regFld (pcfg p) 1 2 = 0 ∨ s.regFld (pcfg p) 1 2 = 3) → (s.lport p).trainFrom + 100 ≤ s.now →
      exec (.portTrainTimeout p) s = .next (s.setLport p { s.lport p with tryOff := true })) ∧
    (portUp s p = true →
      (let r := s.lport p
       let u := (s.setLport p { r with rounds := r.rounds + 1, ackAt := s.now }).setRegFld (pcfg p + 2) 8 8
        (satInc 0xFF (s.regFld (pcfg p + 2) 8 8))
       r.unacked ≠ [] → r.ackAt + 1 ≤ s.now →
        (8 ≤ r.rounds + 1 → exec (.linkResend p) s = .next (portFalls p u)) ∧
        (r.rounds + 1 < 8 → exec (.linkResend p) s = .next (r.unacked.foldl (fun t e => putLine p e.1 e.2 t) u))) ∧
      exec (.portDown p) s = .next (portFalls p s) ∧
      exec (.stitchCrcDiscard p) s =
        .next ((s.setRegFld (pcfg p + 2) 0 8 (satInc 0xFF (s.regFld (pcfg p + 2) 0 8))).raise 195 (some p.val))) ∧
    (s.running .lnk = true → s.regBit (pcfg p) 0 = true → portUp s p = false → s.lnk.since + 1000 ≤ s.now →
      exec (.portDownReport p) s =
        .next (portSource { s with lnk := { s.lnk with down := p.val :: s.lnk.down.filter (· ≠ p.val) } })) ∧
    (s.running .lnk = true → (s.lport p).trained = true →
      let u := takeAck p (fld lw 4 4) s
      let v := takeNext p (fld lw 0 4) st u
      (fld lw 0 4 ≠ ((u.lport p).rxSeq + 1) % 16 → exec (.stitchArrival p lw st) s = .next u) ∧
      (fld lw 0 4 = ((u.lport p).rxSeq + 1) % 16 → portUp v p = true → knownType st.type.toNat = true → st.type ≠ 0xB →
        ownId v = some own →
        (st.bc = true ∨ st.dest.toNat = own → exec (.stitchArrival p lw st) s = deliver p st v) ∧
        (st.bc = true ∨ st.dest.toNat = own → st.type = 1 ∨ st.type = 2 ∨ st.type = 5 ∨ st.type = 9 →
          exec (.stitchArrival p lw st) s = .next (inbound p st v)) ∧
        (st.bc = false → st.dest.toNat ≠ own → exec (.stitchArrival p lw st) s = .next (forwardOn p st v)))) ∧
    (forUs s st = true → cameIn s p st = true →
      (st.type = 1 → exec (.readStitch p st) s = .next (inbound p st s)) ∧ (st.type = 2 → exec (.writeStitch p st) s = .next (inbound p st s)) ∧
      (st.type = 5 → exec (.chcmd p st) s = .next (inbound p st s)) ∧ (st.type = 9 → exec (.resetStitch p st) s = .next (inbound p st s)) ∧
      (st.type = 7 → st.bc = false → exec (.mail p st) s = .next (inbound p st s)) ∧
      (st.type = 7 → st.bc = true → exec (.mail p st) s = .next (broadcastMail p st s))) ∧
    (mustWait s st = false → (∀ e ∈ s.lnk.waitq, e.1 ≠ p.val) → inbound p st s = serveRequest p st s) ∧
    (st.bc = false → malformed st = true → (st.type = 1 ∨ st.type = 2 ∨ st.type = 5 ∨ st.type = 7 ∨ st.type = 9) →
      mustWait s st = false ∧ serveRequest p st s = answerError 7 st s) ∧
    (forUs s st = true → openRequest s st = some q →
      (st.type = 3 → q.kind = .load c → exec (.rdata st) s = .next (loadAnswer c q.tag 0 (st.payload.getD 0 0) (requestDone q s))) ∧
      (st.type = 4 → q.kind = .store k → exec (.wack st) s = .next (requestDone q s)) ∧
      (st.type = 6 → q.kind = .chan → exec (.chack st) s =
        .next (linkEvent 3 (((requestDone q s).setReg 0xA6008B (pack [(1, st.status.toNat)])).setRegList 0xA6008C
          [st.payload.getD 0 0, st.payload.getD 1 0, st.payload.getD 2 0]))) ∧
      (st.type = 8 → q.kind = .mail → exec (.mack st) s =
        .next (linkEvent 3 ((requestDone q s).setReg 0xA6007A (pack [(1, st.status.toNat)])))) ∧
      (st.type = 0xA → exec (.errorStitch st) s = .next (requestFails q st.status.toNat s))) ∧
    (s.running .lnk = true → (s.lnk.reqs.find? fun e => decide (e.tag = tag.toNat) && decide (e.due ≤ s.now)) = some q →
      exec (.remoteTimeout tag) s = .next (requestFails q 8 s)) ∧
    (q.kind = .store k → requestFails q 8 s = linkEvent 4 ((requestDone q s).regInc (0xA60043 + 4 * k)))

/-- Bobbin link: HELLO, LINKS, negotiated IDs and the end of discovery. -/
def Obligations.LinkDiscoveryEvents : Prop :=
  ∀ (s : State) (p : Fin 4) (st : Stitch),
    (discHere s p 1 st = true →
      (st.payload.getD 5 0 = sysId s → portUp s p = false → ∃ t, exec (.hello p st) s = .next (linkEvent 1 t) ∧
        t.regBit (pstat p) 0 = true ∧ t.regFld (pstat p) 4 9 = fld (st.payload.getD 6 0) 0 9 ∧
        t.regBit (pstat p) 13 = bit (st.payload.getD 6 0) 15 ∧ t.regFld (pstat p) 14 2 = fld (st.payload.getD 1 0) 0 2 ∧
        t.lnk.topoAt = some s.now) ∧
      (st.payload.getD 5 0 ≠ sysId s → ∃ t, exec (.hello p st) s = .next t ∧ t.regBit (pstat p) 3 = true ∧
        t.regBit (pstat p) 0 = false)) ∧
    (discHere s p 2 st = true → heard s st = false →
      let u := refloods p st (noteFlood st s)
      let serial := hiLo (st.payload.getD 7 0) (st.payload.getD 6 0)
      heard u st = true ∧
      (ownId s = some st.src.toNat → (serial < (Config.serial >>> 16).toNat → ∃ t, exec (.linksDisc p st) s = .next (withdrawId t)) ∧
        ((Config.serial >>> 16).toNat ≤ serial → exec (.linksDisc p st) s = .next u)) ∧
      (ownId s ≠ some st.src.toNat → (∀ l ∈ s.lnk.devs, l.id ≠ st.src.toNat) → ∃ t, exec (.linksDisc p st) s = .next t ∧
        ∃ l ∈ t.lnk.devs, l.id = st.src.toNat ∧ l.serial = serial)) ∧
    (discHere s p 3 st = true → heard s st = false → s.lnk.allocating = false → ∃ t, exec (.negreq p st) s = .next t ∧
      discSerial st ∈ t.lnk.negs ∧ heard t st = true) ∧
    (discHere s p 4 st = true → heard s st = false →
      (discSerial st ≠ Config.serial.toNat → ∃ t, exec (.neggrant p st) s = .next t ∧ heard t st = true ∧
        (discSerial st, fld (st.payload.getD 5 0) 0 9) ∈ t.lnk.given) ∧
      (discSerial st = Config.serial.toNat → idSource s = 2 → ownId s = none → ∃ t, exec (.neggrant p st) s = .next t ∧
        t.reg 0xA60000 = pack [(0, fld (st.payload.getD 5 0) 0 9), (9, 2), (11, 1)])) ∧
    (negotiating s = true → s.lnk.negAt = none ∨ timePassed s s.lnk.negAt 1000 = true →
      exec .negreqTimer s = .next (sendNegreq { s with lnk := { s.lnk with negAt := some s.now } })) ∧
    (negotiating s = true → s.lnk.since + 20000 ≤ s.now → exec .negFail s = .next (s.setRegBit 0xA60005 2 true)) ∧
    (s.running .lnk = true → isAllocator s = true → timePassed s s.lnk.upAt 2000 = true → s.lnk.allocating = false →
      exec .negAllocate s = .next (grantHeard { s with lnk := { s.lnk with allocating := true } })) ∧
    (s.running .lnk = true → timePassed s s.lnk.topoAt 1000 = true → ∃ t, t.regBit 0xA60005 0 = true ∧ t.lnk.topoAt = none ∧
      t.regFld 0xA60005 8 8 = (s.regFld 0xA60005 8 8 + 1) % 256 ∧
      (s.running .sup = false → exec .discoveryDone s = .next (linkEvent 2 t)) ∧
      (s.running .sup = true → exec .discoveryDone s = .next (sendWaiting (linkEvent 2 t))))

/-- Flash completion, PREPARE and the activation stitches of an update. -/
def Obligations.UpdateAndFlashEvents : Prop :=
  ∀ (s : State) (u : UpdMsg) (o : FlashOp) (at_ : Nat),
    (s.flashOp = some o →
      exec (.flashComplete true) s = .next ((advanceFill o (flashApply o { s with flashOp := none })).setReg 0xA90006 0) ∧
      ∃ t, exec (.flashComplete false) s = .next t ∧ t.reg 0xA90006 = pack [(1, 9)] ∧ t.flashOp = none) ∧
    (s.upd.preparing = true →
      (∃ t, exec (.prepareComplete true) s = .next (partDone 0 (journalPut 1 (activeBank s) (activeGen s) s.upd.mref t)) ∧
        t.upd.preparing = false ∧ t.updAon.voted = false) ∧
      ∃ t, exec (.prepareComplete false) s = .next (partDone 13 t) ∧ t.upd.preparing = false) ∧
    (s.running .sup = true → s.upd.held = [] → updBusy s = false → u.mref.toNat = s.upd.mref →
      let reply (sub arg : Nat) (t : State) : Out := .next (sendUpd sub arg u.src.toNat u.mref.toNat t)
      exec (.updQuery u) s = reply 11 (stateArg s s.upd.mref) s ∧
      (s.upd.phase = 1 → exec (.updPrepare u) s = reply 2 0 (giveVote s) ∧ exec (.updAbort u) s = reply 8 0 (abortNow s) ∧
        (preparedOver s = false → exec (.updCommit u) s = .next (commitNow u s))) ∧
      (s.upd.phase ≠ 1 → exec (.updPrepare u) s = reply 2 1 s) ∧
      (s.upd.phase = 3 → exec (.updConfirm u) s = reply 8 0 (confirmNow s)) ∧
      (s.upd.phase = 2 ∨ s.upd.phase = 3 → exec (.updRevert u) s = .next (resetSoon (sendUpd 8 0 u.src.toNat u.mref.toNat
        (let t := revertRecord s; { t with upd := { t.upd with wait := [] } })))) ∧
      (coordinates s = true → u.src.toNat ∈ manifestDevs s →
        (s.upd.step = 1 → (u.arg ≠ 0 → exec (.updVote u) s = .next (decideRevert s)) ∧ exec (.updState u) s = .next (decideRevert s) ∧
          (u.arg = 0 → let t := { s with upd := { s.upd with acks := addDev u.src.toNat s.upd.acks } }
            exec (.updVote u) s = .next (if unanswered t = [] then decideStep 8 t else t))) ∧
        (s.upd.dec ≠ 3 → exec (.updFailed u) s = .next (decideRevert s)) ∧
        (s.upd.dec = 1 → let t := { s with upd := { s.upd with healthy := addDev u.src.toNat s.upd.healthy } }
          exec (.updHealthy u) s = .next (if (manifestDevs t).all (t.upd.healthy.contains ·) then decideStep 9 t else t)) ∧
        (s.upd.step = 2 ∨ s.upd.step = 4 → let t := { s with upd := { s.upd with acks := addDev u.src.toNat s.upd.acks } }
          exec (.updAck u) s = .next (if unanswered t ≠ [] then t
            else { t with upd := { t.upd with step := if t.upd.step = 2 ∧ t.upd.dec = 1 then 3 else 0, acks := [] } })))) ∧
    (s.running .sup = true → s.upd.sentAt + 10000 ≤ s.now →
      let v := { s with upd := { s.upd with sentAt := s.now } }
      (s.upd.step = 0 → exec .updResend s = .next (sendWaiting v)) ∧
      (coordinates v = true → s.upd.step = 1 → exec .updResend s = .next (sendWaiting (sendUpdAll 1 (unanswered v) v)))) ∧
    (s.running .sup = true → updBusy s = false →
      (s.upd.step = 1 → s.upd.stepAt + prepTime s * 1000000 ≤ s.now → exec .voteTimeout s = .next (decideRevert s)) ∧
      (s.upd.dec = 1 → coordinates s = true → healthOver s = true → exec .healthDeadline s = .next (decideRevert s)) ∧
      (preparedOver s = true → exec .preparedTimeout s = .next (abortNow s)) ∧
      (s.upd.phase = 2 → windowOf s * 1000000 ≤ runTime s s.updAon.ran s.updAon.since → exec .windowExpiry s =
        .next (updReset (let t := revertRecord s; { t with updAon := { t.updAon with expired := true } })))) ∧
    (let v := watchCoord s
     s.running .sup = true → orphaned v = true → v.upd.lostAt = some at_ → at_ + orphanTime v * 1000000 ≤ s.now →
      v.upd.queryAt = none → exec .orphanQuery s = .next
        (let w := { v with upd := { v.upd with orphan := true, queryAt := some s.now } }
         sendUpdAll 10 ((manifestDevs w).filter fun d => decide (ownId v ≠ some d)) w))
end

