-- ==== Sys2Proof/Laws/Arrive.lean ====
section
/-! SUPPORT. What a register access and an instruction come to, where they reach their island or execute: cited instead of
unfolding how they travel. -/

namespace Sys2Proof.Machine

/-- A write that arrives is applied by its island, after what its requester sent before (R24, R25, R27, R30). -/
theorem accessWrite_arrives {r : Requester} {i : Island} {a : Nat} {v : Word} {s t : State} (h : Arrives r i s t)
    (hw : windowIsland a = some i) : accessWrite r a v s = busWrite (asRequester t r) a v t := by
  obtain ⟨h1, rfl, h3, h4⟩ := h
  simp only [accessWrite, hw, h1, h3, h4, Bool.not_true, Bool.false_eq_true, if_false, if_true]

/-- A read that arrives leaves what the island's read leaves (R25). -/
theorem accessRead_arrives {r : Requester} {i : Island} {a : Nat} {s t : State} (h : Arrives r i s t)
    (hw : windowIsland a = some i) : accessRead r a s = (busRead a t).2 := by
  obtain ⟨h1, rfl, h3, h4⟩ := h
  simp only [accessRead, hw, h1, h3, h4, Bool.not_true, Bool.false_eq_true, if_false, if_true, Bool.and_self]

/-- An instruction that executes comes to what its effect comes to (R167). -/
theorem issue_issues {c : CoreId} {len : Nat} {legal : Bool} {s : State} (h : Issues c len legal s) (body : State → Res Unit) :
    issue c len legal s body = .next (match body (issued c len s) with
      | .ok _ s1 => retired c s1
      | .exc e => takeExc c e (s.modCore c fun k => { k with inhibit := false })
      | .wait s1 => waits c s1 s) := by
  obtain ⟨h1, h2, rfl, h4⟩ := h
  simp only [issue, execute, h1, h2, h4, Bool.not_true, Bool.false_eq_true, if_false, if_true]
  rfl

/-- A class S instruction whose effect is on the registers alone, its operand read. -/
theorem sourceOp_issues {c : CoreId} {o : Opnd} {s s1 : State} {v : Word} (h : Issues c (o.len .src) (o.legal .src) s)
    (hs : source c o (issued c (o.len .src) s) = .ok v s1) (f : Word → Regs → Regs) :
    sourceOp c o s f = .next (retired c (s1.modR c (f v))) := by
  simp only [sourceOp, issueOp, issue_issues h, hs, Res.bind, regs]

/-- A store, its address formed and checked. -/
theorem storeOp_issues {c : CoreId} {o : Opnd} {s s1 : State} {fr : Nat} {off : Word} {a : Nat}
    (h : Issues c (o.len .dst) (o.legal .dst) s) (he : effective c o (issued c (o.len .dst) s) = .ok (fr, off) s1)
    (ha : address s1 c fr off { w := true } = .ok a) (f : Regs → Word) :
    storeOp c o s f = .next (retired c (storeAt c a (f ((issued c (o.len .dst) s).r c)) s1)) := by
  simp only [storeOp, issueOp, issue_issues h, he, Res.bind, store, storeOk, ha]

/-- A read-modify-write, its address formed and checked, its word read. -/
theorem modifyOp_issues {c : CoreId} {o : Opnd} {s s1 s2 : State} {fr : Nat} {off m : Word} {a b : Nat}
    (h : Issues c (o.len .dst) (o.legal .dst) s) (he : effective c o (issued c (o.len .dst) s) = .ok (fr, off) s1)
    (hr : address s1 c fr off { r := true } = .ok b) (hw : address s1 c fr off { w := true } = .ok a)
    (hl : load c fr off false s1 = .ok m s2) (f : Regs → Word → Word × Regs) :
    modifyOp c o s f = .next (retired c ((storeAt c a (f (s2.r c) m).1 s2).modR c fun _ => (f (s2.r c) m).2)) := by
  simp only [modifyOp, issueOp, issue_issues h, he, Res.bind, modifyAt, hr, storeOk, hw, hl]

/-- An instruction of one word that changes registers alone. -/
theorem issue1_regs {c : CoreId} {s : State} (h : Issues c 1 true s) (f : Regs → Regs) :
    issue1 c s (regs c f) = .next (retired c ((issued c 1 s).modR c f)) := by
  simp only [issue1, issue_issues h, regs]

/-- A pop, its word read (R133). -/
theorem popOp_issues {c : CoreId} {s s1 : State} {v : Word} (h : Issues c 1 true s)
    (hl : load c 3 ((issued c 1 s).r c).sp false (issued c 1 s) = .ok v s1) (f : Word → Regs → Regs) :
    popOp c s f = .next (retired c ((s1.modR c fun r => { r with sp := ((issued c 1 s).r c).sp + 1 }).modR c (f v))) := by
  simp only [popOp, issue1, issue_issues h, popWords, loadWords, hl, Res.bind, regs, List.headD]
  rfl

/-- A push, its slot checked (R133). -/
theorem pushOp_issues {c : CoreId} {s : State} {a : Nat} (h : Issues c 1 true s)
    (ha : address (issued c 1 s) c 3 (((issued c 1 s).r c).sp - 1) { w := true } = .ok a) (f : Regs → Word) :
    pushOp c s f = .next (retired c ((storeAt c a (f ((issued c 1 s).r c)) (issued c 1 s)).modR c fun r =>
      { r with sp := ((issued c 1 s).r c).sp - 1 })) := by
  have e : w16 (0 + 1) = 1#16 := by decide
  simp only [pushOp, issue1, issue_issues h, pushWords, List.length_singleton, List.range_one, List.map_cons, List.map_nil,
    pushWords.chk, storeOk, e]
  rw [show (1#16 : Word) = 1 from rfl]
  simp only [ha, Res.bind, List.zip_cons_cons, List.zip_nil_right, storeAll]

end Sys2Proof.Machine
end

