-- ==== Sys2Proof/Laws/Sparse.lean ====
section
/-! SUPPORT. Tables by number: reading after writing, and the canonical form that every operation keeps. -/

namespace Sys2Proof.Machine

variable {α : Type} [DecidableEq α] {d : Nat → α}

omit [DecidableEq α] in
/-- Every key listed lies above `k`. -/
theorem Sparse.get_of_above {m : Sparse α} {k : Nat} (h : ∀ e ∈ m, k < e.1) : Sparse.get d m k = d k := by
  induction m with
  | nil => rfl
  | cons e r ih =>
    have h1 := h e (by simp)
    rw [Sparse.get, if_neg (by omega)]
    exact ih fun f hf => h f (by simp [hf])

omit [DecidableEq α] in
/-- An erased key reads as the unlisted value. -/
theorem Sparse.get_erase_same (m : Sparse α) (k : Nat) : Sparse.get d (m.erase k) k = d k := by
  induction m with
  | nil => rfl
  | cons e r ih =>
    by_cases h : e.1 = k
    · rw [Sparse.erase, if_pos h]; exact ih
    · rw [Sparse.erase, if_neg h, Sparse.get, if_neg h]; exact ih

omit [DecidableEq α] in
/-- Erasing a key leaves every other. -/
theorem Sparse.get_erase_other (m : Sparse α) {k j : Nat} (hj : j ≠ k) :
    Sparse.get d (m.erase k) j = Sparse.get d m j := by
  induction m with
  | nil => rfl
  | cons e r ih =>
    by_cases h : e.1 = k
    · rw [Sparse.erase, if_pos h, Sparse.get, if_neg (by omega)]; exact ih
    · rw [Sparse.erase, if_neg h, Sparse.get, Sparse.get, ih]

omit [DecidableEq α] in
/-- An inserted key reads as its value where the table did not list it. -/
theorem Sparse.get_insert_same (m : Sparse α) (k : Nat) (v : α) (h : ∀ e ∈ m, e.1 ≠ k) :
    Sparse.get d (m.insert k v) k = v := by
  induction m with
  | nil => simp [Sparse.insert, Sparse.get]
  | cons e r ih =>
    by_cases hk : k ≤ e.1
    · rw [Sparse.insert, if_pos hk, Sparse.get, if_pos rfl]
    · rw [Sparse.insert, if_neg hk, Sparse.get, if_neg (by omega)]
      exact ih fun f hf => h f (by simp [hf])

omit [DecidableEq α] in
/-- Inserting a key leaves every other. -/
theorem Sparse.get_insert_other (m : Sparse α) {k j : Nat} (v : α) (hj : j ≠ k) :
    Sparse.get d (m.insert k v) j = Sparse.get d m j := by
  induction m with
  | nil => simp [Sparse.insert, Sparse.get, Ne.symm hj]
  | cons e r ih =>
    by_cases hk : k ≤ e.1
    · rw [Sparse.insert, if_pos hk, Sparse.get, if_neg (by omega)]
    · rw [Sparse.insert, if_neg hk, Sparse.get, Sparse.get, ih]

omit [DecidableEq α] in
/-- What a table without a key lists, the table lists, and not under that key. -/
theorem Sparse.mem_erase {m : Sparse α} {k : Nat} {e : Nat × α} (h : e ∈ m.erase k) : e ∈ m ∧ e.1 ≠ k := by
  induction m with
  | nil => cases h
  | cons f r ih =>
    by_cases hk : f.1 = k
    · rw [Sparse.erase, if_pos hk] at h
      exact ⟨by simp [(ih h).1], (ih h).2⟩
    · rw [Sparse.erase, if_neg hk] at h
      rcases List.mem_cons.1 h with rfl | h
      · exact ⟨by simp, hk⟩
      · exact ⟨by simp [(ih h).1], (ih h).2⟩

omit [DecidableEq α] in
/-- What a table lists after an insertion. -/
theorem Sparse.mem_insert {m : Sparse α} {k : Nat} {v : α} {e : Nat × α} (h : e ∈ m.insert k v) : e = (k, v) ∨ e ∈ m := by
  induction m with
  | nil => simpa [Sparse.insert] using h
  | cons f r ih =>
    by_cases hk : k ≤ f.1
    · rw [Sparse.insert, if_pos hk] at h; simpa using h
    · rw [Sparse.insert, if_neg hk] at h
      rcases List.mem_cons.1 h with rfl | h
      · simp
      · rcases ih h with h | h <;> simp [h]

/-- A key reads as what was written to it. -/
theorem Sparse.get_set_same (m : Sparse α) (k : Nat) (v : α) : Sparse.get d (m.set d k v) k = v := by
  unfold Sparse.set
  split
  · rename_i h; rw [Sparse.get_erase_same, h]
  · exact Sparse.get_insert_same _ _ _ fun e he => (Sparse.mem_erase he).2

/-- A write leaves every other key. -/
theorem Sparse.get_set_other (m : Sparse α) {k j : Nat} (v : α) (hj : j ≠ k) :
    Sparse.get d (m.set d k v) j = Sparse.get d m j := by
  unfold Sparse.set
  split
  · exact Sparse.get_erase_other _ hj
  · rw [Sparse.get_insert_other _ _ hj, Sparse.get_erase_other _ hj]

/-- The canonical form as a fact about the entries: each differs from the unlisted value, and keys rise. -/
theorem Sparse.wf_cons {j : Nat} {v : α} {r : Sparse α} :
    Sparse.wf d ((j, v) :: r) = true ↔ v ≠ d j ∧ (∀ e ∈ r, j < e.1) ∧ Sparse.wf d r = true := by
  simp [Sparse.wf, and_assoc]

/-- Taking entries out keeps the canonical form. -/
theorem Sparse.wf_filter {m : Sparse α} (p : Nat × α → Bool) (h : Sparse.wf d m = true) :
    Sparse.wf d (m.filter p) = true := by
  induction m with
  | nil => rfl
  | cons e r ih =>
    obtain ⟨h1, h2, h3⟩ := Sparse.wf_cons.1 h
    rw [List.filter_cons]
    split
    · exact Sparse.wf_cons.2 ⟨h1, fun f hf => h2 f (List.mem_filter.1 hf).1, ih h3⟩
    · exact ih h3

/-- Erasing a key keeps the canonical form. -/
theorem Sparse.wf_erase {m : Sparse α} (k : Nat) (h : Sparse.wf d m = true) : Sparse.wf d (m.erase k) = true := by
  induction m with
  | nil => rfl
  | cons e r ih =>
    obtain ⟨h1, h2, h3⟩ := Sparse.wf_cons.1 h
    rw [Sparse.erase]
    split
    · exact ih h3
    · exact Sparse.wf_cons.2 ⟨h1, fun f hf => h2 f (Sparse.mem_erase hf).1, ih h3⟩

/-- Inserting an unlisted key with another value than the unlisted one keeps the canonical form. -/
theorem Sparse.wf_insert {m : Sparse α} {k : Nat} {v : α} (hv : v ≠ d k) (hk : ∀ e ∈ m, e.1 ≠ k)
    (h : Sparse.wf d m = true) : Sparse.wf d (m.insert k v) = true := by
  induction m with
  | nil => simp [Sparse.insert, Sparse.wf, hv]
  | cons e r ih =>
    obtain ⟨h1, h2, h3⟩ := Sparse.wf_cons.1 h
    have hne := hk e (by simp)
    rw [Sparse.insert]
    split
    · rename_i hle
      refine Sparse.wf_cons.2 ⟨hv, fun f hf => ?_, h⟩
      rcases List.mem_cons.1 hf with rfl | hf
      · show k < e.1; omega
      · have := h2 f hf; omega
    · rename_i hle
      refine Sparse.wf_cons.2 ⟨h1, fun f hf => ?_, ih (fun f hf => hk f (by simp [hf])) h3⟩
      rcases Sparse.mem_insert hf with rfl | hf
      · show e.1 < k; omega
      · exact h2 f hf

/-- A write keeps the canonical form. -/
theorem Sparse.wf_set {m : Sparse α} (k : Nat) (v : α) (h : Sparse.wf d m = true) : Sparse.wf d (m.set d k v) = true := by
  unfold Sparse.set
  split
  · exact Sparse.wf_erase k h
  · rename_i hv
    exact Sparse.wf_insert hv (fun e he => (Sparse.mem_erase he).2) (Sparse.wf_erase k h)

/-- Dropping keys keeps the canonical form. -/
theorem Sparse.wf_drop {m : Sparse α} (p : Nat → Bool) (h : Sparse.wf d m = true) : Sparse.wf d (m.drop p) = true :=
  Sparse.wf_filter _ h

omit [DecidableEq α] in
/-- A dropped key reads as the unlisted value, every other as before. -/
theorem Sparse.get_drop (m : Sparse α) (p : Nat → Bool) (k : Nat) :
    Sparse.get d (m.drop p) k = if p k then d k else Sparse.get d m k := by
  induction m with
  | nil => cases p k <;> rfl
  | cons e r ih =>
    by_cases hk : e.1 = k
    · subst hk
      cases hp : p e.1 <;> simp_all [Sparse.drop, Sparse.get]
    · cases hp : p e.1 <;> simp_all [Sparse.drop, Sparse.get]

end Sys2Proof.Machine
end

