-- ==== Sys2Proof/Laws/Keeps.lean ====
section
/-! SUPPORT. How `Keeps` is shown of an operation: of the operations that write memory, registers and fuses, and of what
operations are built from. -/

namespace Sys2Proof.Machine

theorem Keeps.refl (s : State) : Keeps s s := ⟨rfl, rfl, id, id, fun _ h => h⟩

theorem Keeps.trans {s t u : State} (h : Keeps s t) (k : Keeps t u) : Keeps s u :=
  ⟨k.queue.trans h.queue, k.time.trans h.time, fun m => k.mem (h.mem m), fun m => k.regs (h.regs m),
    fun a m => k.otp a (h.otp a m)⟩

/-- A change of fields other than these five. -/
theorem Keeps.upd {s t u : State} (h : Keeps s t) (h1 : u.pending = t.pending) (h2 : u.now = t.now) (h3 : u.mem = t.mem)
    (h4 : u.regs = t.regs) (h5 : u.otpDone = t.otpDone) : Keeps s u :=
  h.trans ⟨h1, h2, by rw [h3]; exact id, by rw [h4]; exact id, by rw [h5]; exact fun _ m => m⟩

theorem Keeps.ite {s t u : State} {c : Prop} [Decidable c] (ht : Keeps s t) (hu : Keeps s u) :
    Keeps s (if c then t else u) := by split <;> assumption

theorem Keeps.foldl {α : Type} {s : State} {f : State → α → State} (hf : ∀ t x, Keeps s t → Keeps s (f t x)) :
    ∀ (l : List α) {t : State}, Keeps s t → Keeps s (l.foldl f t)
  | [], _, h => h
  | x :: l, _, h => Keeps.foldl hf l (hf _ x h)

/-- A state written out: the five fields are those of `t`. -/
theorem Keeps.lit {s t : State}
    {free : _} {dbe : _} {undef : _} {otp : _} {shadow : _} {isl : _} {gates : _} {memq : _} {memTick : _} {memLast
      : _} {srcs : _} {logq : _} {logSeq : _} {band : _} {secBand : _} {reversed : _} {mode : _} {enterAt : _}
      {parkLow : _} {vsen : _} {rtcSec : _} {rtcFrac : _} {strapLast : _} {straps : _} {tap : _} {boundary : _}
      {bypassReg : _} {faultNLow : _} {resetNLow : _} {resetNFree : _} {bring : _} {holdStart : _} {calib : _}
      {otpBusy : _} {marTable : _} {mar : _} {cores : _} {phys : _} {pairedA : _} {pairedB : _} {chans : _} {outs :
      _} {sw : _} {stageBase : _} {cluLast : _} {valves : _} {banks : _} {boostKeep : _} {boostLow : _} {lux : _}
      {sinks : _} {lamps : _} {filts : _} {tickBase : _} {fieldRec : _} {vsnsLim : _} {sent : _} {sec : _} {alive :
      _} {cntSet : _} {poll : _} {spreadDue : _} {pollAt : _} {parkSec : _} {lnk : _} {net : _} {flashOp : _} {upd :
      _} {updAon : _} :
    Keeps s ⟨t.pending, t.now, free, t.regs, t.mem, dbe, undef, otp, shadow, isl, gates, memq, memTick, memLast, srcs,
      logq, logSeq, band, secBand, reversed, mode, enterAt, parkLow, vsen, rtcSec, rtcFrac, strapLast, straps,
      tap, boundary, bypassReg, faultNLow, resetNLow, resetNFree, bring, holdStart, calib, otpBusy, t.otpDone,
      marTable, mar, cores, phys, pairedA, pairedB, chans, outs, sw, stageBase, cluLast, valves, banks,
      boostKeep, boostLow, lux, sinks, lamps, filts, tickBase, fieldRec, vsnsLim, sent, sec, alive, cntSet,
      poll, spreadDue, pollAt, parkSec, lnk, net, flashOp, upd, updAon⟩ ↔ Keeps s t :=
  ⟨fun h => ⟨h.queue, h.time, h.mem, h.regs, h.otp⟩, fun h => ⟨h.queue, h.time, h.mem, h.regs, h.otp⟩⟩

/-- The state of a pair. -/
theorem Keeps.of_pair {α : Type} {s t : State} {p : α × State} {a : α} (h : p = (a, t)) (k : Keeps s p.2) : Keeps s t
      := by
  rw [h] at k; exact k

theorem Keeps.of_fst {α : Type} {s t : State} {p : State × α} {a : α} (h : p = (t, a)) (k : Keeps s p.1) : Keeps s t
      := by
  rw [h] at k; exact k

theorem Runs.next {s t : State} (h : Keeps s t) : Runs s (.next t) := ⟨t, rfl, h⟩

theorem Runs.ite {s : State} {o p : Out} {c : Prop} [Decidable c] (ho : Runs s o) (hp : Runs s p) :
    Runs s (if c then o else p) := by split <;> assumption

theorem State.setReg_keeps {s0 : State} (s : State) (a : Nat) (v : Word) (h : Keeps s0 s) : Keeps s0 (s.setReg a v) :=
  h.trans ⟨rfl, rfl, id, Sparse.wf_set a v, fun _ m => m⟩

theorem State.dropRegs_keeps {s0 : State} (s : State) (p : Nat → Bool) (h : Keeps s0 s) : Keeps s0 (s.dropRegs p) :=
  h.trans ⟨rfl, rfl, id, Sparse.wf_drop p, fun _ m => m⟩

theorem State.setByte_keeps {s0 : State} (s : State) (b : Nat) (v : Byte) (h : Keeps s0 s) : Keeps s0 (s.setByte b v) :=
  h.trans ⟨rfl, rfl, Sparse.wf_set b v, id, fun _ m => m⟩

theorem State.clearMem_keeps {s0 : State} (s : State) (a n : Nat) (h : Keeps s0 s) : Keeps s0 (s.clearMem a n) :=
  h.trans ⟨rfl, rfl, Sparse.wf_filter _, id, fun _ m => m⟩

end Sys2Proof.Machine
end

