-- ==== Sys2Proof/Laws/KeepsOps.lean ====
section
/-! SUPPORT. Every operation of Machine/Ops.lean keeps what a command keeps. -/

set_option linter.all false

namespace Sys2Proof.Machine

theorem State.setRegBit_keeps {σ : State} (s : Sys2Proof.Machine.State) (a : Nat) (n : Nat) (b : Bool) (hk : Keeps σ s) : Keeps σ (State.setRegBit s a n b) := by
  unfold State.setRegBit
  try dsimp only
  with_reducible repeat' first
    | assumption
    | apply Keeps.ite
    | apply State.setReg_keeps
    | simp only [Keeps.lit]
    | refine Keeps.foldl (fun _ _ _ => ?_) _ ?_
    | refine Keeps.of_pair ‹_ = (_, _)› ?_
    | (split)
    | (intro _ _ _)
    | (intro _ _)

theorem State.raiseLine_keeps {σ : State} (s : Sys2Proof.Machine.State) (c : Nat) (line : Nat) (hk : Keeps σ s) : Keeps σ (State.raiseLine s c line) := by
  unfold State.raiseLine
  try dsimp only
  with_reducible repeat' first
    | assumption
    | apply Keeps.ite
    | apply State.setRegBit_keeps
    | simp only [Keeps.lit]
    | refine Keeps.foldl (fun _ _ _ => ?_) _ ?_
    | refine Keeps.of_pair ‹_ = (_, _)› ?_
    | (split)
    | (intro _ _ _)
    | (intro _ _)

theorem State.route_keeps {σ : State} (s : Sys2Proof.Machine.State) (w : Sys2Proof.Word) (hk : Keeps σ s) : Keeps σ (State.route s w) := by
  unfold State.route
  try dsimp only
  with_reducible repeat' first
    | assumption
    | apply Keeps.ite
    | apply State.raiseLine_keeps
    | simp only [Keeps.lit]
    | refine Keeps.foldl (fun _ _ _ => ?_) _ ?_
    | refine Keeps.of_pair ‹_ = (_, _)› ?_
    | (split)
    | (intro _ _ _)
    | (intro _ _)

theorem State.setMem_keeps {σ : State} (s : Sys2Proof.Machine.State) (a : Nat) (v : Sys2Proof.Word) (hk : Keeps σ s) : Keeps σ (State.setMem s a v) := by
  unfold State.setMem
  try dsimp only
  with_reducible repeat' first
    | assumption
    | apply Keeps.ite
    | apply State.setByte_keeps
    | simp only [Keeps.lit]
    | refine Keeps.foldl (fun _ _ _ => ?_) _ ?_
    | refine Keeps.of_pair ‹_ = (_, _)› ?_
    | (split)
    | (intro _ _ _)
    | (intro _ _)

theorem State.setRegFld_keeps {σ : State} (s : Sys2Proof.Machine.State) (a : Nat) (lo : Nat) (n : Nat) (v : Nat) (hk : Keeps σ s) : Keeps σ (State.setRegFld s a lo n v) := by
  unfold State.setRegFld
  try dsimp only
  with_reducible repeat' first
    | assumption
    | apply Keeps.ite
    | apply State.setReg_keeps
    | simp only [Keeps.lit]
    | refine Keeps.foldl (fun _ _ _ => ?_) _ ?_
    | refine Keeps.of_pair ‹_ = (_, _)› ?_
    | (split)
    | (intro _ _ _)
    | (intro _ _)

theorem State.setSrc_keeps {σ : State} (s : Sys2Proof.Machine.State) (n : Nat) (r : Sys2Proof.Machine.Src) (hk : Keeps σ s) : Keeps σ (State.setSrc s n r) := by
  unfold State.setSrc
  try dsimp only
  with_reducible repeat' first
    | assumption
    | apply Keeps.ite
    | simp only [Keeps.lit]
    | refine Keeps.foldl (fun _ _ _ => ?_) _ ?_
    | refine Keeps.of_pair ‹_ = (_, _)› ?_
    | (split)
    | (intro _ _ _)
    | (intro _ _)

theorem State.raise_keeps {σ : State} (s : Sys2Proof.Machine.State) (n : Nat) (res : Option Nat) (hk : Keeps σ s) : Keeps σ (State.raise s n res) := by
  unfold State.raise
  try dsimp only
  with_reducible repeat' first
    | assumption
    | apply Keeps.ite
    | apply State.setSrc_keeps
    | apply State.setRegFld_keeps
    | simp only [Keeps.lit]
    | refine Keeps.foldl (fun _ _ _ => ?_) _ ?_
    | refine Keeps.of_pair ‹_ = (_, _)› ?_
    | (split)
    | (intro _ _ _)
    | (intro _ _)

theorem State.regInc_keeps {σ : State} (s : Sys2Proof.Machine.State) (a : Nat) (hk : Keeps σ s) : Keeps σ (State.regInc s a) := by
  unfold State.regInc
  try dsimp only
  with_reducible repeat' first
    | assumption
    | apply Keeps.ite
    | apply State.setReg_keeps
    | simp only [Keeps.lit]
    | refine Keeps.foldl (fun _ _ _ => ?_) _ ?_
    | refine Keeps.of_pair ‹_ = (_, _)› ?_
    | (split)
    | (intro _ _ _)
    | (intro _ _)

theorem State.setCore_keeps {σ : State} (s : Sys2Proof.Machine.State) (c : Nat) (k : Sys2Proof.Machine.Core) (hk : Keeps σ s) : Keeps σ (State.setCore s c k) := by
  unfold State.setCore
  try dsimp only
  with_reducible repeat' first
    | assumption
    | apply Keeps.ite
    | simp only [Keeps.lit]
    | refine Keeps.foldl (fun _ _ _ => ?_) _ ?_
    | refine Keeps.of_pair ‹_ = (_, _)› ?_
    | (split)
    | (intro _ _ _)
    | (intro _ _)

theorem State.modCore_keeps {σ : State} (s : Sys2Proof.Machine.State) (c : Nat) (f : Sys2Proof.Machine.Core → Sys2Proof.Machine.Core) (hk : Keeps σ s) : Keeps σ (State.modCore s c f) := by
  unfold State.modCore
  try dsimp only
  with_reducible repeat' first
    | assumption
    | apply Keeps.ite
    | apply State.setCore_keeps
    | simp only [Keeps.lit]
    | refine Keeps.foldl (fun _ _ _ => ?_) _ ?_
    | refine Keeps.of_pair ‹_ = (_, _)› ?_
    | (split)
    | (intro _ _ _)
    | (intro _ _)

theorem State.raiseHeld_keeps {σ : State} (s : Sys2Proof.Machine.State) (n : Nat) (res : Option Nat) (hk : Keeps σ s) : Keeps σ (State.raiseHeld s n res) := by
  unfold State.raiseHeld
  try dsimp only
  with_reducible repeat' first
    | assumption
    | apply Keeps.ite
    | apply State.setSrc_keeps
    | apply State.setRegFld_keeps
    | simp only [Keeps.lit]
    | refine Keeps.foldl (fun _ _ _ => ?_) _ ?_
    | refine Keeps.of_pair ‹_ = (_, _)› ?_
    | (split)
    | (intro _ _ _)
    | (intro _ _)

theorem State.raiseIsl_keeps {σ : State} (s : Sys2Proof.Machine.State) (i : Sys2Proof.Island) (off : Nat) (res : Option Nat) (hk : Keeps σ s) : Keeps σ (State.raiseIsl s i off res) := by
  unfold State.raiseIsl
  try dsimp only
  with_reducible repeat' first
    | assumption
    | apply Keeps.ite
    | apply State.raise_keeps
    | simp only [Keeps.lit]
    | refine Keeps.foldl (fun _ _ _ => ?_) _ ?_
    | refine Keeps.of_pair ‹_ = (_, _)› ?_
    | (split)
    | (intro _ _ _)
    | (intro _ _)

theorem State.setRegList_keeps {σ : State} (s : State) (a : Nat) (ws : List Word) (h : Keeps σ s) :
    Keeps σ (s.setRegList a ws) := by
  induction ws generalizing s a with
  | nil => exact h
  | cons v r ih => exact ih _ _ (State.setReg_keeps _ _ _ h)

theorem State.setMemList_keeps {σ : State} (s : State) (a : Nat) (ws : List Word) (h : Keeps σ s) :
    Keeps σ (s.setMemList a ws) := by
  induction ws generalizing s a with
  | nil => exact h
  | cons v r ih => exact ih _ _ (State.setMem_keeps _ _ _ h)

theorem State.used_keeps {σ : State} (s : Sys2Proof.Machine.State) (hk : Keeps σ s) : Keeps σ (State.used s) := by
  unfold State.used
  try dsimp only
  with_reducible repeat' first
    | assumption
    | apply Keeps.ite
    | simp only [Keeps.lit]
    | refine Keeps.foldl (fun _ _ _ => ?_) _ ?_
    | refine Keeps.of_pair ‹_ = (_, _)› ?_
    | (split)
    | (intro _ _ _)
    | (intro _ _)

theorem State.setPhys_keeps {σ : State} (s : Sys2Proof.Machine.State) (p : Nat) (k : Sys2Proof.Machine.Phys) (hk : Keeps σ s) : Keeps σ (State.setPhys s p k) := by
  unfold State.setPhys
  try dsimp only
  with_reducible repeat' first
    | assumption
    | apply Keeps.ite
    | simp only [Keeps.lit]
    | refine Keeps.foldl (fun _ _ _ => ?_) _ ?_
    | refine Keeps.of_pair ‹_ = (_, _)› ?_
    | (split)
    | (intro _ _ _)
    | (intro _ _)

theorem State.fuse_keeps {σ : State} (s : State) (a : Nat) (w : Word) (h : Keeps σ s) : Keeps σ (s.fuse a w) :=
  h.trans ⟨rfl, rfl, id, id, fun _ m => List.mem_cons_of_mem _ m⟩

theorem State.setIsland_keeps {σ : State} (s : Sys2Proof.Machine.State) (i : Sys2Proof.Island) (r : Sys2Proof.Machine.Isl) (hk : Keeps σ s) : Keeps σ (State.setIsland s i r) := by
  unfold State.setIsland
  try dsimp only
  with_reducible repeat' first
    | assumption
    | apply Keeps.ite
    | simp only [Keeps.lit]
    | refine Keeps.foldl (fun _ _ _ => ?_) _ ?_
    | refine Keeps.of_pair ‹_ = (_, _)› ?_
    | (split)
    | (intro _ _ _)
    | (intro _ _)

theorem State.plainWrite_keeps {σ : State} (s : Sys2Proof.Machine.State) (a : Nat) (v : Sys2Proof.Word) (hk : Keeps σ s) : Keeps σ (State.plainWrite s a v) := by
  unfold State.plainWrite
  try dsimp only
  with_reducible repeat' first
    | assumption
    | apply Keeps.ite
    | apply State.setReg_keeps
    | simp only [Keeps.lit]
    | refine Keeps.foldl (fun _ _ _ => ?_) _ ?_
    | refine Keeps.of_pair ‹_ = (_, _)› ?_
    | (split)
    | (intro _ _ _)
    | (intro _ _)

theorem State.setGate_keeps {σ : State} (s : Sys2Proof.Machine.State) (src : Nat) (dst : Nat) (g : Sys2Proof.Machine.Gate) (hk : Keeps σ s) : Keeps σ (State.setGate s src dst g) := by
  unfold State.setGate
  try dsimp only
  with_reducible repeat' first
    | assumption
    | apply Keeps.ite
    | simp only [Keeps.lit]
    | refine Keeps.foldl (fun _ _ _ => ?_) _ ?_
    | refine Keeps.of_pair ‹_ = (_, _)› ?_
    | (split)
    | (intro _ _ _)
    | (intro _ _)

theorem State.level_keeps {σ : State} (s : Sys2Proof.Machine.State) (n : Nat) (b : Bool) (res : optParam (Option Nat) Option.none) (hk : Keeps σ s) : Keeps σ (State.level s n b res) := by
  unfold State.level
  try dsimp only
  with_reducible repeat' first
    | assumption
    | apply Keeps.ite
    | apply State.setSrc_keeps
    | simp only [Keeps.lit]
    | refine Keeps.foldl (fun _ _ _ => ?_) _ ?_
    | refine Keeps.of_pair ‹_ = (_, _)› ?_
    | (split)
    | (intro _ _ _)
    | (intro _ _)

end Sys2Proof.Machine
end

