-- ==== Sys2Proof/Laws/KeepsSram.lean ====
section
/-! SUPPORT. Every operation of Machine/Sram.lean keeps what a command keeps. -/

set_option linter.all false

namespace Sys2Proof.Machine

theorem State.putOne_keeps {σ : State} (s : Sys2Proof.Machine.State) (a : Nat) (v : Sys2Proof.Word) (hk : Keeps σ s) : Keeps σ (State.putOne s a v) := by
  unfold State.putOne
  try dsimp only
  with_reducible repeat' first
    | assumption
    | apply Keeps.ite
    | apply State.setMem_keeps
    | simp only [Keeps.lit]
    | refine Keeps.foldl (fun _ _ _ => ?_) _ ?_
    | refine Keeps.of_pair ‹_ = (_, _)› ?_
    | (split)
    | (intro _ _ _)
    | (intro _ _)

theorem State.putWord_keeps {σ : State} (s : Sys2Proof.Machine.State) (a : Nat) (v : Sys2Proof.Word) (hk : Keeps σ s) : Keeps σ (State.putWord s a v) := by
  unfold State.putWord
  try dsimp only
  with_reducible repeat' first
    | assumption
    | apply Keeps.ite
    | apply State.putOne_keeps
    | simp only [Keeps.lit]
    | refine Keeps.foldl (fun _ _ _ => ?_) _ ?_
    | refine Keeps.of_pair ‹_ = (_, _)› ?_
    | (split)
    | (intro _ _ _)
    | (intro _ _)

theorem State.clearResv_keeps {σ : State} (s : Sys2Proof.Machine.State) (a : Nat) (hk : Keeps σ s) : Keeps σ (State.clearResv s a) := by
  unfold State.clearResv
  try dsimp only
  with_reducible repeat' first
    | assumption
    | apply Keeps.ite
    | simp only [Keeps.lit]
    | refine Keeps.foldl (fun _ _ _ => ?_) _ ?_
    | refine Keeps.of_pair ‹_ = (_, _)› ?_
    | (split)
    | (intro _ _ _)
    | (intro _ _)

theorem State.storeWord_keeps {σ : State} (s : Sys2Proof.Machine.State) (a : Nat) (v : Sys2Proof.Word) (hk : Keeps σ s) : Keeps σ (State.storeWord s a v) := by
  unfold State.storeWord
  try dsimp only
  with_reducible repeat' first
    | assumption
    | apply Keeps.ite
    | apply State.clearResv_keeps
    | apply State.putWord_keeps
    | simp only [Keeps.lit]
    | refine Keeps.foldl (fun _ _ _ => ?_) _ ?_
    | refine Keeps.of_pair ‹_ = (_, _)› ?_
    | (split)
    | (intro _ _ _)
    | (intro _ _)

theorem State.storeList_keeps {σ : State} (s : State) (a : Nat) (ws : List Word) (h : Keeps σ s) :
    Keeps σ (s.storeList a ws) := by
  induction ws generalizing s a with
  | nil => exact h
  | cons v r ih => exact ih _ _ (State.storeWord_keeps _ _ _ h)

theorem islandStoreList_keeps {σ : State} (a : Nat) (ws : List Sys2Proof.Word) (s : Sys2Proof.Machine.State) (hk : Keeps σ s) : Keeps σ (islandStoreList a ws s) := by
  unfold islandStoreList
  try dsimp only
  with_reducible repeat' first
    | assumption
    | apply Keeps.ite
    | apply State.storeList_keeps
    | simp only [Keeps.lit]
    | refine Keeps.foldl (fun _ _ _ => ?_) _ ?_
    | refine Keeps.of_pair ‹_ = (_, _)› ?_
    | (split)
    | (intro _ _ _)
    | (intro _ _)

theorem State.heal_keeps {σ : State} (s : Sys2Proof.Machine.State) (a : Nat) (hk : Keeps σ s) : Keeps σ (State.heal s a) := by
  unfold State.heal
  try dsimp only
  with_reducible repeat' first
    | assumption
    | apply Keeps.ite
    | apply State.putWord_keeps
    | simp only [Keeps.lit]
    | refine Keeps.foldl (fun _ _ _ => ?_) _ ?_
    | refine Keeps.of_pair ‹_ = (_, _)› ?_
    | (split)
    | (intro _ _ _)
    | (intro _ _)

end Sys2Proof.Machine
end

