-- ==== Sys2Proof/Laws/KeepsArbiter.lean ====
section
/-! SUPPORT. Every operation of Machine/Arbiter.lean keeps what a command keeps. -/

set_option linter.all false

namespace Sys2Proof.Machine

theorem memServe_keeps {σ : State} (s : Sys2Proof.Machine.State) (hk : Keeps σ s) : Keeps σ (memServe s) := by
  unfold memServe
  try dsimp only
  with_reducible repeat' first
    | assumption
    | apply Keeps.ite
    | apply State.setIsland_keeps
    | apply State.storeWord_keeps
    | apply State.setReg_keeps
    | apply State.raise_keeps
    | simp only [Keeps.lit]
    | refine Keeps.foldl (fun _ _ _ => ?_) _ ?_
    | refine Keeps.of_pair ‹_ = (_, _)› ?_
    | (split)
    | (intro _ _ _)
    | (intro _ _)

theorem memCycle_keeps {σ : State} (s : Sys2Proof.Machine.State) (hk : Keeps σ s) : Keeps σ (memCycle s) := by
  unfold memCycle
  try dsimp only
  with_reducible repeat' first
    | assumption
    | apply Keeps.ite
    | apply memServe_keeps
    | simp only [Keeps.lit]
    | refine Keeps.foldl (fun _ _ _ => ?_) _ ?_
    | refine Keeps.of_pair ‹_ = (_, _)› ?_
    | (split)
    | (intro _ _ _)
    | (intro _ _)

theorem execMemService_runs {σ : State} (s : Sys2Proof.Machine.State) (hk : Keeps σ s) : Runs σ (execMemService s) := by
  unfold execMemService
  try dsimp only
  with_reducible repeat' first
    | assumption
    | apply Runs.next
    | apply Runs.ite
    | apply Keeps.ite
    | apply memCycle_keeps
    | simp only [Keeps.lit]
    | refine Keeps.foldl (fun _ _ _ => ?_) _ ?_
    | refine Keeps.of_pair ‹_ = (_, _)› ?_
    | (split)
    | (intro _ _ _)
    | (intro _ _)

theorem serveOwn_keeps {σ : State} (i : Sys2Proof.Island) (k : Nat) (s : Sys2Proof.Machine.State) (hk : Keeps σ s) : Keeps σ (serveOwn i k s) := by
  unfold serveOwn
  try dsimp only
  with_reducible repeat' first
    | assumption
    | apply Keeps.ite
    | apply memCycle_keeps
    | simp only [Keeps.lit]
    | refine Keeps.foldl (fun _ _ _ => ?_) _ ?_
    | refine Keeps.of_pair ‹_ = (_, _)› ?_
    | (split)
    | (intro _ _ _)
    | (intro _ _)

theorem issueMem_keeps {σ : State} (i : Sys2Proof.Island) (k : Nat) (put : Option (Nat × Sys2Proof.Word)) (s : Sys2Proof.Machine.State) (hk : Keeps σ s) : Keeps σ (issueMem i k put s) := by
  unfold issueMem
  try dsimp only
  with_reducible repeat' first
    | assumption
    | apply Keeps.ite
    | apply serveOwn_keeps
    | simp only [Keeps.lit]
    | refine Keeps.foldl (fun _ _ _ => ?_) _ ?_
    | refine Keeps.of_pair ‹_ = (_, _)› ?_
    | (split)
    | (intro _ _ _)
    | (intro _ _)

theorem memAccess_keeps {σ : State} (i : Sys2Proof.Island) (k : Nat) (s : Sys2Proof.Machine.State) (hk : Keeps σ s) : Keeps σ (memAccess i k s) := by
  unfold memAccess
  try dsimp only
  with_reducible repeat' first
    | assumption
    | apply Keeps.ite
    | apply serveOwn_keeps
    | apply issueMem_keeps
    | simp only [Keeps.lit]
    | refine Keeps.foldl (fun _ _ _ => ?_) _ ?_
    | refine Keeps.of_pair ‹_ = (_, _)› ?_
    | (split)
    | (intro _ _ _)
    | (intro _ _)

theorem memBurst_keeps {σ : State} (i : Sys2Proof.Island) (k : Nat) (n : Nat) (s : Sys2Proof.Machine.State) (hk : Keeps σ s) : Keeps σ (memBurst i k n s) := by
  unfold memBurst
  try dsimp only
  with_reducible repeat' first
    | assumption
    | apply Keeps.ite
    | apply memAccess_keeps
    | simp only [Keeps.lit]
    | refine Keeps.foldl (fun _ _ _ => ?_) _ ?_
    | refine Keeps.of_pair ‹_ = (_, _)› ?_
    | (split)
    | (intro _ _ _)
    | (intro _ _)

theorem serveAll_keeps {σ : State} (s : Sys2Proof.Machine.State) (hk : Keeps σ s) : Keeps σ (serveAll s) := by
  unfold serveAll
  try dsimp only
  with_reducible repeat' first
    | assumption
    | apply Keeps.ite
    | apply memCycle_keeps
    | simp only [Keeps.lit]
    | refine Keeps.foldl (fun _ _ _ => ?_) _ ?_
    | refine Keeps.of_pair ‹_ = (_, _)› ?_
    | (split)
    | (intro _ _ _)
    | (intro _ _)

end Sys2Proof.Machine
end

