-- ==== Sys2Proof/Laws/KeepsSecKeys.lean ====
section
/-! SUPPORT. Every operation of Machine/SecKeys.lean keeps what a command keeps. -/

set_option linter.all false

namespace Sys2Proof.Machine

theorem State.setSlot_keeps {σ : State} (s : Sys2Proof.Machine.State) (n : Nat) (k : Option Sys2Proof.Machine.KeySlot) (hk : Keeps σ s) : Keeps σ (State.setSlot s n k) := by
  unfold State.setSlot
  try dsimp only
  with_reducible repeat' first
    | assumption
    | apply Keeps.ite
    | simp only [Keeps.lit]
    | refine Keeps.foldl (fun _ _ _ => ?_) _ ?_
    | refine Keeps.of_pair ‹_ = (_, _)› ?_
    | (split)
    | (intro _ _ _)
    | (intro _ _)

theorem takeBootKey_keeps {σ : State} (u : Sys2Proof.Machine.Unwrapped) (s : Sys2Proof.Machine.State) (hk : Keeps σ s) : Keeps σ (takeBootKey u s) := by
  unfold takeBootKey
  try dsimp only
  with_reducible repeat' first
    | assumption
    | apply Keeps.ite
    | apply State.setSlot_keeps
    | apply State.raiseHeld_keeps
    | simp only [Keeps.lit]
    | refine Keeps.foldl (fun _ _ _ => ?_) _ ?_
    | refine Keeps.of_pair ‹_ = (_, _)› ?_
    | (split)
    | (intro _ _ _)
    | (intro _ _)

theorem loadRoot_keeps {σ : State} (s : Sys2Proof.Machine.State) (hk : Keeps σ s) : Keeps σ (loadRoot s) := by
  unfold loadRoot
  try dsimp only
  with_reducible repeat' first
    | assumption
    | apply Keeps.ite
    | apply State.setSlot_keeps
    | apply takeBootKey_keeps
    | simp only [Keeps.lit]
    | refine Keeps.foldl (fun _ _ _ => ?_) _ ?_
    | refine Keeps.of_pair ‹_ = (_, _)› ?_
    | (split)
    | (intro _ _ _)
    | (intro _ _)

end Sys2Proof.Machine
end

