-- ==== Sys2Proof/Laws/KeepsEnrol.lean ====
section
/-! SUPPORT. Every operation of Machine/Enrol.lean keeps what a command keeps. -/

set_option linter.all false

namespace Sys2Proof.Machine

theorem antennaLevel_keeps {σ : State} (s : Sys2Proof.Machine.State) (hk : Keeps σ s) : Keeps σ (antennaLevel s) := by
  unfold antennaLevel
  try dsimp only
  with_reducible repeat' first
    | assumption
    | apply Keeps.ite
    | apply State.level_keeps
    | simp only [Keeps.lit]
    | refine Keeps.foldl (fun _ _ _ => ?_) _ ?_
    | refine Keeps.of_pair ‹_ = (_, _)› ?_
    | (split)
    | (intro _ _ _)
    | (intro _ _)

theorem accessEvent_keeps {σ : State} (k : Nat) (s : Sys2Proof.Machine.State) (hk : Keeps σ s) : Keeps σ (accessEvent k s) := by
  unfold accessEvent
  try dsimp only
  with_reducible repeat' first
    | assumption
    | apply Keeps.ite
    | apply State.setRegBit_keeps
    | apply State.route_keeps
    | simp only [Keeps.lit]
    | refine Keeps.foldl (fun _ _ _ => ?_) _ ?_
    | refine Keeps.of_pair ‹_ = (_, _)› ?_
    | (split)
    | (intro _ _ _)
    | (intro _ _)

theorem enrStatus_keeps {σ : State} (busy : Bool) (code : Nat) (s : Sys2Proof.Machine.State) (hk : Keeps σ s) : Keeps σ (enrStatus busy code s) := by
  unfold enrStatus
  try dsimp only
  with_reducible repeat' first
    | assumption
    | apply Keeps.ite
    | apply State.setReg_keeps
    | simp only [Keeps.lit]
    | refine Keeps.foldl (fun _ _ _ => ?_) _ ?_
    | refine Keeps.of_pair ‹_ = (_, _)› ?_
    | (split)
    | (intro _ _ _)
    | (intro _ _)

theorem endEnrol_keeps {σ : State} (code : Nat) (s : Sys2Proof.Machine.State) (hk : Keeps σ s) : Keeps σ (endEnrol code s) := by
  unfold endEnrol
  try dsimp only
  with_reducible repeat' first
    | assumption
    | apply Keeps.ite
    | apply accessEvent_keeps
    | apply enrStatus_keeps
    | simp only [Keeps.lit]
    | refine Keeps.foldl (fun _ _ _ => ?_) _ ?_
    | refine Keeps.of_pair ‹_ = (_, _)› ?_
    | (split)
    | (intro _ _ _)
    | (intro _ _)

theorem antennaFrame_keeps {σ : State} (n : Nat) (peak : Nat) (s : Sys2Proof.Machine.State) (hk : Keeps σ s) : Keeps σ (antennaFrame n peak s) := by
  unfold antennaFrame
  try dsimp only
  with_reducible repeat' first
    | assumption
    | apply Keeps.ite
    | apply State.setRegBit_keeps
    | simp only [Keeps.lit]
    | refine Keeps.foldl (fun _ _ _ => ?_) _ ?_
    | refine Keeps.of_pair ‹_ = (_, _)› ?_
    | (split)
    | (intro _ _ _)
    | (intro _ _)

theorem enrFrameEnded_keeps {σ : State} (peak : Nat) (s : Sys2Proof.Machine.State) (hk : Keeps σ s) : Keeps σ (enrFrameEnded peak s) := by
  unfold enrFrameEnded
  try dsimp only
  with_reducible repeat' first
    | assumption
    | apply Keeps.ite
    | apply antennaLevel_keeps
    | apply antennaFrame_keeps
    | simp only [Keeps.lit]
    | refine Keeps.foldl (fun _ _ _ => ?_) _ ?_
    | refine Keeps.of_pair ‹_ = (_, _)› ?_
    | (split)
    | (intro _ _ _)
    | (intro _ _)

theorem setEnrolled_keeps {σ : State} (n : Nat) (b : Bool) (s : Sys2Proof.Machine.State) (hk : Keeps σ s) : Keeps σ (setEnrolled n b s) := by
  unfold setEnrolled
  try dsimp only
  with_reducible repeat' first
    | assumption
    | apply Keeps.ite
    | apply State.setRegBit_keeps
    | simp only [Keeps.lit]
    | refine Keeps.foldl (fun _ _ _ => ?_) _ ?_
    | refine Keeps.of_pair ‹_ = (_, _)› ?_
    | (split)
    | (intro _ _ _)
    | (intro _ _)

theorem enrolRecords_keeps {σ : State} (n : Nat) (programmed : Bool) (s : Sys2Proof.Machine.State) (hk : Keeps σ s) : Keeps σ (enrolRecords n programmed s) := by
  unfold enrolRecords
  try dsimp only
  with_reducible repeat' first
    | assumption
    | apply Keeps.ite
    | apply endEnrol_keeps
    | apply memBurst_keeps
    | apply State.fuse_keeps
    | apply setEnrolled_keeps
    | apply State.storeList_keeps
    | apply State.used_keeps
    | simp only [Keeps.lit]
    | refine Keeps.foldl (fun _ _ _ => ?_) _ ?_
    | refine Keeps.of_pair ‹_ = (_, _)› ?_
    | (split)
    | (intro _ _ _)
    | (intro _ _)

theorem revoked_keeps {σ : State} (n : Nat) (programmed : Bool) (s : Sys2Proof.Machine.State) (hk : Keeps σ s) : Keeps σ (revoked n programmed s) := by
  unfold revoked
  try dsimp only
  with_reducible repeat' first
    | assumption
    | apply Keeps.ite
    | apply memBurst_keeps
    | apply endEnrol_keeps
    | apply State.storeWord_keeps
    | apply State.used_keeps
    | simp only [Keeps.lit]
    | refine Keeps.foldl (fun _ _ _ => ?_) _ ?_
    | refine Keeps.of_pair ‹_ = (_, _)› ?_
    | (split)
    | (intro _ _ _)
    | (intro _ _)

theorem execEnrolmentComplete_runs {σ : State} (rsp : Option (List Sys2Proof.Byte)) (programmed : Bool) (peak : Nat) (s : Sys2Proof.Machine.State) (hk : Keeps σ s) : Runs σ (execEnrolmentComplete rsp programmed peak s) := by
  unfold execEnrolmentComplete
  try dsimp only
  with_reducible repeat' first
    | assumption
    | apply Runs.next
    | apply Runs.ite
    | apply Keeps.ite
    | apply revoked_keeps
    | apply enrolRecords_keeps
    | apply enrFrameEnded_keeps
    | apply endEnrol_keeps
    | simp only [Keeps.lit]
    | refine Keeps.foldl (fun _ _ _ => ?_) _ ?_
    | refine Keeps.of_pair ‹_ = (_, _)› ?_
    | (split)
    | (intro _ _ _)
    | (intro _ _)

theorem dropSlot_keeps {σ : State} (n : Nat) (s : Sys2Proof.Machine.State) (hk : Keeps σ s) : Keeps σ (dropSlot n s) := by
  unfold dropSlot
  try dsimp only
  with_reducible repeat' first
    | assumption
    | apply Keeps.ite
    | apply State.setRegBit_keeps
    | simp only [Keeps.lit]
    | refine Keeps.foldl (fun _ _ _ => ?_) _ ?_
    | refine Keeps.of_pair ‹_ = (_, _)› ?_
    | (split)
    | (intro _ _ _)
    | (intro _ _)

theorem beginRevocation_keeps {σ : State} (r : Sys2Proof.Requester) (v : Sys2Proof.Word) (s : Sys2Proof.Machine.State) (hk : Keeps σ s) : Keeps σ (beginRevocation r v s) := by
  unfold beginRevocation
  try dsimp only
  with_reducible repeat' first
    | assumption
    | apply Keeps.ite
    | apply endEnrol_keeps
    | apply enrStatus_keeps
    | apply dropSlot_keeps
    | apply setEnrolled_keeps
    | simp only [Keeps.lit]
    | refine Keeps.foldl (fun _ _ _ => ?_) _ ?_
    | refine Keeps.of_pair ‹_ = (_, _)› ?_
    | (split)
    | (intro _ _ _)
    | (intro _ _)

theorem State.send_keeps {σ : State} (s : Sys2Proof.Machine.State) (m : Sys2Proof.Machine.Sent) (hk : Keeps σ s) : Keeps σ (State.send s m) := by
  unfold State.send
  try dsimp only
  with_reducible repeat' first
    | assumption
    | apply Keeps.ite
    | simp only [Keeps.lit]
    | refine Keeps.foldl (fun _ _ _ => ?_) _ ?_
    | refine Keeps.of_pair ‹_ = (_, _)› ?_
    | (split)
    | (intro _ _ _)
    | (intro _ _)

theorem sendChallenges_keeps {σ : State} (type : Nat) (slot : Nat) (mask : Nat) (body : List Sys2Proof.Byte) (s : Sys2Proof.Machine.State) (hk : Keeps σ s) : Keeps σ (sendChallenges type slot mask body s) := by
  unfold sendChallenges
  try dsimp only
  with_reducible repeat' first
    | assumption
    | apply Keeps.ite
    | apply State.send_keeps
    | simp only [Keeps.lit]
    | refine Keeps.foldl (fun _ _ _ => ?_) _ ?_
    | refine Keeps.of_pair ‹_ = (_, _)› ?_
    | (split)
    | (intro _ _ _)
    | (intro _ _)

theorem freshBytes_keeps {σ : State} (n : Nat) (s : State) (h : Keeps σ s) : Keeps σ (freshBytes n s).2 := by
  induction n generalizing s with
  | zero => exact h
  | succ n ih => exact ih _ (State.used_keeps _ h)

theorem beginEnrolment_keeps {σ : State} (r : Sys2Proof.Requester) (v : Sys2Proof.Word) (s : Sys2Proof.Machine.State) (hk : Keeps σ s) : Keeps σ (beginEnrolment r v s) := by
  unfold beginEnrolment
  try dsimp only
  with_reducible repeat' first
    | assumption
    | apply Keeps.ite
    | apply endEnrol_keeps
    | apply freshBytes_keeps
    | apply memBurst_keeps
    | apply sendChallenges_keeps
    | apply enrStatus_keeps
    | simp only [Keeps.lit]
    | refine Keeps.foldl (fun _ _ _ => ?_) _ ?_
    | refine Keeps.of_pair ‹_ = (_, _)› ?_
    | (split)
    | (intro _ _ _)
    | (intro _ _)

theorem formSlot_keeps {σ : State} (n : Nat) (s0 : Sys2Proof.Machine.State) (hk : Keeps σ s0) : Keeps σ (formSlot n s0) := by
  unfold formSlot
  try dsimp only
  with_reducible repeat' first
    | assumption
    | apply Keeps.ite
    | apply memBurst_keeps
    | apply State.storeList_keeps
    | apply setEnrolled_keeps
    | apply State.raiseHeld_keeps
    | simp only [Keeps.lit]
    | refine Keeps.foldl (fun _ _ _ => ?_) _ ?_
    | refine Keeps.of_pair ‹_ = (_, _)› ?_
    | (split)
    | (intro _ _ _)
    | (intro _ _)

theorem releaseSec_keeps {σ : State} (s : Sys2Proof.Machine.State) (hk : Keeps σ s) : Keeps σ (releaseSec s) := by
  unfold releaseSec
  try dsimp only
  with_reducible repeat' first
    | assumption
    | apply Keeps.ite
    | apply formSlot_keeps
    | apply loadRoot_keeps
    | simp only [Keeps.lit]
    | refine Keeps.foldl (fun _ _ _ => ?_) _ ?_
    | refine Keeps.of_pair ‹_ = (_, _)› ?_
    | (split)
    | (intro _ _ _)
    | (intro _ _)

theorem runHeld_keeps {σ : State} (s : Sys2Proof.Machine.State) (hk : Keeps σ s) : Keeps σ (runHeld s) := by
  unfold runHeld
  try dsimp only
  with_reducible repeat' first
    | assumption
    | apply Keeps.ite
    | apply beginEnrolment_keeps
    | simp only [Keeps.lit]
    | refine Keeps.foldl (fun _ _ _ => ?_) _ ?_
    | refine Keeps.of_pair ‹_ = (_, _)› ?_
    | (split)
    | (intro _ _ _)
    | (intro _ _)

theorem enrCmd_keeps {σ : State} (r : Sys2Proof.Requester) (v : Sys2Proof.Word) (s : Sys2Proof.Machine.State) (hk : Keeps σ s) : Keeps σ (enrCmd r v s) := by
  unfold enrCmd
  try dsimp only
  with_reducible repeat' first
    | assumption
    | apply Keeps.ite
    | apply beginRevocation_keeps
    | apply beginEnrolment_keeps
    | simp only [Keeps.lit]
    | refine Keeps.foldl (fun _ _ _ => ?_) _ ?_
    | refine Keeps.of_pair ‹_ = (_, _)› ?_
    | (split)
    | (intro _ _ _)
    | (intro _ _)

theorem resetSec_keeps {σ : State} (s : Sys2Proof.Machine.State) (hk : Keeps σ s) : Keeps σ (resetSec s) := by
  unfold resetSec
  try dsimp only
  with_reducible repeat' first
    | assumption
    | apply Keeps.ite
    | simp only [Keeps.lit]
    | refine Keeps.foldl (fun _ _ _ => ?_) _ ?_
    | refine Keeps.of_pair ‹_ = (_, _)› ?_
    | (split)
    | (intro _ _ _)
    | (intro _ _)

end Sys2Proof.Machine
end

