-- ==== Sys2Proof/Laws/KeepsKeyErase.lean ====
section
/-! SUPPORT. Every operation of Machine/KeyErase.lean keeps what a command keeps. -/

set_option linter.all false

namespace Sys2Proof.Machine

theorem cipherEvent_keeps {σ : State} (k : Nat) (s : Sys2Proof.Machine.State) (hk : Keeps σ s) : Keeps σ (cipherEvent k s) := by
  unfold cipherEvent
  try dsimp only
  with_reducible repeat' first
    | assumption
    | apply Keeps.ite
    | apply State.setRegBit_keeps
    | apply State.route_keeps
    | simp only [Keeps.lit]
    | refine Keeps.foldl (fun _ _ _ => ?_) _ ?_
    | refine Keeps.of_pair ‹_ = (_, _)› ?_
    | (split)
    | (intro _ _ _)
    | (intro _ _)

theorem abortSession_keeps {σ : State} (s : Sys2Proof.Machine.State) (hk : Keeps σ s) : Keeps σ (abortSession s) := by
  unfold abortSession
  try dsimp only
  with_reducible repeat' first
    | assumption
    | apply Keeps.ite
    | apply State.setReg_keeps
    | apply runHeld_keeps
    | simp only [Keeps.lit]
    | refine Keeps.foldl (fun _ _ _ => ?_) _ ?_
    | refine Keeps.of_pair ‹_ = (_, _)› ?_
    | (split)
    | (intro _ _ _)
    | (intro _ _)

theorem endRunning_keeps {σ : State} (code : Nat) (s : Sys2Proof.Machine.State) (hk : Keeps σ s) : Keeps σ (endRunning code s) := by
  unfold endRunning
  try dsimp only
  with_reducible repeat' first
    | assumption
    | apply Keeps.ite
    | simp only [Keeps.lit]
    | refine Keeps.foldl (fun _ _ _ => ?_) _ ?_
    | refine Keeps.of_pair ‹_ = (_, _)› ?_
    | (split)
    | (intro _ _ _)
    | (intro _ _)

theorem eraseSlots_keeps {σ : State} (s : Sys2Proof.Machine.State) (hk : Keeps σ s) : Keeps σ (eraseSlots s) := by
  unfold eraseSlots
  try dsimp only
  with_reducible repeat' first
    | assumption
    | apply Keeps.ite
    | apply State.dropRegs_keeps
    | simp only [Keeps.lit]
    | refine Keeps.foldl (fun _ _ _ => ?_) _ ?_
    | refine Keeps.of_pair ‹_ = (_, _)› ?_
    | (split)
    | (intro _ _ _)
    | (intro _ _)

theorem eraseAlarm_keeps {σ : State} (b : Nat) (s : Sys2Proof.Machine.State) (hk : Keeps σ s) : Keeps σ (eraseAlarm b s) := by
  unfold eraseAlarm
  try dsimp only
  with_reducible repeat' first
    | assumption
    | apply Keeps.ite
    | apply abortSession_keeps
    | apply eraseSlots_keeps
    | apply endRunning_keeps
    | apply State.setRegBit_keeps
    | apply cipherEvent_keeps
    | apply State.raise_keeps
    | simp only [Keeps.lit]
    | refine Keeps.foldl (fun _ _ _ => ?_) _ ?_
    | refine Keeps.of_pair ‹_ = (_, _)› ?_
    | (split)
    | (intro _ _ _)
    | (intro _ _)

theorem execErasingAlarm_runs {σ : State} (a : Fin 5) (s : Sys2Proof.Machine.State) (hk : Keeps σ s) : Runs σ (execErasingAlarm a s) := by
  unfold execErasingAlarm
  try dsimp only
  with_reducible repeat' first
    | assumption
    | apply Runs.next
    | apply Runs.ite
    | apply Keeps.ite
    | apply eraseAlarm_keeps
    | simp only [Keeps.lit]
    | refine Keeps.foldl (fun _ _ _ => ?_) _ ?_
    | refine Keeps.of_pair ‹_ = (_, _)› ?_
    | (split)
    | (intro _ _ _)
    | (intro _ _)

theorem execAlarmEnd_runs {σ : State} (a : Fin 5) (s : Sys2Proof.Machine.State) (hk : Keeps σ s) : Runs σ (execAlarmEnd a s) := by
  unfold execAlarmEnd
  try dsimp only
  with_reducible repeat' first
    | assumption
    | apply Runs.next
    | apply Runs.ite
    | apply Keeps.ite
    | apply loadRoot_keeps
    | simp only [Keeps.lit]
    | refine Keeps.foldl (fun _ _ _ => ?_) _ ?_
    | refine Keeps.of_pair ‹_ = (_, _)› ?_
    | (split)
    | (intro _ _ _)
    | (intro _ _)

end Sys2Proof.Machine
end

