-- ==== Sys2Proof/Laws/KeepsCipher.lean ====
section
/-! SUPPORT. Every operation of Machine/Cipher.lean keeps what a command keeps. -/

set_option linter.all false

namespace Sys2Proof.Machine

theorem jobLines_keeps {σ : State} (k : Nat) (a : Nat) (n : Nat) (s : Sys2Proof.Machine.State) (hk : Keeps σ s) : Keeps σ (jobLines k a n s) := by
  unfold jobLines
  try dsimp only
  with_reducible repeat' first
    | assumption
    | apply Keeps.ite
    | apply memBurst_keeps
    | simp only [Keeps.lit]
    | refine Keeps.foldl (fun _ _ _ => ?_) _ ?_
    | refine Keeps.of_pair ‹_ = (_, _)› ?_
    | (split)
    | (intro _ _ _)
    | (intro _ _)

theorem putBlock_keeps {σ : State} (a : Nat) (bs : List Sys2Proof.Byte) (s : Sys2Proof.Machine.State) (hk : Keeps σ s) : Keeps σ (putBlock a bs s) := by
  unfold putBlock
  try dsimp only
  with_reducible repeat' first
    | assumption
    | apply Keeps.ite
    | apply freshBytes_keeps
    | apply State.setRegList_keeps
    | simp only [Keeps.lit]
    | refine Keeps.foldl (fun _ _ _ => ?_) _ ?_
    | refine Keeps.of_pair ‹_ = (_, _)› ?_
    | (split)
    | (intro _ _ _)
    | (intro _ _)

theorem jobWrite_keeps {σ : State} (a : Nat) (ws : List Sys2Proof.Word) (s : Sys2Proof.Machine.State) (hk : Keeps σ s) : Keeps σ (jobWrite a ws s) := by
  unfold jobWrite
  try dsimp only
  with_reducible repeat' first
    | assumption
    | apply Keeps.ite
    | apply State.storeList_keeps
    | apply State.setRegList_keeps
    | simp only [Keeps.lit]
    | refine Keeps.foldl (fun _ _ _ => ?_) _ ?_
    | refine Keeps.of_pair ‹_ = (_, _)› ?_
    | (split)
    | (intro _ _ _)
    | (intro _ _)

theorem State.setJob_keeps {σ : State} (s : Sys2Proof.Machine.State) (j : Nat) (x : Sys2Proof.Machine.Job) (hk : Keeps σ s) : Keeps σ (State.setJob s j x) := by
  unfold State.setJob
  try dsimp only
  with_reducible repeat' first
    | assumption
    | apply Keeps.ite
    | apply State.setReg_keeps
    | simp only [Keeps.lit]
    | refine Keeps.foldl (fun _ _ _ => ?_) _ ?_
    | refine Keeps.of_pair ‹_ = (_, _)› ?_
    | (split)
    | (intro _ _ _)
    | (intro _ _)

theorem jobEnd_keeps {σ : State} (j : Nat) (code : Nat) (outBytes : Nat) (s : Sys2Proof.Machine.State) (hk : Keeps σ s) : Keeps σ (jobEnd j code outBytes s) := by
  unfold jobEnd
  try dsimp only
  with_reducible repeat' first
    | assumption
    | apply Keeps.ite
    | apply State.setRegList_keeps
    | apply State.setJob_keeps
    | apply cipherEvent_keeps
    | apply State.setReg_keeps
    | simp only [Keeps.lit]
    | refine Keeps.foldl (fun _ _ _ => ?_) _ ?_
    | refine Keeps.of_pair ‹_ = (_, _)› ?_
    | (split)
    | (intro _ _ _)
    | (intro _ _)

theorem execJobComplete_runs {σ : State} (s0 : Sys2Proof.Machine.State) (hk : Keeps σ s0) : Runs σ (execJobComplete s0) := by
  unfold execJobComplete
  try dsimp only
  with_reducible repeat' first
    | assumption
    | apply Runs.next
    | apply Runs.ite
    | apply Keeps.ite
    | apply jobLines_keeps
    | apply jobEnd_keeps
    | apply jobWrite_keeps
    | apply State.used_keeps
    | apply putBlock_keeps
    | apply State.raiseIsl_keeps
    | apply State.setRegList_keeps
    | simp only [Keeps.lit]
    | refine Keeps.foldl (fun _ _ _ => ?_) _ ?_
    | refine Keeps.of_pair ‹_ = (_, _)› ?_
    | (split)
    | (intro _ _ _)
    | (intro _ _)

theorem ksCmd_keeps {σ : State} (r : Sys2Proof.Requester) (v : Sys2Proof.Word) (s : Sys2Proof.Machine.State) (hk : Keeps σ s) : Keeps σ (ksCmd r v s) := by
  unfold ksCmd
  try dsimp only
  with_reducible repeat' first
    | assumption
    | apply Keeps.ite
    | apply State.setReg_keeps
    | simp only [Keeps.lit]
    | refine Keeps.foldl (fun _ _ _ => ?_) _ ?_
    | refine Keeps.of_pair ‹_ = (_, _)› ?_
    | (split)
    | (intro _ _ _)
    | (intro _ _)

theorem ksAccess_keeps {σ : State} (k : Sys2Proof.Machine.KsCmd) (s : Sys2Proof.Machine.State) (hk : Keeps σ s) : Keeps σ (ksAccess k s) := by
  unfold ksAccess
  try dsimp only
  with_reducible repeat' first
    | assumption
    | apply Keeps.ite
    | apply memBurst_keeps
    | simp only [Keeps.lit]
    | refine Keeps.foldl (fun _ _ _ => ?_) _ ?_
    | refine Keeps.of_pair ‹_ = (_, _)› ?_
    | (split)
    | (intro _ _ _)
    | (intro _ _)

theorem trnRead_keeps {σ : State} (s : Sys2Proof.Machine.State) (hk : Keeps σ s) : Keeps σ (trnRead s).2 := by
  unfold trnRead
  try dsimp only
  with_reducible repeat' first
    | assumption
    | apply Keeps.ite
    | apply State.used_keeps
    | simp only [Keeps.lit]
    | refine Keeps.foldl (fun _ _ _ => ?_) _ ?_
    | refine Keeps.of_pair ‹_ = (_, _)› ?_
    | (split)
    | (intro _ _ _)
    | (intro _ _)

theorem jobGo_keeps {σ : State} (r : Sys2Proof.Requester) (j : Nat) (v : Sys2Proof.Word) (s : Sys2Proof.Machine.State) (hk : Keeps σ s) : Keeps σ (jobGo r j v s) := by
  unfold jobGo
  try dsimp only
  with_reducible repeat' first
    | assumption
    | apply Keeps.ite
    | apply State.setJob_keeps
    | simp only [Keeps.lit]
    | refine Keeps.foldl (fun _ _ _ => ?_) _ ?_
    | refine Keeps.of_pair ‹_ = (_, _)› ?_
    | (split)
    | (intro _ _ _)
    | (intro _ _)

theorem unwrapCode_keeps {σ : State} (n : Nat) (s : Sys2Proof.Machine.State) (hk : Keeps σ s) : Keeps σ (unwrapCode n s).2 := by
  unfold unwrapCode
  try dsimp only
  with_reducible repeat' first
    | assumption
    | apply Keeps.ite
    | apply State.used_keeps
    | simp only [Keeps.lit]
    | refine Keeps.foldl (fun _ _ _ => ?_) _ ?_
    | refine Keeps.of_pair ‹_ = (_, _)› ?_
    | (split)
    | (intro _ _ _)
    | (intro _ _)

theorem ksWork_keeps {σ : State} (k : Sys2Proof.Machine.KsCmd) (s : Sys2Proof.Machine.State) (hk : Keeps σ s) : Keeps σ (ksWork k s).2 := by
  unfold ksWork
  try dsimp only
  with_reducible repeat' first
    | assumption
    | apply Keeps.ite
    | apply unwrapCode_keeps
    | apply State.setSlot_keeps
    | apply freshBytes_keeps
    | apply State.storeList_keeps
    | apply endRunning_keeps
    | simp only [Keeps.lit]
    | refine Keeps.foldl (fun _ _ _ => ?_) _ ?_
    | refine Keeps.of_pair ‹_ = (_, _)› ?_
    | (split)
    | (intro _ _ _)
    | (intro _ _)

theorem execJobStart_runs {σ : State} (s : Sys2Proof.Machine.State) (hk : Keeps σ s) : Runs σ (execJobStart s) := by
  unfold execJobStart
  try dsimp only
  with_reducible repeat' first
    | assumption
    | apply Runs.next
    | apply Runs.ite
    | apply Keeps.ite
    | apply State.setJob_keeps
    | simp only [Keeps.lit]
    | refine Keeps.foldl (fun _ _ _ => ?_) _ ?_
    | refine Keeps.of_pair ‹_ = (_, _)› ?_
    | (split)
    | (intro _ _ _)
    | (intro _ _)

theorem execKeyStoreComplete_runs {σ : State} (s : Sys2Proof.Machine.State) (hk : Keeps σ s) : Runs σ (execKeyStoreComplete s) := by
  unfold execKeyStoreComplete
  try dsimp only
  with_reducible repeat' first
    | assumption
    | apply Runs.next
    | apply Runs.ite
    | apply Keeps.ite
    | apply ksWork_keeps
    | apply ksAccess_keeps
    | apply State.raiseIsl_keeps
    | apply cipherEvent_keeps
    | apply State.setReg_keeps
    | simp only [Keeps.lit]
    | refine Keeps.foldl (fun _ _ _ => ?_) _ ?_
    | refine Keeps.of_pair ‹_ = (_, _)› ?_
    | (split)
    | (intro _ _ _)
    | (intro _ _)

theorem jobStage_keeps {σ : State} (r : Sys2Proof.Requester) (j : Nat) (w : Nat) (v : Sys2Proof.Word) (s : Sys2Proof.Machine.State) (hk : Keeps σ s) : Keeps σ (jobStage r j w v s) := by
  unfold jobStage
  try dsimp only
  with_reducible repeat' first
    | assumption
    | apply Keeps.ite
    | apply State.setJob_keeps
    | apply State.setReg_keeps
    | simp only [Keeps.lit]
    | refine Keeps.foldl (fun _ _ _ => ?_) _ ?_
    | refine Keeps.of_pair ‹_ = (_, _)› ?_
    | (split)
    | (intro _ _ _)
    | (intro _ _)

theorem execRandomHealthFail_runs {σ : State} (failed : Bool) (s : Sys2Proof.Machine.State) (hk : Keeps σ s) : Runs σ (execRandomHealthFail failed s) := by
  unfold execRandomHealthFail
  try dsimp only
  with_reducible repeat' first
    | assumption
    | apply Runs.next
    | apply Runs.ite
    | apply Keeps.ite
    | apply State.level_keeps
    | apply abortSession_keeps
    | simp only [Keeps.lit]
    | refine Keeps.foldl (fun _ _ _ => ?_) _ ?_
    | refine Keeps.of_pair ‹_ = (_, _)› ?_
    | (split)
    | (intro _ _ _)
    | (intro _ _)

end Sys2Proof.Machine
end

