-- ==== Sys2Proof/Laws/KeepsNetBase.lean ====
section
/-! SUPPORT. Every operation of Machine/NetBase.lean keeps what a command keeps. -/

set_option linter.all false

namespace Sys2Proof.Machine

theorem countUp_keeps {σ : State} (a : Nat) (s : Sys2Proof.Machine.State) (hk : Keeps σ s) : Keeps σ (countUp a s) := by
  unfold countUp
  try dsimp only
  with_reducible repeat' first
    | assumption
    | apply Keeps.ite
    | apply State.setReg_keeps
    | simp only [Keeps.lit]
    | refine Keeps.foldl (fun _ _ _ => ?_) _ ?_
    | refine Keeps.of_pair ‹_ = (_, _)› ?_
    | (split)
    | (intro _ _ _)
    | (intro _ _)

theorem putCan_keeps {σ : State} (n : Nat) (f : Sys2Proof.CanFrame) (s : Sys2Proof.Machine.State) (hk : Keeps σ s) : Keeps σ (putCan n f s) := by
  unfold putCan
  try dsimp only
  with_reducible repeat' first
    | assumption
    | apply Keeps.ite
    | apply countUp_keeps
    | apply State.send_keeps
    | simp only [Keeps.lit]
    | refine Keeps.foldl (fun _ _ _ => ?_) _ ?_
    | refine Keeps.of_pair ‹_ = (_, _)› ?_
    | (split)
    | (intro _ _ _)
    | (intro _ _)

theorem modRing_keeps {σ : State} (f : Sys2Proof.Machine.RingRec → Sys2Proof.Machine.RingRec) (s : Sys2Proof.Machine.State) (hk : Keeps σ s) : Keeps σ (modRing f s) := by
  unfold modRing
  try dsimp only
  with_reducible repeat' first
    | assumption
    | apply Keeps.ite
    | simp only [Keeps.lit]
    | refine Keeps.foldl (fun _ _ _ => ?_) _ ?_
    | refine Keeps.of_pair ‹_ = (_, _)› ?_
    | (split)
    | (intro _ _ _)
    | (intro _ _)

theorem clearSkips_keeps {σ : State} (m : Nat) (s : Sys2Proof.Machine.State) (hk : Keeps σ s) : Keeps σ (clearSkips m s) := by
  unfold clearSkips
  try dsimp only
  with_reducible repeat' first
    | assumption
    | apply Keeps.ite
    | apply modRing_keeps
    | simp only [Keeps.lit]
    | refine Keeps.foldl (fun _ _ _ => ?_) _ ?_
    | refine Keeps.of_pair ‹_ = (_, _)› ?_
    | (split)
    | (intro _ _ _)
    | (intro _ _)

theorem clearVeto_keeps {σ : State} (m : Nat) (s : Sys2Proof.Machine.State) (hk : Keeps σ s) : Keeps σ (clearVeto m s) := by
  unfold clearVeto
  try dsimp only
  with_reducible repeat' first
    | assumption
    | apply Keeps.ite
    | apply modRing_keeps
    | simp only [Keeps.lit]
    | refine Keeps.foldl (fun _ _ _ => ?_) _ ?_
    | refine Keeps.of_pair ‹_ = (_, _)› ?_
    | (split)
    | (intro _ _ _)
    | (intro _ _)

theorem setMember_keeps {σ : State} (m : Nat) (b : Bool) (s : Sys2Proof.Machine.State) (hk : Keeps σ s) : Keeps σ (setMember m b s) := by
  unfold setMember
  try dsimp only
  with_reducible repeat' first
    | assumption
    | apply Keeps.ite
    | apply State.setRegBit_keeps
    | simp only [Keeps.lit]
    | refine Keeps.foldl (fun _ _ _ => ?_) _ ?_
    | refine Keeps.of_pair ‹_ = (_, _)› ?_
    | (split)
    | (intro _ _ _)
    | (intro _ _)

theorem removeMember_keeps {σ : State} (m : Nat) (s : Sys2Proof.Machine.State) (hk : Keeps σ s) : Keeps σ (removeMember m s) := by
  unfold removeMember
  try dsimp only
  with_reducible repeat' first
    | assumption
    | apply Keeps.ite
    | apply clearSkips_keeps
    | apply clearVeto_keeps
    | apply setMember_keeps
    | simp only [Keeps.lit]
    | refine Keeps.foldl (fun _ _ _ => ?_) _ ?_
    | refine Keeps.of_pair ‹_ = (_, _)› ?_
    | (split)
    | (intro _ _ _)
    | (intro _ _)

theorem resetNet_keeps {σ : State} (s : Sys2Proof.Machine.State) (hk : Keeps σ s) : Keeps σ (resetNet s) := by
  unfold resetNet
  try dsimp only
  with_reducible repeat' first
    | assumption
    | apply Keeps.ite
    | simp only [Keeps.lit]
    | refine Keeps.foldl (fun _ _ _ => ?_) _ ?_
    | refine Keeps.of_pair ‹_ = (_, _)› ?_
    | (split)
    | (intro _ _ _)
    | (intro _ _)

theorem netSleep_keeps {σ : State} (deep : Bool) (s : Sys2Proof.Machine.State) (hk : Keeps σ s) : Keeps σ (netSleep deep s) := by
  unfold netSleep
  try dsimp only
  with_reducible repeat' first
    | assumption
    | apply Keeps.ite
    | apply State.setRegBit_keeps
    | apply State.setRegFld_keeps
    | simp only [Keeps.lit]
    | refine Keeps.foldl (fun _ _ _ => ?_) _ ?_
    | refine Keeps.of_pair ‹_ = (_, _)› ?_
    | (split)
    | (intro _ _ _)
    | (intro _ _)

theorem setHolder_keeps {σ : State} (b : Bool) (s : Sys2Proof.Machine.State) (hk : Keeps σ s) : Keeps σ (setHolder b s) := by
  unfold setHolder
  try dsimp only
  with_reducible repeat' first
    | assumption
    | apply Keeps.ite
    | apply State.setRegBit_keeps
    | apply modRing_keeps
    | simp only [Keeps.lit]
    | refine Keeps.foldl (fun _ _ _ => ?_) _ ?_
    | refine Keeps.of_pair ‹_ = (_, _)› ?_
    | (split)
    | (intro _ _ _)
    | (intro _ _)

theorem netEvent_keeps {σ : State} (k : Nat) (s : Sys2Proof.Machine.State) (hk : Keeps σ s) : Keeps σ (netEvent k s) := by
  unfold netEvent
  try dsimp only
  with_reducible repeat' first
    | assumption
    | apply Keeps.ite
    | apply State.setRegBit_keeps
    | apply State.route_keeps
    | simp only [Keeps.lit]
    | refine Keeps.foldl (fun _ _ _ => ?_) _ ?_
    | refine Keeps.of_pair ‹_ = (_, _)› ?_
    | (split)
    | (intro _ _ _)
    | (intro _ _)

theorem setTrState_keeps {σ : State} (k : Nat) (s : Sys2Proof.Machine.State) (hk : Keeps σ s) : Keeps σ (setTrState k s) := by
  unfold setTrState
  try dsimp only
  with_reducible repeat' first
    | assumption
    | apply Keeps.ite
    | apply netEvent_keeps
    | apply State.level_keeps
    | apply State.setRegFld_keeps
    | simp only [Keeps.lit]
    | refine Keeps.foldl (fun _ _ _ => ?_) _ ?_
    | refine Keeps.of_pair ‹_ = (_, _)› ?_
    | (split)
    | (intro _ _ _)
    | (intro _ _)

theorem tokenTimer_keeps {σ : State} (s : Sys2Proof.Machine.State) (hk : Keeps σ s) : Keeps σ (tokenTimer s) := by
  unfold tokenTimer
  try dsimp only
  with_reducible repeat' first
    | assumption
    | apply Keeps.ite
    | apply modRing_keeps
    | simp only [Keeps.lit]
    | refine Keeps.foldl (fun _ _ _ => ?_) _ ?_
    | refine Keeps.of_pair ‹_ = (_, _)› ?_
    | (split)
    | (intro _ _ _)
    | (intro _ _)

theorem cancelSleep_keeps {σ : State} (s : Sys2Proof.Machine.State) (hk : Keeps σ s) : Keeps σ (cancelSleep s) := by
  unfold cancelSleep
  try dsimp only
  with_reducible repeat' first
    | assumption
    | apply Keeps.ite
    | apply tokenTimer_keeps
    | apply setTrState_keeps
    | apply modRing_keeps
    | apply State.setRegFld_keeps
    | apply setHolder_keeps
    | simp only [Keeps.lit]
    | refine Keeps.foldl (fun _ _ _ => ?_) _ ?_
    | refine Keeps.of_pair ‹_ = (_, _)› ?_
    | (split)
    | (intro _ _ _)
    | (intro _ _)

theorem gwDrop_keeps {σ : State} (s : Sys2Proof.Machine.State) (hk : Keeps σ s) : Keeps σ (gwDrop s) := by
  unfold gwDrop
  try dsimp only
  with_reducible repeat' first
    | assumption
    | apply Keeps.ite
    | apply State.regInc_keeps
    | simp only [Keeps.lit]
    | refine Keeps.foldl (fun _ _ _ => ?_) _ ?_
    | refine Keeps.of_pair ‹_ = (_, _)› ?_
    | (split)
    | (intro _ _ _)
    | (intro _ _)

theorem gwDropAt_keeps {σ : State} (p : Nat) (s : Sys2Proof.Machine.State) (hk : Keeps σ s) : Keeps σ (gwDropAt p s) := by
  unfold gwDropAt
  try dsimp only
  with_reducible repeat' first
    | assumption
    | apply Keeps.ite
    | apply gwDrop_keeps
    | apply State.setRegFld_keeps
    | simp only [Keeps.lit]
    | refine Keeps.foldl (fun _ _ _ => ?_) _ ?_
    | refine Keeps.of_pair ‹_ = (_, _)› ?_
    | (split)
    | (intro _ _ _)
    | (intro _ _)

theorem sendCan_keeps {σ : State} (n : Nat) (f : Sys2Proof.CanFrame) (s : Sys2Proof.Machine.State) (hk : Keeps σ s) : Keeps σ (sendCan n f s) := by
  unfold sendCan
  try dsimp only
  with_reducible repeat' first
    | assumption
    | apply Keeps.ite
    | apply gwDropAt_keeps
    | apply putCan_keeps
    | simp only [Keeps.lit]
    | refine Keeps.foldl (fun _ _ _ => ?_) _ ?_
    | refine Keeps.of_pair ‹_ = (_, _)› ?_
    | (split)
    | (intro _ _ _)
    | (intro _ _)

theorem sendRing_keeps {σ : State} (data : List Sys2Proof.Byte) (s : Sys2Proof.Machine.State) (hk : Keeps σ s) : Keeps σ (sendRing data s) := by
  unfold sendRing
  try dsimp only
  with_reducible repeat' first
    | assumption
    | apply Keeps.ite
    | apply sendCan_keeps
    | simp only [Keeps.lit]
    | refine Keeps.foldl (fun _ _ _ => ?_) _ ?_
    | refine Keeps.of_pair ‹_ = (_, _)› ?_
    | (split)
    | (intro _ _ _)
    | (intro _ _)

theorem ringRevoke_keeps {σ : State} (s : Sys2Proof.Machine.State) (hk : Keeps σ s) : Keeps σ (ringRevoke s) := by
  unfold ringRevoke
  try dsimp only
  with_reducible repeat' first
    | assumption
    | apply Keeps.ite
    | apply cancelSleep_keeps
    | apply setMember_keeps
    | apply sendRing_keeps
    | simp only [Keeps.lit]
    | refine Keeps.foldl (fun _ _ _ => ?_) _ ?_
    | refine Keeps.of_pair ‹_ = (_, _)› ?_
    | (split)
    | (intro _ _ _)
    | (intro _ _)

theorem ringWake_keeps {σ : State} (b : Nat) (s : Sys2Proof.Machine.State) (hk : Keeps σ s) : Keeps σ (ringWake b s) := by
  unfold ringWake
  try dsimp only
  with_reducible repeat' first
    | assumption
    | apply Keeps.ite
    | apply ringRevoke_keeps
    | simp only [Keeps.lit]
    | refine Keeps.foldl (fun _ _ _ => ?_) _ ?_
    | refine Keeps.of_pair ‹_ = (_, _)› ?_
    | (split)
    | (intro _ _ _)
    | (intro _ _)

theorem linWakeStart_keeps {σ : State} (n : Nat) (s : Sys2Proof.Machine.State) (hk : Keeps σ s) : Keeps σ (linWakeStart n s) := by
  unfold linWakeStart
  try dsimp only
  with_reducible repeat' first
    | assumption
    | apply Keeps.ite
    | apply State.send_keeps
    | simp only [Keeps.lit]
    | refine Keeps.foldl (fun _ _ _ => ?_) _ ?_
    | refine Keeps.of_pair ‹_ = (_, _)› ?_
    | (split)
    | (intro _ _ _)
    | (intro _ _)

theorem sendJoin_keeps {σ : State} (s : Sys2Proof.Machine.State) (hk : Keeps σ s) : Keeps σ (sendJoin s) := by
  unfold sendJoin
  try dsimp only
  with_reducible repeat' first
    | assumption
    | apply Keeps.ite
    | apply State.setRegBit_keeps
    | apply setMember_keeps
    | apply sendRing_keeps
    | simp only [Keeps.lit]
    | refine Keeps.foldl (fun _ _ _ => ?_) _ ?_
    | refine Keeps.of_pair ‹_ = (_, _)› ?_
    | (split)
    | (intro _ _ _)
    | (intro _ _)

theorem enterJoining_keeps {σ : State} (s : Sys2Proof.Machine.State) (hk : Keeps σ s) : Keeps σ (enterJoining s) := by
  unfold enterJoining
  try dsimp only
  with_reducible repeat' first
    | assumption
    | apply Keeps.ite
    | apply sendJoin_keeps
    | apply tokenTimer_keeps
    | apply setTrState_keeps
    | apply setHolder_keeps
    | apply modRing_keeps
    | simp only [Keeps.lit]
    | refine Keeps.foldl (fun _ _ _ => ?_) _ ?_
    | refine Keeps.of_pair ‹_ = (_, _)› ?_
    | (split)
    | (intro _ _ _)
    | (intro _ _)

theorem isolatePhy_keeps {σ : State} (p : Nat) (s : Sys2Proof.Machine.State) (hk : Keeps σ s) : Keeps σ (isolatePhy p s) := by
  unfold isolatePhy
  try dsimp only
  with_reducible repeat' first
    | assumption
    | apply Keeps.ite
    | apply State.setRegBit_keeps
    | apply State.setRegFld_keeps
    | simp only [Keeps.lit]
    | refine Keeps.foldl (fun _ _ _ => ?_) _ ?_
    | refine Keeps.of_pair ‹_ = (_, _)› ?_
    | (split)
    | (intro _ _ _)
    | (intro _ _)

theorem setIso_keeps {σ : State} (v : Sys2Proof.Word) (s : Sys2Proof.Machine.State) (hk : Keeps σ s) : Keeps σ (setIso v s) := by
  unfold setIso
  try dsimp only
  with_reducible repeat' first
    | assumption
    | apply Keeps.ite
    | apply State.level_keeps
    | apply State.setReg_keeps
    | apply netEvent_keeps
    | apply isolatePhy_keeps
    | simp only [Keeps.lit]
    | refine Keeps.foldl (fun _ _ _ => ?_) _ ?_
    | refine Keeps.of_pair ‹_ = (_, _)› ?_
    | (split)
    | (intro _ _ _)
    | (intro _ _)

theorem netTerminals_keeps {σ : State} (s : Sys2Proof.Machine.State) (hk : Keeps σ s) : Keeps σ (netTerminals s) := by
  unfold netTerminals
  try dsimp only
  with_reducible repeat' first
    | assumption
    | apply Keeps.ite
    | apply State.setReg_keeps
    | simp only [Keeps.lit]
    | refine Keeps.foldl (fun _ _ _ => ?_) _ ?_
    | refine Keeps.of_pair ‹_ = (_, _)› ?_
    | (split)
    | (intro _ _ _)
    | (intro _ _)

theorem sendWake_keeps {σ : State} (s : Sys2Proof.Machine.State) (hk : Keeps σ s) : Keeps σ (sendWake s) := by
  unfold sendWake
  try dsimp only
  with_reducible repeat' first
    | assumption
    | apply Keeps.ite
    | apply State.setRegBit_keeps
    | apply linWakeStart_keeps
    | apply State.send_keeps
    | apply State.setRegFld_keeps
    | simp only [Keeps.lit]
    | refine Keeps.foldl (fun _ _ _ => ?_) _ ?_
    | refine Keeps.of_pair ‹_ = (_, _)› ?_
    | (split)
    | (intro _ _ _)
    | (intro _ _)

theorem isolatePort_keeps {σ : State} (p : Nat) (s : Sys2Proof.Machine.State) (hk : Keeps σ s) : Keeps σ (isolatePort p s) := by
  unfold isolatePort
  try dsimp only
  with_reducible repeat' first
    | assumption
    | apply Keeps.ite
    | apply setIso_keeps
    | simp only [Keeps.lit]
    | refine Keeps.foldl (fun _ _ _ => ?_) _ ?_
    | refine Keeps.of_pair ‹_ = (_, _)› ?_
    | (split)
    | (intro _ _ _)
    | (intro _ _)

theorem netOnRun_keeps {σ : State} (s : Sys2Proof.Machine.State) (hk : Keeps σ s) : Keeps σ (netOnRun s) := by
  unfold netOnRun
  try dsimp only
  with_reducible repeat' first
    | assumption
    | apply Keeps.ite
    | apply State.level_keeps
    | apply sendWake_keeps
    | simp only [Keeps.lit]
    | refine Keeps.foldl (fun _ _ _ => ?_) _ ?_
    | refine Keeps.of_pair ‹_ = (_, _)› ?_
    | (split)
    | (intro _ _ _)
    | (intro _ _)

theorem resetAon_keeps {σ : State} (s : Sys2Proof.Machine.State) (hk : Keeps σ s) : Keeps σ (resetAon s) := by
  unfold resetAon
  try dsimp only
  with_reducible repeat' first
    | assumption
    | apply Keeps.ite
    | simp only [Keeps.lit]
    | refine Keeps.foldl (fun _ _ _ => ?_) _ ?_
    | refine Keeps.of_pair ‹_ = (_, _)› ?_
    | (split)
    | (intro _ _ _)
    | (intro _ _)

end Sys2Proof.Machine
end

