-- ==== Sys2Proof/Laws/KeepsChannel.lean ====
section
/-! SUPPORT. Every operation of Machine/Channel.lean keeps what a command keeps. -/

set_option linter.all false

namespace Sys2Proof.Machine

theorem State.oibEvent_keeps {σ : State} (s : Sys2Proof.Machine.State) (i : Sys2Proof.OutIsl) (b : Nat) (hk : Keeps σ s) : Keeps σ (State.oibEvent s i b) := by
  unfold State.oibEvent
  try dsimp only
  with_reducible repeat' first
    | assumption
    | apply Keeps.ite
    | apply State.route_keeps
    | simp only [Keeps.lit]
    | refine Keeps.foldl (fun _ _ _ => ?_) _ ?_
    | refine Keeps.of_pair ‹_ = (_, _)› ?_
    | (split)
    | (intro _ _ _)
    | (intro _ _)

theorem State.setChan_keeps {σ : State} (s : Sys2Proof.Machine.State) (c : Sys2Proof.ChanRef) (r : Sys2Proof.Machine.Chan) (hk : Keeps σ s) : Keeps σ (State.setChan s c r) := by
  unfold State.setChan
  try dsimp only
  with_reducible repeat' first
    | assumption
    | apply Keeps.ite
    | simp only [Keeps.lit]
    | refine Keeps.foldl (fun _ _ _ => ?_) _ ?_
    | refine Keeps.of_pair ‹_ = (_, _)› ?_
    | (split)
    | (intro _ _ _)
    | (intro _ _)

theorem refreshPause_keeps {σ : State} (ch : Sys2Proof.ChanRef) (s : Sys2Proof.Machine.State) (hk : Keeps σ s) : Keeps σ (refreshPause ch s) := by
  unfold refreshPause
  try dsimp only
  with_reducible repeat' first
    | assumption
    | apply Keeps.ite
    | apply State.setChan_keeps
    | simp only [Keeps.lit]
    | refine Keeps.foldl (fun _ _ _ => ?_) _ ?_
    | refine Keeps.of_pair ‹_ = (_, _)› ?_
    | (split)
    | (intro _ _ _)
    | (intro _ _)

theorem State.modChan_keeps {σ : State} (s : Sys2Proof.Machine.State) (c : Sys2Proof.ChanRef) (f : Sys2Proof.Machine.Chan → Sys2Proof.Machine.Chan) (hk : Keeps σ s) : Keeps σ (State.modChan s c f) := by
  unfold State.modChan
  try dsimp only
  with_reducible repeat' first
    | assumption
    | apply Keeps.ite
    | apply State.setChan_keeps
    | simp only [Keeps.lit]
    | refine Keeps.foldl (fun _ _ _ => ?_) _ ?_
    | refine Keeps.of_pair ‹_ = (_, _)› ?_
    | (split)
    | (intro _ _ _)
    | (intro _ _)

theorem refreshQuiet_keeps {σ : State} (ch : Sys2Proof.ChanRef) (s : Sys2Proof.Machine.State) (hk : Keeps σ s) : Keeps σ (refreshQuiet ch s) := by
  unfold refreshQuiet
  try dsimp only
  with_reducible repeat' first
    | assumption
    | apply Keeps.ite
    | apply State.setChan_keeps
    | simp only [Keeps.lit]
    | refine Keeps.foldl (fun _ _ _ => ?_) _ ?_
    | refine Keeps.of_pair ‹_ = (_, _)› ?_
    | (split)
    | (intro _ _ _)
    | (intro _ _)

theorem restartQuiet_keeps {σ : State} (ch : Sys2Proof.ChanRef) (s : Sys2Proof.Machine.State) (hk : Keeps σ s) : Keeps σ (restartQuiet ch s) := by
  unfold restartQuiet
  try dsimp only
  with_reducible repeat' first
    | assumption
    | apply Keeps.ite
    | apply refreshQuiet_keeps
    | apply State.modChan_keeps
    | simp only [Keeps.lit]
    | refine Keeps.foldl (fun _ _ _ => ?_) _ ?_
    | refine Keeps.of_pair ‹_ = (_, _)› ?_
    | (split)
    | (intro _ _ _)
    | (intro _ _)

theorem State.diag_keeps {σ : State} (s : Sys2Proof.Machine.State) (c : Sys2Proof.ChanRef) (b : Nat) (hk : Keeps σ s) : Keeps σ (State.diag s c b) := by
  unfold State.diag
  try dsimp only
  with_reducible repeat' first
    | assumption
    | apply Keeps.ite
    | apply State.setRegBit_keeps
    | simp only [Keeps.lit]
    | refine Keeps.foldl (fun _ _ _ => ?_) _ ?_
    | refine Keeps.of_pair ‹_ = (_, _)› ?_
    | (split)
    | (intro _ _ _)
    | (intro _ _)

theorem State.setOut_keeps {σ : State} (s : Sys2Proof.Machine.State) (i : Sys2Proof.OutIsl) (r : Sys2Proof.Machine.OutRec) (hk : Keeps σ s) : Keeps σ (State.setOut s i r) := by
  unfold State.setOut
  try dsimp only
  with_reducible repeat' first
    | assumption
    | apply Keeps.ite
    | simp only [Keeps.lit]
    | refine Keeps.foldl (fun _ _ _ => ?_) _ ?_
    | refine Keeps.of_pair ‹_ = (_, _)› ?_
    | (split)
    | (intro _ _ _)
    | (intro _ _)

end Sys2Proof.Machine
end

