-- ==== Sys2Proof/Laws/KeepsGateFld.lean ====
section
/-! SUPPORT. Every operation of Machine/GateFld.lean keeps what a command keeps. -/

set_option linter.all false

namespace Sys2Proof.Machine

theorem startTicks_keeps {σ : State} (ks : List Nat) (s : Sys2Proof.Machine.State) (hk : Keeps σ s) : Keeps σ (startTicks ks s) := by
  unfold startTicks
  try dsimp only
  with_reducible repeat' first
    | assumption
    | apply Keeps.ite
    | simp only [Keeps.lit]
    | refine Keeps.foldl (fun _ _ _ => ?_) _ ?_
    | refine Keeps.of_pair ‹_ = (_, _)› ?_
    | (split)
    | (intro _ _ _)
    | (intro _ _)

theorem resetFld_keeps {σ : State} (s : Sys2Proof.Machine.State) (hk : Keeps σ s) : Keeps σ (resetFld s) := by
  unfold resetFld
  try dsimp only
  with_reducible repeat' first
    | assumption
    | apply Keeps.ite
    | simp only [Keeps.lit]
    | refine Keeps.foldl (fun _ _ _ => ?_) _ ?_
    | refine Keeps.of_pair ‹_ = (_, _)› ?_
    | (split)
    | (intro _ _ _)
    | (intro _ _)

theorem fldEvent_keeps {σ : State} (f : Nat) (n : Option (Nat × Bool)) (s : Sys2Proof.Machine.State) (hk : Keeps σ s) : Keeps σ (fldEvent f n s) := by
  unfold fldEvent
  try dsimp only
  with_reducible repeat' first
    | assumption
    | apply Keeps.ite
    | apply State.setReg_keeps
    | apply State.setRegBit_keeps
    | apply State.route_keeps
    | simp only [Keeps.lit]
    | refine Keeps.foldl (fun _ _ _ => ?_) _ ?_
    | refine Keeps.of_pair ‹_ = (_, _)› ?_
    | (split)
    | (intro _ _ _)
    | (intro _ _)

theorem fieldDown_keeps {σ : State} (s : Sys2Proof.Machine.State) (hk : Keeps σ s) : Keeps σ (fieldDown s) := by
  unfold fieldDown
  try dsimp only
  with_reducible repeat' first
    | assumption
    | apply Keeps.ite
    | simp only [Keeps.lit]
    | refine Keeps.foldl (fun _ _ _ => ?_) _ ?_
    | refine Keeps.of_pair ‹_ = (_, _)› ?_
    | (split)
    | (intro _ _ _)
    | (intro _ _)

theorem State.setFilt_keeps {σ : State} (s : Sys2Proof.Machine.State) (n : Nat) (f : Sys2Proof.Machine.Filt) (hk : Keeps σ s) : Keeps σ (State.setFilt s n f) := by
  unfold State.setFilt
  try dsimp only
  with_reducible repeat' first
    | assumption
    | apply Keeps.ite
    | simp only [Keeps.lit]
    | refine Keeps.foldl (fun _ _ _ => ?_) _ ?_
    | refine Keeps.of_pair ‹_ = (_, _)› ?_
    | (split)
    | (intro _ _ _)
    | (intro _ _)

theorem fldTry_keeps {σ : State} (n : Nat) (s : Sys2Proof.Machine.State) (hk : Keeps σ s) : Keeps σ (fldTry n s) := by
  unfold fldTry
  try dsimp only
  with_reducible repeat' first
    | assumption
    | apply Keeps.ite
    | apply State.setChan_keeps
    | simp only [Keeps.lit]
    | refine Keeps.foldl (fun _ _ _ => ?_) _ ?_
    | refine Keeps.of_pair ‹_ = (_, _)› ?_
    | (split)
    | (intro _ _ _)
    | (intro _ _)

theorem fieldUp_keeps {σ : State} (s : Sys2Proof.Machine.State) (hk : Keeps σ s) : Keeps σ (fieldUp s) := by
  unfold fieldUp
  try dsimp only
  with_reducible repeat' first
    | assumption
    | apply Keeps.ite
    | apply startTicks_keeps
    | simp only [Keeps.lit]
    | refine Keeps.foldl (fun _ _ _ => ?_) _ ?_
    | refine Keeps.of_pair ‹_ = (_, _)› ?_
    | (split)
    | (intro _ _ _)
    | (intro _ _)

end Sys2Proof.Machine
end

