-- ==== Sys2Proof/Laws/KeepsGateAct.lean ====
section
/-! SUPPORT. Every operation of Machine/GateAct.lean keeps what a command keeps. -/

set_option linter.all false

namespace Sys2Proof.Machine

theorem boostFollow_keeps {σ : State} (s : Sys2Proof.Machine.State) (hk : Keeps σ s) : Keeps σ (boostFollow s) := by
  unfold boostFollow
  try dsimp only
  with_reducible repeat' first
    | assumption
    | apply Keeps.ite
    | apply State.level_keeps
    | apply State.setRegBit_keeps
    | simp only [Keeps.lit]
    | refine Keeps.foldl (fun _ _ _ => ?_) _ ?_
    | refine Keeps.of_pair ‹_ = (_, _)› ?_
    | (split)
    | (intro _ _ _)
    | (intro _ _)

theorem State.modValve_keeps {σ : State} (s : Sys2Proof.Machine.State) (n : Nat) (f : Sys2Proof.Machine.Valve → Sys2Proof.Machine.Valve) (hk : Keeps σ s) : Keeps σ (State.modValve s n f) := by
  unfold State.modValve
  try dsimp only
  with_reducible repeat' first
    | assumption
    | apply Keeps.ite
    | simp only [Keeps.lit]
    | refine Keeps.foldl (fun _ _ _ => ?_) _ ?_
    | refine Keeps.of_pair ‹_ = (_, _)› ?_
    | (split)
    | (intro _ _ _)
    | (intro _ _)

theorem holdChop_keeps {σ : State} (n : Nat) (i : Nat) (s : Sys2Proof.Machine.State) (hk : Keeps σ s) : Keeps σ (holdChop n i s) := by
  unfold holdChop
  try dsimp only
  with_reducible repeat' first
    | assumption
    | apply Keeps.ite
    | apply State.modValve_keeps
    | simp only [Keeps.lit]
    | refine Keeps.foldl (fun _ _ _ => ?_) _ ?_
    | refine Keeps.of_pair ‹_ = (_, _)› ?_
    | (split)
    | (intro _ _ _)
    | (intro _ _)

theorem State.modBank_keeps {σ : State} (s : Sys2Proof.Machine.State) (k : Nat) (f : Sys2Proof.Machine.BankRec → Sys2Proof.Machine.BankRec) (hk : Keeps σ s) : Keeps σ (State.modBank s k f) := by
  unfold State.modBank
  try dsimp only
  with_reducible repeat' first
    | assumption
    | apply Keeps.ite
    | simp only [Keeps.lit]
    | refine Keeps.foldl (fun _ _ _ => ?_) _ ?_
    | refine Keeps.of_pair ‹_ = (_, _)› ?_
    | (split)
    | (intro _ _ _)
    | (intro _ _)

theorem actStop_keeps {σ : State} (n : Nat) (s : Sys2Proof.Machine.State) (hk : Keeps σ s) : Keeps σ (actStop n s) := by
  unfold actStop
  try dsimp only
  with_reducible repeat' first
    | assumption
    | apply Keeps.ite
    | apply State.modBank_keeps
    | apply State.modValve_keeps
    | apply State.setRegBit_keeps
    | simp only [Keeps.lit]
    | refine Keeps.foldl (fun _ _ _ => ?_) _ ?_
    | refine Keeps.of_pair ‹_ = (_, _)› ?_
    | (split)
    | (intro _ _ _)
    | (intro _ _)

theorem actDue_keeps {σ : State} (n : Nat) (s : Sys2Proof.Machine.State) (hk : Keeps σ s) : Keeps σ (actDue n s) := by
  unfold actDue
  try dsimp only
  with_reducible repeat' first
    | assumption
    | apply Keeps.ite
    | apply State.modValve_keeps
    | simp only [Keeps.lit]
    | refine Keeps.foldl (fun _ _ _ => ?_) _ ?_
    | refine Keeps.of_pair ‹_ = (_, _)› ?_
    | (split)
    | (intro _ _ _)
    | (intro _ _)

theorem resetAct_keeps {σ : State} (s : Sys2Proof.Machine.State) (hk : Keeps σ s) : Keeps σ (resetAct s) := by
  unfold resetAct
  try dsimp only
  with_reducible repeat' first
    | assumption
    | apply Keeps.ite
    | simp only [Keeps.lit]
    | refine Keeps.foldl (fun _ _ _ => ?_) _ ?_
    | refine Keeps.of_pair ‹_ = (_, _)› ?_
    | (split)
    | (intro _ _ _)
    | (intro _ _)

theorem actStart_keeps {σ : State} (n : Nat) (s : Sys2Proof.Machine.State) (hk : Keeps σ s) : Keeps σ (actStart n s) := by
  unfold actStart
  try dsimp only
  with_reducible repeat' first
    | assumption
    | apply Keeps.ite
    | apply State.modValve_keeps
    | apply State.modChan_keeps
    | simp only [Keeps.lit]
    | refine Keeps.foldl (fun _ _ _ => ?_) _ ?_
    | refine Keeps.of_pair ‹_ = (_, _)› ?_
    | (split)
    | (intro _ _ _)
    | (intro _ _)

theorem actGo_keeps {σ : State} (n : Nat) (s : Sys2Proof.Machine.State) (hk : Keeps σ s) : Keeps σ (actGo n s) := by
  unfold actGo
  try dsimp only
  with_reducible repeat' first
    | assumption
    | apply Keeps.ite
    | apply actStart_keeps
    | apply State.modBank_keeps
    | simp only [Keeps.lit]
    | refine Keeps.foldl (fun _ _ _ => ?_) _ ?_
    | refine Keeps.of_pair ‹_ = (_, _)› ?_
    | (split)
    | (intro _ _ _)
    | (intro _ _)

theorem bankLocks_keeps {σ : State} (s : Sys2Proof.Machine.State) (hk : Keeps σ s) : Keeps σ (bankLocks s) := by
  unfold bankLocks
  try dsimp only
  with_reducible repeat' first
    | assumption
    | apply Keeps.ite
    | apply State.level_keeps
    | simp only [Keeps.lit]
    | refine Keeps.foldl (fun _ _ _ => ?_) _ ?_
    | refine Keeps.of_pair ‹_ = (_, _)› ?_
    | (split)
    | (intro _ _ _)
    | (intro _ _)

theorem actSchedule_keeps {σ : State} (n : Nat) (s : Sys2Proof.Machine.State) (hk : Keeps σ s) : Keeps σ (actSchedule n s) := by
  unfold actSchedule
  try dsimp only
  with_reducible repeat' first
    | assumption
    | apply Keeps.ite
    | apply actDue_keeps
    | apply State.setReg_keeps
    | apply actGo_keeps
    | simp only [Keeps.lit]
    | refine Keeps.foldl (fun _ _ _ => ?_) _ ?_
    | refine Keeps.of_pair ‹_ = (_, _)› ?_
    | (split)
    | (intro _ _ _)
    | (intro _ _)

theorem actTry_keeps {σ : State} (n : Nat) (s : Sys2Proof.Machine.State) (hk : Keeps σ s) : Keeps σ (actTry n s) := by
  unfold actTry
  try dsimp only
  with_reducible repeat' first
    | assumption
    | apply Keeps.ite
    | apply actDue_keeps
    | apply actGo_keeps
    | simp only [Keeps.lit]
    | refine Keeps.foldl (fun _ _ _ => ?_) _ ?_
    | refine Keeps.of_pair ‹_ = (_, _)› ?_
    | (split)
    | (intro _ _ _)
    | (intro _ _)

theorem tryBank_keeps {σ : State} (k : Nat) (s : Sys2Proof.Machine.State) (hk : Keeps σ s) : Keeps σ (tryBank k s) := by
  unfold tryBank
  try dsimp only
  with_reducible repeat' first
    | assumption
    | apply Keeps.ite
    | apply actTry_keeps
    | simp only [Keeps.lit]
    | refine Keeps.foldl (fun _ _ _ => ?_) _ ?_
    | refine Keeps.of_pair ‹_ = (_, _)› ?_
    | (split)
    | (intro _ _ _)
    | (intro _ _)

theorem actEvent_keeps {σ : State} (f : Nat) (n : Option Nat) (k : Option Nat) (s : Sys2Proof.Machine.State) (hk : Keeps σ s) : Keeps σ (actEvent f n k s) := by
  unfold actEvent
  try dsimp only
  with_reducible repeat' first
    | assumption
    | apply Keeps.ite
    | apply State.setRegFld_keeps
    | apply State.setRegBit_keeps
    | apply State.route_keeps
    | simp only [Keeps.lit]
    | refine Keeps.foldl (fun _ _ _ => ?_) _ ?_
    | refine Keeps.of_pair ‹_ = (_, _)› ?_
    | (split)
    | (intro _ _ _)
    | (intro _ _)

theorem boostMeasure_keeps {σ : State} (v : Nat) (s : Sys2Proof.Machine.State) (hk : Keeps σ s) : Keeps σ (boostMeasure v s) := by
  unfold boostMeasure
  try dsimp only
  with_reducible repeat' first
    | assumption
    | apply Keeps.ite
    | apply State.setReg_keeps
    | apply State.level_keeps
    | apply State.setRegBit_keeps
    | apply actEvent_keeps
    | simp only [Keeps.lit]
    | refine Keeps.foldl (fun _ _ _ => ?_) _ ?_
    | refine Keeps.of_pair ‹_ = (_, _)› ?_
    | (split)
    | (intro _ _ _)
    | (intro _ _)

theorem actApply_keeps {σ : State} (n : Nat) (s : Sys2Proof.Machine.State) (hk : Keeps σ s) : Keeps σ (actApply n s) := by
  unfold actApply
  try dsimp only
  with_reducible repeat' first
    | assumption
    | apply Keeps.ite
    | apply State.modChan_keeps
    | apply actStop_keeps
    | apply State.setRegBit_keeps
    | apply State.modValve_keeps
    | apply State.setReg_keeps
    | simp only [Keeps.lit]
    | refine Keeps.foldl (fun _ _ _ => ?_) _ ?_
    | refine Keeps.of_pair ‹_ = (_, _)› ?_
    | (split)
    | (intro _ _ _)
    | (intro _ _)

end Sys2Proof.Machine
end

