-- ==== Sys2Proof/Laws/KeepsGateLux.lean ====
section
/-! SUPPORT. Every operation of Machine/GateLux.lean keeps what a command keeps. -/

set_option linter.all false

namespace Sys2Proof.Machine

theorem State.modSink_keeps {σ : State} (s : Sys2Proof.Machine.State) (n : Nat) (f : Sys2Proof.Machine.Sink → Sys2Proof.Machine.Sink) (hk : Keeps σ s) : Keeps σ (State.modSink s n f) := by
  unfold State.modSink
  try dsimp only
  with_reducible repeat' first
    | assumption
    | apply Keeps.ite
    | simp only [Keeps.lit]
    | refine Keeps.foldl (fun _ _ _ => ?_) _ ?_
    | refine Keeps.of_pair ‹_ = (_, _)› ?_
    | (split)
    | (intro _ _ _)
    | (intro _ _)

theorem gcSettle_keeps {σ : State} (s : Sys2Proof.Machine.State) (hk : Keeps σ s) : Keeps σ (gcSettle s) := by
  unfold gcSettle
  try dsimp only
  with_reducible repeat' first
    | assumption
    | apply Keeps.ite
    | apply State.setReg_keeps
    | simp only [Keeps.lit]
    | refine Keeps.foldl (fun _ _ _ => ?_) _ ?_
    | refine Keeps.of_pair ‹_ = (_, _)› ?_
    | (split)
    | (intro _ _ _)
    | (intro _ _)

theorem loadSink_keeps {σ : State} (n : Nat) (s : Sys2Proof.Machine.State) (hk : Keeps σ s) : Keeps σ (loadSink n s) := by
  unfold loadSink
  try dsimp only
  with_reducible repeat' first
    | assumption
    | apply Keeps.ite
    | apply State.modSink_keeps
    | apply gcSettle_keeps
    | simp only [Keeps.lit]
    | refine Keeps.foldl (fun _ _ _ => ?_) _ ?_
    | refine Keeps.of_pair ‹_ = (_, _)› ?_
    | (split)
    | (intro _ _ _)
    | (intro _ _)

theorem luxStart_keeps {σ : State} (n : Nat) (s : Sys2Proof.Machine.State) (hk : Keeps σ s) : Keeps σ (luxStart n s) := by
  unfold luxStart
  try dsimp only
  with_reducible repeat' first
    | assumption
    | apply Keeps.ite
    | apply State.modChan_keeps
    | apply loadSink_keeps
    | simp only [Keeps.lit]
    | refine Keeps.foldl (fun _ _ _ => ?_) _ ?_
    | refine Keeps.of_pair ‹_ = (_, _)› ?_
    | (split)
    | (intro _ _ _)
    | (intro _ _)

theorem State.modLamp_keeps {σ : State} (s : Sys2Proof.Machine.State) (k : Nat) (f : Sys2Proof.Machine.Lamp → Sys2Proof.Machine.Lamp) (hk : Keeps σ s) : Keeps σ (State.modLamp s k f) := by
  unfold State.modLamp
  try dsimp only
  with_reducible repeat' first
    | assumption
    | apply Keeps.ite
    | simp only [Keeps.lit]
    | refine Keeps.foldl (fun _ _ _ => ?_) _ ?_
    | refine Keeps.of_pair ‹_ = (_, _)› ?_
    | (split)
    | (intro _ _ _)
    | (intro _ _)

theorem luxTry_keeps {σ : State} (n : Nat) (s : Sys2Proof.Machine.State) (hk : Keeps σ s) : Keeps σ (luxTry n s) := by
  unfold luxTry
  try dsimp only
  with_reducible repeat' first
    | assumption
    | apply Keeps.ite
    | apply luxStart_keeps
    | simp only [Keeps.lit]
    | refine Keeps.foldl (fun _ _ _ => ?_) _ ?_
    | refine Keeps.of_pair ‹_ = (_, _)› ?_
    | (split)
    | (intro _ _ _)
    | (intro _ _)

theorem resetLux_keeps {σ : State} (s : Sys2Proof.Machine.State) (hk : Keeps σ s) : Keeps σ (resetLux s) := by
  unfold resetLux
  try dsimp only
  with_reducible repeat' first
    | assumption
    | apply Keeps.ite
    | simp only [Keeps.lit]
    | refine Keeps.foldl (fun _ _ _ => ?_) _ ?_
    | refine Keeps.of_pair ‹_ = (_, _)› ?_
    | (split)
    | (intro _ _ _)
    | (intro _ _)

theorem lampTrigger_keeps {σ : State} (k : Nat) (s : Sys2Proof.Machine.State) (hk : Keeps σ s) : Keeps σ (lampTrigger k s) := by
  unfold lampTrigger
  try dsimp only
  with_reducible repeat' first
    | assumption
    | apply Keeps.ite
    | apply State.modLamp_keeps
    | simp only [Keeps.lit]
    | refine Keeps.foldl (fun _ _ _ => ?_) _ ?_
    | refine Keeps.of_pair ‹_ = (_, _)› ?_
    | (split)
    | (intro _ _ _)
    | (intro _ _)

theorem luxEvent_keeps {σ : State} (f : Nat) (ch : Option Nat) (s : Sys2Proof.Machine.State) (hk : Keeps σ s) : Keeps σ (luxEvent f ch s) := by
  unfold luxEvent
  try dsimp only
  with_reducible repeat' first
    | assumption
    | apply Keeps.ite
    | apply State.setReg_keeps
    | apply State.setRegBit_keeps
    | apply State.route_keeps
    | simp only [Keeps.lit]
    | refine Keeps.foldl (fun _ _ _ => ?_) _ ?_
    | refine Keeps.of_pair ‹_ = (_, _)› ?_
    | (split)
    | (intro _ _ _)
    | (intro _ _)

theorem luxColumns_keeps {σ : State} (s : Sys2Proof.Machine.State) (hk : Keeps σ s) : Keeps σ (luxColumns s) := by
  unfold luxColumns
  try dsimp only
  with_reducible repeat' first
    | assumption
    | apply Keeps.ite
    | apply luxStart_keeps
    | simp only [Keeps.lit]
    | refine Keeps.foldl (fun _ _ _ => ?_) _ ?_
    | refine Keeps.of_pair ‹_ = (_, _)› ?_
    | (split)
    | (intro _ _ _)
    | (intro _ _)

theorem lampTouch_keeps {σ : State} (n : Nat) (s : Sys2Proof.Machine.State) (hk : Keeps σ s) : Keeps σ (lampTouch n s) := by
  unfold lampTouch
  try dsimp only
  with_reducible repeat' first
    | assumption
    | apply Keeps.ite
    | apply lampTrigger_keeps
    | simp only [Keeps.lit]
    | refine Keeps.foldl (fun _ _ _ => ?_) _ ?_
    | refine Keeps.of_pair ‹_ = (_, _)› ?_
    | (split)
    | (intro _ _ _)
    | (intro _ _)

end Sys2Proof.Machine
end

