-- ==== Sys2Proof/Laws/KeepsGate.lean ====
section
/-! SUPPORT. Every operation of Machine/Gate.lean keeps what a command keeps. -/

set_option linter.all false

namespace Sys2Proof.Machine

theorem govAsk_keeps {σ : State} (ch : Sys2Proof.ChanRef) (s : Sys2Proof.Machine.State) (hk : Keeps σ s) : Keeps σ (govAsk ch s) := by
  unfold govAsk
  try dsimp only
  with_reducible repeat' first
    | assumption
    | apply Keeps.ite
    | apply State.setChan_keeps
    | apply State.diag_keeps
    | simp only [Keeps.lit]
    | refine Keeps.foldl (fun _ _ _ => ?_) _ ?_
    | refine Keeps.of_pair ‹_ = (_, _)› ?_
    | (split)
    | (intro _ _ _)
    | (intro _ _)

theorem swStart_keeps {σ : State} (ch : Sys2Proof.ChanRef) (s : Sys2Proof.Machine.State) (hk : Keeps σ s) : Keeps σ (swStart ch s) := by
  unfold swStart
  try dsimp only
  with_reducible repeat' first
    | assumption
    | apply Keeps.ite
    | apply refreshQuiet_keeps
    | apply State.setChan_keeps
    | simp only [Keeps.lit]
    | refine Keeps.foldl (fun _ _ _ => ?_) _ ?_
    | refine Keeps.of_pair ‹_ = (_, _)› ?_
    | (split)
    | (intro _ _ _)
    | (intro _ _)

theorem swTry_keeps {σ : State} (ch : Sys2Proof.ChanRef) (s : Sys2Proof.Machine.State) (hk : Keeps σ s) : Keeps σ (swTry ch s) := by
  unfold swTry
  try dsimp only
  with_reducible repeat' first
    | assumption
    | apply Keeps.ite
    | apply govAsk_keeps
    | apply State.setChan_keeps
    | apply swStart_keeps
    | simp only [Keeps.lit]
    | refine Keeps.foldl (fun _ _ _ => ?_) _ ?_
    | refine Keeps.of_pair ‹_ = (_, _)› ?_
    | (split)
    | (intro _ _ _)
    | (intro _ _)

theorem tryStart_keeps {σ : State} (ch : Sys2Proof.ChanRef) (s : Sys2Proof.Machine.State) (hk : Keeps σ s) : Keeps σ (tryStart ch s) := by
  unfold tryStart
  try dsimp only
  with_reducible repeat' first
    | assumption
    | apply Keeps.ite
    | apply swTry_keeps
    | apply actTry_keeps
    | apply luxTry_keeps
    | apply fldTry_keeps
    | simp only [Keeps.lit]
    | refine Keeps.foldl (fun _ _ _ => ?_) _ ?_
    | refine Keeps.of_pair ‹_ = (_, _)› ?_
    | (split)
    | (intro _ _ _)
    | (intro _ _)

theorem tryAll_keeps {σ : State} (i : Sys2Proof.OutIsl) (s : Sys2Proof.Machine.State) (hk : Keeps σ s) : Keeps σ (tryAll i s) := by
  unfold tryAll
  try dsimp only
  with_reducible repeat' first
    | assumption
    | apply Keeps.ite
    | apply tryStart_keeps
    | simp only [Keeps.lit]
    | refine Keeps.foldl (fun _ _ _ => ?_) _ ?_
    | refine Keeps.of_pair ‹_ = (_, _)› ?_
    | (split)
    | (intro _ _ _)
    | (intro _ _)

theorem evidence_keeps {σ : State} (ch : Sys2Proof.ChanRef) (okPoint : Bool) (s : Sys2Proof.Machine.State) (hk : Keeps σ s) : Keeps σ (evidence ch okPoint s) := by
  unfold evidence
  try dsimp only
  with_reducible repeat' first
    | assumption
    | apply Keeps.ite
    | apply State.setChan_keeps
    | simp only [Keeps.lit]
    | refine Keeps.foldl (fun _ _ _ => ?_) _ ?_
    | refine Keeps.of_pair ‹_ = (_, _)› ?_
    | (split)
    | (intro _ _ _)
    | (intro _ _)

theorem stopChan_keeps {σ : State} (ch : Sys2Proof.ChanRef) (s : Sys2Proof.Machine.State) (hk : Keeps σ s) : Keeps σ (stopChan ch s) := by
  unfold stopChan
  try dsimp only
  with_reducible repeat' first
    | assumption
    | apply Keeps.ite
    | apply refreshQuiet_keeps
    | apply State.modChan_keeps
    | apply actStop_keeps
    | simp only [Keeps.lit]
    | refine Keeps.foldl (fun _ _ _ => ?_) _ ?_
    | refine Keeps.of_pair ‹_ = (_, _)› ?_
    | (split)
    | (intro _ _ _)
    | (intro _ _)

theorem followHolds_keeps {σ : State} (ch : Sys2Proof.ChanRef) (s : Sys2Proof.Machine.State) (hk : Keeps σ s) : Keeps σ (followHolds ch s) := by
  unfold followHolds
  try dsimp only
  with_reducible repeat' first
    | assumption
    | apply Keeps.ite
    | apply stopChan_keeps
    | apply State.modChan_keeps
    | apply refreshQuiet_keeps
    | apply refreshPause_keeps
    | apply tryStart_keeps
    | simp only [Keeps.lit]
    | refine Keeps.foldl (fun _ _ _ => ?_) _ ?_
    | refine Keeps.of_pair ‹_ = (_, _)› ?_
    | (split)
    | (intro _ _ _)
    | (intro _ _)

theorem noteOff_keeps {σ : State} (ch : Sys2Proof.ChanRef) (s : Sys2Proof.Machine.State) (hk : Keeps σ s) : Keeps σ (noteOff ch s) := by
  unfold noteOff
  try dsimp only
  with_reducible repeat' first
    | assumption
    | apply Keeps.ite
    | apply State.modChan_keeps
    | simp only [Keeps.lit]
    | refine Keeps.foldl (fun _ _ _ => ?_) _ ?_
    | refine Keeps.of_pair ‹_ = (_, _)› ?_
    | (split)
    | (intro _ _ _)
    | (intro _ _)

end Sys2Proof.Machine
end

