-- ==== Sys2Proof/Laws/KeepsImage.lean ====
section
/-! SUPPORT. Every operation of Machine/Image.lean keeps what a command keeps. -/

set_option linter.all false

namespace Sys2Proof.Machine

theorem loadWatchdog_keeps {σ : State} (c : Nat) (s : Sys2Proof.Machine.State) (hk : Keeps σ s) : Keeps σ (loadWatchdog c s) := by
  unfold loadWatchdog
  try dsimp only
  with_reducible repeat' first
    | assumption
    | apply Keeps.ite
    | apply State.modCore_keeps
    | simp only [Keeps.lit]
    | refine Keeps.foldl (fun _ _ _ => ?_) _ ?_
    | refine Keeps.of_pair ‹_ = (_, _)› ?_
    | (split)
    | (intro _ _ _)
    | (intro _ _)

theorem releaseCore_keeps {σ : State} (c : Nat) (s : Sys2Proof.Machine.State) (hk : Keeps σ s) : Keeps σ (releaseCore c s) := by
  unfold releaseCore
  try dsimp only
  with_reducible repeat' first
    | assumption
    | apply Keeps.ite
    | apply State.setCore_keeps
    | apply loadWatchdog_keeps
    | simp only [Keeps.lit]
    | refine Keeps.foldl (fun _ _ _ => ?_) _ ?_
    | refine Keeps.of_pair ‹_ = (_, _)› ?_
    | (split)
    | (intro _ _ _)
    | (intro _ _)

theorem setPairing_keeps {σ : State} (b : Nat) (s : Sys2Proof.Machine.State) (hk : Keeps σ s) : Keeps σ (setPairing b s) := by
  unfold setPairing
  try dsimp only
  with_reducible repeat' first
    | assumption
    | apply Keeps.ite
    | apply State.setRegBit_keeps
    | simp only [Keeps.lit]
    | refine Keeps.foldl (fun _ _ _ => ?_) _ ?_
    | refine Keeps.of_pair ‹_ = (_, _)› ?_
    | (split)
    | (intro _ _ _)
    | (intro _ _)

theorem freezeWatchdog_keeps {σ : State} (c : Nat) (s : Sys2Proof.Machine.State) (hk : Keeps σ s) : Keeps σ (freezeWatchdog c s) := by
  unfold freezeWatchdog
  try dsimp only
  with_reducible repeat' first
    | assumption
    | apply Keeps.ite
    | apply State.modCore_keeps
    | simp only [Keeps.lit]
    | refine Keeps.foldl (fun _ _ _ => ?_) _ ?_
    | refine Keeps.of_pair ‹_ = (_, _)› ?_
    | (split)
    | (intro _ _ _)
    | (intro _ _)

theorem setVerified_keeps {σ : State} (b : Nat) (v : Bool) (s : Sys2Proof.Machine.State) (hk : Keeps σ s) : Keeps σ (setVerified b v s) := by
  unfold setVerified
  try dsimp only
  with_reducible repeat' first
    | assumption
    | apply Keeps.ite
    | simp only [Keeps.lit]
    | refine Keeps.foldl (fun _ _ _ => ?_) _ ?_
    | refine Keeps.of_pair ‹_ = (_, _)› ?_
    | (split)
    | (intro _ _ _)
    | (intro _ _)

theorem leaveUndefined_keeps {σ : State} (a : Nat) (n : Nat) (s : Sys2Proof.Machine.State) (hk : Keeps σ s) : Keeps σ (leaveUndefined a n s) := by
  unfold leaveUndefined
  try dsimp only
  with_reducible repeat' first
    | assumption
    | apply Keeps.ite
    | simp only [Keeps.lit]
    | refine Keeps.foldl (fun _ _ _ => ?_) _ ?_
    | refine Keeps.of_pair ‹_ = (_, _)› ?_
    | (split)
    | (intro _ _ _)
    | (intro _ _)

theorem abandonOp_keeps {σ : State} (o : Sys2Proof.Machine.FlashOp) (s : Sys2Proof.Machine.State) (hk : Keeps σ s) : Keeps σ (abandonOp o s) := by
  unfold abandonOp
  try dsimp only
  with_reducible repeat' first
    | assumption
    | apply Keeps.ite
    | apply leaveUndefined_keeps
    | apply State.clearMem_keeps
    | apply State.used_keeps
    | simp only [Keeps.lit]
    | refine Keeps.foldl (fun _ _ _ => ?_) _ ?_
    | refine Keeps.of_pair ‹_ = (_, _)› ?_
    | (split)
    | (intro _ _ _)
    | (intro _ _)

theorem abandonFlash_keeps {σ : State} (s : Sys2Proof.Machine.State) (hk : Keeps σ s) : Keeps σ (abandonFlash s) := by
  unfold abandonFlash
  try dsimp only
  with_reducible repeat' first
    | assumption
    | apply Keeps.ite
    | apply abandonOp_keeps
    | apply leaveUndefined_keeps
    | simp only [Keeps.lit]
    | refine Keeps.foldl (fun _ _ _ => ?_) _ ?_
    | refine Keeps.of_pair ‹_ = (_, _)› ?_
    | (split)
    | (intro _ _ _)
    | (intro _ _)

theorem programJournal.compactTo_keeps {σ : State} (g : Nat) (u : Sys2Proof.Machine.UpdRec) (s : Sys2Proof.Machine.State) (h : Nat) (seq : Nat) (hk : Keeps σ s) : Keeps σ (programJournal.compactTo g u s h seq) := by
  unfold programJournal.compactTo
  try dsimp only
  with_reducible repeat' first
    | assumption
    | apply Keeps.ite
    | apply State.storeList_keeps
    | apply State.clearMem_keeps
    | simp only [Keeps.lit]
    | refine Keeps.foldl (fun _ _ _ => ?_) _ ?_
    | refine Keeps.of_pair ‹_ = (_, _)› ?_
    | (split)
    | (intro _ _ _)
    | (intro _ _)

theorem programJournal_keeps {σ : State} (g : Nat) (r : List Sys2Proof.Word) (u : Sys2Proof.Machine.UpdRec) (s : Sys2Proof.Machine.State) (hk : Keeps σ s) : Keeps σ (programJournal g r u s) := by
  unfold programJournal
  try dsimp only
  with_reducible repeat' first
    | assumption
    | apply Keeps.ite
    | apply State.storeList_keeps
    | apply programJournal.compactTo_keeps
    | simp only [Keeps.lit]
    | refine Keeps.foldl (fun _ _ _ => ?_) _ ?_
    | refine Keeps.of_pair ‹_ = (_, _)› ?_
    | (split)
    | (intro _ _ _)
    | (intro _ _)

theorem updEvent_keeps {σ : State} (k : Nat) (s : Sys2Proof.Machine.State) (hk : Keeps σ s) : Keeps σ (updEvent k s) := by
  unfold updEvent
  try dsimp only
  with_reducible repeat' first
    | assumption
    | apply Keeps.ite
    | apply State.setRegBit_keeps
    | apply State.route_keeps
    | simp only [Keeps.lit]
    | refine Keeps.foldl (fun _ _ _ => ?_) _ ?_
    | refine Keeps.of_pair ‹_ = (_, _)› ?_
    | (split)
    | (intro _ _ _)
    | (intro _ _)

theorem journalPut_keeps {σ : State} (type : Nat) (bank : Nat) (gen : Nat) (mref : Nat) (s : Sys2Proof.Machine.State) (hk : Keeps σ s) : Keeps σ (journalPut type bank gen mref s) := by
  unfold journalPut
  try dsimp only
  with_reducible repeat' first
    | assumption
    | apply Keeps.ite
    | apply programJournal_keeps
    | apply memBurst_keeps
    | apply updEvent_keeps
    | simp only [Keeps.lit]
    | refine Keeps.foldl (fun _ _ _ => ?_) _ ?_
    | refine Keeps.of_pair ‹_ = (_, _)› ?_
    | (split)
    | (intro _ _ _)
    | (intro _ _)

theorem revertRecord_keeps {σ : State} (s : Sys2Proof.Machine.State) (hk : Keeps σ s) : Keeps σ (revertRecord s) := by
  unfold revertRecord
  try dsimp only
  with_reducible repeat' first
    | assumption
    | apply Keeps.ite
    | apply journalPut_keeps
    | simp only [Keeps.lit]
    | refine Keeps.foldl (fun _ _ _ => ?_) _ ?_
    | refine Keeps.of_pair ‹_ = (_, _)› ?_
    | (split)
    | (intro _ _ _)
    | (intro _ _)

theorem trialPause_keeps {σ : State} (s : Sys2Proof.Machine.State) (hk : Keeps σ s) : Keeps σ (trialPause s) := by
  unfold trialPause
  try dsimp only
  with_reducible repeat' first
    | assumption
    | apply Keeps.ite
    | simp only [Keeps.lit]
    | refine Keeps.foldl (fun _ _ _ => ?_) _ ?_
    | refine Keeps.of_pair ‹_ = (_, _)› ?_
    | (split)
    | (intro _ _ _)
    | (intro _ _)

theorem updRead_keeps {σ : State} (a : Nat) (n : Nat) (s : Sys2Proof.Machine.State) (hk : Keeps σ s) : Keeps σ (updRead a n s) := by
  unfold updRead
  try dsimp only
  with_reducible repeat' first
    | assumption
    | apply Keeps.ite
    | apply memBurst_keeps
    | apply State.raiseHeld_keeps
    | simp only [Keeps.lit]
    | refine Keeps.foldl (fun _ _ _ => ?_) _ ?_
    | refine Keeps.of_pair ‹_ = (_, _)› ?_
    | (split)
    | (intro _ _ _)
    | (intro _ _)

theorem formJournal_keeps {σ : State} (s0 : Sys2Proof.Machine.State) (hk : Keeps σ s0) : Keeps σ (formJournal s0) := by
  unfold formJournal
  try dsimp only
  with_reducible repeat' first
    | assumption
    | apply Keeps.ite
    | apply updRead_keeps
    | apply State.storeList_keeps
    | apply revertRecord_keeps
    | apply journalPut_keeps
    | simp only [Keeps.lit]
    | refine Keeps.foldl (fun _ _ _ => ?_) _ ?_
    | refine Keeps.of_pair ‹_ = (_, _)› ?_
    | (split)
    | (intro _ _ _)
    | (intro _ _)

theorem trialBoot_keeps {σ : State} (s : Sys2Proof.Machine.State) (hk : Keeps σ s) : Keeps σ (trialBoot s) := by
  unfold trialBoot
  try dsimp only
  with_reducible repeat' first
    | assumption
    | apply Keeps.ite
    | simp only [Keeps.lit]
    | refine Keeps.foldl (fun _ _ _ => ?_) _ ?_
    | refine Keeps.of_pair ‹_ = (_, _)› ?_
    | (split)
    | (intro _ _ _)
    | (intro _ _)

theorem resetMem_keeps {σ : State} (s : Sys2Proof.Machine.State) (hk : Keeps σ s) : Keeps σ (resetMem s) := by
  unfold resetMem
  try dsimp only
  with_reducible repeat' first
    | assumption
    | apply Keeps.ite
    | simp only [Keeps.lit]
    | refine Keeps.foldl (fun _ _ _ => ?_) _ ?_
    | refine Keeps.of_pair ‹_ = (_, _)› ?_
    | (split)
    | (intro _ _ _)
    | (intro _ _)

theorem setActiveBank_keeps {σ : State} (b : Nat) (s : Sys2Proof.Machine.State) (hk : Keeps σ s) : Keeps σ (setActiveBank b s) := by
  unfold setActiveBank
  try dsimp only
  with_reducible repeat' first
    | assumption
    | apply Keeps.ite
    | apply revertRecord_keeps
    | apply journalPut_keeps
    | simp only [Keeps.lit]
    | refine Keeps.foldl (fun _ _ _ => ?_) _ ?_
    | refine Keeps.of_pair ‹_ = (_, _)› ?_
    | (split)
    | (intro _ _ _)
    | (intro _ _)

end Sys2Proof.Machine
end

