-- ==== Sys2Proof/Laws/KeepsLinkSend.lean ====
section
/-! SUPPORT. Every operation of Machine/LinkSend.lean keeps what a command keeps. -/

set_option linter.all false

namespace Sys2Proof.Machine

theorem State.setLport_keeps {σ : State} (s : Sys2Proof.Machine.State) (p : Nat) (r : Sys2Proof.Machine.LPort) (hk : Keeps σ s) : Keeps σ (State.setLport s p r) := by
  unfold State.setLport
  try dsimp only
  with_reducible repeat' first
    | assumption
    | apply Keeps.ite
    | simp only [Keeps.lit]
    | refine Keeps.foldl (fun _ _ _ => ?_) _ ?_
    | refine Keeps.of_pair ‹_ = (_, _)› ?_
    | (split)
    | (intro _ _ _)
    | (intro _ _)

theorem linkEvent_keeps {σ : State} (k : Nat) (s : Sys2Proof.Machine.State) (hk : Keeps σ s) : Keeps σ (linkEvent k s) := by
  unfold linkEvent
  try dsimp only
  with_reducible repeat' first
    | assumption
    | apply Keeps.ite
    | apply State.setRegBit_keeps
    | apply State.route_keeps
    | simp only [Keeps.lit]
    | refine Keeps.foldl (fun _ _ _ => ?_) _ ?_
    | refine Keeps.of_pair ‹_ = (_, _)› ?_
    | (split)
    | (intro _ _ _)
    | (intro _ _)

theorem reroute_keeps {σ : State} (s : Sys2Proof.Machine.State) (hk : Keeps σ s) : Keeps σ (reroute s) := by
  unfold reroute
  try dsimp only
  with_reducible repeat' first
    | assumption
    | apply Keeps.ite
    | apply State.dropRegs_keeps
    | apply State.setReg_keeps
    | apply State.setRegBit_keeps
    | simp only [Keeps.lit]
    | refine Keeps.foldl (fun _ _ _ => ?_) _ ?_
    | refine Keeps.of_pair ‹_ = (_, _)› ?_
    | (split)
    | (intro _ _ _)
    | (intro _ _)

theorem enqueue_keeps {σ : State} (inp : Nat) (p : Nat) (t : Sys2Proof.Stitch) (s : Sys2Proof.Machine.State) (hk : Keeps σ s) : Keeps σ (enqueue inp p t s) := by
  unfold enqueue
  try dsimp only
  with_reducible repeat' first
    | assumption
    | apply Keeps.ite
    | apply State.setLport_keeps
    | simp only [Keeps.lit]
    | refine Keeps.foldl (fun _ _ _ => ?_) _ ?_
    | refine Keeps.of_pair ‹_ = (_, _)› ?_
    | (split)
    | (intro _ _ _)
    | (intro _ _)

theorem flood_keeps {σ : State} (ws : List Sys2Proof.Word) (s : Sys2Proof.Machine.State) (hk : Keeps σ s) : Keeps σ (flood ws s) := by
  unfold flood
  try dsimp only
  with_reducible repeat' first
    | assumption
    | apply Keeps.ite
    | apply enqueue_keeps
    | simp only [Keeps.lit]
    | refine Keeps.foldl (fun _ _ _ => ?_) _ ?_
    | refine Keeps.of_pair ‹_ = (_, _)› ?_
    | (split)
    | (intro _ _ _)
    | (intro _ _)

theorem sendLinks_keeps {σ : State} (s : Sys2Proof.Machine.State) (hk : Keeps σ s) : Keeps σ (sendLinks s) := by
  unfold sendLinks
  try dsimp only
  with_reducible repeat' first
    | assumption
    | apply Keeps.ite
    | apply flood_keeps
    | simp only [Keeps.lit]
    | refine Keeps.foldl (fun _ _ _ => ?_) _ ?_
    | refine Keeps.of_pair ‹_ = (_, _)› ?_
    | (split)
    | (intro _ _ _)
    | (intro _ _)

theorem topoChanged_keeps {σ : State} (s : Sys2Proof.Machine.State) (hk : Keeps σ s) : Keeps σ (topoChanged s) := by
  unfold topoChanged
  try dsimp only
  with_reducible repeat' first
    | assumption
    | apply Keeps.ite
    | simp only [Keeps.lit]
    | refine Keeps.foldl (fun _ _ _ => ?_) _ ?_
    | refine Keeps.of_pair ‹_ = (_, _)› ?_
    | (split)
    | (intro _ _ _)
    | (intro _ _)

theorem dropPort_keeps {σ : State} (p : Nat) (s : Sys2Proof.Machine.State) (hk : Keeps σ s) : Keeps σ (dropPort p s) := by
  unfold dropPort
  try dsimp only
  with_reducible repeat' first
    | assumption
    | apply Keeps.ite
    | apply State.setReg_keeps
    | apply State.setLport_keeps
    | apply linkEvent_keeps
    | apply topoChanged_keeps
    | apply reroute_keeps
    | apply sendLinks_keeps
    | simp only [Keeps.lit]
    | refine Keeps.foldl (fun _ _ _ => ?_) _ ?_
    | refine Keeps.of_pair ‹_ = (_, _)› ?_
    | (split)
    | (intro _ _ _)
    | (intro _ _)

theorem portSource_keeps {σ : State} (s : Sys2Proof.Machine.State) (hk : Keeps σ s) : Keeps σ (portSource s) := by
  unfold portSource
  try dsimp only
  with_reducible repeat' first
    | assumption
    | apply Keeps.ite
    | apply State.level_keeps
    | simp only [Keeps.lit]
    | refine Keeps.foldl (fun _ _ _ => ?_) _ ?_
    | refine Keeps.of_pair ‹_ = (_, _)› ?_
    | (split)
    | (intro _ _ _)
    | (intro _ _)

theorem portConfig_keeps {σ : State} (p : Nat) (v : Sys2Proof.Word) (s : Sys2Proof.Machine.State) (hk : Keeps σ s) : Keeps σ (portConfig p v s) := by
  unfold portConfig
  try dsimp only
  with_reducible repeat' first
    | assumption
    | apply Keeps.ite
    | apply State.plainWrite_keeps
    | apply State.setLport_keeps
    | apply dropPort_keeps
    | apply portSource_keeps
    | simp only [Keeps.lit]
    | refine Keeps.foldl (fun _ _ _ => ?_) _ ?_
    | refine Keeps.of_pair ‹_ = (_, _)› ?_
    | (split)
    | (intro _ _ _)
    | (intro _ _)

theorem portCommand_keeps {σ : State} (p : Nat) (v : Sys2Proof.Word) (s : Sys2Proof.Machine.State) (hk : Keeps σ s) : Keeps σ (portCommand p v s) := by
  unfold portCommand
  try dsimp only
  with_reducible repeat' first
    | assumption
    | apply Keeps.ite
    | apply State.setLport_keeps
    | apply State.setRegBit_keeps
    | simp only [Keeps.lit]
    | refine Keeps.foldl (fun _ _ _ => ?_) _ ?_
    | refine Keeps.of_pair ‹_ = (_, _)› ?_
    | (split)
    | (intro _ _ _)
    | (intro _ _)

theorem sendStitch_keeps {σ : State} (t : Sys2Proof.Stitch) (s : Sys2Proof.Machine.State) (hk : Keeps σ s) : Keeps σ (sendStitch t s) := by
  unfold sendStitch
  try dsimp only
  with_reducible repeat' first
    | assumption
    | apply Keeps.ite
    | apply enqueue_keeps
    | simp only [Keeps.lit]
    | refine Keeps.foldl (fun _ _ _ => ?_) _ ?_
    | refine Keeps.of_pair ‹_ = (_, _)› ?_
    | (split)
    | (intro _ _ _)
    | (intro _ _)

theorem request_keeps {σ : State} (kind : Sys2Proof.Machine.ReqKind) (t : Sys2Proof.Stitch) (s : Sys2Proof.Machine.State) (hk : Keeps σ s) : Keeps σ (request kind t s) := by
  unfold request
  try dsimp only
  with_reducible repeat' first
    | assumption
    | apply Keeps.ite
    | apply sendStitch_keeps
    | simp only [Keeps.lit]
    | refine Keeps.foldl (fun _ _ _ => ?_) _ ?_
    | refine Keeps.of_pair ‹_ = (_, _)› ?_
    | (split)
    | (intro _ _ _)
    | (intro _ _)

theorem remoteLoad_keeps {σ : State} (c : Nat) (a : Nat) (s : Sys2Proof.Machine.State) (hk : Keeps σ s) : Keeps σ (remoteLoad c a s) := by
  unfold remoteLoad
  try dsimp only
  with_reducible repeat' first
    | assumption
    | apply Keeps.ite
    | apply request_keeps
    | simp only [Keeps.lit]
    | refine Keeps.foldl (fun _ _ _ => ?_) _ ?_
    | refine Keeps.of_pair ‹_ = (_, _)› ?_
    | (split)
    | (intro _ _ _)
    | (intro _ _)

theorem putLine_keeps {σ : State} (p : Nat) (seq : Nat) (t : Sys2Proof.Stitch) (s : Sys2Proof.Machine.State) (hk : Keeps σ s) : Keeps σ (putLine p seq t s) := by
  unfold putLine
  try dsimp only
  with_reducible repeat' first
    | assumption
    | apply Keeps.ite
    | apply State.send_keeps
    | apply State.setLport_keeps
    | simp only [Keeps.lit]
    | refine Keeps.foldl (fun _ _ _ => ?_) _ ?_
    | refine Keeps.of_pair ‹_ = (_, _)› ?_
    | (split)
    | (intro _ _ _)
    | (intro _ _)

theorem transmit_keeps {σ : State} (p : Nat) (x1 : Nat) (x2 : Sys2Proof.Machine.State) (hk : Keeps σ x2) : Keeps σ (transmit p x1 x2) := by
  induction x1 generalizing p x2 with
  | zero =>
    unfold transmit
    try dsimp only
    with_reducible repeat' first
      | assumption
      | apply Keeps.ite
      | apply putLine_keeps
      | apply State.setLport_keeps
      | apply State.setRegBit_keeps
      | simp only [Keeps.lit]
      | refine Keeps.foldl (fun _ _ _ => ?_) _ ?_
      | refine Keeps.of_pair ‹_ = (_, _)› ?_
      | (split)
      | (intro _ _ _)
      | (intro _ _)
  | succ n ih =>
    unfold transmit
    try dsimp only
    with_reducible repeat' first
      | assumption
      | apply ih
      | apply Keeps.ite
      | apply putLine_keeps
      | apply State.setLport_keeps
      | apply State.setRegBit_keeps
      | simp only [Keeps.lit]
      | refine Keeps.foldl (fun _ _ _ => ?_) _ ?_
      | refine Keeps.of_pair ‹_ = (_, _)› ?_
      | (split)
      | (intro _ _ _)
      | (intro _ _)

theorem linkTick_keeps {σ : State} (s : Sys2Proof.Machine.State) (hk : Keeps σ s) : Keeps σ (linkTick s) := by
  unfold linkTick
  try dsimp only
  with_reducible repeat' first
    | assumption
    | apply Keeps.ite
    | apply transmit_keeps
    | apply State.setLport_keeps
    | simp only [Keeps.lit]
    | refine Keeps.foldl (fun _ _ _ => ?_) _ ?_
    | refine Keeps.of_pair ‹_ = (_, _)› ?_
    | (split)
    | (intro _ _ _)
    | (intro _ _)

theorem resetLnk_keeps {σ : State} (s : Sys2Proof.Machine.State) (hk : Keeps σ s) : Keeps σ (resetLnk s) := by
  unfold resetLnk
  try dsimp only
  with_reducible repeat' first
    | assumption
    | apply Keeps.ite
    | simp only [Keeps.lit]
    | refine Keeps.foldl (fun _ _ _ => ?_) _ ?_
    | refine Keeps.of_pair ‹_ = (_, _)› ?_
    | (split)
    | (intro _ _ _)
    | (intro _ _)

theorem storeFailed_keeps {σ : State} (k : Nat) (s : Sys2Proof.Machine.State) (hk : Keeps σ s) : Keeps σ (storeFailed k s) := by
  unfold storeFailed
  try dsimp only
  with_reducible repeat' first
    | assumption
    | apply Keeps.ite
    | apply linkEvent_keeps
    | apply State.regInc_keeps
    | simp only [Keeps.lit]
    | refine Keeps.foldl (fun _ _ _ => ?_) _ ?_
    | refine Keeps.of_pair ‹_ = (_, _)› ?_
    | (split)
    | (intro _ _ _)
    | (intro _ _)

theorem remoteStore_keeps {σ : State} (a : Nat) (v : Sys2Proof.Word) (s : Sys2Proof.Machine.State) (hk : Keeps σ s) : Keeps σ (remoteStore a v s) := by
  unfold remoteStore
  try dsimp only
  with_reducible repeat' first
    | assumption
    | apply Keeps.ite
    | apply storeFailed_keeps
    | apply request_keeps
    | simp only [Keeps.lit]
    | refine Keeps.foldl (fun _ _ _ => ?_) _ ?_
    | refine Keeps.of_pair ‹_ = (_, _)› ?_
    | (split)
    | (intro _ _ _)
    | (intro _ _)

theorem remoteReset_keeps {σ : State} (r : Sys2Proof.Requester) (v : Sys2Proof.Word) (s : Sys2Proof.Machine.State) (hk : Keeps σ s) : Keeps σ (remoteReset r v s) := by
  unfold remoteReset
  try dsimp only
  with_reducible repeat' first
    | assumption
    | apply Keeps.ite
    | apply State.setRegBit_keeps
    | apply sendStitch_keeps
    | apply State.setReg_keeps
    | simp only [Keeps.lit]
    | refine Keeps.foldl (fun _ _ _ => ?_) _ ?_
    | refine Keeps.of_pair ‹_ = (_, _)› ?_
    | (split)
    | (intro _ _ _)
    | (intro _ _)

theorem sendNeggrant_keeps {σ : State} (serial : Nat) (id : Nat) (s : Sys2Proof.Machine.State) (hk : Keeps σ s) : Keeps σ (sendNeggrant serial id s) := by
  unfold sendNeggrant
  try dsimp only
  with_reducible repeat' first
    | assumption
    | apply Keeps.ite
    | apply flood_keeps
    | simp only [Keeps.lit]
    | refine Keeps.foldl (fun _ _ _ => ?_) _ ?_
    | refine Keeps.of_pair ‹_ = (_, _)› ?_
    | (split)
    | (intro _ _ _)
    | (intro _ _)

theorem releaseLnk_keeps {σ : State} (s : Sys2Proof.Machine.State) (hk : Keeps σ s) : Keeps σ (releaseLnk s) := by
  unfold releaseLnk
  try dsimp only
  with_reducible repeat' first
    | assumption
    | apply Keeps.ite
    | apply State.setRegList_keeps
    | apply State.setLport_keeps
    | apply State.setReg_keeps
    | simp only [Keeps.lit]
    | refine Keeps.foldl (fun _ _ _ => ?_) _ ?_
    | refine Keeps.of_pair ‹_ = (_, _)› ?_
    | (split)
    | (intro _ _ _)
    | (intro _ _)

theorem sendNegreq_keeps {σ : State} (s : Sys2Proof.Machine.State) (hk : Keeps σ s) : Keeps σ (sendNegreq s) := by
  unfold sendNegreq
  try dsimp only
  with_reducible repeat' first
    | assumption
    | apply Keeps.ite
    | apply flood_keeps
    | simp only [Keeps.lit]
    | refine Keeps.foldl (fun _ _ _ => ?_) _ ?_
    | refine Keeps.of_pair ‹_ = (_, _)› ?_
    | (split)
    | (intro _ _ _)
    | (intro _ _)

theorem shutPort_keeps {σ : State} (p : Nat) (s : Sys2Proof.Machine.State) (hk : Keeps σ s) : Keeps σ (shutPort p s) := by
  unfold shutPort
  try dsimp only
  with_reducible repeat' first
    | assumption
    | apply Keeps.ite
    | apply dropPort_keeps
    | apply State.setRegBit_keeps
    | simp only [Keeps.lit]
    | refine Keeps.foldl (fun _ _ _ => ?_) _ ?_
    | refine Keeps.of_pair ‹_ = (_, _)› ?_
    | (split)
    | (intro _ _ _)
    | (intro _ _)

theorem requestDone_keeps {σ : State} (q : Sys2Proof.Machine.LReq) (s : Sys2Proof.Machine.State) (hk : Keeps σ s) : Keeps σ (requestDone q s) := by
  unfold requestDone
  try dsimp only
  with_reducible repeat' first
    | assumption
    | apply Keeps.ite
    | apply sendStitch_keeps
    | simp only [Keeps.lit]
    | refine Keeps.foldl (fun _ _ _ => ?_) _ ?_
    | refine Keeps.of_pair ‹_ = (_, _)› ?_
    | (split)
    | (intro _ _ _)
    | (intro _ _)

theorem mailGo_keeps {σ : State} (v : Sys2Proof.Word) (s : Sys2Proof.Machine.State) (hk : Keeps σ s) : Keeps σ (mailGo v s) := by
  unfold mailGo
  try dsimp only
  with_reducible repeat' first
    | assumption
    | apply Keeps.ite
    | apply linkEvent_keeps
    | apply State.setReg_keeps
    | apply enqueue_keeps
    | apply request_keeps
    | simp only [Keeps.lit]
    | refine Keeps.foldl (fun _ _ _ => ?_) _ ?_
    | refine Keeps.of_pair ‹_ = (_, _)› ?_
    | (split)
    | (intro _ _ _)
    | (intro _ _)

theorem channelGo_keeps {σ : State} (v : Sys2Proof.Word) (s : Sys2Proof.Machine.State) (hk : Keeps σ s) : Keeps σ (channelGo v s) := by
  unfold channelGo
  try dsimp only
  with_reducible repeat' first
    | assumption
    | apply Keeps.ite
    | apply linkEvent_keeps
    | apply State.setReg_keeps
    | apply request_keeps
    | simp only [Keeps.lit]
    | refine Keeps.foldl (fun _ _ _ => ?_) _ ?_
    | refine Keeps.of_pair ‹_ = (_, _)› ?_
    | (split)
    | (intro _ _ _)
    | (intro _ _)

theorem sendHello_keeps {σ : State} (p : Nat) (s : Sys2Proof.Machine.State) (hk : Keeps σ s) : Keeps σ (sendHello p s) := by
  unfold sendHello
  try dsimp only
  with_reducible repeat' first
    | assumption
    | apply Keeps.ite
    | apply enqueue_keeps
    | simp only [Keeps.lit]
    | refine Keeps.foldl (fun _ _ _ => ?_) _ ?_
    | refine Keeps.of_pair ‹_ = (_, _)› ?_
    | (split)
    | (intro _ _ _)
    | (intro _ _)

end Sys2Proof.Machine
end

