-- ==== Sys2Proof/Laws/KeepsRetire.lean ====
section
/-! SUPPORT. Every operation of Machine/Retire.lean keeps what a command keeps. -/

set_option linter.all false

namespace Sys2Proof.Machine

theorem retiredBit_keeps {σ : State} (ch : Sys2Proof.ChanRef) (b : Bool) (s : Sys2Proof.Machine.State) (hk : Keeps σ s) : Keeps σ (retiredBit ch b s) := by
  unfold retiredBit
  try dsimp only
  with_reducible repeat' first
    | assumption
    | apply Keeps.ite
    | apply State.setRegBit_keeps
    | simp only [Keeps.lit]
    | refine Keeps.foldl (fun _ _ _ => ?_) _ ?_
    | refine Keeps.of_pair ‹_ = (_, _)› ?_
    | (split)
    | (intro _ _ _)
    | (intro _ _)

theorem restoreOne_keeps {σ : State} (ch : Sys2Proof.ChanRef) (reason : Nat) (code : Option Nat) (s : Sys2Proof.Machine.State) (hk : Keeps σ s) : Keeps σ (restoreOne ch reason code s) := by
  unfold restoreOne
  try dsimp only
  with_reducible repeat' first
    | assumption
    | apply Keeps.ite
    | apply retiredBit_keeps
    | apply State.modChan_keeps
    | apply State.used_keeps
    | simp only [Keeps.lit]
    | refine Keeps.foldl (fun _ _ _ => ?_) _ ?_
    | refine Keeps.of_pair ‹_ = (_, _)› ?_
    | (split)
    | (intro _ _ _)
    | (intro _ _)

theorem queueRecord_keeps {σ : State} (ch : Sys2Proof.ChanRef) (clear : Bool) (reason : Nat) (code : Nat) (s : Sys2Proof.Machine.State) (hk : Keeps σ s) : Keeps σ (queueRecord ch clear reason code s) := by
  unfold queueRecord
  try dsimp only
  with_reducible repeat' first
    | assumption
    | apply Keeps.ite
    | apply State.setOut_keeps
    | simp only [Keeps.lit]
    | refine Keeps.foldl (fun _ _ _ => ?_) _ ?_
    | refine Keeps.of_pair ‹_ = (_, _)› ?_
    | (split)
    | (intro _ _ _)
    | (intro _ _)

theorem recordBurst_keeps {σ : State} (i : Sys2Proof.OutIsl) (n : Nat) (s : Sys2Proof.Machine.State) (hk : Keeps σ s) : Keeps σ (recordBurst i n s) := by
  unfold recordBurst
  try dsimp only
  with_reducible repeat' first
    | assumption
    | apply Keeps.ite
    | apply memBurst_keeps
    | simp only [Keeps.lit]
    | refine Keeps.foldl (fun _ _ _ => ?_) _ ?_
    | refine Keeps.of_pair ‹_ = (_, _)› ?_
    | (split)
    | (intro _ _ _)
    | (intro _ _)

theorem compact_keeps {σ : State} (i : Sys2Proof.OutIsl) (g : Nat) (set : List Nat) (s0 : Sys2Proof.Machine.State) (hk : Keeps σ s0) : Keeps σ (compact i g set s0) := by
  unfold compact
  try dsimp only
  with_reducible repeat' first
    | assumption
    | apply Keeps.ite
    | apply recordBurst_keeps
    | apply State.clearMem_keeps
    | apply State.setMemList_keeps
    | simp only [Keeps.lit]
    | refine Keeps.foldl (fun _ _ _ => ?_) _ ?_
    | refine Keeps.of_pair ‹_ = (_, _)› ?_
    | (split)
    | (intro _ _ _)
    | (intro _ _)

theorem endCarry_keeps {σ : State} (p : Sys2Proof.ChanRef) (back : Bool) (s : Sys2Proof.Machine.State) (hk : Keeps σ s) : Keeps σ (endCarry p back s) := by
  unfold endCarry
  try dsimp only
  with_reducible repeat' first
    | assumption
    | apply Keeps.ite
    | apply State.modChan_keeps
    | apply stopChan_keeps
    | simp only [Keeps.lit]
    | refine Keeps.foldl (fun _ _ _ => ?_) _ ?_
    | refine Keeps.of_pair ‹_ = (_, _)› ?_
    | (split)
    | (intro _ _ _)
    | (intro _ _)

theorem programRecord_keeps {σ : State} (i : Sys2Proof.OutIsl) (g : Nat) (r : Sys2Proof.Machine.RetRec) (s : Sys2Proof.Machine.State) (hk : Keeps σ s) : Keeps σ (programRecord i g r s) := by
  unfold programRecord
  try dsimp only
  with_reducible repeat' first
    | assumption
    | apply Keeps.ite
    | apply State.setMemList_keeps
    | apply recordBurst_keeps
    | apply compact_keeps
    | simp only [Keeps.lit]
    | refine Keeps.foldl (fun _ _ _ => ?_) _ ?_
    | refine Keeps.of_pair ‹_ = (_, _)› ?_
    | (split)
    | (intro _ _ _)
    | (intro _ _)

theorem takeoverFails_keeps {σ : State} (ch : Sys2Proof.ChanRef) (p : Sys2Proof.ChanRef) (s : Sys2Proof.Machine.State) (hk : Keeps σ s) : Keeps σ (takeoverFails ch p s) := by
  unfold takeoverFails
  try dsimp only
  with_reducible repeat' first
    | assumption
    | apply Keeps.ite
    | apply State.oibEvent_keeps
    | apply State.diag_keeps
    | simp only [Keeps.lit]
    | refine Keeps.foldl (fun _ _ _ => ?_) _ ?_
    | refine Keeps.of_pair ‹_ = (_, _)› ?_
    | (split)
    | (intro _ _ _)
    | (intro _ _)

theorem retireChannel_keeps {σ : State} (ch : Sys2Proof.ChanRef) (reason : Nat) (s : Sys2Proof.Machine.State) (hk : Keeps σ s) : Keeps σ (retireChannel ch reason s) := by
  unfold retireChannel
  try dsimp only
  with_reducible repeat' first
    | assumption
    | apply Keeps.ite
    | apply endCarry_keeps
    | apply stopChan_keeps
    | apply State.modChan_keeps
    | apply State.setRegFld_keeps
    | apply State.raiseIsl_keeps
    | apply retiredBit_keeps
    | apply State.diag_keeps
    | apply queueRecord_keeps
    | apply State.oibEvent_keeps
    | apply takeoverFails_keeps
    | simp only [Keeps.lit]
    | refine Keeps.foldl (fun _ _ _ => ?_) _ ?_
    | refine Keeps.of_pair ‹_ = (_, _)› ?_
    | (split)
    | (intro _ _ _)
    | (intro _ _)

theorem countedTrip_keeps {σ : State} (ch : Sys2Proof.ChanRef) (code : Nat) (s : Sys2Proof.Machine.State) (hk : Keeps σ s) : Keeps σ (countedTrip ch code s) := by
  unfold countedTrip
  try dsimp only
  with_reducible repeat' first
    | assumption
    | apply Keeps.ite
    | apply stopChan_keeps
    | apply State.diag_keeps
    | apply State.modChan_keeps
    | apply restartQuiet_keeps
    | apply State.raiseIsl_keeps
    | apply retireChannel_keeps
    | apply refreshPause_keeps
    | simp only [Keeps.lit]
    | refine Keeps.foldl (fun _ _ _ => ?_) _ ?_
    | refine Keeps.of_pair ‹_ = (_, _)› ?_
    | (split)
    | (intro _ _ _)
    | (intro _ _)

theorem restoreRetired_keeps {σ : State} (i : Sys2Proof.OutIsl) (s : Sys2Proof.Machine.State) (hk : Keeps σ s) : Keeps σ (restoreRetired i s) := by
  unfold restoreRetired
  try dsimp only
  with_reducible repeat' first
    | assumption
    | apply Keeps.ite
    | apply State.raiseHeld_keeps
    | apply compact_keeps
    | apply restoreOne_keeps
    | apply bankLocks_keeps
    | apply State.setOut_keeps
    | apply queueRecord_keeps
    | apply retiredBit_keeps
    | simp only [Keeps.lit]
    | refine Keeps.foldl (fun _ _ _ => ?_) _ ?_
    | refine Keeps.of_pair ‹_ = (_, _)› ?_
    | (split)
    | (intro _ _ _)
    | (intro _ _)

end Sys2Proof.Machine
end

