-- ==== Sys2Proof/Laws/KeepsHold.lean ====
section
/-! SUPPORT. Every operation of Machine/Hold.lean keeps what a command keeps. -/

set_option linter.all false

namespace Sys2Proof.Machine

theorem keepRecords_keeps {σ : State} (i : Sys2Proof.OutIsl) (s : Sys2Proof.Machine.State) (hk : Keeps σ s) : Keeps σ (keepRecords i s) := by
  unfold keepRecords
  try dsimp only
  with_reducible repeat' first
    | assumption
    | apply Keeps.ite
    | apply State.setOut_keeps
    | simp only [Keeps.lit]
    | refine Keeps.foldl (fun _ _ _ => ?_) _ ?_
    | refine Keeps.of_pair ‹_ = (_, _)› ?_
    | (split)
    | (intro _ _ _)
    | (intro _ _)

theorem safeEnd_keeps {σ : State} (s : Sys2Proof.Machine.State) (hk : Keeps σ s) : Keeps σ (safeEnd s) := by
  unfold safeEnd
  try dsimp only
  with_reducible repeat' first
    | assumption
    | apply Keeps.ite
    | apply tryAll_keeps
    | simp only [Keeps.lit]
    | refine Keeps.foldl (fun _ _ _ => ?_) _ ?_
    | refine Keeps.of_pair ‹_ = (_, _)› ?_
    | (split)
    | (intro _ _ _)
    | (intro _ _)

theorem toTable211_keeps {σ : State} (ch : Sys2Proof.ChanRef) (s : Sys2Proof.Machine.State) (hk : Keeps σ s) : Keeps σ (toTable211 ch s) := by
  unfold toTable211
  try dsimp only
  with_reducible repeat' first
    | assumption
    | apply Keeps.ite
    | apply endCarry_keeps
    | apply State.modChan_keeps
    | apply stopChan_keeps
    | simp only [Keeps.lit]
    | refine Keeps.foldl (fun _ _ _ => ?_) _ ?_
    | refine Keeps.of_pair ‹_ = (_, _)› ?_
    | (split)
    | (intro _ _ _)
    | (intro _ _)

theorem leaveHold_keeps {σ : State} (s : Sys2Proof.Machine.State) (hk : Keeps σ s) : Keeps σ (leaveHold s) := by
  unfold leaveHold
  try dsimp only
  with_reducible repeat' first
    | assumption
    | apply Keeps.ite
    | apply toTable211_keeps
    | simp only [Keeps.lit]
    | refine Keeps.foldl (fun _ _ _ => ?_) _ ?_
    | refine Keeps.of_pair ‹_ = (_, _)› ?_
    | (split)
    | (intro _ _ _)
    | (intro _ _)

theorem resetRecords_keeps {σ : State} (i : Sys2Proof.Island) (s : Sys2Proof.Machine.State) (hk : Keeps σ s) : Keeps σ (resetRecords i s) := by
  unfold resetRecords
  try dsimp only
  with_reducible repeat' first
    | assumption
    | apply Keeps.ite
    | apply keepRecords_keeps
    | apply resetAct_keeps
    | apply resetLux_keeps
    | apply resetFld_keeps
    | apply resetNet_keeps
    | apply State.setRegFld_keeps
    | apply resetSec_keeps
    | apply resetLnk_keeps
    | apply resetAon_keeps
    | apply resetMem_keeps
    | simp only [Keeps.lit]
    | refine Keeps.foldl (fun _ _ _ => ?_) _ ?_
    | refine Keeps.of_pair ‹_ = (_, _)› ?_
    | (split)
    | (intro _ _ _)
    | (intro _ _)

theorem safeOff_keeps {σ : State} (s : Sys2Proof.Machine.State) (hk : Keeps σ s) : Keeps σ (safeOff s) := by
  unfold safeOff
  try dsimp only
  with_reducible repeat' first
    | assumption
    | apply Keeps.ite
    | apply stopChan_keeps
    | simp only [Keeps.lit]
    | refine Keeps.foldl (fun _ _ _ => ?_) _ ?_
    | refine Keeps.of_pair ‹_ = (_, _)› ?_
    | (split)
    | (intro _ _ _)
    | (intro _ _)

theorem enterHold_keeps {σ : State} (i : Sys2Proof.Island) (s : Sys2Proof.Machine.State) (hk : Keeps σ s) : Keeps σ (enterHold i s) := by
  unfold enterHold
  try dsimp only
  with_reducible repeat' first
    | assumption
    | apply Keeps.ite
    | apply State.setChan_keeps
    | simp only [Keeps.lit]
    | refine Keeps.foldl (fun _ _ _ => ?_) _ ?_
    | refine Keeps.of_pair ‹_ = (_, _)› ?_
    | (split)
    | (intro _ _ _)
    | (intro _ _)

end Sys2Proof.Machine
end

