-- ==== Sys2Proof/Laws/KeepsMarTable.lean ====
section
/-! SUPPORT. Every operation of Machine/MarTable.lean keeps what a command keeps. -/

set_option linter.all false

namespace Sys2Proof.Machine

theorem State.setMar_keeps {σ : State} (s : Sys2Proof.Machine.State) (n : Nat) (m : Sys2Proof.Machine.MarEntry) (hk : Keeps σ s) : Keeps σ (State.setMar s n m) := by
  unfold State.setMar
  try dsimp only
  with_reducible repeat' first
    | assumption
    | apply Keeps.ite
    | simp only [Keeps.lit]
    | refine Keeps.foldl (fun _ _ _ => ?_) _ ?_
    | refine Keeps.of_pair ‹_ = (_, _)› ?_
    | (split)
    | (intro _ _ _)
    | (intro _ _)

theorem marTake_keeps {σ : State} (e : List Sys2Proof.Word) (on : Bool) (ch : Sys2Proof.ChanRef) (s : Sys2Proof.Machine.State) (hk : Keeps σ s) : Keeps σ (marTake e on ch s) := by
  unfold marTake
  try dsimp only
  with_reducible repeat' first
    | assumption
    | apply Keeps.ite
    | apply State.setChan_keeps
    | apply stopChan_keeps
    | apply tryStart_keeps
    | simp only [Keeps.lit]
    | refine Keeps.foldl (fun _ _ _ => ?_) _ ?_
    | refine Keeps.of_pair ‹_ = (_, _)› ?_
    | (split)
    | (intro _ _ _)
    | (intro _ _)

theorem marBit_keeps {σ : State} (base : Nat) (n : Nat) (b : Bool) (s : Sys2Proof.Machine.State) (hk : Keeps σ s) : Keeps σ (marBit base n b s) := by
  unfold marBit
  try dsimp only
  with_reducible repeat' first
    | assumption
    | apply Keeps.ite
    | apply State.setRegBit_keeps
    | simp only [Keeps.lit]
    | refine Keeps.foldl (fun _ _ _ => ?_) _ ?_
    | refine Keeps.of_pair ‹_ = (_, _)› ?_
    | (split)
    | (intro _ _ _)
    | (intro _ _)

theorem marRelease_keeps {σ : State} (e : List Sys2Proof.Word) (s : Sys2Proof.Machine.State) (hk : Keeps σ s) : Keeps σ (marRelease e s) := by
  unfold marRelease
  try dsimp only
  with_reducible repeat' first
    | assumption
    | apply Keeps.ite
    | apply toTable211_keeps
    | simp only [Keeps.lit]
    | refine Keeps.foldl (fun _ _ _ => ?_) _ ?_
    | refine Keeps.of_pair ‹_ = (_, _)› ?_
    | (split)
    | (intro _ _ _)
    | (intro _ _)

theorem marEnd_keeps {σ : State} (n : Nat) (s : Sys2Proof.Machine.State) (hk : Keeps σ s) : Keeps σ (marEnd n s) := by
  unfold marEnd
  try dsimp only
  with_reducible repeat' first
    | assumption
    | apply Keeps.ite
    | apply marBit_keeps
    | apply State.setMar_keeps
    | apply marRelease_keeps
    | simp only [Keeps.lit]
    | refine Keeps.foldl (fun _ _ _ => ?_) _ ?_
    | refine Keeps.of_pair ‹_ = (_, _)› ?_
    | (split)
    | (intro _ _ _)
    | (intro _ _)

theorem marDrive_keeps {σ : State} (s : Sys2Proof.Machine.State) (hk : Keeps σ s) : Keeps σ (marDrive s) := by
  unfold marDrive
  try dsimp only
  with_reducible repeat' first
    | assumption
    | apply Keeps.ite
    | apply marTake_keeps
    | simp only [Keeps.lit]
    | refine Keeps.foldl (fun _ _ _ => ?_) _ ?_
    | refine Keeps.of_pair ‹_ = (_, _)› ?_
    | (split)
    | (intro _ _ _)
    | (intro _ _)

theorem stopPulses_keeps {σ : State} (i : Sys2Proof.Island) (s : Sys2Proof.Machine.State) (hk : Keeps σ s) : Keeps σ (stopPulses i s) := by
  unfold stopPulses
  try dsimp only
  with_reducible repeat' first
    | assumption
    | apply Keeps.ite
    | apply marEnd_keeps
    | simp only [Keeps.lit]
    | refine Keeps.foldl (fun _ _ _ => ?_) _ ?_
    | refine Keeps.of_pair ‹_ = (_, _)› ?_
    | (split)
    | (intro _ _ _)
    | (intro _ _)

theorem marCheckEnd_keeps {σ : State} (s : Sys2Proof.Machine.State) (hk : Keeps σ s) : Keeps σ (marCheckEnd s) := by
  unfold marCheckEnd
  try dsimp only
  with_reducible repeat' first
    | assumption
    | apply Keeps.ite
    | apply State.setRegBit_keeps
    | simp only [Keeps.lit]
    | refine Keeps.foldl (fun _ _ _ => ?_) _ ?_
    | refine Keeps.of_pair ‹_ = (_, _)› ?_
    | (split)
    | (intro _ _ _)
    | (intro _ _)

end Sys2Proof.Machine
end

