-- ==== Sys2Proof/Laws/KeepsReset.lean ====
section
/-! SUPPORT. Every operation of Machine/Reset.lean keeps what a command keeps. -/

set_option linter.all false

namespace Sys2Proof.Machine

theorem discardGates_keeps {σ : State} (i : Sys2Proof.Island) (s : Sys2Proof.Machine.State) (hk : Keeps σ s) : Keeps σ (discardGates i s) := by
  unfold discardGates
  try dsimp only
  with_reducible repeat' first
    | assumption
    | apply Keeps.ite
    | apply State.setGate_keeps
    | apply State.setReg_keeps
    | apply State.setRegBit_keeps
    | simp only [Keeps.lit]
    | refine Keeps.foldl (fun _ _ _ => ?_) _ ?_
    | refine Keeps.of_pair ‹_ = (_, _)› ?_
    | (split)
    | (intro _ _ _)
    | (intro _ _)

theorem fenceGates_keeps {σ : State} (i : Sys2Proof.Island) (s : Sys2Proof.Machine.State) (hk : Keeps σ s) : Keeps σ (fenceGates i s) := by
  unfold fenceGates
  try dsimp only
  with_reducible repeat' first
    | assumption
    | apply Keeps.ite
    | apply State.setGate_keeps
    | apply discardGates_keeps
    | simp only [Keeps.lit]
    | refine Keeps.foldl (fun _ _ _ => ?_) _ ?_
    | refine Keeps.of_pair ‹_ = (_, _)› ?_
    | (split)
    | (intro _ _ _)
    | (intro _ _)

theorem clearLevels_keeps {σ : State} (i : Sys2Proof.Island) (s : Sys2Proof.Machine.State) (hk : Keeps σ s) : Keeps σ (clearLevels i s) := by
  unfold clearLevels
  try dsimp only
  with_reducible repeat' first
    | assumption
    | apply Keeps.ite
    | apply State.level_keeps
    | simp only [Keeps.lit]
    | refine Keeps.foldl (fun _ _ _ => ?_) _ ?_
    | refine Keeps.of_pair ‹_ = (_, _)› ?_
    | (split)
    | (intro _ _ _)
    | (intro _ _)

theorem maskRange_keeps {σ : State} (i : Sys2Proof.Island) (s : Sys2Proof.Machine.State) (hk : Keeps σ s) : Keeps σ (maskRange i s) := by
  unfold maskRange
  try dsimp only
  with_reducible repeat' first
    | assumption
    | apply Keeps.ite
    | apply State.setRegBit_keeps
    | apply State.setSrc_keeps
    | simp only [Keeps.lit]
    | refine Keeps.foldl (fun _ _ _ => ?_) _ ?_
    | refine Keeps.of_pair ‹_ = (_, _)› ?_
    | (split)
    | (intro _ _ _)
    | (intro _ _)

theorem resetCore_keeps {σ : State} (c : Nat) (s : Sys2Proof.Machine.State) (hk : Keeps σ s) : Keeps σ (resetCore c s) := by
  unfold resetCore
  try dsimp only
  with_reducible repeat' first
    | assumption
    | apply Keeps.ite
    | apply State.dropRegs_keeps
    | apply State.setCore_keeps
    | simp only [Keeps.lit]
    | refine Keeps.foldl (fun _ _ _ => ?_) _ ?_
    | refine Keeps.of_pair ‹_ = (_, _)› ?_
    | (split)
    | (intro _ _ _)
    | (intro _ _)

theorem resetLogic_keeps {σ : State} (i : Sys2Proof.Island) (s : Sys2Proof.Machine.State) (hk : Keeps σ s) : Keeps σ (resetLogic i s) := by
  unfold resetLogic
  try dsimp only
  with_reducible repeat' first
    | assumption
    | apply Keeps.ite
    | apply discardGates_keeps
    | apply stopPulses_keeps
    | apply enterHold_keeps
    | apply resetCore_keeps
    | apply resetRecords_keeps
    | apply State.dropRegs_keeps
    | apply State.setReg_keeps
    | apply clearLevels_keeps
    | apply maskRange_keeps
    | apply State.setIsland_keeps
    | simp only [Keeps.lit]
    | refine Keeps.foldl (fun _ _ _ => ?_) _ ?_
    | refine Keeps.of_pair ‹_ = (_, _)› ?_
    | (split)
    | (intro _ _ _)
    | (intro _ _)

theorem recordCause_keeps {σ : State} (n : Nat) (s : Sys2Proof.Machine.State) (hk : Keeps σ s) : Keeps σ (recordCause n s) := by
  unfold recordCause
  try dsimp only
  with_reducible repeat' first
    | assumption
    | apply Keeps.ite
    | apply State.setRegBit_keeps
    | simp only [Keeps.lit]
    | refine Keeps.foldl (fun _ _ _ => ?_) _ ?_
    | refine Keeps.of_pair ‹_ = (_, _)› ?_
    | (split)
    | (intro _ _ _)
    | (intro _ _)

theorem recordLast_keeps {σ : State} (n : Nat) (lvl : Nat) (target : Nat) (s : Sys2Proof.Machine.State) (hk : Keeps σ s) : Keeps σ (recordLast n lvl target s) := by
  unfold recordLast
  try dsimp only
  with_reducible repeat' first
    | assumption
    | apply Keeps.ite
    | apply State.setReg_keeps
    | simp only [Keeps.lit]
    | refine Keeps.foldl (fun _ _ _ => ?_) _ ?_
    | refine Keeps.of_pair ‹_ = (_, _)› ?_
    | (split)
    | (intro _ _ _)
    | (intro _ _)

theorem abandonOtp_keeps {σ : State} (s : Sys2Proof.Machine.State) (hk : Keeps σ s) : Keeps σ (abandonOtp s) := by
  unfold abandonOtp
  try dsimp only
  with_reducible repeat' first
    | assumption
    | apply Keeps.ite
    | apply State.fuse_keeps
    | apply State.used_keeps
    | simp only [Keeps.lit]
    | refine Keeps.foldl (fun _ _ _ => ?_) _ ?_
    | refine Keeps.of_pair ‹_ = (_, _)› ?_
    | (split)
    | (intro _ _ _)
    | (intro _ _)

theorem dropPowered_keeps {σ : State} (s : Sys2Proof.Machine.State) (hk : Keeps σ s) : Keeps σ (dropPowered s) := by
  unfold dropPowered
  try dsimp only
  with_reducible repeat' first
    | assumption
    | apply Keeps.ite
    | apply abandonOtp_keeps
    | apply abandonFlash_keeps
    | simp only [Keeps.lit]
    | refine Keeps.foldl (fun _ _ _ => ?_) _ ?_
    | refine Keeps.of_pair ‹_ = (_, _)› ?_
    | (split)
    | (intro _ _ _)
    | (intro _ _)

theorem resetL1_keeps {σ : State} (s : Sys2Proof.Machine.State) (hk : Keeps σ s) : Keeps σ (resetL1 s) := by
  unfold resetL1
  try dsimp only
  with_reducible repeat' first
    | assumption
    | apply Keeps.ite
    | apply trialPause_keeps
    | apply dropPowered_keeps
    | apply resetLogic_keeps
    | apply State.dropRegs_keeps
    | apply safeOff_keeps
    | apply State.setRegFld_keeps
    | apply startTicks_keeps
    | apply fieldUp_keeps
    | simp only [Keeps.lit]
    | refine Keeps.foldl (fun _ _ _ => ?_) _ ?_
    | refine Keeps.of_pair ‹_ = (_, _)› ?_
    | (split)
    | (intro _ _ _)
    | (intro _ _)

theorem resetAt.coreCheck_keeps {σ : State} (c : Nat) (s : Sys2Proof.Machine.State) (hk : Keeps σ s) : Keeps σ (resetAt.coreCheck c s) := by
  unfold resetAt.coreCheck
  try dsimp only
  with_reducible repeat' first
    | assumption
    | apply Keeps.ite
    | apply resetL1_keeps
    | apply recordLast_keeps
    | apply State.setRegBit_keeps
    | apply releaseCore_keeps
    | simp only [Keeps.lit]
    | refine Keeps.foldl (fun _ _ _ => ?_) _ ?_
    | refine Keeps.of_pair ‹_ = (_, _)› ?_
    | (split)
    | (intro _ _ _)
    | (intro _ _)

theorem resetL0_keeps {σ : State} (s : Sys2Proof.Machine.State) (hk : Keeps σ s) : Keeps σ (resetL0 s) := by
  unfold resetL0
  try dsimp only
  with_reducible repeat' first
    | assumption
    | apply Keeps.ite
    | apply dropPowered_keeps
    | apply resetLogic_keeps
    | apply State.dropRegs_keeps
    | apply startTicks_keeps
    | apply State.setRegFld_keeps
    | apply State.level_keeps
    | simp only [Keeps.lit]
    | refine Keeps.foldl (fun _ _ _ => ?_) _ ?_
    | refine Keeps.of_pair ‹_ = (_, _)› ?_
    | (split)
    | (intro _ _ _)
    | (intro _ _)

theorem resetL2_keeps {σ : State} (i : Sys2Proof.Island) (s : Sys2Proof.Machine.State) (hk : Keeps σ s) : Keeps σ (resetL2 i s) := by
  unfold resetL2
  try dsimp only
  with_reducible repeat' first
    | assumption
    | apply Keeps.ite
    | apply resetLogic_keeps
    | apply State.setIsland_keeps
    | simp only [Keeps.lit]
    | refine Keeps.foldl (fun _ _ _ => ?_) _ ?_
    | refine Keeps.of_pair ‹_ = (_, _)› ?_
    | (split)
    | (intro _ _ _)
    | (intro _ _)

theorem resetL3_keeps {σ : State} (c : Nat) (s : Sys2Proof.Machine.State) (hk : Keeps σ s) : Keeps σ (resetL3 c s) := by
  unfold resetL3
  try dsimp only
  with_reducible repeat' first
    | assumption
    | apply Keeps.ite
    | apply State.setCore_keeps
    | apply resetCore_keeps
    | simp only [Keeps.lit]
    | refine Keeps.foldl (fun _ _ _ => ?_) _ ?_
    | refine Keeps.of_pair ‹_ = (_, _)› ?_
    | (split)
    | (intro _ _ _)
    | (intro _ _)

theorem resetAt_keeps {σ : State} (n : Nat) (lvl : Nat) (target : Nat) (s : Sys2Proof.Machine.State) (hk : Keeps σ s) : Keeps σ (resetAt n lvl target s) := by
  unfold resetAt
  try dsimp only
  with_reducible repeat' first
    | assumption
    | apply Keeps.ite
    | apply resetL0_keeps
    | apply recordLast_keeps
    | apply resetL1_keeps
    | apply State.setIsland_keeps
    | apply State.setRegBit_keeps
    | apply resetL2_keeps
    | apply resetAt.coreCheck_keeps
    | apply resetL3_keeps
    | simp only [Keeps.lit]
    | refine Keeps.foldl (fun _ _ _ => ?_) _ ?_
    | refine Keeps.of_pair ‹_ = (_, _)› ?_
    | (split)
    | (intro _ _ _)
    | (intro _ _)

theorem resetSource_keeps {σ : State} (n : Nat) (isl : Nat) (c : Nat) (s : Sys2Proof.Machine.State) (hk : Keeps σ s) : Keeps σ (resetSource n isl c s) := by
  unfold resetSource
  try dsimp only
  with_reducible repeat' first
    | assumption
    | apply Keeps.ite
    | apply resetAt_keeps
    | apply recordCause_keeps
    | simp only [Keeps.lit]
    | refine Keeps.foldl (fun _ _ _ => ?_) _ ?_
    | refine Keeps.of_pair ‹_ = (_, _)› ?_
    | (split)
    | (intro _ _ _)
    | (intro _ _)

theorem lockstepFail_keeps {σ : State} (c : Nat) (s : Sys2Proof.Machine.State) (hk : Keeps σ s) : Keeps σ (lockstepFail c s) := by
  unfold lockstepFail
  try dsimp only
  with_reducible repeat' first
    | assumption
    | apply Keeps.ite
    | apply resetSource_keeps
    | simp only [Keeps.lit]
    | refine Keeps.foldl (fun _ _ _ => ?_) _ ?_
    | refine Keeps.of_pair ‹_ = (_, _)› ?_
    | (split)
    | (intro _ _ _)
    | (intro _ _)

theorem latchOnly_keeps {σ : State} (b : Nat) (idx : Nat) (s : Sys2Proof.Machine.State) (hk : Keeps σ s) : Keeps σ (latchOnly b idx s) := by
  unfold latchOnly
  try dsimp only
  with_reducible repeat' first
    | assumption
    | apply Keeps.ite
    | apply State.setReg_keeps
    | apply State.setRegBit_keeps
    | apply ringWake_keeps
    | simp only [Keeps.lit]
    | refine Keeps.foldl (fun _ _ _ => ?_) _ ?_
    | refine Keeps.of_pair ‹_ = (_, _)› ?_
    | (split)
    | (intro _ _ _)
    | (intro _ _)

theorem wakeBy_keeps {σ : State} (b : Nat) (s : Sys2Proof.Machine.State) (hk : Keeps σ s) : Keeps σ (wakeBy b s) := by
  unfold wakeBy
  try dsimp only
  with_reducible repeat' first
    | assumption
    | apply Keeps.ite
    | apply resetL1_keeps
    | apply State.setRegFld_keeps
    | apply State.setRegBit_keeps
    | simp only [Keeps.lit]
    | refine Keeps.foldl (fun _ _ _ => ?_) _ ?_
    | refine Keeps.of_pair ‹_ = (_, _)› ?_
    | (split)
    | (intro _ _ _)
    | (intro _ _)

theorem latchCause_keeps {σ : State} (b : Nat) (idx : Nat) (s : Sys2Proof.Machine.State) (hk : Keeps σ s) : Keeps σ (latchCause b idx s) := by
  unfold latchCause
  try dsimp only
  with_reducible repeat' first
    | assumption
    | apply Keeps.ite
    | apply wakeBy_keeps
    | apply latchOnly_keeps
    | simp only [Keeps.lit]
    | refine Keeps.foldl (fun _ _ _ => ?_) _ ?_
    | refine Keeps.of_pair ‹_ = (_, _)› ?_
    | (split)
    | (intro _ _ _)
    | (intro _ _)

theorem watchdogExpire_keeps {σ : State} (c : Nat) (s : Sys2Proof.Machine.State) (hk : Keeps σ s) : Keeps σ (watchdogExpire c s) := by
  unfold watchdogExpire
  try dsimp only
  with_reducible repeat' first
    | assumption
    | apply Keeps.ite
    | apply resetSource_keeps
    | simp only [Keeps.lit]
    | refine Keeps.foldl (fun _ _ _ => ?_) _ ?_
    | refine Keeps.of_pair ‹_ = (_, _)› ?_
    | (split)
    | (intro _ _ _)
    | (intro _ _)

theorem liftFences_keeps {σ : State} (i : Sys2Proof.Island) (s : Sys2Proof.Machine.State) (hk : Keeps σ s) : Keeps σ (liftFences i s) := by
  unfold liftFences
  try dsimp only
  with_reducible repeat' first
    | assumption
    | apply Keeps.ite
    | apply State.setGate_keeps
    | simp only [Keeps.lit]
    | refine Keeps.foldl (fun _ _ _ => ?_) _ ?_
    | refine Keeps.of_pair ‹_ = (_, _)› ?_
    | (split)
    | (intro _ _ _)
    | (intro _ _)

end Sys2Proof.Machine
end

