-- ==== Sys2Proof/Laws/KeepsVilud.lean ====
section
/-! SUPPORT. Every operation of Machine/Vilud.lean keeps what a command keeps. -/

set_option linter.all false

namespace Sys2Proof.Machine

theorem endSession_keeps {σ : State} (s : Sys2Proof.Machine.State) (hk : Keeps σ s) : Keeps σ (endSession s) := by
  unfold endSession
  try dsimp only
  with_reducible repeat' first
    | assumption
    | apply Keeps.ite
    | apply State.setRegBit_keeps
    | apply runHeld_keeps
    | apply accessEvent_keeps
    | apply State.setReg_keeps
    | simp only [Keeps.lit]
    | refine Keeps.foldl (fun _ _ _ => ?_) _ ?_
    | refine Keeps.of_pair ‹_ = (_, _)› ?_
    | (split)
    | (intro _ _ _)
    | (intro _ _)

theorem modSession_keeps {σ : State} (f : Sys2Proof.Machine.Session → Sys2Proof.Machine.Session) (s : Sys2Proof.Machine.State) (hk : Keeps σ s) : Keeps σ (modSession f s) := by
  unfold modSession
  try dsimp only
  with_reducible repeat' first
    | assumption
    | apply Keeps.ite
    | simp only [Keeps.lit]
    | refine Keeps.foldl (fun _ _ _ => ?_) _ ?_
    | refine Keeps.of_pair ‹_ = (_, _)› ?_
    | (split)
    | (intro _ _ _)
    | (intro _ _)

theorem rngTround_keeps {σ : State} (v : Sys2Proof.Word) (s : Sys2Proof.Machine.State) (hk : Keeps σ s) : Keeps σ (rngTround v s) := by
  unfold rngTround
  try dsimp only
  with_reducible repeat' first
    | assumption
    | apply Keeps.ite
    | apply State.plainWrite_keeps
    | apply State.setReg_keeps
    | apply State.used_keeps
    | apply modSession_keeps
    | apply endSession_keeps
    | simp only [Keeps.lit]
    | refine Keeps.foldl (fun _ _ _ => ?_) _ ?_
    | refine Keeps.of_pair ‹_ = (_, _)› ?_
    | (split)
    | (intro _ _ _)
    | (intro _ _)

theorem countBadMac_keeps {σ : State} (s : Sys2Proof.Machine.State) (hk : Keeps σ s) : Keeps σ (countBadMac s) := by
  unfold countBadMac
  try dsimp only
  with_reducible repeat' first
    | assumption
    | apply Keeps.ite
    | apply State.setRegFld_keeps
    | simp only [Keeps.lit]
    | refine Keeps.foldl (fun _ _ _ => ?_) _ ?_
    | refine Keeps.of_pair ‹_ = (_, _)› ?_
    | (split)
    | (intro _ _ _)
    | (intro _ _)

theorem countUnknown_keeps {σ : State} (bytes : List Sys2Proof.Byte) (s : Sys2Proof.Machine.State) (hk : Keeps σ s) : Keeps σ (countUnknown bytes s) := by
  unfold countUnknown
  try dsimp only
  with_reducible repeat' first
    | assumption
    | apply Keeps.ite
    | apply State.setRegFld_keeps
    | simp only [Keeps.lit]
    | refine Keeps.foldl (fun _ _ _ => ?_) _ ?_
    | refine Keeps.of_pair ‹_ = (_, _)› ?_
    | (split)
    | (intro _ _ _)
    | (intro _ _)

theorem rangingReport_keeps {σ : State} (x : Sys2Proof.Machine.Session) (bytes : List Sys2Proof.Byte) (s : Sys2Proof.Machine.State) (hk : Keeps σ s) : Keeps σ (rangingReport x bytes s) := by
  unfold rangingReport
  try dsimp only
  with_reducible repeat' first
    | assumption
    | apply Keeps.ite
    | apply countBadMac_keeps
    | apply State.setRegBit_keeps
    | apply modSession_keeps
    | apply countUnknown_keeps
    | simp only [Keeps.lit]
    | refine Keeps.foldl (fun _ _ _ => ?_) _ ?_
    | refine Keeps.of_pair ‹_ = (_, _)› ?_
    | (split)
    | (intro _ _ _)
    | (intro _ _)

theorem setImmoCnt_keeps {σ : State} (n : Nat) (s : Sys2Proof.Machine.State) (hk : Keeps σ s) : Keeps σ (setImmoCnt n s) := by
  unfold setImmoCnt
  try dsimp only
  with_reducible repeat' first
    | assumption
    | apply Keeps.ite
    | apply State.setReg_keeps
    | simp only [Keeps.lit]
    | refine Keeps.foldl (fun _ _ _ => ?_) _ ?_
    | refine Keeps.of_pair ‹_ = (_, _)› ?_
    | (split)
    | (intro _ _ _)
    | (intro _ _)

theorem startSession_keeps {σ : State} (addressed : Bool) (v : Sys2Proof.Word) (s : Sys2Proof.Machine.State) (hk : Keeps σ s) : Keeps σ (startSession addressed v s) := by
  unfold startSession
  try dsimp only
  with_reducible repeat' first
    | assumption
    | apply Keeps.ite
    | apply freshBytes_keeps
    | apply State.setRegList_keeps
    | apply State.setReg_keeps
    | apply abortSession_keeps
    | apply sendChallenges_keeps
    | simp only [Keeps.lit]
    | refine Keeps.foldl (fun _ _ _ => ?_) _ ?_
    | refine Keeps.of_pair ‹_ = (_, _)› ?_
    | (split)
    | (intro _ _ _)
    | (intro _ _)

theorem accCmd_keeps {σ : State} (v : Sys2Proof.Word) (s : Sys2Proof.Machine.State) (hk : Keeps σ s) : Keeps σ (accCmd v s) := by
  unfold accCmd
  try dsimp only
  with_reducible repeat' first
    | assumption
    | apply Keeps.ite
    | apply startSession_keeps
    | apply abortSession_keeps
    | simp only [Keeps.lit]
    | refine Keeps.foldl (fun _ _ _ => ?_) _ ?_
    | refine Keeps.of_pair ‹_ = (_, _)› ?_
    | (split)
    | (intro _ _ _)
    | (intro _ _)

theorem markTrip_keeps {σ : State} (n : Nat) (s : Sys2Proof.Machine.State) (hk : Keeps σ s) : Keeps σ (markTrip n s) := by
  unfold markTrip
  try dsimp only
  with_reducible repeat' first
    | assumption
    | apply Keeps.ite
    | apply modSession_keeps
    | simp only [Keeps.lit]
    | refine Keeps.foldl (fun _ _ _ => ?_) _ ?_
    | refine Keeps.of_pair ‹_ = (_, _)› ?_
    | (split)
    | (intro _ _ _)
    | (intro _ _)

theorem immoFrame_keeps {σ : State} (r : Sys2Proof.Requester) (release : Bool) (s : Sys2Proof.Machine.State) (hk : Keeps σ s) : Keeps σ (immoFrame r release s) := by
  unfold immoFrame
  try dsimp only
  with_reducible repeat' first
    | assumption
    | apply Keeps.ite
    | apply State.setReg_keeps
    | apply State.setRegList_keeps
    | apply setImmoCnt_keeps
    | simp only [Keeps.lit]
    | refine Keeps.foldl (fun _ _ _ => ?_) _ ?_
    | refine Keeps.of_pair ‹_ = (_, _)› ?_
    | (split)
    | (intro _ _ _)
    | (intro _ _)

theorem immoCmd_keeps {σ : State} (r : Sys2Proof.Requester) (v : Sys2Proof.Word) (s : Sys2Proof.Machine.State) (hk : Keeps σ s) : Keeps σ (immoCmd r v s) := by
  unfold immoCmd
  try dsimp only
  with_reducible repeat' first
    | assumption
    | apply Keeps.ite
    | apply immoFrame_keeps
    | apply State.setReg_keeps
    | apply setImmoCnt_keeps
    | simp only [Keeps.lit]
    | refine Keeps.foldl (fun _ _ _ => ?_) _ ?_
    | refine Keeps.of_pair ‹_ = (_, _)› ?_
    | (split)
    | (intro _ _ _)
    | (intro _ _)

theorem execPollStop_runs {σ : State} (s : Sys2Proof.Machine.State) (hk : Keeps σ s) : Runs σ (execPollStop s) := by
  unfold execPollStop
  try dsimp only
  with_reducible repeat' first
    | assumption
    | apply Runs.next
    | apply Runs.ite
    | apply Keeps.ite
    | apply State.setReg_keeps
    | apply State.setIsland_keeps
    | apply netSleep_keeps
    | apply maskRange_keeps
    | simp only [Keeps.lit]
    | refine Keeps.foldl (fun _ _ _ => ?_) _ ?_
    | refine Keeps.of_pair ‹_ = (_, _)› ?_
    | (split)
    | (intro _ _ _)
    | (intro _ _)

theorem pollDay_keeps {σ : State} (s : Sys2Proof.Machine.State) (hk : Keeps σ s) : Keeps σ (pollDay s) := by
  unfold pollDay
  try dsimp only
  with_reducible repeat' first
    | assumption
    | apply Keeps.ite
    | apply State.setRegFld_keeps
    | simp only [Keeps.lit]
    | refine Keeps.foldl (fun _ _ _ => ?_) _ ?_
    | refine Keeps.of_pair ‹_ = (_, _)› ?_
    | (split)
    | (intro _ _ _)
    | (intro _ _)

theorem rngArm_keeps {σ : State} (v : Sys2Proof.Word) (s : Sys2Proof.Machine.State) (hk : Keeps σ s) : Keeps σ (rngArm v s) := by
  unfold rngArm
  try dsimp only
  with_reducible repeat' first
    | assumption
    | apply Keeps.ite
    | apply State.setReg_keeps
    | apply modSession_keeps
    | simp only [Keeps.lit]
    | refine Keeps.foldl (fun _ _ _ => ?_) _ ?_
    | refine Keeps.of_pair ‹_ = (_, _)› ?_
    | (split)
    | (intro _ _ _)
    | (intro _ _)

theorem pollStart_keeps {σ : State} (s : Sys2Proof.Machine.State) (hk : Keeps σ s) : Keeps σ (pollStart s) := by
  unfold pollStart
  try dsimp only
  with_reducible repeat' first
    | assumption
    | apply Keeps.ite
    | apply State.setReg_keeps
    | simp only [Keeps.lit]
    | refine Keeps.foldl (fun _ _ _ => ?_) _ ?_
    | refine Keeps.of_pair ‹_ = (_, _)› ?_
    | (split)
    | (intro _ _ _)
    | (intro _ _)

theorem setPhase_keeps {σ : State} (k : Nat) (s : Sys2Proof.Machine.State) (hk : Keeps σ s) : Keeps σ (setPhase k s) := by
  unfold setPhase
  try dsimp only
  with_reducible repeat' first
    | assumption
    | apply Keeps.ite
    | apply State.setRegFld_keeps
    | apply modSession_keeps
    | simp only [Keeps.lit]
    | refine Keeps.foldl (fun _ _ _ => ?_) _ ?_
    | refine Keeps.of_pair ‹_ = (_, _)› ?_
    | (split)
    | (intro _ _ _)
    | (intro _ _)

theorem enterRanging_keeps {σ : State} (s : Sys2Proof.Machine.State) (hk : Keeps σ s) : Keeps σ (enterRanging s) := by
  unfold enterRanging
  try dsimp only
  with_reducible repeat' first
    | assumption
    | apply Keeps.ite
    | apply setPhase_keeps
    | apply endSession_keeps
    | simp only [Keeps.lit]
    | refine Keeps.foldl (fun _ _ _ => ?_) _ ?_
    | refine Keeps.of_pair ‹_ = (_, _)› ?_
    | (split)
    | (intro _ _ _)
    | (intro _ _)

theorem framesEnded_keeps {σ : State} (peak : List Nat) (s : Sys2Proof.Machine.State) (hk : Keeps σ s) : Keeps σ (framesEnded peak s) := by
  unfold framesEnded
  try dsimp only
  with_reducible repeat' first
    | assumption
    | apply Keeps.ite
    | apply antennaFrame_keeps
    | apply antennaLevel_keeps
    | apply modSession_keeps
    | simp only [Keeps.lit]
    | refine Keeps.foldl (fun _ _ _ => ?_) _ ?_
    | refine Keeps.of_pair ‹_ = (_, _)› ?_
    | (split)
    | (intro _ _ _)
    | (intro _ _)

theorem nextResolve_keeps {σ : State} (s : Sys2Proof.Machine.State) (hk : Keeps σ s) : Keeps σ (nextResolve s) := by
  unfold nextResolve
  try dsimp only
  with_reducible repeat' first
    | assumption
    | apply Keeps.ite
    | apply enterRanging_keeps
    | apply sendChallenges_keeps
    | apply setPhase_keeps
    | simp only [Keeps.lit]
    | refine Keeps.foldl (fun _ _ _ => ?_) _ ?_
    | refine Keeps.of_pair ‹_ = (_, _)› ?_
    | (split)
    | (intro _ _ _)
    | (intro _ _)

theorem execSessionPhaseEnd_runs {σ : State} (peak : List Nat) (s : Sys2Proof.Machine.State) (hk : Keeps σ s) : Runs σ (execSessionPhaseEnd peak s) := by
  unfold execSessionPhaseEnd
  try dsimp only
  with_reducible repeat' first
    | assumption
    | apply Runs.next
    | apply Runs.ite
    | apply Keeps.ite
    | apply setPhase_keeps
    | apply framesEnded_keeps
    | apply State.setReg_keeps
    | apply enterRanging_keeps
    | apply nextResolve_keeps
    | apply modSession_keeps
    | apply endSession_keeps
    | simp only [Keeps.lit]
    | refine Keeps.foldl (fun _ _ _ => ?_) _ ?_
    | refine Keeps.of_pair ‹_ = (_, _)› ?_
    | (split)
    | (intro _ _ _)
    | (intro _ _)

theorem takeResponse_keeps {σ : State} (x : Sys2Proof.Machine.Session) (slot : Option Nat) (bytes : List Sys2Proof.Byte) (who : Option Nat) (s : Sys2Proof.Machine.State) (hk : Keeps σ s) : Keeps σ (takeResponse x slot bytes who s) := by
  unfold takeResponse
  try dsimp only
  with_reducible repeat' first
    | assumption
    | apply Keeps.ite
    | apply countUnknown_keeps
    | apply modSession_keeps
    | apply State.setRegBit_keeps
    | simp only [Keeps.lit]
    | refine Keeps.foldl (fun _ _ _ => ?_) _ ?_
    | refine Keeps.of_pair ‹_ = (_, _)› ?_
    | (split)
    | (intro _ _ _)
    | (intro _ _)

theorem sessionResponse_keeps {σ : State} (x : Sys2Proof.Machine.Session) (slot : Option Nat) (bytes : List Sys2Proof.Byte) (s : Sys2Proof.Machine.State) (hk : Keeps σ s) : Keeps σ (sessionResponse x slot bytes s) := by
  unfold sessionResponse
  try dsimp only
  with_reducible repeat' first
    | assumption
    | apply Keeps.ite
    | apply takeResponse_keeps
    | simp only [Keeps.lit]
    | refine Keeps.foldl (fun _ _ _ => ?_) _ ?_
    | refine Keeps.of_pair ‹_ = (_, _)› ?_
    | (split)
    | (intro _ _ _)
    | (intro _ _)

theorem execPollWindowEnd_runs {σ : State} (s : Sys2Proof.Machine.State) (hk : Keeps σ s) : Runs σ (execPollWindowEnd s) := by
  unfold execPollWindowEnd
  try dsimp only
  with_reducible repeat' first
    | assumption
    | apply Runs.next
    | apply Runs.ite
    | apply Keeps.ite
    | apply State.setRegFld_keeps
    | simp only [Keeps.lit]
    | refine Keeps.foldl (fun _ _ _ => ?_) _ ?_
    | refine Keeps.of_pair ‹_ = (_, _)› ?_
    | (split)
    | (intro _ _ _)
    | (intro _ _)

theorem pollFrame.countStray_keeps {σ : State} (s : Sys2Proof.Machine.State) (hk : Keeps σ s) : Keeps σ (pollFrame.countStray s) := by
  unfold pollFrame.countStray
  try dsimp only
  with_reducible repeat' first
    | assumption
    | apply Keeps.ite
    | apply State.setRegFld_keeps
    | simp only [Keeps.lit]
    | refine Keeps.foldl (fun _ _ _ => ?_) _ ?_
    | refine Keeps.of_pair ‹_ = (_, _)› ?_
    | (split)
    | (intro _ _ _)
    | (intro _ _)

theorem execSpreadPoll_runs {σ : State} (s : Sys2Proof.Machine.State) (hk : Keeps σ s) : Runs σ (execSpreadPoll s) := by
  unfold execSpreadPoll
  try dsimp only
  with_reducible repeat' first
    | assumption
    | apply Runs.next
    | apply Runs.ite
    | apply Keeps.ite
    | apply State.send_keeps
    | simp only [Keeps.lit]
    | refine Keeps.foldl (fun _ _ _ => ?_) _ ?_
    | refine Keeps.of_pair ‹_ = (_, _)› ?_
    | (split)
    | (intro _ _ _)
    | (intro _ _)

theorem execPoll_runs {σ : State} (s : Sys2Proof.Machine.State) (hk : Keeps σ s) : Runs σ (execPoll s) := by
  unfold execPoll
  try dsimp only
  with_reducible repeat' first
    | assumption
    | apply Runs.next
    | apply Runs.ite
    | apply Keeps.ite
    | apply State.send_keeps
    | simp only [Keeps.lit]
    | refine Keeps.foldl (fun _ _ _ => ?_) _ ?_
    | refine Keeps.of_pair ‹_ = (_, _)› ?_
    | (split)
    | (intro _ _ _)
    | (intro _ _)

theorem pollFrame_keeps {σ : State} (pre : Nat) (crcOk : Bool) (bytes : List Sys2Proof.Byte) (s : Sys2Proof.Machine.State) (hk : Keeps σ s) : Keeps σ (pollFrame pre crcOk bytes s) := by
  unfold pollFrame
  try dsimp only
  with_reducible repeat' first
    | assumption
    | apply Keeps.ite
    | apply pollFrame.countStray_keeps
    | apply latchCause_keeps
    | simp only [Keeps.lit]
    | refine Keeps.foldl (fun _ _ _ => ?_) _ ?_
    | refine Keeps.of_pair ‹_ = (_, _)› ?_
    | (split)
    | (intro _ _ _)
    | (intro _ _)

theorem spiRead_keeps {σ : State} (p : Nat) (s : Sys2Proof.Machine.State) (hk : Keeps σ s) : Keeps σ (spiRead p s).2 := by
  unfold spiRead
  try dsimp only
  with_reducible repeat' first
    | assumption
    | apply Keeps.ite
    | apply State.used_keeps
    | simp only [Keeps.lit]
    | refine Keeps.foldl (fun _ _ _ => ?_) _ ?_
    | refine Keeps.of_pair ‹_ = (_, _)› ?_
    | (split)
    | (intro _ _ _)
    | (intro _ _)

theorem execAntennaShortTrip_runs {σ : State} (n : Fin 8) (i : Nat) (s : Sys2Proof.Machine.State) (hk : Keeps σ s) : Runs σ (execAntennaShortTrip n i s) := by
  unfold execAntennaShortTrip
  try dsimp only
  with_reducible repeat' first
    | assumption
    | apply Runs.next
    | apply Runs.ite
    | apply Keeps.ite
    | apply antennaLevel_keeps
    | apply State.setRegBit_keeps
    | apply markTrip_keeps
    | simp only [Keeps.lit]
    | refine Keeps.foldl (fun _ _ _ => ?_) _ ?_
    | refine Keeps.of_pair ‹_ = (_, _)› ?_
    | (split)
    | (intro _ _ _)
    | (intro _ _)

theorem spiWrite_keeps {σ : State} (p : Nat) (v : Sys2Proof.Word) (reply : Sys2Proof.Byte) (s : Sys2Proof.Machine.State) (hk : Keeps σ s) : Keeps σ (spiWrite p v reply s) := by
  unfold spiWrite
  try dsimp only
  with_reducible repeat' first
    | assumption
    | apply Keeps.ite
    | apply State.send_keeps
    | apply State.setRegBit_keeps
    | simp only [Keeps.lit]
    | refine Keeps.foldl (fun _ _ _ => ?_) _ ?_
    | refine Keeps.of_pair ‹_ = (_, _)› ?_
    | (split)
    | (intro _ _ _)
    | (intro _ _)

theorem execUhfFrameReceived_runs {σ : State} (pre : Nat) (crcOk : Bool) (bytes : List Sys2Proof.Byte) (s : Sys2Proof.Machine.State) (hk : Keeps σ s) : Runs σ (execUhfFrameReceived pre crcOk bytes s) := by
  unfold execUhfFrameReceived
  try dsimp only
  with_reducible repeat' first
    | assumption
    | apply Runs.next
    | apply Runs.ite
    | apply Keeps.ite
    | apply pollFrame_keeps
    | apply modSession_keeps
    | apply rangingReport_keeps
    | apply countUnknown_keeps
    | apply sessionResponse_keeps
    | simp only [Keeps.lit]
    | refine Keeps.foldl (fun _ _ _ => ?_) _ ?_
    | refine Keeps.of_pair ‹_ = (_, _)› ?_
    | (split)
    | (intro _ _ _)
    | (intro _ _)

theorem secBand_keeps {σ : State} (s : Sys2Proof.Machine.State) (hk : Keeps σ s) : Keeps σ (secBand s) := by
  unfold secBand
  try dsimp only
  with_reducible repeat' first
    | assumption
    | apply Keeps.ite
    | apply abortSession_keeps
    | simp only [Keeps.lit]
    | refine Keeps.foldl (fun _ _ _ => ?_) _ ?_
    | refine Keeps.of_pair ‹_ = (_, _)› ?_
    | (split)
    | (intro _ _ _)
    | (intro _ _)

end Sys2Proof.Machine
end

