-- ==== Sys2Proof/Laws/KeepsBand.lean ====
section
/-! SUPPORT. Every operation of Machine/Band.lean keeps what a command keeps. -/

set_option linter.all false

namespace Sys2Proof.Machine

theorem sectionChanged_keeps {σ : State} (k : Nat) (_old : Sys2Proof.Band) (_new : Sys2Proof.Band) (s : Sys2Proof.Machine.State) (hk : Keeps σ s) : Keeps σ (sectionChanged k _old _new s) := by
  unfold sectionChanged
  try dsimp only
  with_reducible repeat' first
    | assumption
    | apply Keeps.ite
    | apply followHolds_keeps
    | simp only [Keeps.lit]
    | refine Keeps.foldl (fun _ _ _ => ?_) _ ?_
    | refine Keeps.of_pair ‹_ = (_, _)› ?_
    | (split)
    | (intro _ _ _)
    | (intro _ _)

theorem bandChanged_keeps {σ : State} (_old : Sys2Proof.Band) (_new : Sys2Proof.Band) (s : Sys2Proof.Machine.State) (hk : Keeps σ s) : Keeps σ (bandChanged _old _new s) := by
  unfold bandChanged
  try dsimp only
  with_reducible repeat' first
    | assumption
    | apply Keeps.ite
    | apply followHolds_keeps
    | apply secBand_keeps
    | apply boostFollow_keeps
    | simp only [Keeps.lit]
    | refine Keeps.foldl (fun _ _ _ => ?_) _ ?_
    | refine Keeps.of_pair ‹_ = (_, _)› ?_
    | (split)
    | (intro _ _ _)
    | (intro _ _)

end Sys2Proof.Machine
end

