-- ==== Sys2Proof/Laws/KeepsSupply.lean ====
section
/-! SUPPORT. Every operation of Machine/Supply.lean keeps what a command keeps. -/

set_option linter.all false

namespace Sys2Proof.Machine

theorem loadTap_keeps {σ : State} (t : Sys2Proof.Machine.Tap) (s : Sys2Proof.Machine.State) (hk : Keeps σ s) : Keeps σ (loadTap t s) := by
  unfold loadTap
  try dsimp only
  with_reducible repeat' first
    | assumption
    | apply Keeps.ite
    | apply State.level_keeps
    | simp only [Keeps.lit]
    | refine Keeps.foldl (fun _ _ _ => ?_) _ ?_
    | refine Keeps.of_pair ‹_ = (_, _)› ?_
    | (split)
    | (intro _ _ _)
    | (intro _ _)

theorem execBypass_runs {σ : State} (code : Sys2Proof.Byte) (s : Sys2Proof.Machine.State) (hk : Keeps σ s) : Runs σ (execBypass code s) := by
  unfold execBypass
  try dsimp only
  with_reducible repeat' first
    | assumption
    | apply Runs.next
    | apply Runs.ite
    | apply Keeps.ite
    | apply loadTap_keeps
    | simp only [Keeps.lit]
    | refine Keeps.foldl (fun _ _ _ => ?_) _ ?_
    | refine Keeps.of_pair ‹_ = (_, _)› ?_
    | (split)
    | (intro _ _ _)
    | (intro _ _)

theorem execSamplePreload_runs {σ : State} (levels : List Bool) (s : Sys2Proof.Machine.State) (hk : Keeps σ s) : Runs σ (execSamplePreload levels s) := by
  unfold execSamplePreload
  try dsimp only
  with_reducible repeat' first
    | assumption
    | apply Runs.next
    | apply Runs.ite
    | apply Keeps.ite
    | apply loadTap_keeps
    | simp only [Keeps.lit]
    | refine Keeps.foldl (fun _ _ _ => ?_) _ ?_
    | refine Keeps.of_pair ‹_ = (_, _)› ?_
    | (split)
    | (intro _ _ _)
    | (intro _ _)

theorem unpowered_keeps {σ : State} (s : State) (hk : Keeps σ s) : Keeps σ (unpowered s) :=
  have h0 := abandonOtp_keeps _ (abandonFlash_keeps s hk)
  ⟨hk.queue, hk.time, fun m => Sparse.wf_filter _ (h0.mem m), fun _ => rfl, h0.otp⟩

theorem execPowerLoss_runs {σ : State} (s : Sys2Proof.Machine.State) (hk : Keeps σ s) : Runs σ (execPowerLoss s) := by
  unfold execPowerLoss
  try dsimp only
  with_reducible repeat' first
    | assumption
    | apply Runs.next
    | apply Runs.ite
    | apply Keeps.ite
    | apply unpowered_keeps
    | simp only [Keeps.lit]
    | refine Keeps.foldl (fun _ _ _ => ?_) _ ?_
    | refine Keeps.of_pair ‹_ = (_, _)› ?_
    | (split)
    | (intro _ _ _)
    | (intro _ _)

theorem sectionSources_keeps {σ : State} (s : Sys2Proof.Machine.State) (hk : Keeps σ s) : Keeps σ (sectionSources s) := by
  unfold sectionSources
  try dsimp only
  with_reducible repeat' first
    | assumption
    | apply Keeps.ite
    | apply State.level_keeps
    | simp only [Keeps.lit]
    | refine Keeps.foldl (fun _ _ _ => ?_) _ ?_
    | refine Keeps.of_pair ‹_ = (_, _)› ?_
    | (split)
    | (intro _ _ _)
    | (intro _ _)

theorem execClamp_runs {σ : State} (s : Sys2Proof.Machine.State) (hk : Keeps σ s) : Runs σ (execClamp s) := by
  unfold execClamp
  try dsimp only
  with_reducible repeat' first
    | assumption
    | apply Runs.next
    | apply Runs.ite
    | apply Keeps.ite
    | apply loadTap_keeps
    | simp only [Keeps.lit]
    | refine Keeps.foldl (fun _ _ _ => ?_) _ ?_
    | refine Keeps.of_pair ‹_ = (_, _)› ?_
    | (split)
    | (intro _ _ _)
    | (intro _ _)

theorem execPowerOn_runs {σ : State} (s : Sys2Proof.Machine.State) (hk : Keeps σ s) : Runs σ (execPowerOn s) := by
  unfold execPowerOn
  try dsimp only
  with_reducible repeat' first
    | assumption
    | apply Runs.next
    | apply Runs.ite
    | apply Keeps.ite
    | apply unpowered_keeps
    | apply startTicks_keeps
    | apply fieldUp_keeps
    | simp only [Keeps.lit]
    | refine Keeps.foldl (fun _ _ _ => ?_) _ ?_
    | refine Keeps.of_pair ‹_ = (_, _)› ?_
    | (split)
    | (intro _ _ _)
    | (intro _ _)

theorem enterBand_keeps {σ : State} (b : Sys2Proof.Band) (s : Sys2Proof.Machine.State) (hk : Keeps σ s) : Keeps σ (enterBand b s) := by
  unfold enterBand
  try dsimp only
  with_reducible repeat' first
    | assumption
    | apply Keeps.ite
    | apply State.level_keeps
    | apply bandChanged_keeps
    | apply fieldUp_keeps
    | simp only [Keeps.lit]
    | refine Keeps.foldl (fun _ _ _ => ?_) _ ?_
    | refine Keeps.of_pair ‹_ = (_, _)› ?_
    | (split)
    | (intro _ _ _)
    | (intro _ _)

theorem parkFall_keeps {σ : State} (s : Sys2Proof.Machine.State) (hk : Keeps σ s) : Keeps σ (parkFall s) := by
  unfold parkFall
  try dsimp only
  with_reducible repeat' first
    | assumption
    | apply Keeps.ite
    | apply latchCause_keeps
    | simp only [Keeps.lit]
    | refine Keeps.foldl (fun _ _ _ => ?_) _ ?_
    | refine Keeps.of_pair ‹_ = (_, _)› ?_
    | (split)
    | (intro _ _ _)
    | (intro _ _)

theorem parkRise_keeps {σ : State} (s : Sys2Proof.Machine.State) (hk : Keeps σ s) : Keeps σ (parkRise s) := by
  unfold parkRise
  try dsimp only
  with_reducible repeat' first
    | assumption
    | apply Keeps.ite
    | apply latchCause_keeps
    | simp only [Keeps.lit]
    | refine Keeps.foldl (fun _ _ _ => ?_) _ ?_
    | refine Keeps.of_pair ‹_ = (_, _)› ?_
    | (split)
    | (intro _ _ _)
    | (intro _ _)

theorem execBandChange_runs {σ : State} (b : Sys2Proof.Band) (s : Sys2Proof.Machine.State) (hk : Keeps σ s) : Runs σ (execBandChange b s) := by
  unfold execBandChange
  try dsimp only
  with_reducible repeat' first
    | assumption
    | apply Runs.next
    | apply Runs.ite
    | apply Keeps.ite
    | apply unpowered_keeps
    | apply parkFall_keeps
    | apply enterBand_keeps
    | apply fieldDown_keeps
    | apply bandChanged_keeps
    | apply resetSource_keeps
    | apply State.level_keeps
    | apply parkRise_keeps
    | simp only [Keeps.lit]
    | refine Keeps.foldl (fun _ _ _ => ?_) _ ?_
    | refine Keeps.of_pair ‹_ = (_, _)› ?_
    | (split)
    | (intro _ _ _)
    | (intro _ _)

theorem wakeClear_keeps {σ : State} (v : Sys2Proof.Word) (s : Sys2Proof.Machine.State) (hk : Keeps σ s) : Keeps σ (wakeClear v s) := by
  unfold wakeClear
  try dsimp only
  with_reducible repeat' first
    | assumption
    | apply Keeps.ite
    | apply State.plainWrite_keeps
    | apply State.setReg_keeps
    | simp only [Keeps.lit]
    | refine Keeps.foldl (fun _ _ _ => ?_) _ ?_
    | refine Keeps.of_pair ‹_ = (_, _)› ?_
    | (split)
    | (intro _ _ _)
    | (intro _ _)

theorem execReversePolarity_runs {σ : State} (s : Sys2Proof.Machine.State) (hk : Keeps σ s) : Runs σ (execReversePolarity s) := by
  unfold execReversePolarity
  try dsimp only
  with_reducible repeat' first
    | assumption
    | apply Runs.next
    | apply Runs.ite
    | apply Keeps.ite
    | apply unpowered_keeps
    | simp only [Keeps.lit]
    | refine Keeps.foldl (fun _ _ _ => ?_) _ ?_
    | refine Keeps.of_pair ‹_ = (_, _)› ?_
    | (split)
    | (intro _ _ _)
    | (intro _ _)

theorem rtcSeconds_keeps {σ : State} (v : Nat) (s : Sys2Proof.Machine.State) (hk : Keeps σ s) : Keeps σ (rtcSeconds v s) := by
  unfold rtcSeconds
  try dsimp only
  with_reducible repeat' first
    | assumption
    | apply Keeps.ite
    | apply pollDay_keeps
    | apply latchCause_keeps
    | simp only [Keeps.lit]
    | refine Keeps.foldl (fun _ _ _ => ?_) _ ?_
    | refine Keeps.of_pair ‹_ = (_, _)› ?_
    | (split)
    | (intro _ _ _)
    | (intro _ _)

theorem rtcCmd_keeps {σ : State} (v : Sys2Proof.Word) (s : Sys2Proof.Machine.State) (hk : Keeps σ s) : Keeps σ (rtcCmd v s) := by
  unfold rtcCmd
  try dsimp only
  with_reducible repeat' first
    | assumption
    | apply Keeps.ite
    | apply rtcSeconds_keeps
    | simp only [Keeps.lit]
    | refine Keeps.foldl (fun _ _ _ => ?_) _ ?_
    | refine Keeps.of_pair ‹_ = (_, _)› ?_
    | (split)
    | (intro _ _ _)
    | (intro _ _)

theorem execSectionBandChange_runs {σ : State} (sec : Fin 4) (b : Sys2Proof.Band) (s : Sys2Proof.Machine.State) (hk : Keeps σ s) : Runs σ (execSectionBandChange sec b s) := by
  unfold execSectionBandChange
  try dsimp only
  with_reducible repeat' first
    | assumption
    | apply Runs.next
    | apply Runs.ite
    | apply Keeps.ite
    | apply sectionChanged_keeps
    | apply sectionSources_keeps
    | simp only [Keeps.lit]
    | refine Keeps.foldl (fun _ _ _ => ?_) _ ?_
    | refine Keeps.of_pair ‹_ = (_, _)› ?_
    | (split)
    | (intro _ _ _)
    | (intro _ _)

theorem execVcoreBrownout_runs {σ : State} (s : Sys2Proof.Machine.State) (hk : Keeps σ s) : Runs σ (execVcoreBrownout s) := by
  unfold execVcoreBrownout
  try dsimp only
  with_reducible repeat' first
    | assumption
    | apply Runs.next
    | apply Runs.ite
    | apply Keeps.ite
    | apply resetSource_keeps
    | simp only [Keeps.lit]
    | refine Keeps.foldl (fun _ _ _ => ?_) _ ?_
    | refine Keeps.of_pair ‹_ = (_, _)› ?_
    | (split)
    | (intro _ _ _)
    | (intro _ _)

theorem execParkVbatLow_runs {σ : State} (s : Sys2Proof.Machine.State) (hk : Keeps σ s) : Runs σ (execParkVbatLow s) := by
  unfold execParkVbatLow
  try dsimp only
  with_reducible repeat' first
    | assumption
    | apply Runs.next
    | apply Runs.ite
    | apply Keeps.ite
    | apply parkFall_keeps
    | simp only [Keeps.lit]
    | refine Keeps.foldl (fun _ _ _ => ?_) _ ?_
    | refine Keeps.of_pair ‹_ = (_, _)› ?_
    | (split)
    | (intro _ _ _)
    | (intro _ _)

theorem execGroundTabFault_runs {σ : State} (present : Bool) (s : Sys2Proof.Machine.State) (hk : Keeps σ s) : Runs σ (execGroundTabFault present s) := by
  unfold execGroundTabFault
  try dsimp only
  with_reducible repeat' first
    | assumption
    | apply Runs.next
    | apply Runs.ite
    | apply Keeps.ite
    | apply State.level_keeps
    | simp only [Keeps.lit]
    | refine Keeps.foldl (fun _ _ _ => ?_) _ ?_
    | refine Keeps.of_pair ‹_ = (_, _)› ?_
    | (split)
    | (intro _ _ _)
    | (intro _ _)

theorem execVsenShort_runs {σ : State} (n : Fin 4) (k : Sys2Proof.ShortKind) (present : Bool) (s : Sys2Proof.Machine.State) (hk : Keeps σ s) : Runs σ (execVsenShort n k present s) := by
  unfold execVsenShort
  try dsimp only
  with_reducible repeat' first
    | assumption
    | apply Runs.next
    | apply Runs.ite
    | apply Keeps.ite
    | apply State.level_keeps
    | simp only [Keeps.lit]
    | refine Keeps.foldl (fun _ _ _ => ?_) _ ?_
    | refine Keeps.of_pair ‹_ = (_, _)› ?_
    | (split)
    | (intro _ _ _)
    | (intro _ _)

theorem execHighz_runs {σ : State} (s : Sys2Proof.Machine.State) (hk : Keeps σ s) : Runs σ (execHighz s) := by
  unfold execHighz
  try dsimp only
  with_reducible repeat' first
    | assumption
    | apply Runs.next
    | apply Runs.ite
    | apply Keeps.ite
    | apply loadTap_keeps
    | simp only [Keeps.lit]
    | refine Keeps.foldl (fun _ _ _ => ?_) _ ?_
    | refine Keeps.of_pair ‹_ = (_, _)› ?_
    | (split)
    | (intro _ _ _)
    | (intro _ _)

theorem execRtcTick_runs {σ : State} (s : Sys2Proof.Machine.State) (hk : Keeps σ s) : Runs σ (execRtcTick s) := by
  unfold execRtcTick
  try dsimp only
  with_reducible repeat' first
    | assumption
    | apply Runs.next
    | apply Runs.ite
    | apply Keeps.ite
    | apply rtcSeconds_keeps
    | simp only [Keeps.lit]
    | refine Keeps.foldl (fun _ _ _ => ?_) _ ?_
    | refine Keeps.of_pair ‹_ = (_, _)› ?_
    | (split)
    | (intro _ _ _)
    | (intro _ _)

theorem modeReached_keeps {σ : State} (deep : Bool) (s : Sys2Proof.Machine.State) (hk : Keeps σ s) : Keeps σ (modeReached deep s) := by
  unfold modeReached
  try dsimp only
  with_reducible repeat' first
    | assumption
    | apply Keeps.ite
    | apply maskRange_keeps
    | apply State.setIsland_keeps
    | apply State.level_keeps
    | apply fieldDown_keeps
    | apply pollStart_keeps
    | simp only [Keeps.lit]
    | refine Keeps.foldl (fun _ _ _ => ?_) _ ?_
    | refine Keeps.of_pair ‹_ = (_, _)› ?_
    | (split)
    | (intro _ _ _)
    | (intro _ _)

theorem execVsenRestart_runs {σ : State} (n : Fin 4) (s : Sys2Proof.Machine.State) (hk : Keeps σ s) : Runs σ (execVsenRestart n s) := by
  unfold execVsenRestart
  try dsimp only
  with_reducible repeat' first
    | assumption
    | apply Runs.next
    | apply Runs.ite
    | apply Keeps.ite
    | simp only [Keeps.lit]
    | refine Keeps.foldl (fun _ _ _ => ?_) _ ?_
    | refine Keeps.of_pair ‹_ = (_, _)› ?_
    | (split)
    | (intro _ _ _)
    | (intro _ _)

theorem pwrCtrl_keeps {σ : State} (v : Sys2Proof.Word) (s : Sys2Proof.Machine.State) (hk : Keeps σ s) : Keeps σ (pwrCtrl v s) := by
  unfold pwrCtrl
  try dsimp only
  with_reducible repeat' first
    | assumption
    | apply Keeps.ite
    | apply State.setReg_keeps
    | apply State.setRegBit_keeps
    | apply freezeWatchdog_keeps
    | apply State.modCore_keeps
    | apply fenceGates_keeps
    | apply netSleep_keeps
    | simp only [Keeps.lit]
    | refine Keeps.foldl (fun _ _ _ => ?_) _ ?_
    | refine Keeps.of_pair ‹_ = (_, _)› ?_
    | (split)
    | (intro _ _ _)
    | (intro _ _)

theorem execParkVbatReturn_runs {σ : State} (s : Sys2Proof.Machine.State) (hk : Keeps σ s) : Runs σ (execParkVbatReturn s) := by
  unfold execParkVbatReturn
  try dsimp only
  with_reducible repeat' first
    | assumption
    | apply Runs.next
    | apply Runs.ite
    | apply Keeps.ite
    | apply parkRise_keeps
    | simp only [Keeps.lit]
    | refine Keeps.foldl (fun _ _ _ => ?_) _ ?_
    | refine Keeps.of_pair ‹_ = (_, _)› ?_
    | (split)
    | (intro _ _ _)
    | (intro _ _)

theorem execStrapSample_runs {σ : State} (v : BitVec 9) (s : Sys2Proof.Machine.State) (hk : Keeps σ s) : Runs σ (execStrapSample v s) := by
  unfold execStrapSample
  try dsimp only
  with_reducible repeat' first
    | assumption
    | apply Runs.next
    | apply Runs.ite
    | apply Keeps.ite
    | simp only [Keeps.lit]
    | refine Keeps.foldl (fun _ _ _ => ?_) _ ?_
    | refine Keeps.of_pair ‹_ = (_, _)› ?_
    | (split)
    | (intro _ _ _)
    | (intro _ _)

theorem execExtest_runs {σ : State} (s : Sys2Proof.Machine.State) (hk : Keeps σ s) : Runs σ (execExtest s) := by
  unfold execExtest
  try dsimp only
  with_reducible repeat' first
    | assumption
    | apply Runs.next
    | apply Runs.ite
    | apply Keeps.ite
    | apply loadTap_keeps
    | simp only [Keeps.lit]
    | refine Keeps.foldl (fun _ _ _ => ?_) _ ?_
    | refine Keeps.of_pair ‹_ = (_, _)› ?_
    | (split)
    | (intro _ _ _)
    | (intro _ _)

theorem execWklWake_runs {σ : State} (l : Fin 2) (us : Nat) (s : Sys2Proof.Machine.State) (hk : Keeps σ s) : Runs σ (execWklWake l us s) := by
  unfold execWklWake
  try dsimp only
  with_reducible repeat' first
    | assumption
    | apply Runs.next
    | apply Runs.ite
    | apply Keeps.ite
    | apply latchCause_keeps
    | simp only [Keeps.lit]
    | refine Keeps.foldl (fun _ _ _ => ?_) _ ?_
    | refine Keeps.of_pair ‹_ = (_, _)› ?_
    | (split)
    | (intro _ _ _)
    | (intro _ _)

theorem execSupplyMeasureUpdate_runs {σ : State} (va : Sys2Proof.Word) (vb : Sys2Proof.Word) (vc : Sys2Proof.Word) (vd : Sys2Proof.Word) (vbus : Sys2Proof.Word) (s : Sys2Proof.Machine.State) (hk : Keeps σ s) : Runs σ (execSupplyMeasureUpdate va vb vc vd vbus s) := by
  unfold execSupplyMeasureUpdate
  try dsimp only
  with_reducible repeat' first
    | assumption
    | apply Runs.next
    | apply Runs.ite
    | apply Keeps.ite
    | apply State.setRegList_keeps
    | simp only [Keeps.lit]
    | refine Keeps.foldl (fun _ _ _ => ?_) _ ?_
    | refine Keeps.of_pair ‹_ = (_, _)› ?_
    | (split)
    | (intro _ _ _)
    | (intro _ _)

theorem rtcCapture_keeps {σ : State} (s : Sys2Proof.Machine.State) (hk : Keeps σ s) : Keeps σ (rtcCapture s) := by
  unfold rtcCapture
  try dsimp only
  with_reducible repeat' first
    | assumption
    | apply Keeps.ite
    | apply State.setReg_keeps
    | simp only [Keeps.lit]
    | refine Keeps.foldl (fun _ _ _ => ?_) _ ?_
    | refine Keeps.of_pair ‹_ = (_, _)› ?_
    | (split)
    | (intro _ _ _)
    | (intro _ _)

end Sys2Proof.Machine
end

