-- ==== Sys2Proof/Laws/KeepsNet.lean ====
section
/-! SUPPORT. Every operation of Machine/Net.lean keeps what a command keeps. -/

set_option linter.all false

namespace Sys2Proof.Machine

theorem barNode_keeps {σ : State} (m : Nat) (s : Sys2Proof.Machine.State) (hk : Keeps σ s) : Keeps σ (barNode m s) := by
  unfold barNode
  try dsimp only
  with_reducible repeat' first
    | assumption
    | apply Keeps.ite
    | apply State.setRegBit_keeps
    | apply removeMember_keeps
    | simp only [Keeps.lit]
    | refine Keeps.foldl (fun _ _ _ => ?_) _ ?_
    | refine Keeps.of_pair ‹_ = (_, _)› ?_
    | (split)
    | (intro _ _ _)
    | (intro _ _)

theorem enterQuiet_keeps {σ : State} (s : Sys2Proof.Machine.State) (hk : Keeps σ s) : Keeps σ (enterQuiet s) := by
  unfold enterQuiet
  try dsimp only
  with_reducible repeat' first
    | assumption
    | apply Keeps.ite
    | apply setHolder_keeps
    | apply modRing_keeps
    | apply setTrState_keeps
    | apply State.setRegFld_keeps
    | simp only [Keeps.lit]
    | refine Keeps.foldl (fun _ _ _ => ?_) _ ?_
    | refine Keeps.of_pair ‹_ = (_, _)› ?_
    | (split)
    | (intro _ _ _)
    | (intro _ _)

theorem noteRun_keeps {σ : State} (round : Nat) (run : Nat) (s : Sys2Proof.Machine.State) (hk : Keeps σ s) : Keeps σ (noteRun round run s) := by
  unfold noteRun
  try dsimp only
  with_reducible repeat' first
    | assumption
    | apply Keeps.ite
    | apply State.setReg_keeps
    | apply State.setRegFld_keeps
    | simp only [Keeps.lit]
    | refine Keeps.foldl (fun _ _ _ => ?_) _ ?_
    | refine Keeps.of_pair ‹_ = (_, _)› ?_
    | (split)
    | (intro _ _ _)
    | (intro _ _)

theorem noteSkip_keeps {σ : State} (k : Nat) (s : Sys2Proof.Machine.State) (hk : Keeps σ s) : Keeps σ (noteSkip k s) := by
  unfold noteSkip
  try dsimp only
  with_reducible repeat' first
    | assumption
    | apply Keeps.ite
    | apply modRing_keeps
    | apply removeMember_keeps
    | apply enterJoining_keeps
    | simp only [Keeps.lit]
    | refine Keeps.foldl (fun _ _ _ => ?_) _ ?_
    | refine Keeps.of_pair ‹_ = (_, _)› ?_
    | (split)
    | (intro _ _ _)
    | (intro _ _)

theorem setResetPend_keeps {σ : State} (b : Bool) (s : Sys2Proof.Machine.State) (hk : Keeps σ s) : Keeps σ (setResetPend b s) := by
  unfold setResetPend
  try dsimp only
  with_reducible repeat' first
    | assumption
    | apply Keeps.ite
    | apply State.setRegBit_keeps
    | simp only [Keeps.lit]
    | refine Keeps.foldl (fun _ _ _ => ?_) _ ?_
    | refine Keeps.of_pair ‹_ = (_, _)› ?_
    | (split)
    | (intro _ _ _)
    | (intro _ _)

theorem sendToken_keeps {σ : State} (succ : Nat) (round : Nat) (run : Nat) (consent : Bool) (subj : Nat) (s : Sys2Proof.Machine.State) (hk : Keeps σ s) : Keeps σ (sendToken succ round run consent subj s) := by
  unfold sendToken
  try dsimp only
  with_reducible repeat' first
    | assumption
    | apply Keeps.ite
    | apply noteRun_keeps
    | apply setMember_keeps
    | apply sendRing_keeps
    | apply setResetPend_keeps
    | apply setHolder_keeps
    | apply tokenTimer_keeps
    | apply modRing_keeps
    | simp only [Keeps.lit]
    | refine Keeps.foldl (fun _ _ _ => ?_) _ ?_
    | refine Keeps.of_pair ‹_ = (_, _)› ?_
    | (split)
    | (intro _ _ _)
    | (intro _ _)

theorem passOn_keeps {σ : State} (skipped : Bool) (w : Sys2Proof.Machine.RingWait) (s : Sys2Proof.Machine.State) (hk : Keeps σ s) : Keeps σ (passOn skipped w s) := by
  unfold passOn
  try dsimp only
  with_reducible repeat' first
    | assumption
    | apply Keeps.ite
    | apply sendToken_keeps
    | apply noteSkip_keeps
    | simp only [Keeps.lit]
    | refine Keeps.foldl (fun _ _ _ => ?_) _ ?_
    | refine Keeps.of_pair ‹_ = (_, _)› ?_
    | (split)
    | (intro _ _ _)
    | (intro _ _)

theorem noteVote_keeps {σ : State} (m : Nat) (consent : Bool) (s : Sys2Proof.Machine.State) (hk : Keeps σ s) : Keeps σ (noteVote m consent s) := by
  unfold noteVote
  try dsimp only
  with_reducible repeat' first
    | assumption
    | apply Keeps.ite
    | apply clearVeto_keeps
    | apply modRing_keeps
    | simp only [Keeps.lit]
    | refine Keeps.foldl (fun _ _ _ => ?_) _ ?_
    | refine Keeps.of_pair ‹_ = (_, _)› ?_
    | (split)
    | (intro _ _ _)
    | (intro _ _)

theorem tokenSeen_keeps {σ : State} (m : Nat) (f : Sys2Proof.RingFrame) (s : Sys2Proof.Machine.State) (hk : Keeps σ s) : Keeps σ (tokenSeen m f s) := by
  unfold tokenSeen
  try dsimp only
  with_reducible repeat' first
    | assumption
    | apply Keeps.ite
    | apply noteVote_keeps
    | apply noteRun_keeps
    | apply setMember_keeps
    | apply tokenTimer_keeps
    | apply noteSkip_keeps
    | apply setTrState_keeps
    | apply setResetPend_keeps
    | apply setHolder_keeps
    | apply sendJoin_keeps
    | simp only [Keeps.lit]
    | refine Keeps.foldl (fun _ _ _ => ?_) _ ?_
    | refine Keeps.of_pair ‹_ = (_, _)› ?_
    | (split)
    | (intro _ _ _)
    | (intro _ _)

theorem ringActs_keeps {σ : State} (typ : Nat) (m : Nat) (f : Sys2Proof.RingFrame) (s : Sys2Proof.Machine.State) (hk : Keeps σ s) : Keeps σ (ringActs typ m f s) := by
  unfold ringActs
  try dsimp only
  with_reducible repeat' first
    | assumption
    | apply Keeps.ite
    | apply setResetPend_keeps
    | apply setMember_keeps
    | apply cancelSleep_keeps
    | apply removeMember_keeps
    | apply passOn_keeps
    | apply tokenSeen_keeps
    | apply noteRun_keeps
    | apply enterQuiet_keeps
    | apply barNode_keeps
    | apply setHolder_keeps
    | apply setTrState_keeps
    | apply modRing_keeps
    | simp only [Keeps.lit]
    | refine Keeps.foldl (fun _ _ _ => ?_) _ ?_
    | refine Keeps.of_pair ‹_ = (_, _)› ?_
    | (split)
    | (intro _ _ _)
    | (intro _ _)

theorem ringTake_keeps {σ : State} (n : Nat) (typ : Nat) (m : Nat) (f : Sys2Proof.RingFrame) (c : Sys2Proof.CanFrame) (s : Sys2Proof.Machine.State) (hk : Keeps σ s) : Keeps σ (ringTake n typ m f c s) := by
  unfold ringTake
  try dsimp only
  with_reducible repeat' first
    | assumption
    | apply Keeps.ite
    | apply sendCan_keeps
    | apply clearSkips_keeps
    | apply State.setRegFld_keeps
    | apply modRing_keeps
    | apply ringActs_keeps
    | simp only [Keeps.lit]
    | refine Keeps.foldl (fun _ _ _ => ?_) _ ?_
    | refine Keeps.of_pair ‹_ = (_, _)› ?_
    | (split)
    | (intro _ _ _)
    | (intro _ _)

theorem setGwq_keeps {σ : State} (p : Nat) (q : List Sys2Proof.Machine.GwFrame) (s : Sys2Proof.Machine.State) (hk : Keeps σ s) : Keeps σ (setGwq p q s) := by
  unfold setGwq
  try dsimp only
  with_reducible repeat' first
    | assumption
    | apply Keeps.ite
    | simp only [Keeps.lit]
    | refine Keeps.foldl (fun _ _ _ => ?_) _ ?_
    | refine Keeps.of_pair ‹_ = (_, _)› ?_
    | (split)
    | (intro _ _ _)
    | (intro _ _)

theorem toPort_keeps {σ : State} (p : Nat) (f : Sys2Proof.Machine.GwFrame) (s : Sys2Proof.Machine.State) (hk : Keeps σ s) : Keeps σ (toPort p f s) := by
  unfold toPort
  try dsimp only
  with_reducible repeat' first
    | assumption
    | apply Keeps.ite
    | apply gwDropAt_keeps
    | apply setGwq_keeps
    | simp only [Keeps.lit]
    | refine Keeps.foldl (fun _ _ _ => ?_) _ ?_
    | refine Keeps.of_pair ‹_ = (_, _)› ?_
    | (split)
    | (intro _ _ _)
    | (intro _ _)

theorem toRing_keeps {σ : State} (k : Nat) (rec_ : List Sys2Proof.Word) (s : Sys2Proof.Machine.State) (hk : Keeps σ s) : Keeps σ (toRing k rec_ s) := by
  unfold toRing
  try dsimp only
  with_reducible repeat' first
    | assumption
    | apply Keeps.ite
    | simp only [Keeps.lit]
    | refine Keeps.foldl (fun _ _ _ => ?_) _ ?_
    | refine Keeps.of_pair ‹_ = (_, _)› ?_
    | (split)
    | (intro _ _ _)
    | (intro _ _)

theorem routeFrame_keeps {σ : State} (port : Nat) (key : Nat) (ide : Bool) (f : Sys2Proof.Machine.GwFrame) (rec_ : List Sys2Proof.Word) (s : Sys2Proof.Machine.State) (hk : Keeps σ s) : Keeps σ (routeFrame port key ide f rec_ s) := by
  unfold routeFrame
  try dsimp only
  with_reducible repeat' first
    | assumption
    | apply Keeps.ite
    | apply State.regInc_keeps
    | apply toPort_keeps
    | apply toRing_keeps
    | simp only [Keeps.lit]
    | refine Keeps.foldl (fun _ _ _ => ?_) _ ?_
    | refine Keeps.of_pair ‹_ = (_, _)› ?_
    | (split)
    | (intro _ _ _)
    | (intro _ _)

theorem selectiveWake_keeps {σ : State} (n : Nat) (f : Sys2Proof.CanFrame) (s : Sys2Proof.Machine.State) (hk : Keeps σ s) : Keeps σ (selectiveWake n f s) := by
  unfold selectiveWake
  try dsimp only
  with_reducible repeat' first
    | assumption
    | apply Keeps.ite
    | apply latchOnly_keeps
    | apply wakeBy_keeps
    | simp only [Keeps.lit]
    | refine Keeps.foldl (fun _ _ _ => ?_) _ ?_
    | refine Keeps.of_pair ‹_ = (_, _)› ?_
    | (split)
    | (intro _ _ _)
    | (intro _ _)

theorem canReceive_keeps {σ : State} (n : Nat) (f : Sys2Proof.CanFrame) (s0 : Sys2Proof.Machine.State) (hk : Keeps σ s0) : Keeps σ (canReceive n f s0) := by
  unfold canReceive
  try dsimp only
  with_reducible repeat' first
    | assumption
    | apply Keeps.ite
    | apply selectiveWake_keeps
    | apply gwDrop_keeps
    | apply countUp_keeps
    | apply ringTake_keeps
    | apply routeFrame_keeps
    | apply isolatePort_keeps
    | simp only [Keeps.lit]
    | refine Keeps.foldl (fun _ _ _ => ?_) _ ?_
    | refine Keeps.of_pair ‹_ = (_, _)› ?_
    | (split)
    | (intro _ _ _)
    | (intro _ _)

theorem frameErrors_keeps {σ : State} (n : Nat) (s : Sys2Proof.Machine.State) (hk : Keeps σ s) : Keeps σ (frameErrors n s) := by
  unfold frameErrors
  try dsimp only
  with_reducible repeat' first
    | assumption
    | apply Keeps.ite
    | apply wakeBy_keeps
    | apply latchOnly_keeps
    | simp only [Keeps.lit]
    | refine Keeps.foldl (fun _ _ _ => ?_) _ ?_
    | refine Keeps.of_pair ‹_ = (_, _)› ?_
    | (split)
    | (intro _ _ _)
    | (intro _ _)

theorem execCanFrameReceived_runs {σ : State} (n : Fin 8) (rx : Sys2Proof.CanRx) (s : Sys2Proof.Machine.State) (hk : Keeps σ s) : Runs σ (execCanFrameReceived n rx s) := by
  unfold execCanFrameReceived
  try dsimp only
  with_reducible repeat' first
    | assumption
    | apply Runs.next
    | apply Runs.ite
    | apply Keeps.ite
    | apply canReceive_keeps
    | apply frameErrors_keeps
    | simp only [Keeps.lit]
    | refine Keeps.foldl (fun _ _ _ => ?_) _ ?_
    | refine Keeps.of_pair ‹_ = (_, _)› ?_
    | (split)
    | (intro _ _ _)
    | (intro _ _)

theorem execTc10Wake_runs {σ : State} (n : Fin 2) (s : Sys2Proof.Machine.State) (hk : Keeps σ s) : Runs σ (execTc10Wake n s) := by
  unfold execTc10Wake
  try dsimp only
  with_reducible repeat' first
    | assumption
    | apply Runs.next
    | apply Runs.ite
    | apply Keeps.ite
    | apply latchCause_keeps
    | simp only [Keeps.lit]
    | refine Keeps.foldl (fun _ _ _ => ?_) _ ?_
    | refine Keeps.of_pair ‹_ = (_, _)› ?_
    | (split)
    | (intro _ _ _)
    | (intro _ _)

theorem ringBad_keeps {σ : State} (s : Sys2Proof.Machine.State) (hk : Keeps σ s) : Keeps σ (ringBad s) := by
  unfold ringBad
  try dsimp only
  with_reducible repeat' first
    | assumption
    | apply Keeps.ite
    | apply State.setRegBit_keeps
    | simp only [Keeps.lit]
    | refine Keeps.foldl (fun _ _ _ => ?_) _ ?_
    | refine Keeps.of_pair ‹_ = (_, _)› ?_
    | (split)
    | (intro _ _ _)
    | (intro _ _)

theorem execReceiveRecordWrite_runs {σ : State} (k : Fin 8) (s : Sys2Proof.Machine.State) (hk : Keeps σ s) : Runs σ (execReceiveRecordWrite k s) := by
  unfold execReceiveRecordWrite
  try dsimp only
  with_reducible repeat' first
    | assumption
    | apply Runs.next
    | apply Runs.ite
    | apply Keeps.ite
    | apply ringBad_keeps
    | apply gwDrop_keeps
    | apply netEvent_keeps
    | apply State.setReg_keeps
    | apply State.storeList_keeps
    | apply memBurst_keeps
    | simp only [Keeps.lit]
    | refine Keeps.foldl (fun _ _ _ => ?_) _ ?_
    | refine Keeps.of_pair ‹_ = (_, _)› ?_
    | (split)
    | (intro _ _ _)
    | (intro _ _)

theorem readRecord_keeps {σ : State} (p : Nat) (a : Nat) (len : Nat) (s : Sys2Proof.Machine.State) (hk : Keeps σ s) : Keeps σ (readRecord p a len s).2 := by
  unfold readRecord
  try dsimp only
  with_reducible repeat' first
    | assumption
    | apply Keeps.ite
    | apply memBurst_keeps
    | apply freshBytes_keeps
    | apply State.raiseIsl_keeps
    | simp only [Keeps.lit]
    | refine Keeps.foldl (fun _ _ _ => ?_) _ ?_
    | refine Keeps.of_pair ‹_ = (_, _)› ?_
    | (split)
    | (intro _ _ _)
    | (intro _ _)

theorem recordCan_keeps {σ : State} (n : Nat) (a : Nat) (s : Sys2Proof.Machine.State) (hk : Keeps σ s) : Keeps σ (recordCan n a s).2 := by
  unfold recordCan
  try dsimp only
  with_reducible repeat' first
    | assumption
    | apply Keeps.ite
    | apply readRecord_keeps
    | apply freshBytes_keeps
    | simp only [Keeps.lit]
    | refine Keeps.foldl (fun _ _ _ => ?_) _ ?_
    | refine Keeps.of_pair ‹_ = (_, _)› ?_
    | (split)
    | (intro _ _ _)
    | (intro _ _)

theorem gwSwap_keeps {σ : State} (s : Sys2Proof.Machine.State) (hk : Keeps σ s) : Keeps σ (gwSwap s) := by
  unfold gwSwap
  try dsimp only
  with_reducible repeat' first
    | assumption
    | apply Keeps.ite
    | apply State.setRegFld_keeps
    | apply State.setRegBit_keeps
    | simp only [Keeps.lit]
    | refine Keeps.foldl (fun _ _ _ => ?_) _ ?_
    | refine Keeps.of_pair ‹_ = (_, _)› ?_
    | (split)
    | (intro _ _ _)
    | (intro _ _)

theorem netCmd_keeps {σ : State} (v : Sys2Proof.Word) (s : Sys2Proof.Machine.State) (hk : Keeps σ s) : Keeps σ (netCmd v s) := by
  unfold netCmd
  try dsimp only
  with_reducible repeat' first
    | assumption
    | apply Keeps.ite
    | apply gwSwap_keeps
    | apply sendWake_keeps
    | simp only [Keeps.lit]
    | refine Keeps.foldl (fun _ _ _ => ?_) _ ?_
    | refine Keeps.of_pair ‹_ = (_, _)› ?_
    | (split)
    | (intro _ _ _)
    | (intro _ _)

theorem ringReceive_runs {σ : State} (typ : Nat) (n : Fin 8) (f : Sys2Proof.RingFrame) (s : Sys2Proof.Machine.State) (hk : Keeps σ s) : Runs σ (ringReceive typ n f s) := by
  unfold ringReceive
  try dsimp only
  with_reducible repeat' first
    | assumption
    | apply Runs.next
    | apply Runs.ite
    | apply Keeps.ite
    | apply canReceive_keeps
    | simp only [Keeps.lit]
    | refine Keeps.foldl (fun _ _ _ => ?_) _ ?_
    | refine Keeps.of_pair ‹_ = (_, _)› ?_
    | (split)
    | (intro _ _ _)
    | (intro _ _)

theorem execEthLinkChange_runs {σ : State} (n : Fin 6) (up : Bool) (s : Sys2Proof.Machine.State) (hk : Keeps σ s) : Runs σ (execEthLinkChange n up s) := by
  unfold execEthLinkChange
  try dsimp only
  with_reducible repeat' first
    | assumption
    | apply Runs.next
    | apply Runs.ite
    | apply Keeps.ite
    | apply State.setRegBit_keeps
    | apply State.setRegFld_keeps
    | simp only [Keeps.lit]
    | refine Keeps.foldl (fun _ _ _ => ?_) _ ?_
    | refine Keeps.of_pair ‹_ = (_, _)› ?_
    | (split)
    | (intro _ _ _)
    | (intro _ _)

theorem netUsCapture_keeps {σ : State} (s : Sys2Proof.Machine.State) (hk : Keeps σ s) : Keeps σ (netUsCapture s) := by
  unfold netUsCapture
  try dsimp only
  with_reducible repeat' first
    | assumption
    | apply Keeps.ite
    | apply State.setReg_keeps
    | simp only [Keeps.lit]
    | refine Keeps.foldl (fun _ _ _ => ?_) _ ?_
    | refine Keeps.of_pair ‹_ = (_, _)› ?_
    | (split)
    | (intro _ _ _)
    | (intro _ _)

theorem txAdvance_keeps {σ : State} (p : Nat) (s : Sys2Proof.Machine.State) (hk : Keeps σ s) : Keeps σ (txAdvance p s) := by
  unfold txAdvance
  try dsimp only
  with_reducible repeat' first
    | assumption
    | apply Keeps.ite
    | apply State.setReg_keeps
    | simp only [Keeps.lit]
    | refine Keeps.foldl (fun _ _ _ => ?_) _ ?_
    | refine Keeps.of_pair ‹_ = (_, _)› ?_
    | (split)
    | (intro _ _ _)
    | (intro _ _)

theorem canSent_keeps {σ : State} (n : Nat) (s : Sys2Proof.Machine.State) (hk : Keeps σ s) : Keeps σ (canSent n s) := by
  unfold canSent
  try dsimp only
  with_reducible repeat' first
    | assumption
    | apply Keeps.ite
    | apply putCan_keeps
    | apply setGwq_keeps
    | apply recordCan_keeps
    | apply txAdvance_keeps
    | apply gwDropAt_keeps
    | simp only [Keeps.lit]
    | refine Keeps.foldl (fun _ _ _ => ?_) _ ?_
    | refine Keeps.of_pair ‹_ = (_, _)› ?_
    | (split)
    | (intro _ _ _)
    | (intro _ _)

theorem setCanMode_keeps {σ : State} (n : Nat) (v : Sys2Proof.Word) (s : Sys2Proof.Machine.State) (hk : Keeps σ s) : Keeps σ (setCanMode n v s) := by
  unfold setCanMode
  try dsimp only
  with_reducible repeat' first
    | assumption
    | apply Keeps.ite
    | apply State.setReg_keeps
    | simp only [Keeps.lit]
    | refine Keeps.foldl (fun _ _ _ => ?_) _ ?_
    | refine Keeps.of_pair ‹_ = (_, _)› ?_
    | (split)
    | (intro _ _ _)
    | (intro _ _)

theorem endWake_keeps {σ : State} (n : Nat) (s : Sys2Proof.Machine.State) (hk : Keeps σ s) : Keeps σ (endWake n s) := by
  unfold endWake
  try dsimp only
  with_reducible repeat' first
    | assumption
    | apply Keeps.ite
    | apply State.setRegBit_keeps
    | apply setCanMode_keeps
    | simp only [Keeps.lit]
    | refine Keeps.foldl (fun _ _ _ => ?_) _ ?_
    | refine Keeps.of_pair ‹_ = (_, _)› ?_
    | (split)
    | (intro _ _ _)
    | (intro _ _)

theorem recordEth_keeps {σ : State} (p : Nat) (a : Nat) (s : Sys2Proof.Machine.State) (hk : Keeps σ s) : Keeps σ (recordEth p a s).2 := by
  unfold recordEth
  try dsimp only
  with_reducible repeat' first
    | assumption
    | apply Keeps.ite
    | apply readRecord_keeps
    | simp only [Keeps.lit]
    | refine Keeps.foldl (fun _ _ _ => ?_) _ ?_
    | refine Keeps.of_pair ‹_ = (_, _)› ?_
    | (split)
    | (intro _ _ _)
    | (intro _ _)

theorem ethSent_keeps {σ : State} (p : Nat) (s : Sys2Proof.Machine.State) (hk : Keeps σ s) : Keeps σ (ethSent p s) := by
  unfold ethSent
  try dsimp only
  with_reducible repeat' first
    | assumption
    | apply Keeps.ite
    | apply countUp_keeps
    | apply State.send_keeps
    | apply recordEth_keeps
    | apply txAdvance_keeps
    | apply setGwq_keeps
    | simp only [Keeps.lit]
    | refine Keeps.foldl (fun _ _ _ => ?_) _ ?_
    | refine Keeps.of_pair ‹_ = (_, _)› ?_
    | (split)
    | (intro _ _ _)
    | (intro _ _)

theorem wakeFailed_keeps {σ : State} (n : Nat) (s : Sys2Proof.Machine.State) (hk : Keeps σ s) : Keeps σ (wakeFailed n s) := by
  unfold wakeFailed
  try dsimp only
  with_reducible repeat' first
    | assumption
    | apply Keeps.ite
    | apply State.raise_keeps
    | apply State.setRegBit_keeps
    | apply endWake_keeps
    | simp only [Keeps.lit]
    | refine Keeps.foldl (fun _ _ _ => ?_) _ ?_
    | refine Keeps.of_pair ‹_ = (_, _)› ?_
    | (split)
    | (intro _ _ _)
    | (intro _ _)

theorem execFrameTransmitted_runs {σ : State} (p : Fin 14) (ok : Bool) (s : Sys2Proof.Machine.State) (hk : Keeps σ s) : Runs σ (execFrameTransmitted p ok s) := by
  unfold execFrameTransmitted
  try dsimp only
  with_reducible repeat' first
    | assumption
    | apply Runs.next
    | apply Runs.ite
    | apply Keeps.ite
    | apply wakeFailed_keeps
    | apply endWake_keeps
    | apply countUp_keeps
    | apply State.send_keeps
    | apply canSent_keeps
    | apply ethSent_keeps
    | simp only [Keeps.lit]
    | refine Keeps.foldl (fun _ _ _ => ?_) _ ?_
    | refine Keeps.of_pair ‹_ = (_, _)› ?_
    | (split)
    | (intro _ _ _)
    | (intro _ _)

theorem canBorec_keeps {σ : State} (n : Nat) (v : Sys2Proof.Word) (s : Sys2Proof.Machine.State) (hk : Keeps σ s) : Keeps σ (canBorec n v s) := by
  unfold canBorec
  try dsimp only
  with_reducible repeat' first
    | assumption
    | apply Keeps.ite
    | simp only [Keeps.lit]
    | refine Keeps.foldl (fun _ _ _ => ?_) _ ?_
    | refine Keeps.of_pair ‹_ = (_, _)› ?_
    | (split)
    | (intro _ _ _)
    | (intro _ _)

theorem linFlags_keeps {σ : State} (n : Nat) (busy : Bool) (flags : Nat) (s : Sys2Proof.Machine.State) (hk : Keeps σ s) : Keeps σ (linFlags n busy flags s) := by
  unfold linFlags
  try dsimp only
  with_reducible repeat' first
    | assumption
    | apply Keeps.ite
    | apply State.setReg_keeps
    | simp only [Keeps.lit]
    | refine Keeps.foldl (fun _ _ _ => ?_) _ ?_
    | refine Keeps.of_pair ‹_ = (_, _)› ?_
    | (split)
    | (intro _ _ _)
    | (intro _ _)

theorem linIdle_keeps {σ : State} (n : Nat) (s : Sys2Proof.Machine.State) (hk : Keeps σ s) : Keeps σ (linIdle n s) := by
  unfold linIdle
  try dsimp only
  with_reducible repeat' first
    | assumption
    | apply Keeps.ite
    | simp only [Keeps.lit]
    | refine Keeps.foldl (fun _ _ _ => ?_) _ ?_
    | refine Keeps.of_pair ‹_ = (_, _)› ?_
    | (split)
    | (intro _ _ _)
    | (intro _ _)

theorem execLinHeader_runs {σ : State} (n : Fin 12) (id : BitVec 6) (rate : Nat) (s : Sys2Proof.Machine.State) (hk : Keeps σ s) : Runs σ (execLinHeader n id rate s) := by
  unfold execLinHeader
  try dsimp only
  with_reducible repeat' first
    | assumption
    | apply Runs.next
    | apply Runs.ite
    | apply Keeps.ite
    | apply linFlags_keeps
    | apply linIdle_keeps
    | apply State.setRegFld_keeps
    | apply State.send_keeps
    | simp only [Keeps.lit]
    | refine Keeps.foldl (fun _ _ _ => ?_) _ ?_
    | refine Keeps.of_pair ‹_ = (_, _)› ?_
    | (split)
    | (intro _ _ _)
    | (intro _ _)

theorem linWakeSend_keeps {σ : State} (n : Nat) (v : Sys2Proof.Word) (s : Sys2Proof.Machine.State) (hk : Keeps σ s) : Keeps σ (linWakeSend n v s) := by
  unfold linWakeSend
  try dsimp only
  with_reducible repeat' first
    | assumption
    | apply Keeps.ite
    | apply linWakeStart_keeps
    | simp only [Keeps.lit]
    | refine Keeps.foldl (fun _ _ _ => ?_) _ ?_
    | refine Keeps.of_pair ‹_ = (_, _)› ?_
    | (split)
    | (intro _ _ _)
    | (intro _ _)

theorem execCanBusOff_runs {σ : State} (n : Fin 8) (s : Sys2Proof.Machine.State) (hk : Keeps σ s) : Runs σ (execCanBusOff n s) := by
  unfold execCanBusOff
  try dsimp only
  with_reducible repeat' first
    | assumption
    | apply Runs.next
    | apply Runs.ite
    | apply Keeps.ite
    | apply wakeFailed_keeps
    | apply State.used_keeps
    | apply State.setRegFld_keeps
    | apply State.setReg_keeps
    | apply State.raise_keeps
    | apply netEvent_keeps
    | simp only [Keeps.lit]
    | refine Keeps.foldl (fun _ _ _ => ?_) _ ?_
    | refine Keeps.of_pair ‹_ = (_, _)› ?_
    | (split)
    | (intro _ _ _)
    | (intro _ _)

theorem trCmd.unbarAll_keeps {σ : State} (s : Sys2Proof.Machine.State) (hk : Keeps σ s) : Keeps σ (trCmd.unbarAll s) := by
  unfold trCmd.unbarAll
  try dsimp only
  with_reducible repeat' first
    | assumption
    | apply Keeps.ite
    | apply State.setRegList_keeps
    | apply enterJoining_keeps
    | apply setTrState_keeps
    | simp only [Keeps.lit]
    | refine Keeps.foldl (fun _ _ _ => ?_) _ ?_
    | refine Keeps.of_pair ‹_ = (_, _)› ?_
    | (split)
    | (intro _ _ _)
    | (intro _ _)

theorem execJoinFrame_runs {σ : State} (n : Fin 8) (f : Sys2Proof.RingFrame) (s : Sys2Proof.Machine.State) (hk : Keeps σ s) : Runs σ (execJoinFrame n f s) := by
  unfold execJoinFrame
  try dsimp only
  with_reducible repeat' first
    | assumption
    | apply Runs.next
    | apply Runs.ite
    | apply Keeps.ite
    | apply ringReceive_runs
    | simp only [Keeps.lit]
    | refine Keeps.foldl (fun _ _ _ => ?_) _ ?_
    | refine Keeps.of_pair ‹_ = (_, _)› ?_
    | (split)
    | (intro _ _ _)
    | (intro _ _)

theorem execLinResponse_runs {σ : State} (n : Fin 12) (rsp : Sys2Proof.LinRsp) (s : Sys2Proof.Machine.State) (hk : Keeps σ s) : Runs σ (execLinResponse n rsp s) := by
  unfold execLinResponse
  try dsimp only
  with_reducible repeat' first
    | assumption
    | apply Runs.next
    | apply Runs.ite
    | apply Keeps.ite
    | apply linIdle_keeps
    | apply linFlags_keeps
    | apply State.setRegList_keeps
    | simp only [Keeps.lit]
    | refine Keeps.foldl (fun _ _ _ => ?_) _ ?_
    | refine Keeps.of_pair ‹_ = (_, _)› ?_
    | (split)
    | (intro _ _ _)
    | (intro _ _)

theorem trCmd.leave_keeps {σ : State} (s : Sys2Proof.Machine.State) (hk : Keeps σ s) : Keeps σ (trCmd.leave s) := by
  unfold trCmd.leave
  try dsimp only
  with_reducible repeat' first
    | assumption
    | apply Keeps.ite
    | apply removeMember_keeps
    | apply sendRing_keeps
    | apply setTrState_keeps
    | apply setHolder_keeps
    | apply modRing_keeps
    | simp only [Keeps.lit]
    | refine Keeps.foldl (fun _ _ _ => ?_) _ ?_
    | refine Keeps.of_pair ‹_ = (_, _)› ?_
    | (split)
    | (intro _ _ _)
    | (intro _ _)

theorem ethTc10_keeps {σ : State} (n : Nat) (v : Sys2Proof.Word) (s : Sys2Proof.Machine.State) (hk : Keeps σ s) : Keeps σ (ethTc10 n v s) := by
  unfold ethTc10
  try dsimp only
  with_reducible repeat' first
    | assumption
    | apply Keeps.ite
    | apply State.send_keeps
    | apply State.setRegFld_keeps
    | simp only [Keeps.lit]
    | refine Keeps.foldl (fun _ _ _ => ?_) _ ?_
    | refine Keeps.of_pair ‹_ = (_, _)› ?_
    | (split)
    | (intro _ _ _)
    | (intro _ _)

theorem checkTxRing_keeps {σ : State} (p : Nat) (s : Sys2Proof.Machine.State) (hk : Keeps σ s) : Keeps σ (checkTxRing p s) := by
  unfold checkTxRing
  try dsimp only
  with_reducible repeat' first
    | assumption
    | apply Keeps.ite
    | apply ringBad_keeps
    | simp only [Keeps.lit]
    | refine Keeps.foldl (fun _ _ _ => ?_) _ ?_
    | refine Keeps.of_pair ‹_ = (_, _)› ?_
    | (split)
    | (intro _ _ _)
    | (intro _ _)

theorem wklStat_keeps {σ : State} (s : Sys2Proof.Machine.State) (hk : Keeps σ s) : Keeps σ (wklStat s).2 := by
  unfold wklStat
  try dsimp only
  with_reducible repeat' first
    | assumption
    | apply Keeps.ite
    | apply State.used_keeps
    | simp only [Keeps.lit]
    | refine Keeps.foldl (fun _ _ _ => ?_) _ ?_
    | refine Keeps.of_pair ‹_ = (_, _)› ?_
    | (split)
    | (intro _ _ _)
    | (intro _ _)

theorem execTc10SleepAck_runs {σ : State} (n : Fin 2) (s : Sys2Proof.Machine.State) (hk : Keeps σ s) : Runs σ (execTc10SleepAck n s) := by
  unfold execTc10SleepAck
  try dsimp only
  with_reducible repeat' first
    | assumption
    | apply Runs.next
    | apply Runs.ite
    | apply Keeps.ite
    | apply State.setRegBit_keeps
    | apply State.setRegFld_keeps
    | simp only [Keeps.lit]
    | refine Keeps.foldl (fun _ _ _ => ?_) _ ?_
    | refine Keeps.of_pair ‹_ = (_, _)› ?_
    | (split)
    | (intro _ _ _)
    | (intro _ _)

theorem execWklPulseEnd_runs {σ : State} (l : Fin 2) (s : Sys2Proof.Machine.State) (hk : Keeps σ s) : Runs σ (execWklPulseEnd l s) := by
  unfold execWklPulseEnd
  try dsimp only
  with_reducible repeat' first
    | assumption
    | apply Runs.next
    | apply Runs.ite
    | apply Keeps.ite
    | apply State.setRegBit_keeps
    | simp only [Keeps.lit]
    | refine Keeps.foldl (fun _ _ _ => ?_) _ ?_
    | refine Keeps.of_pair ‹_ = (_, _)› ?_
    | (split)
    | (intro _ _ _)
    | (intro _ _)

theorem txrWp_keeps {σ : State} (p : Nat) (v : Sys2Proof.Word) (s : Sys2Proof.Machine.State) (hk : Keeps σ s) : Keeps σ (txrWp p v s) := by
  unfold txrWp
  try dsimp only
  with_reducible repeat' first
    | assumption
    | apply Keeps.ite
    | apply checkTxRing_keeps
    | apply State.setReg_keeps
    | simp only [Keeps.lit]
    | refine Keeps.foldl (fun _ _ _ => ?_) _ ?_
    | refine Keeps.of_pair ‹_ = (_, _)› ?_
    | (split)
    | (intro _ _ _)
    | (intro _ _)

theorem execLinNoResponse_runs {σ : State} (n : Fin 12) (s : Sys2Proof.Machine.State) (hk : Keeps σ s) : Runs σ (execLinNoResponse n s) := by
  unfold execLinNoResponse
  try dsimp only
  with_reducible repeat' first
    | assumption
    | apply Runs.next
    | apply Runs.ite
    | apply Keeps.ite
    | apply linFlags_keeps
    | apply linIdle_keeps
    | simp only [Keeps.lit]
    | refine Keeps.foldl (fun _ _ _ => ?_) _ ?_
    | refine Keeps.of_pair ‹_ = (_, _)› ?_
    | (split)
    | (intro _ _ _)
    | (intro _ _)

theorem execRevokeFrame_runs {σ : State} (n : Fin 8) (f : Sys2Proof.RingFrame) (s : Sys2Proof.Machine.State) (hk : Keeps σ s) : Runs σ (execRevokeFrame n f s) := by
  unfold execRevokeFrame
  try dsimp only
  with_reducible repeat' first
    | assumption
    | apply Runs.next
    | apply Runs.ite
    | apply Keeps.ite
    | apply ringReceive_runs
    | simp only [Keeps.lit]
    | refine Keeps.foldl (fun _ _ _ => ?_) _ ?_
    | refine Keeps.of_pair ‹_ = (_, _)› ?_
    | (split)
    | (intro _ _ _)
    | (intro _ _)

theorem execLeaveFrame_runs {σ : State} (n : Fin 8) (f : Sys2Proof.RingFrame) (s : Sys2Proof.Machine.State) (hk : Keeps σ s) : Runs σ (execLeaveFrame n f s) := by
  unfold execLeaveFrame
  try dsimp only
  with_reducible repeat' first
    | assumption
    | apply Runs.next
    | apply Runs.ite
    | apply Keeps.ite
    | apply ringReceive_runs
    | simp only [Keeps.lit]
    | refine Keeps.foldl (fun _ _ _ => ?_) _ ?_
    | refine Keeps.of_pair ‹_ = (_, _)› ?_
    | (split)
    | (intro _ _ _)
    | (intro _ _)

theorem trCtrl.trOff_keeps {σ : State} (s : Sys2Proof.Machine.State) (hk : Keeps σ s) : Keeps σ (trCtrl.trOff s) := by
  unfold trCtrl.trOff
  try dsimp only
  with_reducible repeat' first
    | assumption
    | apply Keeps.ite
    | apply State.setRegList_keeps
    | apply setTrState_keeps
    | apply setResetPend_keeps
    | apply setHolder_keeps
    | apply modRing_keeps
    | simp only [Keeps.lit]
    | refine Keeps.foldl (fun _ _ _ => ?_) _ ?_
    | refine Keeps.of_pair ‹_ = (_, _)› ?_
    | (split)
    | (intro _ _ _)
    | (intro _ _)

theorem trCtrl_keeps {σ : State} (v : Sys2Proof.Word) (s : Sys2Proof.Machine.State) (hk : Keeps σ s) : Keeps σ (trCtrl v s) := by
  unfold trCtrl
  try dsimp only
  with_reducible repeat' first
    | assumption
    | apply Keeps.ite
    | apply State.setReg_keeps
    | apply enterJoining_keeps
    | apply modRing_keeps
    | apply trCtrl.trOff_keeps
    | simp only [Keeps.lit]
    | refine Keeps.foldl (fun _ _ _ => ?_) _ ?_
    | refine Keeps.of_pair ‹_ = (_, _)› ?_
    | (split)
    | (intro _ _ _)
    | (intro _ _)

theorem wklCmd_keeps {σ : State} (v : Sys2Proof.Word) (s : Sys2Proof.Machine.State) (hk : Keeps σ s) : Keeps σ (wklCmd v s) := by
  unfold wklCmd
  try dsimp only
  with_reducible repeat' first
    | assumption
    | apply Keeps.ite
    | apply State.setRegBit_keeps
    | simp only [Keeps.lit]
    | refine Keeps.foldl (fun _ _ _ => ?_) _ ?_
    | refine Keeps.of_pair ‹_ = (_, _)› ?_
    | (split)
    | (intro _ _ _)
    | (intro _ _)

theorem execOverruleFrame_runs {σ : State} (n : Fin 8) (f : Sys2Proof.RingFrame) (s : Sys2Proof.Machine.State) (hk : Keeps σ s) : Runs σ (execOverruleFrame n f s) := by
  unfold execOverruleFrame
  try dsimp only
  with_reducible repeat' first
    | assumption
    | apply Runs.next
    | apply Runs.ite
    | apply Keeps.ite
    | apply ringReceive_runs
    | simp only [Keeps.lit]
    | refine Keeps.foldl (fun _ _ _ => ?_) _ ?_
    | refine Keeps.of_pair ‹_ = (_, _)› ?_
    | (split)
    | (intro _ _ _)
    | (intro _ _)

theorem execTokenResend_runs {σ : State} (s : Sys2Proof.Machine.State) (hk : Keeps σ s) : Runs σ (execTokenResend s) := by
  unfold execTokenResend
  try dsimp only
  with_reducible repeat' first
    | assumption
    | apply Runs.next
    | apply Runs.ite
    | apply Keeps.ite
    | apply passOn_keeps
    | apply tokenTimer_keeps
    | apply modRing_keeps
    | apply sendRing_keeps
    | simp only [Keeps.lit]
    | refine Keeps.foldl (fun _ _ _ => ?_) _ ?_
    | refine Keeps.of_pair ‹_ = (_, _)› ?_
    | (split)
    | (intro _ _ _)
    | (intro _ _)

theorem canMode_keeps {σ : State} (n : Nat) (v : Sys2Proof.Word) (s : Sys2Proof.Machine.State) (hk : Keeps σ s) : Keeps σ (canMode n v s) := by
  unfold canMode
  try dsimp only
  with_reducible repeat' first
    | assumption
    | apply Keeps.ite
    | apply setCanMode_keeps
    | simp only [Keeps.lit]
    | refine Keeps.foldl (fun _ _ _ => ?_) _ ?_
    | refine Keeps.of_pair ‹_ = (_, _)› ?_
    | (split)
    | (intro _ _ _)
    | (intro _ _)

theorem execRingCommit_runs {σ : State} (n : Fin 8) (f : Sys2Proof.RingFrame) (s : Sys2Proof.Machine.State) (hk : Keeps σ s) : Runs σ (execRingCommit n f s) := by
  unfold execRingCommit
  try dsimp only
  with_reducible repeat' first
    | assumption
    | apply Runs.next
    | apply Runs.ite
    | apply Keeps.ite
    | apply ringReceive_runs
    | simp only [Keeps.lit]
    | refine Keeps.foldl (fun _ _ _ => ?_) _ ?_
    | refine Keeps.of_pair ‹_ = (_, _)› ?_
    | (split)
    | (intro _ _ _)
    | (intro _ _)

theorem execQuietWindowEnd_runs {σ : State} (s : Sys2Proof.Machine.State) (hk : Keeps σ s) : Runs σ (execQuietWindowEnd s) := by
  unfold execQuietWindowEnd
  try dsimp only
  with_reducible repeat' first
    | assumption
    | apply Runs.next
    | apply Runs.ite
    | apply Keeps.ite
    | apply setTrState_keeps
    | apply modRing_keeps
    | apply pwrCtrl_keeps
    | apply State.setRegBit_keeps
    | apply enterJoining_keeps
    | apply sendWake_keeps
    | simp only [Keeps.lit]
    | refine Keeps.foldl (fun _ _ _ => ?_) _ ?_
    | refine Keeps.of_pair ‹_ = (_, _)› ?_
    | (split)
    | (intro _ _ _)
    | (intro _ _)

theorem forward_keeps {σ : State} (s : Sys2Proof.Machine.State) (hk : Keeps σ s) : Keeps σ (forward s) := by
  unfold forward
  try dsimp only
  with_reducible repeat' first
    | assumption
    | apply Keeps.ite
    | apply noteVote_keeps
    | apply barNode_keeps
    | apply sendRing_keeps
    | apply enterQuiet_keeps
    | apply noteRun_keeps
    | apply setMember_keeps
    | apply sendToken_keeps
    | simp only [Keeps.lit]
    | refine Keeps.foldl (fun _ _ _ => ?_) _ ?_
    | refine Keeps.of_pair ‹_ = (_, _)› ?_
    | (split)
    | (intro _ _ _)
    | (intro _ _)

theorem execCanBusOffRecovery_runs {σ : State} (n : Fin 8) (s : Sys2Proof.Machine.State) (hk : Keeps σ s) : Runs σ (execCanBusOffRecovery n s) := by
  unfold execCanBusOffRecovery
  try dsimp only
  with_reducible repeat' first
    | assumption
    | apply Runs.next
    | apply Runs.ite
    | apply Keeps.ite
    | apply State.setReg_keeps
    | apply State.setRegFld_keeps
    | apply sendJoin_keeps
    | simp only [Keeps.lit]
    | refine Keeps.foldl (fun _ _ _ => ?_) _ ?_
    | refine Keeps.of_pair ‹_ = (_, _)› ?_
    | (split)
    | (intro _ _ _)
    | (intro _ _)

theorem execTokenFrame_runs {σ : State} (n : Fin 8) (f : Sys2Proof.RingFrame) (s : Sys2Proof.Machine.State) (hk : Keeps σ s) : Runs σ (execTokenFrame n f s) := by
  unfold execTokenFrame
  try dsimp only
  with_reducible repeat' first
    | assumption
    | apply Runs.next
    | apply Runs.ite
    | apply Keeps.ite
    | apply ringReceive_runs
    | simp only [Keeps.lit]
    | refine Keeps.foldl (fun _ _ _ => ?_) _ ?_
    | refine Keeps.of_pair ‹_ = (_, _)› ?_
    | (split)
    | (intro _ _ _)
    | (intro _ _)

theorem trCmd_keeps {σ : State} (v : Sys2Proof.Word) (s : Sys2Proof.Machine.State) (hk : Keeps σ s) : Keeps σ (trCmd v s) := by
  unfold trCmd
  try dsimp only
  with_reducible repeat' first
    | assumption
    | apply Keeps.ite
    | apply ringRevoke_keeps
    | apply trCmd.leave_keeps
    | apply trCmd.unbarAll_keeps
    | simp only [Keeps.lit]
    | refine Keeps.foldl (fun _ _ _ => ?_) _ ?_
    | refine Keeps.of_pair ‹_ = (_, _)› ?_
    | (split)
    | (intro _ _ _)
    | (intro _ _)

theorem execCanWakePattern_runs {σ : State} (n : Fin 8) (phase : Nat) (us : Nat) (s : Sys2Proof.Machine.State) (hk : Keeps σ s) : Runs σ (execCanWakePattern n phase us s) := by
  unfold execCanWakePattern
  try dsimp only
  with_reducible repeat' first
    | assumption
    | apply Runs.next
    | apply Runs.ite
    | apply Keeps.ite
    | apply latchCause_keeps
    | simp only [Keeps.lit]
    | refine Keeps.foldl (fun _ _ _ => ?_) _ ?_
    | refine Keeps.of_pair ‹_ = (_, _)› ?_
    | (split)
    | (intro _ _ _)
    | (intro _ _)

theorem execEthFrameReceived_runs {σ : State} (n : Fin 6) (f : Sys2Proof.EthFrame) (s : Sys2Proof.Machine.State) (hk : Keeps σ s) : Runs σ (execEthFrameReceived n f s) := by
  unfold execEthFrameReceived
  try dsimp only
  with_reducible repeat' first
    | assumption
    | apply Runs.next
    | apply Runs.ite
    | apply Keeps.ite
    | apply gwDrop_keeps
    | apply State.setRegFld_keeps
    | apply countUp_keeps
    | apply routeFrame_keeps
    | simp only [Keeps.lit]
    | refine Keeps.foldl (fun _ _ _ => ?_) _ ?_
    | refine Keeps.of_pair ‹_ = (_, _)› ?_
    | (split)
    | (intro _ _ _)
    | (intro _ _)

theorem execTokenLost_runs {σ : State} (s : Sys2Proof.Machine.State) (hk : Keeps σ s) : Runs σ (execTokenLost s) := by
  unfold execTokenLost
  try dsimp only
  with_reducible repeat' first
    | assumption
    | apply Runs.next
    | apply Runs.ite
    | apply Keeps.ite
    | apply setTrState_keeps
    | apply forward_keeps
    | apply modRing_keeps
    | simp only [Keeps.lit]
    | refine Keeps.foldl (fun _ _ _ => ?_) _ ?_
    | refine Keeps.of_pair ‹_ = (_, _)› ?_
    | (split)
    | (intro _ _ _)
    | (intro _ _)

theorem execTokenForward_runs {σ : State} (s : Sys2Proof.Machine.State) (hk : Keeps σ s) : Runs σ (execTokenForward s) := by
  unfold execTokenForward
  try dsimp only
  with_reducible repeat' first
    | assumption
    | apply Runs.next
    | apply Runs.ite
    | apply Keeps.ite
    | apply forward_keeps
    | simp only [Keeps.lit]
    | refine Keeps.foldl (fun _ _ _ => ?_) _ ?_
    | refine Keeps.of_pair ‹_ = (_, _)› ?_
    | (split)
    | (intro _ _ _)
    | (intro _ _)

theorem linHdr_keeps {σ : State} (n : Nat) (v : Sys2Proof.Word) (s : Sys2Proof.Machine.State) (hk : Keeps σ s) : Keeps σ (linHdr n v s) := by
  unfold linHdr
  try dsimp only
  with_reducible repeat' first
    | assumption
    | apply Keeps.ite
    | apply State.send_keeps
    | apply State.setReg_keeps
    | simp only [Keeps.lit]
    | refine Keeps.foldl (fun _ _ _ => ?_) _ ?_
    | refine Keeps.of_pair ‹_ = (_, _)› ?_
    | (split)
    | (intro _ _ _)
    | (intro _ _)

theorem execLinWake_runs {σ : State} (n : Fin 12) (us : Nat) (s : Sys2Proof.Machine.State) (hk : Keeps σ s) : Runs σ (execLinWake n us s) := by
  unfold execLinWake
  try dsimp only
  with_reducible repeat' first
    | assumption
    | apply Runs.next
    | apply Runs.ite
    | apply Keeps.ite
    | apply latchCause_keeps
    | simp only [Keeps.lit]
    | refine Keeps.foldl (fun _ _ _ => ?_) _ ?_
    | refine Keeps.of_pair ‹_ = (_, _)› ?_
    | (split)
    | (intro _ _ _)
    | (intro _ _)

theorem linPub_keeps {σ : State} (n : Nat) (id : BitVec 6) (s : Sys2Proof.Machine.State) (hk : Keeps σ s) : Keeps σ (linPub n id s) := by
  unfold linPub
  try dsimp only
  with_reducible repeat' first
    | assumption
    | apply Keeps.ite
    | simp only [Keeps.lit]
    | refine Keeps.foldl (fun _ _ _ => ?_) _ ?_
    | refine Keeps.of_pair ‹_ = (_, _)› ?_
    | (split)
    | (intro _ _ _)
    | (intro _ _)

theorem execRouteSwapApply_runs {σ : State} (s : Sys2Proof.Machine.State) (hk : Keeps σ s) : Runs σ (execRouteSwapApply s) := by
  unfold execRouteSwapApply
  try dsimp only
  with_reducible repeat' first
    | assumption
    | apply Runs.next
    | apply Runs.ite
    | apply Keeps.ite
    | apply State.setReg_keeps
    | apply State.dropRegs_keeps
    | apply State.setRegBit_keeps
    | simp only [Keeps.lit]
    | refine Keeps.foldl (fun _ _ _ => ?_) _ ?_
    | refine Keeps.of_pair ‹_ = (_, _)› ?_
    | (split)
    | (intro _ _ _)
    | (intro _ _)

end Sys2Proof.Machine
end

