-- ==== Sys2Proof/Laws/KeepsBusRead.lean ====
section
/-! SUPPORT. Every operation of Machine/BusRead.lean keeps what a command keeps. -/

set_option linter.all false

namespace Sys2Proof.Machine

theorem cycRead_keeps {σ : State} (c : Nat) (s : Sys2Proof.Machine.State) (hk : Keeps σ s) : Keeps σ (cycRead c s).2 := by
  unfold cycRead
  try dsimp only
  with_reducible repeat' first
    | assumption
    | apply Keeps.ite
    | apply State.setReg_keeps
    | simp only [Keeps.lit]
    | refine Keeps.foldl (fun _ _ _ => ?_) _ ?_
    | refine Keeps.of_pair ‹_ = (_, _)› ?_
    | (split)
    | (intro _ _ _)
    | (intro _ _)

theorem busRead_keeps {σ : State} (a : Nat) (s : Sys2Proof.Machine.State) (hk : Keeps σ s) : Keeps σ (busRead a s).2 := by
  unfold busRead
  try dsimp only
  with_reducible repeat' first
    | assumption
    | apply Keeps.ite
    | apply cycRead_keeps
    | apply rtcCapture_keeps
    | apply netUsCapture_keeps
    | apply wklStat_keeps
    | apply spiRead_keeps
    | apply trnRead_keeps
    | simp only [Keeps.lit]
    | refine Keeps.foldl (fun _ _ _ => ?_) _ ?_
    | refine Keeps.of_pair ‹_ = (_, _)› ?_
    | (split)
    | (intro _ _ _)
    | (intro _ _)

end Sys2Proof.Machine
end

