-- ==== Sys2Proof/Laws/KeepsPairRetire.lean ====
section
/-! SUPPORT. Every operation of Machine/PairRetire.lean keeps what a command keeps. -/

set_option linter.all false

namespace Sys2Proof.Machine

theorem rewind_keeps {σ : State} (c : Nat) (s : Sys2Proof.Machine.State) (hk : Keeps σ s) : Keeps σ (rewind c s) := by
  unfold rewind
  try dsimp only
  with_reducible repeat' first
    | assumption
    | apply Keeps.ite
    | apply State.modCore_keeps
    | apply State.putWord_keeps
    | simp only [Keeps.lit]
    | refine Keeps.foldl (fun _ _ _ => ?_) _ ?_
    | refine Keeps.of_pair ‹_ = (_, _)› ?_
    | (split)
    | (intro _ _ _)
    | (intro _ _)

theorem stopCore_keeps {σ : State} (c : Nat) (s : Sys2Proof.Machine.State) (hk : Keeps σ s) : Keeps σ (stopCore c s) := by
  unfold stopCore
  try dsimp only
  with_reducible repeat' first
    | assumption
    | apply Keeps.ite
    | apply State.modCore_keeps
    | simp only [Keeps.lit]
    | refine Keeps.foldl (fun _ _ _ => ?_) _ ?_
    | refine Keeps.of_pair ‹_ = (_, _)› ?_
    | (split)
    | (intro _ _ _)
    | (intro _ _)

theorem undoEntry_keeps {σ : State} (c : Nat) (s : Sys2Proof.Machine.State) (x2 : Sys2Proof.Machine.LogEnt) (hk : Keeps σ s) : Keeps σ (undoEntry c s x2) := by
  unfold undoEntry
  try dsimp only
  with_reducible repeat' first
    | assumption
    | apply Keeps.ite
    | apply State.putWord_keeps
    | apply State.modCore_keeps
    | simp only [Keeps.lit]
    | refine Keeps.foldl (fun _ _ _ => ?_) _ ?_
    | refine Keeps.of_pair ‹_ = (_, _)› ?_
    | (split)
    | (intro _ _ _)
    | (intro _ _)

theorem unwind_keeps {σ : State} (c : Nat) (s : Sys2Proof.Machine.State) (hk : Keeps σ s) : Keeps σ (unwind c s) := by
  unfold unwind
  try dsimp only
  with_reducible repeat' first
    | assumption
    | apply Keeps.ite
    | apply State.modCore_keeps
    | apply undoEntry_keeps
    | simp only [Keeps.lit]
    | refine Keeps.foldl (fun _ _ _ => ?_) _ ?_
    | refine Keeps.of_pair ‹_ = (_, _)› ?_
    | (split)
    | (intro _ _ _)
    | (intro _ _)

theorem retirePair_keeps {σ : State} (q : Nat) (s : Sys2Proof.Machine.State) (hk : Keeps σ s) : Keeps σ (retirePair q s) := by
  unfold retirePair
  try dsimp only
  with_reducible repeat' first
    | assumption
    | apply Keeps.ite
    | apply State.modCore_keeps
    | apply State.setPhys_keeps
    | apply State.raiseIsl_keeps
    | apply unwind_keeps
    | apply lockstepFail_keeps
    | simp only [Keeps.lit]
    | refine Keeps.foldl (fun _ _ _ => ?_) _ ?_
    | refine Keeps.of_pair ‹_ = (_, _)› ?_
    | (split)
    | (intro _ _ _)
    | (intro _ _)

end Sys2Proof.Machine
end

