-- ==== Sys2Proof/Laws/KeepsSampler.lean ====
section
/-! SUPPORT. Every operation of Machine/Sampler.lean keeps what a command keeps. -/

set_option linter.all false

namespace Sys2Proof.Machine

theorem isolate_keeps {σ : State} (i : Sys2Proof.Island) (s : Sys2Proof.Machine.State) (hk : Keeps σ s) : Keeps σ (isolate i s) := by
  unfold isolate
  try dsimp only
  with_reducible repeat' first
    | assumption
    | apply Keeps.ite
    | apply discardGates_keeps
    | apply maskRange_keeps
    | apply State.setIsland_keeps
    | apply enterHold_keeps
    | apply freezeWatchdog_keeps
    | apply State.modCore_keeps
    | apply eraseSlots_keeps
    | apply netTerminals_keeps
    | simp only [Keeps.lit]
    | refine Keeps.foldl (fun _ _ _ => ?_) _ ?_
    | refine Keeps.of_pair ‹_ = (_, _)› ?_
    | (split)
    | (intro _ _ _)
    | (intro _ _)

theorem logPut_keeps {σ : State} (s : Sys2Proof.Machine.State) (n : Nat) (sev : Nat) (edge : Bool) (esc : Bool) (nores : Bool) (secure : Bool) (hk : Keeps σ s) : Keeps σ (logPut s n sev edge esc nores secure) := by
  unfold logPut
  try dsimp only
  with_reducible repeat' first
    | assumption
    | apply Keeps.ite
    | apply State.regInc_keeps
    | simp only [Keeps.lit]
    | refine Keeps.foldl (fun _ _ _ => ?_) _ ?_
    | refine Keeps.of_pair ‹_ = (_, _)› ?_
    | (split)
    | (intro _ _ _)
    | (intro _ _)

theorem recordFirst_keeps {σ : State} (n : Nat) (sev : Nat) (wire : Bool) (res : Option Nat) (s : Sys2Proof.Machine.State) (hk : Keeps σ s) : Keeps σ (recordFirst n sev wire res s) := by
  unfold recordFirst
  try dsimp only
  with_reducible repeat' first
    | assumption
    | apply Keeps.ite
    | apply State.setReg_keeps
    | simp only [Keeps.lit]
    | refine Keeps.foldl (fun _ _ _ => ?_) _ ?_
    | refine Keeps.of_pair ‹_ = (_, _)› ?_
    | (split)
    | (intro _ _ _)
    | (intro _ _)

theorem retireResource_keeps {σ : State} (i : Sys2Proof.Island) (res : Nat) (s : Sys2Proof.Machine.State) (hk : Keeps σ s) : Keeps σ (retireResource i res s) := by
  unfold retireResource
  try dsimp only
  with_reducible repeat' first
    | assumption
    | apply Keeps.ite
    | apply retireChannel_keeps
    | apply retirePair_keeps
    | apply isolatePort_keeps
    | apply shutPort_keeps
    | simp only [Keeps.lit]
    | refine Keeps.foldl (fun _ _ _ => ?_) _ ?_
    | refine Keeps.of_pair ‹_ = (_, _)› ?_
    | (split)
    | (intro _ _ _)
    | (intro _ _)

theorem samplerEvent_keeps {σ : State} (k : Nat) (s : Sys2Proof.Machine.State) (hk : Keeps σ s) : Keeps σ (samplerEvent k s) := by
  unfold samplerEvent
  try dsimp only
  with_reducible repeat' first
    | assumption
    | apply Keeps.ite
    | apply State.setRegBit_keeps
    | apply State.route_keeps
    | simp only [Keeps.lit]
    | refine Keeps.foldl (fun _ _ _ => ?_) _ ?_
    | refine Keeps.of_pair ‹_ = (_, _)› ?_
    | (split)
    | (intro _ _ _)
    | (intro _ _)

theorem safeState_keeps {σ : State} (s : Sys2Proof.Machine.State) (hk : Keeps σ s) : Keeps σ (safeState s) := by
  unfold safeState
  try dsimp only
  with_reducible repeat' first
    | assumption
    | apply Keeps.ite
    | apply State.setReg_keeps
    | apply samplerEvent_keeps
    | apply safeOff_keeps
    | simp only [Keeps.lit]
    | refine Keeps.foldl (fun _ _ _ => ?_) _ ?_
    | refine Keeps.of_pair ‹_ = (_, _)› ?_
    | (split)
    | (intro _ _ _)
    | (intro _ _)

theorem react_keeps {σ : State} (n : Nat) (sev0 : Nat) (esc : Bool) (s : Sys2Proof.Machine.State) (hk : Keeps σ s) : Keeps σ (react n sev0 esc s) := by
  unfold react
  try dsimp only
  with_reducible repeat' first
    | assumption
    | apply Keeps.ite
    | apply State.setSrc_keeps
    | apply logPut_keeps
    | apply recordFirst_keeps
    | apply samplerEvent_keeps
    | apply State.setReg_keeps
    | apply isolate_keeps
    | apply retireResource_keeps
    | apply safeState_keeps
    | apply resetAt_keeps
    | apply recordCause_keeps
    | simp only [Keeps.lit]
    | refine Keeps.foldl (fun _ _ _ => ?_) _ ?_
    | refine Keeps.of_pair ‹_ = (_, _)› ?_
    | (split)
    | (intro _ _ _)
    | (intro _ _)

theorem escalateCount_keeps {σ : State} (n : Nat) (s : Sys2Proof.Machine.State) (hk : Keeps σ s) : Keeps σ (escalateCount n s) := by
  unfold escalateCount
  try dsimp only
  with_reducible repeat' first
    | assumption
    | apply Keeps.ite
    | apply State.setSrc_keeps
    | apply react_keeps
    | simp only [Keeps.lit]
    | refine Keeps.foldl (fun _ _ _ => ?_) _ ?_
    | refine Keeps.of_pair ‹_ = (_, _)› ?_
    | (split)
    | (intro _ _ _)
    | (intro _ _)

theorem execSourceCheckResume_runs {σ : State} (i : Sys2Proof.Island) (s : Sys2Proof.Machine.State) (hk : Keeps σ s) : Runs σ (execSourceCheckResume i s) := by
  unfold execSourceCheckResume
  try dsimp only
  with_reducible repeat' first
    | assumption
    | apply Runs.next
    | apply Runs.ite
    | apply Keeps.ite
    | apply State.setIsland_keeps
    | simp only [Keeps.lit]
    | refine Keeps.foldl (fun _ _ _ => ?_) _ ?_
    | refine Keeps.of_pair ‹_ = (_, _)› ?_
    | (split)
    | (intro _ _ _)
    | (intro _ _)

theorem release_keeps {σ : State} (n : Nat) (s : Sys2Proof.Machine.State) (hk : Keeps σ s) : Keeps σ (release n s) := by
  unfold release
  try dsimp only
  with_reducible repeat' first
    | assumption
    | apply Keeps.ite
    | apply State.setSrc_keeps
    | apply State.setRegBit_keeps
    | apply logPut_keeps
    | simp only [Keeps.lit]
    | refine Keeps.foldl (fun _ _ _ => ?_) _ ?_
    | refine Keeps.of_pair ‹_ = (_, _)› ?_
    | (split)
    | (intro _ _ _)
    | (intro _ _)

theorem activate_keeps {σ : State} (n : Nat) (s : Sys2Proof.Machine.State) (hk : Keeps σ s) : Keeps σ (activate n s) := by
  unfold activate
  try dsimp only
  with_reducible repeat' first
    | assumption
    | apply Keeps.ite
    | apply State.setSrc_keeps
    | apply State.setRegBit_keeps
    | apply eraseAlarm_keeps
    | apply react_keeps
    | apply escalateCount_keeps
    | simp only [Keeps.lit]
    | refine Keeps.foldl (fun _ _ _ => ?_) _ ?_
    | refine Keeps.of_pair ‹_ = (_, _)› ?_
    | (split)
    | (intro _ _ _)
    | (intro _ _)

theorem execEscalationWindowEnd_runs {σ : State} (n : Fin 256) (s : Sys2Proof.Machine.State) (hk : Keeps σ s) : Runs σ (execEscalationWindowEnd n s) := by
  unfold execEscalationWindowEnd
  try dsimp only
  with_reducible repeat' first
    | assumption
    | apply Runs.next
    | apply Runs.ite
    | apply Keeps.ite
    | apply State.setSrc_keeps
    | simp only [Keeps.lit]
    | refine Keeps.foldl (fun _ _ _ => ?_) _ ?_
    | refine Keeps.of_pair ‹_ = (_, _)› ?_
    | (split)
    | (intro _ _ _)
    | (intro _ _)

theorem samplerCmd_keeps {σ : State} (r : Sys2Proof.Requester) (v : Sys2Proof.Word) (s : Sys2Proof.Machine.State) (hk : Keeps σ s) : Keeps σ (samplerCmd r v s) := by
  unfold samplerCmd
  try dsimp only
  with_reducible repeat' first
    | assumption
    | apply Keeps.ite
    | apply State.setRegBit_keeps
    | apply safeEnd_keeps
    | apply State.setReg_keeps
    | simp only [Keeps.lit]
    | refine Keeps.foldl (fun _ _ _ => ?_) _ ?_
    | refine Keeps.of_pair ‹_ = (_, _)› ?_
    | (split)
    | (intro _ _ _)
    | (intro _ _)

theorem execSourceRelease_runs {σ : State} (n : Fin 256) (s : Sys2Proof.Machine.State) (hk : Keeps σ s) : Runs σ (execSourceRelease n s) := by
  unfold execSourceRelease
  try dsimp only
  with_reducible repeat' first
    | assumption
    | apply Runs.next
    | apply Runs.ite
    | apply Keeps.ite
    | apply release_keeps
    | simp only [Keeps.lit]
    | refine Keeps.foldl (fun _ _ _ => ?_) _ ?_
    | refine Keeps.of_pair ‹_ = (_, _)› ?_
    | (split)
    | (intro _ _ _)
    | (intro _ _)

theorem execWireFault_runs {σ : State} (n : Fin 256) (rails : List (Bool × Bool)) (s : Sys2Proof.Machine.State) (hk : Keeps σ s) : Runs σ (execWireFault n rails s) := by
  unfold execWireFault
  try dsimp only
  with_reducible repeat' first
    | assumption
    | apply Runs.next
    | apply Runs.ite
    | apply Keeps.ite
    | apply State.setSrc_keeps
    | apply samplerEvent_keeps
    | apply State.setRegBit_keeps
    | apply activate_keeps
    | simp only [Keeps.lit]
    | refine Keeps.foldl (fun _ _ _ => ?_) _ ?_
    | refine Keeps.of_pair ‹_ = (_, _)› ?_
    | (split)
    | (intro _ _ _)
    | (intro _ _)

theorem execSamplerLogWrite_runs {σ : State} (s : Sys2Proof.Machine.State) (hk : Keeps σ s) : Runs σ (execSamplerLogWrite s) := by
  unfold execSamplerLogWrite
  try dsimp only
  with_reducible repeat' first
    | assumption
    | apply Runs.next
    | apply Runs.ite
    | apply Keeps.ite
    | apply State.regInc_keeps
    | apply State.setReg_keeps
    | apply islandStoreList_keeps
    | apply memBurst_keeps
    | simp only [Keeps.lit]
    | refine Keeps.foldl (fun _ _ _ => ?_) _ ?_
    | refine Keeps.of_pair ‹_ = (_, _)› ?_
    | (split)
    | (intro _ _ _)
    | (intro _ _)

theorem execSourceActivation_runs {σ : State} (n : Fin 256) (s : Sys2Proof.Machine.State) (hk : Keeps σ s) : Runs σ (execSourceActivation n s) := by
  unfold execSourceActivation
  try dsimp only
  with_reducible repeat' first
    | assumption
    | apply Runs.next
    | apply Runs.ite
    | apply Keeps.ite
    | apply activate_keeps
    | simp only [Keeps.lit]
    | refine Keeps.foldl (fun _ _ _ => ?_) _ ?_
    | refine Keeps.of_pair ‹_ = (_, _)› ?_
    | (split)
    | (intro _ _ _)
    | (intro _ _)

theorem execWireFaultEnd_runs {σ : State} (n : Fin 256) (rails : List (Bool × Bool)) (s : Sys2Proof.Machine.State) (hk : Keeps σ s) : Runs σ (execWireFaultEnd n rails s) := by
  unfold execWireFaultEnd
  try dsimp only
  with_reducible repeat' first
    | assumption
    | apply Runs.next
    | apply Runs.ite
    | apply Keeps.ite
    | apply State.setSrc_keeps
    | apply release_keeps
    | simp only [Keeps.lit]
    | refine Keeps.foldl (fun _ _ _ => ?_) _ ?_
    | refine Keeps.of_pair ‹_ = (_, _)› ?_
    | (split)
    | (intro _ _ _)
    | (intro _ _)

theorem execEscalation_runs {σ : State} (n : Fin 256) (s : Sys2Proof.Machine.State) (hk : Keeps σ s) : Runs σ (execEscalation n s) := by
  unfold execEscalation
  try dsimp only
  with_reducible repeat' first
    | assumption
    | apply Runs.next
    | apply Runs.ite
    | apply Keeps.ite
    | apply State.setSrc_keeps
    | apply react_keeps
    | simp only [Keeps.lit]
    | refine Keeps.foldl (fun _ _ _ => ?_) _ ?_
    | refine Keeps.of_pair ‹_ = (_, _)› ?_
    | (split)
    | (intro _ _ _)
    | (intro _ _)

end Sys2Proof.Machine
end

