-- ==== Sys2Proof/Laws/KeepsBoot.lean ====
section
/-! SUPPORT. Every operation of Machine/Boot.lean keeps what a command keeps. -/

set_option linter.all false

namespace Sys2Proof.Machine

theorem takeOver_keeps {σ : State} (s : Sys2Proof.Machine.State) (hk : Keeps σ s) : Keeps σ (takeOver s) := by
  unfold takeOver
  try dsimp only
  with_reducible repeat' first
    | assumption
    | apply Keeps.ite
    | apply releaseCore_keeps
    | apply State.setReg_keeps
    | apply marCheckEnd_keeps
    | apply trialBoot_keeps
    | simp only [Keeps.lit]
    | refine Keeps.foldl (fun _ _ _ => ?_) _ ?_
    | refine Keeps.of_pair ‹_ = (_, _)› ?_
    | (split)
    | (intro _ _ _)
    | (intro _ _)

theorem execIslandRelease.recheckCores_keeps {σ : State} (i : Sys2Proof.Island) (s : Sys2Proof.Machine.State) (hk : Keeps σ s) : Keeps σ (execIslandRelease.recheckCores i s) := by
  unfold execIslandRelease.recheckCores
  try dsimp only
  with_reducible repeat' first
    | assumption
    | apply Keeps.ite
    | apply resetL1_keeps
    | apply recordLast_keeps
    | apply State.setRegBit_keeps
    | apply takeOver_keeps
    | simp only [Keeps.lit]
    | refine Keeps.foldl (fun _ _ _ => ?_) _ ?_
    | refine Keeps.of_pair ‹_ = (_, _)› ?_
    | (split)
    | (intro _ _ _)
    | (intro _ _)

theorem onRun_keeps {σ : State} (i : Sys2Proof.Island) (s : Sys2Proof.Machine.State) (hk : Keeps σ s) : Keeps σ (onRun i s) := by
  unfold onRun
  try dsimp only
  with_reducible repeat' first
    | assumption
    | apply Keeps.ite
    | apply formJournal_keeps
    | apply releaseLnk_keeps
    | apply netOnRun_keeps
    | simp only [Keeps.lit]
    | refine Keeps.foldl (fun _ _ _ => ?_) _ ?_
    | refine Keeps.of_pair ‹_ = (_, _)› ?_
    | (split)
    | (intro _ _ _)
    | (intro _ _)

theorem imagePassed_keeps {σ : State} (s : Sys2Proof.Machine.State) (hk : Keeps σ s) : Keeps σ (imagePassed s) := by
  unfold imagePassed
  try dsimp only
  with_reducible repeat' first
    | assumption
    | apply Keeps.ite
    | apply State.setRegBit_keeps
    | apply setActiveBank_keeps
    | simp only [Keeps.lit]
    | refine Keeps.foldl (fun _ _ _ => ?_) _ ?_
    | refine Keeps.of_pair ‹_ = (_, _)› ?_
    | (split)
    | (intro _ _ _)
    | (intro _ _)

theorem headerPassed_keeps {σ : State} (s : Sys2Proof.Machine.State) (hk : Keeps σ s) : Keeps σ (headerPassed s) := by
  unfold headerPassed
  try dsimp only
  with_reducible repeat' first
    | assumption
    | apply Keeps.ite
    | apply setPairing_keeps
    | apply imagePassed_keeps
    | apply State.setRegBit_keeps
    | simp only [Keeps.lit]
    | refine Keeps.foldl (fun _ _ _ => ?_) _ ?_
    | refine Keeps.of_pair ‹_ = (_, _)› ?_
    | (split)
    | (intro _ _ _)
    | (intro _ _)

theorem imagesFailed_keeps {σ : State} (s : Sys2Proof.Machine.State) (hk : Keeps σ s) : Keeps σ (imagesFailed s) := by
  unfold imagesFailed
  try dsimp only
  with_reducible repeat' first
    | assumption
    | apply Keeps.ite
    | simp only [Keeps.lit]
    | refine Keeps.foldl (fun _ _ _ => ?_) _ ?_
    | refine Keeps.of_pair ‹_ = (_, _)› ?_
    | (split)
    | (intro _ _ _)
    | (intro _ _)

theorem checkOther_keeps {σ : State} (s0 : Sys2Proof.Machine.State) (hk : Keeps σ s0) : Keeps σ (checkOther s0) := by
  unfold checkOther
  try dsimp only
  with_reducible repeat' first
    | assumption
    | apply Keeps.ite
    | apply updRead_keeps
    | apply headerPassed_keeps
    | apply imagesFailed_keeps
    | simp only [Keeps.lit]
    | refine Keeps.foldl (fun _ _ _ => ?_) _ ?_
    | refine Keeps.of_pair ‹_ = (_, _)› ?_
    | (split)
    | (intro _ _ _)
    | (intro _ _)

theorem checkHeader_keeps {σ : State} (s : Sys2Proof.Machine.State) (hk : Keeps σ s) : Keeps σ (checkHeader s) := by
  unfold checkHeader
  try dsimp only
  with_reducible repeat' first
    | assumption
    | apply Keeps.ite
    | apply updRead_keeps
    | apply State.setRegBit_keeps
    | apply headerPassed_keeps
    | apply checkOther_keeps
    | simp only [Keeps.lit]
    | refine Keeps.foldl (fun _ _ _ => ?_) _ ?_
    | refine Keeps.of_pair ‹_ = (_, _)› ?_
    | (split)
    | (intro _ _ _)
    | (intro _ _)

theorem proceed_keeps {σ : State} (s : Sys2Proof.Machine.State) (hk : Keeps σ s) : Keeps σ (proceed s) := by
  unfold proceed
  try dsimp only
  with_reducible repeat' first
    | assumption
    | apply Keeps.ite
    | apply checkHeader_keeps
    | apply takeOver_keeps
    | simp only [Keeps.lit]
    | refine Keeps.foldl (fun _ _ _ => ?_) _ ?_
    | refine Keeps.of_pair ‹_ = (_, _)› ?_
    | (split)
    | (intro _ _ _)
    | (intro _ _)

theorem execIslandRelease_runs {σ : State} (i : Sys2Proof.Island) (s : Sys2Proof.Machine.State) (hk : Keeps σ s) : Runs σ (execIslandRelease i s) := by
  unfold execIslandRelease
  try dsimp only
  with_reducible repeat' first
    | assumption
    | apply Runs.next
    | apply Runs.ite
    | apply Keeps.ite
    | apply restoreRetired_keeps
    | apply releaseSec_keeps
    | apply liftFences_keeps
    | apply State.setIsland_keeps
    | apply State.setRegBit_keeps
    | apply onRun_keeps
    | apply execIslandRelease.recheckCores_keeps
    | apply proceed_keeps
    | apply marCheckEnd_keeps
    | simp only [Keeps.lit]
    | refine Keeps.foldl (fun _ _ _ => ?_) _ ?_
    | refine Keeps.of_pair ‹_ = (_, _)› ?_
    | (split)
    | (intro _ _ _)
    | (intro _ _)

theorem execResetNRise_runs {σ : State} (s : Sys2Proof.Machine.State) (hk : Keeps σ s) : Runs σ (execResetNRise s) := by
  unfold execResetNRise
  try dsimp only
  with_reducible repeat' first
    | assumption
    | apply Runs.next
    | apply Runs.ite
    | apply Keeps.ite
    | simp only [Keeps.lit]
    | refine Keeps.foldl (fun _ _ _ => ?_) _ ?_
    | refine Keeps.of_pair ‹_ = (_, _)› ?_
    | (split)
    | (intro _ _ _)
    | (intro _ _)

theorem execReferenceFallback_runs {σ : State} (s : Sys2Proof.Machine.State) (hk : Keeps σ s) : Runs σ (execReferenceFallback s) := by
  unfold execReferenceFallback
  try dsimp only
  with_reducible repeat' first
    | assumption
    | apply Runs.next
    | apply Runs.ite
    | apply Keeps.ite
    | apply State.level_keeps
    | apply State.setRegBit_keeps
    | simp only [Keeps.lit]
    | refine Keeps.foldl (fun _ _ _ => ?_) _ ?_
    | refine Keeps.of_pair ‹_ = (_, _)› ?_
    | (split)
    | (intro _ _ _)
    | (intro _ _)

theorem execHoldExpiry_runs {σ : State} (s : Sys2Proof.Machine.State) (hk : Keeps σ s) : Runs σ (execHoldExpiry s) := by
  unfold execHoldExpiry
  try dsimp only
  with_reducible repeat' first
    | assumption
    | apply Runs.next
    | apply Runs.ite
    | apply Keeps.ite
    | apply leaveHold_keeps
    | simp only [Keeps.lit]
    | refine Keeps.foldl (fun _ _ _ => ?_) _ ?_
    | refine Keeps.of_pair ‹_ = (_, _)› ?_
    | (split)
    | (intro _ _ _)
    | (intro _ _)

theorem clockTime_keeps {σ : State} (s : Sys2Proof.Machine.State) (hk : Keeps σ s) : Keeps σ (clockTime s) := by
  unfold clockTime
  try dsimp only
  with_reducible repeat' first
    | assumption
    | apply Keeps.ite
    | apply State.setIsland_keeps
    | simp only [Keeps.lit]
    | refine Keeps.foldl (fun _ _ _ => ?_) _ ?_
    | refine Keeps.of_pair ‹_ = (_, _)› ?_
    | (split)
    | (intro _ _ _)
    | (intro _ _)

theorem execOtpProgramComplete_runs {σ : State} (ok : Bool) (s : Sys2Proof.Machine.State) (hk : Keeps σ s) : Runs σ (execOtpProgramComplete ok s) := by
  unfold execOtpProgramComplete
  try dsimp only
  with_reducible repeat' first
    | assumption
    | apply Runs.next
    | apply Runs.ite
    | apply Keeps.ite
    | apply State.setReg_keeps
    | apply State.used_keeps
    | apply State.fuse_keeps
    | simp only [Keeps.lit]
    | refine Keeps.foldl (fun _ _ _ => ?_) _ ?_
    | refine Keeps.of_pair ‹_ = (_, _)› ?_
    | (split)
    | (intro _ _ _)
    | (intro _ _)

theorem execSupervisorStateError_runs {σ : State} (n : Option (Fin 256)) (s : Sys2Proof.Machine.State) (hk : Keeps σ s) : Runs σ (execSupervisorStateError n s) := by
  unfold execSupervisorStateError
  try dsimp only
  with_reducible repeat' first
    | assumption
    | apply Runs.next
    | apply Runs.ite
    | apply Keeps.ite
    | apply recordFirst_keeps
    | apply resetSource_keeps
    | simp only [Keeps.lit]
    | refine Keeps.foldl (fun _ _ _ => ?_) _ ?_
    | refine Keeps.of_pair ‹_ = (_, _)› ?_
    | (split)
    | (intro _ _ _)
    | (intro _ _)

theorem execOptionLoadRetry_runs {σ : State} (s : Sys2Proof.Machine.State) (hk : Keeps σ s) : Runs σ (execOptionLoadRetry s) := by
  unfold execOptionLoadRetry
  try dsimp only
  with_reducible repeat' first
    | assumption
    | apply Runs.next
    | apply Runs.ite
    | apply Keeps.ite
    | simp only [Keeps.lit]
    | refine Keeps.foldl (fun _ _ _ => ?_) _ ?_
    | refine Keeps.of_pair ‹_ = (_, _)› ?_
    | (split)
    | (intro _ _ _)
    | (intro _ _)

theorem execClockLoss_runs {σ : State} (i : Sys2Proof.Island) (s : Sys2Proof.Machine.State) (hk : Keeps σ s) : Runs σ (execClockLoss i s) := by
  unfold execClockLoss
  try dsimp only
  with_reducible repeat' first
    | assumption
    | apply Runs.next
    | apply Runs.ite
    | apply Keeps.ite
    | apply State.setIsland_keeps
    | apply discardGates_keeps
    | apply maskRange_keeps
    | apply resetSource_keeps
    | simp only [Keeps.lit]
    | refine Keeps.foldl (fun _ _ _ => ?_) _ ?_
    | refine Keeps.of_pair ‹_ = (_, _)› ?_
    | (split)
    | (intro _ _ _)
    | (intro _ _)

theorem execOptionLoadComplete_runs {σ : State} (bad : Option (Fin 1024)) (fixes : Nat) (s : Sys2Proof.Machine.State) (hk : Keeps σ s) : Runs σ (execOptionLoadComplete bad fixes s) := by
  unfold execOptionLoadComplete
  try dsimp only
  with_reducible repeat' first
    | assumption
    | apply Runs.next
    | apply Runs.ite
    | apply Keeps.ite
    | apply State.setReg_keeps
    | simp only [Keeps.lit]
    | refine Keeps.foldl (fun _ _ _ => ?_) _ ?_
    | refine Keeps.of_pair ‹_ = (_, _)› ?_
    | (split)
    | (intro _ _ _)
    | (intro _ _)

theorem otpCmd_keeps {σ : State} (v : Sys2Proof.Word) (s : Sys2Proof.Machine.State) (hk : Keeps σ s) : Keeps σ (otpCmd v s) := by
  unfold otpCmd
  try dsimp only
  with_reducible repeat' first
    | assumption
    | apply Keeps.ite
    | apply State.setReg_keeps
    | simp only [Keeps.lit]
    | refine Keeps.foldl (fun _ _ _ => ?_) _ ?_
    | refine Keeps.of_pair ‹_ = (_, _)› ?_
    | (split)
    | (intro _ _ _)
    | (intro _ _)

theorem rstRequest_keeps {σ : State} (v : Sys2Proof.Word) (s : Sys2Proof.Machine.State) (hk : Keeps σ s) : Keeps σ (rstRequest v s) := by
  unfold rstRequest
  try dsimp only
  with_reducible repeat' first
    | assumption
    | apply Keeps.ite
    | apply State.setRegBit_keeps
    | apply resetAt_keeps
    | apply recordCause_keeps
    | simp only [Keeps.lit]
    | refine Keeps.foldl (fun _ _ _ => ?_) _ ?_
    | refine Keeps.of_pair ‹_ = (_, _)› ?_
    | (split)
    | (intro _ _ _)
    | (intro _ _)

theorem execZeroFillComplete_runs {σ : State} (s : Sys2Proof.Machine.State) (hk : Keeps σ s) : Runs σ (execZeroFillComplete s) := by
  unfold execZeroFillComplete
  try dsimp only
  with_reducible repeat' first
    | assumption
    | apply Runs.next
    | apply Runs.ite
    | apply Keeps.ite
    | apply State.clearMem_keeps
    | apply proceed_keeps
    | simp only [Keeps.lit]
    | refine Keeps.foldl (fun _ _ _ => ?_) _ ?_
    | refine Keeps.of_pair ‹_ = (_, _)› ?_
    | (split)
    | (intro _ _ _)
    | (intro _ _)

theorem execHandshakeTimeout_runs {σ : State} (src : Sys2Proof.Island) (dst : Sys2Proof.Island) (s : Sys2Proof.Machine.State) (hk : Keeps σ s) : Runs σ (execHandshakeTimeout src dst s) := by
  unfold execHandshakeTimeout
  try dsimp only
  with_reducible repeat' first
    | assumption
    | apply Runs.next
    | apply Runs.ite
    | apply Keeps.ite
    | apply State.setGate_keeps
    | apply State.setRegBit_keeps
    | apply State.setReg_keeps
    | apply State.raiseIsl_keeps
    | simp only [Keeps.lit]
    | refine Keeps.foldl (fun _ _ _ => ?_) _ ?_
    | refine Keeps.of_pair ‹_ = (_, _)› ?_
    | (split)
    | (intro _ _ _)
    | (intro _ _)

theorem execDescriptorTableError_runs {σ : State} (c : Sys2Proof.CoreId) (s : Sys2Proof.Machine.State) (hk : Keeps σ s) : Runs σ (execDescriptorTableError c s) := by
  unfold execDescriptorTableError
  try dsimp only
  with_reducible repeat' first
    | assumption
    | apply Runs.next
    | apply Runs.ite
    | apply Keeps.ite
    | apply resetSource_keeps
    | simp only [Keeps.lit]
    | refine Keeps.foldl (fun _ _ _ => ?_) _ ?_
    | refine Keeps.of_pair ‹_ = (_, _)› ?_
    | (split)
    | (intro _ _ _)
    | (intro _ _)

theorem execPayloadVerificationComplete_runs {σ : State} (s : Sys2Proof.Machine.State) (hk : Keeps σ s) : Runs σ (execPayloadVerificationComplete s) := by
  unfold execPayloadVerificationComplete
  try dsimp only
  with_reducible repeat' first
    | assumption
    | apply Runs.next
    | apply Runs.ite
    | apply Keeps.ite
    | apply imagePassed_keeps
    | apply setVerified_keeps
    | apply takeOver_keeps
    | apply proceed_keeps
    | apply resetL1_keeps
    | apply recordLast_keeps
    | apply State.setRegBit_keeps
    | apply imagesFailed_keeps
    | apply checkOther_keeps
    | simp only [Keeps.lit]
    | refine Keeps.foldl (fun _ _ _ => ?_) _ ?_
    | refine Keeps.of_pair ‹_ = (_, _)› ?_
    | (split)
    | (intro _ _ _)
    | (intro _ _)

theorem execResetNRequest_runs {σ : State} (s : Sys2Proof.Machine.State) (hk : Keeps σ s) : Runs σ (execResetNRequest s) := by
  unfold execResetNRequest
  try dsimp only
  with_reducible repeat' first
    | assumption
    | apply Runs.next
    | apply Runs.ite
    | apply Keeps.ite
    | apply resetSource_keeps
    | simp only [Keeps.lit]
    | refine Keeps.foldl (fun _ _ _ => ?_) _ ?_
    | refine Keeps.of_pair ‹_ = (_, _)› ?_
    | (split)
    | (intro _ _ _)
    | (intro _ _)

theorem execRetirementRecordError_runs {σ : State} (i : Sys2Proof.OutIsl) (s : Sys2Proof.Machine.State) (hk : Keeps σ s) : Runs σ (execRetirementRecordError i s) := by
  unfold execRetirementRecordError
  try dsimp only
  with_reducible repeat' first
    | assumption
    | apply Runs.next
    | apply Runs.ite
    | apply Keeps.ite
    | apply resetSource_keeps
    | simp only [Keeps.lit]
    | refine Keeps.foldl (fun _ _ _ => ?_) _ ?_
    | refine Keeps.of_pair ‹_ = (_, _)› ?_
    | (split)
    | (intro _ _ _)
    | (intro _ _)

theorem execCalibrationComplete_runs {σ : State} (i : Sys2Proof.OutIsl) (s : Sys2Proof.Machine.State) (hk : Keeps σ s) : Runs σ (execCalibrationComplete i s) := by
  unfold execCalibrationComplete
  try dsimp only
  with_reducible repeat' first
    | assumption
    | apply Runs.next
    | apply Runs.ite
    | apply Keeps.ite
    | apply marCheckEnd_keeps
    | apply State.setRegBit_keeps
    | simp only [Keeps.lit]
    | refine Keeps.foldl (fun _ _ _ => ?_) _ ?_
    | refine Keeps.of_pair ‹_ = (_, _)› ?_
    | (split)
    | (intro _ _ _)
    | (intro _ _)

end Sys2Proof.Machine
end

