-- ==== Sys2Proof/Laws/KeepsCommit.lean ====
section
/-! SUPPORT. Every operation of Machine/Commit.lean keeps what a command keeps. -/

set_option linter.all false

namespace Sys2Proof.Machine

theorem reject_keeps {σ : State} (ch : Sys2Proof.ChanRef) (s : Sys2Proof.Machine.State) (hk : Keeps σ s) : Keeps σ (reject ch s) := by
  unfold reject
  try dsimp only
  with_reducible repeat' first
    | assumption
    | apply Keeps.ite
    | apply State.regInc_keeps
    | simp only [Keeps.lit]
    | refine Keeps.foldl (fun _ _ _ => ?_) _ ?_
    | refine Keeps.of_pair ‹_ = (_, _)› ?_
    | (split)
    | (intro _ _ _)
    | (intro _ _)

theorem applyActive.marClaim_keeps {σ : State} (ch : Sys2Proof.ChanRef) (s : Sys2Proof.Machine.State) (hk : Keeps σ s) : Keeps σ (applyActive.marClaim ch s) := by
  unfold applyActive.marClaim
  try dsimp only
  with_reducible repeat' first
    | assumption
    | apply Keeps.ite
    | simp only [Keeps.lit]
    | refine Keeps.foldl (fun _ _ _ => ?_) _ ?_
    | refine Keeps.of_pair ‹_ = (_, _)› ?_
    | (split)
    | (intro _ _ _)
    | (intro _ _)

theorem applyActive_keeps {σ : State} (ch : Sys2Proof.ChanRef) (l : List Sys2Proof.Word) (s0 : Sys2Proof.Machine.State) (hk : Keeps σ s0) : Keeps σ (applyActive ch l s0) := by
  unfold applyActive
  try dsimp only
  with_reducible repeat' first
    | assumption
    | apply Keeps.ite
    | apply applyActive.marClaim_keeps
    | apply State.setChan_keeps
    | apply actApply_keeps
    | apply stopChan_keeps
    | apply tryStart_keeps
    | apply lampTouch_keeps
    | apply lampTrigger_keeps
    | simp only [Keeps.lit]
    | refine Keeps.foldl (fun _ _ _ => ?_) _ ?_
    | refine Keeps.of_pair ‹_ = (_, _)› ?_
    | (split)
    | (intro _ _ _)
    | (intro _ _)

theorem stagingWrite_keeps {σ : State} (r : Sys2Proof.Requester) (ch : Sys2Proof.ChanRef) (w : Nat) (v : Sys2Proof.Word) (s : Sys2Proof.Machine.State) (hk : Keeps σ s) : Keeps σ (stagingWrite r ch w v s) := by
  unfold stagingWrite
  try dsimp only
  with_reducible repeat' first
    | assumption
    | apply Keeps.ite
    | apply State.setReg_keeps
    | apply reject_keeps
    | simp only [Keeps.lit]
    | refine Keeps.foldl (fun _ _ _ => ?_) _ ?_
    | refine Keeps.of_pair ‹_ = (_, _)› ?_
    | (split)
    | (intro _ _ _)
    | (intro _ _)

theorem renewProfile_keeps {σ : State} (i : Sys2Proof.OutIsl) (m : Sys2Proof.Machine.Sparse Sys2Proof.Word) (t : Sys2Proof.Machine.State) (ch : Sys2Proof.ChanRef) (hk : Keeps σ t) : Keeps σ (renewProfile i m t ch) := by
  unfold renewProfile
  try dsimp only
  with_reducible repeat' first
    | assumption
    | apply Keeps.ite
    | apply State.setChan_keeps
    | apply State.setReg_keeps
    | simp only [Keeps.lit]
    | refine Keeps.foldl (fun _ _ _ => ?_) _ ?_
    | refine Keeps.of_pair ‹_ = (_, _)› ?_
    | (split)
    | (intro _ _ _)
    | (intro _ _)

theorem useBank_keeps {σ : State} (i : Sys2Proof.OutIsl) (m : Sys2Proof.Machine.Sparse Sys2Proof.Word) (valid : List Nat) (s : Sys2Proof.Machine.State) (hk : Keeps σ s) : Keeps σ (useBank i m valid s) := by
  unfold useBank
  try dsimp only
  with_reducible repeat' first
    | assumption
    | apply Keeps.ite
    | apply State.setReg_keeps
    | apply State.setOut_keeps
    | apply renewProfile_keeps
    | simp only [Keeps.lit]
    | refine Keeps.foldl (fun _ _ _ => ?_) _ ?_
    | refine Keeps.of_pair ‹_ = (_, _)› ?_
    | (split)
    | (intro _ _ _)
    | (intro _ _)

theorem acknowledge_keeps {σ : State} (ch : Sys2Proof.ChanRef) (v : Sys2Proof.Word) (r : Sys2Proof.Requester) (s : Sys2Proof.Machine.State) (hk : Keeps σ s) : Keeps σ (acknowledge ch v r s) := by
  unfold acknowledge
  try dsimp only
  with_reducible repeat' first
    | assumption
    | apply Keeps.ite
    | apply State.setReg_keeps
    | simp only [Keeps.lit]
    | refine Keeps.foldl (fun _ _ _ => ?_) _ ?_
    | refine Keeps.of_pair ‹_ = (_, _)› ?_
    | (split)
    | (intro _ _ _)
    | (intro _ _)

theorem applySet_keeps {σ : State} (ch : Sys2Proof.ChanRef) (l : List Sys2Proof.Word) (s : Sys2Proof.Machine.State) (hk : Keeps σ s) : Keeps σ (applySet ch l s) := by
  unfold applySet
  try dsimp only
  with_reducible repeat' first
    | assumption
    | apply Keeps.ite
    | apply applyActive_keeps
    | apply endCarry_keeps
    | simp only [Keeps.lit]
    | refine Keeps.foldl (fun _ _ _ => ?_) _ ?_
    | refine Keeps.of_pair ‹_ = (_, _)› ?_
    | (split)
    | (intro _ _ _)
    | (intro _ _)

theorem applyOne_keeps {σ : State} (ch : Sys2Proof.ChanRef) (l : List Sys2Proof.Word) (v : Sys2Proof.Word) (r : Sys2Proof.Requester) (s : Sys2Proof.Machine.State) (hk : Keeps σ s) : Keeps σ (applyOne ch l v r s) := by
  unfold applyOne
  try dsimp only
  with_reducible repeat' first
    | assumption
    | apply Keeps.ite
    | apply acknowledge_keeps
    | apply applyActive_keeps
    | apply State.modChan_keeps
    | apply applySet_keeps
    | simp only [Keeps.lit]
    | refine Keeps.foldl (fun _ _ _ => ?_) _ ?_
    | refine Keeps.of_pair ‹_ = (_, _)› ?_
    | (split)
    | (intro _ _ _)
    | (intro _ _)

theorem copyWord_keeps {σ : State} (a : Nat) (copy : Sys2Proof.Machine.Sparse Sys2Proof.Word) (k : Nat) (s : Sys2Proof.Machine.State) (hk : Keeps σ s) : Keeps σ (copyWord a copy k s).2 := by
  unfold copyWord
  try dsimp only
  with_reducible repeat' first
    | assumption
    | apply Keeps.ite
    | apply State.used_keeps
    | simp only [Keeps.lit]
    | refine Keeps.foldl (fun _ _ _ => ?_) _ ?_
    | refine Keeps.of_pair ‹_ = (_, _)› ?_
    | (split)
    | (intro _ _ _)
    | (intro _ _)

theorem settleCopy_keeps {σ : State} (a : Nat) (copy : Sys2Proof.Machine.Sparse Sys2Proof.Word) (x2 : List Nat) (x3 : Sys2Proof.Machine.Sparse Sys2Proof.Word) (x4 : Sys2Proof.Machine.State) (hk : Keeps σ x4) : Keeps σ (settleCopy a copy x2 x3 x4).2 := by
  induction x2 generalizing a copy x3 x4 with
  | nil =>
    unfold settleCopy
    try dsimp only
    with_reducible repeat' first
      | assumption
      | apply Keeps.ite
      | apply copyWord_keeps
      | simp only [Keeps.lit]
      | refine Keeps.foldl (fun _ _ _ => ?_) _ ?_
      | refine Keeps.of_pair ‹_ = (_, _)› ?_
      | (split)
      | (intro _ _ _)
      | (intro _ _)
  | cons y ys ih =>
    unfold settleCopy
    try dsimp only
    with_reducible repeat' first
      | assumption
      | apply ih
      | apply Keeps.ite
      | apply copyWord_keeps
      | simp only [Keeps.lit]
      | refine Keeps.foldl (fun _ _ _ => ?_) _ ?_
      | refine Keeps.of_pair ‹_ = (_, _)› ?_
      | (split)
      | (intro _ _ _)
      | (intro _ _)

theorem refuse_keeps {σ : State} (ch : Sys2Proof.ChanRef) (code : Nat) (v : Sys2Proof.Word) (s : Sys2Proof.Machine.State) (hk : Keeps σ s) : Keeps σ (refuse ch code v s) := by
  unfold refuse
  try dsimp only
  with_reducible repeat' first
    | assumption
    | apply Keeps.ite
    | apply State.oibEvent_keeps
    | apply State.setRegFld_keeps
    | simp only [Keeps.lit]
    | refine Keeps.foldl (fun _ _ _ => ?_) _ ?_
    | refine Keeps.of_pair ‹_ = (_, _)› ?_
    | (split)
    | (intro _ _ _)
    | (intro _ _)

theorem applyCommit_keeps {σ : State} (ch : Sys2Proof.ChanRef) (l : List Sys2Proof.Word) (v : Sys2Proof.Word) (r : Sys2Proof.Requester) (s : Sys2Proof.Machine.State) (hk : Keeps σ s) : Keeps σ (applyCommit ch l v r s) := by
  unfold applyCommit
  try dsimp only
  with_reducible repeat' first
    | assumption
    | apply Keeps.ite
    | apply State.modChan_keeps
    | apply refuse_keeps
    | apply applyOne_keeps
    | apply tryStart_keeps
    | simp only [Keeps.lit]
    | refine Keeps.foldl (fun _ _ _ => ?_) _ ?_
    | refine Keeps.of_pair ‹_ = (_, _)› ?_
    | (split)
    | (intro _ _ _)
    | (intro _ _)

theorem applyPending_keeps {σ : State} (ch : Sys2Proof.ChanRef) (s : Sys2Proof.Machine.State) (hk : Keeps σ s) : Keeps σ (applyPending ch s) := by
  unfold applyPending
  try dsimp only
  with_reducible repeat' first
    | assumption
    | apply Keeps.ite
    | apply applyCommit_keeps
    | apply State.modChan_keeps
    | simp only [Keeps.lit]
    | refine Keeps.foldl (fun _ _ _ => ?_) _ ?_
    | refine Keeps.of_pair ‹_ = (_, _)› ?_
    | (split)
    | (intro _ _ _)
    | (intro _ _)

theorem periodBoundary_keeps {σ : State} (ch : Sys2Proof.ChanRef) (s : Sys2Proof.Machine.State) (hk : Keeps σ s) : Keeps σ (periodBoundary ch s) := by
  unfold periodBoundary
  try dsimp only
  with_reducible repeat' first
    | assumption
    | apply Keeps.ite
    | apply applyPending_keeps
    | apply State.modChan_keeps
    | apply tryStart_keeps
    | simp only [Keeps.lit]
    | refine Keeps.foldl (fun _ _ _ => ?_) _ ?_
    | refine Keeps.of_pair ‹_ = (_, _)› ?_
    | (split)
    | (intro _ _ _)
    | (intro _ _)

theorem takeCopy_keeps {σ : State} (i : Sys2Proof.OutIsl) (a : Nat) (copy : Sys2Proof.Machine.Sparse Sys2Proof.Word) (s : Sys2Proof.Machine.State) (hk : Keeps σ s) : Keeps σ (takeCopy i a copy s) := by
  unfold takeCopy
  try dsimp only
  with_reducible repeat' first
    | assumption
    | apply Keeps.ite
    | apply settleCopy_keeps
    | apply State.setReg_keeps
    | apply useBank_keeps
    | simp only [Keeps.lit]
    | refine Keeps.foldl (fun _ _ _ => ?_) _ ?_
    | refine Keeps.of_pair ‹_ = (_, _)› ?_
    | (split)
    | (intro _ _ _)
    | (intro _ _)

theorem profileSwap_keeps {σ : State} (i : Sys2Proof.OutIsl) (s : Sys2Proof.Machine.State) (hk : Keeps σ s) : Keeps σ (profileSwap i s) := by
  unfold profileSwap
  try dsimp only
  with_reducible repeat' first
    | assumption
    | apply Keeps.ite
    | apply State.setOut_keeps
    | apply memBurst_keeps
    | apply State.setReg_keeps
    | apply State.raiseIsl_keeps
    | apply takeCopy_keeps
    | simp only [Keeps.lit]
    | refine Keeps.foldl (fun _ _ _ => ?_) _ ?_
    | refine Keeps.of_pair ‹_ = (_, _)› ?_
    | (split)
    | (intro _ _ _)
    | (intro _ _)

theorem commitSet_keeps {σ : State} (ch : Sys2Proof.ChanRef) (l : List Sys2Proof.Word) (v : Sys2Proof.Word) (r : Sys2Proof.Requester) (s : Sys2Proof.Machine.State) (hk : Keeps σ s) : Keeps σ (commitSet ch l v r s) := by
  unfold commitSet
  try dsimp only
  with_reducible repeat' first
    | assumption
    | apply Keeps.ite
    | apply refuse_keeps
    | apply State.modChan_keeps
    | apply applyCommit_keeps
    | simp only [Keeps.lit]
    | refine Keeps.foldl (fun _ _ _ => ?_) _ ?_
    | refine Keeps.of_pair ‹_ = (_, _)› ?_
    | (split)
    | (intro _ _ _)
    | (intro _ _)

theorem commitWrite_keeps {σ : State} (r : Sys2Proof.Requester) (ch : Sys2Proof.ChanRef) (v : Sys2Proof.Word) (s : Sys2Proof.Machine.State) (hk : Keeps σ s) : Keeps σ (commitWrite r ch v s) := by
  unfold commitWrite
  try dsimp only
  with_reducible repeat' first
    | assumption
    | apply Keeps.ite
    | apply commitSet_keeps
    | apply reject_keeps
    | simp only [Keeps.lit]
    | refine Keeps.foldl (fun _ _ _ => ?_) _ ?_
    | refine Keeps.of_pair ‹_ = (_, _)› ?_
    | (split)
    | (intro _ _ _)
    | (intro _ _)

theorem recordWrite_keeps {σ : State} (i : Sys2Proof.OutIsl) (s : Sys2Proof.Machine.State) (hk : Keeps σ s) : Keeps σ (recordWrite i s) := by
  unfold recordWrite
  try dsimp only
  with_reducible repeat' first
    | assumption
    | apply Keeps.ite
    | apply State.setOut_keeps
    | apply compact_keeps
    | apply programRecord_keeps
    | simp only [Keeps.lit]
    | refine Keeps.foldl (fun _ _ _ => ?_) _ ?_
    | refine Keeps.of_pair ‹_ = (_, _)› ?_
    | (split)
    | (intro _ _ _)
    | (intro _ _)

theorem retClear_keeps {σ : State} (r : Sys2Proof.Requester) (i : Sys2Proof.OutIsl) (v : Sys2Proof.Word) (s : Sys2Proof.Machine.State) (hk : Keeps σ s) : Keeps σ (retClear r i v s) := by
  unfold retClear
  try dsimp only
  with_reducible repeat' first
    | assumption
    | apply Keeps.ite
    | apply endCarry_keeps
    | apply State.modChan_keeps
    | apply bankLocks_keeps
    | apply queueRecord_keeps
    | apply retiredBit_keeps
    | apply State.setRegBit_keeps
    | simp only [Keeps.lit]
    | refine Keeps.foldl (fun _ _ _ => ?_) _ ?_
    | refine Keeps.of_pair ‹_ = (_, _)› ?_
    | (split)
    | (intro _ _ _)
    | (intro _ _)

theorem partnerTakeover_keeps {σ : State} (ch : Sys2Proof.ChanRef) (s : Sys2Proof.Machine.State) (hk : Keeps σ s) : Keeps σ (partnerTakeover ch s) := by
  unfold partnerTakeover
  try dsimp only
  with_reducible repeat' first
    | assumption
    | apply Keeps.ite
    | apply State.modChan_keeps
    | apply takeoverFails_keeps
    | apply State.setChan_keeps
    | apply State.diag_keeps
    | apply State.oibEvent_keeps
    | apply tryStart_keeps
    | simp only [Keeps.lit]
    | refine Keeps.foldl (fun _ _ _ => ?_) _ ?_
    | refine Keeps.of_pair ‹_ = (_, _)› ?_
    | (split)
    | (intro _ _ _)
    | (intro _ _)

theorem profCmd_keeps {σ : State} (i : Sys2Proof.OutIsl) (v : Sys2Proof.Word) (s : Sys2Proof.Machine.State) (hk : Keeps σ s) : Keeps σ (profCmd i v s) := by
  unfold profCmd
  try dsimp only
  with_reducible repeat' first
    | assumption
    | apply Keeps.ite
    | apply State.setRegFld_keeps
    | apply State.setOut_keeps
    | apply State.setRegBit_keeps
    | simp only [Keeps.lit]
    | refine Keeps.foldl (fun _ _ _ => ?_) _ ?_
    | refine Keeps.of_pair ‹_ = (_, _)› ?_
    | (split)
    | (intro _ _ _)
    | (intro _ _)

end Sys2Proof.Machine
end

