-- ==== Sys2Proof/Laws/KeepsField.lean ====
section
/-! SUPPORT. Every operation of Machine/Field.lean keeps what a command keeps. -/

set_option linter.all false

namespace Sys2Proof.Machine

theorem inputConfig_keeps {σ : State} (b : Sys2Proof.InBank) (n : Nat) (v : Sys2Proof.Word) (s : Sys2Proof.Machine.State) (hk : Keeps σ s) : Keeps σ (inputConfig b n v s) := by
  unfold inputConfig
  try dsimp only
  with_reducible repeat' first
    | assumption
    | apply Keeps.ite
    | apply State.plainWrite_keeps
    | apply State.setFilt_keeps
    | simp only [Keeps.lit]
    | refine Keeps.foldl (fun _ _ _ => ?_) _ ?_
    | refine Keeps.of_pair ‹_ = (_, _)› ?_
    | (split)
    | (intro _ _ _)
    | (intro _ _)

theorem inputLog_keeps {σ : State} (n : Nat) (s : Sys2Proof.Machine.State) (hk : Keeps σ s) : Keeps σ (inputLog n s) := by
  unfold inputLog
  try dsimp only
  with_reducible repeat' first
    | assumption
    | apply Keeps.ite
    | apply State.regInc_keeps
    | simp only [Keeps.lit]
    | refine Keeps.foldl (fun _ _ _ => ?_) _ ?_
    | refine Keeps.of_pair ‹_ = (_, _)› ?_
    | (split)
    | (intro _ _ _)
    | (intro _ _)

theorem setSupinv_keeps {σ : State} (b : Bool) (s : Sys2Proof.Machine.State) (hk : Keeps σ s) : Keeps σ (setSupinv b s) := by
  unfold setSupinv
  try dsimp only
  with_reducible repeat' first
    | assumption
    | apply Keeps.ite
    | apply inputLog_keeps
    | apply State.setFilt_keeps
    | simp only [Keeps.lit]
    | refine Keeps.foldl (fun _ _ _ => ?_) _ ?_
    | refine Keeps.of_pair ‹_ = (_, _)› ?_
    | (split)
    | (intro _ _ _)
    | (intro _ _)

theorem fldLimitTrip_keeps {σ : State} (n : Nat) (i : Nat) (us : Nat) (term : Nat) (s : Sys2Proof.Machine.State) (hk : Keeps σ s) : Keeps σ (fldLimitTrip n i us term s) := by
  unfold fldLimitTrip
  try dsimp only
  with_reducible repeat' first
    | assumption
    | apply Keeps.ite
    | apply State.setChan_keeps
    | apply countedTrip_keeps
    | simp only [Keeps.lit]
    | refine Keeps.foldl (fun _ _ _ => ?_) _ ?_
    | refine Keeps.of_pair ‹_ = (_, _)› ?_
    | (split)
    | (intro _ _ _)
    | (intro _ _)

theorem execSiConversion_runs {σ : State} (n : Fin 48) (v20 : Sys2Proof.Word) (ratio : Sys2Proof.Word) (ohm : Nat) (s : Sys2Proof.Machine.State) (hk : Keeps σ s) : Runs σ (execSiConversion n v20 ratio ohm s) := by
  unfold execSiConversion
  try dsimp only
  with_reducible repeat' first
    | assumption
    | apply Runs.next
    | apply Runs.ite
    | apply Keeps.ite
    | apply State.setRegBit_keeps
    | apply State.setReg_keeps
    | apply State.used_keeps
    | simp only [Keeps.lit]
    | refine Keeps.foldl (fun _ _ _ => ?_) _ ?_
    | refine Keeps.of_pair ‹_ = (_, _)› ?_
    | (split)
    | (intro _ _ _)
    | (intro _ _)

theorem execVsnsLimit_runs {σ : State} (on : Bool) (s : Sys2Proof.Machine.State) (hk : Keeps σ s) : Runs σ (execVsnsLimit on s) := by
  unfold execVsnsLimit
  try dsimp only
  with_reducible repeat' first
    | assumption
    | apply Runs.next
    | apply Runs.ite
    | apply Keeps.ite
    | apply State.level_keeps
    | apply State.setRegBit_keeps
    | simp only [Keeps.lit]
    | refine Keeps.foldl (fun _ _ _ => ?_) _ ?_
    | refine Keeps.of_pair ‹_ = (_, _)› ?_
    | (split)
    | (intro _ _ _)
    | (intro _ _)

theorem fldShortTrip_keeps {σ : State} (n : Nat) (side : Sys2Proof.Side) (i : Nat) (s : Sys2Proof.Machine.State) (hk : Keeps σ s) : Keeps σ (fldShortTrip n side i s) := by
  unfold fldShortTrip
  try dsimp only
  with_reducible repeat' first
    | assumption
    | apply Keeps.ite
    | apply countedTrip_keeps
    | simp only [Keeps.lit]
    | refine Keeps.foldl (fun _ _ _ => ?_) _ ?_
    | refine Keeps.of_pair ‹_ = (_, _)› ?_
    | (split)
    | (intro _ _ _)
    | (intro _ _)

theorem fldMeasure_keeps {σ : State} (n : Nat) (m : Sys2Proof.Measure) (s : Sys2Proof.Machine.State) (hk : Keeps σ s) : Keeps σ (fldMeasure n m s) := by
  unfold fldMeasure
  try dsimp only
  with_reducible repeat' first
    | assumption
    | apply Keeps.ite
    | apply State.setReg_keeps
    | apply State.modChan_keeps
    | apply evidence_keeps
    | simp only [Keeps.lit]
    | refine Keeps.foldl (fun _ _ _ => ?_) _ ?_
    | refine Keeps.of_pair ‹_ = (_, _)› ?_
    | (split)
    | (intro _ _ _)
    | (intro _ _)

theorem siChanged_keeps {σ : State} (n : Nat) (s : Sys2Proof.Machine.State) (hk : Keeps σ s) : Keeps σ (siChanged n s) := by
  unfold siChanged
  try dsimp only
  with_reducible repeat' first
    | assumption
    | apply Keeps.ite
    | apply State.setRegFld_keeps
    | apply State.setRegBit_keeps
    | apply State.route_keeps
    | simp only [Keeps.lit]
    | refine Keeps.foldl (fun _ _ _ => ?_) _ ?_
    | refine Keeps.of_pair ‹_ = (_, _)› ?_
    | (split)
    | (intro _ _ _)
    | (intro _ _)

theorem siSample_keeps {σ : State} (n : Nat) (raw : Bool) (s : Sys2Proof.Machine.State) (hk : Keeps σ s) : Keeps σ (siSample n raw s).1 := by
  unfold siSample
  try dsimp only
  with_reducible repeat' first
    | assumption
    | apply Keeps.ite
    | apply State.setFilt_keeps
    | apply siChanged_keeps
    | simp only [Keeps.lit]
    | refine Keeps.foldl (fun _ _ _ => ?_) _ ?_
    | refine Keeps.of_pair ‹_ = (_, _)› ?_
    | refine Keeps.of_fst ‹_ = (_, _)› ?_
    | (split)
    | (intro _ _ _)
    | (intro _ _)

theorem execVfldMissingCrossing_runs {σ : State} (below : Bool) (s : Sys2Proof.Machine.State) (hk : Keeps σ s) : Runs σ (execVfldMissingCrossing below s) := by
  unfold execVfldMissingCrossing
  try dsimp only
  with_reducible repeat' first
    | assumption
    | apply Runs.next
    | apply Runs.ite
    | apply Keeps.ite
    | simp only [Keeps.lit]
    | refine Keeps.foldl (fun _ _ _ => ?_) _ ?_
    | refine Keeps.of_pair ‹_ = (_, _)› ?_
    | (split)
    | (intro _ _ _)
    | (intro _ _)

theorem fldJudge_keeps {σ : State} (n : Nat) (v : Nat) (s : Sys2Proof.Machine.State) (hk : Keeps σ s) : Keeps σ (fldJudge n v s) := by
  unfold fldJudge
  try dsimp only
  with_reducible repeat' first
    | assumption
    | apply Keeps.ite
    | apply evidence_keeps
    | simp only [Keeps.lit]
    | refine Keeps.foldl (fun _ _ _ => ?_) _ ?_
    | refine Keeps.of_pair ‹_ = (_, _)› ?_
    | (split)
    | (intro _ _ _)
    | (intro _ _)

theorem fldOffCheck_keeps {σ : State} (n : Nat) (v : Nat) (s : Sys2Proof.Machine.State) (hk : Keeps σ s) : Keeps σ (fldOffCheck n v s) := by
  unfold fldOffCheck
  try dsimp only
  with_reducible repeat' first
    | assumption
    | apply Keeps.ite
    | apply noteOff_keeps
    | apply State.modChan_keeps
    | apply fldJudge_keeps
    | simp only [Keeps.lit]
    | refine Keeps.foldl (fun _ _ _ => ?_) _ ?_
    | refine Keeps.of_pair ‹_ = (_, _)› ?_
    | (split)
    | (intro _ _ _)
    | (intro _ _)

theorem execVfldStateChange_runs {σ : State} (st : Sys2Proof.VfldState) (v : Sys2Proof.Word) (s : Sys2Proof.Machine.State) (hk : Keeps σ s) : Runs σ (execVfldStateChange st v s) := by
  unfold execVfldStateChange
  try dsimp only
  with_reducible repeat' first
    | assumption
    | apply Runs.next
    | apply Runs.ite
    | apply Keeps.ite
    | apply State.setReg_keeps
    | apply State.level_keeps
    | apply setSupinv_keeps
    | apply followHolds_keeps
    | apply fldEvent_keeps
    | simp only [Keeps.lit]
    | refine Keeps.foldl (fun _ _ _ => ?_) _ ?_
    | refine Keeps.of_pair ‹_ = (_, _)› ?_
    | (split)
    | (intro _ _ _)
    | (intro _ _)

theorem wireBreaks_keeps {σ : State} (s : Sys2Proof.Machine.State) (hk : Keeps σ s) : Keeps σ (wireBreaks s) := by
  unfold wireBreaks
  try dsimp only
  with_reducible repeat' first
    | assumption
    | apply Keeps.ite
    | apply State.level_keeps
    | simp only [Keeps.lit]
    | refine Keeps.foldl (fun _ _ _ => ?_) _ ?_
    | refine Keeps.of_pair ‹_ = (_, _)› ?_
    | (split)
    | (intro _ _ _)
    | (intro _ _)

theorem fiSample_keeps {σ : State} (n : Nat) (raw : Bool) (cur : Nat) (s : Sys2Proof.Machine.State) (hk : Keeps σ s) : Keeps σ (fiSample n raw cur s) := by
  unfold fiSample
  try dsimp only
  with_reducible repeat' first
    | assumption
    | apply Keeps.ite
    | apply State.setReg_keeps
    | apply State.setFilt_keeps
    | apply fldEvent_keeps
    | apply wireBreaks_keeps
    | apply inputLog_keeps
    | apply State.setRegBit_keeps
    | simp only [Keeps.lit]
    | refine Keeps.foldl (fun _ _ _ => ?_) _ ?_
    | refine Keeps.of_pair ‹_ = (_, _)› ?_
    | (split)
    | (intro _ _ _)
    | (intro _ _)

theorem execInputLogWrite_runs {σ : State} (s : Sys2Proof.Machine.State) (hk : Keeps σ s) : Runs σ (execInputLogWrite s) := by
  unfold execInputLogWrite
  try dsimp only
  with_reducible repeat' first
    | assumption
    | apply Runs.next
    | apply Runs.ite
    | apply Keeps.ite
    | apply memBurst_keeps
    | apply State.setReg_keeps
    | apply islandStoreList_keeps
    | simp only [Keeps.lit]
    | refine Keeps.foldl (fun _ _ _ => ?_) _ ?_
    | refine Keeps.of_pair ‹_ = (_, _)› ?_
    | (split)
    | (intro _ _ _)
    | (intro _ _)

end Sys2Proof.Machine
end

