-- ==== Sys2Proof/Laws/KeepsFlash.lean ====
section
/-! SUPPORT. Every operation of Machine/Flash.lean keeps what a command keeps. -/

set_option linter.all false

namespace Sys2Proof.Machine

theorem advanceFill_keeps {σ : State} (o : Sys2Proof.Machine.FlashOp) (s : Sys2Proof.Machine.State) (hk : Keeps σ s) : Keeps σ (advanceFill o s) := by
  unfold advanceFill
  try dsimp only
  with_reducible repeat' first
    | assumption
    | apply Keeps.ite
    | simp only [Keeps.lit]
    | refine Keeps.foldl (fun _ _ _ => ?_) _ ?_
    | refine Keeps.of_pair ‹_ = (_, _)› ?_
    | (split)
    | (intro _ _ _)
    | (intro _ _)

theorem flashApply_keeps {σ : State} (o : Sys2Proof.Machine.FlashOp) (s : Sys2Proof.Machine.State) (hk : Keeps σ s) : Keeps σ (flashApply o s) := by
  unfold flashApply
  try dsimp only
  with_reducible repeat' first
    | assumption
    | apply Keeps.ite
    | apply State.storeList_keeps
    | apply State.clearMem_keeps
    | simp only [Keeps.lit]
    | refine Keeps.foldl (fun _ _ _ => ?_) _ ?_
    | refine Keeps.of_pair ‹_ = (_, _)› ?_
    | (split)
    | (intro _ _ _)
    | (intro _ _)

theorem execFlashComplete_runs {σ : State} (ok : Bool) (s : Sys2Proof.Machine.State) (hk : Keeps σ s) : Runs σ (execFlashComplete ok s) := by
  unfold execFlashComplete
  try dsimp only
  with_reducible repeat' first
    | assumption
    | apply Runs.next
    | apply Runs.ite
    | apply Keeps.ite
    | apply State.setReg_keeps
    | apply advanceFill_keeps
    | apply flashApply_keeps
    | apply leaveUndefined_keeps
    | simp only [Keeps.lit]
    | refine Keeps.foldl (fun _ _ _ => ?_) _ ?_
    | refine Keeps.of_pair ‹_ = (_, _)› ?_
    | (split)
    | (intro _ _ _)
    | (intro _ _)

theorem flashCmd_keeps {σ : State} (r : Sys2Proof.Requester) (v : Sys2Proof.Word) (s : Sys2Proof.Machine.State) (hk : Keeps σ s) : Keeps σ (flashCmd r v s) := by
  unfold flashCmd
  try dsimp only
  with_reducible repeat' first
    | assumption
    | apply Keeps.ite
    | apply State.setReg_keeps
    | apply State.raiseIsl_keeps
    | apply setVerified_keeps
    | simp only [Keeps.lit]
    | refine Keeps.foldl (fun _ _ _ => ?_) _ ?_
    | refine Keeps.of_pair ‹_ = (_, _)› ?_
    | (split)
    | (intro _ _ _)
    | (intro _ _)

end Sys2Proof.Machine
end

