-- ==== Sys2Proof/Laws/KeepsLight.lean ====
section
/-! SUPPORT. Every operation of Machine/Light.lean keeps what a command keeps. -/

set_option linter.all false

namespace Sys2Proof.Machine

theorem gcWrite_keeps {σ : State} (v : Sys2Proof.Word) (s : Sys2Proof.Machine.State) (hk : Keeps σ s) : Keeps σ (gcWrite v s) := by
  unfold gcWrite
  try dsimp only
  with_reducible repeat' first
    | assumption
    | apply Keeps.ite
    | apply State.plainWrite_keeps
    | apply gcSettle_keeps
    | apply lampTrigger_keeps
    | simp only [Keeps.lit]
    | refine Keeps.foldl (fun _ _ _ => ?_) _ ?_
    | refine Keeps.of_pair ‹_ = (_, _)› ?_
    | (split)
    | (intro _ _ _)
    | (intro _ _)

theorem bufferWrite_keeps {σ : State} (r : Sys2Proof.Requester) (k : Nat) (v : Sys2Proof.Word) (s : Sys2Proof.Machine.State) (hk : Keeps σ s) : Keeps σ (bufferWrite r k v s) := by
  unfold bufferWrite
  try dsimp only
  with_reducible repeat' first
    | assumption
    | apply Keeps.ite
    | apply State.setRegBit_keeps
    | apply State.setReg_keeps
    | simp only [Keeps.lit]
    | refine Keeps.foldl (fun _ _ _ => ?_) _ ?_
    | refine Keeps.of_pair ‹_ = (_, _)› ?_
    | (split)
    | (intro _ _ _)
    | (intro _ _)

theorem luxLimitTrip_keeps {σ : State} (_n : Nat) (s : Sys2Proof.Machine.State) (hk : Keeps σ s) : Keeps σ (luxLimitTrip _n s) := by
  unfold luxLimitTrip
  try dsimp only
  with_reducible repeat' first
    | assumption
    | apply Keeps.ite
    | simp only [Keeps.lit]
    | refine Keeps.foldl (fun _ _ _ => ?_) _ ?_
    | refine Keeps.of_pair ‹_ = (_, _)› ?_
    | (split)
    | (intro _ _ _)
    | (intro _ _)

theorem columnPoints_keeps {σ : State} (s : Sys2Proof.Machine.State) (hk : Keeps σ s) : Keeps σ (columnPoints s) := by
  unfold columnPoints
  try dsimp only
  with_reducible repeat' first
    | assumption
    | apply Keeps.ite
    | apply evidence_keeps
    | simp only [Keeps.lit]
    | refine Keeps.foldl (fun _ _ _ => ?_) _ ?_
    | refine Keeps.of_pair ‹_ = (_, _)› ?_
    | (split)
    | (intro _ _ _)
    | (intro _ _)

theorem frameStart_keeps {σ : State} (s : Sys2Proof.Machine.State) (hk : Keeps σ s) : Keeps σ (frameStart s) := by
  unfold frameStart
  try dsimp only
  with_reducible repeat' first
    | assumption
    | apply Keeps.ite
    | apply columnPoints_keeps
    | apply luxEvent_keeps
    | apply luxColumns_keeps
    | apply loadSink_keeps
    | simp only [Keeps.lit]
    | refine Keeps.foldl (fun _ _ _ => ?_) _ ?_
    | refine Keeps.of_pair ‹_ = (_, _)› ?_
    | (split)
    | (intro _ _ _)
    | (intro _ _)

theorem execFrameStart_runs {σ : State} (s : Sys2Proof.Machine.State) (hk : Keeps σ s) : Runs σ (execFrameStart s) := by
  unfold execFrameStart
  try dsimp only
  with_reducible repeat' first
    | assumption
    | apply Runs.next
    | apply Runs.ite
    | apply Keeps.ite
    | apply frameStart_keeps
    | simp only [Keeps.lit]
    | refine Keeps.foldl (fun _ _ _ => ?_) _ ?_
    | refine Keeps.of_pair ‹_ = (_, _)› ?_
    | (split)
    | (intro _ _ _)
    | (intro _ _)

theorem execLxsyncMiss_runs {σ : State} (s : Sys2Proof.Machine.State) (hk : Keeps σ s) : Runs σ (execLxsyncMiss s) := by
  unfold execLxsyncMiss
  try dsimp only
  with_reducible repeat' first
    | assumption
    | apply Runs.next
    | apply Runs.ite
    | apply Keeps.ite
    | apply State.setRegFld_keeps
    | apply frameStart_keeps
    | apply luxEvent_keeps
    | apply State.level_keeps
    | simp only [Keeps.lit]
    | refine Keeps.foldl (fun _ _ _ => ?_) _ ?_
    | refine Keeps.of_pair ‹_ = (_, _)› ?_
    | (split)
    | (intro _ _ _)
    | (intro _ _)

theorem execLsShortTrip_runs {σ : State} (n : Fin 96) (v : Nat) (us : Nat) (s : Sys2Proof.Machine.State) (hk : Keeps σ s) : Runs σ (execLsShortTrip n v us s) := by
  unfold execLsShortTrip
  try dsimp only
  with_reducible repeat' first
    | assumption
    | apply Runs.next
    | apply Runs.ite
    | apply Keeps.ite
    | apply countedTrip_keeps
    | simp only [Keeps.lit]
    | refine Keeps.foldl (fun _ _ _ => ?_) _ ?_
    | refine Keeps.of_pair ‹_ = (_, _)› ?_
    | (split)
    | (intro _ _ _)
    | (intro _ _)

theorem calCmd_keeps {σ : State} (v : Sys2Proof.Word) (s : Sys2Proof.Machine.State) (hk : Keeps σ s) : Keeps σ (calCmd v s) := by
  unfold calCmd
  try dsimp only
  with_reducible repeat' first
    | assumption
    | apply Keeps.ite
    | apply State.setRegBit_keeps
    | simp only [Keeps.lit]
    | refine Keeps.foldl (fun _ _ _ => ?_) _ ?_
    | refine Keeps.of_pair ‹_ = (_, _)› ?_
    | (split)
    | (intro _ _ _)
    | (intro _ _)

theorem luxBoundary_keeps {σ : State} (n : Nat) (s : Sys2Proof.Machine.State) (hk : Keeps σ s) : Keeps σ (luxBoundary n s) := by
  unfold luxBoundary
  try dsimp only
  with_reducible repeat' first
    | assumption
    | apply Keeps.ite
    | apply State.modSink_keeps
    | apply State.modLamp_keeps
    | apply luxTry_keeps
    | apply loadSink_keeps
    | simp only [Keeps.lit]
    | refine Keeps.foldl (fun _ _ _ => ?_) _ ?_
    | refine Keeps.of_pair ‹_ = (_, _)› ?_
    | (split)
    | (intro _ _ _)
    | (intro _ _)

theorem execPeriodBoundary_runs {σ : State} (ch : Sys2Proof.ChanRef) (s : Sys2Proof.Machine.State) (hc : ch.ok = true) (hk : Keeps σ s) : Runs σ (execPeriodBoundary ch s) := by
  unfold execPeriodBoundary
  try simp only [hc, Bool.not_true, Bool.false_eq_true, ↓reduceIte, false_or, ne_eq, not_true_eq_false]
  try dsimp only
  with_reducible repeat' first
    | assumption
    | apply Runs.next
    | apply Runs.ite
    | apply Keeps.ite
    | apply periodBoundary_keeps
    | apply luxBoundary_keeps
    | simp only [Keeps.lit]
    | refine Keeps.foldl (fun _ _ _ => ?_) _ ?_
    | refine Keeps.of_pair ‹_ = (_, _)› ?_
    | (split)
    | (intro _ _ _)
    | (intro _ _)

theorem luxMeasure_keeps {σ : State} (n : Nat) (m : Sys2Proof.Measure) (s : Sys2Proof.Machine.State) (hk : Keeps σ s) : Keeps σ (luxMeasure n m s) := by
  unfold luxMeasure
  try dsimp only
  with_reducible repeat' first
    | assumption
    | apply Keeps.ite
    | apply State.setReg_keeps
    | apply evidence_keeps
    | simp only [Keeps.lit]
    | refine Keeps.foldl (fun _ _ _ => ?_) _ ?_
    | refine Keeps.of_pair ‹_ = (_, _)› ?_
    | (split)
    | (intro _ _ _)
    | (intro _ _)

theorem swapRequest_keeps {σ : State} (s : Sys2Proof.Machine.State) (hk : Keeps σ s) : Keeps σ (swapRequest s) := by
  unfold swapRequest
  try dsimp only
  with_reducible repeat' first
    | assumption
    | apply Keeps.ite
    | simp only [Keeps.lit]
    | refine Keeps.foldl (fun _ _ _ => ?_) _ ?_
    | refine Keeps.of_pair ‹_ = (_, _)› ?_
    | (split)
    | (intro _ _ _)
    | (intro _ _)

theorem frameLoad_keeps {σ : State} (s : Sys2Proof.Machine.State) (hk : Keeps σ s) : Keeps σ (frameLoad s) := by
  unfold frameLoad
  try dsimp only
  with_reducible repeat' first
    | assumption
    | apply Keeps.ite
    | simp only [Keeps.lit]
    | refine Keeps.foldl (fun _ _ _ => ?_) _ ?_
    | refine Keeps.of_pair ‹_ = (_, _)› ?_
    | (split)
    | (intro _ _ _)
    | (intro _ _)

theorem execLxsyncEdge_runs {σ : State} (rising : Bool) (s : Sys2Proof.Machine.State) (hk : Keeps σ s) : Runs σ (execLxsyncEdge rising s) := by
  unfold execLxsyncEdge
  try dsimp only
  with_reducible repeat' first
    | assumption
    | apply Runs.next
    | apply Runs.ite
    | apply Keeps.ite
    | apply State.setRegFld_keeps
    | apply frameStart_keeps
    | apply State.level_keeps
    | simp only [Keeps.lit]
    | refine Keeps.foldl (fun _ _ _ => ?_) _ ?_
    | refine Keeps.of_pair ‹_ = (_, _)› ?_
    | (split)
    | (intro _ _ _)
    | (intro _ _)

theorem luxOffCheck_keeps {σ : State} (n : Nat) (v : Nat) (s : Sys2Proof.Machine.State) (hk : Keeps σ s) : Keeps σ (luxOffCheck n v s) := by
  unfold luxOffCheck
  try dsimp only
  with_reducible repeat' first
    | assumption
    | apply Keeps.ite
    | apply noteOff_keeps
    | apply evidence_keeps
    | apply State.modSink_keeps
    | apply State.modChan_keeps
    | apply State.diag_keeps
    | simp only [Keeps.lit]
    | refine Keeps.foldl (fun _ _ _ => ?_) _ ?_
    | refine Keeps.of_pair ‹_ = (_, _)› ?_
    | (split)
    | (intro _ _ _)
    | (intro _ _)

theorem fbCmd_keeps {σ : State} (v : Sys2Proof.Word) (s : Sys2Proof.Machine.State) (hk : Keeps σ s) : Keeps σ (fbCmd v s) := by
  unfold fbCmd
  try dsimp only
  with_reducible repeat' first
    | assumption
    | apply Keeps.ite
    | apply frameLoad_keeps
    | apply swapRequest_keeps
    | simp only [Keeps.lit]
    | refine Keeps.foldl (fun _ _ _ => ?_) _ ?_
    | refine Keeps.of_pair ‹_ = (_, _)› ?_
    | (split)
    | (intro _ _ _)
    | (intro _ _)

theorem calSwap_keeps {σ : State} (g : Nat) (s : Sys2Proof.Machine.State) (hk : Keeps σ s) : Keeps σ (calSwap g s) := by
  unfold calSwap
  try dsimp only
  with_reducible repeat' first
    | assumption
    | apply Keeps.ite
    | apply memBurst_keeps
    | apply State.setReg_keeps
    | apply State.raiseIsl_keeps
    | apply lampTrigger_keeps
    | simp only [Keeps.lit]
    | refine Keeps.foldl (fun _ _ _ => ?_) _ ?_
    | refine Keeps.of_pair ‹_ = (_, _)› ?_
    | (split)
    | (intro _ _ _)
    | (intro _ _)

theorem derateSink_keeps {σ : State} (n : Nat) (s : Sys2Proof.Machine.State) (hk : Keeps σ s) : Keeps σ (derateSink n s) := by
  unfold derateSink
  try dsimp only
  with_reducible repeat' first
    | assumption
    | apply Keeps.ite
    | apply State.modSink_keeps
    | simp only [Keeps.lit]
    | refine Keeps.foldl (fun _ _ _ => ?_) _ ?_
    | refine Keeps.of_pair ‹_ = (_, _)› ?_
    | (split)
    | (intro _ _ _)
    | (intro _ _)

theorem execLampEvaluationTick_runs {σ : State} (tdie : Int) (s : Sys2Proof.Machine.State) (hk : Keeps σ s) : Runs σ (execLampEvaluationTick tdie s) := by
  unfold execLampEvaluationTick
  try dsimp only
  with_reducible repeat' first
    | assumption
    | apply Runs.next
    | apply Runs.ite
    | apply Keeps.ite
    | apply State.setReg_keeps
    | apply derateSink_keeps
    | apply lampTrigger_keeps
    | simp only [Keeps.lit]
    | refine Keeps.foldl (fun _ _ _ => ?_) _ ?_
    | refine Keeps.of_pair ‹_ = (_, _)› ?_
    | (split)
    | (intro _ _ _)
    | (intro _ _)

theorem execLampEvaluationDone.freeResult_keeps {σ : State} (k : Fin 64) (s : State) (n : Nat) (hk : Keeps σ s) :
    Keeps σ (execLampEvaluationDone.freeResult k s n).2 := by
  unfold execLampEvaluationDone.freeResult
  dsimp only
  generalize lampSinks s k = l
  generalize hz : (([] : List (Nat × Nat × Nat)), s.used) = z
  have hz2 : Keeps σ z.2 := by rw [← hz]; exact State.used_keeps _ hk
  clear hz
  induction l generalizing z with
  | nil => exact hz2
  | cons m l ih => exact ih _ (State.used_keeps _ (State.used_keeps _ hz2))

theorem execLampEvaluationDone_runs {σ : State} (k : Fin 64) (s : Sys2Proof.Machine.State) (hk : Keeps σ s) : Runs σ (execLampEvaluationDone k s) := by
  unfold execLampEvaluationDone
  try dsimp only
  with_reducible repeat' first
    | assumption
    | apply Runs.next
    | apply Runs.ite
    | apply Keeps.ite
    | apply execLampEvaluationDone.freeResult_keeps
    | apply State.modLamp_keeps
    | apply gcSettle_keeps
    | apply luxEvent_keeps
    | simp only [Keeps.lit]
    | refine Keeps.foldl (fun _ _ _ => ?_) _ ?_
    | refine Keeps.of_pair ‹_ = (_, _)› ?_
    | (split)
    | (intro _ _ _)
    | (intro _ _)

theorem pixelSeen_keeps {σ : State} (row : Nat) (n : Nat) (below : Bool) (s : Sys2Proof.Machine.State) (hk : Keeps σ s) : Keeps σ (pixelSeen row n below s) := by
  unfold pixelSeen
  try dsimp only
  with_reducible repeat' first
    | assumption
    | apply Keeps.ite
    | apply State.setRegBit_keeps
    | simp only [Keeps.lit]
    | refine Keeps.foldl (fun _ _ _ => ?_) _ ?_
    | refine Keeps.of_pair ‹_ = (_, _)› ?_
    | (split)
    | (intro _ _ _)
    | (intro _ _)

theorem luxShortTrip_keeps {σ : State} (n : Nat) (i : Nat) (s : Sys2Proof.Machine.State) (hk : Keeps σ s) : Keeps σ (luxShortTrip n i s) := by
  unfold luxShortTrip
  try dsimp only
  with_reducible repeat' first
    | assumption
    | apply Keeps.ite
    | apply countedTrip_keeps
    | simp only [Keeps.lit]
    | refine Keeps.foldl (fun _ _ _ => ?_) _ ?_
    | refine Keeps.of_pair ‹_ = (_, _)› ?_
    | (split)
    | (intro _ _ _)
    | (intro _ _)

theorem execRowSlot_runs {σ : State} (row : Fin 12) (parityBad : List (Fin 96)) (cur : List (Fin 96 × Nat)) (s : Sys2Proof.Machine.State) (hk : Keeps σ s) : Runs σ (execRowSlot row parityBad cur s) := by
  unfold execRowSlot
  try dsimp only
  with_reducible repeat' first
    | assumption
    | apply Runs.next
    | apply Runs.ite
    | apply Keeps.ite
    | apply State.raise_keeps
    | apply pixelSeen_keeps
    | simp only [Keeps.lit]
    | refine Keeps.foldl (fun _ _ _ => ?_) _ ?_
    | refine Keeps.of_pair ‹_ = (_, _)› ?_
    | (split)
    | (intro _ _ _)
    | (intro _ _)

theorem execFrameLoadComplete_runs {σ : State} (s : Sys2Proof.Machine.State) (hk : Keeps σ s) : Runs σ (execFrameLoadComplete s) := by
  unfold execFrameLoadComplete
  try dsimp only
  with_reducible repeat' first
    | assumption
    | apply Runs.next
    | apply Runs.ite
    | apply Keeps.ite
    | apply settleCopy_keeps
    | apply State.setReg_keeps
    | apply State.used_keeps
    | apply memBurst_keeps
    | apply State.raiseIsl_keeps
    | simp only [Keeps.lit]
    | refine Keeps.foldl (fun _ _ _ => ?_) _ ?_
    | refine Keeps.of_pair ‹_ = (_, _)› ?_
    | (split)
    | (intro _ _ _)
    | (intro _ _)

end Sys2Proof.Machine
end

