-- ==== Sys2Proof/Laws/KeepsLockstep.lean ====
section
/-! SUPPORT. Every operation of Machine/Lockstep.lean keeps what a command keeps. -/

set_option linter.all false

namespace Sys2Proof.Machine

theorem wdgKick_keeps {σ : State} (r : Sys2Proof.Requester) (c : Nat) (v : Sys2Proof.Word) (s : Sys2Proof.Machine.State) (hk : Keeps σ s) : Keeps σ (wdgKick r c v s) := by
  unfold wdgKick
  try dsimp only
  with_reducible repeat' first
    | assumption
    | apply Keeps.ite
    | apply State.modCore_keeps
    | apply watchdogExpire_keeps
    | apply loadWatchdog_keeps
    | simp only [Keeps.lit]
    | refine Keeps.foldl (fun _ _ _ => ?_) _ ?_
    | refine Keeps.of_pair ‹_ = (_, _)› ?_
    | (split)
    | (intro _ _ _)
    | (intro _ _)

theorem takeCheckpoint_keeps {σ : State} (c : Nat) (s : Sys2Proof.Machine.State) (hk : Keeps σ s) : Keeps σ (takeCheckpoint c s) := by
  unfold takeCheckpoint
  try dsimp only
  with_reducible repeat' first
    | assumption
    | apply Keeps.ite
    | apply State.modCore_keeps
    | apply State.storeWord_keeps
    | simp only [Keeps.lit]
    | refine Keeps.foldl (fun _ _ _ => ?_) _ ?_
    | refine Keeps.of_pair ‹_ = (_, _)› ?_
    | (split)
    | (intro _ _ _)
    | (intro _ _)

theorem copyLocal_keeps {σ : State} (src : Nat) (dst : Nat) (s : Sys2Proof.Machine.State) (hk : Keeps σ s) : Keeps σ (copyLocal src dst s) := by
  unfold copyLocal
  try dsimp only
  with_reducible repeat' first
    | assumption
    | apply Keeps.ite
    | apply State.heal_keeps
    | apply State.setByte_keeps
    | apply State.clearMem_keeps
    | simp only [Keeps.lit]
    | refine Keeps.foldl (fun _ _ _ => ?_) _ ?_
    | refine Keeps.of_pair ‹_ = (_, _)› ?_
    | (split)
    | (intro _ _ _)
    | (intro _ _)

theorem recordRegs_keeps {σ : State} (a : Nat) (x1 : Nat) (x2 : Sys2Proof.Machine.State) (hk : Keeps σ x2) : Keeps σ (recordRegs a x1 x2) := by
  induction x1 generalizing a x2 with
  | zero =>
    unfold recordRegs
    try dsimp only
    with_reducible repeat' first
      | assumption
      | apply Keeps.ite
      | apply islandStoreList_keeps
      | apply State.used_keeps
      | simp only [Keeps.lit]
      | refine Keeps.foldl (fun _ _ _ => ?_) _ ?_
      | refine Keeps.of_pair ‹_ = (_, _)› ?_
      | (split)
      | (intro _ _ _)
      | (intro _ _)
  | succ n ih =>
    unfold recordRegs
    try dsimp only
    with_reducible repeat' first
      | assumption
      | apply ih
      | apply Keeps.ite
      | apply islandStoreList_keeps
      | apply State.used_keeps
      | simp only [Keeps.lit]
      | refine Keeps.foldl (fun _ _ _ => ?_) _ ?_
      | refine Keeps.of_pair ‹_ = (_, _)› ?_
      | (split)
      | (intro _ _ _)
      | (intro _ _)

theorem finishRecord_keeps {σ : State} (c : Nat) (s : Sys2Proof.Machine.State) (hk : Keeps σ s) : Keeps σ (finishRecord c s) := by
  unfold finishRecord
  try dsimp only
  with_reducible repeat' first
    | assumption
    | apply Keeps.ite
    | apply recordRegs_keeps
    | apply memBurst_keeps
    | apply islandStoreList_keeps
    | apply State.modCore_keeps
    | simp only [Keeps.lit]
    | refine Keeps.foldl (fun _ _ _ => ?_) _ ?_
    | refine Keeps.of_pair ‹_ = (_, _)› ?_
    | (split)
    | (intro _ _ _)
    | (intro _ _)

theorem countMismatch_keeps {σ : State} (c : Nat) (s : Sys2Proof.Machine.State) (hk : Keeps σ s) : Keeps σ (countMismatch c s) := by
  unfold countMismatch
  try dsimp only
  with_reducible repeat' first
    | assumption
    | apply Keeps.ite
    | apply State.raiseIsl_keeps
    | apply State.modCore_keeps
    | apply retirePair_keeps
    | apply unwind_keeps
    | simp only [Keeps.lit]
    | refine Keeps.foldl (fun _ _ _ => ?_) _ ?_
    | refine Keeps.of_pair ‹_ = (_, _)› ?_
    | (split)
    | (intro _ _ _)
    | (intro _ _)

theorem settle_keeps {σ : State} (c : Nat) (s : Sys2Proof.Machine.State) (hk : Keeps σ s) : Keeps σ (settle c s) := by
  unfold settle
  try dsimp only
  with_reducible repeat' first
    | assumption
    | apply Keeps.ite
    | apply takeCheckpoint_keeps
    | simp only [Keeps.lit]
    | refine Keeps.foldl (fun _ _ _ => ?_) _ ?_
    | refine Keeps.of_pair ‹_ = (_, _)› ?_
    | (split)
    | (intro _ _ _)
    | (intro _ _)

theorem replayAgreed_keeps {σ : State} (c : Nat) (s : Sys2Proof.Machine.State) (hk : Keeps σ s) : Keeps σ (replayAgreed c s) := by
  unfold replayAgreed
  try dsimp only
  with_reducible repeat' first
    | assumption
    | apply Keeps.ite
    | apply settle_keeps
    | apply State.regInc_keeps
    | apply State.modCore_keeps
    | apply rewind_keeps
    | simp only [Keeps.lit]
    | refine Keeps.foldl (fun _ _ _ => ?_) _ ?_
    | refine Keeps.of_pair ‹_ = (_, _)› ?_
    | (split)
    | (intro _ _ _)
    | (intro _ _)

theorem replayEnds_keeps {σ : State} (c : Nat) (r : Sys2Proof.Replay) (s : Sys2Proof.Machine.State) (hk : Keeps σ s) : Keeps σ (replayEnds c r s) := by
  unfold replayEnds
  try dsimp only
  with_reducible repeat' first
    | assumption
    | apply Keeps.ite
    | apply replayAgreed_keeps
    | apply countMismatch_keeps
    | apply retirePair_keeps
    | simp only [Keeps.lit]
    | refine Keeps.foldl (fun _ _ _ => ?_) _ ?_
    | refine Keeps.of_pair ‹_ = (_, _)› ?_
    | (split)
    | (intro _ _ _)
    | (intro _ _)

theorem execTakeoverComplete_runs {σ : State} (c : Sys2Proof.CoreId) (r : Sys2Proof.Replay) (s : Sys2Proof.Machine.State) (hk : Keeps σ s) : Runs σ (execTakeoverComplete c r s) := by
  unfold execTakeoverComplete
  try dsimp only
  with_reducible repeat' first
    | assumption
    | apply Runs.next
    | apply Runs.ite
    | apply Keeps.ite
    | apply copyLocal_keeps
    | apply finishRecord_keeps
    | apply State.setPhys_keeps
    | apply State.setRegBit_keeps
    | apply State.setRegFld_keeps
    | apply State.modCore_keeps
    | apply replayEnds_keeps
    | simp only [Keeps.lit]
    | refine Keeps.foldl (fun _ _ _ => ?_) _ ?_
    | refine Keeps.of_pair ‹_ = (_, _)› ?_
    | (split)
    | (intro _ _ _)
    | (intro _ _)

theorem setTimer_keeps {σ : State} (c : Nat) (n : Nat) (t : Option Nat) (s : Sys2Proof.Machine.State) (hk : Keeps σ s) : Keeps σ (setTimer c n t s) := by
  unfold setTimer
  try dsimp only
  with_reducible repeat' first
    | assumption
    | apply Keeps.ite
    | apply State.modCore_keeps
    | simp only [Keeps.lit]
    | refine Keeps.foldl (fun _ _ _ => ?_) _ ?_
    | refine Keeps.of_pair ‹_ = (_, _)› ?_
    | (split)
    | (intro _ _ _)
    | (intro _ _)

theorem execTimerExpiry_runs {σ : State} (c : Sys2Proof.CoreId) (n : Fin 2) (s : Sys2Proof.Machine.State) (hk : Keeps σ s) : Runs σ (execTimerExpiry c n s) := by
  unfold execTimerExpiry
  try dsimp only
  with_reducible repeat' first
    | assumption
    | apply Runs.next
    | apply Runs.ite
    | apply Keeps.ite
    | apply setTimer_keeps
    | apply State.raiseLine_keeps
    | simp only [Keeps.lit]
    | refine Keeps.foldl (fun _ _ _ => ?_) _ ?_
    | refine Keeps.of_pair ‹_ = (_, _)› ?_
    | (split)
    | (intro _ _ _)
    | (intro _ _)

theorem execMismatchWindowEnd_runs {σ : State} (c : Sys2Proof.CoreId) (s : Sys2Proof.Machine.State) (hk : Keeps σ s) : Runs σ (execMismatchWindowEnd c s) := by
  unfold execMismatchWindowEnd
  try dsimp only
  with_reducible repeat' first
    | assumption
    | apply Runs.next
    | apply Runs.ite
    | apply Keeps.ite
    | apply State.modCore_keeps
    | simp only [Keeps.lit]
    | refine Keeps.foldl (fun _ _ _ => ?_) _ ?_
    | refine Keeps.of_pair ‹_ = (_, _)› ?_
    | (split)
    | (intro _ _ _)
    | (intro _ _)

theorem foreignStore_keeps {σ : State} (r : Sys2Proof.Requester) (c : Nat) (a : Nat) (v : Sys2Proof.Word) (s : Sys2Proof.Machine.State) (hk : Keeps σ s) : Keeps σ (foreignStore r c a v s) := by
  unfold foreignStore
  try dsimp only
  with_reducible repeat' first
    | assumption
    | apply Keeps.ite
    | apply settle_keeps
    | apply State.modCore_keeps
    | apply State.storeWord_keeps
    | simp only [Keeps.lit]
    | refine Keeps.foldl (fun _ _ _ => ?_) _ ?_
    | refine Keeps.of_pair ‹_ = (_, _)› ?_
    | (split)
    | (intro _ _ _)
    | (intro _ _)

theorem timerWrite_keeps {σ : State} (c : Nat) (n : Nat) (v : Sys2Proof.Word) (s : Sys2Proof.Machine.State) (hk : Keeps σ s) : Keeps σ (timerWrite c n v s) := by
  unfold timerWrite
  try dsimp only
  with_reducible repeat' first
    | assumption
    | apply Keeps.ite
    | apply State.setReg_keeps
    | apply setTimer_keeps
    | simp only [Keeps.lit]
    | refine Keeps.foldl (fun _ _ _ => ?_) _ ?_
    | refine Keeps.of_pair ‹_ = (_, _)› ?_
    | (split)
    | (intro _ _ _)
    | (intro _ _)

theorem execWatchdogWarning_runs {σ : State} (c : Sys2Proof.CoreId) (s : Sys2Proof.Machine.State) (hk : Keeps σ s) : Runs σ (execWatchdogWarning c s) := by
  unfold execWatchdogWarning
  try dsimp only
  with_reducible repeat' first
    | assumption
    | apply Runs.next
    | apply Runs.ite
    | apply Keeps.ite
    | apply State.raiseLine_keeps
    | apply State.modCore_keeps
    | simp only [Keeps.lit]
    | refine Keeps.foldl (fun _ _ _ => ?_) _ ?_
    | refine Keeps.of_pair ‹_ = (_, _)› ?_
    | (split)
    | (intro _ _ _)
    | (intro _ _)

theorem execCheckpoint_runs {σ : State} (c : Sys2Proof.CoreId) (s : Sys2Proof.Machine.State) (hk : Keeps σ s) : Runs σ (execCheckpoint c s) := by
  unfold execCheckpoint
  try dsimp only
  with_reducible repeat' first
    | assumption
    | apply Runs.next
    | apply Runs.ite
    | apply Keeps.ite
    | apply settle_keeps
    | apply State.modCore_keeps
    | simp only [Keeps.lit]
    | refine Keeps.foldl (fun _ _ _ => ?_) _ ?_
    | refine Keeps.of_pair ‹_ = (_, _)› ?_
    | (split)
    | (intro _ _ _)
    | (intro _ _)

theorem execRollbackComplete_runs {σ : State} (c : Sys2Proof.CoreId) (r : Sys2Proof.Replay) (s : Sys2Proof.Machine.State) (hk : Keeps σ s) : Runs σ (execRollbackComplete c r s) := by
  unfold execRollbackComplete
  try dsimp only
  with_reducible repeat' first
    | assumption
    | apply Runs.next
    | apply Runs.ite
    | apply Keeps.ite
    | apply replayEnds_keeps
    | simp only [Keeps.lit]
    | refine Keeps.foldl (fun _ _ _ => ?_) _ ?_
    | refine Keeps.of_pair ‹_ = (_, _)› ?_
    | (split)
    | (intro _ _ _)
    | (intro _ _)

theorem freezeTimer_keeps {σ : State} (c : Nat) (n : Nat) (s : Sys2Proof.Machine.State) (hk : Keeps σ s) : Keeps σ (freezeTimer c n s) := by
  unfold freezeTimer
  try dsimp only
  with_reducible repeat' first
    | assumption
    | apply Keeps.ite
    | apply setTimer_keeps
    | apply State.setReg_keeps
    | simp only [Keeps.lit]
    | refine Keeps.foldl (fun _ _ _ => ?_) _ ?_
    | refine Keeps.of_pair ‹_ = (_, _)› ?_
    | (split)
    | (intro _ _ _)
    | (intro _ _)

theorem makeDormant_keeps {σ : State} (c : Nat) (s : Sys2Proof.Machine.State) (hk : Keeps σ s) : Keeps σ (makeDormant c s) := by
  unfold makeDormant
  try dsimp only
  with_reducible repeat' first
    | assumption
    | apply Keeps.ite
    | apply freezeTimer_keeps
    | apply freezeWatchdog_keeps
    | apply State.setRegBit_keeps
    | apply State.modCore_keeps
    | simp only [Keeps.lit]
    | refine Keeps.foldl (fun _ _ _ => ?_) _ ?_
    | refine Keeps.of_pair ‹_ = (_, _)› ?_
    | (split)
    | (intro _ _ _)
    | (intro _ _)

theorem spareWrite_keeps {σ : State} (r : Sys2Proof.Requester) (v : Sys2Proof.Word) (s : Sys2Proof.Machine.State) (hk : Keeps σ s) : Keeps σ (spareWrite r v s) := by
  unfold spareWrite
  try dsimp only
  with_reducible repeat' first
    | assumption
    | apply Keeps.ite
    | apply State.setReg_keeps
    | apply makeDormant_keeps
    | apply State.setPhys_keeps
    | simp only [Keeps.lit]
    | refine Keeps.foldl (fun _ _ _ => ?_) _ ?_
    | refine Keeps.of_pair ‹_ = (_, _)› ?_
    | (split)
    | (intro _ _ _)
    | (intro _ _)

theorem execWatchdogExpiry_runs {σ : State} (c : Sys2Proof.CoreId) (s : Sys2Proof.Machine.State) (hk : Keeps σ s) : Runs σ (execWatchdogExpiry c s) := by
  unfold execWatchdogExpiry
  try dsimp only
  with_reducible repeat' first
    | assumption
    | apply Runs.next
    | apply Runs.ite
    | apply Keeps.ite
    | apply watchdogExpire_keeps
    | simp only [Keeps.lit]
    | refine Keeps.foldl (fun _ _ _ => ?_) _ ?_
    | refine Keeps.of_pair ‹_ = (_, _)› ?_
    | (split)
    | (intro _ _ _)
    | (intro _ _)

theorem execLockstepMismatch_runs {σ : State} (c : Sys2Proof.CoreId) (s : Sys2Proof.Machine.State) (hk : Keeps σ s) : Runs σ (execLockstepMismatch c s) := by
  unfold execLockstepMismatch
  try dsimp only
  with_reducible repeat' first
    | assumption
    | apply Runs.next
    | apply Runs.ite
    | apply Keeps.ite
    | apply countMismatch_keeps
    | simp only [Keeps.lit]
    | refine Keeps.foldl (fun _ _ _ => ?_) _ ?_
    | refine Keeps.of_pair ‹_ = (_, _)› ?_
    | (split)
    | (intro _ _ _)
    | (intro _ _)

end Sys2Proof.Machine
end

