-- ==== Sys2Proof/Laws/KeepsMarionette.lean ====
section
/-! SUPPORT. Every operation of Machine/Marionette.lean keeps what a command keeps. -/

set_option linter.all false

namespace Sys2Proof.Machine

theorem marComplete_keeps {σ : State} (n : Nat) (s : Sys2Proof.Machine.State) (hk : Keeps σ s) : Keeps σ (marComplete n s) := by
  unfold marComplete
  try dsimp only
  with_reducible repeat' first
    | assumption
    | apply Keeps.ite
    | apply marEnd_keeps
    | apply marBit_keeps
    | simp only [Keeps.lit]
    | refine Keeps.foldl (fun _ _ _ => ?_) _ ?_
    | refine Keeps.of_pair ‹_ = (_, _)› ?_
    | (split)
    | (intro _ _ _)
    | (intro _ _)

theorem execMarionetteTableRead_runs {σ : State} (s : Sys2Proof.Machine.State) (hk : Keeps σ s) : Runs σ (execMarionetteTableRead s) := by
  unfold execMarionetteTableRead
  try dsimp only
  with_reducible repeat' first
    | assumption
    | apply Runs.next
    | apply Runs.ite
    | apply Keeps.ite
    | apply memBurst_keeps
    | apply State.raiseIsl_keeps
    | apply State.setRegBit_keeps
    | apply State.setReg_keeps
    | simp only [Keeps.lit]
    | refine Keeps.foldl (fun _ _ _ => ?_) _ ?_
    | refine Keeps.of_pair ‹_ = (_, _)› ?_
    | (split)
    | (intro _ _ _)
    | (intro _ _)

theorem marCtrl_keeps {σ : State} (v : Sys2Proof.Word) (s : Sys2Proof.Machine.State) (hk : Keeps σ s) : Keeps σ (marCtrl v s) := by
  unfold marCtrl
  try dsimp only
  with_reducible repeat' first
    | assumption
    | apply Keeps.ite
    | apply marEnd_keeps
    | apply State.setRegBit_keeps
    | simp only [Keeps.lit]
    | refine Keeps.foldl (fun _ _ _ => ?_) _ ?_
    | refine Keeps.of_pair ‹_ = (_, _)› ?_
    | (split)
    | (intro _ _ _)
    | (intro _ _)

theorem marEvalOne_keeps {σ : State} (k : Nat) (n : Nat) (s : Sys2Proof.Machine.State) (hk : Keeps σ s) : Keeps σ (marEvalOne k n s) := by
  unfold marEvalOne
  try dsimp only
  with_reducible repeat' first
    | assumption
    | apply Keeps.ite
    | apply State.setMar_keeps
    | apply marBit_keeps
    | apply marEnd_keeps
    | simp only [Keeps.lit]
    | refine Keeps.foldl (fun _ _ _ => ?_) _ ?_
    | refine Keeps.of_pair ‹_ = (_, _)› ?_
    | (split)
    | (intro _ _ _)
    | (intro _ _)

theorem execMarionetteEvaluate_runs {σ : State} (s : Sys2Proof.Machine.State) (hk : Keeps σ s) : Runs σ (execMarionetteEvaluate s) := by
  unfold execMarionetteEvaluate
  try dsimp only
  with_reducible repeat' first
    | assumption
    | apply Runs.next
    | apply Runs.ite
    | apply Keeps.ite
    | apply marDrive_keeps
    | apply marEvalOne_keeps
    | apply State.used_keeps
    | simp only [Keeps.lit]
    | refine Keeps.foldl (fun _ _ _ => ?_) _ ?_
    | refine Keeps.of_pair ‹_ = (_, _)› ?_
    | (split)
    | (intro _ _ _)
    | (intro _ _)

theorem marFlip_keeps {σ : State} (on : Bool) (n : Nat) (s : Sys2Proof.Machine.State) (hk : Keeps σ s) : Keeps σ (marFlip on n s) := by
  unfold marFlip
  try dsimp only
  with_reducible repeat' first
    | assumption
    | apply Keeps.ite
    | apply State.setMar_keeps
    | apply marComplete_keeps
    | simp only [Keeps.lit]
    | refine Keeps.foldl (fun _ _ _ => ?_) _ ?_
    | refine Keeps.of_pair ‹_ = (_, _)› ?_
    | (split)
    | (intro _ _ _)
    | (intro _ _)

theorem execMarionetteToggle_runs {σ : State} (n : Fin 48) (s : Sys2Proof.Machine.State) (hk : Keeps σ s) : Runs σ (execMarionetteToggle n s) := by
  unfold execMarionetteToggle
  try dsimp only
  with_reducible repeat' first
    | assumption
    | apply Runs.next
    | apply Runs.ite
    | apply Keeps.ite
    | apply marDrive_keeps
    | apply marFlip_keeps
    | simp only [Keeps.lit]
    | refine Keeps.foldl (fun _ _ _ => ?_) _ ?_
    | refine Keeps.of_pair ‹_ = (_, _)› ?_
    | (split)
    | (intro _ _ _)
    | (intro _ _)

end Sys2Proof.Machine
end

