-- ==== Sys2Proof/Laws/KeepsUpdate.lean ====
section
/-! SUPPORT. Every operation of Machine/Update.lean keeps what a command keeps. -/

set_option linter.all false

namespace Sys2Proof.Machine

theorem partDone_keeps {σ : State} (code : Nat) (s : Sys2Proof.Machine.State) (hk : Keeps σ s) : Keeps σ (partDone code s) := by
  unfold partDone
  try dsimp only
  with_reducible repeat' first
    | assumption
    | apply Keeps.ite
    | apply updEvent_keeps
    | apply State.setRegFld_keeps
    | simp only [Keeps.lit]
    | refine Keeps.foldl (fun _ _ _ => ?_) _ ?_
    | refine Keeps.of_pair ‹_ = (_, _)› ?_
    | (split)
    | (intro _ _ _)
    | (intro _ _)

theorem openStep_keeps {σ : State} (s0 : Sys2Proof.Machine.State) (hk : Keeps σ s0) : Keeps σ (openStep s0) := by
  unfold openStep
  try dsimp only
  with_reducible repeat' first
    | assumption
    | apply Keeps.ite
    | apply updRead_keeps
    | apply partDone_keeps
    | simp only [Keeps.lit]
    | refine Keeps.foldl (fun _ _ _ => ?_) _ ?_
    | refine Keeps.of_pair ‹_ = (_, _)› ?_
    | (split)
    | (intro _ _ _)
    | (intro _ _)

theorem abortNow_keeps {σ : State} (s : Sys2Proof.Machine.State) (hk : Keeps σ s) : Keeps σ (abortNow s) := by
  unfold abortNow
  try dsimp only
  with_reducible repeat' first
    | assumption
    | apply Keeps.ite
    | apply journalPut_keeps
    | simp only [Keeps.lit]
    | refine Keeps.foldl (fun _ _ _ => ?_) _ ?_
    | refine Keeps.of_pair ‹_ = (_, _)› ?_
    | (split)
    | (intro _ _ _)
    | (intro _ _)

theorem sendUpd_keeps {σ : State} (sub : Nat) (arg : Nat) (dest : Nat) (mref : Nat) (s : Sys2Proof.Machine.State) (hk : Keeps σ s) : Keeps σ (sendUpd sub arg dest mref s) := by
  unfold sendUpd
  try dsimp only
  with_reducible repeat' first
    | assumption
    | apply Keeps.ite
    | apply sendStitch_keeps
    | simp only [Keeps.lit]
    | refine Keeps.foldl (fun _ _ _ => ?_) _ ?_
    | refine Keeps.of_pair ‹_ = (_, _)› ?_
    | (split)
    | (intro _ _ _)
    | (intro _ _)

theorem updKnown_keeps {σ : State} (u : Sys2Proof.UpdMsg) (s : Sys2Proof.Machine.State) (f : Sys2Proof.Machine.State → Sys2Proof.Machine.State) (hf_f : ∀ t, Keeps σ t → Keeps σ (f t)) (hk : Keeps σ s) : Keeps σ (updKnown u s f) := by
  unfold updKnown
  try dsimp only
  with_reducible repeat' first
    | assumption
    | apply Keeps.ite
    | apply hf_f
    | apply sendUpd_keeps
    | simp only [Keeps.lit]
    | refine Keeps.foldl (fun _ _ _ => ?_) _ ?_
    | refine Keeps.of_pair ‹_ = (_, _)› ?_
    | (split)
    | (intro _ _ _)
    | (intro _ _)

theorem updAbortAct_keeps {σ : State} (u : Sys2Proof.UpdMsg) (s : Sys2Proof.Machine.State) (hk : Keeps σ s) : Keeps σ (updAbortAct u s) := by
  unfold updAbortAct
  try dsimp only
  with_reducible repeat' first
    | assumption
    | apply Keeps.ite
    | apply updKnown_keeps
    | apply sendUpd_keeps
    | apply abortNow_keeps
    | simp only [Keeps.lit]
    | refine Keeps.foldl (fun _ _ _ => ?_) _ ?_
    | refine Keeps.of_pair ‹_ = (_, _)› ?_
    | (split)
    | (intro _ _ _)
    | (intro _ _)

theorem atCoord_keeps {σ : State} (u : Sys2Proof.UpdMsg) (s : Sys2Proof.Machine.State) (f : Sys2Proof.Machine.State → Sys2Proof.Machine.State) (hf_f : ∀ t, Keeps σ t → Keeps σ (f t)) (hk : Keeps σ s) : Keeps σ (atCoord u s f) := by
  unfold atCoord
  try dsimp only
  with_reducible repeat' first
    | assumption
    | apply Keeps.ite
    | apply hf_f
    | simp only [Keeps.lit]
    | refine Keeps.foldl (fun _ _ _ => ?_) _ ?_
    | refine Keeps.of_pair ‹_ = (_, _)› ?_
    | (split)
    | (intro _ _ _)
    | (intro _ _)

theorem updAckAct_keeps {σ : State} (u : Sys2Proof.UpdMsg) (s : Sys2Proof.Machine.State) (hk : Keeps σ s) : Keeps σ (updAckAct u s) := by
  unfold updAckAct
  try dsimp only
  with_reducible repeat' first
    | assumption
    | apply Keeps.ite
    | apply updKnown_keeps
    | apply atCoord_keeps
    | simp only [Keeps.lit]
    | refine Keeps.foldl (fun _ _ _ => ?_) _ ?_
    | refine Keeps.of_pair ‹_ = (_, _)› ?_
    | (split)
    | (intro _ _ _)
    | (intro _ _)

theorem resetSoon_keeps {σ : State} (s : Sys2Proof.Machine.State) (hk : Keeps σ s) : Keeps σ (resetSoon s) := by
  unfold resetSoon
  try dsimp only
  with_reducible repeat' first
    | assumption
    | apply Keeps.ite
    | simp only [Keeps.lit]
    | refine Keeps.foldl (fun _ _ _ => ?_) _ ?_
    | refine Keeps.of_pair ‹_ = (_, _)› ?_
    | (split)
    | (intro _ _ _)
    | (intro _ _)

theorem commitNow_keeps {σ : State} (u : Sys2Proof.UpdMsg) (s : Sys2Proof.Machine.State) (hk : Keeps σ s) : Keeps σ (commitNow u s) := by
  unfold commitNow
  try dsimp only
  with_reducible repeat' first
    | assumption
    | apply Keeps.ite
    | apply journalPut_keeps
    | apply resetSoon_keeps
    | apply sendUpd_keeps
    | simp only [Keeps.lit]
    | refine Keeps.foldl (fun _ _ _ => ?_) _ ?_
    | refine Keeps.of_pair ‹_ = (_, _)› ?_
    | (split)
    | (intro _ _ _)
    | (intro _ _)

theorem updCommitAct_keeps {σ : State} (u : Sys2Proof.UpdMsg) (s : Sys2Proof.Machine.State) (hk : Keeps σ s) : Keeps σ (updCommitAct u s) := by
  unfold updCommitAct
  try dsimp only
  with_reducible repeat' first
    | assumption
    | apply Keeps.ite
    | apply updKnown_keeps
    | apply abortNow_keeps
    | apply commitNow_keeps
    | apply sendUpd_keeps
    | simp only [Keeps.lit]
    | refine Keeps.foldl (fun _ _ _ => ?_) _ ?_
    | refine Keeps.of_pair ‹_ = (_, _)› ?_
    | (split)
    | (intro _ _ _)
    | (intro _ _)

theorem confirmNow_keeps {σ : State} (s : Sys2Proof.Machine.State) (hk : Keeps σ s) : Keeps σ (confirmNow s) := by
  unfold confirmNow
  try dsimp only
  with_reducible repeat' first
    | assumption
    | apply Keeps.ite
    | apply journalPut_keeps
    | simp only [Keeps.lit]
    | refine Keeps.foldl (fun _ _ _ => ?_) _ ?_
    | refine Keeps.of_pair ‹_ = (_, _)› ?_
    | (split)
    | (intro _ _ _)
    | (intro _ _)

theorem updConfirmAct_keeps {σ : State} (u : Sys2Proof.UpdMsg) (s : Sys2Proof.Machine.State) (hk : Keeps σ s) : Keeps σ (updConfirmAct u s) := by
  unfold updConfirmAct
  try dsimp only
  with_reducible repeat' first
    | assumption
    | apply Keeps.ite
    | apply updKnown_keeps
    | apply sendUpd_keeps
    | apply confirmNow_keeps
    | simp only [Keeps.lit]
    | refine Keeps.foldl (fun _ _ _ => ?_) _ ?_
    | refine Keeps.of_pair ‹_ = (_, _)› ?_
    | (split)
    | (intro _ _ _)
    | (intro _ _)

theorem sendUpdAll_keeps {σ : State} (sub : Nat) (ds : List Nat) (s : Sys2Proof.Machine.State) (hk : Keeps σ s) : Keeps σ (sendUpdAll sub ds s) := by
  unfold sendUpdAll
  try dsimp only
  with_reducible repeat' first
    | assumption
    | apply Keeps.ite
    | apply sendUpd_keeps
    | simp only [Keeps.lit]
    | refine Keeps.foldl (fun _ _ _ => ?_) _ ?_
    | refine Keeps.of_pair ‹_ = (_, _)› ?_
    | (split)
    | (intro _ _ _)
    | (intro _ _)

theorem enterStep_keeps {σ : State} (k : Nat) (s : Sys2Proof.Machine.State) (hk : Keeps σ s) : Keeps σ (enterStep k s) := by
  unfold enterStep
  try dsimp only
  with_reducible repeat' first
    | assumption
    | apply Keeps.ite
    | apply sendUpdAll_keeps
    | simp only [Keeps.lit]
    | refine Keeps.foldl (fun _ _ _ => ?_) _ ?_
    | refine Keeps.of_pair ‹_ = (_, _)› ?_
    | (split)
    | (intro _ _ _)
    | (intro _ _)

theorem decideStep_keeps {σ : State} (type : Nat) (s : Sys2Proof.Machine.State) (hk : Keeps σ s) : Keeps σ (decideStep type s) := by
  unfold decideStep
  try dsimp only
  with_reducible repeat' first
    | assumption
    | apply Keeps.ite
    | apply journalPut_keeps
    | apply enterStep_keeps
    | simp only [Keeps.lit]
    | refine Keeps.foldl (fun _ _ _ => ?_) _ ?_
    | refine Keeps.of_pair ‹_ = (_, _)› ?_
    | (split)
    | (intro _ _ _)
    | (intro _ _)

theorem decideRevert_keeps {σ : State} (s : Sys2Proof.Machine.State) (hk : Keeps σ s) : Keeps σ (decideRevert s) := by
  unfold decideRevert
  try dsimp only
  with_reducible repeat' first
    | assumption
    | apply Keeps.ite
    | apply decideStep_keeps
    | simp only [Keeps.lit]
    | refine Keeps.foldl (fun _ _ _ => ?_) _ ?_
    | refine Keeps.of_pair ‹_ = (_, _)› ?_
    | (split)
    | (intro _ _ _)
    | (intro _ _)

theorem updFailedAct_keeps {σ : State} (u : Sys2Proof.UpdMsg) (s : Sys2Proof.Machine.State) (hk : Keeps σ s) : Keeps σ (updFailedAct u s) := by
  unfold updFailedAct
  try dsimp only
  with_reducible repeat' first
    | assumption
    | apply Keeps.ite
    | apply updKnown_keeps
    | apply atCoord_keeps
    | apply sendUpd_keeps
    | apply decideRevert_keeps
    | simp only [Keeps.lit]
    | refine Keeps.foldl (fun _ _ _ => ?_) _ ?_
    | refine Keeps.of_pair ‹_ = (_, _)› ?_
    | (split)
    | (intro _ _ _)
    | (intro _ _)

theorem updHealthyAct_keeps {σ : State} (u : Sys2Proof.UpdMsg) (s : Sys2Proof.Machine.State) (hk : Keeps σ s) : Keeps σ (updHealthyAct u s) := by
  unfold updHealthyAct
  try dsimp only
  with_reducible repeat' first
    | assumption
    | apply Keeps.ite
    | apply updKnown_keeps
    | apply atCoord_keeps
    | apply decideStep_keeps
    | apply sendUpd_keeps
    | simp only [Keeps.lit]
    | refine Keeps.foldl (fun _ _ _ => ?_) _ ?_
    | refine Keeps.of_pair ‹_ = (_, _)› ?_
    | (split)
    | (intro _ _ _)
    | (intro _ _)

theorem giveVote_keeps {σ : State} (s : Sys2Proof.Machine.State) (hk : Keeps σ s) : Keeps σ (giveVote s) := by
  unfold giveVote
  try dsimp only
  with_reducible repeat' first
    | assumption
    | apply Keeps.ite
    | simp only [Keeps.lit]
    | refine Keeps.foldl (fun _ _ _ => ?_) _ ?_
    | refine Keeps.of_pair ‹_ = (_, _)› ?_
    | (split)
    | (intro _ _ _)
    | (intro _ _)

theorem updPrepareAct_keeps {σ : State} (u : Sys2Proof.UpdMsg) (s : Sys2Proof.Machine.State) (hk : Keeps σ s) : Keeps σ (updPrepareAct u s) := by
  unfold updPrepareAct
  try dsimp only
  with_reducible repeat' first
    | assumption
    | apply Keeps.ite
    | apply updKnown_keeps
    | apply sendUpd_keeps
    | apply giveVote_keeps
    | simp only [Keeps.lit]
    | refine Keeps.foldl (fun _ _ _ => ?_) _ ?_
    | refine Keeps.of_pair ‹_ = (_, _)› ?_
    | (split)
    | (intro _ _ _)
    | (intro _ _)

theorem updQueryAct_keeps {σ : State} (u : Sys2Proof.UpdMsg) (s : Sys2Proof.Machine.State) (hk : Keeps σ s) : Keeps σ (updQueryAct u s) := by
  unfold updQueryAct
  try dsimp only
  with_reducible repeat' first
    | assumption
    | apply Keeps.ite
    | apply updKnown_keeps
    | apply sendUpd_keeps
    | simp only [Keeps.lit]
    | refine Keeps.foldl (fun _ _ _ => ?_) _ ?_
    | refine Keeps.of_pair ‹_ = (_, _)› ?_
    | (split)
    | (intro _ _ _)
    | (intro _ _)

theorem updRevertAct_keeps {σ : State} (u : Sys2Proof.UpdMsg) (s : Sys2Proof.Machine.State) (hk : Keeps σ s) : Keeps σ (updRevertAct u s) := by
  unfold updRevertAct
  try dsimp only
  with_reducible repeat' first
    | assumption
    | apply Keeps.ite
    | apply updKnown_keeps
    | apply revertRecord_keeps
    | apply resetSoon_keeps
    | apply sendUpd_keeps
    | apply abortNow_keeps
    | simp only [Keeps.lit]
    | refine Keeps.foldl (fun _ _ _ => ?_) _ ?_
    | refine Keeps.of_pair ‹_ = (_, _)› ?_
    | (split)
    | (intro _ _ _)
    | (intro _ _)

theorem updReset_keeps {σ : State} (s : Sys2Proof.Machine.State) (hk : Keeps σ s) : Keeps σ (updReset s) := by
  unfold updReset
  try dsimp only
  with_reducible repeat' first
    | assumption
    | apply Keeps.ite
    | apply resetAt_keeps
    | apply recordCause_keeps
    | simp only [Keeps.lit]
    | refine Keeps.foldl (fun _ _ _ => ?_) _ ?_
    | refine Keeps.of_pair ‹_ = (_, _)› ?_
    | (split)
    | (intro _ _ _)
    | (intro _ _)

theorem updStateAct_keeps {σ : State} (u : Sys2Proof.UpdMsg) (s : Sys2Proof.Machine.State) (hk : Keeps σ s) : Keeps σ (updStateAct u s) := by
  unfold updStateAct
  try dsimp only
  with_reducible repeat' first
    | assumption
    | apply Keeps.ite
    | apply decideRevert_keeps
    | apply confirmNow_keeps
    | apply updReset_keeps
    | apply revertRecord_keeps
    | apply commitNow_keeps
    | apply abortNow_keeps
    | simp only [Keeps.lit]
    | refine Keeps.foldl (fun _ _ _ => ?_) _ ?_
    | refine Keeps.of_pair ‹_ = (_, _)› ?_
    | (split)
    | (intro _ _ _)
    | (intro _ _)

theorem updVoteAct_keeps {σ : State} (u : Sys2Proof.UpdMsg) (s : Sys2Proof.Machine.State) (hk : Keeps σ s) : Keeps σ (updVoteAct u s) := by
  unfold updVoteAct
  try dsimp only
  with_reducible repeat' first
    | assumption
    | apply Keeps.ite
    | apply updKnown_keeps
    | apply atCoord_keeps
    | apply decideRevert_keeps
    | apply decideStep_keeps
    | simp only [Keeps.lit]
    | refine Keeps.foldl (fun _ _ _ => ?_) _ ?_
    | refine Keeps.of_pair ‹_ = (_, _)› ?_
    | (split)
    | (intro _ _ _)
    | (intro _ _)

theorem updAct_keeps {σ : State} (sub : Nat) (u : Sys2Proof.UpdMsg) (s : Sys2Proof.Machine.State) (hk : Keeps σ s) : Keeps σ (updAct sub u s) := by
  unfold updAct
  try dsimp only
  with_reducible repeat' first
    | assumption
    | apply Keeps.ite
    | apply updPrepareAct_keeps
    | apply updVoteAct_keeps
    | apply updCommitAct_keeps
    | apply updAbortAct_keeps
    | apply updHealthyAct_keeps
    | apply updConfirmAct_keeps
    | apply updRevertAct_keeps
    | apply updAckAct_keeps
    | apply updFailedAct_keeps
    | apply updQueryAct_keeps
    | apply updStateAct_keeps
    | simp only [Keeps.lit]
    | refine Keeps.foldl (fun _ _ _ => ?_) _ ?_
    | refine Keeps.of_pair ‹_ = (_, _)› ?_
    | (split)
    | (intro _ _ _)
    | (intro _ _)

theorem updGate_keeps {σ : State} (sub : Nat) (u : Sys2Proof.UpdMsg) (s : Sys2Proof.Machine.State) (f : Sys2Proof.Machine.State → Sys2Proof.Machine.State) (hf_f : ∀ t, Keeps σ t → Keeps σ (f t)) (hk : Keeps σ s) : Keeps σ (updGate sub u s f) := by
  unfold updGate
  try dsimp only
  with_reducible repeat' first
    | assumption
    | apply Keeps.ite
    | apply hf_f
    | simp only [Keeps.lit]
    | refine Keeps.foldl (fun _ _ _ => ?_) _ ?_
    | refine Keeps.of_pair ‹_ = (_, _)› ?_
    | (split)
    | (intro _ _ _)
    | (intro _ _)

theorem updReceive_keeps {σ : State} (sub : Nat) (u : Sys2Proof.UpdMsg) (s : Sys2Proof.Machine.State) (hk : Keeps σ s) : Keeps σ (updReceive sub u s) := by
  unfold updReceive
  try dsimp only
  with_reducible repeat' first
    | assumption
    | apply Keeps.ite
    | apply updGate_keeps
    | apply updAct_keeps
    | simp only [Keeps.lit]
    | refine Keeps.foldl (fun _ _ _ => ?_) _ ?_
    | refine Keeps.of_pair ‹_ = (_, _)› ?_
    | (split)
    | (intro _ _ _)
    | (intro _ _)

theorem execUpdHealthy_runs {σ : State} (u : Sys2Proof.UpdMsg) (s : Sys2Proof.Machine.State) (hk : Keeps σ s) : Runs σ (execUpdHealthy u s) := by
  unfold execUpdHealthy
  try dsimp only
  with_reducible repeat' first
    | assumption
    | apply Runs.next
    | apply Runs.ite
    | apply Keeps.ite
    | apply updReceive_keeps
    | simp only [Keeps.lit]
    | refine Keeps.foldl (fun _ _ _ => ?_) _ ?_
    | refine Keeps.of_pair ‹_ = (_, _)› ?_
    | (split)
    | (intro _ _ _)
    | (intro _ _)

theorem execUpdQuery_runs {σ : State} (u : Sys2Proof.UpdMsg) (s : Sys2Proof.Machine.State) (hk : Keeps σ s) : Runs σ (execUpdQuery u s) := by
  unfold execUpdQuery
  try dsimp only
  with_reducible repeat' first
    | assumption
    | apply Runs.next
    | apply Runs.ite
    | apply Keeps.ite
    | apply updReceive_keeps
    | simp only [Keeps.lit]
    | refine Keeps.foldl (fun _ _ _ => ?_) _ ?_
    | refine Keeps.of_pair ‹_ = (_, _)› ?_
    | (split)
    | (intro _ _ _)
    | (intro _ _)

theorem watchCoord_keeps {σ : State} (s : Sys2Proof.Machine.State) (hk : Keeps σ s) : Keeps σ (watchCoord s) := by
  unfold watchCoord
  try dsimp only
  with_reducible repeat' first
    | assumption
    | apply Keeps.ite
    | simp only [Keeps.lit]
    | refine Keeps.foldl (fun _ _ _ => ?_) _ ?_
    | refine Keeps.of_pair ‹_ = (_, _)› ?_
    | (split)
    | (intro _ _ _)
    | (intro _ _)

theorem execOrphanQuery_runs {σ : State} (s0 : Sys2Proof.Machine.State) (hk : Keeps σ s0) : Runs σ (execOrphanQuery s0) := by
  unfold execOrphanQuery
  try dsimp only
  with_reducible repeat' first
    | assumption
    | apply Runs.next
    | apply Runs.ite
    | apply Keeps.ite
    | apply watchCoord_keeps
    | apply sendUpdAll_keeps
    | simp only [Keeps.lit]
    | refine Keeps.foldl (fun _ _ _ => ?_) _ ?_
    | refine Keeps.of_pair ‹_ = (_, _)› ?_
    | (split)
    | (intro _ _ _)
    | (intro _ _)

theorem execPreparedTimeout_runs {σ : State} (s : Sys2Proof.Machine.State) (hk : Keeps σ s) : Runs σ (execPreparedTimeout s) := by
  unfold execPreparedTimeout
  try dsimp only
  with_reducible repeat' first
    | assumption
    | apply Runs.next
    | apply Runs.ite
    | apply Keeps.ite
    | apply abortNow_keeps
    | simp only [Keeps.lit]
    | refine Keeps.foldl (fun _ _ _ => ?_) _ ?_
    | refine Keeps.of_pair ‹_ = (_, _)› ?_
    | (split)
    | (intro _ _ _)
    | (intro _ _)

theorem execWindowExpiry_runs {σ : State} (s : Sys2Proof.Machine.State) (hk : Keeps σ s) : Runs σ (execWindowExpiry s) := by
  unfold execWindowExpiry
  try dsimp only
  with_reducible repeat' first
    | assumption
    | apply Runs.next
    | apply Runs.ite
    | apply Keeps.ite
    | apply revertRecord_keeps
    | apply updReset_keeps
    | simp only [Keeps.lit]
    | refine Keeps.foldl (fun _ _ _ => ?_) _ ?_
    | refine Keeps.of_pair ‹_ = (_, _)› ?_
    | (split)
    | (intro _ _ _)
    | (intro _ _)

theorem stopWindow_keeps {σ : State} (s : Sys2Proof.Machine.State) (hk : Keeps σ s) : Keeps σ (stopWindow s) := by
  unfold stopWindow
  try dsimp only
  with_reducible repeat' first
    | assumption
    | apply Keeps.ite
    | simp only [Keeps.lit]
    | refine Keeps.foldl (fun _ _ _ => ?_) _ ?_
    | refine Keeps.of_pair ‹_ = (_, _)› ?_
    | (split)
    | (intro _ _ _)
    | (intro _ _)

theorem healthyStep_keeps {σ : State} (s : Sys2Proof.Machine.State) (hk : Keeps σ s) : Keeps σ (healthyStep s) := by
  unfold healthyStep
  try dsimp only
  with_reducible repeat' first
    | assumption
    | apply Keeps.ite
    | apply stopWindow_keeps
    | apply journalPut_keeps
    | apply sendUpd_keeps
    | simp only [Keeps.lit]
    | refine Keeps.foldl (fun _ _ _ => ?_) _ ?_
    | refine Keeps.of_pair ‹_ = (_, _)› ?_
    | (split)
    | (intro _ _ _)
    | (intro _ _)

theorem closeStep_keeps {σ : State} (s : Sys2Proof.Machine.State) (hk : Keeps σ s) : Keeps σ (closeStep s) := by
  unfold closeStep
  try dsimp only
  with_reducible repeat' first
    | assumption
    | apply Keeps.ite
    | apply partDone_keeps
    | apply State.storeList_keeps
    | apply setVerified_keeps
    | apply memBurst_keeps
    | simp only [Keeps.lit]
    | refine Keeps.foldl (fun _ _ _ => ?_) _ ?_
    | refine Keeps.of_pair ‹_ = (_, _)› ?_
    | (split)
    | (intro _ _ _)
    | (intro _ _)

theorem execUpdConfirm_runs {σ : State} (u : Sys2Proof.UpdMsg) (s : Sys2Proof.Machine.State) (hk : Keeps σ s) : Runs σ (execUpdConfirm u s) := by
  unfold execUpdConfirm
  try dsimp only
  with_reducible repeat' first
    | assumption
    | apply Runs.next
    | apply Runs.ite
    | apply Keeps.ite
    | apply updReceive_keeps
    | simp only [Keeps.lit]
    | refine Keeps.foldl (fun _ _ _ => ?_) _ ?_
    | refine Keeps.of_pair ‹_ = (_, _)› ?_
    | (split)
    | (intro _ _ _)
    | (intro _ _)

theorem execUpdVote_runs {σ : State} (u : Sys2Proof.UpdMsg) (s : Sys2Proof.Machine.State) (hk : Keeps σ s) : Runs σ (execUpdVote u s) := by
  unfold execUpdVote
  try dsimp only
  with_reducible repeat' first
    | assumption
    | apply Runs.next
    | apply Runs.ite
    | apply Keeps.ite
    | apply updReceive_keeps
    | simp only [Keeps.lit]
    | refine Keeps.foldl (fun _ _ _ => ?_) _ ?_
    | refine Keeps.of_pair ‹_ = (_, _)› ?_
    | (split)
    | (intro _ _ _)
    | (intro _ _)

theorem execUpdState_runs {σ : State} (u : Sys2Proof.UpdMsg) (s : Sys2Proof.Machine.State) (hk : Keeps σ s) : Runs σ (execUpdState u s) := by
  unfold execUpdState
  try dsimp only
  with_reducible repeat' first
    | assumption
    | apply Runs.next
    | apply Runs.ite
    | apply Keeps.ite
    | apply updReceive_keeps
    | simp only [Keeps.lit]
    | refine Keeps.foldl (fun _ _ _ => ?_) _ ?_
    | refine Keeps.of_pair ‹_ = (_, _)› ?_
    | (split)
    | (intro _ _ _)
    | (intro _ _)

theorem sendWaiting_keeps {σ : State} (s : Sys2Proof.Machine.State) (hk : Keeps σ s) : Keeps σ (sendWaiting s) := by
  unfold sendWaiting
  try dsimp only
  with_reducible repeat' first
    | assumption
    | apply Keeps.ite
    | apply sendUpd_keeps
    | simp only [Keeps.lit]
    | refine Keeps.foldl (fun _ _ _ => ?_) _ ?_
    | refine Keeps.of_pair ‹_ = (_, _)› ?_
    | (split)
    | (intro _ _ _)
    | (intro _ _)

theorem execUpdResend_runs {σ : State} (s : Sys2Proof.Machine.State) (hk : Keeps σ s) : Runs σ (execUpdResend s) := by
  unfold execUpdResend
  try dsimp only
  with_reducible repeat' first
    | assumption
    | apply Runs.next
    | apply Runs.ite
    | apply Keeps.ite
    | apply sendUpdAll_keeps
    | apply sendWaiting_keeps
    | simp only [Keeps.lit]
    | refine Keeps.foldl (fun _ _ _ => ?_) _ ?_
    | refine Keeps.of_pair ‹_ = (_, _)› ?_
    | (split)
    | (intro _ _ _)
    | (intro _ _)

theorem execUpdPrepare_runs {σ : State} (u : Sys2Proof.UpdMsg) (s : Sys2Proof.Machine.State) (hk : Keeps σ s) : Runs σ (execUpdPrepare u s) := by
  unfold execUpdPrepare
  try dsimp only
  with_reducible repeat' first
    | assumption
    | apply Runs.next
    | apply Runs.ite
    | apply Keeps.ite
    | apply updReceive_keeps
    | simp only [Keeps.lit]
    | refine Keeps.foldl (fun _ _ _ => ?_) _ ?_
    | refine Keeps.of_pair ‹_ = (_, _)› ?_
    | (split)
    | (intro _ _ _)
    | (intro _ _)

theorem readParts_keeps {σ : State} (s : Sys2Proof.Machine.State) (hk : Keeps σ s) : Keeps σ (readParts s) := by
  unfold readParts
  try dsimp only
  with_reducible repeat' first
    | assumption
    | apply Keeps.ite
    | apply updRead_keeps
    | simp only [Keeps.lit]
    | refine Keeps.foldl (fun _ _ _ => ?_) _ ?_
    | refine Keeps.of_pair ‹_ = (_, _)› ?_
    | (split)
    | (intro _ _ _)
    | (intro _ _)

theorem prepareStep_keeps {σ : State} (s0 : Sys2Proof.Machine.State) (hk : Keeps σ s0) : Keeps σ (prepareStep s0) := by
  unfold prepareStep
  try dsimp only
  with_reducible repeat' first
    | assumption
    | apply Keeps.ite
    | apply readParts_keeps
    | apply updRead_keeps
    | apply partDone_keeps
    | apply setVerified_keeps
    | apply State.setRegBit_keeps
    | simp only [Keeps.lit]
    | refine Keeps.foldl (fun _ _ _ => ?_) _ ?_
    | refine Keeps.of_pair ‹_ = (_, _)› ?_
    | (split)
    | (intro _ _ _)
    | (intro _ _)

theorem startStep_keeps {σ : State} (s : Sys2Proof.Machine.State) (hk : Keeps σ s) : Keeps σ (startStep s) := by
  unfold startStep
  try dsimp only
  with_reducible repeat' first
    | assumption
    | apply Keeps.ite
    | apply enterStep_keeps
    | simp only [Keeps.lit]
    | refine Keeps.foldl (fun _ _ _ => ?_) _ ?_
    | refine Keeps.of_pair ‹_ = (_, _)› ?_
    | (split)
    | (intro _ _ _)
    | (intro _ _)

theorem updOp_keeps {σ : State} (op : Nat) (s : Sys2Proof.Machine.State) (hk : Keeps σ s) : Keeps σ (updOp op s) := by
  unfold updOp
  try dsimp only
  with_reducible repeat' first
    | assumption
    | apply Keeps.ite
    | apply openStep_keeps
    | apply closeStep_keeps
    | apply partDone_keeps
    | apply prepareStep_keeps
    | apply startStep_keeps
    | apply healthyStep_keeps
    | simp only [Keeps.lit]
    | refine Keeps.foldl (fun _ _ _ => ?_) _ ?_
    | refine Keeps.of_pair ‹_ = (_, _)› ?_
    | (split)
    | (intro _ _ _)
    | (intro _ _)

theorem updCmd_keeps {σ : State} (r : Sys2Proof.Requester) (v : Sys2Proof.Word) (s : Sys2Proof.Machine.State) (hk : Keeps σ s) : Keeps σ (updCmd r v s) := by
  unfold updCmd
  try dsimp only
  with_reducible repeat' first
    | assumption
    | apply Keeps.ite
    | apply State.setRegFld_keeps
    | apply updOp_keeps
    | simp only [Keeps.lit]
    | refine Keeps.foldl (fun _ _ _ => ?_) _ ?_
    | refine Keeps.of_pair ‹_ = (_, _)› ?_
    | (split)
    | (intro _ _ _)
    | (intro _ _)

theorem retryUpd_keeps {σ : State} (s : Sys2Proof.Machine.State) (hk : Keeps σ s) : Keeps σ (retryUpd s) := by
  unfold retryUpd
  try dsimp only
  with_reducible repeat' first
    | assumption
    | apply Keeps.ite
    | apply updOp_keeps
    | apply updReceive_keeps
    | simp only [Keeps.lit]
    | refine Keeps.foldl (fun _ _ _ => ?_) _ ?_
    | refine Keeps.of_pair ‹_ = (_, _)› ?_
    | (split)
    | (intro _ _ _)
    | (intro _ _)

theorem updTime_keeps {σ : State} (s : Sys2Proof.Machine.State) (hk : Keeps σ s) : Keeps σ (updTime s) := by
  unfold updTime
  try dsimp only
  with_reducible repeat' first
    | assumption
    | apply Keeps.ite
    | apply watchCoord_keeps
    | apply retryUpd_keeps
    | apply updReset_keeps
    | simp only [Keeps.lit]
    | refine Keeps.foldl (fun _ _ _ => ?_) _ ?_
    | refine Keeps.of_pair ‹_ = (_, _)› ?_
    | (split)
    | (intro _ _ _)
    | (intro _ _)

theorem execUpdFailed_runs {σ : State} (u : Sys2Proof.UpdMsg) (s : Sys2Proof.Machine.State) (hk : Keeps σ s) : Runs σ (execUpdFailed u s) := by
  unfold execUpdFailed
  try dsimp only
  with_reducible repeat' first
    | assumption
    | apply Runs.next
    | apply Runs.ite
    | apply Keeps.ite
    | apply updReceive_keeps
    | simp only [Keeps.lit]
    | refine Keeps.foldl (fun _ _ _ => ?_) _ ?_
    | refine Keeps.of_pair ‹_ = (_, _)› ?_
    | (split)
    | (intro _ _ _)
    | (intro _ _)

theorem execUpdAbort_runs {σ : State} (u : Sys2Proof.UpdMsg) (s : Sys2Proof.Machine.State) (hk : Keeps σ s) : Runs σ (execUpdAbort u s) := by
  unfold execUpdAbort
  try dsimp only
  with_reducible repeat' first
    | assumption
    | apply Runs.next
    | apply Runs.ite
    | apply Keeps.ite
    | apply updReceive_keeps
    | simp only [Keeps.lit]
    | refine Keeps.foldl (fun _ _ _ => ?_) _ ?_
    | refine Keeps.of_pair ‹_ = (_, _)› ?_
    | (split)
    | (intro _ _ _)
    | (intro _ _)

theorem execPrepareComplete_runs {σ : State} (ok : Bool) (s : Sys2Proof.Machine.State) (hk : Keeps σ s) : Runs σ (execPrepareComplete ok s) := by
  unfold execPrepareComplete
  try dsimp only
  with_reducible repeat' first
    | assumption
    | apply Runs.next
    | apply Runs.ite
    | apply Keeps.ite
    | apply State.setRegBit_keeps
    | apply State.clearMem_keeps
    | apply memBurst_keeps
    | apply State.storeList_keeps
    | apply partDone_keeps
    | apply journalPut_keeps
    | apply leaveUndefined_keeps
    | simp only [Keeps.lit]
    | refine Keeps.foldl (fun _ _ _ => ?_) _ ?_
    | refine Keeps.of_pair ‹_ = (_, _)› ?_
    | (split)
    | (intro _ _ _)
    | (intro _ _)

theorem execUpdAck_runs {σ : State} (u : Sys2Proof.UpdMsg) (s : Sys2Proof.Machine.State) (hk : Keeps σ s) : Runs σ (execUpdAck u s) := by
  unfold execUpdAck
  try dsimp only
  with_reducible repeat' first
    | assumption
    | apply Runs.next
    | apply Runs.ite
    | apply Keeps.ite
    | apply updReceive_keeps
    | simp only [Keeps.lit]
    | refine Keeps.foldl (fun _ _ _ => ?_) _ ?_
    | refine Keeps.of_pair ‹_ = (_, _)› ?_
    | (split)
    | (intro _ _ _)
    | (intro _ _)

theorem execUpdCommit_runs {σ : State} (u : Sys2Proof.UpdMsg) (s : Sys2Proof.Machine.State) (hk : Keeps σ s) : Runs σ (execUpdCommit u s) := by
  unfold execUpdCommit
  try dsimp only
  with_reducible repeat' first
    | assumption
    | apply Runs.next
    | apply Runs.ite
    | apply Keeps.ite
    | apply updReceive_keeps
    | simp only [Keeps.lit]
    | refine Keeps.foldl (fun _ _ _ => ?_) _ ?_
    | refine Keeps.of_pair ‹_ = (_, _)› ?_
    | (split)
    | (intro _ _ _)
    | (intro _ _)

theorem execVoteTimeout_runs {σ : State} (s : Sys2Proof.Machine.State) (hk : Keeps σ s) : Runs σ (execVoteTimeout s) := by
  unfold execVoteTimeout
  try dsimp only
  with_reducible repeat' first
    | assumption
    | apply Runs.next
    | apply Runs.ite
    | apply Keeps.ite
    | apply decideRevert_keeps
    | simp only [Keeps.lit]
    | refine Keeps.foldl (fun _ _ _ => ?_) _ ?_
    | refine Keeps.of_pair ‹_ = (_, _)› ?_
    | (split)
    | (intro _ _ _)
    | (intro _ _)

theorem execUpdRevert_runs {σ : State} (u : Sys2Proof.UpdMsg) (s : Sys2Proof.Machine.State) (hk : Keeps σ s) : Runs σ (execUpdRevert u s) := by
  unfold execUpdRevert
  try dsimp only
  with_reducible repeat' first
    | assumption
    | apply Runs.next
    | apply Runs.ite
    | apply Keeps.ite
    | apply updReceive_keeps
    | simp only [Keeps.lit]
    | refine Keeps.foldl (fun _ _ _ => ?_) _ ?_
    | refine Keeps.of_pair ‹_ = (_, _)› ?_
    | (split)
    | (intro _ _ _)
    | (intro _ _)

theorem execHealthDeadline_runs {σ : State} (s : Sys2Proof.Machine.State) (hk : Keeps σ s) : Runs σ (execHealthDeadline s) := by
  unfold execHealthDeadline
  try dsimp only
  with_reducible repeat' first
    | assumption
    | apply Runs.next
    | apply Runs.ite
    | apply Keeps.ite
    | apply decideRevert_keeps
    | simp only [Keeps.lit]
    | refine Keeps.foldl (fun _ _ _ => ?_) _ ?_
    | refine Keeps.of_pair ‹_ = (_, _)› ?_
    | (split)
    | (intro _ _ _)
    | (intro _ _)

end Sys2Proof.Machine
end

