-- ==== Sys2Proof/Laws/KeepsValve.lean ====
section
/-! SUPPORT. Every operation of Machine/Valve.lean keeps what a command keeps. -/

set_option linter.all false

namespace Sys2Proof.Machine

theorem bankOff_keeps {σ : State} (k : Nat) (s : Sys2Proof.Machine.State) (hk : Keeps σ s) : Keeps σ (bankOff k s) := by
  unfold bankOff
  try dsimp only
  with_reducible repeat' first
    | assumption
    | apply Keeps.ite
    | apply State.modChan_keeps
    | apply actStop_keeps
    | simp only [Keeps.lit]
    | refine Keeps.foldl (fun _ _ _ => ?_) _ ?_
    | refine Keeps.of_pair ‹_ = (_, _)› ?_
    | (split)
    | (intro _ _ _)
    | (intro _ _)

theorem newLock_keeps {σ : State} (k : Nat) (was : Bool) (s : Sys2Proof.Machine.State) (hk : Keeps σ s) : Keeps σ (newLock k was s) := by
  unfold newLock
  try dsimp only
  with_reducible repeat' first
    | assumption
    | apply Keeps.ite
    | apply bankLocks_keeps
    | apply actEvent_keeps
    | simp only [Keeps.lit]
    | refine Keeps.foldl (fun _ _ _ => ?_) _ ?_
    | refine Keeps.of_pair ‹_ = (_, _)› ?_
    | (split)
    | (intro _ _ _)
    | (intro _ _)

theorem valveTrip_keeps {σ : State} (n : Nat) (code : Nat) (s : Sys2Proof.Machine.State) (hk : Keeps σ s) : Keeps σ (valveTrip n code s) := by
  unfold valveTrip
  try dsimp only
  with_reducible repeat' first
    | assumption
    | apply Keeps.ite
    | apply countedTrip_keeps
    | apply newLock_keeps
    | apply bankOff_keeps
    | apply State.modBank_keeps
    | simp only [Keeps.lit]
    | refine Keeps.foldl (fun _ _ _ => ?_) _ ?_
    | refine Keeps.of_pair ‹_ = (_, _)› ?_
    | (split)
    | (intro _ _ _)
    | (intro _ _)

theorem execVlShortGndTrip_runs {σ : State} (n : Fin 16) (v : Nat) (us : Nat) (s : Sys2Proof.Machine.State) (hk : Keeps σ s) : Runs σ (execVlShortGndTrip n v us s) := by
  unfold execVlShortGndTrip
  try dsimp only
  with_reducible repeat' first
    | assumption
    | apply Runs.next
    | apply Runs.ite
    | apply Keeps.ite
    | apply State.setChan_keeps
    | apply valveTrip_keeps
    | simp only [Keeps.lit]
    | refine Keeps.foldl (fun _ _ _ => ?_) _ ?_
    | refine Keeps.of_pair ‹_ = (_, _)› ?_
    | (split)
    | (intro _ _ _)
    | (intro _ _)

theorem bankLatchSet_keeps {σ : State} (k : Fin 4) (a : Sys2Proof.Therm) (b : Sys2Proof.Therm) (s : Sys2Proof.Machine.State) (hk : Keeps σ s) : Keeps σ (bankLatchSet k a b s) := by
  unfold bankLatchSet
  try dsimp only
  with_reducible repeat' first
    | assumption
    | apply Keeps.ite
    | apply actEvent_keeps
    | apply State.raiseIsl_keeps
    | apply bankOff_keeps
    | apply State.modBank_keeps
    | simp only [Keeps.lit]
    | refine Keeps.foldl (fun _ _ _ => ?_) _ ?_
    | refine Keeps.of_pair ‹_ = (_, _)› ?_
    | (split)
    | (intro _ _ _)
    | (intro _ _)

theorem execBoostFault_runs {σ : State} (vbst : Nat) (s : Sys2Proof.Machine.State) (hk : Keeps σ s) : Runs σ (execBoostFault vbst s) := by
  unfold execBoostFault
  try dsimp only
  with_reducible repeat' first
    | assumption
    | apply Runs.next
    | apply Runs.ite
    | apply Keeps.ite
    | apply boostMeasure_keeps
    | apply actEvent_keeps
    | apply State.level_keeps
    | apply State.setRegBit_keeps
    | simp only [Keeps.lit]
    | refine Keeps.foldl (fun _ _ _ => ?_) _ ?_
    | refine Keeps.of_pair ‹_ = (_, _)› ?_
    | (split)
    | (intro _ _ _)
    | (intro _ _)

theorem afterPeak_keeps {σ : State} (s : Sys2Proof.Machine.State) (hk : Keeps σ s) : Keeps σ (afterPeak s) := by
  unfold afterPeak
  try dsimp only
  with_reducible repeat' first
    | assumption
    | apply Keeps.ite
    | apply actSchedule_keeps
    | simp only [Keeps.lit]
    | refine Keeps.foldl (fun _ _ _ => ?_) _ ?_
    | refine Keeps.of_pair ‹_ = (_, _)› ?_
    | (split)
    | (intro _ _ _)
    | (intro _ _)

theorem endPeak_keeps {σ : State} (n : Nat) (drawn : Nat) (s : Sys2Proof.Machine.State) (hk : Keeps σ s) : Keeps σ (endPeak n drawn s) := by
  unfold endPeak
  try dsimp only
  with_reducible repeat' first
    | assumption
    | apply Keeps.ite
    | apply State.setReg_keeps
    | apply State.modChan_keeps
    | apply State.modValve_keeps
    | simp only [Keeps.lit]
    | refine Keeps.foldl (fun _ _ _ => ?_) _ ?_
    | refine Keeps.of_pair ‹_ = (_, _)› ?_
    | (split)
    | (intro _ _ _)
    | (intro _ _)

theorem actMeasure_keeps {σ : State} (n : Nat) (m : Sys2Proof.Measure) (s : Sys2Proof.Machine.State) (hk : Keeps σ s) : Keeps σ (actMeasure n m s) := by
  unfold actMeasure
  try dsimp only
  with_reducible repeat' first
    | assumption
    | apply Keeps.ite
    | apply State.setReg_keeps
    | apply holdChop_keeps
    | apply State.modValve_keeps
    | apply afterPeak_keeps
    | apply evidence_keeps
    | apply State.setRegBit_keeps
    | apply endPeak_keeps
    | simp only [Keeps.lit]
    | refine Keeps.foldl (fun _ _ _ => ?_) _ ?_
    | refine Keeps.of_pair ‹_ = (_, _)› ?_
    | (split)
    | (intro _ _ _)
    | (intro _ _)

theorem actJudge_keeps {σ : State} (n : Nat) (v : Nat) (s : Sys2Proof.Machine.State) (hk : Keeps σ s) : Keeps σ (actJudge n v s) := by
  unfold actJudge
  try dsimp only
  with_reducible repeat' first
    | assumption
    | apply Keeps.ite
    | apply evidence_keeps
    | simp only [Keeps.lit]
    | refine Keeps.foldl (fun _ _ _ => ?_) _ ?_
    | refine Keeps.of_pair ‹_ = (_, _)› ?_
    | (split)
    | (intro _ _ _)
    | (intro _ _)

theorem actOffCheck_keeps {σ : State} (n : Nat) (v : Nat) (rv : Option Nat) (s : Sys2Proof.Machine.State) (hk : Keeps σ s) : Keeps σ (actOffCheck n v rv s) := by
  unfold actOffCheck
  try dsimp only
  with_reducible repeat' first
    | assumption
    | apply Keeps.ite
    | apply evidence_keeps
    | apply noteOff_keeps
    | apply State.modChan_keeps
    | apply actJudge_keeps
    | simp only [Keeps.lit]
    | refine Keeps.foldl (fun _ _ _ => ?_) _ ?_
    | refine Keeps.of_pair ‹_ = (_, _)› ?_
    | (split)
    | (intro _ _ _)
    | (intro _ _)

theorem execRailShortTrip_runs {σ : State} (k : Fin 4) (i : Nat) (v : Nat) (s : Sys2Proof.Machine.State) (hk : Keeps σ s) : Runs σ (execRailShortTrip k i v s) := by
  unfold execRailShortTrip
  try dsimp only
  with_reducible repeat' first
    | assumption
    | apply Runs.next
    | apply Runs.ite
    | apply Keeps.ite
    | apply bankOff_keeps
    | apply newLock_keeps
    | apply State.modBank_keeps
    | simp only [Keeps.lit]
    | refine Keeps.foldl (fun _ _ _ => ?_) _ ?_
    | refine Keeps.of_pair ‹_ = (_, _)› ?_
    | (split)
    | (intro _ _ _)
    | (intro _ _)

theorem bankLatchClear_keeps {σ : State} (k : Fin 4) (a : Sys2Proof.Therm) (b : Sys2Proof.Therm) (s : Sys2Proof.Machine.State) (hk : Keeps σ s) : Keeps σ (bankLatchClear k a b s) := by
  unfold bankLatchClear
  try dsimp only
  with_reducible repeat' first
    | assumption
    | apply Keeps.ite
    | apply tryBank_keeps
    | apply State.modBank_keeps
    | simp only [Keeps.lit]
    | refine Keeps.foldl (fun _ _ _ => ?_) _ ?_
    | refine Keeps.of_pair ‹_ = (_, _)› ?_
    | (split)
    | (intro _ _ _)
    | (intro _ _)

theorem actShortTrip_keeps {σ : State} (n : Nat) (side : Sys2Proof.Side) (i : Nat) (s : Sys2Proof.Machine.State) (hk : Keeps σ s) : Keeps σ (actShortTrip n side i s) := by
  unfold actShortTrip
  try dsimp only
  with_reducible repeat' first
    | assumption
    | apply Keeps.ite
    | apply afterPeak_keeps
    | apply valveTrip_keeps
    | simp only [Keeps.lit]
    | refine Keeps.foldl (fun _ _ _ => ?_) _ ?_
    | refine Keeps.of_pair ‹_ = (_, _)› ?_
    | (split)
    | (intro _ _ _)
    | (intro _ _)

theorem railQuiet_keeps {σ : State} (s : Sys2Proof.Machine.State) (hk : Keeps σ s) : Keeps σ (railQuiet s) := by
  unfold railQuiet
  try dsimp only
  with_reducible repeat' first
    | assumption
    | apply Keeps.ite
    | apply State.modBank_keeps
    | simp only [Keeps.lit]
    | refine Keeps.foldl (fun _ _ _ => ?_) _ ?_
    | refine Keeps.of_pair ‹_ = (_, _)› ?_
    | (split)
    | (intro _ _ _)
    | (intro _ _)

theorem endPulse_keeps {σ : State} (n : Nat) (s : Sys2Proof.Machine.State) (hk : Keeps σ s) : Keeps σ (endPulse n s) := by
  unfold endPulse
  try dsimp only
  with_reducible repeat' first
    | assumption
    | apply Keeps.ite
    | apply stopChan_keeps
    | simp only [Keeps.lit]
    | refine Keeps.foldl (fun _ _ _ => ?_) _ ?_
    | refine Keeps.of_pair ‹_ = (_, _)› ?_
    | (split)
    | (intro _ _ _)
    | (intro _ _)

theorem execBoostUnderClear_runs {σ : State} (vbst : Nat) (s : Sys2Proof.Machine.State) (hk : Keeps σ s) : Runs σ (execBoostUnderClear vbst s) := by
  unfold execBoostUnderClear
  try dsimp only
  with_reducible repeat' first
    | assumption
    | apply Runs.next
    | apply Runs.ite
    | apply Keeps.ite
    | apply boostMeasure_keeps
    | simp only [Keeps.lit]
    | refine Keeps.foldl (fun _ _ _ => ?_) _ ?_
    | refine Keeps.of_pair ‹_ = (_, _)› ?_
    | (split)
    | (intro _ _ _)
    | (intro _ _)

theorem execBoostUnder_runs {σ : State} (vbst : Nat) (s : Sys2Proof.Machine.State) (hk : Keeps σ s) : Runs σ (execBoostUnder vbst s) := by
  unfold execBoostUnder
  try dsimp only
  with_reducible repeat' first
    | assumption
    | apply Runs.next
    | apply Runs.ite
    | apply Keeps.ite
    | apply boostMeasure_keeps
    | simp only [Keeps.lit]
    | refine Keeps.foldl (fun _ _ _ => ?_) _ ?_
    | refine Keeps.of_pair ‹_ = (_, _)› ?_
    | (split)
    | (intro _ _ _)
    | (intro _ _)

theorem execPeakStart_runs {σ : State} (n : Fin 16) (vbst : Nat) (s : Sys2Proof.Machine.State) (hk : Keeps σ s) : Runs σ (execPeakStart n vbst s) := by
  unfold execPeakStart
  try dsimp only
  with_reducible repeat' first
    | assumption
    | apply Runs.next
    | apply Runs.ite
    | apply Keeps.ite
    | apply actSchedule_keeps
    | apply boostMeasure_keeps
    | simp only [Keeps.lit]
    | refine Keeps.foldl (fun _ _ _ => ?_) _ ?_
    | refine Keeps.of_pair ‹_ = (_, _)› ?_
    | (split)
    | (intro _ _ _)
    | (intro _ _)

theorem execPeakAbandon_runs {σ : State} (n : Fin 16) (s : Sys2Proof.Machine.State) (hk : Keeps σ s) : Runs σ (execPeakAbandon n s) := by
  unfold execPeakAbandon
  try dsimp only
  with_reducible repeat' first
    | assumption
    | apply Runs.next
    | apply Runs.ite
    | apply Keeps.ite
    | apply State.modBank_keeps
    | apply State.modValve_keeps
    | apply State.setRegBit_keeps
    | apply State.modChan_keeps
    | apply actEvent_keeps
    | apply State.raise_keeps
    | simp only [Keeps.lit]
    | refine Keeps.foldl (fun _ _ _ => ?_) _ ?_
    | refine Keeps.of_pair ‹_ = (_, _)› ?_
    | (split)
    | (intro _ _ _)
    | (intro _ _)

theorem execRailRetry_runs {σ : State} (k : Fin 4) (s : Sys2Proof.Machine.State) (hk : Keeps σ s) : Runs σ (execRailRetry k s) := by
  unfold execRailRetry
  try dsimp only
  with_reducible repeat' first
    | assumption
    | apply Runs.next
    | apply Runs.ite
    | apply Keeps.ite
    | apply tryBank_keeps
    | apply State.modBank_keeps
    | simp only [Keeps.lit]
    | refine Keeps.foldl (fun _ _ _ => ?_) _ ?_
    | refine Keeps.of_pair ‹_ = (_, _)› ?_
    | (split)
    | (intro _ _ _)
    | (intro _ _)

theorem actLimitTrip_keeps {σ : State} (_n : Nat) (s : Sys2Proof.Machine.State) (hk : Keeps σ s) : Keeps σ (actLimitTrip _n s) := by
  unfold actLimitTrip
  try dsimp only
  with_reducible repeat' first
    | assumption
    | apply Keeps.ite
    | simp only [Keeps.lit]
    | refine Keeps.foldl (fun _ _ _ => ?_) _ ?_
    | refine Keeps.of_pair ‹_ = (_, _)› ?_
    | (split)
    | (intro _ _ _)
    | (intro _ _)

theorem execPeakEnd_runs {σ : State} (n : Fin 16) (why : Sys2Proof.PeakEnd) (drawn : Nat) (vbst : Nat) (s : Sys2Proof.Machine.State) (hk : Keeps σ s) : Runs σ (execPeakEnd n why drawn vbst s) := by
  unfold execPeakEnd
  try dsimp only
  with_reducible repeat' first
    | assumption
    | apply Runs.next
    | apply Runs.ite
    | apply Keeps.ite
    | apply boostMeasure_keeps
    | apply endPeak_keeps
    | apply State.setRegBit_keeps
    | apply State.setRegFld_keeps
    | apply afterPeak_keeps
    | apply valveTrip_keeps
    | apply evidence_keeps
    | apply endPulse_keeps
    | simp only [Keeps.lit]
    | refine Keeps.foldl (fun _ _ _ => ?_) _ ?_
    | refine Keeps.of_pair ‹_ = (_, _)› ?_
    | (split)
    | (intro _ _ _)
    | (intro _ _)

theorem execBankOffCheck_runs {σ : State} (k : Fin 4) (node : Nat) (s : Sys2Proof.Machine.State) (hk : Keeps σ s) : Runs σ (execBankOffCheck k node s) := by
  unfold execBankOffCheck
  try dsimp only
  with_reducible repeat' first
    | assumption
    | apply Runs.next
    | apply Runs.ite
    | apply Keeps.ite
    | apply State.modBank_keeps
    | simp only [Keeps.lit]
    | refine Keeps.foldl (fun _ _ _ => ?_) _ ?_
    | refine Keeps.of_pair ‹_ = (_, _)› ?_
    | (split)
    | (intro _ _ _)
    | (intro _ _)

theorem bankClr_keeps {σ : State} (r : Sys2Proof.Requester) (v : Sys2Proof.Word) (s : Sys2Proof.Machine.State) (hk : Keeps σ s) : Keeps σ (bankClr r v s) := by
  unfold bankClr
  try dsimp only
  with_reducible repeat' first
    | assumption
    | apply Keeps.ite
    | apply State.setRegBit_keeps
    | apply bankLocks_keeps
    | apply tryBank_keeps
    | apply State.modBank_keeps
    | simp only [Keeps.lit]
    | refine Keeps.foldl (fun _ _ _ => ?_) _ ?_
    | refine Keeps.of_pair ‹_ = (_, _)› ?_
    | (split)
    | (intro _ _ _)
    | (intro _ _)

theorem execPulseEnd_runs {σ : State} (n : Fin 16) (vbst : Nat) (s : Sys2Proof.Machine.State) (hk : Keeps σ s) : Runs σ (execPulseEnd n vbst s) := by
  unfold execPulseEnd
  try dsimp only
  with_reducible repeat' first
    | assumption
    | apply Runs.next
    | apply Runs.ite
    | apply Keeps.ite
    | apply boostMeasure_keeps
    | apply afterPeak_keeps
    | apply endPulse_keeps
    | apply endPeak_keeps
    | simp only [Keeps.lit]
    | refine Keeps.foldl (fun _ _ _ => ?_) _ ?_
    | refine Keeps.of_pair ‹_ = (_, _)› ?_
    | (split)
    | (intro _ _ _)
    | (intro _ _)

theorem execTurnOffEnd_runs {σ : State} (n : Fin 16) (i : Nat) (s : Sys2Proof.Machine.State) (hk : Keeps σ s) : Runs σ (execTurnOffEnd n i s) := by
  unfold execTurnOffEnd
  try dsimp only
  with_reducible repeat' first
    | assumption
    | apply Runs.next
    | apply Runs.ite
    | apply Keeps.ite
    | apply actTry_keeps
    | apply State.modValve_keeps
    | simp only [Keeps.lit]
    | refine Keeps.foldl (fun _ _ _ => ?_) _ ?_
    | refine Keeps.of_pair ‹_ = (_, _)› ?_
    | (split)
    | (intro _ _ _)
    | (intro _ _)

end Sys2Proof.Machine
end

