-- ==== Sys2Proof/Laws/KeepsBusWrite.lean ====
section
/-! SUPPORT. Every operation of Machine/BusWrite.lean keeps what a command keeps. -/

set_option linter.all false

namespace Sys2Proof.Machine

theorem boostWrite_keeps {σ : State} (a : Nat) (v : Sys2Proof.Word) (s : Sys2Proof.Machine.State) (hk : Keeps σ s) : Keeps σ (boostWrite a v s) := by
  unfold boostWrite
  try dsimp only
  with_reducible repeat' first
    | assumption
    | apply Keeps.ite
    | apply boostFollow_keeps
    | apply State.plainWrite_keeps
    | simp only [Keeps.lit]
    | refine Keeps.foldl (fun _ _ _ => ?_) _ ?_
    | refine Keeps.of_pair ‹_ = (_, _)› ?_
    | (split)
    | (intro _ _ _)
    | (intro _ _)

theorem netWrite_keeps {σ : State} (a : Nat) (v : Sys2Proof.Word) (s : Sys2Proof.Machine.State) (hk : Keeps σ s) : Keeps σ (netWrite a v s) := by
  unfold netWrite
  try dsimp only
  with_reducible repeat' first
    | assumption
    | apply Keeps.ite
    | apply canMode_keeps
    | apply txrWp_keeps
    | apply canBorec_keeps
    | apply State.plainWrite_keeps
    | apply ethTc10_keeps
    | apply linHdr_keeps
    | apply linWakeSend_keeps
    | apply linPub_keeps
    | apply netCmd_keeps
    | apply trCtrl_keeps
    | apply trCmd_keeps
    | apply setIso_keeps
    | apply wklCmd_keeps
    | simp only [Keeps.lit]
    | refine Keeps.foldl (fun _ _ _ => ?_) _ ?_
    | refine Keeps.of_pair ‹_ = (_, _)› ?_
    | (split)
    | (intro _ _ _)
    | (intro _ _)

theorem coreWrite_keeps {σ : State} (r : Sys2Proof.Requester) (c : Nat) (k : Nat) (v : Sys2Proof.Word) (s : Sys2Proof.Machine.State) (hk : Keeps σ s) : Keeps σ (coreWrite r c k v s) := by
  unfold coreWrite
  try dsimp only
  with_reducible repeat' first
    | assumption
    | apply Keeps.ite
    | apply timerWrite_keeps
    | apply wdgKick_keeps
    | apply State.plainWrite_keeps
    | simp only [Keeps.lit]
    | refine Keeps.foldl (fun _ _ _ => ?_) _ ?_
    | refine Keeps.of_pair ‹_ = (_, _)› ?_
    | (split)
    | (intro _ _ _)
    | (intro _ _)

theorem keepWrite_keeps {σ : State} (a : Nat) (v : Sys2Proof.Word) (s : Sys2Proof.Machine.State) (hk : Keeps σ s) : Keeps σ (keepWrite a v s) := by
  unfold keepWrite
  try dsimp only
  with_reducible repeat' first
    | assumption
    | apply Keeps.ite
    | apply State.plainWrite_keeps
    | apply safeEnd_keeps
    | apply safeOff_keeps
    | simp only [Keeps.lit]
    | refine Keeps.foldl (fun _ _ _ => ?_) _ ?_
    | refine Keeps.of_pair ‹_ = (_, _)› ?_
    | (split)
    | (intro _ _ _)
    | (intro _ _)

theorem supWrite_keeps {σ : State} (r : Sys2Proof.Requester) (a : Nat) (v : Sys2Proof.Word) (s : Sys2Proof.Machine.State) (hk : Keeps σ s) : Keeps σ (supWrite r a v s) := by
  unfold supWrite
  try dsimp only
  with_reducible repeat' first
    | assumption
    | apply Keeps.ite
    | apply keepWrite_keeps
    | apply coreWrite_keeps
    | apply rstRequest_keeps
    | apply marCtrl_keeps
    | apply otpCmd_keeps
    | apply samplerCmd_keeps
    | apply updCmd_keeps
    | apply spareWrite_keeps
    | apply State.plainWrite_keeps
    | simp only [Keeps.lit]
    | refine Keeps.foldl (fun _ _ _ => ?_) _ ?_
    | refine Keeps.of_pair ‹_ = (_, _)› ?_
    | (split)
    | (intro _ _ _)
    | (intro _ _)

theorem secWrite_keeps {σ : State} (r : Sys2Proof.Requester) (a : Nat) (v : Sys2Proof.Word) (s : Sys2Proof.Machine.State) (hk : Keeps σ s) : Keeps σ (secWrite r a v s) := by
  unfold secWrite
  try dsimp only
  with_reducible repeat' first
    | assumption
    | apply Keeps.ite
    | apply jobStage_keeps
    | apply jobGo_keeps
    | apply accCmd_keeps
    | apply rngArm_keeps
    | apply rngTround_keeps
    | apply spiWrite_keeps
    | apply State.used_keeps
    | apply immoCmd_keeps
    | apply enrCmd_keeps
    | apply ksCmd_keeps
    | apply State.plainWrite_keeps
    | simp only [Keeps.lit]
    | refine Keeps.foldl (fun _ _ _ => ?_) _ ?_
    | refine Keeps.of_pair ‹_ = (_, _)› ?_
    | (split)
    | (intro _ _ _)
    | (intro _ _)

theorem matrixCtrl_keeps {σ : State} (v : Sys2Proof.Word) (s : Sys2Proof.Machine.State) (hk : Keeps σ s) : Keeps σ (matrixCtrl v s) := by
  unfold matrixCtrl
  try dsimp only
  with_reducible repeat' first
    | assumption
    | apply Keeps.ite
    | apply State.plainWrite_keeps
    | simp only [Keeps.lit]
    | refine Keeps.foldl (fun _ _ _ => ?_) _ ?_
    | refine Keeps.of_pair ‹_ = (_, _)› ?_
    | (split)
    | (intro _ _ _)
    | (intro _ _)

theorem outWrite_keeps {σ : State} (r : Sys2Proof.Requester) (a : Nat) (v : Sys2Proof.Word) (s : Sys2Proof.Machine.State) (hk : Keeps σ s) : Keeps σ (outWrite r a v s) := by
  unfold outWrite
  try dsimp only
  with_reducible repeat' first
    | assumption
    | apply Keeps.ite
    | apply bufferWrite_keeps
    | apply boostWrite_keeps
    | apply bankClr_keeps
    | apply gcWrite_keeps
    | apply matrixCtrl_keeps
    | apply fbCmd_keeps
    | apply calCmd_keeps
    | apply State.plainWrite_keeps
    | simp only [Keeps.lit]
    | refine Keeps.foldl (fun _ _ _ => ?_) _ ?_
    | refine Keeps.of_pair ‹_ = (_, _)› ?_
    | (split)
    | (intro _ _ _)
    | (intro _ _)

theorem tickWrite_keeps {σ : State} (a : Nat) (k : Nat) (v : Sys2Proof.Word) (s : Sys2Proof.Machine.State) (hk : Keeps σ s) : Keeps σ (tickWrite a k v s) := by
  unfold tickWrite
  try dsimp only
  with_reducible repeat' first
    | assumption
    | apply Keeps.ite
    | apply startTicks_keeps
    | apply State.plainWrite_keeps
    | simp only [Keeps.lit]
    | refine Keeps.foldl (fun _ _ _ => ?_) _ ?_
    | refine Keeps.of_pair ‹_ = (_, _)› ?_
    | (split)
    | (intro _ _ _)
    | (intro _ _)

theorem aonWrite_keeps {σ : State} (a : Nat) (v : Sys2Proof.Word) (s : Sys2Proof.Machine.State) (hk : Keeps σ s) : Keeps σ (aonWrite a v s) := by
  unfold aonWrite
  try dsimp only
  with_reducible repeat' first
    | assumption
    | apply Keeps.ite
    | apply inputConfig_keeps
    | apply pwrCtrl_keeps
    | apply wakeClear_keeps
    | apply rtcCmd_keeps
    | apply tickWrite_keeps
    | apply State.plainWrite_keeps
    | simp only [Keeps.lit]
    | refine Keeps.foldl (fun _ _ _ => ?_) _ ?_
    | refine Keeps.of_pair ‹_ = (_, _)› ?_
    | (split)
    | (intro _ _ _)
    | (intro _ _)

theorem fldWrite_keeps {σ : State} (a : Nat) (v : Sys2Proof.Word) (s : Sys2Proof.Machine.State) (hk : Keeps σ s) : Keeps σ (fldWrite a v s) := by
  unfold fldWrite
  try dsimp only
  with_reducible repeat' first
    | assumption
    | apply Keeps.ite
    | apply inputConfig_keeps
    | apply tickWrite_keeps
    | apply State.plainWrite_keeps
    | simp only [Keeps.lit]
    | refine Keeps.foldl (fun _ _ _ => ?_) _ ?_
    | refine Keeps.of_pair ‹_ = (_, _)› ?_
    | (split)
    | (intro _ _ _)
    | (intro _ _)

theorem icbWrite_keeps {σ : State} (i : Sys2Proof.Island) (a : Nat) (v : Sys2Proof.Word) (s : Sys2Proof.Machine.State) (hk : Keeps σ s) : Keeps σ (icbWrite i a v s) := by
  unfold icbWrite
  try dsimp only
  with_reducible repeat' first
    | assumption
    | apply Keeps.ite
    | apply State.setReg_keeps
    | apply State.plainWrite_keeps
    | simp only [Keeps.lit]
    | refine Keeps.foldl (fun _ _ _ => ?_) _ ?_
    | refine Keeps.of_pair ‹_ = (_, _)› ?_
    | (split)
    | (intro _ _ _)
    | (intro _ _)

theorem lnkWrite_keeps {σ : State} (r : Sys2Proof.Requester) (a : Nat) (v : Sys2Proof.Word) (s : Sys2Proof.Machine.State) (hk : Keeps σ s) : Keeps σ (lnkWrite r a v s) := by
  unfold lnkWrite
  try dsimp only
  with_reducible repeat' first
    | assumption
    | apply Keeps.ite
    | apply portConfig_keeps
    | apply portCommand_keeps
    | apply remoteReset_keeps
    | apply mailGo_keeps
    | apply channelGo_keeps
    | apply State.plainWrite_keeps
    | simp only [Keeps.lit]
    | refine Keeps.foldl (fun _ _ _ => ?_) _ ?_
    | refine Keeps.of_pair ‹_ = (_, _)› ?_
    | (split)
    | (intro _ _ _)
    | (intro _ _)

theorem oibWrite_keeps {σ : State} (r : Sys2Proof.Requester) (i : Sys2Proof.OutIsl) (k : Nat) (v : Sys2Proof.Word) (s : Sys2Proof.Machine.State) (hk : Keeps σ s) : Keeps σ (oibWrite r i k v s) := by
  unfold oibWrite
  try dsimp only
  with_reducible repeat' first
    | assumption
    | apply Keeps.ite
    | apply profCmd_keeps
    | apply retClear_keeps
    | apply State.plainWrite_keeps
    | simp only [Keeps.lit]
    | refine Keeps.foldl (fun _ _ _ => ?_) _ ?_
    | refine Keeps.of_pair ‹_ = (_, _)› ?_
    | (split)
    | (intro _ _ _)
    | (intro _ _)

theorem portWrite_keeps {σ : State} (r : Sys2Proof.Requester) (ch : Sys2Proof.ChanRef) (w : Nat) (v : Sys2Proof.Word) (s : Sys2Proof.Machine.State) (hk : Keeps σ s) : Keeps σ (portWrite r ch w v s) := by
  unfold portWrite
  try dsimp only
  with_reducible repeat' first
    | assumption
    | apply Keeps.ite
    | apply stagingWrite_keeps
    | apply commitWrite_keeps
    | apply State.plainWrite_keeps
    | simp only [Keeps.lit]
    | refine Keeps.foldl (fun _ _ _ => ?_) _ ?_
    | refine Keeps.of_pair ‹_ = (_, _)› ?_
    | (split)
    | (intro _ _ _)
    | (intro _ _)

theorem busWrite_keeps {σ : State} (r : Sys2Proof.Requester) (a : Nat) (v : Sys2Proof.Word) (s : Sys2Proof.Machine.State) (hk : Keeps σ s) : Keeps σ (busWrite r a v s) := by
  unfold busWrite
  try dsimp only
  with_reducible repeat' first
    | assumption
    | apply Keeps.ite
    | apply icbWrite_keeps
    | apply portWrite_keeps
    | apply oibWrite_keeps
    | apply netWrite_keeps
    | apply secWrite_keeps
    | apply fldWrite_keeps
    | apply lnkWrite_keeps
    | apply aonWrite_keeps
    | apply supWrite_keeps
    | apply flashCmd_keeps
    | apply State.plainWrite_keeps
    | apply outWrite_keeps
    | simp only [Keeps.lit]
    | refine Keeps.foldl (fun _ _ _ => ?_) _ ?_
    | refine Keeps.of_pair ‹_ = (_, _)› ?_
    | (split)
    | (intro _ _ _)
    | (intro _ _)

end Sys2Proof.Machine
end

