-- ==== Sys2Proof/Laws/KeepsRes.lean ====
section
/-! SUPPORT. `Keeps` for what a core's load and a core's instruction come to. -/

namespace Sys2Proof.Machine

/-- What an access or an instruction leaves keeps what a command keeps; an exception leaves no state of its own. -/
def KeepsRes {α : Type} (s : State) (x : Res α) : Prop :=
  (∀ a t, x = .ok a t → Keeps s t) ∧ ∀ t, x = .wait t → Keeps s t

/-- The same of a load. -/
def KeepsLoaded (s : State) (x : Loaded) : Prop :=
  (∀ v t, x = .value v t → Keeps s t) ∧ ∀ t, x = .waiting t → Keeps s t

theorem KeepsRes.ok {α : Type} {s t : State} {a : α} (h : Keeps s t) : KeepsRes s (.ok a t) :=
  ⟨fun _ _ e => by cases e; exact h, fun _ e => by cases e⟩
theorem KeepsRes.wait {α : Type} {s t : State} (h : Keeps s t) : KeepsRes s (Res.wait (α := α) t) :=
  ⟨fun _ _ e => (by cases e), fun _ e => by cases e; exact h⟩
theorem KeepsRes.exc {α : Type} {s : State} {e : Exc} : KeepsRes s (Res.exc (α := α) e) :=
  ⟨fun _ _ e => (by cases e), fun _ e => by cases e⟩
theorem KeepsRes.ite {α : Type} {s : State} {x y : Res α} {c : Prop} [Decidable c] (hx : KeepsRes s x)
    (hy : KeepsRes s y) : KeepsRes s (if c then x else y) := by split <;> assumption
theorem KeepsRes.bind {α β : Type} {s : State} {x : Res α} {f : α → State → Res β} (h : KeepsRes s x)
    (hf : ∀ a t, Keeps s t → KeepsRes s (f a t)) : KeepsRes s (x.bind f) := by
  cases x with
  | ok a t => exact hf a t (h.1 a t rfl)
  | exc e => exact KeepsRes.exc
  | wait t => exact KeepsRes.wait (h.2 t rfl)
theorem KeepsRes.of_ok {α : Type} {s t : State} {x : Res α} {a : α} (e : x = .ok a t) (h : KeepsRes s x) : Keeps s t :=
  h.1 a t e
theorem KeepsRes.of_wait {α : Type} {s t : State} {x : Res α} (e : x = .wait t) (h : KeepsRes s x) : Keeps s t := h.2 t e

theorem KeepsLoaded.value {s t : State} {v : Word} (h : Keeps s t) : KeepsLoaded s (.value v t) :=
  ⟨fun _ _ e => by cases e; exact h, fun _ e => by cases e⟩
theorem KeepsLoaded.waiting {s t : State} (h : Keeps s t) : KeepsLoaded s (.waiting t) :=
  ⟨fun _ _ e => (by cases e), fun _ e => by cases e; exact h⟩
theorem KeepsLoaded.double {s : State} : KeepsLoaded s .doubleBit := ⟨fun _ _ e => (by cases e), fun _ e => by cases e⟩
theorem KeepsLoaded.ite {s : State} {x y : Loaded} {c : Prop} [Decidable c] (hx : KeepsLoaded s x)
    (hy : KeepsLoaded s y) : KeepsLoaded s (if c then x else y) := by split <;> assumption
theorem KeepsLoaded.of_value {s t : State} {x : Loaded} {v : Word} (e : x = .value v t) (h : KeepsLoaded s x) :
    Keeps s t := h.1 v t e
theorem KeepsLoaded.of_waiting {s t : State} {x : Loaded} (e : x = .waiting t) (h : KeepsLoaded s x) : Keeps s t :=
  h.2 t e

end Sys2Proof.Machine
end

