-- ==== Sys2Proof/Laws/KeepsBus.lean ====
section
/-! SUPPORT. Every operation of Machine/Bus.lean keeps what a command keeps. -/

set_option linter.all false

namespace Sys2Proof.Machine

theorem applyXfer_keeps {σ : State} (x : Sys2Proof.Machine.Xfer) (s : Sys2Proof.Machine.State) (hk : Keeps σ s) : Keeps σ (applyXfer x s) := by
  unfold applyXfer
  try dsimp only
  with_reducible repeat' first
    | assumption
    | apply Keeps.ite
    | apply remoteStore_keeps
    | apply busWrite_keeps
    | apply memAccess_keeps
    | simp only [Keeps.lit]
    | refine Keeps.foldl (fun _ _ _ => ?_) _ ?_
    | refine Keeps.of_pair ‹_ = (_, _)› ?_
    | (split)
    | (intro _ _ _)
    | (intro _ _)

theorem gateStep_keeps {σ : State} (src : Nat) (dst : Nat) (s : Sys2Proof.Machine.State) (hk : Keeps σ s) : Keeps σ (gateStep src dst s) := by
  unfold gateStep
  try dsimp only
  with_reducible repeat' first
    | assumption
    | apply Keeps.ite
    | apply applyXfer_keeps
    | apply State.setGate_keeps
    | simp only [Keeps.lit]
    | refine Keeps.foldl (fun _ _ _ => ?_) _ ?_
    | refine Keeps.of_pair ‹_ = (_, _)› ?_
    | (split)
    | (intro _ _ _)
    | (intro _ _)

theorem post_keeps {σ : State} (src : Nat) (dst : Nat) (x : Sys2Proof.Machine.Xfer) (s : Sys2Proof.Machine.State) (hk : Keeps σ s) : Keeps σ (post src dst x s) := by
  unfold post
  try dsimp only
  with_reducible repeat' first
    | assumption
    | apply Keeps.ite
    | apply gateStep_keeps
    | apply State.setGate_keeps
    | simp only [Keeps.lit]
    | refine Keeps.foldl (fun _ _ _ => ?_) _ ?_
    | refine Keeps.of_pair ‹_ = (_, _)› ?_
    | (split)
    | (intro _ _ _)
    | (intro _ _)

theorem coreWriteNow_keeps {σ : State} (s : Sys2Proof.Machine.State) (c : Nat) (a : Nat) (v : Sys2Proof.Word) (hk : Keeps σ s) : Keeps σ (coreWriteNow s c a v) := by
  unfold coreWriteNow
  try dsimp only
  with_reducible repeat' first
    | assumption
    | apply Keeps.ite
    | apply foreignStore_keeps
    | apply State.storeWord_keeps
    | simp only [Keeps.lit]
    | refine Keeps.foldl (fun _ _ _ => ?_) _ ?_
    | refine Keeps.of_pair ‹_ = (_, _)› ?_
    | (split)
    | (intro _ _ _)
    | (intro _ _)

theorem drainGate_keeps {σ : State} (src : Nat) (dst : Nat) (s : Sys2Proof.Machine.State) (hk : Keeps σ s) : Keeps σ (drainGate src dst s) := by
  unfold drainGate
  try dsimp only
  with_reducible repeat' first
    | assumption
    | apply Keeps.ite
    | apply gateStep_keeps
    | simp only [Keeps.lit]
    | refine Keeps.foldl (fun _ _ _ => ?_) _ ?_
    | refine Keeps.of_pair ‹_ = (_, _)› ?_
    | (split)
    | (intro _ _ _)
    | (intro _ _)

theorem drainCore_keeps {σ : State} (c : Nat) (s : Sys2Proof.Machine.State) (hk : Keeps σ s) : Keeps σ (drainCore c s) := by
  unfold drainCore
  try dsimp only
  with_reducible repeat' first
    | assumption
    | apply Keeps.ite
    | apply serveOwn_keeps
    | apply drainGate_keeps
    | simp only [Keeps.lit]
    | refine Keeps.foldl (fun _ _ _ => ?_) _ ?_
    | refine Keeps.of_pair ‹_ = (_, _)› ?_
    | (split)
    | (intro _ _ _)
    | (intro _ _)

theorem remoteLoaded_keeps {σ : State} (s : Sys2Proof.Machine.State) (c : Nat) (a : Nat) (hk : Keeps σ s) : KeepsLoaded σ (remoteLoaded s c a) := by
  unfold remoteLoaded
  try dsimp only
  with_reducible repeat' first
    | assumption
    | apply KeepsLoaded.value
    | apply KeepsLoaded.waiting
    | exact KeepsLoaded.double
    | apply KeepsLoaded.ite
    | apply Keeps.ite
    | apply State.modCore_keeps
    | apply remoteLoad_keeps
    | simp only [Keeps.lit]
    | refine Keeps.foldl (fun _ _ _ => ?_) _ ?_
    | refine Keeps.of_pair ‹_ = (_, _)› ?_
    | refine KeepsLoaded.of_value ‹_ = Loaded.value _ _› ?_
    | refine KeepsLoaded.of_waiting ‹_ = Loaded.waiting _› ?_
    | (split)
    | (intro _ _ _)
    | (intro _ _)

theorem coreLoad_keeps {σ : State} (s : Sys2Proof.Machine.State) (c : Nat) (a : Nat) (hk : Keeps σ s) : KeepsLoaded σ (coreLoad s c a) := by
  unfold coreLoad
  try dsimp only
  with_reducible repeat' first
    | assumption
    | apply KeepsLoaded.value
    | apply KeepsLoaded.waiting
    | exact KeepsLoaded.double
    | apply KeepsLoaded.ite
    | apply Keeps.ite
    | apply State.heal_keeps
    | apply memAccess_keeps
    | apply drainGate_keeps
    | apply State.setRegBit_keeps
    | apply busRead_keeps
    | apply remoteLoaded_keeps
    | simp only [Keeps.lit]
    | refine Keeps.foldl (fun _ _ _ => ?_) _ ?_
    | refine Keeps.of_pair ‹_ = (_, _)› ?_
    | refine KeepsLoaded.of_value ‹_ = Loaded.value _ _› ?_
    | refine KeepsLoaded.of_waiting ‹_ = Loaded.waiting _› ?_
    | (split)
    | (intro _ _ _)
    | (intro _ _)

theorem arriveAfter_keeps {σ : State} (r : Sys2Proof.Requester) (i : Sys2Proof.Island) (s : Sys2Proof.Machine.State) (hk : Keeps σ s) : Keeps σ (arriveAfter r i s) := by
  unfold arriveAfter
  try dsimp only
  with_reducible repeat' first
    | assumption
    | apply Keeps.ite
    | apply drainGate_keeps
    | apply serveOwn_keeps
    | simp only [Keeps.lit]
    | refine Keeps.foldl (fun _ _ _ => ?_) _ ?_
    | refine Keeps.of_pair ‹_ = (_, _)› ?_
    | (split)
    | (intro _ _ _)
    | (intro _ _)

theorem accessWrite_keeps {σ : State} (r : Sys2Proof.Requester) (a : Nat) (v : Sys2Proof.Word) (s : Sys2Proof.Machine.State) (hk : Keeps σ s) : Keeps σ (accessWrite r a v s) := by
  unfold accessWrite
  try dsimp only
  with_reducible repeat' first
    | assumption
    | apply Keeps.ite
    | apply arriveAfter_keeps
    | apply busWrite_keeps
    | apply post_keeps
    | simp only [Keeps.lit]
    | refine Keeps.foldl (fun _ _ _ => ?_) _ ?_
    | refine Keeps.of_pair ‹_ = (_, _)› ?_
    | (split)
    | (intro _ _ _)
    | (intro _ _)

theorem drainCores_keeps {σ : State} (s : Sys2Proof.Machine.State) (hk : Keeps σ s) : Keeps σ (drainCores s) := by
  unfold drainCores
  try dsimp only
  with_reducible repeat' first
    | assumption
    | apply Keeps.ite
    | apply drainGate_keeps
    | simp only [Keeps.lit]
    | refine Keeps.foldl (fun _ _ _ => ?_) _ ?_
    | refine Keeps.of_pair ‹_ = (_, _)› ?_
    | (split)
    | (intro _ _ _)
    | (intro _ _)

theorem accessRead_keeps {σ : State} (r : Sys2Proof.Requester) (a : Nat) (s : Sys2Proof.Machine.State) (hk : Keeps σ s) : Keeps σ (accessRead r a s) := by
  unfold accessRead
  try dsimp only
  with_reducible repeat' first
    | assumption
    | apply Keeps.ite
    | apply arriveAfter_keeps
    | apply busRead_keeps
    | simp only [Keeps.lit]
    | refine Keeps.foldl (fun _ _ _ => ?_) _ ?_
    | refine Keeps.of_pair ‹_ = (_, _)› ?_
    | (split)
    | (intro _ _ _)
    | (intro _ _)

theorem coreStore_keeps {σ : State} (s : Sys2Proof.Machine.State) (c : Nat) (a : Nat) (v : Sys2Proof.Word) (hk : Keeps σ s) : Keeps σ (coreStore s c a v) := by
  unfold coreStore
  try dsimp only
  with_reducible repeat' first
    | assumption
    | apply Keeps.ite
    | apply State.storeWord_keeps
    | apply foreignStore_keeps
    | apply issueMem_keeps
    | apply serveOwn_keeps
    | apply post_keeps
    | apply drainGate_keeps
    | simp only [Keeps.lit]
    | refine Keeps.foldl (fun _ _ _ => ?_) _ ?_
    | refine Keeps.of_pair ‹_ = (_, _)› ?_
    | (split)
    | (intro _ _ _)
    | (intro _ _)

end Sys2Proof.Machine
end

