-- ==== Sys2Proof/Laws/KeepsOperands.lean ====
section
/-! SUPPORT. Every operation of Machine/Operands.lean keeps what a command keeps. -/

set_option linter.all false

namespace Sys2Proof.Machine

theorem logEntry_keeps {σ : State} (c : Nat) (e : Sys2Proof.Machine.LogEnt) (s : Sys2Proof.Machine.State) (hk : Keeps σ s) : Keeps σ (logEntry c e s) := by
  unfold logEntry
  try dsimp only
  with_reducible repeat' first
    | assumption
    | apply Keeps.ite
    | apply State.modCore_keeps
    | simp only [Keeps.lit]
    | refine Keeps.foldl (fun _ _ _ => ?_) _ ?_
    | refine Keeps.of_pair ‹_ = (_, _)› ?_
    | (split)
    | (intro _ _ _)
    | (intro _ _)

theorem storeAt_keeps {σ : State} (c : Nat) (a : Nat) (v : Sys2Proof.Word) (s : Sys2Proof.Machine.State) (hk : Keeps σ s) : Keeps σ (storeAt c a v s) := by
  unfold storeAt
  try dsimp only
  with_reducible repeat' first
    | assumption
    | apply Keeps.ite
    | apply logEntry_keeps
    | apply coreStore_keeps
    | simp only [Keeps.lit]
    | refine Keeps.foldl (fun _ _ _ => ?_) _ ?_
    | refine Keeps.of_pair ‹_ = (_, _)› ?_
    | (split)
    | (intro _ _ _)
    | (intro _ _)

theorem storeOk_keeps {σ : State} (c : Nat) (fr : Nat) (off : Sys2Proof.Word) (at_ : Bool) (s : Sys2Proof.Machine.State) (hk : Keeps σ s) : KeepsRes σ (storeOk c fr off at_ s) := by
  unfold storeOk
  try dsimp only
  with_reducible repeat' first
    | assumption
    | apply KeepsRes.ok
    | exact KeepsRes.exc
    | apply KeepsRes.wait
    | apply KeepsRes.ite
    | apply KeepsRes.bind
    | apply Keeps.ite
    | simp only [Keeps.lit]
    | refine Keeps.foldl (fun _ _ _ => ?_) _ ?_
    | refine Keeps.of_pair ‹_ = (_, _)› ?_
    | refine KeepsRes.of_ok ‹_ = Res.ok _ _› ?_
    | refine KeepsRes.of_wait ‹_ = Res.wait _› ?_
    | (split)
    | (intro _ _ _)
    | (intro _ _)

theorem store_keeps {σ : State} (c : Nat) (fr : Nat) (off : Sys2Proof.Word) (v : Sys2Proof.Word) (s : Sys2Proof.Machine.State) (hk : Keeps σ s) : KeepsRes σ (store c fr off v s) := by
  unfold store
  try dsimp only
  with_reducible repeat' first
    | assumption
    | apply KeepsRes.ok
    | exact KeepsRes.exc
    | apply KeepsRes.wait
    | apply KeepsRes.ite
    | apply KeepsRes.bind
    | apply Keeps.ite
    | apply storeOk_keeps
    | apply storeAt_keeps
    | simp only [Keeps.lit]
    | refine Keeps.foldl (fun _ _ _ => ?_) _ ?_
    | refine Keeps.of_pair ‹_ = (_, _)› ?_
    | refine KeepsRes.of_ok ‹_ = Res.ok _ _› ?_
    | refine KeepsRes.of_wait ‹_ = Res.wait _› ?_
    | (split)
    | (intro _ _ _)
    | (intro _ _)

theorem State.modR_keeps {σ : State} (s : Sys2Proof.Machine.State) (c : Nat) (f : Sys2Proof.Machine.Regs → Sys2Proof.Machine.Regs) (hk : Keeps σ s) : Keeps σ (State.modR s c f) := by
  unfold State.modR
  try dsimp only
  with_reducible repeat' first
    | assumption
    | apply Keeps.ite
    | apply State.modCore_keeps
    | simp only [Keeps.lit]
    | refine Keeps.foldl (fun _ _ _ => ?_) _ ?_
    | refine Keeps.of_pair ‹_ = (_, _)› ?_
    | (split)
    | (intro _ _ _)
    | (intro _ _)

theorem took_keeps {σ : State} (c : Nat) (v : Sys2Proof.Word) (s : Sys2Proof.Machine.State) (hk : Keeps σ s) : Keeps σ (took c v s) := by
  unfold took
  try dsimp only
  with_reducible repeat' first
    | assumption
    | apply Keeps.ite
    | apply State.modCore_keeps
    | simp only [Keeps.lit]
    | refine Keeps.foldl (fun _ _ _ => ?_) _ ?_
    | refine Keeps.of_pair ‹_ = (_, _)› ?_
    | (split)
    | (intro _ _ _)
    | (intro _ _)

theorem loadAt_keeps {σ : State} (c : Nat) (a : Nat) (s : Sys2Proof.Machine.State) (hk : Keeps σ s) : KeepsRes σ (loadAt c a s) := by
  unfold loadAt
  try dsimp only
  with_reducible repeat' first
    | assumption
    | apply KeepsRes.ok
    | exact KeepsRes.exc
    | apply KeepsRes.wait
    | apply KeepsRes.ite
    | apply KeepsRes.bind
    | apply KeepsLoaded.value
    | apply KeepsLoaded.waiting
    | exact KeepsLoaded.double
    | apply KeepsLoaded.ite
    | apply Keeps.ite
    | apply coreLoad_keeps
    | apply took_keeps
    | apply logEntry_keeps
    | simp only [Keeps.lit]
    | refine Keeps.foldl (fun _ _ _ => ?_) _ ?_
    | refine Keeps.of_pair ‹_ = (_, _)› ?_
    | refine KeepsLoaded.of_value ‹_ = Loaded.value _ _› ?_
    | refine KeepsLoaded.of_waiting ‹_ = Loaded.waiting _› ?_
    | refine KeepsRes.of_ok ‹_ = Res.ok _ _› ?_
    | refine KeepsRes.of_wait ‹_ = Res.wait _› ?_
    | (split)
    | (intro _ _ _)
    | (intro _ _)

theorem passed_keeps {σ : State} (c : Nat) (s : Sys2Proof.Machine.State) (hk : Keeps σ s) : Keeps σ (passed c s) := by
  unfold passed
  try dsimp only
  with_reducible repeat' first
    | assumption
    | apply Keeps.ite
    | apply State.modCore_keeps
    | simp only [Keeps.lit]
    | refine Keeps.foldl (fun _ _ _ => ?_) _ ?_
    | refine Keeps.of_pair ‹_ = (_, _)› ?_
    | (split)
    | (intro _ _ _)
    | (intro _ _)

theorem load_keeps {σ : State} (c : Nat) (fr : Nat) (off : Sys2Proof.Word) (at_ : Bool) (s : Sys2Proof.Machine.State) (hk : Keeps σ s) : KeepsRes σ (load c fr off at_ s) := by
  unfold load
  try dsimp only
  with_reducible repeat' first
    | assumption
    | apply KeepsRes.ok
    | exact KeepsRes.exc
    | apply KeepsRes.wait
    | apply KeepsRes.ite
    | apply KeepsRes.bind
    | apply Keeps.ite
    | apply passed_keeps
    | apply loadAt_keeps
    | simp only [Keeps.lit]
    | refine Keeps.foldl (fun _ _ _ => ?_) _ ?_
    | refine Keeps.of_pair ‹_ = (_, _)› ?_
    | refine KeepsRes.of_ok ‹_ = Res.ok _ _› ?_
    | refine KeepsRes.of_wait ‹_ = Res.wait _› ?_
    | (split)
    | (intro _ _ _)
    | (intro _ _)

theorem loadWords_keeps {σ : State} (c : Nat) (fr : Nat) (off : Sys2Proof.Word) (x3 : Nat) (x4 : Sys2Proof.Machine.State) (hk : Keeps σ x4) : KeepsRes σ (loadWords c fr off x3 x4) := by
  induction x3 generalizing c fr off x4 with
  | zero =>
    unfold loadWords
    try dsimp only
    with_reducible repeat' first
      | assumption
      | apply KeepsRes.ok
      | exact KeepsRes.exc
      | apply KeepsRes.wait
      | apply KeepsRes.ite
      | apply KeepsRes.bind
      | apply Keeps.ite
      | apply load_keeps
      | simp only [Keeps.lit]
      | refine Keeps.foldl (fun _ _ _ => ?_) _ ?_
      | refine Keeps.of_pair ‹_ = (_, _)› ?_
      | refine KeepsRes.of_ok ‹_ = Res.ok _ _› ?_
      | refine KeepsRes.of_wait ‹_ = Res.wait _› ?_
      | (split)
      | (intro _ _ _)
      | (intro _ _)
  | succ n ih =>
    unfold loadWords
    try dsimp only
    with_reducible repeat' first
      | assumption
      | apply ih
      | apply KeepsRes.ok
      | exact KeepsRes.exc
      | apply KeepsRes.wait
      | apply KeepsRes.ite
      | apply KeepsRes.bind
      | apply Keeps.ite
      | apply load_keeps
      | simp only [Keeps.lit]
      | refine Keeps.foldl (fun _ _ _ => ?_) _ ?_
      | refine Keeps.of_pair ‹_ = (_, _)› ?_
      | refine KeepsRes.of_ok ‹_ = Res.ok _ _› ?_
      | refine KeepsRes.of_wait ‹_ = Res.wait _› ?_
      | (split)
      | (intro _ _ _)
      | (intro _ _)

theorem popWords_keeps {σ : State} (c : Nat) (n : Nat) (s : Sys2Proof.Machine.State) (hk : Keeps σ s) : KeepsRes σ (popWords c n s) := by
  unfold popWords
  try dsimp only
  with_reducible repeat' first
    | assumption
    | apply KeepsRes.ok
    | exact KeepsRes.exc
    | apply KeepsRes.wait
    | apply KeepsRes.ite
    | apply KeepsRes.bind
    | apply Keeps.ite
    | apply loadWords_keeps
    | apply State.modR_keeps
    | simp only [Keeps.lit]
    | refine Keeps.foldl (fun _ _ _ => ?_) _ ?_
    | refine Keeps.of_pair ‹_ = (_, _)› ?_
    | refine KeepsRes.of_ok ‹_ = Res.ok _ _› ?_
    | refine KeepsRes.of_wait ‹_ = Res.wait _› ?_
    | (split)
    | (intro _ _ _)
    | (intro _ _)

theorem pushWords.chk_keeps {σ : State} (c : Nat) (x1 : List Sys2Proof.Word) (x2 : Sys2Proof.Machine.State) (hk : Keeps σ x2) : KeepsRes σ (pushWords.chk c x1 x2) := by
  induction x1 generalizing c x2 with
  | nil =>
    unfold pushWords.chk
    try dsimp only
    with_reducible repeat' first
      | assumption
      | apply KeepsRes.ok
      | exact KeepsRes.exc
      | apply KeepsRes.wait
      | apply KeepsRes.ite
      | apply KeepsRes.bind
      | apply Keeps.ite
      | apply storeOk_keeps
      | simp only [Keeps.lit]
      | refine Keeps.foldl (fun _ _ _ => ?_) _ ?_
      | refine Keeps.of_pair ‹_ = (_, _)› ?_
      | refine KeepsRes.of_ok ‹_ = Res.ok _ _› ?_
      | refine KeepsRes.of_wait ‹_ = Res.wait _› ?_
      | (split)
      | (intro _ _ _)
      | (intro _ _)
  | cons y ys ih =>
    unfold pushWords.chk
    try dsimp only
    with_reducible repeat' first
      | assumption
      | apply ih
      | apply KeepsRes.ok
      | exact KeepsRes.exc
      | apply KeepsRes.wait
      | apply KeepsRes.ite
      | apply KeepsRes.bind
      | apply Keeps.ite
      | apply storeOk_keeps
      | simp only [Keeps.lit]
      | refine Keeps.foldl (fun _ _ _ => ?_) _ ?_
      | refine Keeps.of_pair ‹_ = (_, _)› ?_
      | refine KeepsRes.of_ok ‹_ = Res.ok _ _› ?_
      | refine KeepsRes.of_wait ‹_ = Res.wait _› ?_
      | (split)
      | (intro _ _ _)
      | (intro _ _)

theorem dropReservation_keeps {σ : State} (c : Nat) (s : Sys2Proof.Machine.State) (hk : Keeps σ s) : Keeps σ (dropReservation c s) := by
  unfold dropReservation
  try dsimp only
  with_reducible repeat' first
    | assumption
    | apply Keeps.ite
    | apply State.modCore_keeps
    | simp only [Keeps.lit]
    | refine Keeps.foldl (fun _ _ _ => ?_) _ ?_
    | refine Keeps.of_pair ‹_ = (_, _)› ?_
    | (split)
    | (intro _ _ _)
    | (intro _ _)

theorem loadFrame_keeps {σ : State} (c : Nat) (fr : Nat) (sel : Nat) (s : Sys2Proof.Machine.State) (hk : Keeps σ s) : KeepsRes σ (loadFrame c fr sel s) := by
  unfold loadFrame
  try dsimp only
  with_reducible repeat' first
    | assumption
    | apply KeepsRes.ok
    | exact KeepsRes.exc
    | apply KeepsRes.wait
    | apply KeepsRes.ite
    | apply KeepsRes.bind
    | apply Keeps.ite
    | apply State.modR_keeps
    | apply dropReservation_keeps
    | simp only [Keeps.lit]
    | refine Keeps.foldl (fun _ _ _ => ?_) _ ?_
    | refine Keeps.of_pair ‹_ = (_, _)› ?_
    | refine KeepsRes.of_ok ‹_ = Res.ok _ _› ?_
    | refine KeepsRes.of_wait ‹_ = Res.wait _› ?_
    | (split)
    | (intro _ _ _)
    | (intro _ _)

theorem effective_keeps {σ : State} (c : Nat) (o : Sys2Proof.Opnd) (s : Sys2Proof.Machine.State) (hk : Keeps σ s) : KeepsRes σ (effective c o s) := by
  unfold effective
  try dsimp only
  with_reducible repeat' first
    | assumption
    | apply KeepsRes.ok
    | exact KeepsRes.exc
    | apply KeepsRes.wait
    | apply KeepsRes.ite
    | apply KeepsRes.bind
    | apply Keeps.ite
    | apply load_keeps
    | simp only [Keeps.lit]
    | refine Keeps.foldl (fun _ _ _ => ?_) _ ?_
    | refine Keeps.of_pair ‹_ = (_, _)› ?_
    | refine KeepsRes.of_ok ‹_ = Res.ok _ _› ?_
    | refine KeepsRes.of_wait ‹_ = Res.wait _› ?_
    | (split)
    | (intro _ _ _)
    | (intro _ _)

theorem storeAll_keeps {σ : State} (c : Nat) (x1 : List (Nat × Sys2Proof.Word)) (x2 : Sys2Proof.Machine.State) (hk : Keeps σ x2) : Keeps σ (storeAll c x1 x2) := by
  induction x1 generalizing c x2 with
  | nil =>
    unfold storeAll
    try dsimp only
    with_reducible repeat' first
      | assumption
      | apply Keeps.ite
      | apply storeAt_keeps
      | simp only [Keeps.lit]
      | refine Keeps.foldl (fun _ _ _ => ?_) _ ?_
      | refine Keeps.of_pair ‹_ = (_, _)› ?_
      | (split)
      | (intro _ _ _)
      | (intro _ _)
  | cons y ys ih =>
    unfold storeAll
    try dsimp only
    with_reducible repeat' first
      | assumption
      | apply ih
      | apply Keeps.ite
      | apply storeAt_keeps
      | simp only [Keeps.lit]
      | refine Keeps.foldl (fun _ _ _ => ?_) _ ?_
      | refine Keeps.of_pair ‹_ = (_, _)› ?_
      | (split)
      | (intro _ _ _)
      | (intro _ _)

theorem pushWords_keeps {σ : State} (c : Nat) (ws : List Sys2Proof.Word) (s : Sys2Proof.Machine.State) (hk : Keeps σ s) : KeepsRes σ (pushWords c ws s) := by
  unfold pushWords
  try dsimp only
  with_reducible repeat' first
    | assumption
    | apply KeepsRes.ok
    | exact KeepsRes.exc
    | apply KeepsRes.wait
    | apply KeepsRes.ite
    | apply KeepsRes.bind
    | apply Keeps.ite
    | apply pushWords.chk_keeps
    | apply State.modR_keeps
    | apply storeAll_keeps
    | simp only [Keeps.lit]
    | refine Keeps.foldl (fun _ _ _ => ?_) _ ?_
    | refine Keeps.of_pair ‹_ = (_, _)› ?_
    | refine KeepsRes.of_ok ‹_ = Res.ok _ _› ?_
    | refine KeepsRes.of_wait ‹_ = Res.wait _› ?_
    | (split)
    | (intro _ _ _)
    | (intro _ _)

theorem storeWordsOk_keeps {σ : State} (c : Nat) (fr : Nat) (off : Sys2Proof.Word) (x3 : Nat) (x4 : Sys2Proof.Machine.State) (hk : Keeps σ x4) : KeepsRes σ (storeWordsOk c fr off x3 x4) := by
  induction x3 generalizing c fr off x4 with
  | zero =>
    unfold storeWordsOk
    try dsimp only
    with_reducible repeat' first
      | assumption
      | apply KeepsRes.ok
      | exact KeepsRes.exc
      | apply KeepsRes.wait
      | apply KeepsRes.ite
      | apply KeepsRes.bind
      | apply Keeps.ite
      | apply storeOk_keeps
      | simp only [Keeps.lit]
      | refine Keeps.foldl (fun _ _ _ => ?_) _ ?_
      | refine Keeps.of_pair ‹_ = (_, _)› ?_
      | refine KeepsRes.of_ok ‹_ = Res.ok _ _› ?_
      | refine KeepsRes.of_wait ‹_ = Res.wait _› ?_
      | (split)
      | (intro _ _ _)
      | (intro _ _)
  | succ n ih =>
    unfold storeWordsOk
    try dsimp only
    with_reducible repeat' first
      | assumption
      | apply ih
      | apply KeepsRes.ok
      | exact KeepsRes.exc
      | apply KeepsRes.wait
      | apply KeepsRes.ite
      | apply KeepsRes.bind
      | apply Keeps.ite
      | apply storeOk_keeps
      | simp only [Keeps.lit]
      | refine Keeps.foldl (fun _ _ _ => ?_) _ ?_
      | refine Keeps.of_pair ‹_ = (_, _)› ?_
      | refine KeepsRes.of_ok ‹_ = Res.ok _ _› ?_
      | refine KeepsRes.of_wait ‹_ = Res.wait _› ?_
      | (split)
      | (intro _ _ _)
      | (intro _ _)

theorem source_keeps {σ : State} (c : Nat) (o : Sys2Proof.Opnd) (s : Sys2Proof.Machine.State) (hk : Keeps σ s) : KeepsRes σ (source c o s) := by
  unfold source
  try dsimp only
  with_reducible repeat' first
    | assumption
    | apply KeepsRes.ok
    | exact KeepsRes.exc
    | apply KeepsRes.wait
    | apply KeepsRes.ite
    | apply KeepsRes.bind
    | apply Keeps.ite
    | apply effective_keeps
    | apply load_keeps
    | simp only [Keeps.lit]
    | refine Keeps.foldl (fun _ _ _ => ?_) _ ?_
    | refine Keeps.of_pair ‹_ = (_, _)› ?_
    | refine KeepsRes.of_ok ‹_ = Res.ok _ _› ?_
    | refine KeepsRes.of_wait ‹_ = Res.wait _› ?_
    | (split)
    | (intro _ _ _)
    | (intro _ _)

theorem byteOperand_keeps {σ : State} (c : Nat) (o : Sys2Proof.Opnd) (s : Sys2Proof.Machine.State) (hk : Keeps σ s) : KeepsRes σ (byteOperand c o s) := by
  unfold byteOperand
  try dsimp only
  with_reducible repeat' first
    | assumption
    | apply KeepsRes.ok
    | exact KeepsRes.exc
    | apply KeepsRes.wait
    | apply KeepsRes.ite
    | apply KeepsRes.bind
    | apply Keeps.ite
    | apply effective_keeps
    | simp only [Keeps.lit]
    | refine Keeps.foldl (fun _ _ _ => ?_) _ ?_
    | refine Keeps.of_pair ‹_ = (_, _)› ?_
    | refine KeepsRes.of_ok ‹_ = Res.ok _ _› ?_
    | refine KeepsRes.of_wait ‹_ = Res.wait _› ?_
    | (split)
    | (intro _ _ _)
    | (intro _ _)

end Sys2Proof.Machine
end

