-- ==== Sys2Proof/Laws/KeepsCpu.lean ====
section
/-! SUPPORT. Every operation of Machine/Cpu.lean keeps what a command keeps. -/

set_option linter.all false

namespace Sys2Proof.Machine

theorem fetched_keeps {σ : State} (c : Nat) (len : Nat) (s : Sys2Proof.Machine.State) (hk : Keeps σ s) : Keeps σ (fetched c len s) := by
  unfold fetched
  try dsimp only
  with_reducible repeat' first
    | assumption
    | apply Keeps.ite
    | apply State.heal_keeps
    | simp only [Keeps.lit]
    | refine Keeps.foldl (fun _ _ _ => ?_) _ ?_
    | refine Keeps.of_pair ‹_ = (_, _)› ?_
    | (split)
    | (intro _ _ _)
    | (intro _ _)

theorem retired_keeps {σ : State} (c : Nat) (s : Sys2Proof.Machine.State) (hk : Keeps σ s) : Keeps σ (retired c s) := by
  unfold retired
  try dsimp only
  with_reducible repeat' first
    | assumption
    | apply Keeps.ite
    | apply settle_keeps
    | apply State.modCore_keeps
    | simp only [Keeps.lit]
    | refine Keeps.foldl (fun _ _ _ => ?_) _ ?_
    | refine Keeps.of_pair ‹_ = (_, _)› ?_
    | (split)
    | (intro _ _ _)
    | (intro _ _)

theorem doubleFault_keeps {σ : State} (c : Nat) (s : Sys2Proof.Machine.State) (hk : Keeps σ s) : Keeps σ (doubleFault c s) := by
  unfold doubleFault
  try dsimp only
  with_reducible repeat' first
    | assumption
    | apply Keeps.ite
    | apply watchdogExpire_keeps
    | apply State.modCore_keeps
    | simp only [Keeps.lit]
    | refine Keeps.foldl (fun _ _ _ => ?_) _ ?_
    | refine Keeps.of_pair ‹_ = (_, _)› ?_
    | (split)
    | (intro _ _ _)
    | (intro _ _)

theorem tableWord_keeps {σ : State} (c : Nat) (off : Nat) (s : Sys2Proof.Machine.State) (hk : Keeps σ s) : KeepsRes σ (tableWord c off s) := by
  unfold tableWord
  try dsimp only
  with_reducible repeat' first
    | assumption
    | apply KeepsRes.ok
    | exact KeepsRes.exc
    | apply KeepsRes.wait
    | apply KeepsRes.ite
    | apply KeepsRes.bind
    | apply Keeps.ite
    | apply passed_keeps
    | apply loadAt_keeps
    | simp only [Keeps.lit]
    | refine Keeps.foldl (fun _ _ _ => ?_) _ ?_
    | refine Keeps.of_pair ‹_ = (_, _)› ?_
    | refine KeepsRes.of_ok ‹_ = Res.ok _ _› ?_
    | refine KeepsRes.of_wait ‹_ = Res.wait _› ?_
    | (split)
    | (intro _ _ _)
    | (intro _ _)

theorem tableEntry_keeps {σ : State} (c : Nat) (line : Nat) (s : Sys2Proof.Machine.State) (hk : Keeps σ s) : KeepsRes σ (tableEntry c line s) := by
  unfold tableEntry
  try dsimp only
  with_reducible repeat' first
    | assumption
    | apply KeepsRes.ok
    | exact KeepsRes.exc
    | apply KeepsRes.wait
    | apply KeepsRes.ite
    | apply KeepsRes.bind
    | apply Keeps.ite
    | apply tableWord_keeps
    | simp only [Keeps.lit]
    | refine Keeps.foldl (fun _ _ _ => ?_) _ ?_
    | refine Keeps.of_pair ‹_ = (_, _)› ?_
    | refine KeepsRes.of_ok ‹_ = Res.ok _ _› ?_
    | refine KeepsRes.of_wait ‹_ = Res.wait _› ?_
    | (split)
    | (intro _ _ _)
    | (intro _ _)

theorem waitUnpushed_keeps {σ : State} (c : Nat) (line : Nat) (s : Sys2Proof.Machine.State) (x : Sys2Proof.Machine.Res (Sys2Proof.Word × Sys2Proof.Word)) (hx_x : KeepsRes σ x) (hk : Keeps σ s) : KeepsRes σ (waitUnpushed c line s x) := by
  unfold waitUnpushed
  try dsimp only
  with_reducible repeat' first
    | assumption
    | apply KeepsRes.ok
    | exact KeepsRes.exc
    | apply KeepsRes.wait
    | apply KeepsRes.ite
    | apply KeepsRes.bind
    | apply Keeps.ite
    | apply tableEntry_keeps
    | simp only [Keeps.lit]
    | refine Keeps.foldl (fun _ _ _ => ?_) _ ?_
    | refine Keeps.of_pair ‹_ = (_, _)› ?_
    | refine KeepsRes.of_ok ‹_ = Res.ok _ _› ?_
    | refine KeepsRes.of_wait ‹_ = Res.wait _› ?_
    | (split)
    | (intro _ _ _)
    | (intro _ _)

theorem enterLine_keeps {σ : State} (c : Nat) (line : Nat) (ret : Sys2Proof.Word) (exc : Bool) (s : Sys2Proof.Machine.State) (hk : Keeps σ s) : KeepsRes σ (enterLine c line ret exc s) := by
  unfold enterLine
  try dsimp only
  with_reducible repeat' first
    | assumption
    | apply KeepsRes.ok
    | exact KeepsRes.exc
    | apply KeepsRes.wait
    | apply KeepsRes.ite
    | apply KeepsRes.bind
    | apply Keeps.ite
    | apply pushWords_keeps
    | apply waitUnpushed_keeps
    | apply tableEntry_keeps
    | apply loadFrame_keeps
    | apply State.setRegBit_keeps
    | apply logEntry_keeps
    | apply State.modCore_keeps
    | simp only [Keeps.lit]
    | refine Keeps.foldl (fun _ _ _ => ?_) _ ?_
    | refine Keeps.of_pair ‹_ = (_, _)› ?_
    | refine KeepsRes.of_ok ‹_ = Res.ok _ _› ?_
    | refine KeepsRes.of_wait ‹_ = Res.wait _› ?_
    | (split)
    | (intro _ _ _)
    | (intro _ _)

theorem recordFault_keeps {σ : State} (c : Nat) (e : Sys2Proof.Machine.Exc) (s : Sys2Proof.Machine.State) (hk : Keeps σ s) : Keeps σ (recordFault c e s) := by
  unfold recordFault
  try dsimp only
  with_reducible repeat' first
    | assumption
    | apply Keeps.ite
    | apply State.setReg_keeps
    | simp only [Keeps.lit]
    | refine Keeps.foldl (fun _ _ _ => ?_) _ ?_
    | refine Keeps.of_pair ‹_ = (_, _)› ?_
    | (split)
    | (intro _ _ _)
    | (intro _ _)

theorem waits_keeps {σ : State} (c : Nat) (s1 : Sys2Proof.Machine.State) (s : Sys2Proof.Machine.State) (hk_s1 : Keeps σ s1) (hk : Keeps σ s) : Keeps σ (waits c s1 s) := by
  unfold waits
  try dsimp only
  with_reducible repeat' first
    | assumption
    | apply Keeps.ite
    | apply State.modCore_keeps
    | simp only [Keeps.lit]
    | refine Keeps.foldl (fun _ _ _ => ?_) _ ?_
    | refine Keeps.of_pair ‹_ = (_, _)› ?_
    | (split)
    | (intro _ _ _)
    | (intro _ _)

theorem enterExc_keeps {σ : State} (c : Nat) (line : Nat) (s : Sys2Proof.Machine.State) (hk : Keeps σ s) : Keeps σ (enterExc c line s) := by
  unfold enterExc
  try dsimp only
  with_reducible repeat' first
    | assumption
    | apply KeepsRes.ok
    | exact KeepsRes.exc
    | apply KeepsRes.wait
    | apply KeepsRes.ite
    | apply KeepsRes.bind
    | apply Keeps.ite
    | apply enterLine_keeps
    | apply doubleFault_keeps
    | apply recordFault_keeps
    | apply State.modCore_keeps
    | apply waits_keeps
    | simp only [Keeps.lit]
    | refine Keeps.foldl (fun _ _ _ => ?_) _ ?_
    | refine Keeps.of_pair ‹_ = (_, _)› ?_
    | refine KeepsRes.of_ok ‹_ = Res.ok _ _› ?_
    | refine KeepsRes.of_wait ‹_ = Res.wait _› ?_
    | (split)
    | (intro _ _ _)
    | (intro _ _)

theorem excEntry_keeps {σ : State} (c : Nat) (s : Sys2Proof.Machine.State) (hk : Keeps σ s) : Keeps σ (excEntry c s) := by
  unfold excEntry
  try dsimp only
  with_reducible repeat' first
    | assumption
    | apply Keeps.ite
    | apply enterExc_keeps
    | apply takeCheckpoint_keeps
    | simp only [Keeps.lit]
    | refine Keeps.foldl (fun _ _ _ => ?_) _ ?_
    | refine Keeps.of_pair ‹_ = (_, _)› ?_
    | (split)
    | (intro _ _ _)
    | (intro _ _)

theorem takeExc_keeps {σ : State} (c : Nat) (e : Sys2Proof.Machine.Exc) (s : Sys2Proof.Machine.State) (hk : Keeps σ s) : Keeps σ (takeExc c e s) := by
  unfold takeExc
  try dsimp only
  with_reducible repeat' first
    | assumption
    | apply Keeps.ite
    | apply State.modCore_keeps
    | apply recordFault_keeps
    | apply doubleFault_keeps
    | apply excEntry_keeps
    | apply enterExc_keeps
    | simp only [Keeps.lit]
    | refine Keeps.foldl (fun _ _ _ => ?_) _ ?_
    | refine Keeps.of_pair ‹_ = (_, _)› ?_
    | (split)
    | (intro _ _ _)
    | (intro _ _)

theorem execute_keeps {σ : State} (c : Nat) (len : Nat) (legal : Bool) (body : Sys2Proof.Machine.State → Sys2Proof.Machine.Res Unit) (s : Sys2Proof.Machine.State) (hf_body : ∀ t, Keeps σ t → KeepsRes σ (body t)) (hk : Keeps σ s) : Keeps σ (execute c len legal body s) := by
  unfold execute
  try dsimp only
  with_reducible repeat' first
    | assumption
    | apply KeepsRes.ok
    | exact KeepsRes.exc
    | apply KeepsRes.wait
    | apply KeepsRes.ite
    | apply KeepsRes.bind
    | apply Keeps.ite
    | apply hf_body
    | apply takeExc_keeps
    | apply State.modCore_keeps
    | apply fetched_keeps
    | apply retired_keeps
    | apply waits_keeps
    | simp only [Keeps.lit]
    | refine Keeps.foldl (fun _ _ _ => ?_) _ ?_
    | refine Keeps.of_pair ‹_ = (_, _)› ?_
    | refine KeepsRes.of_ok ‹_ = Res.ok _ _› ?_
    | refine KeepsRes.of_wait ‹_ = Res.wait _› ?_
    | (split)
    | (intro _ _ _)
    | (intro _ _)

theorem issue_runs {σ : State} (c : Sys2Proof.CoreId) (len : Nat) (legal : Bool) (s : Sys2Proof.Machine.State) (body : Sys2Proof.Machine.State → Sys2Proof.Machine.Res Unit) (hf_body : ∀ t, Keeps σ t → KeepsRes σ (body t)) (hk : Keeps σ s) : Runs σ (issue c len legal s body) := by
  unfold issue
  try dsimp only
  with_reducible repeat' first
    | assumption
    | apply Runs.next
    | apply Runs.ite
    | apply KeepsRes.ok
    | exact KeepsRes.exc
    | apply KeepsRes.wait
    | apply KeepsRes.ite
    | apply KeepsRes.bind
    | apply Keeps.ite
    | apply hf_body
    | apply execute_keeps
    | simp only [Keeps.lit]
    | refine Keeps.foldl (fun _ _ _ => ?_) _ ?_
    | refine Keeps.of_pair ‹_ = (_, _)› ?_
    | refine KeepsRes.of_ok ‹_ = Res.ok _ _› ?_
    | refine KeepsRes.of_wait ‹_ = Res.wait _› ?_
    | (split)
    | (intro _ _ _)
    | (intro _ _)

theorem issueOp_runs {σ : State} (k : Sys2Proof.Machine.Cls) (c : Sys2Proof.CoreId) (o : Sys2Proof.Opnd) (s : Sys2Proof.Machine.State) (body : Sys2Proof.Machine.State → Sys2Proof.Machine.Res Unit) (hf_body : ∀ t, Keeps σ t → KeepsRes σ (body t)) (hk : Keeps σ s) : Runs σ (issueOp k c o s body) := by
  unfold issueOp
  try dsimp only
  with_reducible repeat' first
    | assumption
    | apply Runs.next
    | apply Runs.ite
    | apply KeepsRes.ok
    | exact KeepsRes.exc
    | apply KeepsRes.wait
    | apply KeepsRes.ite
    | apply KeepsRes.bind
    | apply Keeps.ite
    | apply hf_body
    | apply issue_runs
    | simp only [Keeps.lit]
    | refine Keeps.foldl (fun _ _ _ => ?_) _ ?_
    | refine Keeps.of_pair ‹_ = (_, _)› ?_
    | refine KeepsRes.of_ok ‹_ = Res.ok _ _› ?_
    | refine KeepsRes.of_wait ‹_ = Res.wait _› ?_
    | (split)
    | (intro _ _ _)
    | (intro _ _)

theorem regs_keeps {σ : State} (c : Sys2Proof.CoreId) (f : Sys2Proof.Machine.Regs → Sys2Proof.Machine.Regs) (s : Sys2Proof.Machine.State) (hk : Keeps σ s) : KeepsRes σ (regs c f s) := by
  unfold regs
  try dsimp only
  with_reducible repeat' first
    | assumption
    | apply KeepsRes.ok
    | exact KeepsRes.exc
    | apply KeepsRes.wait
    | apply KeepsRes.ite
    | apply KeepsRes.bind
    | apply Keeps.ite
    | apply State.modR_keeps
    | simp only [Keeps.lit]
    | refine Keeps.foldl (fun _ _ _ => ?_) _ ?_
    | refine Keeps.of_pair ‹_ = (_, _)› ?_
    | refine KeepsRes.of_ok ‹_ = Res.ok _ _› ?_
    | refine KeepsRes.of_wait ‹_ = Res.wait _› ?_
    | (split)
    | (intro _ _ _)
    | (intro _ _)

theorem sourceOp_runs {σ : State} (c : Sys2Proof.CoreId) (o : Sys2Proof.Opnd) (s : Sys2Proof.Machine.State) (f : Sys2Proof.Word → Sys2Proof.Machine.Regs → Sys2Proof.Machine.Regs) (hk : Keeps σ s) : Runs σ (sourceOp c o s f) := by
  unfold sourceOp
  try dsimp only
  with_reducible repeat' first
    | assumption
    | apply Runs.next
    | apply Runs.ite
    | apply KeepsRes.ok
    | exact KeepsRes.exc
    | apply KeepsRes.wait
    | apply KeepsRes.ite
    | apply KeepsRes.bind
    | apply Keeps.ite
    | apply issueOp_runs
    | apply source_keeps
    | apply regs_keeps
    | simp only [Keeps.lit]
    | refine Keeps.foldl (fun _ _ _ => ?_) _ ?_
    | refine Keeps.of_pair ‹_ = (_, _)› ?_
    | refine KeepsRes.of_ok ‹_ = Res.ok _ _› ?_
    | refine KeepsRes.of_wait ‹_ = Res.wait _› ?_
    | (split)
    | (intro _ _ _)
    | (intro _ _)

theorem issue1_runs {σ : State} (c : Sys2Proof.CoreId) (s : Sys2Proof.Machine.State) (body : Sys2Proof.Machine.State → Sys2Proof.Machine.Res Unit) (hf_body : ∀ t, Keeps σ t → KeepsRes σ (body t)) (hk : Keeps σ s) : Runs σ (issue1 c s body) := by
  unfold issue1
  try dsimp only
  with_reducible repeat' first
    | assumption
    | apply Runs.next
    | apply Runs.ite
    | apply KeepsRes.ok
    | exact KeepsRes.exc
    | apply KeepsRes.wait
    | apply KeepsRes.ite
    | apply KeepsRes.bind
    | apply Keeps.ite
    | apply hf_body
    | apply issue_runs
    | simp only [Keeps.lit]
    | refine Keeps.foldl (fun _ _ _ => ?_) _ ?_
    | refine Keeps.of_pair ‹_ = (_, _)› ?_
    | refine KeepsRes.of_ok ‹_ = Res.ok _ _› ?_
    | refine KeepsRes.of_wait ‹_ = Res.wait _› ?_
    | (split)
    | (intro _ _ _)
    | (intro _ _)

theorem pushOp_runs {σ : State} (c : Sys2Proof.CoreId) (s : Sys2Proof.Machine.State) (f : Sys2Proof.Machine.Regs → Sys2Proof.Word) (hk : Keeps σ s) : Runs σ (pushOp c s f) := by
  unfold pushOp
  try dsimp only
  with_reducible repeat' first
    | assumption
    | apply Runs.next
    | apply Runs.ite
    | apply KeepsRes.ok
    | exact KeepsRes.exc
    | apply KeepsRes.wait
    | apply KeepsRes.ite
    | apply KeepsRes.bind
    | apply Keeps.ite
    | apply issue1_runs
    | apply pushWords_keeps
    | simp only [Keeps.lit]
    | refine Keeps.foldl (fun _ _ _ => ?_) _ ?_
    | refine Keeps.of_pair ‹_ = (_, _)› ?_
    | refine KeepsRes.of_ok ‹_ = Res.ok _ _› ?_
    | refine KeepsRes.of_wait ‹_ = Res.wait _› ?_
    | (split)
    | (intro _ _ _)
    | (intro _ _)

theorem modifyAt_keeps {σ : State} (c : Nat) (fr : Nat) (off : Sys2Proof.Word) (f : Sys2Proof.Machine.Regs → Sys2Proof.Word → Sys2Proof.Word × Sys2Proof.Machine.Regs) (s : Sys2Proof.Machine.State) (hk : Keeps σ s) : KeepsRes σ (modifyAt c fr off f s) := by
  unfold modifyAt
  try dsimp only
  with_reducible repeat' first
    | assumption
    | apply KeepsRes.ok
    | exact KeepsRes.exc
    | apply KeepsRes.wait
    | apply KeepsRes.ite
    | apply KeepsRes.bind
    | apply Keeps.ite
    | apply storeOk_keeps
    | apply load_keeps
    | apply State.modR_keeps
    | apply storeAt_keeps
    | simp only [Keeps.lit]
    | refine Keeps.foldl (fun _ _ _ => ?_) _ ?_
    | refine Keeps.of_pair ‹_ = (_, _)› ?_
    | refine KeepsRes.of_ok ‹_ = Res.ok _ _› ?_
    | refine KeepsRes.of_wait ‹_ = Res.wait _› ?_
    | (split)
    | (intro _ _ _)
    | (intro _ _)

theorem modifyOp_runs {σ : State} (c : Sys2Proof.CoreId) (o : Sys2Proof.Opnd) (s : Sys2Proof.Machine.State) (f : Sys2Proof.Machine.Regs → Sys2Proof.Word → Sys2Proof.Word × Sys2Proof.Machine.Regs) (hk : Keeps σ s) : Runs σ (modifyOp c o s f) := by
  unfold modifyOp
  try dsimp only
  with_reducible repeat' first
    | assumption
    | apply Runs.next
    | apply Runs.ite
    | apply KeepsRes.ok
    | exact KeepsRes.exc
    | apply KeepsRes.wait
    | apply KeepsRes.ite
    | apply KeepsRes.bind
    | apply Keeps.ite
    | apply issueOp_runs
    | apply effective_keeps
    | apply modifyAt_keeps
    | simp only [Keeps.lit]
    | refine Keeps.foldl (fun _ _ _ => ?_) _ ?_
    | refine Keeps.of_pair ‹_ = (_, _)› ?_
    | refine KeepsRes.of_ok ‹_ = Res.ok _ _› ?_
    | refine KeepsRes.of_wait ‹_ = Res.wait _› ?_
    | (split)
    | (intro _ _ _)
    | (intro _ _)

theorem execCheckpointWriteDone_runs {σ : State} (c : Sys2Proof.CoreId) (s : Sys2Proof.Machine.State) (hk : Keeps σ s) : Runs σ (execCheckpointWriteDone c s) := by
  unfold execCheckpointWriteDone
  try dsimp only
  with_reducible repeat' first
    | assumption
    | apply Runs.next
    | apply Runs.ite
    | apply Keeps.ite
    | apply finishRecord_keeps
    | apply excEntry_keeps
    | apply settle_keeps
    | simp only [Keeps.lit]
    | refine Keeps.foldl (fun _ _ _ => ?_) _ ?_
    | refine Keeps.of_pair ‹_ = (_, _)› ?_
    | (split)
    | (intro _ _ _)
    | (intro _ _)

theorem popOp_runs {σ : State} (c : Sys2Proof.CoreId) (s : Sys2Proof.Machine.State) (f : Sys2Proof.Word → Sys2Proof.Machine.Regs → Sys2Proof.Machine.Regs) (hk : Keeps σ s) : Runs σ (popOp c s f) := by
  unfold popOp
  try dsimp only
  with_reducible repeat' first
    | assumption
    | apply Runs.next
    | apply Runs.ite
    | apply KeepsRes.ok
    | exact KeepsRes.exc
    | apply KeepsRes.wait
    | apply KeepsRes.ite
    | apply KeepsRes.bind
    | apply Keeps.ite
    | apply issue1_runs
    | apply popWords_keeps
    | apply regs_keeps
    | simp only [Keeps.lit]
    | refine Keeps.foldl (fun _ _ _ => ?_) _ ?_
    | refine Keeps.of_pair ‹_ = (_, _)› ?_
    | refine KeepsRes.of_ok ‹_ = Res.ok _ _› ?_
    | refine KeepsRes.of_wait ‹_ = Res.wait _› ?_
    | (split)
    | (intro _ _ _)
    | (intro _ _)

theorem storeOp_runs {σ : State} (c : Sys2Proof.CoreId) (o : Sys2Proof.Opnd) (s : Sys2Proof.Machine.State) (f : Sys2Proof.Machine.Regs → Sys2Proof.Word) (hk : Keeps σ s) : Runs σ (storeOp c o s f) := by
  unfold storeOp
  try dsimp only
  with_reducible repeat' first
    | assumption
    | apply Runs.next
    | apply Runs.ite
    | apply KeepsRes.ok
    | exact KeepsRes.exc
    | apply KeepsRes.wait
    | apply KeepsRes.ite
    | apply KeepsRes.bind
    | apply Keeps.ite
    | apply issueOp_runs
    | apply effective_keeps
    | apply store_keeps
    | simp only [Keeps.lit]
    | refine Keeps.foldl (fun _ _ _ => ?_) _ ?_
    | refine Keeps.of_pair ‹_ = (_, _)› ?_
    | refine KeepsRes.of_ok ‹_ = Res.ok _ _› ?_
    | refine KeepsRes.of_wait ‹_ = Res.wait _› ?_
    | (split)
    | (intro _ _ _)
    | (intro _ _)

end Sys2Proof.Machine
end

