-- ==== Sys2Proof/Laws/KeepsCpuControl.lean ====
section
/-! SUPPORT. Every operation of Machine/CpuControl.lean keeps what a command keeps. -/

set_option linter.all false

namespace Sys2Proof.Machine

theorem wevComplete_keeps {σ : State} (c : Sys2Proof.CoreId) (line : Nat) (len : Nat) (s : Sys2Proof.Machine.State) (hk : Keeps σ s) : Keeps σ (wevComplete c line len s) := by
  unfold wevComplete
  try dsimp only
  with_reducible repeat' first
    | assumption
    | apply Keeps.ite
    | apply State.setRegBit_keeps
    | apply retired_keeps
    | apply logEntry_keeps
    | apply State.modCore_keeps
    | simp only [Keeps.lit]
    | refine Keeps.foldl (fun _ _ _ => ?_) _ ?_
    | refine Keeps.of_pair ‹_ = (_, _)› ?_
    | (split)
    | (intro _ _ _)
    | (intro _ _)

theorem execWev_runs {σ : State} (c : Sys2Proof.CoreId) (o : Sys2Proof.Opnd) (s : Sys2Proof.Machine.State) (hk : Keeps σ s) : Runs σ (execWev c o s) := by
  unfold execWev
  try dsimp only
  with_reducible repeat' first
    | assumption
    | apply Runs.next
    | apply Runs.ite
    | apply KeepsRes.ok
    | exact KeepsRes.exc
    | apply KeepsRes.wait
    | apply KeepsRes.ite
    | apply KeepsRes.bind
    | apply Keeps.ite
    | apply wevComplete_keeps
    | apply takeExc_keeps
    | apply effective_keeps
    | apply fetched_keeps
    | apply loadWords_keeps
    | apply waits_keeps
    | apply State.modCore_keeps
    | simp only [Keeps.lit]
    | refine Keeps.foldl (fun _ _ _ => ?_) _ ?_
    | refine Keeps.of_pair ‹_ = (_, _)› ?_
    | refine KeepsRes.of_ok ‹_ = Res.ok _ _› ?_
    | refine KeepsRes.of_wait ‹_ = Res.wait _› ?_
    | (split)
    | (intro _ _ _)
    | (intro _ _)

theorem execRte_runs {σ : State} (c : Sys2Proof.CoreId) (s : Sys2Proof.Machine.State) (hk : Keeps σ s) : Runs σ (execRte c s) := by
  unfold execRte
  try dsimp only
  with_reducible repeat' first
    | assumption
    | apply Runs.next
    | apply Runs.ite
    | apply KeepsRes.ok
    | exact KeepsRes.exc
    | apply KeepsRes.wait
    | apply KeepsRes.ite
    | apply KeepsRes.bind
    | apply Keeps.ite
    | apply issue1_runs
    | apply popWords_keeps
    | apply loadFrame_keeps
    | apply State.modCore_keeps
    | simp only [Keeps.lit]
    | refine Keeps.foldl (fun _ _ _ => ?_) _ ?_
    | refine Keeps.of_pair ‹_ = (_, _)› ?_
    | refine KeepsRes.of_ok ‹_ = Res.ok _ _› ?_
    | refine KeepsRes.of_wait ‹_ = Res.wait _› ?_
    | (split)
    | (intro _ _ _)
    | (intro _ _)

theorem execChk_runs {σ : State} (c : Sys2Proof.CoreId) (s : Sys2Proof.Machine.State) (hk : Keeps σ s) : Runs σ (execChk c s) := by
  unfold execChk
  try dsimp only
  with_reducible repeat' first
    | assumption
    | apply Runs.next
    | apply Runs.ite
    | apply KeepsRes.ok
    | exact KeepsRes.exc
    | apply KeepsRes.wait
    | apply KeepsRes.ite
    | apply KeepsRes.bind
    | apply Keeps.ite
    | apply issue1_runs
    | apply State.modCore_keeps
    | simp only [Keeps.lit]
    | refine Keeps.foldl (fun _ _ _ => ?_) _ ?_
    | refine Keeps.of_pair ‹_ = (_, _)› ?_
    | refine KeepsRes.of_ok ‹_ = Res.ok _ _› ?_
    | refine KeepsRes.of_wait ‹_ = Res.wait _› ?_
    | (split)
    | (intro _ _ _)
    | (intro _ _)

theorem writeDesc_keeps {σ : State} (self : Nat) (n : Nat) (e : Nat) (ws : List Sys2Proof.Word) (s : Sys2Proof.Machine.State) (hk : Keeps σ s) : Keeps σ (writeDesc self n e ws s) := by
  unfold writeDesc
  try dsimp only
  with_reducible repeat' first
    | assumption
    | apply Keeps.ite
    | apply logEntry_keeps
    | apply State.modCore_keeps
    | simp only [Keeps.lit]
    | refine Keeps.foldl (fun _ _ _ => ?_) _ ?_
    | refine Keeps.of_pair ‹_ = (_, _)› ?_
    | (split)
    | (intro _ _ _)
    | (intro _ _)

theorem execSevRaise_runs {σ : State} (c : Sys2Proof.CoreId) (s : Sys2Proof.Machine.State) (hk : Keeps σ s) : Runs σ (execSevRaise c s) := by
  unfold execSevRaise
  try dsimp only
  with_reducible repeat' first
    | assumption
    | apply Runs.next
    | apply Runs.ite
    | apply Keeps.ite
    | apply drainCore_keeps
    | apply State.modCore_keeps
    | apply State.raiseLine_keeps
    | simp only [Keeps.lit]
    | refine Keeps.foldl (fun _ _ _ => ?_) _ ?_
    | refine Keeps.of_pair ‹_ = (_, _)› ?_
    | (split)
    | (intro _ _ _)
    | (intro _ _)

theorem atomicAddr_keeps {σ : State} (c : Nat) (o : Sys2Proof.Opnd) (n : Sys2Proof.Machine.Need) (s : Sys2Proof.Machine.State) (hk : Keeps σ s) : KeepsRes σ (atomicAddr c o n s) := by
  unfold atomicAddr
  try dsimp only
  with_reducible repeat' first
    | assumption
    | apply KeepsRes.ok
    | exact KeepsRes.exc
    | apply KeepsRes.wait
    | apply KeepsRes.ite
    | apply KeepsRes.bind
    | apply Keeps.ite
    | apply effective_keeps
    | simp only [Keeps.lit]
    | refine Keeps.foldl (fun _ _ _ => ?_) _ ?_
    | refine Keeps.of_pair ‹_ = (_, _)› ?_
    | refine KeepsRes.of_ok ‹_ = Res.ok _ _› ?_
    | refine KeepsRes.of_wait ‹_ = Res.wait _› ?_
    | (split)
    | (intro _ _ _)
    | (intro _ _)

theorem execTas_runs {σ : State} (c : Sys2Proof.CoreId) (o : Sys2Proof.Opnd) (s : Sys2Proof.Machine.State) (hk : Keeps σ s) : Runs σ (execTas c o s) := by
  unfold execTas
  try dsimp only
  with_reducible repeat' first
    | assumption
    | apply Runs.next
    | apply Runs.ite
    | apply KeepsRes.ok
    | exact KeepsRes.exc
    | apply KeepsRes.wait
    | apply KeepsRes.ite
    | apply KeepsRes.bind
    | apply KeepsLoaded.value
    | apply KeepsLoaded.waiting
    | exact KeepsLoaded.double
    | apply KeepsLoaded.ite
    | apply Keeps.ite
    | apply issueOp_runs
    | apply atomicAddr_keeps
    | apply coreLoad_keeps
    | apply logEntry_keeps
    | apply regs_keeps
    | apply coreWriteNow_keeps
    | simp only [Keeps.lit]
    | refine Keeps.foldl (fun _ _ _ => ?_) _ ?_
    | refine Keeps.of_pair ‹_ = (_, _)› ?_
    | refine KeepsLoaded.of_value ‹_ = Loaded.value _ _› ?_
    | refine KeepsLoaded.of_waiting ‹_ = Loaded.waiting _› ?_
    | refine KeepsRes.of_ok ‹_ = Res.ok _ _› ?_
    | refine KeepsRes.of_wait ‹_ = Res.wait _› ?_
    | (split)
    | (intro _ _ _)
    | (intro _ _)

theorem execLfd_runs {σ : State} (c : Sys2Proof.CoreId) (o : Sys2Proof.Opnd) (s : Sys2Proof.Machine.State) (hk : Keeps σ s) : Runs σ (execLfd c o s) := by
  unfold execLfd
  try dsimp only
  with_reducible repeat' first
    | assumption
    | apply Runs.next
    | apply Runs.ite
    | apply KeepsRes.ok
    | exact KeepsRes.exc
    | apply KeepsRes.wait
    | apply KeepsRes.ite
    | apply KeepsRes.bind
    | apply Keeps.ite
    | apply issueOp_runs
    | apply source_keeps
    | apply loadFrame_keeps
    | simp only [Keeps.lit]
    | refine Keeps.foldl (fun _ _ _ => ?_) _ ?_
    | refine Keeps.of_pair ‹_ = (_, _)› ?_
    | refine KeepsRes.of_ok ‹_ = Res.ok _ _› ?_
    | refine KeepsRes.of_wait ‹_ = Res.wait _› ?_
    | (split)
    | (intro _ _ _)
    | (intro _ _)

theorem execEventEntry_runs {σ : State} (c : Sys2Proof.CoreId) (s : Sys2Proof.Machine.State) (hk : Keeps σ s) : Runs σ (execEventEntry c s) := by
  unfold execEventEntry
  try dsimp only
  with_reducible repeat' first
    | assumption
    | apply Runs.next
    | apply Runs.ite
    | apply KeepsRes.ok
    | exact KeepsRes.exc
    | apply KeepsRes.wait
    | apply KeepsRes.ite
    | apply KeepsRes.bind
    | apply Keeps.ite
    | apply State.modCore_keeps
    | apply excEntry_keeps
    | apply enterLine_keeps
    | apply doubleFault_keeps
    | apply recordFault_keeps
    | apply waits_keeps
    | simp only [Keeps.lit]
    | refine Keeps.foldl (fun _ _ _ => ?_) _ ?_
    | refine Keeps.of_pair ‹_ = (_, _)› ?_
    | refine KeepsRes.of_ok ‹_ = Res.ok _ _› ?_
    | refine KeepsRes.of_wait ‹_ = Res.wait _› ?_
    | (split)
    | (intro _ _ _)
    | (intro _ _)

theorem execSdt_runs {σ : State} (c : Sys2Proof.CoreId) (o : Sys2Proof.Opnd) (s : Sys2Proof.Machine.State) (hk : Keeps σ s) : Runs σ (execSdt c o s) := by
  unfold execSdt
  try dsimp only
  with_reducible repeat' first
    | assumption
    | apply Runs.next
    | apply Runs.ite
    | apply KeepsRes.ok
    | exact KeepsRes.exc
    | apply KeepsRes.wait
    | apply KeepsRes.ite
    | apply KeepsRes.bind
    | apply Keeps.ite
    | apply issueOp_runs
    | apply effective_keeps
    | apply loadWords_keeps
    | apply writeDesc_keeps
    | apply regs_keeps
    | simp only [Keeps.lit]
    | refine Keeps.foldl (fun _ _ _ => ?_) _ ?_
    | refine Keeps.of_pair ‹_ = (_, _)› ?_
    | refine KeepsRes.of_ok ‹_ = Res.ok _ _› ?_
    | refine KeepsRes.of_wait ‹_ = Res.wait _› ?_
    | (split)
    | (intro _ _ _)
    | (intro _ _)

theorem setPc_keeps {σ : State} (c : Sys2Proof.CoreId) (v : Sys2Proof.Word) (s : Sys2Proof.Machine.State) (hk : Keeps σ s) : KeepsRes σ (setPc c v s) := by
  unfold setPc
  try dsimp only
  with_reducible repeat' first
    | assumption
    | apply KeepsRes.ok
    | exact KeepsRes.exc
    | apply KeepsRes.wait
    | apply KeepsRes.ite
    | apply KeepsRes.bind
    | apply Keeps.ite
    | apply regs_keeps
    | simp only [Keeps.lit]
    | refine Keeps.foldl (fun _ _ _ => ?_) _ ?_
    | refine Keeps.of_pair ‹_ = (_, _)› ?_
    | refine KeepsRes.of_ok ‹_ = Res.ok _ _› ?_
    | refine KeepsRes.of_wait ‹_ = Res.wait _› ?_
    | (split)
    | (intro _ _ _)
    | (intro _ _)

theorem execCall_runs {σ : State} (c : Sys2Proof.CoreId) (o : Sys2Proof.Opnd) (s : Sys2Proof.Machine.State) (hk : Keeps σ s) : Runs σ (execCall c o s) := by
  unfold execCall
  try dsimp only
  with_reducible repeat' first
    | assumption
    | apply Runs.next
    | apply Runs.ite
    | apply KeepsRes.ok
    | exact KeepsRes.exc
    | apply KeepsRes.wait
    | apply KeepsRes.ite
    | apply KeepsRes.bind
    | apply Keeps.ite
    | apply issueOp_runs
    | apply source_keeps
    | apply pushWords_keeps
    | apply setPc_keeps
    | simp only [Keeps.lit]
    | refine Keeps.foldl (fun _ _ _ => ?_) _ ?_
    | refine Keeps.of_pair ‹_ = (_, _)› ?_
    | refine KeepsRes.of_ok ‹_ = Res.ok _ _› ?_
    | refine KeepsRes.of_wait ‹_ = Res.wait _› ?_
    | (split)
    | (intro _ _ _)
    | (intro _ _)

theorem execLfs_runs {σ : State} (c : Sys2Proof.CoreId) (o : Sys2Proof.Opnd) (s : Sys2Proof.Machine.State) (hk : Keeps σ s) : Runs σ (execLfs c o s) := by
  unfold execLfs
  try dsimp only
  with_reducible repeat' first
    | assumption
    | apply Runs.next
    | apply Runs.ite
    | apply KeepsRes.ok
    | exact KeepsRes.exc
    | apply KeepsRes.wait
    | apply KeepsRes.ite
    | apply KeepsRes.bind
    | apply Keeps.ite
    | apply issueOp_runs
    | apply source_keeps
    | apply loadFrame_keeps
    | apply State.modCore_keeps
    | simp only [Keeps.lit]
    | refine Keeps.foldl (fun _ _ _ => ?_) _ ?_
    | refine Keeps.of_pair ‹_ = (_, _)› ?_
    | refine KeepsRes.of_ok ‹_ = Res.ok _ _› ?_
    | refine KeepsRes.of_wait ‹_ = Res.wait _› ?_
    | (split)
    | (intro _ _ _)
    | (intro _ _)

theorem execLdt_runs {σ : State} (c : Sys2Proof.CoreId) (o : Sys2Proof.Opnd) (s : Sys2Proof.Machine.State) (hk : Keeps σ s) : Runs σ (execLdt c o s) := by
  unfold execLdt
  try dsimp only
  with_reducible repeat' first
    | assumption
    | apply Runs.next
    | apply Runs.ite
    | apply KeepsRes.ok
    | exact KeepsRes.exc
    | apply KeepsRes.wait
    | apply KeepsRes.ite
    | apply KeepsRes.bind
    | apply Keeps.ite
    | apply issueOp_runs
    | apply effective_keeps
    | apply storeWordsOk_keeps
    | apply storeAll_keeps
    | simp only [Keeps.lit]
    | refine Keeps.foldl (fun _ _ _ => ?_) _ ?_
    | refine Keeps.of_pair ‹_ = (_, _)› ?_
    | refine KeepsRes.of_ok ‹_ = Res.ok _ _› ?_
    | refine KeepsRes.of_wait ‹_ = Res.wait _› ?_
    | (split)
    | (intro _ _ _)
    | (intro _ _)

theorem scwAccess_keeps {σ : State} (c : Nat) (a : Nat) (s : Sys2Proof.Machine.State) (hk : Keeps σ s) : Keeps σ (scwAccess c a s) := by
  unfold scwAccess
  try dsimp only
  with_reducible repeat' first
    | assumption
    | apply Keeps.ite
    | apply memAccess_keeps
    | simp only [Keeps.lit]
    | refine Keeps.foldl (fun _ _ _ => ?_) _ ?_
    | refine Keeps.of_pair ‹_ = (_, _)› ?_
    | (split)
    | (intro _ _ _)
    | (intro _ _)

theorem execScw_runs {σ : State} (c : Sys2Proof.CoreId) (o : Sys2Proof.Opnd) (s : Sys2Proof.Machine.State) (hk : Keeps σ s) : Runs σ (execScw c o s) := by
  unfold execScw
  try dsimp only
  with_reducible repeat' first
    | assumption
    | apply Runs.next
    | apply Runs.ite
    | apply KeepsRes.ok
    | exact KeepsRes.exc
    | apply KeepsRes.wait
    | apply KeepsRes.ite
    | apply KeepsRes.bind
    | apply Keeps.ite
    | apply issueOp_runs
    | apply atomicAddr_keeps
    | apply scwAccess_keeps
    | apply logEntry_keeps
    | apply coreWriteNow_keeps
    | apply State.modCore_keeps
    | simp only [Keeps.lit]
    | refine Keeps.foldl (fun _ _ _ => ?_) _ ?_
    | refine Keeps.of_pair ‹_ = (_, _)› ?_
    | refine KeepsRes.of_ok ‹_ = Res.ok _ _› ?_
    | refine KeepsRes.of_wait ‹_ = Res.wait _› ?_
    | (split)
    | (intro _ _ _)
    | (intro _ _)

theorem farPointer_keeps {σ : State} (c : Nat) (o : Sys2Proof.Opnd) (s : Sys2Proof.Machine.State) (hk : Keeps σ s) : KeepsRes σ (farPointer c o s) := by
  unfold farPointer
  try dsimp only
  with_reducible repeat' first
    | assumption
    | apply KeepsRes.ok
    | exact KeepsRes.exc
    | apply KeepsRes.wait
    | apply KeepsRes.ite
    | apply KeepsRes.bind
    | apply Keeps.ite
    | apply effective_keeps
    | apply loadWords_keeps
    | simp only [Keeps.lit]
    | refine Keeps.foldl (fun _ _ _ => ?_) _ ?_
    | refine Keeps.of_pair ‹_ = (_, _)› ?_
    | refine KeepsRes.of_ok ‹_ = Res.ok _ _› ?_
    | refine KeepsRes.of_wait ‹_ = Res.wait _› ?_
    | (split)
    | (intro _ _ _)
    | (intro _ _)

theorem execRetf_runs {σ : State} (c : Sys2Proof.CoreId) (s : Sys2Proof.Machine.State) (hk : Keeps σ s) : Runs σ (execRetf c s) := by
  unfold execRetf
  try dsimp only
  with_reducible repeat' first
    | assumption
    | apply Runs.next
    | apply Runs.ite
    | apply KeepsRes.ok
    | exact KeepsRes.exc
    | apply KeepsRes.wait
    | apply KeepsRes.ite
    | apply KeepsRes.bind
    | apply Keeps.ite
    | apply issue1_runs
    | apply popWords_keeps
    | apply loadFrame_keeps
    | apply setPc_keeps
    | simp only [Keeps.lit]
    | refine Keeps.foldl (fun _ _ _ => ?_) _ ?_
    | refine Keeps.of_pair ‹_ = (_, _)› ?_
    | refine KeepsRes.of_ok ‹_ = Res.ok _ _› ?_
    | refine KeepsRes.of_wait ‹_ = Res.wait _› ?_
    | (split)
    | (intro _ _ _)
    | (intro _ _)

theorem execLrw_runs {σ : State} (c : Sys2Proof.CoreId) (o : Sys2Proof.Opnd) (s : Sys2Proof.Machine.State) (hk : Keeps σ s) : Runs σ (execLrw c o s) := by
  unfold execLrw
  try dsimp only
  with_reducible repeat' first
    | assumption
    | apply Runs.next
    | apply Runs.ite
    | apply KeepsRes.ok
    | exact KeepsRes.exc
    | apply KeepsRes.wait
    | apply KeepsRes.ite
    | apply KeepsRes.bind
    | apply KeepsLoaded.value
    | apply KeepsLoaded.waiting
    | exact KeepsLoaded.double
    | apply KeepsLoaded.ite
    | apply Keeps.ite
    | apply issueOp_runs
    | apply atomicAddr_keeps
    | apply coreLoad_keeps
    | apply logEntry_keeps
    | apply State.modCore_keeps
    | simp only [Keeps.lit]
    | refine Keeps.foldl (fun _ _ _ => ?_) _ ?_
    | refine Keeps.of_pair ‹_ = (_, _)› ?_
    | refine KeepsLoaded.of_value ‹_ = Loaded.value _ _› ?_
    | refine KeepsLoaded.of_waiting ‹_ = Loaded.waiting _› ?_
    | refine KeepsRes.of_ok ‹_ = Res.ok _ _› ?_
    | refine KeepsRes.of_wait ‹_ = Res.wait _› ?_
    | (split)
    | (intro _ _ _)
    | (intro _ _)

theorem execJmpf_runs {σ : State} (c : Sys2Proof.CoreId) (o : Sys2Proof.Opnd) (s : Sys2Proof.Machine.State) (hk : Keeps σ s) : Runs σ (execJmpf c o s) := by
  unfold execJmpf
  try dsimp only
  with_reducible repeat' first
    | assumption
    | apply Runs.next
    | apply Runs.ite
    | apply KeepsRes.ok
    | exact KeepsRes.exc
    | apply KeepsRes.wait
    | apply KeepsRes.ite
    | apply KeepsRes.bind
    | apply Keeps.ite
    | apply issueOp_runs
    | apply farPointer_keeps
    | apply loadFrame_keeps
    | apply setPc_keeps
    | simp only [Keeps.lit]
    | refine Keeps.foldl (fun _ _ _ => ?_) _ ?_
    | refine Keeps.of_pair ‹_ = (_, _)› ?_
    | refine KeepsRes.of_ok ‹_ = Res.ok _ _› ?_
    | refine KeepsRes.of_wait ‹_ = Res.wait _› ?_
    | (split)
    | (intro _ _ _)
    | (intro _ _)

theorem execLfe_runs {σ : State} (c : Sys2Proof.CoreId) (o : Sys2Proof.Opnd) (s : Sys2Proof.Machine.State) (hk : Keeps σ s) : Runs σ (execLfe c o s) := by
  unfold execLfe
  try dsimp only
  with_reducible repeat' first
    | assumption
    | apply Runs.next
    | apply Runs.ite
    | apply KeepsRes.ok
    | exact KeepsRes.exc
    | apply KeepsRes.wait
    | apply KeepsRes.ite
    | apply KeepsRes.bind
    | apply Keeps.ite
    | apply issueOp_runs
    | apply source_keeps
    | apply loadFrame_keeps
    | simp only [Keeps.lit]
    | refine Keeps.foldl (fun _ _ _ => ?_) _ ?_
    | refine Keeps.of_pair ‹_ = (_, _)› ?_
    | refine KeepsRes.of_ok ‹_ = Res.ok _ _› ?_
    | refine KeepsRes.of_wait ‹_ = Res.wait _› ?_
    | (split)
    | (intro _ _ _)
    | (intro _ _)

theorem execSev_runs {σ : State} (c : Sys2Proof.CoreId) (o : Sys2Proof.Opnd) (s : Sys2Proof.Machine.State) (hk : Keeps σ s) : Runs σ (execSev c o s) := by
  unfold execSev
  try dsimp only
  with_reducible repeat' first
    | assumption
    | apply Runs.next
    | apply Runs.ite
    | apply KeepsRes.ok
    | exact KeepsRes.exc
    | apply KeepsRes.wait
    | apply KeepsRes.ite
    | apply KeepsRes.bind
    | apply Keeps.ite
    | apply issueOp_runs
    | apply source_keeps
    | apply State.modCore_keeps
    | simp only [Keeps.lit]
    | refine Keeps.foldl (fun _ _ _ => ?_) _ ?_
    | refine Keeps.of_pair ‹_ = (_, _)› ?_
    | refine KeepsRes.of_ok ‹_ = Res.ok _ _› ?_
    | refine KeepsRes.of_wait ‹_ = Res.wait _› ?_
    | (split)
    | (intro _ _ _)
    | (intro _ _)

theorem execJmp_runs {σ : State} (c : Sys2Proof.CoreId) (o : Sys2Proof.Opnd) (s : Sys2Proof.Machine.State) (hk : Keeps σ s) : Runs σ (execJmp c o s) := by
  unfold execJmp
  try dsimp only
  with_reducible repeat' first
    | assumption
    | apply Runs.next
    | apply Runs.ite
    | apply KeepsRes.ok
    | exact KeepsRes.exc
    | apply KeepsRes.wait
    | apply KeepsRes.ite
    | apply KeepsRes.bind
    | apply Keeps.ite
    | apply issueOp_runs
    | apply source_keeps
    | apply setPc_keeps
    | simp only [Keeps.lit]
    | refine Keeps.foldl (fun _ _ _ => ?_) _ ?_
    | refine Keeps.of_pair ‹_ = (_, _)› ?_
    | refine KeepsRes.of_ok ‹_ = Res.ok _ _› ?_
    | refine KeepsRes.of_wait ‹_ = Res.wait _› ?_
    | (split)
    | (intro _ _ _)
    | (intro _ _)

theorem execBcc_runs {σ : State} (c : Sys2Proof.CoreId) (k : Sys2Proof.Cond) (d : BitVec 7) (s : Sys2Proof.Machine.State) (hk : Keeps σ s) : Runs σ (execBcc c k d s) := by
  unfold execBcc
  try dsimp only
  with_reducible repeat' first
    | assumption
    | apply Runs.next
    | apply Runs.ite
    | apply KeepsRes.ok
    | exact KeepsRes.exc
    | apply KeepsRes.wait
    | apply KeepsRes.ite
    | apply KeepsRes.bind
    | apply Keeps.ite
    | apply issue1_runs
    | apply setPc_keeps
    | simp only [Keeps.lit]
    | refine Keeps.foldl (fun _ _ _ => ?_) _ ?_
    | refine Keeps.of_pair ‹_ = (_, _)› ?_
    | refine KeepsRes.of_ok ‹_ = Res.ok _ _› ?_
    | refine KeepsRes.of_wait ‹_ = Res.wait _› ?_
    | (split)
    | (intro _ _ _)
    | (intro _ _)

theorem checkCode_keeps {σ : State} (c : Nat) (sel : Nat) (s : Sys2Proof.Machine.State) (hk : Keeps σ s) : KeepsRes σ (checkCode c sel s) := by
  unfold checkCode
  try dsimp only
  with_reducible repeat' first
    | assumption
    | apply KeepsRes.ok
    | exact KeepsRes.exc
    | apply KeepsRes.wait
    | apply KeepsRes.ite
    | apply KeepsRes.bind
    | apply Keeps.ite
    | simp only [Keeps.lit]
    | refine Keeps.foldl (fun _ _ _ => ?_) _ ?_
    | refine Keeps.of_pair ‹_ = (_, _)› ?_
    | refine KeepsRes.of_ok ‹_ = Res.ok _ _› ?_
    | refine KeepsRes.of_wait ‹_ = Res.wait _› ?_
    | (split)
    | (intro _ _ _)
    | (intro _ _)

theorem execCallf_runs {σ : State} (c : Sys2Proof.CoreId) (o : Sys2Proof.Opnd) (s : Sys2Proof.Machine.State) (hk : Keeps σ s) : Runs σ (execCallf c o s) := by
  unfold execCallf
  try dsimp only
  with_reducible repeat' first
    | assumption
    | apply Runs.next
    | apply Runs.ite
    | apply KeepsRes.ok
    | exact KeepsRes.exc
    | apply KeepsRes.wait
    | apply KeepsRes.ite
    | apply KeepsRes.bind
    | apply Keeps.ite
    | apply issueOp_runs
    | apply farPointer_keeps
    | apply checkCode_keeps
    | apply pushWords_keeps
    | apply loadFrame_keeps
    | apply setPc_keeps
    | simp only [Keeps.lit]
    | refine Keeps.foldl (fun _ _ _ => ?_) _ ?_
    | refine Keeps.of_pair ‹_ = (_, _)› ?_
    | refine KeepsRes.of_ok ‹_ = Res.ok _ _› ?_
    | refine KeepsRes.of_wait ‹_ = Res.wait _› ?_
    | (split)
    | (intro _ _ _)
    | (intro _ _)

theorem execUndefinedOpcode_runs {σ : State} (c : Sys2Proof.CoreId) (w : Sys2Proof.Word) (s : Sys2Proof.Machine.State) (hk : Keeps σ s) : Runs σ (execUndefinedOpcode c w s) := by
  unfold execUndefinedOpcode
  try dsimp only
  with_reducible repeat' first
    | assumption
    | apply Runs.next
    | apply Runs.ite
    | apply KeepsRes.ok
    | exact KeepsRes.exc
    | apply KeepsRes.wait
    | apply KeepsRes.ite
    | apply KeepsRes.bind
    | apply Keeps.ite
    | apply issue_runs
    | simp only [Keeps.lit]
    | refine Keeps.foldl (fun _ _ _ => ?_) _ ?_
    | refine Keeps.of_pair ‹_ = (_, _)› ?_
    | refine KeepsRes.of_ok ‹_ = Res.ok _ _› ?_
    | refine KeepsRes.of_wait ‹_ = Res.wait _› ?_
    | (split)
    | (intro _ _ _)
    | (intro _ _)

theorem execRet_runs {σ : State} (c : Sys2Proof.CoreId) (s : Sys2Proof.Machine.State) (hk : Keeps σ s) : Runs σ (execRet c s) := by
  unfold execRet
  try dsimp only
  with_reducible repeat' first
    | assumption
    | apply Runs.next
    | apply Runs.ite
    | apply KeepsRes.ok
    | exact KeepsRes.exc
    | apply KeepsRes.wait
    | apply KeepsRes.ite
    | apply KeepsRes.bind
    | apply Keeps.ite
    | apply issue1_runs
    | apply popWords_keeps
    | apply setPc_keeps
    | simp only [Keeps.lit]
    | refine Keeps.foldl (fun _ _ _ => ?_) _ ?_
    | refine Keeps.of_pair ‹_ = (_, _)› ?_
    | refine KeepsRes.of_ok ‹_ = Res.ok _ _› ?_
    | refine KeepsRes.of_wait ‹_ = Res.wait _› ?_
    | (split)
    | (intro _ _ _)
    | (intro _ _)

end Sys2Proof.Machine
end

