-- ==== Sys2Proof/Laws/KeepsCpuData.lean ====
section
/-! SUPPORT. Every operation of Machine/CpuData.lean keeps what a command keeps. -/

set_option linter.all false

namespace Sys2Proof.Machine

theorem execInb_runs {σ : State} (c : Sys2Proof.CoreId) (o : Sys2Proof.Opnd) (s : Sys2Proof.Machine.State) (hk : Keeps σ s) : Runs σ (execInb c o s) := by
  unfold execInb
  try dsimp only
  with_reducible repeat' first
    | assumption
    | apply Runs.next
    | apply Runs.ite
    | apply KeepsRes.ok
    | exact KeepsRes.exc
    | apply KeepsRes.wait
    | apply KeepsRes.ite
    | apply KeepsRes.bind
    | apply Keeps.ite
    | apply issueOp_runs
    | apply byteOperand_keeps
    | apply modifyAt_keeps
    | simp only [Keeps.lit]
    | refine Keeps.foldl (fun _ _ _ => ?_) _ ?_
    | refine Keeps.of_pair ‹_ = (_, _)› ?_
    | refine KeepsRes.of_ok ‹_ = Res.ok _ _› ?_
    | refine KeepsRes.of_wait ‹_ = Res.wait _› ?_
    | (split)
    | (intro _ _ _)
    | (intro _ _)

theorem implicitOp_runs {σ : State} (c : Sys2Proof.CoreId) (s : Sys2Proof.Machine.State) (f : Sys2Proof.Machine.Regs → Sys2Proof.Machine.Regs) (hk : Keeps σ s) : Runs σ (implicitOp c s f) := by
  unfold implicitOp
  try dsimp only
  with_reducible repeat' first
    | assumption
    | apply Runs.next
    | apply Runs.ite
    | apply KeepsRes.ok
    | exact KeepsRes.exc
    | apply KeepsRes.wait
    | apply KeepsRes.ite
    | apply KeepsRes.bind
    | apply Keeps.ite
    | apply issue1_runs
    | apply regs_keeps
    | simp only [Keeps.lit]
    | refine Keeps.foldl (fun _ _ _ => ?_) _ ?_
    | refine Keeps.of_pair ‹_ = (_, _)› ?_
    | refine KeepsRes.of_ok ‹_ = Res.ok _ _› ?_
    | refine KeepsRes.of_wait ‹_ = Res.wait _› ?_
    | (split)
    | (intro _ _ _)
    | (intro _ _)

theorem execEi_runs {σ : State} (c : Sys2Proof.CoreId) (s : Sys2Proof.Machine.State) (hk : Keeps σ s) : Runs σ (execEi c s) := by
  unfold execEi
  try dsimp only
  with_reducible repeat' first
    | assumption
    | apply Runs.next
    | apply Runs.ite
    | apply Keeps.ite
    | apply implicitOp_runs
    | simp only [Keeps.lit]
    | refine Keeps.foldl (fun _ _ _ => ?_) _ ?_
    | refine Keeps.of_pair ‹_ = (_, _)› ?_
    | (split)
    | (intro _ _ _)
    | (intro _ _)

theorem execOrOp_runs {σ : State} (c : Sys2Proof.CoreId) (o : Sys2Proof.Opnd) (s : Sys2Proof.Machine.State) (hk : Keeps σ s) : Runs σ (execOrOp c o s) := by
  unfold execOrOp
  try dsimp only
  with_reducible repeat' first
    | assumption
    | apply Runs.next
    | apply Runs.ite
    | apply Keeps.ite
    | apply sourceOp_runs
    | simp only [Keeps.lit]
    | refine Keeps.foldl (fun _ _ _ => ?_) _ ?_
    | refine Keeps.of_pair ‹_ = (_, _)› ?_
    | (split)
    | (intro _ _ _)
    | (intro _ _)

theorem shiftOp_runs {σ : State} (c : Sys2Proof.CoreId) (o : Sys2Proof.Opnd) (s : Sys2Proof.Machine.State) (f : Sys2Proof.Word → Nat → Sys2Proof.Machine.Shifted 16) (hk : Keeps σ s) : Runs σ (shiftOp c o s f) := by
  unfold shiftOp
  try dsimp only
  with_reducible repeat' first
    | assumption
    | apply Runs.next
    | apply Runs.ite
    | apply Keeps.ite
    | apply sourceOp_runs
    | simp only [Keeps.lit]
    | refine Keeps.foldl (fun _ _ _ => ?_) _ ?_
    | refine Keeps.of_pair ‹_ = (_, _)› ?_
    | (split)
    | (intro _ _ _)
    | (intro _ _)

theorem execShl_runs {σ : State} (c : Sys2Proof.CoreId) (o : Sys2Proof.Opnd) (s : Sys2Proof.Machine.State) (hk : Keeps σ s) : Runs σ (execShl c o s) := by
  unfold execShl
  try dsimp only
  with_reducible repeat' first
    | assumption
    | apply Runs.next
    | apply Runs.ite
    | apply Keeps.ite
    | apply shiftOp_runs
    | simp only [Keeps.lit]
    | refine Keeps.foldl (fun _ _ _ => ?_) _ ?_
    | refine Keeps.of_pair ‹_ = (_, _)› ?_
    | (split)
    | (intro _ _ _)
    | (intro _ _)

theorem execCpx_runs {σ : State} (c : Sys2Proof.CoreId) (o : Sys2Proof.Opnd) (s : Sys2Proof.Machine.State) (hk : Keeps σ s) : Runs σ (execCpx c o s) := by
  unfold execCpx
  try dsimp only
  with_reducible repeat' first
    | assumption
    | apply Runs.next
    | apply Runs.ite
    | apply Keeps.ite
    | apply sourceOp_runs
    | simp only [Keeps.lit]
    | refine Keeps.foldl (fun _ _ _ => ?_) _ ?_
    | refine Keeps.of_pair ‹_ = (_, _)› ?_
    | (split)
    | (intro _ _ _)
    | (intro _ _)

theorem execMvsa_runs {σ : State} (c : Sys2Proof.CoreId) (s : Sys2Proof.Machine.State) (hk : Keeps σ s) : Runs σ (execMvsa c s) := by
  unfold execMvsa
  try dsimp only
  with_reducible repeat' first
    | assumption
    | apply Runs.next
    | apply Runs.ite
    | apply Keeps.ite
    | apply implicitOp_runs
    | simp only [Keeps.lit]
    | refine Keeps.foldl (fun _ _ _ => ?_) _ ?_
    | refine Keeps.of_pair ‹_ = (_, _)› ?_
    | (split)
    | (intro _ _ _)
    | (intro _ _)

theorem execRfes_runs {σ : State} (c : Sys2Proof.CoreId) (s : Sys2Proof.Machine.State) (hk : Keeps σ s) : Runs σ (execRfes c s) := by
  unfold execRfes
  try dsimp only
  with_reducible repeat' first
    | assumption
    | apply Runs.next
    | apply Runs.ite
    | apply Keeps.ite
    | apply implicitOp_runs
    | simp only [Keeps.lit]
    | refine Keeps.foldl (fun _ _ _ => ?_) _ ?_
    | refine Keeps.of_pair ‹_ = (_, _)› ?_
    | (split)
    | (intro _ _ _)
    | (intro _ _)

theorem execRol_runs {σ : State} (c : Sys2Proof.CoreId) (o : Sys2Proof.Opnd) (s : Sys2Proof.Machine.State) (hk : Keeps σ s) : Runs σ (execRol c o s) := by
  unfold execRol
  try dsimp only
  with_reducible repeat' first
    | assumption
    | apply Runs.next
    | apply Runs.ite
    | apply Keeps.ite
    | apply shiftOp_runs
    | simp only [Keeps.lit]
    | refine Keeps.foldl (fun _ _ _ => ?_) _ ?_
    | refine Keeps.of_pair ‹_ = (_, _)› ?_
    | (split)
    | (intro _ _ _)
    | (intro _ _)

theorem execIny_runs {σ : State} (c : Sys2Proof.CoreId) (s : Sys2Proof.Machine.State) (hk : Keeps σ s) : Runs σ (execIny c s) := by
  unfold execIny
  try dsimp only
  with_reducible repeat' first
    | assumption
    | apply Runs.next
    | apply Runs.ite
    | apply Keeps.ite
    | apply implicitOp_runs
    | simp only [Keeps.lit]
    | refine Keeps.foldl (fun _ _ _ => ?_) _ ?_
    | refine Keeps.of_pair ‹_ = (_, _)› ?_
    | (split)
    | (intro _ _ _)
    | (intro _ _)

theorem execInc_runs {σ : State} (c : Sys2Proof.CoreId) (o : Sys2Proof.Opnd) (s : Sys2Proof.Machine.State) (hk : Keeps σ s) : Runs σ (execInc c o s) := by
  unfold execInc
  try dsimp only
  with_reducible repeat' first
    | assumption
    | apply Runs.next
    | apply Runs.ite
    | apply Keeps.ite
    | apply modifyOp_runs
    | simp only [Keeps.lit]
    | refine Keeps.foldl (fun _ _ _ => ?_) _ ?_
    | refine Keeps.of_pair ‹_ = (_, _)› ?_
    | (split)
    | (intro _ _ _)
    | (intro _ _)

theorem execMuls_runs {σ : State} (c : Sys2Proof.CoreId) (o : Sys2Proof.Opnd) (s : Sys2Proof.Machine.State) (hk : Keeps σ s) : Runs σ (execMuls c o s) := by
  unfold execMuls
  try dsimp only
  with_reducible repeat' first
    | assumption
    | apply Runs.next
    | apply Runs.ite
    | apply Keeps.ite
    | apply sourceOp_runs
    | simp only [Keeps.lit]
    | refine Keeps.foldl (fun _ _ _ => ?_) _ ?_
    | refine Keeps.of_pair ‹_ = (_, _)› ?_
    | (split)
    | (intro _ _ _)
    | (intro _ _)

theorem execInx_runs {σ : State} (c : Sys2Proof.CoreId) (s : Sys2Proof.Machine.State) (hk : Keeps σ s) : Runs σ (execInx c s) := by
  unfold execInx
  try dsimp only
  with_reducible repeat' first
    | assumption
    | apply Runs.next
    | apply Runs.ite
    | apply Keeps.ite
    | apply implicitOp_runs
    | simp only [Keeps.lit]
    | refine Keeps.foldl (fun _ _ _ => ?_) _ ?_
    | refine Keeps.of_pair ‹_ = (_, _)› ?_
    | (split)
    | (intro _ _ _)
    | (intro _ _)

theorem execLdx_runs {σ : State} (c : Sys2Proof.CoreId) (o : Sys2Proof.Opnd) (s : Sys2Proof.Machine.State) (hk : Keeps σ s) : Runs σ (execLdx c o s) := by
  unfold execLdx
  try dsimp only
  with_reducible repeat' first
    | assumption
    | apply Runs.next
    | apply Runs.ite
    | apply Keeps.ite
    | apply sourceOp_runs
    | simp only [Keeps.lit]
    | refine Keeps.foldl (fun _ _ _ => ?_) _ ?_
    | refine Keeps.of_pair ‹_ = (_, _)› ?_
    | (split)
    | (intro _ _ _)
    | (intro _ _)

theorem execMvax_runs {σ : State} (c : Sys2Proof.CoreId) (s : Sys2Proof.Machine.State) (hk : Keeps σ s) : Runs σ (execMvax c s) := by
  unfold execMvax
  try dsimp only
  with_reducible repeat' first
    | assumption
    | apply Runs.next
    | apply Runs.ite
    | apply Keeps.ite
    | apply implicitOp_runs
    | simp only [Keeps.lit]
    | refine Keeps.foldl (fun _ _ _ => ?_) _ ?_
    | refine Keeps.of_pair ‹_ = (_, _)› ?_
    | (split)
    | (intro _ _ _)
    | (intro _ _)

theorem execPsha_runs {σ : State} (c : Sys2Proof.CoreId) (s : Sys2Proof.Machine.State) (hk : Keeps σ s) : Runs σ (execPsha c s) := by
  unfold execPsha
  try dsimp only
  with_reducible repeat' first
    | assumption
    | apply Runs.next
    | apply Runs.ite
    | apply Keeps.ite
    | apply pushOp_runs
    | simp only [Keeps.lit]
    | refine Keeps.foldl (fun _ _ _ => ?_) _ ?_
    | refine Keeps.of_pair ‹_ = (_, _)› ?_
    | (split)
    | (intro _ _ _)
    | (intro _ _)

theorem execPope_runs {σ : State} (c : Sys2Proof.CoreId) (s : Sys2Proof.Machine.State) (hk : Keeps σ s) : Runs σ (execPope c s) := by
  unfold execPope
  try dsimp only
  with_reducible repeat' first
    | assumption
    | apply Runs.next
    | apply Runs.ite
    | apply Keeps.ite
    | apply popOp_runs
    | simp only [Keeps.lit]
    | refine Keeps.foldl (fun _ _ _ => ?_) _ ?_
    | refine Keeps.of_pair ‹_ = (_, _)› ?_
    | (split)
    | (intro _ _ _)
    | (intro _ _)

theorem execMvas_runs {σ : State} (c : Sys2Proof.CoreId) (s : Sys2Proof.Machine.State) (hk : Keeps σ s) : Runs σ (execMvas c s) := by
  unfold execMvas
  try dsimp only
  with_reducible repeat' first
    | assumption
    | apply Runs.next
    | apply Runs.ite
    | apply Keeps.ite
    | apply implicitOp_runs
    | simp only [Keeps.lit]
    | refine Keeps.foldl (fun _ _ _ => ?_) _ ?_
    | refine Keeps.of_pair ‹_ = (_, _)› ?_
    | (split)
    | (intro _ _ _)
    | (intro _ _)

theorem execSbc_runs {σ : State} (c : Sys2Proof.CoreId) (o : Sys2Proof.Opnd) (s : Sys2Proof.Machine.State) (hk : Keeps σ s) : Runs σ (execSbc c o s) := by
  unfold execSbc
  try dsimp only
  with_reducible repeat' first
    | assumption
    | apply Runs.next
    | apply Runs.ite
    | apply Keeps.ite
    | apply sourceOp_runs
    | simp only [Keeps.lit]
    | refine Keeps.foldl (fun _ _ _ => ?_) _ ?_
    | refine Keeps.of_pair ‹_ = (_, _)› ?_
    | (split)
    | (intro _ _ _)
    | (intro _ _)

theorem execSt_runs {σ : State} (c : Sys2Proof.CoreId) (o : Sys2Proof.Opnd) (s : Sys2Proof.Machine.State) (hk : Keeps σ s) : Runs σ (execSt c o s) := by
  unfold execSt
  try dsimp only
  with_reducible repeat' first
    | assumption
    | apply Runs.next
    | apply Runs.ite
    | apply Keeps.ite
    | apply storeOp_runs
    | simp only [Keeps.lit]
    | refine Keeps.foldl (fun _ _ _ => ?_) _ ?_
    | refine Keeps.of_pair ‹_ = (_, _)› ?_
    | (split)
    | (intro _ _ _)
    | (intro _ _)

theorem execAsr_runs {σ : State} (c : Sys2Proof.CoreId) (o : Sys2Proof.Opnd) (s : Sys2Proof.Machine.State) (hk : Keeps σ s) : Runs σ (execAsr c o s) := by
  unfold execAsr
  try dsimp only
  with_reducible repeat' first
    | assumption
    | apply Runs.next
    | apply Runs.ite
    | apply Keeps.ite
    | apply shiftOp_runs
    | simp only [Keeps.lit]
    | refine Keeps.foldl (fun _ _ _ => ?_) _ ?_
    | refine Keeps.of_pair ‹_ = (_, _)› ?_
    | (split)
    | (intro _ _ _)
    | (intro _ _)

theorem execLde_runs {σ : State} (c : Sys2Proof.CoreId) (o : Sys2Proof.Opnd) (s : Sys2Proof.Machine.State) (hk : Keeps σ s) : Runs σ (execLde c o s) := by
  unfold execLde
  try dsimp only
  with_reducible repeat' first
    | assumption
    | apply Runs.next
    | apply Runs.ite
    | apply Keeps.ite
    | apply sourceOp_runs
    | simp only [Keeps.lit]
    | refine Keeps.foldl (fun _ _ _ => ?_) _ ?_
    | refine Keeps.of_pair ‹_ = (_, _)› ?_
    | (split)
    | (intro _ _ _)
    | (intro _ _)

theorem execPshe_runs {σ : State} (c : Sys2Proof.CoreId) (s : Sys2Proof.Machine.State) (hk : Keeps σ s) : Runs σ (execPshe c s) := by
  unfold execPshe
  try dsimp only
  with_reducible repeat' first
    | assumption
    | apply Runs.next
    | apply Runs.ite
    | apply Keeps.ite
    | apply pushOp_runs
    | simp only [Keeps.lit]
    | refine Keeps.foldl (fun _ _ _ => ?_) _ ?_
    | refine Keeps.of_pair ‹_ = (_, _)› ?_
    | (split)
    | (intro _ _ _)
    | (intro _ _)

theorem execPop_runs {σ : State} (c : Sys2Proof.CoreId) (o : Sys2Proof.Opnd) (s : Sys2Proof.Machine.State) (hk : Keeps σ s) : Runs σ (execPop c o s) := by
  unfold execPop
  try dsimp only
  with_reducible repeat' first
    | assumption
    | apply Runs.next
    | apply Runs.ite
    | apply KeepsRes.ok
    | exact KeepsRes.exc
    | apply KeepsRes.wait
    | apply KeepsRes.ite
    | apply KeepsRes.bind
    | apply Keeps.ite
    | apply issueOp_runs
    | apply effective_keeps
    | apply State.modR_keeps
    | apply load_keeps
    | apply store_keeps
    | simp only [Keeps.lit]
    | refine Keeps.foldl (fun _ _ _ => ?_) _ ?_
    | refine Keeps.of_pair ‹_ = (_, _)› ?_
    | refine KeepsRes.of_ok ‹_ = Res.ok _ _› ?_
    | refine KeepsRes.of_wait ‹_ = Res.wait _› ?_
    | (split)
    | (intro _ _ _)
    | (intro _ _)

theorem execRor_runs {σ : State} (c : Sys2Proof.CoreId) (o : Sys2Proof.Opnd) (s : Sys2Proof.Machine.State) (hk : Keeps σ s) : Runs σ (execRor c o s) := by
  unfold execRor
  try dsimp only
  with_reducible repeat' first
    | assumption
    | apply Runs.next
    | apply Runs.ite
    | apply Keeps.ite
    | apply shiftOp_runs
    | simp only [Keeps.lit]
    | refine Keeps.foldl (fun _ _ _ => ?_) _ ?_
    | refine Keeps.of_pair ‹_ = (_, _)› ?_
    | (split)
    | (intro _ _ _)
    | (intro _ _)

theorem execDey_runs {σ : State} (c : Sys2Proof.CoreId) (s : Sys2Proof.Machine.State) (hk : Keeps σ s) : Runs σ (execDey c s) := by
  unfold execDey
  try dsimp only
  with_reducible repeat' first
    | assumption
    | apply Runs.next
    | apply Runs.ite
    | apply Keeps.ite
    | apply implicitOp_runs
    | simp only [Keeps.lit]
    | refine Keeps.foldl (fun _ _ _ => ?_) _ ?_
    | refine Keeps.of_pair ‹_ = (_, _)› ?_
    | (split)
    | (intro _ _ _)
    | (intro _ _)

theorem execAds_runs {σ : State} (c : Sys2Proof.CoreId) (o : Sys2Proof.Opnd) (s : Sys2Proof.Machine.State) (hk : Keeps σ s) : Runs σ (execAds c o s) := by
  unfold execAds
  try dsimp only
  with_reducible repeat' first
    | assumption
    | apply Runs.next
    | apply Runs.ite
    | apply Keeps.ite
    | apply sourceOp_runs
    | simp only [Keeps.lit]
    | refine Keeps.foldl (fun _ _ _ => ?_) _ ?_
    | refine Keeps.of_pair ‹_ = (_, _)› ?_
    | (split)
    | (intro _ _ _)
    | (intro _ _)

theorem shiftLongOp_runs {σ : State} (c : Sys2Proof.CoreId) (o : Sys2Proof.Opnd) (s : Sys2Proof.Machine.State) (f : BitVec 32 → Nat → Sys2Proof.Machine.Shifted 32) (hk : Keeps σ s) : Runs σ (shiftLongOp c o s f) := by
  unfold shiftLongOp
  try dsimp only
  with_reducible repeat' first
    | assumption
    | apply Runs.next
    | apply Runs.ite
    | apply Keeps.ite
    | apply sourceOp_runs
    | simp only [Keeps.lit]
    | refine Keeps.foldl (fun _ _ _ => ?_) _ ?_
    | refine Keeps.of_pair ‹_ = (_, _)› ?_
    | (split)
    | (intro _ _ _)
    | (intro _ _)

theorem execAsrd_runs {σ : State} (c : Sys2Proof.CoreId) (o : Sys2Proof.Opnd) (s : Sys2Proof.Machine.State) (hk : Keeps σ s) : Runs σ (execAsrd c o s) := by
  unfold execAsrd
  try dsimp only
  with_reducible repeat' first
    | assumption
    | apply Runs.next
    | apply Runs.ite
    | apply Keeps.ite
    | apply shiftLongOp_runs
    | simp only [Keeps.lit]
    | refine Keeps.foldl (fun _ _ _ => ?_) _ ?_
    | refine Keeps.of_pair ‹_ = (_, _)› ?_
    | (split)
    | (intro _ _ _)
    | (intro _ _)

theorem execPopy_runs {σ : State} (c : Sys2Proof.CoreId) (s : Sys2Proof.Machine.State) (hk : Keeps σ s) : Runs σ (execPopy c s) := by
  unfold execPopy
  try dsimp only
  with_reducible repeat' first
    | assumption
    | apply Runs.next
    | apply Runs.ite
    | apply Keeps.ite
    | apply popOp_runs
    | simp only [Keeps.lit]
    | refine Keeps.foldl (fun _ _ _ => ?_) _ ?_
    | refine Keeps.of_pair ‹_ = (_, _)› ?_
    | (split)
    | (intro _ _ _)
    | (intro _ _)

theorem execClc_runs {σ : State} (c : Sys2Proof.CoreId) (s : Sys2Proof.Machine.State) (hk : Keeps σ s) : Runs σ (execClc c s) := by
  unfold execClc
  try dsimp only
  with_reducible repeat' first
    | assumption
    | apply Runs.next
    | apply Runs.ite
    | apply Keeps.ite
    | apply implicitOp_runs
    | simp only [Keeps.lit]
    | refine Keeps.foldl (fun _ _ _ => ?_) _ ?_
    | refine Keeps.of_pair ‹_ = (_, _)› ?_
    | (split)
    | (intro _ _ _)
    | (intro _ _)

theorem execSwb_runs {σ : State} (c : Sys2Proof.CoreId) (s : Sys2Proof.Machine.State) (hk : Keeps σ s) : Runs σ (execSwb c s) := by
  unfold execSwb
  try dsimp only
  with_reducible repeat' first
    | assumption
    | apply Runs.next
    | apply Runs.ite
    | apply Keeps.ite
    | apply implicitOp_runs
    | simp only [Keeps.lit]
    | refine Keeps.foldl (fun _ _ _ => ?_) _ ?_
    | refine Keeps.of_pair ‹_ = (_, _)› ?_
    | (split)
    | (intro _ _ _)
    | (intro _ _)

theorem execPshy_runs {σ : State} (c : Sys2Proof.CoreId) (s : Sys2Proof.Machine.State) (hk : Keeps σ s) : Runs σ (execPshy c s) := by
  unfold execPshy
  try dsimp only
  with_reducible repeat' first
    | assumption
    | apply Runs.next
    | apply Runs.ite
    | apply Keeps.ite
    | apply pushOp_runs
    | simp only [Keeps.lit]
    | refine Keeps.foldl (fun _ _ _ => ?_) _ ?_
    | refine Keeps.of_pair ‹_ = (_, _)› ?_
    | (split)
    | (intro _ _ _)
    | (intro _ _)

theorem execMvfa_runs {σ : State} (c : Sys2Proof.CoreId) (s : Sys2Proof.Machine.State) (hk : Keeps σ s) : Runs σ (execMvfa c s) := by
  unfold execMvfa
  try dsimp only
  with_reducible repeat' first
    | assumption
    | apply Runs.next
    | apply Runs.ite
    | apply Keeps.ite
    | apply implicitOp_runs
    | simp only [Keeps.lit]
    | refine Keeps.foldl (fun _ _ _ => ?_) _ ?_
    | refine Keeps.of_pair ‹_ = (_, _)› ?_
    | (split)
    | (intro _ _ _)
    | (intro _ _)

theorem execShld_runs {σ : State} (c : Sys2Proof.CoreId) (o : Sys2Proof.Opnd) (s : Sys2Proof.Machine.State) (hk : Keeps σ s) : Runs σ (execShld c o s) := by
  unfold execShld
  try dsimp only
  with_reducible repeat' first
    | assumption
    | apply Runs.next
    | apply Runs.ite
    | apply Keeps.ite
    | apply shiftLongOp_runs
    | simp only [Keeps.lit]
    | refine Keeps.foldl (fun _ _ _ => ?_) _ ?_
    | refine Keeps.of_pair ‹_ = (_, _)› ?_
    | (split)
    | (intro _ _ _)
    | (intro _ _)

theorem execDex_runs {σ : State} (c : Sys2Proof.CoreId) (s : Sys2Proof.Machine.State) (hk : Keeps σ s) : Runs σ (execDex c s) := by
  unfold execDex
  try dsimp only
  with_reducible repeat' first
    | assumption
    | apply Runs.next
    | apply Runs.ite
    | apply Keeps.ite
    | apply implicitOp_runs
    | simp only [Keeps.lit]
    | refine Keeps.foldl (fun _ _ _ => ?_) _ ?_
    | refine Keeps.of_pair ‹_ = (_, _)› ?_
    | (split)
    | (intro _ _ _)
    | (intro _ _)

theorem execMvae_runs {σ : State} (c : Sys2Proof.CoreId) (s : Sys2Proof.Machine.State) (hk : Keeps σ s) : Runs σ (execMvae c s) := by
  unfold execMvae
  try dsimp only
  with_reducible repeat' first
    | assumption
    | apply Runs.next
    | apply Runs.ite
    | apply Keeps.ite
    | apply implicitOp_runs
    | simp only [Keeps.lit]
    | refine Keeps.foldl (fun _ _ _ => ?_) _ ?_
    | refine Keeps.of_pair ‹_ = (_, _)› ?_
    | (split)
    | (intro _ _ _)
    | (intro _ _)

theorem execXorOp_runs {σ : State} (c : Sys2Proof.CoreId) (o : Sys2Proof.Opnd) (s : Sys2Proof.Machine.State) (hk : Keeps σ s) : Runs σ (execXorOp c o s) := by
  unfold execXorOp
  try dsimp only
  with_reducible repeat' first
    | assumption
    | apply Runs.next
    | apply Runs.ite
    | apply Keeps.ite
    | apply sourceOp_runs
    | simp only [Keeps.lit]
    | refine Keeps.foldl (fun _ _ _ => ?_) _ ?_
    | refine Keeps.of_pair ‹_ = (_, _)› ?_
    | (split)
    | (intro _ _ _)
    | (intro _ _)

theorem execShrd_runs {σ : State} (c : Sys2Proof.CoreId) (o : Sys2Proof.Opnd) (s : Sys2Proof.Machine.State) (hk : Keeps σ s) : Runs σ (execShrd c o s) := by
  unfold execShrd
  try dsimp only
  with_reducible repeat' first
    | assumption
    | apply Runs.next
    | apply Runs.ite
    | apply Keeps.ite
    | apply shiftLongOp_runs
    | simp only [Keeps.lit]
    | refine Keeps.foldl (fun _ _ _ => ?_) _ ?_
    | refine Keeps.of_pair ‹_ = (_, _)› ?_
    | (split)
    | (intro _ _ _)
    | (intro _ _)

theorem execPopa_runs {σ : State} (c : Sys2Proof.CoreId) (s : Sys2Proof.Machine.State) (hk : Keeps σ s) : Runs σ (execPopa c s) := by
  unfold execPopa
  try dsimp only
  with_reducible repeat' first
    | assumption
    | apply Runs.next
    | apply Runs.ite
    | apply Keeps.ite
    | apply popOp_runs
    | simp only [Keeps.lit]
    | refine Keeps.foldl (fun _ _ _ => ?_) _ ?_
    | refine Keeps.of_pair ‹_ = (_, _)› ?_
    | (split)
    | (intro _ _ _)
    | (intro _ _)

theorem execStx_runs {σ : State} (c : Sys2Proof.CoreId) (o : Sys2Proof.Opnd) (s : Sys2Proof.Machine.State) (hk : Keeps σ s) : Runs σ (execStx c o s) := by
  unfold execStx
  try dsimp only
  with_reducible repeat' first
    | assumption
    | apply Runs.next
    | apply Runs.ite
    | apply Keeps.ite
    | apply storeOp_runs
    | simp only [Keeps.lit]
    | refine Keeps.foldl (fun _ _ _ => ?_) _ ?_
    | refine Keeps.of_pair ‹_ = (_, _)› ?_
    | (split)
    | (intro _ _ _)
    | (intro _ _)

theorem execAdc_runs {σ : State} (c : Sys2Proof.CoreId) (o : Sys2Proof.Opnd) (s : Sys2Proof.Machine.State) (hk : Keeps σ s) : Runs σ (execAdc c o s) := by
  unfold execAdc
  try dsimp only
  with_reducible repeat' first
    | assumption
    | apply Runs.next
    | apply Runs.ite
    | apply Keeps.ite
    | apply sourceOp_runs
    | simp only [Keeps.lit]
    | refine Keeps.foldl (fun _ _ _ => ?_) _ ?_
    | refine Keeps.of_pair ‹_ = (_, _)› ?_
    | (split)
    | (intro _ _ _)
    | (intro _ _)

theorem execMvea_runs {σ : State} (c : Sys2Proof.CoreId) (s : Sys2Proof.Machine.State) (hk : Keeps σ s) : Runs σ (execMvea c s) := by
  unfold execMvea
  try dsimp only
  with_reducible repeat' first
    | assumption
    | apply Runs.next
    | apply Runs.ite
    | apply Keeps.ite
    | apply implicitOp_runs
    | simp only [Keeps.lit]
    | refine Keeps.foldl (fun _ _ _ => ?_) _ ?_
    | refine Keeps.of_pair ‹_ = (_, _)› ?_
    | (split)
    | (intro _ _ _)
    | (intro _ _)

theorem execSub_runs {σ : State} (c : Sys2Proof.CoreId) (o : Sys2Proof.Opnd) (s : Sys2Proof.Machine.State) (hk : Keeps σ s) : Runs σ (execSub c o s) := by
  unfold execSub
  try dsimp only
  with_reducible repeat' first
    | assumption
    | apply Runs.next
    | apply Runs.ite
    | apply Keeps.ite
    | apply sourceOp_runs
    | simp only [Keeps.lit]
    | refine Keeps.foldl (fun _ _ _ => ?_) _ ?_
    | refine Keeps.of_pair ‹_ = (_, _)› ?_
    | (split)
    | (intro _ _ _)
    | (intro _ _)

theorem execMvxa_runs {σ : State} (c : Sys2Proof.CoreId) (s : Sys2Proof.Machine.State) (hk : Keeps σ s) : Runs σ (execMvxa c s) := by
  unfold execMvxa
  try dsimp only
  with_reducible repeat' first
    | assumption
    | apply Runs.next
    | apply Runs.ite
    | apply Keeps.ite
    | apply implicitOp_runs
    | simp only [Keeps.lit]
    | refine Keeps.foldl (fun _ _ _ => ?_) _ ?_
    | refine Keeps.of_pair ‹_ = (_, _)› ?_
    | (split)
    | (intro _ _ _)
    | (intro _ _)

theorem execLdy_runs {σ : State} (c : Sys2Proof.CoreId) (o : Sys2Proof.Opnd) (s : Sys2Proof.Machine.State) (hk : Keeps σ s) : Runs σ (execLdy c o s) := by
  unfold execLdy
  try dsimp only
  with_reducible repeat' first
    | assumption
    | apply Runs.next
    | apply Runs.ite
    | apply Keeps.ite
    | apply sourceOp_runs
    | simp only [Keeps.lit]
    | refine Keeps.foldl (fun _ _ _ => ?_) _ ?_
    | refine Keeps.of_pair ‹_ = (_, _)› ?_
    | (split)
    | (intro _ _ _)
    | (intro _ _)

theorem execDi_runs {σ : State} (c : Sys2Proof.CoreId) (s : Sys2Proof.Machine.State) (hk : Keeps σ s) : Runs σ (execDi c s) := by
  unfold execDi
  try dsimp only
  with_reducible repeat' first
    | assumption
    | apply Runs.next
    | apply Runs.ite
    | apply Keeps.ite
    | apply implicitOp_runs
    | simp only [Keeps.lit]
    | refine Keeps.foldl (fun _ _ _ => ?_) _ ?_
    | refine Keeps.of_pair ‹_ = (_, _)› ?_
    | (split)
    | (intro _ _ _)
    | (intro _ _)

theorem execSxb_runs {σ : State} (c : Sys2Proof.CoreId) (s : Sys2Proof.Machine.State) (hk : Keeps σ s) : Runs σ (execSxb c s) := by
  unfold execSxb
  try dsimp only
  with_reducible repeat' first
    | assumption
    | apply Runs.next
    | apply Runs.ite
    | apply Keeps.ite
    | apply implicitOp_runs
    | simp only [Keeps.lit]
    | refine Keeps.foldl (fun _ _ _ => ?_) _ ?_
    | refine Keeps.of_pair ‹_ = (_, _)› ?_
    | (split)
    | (intro _ _ _)
    | (intro _ _)

theorem execLd_runs {σ : State} (c : Sys2Proof.CoreId) (o : Sys2Proof.Opnd) (s : Sys2Proof.Machine.State) (hk : Keeps σ s) : Runs σ (execLd c o s) := by
  unfold execLd
  try dsimp only
  with_reducible repeat' first
    | assumption
    | apply Runs.next
    | apply Runs.ite
    | apply Keeps.ite
    | apply sourceOp_runs
    | simp only [Keeps.lit]
    | refine Keeps.foldl (fun _ _ _ => ?_) _ ?_
    | refine Keeps.of_pair ‹_ = (_, _)› ?_
    | (split)
    | (intro _ _ _)
    | (intro _ _)

theorem execShr_runs {σ : State} (c : Sys2Proof.CoreId) (o : Sys2Proof.Opnd) (s : Sys2Proof.Machine.State) (hk : Keeps σ s) : Runs σ (execShr c o s) := by
  unfold execShr
  try dsimp only
  with_reducible repeat' first
    | assumption
    | apply Runs.next
    | apply Runs.ite
    | apply Keeps.ite
    | apply shiftOp_runs
    | simp only [Keeps.lit]
    | refine Keeps.foldl (fun _ _ _ => ?_) _ ?_
    | refine Keeps.of_pair ‹_ = (_, _)› ?_
    | (split)
    | (intro _ _ _)
    | (intro _ _)

theorem execNegd_runs {σ : State} (c : Sys2Proof.CoreId) (s : Sys2Proof.Machine.State) (hk : Keeps σ s) : Runs σ (execNegd c s) := by
  unfold execNegd
  try dsimp only
  with_reducible repeat' first
    | assumption
    | apply Runs.next
    | apply Runs.ite
    | apply Keeps.ite
    | apply implicitOp_runs
    | simp only [Keeps.lit]
    | refine Keeps.foldl (fun _ _ _ => ?_) _ ?_
    | refine Keeps.of_pair ‹_ = (_, _)› ?_
    | (split)
    | (intro _ _ _)
    | (intro _ _)

theorem execNotOp_runs {σ : State} (c : Sys2Proof.CoreId) (s : Sys2Proof.Machine.State) (hk : Keeps σ s) : Runs σ (execNotOp c s) := by
  unfold execNotOp
  try dsimp only
  with_reducible repeat' first
    | assumption
    | apply Runs.next
    | apply Runs.ite
    | apply Keeps.ite
    | apply implicitOp_runs
    | simp only [Keeps.lit]
    | refine Keeps.foldl (fun _ _ _ => ?_) _ ?_
    | refine Keeps.of_pair ‹_ = (_, _)› ?_
    | (split)
    | (intro _ _ _)
    | (intro _ _)

theorem execMvaf_runs {σ : State} (c : Sys2Proof.CoreId) (s : Sys2Proof.Machine.State) (hk : Keeps σ s) : Runs σ (execMvaf c s) := by
  unfold execMvaf
  try dsimp only
  with_reducible repeat' first
    | assumption
    | apply Runs.next
    | apply Runs.ite
    | apply Keeps.ite
    | apply implicitOp_runs
    | simp only [Keeps.lit]
    | refine Keeps.foldl (fun _ _ _ => ?_) _ ?_
    | refine Keeps.of_pair ‹_ = (_, _)› ?_
    | (split)
    | (intro _ _ _)
    | (intro _ _)

theorem execAdy_runs {σ : State} (c : Sys2Proof.CoreId) (o : Sys2Proof.Opnd) (s : Sys2Proof.Machine.State) (hk : Keeps σ s) : Runs σ (execAdy c o s) := by
  unfold execAdy
  try dsimp only
  with_reducible repeat' first
    | assumption
    | apply Runs.next
    | apply Runs.ite
    | apply Keeps.ite
    | apply sourceOp_runs
    | simp only [Keeps.lit]
    | refine Keeps.foldl (fun _ _ _ => ?_) _ ?_
    | refine Keeps.of_pair ‹_ = (_, _)› ?_
    | (split)
    | (intro _ _ _)
    | (intro _ _)

theorem execRfcd_runs {σ : State} (c : Sys2Proof.CoreId) (s : Sys2Proof.Machine.State) (hk : Keeps σ s) : Runs σ (execRfcd c s) := by
  unfold execRfcd
  try dsimp only
  with_reducible repeat' first
    | assumption
    | apply Runs.next
    | apply Runs.ite
    | apply Keeps.ite
    | apply implicitOp_runs
    | simp only [Keeps.lit]
    | refine Keeps.foldl (fun _ _ _ => ?_) _ ?_
    | refine Keeps.of_pair ‹_ = (_, _)› ?_
    | (split)
    | (intro _ _ _)
    | (intro _ _)

theorem execPopx_runs {σ : State} (c : Sys2Proof.CoreId) (s : Sys2Proof.Machine.State) (hk : Keeps σ s) : Runs σ (execPopx c s) := by
  unfold execPopx
  try dsimp only
  with_reducible repeat' first
    | assumption
    | apply Runs.next
    | apply Runs.ite
    | apply Keeps.ite
    | apply popOp_runs
    | simp only [Keeps.lit]
    | refine Keeps.foldl (fun _ _ _ => ?_) _ ?_
    | refine Keeps.of_pair ‹_ = (_, _)› ?_
    | (split)
    | (intro _ _ _)
    | (intro _ _)

theorem execMul_runs {σ : State} (c : Sys2Proof.CoreId) (o : Sys2Proof.Opnd) (s : Sys2Proof.Machine.State) (hk : Keeps σ s) : Runs σ (execMul c o s) := by
  unfold execMul
  try dsimp only
  with_reducible repeat' first
    | assumption
    | apply Runs.next
    | apply Runs.ite
    | apply Keeps.ite
    | apply sourceOp_runs
    | simp only [Keeps.lit]
    | refine Keeps.foldl (fun _ _ _ => ?_) _ ?_
    | refine Keeps.of_pair ‹_ = (_, _)› ?_
    | (split)
    | (intro _ _ _)
    | (intro _ _)

theorem execPush_runs {σ : State} (c : Sys2Proof.CoreId) (o : Sys2Proof.Opnd) (s : Sys2Proof.Machine.State) (hk : Keeps σ s) : Runs σ (execPush c o s) := by
  unfold execPush
  try dsimp only
  with_reducible repeat' first
    | assumption
    | apply Runs.next
    | apply Runs.ite
    | apply KeepsRes.ok
    | exact KeepsRes.exc
    | apply KeepsRes.wait
    | apply KeepsRes.ite
    | apply KeepsRes.bind
    | apply Keeps.ite
    | apply issueOp_runs
    | apply source_keeps
    | apply pushWords_keeps
    | simp only [Keeps.lit]
    | refine Keeps.foldl (fun _ _ _ => ?_) _ ?_
    | refine Keeps.of_pair ‹_ = (_, _)› ?_
    | refine KeepsRes.of_ok ‹_ = Res.ok _ _› ?_
    | refine KeepsRes.of_wait ‹_ = Res.wait _› ?_
    | (split)
    | (intro _ _ _)
    | (intro _ _)

theorem execAdx_runs {σ : State} (c : Sys2Proof.CoreId) (o : Sys2Proof.Opnd) (s : Sys2Proof.Machine.State) (hk : Keeps σ s) : Runs σ (execAdx c o s) := by
  unfold execAdx
  try dsimp only
  with_reducible repeat' first
    | assumption
    | apply Runs.next
    | apply Runs.ite
    | apply Keeps.ite
    | apply sourceOp_runs
    | simp only [Keeps.lit]
    | refine Keeps.foldl (fun _ _ _ => ?_) _ ?_
    | refine Keeps.of_pair ‹_ = (_, _)› ?_
    | (split)
    | (intro _ _ _)
    | (intro _ _)

theorem execNeg_runs {σ : State} (c : Sys2Proof.CoreId) (s : Sys2Proof.Machine.State) (hk : Keeps σ s) : Runs σ (execNeg c s) := by
  unfold execNeg
  try dsimp only
  with_reducible repeat' first
    | assumption
    | apply Runs.next
    | apply Runs.ite
    | apply Keeps.ite
    | apply implicitOp_runs
    | simp only [Keeps.lit]
    | refine Keeps.foldl (fun _ _ _ => ?_) _ ?_
    | refine Keeps.of_pair ‹_ = (_, _)› ?_
    | (split)
    | (intro _ _ _)
    | (intro _ _)

theorem execPshx_runs {σ : State} (c : Sys2Proof.CoreId) (s : Sys2Proof.Machine.State) (hk : Keeps σ s) : Runs σ (execPshx c s) := by
  unfold execPshx
  try dsimp only
  with_reducible repeat' first
    | assumption
    | apply Runs.next
    | apply Runs.ite
    | apply Keeps.ite
    | apply pushOp_runs
    | simp only [Keeps.lit]
    | refine Keeps.foldl (fun _ _ _ => ?_) _ ?_
    | refine Keeps.of_pair ‹_ = (_, _)› ?_
    | (split)
    | (intro _ _ _)
    | (intro _ _)

theorem execNop_runs {σ : State} (c : Sys2Proof.CoreId) (s : Sys2Proof.Machine.State) (hk : Keeps σ s) : Runs σ (execNop c s) := by
  unfold execNop
  try dsimp only
  with_reducible repeat' first
    | assumption
    | apply Runs.next
    | apply Runs.ite
    | apply Keeps.ite
    | apply implicitOp_runs
    | simp only [Keeps.lit]
    | refine Keeps.foldl (fun _ _ _ => ?_) _ ?_
    | refine Keeps.of_pair ‹_ = (_, _)› ?_
    | (split)
    | (intro _ _ _)
    | (intro _ _)

theorem execBcm_runs {σ : State} (c : Sys2Proof.CoreId) (o : Sys2Proof.Opnd) (s : Sys2Proof.Machine.State) (hk : Keeps σ s) : Runs σ (execBcm c o s) := by
  unfold execBcm
  try dsimp only
  with_reducible repeat' first
    | assumption
    | apply Runs.next
    | apply Runs.ite
    | apply Keeps.ite
    | apply modifyOp_runs
    | simp only [Keeps.lit]
    | refine Keeps.foldl (fun _ _ _ => ?_) _ ?_
    | refine Keeps.of_pair ‹_ = (_, _)› ?_
    | (split)
    | (intro _ _ _)
    | (intro _ _)

theorem divideOp_runs {σ : State} (c : Sys2Proof.CoreId) (o : Sys2Proof.Opnd) (s : Sys2Proof.Machine.State) (f : Sys2Proof.Machine.Regs → Sys2Proof.Word → Option (Sys2Proof.Word × Sys2Proof.Word)) (hk : Keeps σ s) : Runs σ (divideOp c o s f) := by
  unfold divideOp
  try dsimp only
  with_reducible repeat' first
    | assumption
    | apply Runs.next
    | apply Runs.ite
    | apply KeepsRes.ok
    | exact KeepsRes.exc
    | apply KeepsRes.wait
    | apply KeepsRes.ite
    | apply KeepsRes.bind
    | apply Keeps.ite
    | apply issueOp_runs
    | apply source_keeps
    | apply regs_keeps
    | simp only [Keeps.lit]
    | refine Keeps.foldl (fun _ _ _ => ?_) _ ?_
    | refine Keeps.of_pair ‹_ = (_, _)› ?_
    | refine KeepsRes.of_ok ‹_ = Res.ok _ _› ?_
    | refine KeepsRes.of_wait ‹_ = Res.wait _› ?_
    | (split)
    | (intro _ _ _)
    | (intro _ _)

theorem execXch_runs {σ : State} (c : Sys2Proof.CoreId) (o : Sys2Proof.Opnd) (s : Sys2Proof.Machine.State) (hk : Keeps σ s) : Runs σ (execXch c o s) := by
  unfold execXch
  try dsimp only
  with_reducible repeat' first
    | assumption
    | apply Runs.next
    | apply Runs.ite
    | apply Keeps.ite
    | apply modifyOp_runs
    | simp only [Keeps.lit]
    | refine Keeps.foldl (fun _ _ _ => ?_) _ ?_
    | refine Keeps.of_pair ‹_ = (_, _)› ?_
    | (split)
    | (intro _ _ _)
    | (intro _ _)

theorem execMvay_runs {σ : State} (c : Sys2Proof.CoreId) (s : Sys2Proof.Machine.State) (hk : Keeps σ s) : Runs σ (execMvay c s) := by
  unfold execMvay
  try dsimp only
  with_reducible repeat' first
    | assumption
    | apply Runs.next
    | apply Runs.ite
    | apply Keeps.ite
    | apply implicitOp_runs
    | simp only [Keeps.lit]
    | refine Keeps.foldl (fun _ _ _ => ?_) _ ?_
    | refine Keeps.of_pair ‹_ = (_, _)› ?_
    | (split)
    | (intro _ _ _)
    | (intro _ _)

theorem execCpy_runs {σ : State} (c : Sys2Proof.CoreId) (o : Sys2Proof.Opnd) (s : Sys2Proof.Machine.State) (hk : Keeps σ s) : Runs σ (execCpy c o s) := by
  unfold execCpy
  try dsimp only
  with_reducible repeat' first
    | assumption
    | apply Runs.next
    | apply Runs.ite
    | apply Keeps.ite
    | apply sourceOp_runs
    | simp only [Keeps.lit]
    | refine Keeps.foldl (fun _ _ _ => ?_) _ ?_
    | refine Keeps.of_pair ‹_ = (_, _)› ?_
    | (split)
    | (intro _ _ _)
    | (intro _ _)

theorem execExb_runs {σ : State} (c : Sys2Proof.CoreId) (o : Sys2Proof.Opnd) (s : Sys2Proof.Machine.State) (hk : Keeps σ s) : Runs σ (execExb c o s) := by
  unfold execExb
  try dsimp only
  with_reducible repeat' first
    | assumption
    | apply Runs.next
    | apply Runs.ite
    | apply KeepsRes.ok
    | exact KeepsRes.exc
    | apply KeepsRes.wait
    | apply KeepsRes.ite
    | apply KeepsRes.bind
    | apply Keeps.ite
    | apply issueOp_runs
    | apply byteOperand_keeps
    | apply load_keeps
    | apply regs_keeps
    | simp only [Keeps.lit]
    | refine Keeps.foldl (fun _ _ _ => ?_) _ ?_
    | refine Keeps.of_pair ‹_ = (_, _)› ?_
    | refine KeepsRes.of_ok ‹_ = Res.ok _ _› ?_
    | refine KeepsRes.of_wait ‹_ = Res.wait _› ?_
    | (split)
    | (intro _ _ _)
    | (intro _ _)

theorem execBit_runs {σ : State} (c : Sys2Proof.CoreId) (o : Sys2Proof.Opnd) (s : Sys2Proof.Machine.State) (hk : Keeps σ s) : Runs σ (execBit c o s) := by
  unfold execBit
  try dsimp only
  with_reducible repeat' first
    | assumption
    | apply Runs.next
    | apply Runs.ite
    | apply Keeps.ite
    | apply sourceOp_runs
    | simp only [Keeps.lit]
    | refine Keeps.foldl (fun _ _ _ => ?_) _ ?_
    | refine Keeps.of_pair ‹_ = (_, _)› ?_
    | (split)
    | (intro _ _ _)
    | (intro _ _)

theorem execAdm_runs {σ : State} (c : Sys2Proof.CoreId) (o : Sys2Proof.Opnd) (s : Sys2Proof.Machine.State) (hk : Keeps σ s) : Runs σ (execAdm c o s) := by
  unfold execAdm
  try dsimp only
  with_reducible repeat' first
    | assumption
    | apply Runs.next
    | apply Runs.ite
    | apply Keeps.ite
    | apply modifyOp_runs
    | simp only [Keeps.lit]
    | refine Keeps.foldl (fun _ _ _ => ?_) _ ?_
    | refine Keeps.of_pair ‹_ = (_, _)› ?_
    | (split)
    | (intro _ _ _)
    | (intro _ _)

theorem execDec_runs {σ : State} (c : Sys2Proof.CoreId) (o : Sys2Proof.Opnd) (s : Sys2Proof.Machine.State) (hk : Keeps σ s) : Runs σ (execDec c o s) := by
  unfold execDec
  try dsimp only
  with_reducible repeat' first
    | assumption
    | apply Runs.next
    | apply Runs.ite
    | apply Keeps.ite
    | apply modifyOp_runs
    | simp only [Keeps.lit]
    | refine Keeps.foldl (fun _ _ _ => ?_) _ ?_
    | refine Keeps.of_pair ‹_ = (_, _)› ?_
    | (split)
    | (intro _ _ _)
    | (intro _ _)

theorem execDivs_runs {σ : State} (c : Sys2Proof.CoreId) (o : Sys2Proof.Opnd) (s : Sys2Proof.Machine.State) (hk : Keeps σ s) : Runs σ (execDivs c o s) := by
  unfold execDivs
  try dsimp only
  with_reducible repeat' first
    | assumption
    | apply Runs.next
    | apply Runs.ite
    | apply Keeps.ite
    | apply divideOp_runs
    | simp only [Keeps.lit]
    | refine Keeps.foldl (fun _ _ _ => ?_) _ ?_
    | refine Keeps.of_pair ‹_ = (_, _)› ?_
    | (split)
    | (intro _ _ _)
    | (intro _ _)

theorem execPshf_runs {σ : State} (c : Sys2Proof.CoreId) (s : Sys2Proof.Machine.State) (hk : Keeps σ s) : Runs σ (execPshf c s) := by
  unfold execPshf
  try dsimp only
  with_reducible repeat' first
    | assumption
    | apply Runs.next
    | apply Runs.ite
    | apply Keeps.ite
    | apply pushOp_runs
    | simp only [Keeps.lit]
    | refine Keeps.foldl (fun _ _ _ => ?_) _ ?_
    | refine Keeps.of_pair ‹_ = (_, _)› ?_
    | (split)
    | (intro _ _ _)
    | (intro _ _)

theorem execSty_runs {σ : State} (c : Sys2Proof.CoreId) (o : Sys2Proof.Opnd) (s : Sys2Proof.Machine.State) (hk : Keeps σ s) : Runs σ (execSty c o s) := by
  unfold execSty
  try dsimp only
  with_reducible repeat' first
    | assumption
    | apply Runs.next
    | apply Runs.ite
    | apply Keeps.ite
    | apply storeOp_runs
    | simp only [Keeps.lit]
    | refine Keeps.foldl (fun _ _ _ => ?_) _ ?_
    | refine Keeps.of_pair ‹_ = (_, _)› ?_
    | (split)
    | (intro _ _ _)
    | (intro _ _)

theorem execCmp_runs {σ : State} (c : Sys2Proof.CoreId) (o : Sys2Proof.Opnd) (s : Sys2Proof.Machine.State) (hk : Keeps σ s) : Runs σ (execCmp c o s) := by
  unfold execCmp
  try dsimp only
  with_reducible repeat' first
    | assumption
    | apply Runs.next
    | apply Runs.ite
    | apply Keeps.ite
    | apply sourceOp_runs
    | simp only [Keeps.lit]
    | refine Keeps.foldl (fun _ _ _ => ?_) _ ?_
    | refine Keeps.of_pair ‹_ = (_, _)› ?_
    | (split)
    | (intro _ _ _)
    | (intro _ _)

theorem execDiv_runs {σ : State} (c : Sys2Proof.CoreId) (o : Sys2Proof.Opnd) (s : Sys2Proof.Machine.State) (hk : Keeps σ s) : Runs σ (execDiv c o s) := by
  unfold execDiv
  try dsimp only
  with_reducible repeat' first
    | assumption
    | apply Runs.next
    | apply Runs.ite
    | apply Keeps.ite
    | apply divideOp_runs
    | simp only [Keeps.lit]
    | refine Keeps.foldl (fun _ _ _ => ?_) _ ?_
    | refine Keeps.of_pair ‹_ = (_, _)› ?_
    | (split)
    | (intro _ _ _)
    | (intro _ _)

theorem execXae_runs {σ : State} (c : Sys2Proof.CoreId) (s : Sys2Proof.Machine.State) (hk : Keeps σ s) : Runs σ (execXae c s) := by
  unfold execXae
  try dsimp only
  with_reducible repeat' first
    | assumption
    | apply Runs.next
    | apply Runs.ite
    | apply Keeps.ite
    | apply implicitOp_runs
    | simp only [Keeps.lit]
    | refine Keeps.foldl (fun _ _ _ => ?_) _ ?_
    | refine Keeps.of_pair ‹_ = (_, _)› ?_
    | (split)
    | (intro _ _ _)
    | (intro _ _)

theorem execAndOp_runs {σ : State} (c : Sys2Proof.CoreId) (o : Sys2Proof.Opnd) (s : Sys2Proof.Machine.State) (hk : Keeps σ s) : Runs σ (execAndOp c o s) := by
  unfold execAndOp
  try dsimp only
  with_reducible repeat' first
    | assumption
    | apply Runs.next
    | apply Runs.ite
    | apply Keeps.ite
    | apply sourceOp_runs
    | simp only [Keeps.lit]
    | refine Keeps.foldl (fun _ _ _ => ?_) _ ?_
    | refine Keeps.of_pair ‹_ = (_, _)› ?_
    | (split)
    | (intro _ _ _)
    | (intro _ _)

theorem execPopf_runs {σ : State} (c : Sys2Proof.CoreId) (s : Sys2Proof.Machine.State) (hk : Keeps σ s) : Runs σ (execPopf c s) := by
  unfold execPopf
  try dsimp only
  with_reducible repeat' first
    | assumption
    | apply Runs.next
    | apply Runs.ite
    | apply Keeps.ite
    | apply popOp_runs
    | simp only [Keeps.lit]
    | refine Keeps.foldl (fun _ _ _ => ?_) _ ?_
    | refine Keeps.of_pair ‹_ = (_, _)› ?_
    | (split)
    | (intro _ _ _)
    | (intro _ _)

theorem execAdd_runs {σ : State} (c : Sys2Proof.CoreId) (o : Sys2Proof.Opnd) (s : Sys2Proof.Machine.State) (hk : Keeps σ s) : Runs σ (execAdd c o s) := by
  unfold execAdd
  try dsimp only
  with_reducible repeat' first
    | assumption
    | apply Runs.next
    | apply Runs.ite
    | apply Keeps.ite
    | apply sourceOp_runs
    | simp only [Keeps.lit]
    | refine Keeps.foldl (fun _ _ _ => ?_) _ ?_
    | refine Keeps.of_pair ‹_ = (_, _)› ?_
    | (split)
    | (intro _ _ _)
    | (intro _ _)

theorem execMvya_runs {σ : State} (c : Sys2Proof.CoreId) (s : Sys2Proof.Machine.State) (hk : Keeps σ s) : Runs σ (execMvya c s) := by
  unfold execMvya
  try dsimp only
  with_reducible repeat' first
    | assumption
    | apply Runs.next
    | apply Runs.ite
    | apply Keeps.ite
    | apply implicitOp_runs
    | simp only [Keeps.lit]
    | refine Keeps.foldl (fun _ _ _ => ?_) _ ?_
    | refine Keeps.of_pair ‹_ = (_, _)› ?_
    | (split)
    | (intro _ _ _)
    | (intro _ _)

theorem execStc_runs {σ : State} (c : Sys2Proof.CoreId) (s : Sys2Proof.Machine.State) (hk : Keeps σ s) : Runs σ (execStc c s) := by
  unfold execStc
  try dsimp only
  with_reducible repeat' first
    | assumption
    | apply Runs.next
    | apply Runs.ite
    | apply Keeps.ite
    | apply implicitOp_runs
    | simp only [Keeps.lit]
    | refine Keeps.foldl (fun _ _ _ => ?_) _ ?_
    | refine Keeps.of_pair ‹_ = (_, _)› ?_
    | (split)
    | (intro _ _ _)
    | (intro _ _)

theorem execOrm_runs {σ : State} (c : Sys2Proof.CoreId) (o : Sys2Proof.Opnd) (s : Sys2Proof.Machine.State) (hk : Keeps σ s) : Runs σ (execOrm c o s) := by
  unfold execOrm
  try dsimp only
  with_reducible repeat' first
    | assumption
    | apply Runs.next
    | apply Runs.ite
    | apply Keeps.ite
    | apply modifyOp_runs
    | simp only [Keeps.lit]
    | refine Keeps.foldl (fun _ _ _ => ?_) _ ?_
    | refine Keeps.of_pair ‹_ = (_, _)› ?_
    | (split)
    | (intro _ _ _)
    | (intro _ _)

theorem execSte_runs {σ : State} (c : Sys2Proof.CoreId) (o : Sys2Proof.Opnd) (s : Sys2Proof.Machine.State) (hk : Keeps σ s) : Runs σ (execSte c o s) := by
  unfold execSte
  try dsimp only
  with_reducible repeat' first
    | assumption
    | apply Runs.next
    | apply Runs.ite
    | apply Keeps.ite
    | apply storeOp_runs
    | simp only [Keeps.lit]
    | refine Keeps.foldl (fun _ _ _ => ?_) _ ?_
    | refine Keeps.of_pair ‹_ = (_, _)› ?_
    | (split)
    | (intro _ _ _)
    | (intro _ _)

end Sys2Proof.Machine
end

