-- ==== Sys2Proof/Laws/KeepsFieldPower.lean ====
section
/-! SUPPORT. Every operation of Machine/FieldPower.lean keeps what a command keeps. -/

set_option linter.all false

namespace Sys2Proof.Machine

theorem fieldPowerLoss_keeps {σ : State} (s : Sys2Proof.Machine.State) (hk : Keeps σ s) : Keeps σ (fieldPowerLoss s) := by
  unfold fieldPowerLoss
  try dsimp only
  with_reducible repeat' first
    | assumption
    | apply Keeps.ite
    | apply fieldDown_keeps
    | apply State.setIsland_keeps
    | apply resetSource_keeps
    | apply discardGates_keeps
    | apply maskRange_keeps
    | simp only [Keeps.lit]
    | refine Keeps.foldl (fun _ _ _ => ?_) _ ?_
    | refine Keeps.of_pair ‹_ = (_, _)› ?_
    | (split)
    | (intro _ _ _)
    | (intro _ _)

theorem execBarrierPathFail_runs {σ : State} (path : Fin 2) (failed : Bool) (s : Sys2Proof.Machine.State) (hk : Keeps σ s) : Runs σ (execBarrierPathFail path failed s) := by
  unfold execBarrierPathFail
  try dsimp only
  with_reducible repeat' first
    | assumption
    | apply Runs.next
    | apply Runs.ite
    | apply Keeps.ite
    | apply State.level_keeps
    | apply fieldPowerLoss_keeps
    | simp only [Keeps.lit]
    | refine Keeps.foldl (fun _ _ _ => ?_) _ ?_
    | refine Keeps.of_pair ‹_ = (_, _)› ?_
    | (split)
    | (intro _ _ _)
    | (intro _ _)

theorem execCyclicSensePulse_runs {σ : State} (raw : BitVec 48) (s : Sys2Proof.Machine.State) (hk : Keeps σ s) : Runs σ (execCyclicSensePulse raw s) := by
  unfold execCyclicSensePulse
  try dsimp only
  with_reducible repeat' first
    | assumption
    | apply Runs.next
    | apply Runs.ite
    | apply Keeps.ite
    | apply siSample_keeps
    | apply latchCause_keeps
    | simp only [Keeps.lit]
    | refine Keeps.foldl (fun _ _ _ => ?_) _ ?_
    | refine Keeps.of_pair ‹_ = (_, _)› ?_
    | refine Keeps.of_fst ‹_ = (_, _)› ?_
    | (split)
    | (intro _ _ _)
    | (intro _ _)

theorem execFieldPowerUp_runs {σ : State} (s : Sys2Proof.Machine.State) (hk : Keeps σ s) : Runs σ (execFieldPowerUp s) := by
  unfold execFieldPowerUp
  try dsimp only
  with_reducible repeat' first
    | assumption
    | apply Runs.next
    | apply Runs.ite
    | apply Keeps.ite
    | apply fieldUp_keeps
    | simp only [Keeps.lit]
    | refine Keeps.foldl (fun _ _ _ => ?_) _ ?_
    | refine Keeps.of_pair ‹_ = (_, _)› ?_
    | (split)
    | (intro _ _ _)
    | (intro _ _)

theorem execInputFilterTick_runs {σ : State} (b : Sys2Proof.InBank) (n : Fin 48) (raw : Bool) (cur : Nat) (s : Sys2Proof.Machine.State) (hi : ¬ (b = .fi ∧ 32 ≤ n.val)) (hk : Keeps σ s) : Runs σ (execInputFilterTick b n raw cur s) := by
  unfold execInputFilterTick
  try rw [if_neg hi]
  try dsimp only
  with_reducible repeat' first
    | assumption
    | apply Runs.next
    | apply Runs.ite
    | apply Keeps.ite
    | apply siSample_keeps
    | apply latchCause_keeps
    | apply fiSample_keeps
    | simp only [Keeps.lit]
    | refine Keeps.foldl (fun _ _ _ => ?_) _ ?_
    | refine Keeps.of_pair ‹_ = (_, _)› ?_
    | refine Keeps.of_fst ‹_ = (_, _)› ?_
    | (split)
    | (intro _ _ _)
    | (intro _ _)

theorem execFieldPowerLoss_runs {σ : State} (s : Sys2Proof.Machine.State) (hk : Keeps σ s) : Runs σ (execFieldPowerLoss s) := by
  unfold execFieldPowerLoss
  try dsimp only
  with_reducible repeat' first
    | assumption
    | apply Runs.next
    | apply Runs.ite
    | apply Keeps.ite
    | apply fieldPowerLoss_keeps
    | simp only [Keeps.lit]
    | refine Keeps.foldl (fun _ _ _ => ?_) _ ?_
    | refine Keeps.of_pair ‹_ = (_, _)› ?_
    | (split)
    | (intro _ _ _)
    | (intro _ _)

end Sys2Proof.Machine
end

