-- ==== Sys2Proof/Laws/KeepsSwitch.lean ====
section
/-! SUPPORT. Every operation of Machine/Switch.lean keeps what a command keeps. -/

set_option linter.all false

namespace Sys2Proof.Machine

theorem execRecurAgeing_runs {σ : State} (ch : Sys2Proof.ChanRef) (s : Sys2Proof.Machine.State) (hc : ch.ok = true) (hk : Keeps σ s) : Runs σ (execRecurAgeing ch s) := by
  unfold execRecurAgeing
  try simp only [hc, Bool.not_true, Bool.false_eq_true, ↓reduceIte, false_or, ne_eq, not_true_eq_false]
  try dsimp only
  with_reducible repeat' first
    | assumption
    | apply Runs.next
    | apply Runs.ite
    | apply Keeps.ite
    | apply State.modChan_keeps
    | simp only [Keeps.lit]
    | refine Keeps.foldl (fun _ _ _ => ?_) _ ?_
    | refine Keeps.of_pair ‹_ = (_, _)› ?_
    | (split)
    | (intro _ _ _)
    | (intro _ _)

theorem execShortComparatorTrip_runs {σ : State} (ch : Sys2Proof.ChanRef) (side : Sys2Proof.Side) (i : Nat) (s : Sys2Proof.Machine.State) (hc : ch.ok = true) (hk : Keeps σ s) : Runs σ (execShortComparatorTrip ch side i s) := by
  unfold execShortComparatorTrip
  try simp only [hc, Bool.not_true, Bool.false_eq_true, ↓reduceIte, false_or, ne_eq, not_true_eq_false]
  try dsimp only
  with_reducible repeat' first
    | assumption
    | apply Runs.next
    | apply Runs.ite
    | apply Keeps.ite
    | apply countedTrip_keeps
    | apply actShortTrip_keeps
    | apply luxShortTrip_keeps
    | apply fldShortTrip_keeps
    | simp only [Keeps.lit]
    | refine Keeps.foldl (fun _ _ _ => ?_) _ ?_
    | refine Keeps.of_pair ‹_ = (_, _)› ?_
    | (split)
    | (intro _ _ _)
    | (intro _ _)

theorem admitWaiting_keeps {σ : State} (x0 : Nat) (x1 : Sys2Proof.Machine.State) (hk : Keeps σ x1) : Keeps σ (admitWaiting x0 x1) := by
  induction x0 generalizing x1 with
  | zero =>
    unfold admitWaiting
    try dsimp only
    with_reducible repeat' first
      | assumption
      | apply Keeps.ite
      | apply State.setChan_keeps
      | apply tryStart_keeps
      | simp only [Keeps.lit]
      | refine Keeps.foldl (fun _ _ _ => ?_) _ ?_
      | refine Keeps.of_pair ‹_ = (_, _)› ?_
      | (split)
      | (intro _ _ _)
      | (intro _ _)
  | succ n ih =>
    unfold admitWaiting
    try dsimp only
    with_reducible repeat' first
      | assumption
      | apply ih
      | apply Keeps.ite
      | apply State.setChan_keeps
      | apply tryStart_keeps
      | simp only [Keeps.lit]
      | refine Keeps.foldl (fun _ _ _ => ?_) _ ?_
      | refine Keeps.of_pair ‹_ = (_, _)› ?_
      | (split)
      | (intro _ _ _)
      | (intro _ _)

theorem govStep_keeps {σ : State} (down : Bool) (ch : Sys2Proof.ChanRef) (s : Sys2Proof.Machine.State) (hk : Keeps σ s) : Keeps σ (govStep down ch s) := by
  unfold govStep
  try dsimp only
  with_reducible repeat' first
    | assumption
    | apply Keeps.ite
    | apply State.setChan_keeps
    | simp only [Keeps.lit]
    | refine Keeps.foldl (fun _ _ _ => ?_) _ ?_
    | refine Keeps.of_pair ‹_ = (_, _)› ?_
    | (split)
    | (intro _ _ _)
    | (intro _ _)

theorem swEvent_keeps {σ : State} (k : Nat) (ch : Option Nat) (s : Sys2Proof.Machine.State) (hk : Keeps σ s) : Keeps σ (swEvent k ch s) := by
  unfold swEvent
  try dsimp only
  with_reducible repeat' first
    | assumption
    | apply Keeps.ite
    | apply State.setReg_keeps
    | apply State.setRegBit_keeps
    | apply State.route_keeps
    | simp only [Keeps.lit]
    | refine Keeps.foldl (fun _ _ _ => ?_) _ ?_
    | refine Keeps.of_pair ‹_ = (_, _)› ?_
    | (split)
    | (intro _ _ _)
    | (intro _ _)

theorem waitReports_keeps {σ : State} (s : Sys2Proof.Machine.State) (hk : Keeps σ s) : Keeps σ (waitReports s) := by
  unfold waitReports
  try dsimp only
  with_reducible repeat' first
    | assumption
    | apply Keeps.ite
    | apply State.raise_keeps
    | apply State.setChan_keeps
    | simp only [Keeps.lit]
    | refine Keeps.foldl (fun _ _ _ => ?_) _ ?_
    | refine Keeps.of_pair ‹_ = (_, _)› ?_
    | (split)
    | (intro _ _ _)
    | (intro _ _)

theorem execGovernorEvaluation_runs {σ : State} (p : Sys2Proof.GovInput) (s : Sys2Proof.Machine.State) (hk : Keeps σ s) : Runs σ (execGovernorEvaluation p s) := by
  unfold execGovernorEvaluation
  try dsimp only
  with_reducible repeat' first
    | assumption
    | apply Runs.next
    | apply Runs.ite
    | apply Keeps.ite
    | apply State.setRegList_keeps
    | apply State.setReg_keeps
    | apply govStep_keeps
    | apply State.level_keeps
    | apply swEvent_keeps
    | apply waitReports_keeps
    | apply admitWaiting_keeps
    | simp only [Keeps.lit]
    | refine Keeps.foldl (fun _ _ _ => ?_) _ ?_
    | refine Keeps.of_pair ‹_ = (_, _)› ?_
    | (split)
    | (intro _ _ _)
    | (intro _ _)

theorem putThermal_keeps {σ : State} (ch : Sys2Proof.ChanRef) (t : Sys2Proof.Therm) (s : Sys2Proof.Machine.State) (hk : Keeps σ s) : Keeps σ (putThermal ch t s) := by
  unfold putThermal
  try dsimp only
  with_reducible repeat' first
    | assumption
    | apply Keeps.ite
    | apply State.setReg_keeps
    | simp only [Keeps.lit]
    | refine Keeps.foldl (fun _ _ _ => ?_) _ ?_
    | refine Keeps.of_pair ‹_ = (_, _)› ?_
    | (split)
    | (intro _ _ _)
    | (intro _ _)

theorem latchSet_keeps {σ : State} (ch : Sys2Proof.ChanRef) (t : Sys2Proof.Therm) (s : Sys2Proof.Machine.State) (hk : Keeps σ s) : Keeps σ (latchSet ch t s) := by
  unfold latchSet
  try dsimp only
  with_reducible repeat' first
    | assumption
    | apply Keeps.ite
    | apply putThermal_keeps
    | apply State.diag_keeps
    | apply State.modChan_keeps
    | apply stopChan_keeps
    | apply State.raiseIsl_keeps
    | apply swEvent_keeps
    | apply actEvent_keeps
    | apply luxEvent_keeps
    | apply fldEvent_keeps
    | apply countedTrip_keeps
    | apply refreshQuiet_keeps
    | apply refreshPause_keeps
    | simp only [Keeps.lit]
    | refine Keeps.foldl (fun _ _ _ => ?_) _ ?_
    | refine Keeps.of_pair ‹_ = (_, _)› ?_
    | (split)
    | (intro _ _ _)
    | (intro _ _)

theorem execThermalLatchSet_runs {σ : State} (u : Sys2Proof.ThermRef) (a : Sys2Proof.Therm) (b : Sys2Proof.Therm) (s : Sys2Proof.Machine.State) (hu : ∀ ch, u = .chan ch → ch.ok = true) (hk : Keeps σ s) : Runs σ (execThermalLatchSet u a b s) := by
  unfold execThermalLatchSet
  cases u
  all_goals try simp only [hu _ rfl, Bool.not_true, Bool.false_eq_true, ↓reduceIte]
  all_goals try dsimp only
  try dsimp only
  with_reducible repeat' first
    | assumption
    | apply Runs.next
    | apply Runs.ite
    | apply Keeps.ite
    | apply latchSet_keeps
    | apply bankLatchSet_keeps
    | simp only [Keeps.lit]
    | refine Keeps.foldl (fun _ _ _ => ?_) _ ?_
    | refine Keeps.of_pair ‹_ = (_, _)› ?_
    | (split)
    | (intro _ _ _)
    | (intro _ _)

theorem clusterRetries_keeps {σ : State} (k : Nat) (s : Sys2Proof.Machine.State) (hk : Keeps σ s) : Keeps σ (clusterRetries k s) := by
  unfold clusterRetries
  try dsimp only
  with_reducible repeat' first
    | assumption
    | apply Keeps.ite
    | apply tryStart_keeps
    | simp only [Keeps.lit]
    | refine Keeps.foldl (fun _ _ _ => ?_) _ ?_
    | refine Keeps.of_pair ‹_ = (_, _)› ?_
    | (split)
    | (intro _ _ _)
    | (intro _ _)

theorem execInrushWindowEnd_runs {σ : State} (ch : Sys2Proof.ChanRef) (term : Nat) (s : Sys2Proof.Machine.State) (hc : ch.ok = true) (hk : Keeps σ s) : Runs σ (execInrushWindowEnd ch term s) := by
  unfold execInrushWindowEnd
  try simp only [hc, Bool.not_true, Bool.false_eq_true, ↓reduceIte, false_or, ne_eq, not_true_eq_false]
  try dsimp only
  with_reducible repeat' first
    | assumption
    | apply Runs.next
    | apply Runs.ite
    | apply Keeps.ite
    | apply State.setChan_keeps
    | apply countedTrip_keeps
    | apply clusterRetries_keeps
    | simp only [Keeps.lit]
    | refine Keeps.foldl (fun _ _ _ => ?_) _ ?_
    | refine Keeps.of_pair ‹_ = (_, _)› ?_
    | (split)
    | (intro _ _ _)
    | (intro _ _)

theorem execCurrentMeasurement_runs {σ : State} (ch : Sys2Proof.ChanRef) (m : Sys2Proof.Measure) (s : Sys2Proof.Machine.State) (hc : ch.ok = true) (hk : Keeps σ s) : Runs σ (execCurrentMeasurement ch m s) := by
  unfold execCurrentMeasurement
  try simp only [hc, Bool.not_true, Bool.false_eq_true, ↓reduceIte, false_or, ne_eq, not_true_eq_false]
  try dsimp only
  with_reducible repeat' first
    | assumption
    | apply Runs.next
    | apply Runs.ite
    | apply Keeps.ite
    | apply putThermal_keeps
    | apply State.setReg_keeps
    | apply State.modChan_keeps
    | apply evidence_keeps
    | apply actMeasure_keeps
    | apply luxMeasure_keeps
    | apply fldMeasure_keeps
    | simp only [Keeps.lit]
    | refine Keeps.foldl (fun _ _ _ => ?_) _ ?_
    | refine Keeps.of_pair ‹_ = (_, _)› ?_
    | (split)
    | (intro _ _ _)
    | (intro _ _)

theorem offJudge_keeps {σ : State} (ch : Sys2Proof.ChanRef) (v : Nat) (pair : Option Nat) (s : Sys2Proof.Machine.State) (hk : Keeps σ s) : Keeps σ (offJudge ch v pair s) := by
  unfold offJudge
  try dsimp only
  with_reducible repeat' first
    | assumption
    | apply Keeps.ite
    | apply evidence_keeps
    | simp only [Keeps.lit]
    | refine Keeps.foldl (fun _ _ _ => ?_) _ ?_
    | refine Keeps.of_pair ‹_ = (_, _)› ?_
    | (split)
    | (intro _ _ _)
    | (intro _ _)

theorem execStallDetect_runs {σ : State} (ch : Sys2Proof.ChanRef) (i : Nat) (ms : Nat) (s : Sys2Proof.Machine.State) (h64 : ¬ ch.idx < 64) (hs : ch.isl = .sw) (hc : ch.ok = true) (hk : Keeps σ s) : Runs σ (execStallDetect ch i ms s) := by
  unfold execStallDetect
  try simp only [hc, hs, h64, Bool.not_true, Bool.false_eq_true, ↓reduceIte, false_or, ne_eq, not_true_eq_false]
  try dsimp only
  with_reducible repeat' first
    | assumption
    | apply Runs.next
    | apply Runs.ite
    | apply Keeps.ite
    | apply swEvent_keeps
    | apply State.setChan_keeps
    | apply State.modChan_keeps
    | apply stopChan_keeps
    | simp only [Keeps.lit]
    | refine Keeps.foldl (fun _ _ _ => ?_) _ ?_
    | refine Keeps.of_pair ‹_ = (_, _)› ?_
    | (split)
    | (intro _ _ _)
    | (intro _ _)

theorem execSectionCurrentUpdate_runs {σ : State} (k : Fin 4) (mean : Nat) (s : Sys2Proof.Machine.State) (hk : Keeps σ s) : Runs σ (execSectionCurrentUpdate k mean s) := by
  unfold execSectionCurrentUpdate
  try dsimp only
  with_reducible repeat' first
    | assumption
    | apply Runs.next
    | apply Runs.ite
    | apply Keeps.ite
    | apply State.setReg_keeps
    | apply State.level_keeps
    | simp only [Keeps.lit]
    | refine Keeps.foldl (fun _ _ _ => ?_) _ ?_
    | refine Keeps.of_pair ‹_ = (_, _)› ?_
    | (split)
    | (intro _ _ _)
    | (intro _ _)

theorem execOpenConfirm_runs {σ : State} (ch : Sys2Proof.ChanRef) (s : Sys2Proof.Machine.State) (hc : ch.ok = true) (hk : Keeps σ s) : Runs σ (execOpenConfirm ch s) := by
  unfold execOpenConfirm
  try simp only [hc, Bool.not_true, Bool.false_eq_true, ↓reduceIte, false_or, ne_eq, not_true_eq_false]
  try dsimp only
  with_reducible repeat' first
    | assumption
    | apply Runs.next
    | apply Runs.ite
    | apply Keeps.ite
    | apply State.diag_keeps
    | apply State.setChan_keeps
    | apply retireChannel_keeps
    | simp only [Keeps.lit]
    | refine Keeps.foldl (fun _ _ _ => ?_) _ ?_
    | refine Keeps.of_pair ‹_ = (_, _)› ?_
    | (split)
    | (intro _ _ _)
    | (intro _ _)

theorem execHbRegulationPeriod_runs {σ : State} (ch : Sys2Proof.ChanRef) (mean : Int) (s : Sys2Proof.Machine.State) (h64 : ¬ ch.idx < 64) (hs : ch.isl = .sw) (hc : ch.ok = true) (hk : Keeps σ s) : Runs σ (execHbRegulationPeriod ch mean s) := by
  unfold execHbRegulationPeriod
  try simp only [hc, hs, h64, Bool.not_true, Bool.false_eq_true, ↓reduceIte, false_or, ne_eq, not_true_eq_false]
  try dsimp only
  with_reducible repeat' first
    | assumption
    | apply Runs.next
    | apply Runs.ite
    | apply Keeps.ite
    | apply State.setChan_keeps
    | simp only [Keeps.lit]
    | refine Keeps.foldl (fun _ _ _ => ?_) _ ?_
    | refine Keeps.of_pair ‹_ = (_, _)› ?_
    | (split)
    | (intro _ _ _)
    | (intro _ _)

theorem execOffStateCheck_runs {σ : State} (ch : Sys2Proof.ChanRef) (v : Nat) (pair : Option Nat) (s : Sys2Proof.Machine.State) (hc : ch.ok = true) (hk : Keeps σ s) : Runs σ (execOffStateCheck ch v pair s) := by
  unfold execOffStateCheck
  try simp only [hc, Bool.not_true, Bool.false_eq_true, ↓reduceIte, false_or, ne_eq, not_true_eq_false]
  try dsimp only
  with_reducible repeat' first
    | assumption
    | apply Runs.next
    | apply Runs.ite
    | apply Keeps.ite
    | apply noteOff_keeps
    | apply State.modChan_keeps
    | apply offJudge_keeps
    | apply actOffCheck_keeps
    | apply luxOffCheck_keeps
    | apply fldOffCheck_keeps
    | simp only [Keeps.lit]
    | refine Keeps.foldl (fun _ _ _ => ?_) _ ?_
    | refine Keeps.of_pair ‹_ = (_, _)› ?_
    | (split)
    | (intro _ _ _)
    | (intro _ _)

theorem execLimitTrip_runs {σ : State} (ch : Sys2Proof.ChanRef) (i : Nat) (us : Nat) (term : Nat) (s : Sys2Proof.Machine.State) (hc : ch.ok = true) (hk : Keeps σ s) : Runs σ (execLimitTrip ch i us term s) := by
  unfold execLimitTrip
  try simp only [hc, Bool.not_true, Bool.false_eq_true, ↓reduceIte, false_or, ne_eq, not_true_eq_false]
  try dsimp only
  with_reducible repeat' first
    | assumption
    | apply Runs.next
    | apply Runs.ite
    | apply Keeps.ite
    | apply State.setChan_keeps
    | apply countedTrip_keeps
    | apply actLimitTrip_keeps
    | apply luxLimitTrip_keeps
    | apply fldLimitTrip_keeps
    | simp only [Keeps.lit]
    | refine Keeps.foldl (fun _ _ _ => ?_) _ ?_
    | refine Keeps.of_pair ‹_ = (_, _)› ?_
    | (split)
    | (intro _ _ _)
    | (intro _ _)

theorem execForgiveExpiry_runs {σ : State} (ch : Sys2Proof.ChanRef) (s : Sys2Proof.Machine.State) (hc : ch.ok = true) (hk : Keeps σ s) : Runs σ (execForgiveExpiry ch s) := by
  unfold execForgiveExpiry
  try simp only [hc, Bool.not_true, Bool.false_eq_true, ↓reduceIte, false_or, ne_eq, not_true_eq_false]
  try dsimp only
  with_reducible repeat' first
    | assumption
    | apply Runs.next
    | apply Runs.ite
    | apply Keeps.ite
    | apply restartQuiet_keeps
    | apply State.setChan_keeps
    | simp only [Keeps.lit]
    | refine Keeps.foldl (fun _ _ _ => ?_) _ ?_
    | refine Keeps.of_pair ‹_ = (_, _)› ?_
    | (split)
    | (intro _ _ _)
    | (intro _ _)

theorem execRetryPauseEnd_runs {σ : State} (ch : Sys2Proof.ChanRef) (s : Sys2Proof.Machine.State) (hc : ch.ok = true) (hk : Keeps σ s) : Runs σ (execRetryPauseEnd ch s) := by
  unfold execRetryPauseEnd
  try simp only [hc, Bool.not_true, Bool.false_eq_true, ↓reduceIte, false_or, ne_eq, not_true_eq_false]
  try dsimp only
  with_reducible repeat' first
    | assumption
    | apply Runs.next
    | apply Runs.ite
    | apply Keeps.ite
    | apply State.setChan_keeps
    | apply tryBank_keeps
    | apply tryStart_keeps
    | simp only [Keeps.lit]
    | refine Keeps.foldl (fun _ _ _ => ?_) _ ?_
    | refine Keeps.of_pair ‹_ = (_, _)› ?_
    | (split)
    | (intro _ _ _)
    | (intro _ _)

theorem execThermalLatchClear_runs {σ : State} (u : Sys2Proof.ThermRef) (a : Sys2Proof.Therm) (b : Sys2Proof.Therm) (s : Sys2Proof.Machine.State) (hu : ∀ ch, u = .chan ch → ch.ok = true) (hk : Keeps σ s) : Runs σ (execThermalLatchClear u a b s) := by
  unfold execThermalLatchClear
  cases u
  all_goals try simp only [hu _ rfl, Bool.not_true, Bool.false_eq_true, ↓reduceIte]
  all_goals try dsimp only
  try dsimp only
  with_reducible repeat' first
    | assumption
    | apply Runs.next
    | apply Runs.ite
    | apply Keeps.ite
    | apply tryStart_keeps
    | apply refreshQuiet_keeps
    | apply refreshPause_keeps
    | apply State.modChan_keeps
    | apply putThermal_keeps
    | apply bankLatchClear_keeps
    | simp only [Keeps.lit]
    | refine Keeps.foldl (fun _ _ _ => ?_) _ ?_
    | refine Keeps.of_pair ‹_ = (_, _)› ?_
    | (split)
    | (intro _ _ _)
    | (intro _ _)

theorem execWireModelUpdate_runs {σ : State} (ch : Sys2Proof.ChanRef) (meanSquare : Nat) (s : Sys2Proof.Machine.State) (hs : ch.isl = .sw) (hc : ch.ok = true) (hk : Keeps σ s) : Runs σ (execWireModelUpdate ch meanSquare s) := by
  unfold execWireModelUpdate
  try simp only [hc, hs, Bool.not_true, Bool.false_eq_true, ↓reduceIte, false_or, ne_eq, not_true_eq_false]
  try dsimp only
  with_reducible repeat' first
    | assumption
    | apply Runs.next
    | apply Runs.ite
    | apply Keeps.ite
    | apply State.setChan_keeps
    | apply State.modChan_keeps
    | apply countedTrip_keeps
    | apply State.diag_keeps
    | apply swEvent_keeps
    | apply State.raise_keeps
    | apply tryStart_keeps
    | simp only [Keeps.lit]
    | refine Keeps.foldl (fun _ _ _ => ?_) _ ?_
    | refine Keeps.of_pair ‹_ = (_, _)› ?_
    | (split)
    | (intro _ _ _)
    | (intro _ _)

theorem execShortBatConfirm_runs {σ : State} (ch : Sys2Proof.ChanRef) (v : Nat) (pair : Option Nat) (s : Sys2Proof.Machine.State) (hc : ch.ok = true) (hk : Keeps σ s) : Runs σ (execShortBatConfirm ch v pair s) := by
  unfold execShortBatConfirm
  try simp only [hc, Bool.not_true, Bool.false_eq_true, ↓reduceIte, false_or, ne_eq, not_true_eq_false]
  try dsimp only
  with_reducible repeat' first
    | assumption
    | apply Runs.next
    | apply Runs.ite
    | apply Keeps.ite
    | apply State.diag_keeps
    | apply State.setChan_keeps
    | apply offJudge_keeps
    | simp only [Keeps.lit]
    | refine Keeps.foldl (fun _ _ _ => ?_) _ ?_
    | refine Keeps.of_pair ‹_ = (_, _)› ?_
    | (split)
    | (intro _ _ _)
    | (intro _ _)

theorem execChannelStart_runs {σ : State} (ch : Sys2Proof.ChanRef) (s : Sys2Proof.Machine.State) (hc : ch.ok = true) (hk : Keeps σ s) : Runs σ (execChannelStart ch s) := by
  unfold execChannelStart
  try simp only [hc, Bool.not_true, Bool.false_eq_true, ↓reduceIte, false_or, ne_eq, not_true_eq_false]
  try dsimp only
  with_reducible repeat' first
    | assumption
    | apply Runs.next
    | apply Runs.ite
    | apply Keeps.ite
    | apply tryStart_keeps
    | simp only [Keeps.lit]
    | refine Keeps.foldl (fun _ _ _ => ?_) _ ?_
    | refine Keeps.of_pair ‹_ = (_, _)› ?_
    | (split)
    | (intro _ _ _)
    | (intro _ _)

end Sys2Proof.Machine
end

