-- ==== Sys2Proof/Laws/KeepsLinkIn.lean ====
section
/-! SUPPORT. Every operation of Machine/LinkIn.lean keeps what a command keeps. -/

set_option linter.all false

namespace Sys2Proof.Machine

theorem refloods_keeps {σ : State} (p : Nat) (st : Sys2Proof.Stitch) (s : Sys2Proof.Machine.State) (hk : Keeps σ s) : Keeps σ (refloods p st s) := by
  unfold refloods
  try dsimp only
  with_reducible repeat' first
    | assumption
    | apply Keeps.ite
    | apply enqueue_keeps
    | simp only [Keeps.lit]
    | refine Keeps.foldl (fun _ _ _ => ?_) _ ?_
    | refine Keeps.of_pair ‹_ = (_, _)› ?_
    | (split)
    | (intro _ _ _)
    | (intro _ _)

theorem answer_keeps {σ : State} (type : Nat) (status : Nat) (ws : List Sys2Proof.Word) (st : Sys2Proof.Stitch) (s : Sys2Proof.Machine.State) (hk : Keeps σ s) : Keeps σ (answer type status ws st s) := by
  unfold answer
  try dsimp only
  with_reducible repeat' first
    | assumption
    | apply Keeps.ite
    | apply sendStitch_keeps
    | simp only [Keeps.lit]
    | refine Keeps.foldl (fun _ _ _ => ?_) _ ?_
    | refine Keeps.of_pair ‹_ = (_, _)› ?_
    | (split)
    | (intro _ _ _)
    | (intro _ _)

theorem answerError_keeps {σ : State} (code : Nat) (st : Sys2Proof.Stitch) (s : Sys2Proof.Machine.State) (hk : Keeps σ s) : Keeps σ (answerError code st s) := by
  unfold answerError
  try dsimp only
  with_reducible repeat' first
    | assumption
    | apply Keeps.ite
    | apply answer_keeps
    | simp only [Keeps.lit]
    | refine Keeps.foldl (fun _ _ _ => ?_) _ ?_
    | refine Keeps.of_pair ‹_ = (_, _)› ?_
    | (split)
    | (intro _ _ _)
    | (intro _ _)

theorem noteSource_keeps {σ : State} (a : Nat) (st : Sys2Proof.Stitch) (s : Sys2Proof.Machine.State) (hk : Keeps σ s) : Keeps σ (noteSource a st s) := by
  unfold noteSource
  try dsimp only
  with_reducible repeat' first
    | assumption
    | apply Keeps.ite
    | apply State.setReg_keeps
    | simp only [Keeps.lit]
    | refine Keeps.foldl (fun _ _ _ => ?_) _ ?_
    | refine Keeps.of_pair ‹_ = (_, _)› ?_
    | (split)
    | (intro _ _ _)
    | (intro _ _)

theorem inboundWrite_keeps {σ : State} (p : Fin 4) (a : Nat) (v : Sys2Proof.Word) (st : Sys2Proof.Stitch) (s : Sys2Proof.Machine.State) (hk : Keeps σ s) : Keeps σ (inboundWrite p a v st s) := by
  unfold inboundWrite
  try dsimp only
  with_reducible repeat' first
    | assumption
    | apply Keeps.ite
    | apply busWrite_keeps
    | apply noteSource_keeps
    | simp only [Keeps.lit]
    | refine Keeps.foldl (fun _ _ _ => ?_) _ ?_
    | refine Keeps.of_pair ‹_ = (_, _)› ?_
    | (split)
    | (intro _ _ _)
    | (intro _ _)

theorem serveChcmd_keeps {σ : State} (p : Fin 4) (st : Sys2Proof.Stitch) (s : Sys2Proof.Machine.State) (hk : Keeps σ s) : Keeps σ (serveChcmd p st s) := by
  unfold serveChcmd
  try dsimp only
  with_reducible repeat' first
    | assumption
    | apply Keeps.ite
    | apply inboundWrite_keeps
    | apply answer_keeps
    | apply answerError_keeps
    | simp only [Keeps.lit]
    | refine Keeps.foldl (fun _ _ _ => ?_) _ ?_
    | refine Keeps.of_pair ‹_ = (_, _)› ?_
    | (split)
    | (intro _ _ _)
    | (intro _ _)

theorem storeMail_keeps {σ : State} (m : Nat) (st : Sys2Proof.Stitch) (s : Sys2Proof.Machine.State) (hk : Keeps σ s) : Keeps σ (storeMail m st s) := by
  unfold storeMail
  try dsimp only
  with_reducible repeat' first
    | assumption
    | apply Keeps.ite
    | apply linkEvent_keeps
    | apply State.setReg_keeps
    | apply State.setRegList_keeps
    | simp only [Keeps.lit]
    | refine Keeps.foldl (fun _ _ _ => ?_) _ ?_
    | refine Keeps.of_pair ‹_ = (_, _)› ?_
    | (split)
    | (intro _ _ _)
    | (intro _ _)

theorem serveMail_keeps {σ : State} (st : Sys2Proof.Stitch) (s : Sys2Proof.Machine.State) (hk : Keeps σ s) : Keeps σ (serveMail st s) := by
  unfold serveMail
  try dsimp only
  with_reducible repeat' first
    | assumption
    | apply Keeps.ite
    | apply State.regInc_keeps
    | apply storeMail_keeps
    | apply answerError_keeps
    | apply answer_keeps
    | simp only [Keeps.lit]
    | refine Keeps.foldl (fun _ _ _ => ?_) _ ?_
    | refine Keeps.of_pair ‹_ = (_, _)› ?_
    | (split)
    | (intro _ _ _)
    | (intro _ _)

theorem agentAccess_keeps {σ : State} (p : Fin 4) (st : Sys2Proof.Stitch) (s : Sys2Proof.Machine.State) (hk : Keeps σ s) : Keeps σ (agentAccess p st s) := by
  unfold agentAccess
  try dsimp only
  with_reducible repeat' first
    | assumption
    | apply Keeps.ite
    | apply memBurst_keeps
    | simp only [Keeps.lit]
    | refine Keeps.foldl (fun _ _ _ => ?_) _ ?_
    | refine Keeps.of_pair ‹_ = (_, _)› ?_
    | (split)
    | (intro _ _ _)
    | (intro _ _)

theorem inboundWords_keeps {σ : State} (x0 : List Nat) (x1 : Sys2Proof.Machine.State) (hk : Keeps σ x1) : Keeps σ (inboundWords x0 x1).2 := by
  induction x0 generalizing x1 with
  | nil =>
    unfold inboundWords
    try dsimp only
    with_reducible repeat' first
      | assumption
      | apply Keeps.ite
      | apply busRead_keeps
      | apply State.used_keeps
      | simp only [Keeps.lit]
      | refine Keeps.foldl (fun _ _ _ => ?_) _ ?_
      | refine Keeps.of_pair ‹_ = (_, _)› ?_
      | (split)
      | (intro _ _ _)
      | (intro _ _)
  | cons y ys ih =>
    unfold inboundWords
    try dsimp only
    with_reducible repeat' first
      | assumption
      | apply ih
      | apply Keeps.ite
      | apply busRead_keeps
      | apply State.used_keeps
      | simp only [Keeps.lit]
      | refine Keeps.foldl (fun _ _ _ => ?_) _ ?_
      | refine Keeps.of_pair ‹_ = (_, _)› ?_
      | (split)
      | (intro _ _ _)
      | (intro _ _)

theorem serveRead_keeps {σ : State} (p : Fin 4) (st : Sys2Proof.Stitch) (s : Sys2Proof.Machine.State) (hk : Keeps σ s) : Keeps σ (serveRead p st s) := by
  unfold serveRead
  try dsimp only
  with_reducible repeat' first
    | assumption
    | apply Keeps.ite
    | apply inboundWords_keeps
    | apply agentAccess_keeps
    | apply answer_keeps
    | apply answerError_keeps
    | apply State.raiseIsl_keeps
    | simp only [Keeps.lit]
    | refine Keeps.foldl (fun _ _ _ => ?_) _ ?_
    | refine Keeps.of_pair ‹_ = (_, _)› ?_
    | (split)
    | (intro _ _ _)
    | (intro _ _)

theorem serveReset_keeps {σ : State} (st : Sys2Proof.Stitch) (s : Sys2Proof.Machine.State) (hk : Keeps σ s) : Keeps σ (serveReset st s) := by
  unfold serveReset
  try dsimp only
  with_reducible repeat' first
    | assumption
    | apply Keeps.ite
    | apply answerError_keeps
    | apply resetSource_keeps
    | simp only [Keeps.lit]
    | refine Keeps.foldl (fun _ _ _ => ?_) _ ?_
    | refine Keeps.of_pair ‹_ = (_, _)› ?_
    | (split)
    | (intro _ _ _)
    | (intro _ _)

theorem serveWrite_keeps {σ : State} (p : Fin 4) (st : Sys2Proof.Stitch) (s : Sys2Proof.Machine.State) (hk : Keeps σ s) : Keeps σ (serveWrite p st s) := by
  unfold serveWrite
  try dsimp only
  with_reducible repeat' first
    | assumption
    | apply Keeps.ite
    | apply inboundWrite_keeps
    | apply answer_keeps
    | apply answerError_keeps
    | simp only [Keeps.lit]
    | refine Keeps.foldl (fun _ _ _ => ?_) _ ?_
    | refine Keeps.of_pair ‹_ = (_, _)› ?_
    | (split)
    | (intro _ _ _)
    | (intro _ _)

theorem serveRequest_keeps {σ : State} (p : Fin 4) (st : Sys2Proof.Stitch) (s : Sys2Proof.Machine.State) (hk : Keeps σ s) : Keeps σ (serveRequest p st s) := by
  unfold serveRequest
  try dsimp only
  with_reducible repeat' first
    | assumption
    | apply Keeps.ite
    | apply serveRead_keeps
    | apply serveWrite_keeps
    | apply serveChcmd_keeps
    | apply serveMail_keeps
    | apply serveReset_keeps
    | simp only [Keeps.lit]
    | refine Keeps.foldl (fun _ _ _ => ?_) _ ?_
    | refine Keeps.of_pair ‹_ = (_, _)› ?_
    | (split)
    | (intro _ _ _)
    | (intro _ _)

theorem inbound_keeps {σ : State} (p : Fin 4) (st : Sys2Proof.Stitch) (s : Sys2Proof.Machine.State) (hk : Keeps σ s) : Keeps σ (inbound p st s) := by
  unfold inbound
  try dsimp only
  with_reducible repeat' first
    | assumption
    | apply Keeps.ite
    | apply serveRequest_keeps
    | simp only [Keeps.lit]
    | refine Keeps.foldl (fun _ _ _ => ?_) _ ?_
    | refine Keeps.of_pair ‹_ = (_, _)› ?_
    | (split)
    | (intro _ _ _)
    | (intro _ _)

theorem execResetStitch_runs {σ : State} (p : Fin 4) (st : Sys2Proof.Stitch) (s : Sys2Proof.Machine.State) (hk : Keeps σ s) : Runs σ (execResetStitch p st s) := by
  unfold execResetStitch
  try dsimp only
  with_reducible repeat' first
    | assumption
    | apply Runs.next
    | apply Runs.ite
    | apply Keeps.ite
    | apply inbound_keeps
    | simp only [Keeps.lit]
    | refine Keeps.foldl (fun _ _ _ => ?_) _ ?_
    | refine Keeps.of_pair ‹_ = (_, _)› ?_
    | (split)
    | (intro _ _ _)
    | (intro _ _)

theorem withdrawId_keeps {σ : State} (s : Sys2Proof.Machine.State) (hk : Keeps σ s) : Keeps σ (withdrawId s) := by
  unfold withdrawId
  try dsimp only
  with_reducible repeat' first
    | assumption
    | apply Keeps.ite
    | apply topoChanged_keeps
    | apply reroute_keeps
    | apply State.setRegBit_keeps
    | simp only [Keeps.lit]
    | refine Keeps.foldl (fun _ _ _ => ?_) _ ?_
    | refine Keeps.of_pair ‹_ = (_, _)› ?_
    | (split)
    | (intro _ _ _)
    | (intro _ _)

theorem portReport_keeps {σ : State} (p : Nat) (s : Sys2Proof.Machine.State) (hk : Keeps σ s) : Keeps σ (portReport p s) := by
  unfold portReport
  try dsimp only
  with_reducible repeat' first
    | assumption
    | apply Keeps.ite
    | apply portSource_keeps
    | simp only [Keeps.lit]
    | refine Keeps.foldl (fun _ _ _ => ?_) _ ?_
    | refine Keeps.of_pair ‹_ = (_, _)› ?_
    | (split)
    | (intro _ _ _)
    | (intro _ _)

theorem portFalls_keeps {σ : State} (p : Nat) (s : Sys2Proof.Machine.State) (hk : Keeps σ s) : Keeps σ (portFalls p s) := by
  unfold portFalls
  try dsimp only
  with_reducible repeat' first
    | assumption
    | apply Keeps.ite
    | apply portReport_keeps
    | apply dropPort_keeps
    | simp only [Keeps.lit]
    | refine Keeps.foldl (fun _ _ _ => ?_) _ ?_
    | refine Keeps.of_pair ‹_ = (_, _)› ?_
    | (split)
    | (intro _ _ _)
    | (intro _ _)

theorem execPortDown_runs {σ : State} (p : Fin 4) (s : Sys2Proof.Machine.State) (hk : Keeps σ s) : Runs σ (execPortDown p s) := by
  unfold execPortDown
  try dsimp only
  with_reducible repeat' first
    | assumption
    | apply Runs.next
    | apply Runs.ite
    | apply Keeps.ite
    | apply portFalls_keeps
    | simp only [Keeps.lit]
    | refine Keeps.foldl (fun _ _ _ => ?_) _ ?_
    | refine Keeps.of_pair ‹_ = (_, _)› ?_
    | (split)
    | (intro _ _ _)
    | (intro _ _)

theorem execNegreqTimer_runs {σ : State} (s : Sys2Proof.Machine.State) (hk : Keeps σ s) : Runs σ (execNegreqTimer s) := by
  unfold execNegreqTimer
  try dsimp only
  with_reducible repeat' first
    | assumption
    | apply Runs.next
    | apply Runs.ite
    | apply Keeps.ite
    | apply sendNegreq_keeps
    | simp only [Keeps.lit]
    | refine Keeps.foldl (fun _ _ _ => ?_) _ ?_
    | refine Keeps.of_pair ‹_ = (_, _)› ?_
    | (split)
    | (intro _ _ _)
    | (intro _ _)

theorem mailOn_keeps {σ : State} (inp : Nat) (ps : List Nat) (st : Sys2Proof.Stitch) (s : Sys2Proof.Machine.State) (hk : Keeps σ s) : Keeps σ (mailOn inp ps st s) := by
  unfold mailOn
  try dsimp only
  with_reducible repeat' first
    | assumption
    | apply Keeps.ite
    | apply State.raise_keeps
    | apply enqueue_keeps
    | simp only [Keeps.lit]
    | refine Keeps.foldl (fun _ _ _ => ?_) _ ?_
    | refine Keeps.of_pair ‹_ = (_, _)› ?_
    | (split)
    | (intro _ _ _)
    | (intro _ _)

theorem broadcastMail_keeps {σ : State} (p : Fin 4) (st : Sys2Proof.Stitch) (s : Sys2Proof.Machine.State) (hk : Keeps σ s) : Keeps σ (broadcastMail p st s) := by
  unfold broadcastMail
  try dsimp only
  with_reducible repeat' first
    | assumption
    | apply Keeps.ite
    | apply inbound_keeps
    | apply mailOn_keeps
    | simp only [Keeps.lit]
    | refine Keeps.foldl (fun _ _ _ => ?_) _ ?_
    | refine Keeps.of_pair ‹_ = (_, _)› ?_
    | (split)
    | (intro _ _ _)
    | (intro _ _)

theorem loadAnswer_keeps {σ : State} (c : Nat) (tag : Nat) (code : Nat) (v : Sys2Proof.Word) (s : Sys2Proof.Machine.State) (hk : Keeps σ s) : Keeps σ (loadAnswer c tag code v s) := by
  unfold loadAnswer
  try dsimp only
  with_reducible repeat' first
    | assumption
    | apply Keeps.ite
    | apply State.modCore_keeps
    | simp only [Keeps.lit]
    | refine Keeps.foldl (fun _ _ _ => ?_) _ ?_
    | refine Keeps.of_pair ‹_ = (_, _)› ?_
    | (split)
    | (intro _ _ _)
    | (intro _ _)

theorem requestFails_keeps {σ : State} (q : Sys2Proof.Machine.LReq) (code : Nat) (s : Sys2Proof.Machine.State) (hk : Keeps σ s) : Keeps σ (requestFails q code s) := by
  unfold requestFails
  try dsimp only
  with_reducible repeat' first
    | assumption
    | apply Keeps.ite
    | apply requestDone_keeps
    | apply loadAnswer_keeps
    | apply storeFailed_keeps
    | apply linkEvent_keeps
    | apply State.setReg_keeps
    | simp only [Keeps.lit]
    | refine Keeps.foldl (fun _ _ _ => ?_) _ ?_
    | refine Keeps.of_pair ‹_ = (_, _)› ?_
    | (split)
    | (intro _ _ _)
    | (intro _ _)

theorem execRemoteTimeout_runs {σ : State} (tag : Sys2Proof.Byte) (s : Sys2Proof.Machine.State) (hk : Keeps σ s) : Runs σ (execRemoteTimeout tag s) := by
  unfold execRemoteTimeout
  try dsimp only
  with_reducible repeat' first
    | assumption
    | apply Runs.next
    | apply Runs.ite
    | apply Keeps.ite
    | apply requestFails_keeps
    | simp only [Keeps.lit]
    | refine Keeps.foldl (fun _ _ _ => ?_) _ ?_
    | refine Keeps.of_pair ‹_ = (_, _)› ?_
    | (split)
    | (intro _ _ _)
    | (intro _ _)

theorem grantOne_keeps {σ : State} (serial : Nat) (s : Sys2Proof.Machine.State) (hk : Keeps σ s) : Keeps σ (grantOne serial s) := by
  unfold grantOne
  try dsimp only
  with_reducible repeat' first
    | assumption
    | apply Keeps.ite
    | apply sendNeggrant_keeps
    | simp only [Keeps.lit]
    | refine Keeps.foldl (fun _ _ _ => ?_) _ ?_
    | refine Keeps.of_pair ‹_ = (_, _)› ?_
    | (split)
    | (intro _ _ _)
    | (intro _ _)

theorem grantHeard_keeps {σ : State} (s : Sys2Proof.Machine.State) (hk : Keeps σ s) : Keeps σ (grantHeard s) := by
  unfold grantHeard
  try dsimp only
  with_reducible repeat' first
    | assumption
    | apply Keeps.ite
    | apply grantOne_keeps
    | simp only [Keeps.lit]
    | refine Keeps.foldl (fun _ _ _ => ?_) _ ?_
    | refine Keeps.of_pair ‹_ = (_, _)› ?_
    | (split)
    | (intro _ _ _)
    | (intro _ _)

theorem retryWaiting_keeps {σ : State} (s : Sys2Proof.Machine.State) (hk : Keeps σ s) : Keeps σ (retryWaiting s) := by
  unfold retryWaiting
  try dsimp only
  with_reducible repeat' first
    | assumption
    | apply Keeps.ite
    | apply inbound_keeps
    | simp only [Keeps.lit]
    | refine Keeps.foldl (fun _ _ _ => ?_) _ ?_
    | refine Keeps.of_pair ‹_ = (_, _)› ?_
    | (split)
    | (intro _ _ _)
    | (intro _ _)

theorem execWack_runs {σ : State} (st : Sys2Proof.Stitch) (s : Sys2Proof.Machine.State) (hk : Keeps σ s) : Runs σ (execWack st s) := by
  unfold execWack
  try dsimp only
  with_reducible repeat' first
    | assumption
    | apply Runs.next
    | apply Runs.ite
    | apply Keeps.ite
    | apply requestDone_keeps
    | simp only [Keeps.lit]
    | refine Keeps.foldl (fun _ _ _ => ?_) _ ?_
    | refine Keeps.of_pair ‹_ = (_, _)› ?_
    | (split)
    | (intro _ _ _)
    | (intro _ _)

theorem execChack_runs {σ : State} (st : Sys2Proof.Stitch) (s : Sys2Proof.Machine.State) (hk : Keeps σ s) : Runs σ (execChack st s) := by
  unfold execChack
  try dsimp only
  with_reducible repeat' first
    | assumption
    | apply Runs.next
    | apply Runs.ite
    | apply Keeps.ite
    | apply linkEvent_keeps
    | apply State.setRegList_keeps
    | apply State.setReg_keeps
    | apply requestDone_keeps
    | simp only [Keeps.lit]
    | refine Keeps.foldl (fun _ _ _ => ?_) _ ?_
    | refine Keeps.of_pair ‹_ = (_, _)› ?_
    | (split)
    | (intro _ _ _)
    | (intro _ _)

theorem noteFlood_keeps {σ : State} (st : Sys2Proof.Stitch) (s : Sys2Proof.Machine.State) (hk : Keeps σ s) : Keeps σ (noteFlood st s) := by
  unfold noteFlood
  try dsimp only
  with_reducible repeat' first
    | assumption
    | apply Keeps.ite
    | simp only [Keeps.lit]
    | refine Keeps.foldl (fun _ _ _ => ?_) _ ?_
    | refine Keeps.of_pair ‹_ = (_, _)› ?_
    | (split)
    | (intro _ _ _)
    | (intro _ _)

theorem execLinksDisc_runs {σ : State} (p : Fin 4) (st : Sys2Proof.Stitch) (s : Sys2Proof.Machine.State) (hk : Keeps σ s) : Runs σ (execLinksDisc p st s) := by
  unfold execLinksDisc
  try dsimp only
  with_reducible repeat' first
    | assumption
    | apply Runs.next
    | apply Runs.ite
    | apply Keeps.ite
    | apply refloods_keeps
    | apply noteFlood_keeps
    | apply withdrawId_keeps
    | apply topoChanged_keeps
    | apply reroute_keeps
    | apply sendLinks_keeps
    | simp only [Keeps.lit]
    | refine Keeps.foldl (fun _ _ _ => ?_) _ ?_
    | refine Keeps.of_pair ‹_ = (_, _)› ?_
    | (split)
    | (intro _ _ _)
    | (intro _ _)

theorem execLinkResend_runs {σ : State} (p : Fin 4) (s : Sys2Proof.Machine.State) (hk : Keeps σ s) : Runs σ (execLinkResend p s) := by
  unfold execLinkResend
  try dsimp only
  with_reducible repeat' first
    | assumption
    | apply Runs.next
    | apply Runs.ite
    | apply Keeps.ite
    | apply State.setRegFld_keeps
    | apply State.setLport_keeps
    | apply portFalls_keeps
    | apply putLine_keeps
    | simp only [Keeps.lit]
    | refine Keeps.foldl (fun _ _ _ => ?_) _ ?_
    | refine Keeps.of_pair ‹_ = (_, _)› ?_
    | (split)
    | (intro _ _ _)
    | (intro _ _)

theorem execErrorStitch_runs {σ : State} (st : Sys2Proof.Stitch) (s : Sys2Proof.Machine.State) (hk : Keeps σ s) : Runs σ (execErrorStitch st s) := by
  unfold execErrorStitch
  try dsimp only
  with_reducible repeat' first
    | assumption
    | apply Runs.next
    | apply Runs.ite
    | apply Keeps.ite
    | apply requestFails_keeps
    | simp only [Keeps.lit]
    | refine Keeps.foldl (fun _ _ _ => ?_) _ ?_
    | refine Keeps.of_pair ‹_ = (_, _)› ?_
    | (split)
    | (intro _ _ _)
    | (intro _ _)

theorem execMack_runs {σ : State} (st : Sys2Proof.Stitch) (s : Sys2Proof.Machine.State) (hk : Keeps σ s) : Runs σ (execMack st s) := by
  unfold execMack
  try dsimp only
  with_reducible repeat' first
    | assumption
    | apply Runs.next
    | apply Runs.ite
    | apply Keeps.ite
    | apply linkEvent_keeps
    | apply State.setReg_keeps
    | apply requestDone_keeps
    | simp only [Keeps.lit]
    | refine Keeps.foldl (fun _ _ _ => ?_) _ ?_
    | refine Keeps.of_pair ‹_ = (_, _)› ?_
    | (split)
    | (intro _ _ _)
    | (intro _ _)

theorem execMail_runs {σ : State} (p : Fin 4) (st : Sys2Proof.Stitch) (s : Sys2Proof.Machine.State) (hk : Keeps σ s) : Runs σ (execMail p st s) := by
  unfold execMail
  try dsimp only
  with_reducible repeat' first
    | assumption
    | apply Runs.next
    | apply Runs.ite
    | apply Keeps.ite
    | apply broadcastMail_keeps
    | apply inbound_keeps
    | simp only [Keeps.lit]
    | refine Keeps.foldl (fun _ _ _ => ?_) _ ?_
    | refine Keeps.of_pair ‹_ = (_, _)› ?_
    | (split)
    | (intro _ _ _)
    | (intro _ _)

theorem execRdata_runs {σ : State} (st : Sys2Proof.Stitch) (s : Sys2Proof.Machine.State) (hk : Keeps σ s) : Runs σ (execRdata st s) := by
  unfold execRdata
  try dsimp only
  with_reducible repeat' first
    | assumption
    | apply Runs.next
    | apply Runs.ite
    | apply Keeps.ite
    | apply loadAnswer_keeps
    | apply requestDone_keeps
    | simp only [Keeps.lit]
    | refine Keeps.foldl (fun _ _ _ => ?_) _ ?_
    | refine Keeps.of_pair ‹_ = (_, _)› ?_
    | (split)
    | (intro _ _ _)
    | (intro _ _)

theorem deliver_runs {σ : State} (p : Fin 4) (st : Sys2Proof.Stitch) (s : Sys2Proof.Machine.State) (hk : Keeps σ s) : Runs σ (deliver p st s) := by
  unfold deliver
  try dsimp only
  with_reducible repeat' first
    | assumption
    | apply Runs.next
    | apply Runs.ite
    | apply Keeps.ite
    | apply execRdata_runs
    | apply execWack_runs
    | apply execChack_runs
    | apply execMail_runs
    | apply execMack_runs
    | apply execErrorStitch_runs
    | apply answerError_keeps
    | apply updReceive_keeps
    | apply inbound_keeps
    | simp only [Keeps.lit]
    | refine Keeps.foldl (fun _ _ _ => ?_) _ ?_
    | refine Keeps.of_pair ‹_ = (_, _)› ?_
    | (split)
    | (intro _ _ _)
    | (intro _ _)

theorem execNegFail_runs {σ : State} (s : Sys2Proof.Machine.State) (hk : Keeps σ s) : Runs σ (execNegFail s) := by
  unfold execNegFail
  try dsimp only
  with_reducible repeat' first
    | assumption
    | apply Runs.next
    | apply Runs.ite
    | apply Keeps.ite
    | apply State.setRegBit_keeps
    | simp only [Keeps.lit]
    | refine Keeps.foldl (fun _ _ _ => ?_) _ ?_
    | refine Keeps.of_pair ‹_ = (_, _)› ?_
    | (split)
    | (intro _ _ _)
    | (intro _ _)

theorem execStitchCrcDiscard_runs {σ : State} (p : Fin 4) (s : Sys2Proof.Machine.State) (hk : Keeps σ s) : Runs σ (execStitchCrcDiscard p s) := by
  unfold execStitchCrcDiscard
  try dsimp only
  with_reducible repeat' first
    | assumption
    | apply Runs.next
    | apply Runs.ite
    | apply Keeps.ite
    | apply State.raise_keeps
    | apply State.setRegFld_keeps
    | simp only [Keeps.lit]
    | refine Keeps.foldl (fun _ _ _ => ?_) _ ?_
    | refine Keeps.of_pair ‹_ = (_, _)› ?_
    | (split)
    | (intro _ _ _)
    | (intro _ _)

theorem execHello_runs {σ : State} (p : Fin 4) (st : Sys2Proof.Stitch) (s : Sys2Proof.Machine.State) (hk : Keeps σ s) : Runs σ (execHello p st s) := by
  unfold execHello
  try dsimp only
  with_reducible repeat' first
    | assumption
    | apply Runs.next
    | apply Runs.ite
    | apply Keeps.ite
    | apply portFalls_keeps
    | apply State.setReg_keeps
    | apply State.setLport_keeps
    | apply portSource_keeps
    | apply topoChanged_keeps
    | apply sendLinks_keeps
    | apply reroute_keeps
    | apply linkEvent_keeps
    | simp only [Keeps.lit]
    | refine Keeps.foldl (fun _ _ _ => ?_) _ ?_
    | refine Keeps.of_pair ‹_ = (_, _)› ?_
    | (split)
    | (intro _ _ _)
    | (intro _ _)

theorem execNeggrant_runs {σ : State} (p : Fin 4) (st : Sys2Proof.Stitch) (s : Sys2Proof.Machine.State) (hk : Keeps σ s) : Runs σ (execNeggrant p st s) := by
  unfold execNeggrant
  try dsimp only
  with_reducible repeat' first
    | assumption
    | apply Runs.next
    | apply Runs.ite
    | apply Keeps.ite
    | apply refloods_keeps
    | apply noteFlood_keeps
    | apply State.setReg_keeps
    | apply sendHello_keeps
    | apply topoChanged_keeps
    | apply sendLinks_keeps
    | apply reroute_keeps
    | simp only [Keeps.lit]
    | refine Keeps.foldl (fun _ _ _ => ?_) _ ?_
    | refine Keeps.of_pair ‹_ = (_, _)› ?_
    | (split)
    | (intro _ _ _)
    | (intro _ _)

theorem execNegreq_runs {σ : State} (p : Fin 4) (st : Sys2Proof.Stitch) (s : Sys2Proof.Machine.State) (hk : Keeps σ s) : Runs σ (execNegreq p st s) := by
  unfold execNegreq
  try dsimp only
  with_reducible repeat' first
    | assumption
    | apply Runs.next
    | apply Runs.ite
    | apply Keeps.ite
    | apply refloods_keeps
    | apply noteFlood_keeps
    | apply grantHeard_keeps
    | simp only [Keeps.lit]
    | refine Keeps.foldl (fun _ _ _ => ?_) _ ?_
    | refine Keeps.of_pair ‹_ = (_, _)› ?_
    | (split)
    | (intro _ _ _)
    | (intro _ _)

theorem deliverDisc_runs {σ : State} (p : Fin 4) (st : Sys2Proof.Stitch) (s : Sys2Proof.Machine.State) (hk : Keeps σ s) : Runs σ (deliverDisc p st s) := by
  unfold deliverDisc
  try dsimp only
  with_reducible repeat' first
    | assumption
    | apply Runs.next
    | apply Runs.ite
    | apply Keeps.ite
    | apply execHello_runs
    | apply execLinksDisc_runs
    | apply execNegreq_runs
    | apply execNeggrant_runs
    | apply refloods_keeps
    | apply noteFlood_keeps
    | simp only [Keeps.lit]
    | refine Keeps.foldl (fun _ _ _ => ?_) _ ?_
    | refine Keeps.of_pair ‹_ = (_, _)› ?_
    | (split)
    | (intro _ _ _)
    | (intro _ _)

theorem forwardOn_keeps {σ : State} (p : Nat) (st : Sys2Proof.Stitch) (s : Sys2Proof.Machine.State) (hk : Keeps σ s) : Keeps σ (forwardOn p st s) := by
  unfold forwardOn
  try dsimp only
  with_reducible repeat' first
    | assumption
    | apply Keeps.ite
    | apply State.raise_keeps
    | apply enqueue_keeps
    | apply answerError_keeps
    | simp only [Keeps.lit]
    | refine Keeps.foldl (fun _ _ _ => ?_) _ ?_
    | refine Keeps.of_pair ‹_ = (_, _)› ?_
    | (split)
    | (intro _ _ _)
    | (intro _ _)

theorem routeStitch_runs {σ : State} (p : Fin 4) (st : Sys2Proof.Stitch) (s : Sys2Proof.Machine.State) (hk : Keeps σ s) : Runs σ (routeStitch p st s) := by
  unfold routeStitch
  try dsimp only
  with_reducible repeat' first
    | assumption
    | apply Runs.next
    | apply Runs.ite
    | apply Keeps.ite
    | apply deliverDisc_runs
    | apply State.raise_keeps
    | apply deliver_runs
    | apply forwardOn_keeps
    | simp only [Keeps.lit]
    | refine Keeps.foldl (fun _ _ _ => ?_) _ ?_
    | refine Keeps.of_pair ‹_ = (_, _)› ?_
    | (split)
    | (intro _ _ _)
    | (intro _ _)

theorem takeAck_keeps {σ : State} (p : Nat) (seq : Nat) (s : Sys2Proof.Machine.State) (hk : Keeps σ s) : Keeps σ (takeAck p seq s) := by
  unfold takeAck
  try dsimp only
  with_reducible repeat' first
    | assumption
    | apply Keeps.ite
    | apply State.setLport_keeps
    | simp only [Keeps.lit]
    | refine Keeps.foldl (fun _ _ _ => ?_) _ ?_
    | refine Keeps.of_pair ‹_ = (_, _)› ?_
    | (split)
    | (intro _ _ _)
    | (intro _ _)

theorem takeNext_keeps {σ : State} (p : Nat) (seq : Nat) (st : Sys2Proof.Stitch) (s : Sys2Proof.Machine.State) (hk : Keeps σ s) : Keeps σ (takeNext p seq st s) := by
  unfold takeNext
  try dsimp only
  with_reducible repeat' first
    | assumption
    | apply Keeps.ite
    | apply State.setLport_keeps
    | simp only [Keeps.lit]
    | refine Keeps.foldl (fun _ _ _ => ?_) _ ?_
    | refine Keeps.of_pair ‹_ = (_, _)› ?_
    | (split)
    | (intro _ _ _)
    | (intro _ _)

theorem execStitchArrival_runs {σ : State} (p : Fin 4) (lw : Sys2Proof.Word) (st : Sys2Proof.Stitch) (s : Sys2Proof.Machine.State) (hk : Keeps σ s) : Runs σ (execStitchArrival p lw st s) := by
  unfold execStitchArrival
  try dsimp only
  with_reducible repeat' first
    | assumption
    | apply Runs.next
    | apply Runs.ite
    | apply Keeps.ite
    | apply takeAck_keeps
    | apply routeStitch_runs
    | apply takeNext_keeps
    | simp only [Keeps.lit]
    | refine Keeps.foldl (fun _ _ _ => ?_) _ ?_
    | refine Keeps.of_pair ‹_ = (_, _)› ?_
    | (split)
    | (intro _ _ _)
    | (intro _ _)

theorem execDiscoveryDone_runs {σ : State} (s : Sys2Proof.Machine.State) (hk : Keeps σ s) : Runs σ (execDiscoveryDone s) := by
  unfold execDiscoveryDone
  try dsimp only
  with_reducible repeat' first
    | assumption
    | apply Runs.next
    | apply Runs.ite
    | apply Keeps.ite
    | apply State.setRegFld_keeps
    | apply State.setRegBit_keeps
    | apply linkEvent_keeps
    | apply sendWaiting_keeps
    | simp only [Keeps.lit]
    | refine Keeps.foldl (fun _ _ _ => ?_) _ ?_
    | refine Keeps.of_pair ‹_ = (_, _)› ?_
    | (split)
    | (intro _ _ _)
    | (intro _ _)

theorem execNegAllocate_runs {σ : State} (s : Sys2Proof.Machine.State) (hk : Keeps σ s) : Runs σ (execNegAllocate s) := by
  unfold execNegAllocate
  try dsimp only
  with_reducible repeat' first
    | assumption
    | apply Runs.next
    | apply Runs.ite
    | apply Keeps.ite
    | apply grantHeard_keeps
    | simp only [Keeps.lit]
    | refine Keeps.foldl (fun _ _ _ => ?_) _ ?_
    | refine Keeps.of_pair ‹_ = (_, _)› ?_
    | (split)
    | (intro _ _ _)
    | (intro _ _)

theorem execPortTrained_runs {σ : State} (p : Fin 4) (offBoard : Bool) (s : Sys2Proof.Machine.State) (hk : Keeps σ s) : Runs σ (execPortTrained p offBoard s) := by
  unfold execPortTrained
  try dsimp only
  with_reducible repeat' first
    | assumption
    | apply Runs.next
    | apply Runs.ite
    | apply Keeps.ite
    | apply State.setRegBit_keeps
    | apply State.setLport_keeps
    | apply sendHello_keeps
    | simp only [Keeps.lit]
    | refine Keeps.foldl (fun _ _ _ => ?_) _ ?_
    | refine Keeps.of_pair ‹_ = (_, _)› ?_
    | (split)
    | (intro _ _ _)
    | (intro _ _)

theorem execPortTrainTimeout_runs {σ : State} (p : Fin 4) (s : Sys2Proof.Machine.State) (hk : Keeps σ s) : Runs σ (execPortTrainTimeout p s) := by
  unfold execPortTrainTimeout
  try dsimp only
  with_reducible repeat' first
    | assumption
    | apply Runs.next
    | apply Runs.ite
    | apply Keeps.ite
    | apply State.setLport_keeps
    | simp only [Keeps.lit]
    | refine Keeps.foldl (fun _ _ _ => ?_) _ ?_
    | refine Keeps.of_pair ‹_ = (_, _)› ?_
    | (split)
    | (intro _ _ _)
    | (intro _ _)

theorem execChcmd_runs {σ : State} (p : Fin 4) (st : Sys2Proof.Stitch) (s : Sys2Proof.Machine.State) (hk : Keeps σ s) : Runs σ (execChcmd p st s) := by
  unfold execChcmd
  try dsimp only
  with_reducible repeat' first
    | assumption
    | apply Runs.next
    | apply Runs.ite
    | apply Keeps.ite
    | apply inbound_keeps
    | simp only [Keeps.lit]
    | refine Keeps.foldl (fun _ _ _ => ?_) _ ?_
    | refine Keeps.of_pair ‹_ = (_, _)› ?_
    | (split)
    | (intro _ _ _)
    | (intro _ _)

theorem execWriteStitch_runs {σ : State} (p : Fin 4) (st : Sys2Proof.Stitch) (s : Sys2Proof.Machine.State) (hk : Keeps σ s) : Runs σ (execWriteStitch p st s) := by
  unfold execWriteStitch
  try dsimp only
  with_reducible repeat' first
    | assumption
    | apply Runs.next
    | apply Runs.ite
    | apply Keeps.ite
    | apply inbound_keeps
    | simp only [Keeps.lit]
    | refine Keeps.foldl (fun _ _ _ => ?_) _ ?_
    | refine Keeps.of_pair ‹_ = (_, _)› ?_
    | (split)
    | (intro _ _ _)
    | (intro _ _)

theorem execReadStitch_runs {σ : State} (p : Fin 4) (st : Sys2Proof.Stitch) (s : Sys2Proof.Machine.State) (hk : Keeps σ s) : Runs σ (execReadStitch p st s) := by
  unfold execReadStitch
  try dsimp only
  with_reducible repeat' first
    | assumption
    | apply Runs.next
    | apply Runs.ite
    | apply Keeps.ite
    | apply inbound_keeps
    | simp only [Keeps.lit]
    | refine Keeps.foldl (fun _ _ _ => ?_) _ ?_
    | refine Keeps.of_pair ‹_ = (_, _)› ?_
    | (split)
    | (intro _ _ _)
    | (intro _ _)

theorem execPortDownReport_runs {σ : State} (p : Fin 4) (s : Sys2Proof.Machine.State) (hk : Keeps σ s) : Runs σ (execPortDownReport p s) := by
  unfold execPortDownReport
  try dsimp only
  with_reducible repeat' first
    | assumption
    | apply Runs.next
    | apply Runs.ite
    | apply Keeps.ite
    | apply portReport_keeps
    | simp only [Keeps.lit]
    | refine Keeps.foldl (fun _ _ _ => ?_) _ ?_
    | refine Keeps.of_pair ‹_ = (_, _)› ?_
    | (split)
    | (intro _ _ _)
    | (intro _ _)

end Sys2Proof.Machine
end

