-- ==== Sys2Proof/Laws/KeepsTick.lean ====
section
/-! SUPPORT. Every operation of Machine/Tick.lean keeps what a command keeps. -/

set_option linter.all false

namespace Sys2Proof.Machine

theorem modeTime_keeps {σ : State} (s : Sys2Proof.Machine.State) (hk : Keeps σ s) : Keeps σ (modeTime s) := by
  unfold modeTime
  try dsimp only
  with_reducible repeat' first
    | assumption
    | apply Keeps.ite
    | apply modeReached_keeps
    | simp only [Keeps.lit]
    | refine Keeps.foldl (fun _ _ _ => ?_) _ ?_
    | refine Keeps.of_pair ‹_ = (_, _)› ?_
    | (split)
    | (intro _ _ _)
    | (intro _ _)

theorem memTime_keeps {σ : State} (s : Sys2Proof.Machine.State) (hk : Keeps σ s) : Keeps σ (memTime s) := by
  unfold memTime
  try dsimp only
  with_reducible repeat' first
    | assumption
    | apply Keeps.ite
    | apply serveAll_keeps
    | simp only [Keeps.lit]
    | refine Keeps.foldl (fun _ _ _ => ?_) _ ?_
    | refine Keeps.of_pair ‹_ = (_, _)› ?_
    | (split)
    | (intro _ _ _)
    | (intro _ _)

theorem selfArrival_runs {σ : State} (s : Sys2Proof.Machine.State) (hk : Keeps σ s) : Runs σ (selfArrival s) := by
  unfold selfArrival
  try dsimp only
  with_reducible repeat' first
    | assumption
    | apply Runs.next
    | apply Runs.ite
    | apply Keeps.ite
    | apply deliver_runs
    | simp only [Keeps.lit]
    | refine Keeps.foldl (fun _ _ _ => ?_) _ ?_
    | refine Keeps.of_pair ‹_ = (_, _)› ?_
    | (split)
    | (intro _ _ _)
    | (intro _ _)

theorem trnTime_keeps {σ : State} (s : Sys2Proof.Machine.State) (hk : Keeps σ s) : Keeps σ (trnTime s) := by
  unfold trnTime
  try dsimp only
  with_reducible repeat' first
    | assumption
    | apply Keeps.ite
    | simp only [Keeps.lit]
    | refine Keeps.foldl (fun _ _ _ => ?_) _ ?_
    | refine Keeps.of_pair ‹_ = (_, _)› ?_
    | (split)
    | (intro _ _ _)
    | (intro _ _)

theorem tick_runs (s : State) : Runs { s with now := s.now + 1 } (tick s) := by
  unfold tick
  dsimp only
  exact selfArrival_runs _ (updTime_keeps _ (modeTime_keeps _ (clockTime_keeps _ (railQuiet_keeps _ (trnTime_keeps _
    (retryWaiting_keeps _ (linkTick_keeps _ (drainCores_keeps _ (memTime_keeps _ (Keeps.refl _))))))))))

end Sys2Proof.Machine
end

