-- ==== Sys2Proof/Laws/KeepsExec.lean ====
section
/-! SUPPORT. Every well-formed command answers a next state that keeps what a command keeps. -/

namespace Sys2Proof.Machine

/-- A channel of Table 7.1 is one of its island's. -/
theorem chanOk_ok {ch : ChanRef} (h : chanOk ch = true) : ch.ok = true := by
  unfold chanOk at h; unfold ChanRef.ok
  rcases ch with ⟨i, k⟩
  cases i <;> exact h

/-- An address of the windows lies in one of them. -/
theorem window_of {a : Nat} (h : (decide (0xA00000 ≤ a) && decide (a < 0xAA0000)) = true) : (windowIsland a).isSome = true := by
  simp only [Bool.and_eq_true, decide_eq_true_eq] at h
  unfold windowIsland
  rw [if_pos h]
  split
  · rfl
  · have : a / 65536 - 0xA0 < 10 := by omega
    unfold islandOf allIslands
    generalize a / 65536 - 0xA0 = k at this
    match k, this with
    | 0, _ | 1, _ | 2, _ | 3, _ | 4, _ | 5, _ | 6, _ | 7, _ | 8, _ | 9, _ => rfl

/-- Every well-formed command runs. -/
theorem exec_runs (c : Instr) (s : State) (h : wellFormed c = true) : Runs s (exec c s) := by
  cases c with
  | registerWrite r a v => exact execRegisterWrite_runs r a v s (window_of h) (Keeps.refl s)
  | powerOn => exact execPowerOn_runs s (Keeps.refl s)
  | powerLoss => exact execPowerLoss_runs s (Keeps.refl s)
  | bandChange b => exact execBandChange_runs b s (Keeps.refl s)
  | sectionBandChange sec b => exact execSectionBandChange_runs sec b s (Keeps.refl s)
  | groundTabFault present => exact execGroundTabFault_runs present s (Keeps.refl s)
  | reversePolarity => exact execReversePolarity_runs s (Keeps.refl s)
  | vcoreBrownout => exact execVcoreBrownout_runs s (Keeps.refl s)
  | clockLoss isl => exact execClockLoss_runs isl s (Keeps.refl s)
  | islandRelease isl => exact execIslandRelease_runs isl s (Keeps.refl s)
  | handshakeTimeout src dst => exact execHandshakeTimeout_runs src dst s (Keeps.refl s)
  | memService => exact execMemService_runs s (Keeps.refl s)
  | icbMwclr r isl v => exact execIcbMwclr_runs r isl v s (Keeps.refl s)
  | strapSample straps => exact execStrapSample_runs straps s (Keeps.refl s)
  | extest => exact execExtest_runs s (Keeps.refl s)
  | samplePreload levels => exact execSamplePreload_runs levels s (Keeps.refl s)
  | clamp => exact execClamp_runs s (Keeps.refl s)
  | highz => exact execHighz_runs s (Keeps.refl s)
  | bypass code => exact execBypass_runs code s (Keeps.refl s)
  | resetNRequest => exact execResetNRequest_runs s (Keeps.refl s)
  | holdExpiry => exact execHoldExpiry_runs s (Keeps.refl s)
  | descriptorTableError c => exact execDescriptorTableError_runs c s (Keeps.refl s)
  | supervisorStateError src => exact execSupervisorStateError_runs src s (Keeps.refl s)
  | retirementRecordError isl => exact execRetirementRecordError_runs isl s (Keeps.refl s)
  | rstReq r v => exact execRstReq_runs r v s (Keeps.refl s)
  | optionLoadComplete dbe fixes => exact execOptionLoadComplete_runs dbe fixes s (Keeps.refl s)
  | optionLoadRetry => exact execOptionLoadRetry_runs s (Keeps.refl s)
  | otpProgram r v => exact execOtpProgram_runs r v s (Keeps.refl s)
  | otpProgramComplete ok => exact execOtpProgramComplete_runs ok s (Keeps.refl s)
  | payloadVerificationComplete => exact execPayloadVerificationComplete_runs s (Keeps.refl s)
  | zeroFillComplete => exact execZeroFillComplete_runs s (Keeps.refl s)
  | calibrationComplete isl => exact execCalibrationComplete_runs isl s (Keeps.refl s)
  | referenceFallback => exact execReferenceFallback_runs s (Keeps.refl s)
  | marionetteTableRead => exact execMarionetteTableRead_runs s (Keeps.refl s)
  | marionetteEvaluate => exact execMarionetteEvaluate_runs s (Keeps.refl s)
  | marionetteToggle e => exact execMarionetteToggle_runs e s (Keeps.refl s)
  | marStop r v => exact execMarStop_runs r v s (Keeps.refl s)
  | parkRequest r v => exact execParkRequest_runs r v s (Keeps.refl s)
  | deepParkRequest r v => exact execDeepParkRequest_runs r v s (Keeps.refl s)
  | wklWake line us => exact execWklWake_runs line us s (Keeps.refl s)
  | parkVbatLow => exact execParkVbatLow_runs s (Keeps.refl s)
  | parkVbatReturn => exact execParkVbatReturn_runs s (Keeps.refl s)
  | wakeCauseClear r v => exact execWakeCauseClear_runs r v s (Keeps.refl s)
  | rtcTick => exact execRtcTick_runs s (Keeps.refl s)
  | rtcRead r => exact execRtcRead_runs r s (Keeps.refl s)
  | rtcLoad r v => exact execRtcLoad_runs r v s (Keeps.refl s)
  | supplyMeasureUpdate va vb vc vd vbus => exact execSupplyMeasureUpdate_runs va vb vc vd vbus s (Keeps.refl s)
  | vsenShort n kind present => exact execVsenShort_runs n kind present s (Keeps.refl s)
  | vsenRestart n => exact execVsenRestart_runs n s (Keeps.refl s)
  | ld c o => exact execLd_runs c o s (Keeps.refl s)
  | st c o => exact execSt_runs c o s (Keeps.refl s)
  | lde c o => exact execLde_runs c o s (Keeps.refl s)
  | ste c o => exact execSte_runs c o s (Keeps.refl s)
  | ldx c o => exact execLdx_runs c o s (Keeps.refl s)
  | stx c o => exact execStx_runs c o s (Keeps.refl s)
  | ldy c o => exact execLdy_runs c o s (Keeps.refl s)
  | sty c o => exact execSty_runs c o s (Keeps.refl s)
  | xch c o => exact execXch_runs c o s (Keeps.refl s)
  | push c o => exact execPush_runs c o s (Keeps.refl s)
  | pop c o => exact execPop_runs c o s (Keeps.refl s)
  | add c o => exact execAdd_runs c o s (Keeps.refl s)
  | adc c o => exact execAdc_runs c o s (Keeps.refl s)
  | sub c o => exact execSub_runs c o s (Keeps.refl s)
  | sbc c o => exact execSbc_runs c o s (Keeps.refl s)
  | cmp c o => exact execCmp_runs c o s (Keeps.refl s)
  | andOp c o => exact execAndOp_runs c o s (Keeps.refl s)
  | orOp c o => exact execOrOp_runs c o s (Keeps.refl s)
  | xorOp c o => exact execXorOp_runs c o s (Keeps.refl s)
  | bit c o => exact execBit_runs c o s (Keeps.refl s)
  | inc c o => exact execInc_runs c o s (Keeps.refl s)
  | dec c o => exact execDec_runs c o s (Keeps.refl s)
  | adm c o => exact execAdm_runs c o s (Keeps.refl s)
  | orm c o => exact execOrm_runs c o s (Keeps.refl s)
  | bcm c o => exact execBcm_runs c o s (Keeps.refl s)
  | mul c o => exact execMul_runs c o s (Keeps.refl s)
  | muls c o => exact execMuls_runs c o s (Keeps.refl s)
  | div c o => exact execDiv_runs c o s (Keeps.refl s)
  | divs c o => exact execDivs_runs c o s (Keeps.refl s)
  | shl c o => exact execShl_runs c o s (Keeps.refl s)
  | shr c o => exact execShr_runs c o s (Keeps.refl s)
  | asr c o => exact execAsr_runs c o s (Keeps.refl s)
  | rol c o => exact execRol_runs c o s (Keeps.refl s)
  | ror c o => exact execRor_runs c o s (Keeps.refl s)
  | shld c o => exact execShld_runs c o s (Keeps.refl s)
  | shrd c o => exact execShrd_runs c o s (Keeps.refl s)
  | asrd c o => exact execAsrd_runs c o s (Keeps.refl s)
  | exb c o => exact execExb_runs c o s (Keeps.refl s)
  | inb c o => exact execInb_runs c o s (Keeps.refl s)
  | adx c o => exact execAdx_runs c o s (Keeps.refl s)
  | ady c o => exact execAdy_runs c o s (Keeps.refl s)
  | ads c o => exact execAds_runs c o s (Keeps.refl s)
  | cpx c o => exact execCpx_runs c o s (Keeps.refl s)
  | cpy c o => exact execCpy_runs c o s (Keeps.refl s)
  | jmp c o => exact execJmp_runs c o s (Keeps.refl s)
  | call c o => exact execCall_runs c o s (Keeps.refl s)
  | jmpf c o => exact execJmpf_runs c o s (Keeps.refl s)
  | callf c o => exact execCallf_runs c o s (Keeps.refl s)
  | bcc c cond d => exact execBcc_runs c cond d s (Keeps.refl s)
  | lfd c o => exact execLfd_runs c o s (Keeps.refl s)
  | lfe c o => exact execLfe_runs c o s (Keeps.refl s)
  | lfs c o => exact execLfs_runs c o s (Keeps.refl s)
  | tas c o => exact execTas_runs c o s (Keeps.refl s)
  | lrw c o => exact execLrw_runs c o s (Keeps.refl s)
  | scw c o => exact execScw_runs c o s (Keeps.refl s)
  | wev c o => exact execWev_runs c o s (Keeps.refl s)
  | sev c o => exact execSev_runs c o s (Keeps.refl s)
  | sevRaise c => exact execSevRaise_runs c s (Keeps.refl s)
  | sdt c o => exact execSdt_runs c o s (Keeps.refl s)
  | ldt c o => exact execLdt_runs c o s (Keeps.refl s)
  | undefinedOpcode c w => exact execUndefinedOpcode_runs c w s (Keeps.refl s)
  | nop c => exact execNop_runs c s (Keeps.refl s)
  | chk c => exact execChk_runs c s (Keeps.refl s)
  | ret c => exact execRet_runs c s (Keeps.refl s)
  | retf c => exact execRetf_runs c s (Keeps.refl s)
  | rte c => exact execRte_runs c s (Keeps.refl s)
  | ei c => exact execEi_runs c s (Keeps.refl s)
  | di c => exact execDi_runs c s (Keeps.refl s)
  | swb c => exact execSwb_runs c s (Keeps.refl s)
  | sxb c => exact execSxb_runs c s (Keeps.refl s)
  | neg c => exact execNeg_runs c s (Keeps.refl s)
  | notOp c => exact execNotOp_runs c s (Keeps.refl s)
  | xae c => exact execXae_runs c s (Keeps.refl s)
  | mvax c => exact execMvax_runs c s (Keeps.refl s)
  | mvxa c => exact execMvxa_runs c s (Keeps.refl s)
  | mvay c => exact execMvay_runs c s (Keeps.refl s)
  | mvya c => exact execMvya_runs c s (Keeps.refl s)
  | mvae c => exact execMvae_runs c s (Keeps.refl s)
  | mvea c => exact execMvea_runs c s (Keeps.refl s)
  | mvas c => exact execMvas_runs c s (Keeps.refl s)
  | mvsa c => exact execMvsa_runs c s (Keeps.refl s)
  | mvaf c => exact execMvaf_runs c s (Keeps.refl s)
  | mvfa c => exact execMvfa_runs c s (Keeps.refl s)
  | rfcd c => exact execRfcd_runs c s (Keeps.refl s)
  | rfes c => exact execRfes_runs c s (Keeps.refl s)
  | psha c => exact execPsha_runs c s (Keeps.refl s)
  | popa c => exact execPopa_runs c s (Keeps.refl s)
  | pshe c => exact execPshe_runs c s (Keeps.refl s)
  | pope c => exact execPope_runs c s (Keeps.refl s)
  | pshx c => exact execPshx_runs c s (Keeps.refl s)
  | popx c => exact execPopx_runs c s (Keeps.refl s)
  | pshy c => exact execPshy_runs c s (Keeps.refl s)
  | popy c => exact execPopy_runs c s (Keeps.refl s)
  | pshf c => exact execPshf_runs c s (Keeps.refl s)
  | popf c => exact execPopf_runs c s (Keeps.refl s)
  | inx c => exact execInx_runs c s (Keeps.refl s)
  | dex c => exact execDex_runs c s (Keeps.refl s)
  | iny c => exact execIny_runs c s (Keeps.refl s)
  | dey c => exact execDey_runs c s (Keeps.refl s)
  | clc c => exact execClc_runs c s (Keeps.refl s)
  | stc c => exact execStc_runs c s (Keeps.refl s)
  | negd c => exact execNegd_runs c s (Keeps.refl s)
  | eventEntry c => exact execEventEntry_runs c s (Keeps.refl s)
  | checkpoint c => exact execCheckpoint_runs c s (Keeps.refl s)
  | checkpointWriteDone c => exact execCheckpointWriteDone_runs c s (Keeps.refl s)
  | lockstepMismatch c => exact execLockstepMismatch_runs c s (Keeps.refl s)
  | rollbackComplete c result => exact execRollbackComplete_runs c result s (Keeps.refl s)
  | takeoverComplete c result => exact execTakeoverComplete_runs c result s (Keeps.refl s)
  | mismatchWindowEnd c => exact execMismatchWindowEnd_runs c s (Keeps.refl s)
  | spareDesignate r v => exact execSpareDesignate_runs r v s (Keeps.refl s)
  | timerExpiry c n => exact execTimerExpiry_runs c n s (Keeps.refl s)
  | cycRead r c => exact execCycRead_runs r c s (Keeps.refl s)
  | wdgKick r c v => exact execWdgKick_runs r c v s (Keeps.refl s)
  | watchdogWarning c => exact execWatchdogWarning_runs c s (Keeps.refl s)
  | watchdogExpiry c => exact execWatchdogExpiry_runs c s (Keeps.refl s)
  | stagingWrite r ch w v => exact execStagingWrite_runs r ch w v s (chanOk_ok h) (Keeps.refl s)
  | commit r ch v => exact execCommit_runs r ch v s (chanOk_ok h) (Keeps.refl s)
  | periodBoundary ch => exact execPeriodBoundary_runs ch s (chanOk_ok h) (Keeps.refl s)
  | profileLoad r isl v => exact execProfileLoad_runs r isl v s (Keeps.refl s)
  | profileSwap isl => exact execProfileSwap_runs isl s (Keeps.refl s)
  | retryPauseEnd ch => exact execRetryPauseEnd_runs ch s (chanOk_ok h) (Keeps.refl s)
  | forgiveExpiry ch => exact execForgiveExpiry_runs ch s (chanOk_ok h) (Keeps.refl s)
  | recurAgeing ch => exact execRecurAgeing_runs ch s (chanOk_ok h) (Keeps.refl s)
  | retirementRecordWrite isl => exact execRetirementRecordWrite_runs isl s (Keeps.refl s)
  | retClear r isl v => exact execRetClear_runs r isl v s (Keeps.refl s)
  | partnerTakeover ch => exact execPartnerTakeover_runs ch s (chanOk_ok h) (Keeps.refl s)
  | shortComparatorTrip ch side i => exact execShortComparatorTrip_runs ch side i s (chanOk_ok h) (Keeps.refl s)
  | limitTrip ch i us term => exact execLimitTrip_runs ch i us term s (chanOk_ok h) (Keeps.refl s)
  | inrushWindowEnd ch term => exact execInrushWindowEnd_runs ch term s (chanOk_ok h) (Keeps.refl s)
  | thermalLatchSet u a b => exact execThermalLatchSet_runs u a b s (by rintro ch rfl; exact chanOk_ok h) (Keeps.refl s)
  | thermalLatchClear u a b => exact execThermalLatchClear_runs u a b s (by rintro ch rfl; exact chanOk_ok h) (Keeps.refl s)
  | wireModelUpdate ch meanSquare => exact execWireModelUpdate_runs ch meanSquare s (by simp_all [wellFormed]) (chanOk_ok (by simp_all [wellFormed])) (Keeps.refl s)
  | channelStart ch => exact execChannelStart_runs ch s (chanOk_ok h) (Keeps.refl s)
  | governorEvaluation p => exact execGovernorEvaluation_runs p s (Keeps.refl s)
  | sectionCurrentUpdate sec mean => exact execSectionCurrentUpdate_runs sec mean s (Keeps.refl s)
  | currentMeasurement ch m => exact execCurrentMeasurement_runs ch m s (chanOk_ok h) (Keeps.refl s)
  | offStateCheck ch v pair => exact execOffStateCheck_runs ch v pair s (chanOk_ok h) (Keeps.refl s)
  | shortBatConfirm ch v pair => exact execShortBatConfirm_runs ch v pair s (chanOk_ok h) (Keeps.refl s)
  | openConfirm ch => exact execOpenConfirm_runs ch s (chanOk_ok h) (Keeps.refl s)
  | hbRegulationPeriod ch mean => exact execHbRegulationPeriod_runs ch mean s (by simp_all [wellFormed]) (by simp_all [wellFormed]) (chanOk_ok (by simp_all [wellFormed])) (Keeps.refl s)
  | stallDetect ch i ms => exact execStallDetect_runs ch i ms s (by simp_all [wellFormed]) (by simp_all [wellFormed]) (chanOk_ok (by simp_all [wellFormed])) (Keeps.refl s)
  | peakStart n vbst => exact execPeakStart_runs n vbst s (Keeps.refl s)
  | peakEnd n why drawn vbst => exact execPeakEnd_runs n why drawn vbst s (Keeps.refl s)
  | pulseEnd n vbst => exact execPulseEnd_runs n vbst s (Keeps.refl s)
  | turnOffEnd n i => exact execTurnOffEnd_runs n i s (Keeps.refl s)
  | peakAbandon n => exact execPeakAbandon_runs n s (Keeps.refl s)
  | boostUnder vbst => exact execBoostUnder_runs vbst s (Keeps.refl s)
  | boostFault vbst => exact execBoostFault_runs vbst s (Keeps.refl s)
  | vlShortGndTrip n v us => exact execVlShortGndTrip_runs n v us s (Keeps.refl s)
  | railShortTrip k i v => exact execRailShortTrip_runs k i v s (Keeps.refl s)
  | railRetry k => exact execRailRetry_runs k s (Keeps.refl s)
  | bankOffCheck k node => exact execBankOffCheck_runs k node s (Keeps.refl s)
  | bankClr r v => exact execBankClr_runs r v s (Keeps.refl s)
  | luxGcWrite r v => exact execLuxGcWrite_runs r v s (Keeps.refl s)
  | frameStart => exact execFrameStart_runs s (Keeps.refl s)
  | rowSlot row parityBad cur => exact execRowSlot_runs row parityBad cur s (Keeps.refl s)
  | frameSwap r => exact execFrameSwap_runs r s (Keeps.refl s)
  | frameLoad r => exact execFrameLoad_runs r s (Keeps.refl s)
  | frameLoadComplete => exact execFrameLoadComplete_runs s (Keeps.refl s)
  | frameBufferWrite r a v => exact execFrameBufferWrite_runs r a v s (Keeps.refl s)
  | lxsyncEdge rising => exact execLxsyncEdge_runs rising s (Keeps.refl s)
  | lxsyncMiss => exact execLxsyncMiss_runs s (Keeps.refl s)
  | calibrationLoad r v => exact execCalibrationLoad_runs r v s (Keeps.refl s)
  | calibrationSwap => exact execCalibrationSwap_runs s (Keeps.refl s)
  | lampEvaluationTick tdie => exact execLampEvaluationTick_runs tdie s (Keeps.refl s)
  | lampEvaluationDone k => exact execLampEvaluationDone_runs k s (Keeps.refl s)
  | lsShortTrip n v us => exact execLsShortTrip_runs n v us s (Keeps.refl s)
  | inputFilterTick b n raw cur => exact execInputFilterTick_runs b n raw cur s (by rintro ⟨rfl, hn⟩; simp [wellFormed, inputOk] at h; omega) (Keeps.refl s)
  | inputConfigWrite r b n v => exact execInputConfigWrite_runs r b n v s (by rintro ⟨rfl, hn⟩; simp [wellFormed, inputOk] at h; omega) (Keeps.refl s)
  | siConversion n v20 ratio ohm => exact execSiConversion_runs n v20 ratio ohm s (Keeps.refl s)
  | vsnsLimit on => exact execVsnsLimit_runs on s (Keeps.refl s)
  | cyclicSensePulse raw => exact execCyclicSensePulse_runs raw s (Keeps.refl s)
  | barrierPathFail path failed => exact execBarrierPathFail_runs path failed s (Keeps.refl s)
  | fieldPowerLoss => exact execFieldPowerLoss_runs s (Keeps.refl s)
  | fieldPowerUp => exact execFieldPowerUp_runs s (Keeps.refl s)
  | vfldStateChange st v => exact execVfldStateChange_runs st v s (Keeps.refl s)
  | vfldMissingCrossing below => exact execVfldMissingCrossing_runs below s (Keeps.refl s)
  | inputLogWrite => exact execInputLogWrite_runs s (Keeps.refl s)
  | canFrameReceived n rx => exact execCanFrameReceived_runs n rx s (Keeps.refl s)
  | ethFrameReceived n f => exact execEthFrameReceived_runs n f s (Keeps.refl s)
  | receiveRecordWrite k => exact execReceiveRecordWrite_runs k s (Keeps.refl s)
  | frameTransmitted p ok => exact execFrameTransmitted_runs p ok s (Keeps.refl s)
  | txrWpWrite r p v => exact execTxrWpWrite_runs r p v s (Keeps.refl s)
  | canModeWrite r n v => exact execCanModeWrite_runs r n v s (Keeps.refl s)
  | canBusOff n => exact execCanBusOff_runs n s (Keeps.refl s)
  | canBorec r n v => exact execCanBorec_runs r n v s (Keeps.refl s)
  | linHeader n id rate => exact execLinHeader_runs n id rate s (Keeps.refl s)
  | linResponse n rsp => exact execLinResponse_runs n rsp s (Keeps.refl s)
  | linHdr r n v => exact execLinHdr_runs r n v s (Keeps.refl s)
  | linPub r n id => exact execLinPub_runs r n id s (Keeps.refl s)
  | linWakeSend r n v => exact execLinWakeSend_runs r n v s (Keeps.refl s)
  | linWake n us => exact execLinWake_runs n us s (Keeps.refl s)
  | canWakePattern n phase us => exact execCanWakePattern_runs n phase us s (Keeps.refl s)
  | tc10Wake n => exact execTc10Wake_runs n s (Keeps.refl s)
  | sleepreq r n => exact execSleepreq_runs r n s (Keeps.refl s)
  | wur r n => exact execWur_runs r n s (Keeps.refl s)
  | gwswap r => exact execGwswap_runs r s (Keeps.refl s)
  | routeSwapApply => exact execRouteSwapApply_runs s (Keeps.refl s)
  | gwIsoWrite r v => exact execGwIsoWrite_runs r v s (Keeps.refl s)
  | wfsend r => exact execWfsend_runs r s (Keeps.refl s)
  | wklPulse r v => exact execWklPulse_runs r v s (Keeps.refl s)
  | wklPulseEnd line => exact execWklPulseEnd_runs line s (Keeps.refl s)
  | netUsRead r => exact execNetUsRead_runs r s (Keeps.refl s)
  | ringEnable r v => exact execRingEnable_runs r v s (Keeps.refl s)
  | joinFrame n f => exact execJoinFrame_runs n f s (Keeps.refl s)
  | leaveFrame n f => exact execLeaveFrame_runs n f s (Keeps.refl s)
  | tokenFrame n f => exact execTokenFrame_runs n f s (Keeps.refl s)
  | ringCommit n f => exact execRingCommit_runs n f s (Keeps.refl s)
  | revokeFrame n f => exact execRevokeFrame_runs n f s (Keeps.refl s)
  | overruleFrame n f => exact execOverruleFrame_runs n f s (Keeps.refl s)
  | tokenForward => exact execTokenForward_runs s (Keeps.refl s)
  | tokenResend => exact execTokenResend_runs s (Keeps.refl s)
  | tokenLost => exact execTokenLost_runs s (Keeps.refl s)
  | quietWindowEnd => exact execQuietWindowEnd_runs s (Keeps.refl s)
  | trRevoke r => exact execTrRevoke_runs r s (Keeps.refl s)
  | trLeave r => exact execTrLeave_runs r s (Keeps.refl s)
  | unbar r => exact execUnbar_runs r s (Keeps.refl s)
  | generalSession r v => exact execGeneralSession_runs r v s (Keeps.refl s)
  | addressedSession r v => exact execAddressedSession_runs r v s (Keeps.refl s)
  | sessionAbort r v => exact execSessionAbort_runs r v s (Keeps.refl s)
  | sessionPhaseEnd peak => exact execSessionPhaseEnd_runs peak s (Keeps.refl s)
  | uhfFrameReceived pre crcOk bytes => exact execUhfFrameReceived_runs pre crcOk bytes s (Keeps.refl s)
  | rngArm r v => exact execRngArm_runs r v s (Keeps.refl s)
  | rngTround r v => exact execRngTround_runs r v s (Keeps.refl s)
  | spiDataWrite r p v reply => exact execSpiDataWrite_runs r p v reply s (Keeps.refl s)
  | enrolment r v => exact execEnrolment_runs r v s (Keeps.refl s)
  | enrolmentComplete rsp programmed peak => exact execEnrolmentComplete_runs rsp programmed peak s (Keeps.refl s)
  | revocation r v => exact execRevocation_runs r v s (Keeps.refl s)
  | poll => exact execPoll_runs s (Keeps.refl s)
  | pollWindowEnd => exact execPollWindowEnd_runs s (Keeps.refl s)
  | spreadPoll => exact execSpreadPoll_runs s (Keeps.refl s)
  | pollStop => exact execPollStop_runs s (Keeps.refl s)
  | immoRelease r v => exact execImmoRelease_runs r v s (Keeps.refl s)
  | immoLock r v => exact execImmoLock_runs r v s (Keeps.refl s)
  | immoSet r v => exact execImmoSet_runs r v s (Keeps.refl s)
  | ksLoad r v => exact execKsLoad_runs r v s (Keeps.refl s)
  | ksLoadotp r v => exact execKsLoadotp_runs r v s (Keeps.refl s)
  | ksGen r v => exact execKsGen_runs r v s (Keeps.refl s)
  | ksImport r v => exact execKsImport_runs r v s (Keeps.refl s)
  | ksErase r v => exact execKsErase_runs r v s (Keeps.refl s)
  | keyStoreComplete => exact execKeyStoreComplete_runs s (Keeps.refl s)
  | jobStagingWrite r j w v => exact execJobStagingWrite_runs r j w v s (Keeps.refl s)
  | jobGo r j v => exact execJobGo_runs r j v s (Keeps.refl s)
  | jobStart => exact execJobStart_runs s (Keeps.refl s)
  | jobComplete => exact execJobComplete_runs s (Keeps.refl s)
  | trnRead r => exact execTrnRead_runs r s (Keeps.refl s)
  | randomHealthFail failed => exact execRandomHealthFail_runs failed s (Keeps.refl s)
  | erasingAlarm a => exact execErasingAlarm_runs a s (Keeps.refl s)
  | alarmEnd a => exact execAlarmEnd_runs a s (Keeps.refl s)
  | sourceActivation src => exact execSourceActivation_runs src s (Keeps.refl s)
  | sourceRelease src => exact execSourceRelease_runs src s (Keeps.refl s)
  | wireFault src rails => exact execWireFault_runs src rails s (Keeps.refl s)
  | wireFaultEnd src rails => exact execWireFaultEnd_runs src rails s (Keeps.refl s)
  | sourceCheckResume isl => exact execSourceCheckResume_runs isl s (Keeps.refl s)
  | escalation src => exact execEscalation_runs src s (Keeps.refl s)
  | escalationWindowEnd src => exact execEscalationWindowEnd_runs src s (Keeps.refl s)
  | safeEnd r v => exact execSafeEnd_runs r v s (Keeps.refl s)
  | firstClr r v => exact execFirstClr_runs r v s (Keeps.refl s)
  | samplerLogWrite => exact execSamplerLogWrite_runs s (Keeps.refl s)
  | portTrained p offBoard => exact execPortTrained_runs p offBoard s (Keeps.refl s)
  | portTrainTimeout p => exact execPortTrainTimeout_runs p s (Keeps.refl s)
  | linkResend p => exact execLinkResend_runs p s (Keeps.refl s)
  | portDown p => exact execPortDown_runs p s (Keeps.refl s)
  | stitchArrival p lw st => exact execStitchArrival_runs p lw st s (Keeps.refl s)
  | readStitch p st => exact execReadStitch_runs p st s (Keeps.refl s)
  | writeStitch p st => exact execWriteStitch_runs p st s (Keeps.refl s)
  | rdata st => exact execRdata_runs st s (Keeps.refl s)
  | wack st => exact execWack_runs st s (Keeps.refl s)
  | chcmd p st => exact execChcmd_runs p st s (Keeps.refl s)
  | chack st => exact execChack_runs st s (Keeps.refl s)
  | mail p st => exact execMail_runs p st s (Keeps.refl s)
  | mack st => exact execMack_runs st s (Keeps.refl s)
  | resetStitch p st => exact execResetStitch_runs p st s (Keeps.refl s)
  | errorStitch st => exact execErrorStitch_runs st s (Keeps.refl s)
  | hello p st => exact execHello_runs p st s (Keeps.refl s)
  | linksDisc p st => exact execLinksDisc_runs p st s (Keeps.refl s)
  | negreq p st => exact execNegreq_runs p st s (Keeps.refl s)
  | neggrant p st => exact execNeggrant_runs p st s (Keeps.refl s)
  | negreqTimer => exact execNegreqTimer_runs s (Keeps.refl s)
  | negAllocate => exact execNegAllocate_runs s (Keeps.refl s)
  | negFail => exact execNegFail_runs s (Keeps.refl s)
  | discoveryDone => exact execDiscoveryDone_runs s (Keeps.refl s)
  | remoteTimeout tag => exact execRemoteTimeout_runs tag s (Keeps.refl s)
  | ccGo r v => exact execCcGo_runs r v s (Keeps.refl s)
  | mbxTxgo r v => exact execMbxTxgo_runs r v s (Keeps.refl s)
  | lnkRrst r v => exact execLnkRrst_runs r v s (Keeps.refl s)
  | portRestart r p v => exact execPortRestart_runs r p v s (Keeps.refl s)
  | portDownReport p => exact execPortDownReport_runs p s (Keeps.refl s)
  | flashProgram r v => exact execFlashProgram_runs r v s (Keeps.refl s)
  | flashErase r v => exact execFlashErase_runs r v s (Keeps.refl s)
  | flashEraseBank r v => exact execFlashEraseBank_runs r v s (Keeps.refl s)
  | flashEraseGen r v => exact execFlashEraseGen_runs r v s (Keeps.refl s)
  | flashComplete verifyOk => exact execFlashComplete_runs verifyOk s (Keeps.refl s)
  | openPart r v => exact execOpenPart_runs r v s (Keeps.refl s)
  | closePart r v => exact execClosePart_runs r v s (Keeps.refl s)
  | dropPart r v => exact execDropPart_runs r v s (Keeps.refl s)
  | preparePart r v => exact execPreparePart_runs r v s (Keeps.refl s)
  | prepareComplete flashOk => exact execPrepareComplete_runs flashOk s (Keeps.refl s)
  | startActivation r v => exact execStartActivation_runs r v s (Keeps.refl s)
  | healthyCmd r v => exact execHealthyCmd_runs r v s (Keeps.refl s)
  | updPrepare u => exact execUpdPrepare_runs u s (Keeps.refl s)
  | updVote u => exact execUpdVote_runs u s (Keeps.refl s)
  | updCommit u => exact execUpdCommit_runs u s (Keeps.refl s)
  | updAbort u => exact execUpdAbort_runs u s (Keeps.refl s)
  | updHealthy u => exact execUpdHealthy_runs u s (Keeps.refl s)
  | updConfirm u => exact execUpdConfirm_runs u s (Keeps.refl s)
  | updRevert u => exact execUpdRevert_runs u s (Keeps.refl s)
  | updAck u => exact execUpdAck_runs u s (Keeps.refl s)
  | updFailed u => exact execUpdFailed_runs u s (Keeps.refl s)
  | updQuery u => exact execUpdQuery_runs u s (Keeps.refl s)
  | updState u => exact execUpdState_runs u s (Keeps.refl s)
  | updResend => exact execUpdResend_runs s (Keeps.refl s)
  | voteTimeout => exact execVoteTimeout_runs s (Keeps.refl s)
  | healthDeadline => exact execHealthDeadline_runs s (Keeps.refl s)
  | preparedTimeout => exact execPreparedTimeout_runs s (Keeps.refl s)
  | windowExpiry => exact execWindowExpiry_runs s (Keeps.refl s)
  | orphanQuery => exact execOrphanQuery_runs s (Keeps.refl s)
  | resetNRise => exact execResetNRise_runs s (Keeps.refl s)
  | canBusOffRecovery n => exact execCanBusOffRecovery_runs n s (Keeps.refl s)
  | ethLinkChange n up => exact execEthLinkChange_runs n up s (Keeps.refl s)
  | tc10SleepAck n => exact execTc10SleepAck_runs n s (Keeps.refl s)
  | stitchCrcDiscard p => exact execStitchCrcDiscard_runs p s (Keeps.refl s)
  | boostUnderClear vbst => exact execBoostUnderClear_runs vbst s (Keeps.refl s)
  | antennaShortTrip n i => exact execAntennaShortTrip_runs n i s (Keeps.refl s)
  | linNoResponse n => exact execLinNoResponse_runs n s (Keeps.refl s)

end Sys2Proof.Machine
end

