-- ==== Sys2Proof/Laws/State.lean ====
section
/-! SUPPORT. Every field of the state under each of the updates the operations are made of, and what a read gives after
a write. -/

namespace Sys2Proof.Machine

/-! Writing twice. -/

theorem Sparse.erase_erase {α : Type} (m : Sparse α) (k : Nat) : (m.erase k).erase k = m.erase k := by
  induction m with
  | nil => rfl
  | cons e r ih =>
    obtain ⟨j, v⟩ := e
    by_cases h : j = k
    · simp only [Sparse.erase, h, if_true, ih]
    · simp only [Sparse.erase, h, if_false, ih]

theorem Sparse.erase_insert {α : Type} (m : Sparse α) (k : Nat) (v : α) : (m.insert k v).erase k = m.erase k := by
  induction m with
  | nil => simp [Sparse.insert, Sparse.erase]
  | cons e r ih =>
    obtain ⟨j, w⟩ := e
    unfold Sparse.insert
    split
    · simp [Sparse.erase]
    · simp only [Sparse.erase, ih]

@[simp] theorem Sparse.set_set {α : Type} [DecidableEq α] (d : Nat → α) (m : Sparse α) (k : Nat) (v w : α) :
    (m.set d k v).set d k w = m.set d k w := by
  have h : (m.set d k v).erase k = m.erase k := by
    unfold Sparse.set
    split
    · exact Sparse.erase_erase m k
    · rw [Sparse.erase_insert, Sparse.erase_erase]
  unfold Sparse.set at h ⊢
  rw [h]

@[simp] theorem Sparse.get_set {α : Type} [DecidableEq α] (d : Nat → α) (m : Sparse α) (k j : Nat) (v : α) :
    Sparse.get d (m.set d k v) j = if j = k then v else Sparse.get d m j := by
  split
  · rename_i h; subst h; exact Sparse.get_set_same m _ v
  · rename_i h; exact Sparse.get_set_other m v h

/-! Registers. -/

@[simp] theorem State.reg_setReg (s : State) (a b : Nat) (v : Word) : (s.setReg a v).reg b = if b = a then v else s.reg b :=
  Sparse.get_set _ _ _ _ _
@[simp] theorem State.setReg_setReg (s : State) (a : Nat) (v w : Word) : (s.setReg a v).setReg a w = s.setReg a w := by
  simp [State.setReg]

/-! Islands, gates, cores, pairs, sources, channels. -/

@[simp] theorem State.island_setIsland_same (s : State) (i : Island) (r : Isl) : (s.setIsland i r).island i = r := by
  simp [State.island, State.setIsland]
@[simp] theorem State.gate_setGate_same (s : State) (i j : Nat) (g : Gate) : (s.setGate i j g).gate i j = g := by
  simp [State.gate, State.setGate]
@[simp] theorem State.core_setCore (s : State) (c d : Nat) (k : Core) : (s.setCore c k).core d = if d = c then k else s.core d :=
  Sparse.get_set _ _ _ _ _
@[simp] theorem State.setCore_setCore (s : State) (c : Nat) (k l : Core) : (s.setCore c k).setCore c l = s.setCore c l := by
  simp [State.setCore]
theorem State.modCore_modCore (s : State) (c : Nat) (f g : Core → Core) :
    (s.modCore c f).modCore c g = s.modCore c fun k => g (f k) := by
  simp [State.modCore]
theorem State.modR_modR (s : State) (c : Nat) (f g : Regs → Regs) : (s.modR c f).modR c g = s.modR c fun r => g (f r) :=
  State.modCore_modCore s c _ _
@[simp] theorem State.r_modR (s : State) (c : Nat) (f : Regs → Regs) : (s.modR c f).r c = f (s.r c) := by
  simp [State.r, State.modR, State.modCore]
@[simp] theorem State.physPair_setPhys (s : State) (p q : Nat) (k : Phys) :
    (s.setPhys p k).physPair q = if q = p then k else s.physPair q :=
  Sparse.get_set _ _ _ _ _
@[simp] theorem State.src_setSrc (s : State) (n m : Nat) (r : Src) : (s.setSrc n r).src m = if m = n then r else s.src m :=
  Sparse.get_set _ _ _ _ _

/-! setReg. -/

@[simp] theorem State.setReg_pending (s : State) (a : Nat) (v : Word) : (s.setReg a v).pending = s.pending := rfl
@[simp] theorem State.setReg_now (s : State) (a : Nat) (v : Word) : (s.setReg a v).now = s.now := rfl
@[simp] theorem State.setReg_free (s : State) (a : Nat) (v : Word) : (s.setReg a v).free = s.free := rfl
@[simp] theorem State.setReg_mem (s : State) (a : Nat) (v : Word) : (s.setReg a v).mem = s.mem := rfl
@[simp] theorem State.setReg_dbe (s : State) (a : Nat) (v : Word) : (s.setReg a v).dbe = s.dbe := rfl
@[simp] theorem State.setReg_undef (s : State) (a : Nat) (v : Word) : (s.setReg a v).undef = s.undef := rfl
@[simp] theorem State.setReg_otp (s : State) (a : Nat) (v : Word) : (s.setReg a v).otp = s.otp := rfl
@[simp] theorem State.setReg_shadow (s : State) (a : Nat) (v : Word) : (s.setReg a v).shadow = s.shadow := rfl
@[simp] theorem State.setReg_isl (s : State) (a : Nat) (v : Word) : (s.setReg a v).isl = s.isl := rfl
@[simp] theorem State.setReg_gates (s : State) (a : Nat) (v : Word) : (s.setReg a v).gates = s.gates := rfl
@[simp] theorem State.setReg_memq (s : State) (a : Nat) (v : Word) : (s.setReg a v).memq = s.memq := rfl
@[simp] theorem State.setReg_memTick (s : State) (a : Nat) (v : Word) : (s.setReg a v).memTick = s.memTick := rfl
@[simp] theorem State.setReg_memLast (s : State) (a : Nat) (v : Word) : (s.setReg a v).memLast = s.memLast := rfl
@[simp] theorem State.setReg_srcs (s : State) (a : Nat) (v : Word) : (s.setReg a v).srcs = s.srcs := rfl
@[simp] theorem State.setReg_logq (s : State) (a : Nat) (v : Word) : (s.setReg a v).logq = s.logq := rfl
@[simp] theorem State.setReg_logSeq (s : State) (a : Nat) (v : Word) : (s.setReg a v).logSeq = s.logSeq := rfl
@[simp] theorem State.setReg_band (s : State) (a : Nat) (v : Word) : (s.setReg a v).band = s.band := rfl
@[simp] theorem State.setReg_secBand (s : State) (a : Nat) (v : Word) : (s.setReg a v).secBand = s.secBand := rfl
@[simp] theorem State.setReg_reversed (s : State) (a : Nat) (v : Word) : (s.setReg a v).reversed = s.reversed := rfl
@[simp] theorem State.setReg_mode (s : State) (a : Nat) (v : Word) : (s.setReg a v).mode = s.mode := rfl
@[simp] theorem State.setReg_enterAt (s : State) (a : Nat) (v : Word) : (s.setReg a v).enterAt = s.enterAt := rfl
@[simp] theorem State.setReg_vsen (s : State) (a : Nat) (v : Word) : (s.setReg a v).vsen = s.vsen := rfl
@[simp] theorem State.setReg_rtcSec (s : State) (a : Nat) (v : Word) : (s.setReg a v).rtcSec = s.rtcSec := rfl
@[simp] theorem State.setReg_rtcFrac (s : State) (a : Nat) (v : Word) : (s.setReg a v).rtcFrac = s.rtcFrac := rfl
@[simp] theorem State.setReg_strapLast (s : State) (a : Nat) (v : Word) : (s.setReg a v).strapLast = s.strapLast := rfl
@[simp] theorem State.setReg_straps (s : State) (a : Nat) (v : Word) : (s.setReg a v).straps = s.straps := rfl
@[simp] theorem State.setReg_tap (s : State) (a : Nat) (v : Word) : (s.setReg a v).tap = s.tap := rfl
@[simp] theorem State.setReg_boundary (s : State) (a : Nat) (v : Word) : (s.setReg a v).boundary = s.boundary := rfl
@[simp] theorem State.setReg_faultNLow (s : State) (a : Nat) (v : Word) : (s.setReg a v).faultNLow = s.faultNLow := rfl
@[simp] theorem State.setReg_resetNLow (s : State) (a : Nat) (v : Word) : (s.setReg a v).resetNLow = s.resetNLow := rfl
@[simp] theorem State.setReg_resetNFree (s : State) (a : Nat) (v : Word) : (s.setReg a v).resetNFree = s.resetNFree := rfl
@[simp] theorem State.setReg_bring (s : State) (a : Nat) (v : Word) : (s.setReg a v).bring = s.bring := rfl
@[simp] theorem State.setReg_holdStart (s : State) (a : Nat) (v : Word) : (s.setReg a v).holdStart = s.holdStart := rfl
@[simp] theorem State.setReg_calib (s : State) (a : Nat) (v : Word) : (s.setReg a v).calib = s.calib := rfl
@[simp] theorem State.setReg_otpBusy (s : State) (a : Nat) (v : Word) : (s.setReg a v).otpBusy = s.otpBusy := rfl
@[simp] theorem State.setReg_otpDone (s : State) (a : Nat) (v : Word) : (s.setReg a v).otpDone = s.otpDone := rfl
@[simp] theorem State.setReg_marTable (s : State) (a : Nat) (v : Word) : (s.setReg a v).marTable = s.marTable := rfl
@[simp] theorem State.setReg_mar (s : State) (a : Nat) (v : Word) : (s.setReg a v).mar = s.mar := rfl
@[simp] theorem State.setReg_cores (s : State) (a : Nat) (v : Word) : (s.setReg a v).cores = s.cores := rfl
@[simp] theorem State.setReg_phys (s : State) (a : Nat) (v : Word) : (s.setReg a v).phys = s.phys := rfl
@[simp] theorem State.setReg_pairedA (s : State) (a : Nat) (v : Word) : (s.setReg a v).pairedA = s.pairedA := rfl
@[simp] theorem State.setReg_pairedB (s : State) (a : Nat) (v : Word) : (s.setReg a v).pairedB = s.pairedB := rfl
@[simp] theorem State.setReg_chans (s : State) (a : Nat) (v : Word) : (s.setReg a v).chans = s.chans := rfl
@[simp] theorem State.setReg_outs (s : State) (a : Nat) (v : Word) : (s.setReg a v).outs = s.outs := rfl
@[simp] theorem State.setReg_sw (s : State) (a : Nat) (v : Word) : (s.setReg a v).sw = s.sw := rfl
@[simp] theorem State.setReg_cluLast (s : State) (a : Nat) (v : Word) : (s.setReg a v).cluLast = s.cluLast := rfl
@[simp] theorem State.setReg_valves (s : State) (a : Nat) (v : Word) : (s.setReg a v).valves = s.valves := rfl
@[simp] theorem State.setReg_banks (s : State) (a : Nat) (v : Word) : (s.setReg a v).banks = s.banks := rfl
@[simp] theorem State.setReg_boostKeep (s : State) (a : Nat) (v : Word) : (s.setReg a v).boostKeep = s.boostKeep := rfl
@[simp] theorem State.setReg_lux (s : State) (a : Nat) (v : Word) : (s.setReg a v).lux = s.lux := rfl
@[simp] theorem State.setReg_sinks (s : State) (a : Nat) (v : Word) : (s.setReg a v).sinks = s.sinks := rfl
@[simp] theorem State.setReg_lamps (s : State) (a : Nat) (v : Word) : (s.setReg a v).lamps = s.lamps := rfl
@[simp] theorem State.setReg_filts (s : State) (a : Nat) (v : Word) : (s.setReg a v).filts = s.filts := rfl
@[simp] theorem State.setReg_fieldRec (s : State) (a : Nat) (v : Word) : (s.setReg a v).fieldRec = s.fieldRec := rfl
@[simp] theorem State.setReg_vsnsLim (s : State) (a : Nat) (v : Word) : (s.setReg a v).vsnsLim = s.vsnsLim := rfl
@[simp] theorem State.setReg_sent (s : State) (a : Nat) (v : Word) : (s.setReg a v).sent = s.sent := rfl
@[simp] theorem State.setReg_sec (s : State) (a : Nat) (v : Word) : (s.setReg a v).sec = s.sec := rfl
@[simp] theorem State.setReg_alive (s : State) (a : Nat) (v : Word) : (s.setReg a v).alive = s.alive := rfl
@[simp] theorem State.setReg_cntSet (s : State) (a : Nat) (v : Word) : (s.setReg a v).cntSet = s.cntSet := rfl
@[simp] theorem State.setReg_poll (s : State) (a : Nat) (v : Word) : (s.setReg a v).poll = s.poll := rfl
@[simp] theorem State.setReg_spreadDue (s : State) (a : Nat) (v : Word) : (s.setReg a v).spreadDue = s.spreadDue := rfl
@[simp] theorem State.setReg_parkSec (s : State) (a : Nat) (v : Word) : (s.setReg a v).parkSec = s.parkSec := rfl
@[simp] theorem State.setReg_lnk (s : State) (a : Nat) (v : Word) : (s.setReg a v).lnk = s.lnk := rfl
@[simp] theorem State.setReg_net (s : State) (a : Nat) (v : Word) : (s.setReg a v).net = s.net := rfl
@[simp] theorem State.setReg_flashOp (s : State) (a : Nat) (v : Word) : (s.setReg a v).flashOp = s.flashOp := rfl
@[simp] theorem State.setReg_upd (s : State) (a : Nat) (v : Word) : (s.setReg a v).upd = s.upd := rfl
@[simp] theorem State.setReg_updAon (s : State) (a : Nat) (v : Word) : (s.setReg a v).updAon = s.updAon := rfl
@[simp] theorem State.setReg_parkLow (s : State) (a : Nat) (v : Word) : (s.setReg a v).parkLow = s.parkLow := rfl
@[simp] theorem State.setReg_bypassReg (s : State) (a : Nat) (v : Word) : (s.setReg a v).bypassReg = s.bypassReg := rfl
@[simp] theorem State.setReg_stageBase (s : State) (a : Nat) (v : Word) : (s.setReg a v).stageBase = s.stageBase := rfl
@[simp] theorem State.setReg_boostLow (s : State) (a : Nat) (v : Word) : (s.setReg a v).boostLow = s.boostLow := rfl
@[simp] theorem State.setReg_tickBase (s : State) (a : Nat) (v : Word) : (s.setReg a v).tickBase = s.tickBase := rfl
@[simp] theorem State.setReg_pollAt (s : State) (a : Nat) (v : Word) : (s.setReg a v).pollAt = s.pollAt := rfl

/-! setMem. -/

@[simp] theorem State.setMem_pending (s : State) (a : Nat) (v : Word) : (s.setMem a v).pending = s.pending := rfl
@[simp] theorem State.setMem_now (s : State) (a : Nat) (v : Word) : (s.setMem a v).now = s.now := rfl
@[simp] theorem State.setMem_free (s : State) (a : Nat) (v : Word) : (s.setMem a v).free = s.free := rfl
@[simp] theorem State.setMem_regs (s : State) (a : Nat) (v : Word) : (s.setMem a v).regs = s.regs := rfl
@[simp] theorem State.setMem_dbe (s : State) (a : Nat) (v : Word) : (s.setMem a v).dbe = s.dbe := rfl
@[simp] theorem State.setMem_otp (s : State) (a : Nat) (v : Word) : (s.setMem a v).otp = s.otp := rfl
@[simp] theorem State.setMem_shadow (s : State) (a : Nat) (v : Word) : (s.setMem a v).shadow = s.shadow := rfl
@[simp] theorem State.setMem_isl (s : State) (a : Nat) (v : Word) : (s.setMem a v).isl = s.isl := rfl
@[simp] theorem State.setMem_gates (s : State) (a : Nat) (v : Word) : (s.setMem a v).gates = s.gates := rfl
@[simp] theorem State.setMem_memq (s : State) (a : Nat) (v : Word) : (s.setMem a v).memq = s.memq := rfl
@[simp] theorem State.setMem_memTick (s : State) (a : Nat) (v : Word) : (s.setMem a v).memTick = s.memTick := rfl
@[simp] theorem State.setMem_memLast (s : State) (a : Nat) (v : Word) : (s.setMem a v).memLast = s.memLast := rfl
@[simp] theorem State.setMem_srcs (s : State) (a : Nat) (v : Word) : (s.setMem a v).srcs = s.srcs := rfl
@[simp] theorem State.setMem_logq (s : State) (a : Nat) (v : Word) : (s.setMem a v).logq = s.logq := rfl
@[simp] theorem State.setMem_logSeq (s : State) (a : Nat) (v : Word) : (s.setMem a v).logSeq = s.logSeq := rfl
@[simp] theorem State.setMem_band (s : State) (a : Nat) (v : Word) : (s.setMem a v).band = s.band := rfl
@[simp] theorem State.setMem_secBand (s : State) (a : Nat) (v : Word) : (s.setMem a v).secBand = s.secBand := rfl
@[simp] theorem State.setMem_reversed (s : State) (a : Nat) (v : Word) : (s.setMem a v).reversed = s.reversed := rfl
@[simp] theorem State.setMem_mode (s : State) (a : Nat) (v : Word) : (s.setMem a v).mode = s.mode := rfl
@[simp] theorem State.setMem_enterAt (s : State) (a : Nat) (v : Word) : (s.setMem a v).enterAt = s.enterAt := rfl
@[simp] theorem State.setMem_vsen (s : State) (a : Nat) (v : Word) : (s.setMem a v).vsen = s.vsen := rfl
@[simp] theorem State.setMem_rtcSec (s : State) (a : Nat) (v : Word) : (s.setMem a v).rtcSec = s.rtcSec := rfl
@[simp] theorem State.setMem_rtcFrac (s : State) (a : Nat) (v : Word) : (s.setMem a v).rtcFrac = s.rtcFrac := rfl
@[simp] theorem State.setMem_strapLast (s : State) (a : Nat) (v : Word) : (s.setMem a v).strapLast = s.strapLast := rfl
@[simp] theorem State.setMem_straps (s : State) (a : Nat) (v : Word) : (s.setMem a v).straps = s.straps := rfl
@[simp] theorem State.setMem_tap (s : State) (a : Nat) (v : Word) : (s.setMem a v).tap = s.tap := rfl
@[simp] theorem State.setMem_boundary (s : State) (a : Nat) (v : Word) : (s.setMem a v).boundary = s.boundary := rfl
@[simp] theorem State.setMem_faultNLow (s : State) (a : Nat) (v : Word) : (s.setMem a v).faultNLow = s.faultNLow := rfl
@[simp] theorem State.setMem_resetNLow (s : State) (a : Nat) (v : Word) : (s.setMem a v).resetNLow = s.resetNLow := rfl
@[simp] theorem State.setMem_resetNFree (s : State) (a : Nat) (v : Word) : (s.setMem a v).resetNFree = s.resetNFree := rfl
@[simp] theorem State.setMem_bring (s : State) (a : Nat) (v : Word) : (s.setMem a v).bring = s.bring := rfl
@[simp] theorem State.setMem_holdStart (s : State) (a : Nat) (v : Word) : (s.setMem a v).holdStart = s.holdStart := rfl
@[simp] theorem State.setMem_calib (s : State) (a : Nat) (v : Word) : (s.setMem a v).calib = s.calib := rfl
@[simp] theorem State.setMem_otpBusy (s : State) (a : Nat) (v : Word) : (s.setMem a v).otpBusy = s.otpBusy := rfl
@[simp] theorem State.setMem_otpDone (s : State) (a : Nat) (v : Word) : (s.setMem a v).otpDone = s.otpDone := rfl
@[simp] theorem State.setMem_marTable (s : State) (a : Nat) (v : Word) : (s.setMem a v).marTable = s.marTable := rfl
@[simp] theorem State.setMem_mar (s : State) (a : Nat) (v : Word) : (s.setMem a v).mar = s.mar := rfl
@[simp] theorem State.setMem_cores (s : State) (a : Nat) (v : Word) : (s.setMem a v).cores = s.cores := rfl
@[simp] theorem State.setMem_phys (s : State) (a : Nat) (v : Word) : (s.setMem a v).phys = s.phys := rfl
@[simp] theorem State.setMem_pairedA (s : State) (a : Nat) (v : Word) : (s.setMem a v).pairedA = s.pairedA := rfl
@[simp] theorem State.setMem_pairedB (s : State) (a : Nat) (v : Word) : (s.setMem a v).pairedB = s.pairedB := rfl
@[simp] theorem State.setMem_chans (s : State) (a : Nat) (v : Word) : (s.setMem a v).chans = s.chans := rfl
@[simp] theorem State.setMem_outs (s : State) (a : Nat) (v : Word) : (s.setMem a v).outs = s.outs := rfl
@[simp] theorem State.setMem_sw (s : State) (a : Nat) (v : Word) : (s.setMem a v).sw = s.sw := rfl
@[simp] theorem State.setMem_cluLast (s : State) (a : Nat) (v : Word) : (s.setMem a v).cluLast = s.cluLast := rfl
@[simp] theorem State.setMem_valves (s : State) (a : Nat) (v : Word) : (s.setMem a v).valves = s.valves := rfl
@[simp] theorem State.setMem_banks (s : State) (a : Nat) (v : Word) : (s.setMem a v).banks = s.banks := rfl
@[simp] theorem State.setMem_boostKeep (s : State) (a : Nat) (v : Word) : (s.setMem a v).boostKeep = s.boostKeep := rfl
@[simp] theorem State.setMem_lux (s : State) (a : Nat) (v : Word) : (s.setMem a v).lux = s.lux := rfl
@[simp] theorem State.setMem_sinks (s : State) (a : Nat) (v : Word) : (s.setMem a v).sinks = s.sinks := rfl
@[simp] theorem State.setMem_lamps (s : State) (a : Nat) (v : Word) : (s.setMem a v).lamps = s.lamps := rfl
@[simp] theorem State.setMem_filts (s : State) (a : Nat) (v : Word) : (s.setMem a v).filts = s.filts := rfl
@[simp] theorem State.setMem_fieldRec (s : State) (a : Nat) (v : Word) : (s.setMem a v).fieldRec = s.fieldRec := rfl
@[simp] theorem State.setMem_vsnsLim (s : State) (a : Nat) (v : Word) : (s.setMem a v).vsnsLim = s.vsnsLim := rfl
@[simp] theorem State.setMem_sent (s : State) (a : Nat) (v : Word) : (s.setMem a v).sent = s.sent := rfl
@[simp] theorem State.setMem_sec (s : State) (a : Nat) (v : Word) : (s.setMem a v).sec = s.sec := rfl
@[simp] theorem State.setMem_alive (s : State) (a : Nat) (v : Word) : (s.setMem a v).alive = s.alive := rfl
@[simp] theorem State.setMem_cntSet (s : State) (a : Nat) (v : Word) : (s.setMem a v).cntSet = s.cntSet := rfl
@[simp] theorem State.setMem_poll (s : State) (a : Nat) (v : Word) : (s.setMem a v).poll = s.poll := rfl
@[simp] theorem State.setMem_spreadDue (s : State) (a : Nat) (v : Word) : (s.setMem a v).spreadDue = s.spreadDue := rfl
@[simp] theorem State.setMem_parkSec (s : State) (a : Nat) (v : Word) : (s.setMem a v).parkSec = s.parkSec := rfl
@[simp] theorem State.setMem_lnk (s : State) (a : Nat) (v : Word) : (s.setMem a v).lnk = s.lnk := rfl
@[simp] theorem State.setMem_net (s : State) (a : Nat) (v : Word) : (s.setMem a v).net = s.net := rfl
@[simp] theorem State.setMem_flashOp (s : State) (a : Nat) (v : Word) : (s.setMem a v).flashOp = s.flashOp := rfl
@[simp] theorem State.setMem_upd (s : State) (a : Nat) (v : Word) : (s.setMem a v).upd = s.upd := rfl
@[simp] theorem State.setMem_updAon (s : State) (a : Nat) (v : Word) : (s.setMem a v).updAon = s.updAon := rfl
@[simp] theorem State.setMem_parkLow (s : State) (a : Nat) (v : Word) : (s.setMem a v).parkLow = s.parkLow := rfl
@[simp] theorem State.setMem_bypassReg (s : State) (a : Nat) (v : Word) : (s.setMem a v).bypassReg = s.bypassReg := rfl
@[simp] theorem State.setMem_stageBase (s : State) (a : Nat) (v : Word) : (s.setMem a v).stageBase = s.stageBase := rfl
@[simp] theorem State.setMem_boostLow (s : State) (a : Nat) (v : Word) : (s.setMem a v).boostLow = s.boostLow := rfl
@[simp] theorem State.setMem_tickBase (s : State) (a : Nat) (v : Word) : (s.setMem a v).tickBase = s.tickBase := rfl
@[simp] theorem State.setMem_pollAt (s : State) (a : Nat) (v : Word) : (s.setMem a v).pollAt = s.pollAt := rfl

/-! setIsland. -/

@[simp] theorem State.setIsland_pending (s : State) (i : Island) (v : Isl) : (s.setIsland i v).pending = s.pending := rfl
@[simp] theorem State.setIsland_now (s : State) (i : Island) (v : Isl) : (s.setIsland i v).now = s.now := rfl
@[simp] theorem State.setIsland_free (s : State) (i : Island) (v : Isl) : (s.setIsland i v).free = s.free := rfl
@[simp] theorem State.setIsland_regs (s : State) (i : Island) (v : Isl) : (s.setIsland i v).regs = s.regs := rfl
@[simp] theorem State.setIsland_mem (s : State) (i : Island) (v : Isl) : (s.setIsland i v).mem = s.mem := rfl
@[simp] theorem State.setIsland_dbe (s : State) (i : Island) (v : Isl) : (s.setIsland i v).dbe = s.dbe := rfl
@[simp] theorem State.setIsland_undef (s : State) (i : Island) (v : Isl) : (s.setIsland i v).undef = s.undef := rfl
@[simp] theorem State.setIsland_otp (s : State) (i : Island) (v : Isl) : (s.setIsland i v).otp = s.otp := rfl
@[simp] theorem State.setIsland_shadow (s : State) (i : Island) (v : Isl) : (s.setIsland i v).shadow = s.shadow := rfl
@[simp] theorem State.setIsland_gates (s : State) (i : Island) (v : Isl) : (s.setIsland i v).gates = s.gates := rfl
@[simp] theorem State.setIsland_memq (s : State) (i : Island) (v : Isl) : (s.setIsland i v).memq = s.memq := rfl
@[simp] theorem State.setIsland_memTick (s : State) (i : Island) (v : Isl) : (s.setIsland i v).memTick = s.memTick := rfl
@[simp] theorem State.setIsland_memLast (s : State) (i : Island) (v : Isl) : (s.setIsland i v).memLast = s.memLast := rfl
@[simp] theorem State.setIsland_srcs (s : State) (i : Island) (v : Isl) : (s.setIsland i v).srcs = s.srcs := rfl
@[simp] theorem State.setIsland_logq (s : State) (i : Island) (v : Isl) : (s.setIsland i v).logq = s.logq := rfl
@[simp] theorem State.setIsland_logSeq (s : State) (i : Island) (v : Isl) : (s.setIsland i v).logSeq = s.logSeq := rfl
@[simp] theorem State.setIsland_band (s : State) (i : Island) (v : Isl) : (s.setIsland i v).band = s.band := rfl
@[simp] theorem State.setIsland_secBand (s : State) (i : Island) (v : Isl) : (s.setIsland i v).secBand = s.secBand := rfl
@[simp] theorem State.setIsland_reversed (s : State) (i : Island) (v : Isl) : (s.setIsland i v).reversed = s.reversed := rfl
@[simp] theorem State.setIsland_mode (s : State) (i : Island) (v : Isl) : (s.setIsland i v).mode = s.mode := rfl
@[simp] theorem State.setIsland_enterAt (s : State) (i : Island) (v : Isl) : (s.setIsland i v).enterAt = s.enterAt := rfl
@[simp] theorem State.setIsland_vsen (s : State) (i : Island) (v : Isl) : (s.setIsland i v).vsen = s.vsen := rfl
@[simp] theorem State.setIsland_rtcSec (s : State) (i : Island) (v : Isl) : (s.setIsland i v).rtcSec = s.rtcSec := rfl
@[simp] theorem State.setIsland_rtcFrac (s : State) (i : Island) (v : Isl) : (s.setIsland i v).rtcFrac = s.rtcFrac := rfl
@[simp] theorem State.setIsland_strapLast (s : State) (i : Island) (v : Isl) : (s.setIsland i v).strapLast = s.strapLast := rfl
@[simp] theorem State.setIsland_straps (s : State) (i : Island) (v : Isl) : (s.setIsland i v).straps = s.straps := rfl
@[simp] theorem State.setIsland_tap (s : State) (i : Island) (v : Isl) : (s.setIsland i v).tap = s.tap := rfl
@[simp] theorem State.setIsland_boundary (s : State) (i : Island) (v : Isl) : (s.setIsland i v).boundary = s.boundary := rfl
@[simp] theorem State.setIsland_faultNLow (s : State) (i : Island) (v : Isl) : (s.setIsland i v).faultNLow = s.faultNLow := rfl
@[simp] theorem State.setIsland_resetNLow (s : State) (i : Island) (v : Isl) : (s.setIsland i v).resetNLow = s.resetNLow := rfl
@[simp] theorem State.setIsland_resetNFree (s : State) (i : Island) (v : Isl) : (s.setIsland i v).resetNFree = s.resetNFree := rfl
@[simp] theorem State.setIsland_bring (s : State) (i : Island) (v : Isl) : (s.setIsland i v).bring = s.bring := rfl
@[simp] theorem State.setIsland_holdStart (s : State) (i : Island) (v : Isl) : (s.setIsland i v).holdStart = s.holdStart := rfl
@[simp] theorem State.setIsland_calib (s : State) (i : Island) (v : Isl) : (s.setIsland i v).calib = s.calib := rfl
@[simp] theorem State.setIsland_otpBusy (s : State) (i : Island) (v : Isl) : (s.setIsland i v).otpBusy = s.otpBusy := rfl
@[simp] theorem State.setIsland_otpDone (s : State) (i : Island) (v : Isl) : (s.setIsland i v).otpDone = s.otpDone := rfl
@[simp] theorem State.setIsland_marTable (s : State) (i : Island) (v : Isl) : (s.setIsland i v).marTable = s.marTable := rfl
@[simp] theorem State.setIsland_mar (s : State) (i : Island) (v : Isl) : (s.setIsland i v).mar = s.mar := rfl
@[simp] theorem State.setIsland_cores (s : State) (i : Island) (v : Isl) : (s.setIsland i v).cores = s.cores := rfl
@[simp] theorem State.setIsland_phys (s : State) (i : Island) (v : Isl) : (s.setIsland i v).phys = s.phys := rfl
@[simp] theorem State.setIsland_pairedA (s : State) (i : Island) (v : Isl) : (s.setIsland i v).pairedA = s.pairedA := rfl
@[simp] theorem State.setIsland_pairedB (s : State) (i : Island) (v : Isl) : (s.setIsland i v).pairedB = s.pairedB := rfl
@[simp] theorem State.setIsland_chans (s : State) (i : Island) (v : Isl) : (s.setIsland i v).chans = s.chans := rfl
@[simp] theorem State.setIsland_outs (s : State) (i : Island) (v : Isl) : (s.setIsland i v).outs = s.outs := rfl
@[simp] theorem State.setIsland_sw (s : State) (i : Island) (v : Isl) : (s.setIsland i v).sw = s.sw := rfl
@[simp] theorem State.setIsland_cluLast (s : State) (i : Island) (v : Isl) : (s.setIsland i v).cluLast = s.cluLast := rfl
@[simp] theorem State.setIsland_valves (s : State) (i : Island) (v : Isl) : (s.setIsland i v).valves = s.valves := rfl
@[simp] theorem State.setIsland_banks (s : State) (i : Island) (v : Isl) : (s.setIsland i v).banks = s.banks := rfl
@[simp] theorem State.setIsland_boostKeep (s : State) (i : Island) (v : Isl) : (s.setIsland i v).boostKeep = s.boostKeep := rfl
@[simp] theorem State.setIsland_lux (s : State) (i : Island) (v : Isl) : (s.setIsland i v).lux = s.lux := rfl
@[simp] theorem State.setIsland_sinks (s : State) (i : Island) (v : Isl) : (s.setIsland i v).sinks = s.sinks := rfl
@[simp] theorem State.setIsland_lamps (s : State) (i : Island) (v : Isl) : (s.setIsland i v).lamps = s.lamps := rfl
@[simp] theorem State.setIsland_filts (s : State) (i : Island) (v : Isl) : (s.setIsland i v).filts = s.filts := rfl
@[simp] theorem State.setIsland_fieldRec (s : State) (i : Island) (v : Isl) : (s.setIsland i v).fieldRec = s.fieldRec := rfl
@[simp] theorem State.setIsland_vsnsLim (s : State) (i : Island) (v : Isl) : (s.setIsland i v).vsnsLim = s.vsnsLim := rfl
@[simp] theorem State.setIsland_sent (s : State) (i : Island) (v : Isl) : (s.setIsland i v).sent = s.sent := rfl
@[simp] theorem State.setIsland_sec (s : State) (i : Island) (v : Isl) : (s.setIsland i v).sec = s.sec := rfl
@[simp] theorem State.setIsland_alive (s : State) (i : Island) (v : Isl) : (s.setIsland i v).alive = s.alive := rfl
@[simp] theorem State.setIsland_cntSet (s : State) (i : Island) (v : Isl) : (s.setIsland i v).cntSet = s.cntSet := rfl
@[simp] theorem State.setIsland_poll (s : State) (i : Island) (v : Isl) : (s.setIsland i v).poll = s.poll := rfl
@[simp] theorem State.setIsland_spreadDue (s : State) (i : Island) (v : Isl) : (s.setIsland i v).spreadDue = s.spreadDue := rfl
@[simp] theorem State.setIsland_parkSec (s : State) (i : Island) (v : Isl) : (s.setIsland i v).parkSec = s.parkSec := rfl
@[simp] theorem State.setIsland_lnk (s : State) (i : Island) (v : Isl) : (s.setIsland i v).lnk = s.lnk := rfl
@[simp] theorem State.setIsland_net (s : State) (i : Island) (v : Isl) : (s.setIsland i v).net = s.net := rfl
@[simp] theorem State.setIsland_flashOp (s : State) (i : Island) (v : Isl) : (s.setIsland i v).flashOp = s.flashOp := rfl
@[simp] theorem State.setIsland_upd (s : State) (i : Island) (v : Isl) : (s.setIsland i v).upd = s.upd := rfl
@[simp] theorem State.setIsland_updAon (s : State) (i : Island) (v : Isl) : (s.setIsland i v).updAon = s.updAon := rfl
@[simp] theorem State.setIsland_parkLow (s : State) (i : Island) (v : Isl) : (s.setIsland i v).parkLow = s.parkLow := rfl
@[simp] theorem State.setIsland_bypassReg (s : State) (i : Island) (v : Isl) : (s.setIsland i v).bypassReg = s.bypassReg := rfl
@[simp] theorem State.setIsland_stageBase (s : State) (i : Island) (v : Isl) : (s.setIsland i v).stageBase = s.stageBase := rfl
@[simp] theorem State.setIsland_boostLow (s : State) (i : Island) (v : Isl) : (s.setIsland i v).boostLow = s.boostLow := rfl
@[simp] theorem State.setIsland_tickBase (s : State) (i : Island) (v : Isl) : (s.setIsland i v).tickBase = s.tickBase := rfl
@[simp] theorem State.setIsland_pollAt (s : State) (i : Island) (v : Isl) : (s.setIsland i v).pollAt = s.pollAt := rfl

/-! setGate. -/

@[simp] theorem State.setGate_pending (s : State) (i j : Nat) (v : Gate) : (s.setGate i j v).pending = s.pending := rfl
@[simp] theorem State.setGate_now (s : State) (i j : Nat) (v : Gate) : (s.setGate i j v).now = s.now := rfl
@[simp] theorem State.setGate_free (s : State) (i j : Nat) (v : Gate) : (s.setGate i j v).free = s.free := rfl
@[simp] theorem State.setGate_regs (s : State) (i j : Nat) (v : Gate) : (s.setGate i j v).regs = s.regs := rfl
@[simp] theorem State.setGate_mem (s : State) (i j : Nat) (v : Gate) : (s.setGate i j v).mem = s.mem := rfl
@[simp] theorem State.setGate_dbe (s : State) (i j : Nat) (v : Gate) : (s.setGate i j v).dbe = s.dbe := rfl
@[simp] theorem State.setGate_undef (s : State) (i j : Nat) (v : Gate) : (s.setGate i j v).undef = s.undef := rfl
@[simp] theorem State.setGate_otp (s : State) (i j : Nat) (v : Gate) : (s.setGate i j v).otp = s.otp := rfl
@[simp] theorem State.setGate_shadow (s : State) (i j : Nat) (v : Gate) : (s.setGate i j v).shadow = s.shadow := rfl
@[simp] theorem State.setGate_isl (s : State) (i j : Nat) (v : Gate) : (s.setGate i j v).isl = s.isl := rfl
@[simp] theorem State.setGate_memq (s : State) (i j : Nat) (v : Gate) : (s.setGate i j v).memq = s.memq := rfl
@[simp] theorem State.setGate_memTick (s : State) (i j : Nat) (v : Gate) : (s.setGate i j v).memTick = s.memTick := rfl
@[simp] theorem State.setGate_memLast (s : State) (i j : Nat) (v : Gate) : (s.setGate i j v).memLast = s.memLast := rfl
@[simp] theorem State.setGate_srcs (s : State) (i j : Nat) (v : Gate) : (s.setGate i j v).srcs = s.srcs := rfl
@[simp] theorem State.setGate_logq (s : State) (i j : Nat) (v : Gate) : (s.setGate i j v).logq = s.logq := rfl
@[simp] theorem State.setGate_logSeq (s : State) (i j : Nat) (v : Gate) : (s.setGate i j v).logSeq = s.logSeq := rfl
@[simp] theorem State.setGate_band (s : State) (i j : Nat) (v : Gate) : (s.setGate i j v).band = s.band := rfl
@[simp] theorem State.setGate_secBand (s : State) (i j : Nat) (v : Gate) : (s.setGate i j v).secBand = s.secBand := rfl
@[simp] theorem State.setGate_reversed (s : State) (i j : Nat) (v : Gate) : (s.setGate i j v).reversed = s.reversed := rfl
@[simp] theorem State.setGate_mode (s : State) (i j : Nat) (v : Gate) : (s.setGate i j v).mode = s.mode := rfl
@[simp] theorem State.setGate_enterAt (s : State) (i j : Nat) (v : Gate) : (s.setGate i j v).enterAt = s.enterAt := rfl
@[simp] theorem State.setGate_vsen (s : State) (i j : Nat) (v : Gate) : (s.setGate i j v).vsen = s.vsen := rfl
@[simp] theorem State.setGate_rtcSec (s : State) (i j : Nat) (v : Gate) : (s.setGate i j v).rtcSec = s.rtcSec := rfl
@[simp] theorem State.setGate_rtcFrac (s : State) (i j : Nat) (v : Gate) : (s.setGate i j v).rtcFrac = s.rtcFrac := rfl
@[simp] theorem State.setGate_strapLast (s : State) (i j : Nat) (v : Gate) : (s.setGate i j v).strapLast = s.strapLast := rfl
@[simp] theorem State.setGate_straps (s : State) (i j : Nat) (v : Gate) : (s.setGate i j v).straps = s.straps := rfl
@[simp] theorem State.setGate_tap (s : State) (i j : Nat) (v : Gate) : (s.setGate i j v).tap = s.tap := rfl
@[simp] theorem State.setGate_boundary (s : State) (i j : Nat) (v : Gate) : (s.setGate i j v).boundary = s.boundary := rfl
@[simp] theorem State.setGate_faultNLow (s : State) (i j : Nat) (v : Gate) : (s.setGate i j v).faultNLow = s.faultNLow := rfl
@[simp] theorem State.setGate_resetNLow (s : State) (i j : Nat) (v : Gate) : (s.setGate i j v).resetNLow = s.resetNLow := rfl
@[simp] theorem State.setGate_resetNFree (s : State) (i j : Nat) (v : Gate) : (s.setGate i j v).resetNFree = s.resetNFree := rfl
@[simp] theorem State.setGate_bring (s : State) (i j : Nat) (v : Gate) : (s.setGate i j v).bring = s.bring := rfl
@[simp] theorem State.setGate_holdStart (s : State) (i j : Nat) (v : Gate) : (s.setGate i j v).holdStart = s.holdStart := rfl
@[simp] theorem State.setGate_calib (s : State) (i j : Nat) (v : Gate) : (s.setGate i j v).calib = s.calib := rfl
@[simp] theorem State.setGate_otpBusy (s : State) (i j : Nat) (v : Gate) : (s.setGate i j v).otpBusy = s.otpBusy := rfl
@[simp] theorem State.setGate_otpDone (s : State) (i j : Nat) (v : Gate) : (s.setGate i j v).otpDone = s.otpDone := rfl
@[simp] theorem State.setGate_marTable (s : State) (i j : Nat) (v : Gate) : (s.setGate i j v).marTable = s.marTable := rfl
@[simp] theorem State.setGate_mar (s : State) (i j : Nat) (v : Gate) : (s.setGate i j v).mar = s.mar := rfl
@[simp] theorem State.setGate_cores (s : State) (i j : Nat) (v : Gate) : (s.setGate i j v).cores = s.cores := rfl
@[simp] theorem State.setGate_phys (s : State) (i j : Nat) (v : Gate) : (s.setGate i j v).phys = s.phys := rfl
@[simp] theorem State.setGate_pairedA (s : State) (i j : Nat) (v : Gate) : (s.setGate i j v).pairedA = s.pairedA := rfl
@[simp] theorem State.setGate_pairedB (s : State) (i j : Nat) (v : Gate) : (s.setGate i j v).pairedB = s.pairedB := rfl
@[simp] theorem State.setGate_chans (s : State) (i j : Nat) (v : Gate) : (s.setGate i j v).chans = s.chans := rfl
@[simp] theorem State.setGate_outs (s : State) (i j : Nat) (v : Gate) : (s.setGate i j v).outs = s.outs := rfl
@[simp] theorem State.setGate_sw (s : State) (i j : Nat) (v : Gate) : (s.setGate i j v).sw = s.sw := rfl
@[simp] theorem State.setGate_cluLast (s : State) (i j : Nat) (v : Gate) : (s.setGate i j v).cluLast = s.cluLast := rfl
@[simp] theorem State.setGate_valves (s : State) (i j : Nat) (v : Gate) : (s.setGate i j v).valves = s.valves := rfl
@[simp] theorem State.setGate_banks (s : State) (i j : Nat) (v : Gate) : (s.setGate i j v).banks = s.banks := rfl
@[simp] theorem State.setGate_boostKeep (s : State) (i j : Nat) (v : Gate) : (s.setGate i j v).boostKeep = s.boostKeep := rfl
@[simp] theorem State.setGate_lux (s : State) (i j : Nat) (v : Gate) : (s.setGate i j v).lux = s.lux := rfl
@[simp] theorem State.setGate_sinks (s : State) (i j : Nat) (v : Gate) : (s.setGate i j v).sinks = s.sinks := rfl
@[simp] theorem State.setGate_lamps (s : State) (i j : Nat) (v : Gate) : (s.setGate i j v).lamps = s.lamps := rfl
@[simp] theorem State.setGate_filts (s : State) (i j : Nat) (v : Gate) : (s.setGate i j v).filts = s.filts := rfl
@[simp] theorem State.setGate_fieldRec (s : State) (i j : Nat) (v : Gate) : (s.setGate i j v).fieldRec = s.fieldRec := rfl
@[simp] theorem State.setGate_vsnsLim (s : State) (i j : Nat) (v : Gate) : (s.setGate i j v).vsnsLim = s.vsnsLim := rfl
@[simp] theorem State.setGate_sent (s : State) (i j : Nat) (v : Gate) : (s.setGate i j v).sent = s.sent := rfl
@[simp] theorem State.setGate_sec (s : State) (i j : Nat) (v : Gate) : (s.setGate i j v).sec = s.sec := rfl
@[simp] theorem State.setGate_alive (s : State) (i j : Nat) (v : Gate) : (s.setGate i j v).alive = s.alive := rfl
@[simp] theorem State.setGate_cntSet (s : State) (i j : Nat) (v : Gate) : (s.setGate i j v).cntSet = s.cntSet := rfl
@[simp] theorem State.setGate_poll (s : State) (i j : Nat) (v : Gate) : (s.setGate i j v).poll = s.poll := rfl
@[simp] theorem State.setGate_spreadDue (s : State) (i j : Nat) (v : Gate) : (s.setGate i j v).spreadDue = s.spreadDue := rfl
@[simp] theorem State.setGate_parkSec (s : State) (i j : Nat) (v : Gate) : (s.setGate i j v).parkSec = s.parkSec := rfl
@[simp] theorem State.setGate_lnk (s : State) (i j : Nat) (v : Gate) : (s.setGate i j v).lnk = s.lnk := rfl
@[simp] theorem State.setGate_net (s : State) (i j : Nat) (v : Gate) : (s.setGate i j v).net = s.net := rfl
@[simp] theorem State.setGate_flashOp (s : State) (i j : Nat) (v : Gate) : (s.setGate i j v).flashOp = s.flashOp := rfl
@[simp] theorem State.setGate_upd (s : State) (i j : Nat) (v : Gate) : (s.setGate i j v).upd = s.upd := rfl
@[simp] theorem State.setGate_updAon (s : State) (i j : Nat) (v : Gate) : (s.setGate i j v).updAon = s.updAon := rfl
@[simp] theorem State.setGate_parkLow (s : State) (i j : Nat) (v : Gate) : (s.setGate i j v).parkLow = s.parkLow := rfl
@[simp] theorem State.setGate_bypassReg (s : State) (i j : Nat) (v : Gate) : (s.setGate i j v).bypassReg = s.bypassReg := rfl
@[simp] theorem State.setGate_stageBase (s : State) (i j : Nat) (v : Gate) : (s.setGate i j v).stageBase = s.stageBase := rfl
@[simp] theorem State.setGate_boostLow (s : State) (i j : Nat) (v : Gate) : (s.setGate i j v).boostLow = s.boostLow := rfl
@[simp] theorem State.setGate_tickBase (s : State) (i j : Nat) (v : Gate) : (s.setGate i j v).tickBase = s.tickBase := rfl
@[simp] theorem State.setGate_pollAt (s : State) (i j : Nat) (v : Gate) : (s.setGate i j v).pollAt = s.pollAt := rfl

/-! setCore. -/

@[simp] theorem State.setCore_pending (s : State) (c : Nat) (v : Core) : (s.setCore c v).pending = s.pending := rfl
@[simp] theorem State.setCore_now (s : State) (c : Nat) (v : Core) : (s.setCore c v).now = s.now := rfl
@[simp] theorem State.setCore_free (s : State) (c : Nat) (v : Core) : (s.setCore c v).free = s.free := rfl
@[simp] theorem State.setCore_regs (s : State) (c : Nat) (v : Core) : (s.setCore c v).regs = s.regs := rfl
@[simp] theorem State.setCore_mem (s : State) (c : Nat) (v : Core) : (s.setCore c v).mem = s.mem := rfl
@[simp] theorem State.setCore_dbe (s : State) (c : Nat) (v : Core) : (s.setCore c v).dbe = s.dbe := rfl
@[simp] theorem State.setCore_undef (s : State) (c : Nat) (v : Core) : (s.setCore c v).undef = s.undef := rfl
@[simp] theorem State.setCore_otp (s : State) (c : Nat) (v : Core) : (s.setCore c v).otp = s.otp := rfl
@[simp] theorem State.setCore_shadow (s : State) (c : Nat) (v : Core) : (s.setCore c v).shadow = s.shadow := rfl
@[simp] theorem State.setCore_isl (s : State) (c : Nat) (v : Core) : (s.setCore c v).isl = s.isl := rfl
@[simp] theorem State.setCore_gates (s : State) (c : Nat) (v : Core) : (s.setCore c v).gates = s.gates := rfl
@[simp] theorem State.setCore_memq (s : State) (c : Nat) (v : Core) : (s.setCore c v).memq = s.memq := rfl
@[simp] theorem State.setCore_memTick (s : State) (c : Nat) (v : Core) : (s.setCore c v).memTick = s.memTick := rfl
@[simp] theorem State.setCore_memLast (s : State) (c : Nat) (v : Core) : (s.setCore c v).memLast = s.memLast := rfl
@[simp] theorem State.setCore_srcs (s : State) (c : Nat) (v : Core) : (s.setCore c v).srcs = s.srcs := rfl
@[simp] theorem State.setCore_logq (s : State) (c : Nat) (v : Core) : (s.setCore c v).logq = s.logq := rfl
@[simp] theorem State.setCore_logSeq (s : State) (c : Nat) (v : Core) : (s.setCore c v).logSeq = s.logSeq := rfl
@[simp] theorem State.setCore_band (s : State) (c : Nat) (v : Core) : (s.setCore c v).band = s.band := rfl
@[simp] theorem State.setCore_secBand (s : State) (c : Nat) (v : Core) : (s.setCore c v).secBand = s.secBand := rfl
@[simp] theorem State.setCore_reversed (s : State) (c : Nat) (v : Core) : (s.setCore c v).reversed = s.reversed := rfl
@[simp] theorem State.setCore_mode (s : State) (c : Nat) (v : Core) : (s.setCore c v).mode = s.mode := rfl
@[simp] theorem State.setCore_enterAt (s : State) (c : Nat) (v : Core) : (s.setCore c v).enterAt = s.enterAt := rfl
@[simp] theorem State.setCore_vsen (s : State) (c : Nat) (v : Core) : (s.setCore c v).vsen = s.vsen := rfl
@[simp] theorem State.setCore_rtcSec (s : State) (c : Nat) (v : Core) : (s.setCore c v).rtcSec = s.rtcSec := rfl
@[simp] theorem State.setCore_rtcFrac (s : State) (c : Nat) (v : Core) : (s.setCore c v).rtcFrac = s.rtcFrac := rfl
@[simp] theorem State.setCore_strapLast (s : State) (c : Nat) (v : Core) : (s.setCore c v).strapLast = s.strapLast := rfl
@[simp] theorem State.setCore_straps (s : State) (c : Nat) (v : Core) : (s.setCore c v).straps = s.straps := rfl
@[simp] theorem State.setCore_tap (s : State) (c : Nat) (v : Core) : (s.setCore c v).tap = s.tap := rfl
@[simp] theorem State.setCore_boundary (s : State) (c : Nat) (v : Core) : (s.setCore c v).boundary = s.boundary := rfl
@[simp] theorem State.setCore_faultNLow (s : State) (c : Nat) (v : Core) : (s.setCore c v).faultNLow = s.faultNLow := rfl
@[simp] theorem State.setCore_resetNLow (s : State) (c : Nat) (v : Core) : (s.setCore c v).resetNLow = s.resetNLow := rfl
@[simp] theorem State.setCore_resetNFree (s : State) (c : Nat) (v : Core) : (s.setCore c v).resetNFree = s.resetNFree := rfl
@[simp] theorem State.setCore_bring (s : State) (c : Nat) (v : Core) : (s.setCore c v).bring = s.bring := rfl
@[simp] theorem State.setCore_holdStart (s : State) (c : Nat) (v : Core) : (s.setCore c v).holdStart = s.holdStart := rfl
@[simp] theorem State.setCore_calib (s : State) (c : Nat) (v : Core) : (s.setCore c v).calib = s.calib := rfl
@[simp] theorem State.setCore_otpBusy (s : State) (c : Nat) (v : Core) : (s.setCore c v).otpBusy = s.otpBusy := rfl
@[simp] theorem State.setCore_otpDone (s : State) (c : Nat) (v : Core) : (s.setCore c v).otpDone = s.otpDone := rfl
@[simp] theorem State.setCore_marTable (s : State) (c : Nat) (v : Core) : (s.setCore c v).marTable = s.marTable := rfl
@[simp] theorem State.setCore_mar (s : State) (c : Nat) (v : Core) : (s.setCore c v).mar = s.mar := rfl
@[simp] theorem State.setCore_phys (s : State) (c : Nat) (v : Core) : (s.setCore c v).phys = s.phys := rfl
@[simp] theorem State.setCore_pairedA (s : State) (c : Nat) (v : Core) : (s.setCore c v).pairedA = s.pairedA := rfl
@[simp] theorem State.setCore_pairedB (s : State) (c : Nat) (v : Core) : (s.setCore c v).pairedB = s.pairedB := rfl
@[simp] theorem State.setCore_chans (s : State) (c : Nat) (v : Core) : (s.setCore c v).chans = s.chans := rfl
@[simp] theorem State.setCore_outs (s : State) (c : Nat) (v : Core) : (s.setCore c v).outs = s.outs := rfl
@[simp] theorem State.setCore_sw (s : State) (c : Nat) (v : Core) : (s.setCore c v).sw = s.sw := rfl
@[simp] theorem State.setCore_cluLast (s : State) (c : Nat) (v : Core) : (s.setCore c v).cluLast = s.cluLast := rfl
@[simp] theorem State.setCore_valves (s : State) (c : Nat) (v : Core) : (s.setCore c v).valves = s.valves := rfl
@[simp] theorem State.setCore_banks (s : State) (c : Nat) (v : Core) : (s.setCore c v).banks = s.banks := rfl
@[simp] theorem State.setCore_boostKeep (s : State) (c : Nat) (v : Core) : (s.setCore c v).boostKeep = s.boostKeep := rfl
@[simp] theorem State.setCore_lux (s : State) (c : Nat) (v : Core) : (s.setCore c v).lux = s.lux := rfl
@[simp] theorem State.setCore_sinks (s : State) (c : Nat) (v : Core) : (s.setCore c v).sinks = s.sinks := rfl
@[simp] theorem State.setCore_lamps (s : State) (c : Nat) (v : Core) : (s.setCore c v).lamps = s.lamps := rfl
@[simp] theorem State.setCore_filts (s : State) (c : Nat) (v : Core) : (s.setCore c v).filts = s.filts := rfl
@[simp] theorem State.setCore_fieldRec (s : State) (c : Nat) (v : Core) : (s.setCore c v).fieldRec = s.fieldRec := rfl
@[simp] theorem State.setCore_vsnsLim (s : State) (c : Nat) (v : Core) : (s.setCore c v).vsnsLim = s.vsnsLim := rfl
@[simp] theorem State.setCore_sent (s : State) (c : Nat) (v : Core) : (s.setCore c v).sent = s.sent := rfl
@[simp] theorem State.setCore_sec (s : State) (c : Nat) (v : Core) : (s.setCore c v).sec = s.sec := rfl
@[simp] theorem State.setCore_alive (s : State) (c : Nat) (v : Core) : (s.setCore c v).alive = s.alive := rfl
@[simp] theorem State.setCore_cntSet (s : State) (c : Nat) (v : Core) : (s.setCore c v).cntSet = s.cntSet := rfl
@[simp] theorem State.setCore_poll (s : State) (c : Nat) (v : Core) : (s.setCore c v).poll = s.poll := rfl
@[simp] theorem State.setCore_spreadDue (s : State) (c : Nat) (v : Core) : (s.setCore c v).spreadDue = s.spreadDue := rfl
@[simp] theorem State.setCore_parkSec (s : State) (c : Nat) (v : Core) : (s.setCore c v).parkSec = s.parkSec := rfl
@[simp] theorem State.setCore_lnk (s : State) (c : Nat) (v : Core) : (s.setCore c v).lnk = s.lnk := rfl
@[simp] theorem State.setCore_net (s : State) (c : Nat) (v : Core) : (s.setCore c v).net = s.net := rfl
@[simp] theorem State.setCore_flashOp (s : State) (c : Nat) (v : Core) : (s.setCore c v).flashOp = s.flashOp := rfl
@[simp] theorem State.setCore_upd (s : State) (c : Nat) (v : Core) : (s.setCore c v).upd = s.upd := rfl
@[simp] theorem State.setCore_updAon (s : State) (c : Nat) (v : Core) : (s.setCore c v).updAon = s.updAon := rfl
@[simp] theorem State.setCore_parkLow (s : State) (c : Nat) (v : Core) : (s.setCore c v).parkLow = s.parkLow := rfl
@[simp] theorem State.setCore_bypassReg (s : State) (c : Nat) (v : Core) : (s.setCore c v).bypassReg = s.bypassReg := rfl
@[simp] theorem State.setCore_stageBase (s : State) (c : Nat) (v : Core) : (s.setCore c v).stageBase = s.stageBase := rfl
@[simp] theorem State.setCore_boostLow (s : State) (c : Nat) (v : Core) : (s.setCore c v).boostLow = s.boostLow := rfl
@[simp] theorem State.setCore_tickBase (s : State) (c : Nat) (v : Core) : (s.setCore c v).tickBase = s.tickBase := rfl
@[simp] theorem State.setCore_pollAt (s : State) (c : Nat) (v : Core) : (s.setCore c v).pollAt = s.pollAt := rfl

/-! setSrc. -/

@[simp] theorem State.setSrc_pending (s : State) (n : Nat) (v : Src) : (s.setSrc n v).pending = s.pending := rfl
@[simp] theorem State.setSrc_now (s : State) (n : Nat) (v : Src) : (s.setSrc n v).now = s.now := rfl
@[simp] theorem State.setSrc_free (s : State) (n : Nat) (v : Src) : (s.setSrc n v).free = s.free := rfl
@[simp] theorem State.setSrc_regs (s : State) (n : Nat) (v : Src) : (s.setSrc n v).regs = s.regs := rfl
@[simp] theorem State.setSrc_mem (s : State) (n : Nat) (v : Src) : (s.setSrc n v).mem = s.mem := rfl
@[simp] theorem State.setSrc_dbe (s : State) (n : Nat) (v : Src) : (s.setSrc n v).dbe = s.dbe := rfl
@[simp] theorem State.setSrc_undef (s : State) (n : Nat) (v : Src) : (s.setSrc n v).undef = s.undef := rfl
@[simp] theorem State.setSrc_otp (s : State) (n : Nat) (v : Src) : (s.setSrc n v).otp = s.otp := rfl
@[simp] theorem State.setSrc_shadow (s : State) (n : Nat) (v : Src) : (s.setSrc n v).shadow = s.shadow := rfl
@[simp] theorem State.setSrc_isl (s : State) (n : Nat) (v : Src) : (s.setSrc n v).isl = s.isl := rfl
@[simp] theorem State.setSrc_gates (s : State) (n : Nat) (v : Src) : (s.setSrc n v).gates = s.gates := rfl
@[simp] theorem State.setSrc_memq (s : State) (n : Nat) (v : Src) : (s.setSrc n v).memq = s.memq := rfl
@[simp] theorem State.setSrc_memTick (s : State) (n : Nat) (v : Src) : (s.setSrc n v).memTick = s.memTick := rfl
@[simp] theorem State.setSrc_memLast (s : State) (n : Nat) (v : Src) : (s.setSrc n v).memLast = s.memLast := rfl
@[simp] theorem State.setSrc_logq (s : State) (n : Nat) (v : Src) : (s.setSrc n v).logq = s.logq := rfl
@[simp] theorem State.setSrc_logSeq (s : State) (n : Nat) (v : Src) : (s.setSrc n v).logSeq = s.logSeq := rfl
@[simp] theorem State.setSrc_band (s : State) (n : Nat) (v : Src) : (s.setSrc n v).band = s.band := rfl
@[simp] theorem State.setSrc_secBand (s : State) (n : Nat) (v : Src) : (s.setSrc n v).secBand = s.secBand := rfl
@[simp] theorem State.setSrc_reversed (s : State) (n : Nat) (v : Src) : (s.setSrc n v).reversed = s.reversed := rfl
@[simp] theorem State.setSrc_mode (s : State) (n : Nat) (v : Src) : (s.setSrc n v).mode = s.mode := rfl
@[simp] theorem State.setSrc_enterAt (s : State) (n : Nat) (v : Src) : (s.setSrc n v).enterAt = s.enterAt := rfl
@[simp] theorem State.setSrc_vsen (s : State) (n : Nat) (v : Src) : (s.setSrc n v).vsen = s.vsen := rfl
@[simp] theorem State.setSrc_rtcSec (s : State) (n : Nat) (v : Src) : (s.setSrc n v).rtcSec = s.rtcSec := rfl
@[simp] theorem State.setSrc_rtcFrac (s : State) (n : Nat) (v : Src) : (s.setSrc n v).rtcFrac = s.rtcFrac := rfl
@[simp] theorem State.setSrc_strapLast (s : State) (n : Nat) (v : Src) : (s.setSrc n v).strapLast = s.strapLast := rfl
@[simp] theorem State.setSrc_straps (s : State) (n : Nat) (v : Src) : (s.setSrc n v).straps = s.straps := rfl
@[simp] theorem State.setSrc_tap (s : State) (n : Nat) (v : Src) : (s.setSrc n v).tap = s.tap := rfl
@[simp] theorem State.setSrc_boundary (s : State) (n : Nat) (v : Src) : (s.setSrc n v).boundary = s.boundary := rfl
@[simp] theorem State.setSrc_faultNLow (s : State) (n : Nat) (v : Src) : (s.setSrc n v).faultNLow = s.faultNLow := rfl
@[simp] theorem State.setSrc_resetNLow (s : State) (n : Nat) (v : Src) : (s.setSrc n v).resetNLow = s.resetNLow := rfl
@[simp] theorem State.setSrc_resetNFree (s : State) (n : Nat) (v : Src) : (s.setSrc n v).resetNFree = s.resetNFree := rfl
@[simp] theorem State.setSrc_bring (s : State) (n : Nat) (v : Src) : (s.setSrc n v).bring = s.bring := rfl
@[simp] theorem State.setSrc_holdStart (s : State) (n : Nat) (v : Src) : (s.setSrc n v).holdStart = s.holdStart := rfl
@[simp] theorem State.setSrc_calib (s : State) (n : Nat) (v : Src) : (s.setSrc n v).calib = s.calib := rfl
@[simp] theorem State.setSrc_otpBusy (s : State) (n : Nat) (v : Src) : (s.setSrc n v).otpBusy = s.otpBusy := rfl
@[simp] theorem State.setSrc_otpDone (s : State) (n : Nat) (v : Src) : (s.setSrc n v).otpDone = s.otpDone := rfl
@[simp] theorem State.setSrc_marTable (s : State) (n : Nat) (v : Src) : (s.setSrc n v).marTable = s.marTable := rfl
@[simp] theorem State.setSrc_mar (s : State) (n : Nat) (v : Src) : (s.setSrc n v).mar = s.mar := rfl
@[simp] theorem State.setSrc_cores (s : State) (n : Nat) (v : Src) : (s.setSrc n v).cores = s.cores := rfl
@[simp] theorem State.setSrc_phys (s : State) (n : Nat) (v : Src) : (s.setSrc n v).phys = s.phys := rfl
@[simp] theorem State.setSrc_pairedA (s : State) (n : Nat) (v : Src) : (s.setSrc n v).pairedA = s.pairedA := rfl
@[simp] theorem State.setSrc_pairedB (s : State) (n : Nat) (v : Src) : (s.setSrc n v).pairedB = s.pairedB := rfl
@[simp] theorem State.setSrc_chans (s : State) (n : Nat) (v : Src) : (s.setSrc n v).chans = s.chans := rfl
@[simp] theorem State.setSrc_outs (s : State) (n : Nat) (v : Src) : (s.setSrc n v).outs = s.outs := rfl
@[simp] theorem State.setSrc_sw (s : State) (n : Nat) (v : Src) : (s.setSrc n v).sw = s.sw := rfl
@[simp] theorem State.setSrc_cluLast (s : State) (n : Nat) (v : Src) : (s.setSrc n v).cluLast = s.cluLast := rfl
@[simp] theorem State.setSrc_valves (s : State) (n : Nat) (v : Src) : (s.setSrc n v).valves = s.valves := rfl
@[simp] theorem State.setSrc_banks (s : State) (n : Nat) (v : Src) : (s.setSrc n v).banks = s.banks := rfl
@[simp] theorem State.setSrc_boostKeep (s : State) (n : Nat) (v : Src) : (s.setSrc n v).boostKeep = s.boostKeep := rfl
@[simp] theorem State.setSrc_lux (s : State) (n : Nat) (v : Src) : (s.setSrc n v).lux = s.lux := rfl
@[simp] theorem State.setSrc_sinks (s : State) (n : Nat) (v : Src) : (s.setSrc n v).sinks = s.sinks := rfl
@[simp] theorem State.setSrc_lamps (s : State) (n : Nat) (v : Src) : (s.setSrc n v).lamps = s.lamps := rfl
@[simp] theorem State.setSrc_filts (s : State) (n : Nat) (v : Src) : (s.setSrc n v).filts = s.filts := rfl
@[simp] theorem State.setSrc_fieldRec (s : State) (n : Nat) (v : Src) : (s.setSrc n v).fieldRec = s.fieldRec := rfl
@[simp] theorem State.setSrc_vsnsLim (s : State) (n : Nat) (v : Src) : (s.setSrc n v).vsnsLim = s.vsnsLim := rfl
@[simp] theorem State.setSrc_sent (s : State) (n : Nat) (v : Src) : (s.setSrc n v).sent = s.sent := rfl
@[simp] theorem State.setSrc_sec (s : State) (n : Nat) (v : Src) : (s.setSrc n v).sec = s.sec := rfl
@[simp] theorem State.setSrc_alive (s : State) (n : Nat) (v : Src) : (s.setSrc n v).alive = s.alive := rfl
@[simp] theorem State.setSrc_cntSet (s : State) (n : Nat) (v : Src) : (s.setSrc n v).cntSet = s.cntSet := rfl
@[simp] theorem State.setSrc_poll (s : State) (n : Nat) (v : Src) : (s.setSrc n v).poll = s.poll := rfl
@[simp] theorem State.setSrc_spreadDue (s : State) (n : Nat) (v : Src) : (s.setSrc n v).spreadDue = s.spreadDue := rfl
@[simp] theorem State.setSrc_parkSec (s : State) (n : Nat) (v : Src) : (s.setSrc n v).parkSec = s.parkSec := rfl
@[simp] theorem State.setSrc_lnk (s : State) (n : Nat) (v : Src) : (s.setSrc n v).lnk = s.lnk := rfl
@[simp] theorem State.setSrc_net (s : State) (n : Nat) (v : Src) : (s.setSrc n v).net = s.net := rfl
@[simp] theorem State.setSrc_flashOp (s : State) (n : Nat) (v : Src) : (s.setSrc n v).flashOp = s.flashOp := rfl
@[simp] theorem State.setSrc_upd (s : State) (n : Nat) (v : Src) : (s.setSrc n v).upd = s.upd := rfl
@[simp] theorem State.setSrc_updAon (s : State) (n : Nat) (v : Src) : (s.setSrc n v).updAon = s.updAon := rfl
@[simp] theorem State.setSrc_parkLow (s : State) (n : Nat) (v : Src) : (s.setSrc n v).parkLow = s.parkLow := rfl
@[simp] theorem State.setSrc_bypassReg (s : State) (n : Nat) (v : Src) : (s.setSrc n v).bypassReg = s.bypassReg := rfl
@[simp] theorem State.setSrc_stageBase (s : State) (n : Nat) (v : Src) : (s.setSrc n v).stageBase = s.stageBase := rfl
@[simp] theorem State.setSrc_boostLow (s : State) (n : Nat) (v : Src) : (s.setSrc n v).boostLow = s.boostLow := rfl
@[simp] theorem State.setSrc_tickBase (s : State) (n : Nat) (v : Src) : (s.setSrc n v).tickBase = s.tickBase := rfl
@[simp] theorem State.setSrc_pollAt (s : State) (n : Nat) (v : Src) : (s.setSrc n v).pollAt = s.pollAt := rfl

/-! setChan. -/

@[simp] theorem State.setChan_pending (s : State) (c : ChanRef) (v : Chan) : (s.setChan c v).pending = s.pending := rfl
@[simp] theorem State.setChan_now (s : State) (c : ChanRef) (v : Chan) : (s.setChan c v).now = s.now := rfl
@[simp] theorem State.setChan_free (s : State) (c : ChanRef) (v : Chan) : (s.setChan c v).free = s.free := rfl
@[simp] theorem State.setChan_regs (s : State) (c : ChanRef) (v : Chan) : (s.setChan c v).regs = s.regs := rfl
@[simp] theorem State.setChan_mem (s : State) (c : ChanRef) (v : Chan) : (s.setChan c v).mem = s.mem := rfl
@[simp] theorem State.setChan_dbe (s : State) (c : ChanRef) (v : Chan) : (s.setChan c v).dbe = s.dbe := rfl
@[simp] theorem State.setChan_undef (s : State) (c : ChanRef) (v : Chan) : (s.setChan c v).undef = s.undef := rfl
@[simp] theorem State.setChan_otp (s : State) (c : ChanRef) (v : Chan) : (s.setChan c v).otp = s.otp := rfl
@[simp] theorem State.setChan_shadow (s : State) (c : ChanRef) (v : Chan) : (s.setChan c v).shadow = s.shadow := rfl
@[simp] theorem State.setChan_isl (s : State) (c : ChanRef) (v : Chan) : (s.setChan c v).isl = s.isl := rfl
@[simp] theorem State.setChan_gates (s : State) (c : ChanRef) (v : Chan) : (s.setChan c v).gates = s.gates := rfl
@[simp] theorem State.setChan_memq (s : State) (c : ChanRef) (v : Chan) : (s.setChan c v).memq = s.memq := rfl
@[simp] theorem State.setChan_memTick (s : State) (c : ChanRef) (v : Chan) : (s.setChan c v).memTick = s.memTick := rfl
@[simp] theorem State.setChan_memLast (s : State) (c : ChanRef) (v : Chan) : (s.setChan c v).memLast = s.memLast := rfl
@[simp] theorem State.setChan_srcs (s : State) (c : ChanRef) (v : Chan) : (s.setChan c v).srcs = s.srcs := rfl
@[simp] theorem State.setChan_logq (s : State) (c : ChanRef) (v : Chan) : (s.setChan c v).logq = s.logq := rfl
@[simp] theorem State.setChan_logSeq (s : State) (c : ChanRef) (v : Chan) : (s.setChan c v).logSeq = s.logSeq := rfl
@[simp] theorem State.setChan_band (s : State) (c : ChanRef) (v : Chan) : (s.setChan c v).band = s.band := rfl
@[simp] theorem State.setChan_secBand (s : State) (c : ChanRef) (v : Chan) : (s.setChan c v).secBand = s.secBand := rfl
@[simp] theorem State.setChan_reversed (s : State) (c : ChanRef) (v : Chan) : (s.setChan c v).reversed = s.reversed := rfl
@[simp] theorem State.setChan_mode (s : State) (c : ChanRef) (v : Chan) : (s.setChan c v).mode = s.mode := rfl
@[simp] theorem State.setChan_enterAt (s : State) (c : ChanRef) (v : Chan) : (s.setChan c v).enterAt = s.enterAt := rfl
@[simp] theorem State.setChan_vsen (s : State) (c : ChanRef) (v : Chan) : (s.setChan c v).vsen = s.vsen := rfl
@[simp] theorem State.setChan_rtcSec (s : State) (c : ChanRef) (v : Chan) : (s.setChan c v).rtcSec = s.rtcSec := rfl
@[simp] theorem State.setChan_rtcFrac (s : State) (c : ChanRef) (v : Chan) : (s.setChan c v).rtcFrac = s.rtcFrac := rfl
@[simp] theorem State.setChan_strapLast (s : State) (c : ChanRef) (v : Chan) : (s.setChan c v).strapLast = s.strapLast := rfl
@[simp] theorem State.setChan_straps (s : State) (c : ChanRef) (v : Chan) : (s.setChan c v).straps = s.straps := rfl
@[simp] theorem State.setChan_tap (s : State) (c : ChanRef) (v : Chan) : (s.setChan c v).tap = s.tap := rfl
@[simp] theorem State.setChan_boundary (s : State) (c : ChanRef) (v : Chan) : (s.setChan c v).boundary = s.boundary := rfl
@[simp] theorem State.setChan_faultNLow (s : State) (c : ChanRef) (v : Chan) : (s.setChan c v).faultNLow = s.faultNLow := rfl
@[simp] theorem State.setChan_resetNLow (s : State) (c : ChanRef) (v : Chan) : (s.setChan c v).resetNLow = s.resetNLow := rfl
@[simp] theorem State.setChan_resetNFree (s : State) (c : ChanRef) (v : Chan) : (s.setChan c v).resetNFree = s.resetNFree := rfl
@[simp] theorem State.setChan_bring (s : State) (c : ChanRef) (v : Chan) : (s.setChan c v).bring = s.bring := rfl
@[simp] theorem State.setChan_holdStart (s : State) (c : ChanRef) (v : Chan) : (s.setChan c v).holdStart = s.holdStart := rfl
@[simp] theorem State.setChan_calib (s : State) (c : ChanRef) (v : Chan) : (s.setChan c v).calib = s.calib := rfl
@[simp] theorem State.setChan_otpBusy (s : State) (c : ChanRef) (v : Chan) : (s.setChan c v).otpBusy = s.otpBusy := rfl
@[simp] theorem State.setChan_otpDone (s : State) (c : ChanRef) (v : Chan) : (s.setChan c v).otpDone = s.otpDone := rfl
@[simp] theorem State.setChan_marTable (s : State) (c : ChanRef) (v : Chan) : (s.setChan c v).marTable = s.marTable := rfl
@[simp] theorem State.setChan_mar (s : State) (c : ChanRef) (v : Chan) : (s.setChan c v).mar = s.mar := rfl
@[simp] theorem State.setChan_cores (s : State) (c : ChanRef) (v : Chan) : (s.setChan c v).cores = s.cores := rfl
@[simp] theorem State.setChan_phys (s : State) (c : ChanRef) (v : Chan) : (s.setChan c v).phys = s.phys := rfl
@[simp] theorem State.setChan_pairedA (s : State) (c : ChanRef) (v : Chan) : (s.setChan c v).pairedA = s.pairedA := rfl
@[simp] theorem State.setChan_pairedB (s : State) (c : ChanRef) (v : Chan) : (s.setChan c v).pairedB = s.pairedB := rfl
@[simp] theorem State.setChan_outs (s : State) (c : ChanRef) (v : Chan) : (s.setChan c v).outs = s.outs := rfl
@[simp] theorem State.setChan_sw (s : State) (c : ChanRef) (v : Chan) : (s.setChan c v).sw = s.sw := rfl
@[simp] theorem State.setChan_cluLast (s : State) (c : ChanRef) (v : Chan) : (s.setChan c v).cluLast = s.cluLast := rfl
@[simp] theorem State.setChan_valves (s : State) (c : ChanRef) (v : Chan) : (s.setChan c v).valves = s.valves := rfl
@[simp] theorem State.setChan_banks (s : State) (c : ChanRef) (v : Chan) : (s.setChan c v).banks = s.banks := rfl
@[simp] theorem State.setChan_boostKeep (s : State) (c : ChanRef) (v : Chan) : (s.setChan c v).boostKeep = s.boostKeep := rfl
@[simp] theorem State.setChan_lux (s : State) (c : ChanRef) (v : Chan) : (s.setChan c v).lux = s.lux := rfl
@[simp] theorem State.setChan_sinks (s : State) (c : ChanRef) (v : Chan) : (s.setChan c v).sinks = s.sinks := rfl
@[simp] theorem State.setChan_lamps (s : State) (c : ChanRef) (v : Chan) : (s.setChan c v).lamps = s.lamps := rfl
@[simp] theorem State.setChan_filts (s : State) (c : ChanRef) (v : Chan) : (s.setChan c v).filts = s.filts := rfl
@[simp] theorem State.setChan_fieldRec (s : State) (c : ChanRef) (v : Chan) : (s.setChan c v).fieldRec = s.fieldRec := rfl
@[simp] theorem State.setChan_vsnsLim (s : State) (c : ChanRef) (v : Chan) : (s.setChan c v).vsnsLim = s.vsnsLim := rfl
@[simp] theorem State.setChan_sent (s : State) (c : ChanRef) (v : Chan) : (s.setChan c v).sent = s.sent := rfl
@[simp] theorem State.setChan_sec (s : State) (c : ChanRef) (v : Chan) : (s.setChan c v).sec = s.sec := rfl
@[simp] theorem State.setChan_alive (s : State) (c : ChanRef) (v : Chan) : (s.setChan c v).alive = s.alive := rfl
@[simp] theorem State.setChan_cntSet (s : State) (c : ChanRef) (v : Chan) : (s.setChan c v).cntSet = s.cntSet := rfl
@[simp] theorem State.setChan_poll (s : State) (c : ChanRef) (v : Chan) : (s.setChan c v).poll = s.poll := rfl
@[simp] theorem State.setChan_spreadDue (s : State) (c : ChanRef) (v : Chan) : (s.setChan c v).spreadDue = s.spreadDue := rfl
@[simp] theorem State.setChan_parkSec (s : State) (c : ChanRef) (v : Chan) : (s.setChan c v).parkSec = s.parkSec := rfl
@[simp] theorem State.setChan_lnk (s : State) (c : ChanRef) (v : Chan) : (s.setChan c v).lnk = s.lnk := rfl
@[simp] theorem State.setChan_net (s : State) (c : ChanRef) (v : Chan) : (s.setChan c v).net = s.net := rfl
@[simp] theorem State.setChan_flashOp (s : State) (c : ChanRef) (v : Chan) : (s.setChan c v).flashOp = s.flashOp := rfl
@[simp] theorem State.setChan_upd (s : State) (c : ChanRef) (v : Chan) : (s.setChan c v).upd = s.upd := rfl
@[simp] theorem State.setChan_updAon (s : State) (c : ChanRef) (v : Chan) : (s.setChan c v).updAon = s.updAon := rfl
@[simp] theorem State.setChan_parkLow (s : State) (c : ChanRef) (v : Chan) : (s.setChan c v).parkLow = s.parkLow := rfl
@[simp] theorem State.setChan_bypassReg (s : State) (c : ChanRef) (v : Chan) : (s.setChan c v).bypassReg = s.bypassReg := rfl
@[simp] theorem State.setChan_stageBase (s : State) (c : ChanRef) (v : Chan) : (s.setChan c v).stageBase = s.stageBase := rfl
@[simp] theorem State.setChan_boostLow (s : State) (c : ChanRef) (v : Chan) : (s.setChan c v).boostLow = s.boostLow := rfl
@[simp] theorem State.setChan_tickBase (s : State) (c : ChanRef) (v : Chan) : (s.setChan c v).tickBase = s.tickBase := rfl
@[simp] theorem State.setChan_pollAt (s : State) (c : ChanRef) (v : Chan) : (s.setChan c v).pollAt = s.pollAt := rfl

/-! used. -/

@[simp] theorem State.used_pending (s : State) : (s.used).pending = s.pending := rfl
@[simp] theorem State.used_now (s : State) : (s.used).now = s.now := rfl
@[simp] theorem State.used_regs (s : State) : (s.used).regs = s.regs := rfl
@[simp] theorem State.used_mem (s : State) : (s.used).mem = s.mem := rfl
@[simp] theorem State.used_dbe (s : State) : (s.used).dbe = s.dbe := rfl
@[simp] theorem State.used_undef (s : State) : (s.used).undef = s.undef := rfl
@[simp] theorem State.used_otp (s : State) : (s.used).otp = s.otp := rfl
@[simp] theorem State.used_shadow (s : State) : (s.used).shadow = s.shadow := rfl
@[simp] theorem State.used_isl (s : State) : (s.used).isl = s.isl := rfl
@[simp] theorem State.used_gates (s : State) : (s.used).gates = s.gates := rfl
@[simp] theorem State.used_memq (s : State) : (s.used).memq = s.memq := rfl
@[simp] theorem State.used_memTick (s : State) : (s.used).memTick = s.memTick := rfl
@[simp] theorem State.used_memLast (s : State) : (s.used).memLast = s.memLast := rfl
@[simp] theorem State.used_srcs (s : State) : (s.used).srcs = s.srcs := rfl
@[simp] theorem State.used_logq (s : State) : (s.used).logq = s.logq := rfl
@[simp] theorem State.used_logSeq (s : State) : (s.used).logSeq = s.logSeq := rfl
@[simp] theorem State.used_band (s : State) : (s.used).band = s.band := rfl
@[simp] theorem State.used_secBand (s : State) : (s.used).secBand = s.secBand := rfl
@[simp] theorem State.used_reversed (s : State) : (s.used).reversed = s.reversed := rfl
@[simp] theorem State.used_mode (s : State) : (s.used).mode = s.mode := rfl
@[simp] theorem State.used_enterAt (s : State) : (s.used).enterAt = s.enterAt := rfl
@[simp] theorem State.used_vsen (s : State) : (s.used).vsen = s.vsen := rfl
@[simp] theorem State.used_rtcSec (s : State) : (s.used).rtcSec = s.rtcSec := rfl
@[simp] theorem State.used_rtcFrac (s : State) : (s.used).rtcFrac = s.rtcFrac := rfl
@[simp] theorem State.used_strapLast (s : State) : (s.used).strapLast = s.strapLast := rfl
@[simp] theorem State.used_straps (s : State) : (s.used).straps = s.straps := rfl
@[simp] theorem State.used_tap (s : State) : (s.used).tap = s.tap := rfl
@[simp] theorem State.used_boundary (s : State) : (s.used).boundary = s.boundary := rfl
@[simp] theorem State.used_faultNLow (s : State) : (s.used).faultNLow = s.faultNLow := rfl
@[simp] theorem State.used_resetNLow (s : State) : (s.used).resetNLow = s.resetNLow := rfl
@[simp] theorem State.used_resetNFree (s : State) : (s.used).resetNFree = s.resetNFree := rfl
@[simp] theorem State.used_bring (s : State) : (s.used).bring = s.bring := rfl
@[simp] theorem State.used_holdStart (s : State) : (s.used).holdStart = s.holdStart := rfl
@[simp] theorem State.used_calib (s : State) : (s.used).calib = s.calib := rfl
@[simp] theorem State.used_otpBusy (s : State) : (s.used).otpBusy = s.otpBusy := rfl
@[simp] theorem State.used_otpDone (s : State) : (s.used).otpDone = s.otpDone := rfl
@[simp] theorem State.used_marTable (s : State) : (s.used).marTable = s.marTable := rfl
@[simp] theorem State.used_mar (s : State) : (s.used).mar = s.mar := rfl
@[simp] theorem State.used_cores (s : State) : (s.used).cores = s.cores := rfl
@[simp] theorem State.used_phys (s : State) : (s.used).phys = s.phys := rfl
@[simp] theorem State.used_pairedA (s : State) : (s.used).pairedA = s.pairedA := rfl
@[simp] theorem State.used_pairedB (s : State) : (s.used).pairedB = s.pairedB := rfl
@[simp] theorem State.used_chans (s : State) : (s.used).chans = s.chans := rfl
@[simp] theorem State.used_outs (s : State) : (s.used).outs = s.outs := rfl
@[simp] theorem State.used_sw (s : State) : (s.used).sw = s.sw := rfl
@[simp] theorem State.used_cluLast (s : State) : (s.used).cluLast = s.cluLast := rfl
@[simp] theorem State.used_valves (s : State) : (s.used).valves = s.valves := rfl
@[simp] theorem State.used_banks (s : State) : (s.used).banks = s.banks := rfl
@[simp] theorem State.used_boostKeep (s : State) : (s.used).boostKeep = s.boostKeep := rfl
@[simp] theorem State.used_lux (s : State) : (s.used).lux = s.lux := rfl
@[simp] theorem State.used_sinks (s : State) : (s.used).sinks = s.sinks := rfl
@[simp] theorem State.used_lamps (s : State) : (s.used).lamps = s.lamps := rfl
@[simp] theorem State.used_filts (s : State) : (s.used).filts = s.filts := rfl
@[simp] theorem State.used_fieldRec (s : State) : (s.used).fieldRec = s.fieldRec := rfl
@[simp] theorem State.used_vsnsLim (s : State) : (s.used).vsnsLim = s.vsnsLim := rfl
@[simp] theorem State.used_sent (s : State) : (s.used).sent = s.sent := rfl
@[simp] theorem State.used_sec (s : State) : (s.used).sec = s.sec := rfl
@[simp] theorem State.used_alive (s : State) : (s.used).alive = s.alive := rfl
@[simp] theorem State.used_cntSet (s : State) : (s.used).cntSet = s.cntSet := rfl
@[simp] theorem State.used_poll (s : State) : (s.used).poll = s.poll := rfl
@[simp] theorem State.used_spreadDue (s : State) : (s.used).spreadDue = s.spreadDue := rfl
@[simp] theorem State.used_parkSec (s : State) : (s.used).parkSec = s.parkSec := rfl
@[simp] theorem State.used_lnk (s : State) : (s.used).lnk = s.lnk := rfl
@[simp] theorem State.used_net (s : State) : (s.used).net = s.net := rfl
@[simp] theorem State.used_flashOp (s : State) : (s.used).flashOp = s.flashOp := rfl
@[simp] theorem State.used_upd (s : State) : (s.used).upd = s.upd := rfl
@[simp] theorem State.used_updAon (s : State) : (s.used).updAon = s.updAon := rfl
@[simp] theorem State.used_parkLow (s : State) : (s.used).parkLow = s.parkLow := rfl
@[simp] theorem State.used_bypassReg (s : State) : (s.used).bypassReg = s.bypassReg := rfl
@[simp] theorem State.used_stageBase (s : State) : (s.used).stageBase = s.stageBase := rfl
@[simp] theorem State.used_boostLow (s : State) : (s.used).boostLow = s.boostLow := rfl
@[simp] theorem State.used_tickBase (s : State) : (s.used).tickBase = s.tickBase := rfl
@[simp] theorem State.used_pollAt (s : State) : (s.used).pollAt = s.pollAt := rfl

end Sys2Proof.Machine
end

