-- ==== Sys2Proof/Tests/Slice0.lean ====
section
/-! SUPPORT. Tests of the model: what WellFormed refuses, single steps on small states with results from the spec's own
words, and for each obligation with hypotheses a concrete state and operands that meet them (`witness_…`, one for each
clause, at a boundary of its range where it has one). -/

namespace Sys2Proof.Tests
open Sys2Proof.Machine

set_option Elab.async false

/-! Small states. -/

/-- Every island runs and is checked. -/
def up : State :=
  { isl := (List.range 12).map fun k => (k, { st := .run, chk := true }) }

/-- Core 0 of independent islands at PC 0x0100 with `ws` there: FC selects entry 1 (local memory, X), FD, FE and FS
entry 2 (local memory, R, W and AT); the table of the entries is the descriptor table of R134. -/
def cpu (ws : List Word) (r : Regs := {}) : State :=
  let k : Core := { st := .running, r := { r with fc := 1, fd := 2, fe := 2, fs := 2, pc := 0x0100, sp := 0x0800 } }
  let k1 := (k.setDesc 1 [0x0000, 0x018C, 0x7FFF, 0x8004]).setDesc 2 [0x0000, 0x018C, 0x7FFF, 0x8023]
  ({ up with pairedA := false, pairedB := false }.setCore 0 k1).storeList 0x880100 ws

/-- `up` with registers set. -/
def withRegs (l : List (Nat × Word)) : State := l.foldl (fun t e => t.setReg e.1 e.2) up

/-- An immediate operand in SHORT. -/
def imm (n : BitVec 7) : Opnd := ⟨0, n, 0, 0⟩
/-- The immediate operand of mode 6. -/
def ext (v : Word) : Opnd := ⟨6, 0, v, 0⟩
/-- The operand FD:e of mode 1. -/
def at_ (e : Word) : Opnd := ⟨1, 0, e, 0⟩

/-- The registers of core 0 after a command. -/
def regsOf (o : Out) : Option Regs := match o with | .next t => some (t.r 0) | _ => none
/-- Something read from the state after a command. -/
def after {α : Type} (o : Out) (f : State → α) : Option α := match o with | .next t => some (f t) | _ => none
/-- A word of memory after a command. -/
def wordAt (a : Nat) (o : Out) : Option Word := after o fun t => t.memWord a

/-- The value of a result. -/
def got {α : Type} (r : Res α) : Option α := match r with | .ok v _ => some v | _ => none
/-- The state after a result. -/
def past {α : Type} (r : Res α) : State := match r with | .ok _ s => s | _ => {}
theorem of_got {α : Type} {r : Res α} {v : α} (h : got r = some v) : r = .ok v (past r) := by
  cases r <;> simp [got] at h; subst h; rfl

/-- The value a load has, and the state after it. -/
def loaded (l : Loaded) : Option Word := match l with | .value v _ => some v | _ => none
def loadedPast (l : Loaded) : State := match l with | .value _ s => s | _ => {}
theorem of_loaded {l : Loaded} {v : Word} (h : loaded l = some v) : l = .value v (loadedPast l) := by
  cases l <;> simp [loaded] at h; subst h; rfl

/-! Cores: single steps. -/

/-- ADD of 0x7FFF and 1: 0x8000 with N and V (R168). -/
theorem test_add_overflow :
    (regsOf (exec (.add 0 (imm 1)) (cpu [] { acc := 0x7FFF, fl := 0 }))).map (fun r => (r.acc, r.fl, r.pc)) =
      some (0x8000#16, 0x000A#16, 0x0101#16) := by decide
/-- SUB of 1 from 0: 0xFFFF with N and the borrow in C. -/
theorem test_sub_borrow :
    (regsOf (exec (.sub 0 (ext 1)) (cpu [] { acc := 0, fl := 0 }))).map (fun r => (r.acc, r.fl, r.pc)) =
      some (0xFFFF#16, 0x0006#16, 0x0102#16) := by decide
/-- SHORT of an immediate is signed (R163). -/
theorem test_ld_minus_one :
    (regsOf (exec (.ld 0 (imm 0x7F)) (cpu [] { fl := 0 }))).map (fun r => (r.acc, r.fl)) = some (0xFFFF#16, 0x0002#16) := by decide
/-- A store to FD:e of local memory. -/
theorem test_st : wordAt 0x880200 (exec (.st 0 (at_ 0x0200)) (cpu [] { acc := 0xBEEF })) = some 0xBEEF#16 := by decide
/-- XCH exchanges. -/
theorem test_xch :
    after (exec (.xch 0 (at_ 0x0100)) (cpu [0x1234] { acc := 0xBEEF })) (fun t => (t.memWord 0x880100, (t.r 0).acc)) =
      some (0xBEEF#16, 0x1234#16) := by decide
/-- MULS of −1 and 2: −2 in ACE:ACC, which 16 bits hold. -/
theorem test_muls :
    (regsOf (exec (.muls 0 (imm 2)) (cpu [] { acc := 0xFFFF, fl := 0 }))).map (fun r => (r.ace, r.acc, r.fl)) =
      some (0xFFFF#16, 0xFFFE#16, 0x0002#16) := by decide
/-- DIVS rounds toward zero; the remainder has the dividend's sign. -/
theorem test_divs :
    (regsOf (exec (.divs 0 (imm 2)) (cpu [] { ace := 0xFFFF, acc := 0xFFF9 }))).map (fun r => (r.ace, r.acc)) =
      some (0xFFFF#16, 0xFFFD#16) := by decide
/-- ROL by 1 of 0x8000 carries the bit that went round. -/
theorem test_rol :
    (regsOf (exec (.rol 0 (imm 1)) (cpu [] { acc := 0x8000, fl := 0 }))).map (fun r => (r.acc, r.fl)) =
      some (0x0001#16, 0x0004#16) := by decide
/-- A branch back over itself (R170). -/
theorem test_branch_back :
    (regsOf (exec (.bcc 0 .br 0x7F) (cpu []))).map (·.pc) = some 0x0100#16 := by decide
/-- CALL pushes the offset of the next word. -/
theorem test_call :
    after (exec (.call 0 (ext 0x0300)) (cpu [])) (fun t => ((t.r 0).pc, (t.r 0).sp, t.memWord 0x8807FF)) =
      some (0x0300#16, 0x07FF#16, 0x0102#16) := by decide
/-- SWB exchanges the bytes of ACC. -/
theorem test_swb : (regsOf (exec (.swb 0) (cpu [] { acc := 0x12FE }))).map (·.acc) = some 0xFE12#16 := by decide
/-- NEG of 0x8000 overflows. -/
theorem test_neg :
    (regsOf (exec (.neg 0) (cpu [] { acc := 0x8000, fl := 0 }))).map (fun r => (r.acc, r.fl)) = some (0x8000#16, 0x000E#16) := by decide
/-- TAS leaves the old word in ACC and 0xFFFF in memory (R180). -/
theorem test_tas :
    after (exec (.tas 0 (at_ 0x0100)) (cpu [0x0005])) (fun t => ((t.r 0).acc, t.memWord 0x880100)) = some (0x0005#16, 0xFFFF#16) := by
  decide
/-- EXB with ACE[0] set takes the high byte of the word (R179). -/
theorem test_exb_high :
    (regsOf (exec (.exb 0 (at_ 0x0100)) (cpu [0xAB12] { ace := 1 }))).map (·.acc) = some 0x00AB#16 := by decide

/-! Words of the cores, written out from Tables 6.1, 6.4, 6.5 and 6.6. -/

/-- LDX #0x200: opcode 0x05, mode 6, the extension word. -/
theorem test_word_ldx : coreInstr 0 0x1700 0x0200 0 = .ldx 0 (ext 0x0200) := by decide
/-- INB at FE:IY + 0: opcode 0x27, mode 3; DEC at FD:0x20: opcode 0x16, mode 1. -/
theorem test_word_inb_dec :
    coreInstr 0 0x9D80 0 0 = .inb 0 ⟨3, 0, 0, 0⟩ ∧ coreInstr 0 0x5880 0x0020 0 = .dec 0 (at_ 0x0020) := by decide
/-- BNZ −7: opcode 0x31, condition 2, displacement 0x79; INY: opcode 0x3D, function 0x24. -/
theorem test_word_bnz_iny : coreInstr 0 0xC579 0 0 = .bcc 0 .bnz 0x79 ∧ coreInstr 0 0xF424 0 0 = .iny 0 := by decide
/-- JMPF #0x0200, selector 1: opcode 0x2F, mode 6, two extension words; a word of opcode 0x3F is undefined (R166). -/
theorem test_word_jmpf_undefined :
    coreInstr 0 0xBF00 0x0200 0x0001 = .jmpf 0 ⟨6, 0, 0x0200, 1⟩ ∧ coreInstr 0 0xFFFF 0 0 = .undefinedOpcode 0 0xFFFF ∧
      undefinedWord 0xFFFF = true := by decide

/-! Cores: witnesses. -/

/-- An instruction of one word executes. -/
theorem issues_one : Issues 0 1 true (cpu []) := ⟨by decide, rfl, rfl, rfl⟩
/-- One of two words. -/
theorem issues_two : Issues 0 2 true (cpu []) := ⟨by decide, rfl, rfl, rfl⟩

theorem witness_RegisterResultInstructions_immediate :
    Issues 0 ((imm 5).len .src) ((imm 5).legal .src) (cpu []) ∧
      source 0 (imm 5) (issued 0 ((imm 5).len .src) (cpu [])) = .ok 5 (issued 0 1 (cpu [])) := ⟨issues_one, rfl⟩
theorem witness_RegisterResultInstructions_memory :
    Issues 0 ((at_ 0x0100).len .src) ((at_ 0x0100).legal .src) (cpu [0x8000]) ∧
      ∃ s1, source 0 (at_ 0x0100) (issued 0 ((at_ 0x0100).len .src) (cpu [0x8000])) = .ok 0x8000 s1 :=
  ⟨⟨by decide, rfl, rfl, rfl⟩, ⟨_, rfl⟩⟩
/-- The largest count of a shift. -/
theorem witness_ShiftsMoveByTheCount :
    Issues 0 ((imm 31).len .src) ((imm 31).legal .src) (cpu []) ∧
      source 0 (imm 31) (issued 0 1 (cpu [])) = .ok 31 (issued 0 1 (cpu [])) := ⟨issues_one, rfl⟩
theorem witness_ShiftResultsAreTable67 : ((16 : Nat) = 16 ∨ (16 : Nat) = 32) ∧ 1 ≤ 31 ∧ 31 < 32 ∧ 15 < 16 := by decide
theorem witness_DivisionsGiveQuotientOrTrap_div_fits :
    Issues 0 1 true (cpu [] { ace := 1, acc := 0xFFFF }) ∧
      source 0 (imm 2) (issued 0 1 (cpu [] { ace := 1, acc := 0xFFFF })) = .ok 2 (issued 0 1 (cpu [] { ace := 1, acc := 0xFFFF })) ∧
      (0x0001FFFF#32).toNat / 2 < 65536 := ⟨⟨by decide, rfl, rfl, rfl⟩, rfl, by decide⟩
theorem witness_DivisionsGiveQuotientOrTrap_div_overflows :
    Issues 0 1 true (cpu [] { ace := 1, acc := 0 }) ∧
      source 0 (imm 1) (issued 0 1 (cpu [] { ace := 1, acc := 0 })) = .ok 1 (issued 0 1 (cpu [] { ace := 1, acc := 0 })) ∧
      65536 ≤ (0x00010000#32).toNat / 1 := ⟨⟨by decide, rfl, rfl, rfl⟩, rfl, by decide⟩
theorem witness_DivisionsGiveQuotientOrTrap_zero :
    Issues 0 1 true (cpu []) ∧ source 0 (imm 0) (issued 0 1 (cpu [])) = .ok 0 (issued 0 1 (cpu [])) := ⟨issues_one, rfl⟩
theorem witness_DivisionsGiveQuotientOrTrap_divs_least :
    Issues 0 1 true (cpu [] { ace := 0xFFFF, acc := 0x8000 }) ∧
      source 0 (imm 1) (issued 0 1 (cpu [] { ace := 0xFFFF, acc := 0x8000 })) =
        .ok 1 (issued 0 1 (cpu [] { ace := 0xFFFF, acc := 0x8000 })) ∧
      (0xFFFF8000#32).toInt.tdiv (1#16).toInt = -32768 := ⟨⟨by decide, rfl, rfl, rfl⟩, rfl, by decide⟩
theorem witness_DivisionsGiveQuotientOrTrap_divs_overflows :
    Issues 0 1 true (cpu [] { ace := 0xFFFF, acc := 0x8000 }) ∧
      source 0 (imm 0x7F) (issued 0 1 (cpu [] { ace := 0xFFFF, acc := 0x8000 })) =
        .ok 0xFFFF (issued 0 1 (cpu [] { ace := 0xFFFF, acc := 0x8000 })) ∧
      32767 < (0xFFFF8000#32).toInt.tdiv (0xFFFF#16).toInt := ⟨⟨by decide, rfl, rfl, rfl⟩, rfl, by decide⟩
/-- A store and a modification at the last word of local memory. -/
theorem witness_StoresAndModificationsWriteTheirOperand :
    Issues 0 ((at_ 0x7FFF).len .dst) ((at_ 0x7FFF).legal .dst) (cpu []) ∧
      ∃ s1, effective 0 (at_ 0x7FFF) (issued 0 2 (cpu [])) = .ok (1, 0x7FFF) s1 ∧
        address s1 0 1 0x7FFF { r := true } = .ok 0x8C7FFF ∧ address s1 0 1 0x7FFF { w := true } = .ok 0x8C7FFF ∧
        ∃ m s2, load 0 1 0x7FFF false s1 = .ok m s2 := ⟨issues_two, _, rfl, rfl, rfl, _, _, rfl⟩
theorem witness_ByteInstructionsSelectOneByte_low :
    Issues 0 ((at_ 0x0100).len .byt) ((at_ 0x0100).legal .byt) (cpu [0xAB12]) ∧
      ∃ s1, byteOperand 0 (at_ 0x0100) (issued 0 2 (cpu [0xAB12])) = .ok (1, 0x0100, false) s1 ∧
        (∃ s2, load 0 1 0x0100 false s1 = .ok 0xAB12 s2) ∧ address s1 0 1 0x0100 { r := true } = .ok 0x8C0100 ∧
        address s1 0 1 0x0100 { w := true } = .ok 0x8C0100 :=
  ⟨⟨by decide, rfl, rfl, rfl⟩, _, rfl, ⟨_, rfl⟩, rfl, rfl⟩
theorem witness_ByteInstructionsSelectOneByte_high :
    Issues 0 ((at_ 0x0100).len .byt) ((at_ 0x0100).legal .byt) (cpu [0xAB12] { ace := 1 }) ∧
      ∃ s1, byteOperand 0 (at_ 0x0100) (issued 0 2 (cpu [0xAB12] { ace := 1 })) = .ok (1, 0x0100, true) s1 ∧
        (∃ s2, load 0 1 0x0100 false s1 = .ok 0xAB12 s2) ∧ address s1 0 1 0x0100 { r := true } = .ok 0x8C0100 ∧
        address s1 0 1 0x0100 { w := true } = .ok 0x8C0100 :=
  ⟨⟨by decide, rfl, rfl, rfl⟩, _, rfl, ⟨_, rfl⟩, rfl, rfl⟩
theorem witness_RegisterMovesAndImplicitFunctions : Issues 0 1 true (cpu []) := issues_one
theorem witness_StackInstructionsPushAndPop :
    Issues 0 1 true (cpu []) ∧ address (issued 0 1 (cpu [])) 0 3 (((cpu []).r 0).sp - 1) { w := true } = .ok 0x8C07FF ∧
      ∃ v s1, load 0 3 ((cpu []).r 0).sp false (issued 0 1 (cpu [])) = .ok v s1 := ⟨issues_one, rfl, _, _, rfl⟩
theorem witness_StackInstructionsPushAndPop_operands :
    (Issues 0 ((imm 1).len .src) ((imm 1).legal .src) (cpu []) ∧ ∃ s1, source 0 (imm 1) (issued 0 1 (cpu [])) = .ok 1 s1 ∧
      address s1 0 3 ((s1.r 0).sp - 1) { w := true } = .ok 0x8C07FF) ∧
    (Issues 0 ((at_ 0).len .dst) ((at_ 0).legal .dst) (cpu []) ∧
      ∃ s1, effective 0 (at_ 0) ((issued 0 2 (cpu [])).modR 0 fun r => { r with sp := ((cpu []).r 0).sp + 1 }) = .ok (1, 0) s1 ∧
        ∃ v s2, load 0 3 ((cpu []).r 0).sp false s1 = .ok v s2 ∧ address s2 0 1 0 { w := true } = .ok 0x8C0000) :=
  ⟨⟨issues_one, _, rfl, rfl⟩, issues_two, _, rfl, _, _, rfl, rfl⟩
theorem witness_BranchesTestTable64 : Issues 0 1 true (cpu []) := issues_one
theorem witness_JumpsCallsAndReturns :
    Issues 0 ((ext 0xFFFF).len .jump) ((ext 0xFFFF).legal .jump) (cpu []) ∧
      (∃ s1, source 0 (ext 0xFFFF) (issued 0 2 (cpu [])) = .ok 0xFFFF s1 ∧ address s1 0 3 ((s1.r 0).sp - 1) { w := true } = .ok 0x8C07FF) ∧
      Issues 0 1 true (cpu []) ∧ ∃ v s1, load 0 3 ((cpu []).r 0).sp false (issued 0 1 (cpu [])) = .ok v s1 :=
  ⟨issues_two, ⟨_, rfl, rfl⟩, issues_one, _, _, rfl⟩
/-- A far pointer to code and one to data, which is no code. -/
theorem witness_FarTransfersLoadTheCodeFrame :
    Issues 0 3 ((⟨6, 0, 0x0200, 1⟩ : Opnd).legal .far) (cpu []) ∧
    (∃ s1, farPointer 0 ⟨6, 0, 0x0200, 1⟩ (issued 0 3 (cpu [])) = .ok (0x0200, 1) s1 ∧ selectorCode s1 0 0 1 = none ∧
      ∃ s2, pushWords 0 [(s1.r 0).fc.setWidth 16, (s1.r 0).pc] s1 = .ok () s2 ∧ selectorCode s2 0 0 1 = none) ∧
    ∃ s1, farPointer 0 ⟨6, 0, 0x0200, 2⟩ (issued 0 3 (cpu [])) = .ok (0x0200, 2) s1 ∧ selectorCode s1 0 0 2 = some 0x04 :=
  ⟨⟨by decide, rfl, rfl, rfl⟩, ⟨_, rfl, rfl, _, rfl, rfl⟩, _, rfl, rfl⟩
/-- A return through a stack that holds offset, selector and FL. -/
theorem witness_FarTransfersLoadTheCodeFrame_returns :
    let s := (cpu []).storeList 0x880800 [0x0200, 0x0001, 0x0010]
    Issues 0 1 true s ∧ (∃ vs s3, popWords 0 2 (issued 0 1 s) = .ok vs s3 ∧ selectorCode s3 0 0 (fld (vs.getD 1 0) 0 8) = none) ∧
      ∃ vs s3, popWords 0 3 (issued 0 1 s) = .ok vs s3 ∧ selectorCode s3 0 0 (fld (vs.getD 1 0) 0 8) = none :=
  ⟨⟨by decide, rfl, rfl, rfl⟩, ⟨_, _, rfl, rfl⟩, _, _, rfl, rfl⟩
theorem witness_FrameLoadsCheckTheSelector :
    Issues 0 1 true (cpu []) ∧ source 0 (imm 2) (issued 0 1 (cpu [])) = .ok 2 (issued 0 1 (cpu [])) ∧
      selectorCode (issued 0 1 (cpu [])) 0 1 2 = none ∧ selectorCode (issued 0 1 (cpu [])) 0 2 2 = none ∧
      selectorCode (issued 0 1 (cpu [])) 0 3 2 = none ∧
      source 0 (imm 3) (issued 0 1 (cpu [])) = .ok 3 (issued 0 1 (cpu [])) ∧ selectorCode (issued 0 1 (cpu [])) 0 1 3 = some 0x09 ∧
      selectorCode (issued 0 1 (cpu [])) 0 2 3 = some 0x09 ∧ selectorCode (issued 0 1 (cpu [])) 0 3 3 = some 0x09 :=
  ⟨issues_one, rfl, rfl, rfl, rfl, rfl, rfl, rfl, rfl⟩
theorem witness_FrameLoadsCheckTheSelector_inhibit :
    (((cpu []).modCore 0 fun k => { k with inhibit := true }).core 0).inhibit = true := by decide
theorem witness_AtomicsReadAndWriteAtOnce :
    Issues 0 ((at_ 0x0100).len .dst) ((at_ 0x0100).legal .dst) (cpu [7]) ∧
      (∃ s1, atomicAddr 0 (at_ 0x0100) { r := true, w := true, at_ := true } (issued 0 2 (cpu [7])) = .ok 0x8C0100 s1 ∧
        atomicOpen s1 0 0x8C0100 = true ∧ ∃ s2, coreLoad s1 0 0x8C0100 = .value 7 s2) ∧
      (∃ s1, atomicAddr 0 (at_ 0x0100) { r := true, at_ := true } (issued 0 2 (cpu [7])) = .ok 0x8C0100 s1 ∧
        ∃ s2, coreLoad s1 0 0x8C0100 = .value 7 s2) ∧
      ∃ s1, atomicAddr 0 (at_ 0x0100) { w := true, at_ := true } (issued 0 2 (cpu [7])) = .ok 0x8C0100 s1 ∧
        atomicOpen s1 0 0x8C0100 = true ∧ ∃ s2, scwAccess 0 0x8C0100 s1 = s2 :=
  ⟨⟨by decide, rfl, rfl, rfl⟩, ⟨_, rfl, by decide +kernel, _, of_loaded (by decide +kernel)⟩, ⟨_, rfl, _, of_loaded (by decide +kernel)⟩, _, rfl,
    by decide +kernel, _, rfl⟩
/-- The local memory of a pair of CPB that rolls back, through entry 3. -/
def other : State :=
  ({ cpu [] with pairedB := true }.modCore 0 fun k => { k.setDesc 3 [0x0000, 0x018A, 0x7FFF, 0x8023] with r := { k.r with fd := 3 } }).setCore 4
    { st := .running, rolling := true }
theorem witness_AtomicsReadAndWriteAtOnce_waits :
    Issues 0 ((at_ 0).len .dst) ((at_ 0).legal .dst) other ∧
      (∃ s1, atomicAddr 0 (at_ 0) { r := true, w := true, at_ := true } (issued 0 2 other) = .ok 0x8A0000 s1 ∧ atomicOpen s1 0 0x8A0000 = false) ∧
      ∃ s1, atomicAddr 0 (at_ 0) { w := true, at_ := true } (issued 0 2 other) = .ok 0x8A0000 s1 ∧ atomicOpen s1 0 0x8A0000 = false :=
  ⟨⟨by decide, rfl, rfl, rfl⟩, ⟨_, rfl, rfl⟩, _, rfl, rfl⟩
/-- WEV of line 16, not pending and pending. -/
theorem witness_WaitForEventCompletesOrWaits :
    let s := (cpu []).storeList 0x880200 [0x0000, 0x0001, 0x0000, 0x0000]
    let p := s.raiseLine 0 16
    (Issues 0 ((at_ 0x0200).len .dst) ((at_ 0x0200).legal .dst) s ∧
      (∃ s1, ((effective 0 (at_ 0x0200) (fetched 0 2 s)).bind fun q t => loadWords 0 q.1 q.2 4 t) = .ok [0, 1, 0, 0] s1) ∧
      maskedLine (s.modCore 0 fun k => { forgetLoads k with inhibit := false, wait := some 65536 }) 0 (maskOf [0, 1, 0, 0]) = none) ∧
    (Issues 0 ((at_ 0x0200).len .dst) ((at_ 0x0200).legal .dst) p ∧
      (∃ s1, ((effective 0 (at_ 0x0200) (fetched 0 2 p)).bind fun q t => loadWords 0 q.1 q.2 4 t) = .ok [0, 1, 0, 0] s1) ∧
      maskedLine (p.modCore 0 fun k => { forgetLoads k with inhibit := false, wait := some 65536 }) 0 (maskOf [0, 1, 0, 0]) = some 16) :=
  ⟨⟨⟨by decide, rfl, rfl, rfl⟩, ⟨_, rfl⟩, by decide⟩, ⟨by decide, rfl, rfl, rfl⟩, ⟨_, rfl⟩, by decide⟩
theorem witness_WaitForEventCompletesOrWaits_waiting :
    let s := ((cpu []).modCore 0 fun k => { k with wait := some 65536 }).raiseLine 0 16
    (s.core 0).wait = some 65536 ∧ coreUp s 0 = true ∧ maskedLine s 0 65536 = some 16 ∧ s.paired 0 = false ∧
      s.regFld (s.block 0 + 10 + 16 / 8) (2 * (16 % 8)) 2 = 0 := by decide
theorem witness_SendEventRaisesLinesAfterStores :
    (Issues 0 ((imm 1).len .src) ((imm 1).legal .src) (cpu []) ∧ source 0 (imm 1) (issued 0 1 (cpu [])) = .ok 1 (issued 0 1 (cpu []))) ∧
    let s := (cpu []).modCore 0 fun k => { k with sevMask := some 1 }
    (s.core 0).sevMask = some 1 ∧ storesDone 0 (drainCore 0 s) = true ∧ ((drainCore 0 s).core 0).sevMask = some 1 ∧ (1#8).getLsbD 0 = true ∧
      ((drainCore 0 s).core ((drainCore 0 s).lead 0)).st ≠ .inReset ∧
      ((drainCore 0 s).physPair ((drainCore 0 s).mapPair (0 / 2))).retired = false :=
  ⟨⟨issues_one, rfl⟩, by decide +kernel⟩
/-- A word of core 0 that a pair rolling back holds off: SEV waits on. -/
theorem witness_SendEventRaisesLinesAfterStores_waits :
    let s := (other.modCore 0 fun k => { k with sevMask := some 0xFF }).modCore 4 fun k => { k with held := [(.core 0, 0x8A0000, 7)] }
    (s.core 0).sevMask = some 0xFF ∧ storesDone 0 (drainCore 0 s) = false := by decide +kernel
theorem witness_DescriptorInstructionsNeedPriority3 :
    (Issues 0 2 ((at_ 0x0100).legal .dst) (cpu [] { fl := 0x0080 }) ∧ fld ((cpu [] { fl := 0x0080 }).r 0).fl 6 2 ≠ 3) ∧
    (Issues 0 2 ((at_ 0x0100).legal .dst) (cpu [0, 0, 0, 0x8000]) ∧ fld ((cpu []).r 0).fl 6 2 = 3 ∧
      ∃ s1, effective 0 (at_ 0x0100) (issued 0 2 (cpu [0, 0, 0, 0x8000])) = .ok (1, 0x0100) s1 ∧
        (∃ s2, loadWords 0 1 0x0100 4 s1 = .ok [0, 0, 0, 0x8000] s2) ∧ descRefused [0, 0, 0, 0x8000] = true) :=
  ⟨⟨⟨by decide, rfl, rfl, rfl⟩, by decide⟩, ⟨by decide, rfl, rfl, rfl⟩, by decide, _, rfl, ⟨_, rfl⟩, by decide⟩
theorem witness_DescriptorInstructionsReadAndWriteTables :
    let ws : List Word := [0, 0x0180, 0x00FF, 0x8001]
    Issues 0 2 ((at_ 0x0100).legal .dst) (cpu ws { acc := 0x00FF }) ∧ fld ((cpu ws { acc := 0x00FF }).r 0).fl 6 2 = 3 ∧
      ∃ s1, effective 0 (at_ 0x0100) (issued 0 2 (cpu ws { acc := 0x00FF })) = .ok (1, 0x0100) s1 ∧
        (∃ s2, loadWords 0 1 0x0100 4 s1 = .ok ws s2 ∧ descRefused ws = false ∧ bit (ws.getD 1 0) (8 + 0) = true ∧
          (s2.core (s2.lead 0)).st ≠ .inReset) ∧
        ∃ as s2, storeWordsOk 0 1 0x0100 4 s1 = .ok as s2 :=
  ⟨⟨by decide, rfl, rfl, rfl⟩, by decide, _, rfl, ⟨_, rfl, by decide, by decide, by decide⟩, _, _, rfl⟩
/-- SHORT not 0 in mode 6 for every class but D, an immediate for D, a reserved opcode. -/
theorem witness_UndefinedEncodingsTakeLine3 :
    coreReady (cpu []) 0 = true ∧ undefinedWord 0xF800 = true ∧ Opnd.legal ⟨6, 1, 0, 0⟩ .src = false ∧
      Opnd.legal ⟨0, 0, 0, 0⟩ .dst = false ∧ Opnd.legal ⟨6, 1, 0, 0⟩ .jump = false ∧ Opnd.legal ⟨6, 1, 0, 0⟩ .far = false ∧
      Opnd.legal ⟨6, 0, 0, 0⟩ .byt = false := by decide
theorem witness_UndefinedEncodingsTakeLine3_fetch : fetchOk 0 0 1 (cpu []) = .ok () := rfl

/-- Core 0 with line 16 pending, enabled at level 1, PRI 0, I set; its event table in entry 2 sends line 16 to 0x0300. -/
def evt : State :=
  let s := (cpu [] { fl := 0x0010 }).storeList 0x880020 [0x0300, 0x0001]
  (((s.setReg (s.block 0 + 1) 0x0002).raiseLine 0 16).setRegBit (s.block 0 + 3) 0 true).setRegFld (s.block 0 + 12) 0 2 1

/-- The line is entered at its handler with its level (R141). -/
theorem test_event_entry :
    after (exec (.eventEntry 0) evt) (fun t => ((t.r 0).pc, fld (t.r 0).fl 6 2, (t.r 0).sp, t.memWord 0x8807FD)) =
      some (0x0300#16, 1, 0x07FD#16, 0x0100#16) := by decide +kernel
/-- After its three pushes, and after each of the two table words. -/
def evtPushed : State := past (pushWords 0 [(evt.r 0).fl, (evt.r 0).fc.setWidth 16, (evt.r 0).pc] evt)
def evtPc : State := past (tableWord 0 (2 * 16) evtPushed)
def evtSel : State := past (tableWord 0 (2 * 16 + 1) evtPc)
theorem witness_EventEntryTakesTheLine :
    coreUp evt 0 = true ∧ (evt.core 0).partway = false ∧ eventLine evt 0 = some 16 ∧ (evt.core 0).wait = none ∧
      pushWords 0 [(evt.r 0).fl, (evt.r 0).fc.setWidth 16, (evt.r 0).pc] evt = .ok () evtPushed ∧
      tableWord 0 (2 * 16) evtPushed = .ok 0x0300 evtPc ∧ tableWord 0 (2 * 16 + 1) evtPc = .ok 0x0001 evtSel ∧
      selectorCode evtSel 0 0 (fld 0x0001 0 8) = none :=
  ⟨by decide, by decide, by decide +kernel, by decide, of_got (by decide +kernel), of_got (by decide +kernel), of_got (by decide +kernel),
    by decide +kernel⟩
/-- The state of the record before an exception's entry. -/
def recorded (e : Exc) (s : State) : State := 
  (recordFault 0 e s).modCore 0 fun k => { forgetLoads k with remTag := none, remAns := none }
/-- Entry that passes, an exception in progress, and an entry that fails since the table's descriptor is not valid. -/
theorem witness_ExceptionsEnterAtLevel3 :
    let s := (cpu []).setReg ((cpu []).block 0 + 1) 0x0002
    let t := s.storeList 0x880006 [0x0300, 0x0001]
    (t.paired 0 = false ∧ (t.core 0).exc = false) ∧
      (∃ u, enterLine 0 Exc.illegal.line (t.r 0).pc true (recorded .illegal t) = .ok () u) ∧
      ((t.modCore 0 fun k => { k with exc := true }).core 0).exc = true ∧
      (∃ e, enterLine 0 Exc.illegal.line ((cpu []).r 0).pc true (recorded .illegal (cpu [])) = .exc e) ∧
      (.frame 0x1F 4 255 0xFFFF : Exc) = .frame 0x1F 4 255 0xFFFF :=
  ⟨by decide +kernel, ⟨past _, of_got (by decide +kernel)⟩, by decide +kernel, ⟨_, rfl⟩, rfl⟩
theorem witness_CheckpointInstruction :
    let p : State := { cpu [] with pairedA := true, pairedB := true }
    let b := p.modCore 0 fun k => { k with ckBusy := true }
    (Issues 0 1 true (cpu []) ∧ (cpu []).paired 0 = false) ∧
      (Issues 0 1 true p ∧ p.paired 0 = true ∧ (p.core 0).held = [] ∧ (p.core 0).redo = none ∧ (p.core 0).ckBusy = false) ∧
      (Issues 0 1 true b ∧ b.paired 0 = true ∧ (b.core 0).held = [] ∧ (b.core 0).redo = none ∧ (b.core 0).ckBusy = true) :=
  ⟨⟨issues_one, by decide⟩, ⟨⟨by decide, rfl, rfl, rfl⟩, by decide⟩, ⟨by decide, rfl, rfl, rfl⟩, by decide⟩
theorem witness_RegisterInstructionsFrame :
    Issues 0 1 true (cpu []) ∧ fetched 0 1 (cpu []) = cpu [] ∧ NoneHeld 0 (cpu []) ∧ ∃ t, exec (.mvas 0) (cpu []) = .next t :=
  ⟨issues_one, rfl, fun h => absurd h (by decide), _, rfl⟩
theorem witness_SourceInstructionsFrame :
    Issues 0 ((at_ 0x0100).len .src) ((at_ 0x0100).legal .src) (cpu [5]) ∧
      (∃ s1, source 0 (at_ 0x0100) (issued 0 2 (cpu [5])) = .ok 5 s1 ∧ NoneHeld 0 s1) ∧ ∃ t, exec (.add 0 (at_ 0x0100)) (cpu [5]) = .next t :=
  ⟨⟨by decide, rfl, rfl, rfl⟩, ⟨_, rfl, fun h => absurd h (by decide)⟩, _, rfl⟩
theorem witness_SourceInstructionsFrame_immediates :
    (imm 5).mode.val = 0 ∧ (ext 5).mode.val = 6 ∧ Issues 0 1 true (cpu []) ∧ Issues 0 2 true (cpu []) :=
  ⟨rfl, rfl, issues_one, issues_two⟩
theorem witness_StoreToOwnLocalMemoryFrame :
    (cpu []).paired 0 = false ∧ ownLocal (cpu []) 0 0x8C7FFF = true ∧ ownLocal (cpu []) 0 0x880000 = true := by decide
theorem witness_StoreToSharedSramReadsBack :
    0x800000 ≤ 0x87FFFF ∧ 0x87FFFF < 0x880000 ∧ up.memq = [] ∧ up.running .mem = true := by decide
/-- A descriptor of base 0x8C8000 and limit 0: its one word lies in no region. -/
theorem witness_AccessOutsideTheMapFaults :
    let s := up.setCore 0 ((({ r := { fd := 7 } } : Core)).setDesc 7 [0x8000, 0x018C, 0x0000, 0x8023])
    let ws := (s.core 0).descWords 7
    (descBase ws + (0x0000#16).toNat) % 0x1000000 = 0x8C8000 ∧ (0x0000#16).toNat ≤ (ws.getD 2 0).toNat ∧ bit (ws.getD 3 0) 0 = true ∧
      bit (ws.getD 3 0) 1 = true ∧ bit (ws.getD 3 0) 5 = true ∧ bit (ws.getD 3 0) 3 = false := by decide
theorem witness_OperandFormsAreTable62 (m : Fin 8) : ∃ o : Opnd, o.mode = m := ⟨⟨m, 0, 0, 0⟩, rfl⟩

/-! The machine. -/

/-- An empty queue: time passes (R19). -/
theorem test_idle : after (step State.reset) (·.now) = some 1 := by decide +kernel
theorem test_front : after (step { State.reset with pending := [.powerLoss, .resetNRise] }) (·.pending) = some [.resetNRise] := by
  decide +kernel
theorem witness_EveryStepKeepsInvariant : Inv { evt with pending := [.powerOn, .periodBoundary ⟨.sw, 75⟩] } :=
  ⟨by decide, by decide +kernel, by decide +kernel⟩
theorem witness_IdleStepIsOneMicrosecond : up.pending = [] ∧ Memory.wf up.mem = true ∧ Sparse.wf regReset up.regs = true := by decide
theorem witness_OnlyMissingUnitsStop :
    ChanRef.ok ⟨.sw, 76⟩ = false ∧ ChanRef.ok ⟨.act, 16⟩ = false ∧ ChanRef.ok ⟨.lux, 108⟩ = false ∧ ChanRef.ok ⟨.fld, 16⟩ = false ∧
      ChanRef.ok ⟨.sw, 63⟩ = true ∧ (⟨.sw, 63⟩ : ChanRef).idx < 64 ∧ (⟨.act, 0⟩ : ChanRef).isl ≠ .sw ∧ 32 ≤ (47 : Fin 48).val ∧ 0x9FFFFF < 0xA00000 ∧ 0xAA0000 ≤ 0xAA0000 ∧
      wellFormed (.periodBoundary ⟨.sw, 75⟩) = true := by decide
theorem witness_AccessCodesGovernWrites : (regRow 0xA70103).isSome = true ∧ (regRow 0xA81100).isSome = true ∧ (15 : Nat) < 16 := by decide
/-- MEM reads back, byte 0 first. -/
theorem test_mem : (up.setMem 0x800000 0xBEEF).byteAt 0x1000000 = 0xEF#8 ∧ (up.setMem 0x800000 0xBEEF).byteAt 0x1000001 = 0xBE#8 := by decide

/-! Register accesses. -/

theorem arrives {r : Requester} {i : Island} {s : State}
    (h : s.gateOpen (s.reqIsland r) i = true ∧ arriveAfter r i s = s ∧ nothingAhead r i s = true) : Arrives r i s s :=
  ⟨h.1, h.2.1, h.1, h.2.2⟩

theorem witness_AccessCodesGovernWrites_arrives :
    Arrives (.core 0) .aon up up ∧ Arrives (.core 0) .lnk up up ∧ Arrives (.core 0) .sec up up ∧ Arrives (.core 0) .sup up up :=
  ⟨arrives (by decide), arrives (by decide), arrives (by decide), arrives (by decide)⟩

/-- RST_REQ: an admitted target, targets the level does not admit, a wrong key. -/
theorem witness_ResetRequestKeyed :
    Arrives (.core 0) .sup up up ∧ ((0x5A01#16).toNat / 256 = 0x5A ∧ (0x5A01#16).toNat % 4 = 1) ∧
      ((0x5A1E#16).toNat / 256 = 0x5A ∧ (0x5A1E#16).toNat % 4 = 2 ∧ (0x5A1E#16).toNat / 4 % 16 = 7) ∧
      ((0x5A23#16).toNat / 256 = 0x5A ∧ (0x5A23#16).toNat % 4 = 3 ∧ 8 ≤ (0x5A23#16).toNat / 4 % 16) ∧ (0x5B01#16).toNat / 256 ≠ 0x5A :=
  ⟨arrives (by decide), by decide⟩
/-- A fuse word of block 5, the same once programmed, and one of block 6. -/
theorem witness_FuseProgramming :
    let s := withRegs [(0xA80010, 0x0140)]
    let z := withRegs [(0xA80010, 0x0180)]
    Arrives (.core 0) .sup s s ∧ (0xC301#16).toNat / 256 = 0xC3 ∧ (0xC301#16).getLsbD 0 = true ∧ s.otpBusy = none ∧
      s.regFld 0xA80010 0 10 = 0x140 ∧ 0x140 / 64 = 5 ∧ 0x140 ∉ s.otpDone ∧ 0x140 ∈ ({ s with otpDone := [0x140] } : State).otpDone ∧
      Arrives (.core 0) .sup z z ∧ z.regFld 0xA80010 0 10 = 0x180 ∧ ¬(0x180 / 64 = 5 ∨ 0x180 / 64 = 7 ∨ 8 ≤ 0x180 / 64) ∧
      ({ s with otpBusy := some (0x140, 0xBEEF) } : State).otpBusy = some (0x140, 0xBEEF) :=
  ⟨arrives (by decide), by decide, by decide, by decide, by decide, by decide, by decide, by decide, arrives (by decide), by decide,
    by decide, by decide⟩
theorem witness_SupervisorCommands_marionette :
    let s := withRegs [(0xA80005, 0x0200)]
    Arrives (.core 0) .sup s s ∧ bit (0x0001#16) 0 = true ∧
      ((List.range s.marTable.length).foldl (fun u n => marEnd n u) s).regBit 0xA80005 9 = true :=
  ⟨arrives (by decide), by decide, by decide⟩
theorem witness_SupervisorCommands_sampler :
    let s := withRegs [(0xA81007, 0x0001)]
    Arrives (.core 0) .sup s s ∧ asRequester s (.core 0) = .core 0 ∧ s.regBit 0xA81007 0 = true ∧ (0x5C01#16).toNat / 256 = 0x5C ∧
      (bit (0x5C01#16) 0 = true ∧ bit (0x5C01#16) 1 = false) ∧ (bit (0x5C02#16) 0 = false ∧ bit (0x5C02#16) 1 = true) ∧
      up.regBit 0xA81007 0 = false ∧ (0x5B01#16).toNat / 256 ≠ 0x5C :=
  ⟨arrives (by decide), by decide, by decide, by decide, by decide, by decide, by decide, by decide⟩
theorem witness_SupervisorCommands_watchdog :
    let s := up.modCore 0 fun k => { k with wdgFrozen := none, wdgTo := 100 }
    let h := s.modCore 0 fun k => { k with wdgHalf := true }
    Arrives (.core 0) .sup s s ∧ s.lead 0 = 0 ∧ asRequester s (.core 0) = .core 0 ∧ wdgCounts s 0 = true ∧ (s.core 0).wdgHalf = false ∧
      Arrives (.core 0) .sup h h ∧ wdgCounts h 0 = true ∧ (h.core 0).wdgHalf = true ∧
      wdgCount h 0 * 8 ≤ (h.core 0).wdgTo * (8 - (h.core 0).wdgWin) :=
  ⟨arrives (by decide), by decide, by decide, by decide, by decide, arrives (by decide), by decide, by decide, by decide⟩
theorem witness_SupervisorCommands_spare :
    let z := withRegs [(0xA8FD05, 0x0001)]
    Arrives (.core 0) .sup up up ∧ up.regBit 0xA8FD05 0 = false ∧ bit (0x0004#16) 0 = false ∧
      (bit (0x0003#16) 0 = true ∧ (∀ k, k < 4 → (up.physPair k).standby = false) ∧ asRequester up (.core 2) = .core 2 ∧
        fld (0x0003#16) 1 2 < 2 ∧ up.mapPair (up.lead (2 : Fin 8) / 2) = 2 * fld (0x0003#16) 3 1 + fld (0x0003#16) 1 2 ∧
        fld (0x0003#16) 3 1 = 0 ∧ up.pairedA = true ∧ (up.physPair 1).retired = false) ∧
      Arrives (.core 2) .sup up up ∧ Arrives (.core 0) .sup z z ∧ z.regBit 0xA8FD05 0 = true :=
  ⟨arrives (by decide), by decide, by decide, by decide, arrives (by decide), arrives (by decide), by decide⟩
/-- The kick in two halves (R158). -/
theorem test_kick_half :
    after (exec (.wdgKick (.core 0) 0 0x5A5A) (up.modCore 0 fun k => { k with wdgFrozen := none })) (fun t => (t.core 0).wdgHalf) =
      some true := by decide
/-- MWCLR clears the wait word. -/
theorem test_mwclr :
    after (exec (.icbMwclr (.core 0) .net 1) (withRegs [(icb .net + 5, 0x1234)])) (fun t => t.reg (icb .net + 5)) = some 0#16 := by
  decide

/-! An update: a manifest of MREF 0x11 in bank B, made by the fleet key of KID 1 (sixteen zero bytes), in which device 5
coordinates device 6. Its CMACs are whatever CMAC gives: nothing of AES is evaluated but the length of a round key. -/

theorem lo_of (a b : Byte) : loByte (wordOf a b) = a := by simp [loByte, wordOf]
theorem hi_of (a b : Byte) : hiByte (wordOf a b) = b := by
  apply BitVec.eq_of_getLsbD_eq; intro i hi
  have h : 8 + i < 16 := by omega
  simp [hiByte, wordOf, BitVec.getLsbD_ushiftRight, hi, h]
theorem of_lo_hi (w : Word) : wordOf (loByte w) (hiByte w) = w := by
  apply BitVec.eq_of_getLsbD_eq; intro i hi
  by_cases h : i < 8
  · simp [hiByte, loByte, wordOf, h, hi]
  · have h1 : i - 8 < 8 := by omega
    have h2 : 8 + (i - 8) = i := by omega
    simp [hiByte, loByte, wordOf, h, hi, h1, h2, BitVec.getLsbD_ushiftRight]

/-- The cells of bytes from a byte address on. -/
def cellsFrom : Nat → List Byte → List Host.Cell
  | _, [] => []
  | a, x :: r => (a, x) :: cellsFrom (a + 1) r
theorem get_cellsFrom (d : Nat → Byte) (l : List Byte) (a j : Nat) (h : j < l.length) :
    Sparse.get d (cellsFrom a l) (a + j) = l.getD j 0 := by
  induction l generalizing a j with
  | nil => simp at h
  | cons x r ih =>
    cases j with
    | zero => simp [cellsFrom, Sparse.get]
    | succ j =>
      have := ih (a + 1) j (by simpa using h)
      rw [cellsFrom, Sparse.get, if_neg (by omega), show a + (j + 1) = a + 1 + j by omega, this]; simp
theorem wordsOf_bytesOf (ws : List Word) (l : List Byte) : wordsOf (bytesOf ws ++ l) = ws ++ wordsOf l := by
  induction ws with
  | nil => rfl
  | cons w r ih => simpa [bytesOf, wordsOf, of_lo_hi] using ih
theorem bytesOf_wordsOf (l : List Byte) : l.length % 2 = 0 → bytesOf (wordsOf l) = l := by
  match l with
  | [] => intro _; rfl
  | [_] => intro h; simp at h
  | a :: b :: r => intro h; simpa [wordsOf, bytesOf, lo_of, hi_of] using bytesOf_wordsOf r (by simp at h; omega)
theorem wordsOf_getElem (l : List Byte) (k : Nat) (h : 2 * k + 1 < l.length) :
    (wordsOf l).getD k 0 = wordOf (l.getD (2 * k) 0) (l.getD (2 * k + 1) 0) := by
  match l, k with
  | [], _ => simp at h
  | [_], _ => simp at h
  | a :: b :: r, 0 => rfl
  | a :: b :: r, k + 1 =>
    have := wordsOf_getElem r k (by simp at h; omega)
    simpa [wordsOf, show 2 * (k + 1) = 2 * k + 1 + 1 by omega] using this
/-- Words of a memory that holds just bytes from an address on. -/
theorem memList_cells (s : State) (a k n : Nat) (l : List Byte) (hm : s.mem = cellsFrom (2 * a) l) (hu : s.undef = [])
    (h : 2 * (k + n) ≤ l.length) : s.memList (a + k) n = ((wordsOf l).drop k).take n := by
  have hl : (wordsOf l).length = (l.length + 1) / 2 := by
    clear hm h
    match l with
    | [] => rfl
    | [_] => simp [wordsOf]
    | a :: b :: r => 
      have : ∀ l : List Byte, (wordsOf l).length = (l.length + 1) / 2 := by
        intro l; induction l using wordsOf.induct with
        | case1 => rfl
        | case2 => simp [wordsOf]
        | case3 a b r ih => simp [wordsOf, ih]; omega
      exact this _
  apply List.ext_getElem
  · simp [State.memList, hl]; omega
  · intro j h1 h2
    have hj : j < n := by simpa [State.memList] using h1
    have e := wordsOf_getElem l (k + j) (by omega)
    have b (i : Nat) (hi : i < l.length) : s.byteAt (2 * a + i) = l.getD i 0 := by
      rw [State.byteAt, hm]; exact get_cellsFrom _ l _ i hi
    simp only [State.memList, List.getElem_map, List.getElem_range, List.getElem_take, List.getElem_drop]
    rw [List.getD_eq_getElem?_getD, List.getElem?_eq_getElem (by omega)] at e
    simp only [Option.getD_some] at e
    rw [e]
    simp only [State.memWord, State.undefAt, hu, List.find?_nil, Option.map_none]
    rw [show 2 * (a + k + j) = 2 * a + 2 * (k + j) by omega, b _ (by omega), Nat.add_assoc, b _ (by omega)]

/-- The key. -/
def zeroKey : List Byte := List.replicate 16 0
theorem zeroKey_rounds : (roundKey (expandKey zeroKey) (aesRounds zeroKey)).length = 16 := by decide +kernel
theorem cmac_length (l : List Byte) : (cmac zeroKey l).length = 16 := by
  have h (b : List Byte) : (aesEnc zeroKey b).length = 16 := by simp [aesEnc, bxor, shiftRows, permute, zeroKey_rounds]
  simp only [cmac]; exact h _

/-- Payload: COORD 5, one entry, for device 6. Header: type 6, LEN 24, MREF 0x11, KID 1, SYSID 0x42. -/
def fleetPayload : List Word := [5, 0, 1] ++ List.replicate 13 0 ++ [0x0A06, 0, 0, 1, 0, 0, 0, 0]
def fleetFront : List Word := [0x464C, 0x8600, 0x0016, 0, 0, 24, 0, 0x0011, 0, 0, 1, 0x0042] ++ List.replicate 36 0
def payloadCmac : List Byte := cmac zeroKey (bytesOf fleetPayload)
def headerCmac : List Byte := cmac zeroKey (bytesOf (fleetFront ++ wordsOf payloadCmac))
def fleetBytes : List Byte := bytesOf fleetFront ++ (payloadCmac ++ (headerCmac ++ bytesOf fleetPayload))
/-- The fleet key in slot 0, device 5, UPD_AUTH naming core 0, the manifest in bank B; MEM not yet released, so that no
access waits for its arbiter. -/
def fleetMem : State :=
  { withRegs [(0xA60000, 0x0805), (0xA8200C, 0x0001)] with
    isl := (up.setIsland .mem {}).isl
    sec := { slots := [(0, some ⟨zeroKey, 0, 1, 0⟩)] }
    shadow := [(0x143, 0x0042)]
    mem := cellsFrom (2 * 0x7F0000) fleetBytes }
theorem fleet_length : fleetBytes.length = 176 := by
  have : (bytesOf fleetFront).length = 96 ∧ (bytesOf fleetPayload).length = 48 := by decide
  simp [fleetBytes, payloadCmac, headerCmac, cmac_length, this]
theorem wordsOf_even (p l : List Byte) (h : p.length % 2 = 0) : wordsOf (p ++ l) = wordsOf p ++ wordsOf l := by
  have := wordsOf_bytesOf (wordsOf p) l; rwa [bytesOf_wordsOf p h] at this
theorem fleet_words : wordsOf fleetBytes = fleetFront ++ (wordsOf payloadCmac ++ (wordsOf headerCmac ++ fleetPayload)) := by
  rw [fleetBytes, wordsOf_bytesOf, wordsOf_even payloadCmac _ (by simp [payloadCmac, cmac_length]),
    wordsOf_even headerCmac _ (by simp [headerCmac, cmac_length])]
  have := wordsOf_bytesOf fleetPayload []
  simp only [List.append_nil] at this; rw [this]; simp [wordsOf]
theorem cmac_words (l : List Byte) : (wordsOf (cmac zeroKey l)).length = 8 := by
  have h := cmac_length l
  match cmac zeroKey l, h with
  | [_, _, _, _, _, _, _, _, _, _, _, _, _, _, _, _], _ => rfl
theorem fleet_header : fleetMem.memList 0x7F0000 64 = fleetFront ++ (wordsOf payloadCmac ++ wordsOf headerCmac) := by
  have := memList_cells fleetMem 0x7F0000 0 64 fleetBytes rfl rfl (by simp [fleet_length])
  simp only [Nat.add_zero, List.drop_zero, fleet_words] at this
  rw [this, ← List.append_assoc, ← List.append_assoc, List.take_left' (by simp [fleetFront, payloadCmac, headerCmac, cmac_words]),
    List.append_assoc]
theorem fleet_payload : fleetMem.memList 0x7F0040 24 = fleetPayload := by
  have := memList_cells fleetMem 0x7F0000 64 24 fleetBytes rfl rfl (by simp [fleet_length])
  rw [fleet_words, ← List.append_assoc, ← List.append_assoc,
    List.drop_left' (by simp [fleetFront, payloadCmac, headerCmac, cmac_words])] at this
  rw [this]; rfl
theorem fleet_mac : headerMac fleetMem (fleetMem.memList 0x7F0000 64) = true := by
  rw [fleet_header]
  have h1 : (fleetFront ++ (wordsOf payloadCmac ++ wordsOf headerCmac)).take 0x38 = fleetFront ++ wordsOf payloadCmac := by
    rw [← List.append_assoc, List.take_left' (by simp [fleetFront, payloadCmac, cmac_words])]
  have h2 : ((fleetFront ++ (wordsOf payloadCmac ++ wordsOf headerCmac)).drop 0x38).take 8 = wordsOf headerCmac := by
    rw [← List.append_assoc, List.drop_left' (by simp [fleetFront, payloadCmac, cmac_words]), List.take_of_length_le]
    simp [headerCmac, cmac_words]
  have h3 : bytesOf (wordsOf headerCmac) = headerCmac := bytesOf_wordsOf _ (by simp [headerCmac, cmac_length])
  have h4 (b : List Byte) : bootMac fleetMem b = some (cmac zeroKey b) := rfl
  simp [headerMac, h1, h2, h3, h4]; rfl
theorem fleet_word (k : Nat) (h : k < 24) : fleetMem.memWord (0x7F0040 + k) = fleetPayload.getD k 0 := by
  have := congrArg (fun l => l.getD k 0) fleet_payload
  simpa [State.memList, List.getD_eq_getElem?_getD, List.getElem?_range, h] using this

/-- That device with an update record and its part in AON, at a time. -/
def fleetAt (u : UpdRec) (a : UpdAon := {}) (n : Nat := 0) : State := { fleetMem with upd := u, updAon := a, now := n }
/-- A message of device 6 about that MREF. -/
def fleetMsg (arg : BitVec 4) : UpdMsg := ⟨6, arg, 0x11⟩
theorem fleet_good (u : UpdRec) {a : UpdAon} {n : Nat} : manifestGood (fleetAt u a n) 1 = true := by
  show (!fleetMem.anyDbe 0x7F0000 64 && headerGood fleetMem 6 (fleetMem.memList 0x7F0000 64)) = true
  simp only [headerGood, fleet_mac]; rw [fleet_header]; rfl
theorem fleet_mref (u : UpdRec) {a : UpdAon} {n : Nat} : headerMref ((fleetAt u a n).memList 0x7F0000 64) = 0x11 := by
  show headerMref (fleetMem.memList 0x7F0000 64) = 0x11
  rw [fleet_header]; rfl
/-- Before COMMIT the manifest in force is that of bank B. -/
theorem fleet_bank (u : UpdRec) {a : UpdAon} {n : Nat} (h : u.phase = 1) (hb : u.bank = 0) : manifestBank (fleetAt u a n) = 1 := by
  simp [manifestBank, inTrial, inactiveBank, fleetAt, h, hb]
theorem fleet_coordinates (u : UpdRec) {a : UpdAon} {n : Nat} (h : u.phase = 1) (hb : u.bank = 0) (hm : u.mref = 0x11) : coordinates (fleetAt u a n) = true := by
  have h1 := fleet_mref u (a := a) (n := n)
  have h2 : coordOf (fleetAt u a n) = 5 := by
    simp only [coordOf, manifestWord, fleet_bank u h hb]
    have := fleet_word 0 (by decide)
    show fld (fleetMem.memWord (0x7F0040 + 0)) 0 9 = 5
    rw [this]; rfl
  simp only [coordinates, fleet_bank u h hb, fleet_good, h2]
  show (true && decide (headerMref ((fleetAt u a n).memList 0x7F0000 64) = u.mref) && decide (ownId (fleetAt u a n) = some 5)) = true
  have h3 : ownId (fleetAt u a n) = some 5 := (by decide : ownId (withRegs [(0xA60000, 0x0805)]) = some 5)
  rw [h1, hm, h3]; rfl
theorem fleet_entries (u : UpdRec) {a : UpdAon} {n : Nat} : entries (fleetAt u a n) 1 = [⟨6, 5, 0, 1, 0, 0⟩] := by
  have w (k : Nat) (hk : k < 24) : (fleetAt u a n).memWord (manifestAt 1 + 0x40 + k) = fleetPayload.getD k 0 := fleet_word k hk
  have h1 : (fleetAt u a n).memWord (manifestAt 1 + 0x42) = 1 := w 2 (by decide)
  have w' (k : Nat) (hk : k < 8) : (fleetAt u a n).memWord (manifestAt 1 + 0x40 + 0x10 + 8 * 0 + k) = fleetPayload.getD (16 + k) 0 := by
    have := w (16 + k) (by omega); rw [← this]; congr 1; omega
  simp only [entries, h1]
  show [entryAt (fleetAt u a n) 1 0] = _
  simp only [entryAt, w' 0 (by decide), w' 1 (by decide), w' 2 (by decide), w' 3 (by decide), w' 4 (by decide), w' 5 (by decide),
    w' 6 (by decide), w' 7 (by decide)]; rfl
theorem fleet_devs (u : UpdRec) {a : UpdAon} {n : Nat} (h : u.phase = 1) (hb : u.bank = 0) : 6 ∈ manifestDevs (fleetAt u a n) := by
  simp only [manifestDevs, fleet_bank u h hb, fleet_entries]; simp
theorem fleet_payload_mac (u : UpdRec) {a : UpdAon} {n : Nat} : payloadMac (fleetAt u a n) ((fleetAt u a n).memList (manifestAt 1) 64) (manifestAt 1 + 0x40) = true := by
  show payloadMac fleetMem (fleetMem.memList 0x7F0000 64) 0x7F0040 = true
  have h1 : headerLen (fleetFront ++ (wordsOf payloadCmac ++ wordsOf headerCmac)) = 24 := rfl
  have h2 : ((fleetFront ++ (wordsOf payloadCmac ++ wordsOf headerCmac)).drop 0x30).take 8 = wordsOf payloadCmac := by
    rw [List.drop_left' (by rfl), List.take_left' (by simp [payloadCmac, cmac_words])]
  have h3 : bytesOf (wordsOf payloadCmac) = payloadCmac := bytesOf_wordsOf _ (by simp [payloadCmac, cmac_length])
  have h4 (b : List Byte) : bootMac fleetMem b = some (cmac zeroKey b) := rfl
  simp only [payloadMac, fleet_header, h1, fleet_payload, h2, h3, h4]
  simp [payloadCmac]; rfl

theorem fleet_read (u : UpdRec) {a : UpdAon} {n : Nat} (x m : Nat) : updRead x m (fleetAt u a n) = fleetAt u a n := by
  have h : memBurst .sup 2 ((m + 7) / 8) (fleetAt u a n) = fleetAt u a n := by
    have g (l : List Nat) : l.foldl (fun t _ => memAccess .sup 2 t) (fleetAt u a n) = fleetAt u a n := by
      induction l with
      | nil => rfl
      | cons _ _ ih => exact ih
    exact g _
  have d1 : (fleetAt u a n).dbe = [] := rfl
  have d2 : (fleetAt u a n).undef = [] := rfl
  have d : (fleetAt u a n).anyDbe x m = false := by simp [State.anyDbe, d1, d2]
  simp [updRead, h, d]
theorem fleet_no_part (u : UpdRec) {a : UpdAon} {n : Nat} (hb : u.bank = 0) : ownEntries (fleetAt u a n) = [] := by
  have h1 : ownId (fleetAt u a n) = some 5 := (by decide : ownId (withRegs [(0xA60000, 0x0805)]) = some 5)
  have h2 := fleet_entries u (a := a) (n := n)
  have h3 : inactiveBank (fleetAt u a n) = 1 := by simp [inactiveBank, fleetAt, hb]
  simp only [ownEntries, h1, h3, h2]; rfl

theorem witness_UpdateCommands_start :
    let s := fleetAt { phase := 1, mref := 0x11 }
    Arrives (.core 0) .sup s s ∧ (0xD205#16).toNat / 256 = 0xD2 ∧ s.upd.preparing = false ∧ s.upd.cmd = none ∧
      coreNamed s 0xA8200C (asRequester s (.core 0)) = true ∧ updMustWait 5 s = false ∧
      (0xD205#16).toNat % 16 = 5 ∧ s.upd.phase = 1 ∧ coordinates s = true ∧ s.upd.step = 0 ∧ s.upd.dec = 0 :=
  ⟨⟨rfl, rfl, rfl, rfl⟩, by decide, rfl, rfl, rfl, rfl, by decide, rfl, fleet_coordinates _ rfl rfl rfl, rfl, rfl⟩
theorem witness_UpdateCommands_prepare :
    let s := fleetAt {}
    Arrives (.core 0) .sup s s ∧ coreNamed s 0xA8200C (asRequester s (.core 0)) = true ∧ updMustWait 4 s = false ∧
      (0xD204#16).toNat % 16 = 4 ∧ s.upd.phase = 0 ∧
      let u := readParts (updRead (manifestAt (inactiveBank s)) 64 s)
      let b := inactiveBank u
      manifestGood u b = true ∧ payloadMac u (u.memList (manifestAt b) 64) (manifestAt b + 0x40) = true ∧
      (ownEntries u).all (partGood u (headerMref (u.memList (manifestAt b) 64))) = true := by
  have h : readParts (updRead (manifestAt (inactiveBank (fleetAt {}))) 64 (fleetAt {})) = fleetAt {} := by
    rw [fleet_read]; simp [readParts, fleet_no_part {} rfl]
  refine ⟨⟨rfl, rfl, rfl, rfl⟩, rfl, rfl, by decide, rfl, ?_⟩
  simp only [h, fleet_no_part {} rfl]
  exact ⟨fleet_good _, fleet_payload_mac _, rfl⟩
/-- A flash operation runs: PREPARE waits. -/
theorem witness_UpdateCommands_waits :
    let s := { withRegs [(0xA8200C, 0x0001)] with flashOp := some ⟨2, 0, 0, []⟩ }
    Arrives (.core 0) .sup s s ∧ coreNamed s 0xA8200C (asRequester s (.core 0)) = true ∧ updMustWait ((0xD204#16).toNat % 16) s = true ∧
      s.upd.preparing = false ∧ s.upd.cmd = none :=
  ⟨arrives (by decide), by decide, by decide, by decide, by decide⟩
/-- The header staged in shared SRAM for the manifest's place. -/
def opening : State :=
  { withRegs [(0xA60000, 0x0805), (0xA8200C, 0x0001), (0xA82003, 0x0000), (0xA82004, 0x0080), (0xA82005, 0x0000), (0xA82006, 0x003F)] with
    sec := { slots := [(0, some ⟨zeroKey, 0, 1, 0⟩)] }
    shadow := [(0x143, 0x0042)]
    mem := cellsFrom (2 * 0x800000) fleetBytes }
theorem opening_header : opening.memList 0x800000 64 = fleetFront ++ (wordsOf payloadCmac ++ wordsOf headerCmac) := by
  have := memList_cells opening 0x800000 0 64 fleetBytes rfl rfl (by simp [fleet_length])
  simp only [Nat.add_zero, List.drop_zero, fleet_words] at this
  rw [this, ← List.append_assoc, ← List.append_assoc, List.take_left' (by simp [fleetFront, payloadCmac, headerCmac, cmac_words]),
    List.append_assoc]
theorem witness_UpdateCommands_open :
    Arrives (.core 0) .sup opening opening ∧ coreNamed opening 0xA8200C (asRequester opening (.core 0)) = true ∧
      updMustWait 1 opening = false ∧ (0xD201#16).toNat % 16 = 1 ∧ openCheck opening = 0 := by
  refine ⟨⟨rfl, rfl, rfl, rfl⟩, rfl, rfl, by decide, ?_⟩
  have h := fleet_mac
  rw [fleet_header] at h
  have a : updHaddr opening = 0x800000 := by decide
  have b : updOffs opening = 0x3F0000 := by decide
  have m : headerMac opening (fleetFront ++ (wordsOf payloadCmac ++ wordsOf headerCmac)) = true := h
  have f : headerForm (fleetFront ++ (wordsOf payloadCmac ++ wordsOf headerCmac)) = true := rfl
  have i : (fleetFront ++ (wordsOf payloadCmac ++ wordsOf headerCmac)).getD 0x0B 0 = sysId opening := rfl
  have k : headerKid opening (fleetFront ++ (wordsOf payloadCmac ++ wordsOf headerCmac)) = true := rfl
  have l : headerLenOk (fleetFront ++ (wordsOf payloadCmac ++ wordsOf headerCmac)) = true := rfl
  have t : headerType (fleetFront ++ (wordsOf payloadCmac ++ wordsOf headerCmac)) = 6 := rfl
  simp only [openCheck, a, b, opening_header, m, f, i, k, l, t]; rfl
theorem witness_UpdateCommands_close :
    let p : PartRec := ⟨0x3F0000, fleetFront ++ (wordsOf payloadCmac ++ wordsOf headerCmac), 24, fleetPayload⟩
    let s := { opening with mem := [], upd := { part := some p } }
    Arrives (.core 0) .sup s s ∧ updMustWait 2 s = false ∧ (0xD202#16).toNat % 16 = 2 ∧ s.upd.part = some p ∧ p.fill = headerLen p.header ∧
      bootMac s (bytesOf p.body) = some (bytesOf ((p.header.drop 0x30).take 8)) ∧
      (s.memList (bankBase (inactiveBank s) + p.off) 64).all (· = 0xFFFF#16) = true := by
  refine ⟨⟨rfl, rfl, rfl, rfl⟩, rfl, by decide, rfl, rfl, ?_, (by decide +kernel : (({} : State).memList 0x7F0000 64).all (· = 0xFFFF#16) = true)⟩
  have h2 : ((fleetFront ++ (wordsOf payloadCmac ++ wordsOf headerCmac)).drop 0x30).take 8 = wordsOf payloadCmac := by
    rw [List.drop_left' (by rfl), List.take_left' (by simp [payloadCmac, cmac_words])]
  have h3 : bytesOf (wordsOf payloadCmac) = payloadCmac := bytesOf_wordsOf _ (by simp [payloadCmac, cmac_length])
  show some (cmac zeroKey (bytesOf fleetPayload)) = some (bytesOf ((_ : List Word)))
  rw [h2, h3]; rfl
theorem witness_UpdateCommands_rest :
    let s := { withRegs [(0xA8200C, 0x0001)] with upd := { phase := 2 } }
    Arrives (.core 0) .sup s s ∧ coreNamed s 0xA8200C (asRequester s (.core 0)) = true ∧ updMustWait 6 s = false ∧ (0xD206#16).toNat % 16 = 6 ∧ s.upd.phase = 2 ∧
      (0xD203#16).toNat % 16 = 3 ∧ coreNamed up 0xA8200C (asRequester up (.core 0)) = false ∧ Arrives (.core 0) .sup up up :=
  ⟨arrives (by decide), rfl, rfl, by decide, rfl, by decide, by decide, arrives (by decide)⟩

/-- A WAKE_EN that names a cause of both modes, no channel on: nothing refuses; without one, Park is refused. -/
theorem witness_PowerControlCommands_park :
    let s := withRegs [(0xA70103, 0x0040)]
    Arrives (.core 0) .aon s s ∧ s.mode = .run ∧ ((0xA501#16).toNat / 256 = 0xA5 ∧ (0xA501#16).toNat % 4 = 1) ∧
      ((0xA502#16).toNat / 256 = 0xA5 ∧ (0xA502#16).toNat % 4 = 2) ∧ parkRefusal s false = none ∧ parkRefusal s true = none :=
  ⟨arrives (by decide), by decide, by decide, by decide, by decide +kernel, by decide +kernel⟩
theorem witness_PowerControlCommands_refused :
    Arrives (.core 0) .aon up up ∧ parkRefusal up false = some 0x0003#16 ∧ parkRefusal up true = some 0x0003#16 :=
  ⟨arrives (by decide), by decide +kernel, by decide +kernel⟩
theorem witness_PowerControlCommands_rtc :
    let s := withRegs [(0xA70116, 0xFFFF), (0xA70115, 0xFFFF)]
    Arrives (.core 0) .aon s s ∧ (0x0001#16).getLsbD 0 = true ∧
      (s.reg 0xA70116).toNat * 65536 + (s.reg 0xA70115).toNat ≠ hiLo (s.reg 0xA70114) (s.reg 0xA70113) :=
  ⟨arrives (by decide), by decide, by decide⟩
/-- WAKE_CAUSE: bits written 1 clear; the first's record goes with the last (R91). -/
theorem test_wake_clear :
    after (exec (.wakeCauseClear (.core 0) 0x0001) (withRegs [(0xA70104, 0x0003)])) (fun t => t.reg 0xA70104) = some 0x0002#16 := by decide

/-- A channel whose owner field names core 0, at the last index of each island's count, and one it does not name. -/
theorem witness_ChannelPortCommands :
    let s := withRegs [(OutIsl.sw.oib + 0x10 + 18, 0x0008)]
    let z := withRegs [(OutIsl.sw.oib + 0x10 + 18, 0x8777)]
    ChanRef.ok ⟨.sw, 75⟩ = true ∧ Arrives (.core 0) .sw s s ∧ ownerOk (withRegs [(OutIsl.sw.oib + 0x10 + 18, 0x0000)]) ⟨.sw, 75⟩ (.core 0) = true ∧
      64 ≤ (⟨.sw, 75⟩ : ChanRef).idx ∧ (11 : Fin 15).val < 12 ∧ ownerOk z ⟨.sw, 72⟩ (.core 0) = false ∧ Arrives (.core 0) .sw z z :=
  ⟨by decide, arrives (by decide), by decide, by decide, by decide, by decide, arrives (by decide)⟩

theorem witness_OutputIslandCommands_profile :
    let bad := withRegs [(OutIsl.sw.oib, 0xFC01), (OutIsl.sw.oib + 1, 0x0087)]
    let good := withRegs [(OutIsl.sw.oib, 0xFC00), (OutIsl.sw.oib + 1, 0x0087)]
    Arrives (.core 0) OutIsl.sw.island bad bad ∧ (0x0001#16).getLsbD 0 = true ∧ bad.regBit (OutIsl.sw.oib + 3) 1 = false ∧
      0x880000 < profBase bad .sw + 1024 ∧ Arrives (.core 0) OutIsl.sw.island good good ∧ good.regBit (OutIsl.sw.oib + 3) 1 = false ∧
      0x800000 ≤ profBase good .sw ∧ profBase good .sw + 1024 ≤ 0x880000 :=
  ⟨arrives (by decide), by decide, by decide, by decide, arrives (by decide), by decide, by decide, by decide⟩
theorem witness_OutputIslandCommands_clear :
    let s := (withRegs [(OutIsl.sw.oib + 8, 0x0001)]).setChan ⟨.sw, 75⟩ { reason := 2 }
    Arrives (.core 0) OutIsl.sw.island s s ∧ asRequester s (.core 0) = .core 0 ∧ (0x3C4B#16).toNat % 128 = 75 ∧ (0x3C4B#16).toNat / 256 = 0x3C ∧
      s.regBit (OutIsl.sw.oib + 8) 0 = true ∧ (s.chan ⟨.sw, 75⟩).reason ≠ 0 ∧ up.regBit (OutIsl.sw.oib + 8) 0 = false ∧
      Arrives (.core 0) OutIsl.sw.island up up :=
  ⟨arrives (by decide), by decide, by decide, by decide, by decide, by decide, by decide, arrives (by decide)⟩
theorem witness_OutputIslandCommands_bank :
    let s := withRegs [(0xA1F008, 0x0001)]
    Arrives (.core 0) .act s s ∧ asRequester s (.core 0) = .core 0 ∧ (0x690F#16).toNat / 256 = 0x69 ∧ s.regBit 0xA1F008 0 = true ∧
      (0x680F#16).toNat / 256 ≠ 0x69 ∧ Arrives (.core 0) .sup s s := ⟨arrives (by decide), by decide, by decide, by decide, by decide, arrives (by decide)⟩
theorem witness_OutputIslandCommands_lux :
    let s := withRegs [(0xA2F008, 0xFB80), (0xA2F009, 0x0087)]
    Arrives (.core 0) .lux s s ∧ s.lux.load = none ∧ inSram (fbLoad s) 1152 = true ∧ inSram (fbLoad up) 1152 = false ∧ Arrives (.core 0) .lux up up ∧
      decide (1152 ≤ (1151 : Fin 2304).val) = s.lux.front ∧ decide (1152 ≤ (1152 : Fin 2304).val) ≠ s.lux.front ∧ s.lux.calBusy = false :=
  ⟨arrives (by decide), by decide, by decide, by decide, arrives (by decide), by decide, by decide, by decide⟩
theorem witness_OutputIslandCommands_lux_owner :
    ownerAllows ((withRegs [(0xA2F00A, 0x0000)]).regFld 0xA2F00A 0 4) (.core 0) = true := by decide

theorem witness_NetworkCommands_can :
    let s := withRegs [(canBase 7 + 6, 0x0002)]
    let w := { up with net := { up.net with wake := [(7, some ⟨false, false, false, false, 0, 0, []⟩)] } }
    Arrives (.core 0) .net s s ∧ s.net.wake.get (fun _ => none) 7 = none ∧ Arrives (.core 0) .net w w ∧
      (w.net.wake.get (fun _ => none) 7).isSome = true ∧ (0x0001#16).getLsbD 0 = true ∧ s.regFld (canBase 7 + 6) 0 2 = 2 ∧
      (7 : Fin 8).val ∉ s.net.recov := ⟨arrives (by decide), by decide, arrives (by decide), by decide, by decide, by decide, by decide⟩
theorem witness_NetworkCommands_lin :
    let s := withRegs [(linBase 11, 0x0003)]
    Arrives (.core 0) .net s s ∧ s.regFld (linBase 11) 0 2 = 3 ∧ s.regBit (linBase 11 + 3) 0 = false ∧
      linWaking s 11 = false := ⟨arrives (by decide), by decide, by decide, by decide⟩
theorem witness_NetworkCommands_ethernet :
    let s := withRegs [(ethBase 1, 0x0009), (ethBase 1 + 7, 0x0003)]
    let z := withRegs [(ethBase 1, 0x0009), (ethBase 1 + 7, 0x0006)]
    Arrives (.core 0) .net s s ∧ onBus s (8 + 1) = true ∧ s.regBit (ethBase 1) 3 = true ∧ fld (ethStat s 1) 1 3 = 1 ∧
      onBus z (8 + 1) = true ∧ z.regBit (ethBase 1) 3 = true ∧ fld (ethStat z 1) 1 3 = 3 :=
  ⟨arrives (by decide), by decide, by decide, by decide, by decide, by decide, by decide⟩
theorem witness_NetworkCommands_gateway :
    Arrives (.core 0) .net up up ∧ (List.range 256).find? (routeBad up) = none ∧ (0x0000#16 &&& ~~~ up.reg 0xA30805 &&& 0x3FFF#16 = 0) ∧
      ((0x0001#16).getLsbD 0 = true ∧ (0x0001#16).getLsbD 1 = false) ∧ ((0x0002#16).getLsbD 1 = true ∧ (0x0002#16).getLsbD 0 = false) ∧
      up.regBit 0xA30808 2 = false ∧ up.regBit 0xA30808 3 = false ∧ up.regBit 0xA30002 0 = false ∧ wakeBusy up = false :=
  ⟨arrives (by decide), by decide +kernel, by decide, by decide, by decide, by decide, by decide, by decide, by decide⟩
theorem witness_NetworkCommands_ring :
    let q := { withRegs [(0xA30049, 0x0003)] with net := { up.net with ring := { up.net.ring with quietFrom := some 0 } } }
    trState up = 0 ∧ trState (withRegs [(0xA30049, 0x0006)]) = 6 ∧ inQuiet q 198000 = true ∧ Arrives (.core 0) .net q q ∧
      trState (withRegs [(0xA30049, 0x0002)]) = 2 ∧ inQuiet { q with now := 198001 } 198000 = false :=
  ⟨by decide, by decide, by decide, arrives (by decide), by decide, by decide⟩
/-- The protected identifier of LIN 2.2A's own example of Table 12.4's parity: ID 0 has P0 0 and P1 1. -/
theorem test_lin_pid : linPid 0 = 0x80#8 := by decide

theorem witness_SecurityCommands_session :
    Arrives (.core 0) .sec up up ∧ up.sec.session = none ∧ up.sec.enr = none ∧ (0x0001#16).toNat % 4 = 1 ∧ (0x0002#16).toNat % 4 = 2 ∧
      (0x0003#16).toNat % 4 = 3 ∧ up.sec.trnFail = false ∧ up.band ≠ .over ∧ (startSession false 0x0001 up).sec.session.isSome = true ∧
      (up.sec.spi.get (fun _ => []) 1).length < 16 :=
  ⟨arrives (by decide), by decide, by decide, by decide, by decide, by decide, by decide, by decide, by decide +kernel, by decide⟩
theorem witness_SecurityCommands_enrolment :
    let s := withRegs [(0xA41003, 0x0001), (0xA41012, 0x8000)]
    Arrives (.core 0) .sec s s ∧ (0xE700#16).toNat / 256 = 0xE7 ∧ (0xE700#16).getLsbD 5 = false ∧ (0xE73F#16).getLsbD 5 = true ∧
      coreNamed s 0xA41003 (asRequester s (.core 0)) = true ∧ enrolled s ((0xE73F#16).toNat % 32) = true ∧ s.sec.enrHeld = none ∧
      s.sec.enr = none ∧ ({ s.sec with session := some { addressed := false, slot := 0, mask := 0, phase := 1, chal := [] } } : SecRec).session.isSome = true :=
  ⟨arrives (by decide), by decide, by decide, by decide, by decide, by decide, by decide, by decide, by decide⟩
theorem witness_SecurityCommands_immobiliser :
    let s := { withRegs [(0xA41003, 0x0001), (0xA41040, 0x0001)] with cntSet := true, sec := { slots := [(1, some ⟨[], 4, 0, 0⟩)] } }
    Arrives (.core 0) .sec s s ∧ (0x9602#16).toNat / 256 = 0x96 ∧ (0x9602#16).toNat % 4 = 2 ∧ s.slot (s.regFld 0xA41040 0 6) = some ⟨[], 4, 0, 0⟩ ∧
      immoRefusal s (asRequester s (.core 0)) false = 0 ∧ (0x9603#16).toNat % 4 = 3 ∧ up.cntSet = false :=
  ⟨arrives (by decide), by decide, by decide, by decide, by decide, by decide, by decide⟩
theorem witness_SecurityCommands_keys :
    let s := withRegs [(0xA42000, 0x0000)]
    Arrives (.core 0) .sec s s ∧ (0x4B05#16).toNat / 256 = 0x4B ∧ s.sec.ks = none ∧ (0x4B05#16).toNat % 8 = 5 ∧
      jobOwner s 3 (asRequester s (.core 0)) = true ∧ (s.job 3).busy = false ∧ ({ s.sec with trnReady := true } : SecRec).trnReady = true :=
  ⟨arrives (by decide), by decide, by decide, by decide, by decide, by decide, by decide⟩

theorem witness_RemoteResetAuthority :
    let s := withRegs [(0xA60007, 0x0001), (0xA6000D, 0x0006), (0xA60000, 0x0805)]
    Arrives (.core 0) .lnk s s ∧ (0x5A01#16).toNat / 256 = 0x5A ∧ coreNamed s 0xA60007 (asRequester s (.core 0)) = true ∧
      ownId s ≠ some (s.regFld 0xA6000D 0 9) ∧ (0x5A01#16).getLsbD 0 = true ∧ coreNamed up 0xA60007 (asRequester up (.core 0)) = false ∧
      Arrives (.core 0) .lnk up up := ⟨arrives (by decide), by decide, by decide, by decide, by decide, by decide, arrives (by decide)⟩
theorem witness_LinkAndFlashCommands_link :
    let s := withRegs [(0xA60000, 0x0805), (0xA60080, 0x0005), (0xA60078, 0x0005)]
    Arrives (.core 0) .lnk s s ∧ s.regBit 0xA6008B 0 = false ∧ reachable s (s.regFld 0xA60080 0 9) = true ∧ s.regBit 0xA6007A 0 = false ∧
      s.regBit 0xA60078 12 = false ∧ reachable s (s.regFld 0xA60078 0 9) = true ∧ reachable up 5 = false ∧ Arrives (.core 0) .lnk up up :=
  ⟨arrives (by decide), by decide, by decide, by decide, by decide, by decide, by decide, arrives (by decide)⟩
/-- An erase of the settings area's first sector below 0xF300 of the free generation, by a named core, and by one that is not. -/
theorem witness_LinkAndFlashCommands_flash :
    let s := withRegs [(0xA90007, 0x0001), (0xA90000, 0x0000), (0xA90001, 0x0091)]
    Arrives (.core 0) .mem s s ∧ (0xF102#16).toNat / 256 = 0xF1 ∧ s.flashOp = none ∧ (0xF102#16).toNat % 8 = 2 ∧
      flashCheck (asRequester s (.core 0)) 2 s = 0 ∧ flashCheck (asRequester up (.core 0)) 2 up = 1 ∧ Arrives (.core 0) .mem up up :=
  ⟨arrives (by decide), by decide, by decide, by decide, by decide +kernel, by decide +kernel, arrives (by decide)⟩

/-! Events. -/

theorem witness_SupplyAndTestAccessEvents :
    (up.mode ≠ .park ∧ up.mode ≠ .deepPark) ∧ ({ up with mode := .park } : State).mode = .park ∧ up.band ≠ .off ∧
      (Band.full ≠ .off ∧ Band.full ≠ .undervoltage ∧ Band.full ≠ .hold) ∧ up.band ≠ .undervoltage ∧
      (up.straps = none ∧ ({ up with strapLast := some 0x1FF } : State).strapLast = some 0x1FF ∧ up.strapLast ≠ some 0x1FF) ∧
      tapHeld { up with resetNLow := false } = false := by decide
theorem witness_SupplyAndTestAccessEvents_tap :
    tapHeld { up with resetNLow := false } = false ∧ (0xFF#8).toNat ∉ [0x00, 0x01, 0x03, 0x04] ∧ (0x02#8).toNat ∉ [0x00, 0x01, 0x03, 0x04] := by decide
theorem witness_SupplyAndTestAccessEvents_flash :
    State.reset.flashOp = none ∧ State.reset.upd.preparing = false ∧ State.reset.otpBusy = none := by decide
/-- Two equal samples latch the straps (R67). -/
theorem test_straps :
    after (exec (.strapSample 0x0A5) { up with strapLast := some 0x0A5 }) (·.straps) = some (some 0x0A5) := by decide

/-- AON releasable at power-on, a core island once bring-up has loaded its options, before and after take-over; a gate with
no, one and two transfers; the one request at MEM. -/
theorem witness_ClockGateAndMemoryEvents :
    ((up.island .net).st ≠ .clockLost ∧ monitored up .net = true) ∧ releasable .aon State.reset = true ∧
      (let s := { (up.setIsland .cpa {}) with bring := { up.bring with loaded := true } }
       releasable .cpa s = true ∧ s.bring.taken = false ∧ releasable .cpa { s with bring := { s.bring with taken := true } } = true) ∧
      (Island.cpa ≠ .sup ∧ up.running .sup = true ∧ (up.gate Island.cpa.num Island.sup.num).fenced = false ∧
        (up.gate Island.cpa.num Island.sup.num).q.length + (up.gate Island.cpa.num Island.sup.num).src.length ≤ 1) ∧
      (let s := up.setGate Island.cpa.num Island.sup.num { q := [⟨.core 0, 0xA80000, 1⟩, ⟨.core 0, 0xA80000, 2⟩] }
       (s.gate Island.cpa.num Island.sup.num).fenced = false ∧
         2 ≤ (s.gate Island.cpa.num Island.sup.num).q.length + (s.gate Island.cpa.num Island.sup.num).src.length) ∧
      up.running .mem = true ∧
      memNext { up with memq := [{ isl := .cpa, k := 0, stamp := 0, issued := 0, put := some (0x800000, 1) }] } =
        some { isl := .cpa, k := 0, stamp := 0, issued := 0, put := some (0x800000, 1) } := by decide +kernel
/-- The greater age is served first (R43). -/
theorem test_memory_order :
    (memNext { up with memTick := 20, memq := [{ isl := .cpa, k := 0, stamp := 15, issued := 15 },
      { isl := .cpb, k := 4, stamp := 10, issued := 10 }] }).map (·.k) = some 4 := by decide +kernel

theorem witness_ResetAndBringUpEvents_resets :
    let s := { up with resetNLow := false, now := 5, holdStart := some 0 }
    (s.resetNLow = false ∧ s.resetNFree + 5 ≤ s.now ∧ s.band ≠ .off) ∧ s.holdStart.isSome = true ∧
      (((cpu []).core ((cpu []).lead 0)).st = .running) ∧ s.running .sup = true ∧ s.running OutIsl.fld.island = true := by decide
theorem witness_ResetAndBringUpEvents_loading :
    let s := { up with bring := { up.bring with loading := true } }
    let r := { up with now := 100, bring := { up.bring with retry := true, failAt := 0 } }
    (s.bring.loading = true ∧ s.bring.halted = false ∧ s.running .sup = true) ∧ (r.bring.retry = true ∧ r.bring.halted = false ∧ r.bring.failAt + 100 ≤ r.now) ∧
      ({ up with bring := { up.bring with filling := true } } : State).bring.filling = true ∧ up.running .mem = true ∧ up.bring.taken = false := by decide
/-- A payload header of type 1 in the active bank and its payload of 24 words, under the fleet key. -/
def bootFront : List Word := [0x464C, 0x8600, 0x0011, 0, 0, 24, 0, 0x0011, 0, 0, 1, 0x0042] ++ List.replicate 36 0
def bootCmac : List Byte := cmac zeroKey (bytesOf (bootFront ++ wordsOf payloadCmac))
def bootBytes : List Byte := bytesOf bootFront ++ (payloadCmac ++ (bootCmac ++ bytesOf fleetPayload))
def booted : State :=
  { up with sec := { slots := [(0, some ⟨zeroKey, 0, 1, 0⟩)] }, shadow := [(0x143, 0x0042)], mem := cellsFrom (2 * 0) bootBytes,
            bring := { up.bring with verifying := true } }
theorem boot_words : wordsOf bootBytes = bootFront ++ (wordsOf payloadCmac ++ (wordsOf bootCmac ++ fleetPayload)) := by
  rw [bootBytes, wordsOf_bytesOf, wordsOf_even payloadCmac _ (by simp [payloadCmac, cmac_length]),
    wordsOf_even bootCmac _ (by simp [bootCmac, cmac_length])]
  have := wordsOf_bytesOf fleetPayload []
  simp only [List.append_nil] at this; rw [this]; simp [wordsOf]
theorem boot_length : bootBytes.length = 176 := by
  have : (bytesOf bootFront).length = 96 ∧ (bytesOf fleetPayload).length = 48 := by decide
  simp [bootBytes, payloadCmac, bootCmac, cmac_length, this]
theorem witness_ResetAndBringUpEvents_verified :
    booted.bring.verifying = true ∧ booted.running .sec = true ∧ booted.bring.taken = false ∧ payloadOk booted (bankInCheck booted) = true := by
  refine ⟨rfl, rfl, rfl, ?_⟩
  have h : booted.memList 0 64 = bootFront ++ (wordsOf payloadCmac ++ wordsOf bootCmac) := by
    have := memList_cells booted 0 0 64 bootBytes rfl rfl (by simp [boot_length])
    simp only [Nat.add_zero, List.drop_zero, boot_words] at this
    rw [this, ← List.append_assoc, ← List.append_assoc, List.take_left' (by simp [bootFront, payloadCmac, bootCmac, cmac_words]),
      List.append_assoc]
  have p : booted.memList 64 24 = fleetPayload := by
    have := memList_cells booted 0 64 24 bootBytes rfl rfl (by simp [boot_length])
    simp only [Nat.zero_add] at this
    rw [boot_words, ← List.append_assoc, ← List.append_assoc,
      List.drop_left' (by simp [bootFront, payloadCmac, bootCmac, cmac_words])] at this
    rw [this]; rfl
  have h1 : (bootFront ++ (wordsOf payloadCmac ++ wordsOf bootCmac)).take 0x38 = bootFront ++ wordsOf payloadCmac := by
    rw [← List.append_assoc, List.take_left' (by simp [bootFront, payloadCmac, cmac_words])]
  have h2 : ((bootFront ++ (wordsOf payloadCmac ++ wordsOf bootCmac)).drop 0x38).take 8 = wordsOf bootCmac := by
    rw [← List.append_assoc, List.drop_left' (by simp [bootFront, payloadCmac, cmac_words]), List.take_of_length_le]
    simp [bootCmac, cmac_words]
  have h3 : bytesOf (wordsOf bootCmac) = bootCmac := bytesOf_wordsOf _ (by simp [bootCmac, cmac_length])
  have h4 (b : List Byte) : bootMac booted b = some (cmac zeroKey b) := rfl
  have h5 : headerLen (bootFront ++ (wordsOf payloadCmac ++ wordsOf bootCmac)) = 24 := rfl
  have h6 : ((bootFront ++ (wordsOf payloadCmac ++ wordsOf bootCmac)).drop 0x30).take 8 = wordsOf payloadCmac := by
    rw [List.drop_left' (by rfl), List.take_left' (by simp [payloadCmac, cmac_words])]
  have h7 : bytesOf (wordsOf payloadCmac) = payloadCmac := bytesOf_wordsOf _ (by simp [payloadCmac, cmac_length])
  have m : headerMac booted (booted.memList 0 64) = true := by
    rw [h]; simp [headerMac, h1, h2, h3, h4]; rfl
  have q : payloadMac booted (booted.memList 0 64) 64 = true := by
    simp only [payloadMac, h, h5, p, h6, h7, h4]; simp [payloadCmac]; rfl
  show (!booted.anyDbe 0 64 && headerGood booted 1 (booted.memList 0 64) && payloadMac booted (booted.memList 0 64) 64) = true
  simp only [headerGood, m, q]; rw [h]; rfl
theorem witness_ResetAndBringUpEvents_marionette :
    let s := withRegs [(0xA80005, 0x0200)]
    (s.regBit 0xA80005 9 = true) ∧
      (up.running .sup = true ∧ up.running .mem = true ∧ up.bring.taken = false ∧ up.regBit 0xA80005 9 = false ∧ up.regBit 0xA80005 10 = false ∧
        settingsBusy up (activeGen up) = false) ∧
      let m (a : Word) : State := { up with marTable := [[0, 0, a, 0, 0, 0, 0, 0]], mar := [(0, { active := true, on := true })] }
      ((m 2).marAt 0).active = true ∧ fld (((m 2).marTable.getD 0 []).getD 2 0) 0 4 = 2 ∧ ((m 3).marAt 0).active = true ∧
        ((m 3).marAt 0).on = true ∧ fld (((m 3).marTable.getD 0 []).getD 2 0) 0 4 = 3 := by decide

theorem witness_ParkingAndSensorEvents :
    (up.running .aon = true ∧ up.regBit 0xA30808 2 = false ∧ up.regBit 0xA30808 3 = false) ∧
      (({ up with mode := .deepPark } : State).mode = .deepPark ∧ up.band ≠ .off ∧ ({ up with parkLow := true } : State).parkLow = true) ∧
      (up.rtcFrac + 1 < 32768) ∧ (32768 ≤ ({ up with rtcFrac := 32767 } : State).rtcFrac + 1) ∧
      ((up.rtcSec + 1) % 2 ^ 32 ≠ up.rtcSec) ∧
      (((withRegs [(0xA70113, 0x0001)]).rtcSec + 1) % 2 ^ 32 = hiLo ((withRegs [(0xA70113, 0x0001)]).reg 0xA70114) ((withRegs [(0xA70113, 0x0001)]).reg 0xA70113)) ∧
      ((up.rtcSec + 1) % 2 ^ 32 ≠ hiLo (up.reg 0xA70114) (up.reg 0xA70113)) ∧ up.mode = .run ∧
      ({ up with vsen := [(3, .shorted .toBattery)] } : State).vsen.get (fun _ => .normal) 3 = .shorted .toBattery ∧
      ({ up with vsen := [(3, .shorted .toGround)] } : State).vsen.get (fun _ => .normal) 3 = .shorted .toGround ∧
      up.vsen.get (fun _ => .normal) 3 = .normal ∧
      ({ up with now := 10000, vsen := [(3, .restarting 0)] } : State).vsen.get (fun _ => .normal) 3 = .restarting 0 := by decide
/-- The supply words of Table 3.9 stand as measured. -/
theorem test_supply_words :
    after (exec (.supplyMeasureUpdate 1 2 3 4 5) up) (fun t => t.regList 0xA70106 5) = some [1, 2, 3, 4, 5] := by decide

/-- A lockstep pair in CPA; the same with a record being written while MEM is in reset. -/
def pairUp : State := up.setCore 0 { st := .running }
def pairBusy : State := (pairUp.setIsland .mem {}).modCore 0 fun k => { k with ckBusy := true }
theorem witness_LockstepTimerAndWatchdogEvents :
    (pairRuns pairUp 0 = true ∧ (pairUp.core 0).rolling = false ∧ (pairUp.core 0).taking = none) ∧
      atBoundary ((pairUp.modCore 0 fun k => { k with ckDue := true }).core 0) = true ∧
      atBoundary (((pairUp.modCore 0 fun k => { k with partway := true }).modCore 0 fun k => { k with ckDue := true }).core 0) = false ∧
      (let b := pairUp.modCore 0 fun k => { k with rolling := true }
       pairRuns b 0 = true ∧ (b.core 0).rolling = true) ∧
      (3 < 4 ∧ ((pairUp.modCore 0 fun k => { k with taking := some 3 }).core 0).taking = some 3) := by decide +kernel
theorem witness_LockstepTimerAndWatchdogEvents_record :
    ((pairBusy.core 0).ckBusy = true ∧
      (let u := finishRecord 0 pairBusy
       pairRuns u 0 = true ∧ (u.core 0).rolling = false ∧ (u.core 0).taking = none ∧ (u.core 0).excLine = none)) ∧
    (let s := pairBusy.modCore 0 fun k => { k with excLine := some 3 }
     let u := finishRecord 0 s
     (s.core 0).ckBusy = true ∧ pairRuns u 0 = true ∧ (u.core 0).rolling = false ∧ (u.core 0).taking = none ∧ (u.core 0).excLine.isSome = true) ∧
    (let s := pairBusy.modCore 0 fun k => { k with rolling := true }
     (s.core 0).ckBusy = true ∧ ((finishRecord 0 s).core 0).rolling = true) := by decide +kernel
theorem witness_LockstepTimerAndWatchdogEvents_timers :
    let s := pairUp.modCore 0 fun k => { k with tmr1 := some 0, wdgFrozen := none }
    let a := (s.setReg (coreBlock 0 + 0x1C) 0x0002).setReg (coreBlock 0 + 0x1E) 0x0001
    ((s.core (s.lead 0)).tmr1).isSome = true ∧ s.regBit (coreBlock (s.lead 0) + 0x1C) 1 = false ∧
      (a.regBit (coreBlock (a.lead 0) + 0x1C) 1 = true ∧ a.regN (coreBlock (a.lead 0) + 0x1D + 1) ≠ 0) ∧
      wdgCounts s (s.lead 0) = true ∧ (s.core (s.lead 0)).wdgWarned = false := by decide

/-! Channels. -/

/-- The first half-bridge of SW, conducting at PWM duty under a profile with a stall current, regulation and a ΔT limit. -/
def hb : ChanRef := ⟨.sw, 64⟩
def hbChan : Chan :=
  { on := true, act := [3, 0, 0x4000, 0, 0, 0, 0, 0, 0, 0, 0, 0, 0, 0, 100], duty := some 0x2000
    prof := [0, 0, 0, 0, 0, 0, 0, 1, 0, 0, 100, 0, 1, 60, 1, 0] }
def hbUp : State := up.setChan hb hbChan

def rec0 : RetRec := ⟨0, false, 0, 1, 0⟩
theorem witness_ChannelLifecycleAndProtection_port :
    hb.ok = true ∧
    (let s := up.setChan hb { pend := some ([1], 0, .core 0) }
     (s.chan hb).pend = some ([1], 0, .core 0) ∧ hb.isl ≠ .lux ∧ (s.chan hb).carries = none ∧ isBoundary s hb = true ∧
       isBoundary { s with now := 1 } hb = false) ∧
    ((⟨.lux, 107⟩ : ChanRef).ok = true ∧ (⟨.lux, 107⟩ : ChanRef).isl = .lux) ∧
    (up.running OutIsl.fld.island = true ∧ (up.out .fld).copy = none) ∧
    (let s := up.setOut .fld { copy := some (0x800000, []), copyBad := true, queue := [rec0] }
     (s.out .fld).copy = some (0x800000, []) ∧ (s.out .fld).copyBad = true ∧ (s.out .fld).queue = rec0 :: [] ∧ (s.out .fld).half = none ∧
       (s.out .fld).compDue = false ∧ settingsBusyIn s 0 = false) ∧
    (let s := up.setOut .act { copy := some (0x87FC00, []) }
     (s.out .act).copy = some (0x87FC00, []) ∧ (s.out .act).copyBad = false ∧ s.running OutIsl.act.island = true) := by decide
theorem witness_ChannelLifecycleAndProtection_pauses :
    (let s := { up.setChan hb { pause := some 5, pauseRun := some 0 } with now := 5 }
     (s.chan hb).pauseRun.isSome = true ∧ pauseLeft s (s.chan hb) = some 0 ∧ (s.chan hb).reason = 0 ∧ hb.isl ≠ .act) ∧
    (let s := up.setChan (vl 15) { pause := some 0, pauseRun := some 0 }
     (s.chan (vl 15)).pauseRun.isSome = true ∧ pauseLeft s (s.chan (vl 15)) = some 0 ∧ (vl 15).isl = .act) ∧
    (let s := up.setChan hb { hbChan with count := 1, quiet := 100000 }
     wd (s.chan hb).pf 7 ≠ 0 ∧ (s.chan hb).count ≠ 0 ∧ (s.chan hb).reason = 0 ∧ 100000 * (wd (s.chan hb).pf 7).toNat ≤ quietTime s (s.chan hb)) ∧
    (let s := up.setChan hb { act := [1, 0, 0, 0, 0, 0, 0, 0, 0, 0x00C1], reason := 2, tkDue := some 0 }
     s.running hb.isl.island = true ∧ (s.chan hb).tkDue = some 0 ∧ takeoverTime s hb 0 = true ∧ partnerOf hb (s.chan hb).act = some ⟨.sw, 65⟩ ∧
       (⟨.sw, 65⟩ : ChanRef) ≠ hb ∧ (s.chan ⟨.sw, 65⟩).reason = 0 ∧ modeOf (s.chan ⟨.sw, 65⟩).act = 0 ∧ (s.chan ⟨.sw, 65⟩).latch = false) := by decide
theorem witness_ChannelLifecycleAndProtection_trips :
    (hb.isl = .sw ∧ sideOn hbUp hb .high = true ∧ sideOn hbUp hb .low = true ∧ (swClass hb.idx).short ≤ 6000) ∧
    (let s := up.setChan hb { hbChan with win := some 10 }
     (s.chan hb).on = true ∧ swLimit (s.chan hb) hb.idx < 11 ∧ limitFilter (fld (wd (s.chan hb).pf 0) 0 3) (s.chan hb).win.isSome = none ∧
       (s.chan hb).winEnd ≤ s.now ∧ fld (wd (s.chan hb).pf 0) 0 3 ≠ 5) ∧
    (swLimit (hbUp.chan hb) hb.idx < 4001 ∧ limitFilter (fld (wd (hbUp.chan hb).pf 0) 0 3) (hbUp.chan hb).win.isSome = some 100) ∧
    (let s := up.setChan ⟨.fld, 15⟩ { win := some 0 }
     (⟨.fld, 15⟩ : ChanRef).ok = true ∧ (⟨.fld, 15⟩ : ChanRef).isl = .fld ∧ (s.chan ⟨.fld, 15⟩).win.isSome = true) ∧
    ((hbUp.chan hb).latch = false ∧ thermalOver hbUp hb ⟨1750, 1750⟩ ⟨1750, 1750⟩ = true ∧ thermalOver hbUp hb ⟨600, 0⟩ ⟨600, 0⟩ = true) ∧
    (let s := up.setChan hb { hbChan with latch := true }
     (s.chan hb).latch = true ∧ thermalCool s hb ⟨1500, 1000⟩ ⟨1500, 1000⟩ = true) := by decide +kernel
/-- One reading at the limit does not latch (R234). -/
theorem test_thermal_samples : thermalOver hbUp hb ⟨1750, 1750⟩ ⟨1749, 1749⟩ = false := by decide
/-- A wire model at rest, one at its limit, 200 °C with τ 10 s and no current, and the same locked and cool. -/
def wireNext (s : State) : Rat :=
  wireTemp s (s.chan hb) + (1 / (((wireConst 0).2 * 1000 : Nat) : Rat)) * ((wireAmb s : Rat) +
    50 * ((0 : Nat) / 10000 : Rat) / (((wireConst 0).1 * (wireConst 0).1 : Nat) : Rat) - wireTemp s (s.chan hb))
theorem witness_ChannelLifecycleAndProtection_wire :
    ((hbUp.chan hb).wirelock = false ∧ wireNext hbUp < (wireLimit (hbUp.chan hb) : Rat)) ∧
    (let s := up.setChan hb { hbChan with wireT := some 200 }
     (s.chan hb).wirelock = false ∧ (s.chan hb).on = true ∧ (wireLimit (s.chan hb) : Rat) ≤ wireNext s) ∧
    (let s := up.setChan hb { hbChan with wireT := some 200, wirelock := true }
     (s.chan hb).wirelock = true ∧ (wireLimit (s.chan hb) : Rat) - 10 < wireNext s) ∧
    (let s := up.setChan hb { hbChan with wireT := some 25, wirelock := true }
     (s.chan hb).wirelock = true ∧ wireNext s ≤ (wireLimit (s.chan hb) : Rat) - 10 ∧ (s.chan hb).carriedBy = none) := by decide +kernel
theorem witness_ChannelLifecycleAndProtection_motor :
    (hb.isl = .sw ∧ 64 ≤ hb.idx ∧ (hbUp.chan hb).on = true ∧ (hbUp.chan hb).win = none ∧ wd (hbUp.chan hb).pf 14 ≠ 0 ∧
      bit (wd (hbUp.chan hb).act 0x0A) 7 = false ∧ (hbUp.chan hb).stall = false ∧ (wd (hbUp.chan hb).pf 14).toNat ≤ 1 ∧
      fld (wd (hbUp.chan hb).pf 15) 0 8 ≤ 0 ∧ fld (wd (hbUp.chan hb).pf 15) 8 2 = 0) ∧
    ((hbUp.chan hb).duty = some 0x2000 ∧ modeOf (hbUp.chan hb).set = 3 ∧ isBoundary hbUp hb = true ∧ wd (hbUp.chan hb).set 0x0E ≠ 0) ∧
    hbUp.running .sw = true := by decide
theorem witness_ChannelLifecycleAndProtection_diagnosis :
    (let s := up.setChan hb { prof := hbChan.prof }
     offChecks s hb = true ∧ 450 ≤ 450 ∧ 449 < 450) ∧
    (let s := { up.setChan hb { shbDue := some 0 } with now := 1000 }
     (s.chan hb).shbDue = some 0 ∧ 0 + 1000 ≤ s.now) ∧
    (let s := up.setChan hb { prof := hbChan.prof, openRun := some 0 }
     (s.chan hb).openRun = some 0 ∧ (s.chan hb).reason = 0 ∧ 0 + 1000 * (wd (s.chan hb).pf 11).toNat ≤ s.now ∧
       bit (wd (s.chan hb).pf 12) 2 = false) ∧
    (let s := { up.setChan ⟨.sw, 0⟩ { on := true, act := [1] } with now := 40 }
     (s.chan ⟨.sw, 0⟩).on = true ∧ pwmSet ⟨.sw, 0⟩ (s.chan ⟨.sw, 0⟩).set = false ∧ 40 ≤ s.now - (s.chan ⟨.sw, 0⟩).onAt) := by decide
/-- A high-side short of a conducting switch is counted as code 3 (Table 7.8). -/
theorem test_short_counts :
    after (exec (.shortComparatorTrip hb .high 6000) hbUp) (fun t => ((t.chan hb).on, (t.chan hb).count)) = some (false, 1) := by decide +kernel

/-- Valve 15 with a record, at 10 µs. -/
def valveUp (v : Valve) (c : Chan := {}) : State := { up.setChan (vl 15) c with now := 10, valves := [(15, v)] }
theorem witness_ValveAndBoostEvents_peak :
    up.running .act = true ∧
    (let m := boostMeasure 650 (valveUp { ph := .peak, firing := true })
     (m.valve 15).ph = .peak ∧ (m.valve 15).firing = true ∧ (m.valve 15).at_ + pulseUs (m.chan (vl 15)) ≤ m.now ∧
       (m.chan (vl 15)).winEnd ≤ m.now ∧ 0 ≤ (wd (m.chan (vl 15)).pf 9).toNat ∧ iPeak (m.chan (vl 15)) ≤ 8000 ∧
       fld (wd (m.chan (vl 15)).pf 14) 0 8 ≤ m.now - (m.valve 15).at_) ∧
    (let m := boostMeasure 650 (valveUp { ph := .peak } { prof := [0, 0, 0, 0, 0, 0, 0, 0, 0, 1, 0, 0, 0, 0, 11, 0] })
     (m.valve 15).ph = .peak ∧ 0 < (wd (m.chan (vl 15)).pf 9).toNat ∧ m.now - (m.valve 15).at_ < fld (wd (m.chan (vl 15)).pf 14) 0 8) := by decide
theorem witness_ValveAndBoostEvents_hold :
    (let m := boostMeasure 650 (valveUp { ph := .hold, firing := true })
     (m.valve 15).firing = true ∧ (m.valve 15).at_ + pulseUs (m.chan (vl 15)) ≤ m.now ∧ (m.valve 15).ph ≠ .peak) ∧
    ((valveUp { ph := .quench }).valve 15).ph = .quench ∧
    (let s := valveUp { due := some 0 }
     (s.valve 15).due = some 0 ∧ 0 + delayUs (s.chan (vl 15)) ≤ s.now) := by decide
theorem witness_ValveAndBoostEvents_boost :
    let s := { withRegs [(0xA1F003, 0x0001), (0xA1F000, 0x0258)] with boostLow := some 0, now := 100000 }
    (boostMeasure 100 s).boostLow = some 0 ∧ 0 + 100000 ≤ (boostMeasure 100 s).now ∧ (boostMeasure 100 s).regBit 0xA1F004 4 = false := by decide
theorem witness_ValveAndBoostEvents_bank :
    let s := { up.setChan (vl 4) { prof := List.replicate 16 0 } with valves := [(4, { ph := .hold })], now := 5 }
    ((s.valve 4).low = false ∧ (s.valve 4).lowAt + 5 ≤ s.now ∧ rail s 1 ≠ 0 ∧ (s.chan (vl 4)).reason = 0 ∧ (s.chan (vl 4)).prof ≠ []) ∧
    (({ up with banks := [(3, { retryAt := some 0 })] } : State).bank 3).retryAt = some 0 ∧
    (let z := up.setChan (vl 15) { prof := List.replicate 12 0 ++ [1, 0, 0, 0] }
     rail z 3 = 0 ∧ ((bankValves 3).any fun v => bit (wd (z.chan (vl v)).pf 12) 0) = true) ∧
    ((up.bank 3).hot = false ∧ actHot ⟨1750, 0⟩ ⟨1750, 0⟩ = true ∧ (({ up with banks := [(3, { hot := true })] } : State).bank 3).hot = true ∧
      actCool ⟨1500, 0⟩ ⟨1500, 0⟩ = true) := by decide

/-- The matrix at `t` µs of a frame, under LXSYNC where `sync` says so. -/
def matrixAt (sync : Bool) (t : Nat) : State := { withRegs [(0xA2F005, 1)] with now := t, lux := { live := true, cfg := { sync := sync } } }
theorem witness_LightAndFieldEvents_matrix :
    (matrixRuns (withRegs [(0xA2F005, 1)]) = true ∧ (withRegs [(0xA2F005, 1)]).lux.live = false) ∧
    (let s := matrixAt false 2500
     matrixRuns s = true ∧ (mxCfg s).sync = false ∧ s.lux.frameAt + (mxCfg s).per ≤ s.now) ∧
    (let s := matrixAt false 2292
     matrixRuns s = true ∧ s.lux.live = true ∧ (11 : Fin 12).val < (mxCfg s).rows ∧ slotOpens s 11 = true ∧ (s.chan (lx (96 + 11))).on = false) ∧
    ({ up with lux := { load := some (0x800000, []) } } : State).lux.load = some (0x800000, []) := by decide
theorem witness_LightAndFieldEvents_sync :
    (let s := matrixAt true 2249
     matrixRuns s = true ∧ (mxCfg s).sync = true ∧ true ≠ (mxCfg s).edge ∧ s.lux.live = true ∧ 10 * (s.now - s.lux.frameAt) < 9 * (mxCfg s).per) ∧
    (let s := matrixAt true 2250
     true ≠ (mxCfg s).edge ∧ 9 * (mxCfg s).per ≤ 10 * (s.now - s.lux.frameAt)) ∧
    (let s := matrixAt true 2750
     s.lux.live = true ∧ s.lux.syncLost = false ∧ 11 * (mxCfg s).per ≤ 10 * (s.now - s.lux.frameAt) ∧ s.lux.misses < 7) ∧
    (let s := { matrixAt true 2750 with lux := { (matrixAt true 2750).lux with misses := 7 } }
     matrixRuns s = true ∧ s.lux.syncLost = false ∧ 11 * (mxCfg s).per ≤ 10 * (s.now - s.lux.frameAt) ∧ 7 ≤ s.lux.misses) := by decide
theorem witness_LightAndFieldEvents_lamp :
    let s := { (up.setChan (lx 0) { act := [3, 0, 0, 0, 0, 0, 0, 0, 0, 0, 0, 0, 0, 0, 0x00FD], latch := true }) with lamps := [(63, { evaluating := true })] }
    s.running .lux = true ∧ leaderOf s 63 = some 0 ∧ (evalLamp s 63 0).isSome = true ∧ (s.lamp 63).evaluating = true ∧
      (({ up with lux := { calBusy := true } } : State).lux.calBusy = true ∧ settingsBusyIn up (activeGen up) = false) ∧
      (let z := up.setChan (lx 95) { on := true, prof := List.replicate 15 0 ++ [0x0100] }
       (z.chan (lx 95)).on = true ∧ fld (wd (z.chan (lx 95)).pf 15) 8 8 ≠ 0 ∧ 25 * fld (wd (z.chan (lx 95)).pf 15) 8 8 ≤ 25) := by decide +kernel
theorem witness_LightAndFieldEvents_inputs :
    (let s := { up with now := 1000 }
     s.mode = .run ∧ s.running .aon = true ∧ fieldPowered s = true ∧ (31 : Fin 48).val < 32 ∧ tickNow s .si 47 = true ∧ tickNow s .fi 31 = true) ∧
    up.regFld (0xA70200 + 47) 4 2 ≤ 1 ∧ (withRegs [(0xA70200 + 47, 0x0020)]).regFld (0xA70200 + 47) 4 2 = 2 ∧
    ((withRegs [(0xA70200 + 47, 0x0030)]).regFld (0xA70200 + 47) 4 2 = 3 ∧ 400000 < 400001 ∧ 19 < 20) ∧
    (({ withRegs [(0xA702A7, 1)] with mode := .park } : State).mode = .park ∧ (withRegs [(0xA702A7, 1)]).regBit 0xA702A7 0 = true) ∧
    (up.fieldRec.pathA = false ∧ up.fieldRec.pathB = false ∧ up.fieldRec.unpowered = false ∧ up.fieldRec.vfld = .ok) ∧
    ({ up with fieldRec := { unpowered := true } } : State).fieldRec.unpowered = true ∧
    ({ up with fieldRec := { logq := [[0, 0, 0, 0]] } } : State).fieldRec.logq = [0, 0, 0, 0] :: [] := by decide
/-- The eighth missed edge in a row loses the synchronisation (R318). -/
theorem test_eighth_miss :
    after (exec .lxsyncMiss { matrixAt true 2750 with lux := { (matrixAt true 2750).lux with misses := 7 } })
      (fun t => (t.lux.misses, t.lux.syncLost)) = some (8, true) := by decide +kernel

/-! NET and SEC. -/

/-- A CAN frame of a ring node; a CAN frame outside the ring. -/
def ringFrame : CanFrame := ⟨false, false, false, false, 0x40, 8, [0x13, 1, 2, 0, 0, 0xFF, 0, 0]⟩
def plainFrame : CanFrame := ⟨false, false, false, false, 0x7FF, 0, []⟩
/-- CAN 7 on the bus and in ring segment, the ring RUNNING at base 0x40. -/
def ringUp : State :=
  { withRegs [(canBase 7, 1), (canBase 7 + 6, 0), (0xA30042, 0x0080), (0xA30049, 0x0002)] with net := { ring := { base := 0x40 } } }
theorem witness_BusAndRingEvents_can :
    let u := selectiveWake 7 ringFrame ringUp
    let v := selectiveWake 7 plainFrame ringUp
    (u.running .net = true ∧ portEn u 7 = true ∧ isolated u 7 = false ∧ onBus u 7 = true ∧ inQuiet u 200000 = false ∧
      inRingRange u ringFrame = true ∧ 7 ∈ trSeg u ∧ (ringFields u ringFrame).map (·.1) = some 3) ∧
    (v.running .net = true ∧ onBus v 7 = true ∧ inRingRange v plainFrame = false ∧ plainFrame.fd = false ∧ plainFrame.brs = false ∧
      plainFrame.ide = false ∧ plainFrame.esi = false) := by decide +kernel
theorem witness_BusAndRingEvents_ethernet :
    let s := withRegs [(ethBase 5, 1)]
    s.running .net = true ∧ portEn s (8 + 5) = true ∧ isolated s (8 + 5) = false ∧ onBus s (8 + 5) = true ∧ 2 ≤ (5 : Fin 6).val ∧
      (⟨true, some 0xFFF, []⟩ : EthFrame).tag = some 0xFFF := by decide
theorem witness_BusAndRingEvents_record :
    let s := { withRegs [(0xA30010 + 28, 0x0000), (0xA30010 + 29, 0x0280)] with net := { rxq := [(7, [[1, 2]])] } }
    s.net.rxq.get (fun _ => []) 7 = [1, 2] :: [] ∧ s.regBit (0xA30010 + 4 * 7 + 1) 12 = false ∧
      ringOk s (0xA30010 + 4 * 7) 40 = some (0x800000, 2) ∧ [1, 2].length ≤ 40 ∧
      (s.regN (0xA30010 + 4 * 7 + 2) % 2 ^ 2 + 1) % 2 ^ 2 ≠ s.regN (0xA30010 + 4 * 7 + 3) % 2 ^ 2 := by decide
theorem witness_BusAndRingEvents_sending :
    (ringUp.net.wake.get (fun _ => none) 7 = none ∧ canSends ringUp 7 = true ∧ inQuiet ringUp 200000 = false ∧ (7 : Fin 14).val = 7) ∧
    (onBus (withRegs [(ethBase 5, 1)]) (8 + 5) = true ∧ (13 : Fin 14).val = 8 + 5) ∧ onBus ringUp 7 = true ∧
    (let s := { withRegs [(canBase 7 + 6, 2)] with net := { recov := [7] } }
     s.regFld (canBase 7 + 6) 0 2 = 2 ∧ 7 ∈ s.net.recov ∧ trSeg s ≠ [7]) := by decide
theorem witness_BusAndRingEvents_lin :
    (let s := withRegs [(linBase 11, 1), (linEntry 11 0x3F, 2)]
     s.running .net = true ∧ s.regBit (linBase 11) 0 = true ∧ s.regFld (linEntry 11 0x3F) 0 2 = 2 ∧ s.regBit (linBase 11) 1 = false ∧
       linSync s 11 (linBaud s 11) = true ∧ linSync s 11 0 = false) ∧
    (let s := { up with net := { lin := [(11, some 0x3F)] } }
     s.net.lin.get (fun _ => none) 11 = some 0x3F ∧
       linSum (s.regBit (linEntry 11 0x3F) 2) (linPid 0x3F) ((List.replicate 8 0xFF).take (linLen s 11 0x3F)) = 0 ∧
       (1 : Byte) ≠ linSum (s.regBit (linEntry 11 0x3F) 2) (linPid 0x3F) ((List.replicate 8 0xFF).take (linLen s 11 0x3F))) ∧
    (withRegs [(0xA30803, 0x0800)]).regBit 0xA30803 11 = true := by decide
theorem witness_BusAndRingEvents_wake_errors :
    let s := { withRegs [(0xA30800, 0x0080)] with net := { wake := [(7, some plainFrame)] } }
    s.net.wake.get (fun _ => none) 7 = some plainFrame ∧ s.running .net = true ∧ isolated s 7 = false ∧ s.running .aon = true ∧
      s.mode ≠ .deepPark ∧ s.regBit 0xA30800 7 = true := by decide
/-- A wake frame's sixteenth failure sets WFFAIL and its bit in WF_STAT (R368). -/
theorem test_wake_frame_fails :
    after (exec (.frameTransmitted 7 false) { up with net := { wake := [(7, some plainFrame)] } })
      (fun t => (t.regBit (canBase 7 + 6) 3, t.regBit 0xA30814 15)) = some (true, true) := by decide
/-- A frame error counter that overflows latches the CAN cause of an armed channel only (R364, Table 3.12). -/
theorem test_frame_errors :
    after (exec (.canFrameReceived 7 .errorOverflow) (withRegs [(0xA30800, 0x0080)])) (fun t => t.regBit 0xA70104 3) = some true ∧
      after (exec (.canFrameReceived 7 .errorOverflow) (withRegs [(0xA30800, 0x0040)])) (fun t => t.reg 0xA70104) = some 0 := by decide
/-- A low antenna current sets AN_STAT's fault bit; a good frame clears both bits of its antenna (R381). -/
theorem test_antenna_fault :
    after (exec (.sessionPhaseEnd [0, 1000]) { withRegs [(0xA41006, 0x0202)] with
      now := 1000000, sec := { session := some { addressed := false, slot := 0, mask := 0x03, phase := 1, chal := [] } } }) (fun t => t.reg 0xA41006) =
        some 0x0001 := by decide
theorem witness_BusAndRingEvents_wakes :
    (let s := { withRegs [(0xA30800, 0x0080)] with mode := .deepPark }
     s.mode = .deepPark ∧ s.regBit 0xA30800 7 = true ∧ isolated s 7 = false ∧ s.regFld 0xA30802 0 4 + 1 ≤ 16) ∧
    (let s := { withRegs [(0xA30804, 0x0002)] with mode := .park }
     s.mode = .park ∧ s.regBit 0xA30804 1 = true ∧ isolated s (8 + 1) = false) ∧
    (withRegs [(ethBase 1 + 7, 0x0004)]).regFld (ethBase 1 + 7) 1 3 = 2 ∧ (withRegs [(0xA30002, 1)]).regBit 0xA30002 0 = true ∧
    (let s := { withRegs [(0xA30807, 0x00FF)] with now := 255000 }
     s.net.wklAt.get (fun _ => 0) 1 + 1000 * Nat.max 1 (s.regFld 0xA30807 0 8) ≤ s.now) := by decide
theorem witness_BusAndRingEvents_ring :
    (let s := { withRegs [(0xA30049, 0x000A)] with now := 255000 }
     s.running .net = true ∧ trState s = 2 ∧ s.regBit 0xA30049 3 = true ∧ s.net.ring.heldFrom + trPace s ≤ s.now) ∧
    (let s := { ringUp with now := 5000000 }
     let u := setTrState 2 s
     trState s = 2 ∧ s.net.ring.lostFrom + trLost s ≤ s.now ∧ u.net.ring.lostFrom + trLost u + 20000 * ringRank u ≤ u.now) ∧
    (let s (again : Bool) : State := { ringUp with now := 280000, net := { ring := { wait := some { succ := 1, bytes := [], again := again } } } }
     trState (s true) = 2 ∧ (s true).net.ring.wait = some { succ := 1, bytes := [], again := true } ∧ 0 + trPace (s true) + 25000 ≤ (s true).now ∧
       (s false).net.ring.wait = some { succ := 1, bytes := [] }) ∧
    (let s := withRegs [(0xA30049, 0x0003)]
     let u := setTrState 4 (modRing (fun r => { r with quietFrom := none }) s)
     trState s = 3 ∧ inQuiet s 201999 = false ∧ u.regFld 0xA30040 1 2 = 0) ∧
    (let s := withRegs [(0xA30049, 0x0003), (0xA30040, 0x0002), (0xA70103, 0x0040)]
     let u := setTrState 4 (modRing (fun r => { r with quietFrom := none }) s)
     trState s = 3 ∧ inQuiet s 201999 = false ∧ u.regFld 0xA30040 1 2 = 1 ∧ (pwrCtrl (pack [(0, u.regFld 0xA30040 1 2), (8, 0xA5)]) u).mode ≠ .run) := by decide +kernel

/-- A session in a phase, with every antenna in its mask. -/
def inPhase (k : Nat) : Session := { addressed := false, slot := 0, mask := 0xFF, phase := k, chal := [] }
/-- The state 1 s after that phase began. -/
def phased (k : Nat) : State := { up with now := 1000000, sec := { session := some (inPhase k) } }
theorem witness_AccessAndCipherEvents_session :
    ((phased 1).running .sec = true ∧ (phased 1).sec.session = some (inPhase 1) ∧ (inPhase 1).from_ + phaseUs (phased 1) (inPhase 1) ≤ (phased 1).now ∧
      (inPhase 3).from_ + phaseUs (phased 3) (inPhase 3) ≤ (phased 3).now ∧ (inPhase 4).from_ + phaseUs (phased 4) (inPhase 4) ≤ (phased 4).now) ∧
    ((inPhase 1).phase = 1 ∧ (inPhase 3).phase = 3 ∧ (inPhase 4).phase = 4 ∧ up.mode ≠ .park ∧ (inPhase 1).mask.testBit 7 = true) ∧
    (frameCrcOk (List.replicate 16 0 ++ beBytes 2 (crc16Bytes (List.replicate 16 0)).toNat) 18 = false ∧
      frameCrcOk (List.replicate 16 0 ++ beBytes 2 (crc16Bytes (List.replicate 16 0)).toNat) 16 = true) := by decide +kernel
/-- Park with the poll armed, when its days are over. -/
def parked : State := { withRegs [(0xA40800, 1)] with mode := .park, now := 604800000000, rtcSec := 604800 }
theorem witness_AccessAndCipherEvents_poll :
    (parked.mode = .park ∧ polling parked = true ∧ parked.poll = none ∧ parked.pollAt + pollPer parked ≤ parked.now ∧
      parked.regBit 0xA40800 0 = true ∧ 86400 * pollDays parked ≤ parkTime parked) ∧
    (let s := { parked with spreadDue := some 20000 }
     polling s = true ∧ s.poll = none ∧ s.spreadDue = some 20000 ∧ 20000 ≤ s.now) ∧
    (let s (w : PollWin) : State := { parked with poll := some w }
     (s { spread := false }).poll = some { spread := false } ∧ pollCloses (s { spread := false }) { spread := false } ≤ parked.now ∧
       (s { spread := true, hit := true }).poll = some { spread := true, hit := true } ∧
       pollCloses (s { spread := true, hit := true }) { spread := true, hit := true } ≤ parked.now ∧
       pollCloses (s { spread := true }) { spread := true } ≤ parked.now) := by decide
theorem witness_AccessAndCipherEvents_enrolment :
    (0xE720#16).getLsbD 5 = true ∧ (0xE700#16).getLsbD 5 = false ∧
      (let s := { up with now := 30432, sec := { enr := some (.core 0, 0xE700) } }
       s.sec.enr = some (.core 0, 0xE700) ∧ enrLate s = true) ∧ nextEnrolment up = some 0 := by decide +kernel
/-- The answer of a token to its enrolment challenge: type 3, its TID 0, its slot 0, its MAC and CRC (Table 13.3). -/
theorem witness_AccessAndCipherEvents_answer :
    let s : State := { up with sec := { enr := some (.core 0, 0xE700), enrAnt := some (7, false), enrKey := List.replicate 16 0,
                                        enrChal := List.replicate 12 0 } }
    let own : List Byte := [0x13, 0, 0, 0, 0, 0, 0, 0]
    let body := own ++ tokenMac (List.replicate 16 0) 3 (List.replicate 12 0) own
    enrolAnswer s (fld 0xE700#16 0 5) (body ++ beBytes 2 (crc16Bytes body).toNat) = true := by decide +kernel
/-- A command of a core KS_AUTH does not name, and an erasure by one it names. -/
theorem witness_AccessAndCipherEvents_keys :
    let erase : KsCmd := { op := 5, r := .core 0, staged := [1, 0, 0, 0, 0, 0, 0, 0] }
    ksCheck (withRegs [(0xA42001, 1)]) erase = 0 ∧ ksCheck up erase = 1 ∧
      ({ up with sec := { ks := some erase } } : State).sec.ks = some erase := by decide +kernel
theorem witness_AccessAndCipherEvents_jobs :
    (let s := { up with sec := { jobQ := [3], jobs := [(3, { busy := true })] } }
     s.sec.jobQ = 3 :: [] ∧ runningJob s = none) ∧
    (let s := { up with sec := { jobs := [(2, { busy := true, run := true, code := 4 })] } }
     runningJob s = some 2 ∧ 1 ≤ (s.job 2).code ∧ (s.job 2).code ≤ 4) := by decide
theorem witness_AccessAndCipherEvents_alarms :
    let s := { up with alive := 2 ^ 4 }
    secureActive { withRegs [(0xA81100 + 3, 0x0008)] with srcs := [(3, { active := true })] } = true ∧ s.alive = 2 ^ (4 : Fin 5).val ∧
      secureActive s = false ∧ s.running .sec = true := by decide
/-- FIPS 197, appendix B: the cipher example. -/
theorem test_aes :
    aesEnc [0x2B, 0x7E, 0x15, 0x16, 0x28, 0xAE, 0xD2, 0xA6, 0xAB, 0xF7, 0x15, 0x88, 0x09, 0xCF, 0x4F, 0x3C]
      [0x32, 0x43, 0xF6, 0xA8, 0x88, 0x5A, 0x30, 0x8D, 0x31, 0x31, 0x98, 0xA2, 0xE0, 0x37, 0x07, 0x34] =
      [0x39, 0x25, 0x84, 0x1D, 0x02, 0xDC, 0x09, 0xFB, 0xDC, 0x11, 0x85, 0x97, 0x19, 0x6A, 0x0B, 0x32] := by decide +kernel

/-! Fault collection, the link and the update. -/

theorem witness_SamplerEvents :
    let a := { up with srcs := [(255, { lvl := true })] }
    let q := { up with srcs := [(0, { active := true, q := [none] })] }
    (a.checked (255 : Fin 256) = true ∧ (a.src 255).active = false ∧ ((a.src 255).lvl = true ∨ (a.src 255).q ≠ [])) ∧
    ((q.src 0).active = true ∧ (q.src 0).wire = false ∧ isLevelSource 0 = false) ∧
    (isLevelSource 2 = true ∧ (up.src 2).lvl = false) ∧
    (let s := { up with now := 1 }
     s.running .cpa = true ∧ (s.island .cpa).runAt + 1 ≤ s.now) := by decide +kernel
theorem witness_SamplerEvents_wires :
    (up.checked 34 = true ∧ (up.src 34).wire = false ∧ threeSamples true [(true, true), (false, false), (true, true)] = true) ∧
    (let w := { up with srcs := [(34, { wire := true, active := true })] }
     w.checked 34 = true ∧ (w.src 34).wire = true ∧ threeSamples false [(true, false), (true, false), (true, false)] = true ∧
       ([(true, false), (true, false), (true, false)].getLastD (false, true)).1 = true ∧
       threeSamples false [(false, true), (false, true), (false, true)] = true ∧
       ([(false, true), (false, true), (false, true)].getLastD (false, true)).1 = false) := by decide +kernel
theorem witness_SamplerEvents_escalation :
    (let s := { up with srcs := [(34, { wire := true, active := true, timer := some (2, 0) })] }
     (s.src 34).timer = some (2, 0) ∧ s.running .sup = true ∧ 0 ≤ s.now ∧ (s.src 34).active = true ∧ (s.src 34).wire = true) ∧
    (let s := { up with srcs := [(0, { timer := some (2, 0) })] }
     (s.src 0).timer = some (2, 0) ∧ (s.src 0).active = false) ∧
    winRuns up (up.src 255) = false := by decide +kernel
theorem witness_SamplerEvents_log :
    let s := { withRegs [(0xA81000, 0x0000), (0xA81001, 0x0480)] with logq := [[1, 2, 3, 4], [5, 6, 7, 8]] }
    s.logq = [1, 2, 3, 4] :: [[5, 6, 7, 8]] ∧ s.running .sup = true ∧ s.running .mem = true ∧ logInside s = true ∧ [1, 2, 3, 4].length = 4 ∧
      (withRegs [(0xA70300, 0x8000)]).regBit 0xA70300 15 = true ∧ up.regBit 0xA70300 15 = false := by decide +kernel
/-- An activation latches its bits (R432) and, the first of severity 3, makes the first-fault record (Table 15.8). -/
theorem test_activation :
    let s := { withRegs [(0xA81100 + 255, 0x0004)] with srcs := [(255, { q := [some 5] })], rtcSec := 0x12345678 }
    after (exec (.sourceActivation 255) s) (fun t =>
      ((t.src 255).active, t.regBit 0xA8101F 15, t.regBit 0xA8102F 15, t.regList 0xA70300 3)) =
        some (true, true, true, [0x84FF, 0x0085, 0x5678]) := by decide +kernel
/-- A source its pair does not show active does not activate. -/
theorem test_no_activation : exec (.sourceActivation 60) up = .next up := by rfl
/-- Device 5 with its ports enabled, port 1 UP to device 9 port 2. -/
def linked : State :=
  { withRegs [(0xA60000, 0x0805), (pcfg 0, 1), (pcfg 1, 1), (pcfg 2, 1), (pcfg 3, 1), (pstat 1, 0x8091)] with
    lnk := { ports := [(1, { trained := true })] } }
/-- A stitch from device 9. -/
def fromNine (type : BitVec 4) (bc : Bool) (dest : BitVec 9) (l : BitVec 4) (p : List Word) : Stitch :=
  ⟨dest, bc, type, 9, 0, 0x21, l, 0, 0x800000, 0, p⟩
/-- A discovery stitch from device 9. -/
def disc (p : List Word) : Stitch := fromNine 0xB true 0x1FF 8 p
theorem witness_LinkPortAndRequestEvents_ports :
    mayTrain linked (0 : Fin 4) = true ∧ trainsIn linked 0 = 1 ∧
      (let s := { linked with lnk := { linked.lnk with ports := [(3, { tryOff := true })] } }
       mayTrain s (3 : Fin 4) = true ∧ trainsIn s 3 = 2) ∧
      linked.regFld (pcfg 0) 1 2 = 0 ∧ (withRegs [(pcfg 3, 7)]).regFld (pcfg 3) 1 2 = 3 ∧
      (let s := { linked with now := 100 }
       mayTrain s (0 : Fin 4) = true ∧ (s.lport 0).trainFrom + 100 ≤ s.now) ∧ portUp linked (1 : Fin 4) = true ∧
      (let s (k : Nat) : State := { linked with now := 1, lnk := { linked.lnk with ports := [(1, { trained := true, unacked := [(0, disc [])], rounds := k })] } }
       portUp (s 7) (1 : Fin 4) = true ∧ ((s 7).lport 1).unacked ≠ [] ∧ ((s 7).lport 1).ackAt + 1 ≤ (s 7).now ∧ 8 ≤ ((s 7).lport 1).rounds + 1 ∧
         ((s 6).lport 1).rounds + 1 < 8) ∧
      (let s := { linked with now := 1000 }
       s.running .lnk = true ∧ s.regBit (pcfg 3) 0 = true ∧ portUp s 3 = false ∧ s.lnk.since + 1000 ≤ s.now) := by decide +kernel
theorem witness_LinkPortAndRequestEvents_arrivals :
    let us := fromNine 1 false 5 1 []
    let other := fromNine 0xC false 7 1 [0x0001]
    let v := takeNext 1 0 us (takeAck 1 (fld 0x0000#16 4 4) linked)
    (linked.running .lnk = true ∧ (linked.lport 1).trained = true ∧ fld 0x0001#16 0 4 ≠ ((linked.lport 1).rxSeq + 1) % 16) ∧
    (fld 0x0000#16 0 4 = ((linked.lport 1).rxSeq + 1) % 16 ∧ portUp v (1 : Fin 4) = true ∧ knownType us.type.toNat = true ∧ us.type ≠ 0xB ∧
      ownId v = some 5 ∧ us.dest.toNat = 5) ∧
    (portUp (takeNext 1 0 other linked) (1 : Fin 4) = true ∧ ownId (takeNext 1 0 other linked) = some 5 ∧ knownType other.type.toNat = true ∧
      other.type ≠ 0xB ∧ other.bc = false ∧ other.dest.toNat ≠ 5) ∧
    (forUs linked us = true ∧ cameIn linked 1 us = true ∧ forUs linked (fromNine 7 true 0x1FF 1 [0]) = true ∧
      (fromNine 7 true 0x1FF 1 [0]).bc = true) ∧
    (mustWait linked us = false ∧ ∀ e ∈ linked.lnk.waitq, e.1 ≠ (1 : Fin 4).val) ∧
    malformed (fromNine 1 false 5 9 []) = true ∧ malformed (fromNine 9 false 5 0 []) = true := by decide +kernel
theorem witness_LinkPortAndRequestEvents_answers :
    (let s (k : ReqKind) : State := { linked with lnk := { linked.lnk with reqs := [⟨0x21, 9, k, 0⟩] } }
     let st (t : BitVec 4) := fromNine t false 5 3 [1, 2, 3]
     forUs (s .chan) (st 6) = true ∧ openRequest (s .chan) (st 6) = some ⟨0x21, 9, .chan, 0⟩ ∧
       openRequest (s (.load 7)) (st 3) = some ⟨0x21, 9, .load 7, 0⟩ ∧ openRequest (s (.store 3)) (st 4) = some ⟨0x21, 9, .store 3, 0⟩ ∧
       openRequest (s .mail) (st 8) = some ⟨0x21, 9, .mail, 0⟩ ∧ openRequest (s .mail) (st 0xA) = some ⟨0x21, 9, .mail, 0⟩ ∧
       ((s (.store 3)).lnk.reqs.find? fun e => decide (e.tag = (0x21#8).toNat) && decide (e.due ≤ 0)) = some ⟨0x21, 9, .store 3, 0⟩) := by decide +kernel
/-- A WRITE over the fabric to shared SRAM is answered ERROR 1 and stores nothing (R460). -/
theorem test_inbound_write :
    let s := linked.setReg (0xA61000 + 9) 0x0005
    after (exec (.writeStitch 1 (fromNine 2 false 5 1 [0x1234])) s) (fun t =>
      ((t.lport 1).q.map fun e => (e.st.type, e.st.dest, e.st.status, e.st.tag), t.memWord 0x800000)) =
        some ([(0xA, 9, 1, 0x21)], 0) := by decide +kernel
/-- CHACK writes CC_STAT and the three reply words (R461). -/
theorem test_chack :
    let s := { linked with lnk := { linked.lnk with reqs := [⟨0x21, 9, .chan, 0⟩] } }
    after (exec (.chack { fromNine 6 false 5 3 [1, 2, 3] with status := 4 }) s) (fun t => (t.reg 0xA6008B, t.regList 0xA6008C 3)) =
      some (0x0008, [1, 2, 3]) := by decide +kernel

theorem witness_LinkDiscoveryEvents_hello :
    let s : State := { linked with lnk := { linked.lnk with ports := [(0, { trained := true })] } }
    let st := disc [0x0001, 2, 0, 0, 0, 0, 0x8009, 0]
    discHere s (0 : Fin 4) 1 st = true ∧ st.payload.getD 5 0 = sysId s ∧ portUp s (0 : Fin 4) = false ∧
      (disc [0x0001, 2, 0, 0, 0, 1, 0x8009, 0]).payload.getD 5 0 ≠ sysId s := by decide +kernel
theorem witness_LinkDiscoveryEvents_links :
    let mine : Stitch := { disc [0x0002, 0, 0, 0, 0, 0, 0, 0] with src := 5 }
    let st := disc [0x0002, 0x8005, 0, 0, 0, 0, 7, 0]
    discHere linked (1 : Fin 4) 2 st = true ∧ heard linked st = false ∧ ownId linked ≠ some st.src.toNat ∧
      (∀ l ∈ linked.lnk.devs, l.id ≠ st.src.toNat) ∧ ownId linked = some mine.src.toNat := by decide +kernel
/-- Every serial is at least 0: a LINKS with this device's ID and the least serial. -/
theorem witness_LinkDiscoveryEvents_serial :
    (Config.serial >>> 16).toNat ≤ hiLo 0xFFFF#16 0xFFFF#16 := by
  have := (Config.serial >>> 16).isLt
  have h : (Config.serial >>> 16).toNat = Config.serial.toNat / 65536 := by simp [BitVec.toNat_ushiftRight, Nat.shiftRight_eq_div_pow]
  have h2 := Config.serial.isLt
  have h3 : hiLo 0xFFFF#16 0xFFFF#16 = 4294967295 := by decide
  omega
theorem witness_LinkDiscoveryEvents_grants :
    let req := disc [0x0003, 0, 7, 0, 0, 0, 0, 0]
    let grant := disc [0x0004, 0, 7, 0, 0, 12, 0, 0]
    (discHere linked (1 : Fin 4) 3 req = true ∧ heard linked req = false ∧ linked.lnk.allocating = false) ∧
      discHere linked (1 : Fin 4) 4 grant = true ∧ heard linked grant = false ∧ discSerial grant = 7 ∧
      (let s := { up with shadow := [(0x142, 0x0400)] }
       idSource s = 2 ∧ ownId s = none ∧ negotiating s = true) := by decide +kernel
theorem witness_LinkDiscoveryEvents_allocator :
    (let s := { linked with now := 2000, lnk := { linked.lnk with upAt := some 0 } }
     isAllocator s = true ∧ s.running .lnk = true ∧ timePassed s s.lnk.upAt 2000 = true ∧ s.lnk.allocating = false) ∧
    (let s := { up with shadow := [(0x142, 0x0400)], now := 20000, lnk := { up.lnk with negAt := some 19000 } }
     negotiating s = true ∧ timePassed s s.lnk.negAt 1000 = true ∧ s.lnk.since + 20000 ≤ s.now) ∧
    (let s := { up with now := 1000, lnk := { up.lnk with topoAt := some 0 } }
     s.running .lnk = true ∧ timePassed s s.lnk.topoAt 1000 = true ∧ s.running .sup = true ∧ (s.setIsland .sup {}).running .sup = false) := by
  decide +kernel
/-- The end of discovery counts it (R455). -/
theorem test_discovery_done :
    after (exec .discoveryDone { withRegs [(0xA60005, 0xFF00)] with now := 1000, lnk := { topoAt := some 0 } }) (fun t => t.reg 0xA60005) = some 0x0001 := by decide +kernel

/-- Phase `k` of MREF 0x11 in bank B. -/
def inUpd (k : Nat) : State := { up with upd := { phase := k, mref := 0x11 } }
theorem witness_UpdateAndFlashEvents_device :
    (({ up with flashOp := some ⟨1, 0, 1, [7]⟩ } : State).flashOp = some ⟨1, 0, 1, [7]⟩) ∧
    (({ up with upd := { preparing := true } } : State).upd.preparing = true) ∧
    ((inUpd 0).running .sup = true ∧ (inUpd 0).upd.held = [] ∧ updBusy (inUpd 0) = false ∧ (fleetMsg 0).mref.toNat = (inUpd 0).upd.mref ∧
      (inUpd 1).upd.phase = 1 ∧ updBusy (inUpd 1) = false ∧ preparedOver (inUpd 1) = false ∧ (inUpd 3).upd.phase = 3 ∧ updBusy (inUpd 3) = false ∧
      (inUpd 2).upd.phase = 2 ∧ updBusy (inUpd 2) = false) := by decide +kernel
theorem witness_UpdateAndFlashEvents_times :
    (let s := { inUpd 1 with now := 65595000000, updAon := { voted := true, voteSince := some 0 } }
     s.running .sup = true ∧ updBusy s = false ∧ preparedOver s = true) ∧
    (let s := { inUpd 2 with now := 600000000, updAon := { since := some 0 } }
     s.upd.phase = 2 ∧ windowOf s * 1000000 ≤ runTime s s.updAon.ran s.updAon.since) ∧
    (let s := { up with now := 65535000000, upd := { step := 1 } }
     s.upd.step = 1 ∧ updBusy s = false ∧ s.upd.stepAt + prepTime s * 1000000 ≤ s.now) ∧
    (let v := watchCoord { inUpd 3 with now := 3600000000, upd := { (inUpd 3).upd with lostAt := some 0 } }
     v.running .sup = true ∧ orphaned v = true ∧ v.upd.lostAt = some 0 ∧ 0 + orphanTime v * 1000000 ≤ v.now ∧ v.upd.queryAt = none) ∧
    (let s := { up with now := 10000 }
     s.upd.sentAt + 10000 ≤ s.now ∧ s.upd.step = 0) := by decide +kernel
theorem witness_UpdateAndFlashEvents_coordinator (k d : Nat) :
    let s := fleetAt { phase := 1, mref := 0x11, step := k, dec := d }
    s.running .sup = true ∧ s.upd.held = [] ∧ updBusy s = false ∧ (fleetMsg 1).mref.toNat = s.upd.mref ∧ coordinates s = true ∧
      (fleetMsg 1).src.toNat ∈ manifestDevs s ∧ s.upd.step = k ∧ s.upd.dec = d ∧ (fleetMsg 1).arg ≠ 0 ∧ (fleetMsg 0).arg = 0 :=
  ⟨rfl, rfl, rfl, rfl, fleet_coordinates _ rfl rfl rfl, fleet_devs _ rfl rfl, rfl, rfl, by decide, rfl⟩
/-- The coordinator when its health deadline has passed, and when its requests of step 1 are due again. -/
theorem witness_UpdateAndFlashEvents_coordinator_times :
    (let s := fleetAt { phase := 1, mref := 0x11, dec := 1 } { coordRan := 90000000 }
     s.upd.dec = 1 ∧ coordinates s = true ∧ healthOver s = true ∧ updBusy s = false) ∧
    let s := fleetAt { phase := 1, mref := 0x11, step := 1 } {} 10000
    let v := { s with upd := { s.upd with sentAt := s.now } }
    s.running .sup = true ∧ s.upd.sentAt + 10000 ≤ s.now ∧ coordinates v = true ∧ s.upd.step = 1 := by
  refine ⟨⟨rfl, fleet_coordinates _ rfl rfl rfl, ?_, rfl⟩, rfl, Nat.le_refl 10000, ?_, rfl⟩
  · have w (k : Nat) (h : k < 24) : manifestWord (fleetAt { phase := 1, mref := 0x11, dec := 1 } { coordRan := 90000000 }) k =
        fleetPayload.getD k 0 := by
      have := fleet_word k h
      simp only [manifestWord, fleet_bank { phase := 1, mref := 0x11, dec := 1 } rfl rfl]; exact this
    have e3 : fleetPayload.getD 3 0 = 0 := rfl
    have e4 : fleetPayload.getD 4 0 = 0 := rfl
    have r : runTime (fleetAt { phase := 1, mref := 0x11, dec := 1 } { coordRan := 90000000 }) 90000000 none = 90000000 := rfl
    simp only [healthOver, windowOf, wresOf, w 3 (by decide), w 4 (by decide), e3, e4]
    show decide ((30 * (fld 0 0 2 + 1) + 60) * 1000000 ≤ runTime _ 90000000 none) = true
    rw [r]; decide
  · exact fleet_coordinates { phase := 1, mref := 0x11, step := 1, sentAt := 10000 } rfl rfl rfl
/-- A flash operation whose verify passes has its words written, FL_STAT cleared (R470). -/
theorem test_flash_complete :
    after (exec (.flashComplete true) { withRegs [(0xA90006, 1)] with flashOp := some ⟨1, 0x10, 1, [0x1234]⟩ })
      (fun t => (t.memWord 0x10, t.reg 0xA90006, t.flashOp.isNone)) = some (0x1234, 0, true) := by decide +kernel
/-- PREPARED without COMMIT: the times-out device is STABLE again (R479). -/
theorem test_prepared_timeout :
    after (exec .preparedTimeout { (inUpd 1).setIsland .mem {} with now := 65595000000, updAon := { voted := true, voteSince := some 0 } }) (fun t => t.upd.phase) = some 0 := by decide +kernel

/-! What WellFormed refuses. -/

theorem refused_address : wellFormed (.registerWrite (.core 0) 0x9FFFFF 0) = false ∧ wellFormed (.registerWrite (.core 0) 0xAA0000 0) = false ∧
    wellFormed (.registerWrite (.core 0) 0xA00000 0) = true := by decide
theorem refused_field : wellFormed (.icbMwclr (.core 0) .net 0) = false ∧ wellFormed (.parkRequest (.core 0) 2) = false ∧
    wellFormed (.ksErase (.core 0) 4) = false ∧ wellFormed (.startActivation (.core 0) 6) = false := by decide
theorem refused_channel : wellFormed (.periodBoundary ⟨.sw, 76⟩) = false ∧ wellFormed (.periodBoundary ⟨.sw, 75⟩) = true ∧
    wellFormed (.channelStart ⟨.lux, 108⟩) = false ∧ wellFormed (.thermalLatchSet (.chan ⟨.fld, 16⟩) ⟨0, 0⟩ ⟨0, 0⟩) = false := by decide
theorem refused_wire_and_bridge : wellFormed (.wireModelUpdate ⟨.act, 0⟩ 0) = false ∧ wellFormed (.stallDetect ⟨.sw, 63⟩ 0 0) = false ∧
    wellFormed (.stallDetect ⟨.sw, 64⟩ 0 0) = true := by decide
theorem refused_input : wellFormed (.inputFilterTick .fi 32 true 0) = false ∧ wellFormed (.inputFilterTick .fi 31 true 0) = true := by decide
theorem refused_stitch : wellFormed (.stitchArrival 0 0 (fromNine 1 false 5 2 [0])) = false ∧ wellFormed (.chcmd 0 (fromNine 1 false 5 1 [0])) = false ∧
    wellFormed (.hello 0 (disc [2, 0, 0, 0, 0, 0, 0, 0])) = false ∧ wellFormed (.hello 0 (disc [1, 0, 0, 0, 0, 0, 0, 0])) = true := by decide
theorem refused_frames : wellFormed (.canFrameReceived 0 (.frame { plainFrame with id := 0x800 })) = false ∧
    wellFormed (.canFrameReceived 0 (.frame { plainFrame with data := List.replicate 9 0 })) = false ∧
    wellFormed (.linResponse 0 (.data (List.replicate 9 0) 0)) = false ∧ wellFormed (.canFrameReceived 0 (.frame plainFrame)) = true := by decide


end Sys2Proof.Tests
end

/-! Accesses outside the memory map (O34): the region rules refuse them (R17, R32), and no check of R137 lets them through. -/

namespace Sys2Proof.Machine

/-- A word address in none of the regions of Table 1.5: the gaps between them, and what follows the remote window. -/
def OutsideMap (a : Nat) : Prop :=
  (0x8C8000 ≤ a ∧ a < 0x900000) ∨ (0x920000 ≤ a ∧ a < 0xA00000) ∨ (0xAA0000 ≤ a ∧ a < 0xC00000) ∨ 0xE00000 ≤ a

/-! Each region of the decoder leaves these addresses out. -/

theorem OutsideMap.not_inWindows {a : Nat} (h : OutsideMap a) : inWindows a = false := by
  unfold OutsideMap at h
  simp only [inWindows, Bool.and_eq_false_iff, decide_eq_false_iff_not]
  omega

theorem OutsideMap.not_inAlias {a : Nat} (h : OutsideMap a) : inAlias a = false := by
  unfold OutsideMap at h
  simp only [inAlias, Bool.and_eq_false_iff, decide_eq_false_iff_not]
  omega

theorem OutsideMap.not_inLocals {a : Nat} (h : OutsideMap a) : inLocals a = false := by
  unfold OutsideMap at h
  simp only [inLocals, Bool.and_eq_false_iff, decide_eq_false_iff_not]
  omega

theorem OutsideMap.windowIsland_eq_none {a : Nat} (h : OutsideMap a) : windowIsland a = none :=
  if_neg (by unfold OutsideMap at h; omega)

/-- The region rules answer "reserved address" (R17), whatever the state, the core and the access. -/
theorem OutsideMap.regionCode_eq {a : Nat} (h : OutsideMap a) (s : State) (c : Nat) (w at_ : Bool) :
    regionCode s c w at_ a = some 0x0A := by
  obtain ⟨hflash, hsram, hsettings, hremote⟩ : ¬ a < 0x800000 ∧ ¬ a < 0x880000 ∧
      ¬ (0x900000 ≤ a ∧ a < 0x920000) ∧ ¬ (0xC00000 ≤ a ∧ a < 0xE00000) := by
    unfold OutsideMap at h
    omega
  simp only [regionCode, hflash, hsram, hsettings, hremote, h.not_inAlias, h.not_inLocals, h.windowIsland_eq_none,
    if_false, Bool.false_eq_true]

/-! The checks of R137. -/

/-- An access that passes every check has the address base plus offset, and no region rule refuses it. -/
theorem checkAccess_ok {s : State} {c off a : Nat} {ws : List Word} {n : Need} (h : checkAccess s c ws off n = .ok a) :
    a = (descBase ws + off) % 0x1000000 ∧ regionCode s c n.w n.at_ a = none := by
  simp only [checkAccess] at h
  iterate 7 (split at h; · cases h)
  split at h
  · cases h
  case h_2 hregion =>
    cases h
    exact ⟨rfl, hregion⟩

/-- Past the descriptor's own checks (limit, rights, IO), the region rule decides. -/
theorem checkAccess_of_regionCode {s : State} {c off code : Nat} {ws : List Word} {n : Need}
    (hlimit : off ≤ (ws.getD 2 0).toNat) (hr : n.r = true → bit (ws.getD 3 0) 0 = true)
    (hw : n.w = true → bit (ws.getD 3 0) 1 = true) (hx : n.x = true → bit (ws.getD 3 0) 2 = true)
    (hat : n.at_ = true → bit (ws.getD 3 0) 5 = true)
    (hio : bit (ws.getD 3 0) 3 = inWindows ((descBase ws + off) % 0x1000000))
    (hregion : regionCode s c n.w n.at_ ((descBase ws + off) % 0x1000000) = some code) :
    checkAccess s c ws off n = .error code := by
  have held {need right : Bool} (h : need = true → right = true) : (need && !right) = false := by
    cases need with
    | false => rfl
    | true => rw [h rfl]; rfl
  simp only [checkAccess, Nat.not_lt.mpr hlimit, held hr, held hw, held hx, held hat, hio, hregion,
    Bool.and_not_self, Bool.false_eq_true, if_false]

/-- An access outside the map passes no descriptor. -/
theorem checkAccess_outside {c off : Nat} {ws : List Word} (h : OutsideMap ((descBase ws + off) % 0x1000000))
    (s : State) (n : Need) : ∃ code, checkAccess s c ws off n = .error code := by
  cases hcheck : checkAccess s c ws off n with
  | error code => exact ⟨code, rfl⟩
  | ok a =>
    obtain ⟨rfl, hregion⟩ := checkAccess_ok hcheck
    rw [h.regionCode_eq] at hregion
    cases hregion

/-- A failing check is reported as a frame fault with its record (R145). -/
theorem address_of_checkAccess_error {s : State} {c fr code : Nat} {off : Word} {n : Need}
    (h : checkAccess s c ((s.core c).descWords ((s.core c).r.sel fr)) off.toNat n = .error code) :
    address s c fr off n = .error (.frame code fr ((s.core c).r.sel fr) off.toNat) := by
  simp only [address, h]

/-- Settles O34: outside the map the region rules give cause 0x0A, and an access that passes the checks breaks none. -/
theorem accessOutsideTheMapFaults : Obligations.AccessOutsideTheMapFaults := by
  intro s c fr off n sel ws a houtside
  have hmap : OutsideMap a := houtside
  refine ⟨?_, fun hlimit hr hw hx hat hio => ?_⟩
  · obtain ⟨code, hcode⟩ := checkAccess_outside hmap s n
    exact ⟨code, address_of_checkAccess_error hcode⟩
  · exact address_of_checkAccess_error <|
      checkAccess_of_regionCode hlimit hr hw hx hat (hio.trans hmap.not_inWindows.symm) (hmap.regionCode_eq s c n.w n.at_)

end Sys2Proof.Machine

/-! Branches (O17): the fetch leaves the flags a condition tests (R150), and the condition chosen decides PC (R170). -/

namespace Sys2Proof.Machine

/-! The repair of fetched words (R150) changes memory, and no core. -/

@[simp] theorem State.putOne_cores (s : State) (a : Nat) (v : Word) : (s.putOne a v).cores = s.cores := rfl

@[simp] theorem State.putWord_cores (s : State) (a : Nat) (v : Word) : (s.putWord a v).cores = s.cores := by
  unfold State.putWord
  cases s.twinAddr a with
  | none => exact s.putOne_cores a v
  | some b => exact ((s.putOne a v).putOne_cores b v).trans (s.putOne_cores a v)

@[simp] theorem State.heal_cores (s : State) (a : Nat) : (s.heal a).cores = s.cores := by
  unfold State.heal
  cases s.twinAddr a with
  | none => rfl
  | some b => rw [apply_ite State.cores, State.putWord_cores, ite_self]

@[simp] theorem fetched_cores (c len : Nat) (s : State) : (fetched c len s).cores = s.cores := by
  unfold fetched
  split
  case isFalse => rfl
  case isTrue =>
    refine List.foldlRecOn (motive := fun t : State => t.cores = s.cores) _ _ rfl fun t ht k _ => ?_
    cases address t c 0 ((t.r c).pc + w16 k) { x := true } with
    | ok a => exact (t.heal_cores _).trans ht
    | error e => exact ht

/-- The registers an effect starts from: those of the core at the boundary, PC past the instruction (R167). -/
@[simp] theorem issued_r (c : CoreId) (len : Nat) (s : State) :
    (issued c len s).r c = { s.r c with pc := (s.r c).pc + w16 len } := by
  have hcore : (fetched c len s).core c = s.core c := by
    rw [State.core, fetched_cores, State.core]
  simp only [issued, State.modCore, State.r, State.core_setCore, if_true, hcore]

/-- A branch that executes: its condition, on the flags at the boundary, decides between the target and the following word. -/
theorem execBcc_issues {c : CoreId} {s : State} (h : Issues c 1 true s) (k : Cond) (d : BitVec 7) :
    execBcc c k d s = .next (retired c (if condHolds k (s.r c).fl then
      (issued c 1 s).modR c fun r => { r with pc := r.pc + d.signExtend 16 } else issued c 1 s)) := by
  have hfl : ((issued c 1 s).r c).fl = (s.r c).fl := by rw [issued_r]
  rw [execBcc, issue1, issue_issues h, hfl]
  cases condHolds k (s.r c).fl with
  | true => rfl
  | false => rfl

/-- Settles O17: row by row, the condition of Table 6.4 is the one `condHolds` tests. -/
theorem branchesTestTable64 : Obligations.BranchesTestTable64 := by
  intro c k d s h z n cy v holds
  have hrow : condHolds k (s.r c).fl = holds := by cases k <;> rfl
  rw [← hrow]
  exact execBcc_issues h k d

end Sys2Proof.Machine

/-! Operands (O35): the short operand, the length of an instruction, and the frame and offset of each mode (R163, Table 6.2). -/

namespace Sys2Proof

theorem Opnd.d_toInt (o : Opnd) : o.d.toInt = o.short.toInt :=
  BitVec.toInt_signExtend_of_le (by decide)

/-- d is SHORT read as a signed number (R163). -/
theorem Opnd.d_bounds (o : Opnd) :
    -64 ≤ o.d.toInt ∧ o.d.toInt ≤ 63 ∧ (o.d.toInt - (o.short.toNat : Int)) % 128 = 0 := by
  have hu : o.short.toNat < 128 := o.short.isLt
  rw [Opnd.d_toInt, BitVec.toInt_eq_toNat_cond]
  split <;> omega

/-- One word, and the extension words of the mode (Table 6.2). -/
theorem Opnd.len_eq (o : Opnd) (k : Machine.Cls) :
    o.len k = 1 + (match o.mode.val with | 1 => 1 | 7 => 1 | 6 => if k = .far then 2 else 1 | _ => 0) := by
  unfold Opnd.len
  split
  case isTrue h6 => simp only [h6]; split <;> rfl
  case isFalse h6 =>
    split
    case isTrue h => obtain h | h := h <;> simp only [h]
    case isFalse h =>
      obtain ⟨h1, h7⟩ := not_or.mp h
      simp only

end Sys2Proof

namespace Sys2Proof.Machine

theorem Res.bind_assoc {α β γ : Type} (x : Res α) (f : α → State → Res β) (g : β → State → Res γ) :
    (x.bind f).bind g = x.bind fun a s => (f a s).bind g := by
  cases x with
  | ok a s => rfl
  | exc e => rfl
  | wait s => rfl

section
variable {c : Nat} {o : Opnd} {s : State}

/-! The frame and offset of each memory mode. -/

theorem effective_mode1 (h : o.mode.val = 1) : effective c o s = .ok (1, o.e) s := by simp only [effective, h]
theorem effective_mode2 (h : o.mode.val = 2) : effective c o s = .ok (1, (s.r c).ix + o.d) s := by simp only [effective, h]
theorem effective_mode3 (h : o.mode.val = 3) : effective c o s = .ok (2, (s.r c).iy + o.d) s := by simp only [effective, h]
theorem effective_mode4 (h : o.mode.val = 4) : effective c o s = .ok (3, (s.r c).sp + o.d) s := by simp only [effective, h]
theorem effective_mode7 (h : o.mode.val = 7) : effective c o s = .ok (2, o.e) s := by simp only [effective, h]

/-- Mode 5 reads its pointer through FD at u. -/
theorem effective_mode5 (h : o.mode.val = 5) : effective c o s =
    (load c 1 (BitVec.ofNat 16 o.short.toNat) false s).bind fun p s1 => .ok (1, p) s1 := by
  simp only [effective, h, BitVec.ofNat_toNat]

/-! The operand value: the immediate, or the word at the frame and offset. -/

theorem source_mode0 (h : o.mode.val = 0) : source c o s = .ok o.d s := by simp only [source, h]
theorem source_mode6 (h : o.mode.val = 6) : source c o s = .ok o.e s := by simp only [source, h]

theorem source_memory (h0 : o.mode.val ≠ 0) (h6 : o.mode.val ≠ 6) :
    source c o s = (effective c o s).bind fun p s1 => load c p.1 p.2 false s1 := by
  unfold source
  split
  · contradiction
  · contradiction
  · rfl

/-- The operand at a frame and offset formed without an access. -/
theorem source_of_effective {fr : Nat} {off : Word} (h0 : o.mode.val ≠ 0) (h6 : o.mode.val ≠ 6)
    (he : effective c o s = .ok (fr, off) s) : source c o s = load c fr off false s := by
  rw [source_memory h0 h6, he]
  rfl

theorem source_mode5 (h : o.mode.val = 5) : source c o s =
    (load c 1 (BitVec.ofNat 16 o.short.toNat) false s).bind fun p s1 => load c 1 p false s1 := by
  rw [source_memory (by omega) (by omega), effective_mode5 h, Res.bind_assoc]
  rfl

end

/-- Settles O35, mode by mode. -/
theorem operandFormsAreTable62 : Obligations.OperandFormsAreTable62 := by
  intro c o s
  obtain ⟨hlow, hhigh, hmod⟩ := o.d_bounds
  refine ⟨⟨hlow, hhigh, hmod, Nat.le_of_lt_succ o.short.isLt⟩, fun k => ?_, source_mode0, source_mode6, fun h => ?_, fun h => ?_,
    fun h => ?_, fun h => ?_, fun h => ?_, source_mode5⟩
  · exact o.len_eq k
  · exact source_of_effective (by omega) (by omega) (effective_mode1 h)
  · exact source_of_effective (by omega) (by omega) (effective_mode7 h)
  · exact source_of_effective (by omega) (by omega) (effective_mode2 h)
  · exact source_of_effective (by omega) (by omega) (effective_mode3 h)
  · exact source_of_effective (by omega) (by omega) (effective_mode4 h)

end Sys2Proof.Machine

/-! Words: what a bit or a field reads as after a bit or a field was written, and the bytes of a word (R10). -/

namespace Sys2Proof.Machine

/-- A written bit reads as written, every other bit as before. -/
theorem bit_putBit {n : Nat} (hn : n < 16) (w : Word) (b : Bool) (k : Nat) :
    bit (putBit w n b) k = if k = n then b else bit w k := by
  unfold bit putBit
  cases b with
  | true =>
    simp only [if_true, BitVec.getLsbD_or, BitVec.getLsbD_ofNat, Nat.testBit_two_pow]
    by_cases h : k = n
    · simp [h, hn]
    · simp [h, Ne.symm h]
  | false =>
    simp only [Bool.false_eq_true, if_false, BitVec.getLsbD_and, BitVec.getLsbD_not, BitVec.getLsbD_ofNat,
      Nat.testBit_two_pow]
    by_cases h : k = n
    · simp [h, hn]
    · by_cases h16 : k < 16
      · simp [h, Ne.symm h, h16]
      · simp [h, h16, BitVec.getLsbD_of_ge w k (by omega)]

@[simp] theorem bit_putBit_same {n : Nat} (hn : n < 16) (w : Word) (b : Bool) : bit (putBit w n b) n = b := by
  rw [bit_putBit hn, if_pos rfl]

theorem bit_putBit_other {n k : Nat} (hn : n < 16) (hk : k ≠ n) (w : Word) (b : Bool) :
    bit (putBit w n b) k = bit w k := by
  rw [bit_putBit hn, if_neg hk]

/-- A bit of a word after a field was written. -/
theorem bit_putFld (w : Word) (lo n v k : Nat) :
    bit (putFld w lo n v) k =
      if lo ≤ k ∧ k < lo + n then decide (k < 16) && v.testBit (k - lo) else bit w k := by
  unfold bit putFld
  simp only [BitVec.getLsbD_or, BitVec.getLsbD_and, BitVec.getLsbD_not, BitVec.getLsbD_ofNat,
    Nat.testBit_shiftLeft, Nat.testBit_mod_two_pow]
  by_cases h16 : k < 16
  · by_cases hlo : lo ≤ k
    · by_cases hhi : k < lo + n
      · have : k - lo < n := by omega
        simp [h16, hlo, hhi, this]
      · have : ¬ k - lo < n := by omega
        simp [h16, hlo, hhi, this]
    · simp [h16, hlo]
  · simp [h16, BitVec.getLsbD_of_ge w k (by omega)]

theorem testBit_fld (w : Word) (lo n i : Nat) : (fld w lo n).testBit i = (decide (i < n) && bit w (lo + i)) := by
  rw [fld, Nat.testBit_mod_two_pow, Nat.testBit_shiftRight, bit, BitVec.getLsbD]

/-- A field depends on its bits alone. -/
theorem fld_congr {w x : Word} {lo n : Nat} (h : ∀ i, i < n → bit w (lo + i) = bit x (lo + i)) : fld w lo n = fld x lo n := by
  refine Nat.eq_of_testBit_eq fun i => ?_
  rw [testBit_fld, testBit_fld]
  by_cases hi : i < n
  · rw [h i hi]
  · simp [hi]

theorem fld_lt (w : Word) (lo n : Nat) : fld w lo n < 2 ^ n := Nat.mod_lt _ (Nat.two_pow_pos n)

/-- A written field reads as written. -/
@[simp] theorem fld_putFld_same {lo n : Nat} (h : lo + n ≤ 16) (w : Word) (v : Nat) :
    fld (putFld w lo n v) lo n = v % 2 ^ n := by
  refine Nat.eq_of_testBit_eq fun i => ?_
  rw [testBit_fld, bit_putFld, Nat.testBit_mod_two_pow]
  by_cases hi : i < n
  · have h1 : lo + i < lo + n := by omega
    have h2 : lo + i < 16 := by omega
    simp [hi, h1, h2]
  · simp [hi]

theorem fld_putFld_other {lo n lo' n' : Nat} (h : lo' + n' ≤ lo ∨ lo + n ≤ lo') (w : Word) (v : Nat) :
    fld (putFld w lo n v) lo' n' = fld w lo' n' :=
  fld_congr fun i hi => by rw [bit_putFld, if_neg (by omega)]

theorem fld_putBit_other {lo n k : Nat} (hk : k < 16) (h : k < lo ∨ lo + n ≤ k) (w : Word) (b : Bool) :
    fld (putBit w k b) lo n = fld w lo n :=
  fld_congr fun i hi => bit_putBit_other hk (by omega) w b

theorem bit_putFld_other {lo n k : Nat} (h : k < lo ∨ lo + n ≤ k) (w : Word) (v : Nat) :
    bit (putFld w lo n v) k = bit w k := by
  rw [bit_putFld, if_neg (by omega)]

theorem fld_eq_mod (w : Word) (n : Nat) : fld w 0 n = w.toNat % 2 ^ n := by rw [fld, Nat.shiftRight_zero]

theorem wordOf_loByte_hiByte (w : Word) : wordOf (loByte w) (hiByte w) = w := by
  apply BitVec.eq_of_getLsbD_eq
  intro k hk
  by_cases h : k < 8
  · simp [loByte, hiByte, wordOf, hk, h]
  · have : k - 8 < 8 := by omega
    have e : 8 + (k - 8) = k := by omega
    simp [loByte, hiByte, wordOf, hk, h, this, e]

end Sys2Proof.Machine

/-! The invariant of a step (O1 to O5): a command keeps it by `exec_runs`, an idle step by `tick_runs`; and where a command
stops (Table 7.1). -/

namespace Sys2Proof.Machine

theorem Keeps.inv {s t : State} (k : Keeps s t) (h : Inv s) : Inv t :=
  ⟨by rw [k.queue]; exact h.queue, k.mem h.mem, k.regs h.regs⟩

/-- A step runs the first command that waits on the rest of the queue. -/
theorem step_cons {s : State} {c : Instr} {rest : List Instr} (h : s.pending = c :: rest) :
    step s = exec c { s with pending := rest } := by
  simp only [step, h]

theorem step_nil {s : State} (h : s.pending = []) : step s = tick s := by
  simp only [step, h]

/-- What is left of the queue meets the invariant too. -/
theorem Inv.rest {s : State} {c : Instr} {rest : List Instr} (h : Inv s) (hq : s.pending = c :: rest) :
    Inv { s with pending := rest } :=
  ⟨fun d hd => h.queue d (hq ▸ List.mem_cons_of_mem c hd), h.mem, h.regs⟩

/-- Settles O1. -/
theorem resetMeetsInvariant : Obligations.ResetMeetsInvariant :=
  ⟨fun _ hc => absurd hc List.not_mem_nil, rfl, rfl⟩

/-- Settles O2: on an empty queue by what a microsecond keeps, else by what a well-formed command keeps. -/
theorem everyStepKeepsInvariant : Obligations.EveryStepKeepsInvariant := by
  intro s h
  cases hq : s.pending with
  | nil =>
    obtain ⟨t, ht, hk⟩ := tick_runs s
    exact ⟨t, (step_nil hq).trans ht, hk.inv ⟨h.queue, h.mem, h.regs⟩, hk.queue.trans hq, hk.otp⟩
  | cons c rest =>
    obtain ⟨t, ht, hk⟩ := exec_runs c { s with pending := rest } (h.queue c (hq ▸ List.mem_cons_self))
    exact ⟨t, (step_cons hq).trans ht, hk.inv (h.rest hq), hk.queue, hk.otp⟩

/-- Settles O3. -/
theorem stepRunsFrontCommand : Obligations.StepRunsFrontCommand :=
  fun _ _ _ => step_cons rfl

/-- Settles O4. -/
theorem idleStepIsOneMicrosecond : Obligations.IdleStepIsOneMicrosecond := by
  intro s hq hm hr
  obtain ⟨t, ht, hk⟩ := tick_runs s
  exact ⟨t, (step_nil hq).trans ht, hk.time, hk.queue.trans hq, hk.mem hm, hk.regs hr, hk.otp⟩

/-! Where a command stops: at a unit the part does not have. -/

/-- The outcome is a next state, or the fault that the unit named does not exist. -/
def StopsOnlyAtUnit (o : Out) : Prop := o = .fault .noSuchUnit ∨ ∃ t, o = .next t

theorem Runs.stopsOnlyAtUnit {s : State} {o : Out} (h : Runs s o) : StopsOnlyAtUnit o :=
  let ⟨t, ht, _⟩ := h
  .inr ⟨t, ht⟩

/-- A command that runs where its unit exists, and stops where it does not. -/
theorem stopsOnlyAtUnit_of_unit {s : State} {o : Out} {p : Prop} (run : p → Runs s o) (stop : ¬p → o = .fault .noSuchUnit) :
    StopsOnlyAtUnit o := by
  by_cases h : p
  · exact (run h).stopsOnlyAtUnit
  · exact .inl (stop h)

/-- What a channel reference beyond Table 7.1 gives: each of the seventeen commands that name a channel stops. -/
structure NoChannel (ch : ChanRef) (s : State) : Prop where
  staging (r : Requester) (w : Fin 15) (v : Word) : exec (.stagingWrite r ch w v) s = .fault .noSuchUnit
  commit (r : Requester) (v : Word) : exec (.commit r ch v) s = .fault .noSuchUnit
  period : exec (.periodBoundary ch) s = .fault .noSuchUnit
  takeover : exec (.partnerTakeover ch) s = .fault .noSuchUnit
  pause : exec (.retryPauseEnd ch) s = .fault .noSuchUnit
  forgive : exec (.forgiveExpiry ch) s = .fault .noSuchUnit
  ageing : exec (.recurAgeing ch) s = .fault .noSuchUnit
  comparator (sd : Side) (i : Nat) : exec (.shortComparatorTrip ch sd i) s = .fault .noSuchUnit
  limit (i us term : Nat) : exec (.limitTrip ch i us term) s = .fault .noSuchUnit
  inrush (term : Nat) : exec (.inrushWindowEnd ch term) s = .fault .noSuchUnit
  latchSet (x y : Therm) : exec (.thermalLatchSet (.chan ch) x y) s = .fault .noSuchUnit
  latchClear (x y : Therm) : exec (.thermalLatchClear (.chan ch) x y) s = .fault .noSuchUnit
  start : exec (.channelStart ch) s = .fault .noSuchUnit
  current (m : Measure) : exec (.currentMeasurement ch m) s = .fault .noSuchUnit
  offState (i : Nat) (p : Option Nat) : exec (.offStateCheck ch i p) s = .fault .noSuchUnit
  shortBat (i : Nat) (p : Option Nat) : exec (.shortBatConfirm ch i p) s = .fault .noSuchUnit
  openLoad : exec (.openConfirm ch) s = .fault .noSuchUnit

/-- Each of them looks first whether the channel exists. -/
theorem noChannel_of_not_ok {ch : ChanRef} (h : ch.ok = false) (s : State) : NoChannel ch s := by
  have missing : (!ch.ok) = true := by rw [h]; rfl
  exact {
    staging := fun _ _ _ => if_neg (ne_true_of_eq_false h)
    commit := fun _ _ => if_neg (ne_true_of_eq_false h)
    period := if_pos missing
    takeover := if_pos missing
    pause := if_pos missing
    forgive := if_pos missing
    ageing := if_pos missing
    comparator := fun _ _ => if_pos missing
    limit := fun _ _ _ => if_pos missing
    inrush := fun _ => if_pos missing
    latchSet := fun _ _ => if_pos missing
    latchClear := fun _ _ => if_pos missing
    start := if_pos missing
    current := fun _ => if_pos missing
    offState := fun _ _ => if_pos missing
    shortBat := fun _ _ => if_pos missing
    openLoad := if_pos missing }

theorem stopsOnlyAtUnit_of_channel {ch : ChanRef} {s : State} {o : Out} (run : ch.ok = true → Keeps s s → Runs s o)
    (stop : NoChannel ch s → o = .fault .noSuchUnit) : StopsOnlyAtUnit o :=
  stopsOnlyAtUnit_of_unit (fun hc => run hc (Keeps.refl s)) fun hc => stop (noChannel_of_not_ok (eq_false_of_ne_true hc) s)

section
variable {ch : ChanRef}

theorem wireModelUpdate_noUnit (h : ch.ok = false ∨ ch.isl ≠ .sw) (s : State) (n : Nat) :
    exec (.wireModelUpdate ch n) s = .fault .noSuchUnit :=
  if_pos (h.imp_left fun hc => by rw [hc]; rfl)

theorem hbRegulationPeriod_noUnit (h : ch.ok = false ∨ ch.isl ≠ .sw ∨ ch.idx < 64) (s : State) (mean : Int) :
    exec (.hbRegulationPeriod ch mean) s = .fault .noSuchUnit :=
  if_pos (h.imp_left fun hc => by rw [hc]; rfl)

theorem stallDetect_noUnit (h : ch.ok = false ∨ ch.isl ≠ .sw ∨ ch.idx < 64) (s : State) (i us : Nat) :
    exec (.stallDetect ch i us) s = .fault .noSuchUnit :=
  if_pos (h.imp_left fun hc => by rw [hc]; rfl)

theorem halfBridge_of_not (h : ¬(ch.ok = false ∨ ch.isl ≠ .sw ∨ ch.idx < 64)) :
    ch.ok = true ∧ ch.isl = .sw ∧ ¬ ch.idx < 64 := by
  obtain ⟨hc, hrest⟩ := not_or.mp h
  obtain ⟨hs, hi⟩ := not_or.mp hrest
  exact ⟨eq_true_of_ne_false hc, Classical.not_not.mp hs, hi⟩

end

/-- Every command, well formed or not, stops only at a missing unit: the ill-formed ones are those of the cases below, and
most of them run all the same. -/
theorem exec_stopsOnlyAtUnit (c : Instr) (s : State) : StopsOnlyAtUnit (exec c s) := by
  by_cases h : wellFormed c = true
  · exact (exec_runs c s h).stopsOnlyAtUnit
  cases c
  case registerWrite r a v =>
    exact stopsOnlyAtUnit_of_unit (fun hw => execRegisterWrite_runs r a v s hw (Keeps.refl s)) fun hw => if_neg hw
  case icbMwclr r isl v => exact (execIcbMwclr_runs r isl v s (Keeps.refl s)).stopsOnlyAtUnit
  case otpProgram r v => exact (execOtpProgram_runs r v s (Keeps.refl s)).stopsOnlyAtUnit
  case marStop r v => exact (execMarStop_runs r v s (Keeps.refl s)).stopsOnlyAtUnit
  case parkRequest r v => exact (execParkRequest_runs r v s (Keeps.refl s)).stopsOnlyAtUnit
  case deepParkRequest r v => exact (execDeepParkRequest_runs r v s (Keeps.refl s)).stopsOnlyAtUnit
  case rtcLoad r v => exact (execRtcLoad_runs r v s (Keeps.refl s)).stopsOnlyAtUnit
  case stagingWrite r ch w v => exact stopsOnlyAtUnit_of_channel (execStagingWrite_runs r ch w v s) (·.staging r w v)
  case commit r ch v => exact stopsOnlyAtUnit_of_channel (execCommit_runs r ch v s) (·.commit r v)
  case periodBoundary ch => exact stopsOnlyAtUnit_of_channel (execPeriodBoundary_runs ch s) (·.period)
  case profileLoad r isl v => exact (execProfileLoad_runs r isl v s (Keeps.refl s)).stopsOnlyAtUnit
  case retryPauseEnd ch => exact stopsOnlyAtUnit_of_channel (execRetryPauseEnd_runs ch s) (·.pause)
  case forgiveExpiry ch => exact stopsOnlyAtUnit_of_channel (execForgiveExpiry_runs ch s) (·.forgive)
  case recurAgeing ch => exact stopsOnlyAtUnit_of_channel (execRecurAgeing_runs ch s) (·.ageing)
  case partnerTakeover ch => exact stopsOnlyAtUnit_of_channel (execPartnerTakeover_runs ch s) (·.takeover)
  case shortComparatorTrip ch side i => exact stopsOnlyAtUnit_of_channel (execShortComparatorTrip_runs ch side i s) (·.comparator side i)
  case limitTrip ch i us term => exact stopsOnlyAtUnit_of_channel (execLimitTrip_runs ch i us term s) (·.limit i us term)
  case inrushWindowEnd ch term => exact stopsOnlyAtUnit_of_channel (execInrushWindowEnd_runs ch term s) (·.inrush term)
  case thermalLatchSet u a b =>
    cases u with
    | chan ch =>
      exact stopsOnlyAtUnit_of_channel (ch := ch)
        (fun hc => execThermalLatchSet_runs (.chan ch) a b s (by rintro _ ⟨⟩; exact hc)) (·.latchSet a b)
    | bank k => exact absurd rfl h
  case thermalLatchClear u a b =>
    cases u with
    | chan ch =>
      exact stopsOnlyAtUnit_of_channel (ch := ch)
        (fun hc => execThermalLatchClear_runs (.chan ch) a b s (by rintro _ ⟨⟩; exact hc)) (·.latchClear a b)
    | bank k => exact absurd rfl h
  case wireModelUpdate ch n =>
    by_cases hu : ch.ok = false ∨ ch.isl ≠ .sw
    · exact .inl (wireModelUpdate_noUnit hu s n)
    · obtain ⟨hc, hs⟩ := not_or.mp hu
      exact (execWireModelUpdate_runs ch n s (Classical.not_not.mp hs) (eq_true_of_ne_false hc) (Keeps.refl s)).stopsOnlyAtUnit
  case channelStart ch => exact stopsOnlyAtUnit_of_channel (execChannelStart_runs ch s) (·.start)
  case governorEvaluation p => exact (execGovernorEvaluation_runs p s (Keeps.refl s)).stopsOnlyAtUnit
  case currentMeasurement ch m => exact stopsOnlyAtUnit_of_channel (execCurrentMeasurement_runs ch m s) (·.current m)
  case offStateCheck ch v pair => exact stopsOnlyAtUnit_of_channel (execOffStateCheck_runs ch v pair s) (·.offState v pair)
  case shortBatConfirm ch v pair => exact stopsOnlyAtUnit_of_channel (execShortBatConfirm_runs ch v pair s) (·.shortBat v pair)
  case openConfirm ch => exact stopsOnlyAtUnit_of_channel (execOpenConfirm_runs ch s) (·.openLoad)
  case hbRegulationPeriod ch mean =>
    by_cases hu : ch.ok = false ∨ ch.isl ≠ .sw ∨ ch.idx < 64
    · exact .inl (hbRegulationPeriod_noUnit hu s mean)
    · obtain ⟨hc, hs, hi⟩ := halfBridge_of_not hu
      exact (execHbRegulationPeriod_runs ch mean s hi hs hc (Keeps.refl s)).stopsOnlyAtUnit
  case stallDetect ch i us =>
    by_cases hu : ch.ok = false ∨ ch.isl ≠ .sw ∨ ch.idx < 64
    · exact .inl (stallDetect_noUnit hu s i us)
    · obtain ⟨hc, hs, hi⟩ := halfBridge_of_not hu
      exact (execStallDetect_runs ch i us s hi hs hc (Keeps.refl s)).stopsOnlyAtUnit
  case calibrationLoad r v => exact (execCalibrationLoad_runs r v s (Keeps.refl s)).stopsOnlyAtUnit
  case inputFilterTick b n raw cur => cases b with
    | si => exact absurd rfl h
    | fi => exact .inr ⟨_, rfl⟩
  case inputConfigWrite r b n v =>
    exact stopsOnlyAtUnit_of_unit (fun hu => execInputConfigWrite_runs r b n v s hu (Keeps.refl s)) fun hu => if_pos (Classical.not_not.mp hu)
  case canFrameReceived n rx => exact (execCanFrameReceived_runs n rx s (Keeps.refl s)).stopsOnlyAtUnit
  case linResponse n rsp => exact (execLinResponse_runs n rsp s (Keeps.refl s)).stopsOnlyAtUnit
  case ringEnable r v => exact (execRingEnable_runs r v s (Keeps.refl s)).stopsOnlyAtUnit
  case generalSession r v => exact (execGeneralSession_runs r v s (Keeps.refl s)).stopsOnlyAtUnit
  case addressedSession r v => exact (execAddressedSession_runs r v s (Keeps.refl s)).stopsOnlyAtUnit
  case sessionAbort r v => exact (execSessionAbort_runs r v s (Keeps.refl s)).stopsOnlyAtUnit
  case enrolment r v => exact (execEnrolment_runs r v s (Keeps.refl s)).stopsOnlyAtUnit
  case revocation r v => exact (execRevocation_runs r v s (Keeps.refl s)).stopsOnlyAtUnit
  case immoRelease r v => exact (execImmoRelease_runs r v s (Keeps.refl s)).stopsOnlyAtUnit
  case immoLock r v => exact (execImmoLock_runs r v s (Keeps.refl s)).stopsOnlyAtUnit
  case immoSet r v => exact (execImmoSet_runs r v s (Keeps.refl s)).stopsOnlyAtUnit
  case ksLoad r v => exact (execKsLoad_runs r v s (Keeps.refl s)).stopsOnlyAtUnit
  case ksLoadotp r v => exact (execKsLoadotp_runs r v s (Keeps.refl s)).stopsOnlyAtUnit
  case ksGen r v => exact (execKsGen_runs r v s (Keeps.refl s)).stopsOnlyAtUnit
  case ksImport r v => exact (execKsImport_runs r v s (Keeps.refl s)).stopsOnlyAtUnit
  case ksErase r v => exact (execKsErase_runs r v s (Keeps.refl s)).stopsOnlyAtUnit
  case wireFault src rails => exact (execWireFault_runs src rails s (Keeps.refl s)).stopsOnlyAtUnit
  case wireFaultEnd src rails => exact (execWireFaultEnd_runs src rails s (Keeps.refl s)).stopsOnlyAtUnit
  case safeEnd r v => exact (execSafeEnd_runs r v s (Keeps.refl s)).stopsOnlyAtUnit
  case firstClr r v => exact (execFirstClr_runs r v s (Keeps.refl s)).stopsOnlyAtUnit
  case stitchArrival p lw st => exact (execStitchArrival_runs p lw st s (Keeps.refl s)).stopsOnlyAtUnit
  case readStitch p st => exact (execReadStitch_runs p st s (Keeps.refl s)).stopsOnlyAtUnit
  case writeStitch p st => exact (execWriteStitch_runs p st s (Keeps.refl s)).stopsOnlyAtUnit
  case rdata st => exact (execRdata_runs st s (Keeps.refl s)).stopsOnlyAtUnit
  case wack st => exact (execWack_runs st s (Keeps.refl s)).stopsOnlyAtUnit
  case chcmd p st => exact (execChcmd_runs p st s (Keeps.refl s)).stopsOnlyAtUnit
  case chack st => exact (execChack_runs st s (Keeps.refl s)).stopsOnlyAtUnit
  case mail p st => exact (execMail_runs p st s (Keeps.refl s)).stopsOnlyAtUnit
  case mack st => exact (execMack_runs st s (Keeps.refl s)).stopsOnlyAtUnit
  case resetStitch p st => exact (execResetStitch_runs p st s (Keeps.refl s)).stopsOnlyAtUnit
  case errorStitch st => exact (execErrorStitch_runs st s (Keeps.refl s)).stopsOnlyAtUnit
  case hello p st => exact (execHello_runs p st s (Keeps.refl s)).stopsOnlyAtUnit
  case linksDisc p st => exact (execLinksDisc_runs p st s (Keeps.refl s)).stopsOnlyAtUnit
  case negreq p st => exact (execNegreq_runs p st s (Keeps.refl s)).stopsOnlyAtUnit
  case neggrant p st => exact (execNeggrant_runs p st s (Keeps.refl s)).stopsOnlyAtUnit
  case portRestart r p v => exact (execPortRestart_runs r p v s (Keeps.refl s)).stopsOnlyAtUnit
  case flashProgram r v => exact (execFlashProgram_runs r v s (Keeps.refl s)).stopsOnlyAtUnit
  case flashErase r v => exact (execFlashErase_runs r v s (Keeps.refl s)).stopsOnlyAtUnit
  case flashEraseBank r v => exact (execFlashEraseBank_runs r v s (Keeps.refl s)).stopsOnlyAtUnit
  case flashEraseGen r v => exact (execFlashEraseGen_runs r v s (Keeps.refl s)).stopsOnlyAtUnit
  case openPart r v => exact (execOpenPart_runs r v s (Keeps.refl s)).stopsOnlyAtUnit
  case closePart r v => exact (execClosePart_runs r v s (Keeps.refl s)).stopsOnlyAtUnit
  case dropPart r v => exact (execDropPart_runs r v s (Keeps.refl s)).stopsOnlyAtUnit
  case preparePart r v => exact (execPreparePart_runs r v s (Keeps.refl s)).stopsOnlyAtUnit
  case startActivation r v => exact (execStartActivation_runs r v s (Keeps.refl s)).stopsOnlyAtUnit
  case healthyCmd r v => exact (execHealthyCmd_runs r v s (Keeps.refl s)).stopsOnlyAtUnit
  all_goals exact absurd rfl h

theorem windowIsland_eq_none_of_outside {a : Nat} (h : a < 0xA00000 ∨ 0xAA0000 ≤ a) : windowIsland a = none :=
  if_neg (by omega)

/-- Settles O5. -/
theorem onlyMissingUnitsStop : Obligations.OnlyMissingUnitsStop := by
  intro s r v w ch sd x y i us term mean p m k a
  refine ⟨fun c hc => ?_, fun c => exec_stopsOnlyAtUnit c s, fun hch => ?_, fun h => wireModelUpdate_noUnit h s i,
    fun h => ⟨hbRegulationPeriod_noUnit h s mean, stallDetect_noUnit h s i us⟩, fun hk => if_pos ⟨rfl, hk⟩, fun ha => ?_⟩
  · obtain ⟨t, ht, hk⟩ := exec_runs c s hc
    exact ⟨t, ht, hk.queue, hk.time, hk.mem, hk.regs, hk.otp⟩
  · have none := noChannel_of_not_ok hch s
    exact ⟨none.staging r w v, none.commit r v, none.period, none.takeover, none.pause, none.forgive, none.ageing,
      none.comparator sd i, none.limit i us term, none.inrush term, none.latchSet x y, none.latchClear x y, none.start,
      none.current m, none.offState i p, none.shortBat i p, none.openLoad⟩
  · exact if_neg (by rw [windowIsland_eq_none_of_outside ha]; decide)

end Sys2Proof.Machine

/-! Memory and registers read back (O6, O7). -/

namespace Sys2Proof.Machine

/-! Undefined runs of flash words: a write takes the word out of its run (R471). -/

/-- The run that covers a word, as `State.undefAt` looks it up. -/
def runAt (l : List (Nat × Nat × Nat)) (a : Nat) : Option Nat :=
  (l.find? fun r => decide (r.1 ≤ a) && decide (a < r.1 + r.2.1)).map fun r => r.2.2 + (a - r.1)

theorem State.undefAt_eq (s : State) (a : Nat) : s.undefAt a = runAt s.undef a := rfl

theorem runAt_cons (b m k : Nat) (l : List (Nat × Nat × Nat)) (a : Nat) :
    runAt ((b, m, k) :: l) a = if b ≤ a ∧ a < b + m then some (k + (a - b)) else runAt l a := by
  simp only [runAt, List.find?_cons]
  by_cases h : b ≤ a ∧ a < b + m
  · simp [h]
  · simp only [if_neg h, ← Bool.decide_and, decide_eq_false h]

theorem runAt_append (l l' : List (Nat × Nat × Nat)) (a : Nat) : runAt (l ++ l') a = (runAt l a).or (runAt l' a) := by
  unfold runAt
  rw [List.find?_append]
  cases l.find? _ with
  | none => rfl
  | some r => rfl

/-- The words cut out lie in no run any more, every other word where it lay. -/
theorem runAt_cutRuns (a n : Nat) (l : List (Nat × Nat × Nat)) (b : Nat) :
    runAt (cutRuns a n l) b = if a ≤ b ∧ b < a + n then none else runAt l b := by
  induction l with
  | nil => simp [cutRuns, runAt]
  | cons r l ih =>
    obtain ⟨c, m, k⟩ := r
    have hmin : Nat.min m (a - c) = min m (a - c) := rfl
    have hmax : Nat.max c (a + n) = max c (a + n) := rfl
    have hnil : runAt [] b = none := rfl
    simp only [cutRuns, runAt_append, ih, runAt_cons, hmin, hmax]
    split <;> split <;> split <;> simp only [runAt_cons, hnil] <;> (repeat' split) <;>
      simp only [Option.or, Option.some.injEq, reduceCtorEq] <;> omega

theorem State.undefAt_setMem (s : State) (a : Nat) (v : Word) (b : Nat) :
    (s.setMem a v).undefAt b = if b = a then none else s.undefAt b := by
  rw [State.undefAt_eq, State.undefAt_eq, State.setMem]
  refine (runAt_cutRuns a 1 s.undef b).trans ?_
  congr 1
  simp only [eq_iff_iff]
  omega

theorem State.byteAt_setMem (s : State) (a : Nat) (v : Word) (b : Nat) : (s.setMem a v).byteAt b =
    if b = 2 * a + 1 then hiByte v else if b = 2 * a then loByte v else s.byteAt b := by
  simp only [State.byteAt, State.setMem, State.setByte, Sparse.get_set]

/-- A memory word after a write: the word written, or as before. -/
theorem State.memWord_setMem (s : State) (a : Nat) (v : Word) (b : Nat) :
    (s.setMem a v).memWord b = if b = a then v else s.memWord b := by
  unfold State.memWord
  rw [State.undefAt_setMem, State.byteAt_setMem, State.byteAt_setMem]
  by_cases h : b = a
  · subst h
    have h0 : ¬ 2 * b = 2 * b + 1 := by omega
    simp only [if_true, if_neg h0, wordOf_loByte_hiByte]
  · have h0 : ¬ 2 * b = 2 * a + 1 := by omega
    have h1 : ¬ 2 * b = 2 * a := by omega
    have h2 : ¬ 2 * b + 1 = 2 * a + 1 := by omega
    have h3 : ¬ 2 * b + 1 = 2 * a := by omega
    simp only [if_neg h, if_neg h0, if_neg h1, if_neg h2, if_neg h3]

/-- Settles O6. -/
theorem memoryReadsBack : Obligations.MemoryReadsBack := by
  intro s a v
  refine ⟨?_, fun b hb => ?_, fun h => Sparse.wf_set _ _ (Sparse.wf_set _ _ h)⟩
  · rw [State.memWord_setMem, if_pos rfl]
  · rw [State.memWord_setMem, if_neg hb]

/-! Registers. -/

theorem State.regBit_setReg (s : State) (a : Nat) (v : Word) (b n : Nat) :
    (s.setReg a v).regBit b n = if b = a then bit v n else s.regBit b n := by
  simp only [State.regBit, State.reg_setReg, apply_ite (bit · n)]

@[simp] theorem State.regBit_setRegBit_same (s : State) (a : Nat) {n : Nat} (hn : n < 16) (b : Bool) :
    (s.setRegBit a n b).regBit a n = b := by
  rw [State.setRegBit, State.regBit_setReg, if_pos rfl, bit_putBit_same hn]

theorem State.reg_setReg_other (s : State) {a b : Nat} (h : b ≠ a) (v : Word) : (s.setReg a v).reg b = s.reg b := by
  rw [State.reg_setReg, if_neg h]

theorem State.reg_setRegBit_other (s : State) {a b : Nat} (h : b ≠ a) (n : Nat) (v : Bool) :
    (s.setRegBit a n v).reg b = s.reg b :=
  s.reg_setReg_other h _

theorem State.reg_setRegFld_other (s : State) {a b : Nat} (h : b ≠ a) (lo n v : Nat) :
    (s.setRegFld a lo n v).reg b = s.reg b :=
  s.reg_setReg_other h _

theorem State.reg_setRegFld_same (s : State) (a lo n v : Nat) :
    (s.setRegFld a lo n v).reg a = putFld (s.reg a) lo n v := by
  rw [State.setRegFld, State.reg_setReg, if_pos rfl]

theorem State.reg_setRegBit_same (s : State) (a n : Nat) (b : Bool) :
    (s.setRegBit a n b).reg a = putBit (s.reg a) n b := by
  rw [State.setRegBit, State.reg_setReg, if_pos rfl]

theorem State.regFld_setRegFld_same (s : State) (a : Nat) {lo n : Nat} (h : lo + n ≤ 16) (v : Nat) :
    (s.setRegFld a lo n v).regFld a lo n = v % 2 ^ n := by
  rw [State.regFld, State.reg_setRegFld_same, fld_putFld_same h]

theorem State.regBit_congr {s t : State} {a : Nat} (h : t.reg a = s.reg a) (n : Nat) : t.regBit a n = s.regBit a n := by
  rw [State.regBit, State.regBit, h]

theorem State.regFld_congr {s t : State} {a : Nat} (h : t.reg a = s.reg a) (lo n : Nat) :
    t.regFld a lo n = s.regFld a lo n := by
  rw [State.regFld, State.regFld, h]

/-! The access codes (R12). -/

/-- The bits a plain write of a row stores: its RW and RWL bits, unless the row's seal is set. -/
def RegRow.stores (r : RegRow) (s : State) : Word :=
  if (match r.sealAt with | some (a, b) => s.regBit a b | none => false) then 0#16 else r.rw

theorem State.plainWrite_row {s : State} {a : Nat} {row : RegRow} (h : regRow a = some row) (v : Word) :
    s.plainWrite a v = s.setReg a (((s.reg a &&& ~~~ row.stores s) ||| (v &&& row.stores s)) &&& ~~~ (v &&& row.w1c)) := by
  simp only [State.plainWrite, h, RegRow.stores] <;> rfl

theorem RegRow.bit_stores (r : RegRow) (s : State) (k : Nat) : bit (r.stores s) k =
    (bit r.rw k && !(match r.sealAt with | some (a, b) => s.regBit a b | none => false)) := by
  rw [RegRow.stores]
  cases (match r.sealAt with | some (a, b) => s.regBit a b | none => false) with
  | false => simp
  | true => simp [bit]

theorem stored_bool : ∀ old v m w1c : Bool,
    ((old && !m || v && m) && !(v && w1c)) = if (w1c && v) = true then false else if m = true then v else old := by
  decide

theorem bit_stored {k : Nat} (hk : k < 16) (old v m w1c : Word) :
    bit (((old &&& ~~~ m) ||| (v &&& m)) &&& ~~~ (v &&& w1c)) k =
      if bit w1c k && bit v k then false else if bit m k then bit v k else bit old k := by
  simp only [bit, BitVec.getLsbD_and, BitVec.getLsbD_or, BitVec.getLsbD_not, hk, decide_true, Bool.true_and]
  exact stored_bool _ _ _ _

/-- A register write that reaches its island is applied there. -/
theorem exec_registerWrite {r : Requester} {i : Island} {a : Nat} {s t : State} (h : Arrives r i s t)
    (hw : windowIsland a = some i) (v : Word) :
    exec (.registerWrite r a v) s = .next (busWrite (asRequester t r) a v t) :=
  (if_pos (by rw [hw]; rfl)).trans (congrArg Host.Outcome.next (accessWrite_arrives h hw))

/-- Settles O7. -/
theorem accessCodesGovernWrites : Obligations.AccessCodesGovernWrites := by
  intro s a k v row hrow hk
  rw [State.plainWrite_row hrow]
  refine ⟨?_, fun b hb => s.reg_setReg_other hb _, rfl, fun r t => ?_⟩
  · rw [State.regBit_setReg, if_pos rfl, bit_stored hk, RegRow.bit_stores]
    rfl
  · exact ⟨fun h => exec_registerWrite h rfl v, fun h => exec_registerWrite h rfl v, fun h => exec_registerWrite h rfl v,
      fun h => exec_registerWrite h rfl v⟩

end Sys2Proof.Machine

/-! The flags of sums and differences (O9, R169), and the shifts bit by bit (O11, Table 6.7). -/

namespace Sys2Proof.Machine

theorem b2n_le_one (b : Bool) : b2n b ≤ 1 := by cases b <;> decide

theorem b2n_eq (b : Bool) : b2n b = if b then 1 else 0 := rfl

/-- A word as a number below 65,536, its sign and its value in two's complement. -/
theorem toInt_cases (a : Word) : a.toNat < 65536 ∧ (a.msb = true ∧ 32768 ≤ a.toNat ∧ a.toInt = (a.toNat : Int) - 65536 ∨
    a.msb = false ∧ a.toNat < 32768 ∧ a.toInt = (a.toNat : Int)) := by
  refine ⟨a.isLt, ?_⟩
  rw [BitVec.msb_eq_decide, BitVec.toInt_eq_toNat_cond]
  by_cases h : 2 * a.toNat < 2 ^ 16
  · right
    simp only [if_pos h]
    exact ⟨decide_eq_false (by omega), by omega, trivial⟩
  · left
    simp only [if_neg h]
    exact ⟨decide_eq_true (by omega), by omega, rfl⟩

theorem not_fits16_iff (n : Int) : (!fits16 n) = true ↔ n < -32768 ∨ 32767 < n := by
  simp only [fits16, Bool.not_eq_true', Bool.and_eq_false_iff, decide_eq_false_iff_not]
  omega

theorem addFlags_fst_toNat (a b : Word) (cin : Bool) :
    (addFlags a b cin).1.toNat = (a.toNat + b.toNat + b2n cin) % 65536 := BitVec.toNat_ofNat _ _

theorem subFlags_fst_toNat (a b : Word) (bin : Bool) :
    (subFlags a b bin).1.toNat = (a.toNat + 65536 - b.toNat + 65536 - b2n bin) % 65536 := by
  have h := b2n_le_one bin
  have ha := a.isLt
  have hb := b.isLt
  simp only [subFlags, w16, BitVec.toNat_sub, BitVec.toNat_ofNat]
  omega

/-- The signed overflow of a sum, by signs (R169). -/
theorem addFlags_v (a b : Word) (cin : Bool) :
    (addFlags a b cin).2.v = (a.msb == b.msb && a.msb != (addFlags a b cin).1.msb) := by
  obtain ⟨ha, ca⟩ := toInt_cases a
  obtain ⟨hb, cb⟩ := toInt_cases b
  obtain ⟨hr, cr⟩ := toInt_cases (addFlags a b cin).1
  have hsum := addFlags_fst_toNat a b cin
  have hc := b2n_le_one cin
  rw [Bool.eq_iff_iff]
  refine (not_fits16_iff _).trans ?_
  rcases ca with ⟨ma, na, ia⟩ | ⟨ma, na, ia⟩ <;> rcases cb with ⟨mb, nb, ib⟩ | ⟨mb, nb, ib⟩ <;>
    rcases cr with ⟨mr, nr, -⟩ | ⟨mr, nr, -⟩ <;>
    simp only [ma, mb, mr, ia, ib, beq_self_eq_true, bne_self_eq_false, Bool.false_eq_true, iff_false,
      Bool.and_true, Bool.and_false, iff_true, show (true == false) = false from rfl,
      show (false == true) = false from rfl, show (true != false) = true from rfl, show (false != true) = true from rfl] <;>
    omega

/-- The signed overflow of a difference, by signs (R169). -/
theorem subFlags_v (a b : Word) (bin : Bool) :
    (subFlags a b bin).2.v = (a.msb != b.msb && a.msb != (subFlags a b bin).1.msb) := by
  obtain ⟨ha, ca⟩ := toInt_cases a
  obtain ⟨hb, cb⟩ := toInt_cases b
  obtain ⟨hr, cr⟩ := toInt_cases (subFlags a b bin).1
  have hsum := subFlags_fst_toNat a b bin
  have hc := b2n_le_one bin
  rw [Bool.eq_iff_iff]
  refine (not_fits16_iff _).trans ?_
  rcases ca with ⟨ma, na, ia⟩ | ⟨ma, na, ia⟩ <;> rcases cb with ⟨mb, nb, ib⟩ | ⟨mb, nb, ib⟩ <;>
    rcases cr with ⟨mr, nr, -⟩ | ⟨mr, nr, -⟩ <;>
    simp only [ma, mb, mr, ia, ib, bne_self_eq_false, Bool.false_eq_true, iff_false,
      Bool.and_true, Bool.and_false, iff_true, show (true != false) = true from rfl,
      show (false != true) = true from rfl] <;>
    omega

/-- The four result flags stand in bits 0 to 3 of FL. -/
theorem bit_withFlags (fl : Word) (f : Flags) (n : Nat) : bit (withFlags fl f) n =
    (match n with | 0 => f.z | 1 => f.n | 2 => f.c | 3 => f.v | _ => bit fl n) := by
  simp only [withFlags, bit_putBit (show 0 < 16 by omega), bit_putBit (show 1 < 16 by omega),
    bit_putBit (show 2 < 16 by omega), bit_putBit (show 3 < 16 by omega)]
  match n with
  | 0 => rfl
  | 1 => rfl
  | 2 => rfl
  | 3 => rfl
  | _ + 4 => rfl

/-- FL as MVAF, POPF and RTE write it, bit by bit from an empty word. -/
theorem flWrite_eq (fl v : Word) (l : Bool) : flWrite fl v l =
    putFld (putBit (putBit (putBit (putBit (putBit (putBit 0 0 (bit v 0)) 1 (bit v 1)) 2 (bit v 2)) 3 (bit v 3)) 4 (bit v 4)) 5 l)
      6 2 (Nat.min (fld v 6 2) (fld fl 6 2)) := by
  have spelled : ∀ (z n c o i x : Bool) (p : Fin 4),
      packBits [(0, z), (1, n), (2, c), (3, o), (4, i), (5, x)] ||| pack [(6, p.val)] =
        putFld (putBit (putBit (putBit (putBit (putBit (putBit 0 0 z) 1 n) 2 c) 3 o) 4 i) 5 x) 6 2 p.val := by decide
  have hp : Nat.min (fld v 6 2) (fld fl 6 2) < 4 := Nat.lt_of_le_of_lt (Nat.min_le_left _ _) (fld_lt v 6 2)
  exact spelled (bit v 0) (bit v 1) (bit v 2) (bit v 3) (bit v 4) l ⟨_, hp⟩

theorem bit_zero (k : Nat) : bit 0 k = false := BitVec.getLsbD_zero

/-- Settles O9. -/
theorem flagsOfSumsAndDifferences : Obligations.FlagsOfSumsAndDifferences := by
  intro a b fl cin
  refine ⟨addFlags_fst_toNat a b cin, ?_, subFlags_fst_toNat a b cin, ?_, fun f n => ⟨bit_withFlags fl f n, fun hn => ?_,
    fun hn => ?_, ?_, ?_⟩⟩
  · rw [← addFlags_v a b cin]
    rfl
  · rw [← subFlags_v a b cin]
    rfl
  · rw [flWrite_eq, bit_putFld_other (by omega)]
    match n, hn with
    | 0, _ | 1, _ | 2, _ | 3, _ | 4, _ => simp [bit_putBit]
  · rw [flWrite_eq, bit_putFld_other (by omega)]
    simp only [bit_putBit (show 0 < 16 by omega), bit_putBit (show 1 < 16 by omega), bit_putBit (show 2 < 16 by omega),
      bit_putBit (show 3 < 16 by omega), bit_putBit (show 4 < 16 by omega), bit_putBit (show 5 < 16 by omega), bit_zero]
    rw [if_neg (by omega), if_neg (by omega), if_neg (by omega), if_neg (by omega), if_neg (by omega), if_neg (by omega)]
  · rw [flWrite_eq, bit_putFld_other (by omega), bit_putBit_same (by omega)]
  · rw [flWrite_eq, fld_putFld_same (by omega)]
    exact Nat.mod_eq_of_lt (Nat.lt_of_le_of_lt (Nat.min_le_left _ _) (fld_lt a 6 2))

/-! Shifts. Past the width a left and a right shift give 0 and carry 0, whatever branch they take. -/

theorem shl_r {w : Nat} (a : BitVec w) (n : Nat) : (shl a n).r = a <<< n := by
  unfold shl
  split
  · rfl
  · refine (BitVec.shiftLeft_eq_zero ?_).symm
    omega

theorem shl_c {w : Nat} (a : BitVec w) (n : Nat) : (shl a n).c = (decide (n ≤ w) && a.getLsbD (w - n)) := by
  unfold shl
  split
  case isTrue h => simp [h]
  case isFalse h => simp [h]

theorem shr_r {w : Nat} (a : BitVec w) (n : Nat) : (shr a n).r = a >>> n := by
  unfold shr
  split
  · rfl
  · refine (BitVec.ushiftRight_eq_zero ?_).symm
    omega

theorem shr_c {w : Nat} (a : BitVec w) (n : Nat) : (shr a n).c = a.getLsbD (n - 1) := by
  unfold shr
  split
  · rfl
  · exact (BitVec.getLsbD_of_ge a _ (by omega)).symm

theorem rol_r (b : Word) (n : Nat) {k : Nat} (hk : k < 16) : (rol b n).r.getLsbD ((k + n) % 16) = b.getLsbD k := by
  rw [rol, BitVec.getLsbD_rotateLeft]
  by_cases h : (k + n) % 16 < n % 16 % 16
  · rw [decide_eq_true h, cond_true]
    congr 1
    omega
  · have hlt : (k + n) % 16 < 16 := by omega
    rw [decide_eq_false h, cond_false, decide_eq_true hlt, Bool.true_and]
    congr 1
    omega

theorem ror_r (b : Word) (n : Nat) {k : Nat} (hk : k < 16) : (ror b n).r.getLsbD k = b.getLsbD ((k + n) % 16) := by
  rw [ror, BitVec.getLsbD_rotateRight]
  by_cases h : k < 16 - n % 16 % 16
  · rw [decide_eq_true h, cond_true]
    congr 1
    omega
  · rw [decide_eq_false h, cond_false, decide_eq_true hk, Bool.true_and]
    congr 1
    omega

/-- Settles O11. -/
theorem shiftResultsAreTable67 : Obligations.ShiftResultsAreTable67 := by
  intro w a b n k _ hn _
  refine ⟨fun hk => ⟨?_, ?_, ?_⟩, shl_c a n, shr_c a n, rfl, fun hk => ⟨?_, ?_⟩, rfl, rfl⟩
  · rw [shl_r, BitVec.getLsbD_shiftLeft]
    by_cases h : k < n
    · simp [hk, h, Nat.not_le.mpr h]
    · simp [hk, h, Nat.not_lt.mp h]
  · rw [shr_r, BitVec.getLsbD_ushiftRight, Nat.add_comm]
  · rw [asr, BitVec.getLsbD_sshiftRight, Nat.add_comm n k]
    simp [hk]
  · exact rol_r b n hk
  · exact ror_r b n hk

end Sys2Proof.Machine

/-! The register instructions of a core (O8, O10, O12 to O16, O18 to O20, O24): each is the effect of its row, met where it
executes by `issue_issues`. -/

namespace Sys2Proof.Machine

theorem issued_r_acc (c : CoreId) (len : Nat) (s : State) : ((issued c len s).r c).acc = (s.r c).acc := by rw [issued_r]
theorem issued_r_sp (c : CoreId) (len : Nat) (s : State) : ((issued c len s).r c).sp = (s.r c).sp := by rw [issued_r]
theorem issued_r_fl (c : CoreId) (len : Nat) (s : State) : ((issued c len s).r c).fl = (s.r c).fl := by rw [issued_r]

/-- An instruction whose effect comes to a state. -/
theorem issue_ok {c : CoreId} {len : Nat} {legal : Bool} {s t : State} (h : Issues c len legal s) {body : State → Res Unit}
    (hb : body (issued c len s) = .ok () t) : issue c len legal s body = .next (retired c t) := by
  rw [issue_issues h, hb]

/-- An instruction whose effect is an exception: nothing but what LFS holds off has changed (R167). -/
theorem issue_exc {c : CoreId} {len : Nat} {legal : Bool} {s : State} {e : Exc} (h : Issues c len legal s)
    {body : State → Res Unit} (hb : body (issued c len s) = .exc e) :
    issue c len legal s body = .next (takeExc c e (s.modCore c fun k => { k with inhibit := false })) := by
  rw [issue_issues h, hb]

theorem issue_wait {c : CoreId} {len : Nat} {legal : Bool} {s t : State} (h : Issues c len legal s)
    {body : State → Res Unit} (hb : body (issued c len s) = .wait t) : issue c len legal s body = .next (waits c t s) := by
  rw [issue_issues h, hb]

@[simp] theorem Res.bind_ok {α β : Type} (a : α) (s : State) (f : α → State → Res β) : (Res.ok a s).bind f = f a s := rfl
@[simp] theorem Res.bind_exc {α β : Type} (e : Exc) (f : α → State → Res β) : (Res.exc e).bind f = .exc e := rfl
@[simp] theorem Res.bind_wait {α β : Type} (s : State) (f : α → State → Res β) : (Res.wait s).bind f = .wait s := rfl

/-! Class S (R171, R173). -/

/-- An instruction that is `sourceOp` of a change of registers has that effect. -/
theorem sourceEffect_of {mk : CoreId → Opnd → Instr} {f : Word → Regs → Regs}
    (h : ∀ c o s, exec (mk c o) s = sourceOp c o s f) : SourceEffect mk f :=
  fun c o s _ _ hi hs => (h c o s).trans (sourceOp_issues hi hs f)

/-- Settles O8: row by row, the change of Table 6.5. -/
theorem registerResultInstructions : Obligations.RegisterResultInstructions := by
  refine ⟨?_, ?_, ?_, ?_, ?_, ?_, ?_, ?_, ?_, ?_, ?_, ?_, ?_, ?_, ?_, ?_, ?_, ?_, ?_, ?_⟩ <;>
    exact sourceEffect_of fun _ _ _ => rfl

/-- Settles O10: the count is v[4:0]. -/
theorem shiftsMoveByTheCount : Obligations.ShiftsMoveByTheCount := by
  refine ⟨fun p hp => ?_, fun p hp => ?_⟩
  · simp only [List.mem_cons, List.not_mem_nil, or_false] at hp
    obtain rfl | rfl | rfl | rfl | rfl := hp <;> exact sourceEffect_of fun _ _ _ => rfl
  · simp only [List.mem_cons, List.not_mem_nil, or_false] at hp
    obtain rfl | rfl | rfl := hp <;> exact sourceEffect_of fun _ _ _ => rfl

/-! Divisions: DIV and DIVS are one operation with two quotients (R173). -/

section
variable {c : CoreId} {o : Opnd} {s s1 : State} {v : Word}

theorem divideOp_quotient (h : Issues c (o.len .src) (o.legal .src) s) (hs : source c o (issued c (o.len .src) s) = .ok v s1)
    {f : Regs → Word → Option (Word × Word)} {q m : Word} (hf : f (s1.r c) v = some (q, m)) :
    divideOp c o s f = .next (retired c (s1.modR c fun r =>
      { r with acc := q, ace := m, fl := withFlags r.fl ⟨decide (q = 0), q.msb, false, false⟩ })) :=
  issue_ok h (by simp only [hs, Res.bind_ok, hf, regs])

theorem divideOp_trap (h : Issues c (o.len .src) (o.legal .src) s) (hs : source c o (issued c (o.len .src) s) = .ok v s1)
    {f : Regs → Word → Option (Word × Word)} (hf : f (s1.r c) v = none) :
    divideOp c o s f = .next (takeExc c .divide (s.modCore c fun k => { k with inhibit := false })) :=
  issue_exc h (by simp only [hs, Res.bind_ok, hf])

end

theorem fits16_iff (n : Int) : fits16 n = true ↔ -32768 ≤ n ∧ n ≤ 32767 := by
  simp only [fits16, Bool.and_eq_true, decide_eq_true_eq]

/-- The quotient and remainder of DIV, where the quotient fits. -/
def unsignedQuotient (r : Regs) (v : Word) : Option (Word × Word) :=
  if v = 0 ∨ 65536 ≤ r.long.toNat / v.toNat then none else some (w16 (r.long.toNat / v.toNat), w16 (r.long.toNat % v.toNat))

/-- The quotient and remainder of DIVS, where the quotient fits. -/
def signedQuotient (r : Regs) (v : Word) : Option (Word × Word) :=
  if v = 0 ∨ fits16 (r.long.toInt.tdiv v.toInt) = false then none
  else some (wordOfInt (r.long.toInt.tdiv v.toInt), wordOfInt (r.long.toInt.tmod v.toInt))

theorem exec_div (c : CoreId) (o : Opnd) (s : State) : exec (.div c o) s = divideOp c o s unsignedQuotient := rfl
theorem exec_divs (c : CoreId) (o : Opnd) (s : State) : exec (.divs c o) s = divideOp c o s signedQuotient := rfl

/-- Settles O12: the quotient exists exactly where the trap's condition fails. -/
theorem divisionsGiveQuotientOrTrap : Obligations.DivisionsGiveQuotientOrTrap := by
  intro c o s s1 v h hs n trap done
  rw [exec_div, exec_divs]
  refine ⟨fun ⟨hv, hq⟩ => ?_, fun htrap => ?_, fun ⟨hv, hlo, hhi⟩ => ?_, fun htrap => ?_⟩
  · exact divideOp_quotient h hs (if_neg (not_or.mpr ⟨hv, Nat.not_le.mpr hq⟩))
  · exact divideOp_trap h hs (if_pos htrap)
  · refine divideOp_quotient h hs (if_neg (not_or.mpr ⟨hv, ?_⟩))
    rw [Bool.not_eq_false]
    exact (fits16_iff _).mpr ⟨hlo, hhi⟩
  · refine divideOp_trap h hs (if_pos (htrap.imp_right fun hout => ?_))
    refine eq_false_of_ne_true fun hfits => ?_
    have hfits := (fits16_iff _).mp hfits
    change _ ≤ n.toInt.tdiv v.toInt ∧ n.toInt.tdiv v.toInt ≤ _ at hfits
    omega

/-! Stores, modifications and bytes (R171, R179). -/

theorem storeEffect_of {mk : CoreId → Opnd → Instr} {f : Regs → Word} (h : ∀ c o s, exec (mk c o) s = storeOp c o s f) :
    StoreEffect mk f :=
  fun c o s _ _ _ _ hi he ha => (h c o s).trans (storeOp_issues hi he ha f)

theorem modifyEffect_of {mk : CoreId → Opnd → Instr} {f : Regs → Word → Word × Regs}
    (h : ∀ c o s, exec (mk c o) s = modifyOp c o s f) : ModifyEffect mk f :=
  fun c o s _ _ _ _ _ _ _ hi he hr hw hl => (h c o s).trans (modifyOp_issues hi he hr hw hl f)

theorem addFlags_fst (a b : Word) : (addFlags a b false).1 = a + b := by
  apply BitVec.eq_of_toNat_eq
  rw [addFlags_fst_toNat, BitVec.toNat_add, b2n_eq]
  rfl

theorem subFlags_fst (a b : Word) : (subFlags a b false).1 = a - b := BitVec.sub_zero (a - b)

/-- Settles O13: the words INC, DEC and ADM write are the sum and the difference. -/
theorem storesAndModificationsWriteTheirOperand : Obligations.StoresAndModificationsWriteTheirOperand := by
  simp only [Obligations.StoresAndModificationsWriteTheirOperand, ← addFlags_fst, ← subFlags_fst]
  exact ⟨storeEffect_of fun _ _ _ => rfl, storeEffect_of fun _ _ _ => rfl, storeEffect_of fun _ _ _ => rfl,
    storeEffect_of fun _ _ _ => rfl, modifyEffect_of fun _ _ _ => rfl, modifyEffect_of fun _ _ _ => rfl,
    modifyEffect_of fun _ _ _ => rfl, modifyEffect_of fun _ _ _ => rfl, modifyEffect_of fun _ _ _ => rfl,
    modifyEffect_of fun _ _ _ => rfl⟩

theorem loByte_setWidth (m : Word) : (loByte m).setWidth 16 = BitVec.ofNat 16 (m.toNat % 256) := by
  apply BitVec.eq_of_toNat_eq
  simp [loByte]

theorem hiByte_setWidth (m : Word) : (hiByte m).setWidth 16 = BitVec.ofNat 16 (m.toNat / 256) := by
  apply BitVec.eq_of_toNat_eq
  have h := m.isLt
  simp only [hiByte, BitVec.toNat_setWidth, BitVec.toNat_ushiftRight, BitVec.toNat_ofNat, Nat.shiftRight_eq_div_pow]
  omega

/-- The byte selected, as a word. -/
theorem selectedByte_setWidth (h : Bool) (m : Word) :
    (if h then hiByte m else loByte m).setWidth 16 = BitVec.ofNat 16 (if h then m.toNat / 256 else m.toNat % 256) := by
  cases h with
  | true => exact hiByte_setWidth m
  | false => exact loByte_setWidth m

/-- Settles O14. -/
theorem byteInstructionsSelectOneByte : Obligations.ByteInstructionsSelectOneByte := by
  intro c o s s1 s2 fr off m h hi hb hl
  refine ⟨?_, fun a b hr hw => ?_⟩
  · refine issue_ok hi ?_
    simp only [hb, Res.bind_ok, hl, regs, selectedByte_setWidth]
  · refine issue_ok hi ?_
    simp only [hb, Res.bind_ok, modifyAt, hr, storeOk, hw, hl]

/-! The implicit group (R172). -/

theorem implicitEffect_of {mk : CoreId → Instr} {f : Regs → Regs} (h : ∀ c s, exec (mk c) s = implicitOp c s f) :
    ImplicitEffect mk f :=
  fun c s hi => (h c s).trans (issue1_regs hi f)

theorem neg_implicitEffect : ImplicitEffect .neg
    (fun r => { r with acc := 0 - r.acc, fl := withFlags r.fl (subFlags 0 r.acc false).2 }) := by
  simp only [← subFlags_fst 0]
  exact implicitEffect_of fun _ _ => rfl

theorem intMin_32 : 0x80000000#32 = BitVec.intMin 32 := by decide

/-- Settles O15: row by row, the change of Table 6.6. -/
theorem registerMovesAndImplicitFunctions : Obligations.RegisterMovesAndImplicitFunctions := by
  rw [Obligations.RegisterMovesAndImplicitFunctions, intMin_32]
  exact ⟨implicitEffect_of fun _ _ => rfl, implicitEffect_of fun _ _ => rfl, implicitEffect_of fun _ _ => rfl,
    implicitEffect_of fun _ _ => rfl, implicitEffect_of fun _ _ => rfl, neg_implicitEffect,
    implicitEffect_of fun _ _ => rfl, implicitEffect_of fun _ _ => rfl, implicitEffect_of fun _ _ => rfl,
    implicitEffect_of fun _ _ => rfl, implicitEffect_of fun _ _ => rfl, implicitEffect_of fun _ _ => rfl,
    implicitEffect_of fun _ _ => rfl, implicitEffect_of fun _ _ => rfl, implicitEffect_of fun _ _ => rfl,
    implicitEffect_of fun _ _ => rfl, implicitEffect_of fun _ _ => rfl, implicitEffect_of fun _ _ => rfl,
    implicitEffect_of fun _ _ => rfl, implicitEffect_of fun _ _ => rfl, implicitEffect_of fun _ _ => rfl,
    implicitEffect_of fun _ _ => rfl, implicitEffect_of fun _ _ => rfl, implicitEffect_of fun _ _ => rfl,
    implicitEffect_of fun _ _ => rfl, implicitEffect_of fun _ _ => rfl, implicitEffect_of fun _ _ => rfl⟩

/-! The stack (R133, R176). -/

/-- One word pushed: stored below SP, its slot checked. -/
theorem pushWords_one {c : Nat} {v : Word} {s : State} {a : Nat}
    (ha : address s c 3 ((s.r c).sp - 1) { w := true } = .ok a) :
    pushWords c [v] s = .ok () ((storeAt c a v s).modR c fun r => { r with sp := (s.r c).sp - 1 }) := by
  have hone : w16 (0 + 1) = 1 := rfl
  simp only [pushWords, List.length_singleton, List.range_one, List.map_cons, List.map_nil, pushWords.chk, storeOk, hone, ha,
    Res.bind_ok, List.zip_cons_cons, List.zip_nil_right, storeAll]

/-- One word popped: loaded at SP, which moves past it. -/
theorem popWords_one {c : Nat} {s s1 : State} {v : Word} (hl : load c 3 (s.r c).sp false s = .ok v s1) :
    popWords c 1 s = .ok [v] (s1.modR c fun r => { r with sp := (s.r c).sp + 1 }) := by
  simp only [popWords, loadWords, hl, Res.bind_ok]
  rfl

theorem pushEffect_of {mk : CoreId → Instr} {f : Regs → Word} (h : ∀ c s, exec (mk c) s = pushOp c s f) : PushEffect mk f := by
  intro c s a hi ha
  rw [← issued_r_sp c 1] at ha ⊢
  exact (h c s).trans (pushOp_issues hi ha f)

theorem popEffect_of {mk : CoreId → Instr} {f : Word → Regs → Regs} (h : ∀ c s, exec (mk c) s = popOp c s f) :
    PopEffect mk f := by
  intro c s s1 v hi hl
  rw [← issued_r_sp c 1] at hl ⊢
  exact (h c s).trans (popOp_issues hi hl f)

/-- Settles O16. -/
theorem stackInstructionsPushAndPop : Obligations.StackInstructionsPushAndPop := by
  refine ⟨pushEffect_of fun _ _ => rfl, pushEffect_of fun _ _ => rfl, pushEffect_of fun _ _ => rfl,
    pushEffect_of fun _ _ => rfl, pushEffect_of fun _ _ => rfl, popEffect_of fun _ _ => rfl, popEffect_of fun _ _ => rfl,
    popEffect_of fun _ _ => rfl, popEffect_of fun _ _ => rfl, popEffect_of fun _ _ => rfl,
    fun c o s s1 v a hi hs ha => ?_, fun c o s s1 s2 v fr off a hi he hl ha => ?_⟩
  · refine issue_ok hi ?_
    simp only [hs, Res.bind_ok, pushWords_one ha]
  · refine issue_ok hi ?_
    simp only [issued_r_sp, he, Res.bind_ok, hl, store, storeOk, ha]

/-! Jumps, calls and returns (R171, R172, R176). -/

/-- Settles O18. -/
theorem jumpsCallsAndReturns : Obligations.JumpsCallsAndReturns := by
  intro c o s s1 v a
  refine ⟨fun hi hs => ⟨?_, fun ha => ?_⟩, fun hi hl => ?_⟩
  · refine issue_ok hi ?_
    simp only [hs, Res.bind_ok, setPc, regs]
  · refine issue_ok hi ?_
    simp only [hs, Res.bind_ok, pushWords_one ha, setPc, regs, State.modR_modR]
  · refine issue_ok hi ?_
    rw [← issued_r_sp c 1] at hl ⊢
    simp only [popWords_one hl, Res.bind_ok, setPc, regs, State.modR_modR, List.headD]

/-! Frame loads and far transfers (R136, R177, R178). -/

/-- The registers with a selector in frame register `fr`: 0 FC, 1 FD, 2 FE, 3 FS. -/
def Regs.setFrame (fr sel : Nat) (r : Regs) : Regs :=
  match fr with
  | 0 => { r with fc := byte sel }
  | 1 => { r with fd := byte sel }
  | 2 => { r with fe := byte sel }
  | _ => { r with fs := byte sel }

theorem loadFrame_ok {c fr sel : Nat} {s : State} (h : selectorCode s c fr sel = none) :
    loadFrame c fr sel s = .ok () ((dropReservation c s).modR c fun r => r.setFrame fr sel) := by
  simp only [loadFrame, h] <;> rfl

theorem loadFrame_exc {c fr sel k : Nat} {s : State} (h : selectorCode s c fr sel = some k) :
    loadFrame c fr sel s = .exc (.frame k fr sel 0) := by
  simp only [loadFrame, h]

theorem checkCode_ok {c sel : Nat} {s : State} (h : selectorCode s c 0 sel = none) : checkCode c sel s = .ok () s := by
  simp only [checkCode, h]

theorem checkCode_exc {c sel k : Nat} {s : State} (h : selectorCode s c 0 sel = some k) :
    checkCode c sel s = .exc (.frame k 0 sel 0) := by
  simp only [checkCode, h]

/-- Settles O19. -/
theorem farTransfersLoadTheCodeFrame : Obligations.FarTransfersLoadTheCodeFrame := by
  intro c o s s1 s2 s3 off sel vs undone
  refine ⟨fun hi hp => ⟨fun hsel => ?_, fun hsel hpush hsel2 => ?_, fun k hsel => ⟨?_, ?_⟩⟩, fun hi hpop hsel => ?_,
    fun hi hpop hsel => ?_⟩
  · refine issue_ok hi ?_
    simp only [hp, Res.bind_ok, loadFrame_ok hsel, setPc, regs, State.modR_modR, Regs.setFrame]
  · refine issue_ok hi ?_
    simp only [hp, Res.bind_ok, checkCode_ok hsel, hpush, loadFrame_ok hsel2, setPc, regs, State.modR_modR, Regs.setFrame]
  · refine issue_exc hi ?_
    simp only [hp, Res.bind_ok, loadFrame_exc hsel, Res.bind_exc]
  · refine issue_exc hi ?_
    simp only [hp, Res.bind_ok, checkCode_exc hsel, Res.bind_exc]
  · refine issue_ok hi ?_
    simp only [hpop, Res.bind_ok, loadFrame_ok hsel, setPc, regs, State.modR_modR, Regs.setFrame]
  · refine issue_ok hi ?_
    simp only [hpop, Res.bind_ok, loadFrame_ok hsel, State.modR, State.modCore_modCore, Regs.setFrame]

/-- At the boundary after LFS no line is taken (R140, R178). -/
theorem eventLine_of_inhibit {t : State} {c : Nat} (h : (t.core c).inhibit = true) : eventLine t c = none := by
  simp only [eventLine, h, Bool.or_true, if_true]

/-- Settles O20. -/
theorem frameLoadsCheckTheSelector : Obligations.FrameLoadsCheckTheSelector := by
  intro c o s s1 v hi hs sel fault
  have hsel : fld v 0 8 = sel := fld_eq_mod v 8
  refine ⟨fun h => ?_, fun h => ?_, fun h => ⟨?_, fun t => eventLine_of_inhibit⟩, fun k => ⟨fun h => ?_, fun h => ?_, fun h => ?_⟩⟩
  · refine issue_ok hi ?_
    simp only [hs, Res.bind_ok, hsel, loadFrame_ok h, Regs.setFrame]
  · refine issue_ok hi ?_
    simp only [hs, Res.bind_ok, hsel, loadFrame_ok h, Regs.setFrame]
  · refine issue_ok hi ?_
    simp only [hs, Res.bind_ok, hsel, loadFrame_ok h, Regs.setFrame, State.modR, State.modCore_modCore]
  · refine issue_exc hi ?_
    simp only [hs, Res.bind_ok, hsel, loadFrame_exc h]
  · refine issue_exc hi ?_
    simp only [hs, Res.bind_ok, hsel, loadFrame_exc h]
  · refine issue_exc hi ?_
    simp only [hs, Res.bind_ok, hsel, loadFrame_exc h, Res.bind_exc]

end Sys2Proof.Machine

/-! Descriptors and atomic operations (O21, O24, O25). -/

namespace Sys2Proof.Machine

/-! SDT and LDT (R135, R136). -/

/-- Settles O24: both tests stand before anything is written. -/
theorem descriptorInstructionsNeedPriority3 : Obligations.DescriptorInstructionsNeedPriority3 := by
  intro c o s s1 s2 fr off ws hi e undone
  have he : fld (s.r c).acc 0 8 = e := fld_eq_mod _ 8
  refine ⟨fun hp => ⟨issue_exc hi ?_, issue_exc hi ?_⟩, fun hp heff hl hr => issue_exc hi ?_⟩
  · simp only [issued_r_acc, issued_r_fl, he, if_pos hp]
  · simp only [issued_r_acc, issued_r_fl, he, if_pos hp]
  · simp only [issued_r_acc, issued_r_fl, he, hp, ne_eq, not_true_eq_false, if_false, heff, Res.bind_ok, hl, hr, if_true]

/-- Core 0 of independent islands at PC 0x0100 of its local memory, PRI 3, ACC naming entry 255; the words from 0x0100 are a
valid descriptor of core 0 with a reserved bit of its fourth word set. -/
def sdtReserved : State :=
  let r : Regs := { acc := 0x00FF, fc := 1, fd := 2, fe := 2, fs := 2, pc := 0x0100, sp := 0x0800 }
  let k : Core := (({ st := .running, r := r } : Core).setDesc 1 [0x0000, 0x018C, 0x7FFF, 0x8004]).setDesc 2
    [0x0000, 0x018C, 0x7FFF, 0x8023]
  let up : State := { isl := (List.range 12).map fun k => (k, { st := .run, chk := true }), pairedA := false, pairedB := false }
  (up.setCore 0 k).storeList 0x880100 [0x0000, 0x0180, 0x00FF, 0x8041]

/-- The operand FD:0x0100. -/
def fdOperand : Opnd := ⟨1, 0, 0x0100, 0⟩

theorem sdtReserved_issues : Issues 0 (fdOperand.len .dst) (fdOperand.legal .dst) sdtReserved := ⟨by decide, rfl, rfl, rfl⟩

/-- The words of entry 255 of core 0 after a command. -/
def entry255 (o : Out) : List Word :=
  match o with
  | .next t => (t.core 0).descWords 255
  | _ => []

/-- The entry holds the word without its reserved bit. -/
theorem sdtReserved_entry : entry255 (exec (.sdt 0 fdOperand) sdtReserved) = [0x0000, 0x0180, 0x00FF, 0x8001] := by
  decide +kernel

/-- SDT's operand is formed and its words, no refused descriptor, are read. -/
theorem sdtReserved_reads : ∃ s1, effective 0 fdOperand (issued 0 2 sdtReserved) = .ok (1, 0x0100) s1 ∧
    ∃ s2, loadWords 0 1 0x0100 4 s1 = .ok [0x0000, 0x0180, 0x00FF, 0x8041] s2 ∧ (s2.core (s2.lead 0)).st ≠ .inReset ∧
      s2.lead 0 = 0 :=
  ⟨_, rfl, _, rfl, by decide, by decide⟩

/-- Refutes O25: a reserved bit of the fourth word reads 0 in the table, so the entry is not the four words. -/
theorem not_descriptorInstructionsReadAndWriteTables : ¬ Obligations.DescriptorInstructionsReadAndWriteTables := by
  intro h
  obtain ⟨s1, heff, s2, hload, hup, hlead⟩ := sdtReserved_reads
  obtain ⟨hsdt, -⟩ := h 0 fdOperand sdtReserved s1 s2 1 0x0100 [0x0000, 0x0180, 0x00FF, 0x8041] [] sdtReserved_issues
    (by decide) heff
  obtain ⟨t, ht, htables, -⟩ := hsdt hload (by decide)
  have hentry := sdtReserved_entry
  rw [ht] at hentry
  have htable := htables 0 (by decide) (by decide) hup
  rw [hlead] at htable
  exact absurd (hentry.symm.trans htable) (by decide)

/-! Atomic operations (R180, R181). -/

theorem w16_b2n (b : Bool) : w16 (b2n b) = if b then 1#16 else 0#16 := by
  cases b <;> rfl

/-- Settles O21. -/
theorem atomicsReadAndWriteAtOnce : Obligations.AtomicsReadAndWriteAtOnce := by
  intro c o s s1 s2 a m hi own
  refine ⟨fun ha => ⟨fun hopen hl => issue_ok hi ?_, fun hopen => issue_wait hi ?_⟩, fun ha hl => issue_ok hi ?_,
    fun ha => ⟨?_, fun hopen => issue_wait hi ?_⟩⟩
  · simp only [ha, Res.bind_ok, hopen, Bool.not_true, Bool.false_eq_true, if_false, hl, regs] <;> rfl
  · simp only [ha, Res.bind_ok, hopen, Bool.not_false, if_true]
  · simp only [ha, Res.bind_ok, hl] <;> rfl
  · intro hopen hs ok s3 s4
    refine issue_ok hi ?_
    simp only [ha, Res.bind_ok, hopen, Bool.not_true, Bool.false_eq_true, if_false, hs, w16_b2n] <;> rfl
  · simp only [ha, Res.bind_ok, hopen, Bool.not_false, if_true]

end Sys2Proof.Machine

/-! What names a core's registers (CCB_MAP and the lockstep modes), and the instructions that wait for event lines and raise
them (O22, O23; R183 to R185). -/

namespace Sys2Proof.Machine

/-- Two states that agree on which physical core stands for a logical one, and on the lockstep modes (R155, R156). -/
structure SameMap (s t : State) : Prop where
  map : t.reg 0xA8FD04 = s.reg 0xA8FD04
  cpa : t.pairedA = s.pairedA
  cpb : t.pairedB = s.pairedB

namespace SameMap

theorem refl (s : State) : SameMap s s := ⟨rfl, rfl, rfl⟩

theorem trans {s t u : State} (h : SameMap s t) (h' : SameMap t u) : SameMap s u :=
  ⟨h'.map.trans h.map, h'.cpa.trans h.cpa, h'.cpb.trans h.cpb⟩

theorem mapPair {s t : State} (h : SameMap s t) (q : Nat) : t.mapPair q = s.mapPair q := State.regFld_congr h.map _ _

theorem physCore {s t : State} (h : SameMap s t) (c : Nat) : t.physCore c = s.physCore c := by
  rw [State.physCore, State.physCore, h.mapPair]

theorem paired {s t : State} (h : SameMap s t) (c : Nat) : t.paired c = s.paired c := by
  rw [State.paired, State.paired, h.physCore, h.cpa, h.cpb]

theorem lead {s t : State} (h : SameMap s t) (c : Nat) : t.lead c = s.lead c := by
  rw [State.lead, State.lead, h.paired]

theorem block {s t : State} (h : SameMap s t) (c : Nat) : t.block c = s.block c := by
  rw [State.block, State.block, h.lead]

theorem setReg (s : State) {a : Nat} (ha : 0xA8FD04 ≠ a) (v : Word) : SameMap s (s.setReg a v) :=
  ⟨s.reg_setReg_other ha v, rfl, rfl⟩

theorem setRegBit (s : State) {a : Nat} (ha : 0xA8FD04 ≠ a) (n : Nat) (b : Bool) : SameMap s (s.setRegBit a n b) :=
  setReg s ha _

theorem modCore (s : State) (c : Nat) (f : Core → Core) : SameMap s (s.modCore c f) := ⟨rfl, rfl, rfl⟩

end SameMap

/-- A core's registers stand above CCB_MAP. -/
theorem map_lt_block (s : State) (c : Nat) : 0xA8FD04 < s.block c := by
  unfold State.block coreBlock
  split <;> omega

theorem map_ne_block (s : State) (c k : Nat) : 0xA8FD04 ≠ s.block c + k := by
  have := map_lt_block s c
  omega

@[simp] theorem State.core_modCore_same (s : State) (c : Nat) (f : Core → Core) : (s.modCore c f).core c = f (s.core c) := by
  rw [State.modCore, State.core_setCore, if_pos rfl]

theorem State.core_modCore_other (s : State) {c d : Nat} (h : d ≠ c) (f : Core → Core) :
    (s.modCore c f).core d = s.core d := by
  rw [State.modCore, State.core_setCore, if_neg h]

theorem core_setRegBit (s : State) (a n : Nat) (b : Bool) (c : Nat) : (s.setRegBit a n b).core c = s.core c := rfl

/-! WEV (R183, R184). -/

theorem logEntry_independent {c : Nat} {s : State} (h : s.paired c = false) (e : LogEnt) : logEntry c e s = s := by
  rw [logEntry, h, if_neg Bool.false_ne_true]

theorem retired_independent {c : Nat} {s : State} (h : s.paired c = false) : retired c s = s.modCore c forgetLoads := by
  rw [retired, h, if_neg Bool.false_ne_true]

/-- The line's pending bit cleared where its level is 0: a level line stays (R184). -/
def clearedLine (c l : Nat) (s : State) : State :=
  if s.regFld (s.block c + 10 + l / 8) (2 * (l % 8)) 2 = 0 then s.setRegBit (s.block c + 6 + l / 16) (l % 16) false else s

theorem clearedLine_sameMap (c l : Nat) (s : State) : SameMap s (clearedLine c l s) := by
  unfold clearedLine
  split
  · exact .setRegBit s (by rw [Nat.add_assoc]; exact map_ne_block s c _) _ _
  · exact .refl s

theorem clearedLine_core (c l : Nat) (s : State) (d : Nat) : (clearedLine c l s).core d = s.core d := by
  unfold clearedLine
  split <;> rfl

theorem clearedLine_clear {c l : Nat} {s : State} (h : s.regFld (s.block c + 10 + l / 8) (2 * (l % 8)) 2 = 0) :
    (clearedLine c l s).regBit (s.block c + 6 + l / 16) (l % 16) = false := by
  rw [clearedLine, if_pos h, State.regBit_setRegBit_same _ _ (Nat.mod_lt _ (by decide))]

/-- WEV complete at an independent core: the wait over, the line in ACC, PC past the instruction. -/
def wevDone (l len : Nat) (k : Core) : Core :=
  forgetLoads { k with wait := none, r := { k.r with acc := w16 l, pc := k.r.pc + w16 len } }

theorem wevComplete_independent {c : CoreId} {s : State} (h : s.paired c = false) (l len : Nat) :
    wevComplete c l len s = (clearedLine c l s).modCore c (wevDone l len) := by
  have h1 : (clearedLine c l s).paired c = false := ((clearedLine_sameMap c l s).paired c).trans h
  change retired c (logEntry c _ ((clearedLine c l s).modCore c _)) = _
  rw [logEntry_independent (((SameMap.modCore _ _ _).paired c).trans h1),
    retired_independent (((SameMap.modCore _ _ _).paired c).trans h1), State.modCore_modCore] <;> rfl

/-- A core that waits in WEV with a mask. -/
def wevWaits (mask : Nat) (k : Core) : Core := { forgetLoads k with inhibit := false, wait := some mask }

/-- WEV once its mask is read (R183). -/
theorem exec_wev_read {c : CoreId} {o : Opnd} {s s1 : State} {ws : List Word} (hi : Issues c (o.len .dst) (o.legal .dst) s)
    (hread : ((effective c o (fetched c (o.len .dst) s)).bind fun p t => loadWords c p.1 p.2 4 t) = .ok ws s1) :
    exec (.wev c o) s = match maskedLine (s1.modCore c (wevWaits (maskOf ws))) c (maskOf ws) with
      | some l => .next (wevComplete c l (o.len .dst) (s1.modCore c (wevWaits (maskOf ws))))
      | none => .next (s1.modCore c (wevWaits (maskOf ws))) := by
  obtain ⟨hready, hfirst, hdefined, hrest⟩ := hi
  have hnone : (s.core c).wait = none := by
    simp only [coreReady, Bool.and_eq_true, Option.isNone_iff_eq_none] at hready
    exact hready.1.1.2
  change execWev c o s = _
  simp only [execWev, hnone, hready, hfirst, hdefined, hrest, hread, if_true, Bool.not_true, Bool.false_eq_true, if_false]
  rfl

/-- Settles O22. -/
theorem waitForEventCompletesOrWaits : Obligations.WaitForEventCompletesOrWaits := by
  intro c o s s1 ws mask l
  refine ⟨fun hi hread => ⟨fun hl => ?_, fun hl => ?_⟩, fun hwait hup hline hpaired => ?_⟩
  · exact (exec_wev_read hi hread).trans (by rw [show maskedLine (s1.modCore c (wevWaits _)) c _ = some l from hl] <;> rfl)
  · exact (exec_wev_read hi hread).trans (by rw [show maskedLine (s1.modCore c (wevWaits _)) c _ = none from hl] <;> rfl)
  · refine ⟨(clearedLine c l s).modCore c (wevDone l (o.len .dst)), ?_, ?_, ?_, ?_, clearedLine_clear⟩
    · rw [← wevComplete_independent hpaired]
      change execWev c o s = _
      simp only [execWev, hwait, hup, hline, if_true]
    · rw [State.core_modCore_same] <;> rfl
    · rw [State.r, State.core_modCore_same] <;> rfl
    · rw [State.r, State.core_modCore_same, clearedLine_core] <;> rfl

/-! SEV (R144, R185). -/

/-- SEV_RAISE raises its line at core `n`. -/
def raisesAt (m : Byte) (t : State) (n : Nat) : Bool :=
  m.getLsbD n && !decide ((t.core (t.lead n)).st = .inReset) && !(t.physPair (t.mapPair (n / 2))).retired

/-- The step of SEV_RAISE at core `n`. -/
def raiseAt (c : CoreId) (m : Byte) (t : State) (n : Nat) : State :=
  if raisesAt m t n then t.raiseLine n (8 + c.val) else t

/-- `t` is `s` with pending bits set, none cleared. -/
structure MoreLines (s t : State) : Prop where
  cores : t.cores = s.cores
  mem : t.mem = s.mem
  phys : t.phys = s.phys
  map : SameMap s t
  bits : ∀ a k, s.regBit a k = true → t.regBit a k = true

namespace MoreLines

theorem refl (s : State) : MoreLines s s := ⟨rfl, rfl, rfl, .refl s, fun _ _ => id⟩

theorem trans {s t u : State} (h : MoreLines s t) (h' : MoreLines t u) : MoreLines s u :=
  ⟨h'.cores.trans h.cores, h'.mem.trans h.mem, h'.phys.trans h.phys, h.map.trans h'.map, fun a k hb => h'.bits a k (h.bits a k hb)⟩

theorem core {s t : State} (h : MoreLines s t) (c : Nat) : t.core c = s.core c := by
  rw [State.core, State.core, h.cores]

theorem physPair {s t : State} (h : MoreLines s t) (p : Nat) : t.physPair p = s.physPair p := by
  rw [State.physPair, State.physPair, h.phys]

theorem raisesAt {s t : State} (h : MoreLines s t) (m : Byte) (n : Nat) : raisesAt m t n = raisesAt m s n := by
  simp only [Machine.raisesAt, h.core, h.physPair, h.map.lead, h.map.mapPair]

theorem raiseLine (s : State) (c line : Nat) : MoreLines s (s.raiseLine c line) := by
  refine ⟨rfl, rfl, rfl, .setRegBit s (by rw [Nat.add_assoc]; exact map_ne_block s c _) _ _, fun a k hb => ?_⟩
  rw [State.raiseLine, State.setRegBit, State.regBit_setReg]
  split
  · next h =>
    subst h
    rw [bit_putBit (Nat.mod_lt _ (by decide))]
    split
    · rfl
    · exact hb
  · exact hb

theorem raiseAt (c : CoreId) (m : Byte) (s : State) (n : Nat) : MoreLines s (raiseAt c m s n) := by
  unfold Machine.raiseAt
  split
  · exact raiseLine s n _
  · exact refl s

theorem foldl_raiseAt (c : CoreId) (m : Byte) (l : List Nat) (s : State) : MoreLines s (l.foldl (Machine.raiseAt c m) s) := by
  induction l generalizing s with
  | nil => exact refl s
  | cons n l ih => exact (raiseAt c m s n).trans (ih _)

end MoreLines

theorem raiseAt_pending {c : CoreId} {m : Byte} {s : State} {n : Nat} (h : raisesAt m s n = true) :
    (raiseAt c m s n).regBit (s.block n + 6) (8 + c.val) = true := by
  have hc := c.isLt
  have hdiv : (8 + c.val) / 16 = 0 := by omega
  have hmod : (8 + c.val) % 16 = 8 + c.val := by omega
  rw [raiseAt, if_pos h, State.raiseLine, hdiv, hmod, Nat.add_zero, State.regBit_setRegBit_same _ _ (by omega)]

/-- Every core the mask names, that is neither in reset nor retired, has the line pending after the fold. -/
theorem foldl_raiseAt_pending {c : CoreId} {m : Byte} {l : List Nat} {s : State} {n : Nat} (hn : n ∈ l)
    (h : raisesAt m s n = true) : (l.foldl (raiseAt c m) s).regBit (s.block n + 6) (8 + c.val) = true := by
  induction l generalizing s with
  | nil => exact absurd hn (List.not_mem_nil)
  | cons k l ih =>
    have hk := MoreLines.raiseAt c m s k
    obtain rfl | hl := List.mem_cons.mp hn
    · exact (MoreLines.foldl_raiseAt c m l _).bits _ _ (raiseAt_pending h)
    · have := ih hl ((hk.raisesAt m n).trans h)
      rwa [hk.map.block] at this

/-- SEV_RAISE over no mask any more: the mask is gone before the lines are raised. -/
def maskTaken (k : Core) : Core := { k with sevMask := none }

theorem exec_sevRaise {c : CoreId} {s : State} {m : Byte} (hm : (s.core c).sevMask = some m)
    (hdone : storesDone c (drainCore c s) = true) (hd : ((drainCore c s).core c).sevMask = some m) :
    exec (.sevRaise c) s = .next ((List.range 8).foldl (raiseAt c m) ((drainCore c s).modCore c maskTaken)) := by
  change execSevRaise c s = _
  simp only [execSevRaise, hm, hdone, hd, Bool.not_true, Bool.false_eq_true, ne_eq, not_true_eq_false, or_self, if_false]
  rfl

theorem exec_sevRaise_waits {c : CoreId} {s : State} {m : Byte} (hm : (s.core c).sevMask = some m)
    (hdone : storesDone c (drainCore c s) = false) : exec (.sevRaise c) s = .next (drainCore c s) := by
  change execSevRaise c s = _
  simp only [execSevRaise, hm, hdone, Bool.not_false, true_or, if_true]

theorem core_maskTaken_st (s : State) (c d : Nat) : ((s.modCore c maskTaken).core d).st = (s.core d).st := by
  by_cases h : d = c
  · subst h
    rw [State.core_modCore_same] <;> rfl
  · rw [State.core_modCore_other s h]

/-- What SEV_RAISE leaves of the state `d` in which the core's stores are done (R185). -/
theorem foldl_raiseAt_maskTaken (c : CoreId) (m : Byte) (d : State) :
    ((List.range 8).foldl (raiseAt c m) (d.modCore c maskTaken)).cores = (d.modCore c maskTaken).cores ∧
    ((List.range 8).foldl (raiseAt c m) (d.modCore c maskTaken)).mem = d.mem ∧
    ∀ n, n < 8 → m.getLsbD n = true → (d.core (d.lead n)).st ≠ .inReset →
      (d.physPair (d.mapPair (n / 2))).retired = false →
      ((List.range 8).foldl (raiseAt c m) (d.modCore c maskTaken)).regBit (d.block n + 6) (8 + c.val) = true := by
  have hmore := MoreLines.foldl_raiseAt c m (List.range 8) (d.modCore c maskTaken)
  have hmap := SameMap.modCore d c maskTaken
  refine ⟨hmore.cores, hmore.mem, fun n hn hbit hup hlive => ?_⟩
  have hraises : raisesAt m (d.modCore c maskTaken) n = true := by
    rw [raisesAt, hmap.lead, hmap.mapPair, core_maskTaken_st, hbit, decide_eq_false hup]
    exact congrArg Bool.not hlive
  have hpending := foldl_raiseAt_pending (c := c) (List.mem_range.mpr hn) hraises
  rwa [hmap.block] at hpending

/-- Settles O23. -/
theorem sendEventRaisesLinesAfterStores : Obligations.SendEventRaisesLinesAfterStores := by
  intro c o s s1 v m
  refine ⟨fun hi hs => issue_ok hi ?_, fun hm => ⟨fun hdone hd => ?_, exec_sevRaise_waits hm⟩⟩
  · simp only [hs, Res.bind_ok] <;> rfl
  · exact ⟨_, exec_sevRaise hm hdone hd, foldl_raiseAt_maskTaken c m _⟩

end Sys2Proof.Machine

/-! Instruction words and commands (O26; R162 to R166, R172). -/

namespace Sys2Proof.Machine

/-! The fields of a first word. -/

theorem wordOp_lt (w : Word) : wordOp w < 64 := by
  have := w.isLt
  unfold wordOp
  omega

theorem fld_op (w : Word) : fld w 10 6 = wordOp w := by
  have := w.isLt
  rw [fld, wordOp, Nat.shiftRight_eq_div_pow]
  omega

theorem fld_mode (w : Word) : fld w 7 3 = (wordMode w).val := by
  rw [fld, Nat.shiftRight_eq_div_pow] <;> rfl

theorem fld_short (w : Word) : fld w 0 7 = (wordShort w).toNat := by
  rw [fld_eq_mod, wordShort, BitVec.toNat_ofNat]

/-- A first word is that of its fields. -/
theorem firstWord_fields (w : Word) : firstWord (wordOp w) (wordMode w) (wordShort w) = w := by
  have h := w.isLt
  apply BitVec.eq_of_toNat_eq
  rw [firstWord, BitVec.toNat_ofNat, ← fld_mode, ← fld_short, fld_eq_mod, fld, Nat.shiftRight_eq_div_pow, wordOp]
  omega

/-! The rows a word spells, and the words of a row. -/

section
variable {c : CoreId} {i : Instr}

theorem encode_opcodeInstr {op : Nat} {o : Opnd} (h : opcodeInstr c op o = some i) : encode i = some (operandWords op o) := by
  unfold opcodeInstr at h
  split at h <;> cases h <;> rfl

theorem encode_implicitInstr {f : Nat} (h : implicitInstr c f = some i) :
    encode i = some [firstWord 0x3D 0 (BitVec.ofNat 7 f)] := by
  unfold implicitInstr at h
  split at h <;> cases h <;> rfl

theorem condWord_condOf : ∀ (b : Bool) (m : Fin 8), (condOf b m).all fun k => condWord k = (if b then 0x32 else 0x31, m) := by
  decide

theorem implicitInstr_none {f : Nat} (h : implicitInstr c f = none) : 0x29 ≤ f := by
  unfold implicitInstr at h
  split at h <;> cases h
  simp only [imp_false] at *
  omega

theorem opcodeInstr_defined {op : Nat} {o : Opnd} {w : Word} : opcodeInstr c op o ≠ some (.undefinedOpcode c w) := by
  intro h
  unfold opcodeInstr at h
  split at h <;> cases h

theorem implicitInstr_defined {f : Nat} {w : Word} : implicitInstr c f ≠ some (.undefinedOpcode c w) := by
  intro h
  unfold implicitInstr at h
  split at h <;> cases h

end

theorem condOf_none : ∀ (b : Bool) (m : Fin 8), condOf b m = none → b = true ∧ m.val = 7 := by
  decide

/-- The opcode is that of an instruction with an operand (Table 6.5). -/
def takesOperand (op : Nat) : Bool :=
  !(op == 0 || op == 0x31 || op == 0x32 || op == 0x3D || op == 0x3E || op == 0x3F)

theorem takesOperand_eq_false {op : Nat} :
    takesOperand op = false ↔ op = 0 ∨ op = 0x31 ∨ op = 0x32 ∨ op = 0x3D ∨ op = 0x3E ∨ op = 0x3F := by
  simp only [takesOperand, Bool.not_eq_false', Bool.or_eq_true, beq_iff_eq, or_assoc]

theorem opcodeInstr_isSome (c : CoreId) {op : Nat} (hop : op < 64) (o : Opnd) :
    (opcodeInstr c op o).isSome = takesOperand op := by
  unfold opcodeInstr
  split
  case h_59 =>
    simp only [imp_false] at *
    exact (takesOperand_eq_false.mpr (by omega)).symm
  all_goals rfl

/-- The words after the first that belong to an instruction word. -/
def wordsAfter (w : Word) : Nat := if takesOperand (wordOp w) then extWords (wordOp w) (wordMode w) else 0

theorem if_congr_right {p : Prop} [Decidable p] {α : Type} {a b z : α} (h : p → a = b) :
    (if p then a else z) = if p then b else z := by
  split
  · next hp => exact h hp
  · rfl

theorem extWords_le (op : Nat) (m : Fin 8) : extWords op m ≤ 2 := by
  unfold extWords
  split
  · decide
  · split <;> decide

theorem wordsAfter_le (w : Word) : wordsAfter w ≤ 2 := by
  unfold wordsAfter
  split
  · exact extWords_le _ _
  · decide

section
variable (c : CoreId) {w : Word} (e e2 : Word)

theorem coreInstr_implicit (h : wordOp w = 0x3D) : coreInstr c w e e2 =
    (if (wordMode w).val = 0 then implicitInstr c (wordShort w).toNat else none).getD (.undefinedOpcode c w) := by
  rw [coreInstr]
  simp only [h, if_true]

theorem coreInstr_branch (h : wordOp w = 0x31 ∨ wordOp w = 0x32) : coreInstr c w e e2 =
    ((condOf (decide (wordOp w = 0x32)) (wordMode w)).map fun k => Instr.bcc c k (wordShort w)).getD (.undefinedOpcode c w) := by
  have h3 : wordOp w ≠ 0x3D := by omega
  rw [coreInstr]
  simp only [h3, h, if_true, if_false]

theorem coreInstr_operand (h3 : wordOp w ≠ 0x3D) (hb : ¬ (wordOp w = 0x31 ∨ wordOp w = 0x32)) : coreInstr c w e e2 =
    (opcodeInstr c (wordOp w) ⟨wordMode w, wordShort w, if 0 < extWords (wordOp w) (wordMode w) then e else 0,
      if 1 < extWords (wordOp w) (wordMode w) then e2 else 0⟩).getD (.undefinedOpcode c w) := by
  rw [coreInstr]
  simp only [h3, hb, if_false]

theorem wordsAfter_eq_zero (h : takesOperand (wordOp w) = false) : wordsAfter w = 0 := by
  rw [wordsAfter, h, if_neg Bool.false_ne_true]

theorem wordsAfter_eq (h : takesOperand (wordOp w) = true) : wordsAfter w = extWords (wordOp w) (wordMode w) := by
  rw [wordsAfter, h, if_pos rfl]

/-- The words of an operand that holds only what belongs to it. -/
theorem operandWords_taken (op : Nat) (m : Fin 8) (sh : BitVec 7) :
    operandWords op ⟨m, sh, if 0 < extWords op m then e else 0, if 1 < extWords op m then e2 else 0⟩ =
      firstWord op m sh :: [e, e2].take (extWords op m) := by
  have hle := extWords_le op m
  rw [operandWords]
  generalize extWords op m = n at hle ⊢
  match n with
  | 0 | 1 | 2 => rfl
  | n + 3 => omega

/-- A word with those that belong to it comes back from its command. -/
theorem encode_coreInstr (w : Word) : encode (coreInstr c w e e2) = some (w :: [e, e2].take (wordsAfter w)) := by
  have hw := firstWord_fields w
  have hop := wordOp_lt w
  by_cases h3 : wordOp w = 0x3D
  · rw [wordsAfter_eq_zero (by rw [h3] <;> rfl), coreInstr_implicit c e e2 h3]
    split
    · next hm =>
      cases hi : implicitInstr c (wordShort w).toNat with
      | none => rfl
      | some i =>
        rw [Option.getD_some, encode_implicitInstr hi, BitVec.ofNat_toNat, BitVec.setWidth_eq, ← h3,
          ← show wordMode w = 0 from Fin.ext hm, hw] <;> rfl
    · rfl
  by_cases hb : wordOp w = 0x31 ∨ wordOp w = 0x32
  · rw [wordsAfter_eq_zero (by obtain h | h := hb <;> rw [h] <;> rfl), coreInstr_branch c e e2 hb]
    have hcond := condWord_condOf (decide (wordOp w = 0x32)) (wordMode w)
    cases hk : condOf (decide (wordOp w = 0x32)) (wordMode w) with
    | none => rfl
    | some k =>
      rw [hk, Option.all_some, decide_eq_true_eq] at hcond
      have hopw : (if decide (wordOp w = 0x32) = true then 0x32 else 0x31) = wordOp w := by
        obtain h | h := hb <;> simp [h]
      change some [firstWord (condWord k).1 (condWord k).2 (wordShort w)] = some [w]
      rw [hcond, hopw, hw]
  · rw [coreInstr_operand c e e2 h3 hb]
    have hsome := opcodeInstr_isSome c hop ⟨wordMode w, wordShort w, if 0 < extWords (wordOp w) (wordMode w) then e else 0,
      if 1 < extWords (wordOp w) (wordMode w) then e2 else 0⟩
    cases hi : opcodeInstr c (wordOp w) _ with
    | none =>
      rw [hi] at hsome
      rw [wordsAfter_eq_zero hsome.symm] <;> rfl
    | some i =>
      rw [hi] at hsome
      rw [Option.getD_some, encode_opcodeInstr hi, operandWords_taken, hw, wordsAfter_eq hsome.symm]

/-- A command depends on the words that belong to its own alone. -/
theorem coreInstr_congr {e e2 e' e2' : Word} (he : 0 < wordsAfter w → e' = e) (he2 : 1 < wordsAfter w → e2' = e2) :
    coreInstr c w e' e2' = coreInstr c w e e2 := by
  by_cases h3 : wordOp w = 0x3D
  · rw [coreInstr_implicit c _ _ h3, coreInstr_implicit c _ _ h3]
  by_cases hb : wordOp w = 0x31 ∨ wordOp w = 0x32
  · rw [coreInstr_branch c _ _ hb, coreInstr_branch c _ _ hb]
  rw [coreInstr_operand c _ _ h3 hb, coreInstr_operand c _ _ h3 hb]
  cases ht : takesOperand (wordOp w) with
  | false =>
    have hnone : ∀ o, opcodeInstr c (wordOp w) o = none := fun o =>
      Option.not_isSome_iff_eq_none.mp (by rw [opcodeInstr_isSome c (wordOp_lt w), ht] <;> decide)
    rw [hnone, hnone]
  | true =>
    rw [wordsAfter_eq ht] at he he2
    rw [if_congr_right he, if_congr_right he2]

/-- The words of a command spell it again. -/
theorem coreInstr_encode {ws : List Word} (h : encode (coreInstr c w e e2) = some ws) :
    coreInstr c (ws.getD 0 0) (ws.getD 1 0) (ws.getD 2 0) = coreInstr c w e e2 := by
  rw [encode_coreInstr] at h
  cases h
  have hle := wordsAfter_le w
  change coreInstr c w _ _ = _
  refine coreInstr_congr c (fun h0 => ?_) (fun h1 => ?_)
  · obtain h | h : wordsAfter w = 1 ∨ wordsAfter w = 2 := by omega
    all_goals rw [h] <;> rfl
  · rw [show wordsAfter w = 2 by omega] <;> rfl

/-- The undefined words of the opcodes that take no operand. -/
theorem undefinedWord_of_noOperand (ht : takesOperand (wordOp w) = false) :
    undefinedWord w = (decide (wordOp w = 0 ∨ wordOp w = 0x3E ∨ wordOp w = 0x3F) ||
      decide (wordOp w = 0x32 ∧ (wordMode w).val = 7) ||
      decide (wordOp w = 0x3D ∧ ((wordMode w).val ≠ 0 ∨ 0x29 ≤ (wordShort w).toNat))) := by
  rw [undefinedWord]
  simp only [fld_op, fld_mode, fld_short]
  rw [takesOperand_eq_false] at ht
  obtain h | h | h | h | h | h := ht <;> rw [h] <;> simp

/-- A word that spells no row is undefined (R166). -/
theorem undefinedWord_of_coreInstr (h : coreInstr c w e e2 = .undefinedOpcode c w) : undefinedWord w = true := by
  by_cases h3 : wordOp w = 0x3D
  · rw [undefinedWord_of_noOperand (by rw [h3] <;> rfl)]
    rw [coreInstr_implicit c e e2 h3] at h
    have hshort : (wordMode w).val = 0 → 0x29 ≤ (wordShort w).toNat := by
      intro hm
      rw [if_pos hm] at h
      cases hi : implicitInstr c (wordShort w).toNat with
      | none => exact implicitInstr_none hi
      | some i =>
        rw [hi, Option.getD_some] at h
        exact absurd (hi.trans (congrArg some h)) implicitInstr_defined
    simp only [h3, true_and, Bool.or_eq_true, decide_eq_true_eq]
    exact .inr (Classical.or_iff_not_imp_left.mpr fun hm => hshort (Classical.not_not.mp hm))
  by_cases hb : wordOp w = 0x31 ∨ wordOp w = 0x32
  · rw [undefinedWord_of_noOperand (by obtain hop | hop := hb <;> rw [hop] <;> rfl)]
    rw [coreInstr_branch c e e2 hb] at h
    cases hk : condOf (decide (wordOp w = 0x32)) (wordMode w) with
    | none =>
      obtain ⟨hop, hm⟩ := condOf_none _ _ hk
      simp only [of_decide_eq_true hop, hm, and_self, decide_true, Bool.or_true, Bool.true_or]
    | some k =>
      rw [hk] at h
      exact absurd h Instr.noConfusion
  · rw [coreInstr_operand c e e2 h3 hb] at h
    have hop := wordOp_lt w
    cases hi : opcodeInstr c (wordOp w) ⟨wordMode w, wordShort w, if 0 < extWords (wordOp w) (wordMode w) then e else 0,
        if 1 < extWords (wordOp w) (wordMode w) then e2 else 0⟩ with
    | none =>
      have ht := opcodeInstr_isSome c hop ⟨wordMode w, wordShort w, if 0 < extWords (wordOp w) (wordMode w) then e else 0,
        if 1 < extWords (wordOp w) (wordMode w) then e2 else 0⟩
      rw [hi] at ht
      have hrow := takesOperand_eq_false.mp ht.symm
      rw [undefinedWord_of_noOperand ht.symm, decide_eq_true (by omega), Bool.true_or, Bool.true_or]
    | some i =>
      rw [hi, Option.getD_some] at h
      exact absurd (hi.trans (congrArg some h)) opcodeInstr_defined

end

/-! Decode checks come before any operand is read (R166). -/

section
variable {c : CoreId} {s : State}

/-- An encoding that is not defined takes line 3. -/
theorem issue_illegal (hr : coreReady s c = true) (hf : fetchOk c 0 1 s = .ok ()) {len : Nat} {legal : Bool}
    (hl : legal = false) (body : State → Res Unit) : issue c len legal s body = .next (takeExc c .illegal s) := by
  simp only [issue, execute, hr, hf, hl, Bool.not_false, if_true]

theorem exec_wev_illegal {o : Opnd} (hr : coreReady s c = true) (hf : fetchOk c 0 1 s = .ok ()) (hl : o.legal .dst = false) :
    exec (.wev c o) s = .next (takeExc c .illegal s) := by
  have hwait : (s.core c).wait = none := by
    simp only [coreReady, Bool.and_eq_true, Option.isNone_iff_eq_none] at hr
    exact hr.1.1.2
  change execWev c o s = _
  simp only [execWev, hwait, hr, hf, hl, Bool.not_false, if_true]

theorem exec_undefinedOpcode {w : Word} (hr : coreReady s c = true) (hf : fetchOk c 0 1 s = .ok ())
    (hw : undefinedWord w = true) : exec (.undefinedOpcode c w) s = .next (takeExc c .illegal s) := by
  change execUndefinedOpcode c w s = _
  rw [execUndefinedOpcode, if_pos hw, issue_illegal hr hf rfl]

end

/-- Settles O26. -/
theorem undefinedEncodingsTakeLine3 : Obligations.UndefinedEncodingsTakeLine3 := by
  refine ⟨fun c w e e2 => ⟨⟨_, wordsAfter_le w, encode_coreInstr c e e2 w⟩, fun ws => coreInstr_encode c e e2,
    undefinedWord_of_coreInstr c e e2⟩, fun c o s w hr hf => ⟨exec_undefinedOpcode hr hf, fun hl => ?_, fun hl => ?_,
    fun hl => ⟨issue_illegal hr hf hl _, issue_illegal hr hf hl _⟩, fun hl => ⟨issue_illegal hr hf hl _, issue_illegal hr hf hl _⟩,
    fun hl => ⟨issue_illegal hr hf hl _, issue_illegal hr hf hl _⟩⟩⟩
  · simp only [List.forall_mem_cons]
    refine ⟨?_, ?_, ?_, ?_, ?_, ?_, ?_, ?_, ?_, ?_, ?_, ?_, ?_, ?_, ?_, ?_, ?_, ?_, ?_, ?_, ?_, ?_, ?_, ?_, ?_, ?_, ?_, ?_, ?_,
      ?_, ?_, ?_, ?_, ?_, ?_, fun _ h => absurd h List.not_mem_nil⟩
    all_goals exact issue_illegal hr hf hl _
  · simp only [List.forall_mem_cons]
    refine ⟨?_, ?_, ?_, ?_, ?_, ?_, ?_, ?_, ?_, ?_, ?_, ?_, ?_, ?_, exec_wev_illegal hr hf hl, ?_, ?_,
      fun _ h => absurd h List.not_mem_nil⟩
    all_goals exact issue_illegal hr hf hl _

end Sys2Proof.Machine

/-! Entry into event and exception lines (O27, O28; R139 to R145). -/

namespace Sys2Proof.Machine

/-! The rollback log is the one thing a log entry changes (R152). -/

theorem logEntry_core (c : Nat) (e : LogEnt) (s : State) : ∃ l, (logEntry c e s).core c = { s.core c with log := l } := by
  unfold logEntry
  split
  · exact ⟨_, State.core_modCore_same s c _⟩
  · exact ⟨_, rfl⟩

theorem logEntry_reg (c : Nat) (e : LogEnt) (s : State) (a : Nat) : (logEntry c e s).reg a = s.reg a := by
  unfold logEntry
  split <;> rfl

theorem State.reg_modCore (s : State) (c : Nat) (f : Core → Core) (a : Nat) : (s.modCore c f).reg a = s.reg a := rfl

/-! Entry into a line (R141). -/

/-- FL on entry: PRI at the line's level; for an exception level 3, and I clear. -/
def enteredFl (exc : Bool) (lvl : Nat) (fl : Word) : Word :=
  if exc then putBit (putFld fl 6 2 lvl) 4 false else putFld fl 6 2 lvl

/-- A core at the first instruction of a line's handler. -/
def enteredCore (exc : Bool) (lvl : Nat) (pc : Word) (k : Core) : Core :=
  { k with
    exc := k.exc || exc
    wait := none
    excLine := none, partway := false, got := [], pos := 0, entering := none
    r := { k.r with pc := pc, fl := enteredFl exc lvl k.r.fl } }

/-- The level of a line (EV_LEVEL, R139). -/
def lineLevel (c line : Nat) (exc : Bool) (s : State) : Nat :=
  if exc then 3 else s.regFld (s.block c + 10 + line / 8) (2 * (line % 8)) 2

/-- Frame FC loaded and the line's pending bit cleared. -/
def lineTaken (c line : Nat) (sel : Word) (s d : State) : State :=
  ((dropReservation c d).modR c fun r => r.setFrame 0 (fld sel 0 8)).setRegBit (s.block c + 6 + line / 16) (line % 16) false

/-- The state entry into a line ends in, from the state `d` after its table words. -/
def enteredState (c line : Nat) (exc : Bool) (pc sel : Word) (s d : State) : State :=
  logEntry c (.entry ((lineTaken c line sel s d).core c).since line)
    ((lineTaken c line sel s d).modCore c (enteredCore exc (lineLevel c line exc s) pc))

theorem enterLine_ok {c line : Nat} {ret pc sel : Word} {exc : Bool} {s a b d : State}
    (hpush : pushWords c [(s.r c).fl, (s.r c).fc.setWidth 16, ret] s = .ok () a)
    (hpc : tableWord c (2 * line) a = .ok pc b) (hsel : tableWord c (2 * line + 1) b = .ok sel d)
    (hcode : selectorCode d c 0 (fld sel 0 8) = none) :
    enterLine c line ret exc s = .ok () (enteredState c line exc pc sel s d) := by
  have hentry : tableEntry c line a = .ok (pc, sel) d := by
    simp only [tableEntry, hpc, Res.bind_ok, hsel]
  simp only [enterLine, hpush, Res.bind_ok, hentry, waitUnpushed, loadFrame_ok hcode]
  rfl

/-- The core a line was entered at, but for its log. -/
theorem enteredState_core (c line : Nat) (exc : Bool) (pc sel : Word) (s d : State) : ∃ l,
    (enteredState c line exc pc sel s d).core c = { enteredCore exc (lineLevel c line exc s) pc
      { d.core c with resv := none, r := { (d.core c).r with fl := putBit (d.core c).r.fl 5 false, fc := byte (fld sel 0 8) } }
      with log := l } := by
  obtain ⟨l, hl⟩ := logEntry_core c (.entry ((lineTaken c line sel s d).core c).since line)
    ((lineTaken c line sel s d).modCore c (enteredCore exc (lineLevel c line exc s) pc))
  refine ⟨l, hl.trans ?_⟩
  rw [State.core_modCore_same, lineTaken, core_setRegBit, State.modR, State.core_modCore_same, dropReservation,
    State.core_modCore_same]
  rfl

theorem enteredState_clear (c line : Nat) (exc : Bool) (pc sel : Word) (s d : State) :
    (enteredState c line exc pc sel s d).regBit (s.block c + 6 + line / 16) (line % 16) = false := by
  rw [enteredState, State.regBit_congr ((logEntry_reg c _ _ _).trans (State.reg_modCore _ c _ _)), lineTaken,
    State.regBit_setRegBit_same _ _ (Nat.mod_lt _ (by decide))]

theorem fld_two_lt (w : Word) (lo : Nat) : fld w lo 2 < 4 := fld_lt w lo 2

/-- The fields of FL on event entry: PRI the level, L clear, I as it was. -/
theorem enteredFl_event {lvl : Nat} (h : lvl < 4) (fl : Word) :
    fld (enteredFl false lvl (putBit fl 5 false)) 6 2 = lvl ∧ bit (enteredFl false lvl (putBit fl 5 false)) 5 = false ∧
      bit (enteredFl false lvl (putBit fl 5 false)) 4 = bit fl 4 := by
  have h6 : (6 : Nat) + 2 ≤ 16 := by decide
  rw [enteredFl, if_neg Bool.false_ne_true]
  refine ⟨?_, ?_, ?_⟩
  · exact (fld_putFld_same h6 _ _).trans (Nat.mod_eq_of_lt h)
  · rw [bit_putFld_other (by decide), bit_putBit_same (by decide)]
  · rw [bit_putFld_other (by decide), bit_putBit_other (by decide) (by decide)]

/-- The fields of FL on exception entry: PRI 3, L and I clear. -/
theorem enteredFl_exception (fl : Word) :
    fld (enteredFl true 3 (putBit fl 5 false)) 6 2 = 3 ∧ bit (enteredFl true 3 (putBit fl 5 false)) 4 = false ∧
      bit (enteredFl true 3 (putBit fl 5 false)) 5 = false := by
  have h6 : (6 : Nat) + 2 ≤ 16 := by decide
  rw [enteredFl, if_pos rfl]
  refine ⟨?_, ?_, ?_⟩
  · rw [fld_putBit_other (by decide) (by decide), fld_putFld_same h6] <;> rfl
  · rw [bit_putBit_same (by decide)]
  · rw [bit_putBit_other (by decide) (by decide), bit_putFld_other (by decide), bit_putBit_same (by decide)]

/-- Event entry at a core with no instruction part-way and no exception waiting (R141, R183). -/
theorem exec_eventEntry {c : CoreId} {l : Nat} {s t : State} (hup : coreUp s c = true) (hpart : (s.core c).partway = false)
    (hline : eventLine s c = some l) (hmask : ∀ m, (s.core c).wait = some m → maskedLine s c m = none)
    (henter : enterLine c l (s.r c).pc false s = .ok () t) : exec (.eventEntry c) s = .next t := by
  have hexc : (s.core c).excLine.isSome = false := by
    simp only [coreUp, Bool.and_eq_true, Option.isNone_iff_eq_none] at hup
    rw [hup.1.2] <;> rfl
  change execEventEntry c s = _
  cases hwait : (s.core c).wait with
  | none =>
    simp only [execEventEntry, hexc, hup, hpart, hline, hwait, henter, Bool.false_eq_true, if_false, if_true]
  | some m =>
    simp only [execEventEntry, hexc, hup, hpart, hline, hwait, hmask m hwait, henter, Option.isSome_none, Bool.false_eq_true,
      if_false, if_true]

/-- Settles O27. -/
theorem eventEntryTakesTheLine : Obligations.EventEntryTakesTheLine := by
  intro c l pc sel s a b d hup hpart hline hmask hpush hpc hsel hcode
  refine ⟨_, exec_eventEntry hup hpart hline hmask (enterLine_ok hpush hpc hsel hcode), ?_⟩
  obtain ⟨log, hcore⟩ := enteredState_core c l false pc sel s d
  obtain ⟨hpri, hl, hi⟩ := enteredFl_event (fld_two_lt (s.reg (s.block c + 10 + l / 8)) (2 * (l % 8))) (d.core c).r.fl
  rw [State.r, hcore]
  exact ⟨rfl, rfl, hpri, hl, hi, rfl, rfl, rfl, rfl, enteredState_clear c l false pc sel s d⟩

/-! Exceptions (R141, R142, R145). -/

theorem Res.bind_eq_ok {α β : Type} {x : Res α} {f : α → State → Res β} {b : β} {t : State} (h : x.bind f = .ok b t) :
    ∃ a s, x = .ok a s ∧ f a s = .ok b t := by
  cases x with
  | ok a s => exact ⟨a, s, rfl, h⟩
  | exc e => cases h
  | wait s => cases h

theorem loadFrame_eq_ok {c fr sel : Nat} {s t : State} (h : loadFrame c fr sel s = .ok () t) :
    t = (dropReservation c s).modR c fun r => r.setFrame fr sel := by
  cases hcode : selectorCode s c fr sel with
  | none =>
    rw [loadFrame_ok hcode] at h
    cases h
    rfl
  | some k =>
    rw [loadFrame_exc hcode] at h
    cases h

/-- Where a line is entered, the core is at its handler. -/
theorem enterLine_eq_ok {c line : Nat} {ret : Word} {exc : Bool} {s t : State} (h : enterLine c line ret exc s = .ok () t) :
    ∃ pc sel d, t = enteredState c line exc pc sel s d := by
  obtain ⟨_, a, -, h⟩ := Res.bind_eq_ok h
  obtain ⟨⟨pc, sel⟩, d, -, h⟩ := Res.bind_eq_ok h
  obtain ⟨_, u, hu, h⟩ := Res.bind_eq_ok h
  cases loadFrame_eq_ok hu
  cases h
  exact ⟨pc, sel, d, rfl⟩

/-- The fault words are those of the core's own block: nothing else changes. -/
theorem recordFault_core (c : Nat) (e : Exc) (s : State) (d : Nat) : (recordFault c e s).core d = s.core d := by
  cases e <;> rfl

theorem recordFault_sameMap (c : Nat) (e : Exc) (s : State) : SameMap s (recordFault c e s) := by
  have hset : ∀ t : State, ∀ k v, SameMap t (t.setReg (s.block c + k) v) := fun t k v => .setReg t (map_ne_block s c k) v
  cases e with
  | frame code fr sel off => exact (hset _ _ _).trans ((hset _ _ _).trans ((hset _ _ _).trans (hset _ _ _)))
  | memErr a => exact (hset _ _ _).trans ((hset _ _ _).trans ((hset _ _ _).trans (hset _ _ _)))
  | illegal => exact .refl s
  | divide => exact .refl s

/-- The four fault words of a frame fault (R145). -/
theorem recordFault_frame (c code fr sel off : Nat) (s : State) :
    (recordFault c (.frame code fr sel off) s).reg (s.block c + 0x12) = pack [(0, code), (5, fr), (8, sel % 256)] ∧
    (recordFault c (.frame code fr sel off) s).reg (s.block c + 0x13) = w16 off ∧
    (recordFault c (.frame code fr sel off) s).reg (s.block c + 0x14) = (s.r c).pc ∧
    (recordFault c (.frame code fr sel off) s).reg (s.block c + 0x15) = (s.r c).fc.setWidth 16 := by
  simp [recordFault]

/-- What an exception starts from: its record made, what the instruction had loaded forgotten. -/
def faulted (c : Nat) (e : Exc) (s : State) : State :=
  (recordFault c e s).modCore c fun k => { forgetLoads k with remTag := none, remAns := none }

section
variable {c : CoreId} {e : Exc} {s : State}

theorem faulted_exc : ((faulted c e s).core c).exc = (s.core c).exc := by
  rw [faulted, State.core_modCore_same, recordFault_core] <;> rfl

theorem faulted_pc : ((faulted c e s).r c).pc = (s.r c).pc := by
  rw [State.r, faulted, State.core_modCore_same, recordFault_core] <;> rfl

theorem faulted_paired : (faulted c e s).paired c = s.paired c :=
  ((recordFault_sameMap c e s).trans (.modCore _ c _)).paired c

theorem faulted_reg (a : Nat) : (faulted c e s).reg a = (recordFault c e s).reg a := State.reg_modCore _ _ _ _

theorem takeExc_double (h : (s.core c).exc = true) : takeExc c e s = doubleFault c (faulted c e s) :=
  if_pos (faulted_exc.trans h)

theorem takeExc_independent (hp : s.paired c = false) (h : (s.core c).exc = false) :
    takeExc c e s = enterExc c e.line (faulted c e s) :=
  (if_neg (ne_true_of_eq_false (faulted_exc.trans h))).trans (if_neg (ne_true_of_eq_false (faulted_paired.trans hp)))

end

/-- Settles O28. -/
theorem exceptionsEnterAtLevel3 : Obligations.ExceptionsEnterAtLevel3 := by
  intro c e s hp s1
  have hs1 : s1 = faulted c e s := rfl
  clear_value s1
  subst hs1
  refine ⟨fun code fr sel off he => ?_, takeExc_double, fun hexc t ht => ?_, fun hexc e2 he2 => ?_, rfl⟩
  · subst he
    simp only [faulted_reg]
    exact recordFault_frame c code fr sel off s
  · rw [← faulted_pc (c := c) (e := e)] at ht
    refine ⟨?_, ?_⟩
    · rw [takeExc_independent hp hexc, enterExc]
      simp only [ht]
    · obtain ⟨pc, sel, d, rfl⟩ := enterLine_eq_ok ht
      obtain ⟨log, hcore⟩ := enteredState_core c e.line true pc sel (faulted c e s) d
      rw [State.r, hcore]
      exact ⟨Bool.or_true _, enteredFl_exception _⟩
  · rw [← faulted_pc (c := c) (e := e)] at he2
    rw [takeExc_independent hp hexc, enterExc]
    simp only [he2]

end Sys2Proof.Machine

/-! What instructions leave unchanged, and CHK (O29 to O31; R151, R187). -/

namespace Sys2Proof.Machine

/-! The end of an instruction changes its core's record alone, where no foreign write waits (R151). -/

/-- The checkpoint's change of the core's record. -/
def checkpointed (k : Core) : Core :=
  let dirty := (List.range 256).filter fun e => (List.range 4).any fun j =>
    decide (k.desc.get (fun _ => 0#16) (4 * e + j) ≠ k.ckDesc.get (fun _ => 0#16) (4 * e + j))
  { k with ckpt := k.r, ckDesc := k.desc, since := 0, log := [], ckBusy := true, ckDirty := dirty, ckDue := false, held := [] }

theorem takeCheckpoint_noneHeld {c : Nat} {s : State} (h : (s.core c).held = []) :
    takeCheckpoint c s = s.modCore c checkpointed := by
  rw [takeCheckpoint, h] <;> rfl

/-- The end of an instruction of a pair: counted, what it loaded forgotten. -/
def counted (k : Core) : Core := { forgetLoads k with since := k.since + 1 }

theorem retired_paired {c : Nat} {s : State} (h : s.paired c = true) : retired c s = settle c (s.modCore c counted) := by
  rw [retired, if_pos h] <;> rfl

/-- The change of a core's record keeps its registers and its descriptor table. -/
def KeepsRegs (g : Core → Core) : Prop := ∀ k, (g k).r = k.r ∧ (g k).desc = k.desc

/-- The end of an instruction keeps the registers it has left, and everything but its own core's record. -/
theorem retired_noneHeld {c : CoreId} {s : State} (h : NoneHeld c s) :
    ∃ g, retired c s = s.modCore c g ∧ KeepsRegs g := by
  cases hp : s.paired c with
  | false => exact ⟨forgetLoads, retired_independent hp, fun _ => ⟨rfl, rfl⟩⟩
  | true =>
    rw [retired_paired hp, settle]
    split
    · refine ⟨fun k => checkpointed (counted k), ?_, fun _ => ⟨rfl, rfl⟩⟩
      rw [takeCheckpoint_noneHeld (by rw [State.core_modCore_same]; exact h hp), State.modCore_modCore]
    · exact ⟨counted, rfl, fun _ => ⟨rfl, rfl⟩⟩

/-- What the end of an instruction leaves of the state `s` its effect has reached by a change of core `c` alone. -/
theorem frame_of_modCore (s : State) (c : CoreId) (g : Core → Core) :
    { s.modCore c g with cores := s.cores } = s ∧ (∀ d, d ≠ c.val → (s.modCore c g).core d = s.core d) ∧
      ∀ a, (s.modCore c g).memWord a = s.memWord a :=
  ⟨rfl, fun _ hd => State.core_modCore_other s hd g, fun _ => rfl⟩

theorem noneHeld_modR {c : CoreId} {s : State} (h : NoneHeld c s) (f : Regs → Regs) : NoneHeld c (s.modR c f) := by
  intro hp
  rw [State.modR, State.core_modCore_same]
  exact h hp

/-- A register change and the end of the instruction. -/
theorem retired_modR {c : CoreId} {s : State} (h : NoneHeld c s) (f : Regs → Regs) :
    ∃ g, retired c (s.modR c f) = s.modCore c g ∧ ∀ k, (g k).r = f k.r ∧ (g k).desc = k.desc := by
  obtain ⟨g, hg, hk⟩ := retired_noneHeld (noneHeld_modR h f)
  refine ⟨fun k => g { k with r := f k.r }, ?_, fun k => hk _⟩
  rw [hg, State.modR, State.modCore_modCore]

/-! The one-word register instructions. -/

/-- A change of registers that keeps the frame registers and PC. -/
def KeepsFrames (f : Regs → Regs) : Prop :=
  ∀ r, (f r).fc = r.fc ∧ (f r).fd = r.fd ∧ (f r).fe = r.fe ∧ (f r).fs = r.fs ∧ (f r).pc = r.pc

theorem registerInstruction_frame {c : CoreId} {s t : State} {mk : CoreId → Instr} {f : Regs → Regs} (hi : Issues c 1 true s)
    (hf : fetched c 1 s = s) (hheld : NoneHeld c s) (he : ∀ s, exec (mk c) s = implicitOp c s f) (hk : KeepsFrames f)
    (hsp : mk c ≠ .mvas c → ∀ r, (f r).sp = r.sp) (ht : exec (mk c) s = .next t) :
    { t with cores := s.cores } = s ∧ (∀ d, d ≠ c.val → t.core d = s.core d) ∧ (∀ a, t.memWord a = s.memWord a) ∧
      (t.core c).desc = (s.core c).desc ∧ (t.r c).fc = (s.r c).fc ∧ (t.r c).fd = (s.r c).fd ∧ (t.r c).fe = (s.r c).fe ∧
      (t.r c).fs = (s.r c).fs ∧ (t.r c).pc = (s.r c).pc + 1 ∧ (mk c ≠ .mvas c → (t.r c).sp = (s.r c).sp) := by
  have hissued : NoneHeld c (issued c 1 s) := by
    intro hp
    rw [issued, hf] at hp ⊢
    rw [State.core_modCore_same]
    exact hheld hp
  obtain ⟨g, hg, hgr⟩ := retired_modR hissued f
  rw [he, implicitOp, issue1_regs hi, hg, issued, hf, State.modCore_modCore] at ht
  cases ht
  obtain ⟨h1, h2, h3⟩ := frame_of_modCore s c fun k => g { k with inhibit := false, r := { k.r with pc := k.r.pc + w16 1 } }
  refine ⟨h1, h2, h3, ?_⟩
  rw [State.r, State.core_modCore_same, (hgr _).1, (hgr _).2]
  obtain ⟨hfc, hfd, hfe, hfs, hpc⟩ := hk { (s.core c).r with pc := (s.core c).r.pc + w16 1 }
  exact ⟨rfl, hfc, hfd, hfe, hfs, hpc, fun h => hsp h _⟩

/-- Settles O30. -/
theorem registerInstructionsFrame : Obligations.RegisterInstructionsFrame := by
  intro c s t mk hi hf hheld hmk ht
  simp only [List.mem_cons, List.not_mem_nil, or_false] at hmk
  obtain rfl | rfl | rfl | rfl | rfl | rfl | rfl | rfl | rfl | rfl | rfl | rfl | rfl | rfl | rfl | rfl | rfl | rfl | rfl | rfl |
    rfl | rfl | rfl | rfl | rfl | rfl | rfl := hmk
  case inr.inr.inr.inr.inr.inr.inr.inr.inr.inr.inr.inr.inr.inr.inl =>
    exact registerInstruction_frame hi hf hheld (fun _ => rfl) (fun _ => ⟨rfl, rfl, rfl, rfl, rfl⟩) (fun h => absurd rfl h) ht
  all_goals
    exact registerInstruction_frame hi hf hheld (fun _ => rfl) (fun _ => ⟨rfl, rfl, rfl, rfl, rfl⟩) (fun _ _ => rfl) ht

/-! The class S instructions with a register result. -/

theorem source_immediate (c : Nat) {o : Opnd} (s : State) (h : o.mode.val = 0) : source c o s = .ok o.d s := by
  rw [source, h] <;> rfl

theorem source_extension (c : Nat) {o : Opnd} (s : State) (h : o.mode.val = 6) : source c o s = .ok o.e s := by
  rw [source, h] <;> rfl

/-- A change of registers that keeps the frame registers. -/
def KeepsSelectors (f : Regs → Regs) : Prop := ∀ r, (f r).fc = r.fc ∧ (f r).fd = r.fd ∧ (f r).fe = r.fe ∧ (f r).fs = r.fs

theorem sourceInstruction_frame {c : CoreId} {o : Opnd} {s s1 t : State} {v : Word} {mk : CoreId → Opnd → Instr}
    {f : Word → Regs → Regs} (hi : Issues c (o.len .src) (o.legal .src) s) (hs : source c o (issued c (o.len .src) s) = .ok v s1)
    (hheld : NoneHeld c s1) (he : ∀ s, exec (mk c o) s = sourceOp c o s f) (hk : ∀ v, KeepsSelectors (f v))
    (ht : exec (mk c o) s = .next t) :
    { t with cores := s1.cores } = s1 ∧ (∀ d, d ≠ c.val → t.core d = s1.core d) ∧ (∀ a, t.memWord a = s1.memWord a) ∧
      (t.core c).desc = (s1.core c).desc ∧ (t.r c).fc = (s1.r c).fc ∧ (t.r c).fd = (s1.r c).fd ∧ (t.r c).fe = (s1.r c).fe ∧
      (t.r c).fs = (s1.r c).fs ∧ (o.mode.val = 0 → s1 = issued c (o.len .src) s ∧ v = o.short.signExtend 16) ∧
      (o.mode.val = 6 → s1 = issued c (o.len .src) s ∧ v = o.e) := by
  obtain ⟨g, hg, hgr⟩ := retired_modR hheld (f v)
  rw [he, sourceOp_issues hi hs, hg] at ht
  cases ht
  obtain ⟨h1, h2, h3⟩ := frame_of_modCore s1 c g
  refine ⟨h1, h2, h3, ?_⟩
  rw [State.r, State.core_modCore_same, (hgr _).1, (hgr _).2]
  obtain ⟨hfc, hfd, hfe, hfs⟩ := hk v (s1.core c).r
  refine ⟨rfl, hfc, hfd, hfe, hfs, fun hm => ?_, fun hm => ?_⟩
  · rw [source_immediate c _ hm] at hs
    cases hs
    exact ⟨rfl, rfl⟩
  · rw [source_extension c _ hm] at hs
    cases hs
    exact ⟨rfl, rfl⟩

/-- Settles O31. -/
theorem sourceInstructionsFrame : Obligations.SourceInstructionsFrame := by
  intro c o s s1 t v mk hi hmk hs hheld ht
  simp only [List.mem_cons, List.not_mem_nil, or_false] at hmk
  obtain rfl | rfl | rfl | rfl | rfl | rfl | rfl | rfl | rfl | rfl | rfl | rfl | rfl | rfl | rfl | rfl | rfl | rfl | rfl | rfl |
    rfl | rfl | rfl | rfl | rfl | rfl | rfl | rfl := hmk
  all_goals
    refine sourceInstruction_frame hi hs hheld (fun _ => rfl) ?_ ht
    exact fun _ _ => ⟨rfl, rfl, rfl, rfl⟩

/-! CHK (R151, R187). -/

theorem SameMap.putOne (s : State) (a : Nat) (v : Word) : SameMap s (s.putOne a v) := ⟨rfl, rfl, rfl⟩

theorem SameMap.putWord (s : State) (a : Nat) (v : Word) : SameMap s (s.putWord a v) := by
  unfold State.putWord
  cases s.twinAddr a with
  | none => exact .putOne s a v
  | some b => exact (SameMap.putOne s a v).trans (.putOne _ b v)

theorem SameMap.heal (s : State) (a : Nat) : SameMap s (s.heal a) := by
  unfold State.heal
  cases s.twinAddr a with
  | none => exact .refl s
  | some b =>
    dsimp only
    split
    · exact .putWord s a _
    · exact .refl s

theorem SameMap.fetched (c len : Nat) (s : State) : SameMap s (fetched c len s) := by
  unfold Machine.fetched
  split
  · refine List.foldlRecOn (motive := fun t : State => SameMap s t) _ _ (.refl s) fun t ht k _ => ?_
    cases address t c 0 ((t.r c).pc + w16 k) { x := true } with
    | ok a => exact ht.trans (.heal t _)
    | error e => exact ht
  · exact .refl s

theorem SameMap.issued (c : CoreId) (len : Nat) (s : State) : SameMap s (issued c len s) :=
  (SameMap.fetched c len s).trans (.modCore _ c _)

/-- The core an effect starts from (R167). -/
theorem issued_core (c : CoreId) (len : Nat) (s : State) : (issued c len s).core c =
    { s.core c with inhibit := false, r := { (s.core c).r with pc := (s.core c).r.pc + w16 len } } := by
  have hcore : (fetched c len s).core c = s.core c := by
    rw [State.core, fetched_cores, State.core]
  rw [issued, State.core_modCore_same, hcore]

/-- CHK in a pair: the checkpoint is due. -/
def due (k : Core) : Core := { k with ckDue := true }

theorem exec_chk_independent {c : CoreId} {s : State} (hi : Issues c 1 true s) (hp : s.paired c = false) :
    exec (.chk c) s = .next (retired c (issued c 1 s)) :=
  issue_ok hi (by rw [if_neg (ne_true_of_eq_false (((SameMap.issued c 1 s).paired c).trans hp))])

theorem exec_chk_paired {c : CoreId} {s : State} (hi : Issues c 1 true s) (hp : s.paired c = true) :
    exec (.chk c) s = .next (settle c ((issued c 1 s).modCore c fun k => counted (due k))) := by
  have hpi := ((SameMap.issued c 1 s).paired c).trans hp
  refine (issue_ok hi (by rw [if_pos hpi])).trans ?_
  rw [retired_paired (((SameMap.modCore _ c _).paired c).trans hpi), State.modCore_modCore] <;> rfl

/-- An instruction that executes finds its core neither rolling back nor being taken over. -/
theorem Issues.steady {c : CoreId} {len : Nat} {legal : Bool} {s : State} (hi : Issues c len legal s) :
    (s.core c).rolling = false ∧ (s.core c).taking = none := by
  have h := hi.ready
  simp only [coreReady, coreUp, Bool.and_eq_true, Bool.not_eq_true', Option.isNone_iff_eq_none] at h
  exact ⟨h.1.1.1.1.1.1.1.1.1.2, h.1.1.1.1.1.1.1.1.2⟩

theorem counted_due_r (k : Core) : (counted (due k)).r = k.r := rfl
theorem counted_due_ckDue (k : Core) : (counted (due k)).ckDue = true := rfl
theorem counted_due_held (k : Core) : (counted (due k)).held = k.held := rfl
theorem counted_due_ckBusy (k : Core) : (counted (due k)).ckBusy = k.ckBusy := rfl

theorem checkpointed_spec (k : Core) : (checkpointed k).ckpt = (checkpointed k).r ∧ (checkpointed k).log = [] ∧
    (checkpointed k).since = 0 ∧ (checkpointed k).ckBusy = true ∧ (checkpointed k).ckDue = false :=
  ⟨rfl, rfl, rfl, rfl, rfl⟩

/-- Settles O29. -/
theorem checkpointInstruction : Obligations.CheckpointInstruction := by
  intro c s hi
  refine ⟨exec_chk_independent hi, fun hp hheld hredo => ?_⟩
  obtain ⟨hrolling, htaking⟩ := hi.steady
  have hcore := issued_core c 1 s
  have hexec := exec_chk_paired hi hp
  generalize hu : (issued c 1 s).modCore c (fun k => counted (due k)) = u at hexec
  have huc : u.core c = counted (due ((issued c 1 s).core c)) := by
    rw [← hu, State.core_modCore_same]
  have hup : u.paired c = true := by
    rw [← hu, ((SameMap.issued c 1 s).trans (.modCore _ c _)).paired c, hp]
  have hcheck : checkpointDue u c = true := by
    simp only [checkpointDue, hup, huc, counted, forgetLoads, due, Bool.or_true, Bool.true_or, Bool.and_self]
  have hboundary : atBoundary (u.core c) = !(s.core c).ckBusy := by
    simp only [atBoundary, huc, hcore, counted, forgetLoads, due, hrolling, htaking, hredo, Option.isNone_none, Bool.not_false,
      Bool.true_and, Bool.and_true]
  have hr : (u.core c).r = ((issued c 1 s).core c).r := by
    rw [huc, counted_due_r]
  refine ⟨settle c u, hexec, ?_⟩
  rw [settle, hcheck, hboundary, Bool.true_and]
  cases hbusy : (s.core c).ckBusy with
  | false =>
    have huh : (u.core c).held = [] := by
      rw [huc, counted_due_held, hcore, hheld]
    rw [if_pos (show (!false) = true from rfl), takeCheckpoint_noneHeld huh]
    simp only [State.r, State.core_modCore_same]
    exact ⟨hr, fun _ => checkpointed_spec (u.core c), fun h => absurd h Bool.false_ne_true⟩
  | true =>
    have hub : (u.core c).ckBusy = true := by
      rw [huc, counted_due_ckBusy, hcore, hbusy]
    rw [if_neg (show (!true) ≠ true by decide)]
    refine ⟨hr, fun h => absurd h.symm Bool.false_ne_true, fun _ => ⟨by rw [huc, counted_due_ckDue], ?_⟩⟩
    simp only [coreUp, hcheck, hub, Bool.and_self, Bool.not_true, Bool.and_false, Bool.false_and]

end Sys2Proof.Machine

/-! Stores to local memory and to shared SRAM (O32, O33; R37, R42, R43). -/

namespace Sys2Proof.Machine

/-! A word written where no partner core keeps a copy. -/

theorem storeWord_alone {s : State} {a : Nat} (h : s.twinAddr a = none) (v : Word) :
    s.storeWord a v = (s.putOne a v).clearResv a := by
  rw [State.storeWord, h]
  simp only [State.putWord, h]

theorem memWord_putOne (s : State) (a : Nat) (v : Word) (b : Nat) :
    (s.putOne a v).memWord b = if b = a then v else s.memWord b := State.memWord_setMem s a v b

theorem memWord_storeWord_alone {s : State} {a : Nat} (h : s.twinAddr a = none) (v : Word) (b : Nat) :
    (s.storeWord a v).memWord b = if b = a then v else s.memWord b := by
  rw [storeWord_alone h]
  exact memWord_putOne s a v b

/-- A reservation given up changes no register. -/
theorem core_clearResv_r (s : State) (a d : Nat) : ((s.clearResv a).core d).r = (s.core d).r := by
  unfold State.clearResv State.core
  dsimp only
  induction s.cores with
  | nil => rfl
  | cons e l ih =>
    rw [List.map_cons, Sparse.get, Sparse.get]
    split
    · split <;> rfl
    · exact ih

/-! The own local memory of an independent core (R37). -/

theorem lead_independent {s : State} {c : Nat} (h : s.paired c = false) : s.lead c = c := by
  rw [State.lead, h, if_neg Bool.false_ne_true]

/-- Both ranges name the word in the local memory of the core's physical core. -/
theorem localAddr_own {s : State} {c a : Nat} (h : ownLocal s c a = true) :
    localAddr s c a = 0x880000 + 0x8000 * s.physCore (s.lead c) + a % 0x8000 := by
  rw [localAddr]
  split
  · rfl
  · next hal =>
    rw [ownLocal, Bool.or_eq_true, Bool.and_eq_true, decide_eq_true_eq] at h
    obtain h | ⟨hloc, hlead⟩ := h
    · exact absurd h hal
    · rw [if_pos hloc, hlead]

/-- The local memory of an independent core has no partner copy. -/
theorem twinAddr_own {s : State} {c a : Nat} (hp : s.paired c = false) (h : ownLocal s c a = true) :
    s.twinAddr (localAddr s c a) = none := by
  have hmod := Nat.mod_lt a (show 0 < 0x8000 by decide)
  rw [localAddr_own h, lead_independent hp, State.twinAddr, if_neg]
  rintro ⟨-, -, hpair⟩
  rw [State.paired] at hp
  by_cases hcore : s.physCore c < 4
  · rw [if_pos hcore] at hp
    rw [if_pos (by omega), hp] at hpair
    cases hpair
  · rw [if_neg hcore] at hp
    rw [if_neg (by omega), hp] at hpair
    cases hpair

theorem storeAt_own {s : State} {c a : Nat} (hp : s.paired c = false) (h : ownLocal s c a = true) (v : Word) :
    storeAt c a v s = s.storeWord (localAddr s c a) v := by
  rw [storeAt, if_pos h, logEntry_independent hp, coreStore, if_pos h]

/-- Settles O32. -/
theorem storeToOwnLocalMemoryFrame : Obligations.StoreToOwnLocalMemoryFrame := by
  intro c a v s hp h
  have htwin := twinAddr_own hp h
  rw [storeAt_own hp h]
  refine ⟨?_, fun b hb => ?_, fun d => ?_, ?_⟩
  · rw [memWord_storeWord_alone htwin, if_pos rfl]
  · rw [memWord_storeWord_alone htwin, if_neg hb]
  · rw [storeWord_alone htwin, core_clearResv_r] <;> rfl
  · rw [storeWord_alone htwin]
    exact ⟨rfl, rfl, rfl, rfl⟩

/-! Shared SRAM: one request at a time (R42 to R44). -/

theorem twinAddr_sram (s : State) {a : Nat} (h : a < 0x880000) : s.twinAddr a = none := by
  rw [State.twinAddr, if_neg (by omega)]

theorem serveOwn_nil {s : State} (h : s.memq = []) (i : Island) (k : Nat) : serveOwn i k s = s := by
  rw [serveOwn, h] <;> rfl

/-- The request a requester issues when none waits. -/
def requestOf (i : Island) (k : Nat) (put : Option (Nat × Word)) (s : State) : MemReq :=
  { isl := i, k := k, stamp := islandTick s i, issued := s.memTick, put := put }

theorem issueMem_after {i : Island} {k : Nat} {s u : State} (hu : serveOwn i k s = u) (hq : u.memq = [])
    (put : Option (Nat × Word)) : issueMem i k put s = { u with memq := [requestOf i k put u] } := by
  subst hu
  rw [issueMem]
  simp only [hq, List.nil_append]
  rfl

theorem filterMap_allIslands {α : Type} (i : Island) (x : α) :
    allIslands.filterMap (fun j => if i = j then some x else none) = [x] := by
  cases i <;> rfl

theorem headNext_single {s : State} {q : MemReq} (h : s.memq = [q]) (i : Island) :
    headNext s i = if q.isl = i then some q else none := by
  rw [headNext, h, List.filter_cons, List.filter_nil]
  by_cases hi : q.isl = i
  · simp only [hi, decide_true, if_true] <;> rfl
  · simp only [hi, decide_false, if_false] <;> rfl

theorem memNext_single {s : State} {q : MemReq} (h : s.memq = [q]) : memNext s = some q := by
  have hheads : memHeads s = [q] := by
    rw [memHeads, funext (headNext_single h), filterMap_allIslands]
  rw [memNext, hheads] <;> rfl

/-- The store of a request, if it is one. -/
def putOf (put : Option (Nat × Word)) (s : State) : State :=
  match put with
  | some (a, v) => s.storeWord a v
  | none => s

/-- MEM with the request out of its queues and remembered as the one served last. -/
def dequeued (q : MemReq) (s : State) : State :=
  ({ s with memq := s.memq.erase q, memLast := q.isl.num }).setIsland q.isl { s.island q.isl with headLast := q.k }

/-- MEM serves the one request that waits, within 48 cycles. -/
theorem memServe_single {s : State} {q : MemReq} (h : s.memq = [q]) (hwait : s.memTick - q.issued ≤ 48) :
    memServe s = (putOf q.put (dequeued q s)).setReg (icb q.isl + 5) (w16 (Nat.min 0xFFFF (Nat.max (s.memTick - q.issued)
      ((putOf q.put (dequeued q s)).regN (icb q.isl + 5))))) := by
  rw [memServe, memNext_single h]
  exact if_neg (Nat.not_lt.mpr hwait)

theorem icb_ne_map (i : Island) : 0xA8FD04 ≠ icb i + 5 := by
  cases i <;> decide

theorem SameMap.storeWord (s : State) (a : Nat) (v : Word) : SameMap s (s.storeWord a v) := by
  unfold State.storeWord
  cases s.twinAddr a with
  | none => exact (SameMap.putWord s a v).trans ⟨rfl, rfl, rfl⟩
  | some b => exact (SameMap.putWord s a v).trans ⟨rfl, rfl, rfl⟩

theorem SameMap.putOf (put : Option (Nat × Word)) (s : State) : SameMap s (putOf put s) := by
  cases put with
  | none => exact .refl s
  | some p => exact .storeWord s p.1 p.2

/-- A cycle begun, the request taken out: no word, no check bit and no register has changed. -/
theorem dequeued_next {s : State} {q : MemReq} (h : s.memq = [q]) : ∃ u, dequeued q { s with memTick := s.memTick + 1 } = u ∧
    u.memq = [] ∧ (∀ b, u.memWord b = s.memWord b) ∧ (∀ b, u.isDbe b = s.isDbe b) ∧ SameMap s u := by
  refine ⟨_, rfl, ?_, fun _ => rfl, fun _ => rfl, ⟨rfl, rfl, rfl⟩⟩
  change s.memq.erase q = []
  rw [h, List.erase_cons_head]

theorem memCycle_single {s : State} {q : MemReq} (h : s.memq = [q]) (hi : q.issued = s.memTick) :
    ∃ v, memCycle s = (putOf q.put (dequeued q { s with memTick := s.memTick + 1 })).setReg (icb q.isl + 5) v := by
  refine ⟨_, memServe_single (s := { s with memTick := s.memTick + 1 }) h ?_⟩
  change s.memTick + 1 - q.issued ≤ 48
  omega

/-- A MEM cycle that serves the one read. -/
theorem memCycle_read {s : State} {q : MemReq} (h : s.memq = [q]) (hi : q.issued = s.memTick) (hput : q.put = none) :
    (memCycle s).memq = [] ∧ (∀ b, (memCycle s).memWord b = s.memWord b) ∧ (∀ b, (memCycle s).isDbe b = s.isDbe b) ∧
      SameMap s (memCycle s) := by
  obtain ⟨v, hv⟩ := memCycle_single h hi
  obtain ⟨u, hu, hq, hmem, hdbe, hmap⟩ := dequeued_next h
  rw [hu, hput] at hv
  rw [hv]
  exact ⟨hq, hmem, hdbe, hmap.trans (.setReg u (icb_ne_map _) v)⟩

theorem isDbe_storeWord_alone {s : State} {a : Nat} (h : s.twinAddr a = none) (v : Word) :
    (s.storeWord a v).isDbe a = false := by
  have hdbe : ((s.putOne a v).clearResv a).isDbe a = (s.putOne a v).isDbe a := rfl
  have hundef : (s.putOne a v).undefAt a = none := (State.undefAt_setMem s a v a).trans (if_pos rfl)
  rw [storeWord_alone h, hdbe, State.isDbe, hundef, State.putOne]
  simp

/-- A MEM cycle that serves the one store. -/
theorem memCycle_store {s : State} {q : MemReq} {a : Nat} {w : Word} (h : s.memq = [q]) (hi : q.issued = s.memTick)
    (hput : q.put = some (a, w)) (ha : a < 0x880000) :
    (memCycle s).memq = [] ∧ (∀ b, (memCycle s).memWord b = if b = a then w else s.memWord b) ∧
      (memCycle s).isDbe a = false ∧ SameMap s (memCycle s) := by
  obtain ⟨v, hv⟩ := memCycle_single h hi
  obtain ⟨u, hu, hq, hmem, -, hmap⟩ := dequeued_next h
  rw [hu, hput] at hv
  have htwin := twinAddr_sram u ha
  rw [hv]
  refine ⟨?_, fun b => ?_, isDbe_storeWord_alone htwin w,
    hmap.trans ((SameMap.storeWord u a w).trans (.setReg _ (icb_ne_map _) v))⟩
  · change (u.storeWord a w).memq = []
    rw [storeWord_alone htwin]
    exact hq
  · rw [← hmem]
    exact memWord_storeWord_alone htwin w b

theorem serveOwn_single {s : State} {i : Island} {k : Nat} {q : MemReq} (h : s.memq = [q]) (hi : q.isl = i) (hk : q.k = k) :
    serveOwn i k s = memCycle s := by
  have hwaits : memWaits s i k = true := by
    rw [memWaits, h, List.any_cons, decide_eq_true hi, decide_eq_true hk] <;> rfl
  rw [serveOwn, h, List.length_singleton, List.range_one, List.foldl_cons, if_pos hwaits, List.foldl_nil]

theorem SameMap.coreIsland {s t : State} (h : SameMap s t) (c : Nat) : t.coreIsland c = s.coreIsland c := by
  rw [State.coreIsland, State.coreIsland, h.physCore]

/-! Loads and stores of shared SRAM. -/

section
variable {a : Nat} (h0 : 0x800000 ≤ a) (h1 : a < 0x880000) (s : State) (c : Nat)
include h0 h1

theorem not_inAlias_sram : inAlias a = false := by
  rw [inAlias, decide_eq_false (by omega), Bool.false_and]

theorem not_inLocals_sram : inLocals a = false := by
  rw [inLocals, decide_eq_false (by omega), Bool.false_and]

theorem not_ownLocal_sram : ownLocal s c a = false := by
  rw [ownLocal, not_inAlias_sram h0 h1, not_inLocals_sram h0 h1] <;> rfl

theorem localAddr_sram : localAddr s c a = a := by
  rw [localAddr, not_inAlias_sram h0 h1, not_inLocals_sram h0 h1] <;> rfl

theorem coreStore_sram (hq : s.memq = []) (v : Word) :
    coreStore s c a v = { s with memq := [requestOf (s.coreIsland c) (s.lead c) (some (a, v)) s] } := by
  rw [coreStore, not_ownLocal_sram h0 h1, not_inLocals_sram h0 h1]
  exact (if_pos h1).trans (issueMem_after (serveOwn_nil hq _ _) hq _)

theorem coreLoad_sram (hrun : s.running .mem = true) {t : State}
    (ht : serveOwn (s.coreIsland c) (s.lead c) (issueMem (s.coreIsland c) (s.lead c) none s) = t) (hd : t.isDbe a = false) :
    coreLoad s c a = .value (t.memWord a) t := by
  have haccess : memAccess (s.coreIsland c) (s.lead c) s = t := by
    rw [memAccess, if_pos hrun, ht]
  have hdouble : coreDouble t c a = false := by
    rw [coreDouble, localAddr_sram h0 h1, State.badWord, hd, Bool.false_and, Bool.and_false]
  have hown : ¬ (ownLocal s c a = true ∨ inLocals a = true) := by
    rw [not_ownLocal_sram h0 h1, not_inLocals_sram h0 h1]
    decide
  rw [coreLoad, if_neg hown, if_pos (by omega), haccess]
  exact if_neg (ne_true_of_eq_false hdouble)

end

/-- A store that waits is served before its requester's load, and the load after it. -/
theorem serveOwn_issueMem_store {i : Island} {k a : Nat} {v : Word} {s : State} {q : MemReq} (h : s.memq = [q])
    (hi : q.isl = i) (hk : q.k = k) (hissued : q.issued = s.memTick) (hput : q.put = some (a, v)) (ha : a < 0x880000) :
    ∃ t, serveOwn i k (issueMem i k none s) = t ∧ t.memq = [] ∧ (∀ b, t.memWord b = if b = a then v else s.memWord b) ∧
      t.isDbe a = false := by
  obtain ⟨uq, uword, udbe, -⟩ := memCycle_store h hissued hput ha
  rw [issueMem_after (serveOwn_single h hi hk) uq]
  generalize memCycle s = u at uword udbe
  obtain ⟨tq, tword, tdbe, -⟩ := memCycle_read (s := { u with memq := [requestOf i k none u] }) rfl rfl rfl
  exact ⟨_, serveOwn_single rfl rfl rfl, tq, fun b => (tword b).trans (uword b), (tdbe a).trans udbe⟩

/-- Settles O33. -/
theorem storeToSharedSramReadsBack : Obligations.StoreToSharedSramReadsBack := by
  intro c a v s h0 h1 hq
  rw [coreStore_sram h0 h1 s c hq]
  generalize hs : { s with memq := [requestOf (s.coreIsland c) (s.lead c) (some (a, v)) s] } = s'
  have hmap : SameMap s s' := by rw [← hs]; exact ⟨rfl, rfl, rfl⟩
  have hword : ∀ b, s'.memWord b = s.memWord b := fun b => by rw [← hs] <;> rfl
  refine ⟨hword, fun k => by rw [← hs] <;> rfl, by rw [← hs], by rw [← hs] <;> rfl, fun hrun => ?_⟩
  obtain ⟨t, ht, htq, htword, hdbe⟩ := serveOwn_issueMem_store (s := s') (i := s'.coreIsland c) (k := s'.lead c) (v := v)
    (by rw [← hs]) (hmap.coreIsland c).symm (hmap.lead c).symm (by rw [← hs] <;> rfl) rfl h1
  refine ⟨t, ?_, htq, fun b hb => ?_⟩
  · have hload := coreLoad_sram h0 h1 s' c (by rw [← hs]; exact hrun) ht hdbe
    rwa [htword, if_pos rfl] at hload
  · rw [htword, if_neg hb, hword]

end Sys2Proof.Machine

/-! Commands through the registers of SUP (O36 to O38). -/

namespace Sys2Proof.Machine

/-- The fields of a word by division. -/
theorem fld_eq_div_mod (w : Word) (lo n : Nat) : fld w lo n = w.toNat / 2 ^ lo % 2 ^ n := by
  rw [fld, Nat.shiftRight_eq_div_pow]

/-- The KEY of a command word (R106). -/
theorem fld_key (w : Word) : fld w 8 8 = w.toNat / 256 := by
  have := w.isLt
  rw [fld_eq_div_mod]
  omega

/-- A command that is one write to an island window, once it arrives there. -/
theorem write_arrives {r : Requester} {i : Island} {s t : State} (h : Arrives r i s t) (a : Nat) (v : Word)
    (hw : windowIsland a = some i) : (Host.Outcome.next (accessWrite r a v s) : Out) =
      .next (busWrite (asRequester t r) a v t) :=
  congrArg Host.Outcome.next (accessWrite_arrives h hw)

/-! RST_REQ (R106). -/

theorem exec_rstReq {r : Requester} {s t : State} (h : Arrives r .sup s t) (v : Word) :
    exec (.rstReq r v) s = .next (rstRequest v t) := write_arrives h 0xA80002 v rfl

/-- Settles O36. -/
theorem resetRequestKeyed : Obligations.ResetRequestKeyed := by
  intro r v s t h lvl tgt bad
  have hlvl : fld v 0 2 = lvl := fld_eq_mod v 2
  have htgt : fld v 2 4 = tgt := fld_eq_div_mod v 2 4
  rw [exec_rstReq h, rstRequest, fld_key, hlvl, htgt]
  refine ⟨fun hkey hbad => ?_, fun hkey hbad => ?_, fun hkey => ?_⟩
  · rw [if_neg (Classical.not_not.mpr hkey)]
    exact congrArg _ (if_neg hbad)
  · rw [if_neg (Classical.not_not.mpr hkey)]
    exact congrArg _ (if_pos hbad)
  · rw [if_pos hkey]

/-! OTP_CMD (R117). -/

theorem exec_otpProgram {r : Requester} {s t : State} (h : Arrives r .sup s t) (v : Word) :
    exec (.otpProgram r v) s = .next (otpCmd v t) := write_arrives h 0xA80012 v rfl

theorem otpCmd_taken {v : Word} {t : State} {a : Nat} (hkey : v.toNat / 256 = 0xC3) (hprog : v.getLsbD 0 = true)
    (hbusy : t.otpBusy = none) (ha : t.regFld 0xA80010 0 10 = a) : otpCmd v t =
      if !(decide (a / 64 = 5) || decide (a / 64 = 7) || decide (8 ≤ a / 64)) ∨ a ∈ t.otpDone then t.setReg 0xA80013 0x0002#16
      else { t.setReg 0xA80013 0x0001#16 with otpBusy := some (a, t.reg 0xA80011) } := by
  have hprog : bit v 0 = true := hprog
  rw [otpCmd, fld_key, hkey, hprog, hbusy, ha]
  rfl

/-- Settles O37. -/
theorem fuseProgramming : Obligations.FuseProgramming := by
  intro r v d s t a h hkey hprog hbusy ha opened
  rw [exec_otpProgram h, otpCmd_taken hkey hprog hbusy ha]
  have hopened : (!(decide (a / 64 = 5) || decide (a / 64 = 7) || decide (8 ≤ a / 64))) = true ↔ ¬ opened := by
    simp only [Bool.not_eq_true', ← Bool.not_eq_true, Bool.or_eq_true, decide_eq_true_eq, or_assoc, opened]
  refine ⟨fun hopen hfree => ?_, fun hshut => ?_, fun u hu => ?_⟩
  · rw [if_neg (by rw [hopened]; exact not_or.mpr ⟨Classical.not_not.mpr hopen, hfree⟩)]
  · rw [if_pos (by rw [hopened]; exact hshut)]
  · refine ⟨{ (u.setReg 0xA80013 0).fuse a d with otpBusy := none }, ?_, ?_, List.mem_cons_self, rfl, rfl, ?_⟩
    · change execOtpProgramComplete true u = _
      rw [execOtpProgramComplete, hu] <;> rfl
    · exact (Sparse.get_set _ _ _ _ _).trans (if_pos rfl)
    · change (u.setReg 0xA80013 0).reg 0xA80013 = 0
      rw [State.reg_setReg, if_pos rfl]

/-! MAR_CTRL, SMP_CMD, WDG_KICK, CCB_SPARE and CYC (R128, R155, R157, R158, R437, R443). -/

theorem exec_marStop {r : Requester} {s t : State} (h : Arrives r .sup s t) (v : Word) :
    exec (.marStop r v) s = .next (marCtrl v t) := write_arrives h 0xA80007 v rfl

theorem exec_safeEnd {r : Requester} {s t : State} (h : Arrives r .sup s t) (v : Word) :
    exec (.safeEnd r v) s = .next (samplerCmd (asRequester t r) v t) := write_arrives h 0xA81008 v rfl

theorem exec_firstClr {r : Requester} {s t : State} (h : Arrives r .sup s t) (v : Word) :
    exec (.firstClr r v) s = .next (samplerCmd (asRequester t r) v t) := write_arrives h 0xA81008 v rfl

theorem exec_spareDesignate {r : Requester} {s t : State} (h : Arrives r .sup s t) (v : Word) :
    exec (.spareDesignate r v) s = .next (spareWrite (asRequester t r) v t) := write_arrives h 0xA8FD02 v rfl

theorem exec_cycRead {r : Requester} {s t : State} (h : Arrives r .sup s t) (c : CoreId) :
    exec (.cycRead r c) s = .next (busRead (coreBlock c + 0x18) t).2 := by
  refine congrArg Host.Outcome.next (accessRead_arrives h ?_)
  revert c
  decide

/-- The watchdog's key word of each core's block. -/
theorem busWrite_coreBlock (q : Requester) (v : Word) (t : State) :
    (c : CoreId) → busWrite q (coreBlock c + 0x20) v t = coreWrite q c 0x20 v t
  | 0 | 1 | 2 | 3 | 4 | 5 | 6 | 7 => rfl

theorem exec_wdgKick {r : Requester} {s t : State} (h : Arrives r .sup s t) (c : CoreId) (v : Word) :
    exec (.wdgKick r c v) s = .next (coreWrite (asRequester t r) c 0x20 v t) := by
  refine (write_arrives h (coreBlock c + 0x20) v ?_).trans (congrArg _ ?_)
  · revert c
    decide
  · exact busWrite_coreBlock _ _ _ c

theorem marCtrl_stop {v : Word} {t : State} (hv : bit v 0 = true)
    (hrun : ((List.range t.marTable.length).foldl (fun u n => marEnd n u) t).regBit 0xA80005 9 = true) :
    marCtrl v t = (((List.range t.marTable.length).foldl (fun u n => marEnd n u) t).setRegBit 0xA80005 9 false).setRegBit
      0xA80005 10 true := by
  rw [marCtrl, if_pos hv]
  exact if_pos hrun

section
variable {d : CoreId} {v : Word} {t : State}

/-- A command of SMP_CMD that is allowed. -/
theorem samplerCmd_allowed (hd : t.regBit 0xA81007 d = true) (hkey : v.toNat / 256 = 0x5C) : samplerCmd (.core d) v t =
    let s2 := if bit v 0 then safeEnd ((t.setRegBit 0xA81009 1 false).setReg 0xA70303 0) else t.setRegBit 0xA81009 1 false
    if bit v 1 then ((s2.setReg 0xA70300 0).setReg 0xA70301 0).setReg 0xA70302 0 else s2 := by
  rw [samplerCmd]
  exact if_pos (by rw [hd, fld_key, hkey] <;> rfl)

theorem samplerCmd_denied (h : t.regBit 0xA81007 d = false ∨ v.toNat / 256 ≠ 0x5C) :
    samplerCmd (.core d) v t = t.setRegBit 0xA81009 1 true := by
  rw [samplerCmd]
  refine if_neg ?_
  rw [fld_key, Bool.and_eq_true, decide_eq_true_eq]
  rintro ⟨hd, hkey⟩
  obtain h | h := h
  · rw [hd] at h
    cases h
  · exact h hkey

end

/-- The word of a kick comes to the core's own watchdog. -/
theorem coreWrite_kick {r : Requester} {c : Nat} {v : Word} {t : State} (h : t.lead c = c) :
    coreWrite r c 0x20 v t = wdgKick r c v t := by
  rw [coreWrite, if_neg (Classical.not_not.mpr h)]

theorem wdgKick_owner {c d : CoreId} {t : State} (hd : t.lead d = c.val) (hc : wdgCounts t c = true) (v : Word) :
    wdgKick (.core d) c v t =
      if !(t.core c).wdgHalf then
        if v = 0x5A5A#16 then t.modCore c fun k => { k with wdgHalf := true } else watchdogExpire c t
      else if v = 0xA5A5#16 ∧ wdgCount t c * 8 ≤ (t.core c).wdgTo * (8 - (t.core c).wdgWin) then loadWatchdog c t
      else watchdogExpire c (t.modCore c fun k => { k with wdgHalf := false }) := by
  rw [wdgKick]
  exact if_neg (by rw [hc, decide_eq_true hd] <;> decide)

theorem any_standby_false {t : State} (h : ∀ k, k < 4 → (t.physPair k).standby = false) :
    ((List.range 4).any fun k => (t.physPair k).standby) = false := by
  rw [List.any_eq_false]
  intro k hk
  rw [h k (List.mem_range.mp hk)]
  exact Bool.false_ne_true

theorem spareWrite_sealed {r : Requester} {v : Word} {t : State} (h : t.regBit 0xA8FD05 0 = true) : spareWrite r v t = t := by
  unfold spareWrite
  exact if_pos h

theorem spareWrite_disabled {r : Requester} {v : Word} {t : State} (h : t.regBit 0xA8FD05 0 = false) (hv : bit v 0 = false) :
    spareWrite r v t = t.setReg 0xA8FD02 (v &&& 0x000F#16) := by
  unfold spareWrite
  exact (if_neg (ne_true_of_eq_false h)).trans (if_pos (by rw [hv] <;> rfl))

/-- A designation by a core of the named pair, in an island in paired mode, with no spare standing by. -/
theorem spareWrite_designates {d : CoreId} {v : Word} {t : State} {p : Nat} (hp : 2 * fld v 3 1 + fld v 1 2 = p)
    (h : t.regBit 0xA8FD05 0 = false) (hv : bit v 0 = true) (hnone : ∀ k, k < 4 → (t.physPair k).standby = false)
    (hlt : fld v 1 2 < 2) (hown : t.mapPair (t.lead d / 2) = p) (hmode : (if fld v 3 1 = 0 then t.pairedA else t.pairedB) = true)
    (hlive : (t.physPair p).retired = false) : spareWrite (.core d) v t = makeDormant (t.lead d)
      ((t.setReg 0xA8FD02 (v &&& 0x000F#16)).setPhys p { t.physPair p with standby := true }) := by
  rw [spareWrite]
  simp only [h, hv, hp, any_standby_false hnone, hown, hlt, hmode, hlive, decide_true, Bool.not_true, Bool.not_false,
    Bool.false_eq_true, Bool.and_self, if_true, if_false, Option.getD_some]

/-- Settles O38. -/
theorem supervisorCommands : Obligations.SupervisorCommands := by
  intro r c d v s t h ended authority p
  refine ⟨fun hv hrun => ?_, fun ⟨hr, hd, hkey⟩ h0 h1 => ?_, fun ⟨hr, hd, hkey⟩ h0 h1 => ?_, fun hr hdenied => ?_,
    fun hlead hr hd hcounts => ⟨fun hhalf hv => ?_, fun hhalf hv hin => ?_⟩,
    fun hopen => ⟨fun hv => ?_, fun hv hnone hr hlt hown hmode hlive => ?_⟩, fun hsealed => ?_, exec_cycRead h c⟩
  · rw [exec_marStop h, marCtrl_stop hv hrun]
  · rw [exec_safeEnd h, hr, samplerCmd_allowed hd hkey, h0, h1] <;> rfl
  · rw [exec_firstClr h, hr, samplerCmd_allowed hd hkey, h0, h1] <;> rfl
  · rw [exec_safeEnd h, exec_firstClr h, hr, samplerCmd_denied hdenied]
    exact ⟨rfl, rfl⟩
  · rw [exec_wdgKick h, coreWrite_kick hlead, hr, wdgKick_owner hd hcounts, hhalf, if_pos (by decide), if_pos hv]
  · rw [exec_wdgKick h, coreWrite_kick hlead, hr, wdgKick_owner hd hcounts, hhalf, if_neg (by decide), if_pos ⟨hv, hin⟩]
  · rw [exec_spareDesignate h, spareWrite_disabled hopen hv]
  · rw [exec_spareDesignate h, hr, spareWrite_designates rfl hopen hv hnone hlt hown hmode hlive]
  · rw [exec_spareDesignate h, spareWrite_sealed hsealed]

end Sys2Proof.Machine

/-! Power control, wake causes, the RTC and switch inputs through AON (O40; R90, R96, R98, R323). -/

namespace Sys2Proof.Machine

/-- What entry into a parking mode does to islands, gates and ports leaves of cores, memory and PWR_REFUSE. -/
structure ParkFrame (s t : State) : Prop where
  cores : t.cores = s.cores
  mem : t.mem = s.mem
  refuse : t.reg 0xA70102 = s.reg 0xA70102

namespace ParkFrame

theorem refl (s : State) : ParkFrame s s := ⟨rfl, rfl, rfl⟩

theorem trans {s t u : State} (h : ParkFrame s t) (h' : ParkFrame t u) : ParkFrame s u :=
  ⟨h'.cores.trans h.cores, h'.mem.trans h.mem, h'.refuse.trans h.refuse⟩

theorem foldl {α : Type} {f : State → α → State} (hf : ∀ t x, ParkFrame t (f t x)) (l : List α) (s : State) :
    ParkFrame s (l.foldl f s) := by
  induction l generalizing s with
  | nil => exact refl s
  | cons x l ih => exact (hf s x).trans (ih _)

theorem setGate (s : State) (i j : Nat) (g : Gate) : ParkFrame s (s.setGate i j g) := ⟨rfl, rfl, rfl⟩

theorem setReg (s : State) {a : Nat} (ha : 0xA70102 ≠ a) (v : Word) : ParkFrame s (s.setReg a v) :=
  ⟨rfl, rfl, s.reg_setReg_other ha v⟩

theorem discardGates (i : Island) (s : State) : ParkFrame s (discardGates i s) := by
  refine foldl (fun t src => ?_) _ s
  dsimp only
  split
  · exact refl t
  · refine (setGate t _ _ _).trans ((setReg _ ?_ _).trans (setReg _ ?_ _)) <;> cases i <;> decide

theorem fenceGates (i : Island) (s : State) : ParkFrame s (fenceGates i s) :=
  (discardGates i s).trans (foldl (fun t _ => setGate t _ _ _) _ _)

theorem netSleep (deep : Bool) (s : State) : ParkFrame s (netSleep deep s) := by
  unfold Machine.netSleep
  split
  · exact refl s
  · refine foldl (fun t k => ?_) _ s
    split
    · have ha : 0xA70102 ≠ ethBase k + 7 := by
        unfold ethBase
        omega
      exact (setReg t ha _).trans (setReg _ ha _)
    · exact refl t

end ParkFrame

/-! Every core stops, its registers kept. -/

/-- A core's clock and its watchdog stop. -/
def parkCore (t : State) (c : Nat) : State := freezeWatchdog c (t.modCore c fun k => { k with st := .stopped, wait := none })

theorem parkCore_core (t : State) (c d : Nat) : ((parkCore t c).core d).r = (t.core d).r ∧
    ((parkCore t c).core d).st = if d = c then .stopped else (t.core d).st := by
  rw [parkCore, freezeWatchdog, State.modCore_modCore]
  by_cases h : d = c
  · subst h
    rw [State.core_modCore_same, if_pos rfl]
    dsimp only
    split <;> exact ⟨rfl, rfl⟩
  · rw [State.core_modCore_other t h, if_neg h]
    exact ⟨rfl, rfl⟩

theorem foldl_parkCore (l : List Nat) (s : State) (d : Nat) : ((l.foldl parkCore s).core d).r = (s.core d).r ∧
    ((l.foldl parkCore s).core d).st = if d ∈ l then .stopped else (s.core d).st := by
  induction l generalizing s with
  | nil => exact ⟨rfl, rfl⟩
  | cons c l ih =>
    obtain ⟨hr, hst⟩ := ih (parkCore s c)
    obtain ⟨hr', hst'⟩ := parkCore_core s c d
    refine ⟨hr.trans hr', hst.trans ?_⟩
    rw [hst']
    by_cases hl : d ∈ l
    · rw [if_pos hl, if_pos (List.mem_cons_of_mem c hl)]
    · rw [if_neg hl]
      simp only [List.mem_cons, hl, or_false]

theorem foldl_parkCore_frame (l : List Nat) (s : State) :
    (l.foldl parkCore s).mem = s.mem ∧ (l.foldl parkCore s).regs = s.regs := by
  induction l generalizing s with
  | nil => exact ⟨rfl, rfl⟩
  | cons c l ih => exact ih (parkCore s c)

/-- The state a request that is taken ends in (R90). -/
def parkEntered (deep : Bool) (s : State) : State :=
  let s1 := (s.setReg 0xA70102 0).setRegBit 0xA70100 13 false
  let s3 := (allIslands.filter fun i => i ≠ .aon ∧ i ≠ .sup ∧ i ≠ .mem).foldl (fun t i => fenceGates i t)
    ((List.range 8).foldl parkCore s1)
  { netSleep deep s3 with mode := .entering deep, enterAt := s.now }

theorem parkEntered_frame (deep : Bool) (s : State) : (parkEntered deep s).reg 0xA70102 = 0 ∧ (parkEntered deep s).mem = s.mem ∧
    ∀ c, c < 8 → ((parkEntered deep s).core c).st = .stopped ∧ ((parkEntered deep s).core c).r = (s.core c).r := by
  generalize hs1 : (s.setReg 0xA70102 0).setRegBit 0xA70100 13 false = s1
  generalize hs2 : (List.range 8).foldl parkCore s1 = s2
  have hframe : ParkFrame s2 (parkEntered deep s) := by
    have h := (ParkFrame.foldl (fun t i => ParkFrame.fenceGates i t)
      (allIslands.filter fun i => i ≠ .aon ∧ i ≠ .sup ∧ i ≠ .mem) s2).trans (.netSleep deep _)
    rw [parkEntered, hs1, hs2]
    exact ⟨h.cores, h.mem, h.refuse⟩
  obtain ⟨hmem, hregs⟩ := foldl_parkCore_frame (List.range 8) s1
  have hcore : ∀ c, s1.core c = s.core c := fun c => by rw [← hs1] <;> rfl
  refine ⟨hframe.refuse.trans ?_, hframe.mem.trans ?_, fun c hc => ?_⟩
  · rw [← hs2, State.reg, hregs, ← State.reg, ← hs1, State.reg_setRegBit_other _ (by decide), State.reg_setReg, if_pos rfl]
  · rw [← hs2, hmem, ← hs1] <;> rfl
  · obtain ⟨hr, hst⟩ := foldl_parkCore (List.range 8) s1 c
    rw [State.core, hframe.cores, ← State.core, ← hs2, hr, hst, hcore, if_pos (List.mem_range.mpr hc)]
    exact ⟨rfl, rfl⟩

/-- A request with its key in Run, of either mode. -/
theorem pwrCtrl_run {v : Word} {t : State} {deep : Bool} (hkey : v.toNat / 256 = 0xA5) (hmode : t.mode = .run)
    (hd : v.toNat % 4 = if deep then 2 else 1) :
    pwrCtrl v t = match parkRefusal t deep with
      | some w => t.setReg 0xA70102 w
      | none => parkEntered deep t := by
  have hlow : fld v 0 2 = if deep then 2 else 1 := (fld_eq_mod v 2).trans hd
  have hdeep : decide (fld v 0 2 = 2) = deep := by
    rw [hlow]
    cases deep <;> rfl
  rw [pwrCtrl, if_neg]
  · dsimp only
    rw [hdeep]
    rfl
  · rw [fld_key, hkey, hlow, hmode]
    cases deep <;> decide

theorem exec_parkRequest {r : Requester} {s t : State} (h : Arrives r .aon s t) (v : Word) :
    exec (.parkRequest r v) s = .next (pwrCtrl v t) := write_arrives h 0xA70101 v rfl

theorem exec_deepParkRequest {r : Requester} {s t : State} (h : Arrives r .aon s t) (v : Word) :
    exec (.deepParkRequest r v) s = .next (pwrCtrl v t) := write_arrives h 0xA70101 v rfl

theorem exec_wakeCauseClear {r : Requester} {s t : State} (h : Arrives r .aon s t) (v : Word) :
    exec (.wakeCauseClear r v) s = .next (wakeClear v t) := write_arrives h 0xA70104 v rfl

theorem exec_rtcLoad {r : Requester} {s t : State} (h : Arrives r .aon s t) (v : Word) :
    exec (.rtcLoad r v) s = .next (rtcCmd v t) := write_arrives h 0xA70117 v rfl

theorem exec_rtcRead {r : Requester} {s t : State} (h : Arrives r .aon s t) : exec (.rtcRead r) s = .next (rtcCapture t) :=
  congrArg Host.Outcome.next (accessRead_arrives h rfl)

/-- The configuration word of each SI input. -/
theorem busWrite_siConfig (q : Requester) (v : Word) (t : State) {k : Nat} (hk : k < 48) :
    busWrite q (0xA70200 + k) v t = inputConfig .si k v t := by
  iterate 48 (obtain _ | k := k; · rfl)
  omega

theorem exec_inputConfigWrite_si {r : Requester} {s t : State} (h : Arrives r .aon s t) (n : Fin 48) (v : Word) :
    exec (.inputConfigWrite r .si n v) s = .next (inputConfig .si n v t) := by
  refine (write_arrives h (0xA70200 + n) v ?_).trans (congrArg _ ?_)
  · revert n
    decide
  · exact busWrite_siConfig _ _ _ n.isLt

/-- The requests of Table 3.7 and their refusals. -/
theorem pwrCtrl_outcome {v : Word} {t : State} {deep : Bool} (hkey : v.toNat / 256 = 0xA5) (hmode : t.mode = .run)
    (hd : v.toNat % 4 = if deep then 2 else 1) :
    (∀ w, parkRefusal t deep = some w → (Host.Outcome.next (pwrCtrl v t) : Out) = .next (t.setReg 0xA70102 w)) ∧
    (parkRefusal t deep = none → ∃ u, (Host.Outcome.next (pwrCtrl v t) : Out) = .next u ∧ u.mode = .entering deep ∧
      u.enterAt = t.now ∧ u.reg 0xA70102 = 0 ∧ u.mem = t.mem ∧
      ∀ c, c < 8 → (u.core c).st = .stopped ∧ (u.core c).r = (t.core c).r) := by
  rw [pwrCtrl_run hkey hmode hd]
  refine ⟨fun w hw => by rw [hw], fun hnone => ⟨parkEntered deep t, by rw [hnone], rfl, rfl, parkEntered_frame deep t⟩⟩

/-- The row of WAKE_CAUSE: bits 0 to 9, cleared by writing 1. -/
theorem plainWrite_wakeCause (v : Word) (t : State) :
    t.plainWrite 0xA70104 v = t.setReg 0xA70104 (t.reg 0xA70104 &&& ~~~(v &&& 0x03FF#16)) := by
  have hrow : regRow 0xA70104 = some ⟨0xA70104, 1, 1, 0x0, 0x0, 0x03FF, none⟩ := by decide +kernel
  rw [State.plainWrite_row hrow]
  congr 1
  simp only [RegRow.stores]
  have hzero : ∀ w x : Word, (w &&& ~~~(0x0#16)) ||| (x &&& 0x0#16) = w := by
    intro w x
    rw [BitVec.and_zero, BitVec.or_zero, BitVec.not_zero, BitVec.and_allOnes]
  exact congrArg (· &&& _) (hzero _ _)

theorem wakeClear_spec (v : Word) (t : State) :
    (wakeClear v t).reg 0xA70104 = t.reg 0xA70104 &&& ~~~(v &&& 0x03FF#16) ∧
      ((wakeClear v t).reg 0xA70104 = 0 → (wakeClear v t).reg 0xA70105 = 0x000F#16) := by
  have hclear : (t.plainWrite 0xA70104 v).reg 0xA70104 = t.reg 0xA70104 &&& ~~~(v &&& 0x03FF#16) := by
    rw [plainWrite_wakeCause, State.reg_setReg, if_pos rfl]
  by_cases hz : (t.plainWrite 0xA70104 v).reg 0xA70104 = 0
  · rw [wakeClear, if_pos hz, State.reg_setReg_other _ (by decide)]
    exact ⟨hclear, fun _ => by rw [State.reg_setReg, if_pos rfl]⟩
  · rw [wakeClear, if_neg hz]
    exact ⟨hclear, fun h => absurd h hz⟩

theorem pollDay_rtcSec (s : State) : (pollDay s).rtcSec = s.rtcSec := by
  unfold pollDay
  split <;> rfl

/-- Seconds loaded other than those of the alarm stand in the RTC. -/
theorem rtcSeconds_rtcSec {sec : Nat} {t : State} (hlt : sec < 2 ^ 32)
    (h : sec ≠ hiLo (t.reg 0xA70114) (t.reg 0xA70113)) : (rtcSeconds sec t).rtcSec = sec := by
  have hsec : (pollDay { t with rtcSec := sec % 2 ^ 32 }).rtcSec = sec := by
    rw [pollDay_rtcSec]
    exact Nat.mod_eq_of_lt hlt
  rw [rtcSeconds, if_neg]
  · exact hsec
  · rw [hsec]
    exact fun hall => h hall.2

theorem filt_plainWrite (s : State) (a : Nat) (v : Word) (n : Nat) : (s.plainWrite a v).filt n = s.filt n := by
  unfold State.plainWrite
  split <;> rfl

/-- Settles O40. -/
theorem powerControlCommands : Obligations.PowerControlCommands := by
  intro r v n s t h
  refine ⟨fun hkey hmode => ⟨fun hd => ?_, fun hd => ?_⟩, ?_, ?_, fun hv => ?_, ?_⟩
  · rw [exec_parkRequest h]
    exact pwrCtrl_outcome (deep := false) hkey hmode hd
  · rw [exec_deepParkRequest h]
    exact pwrCtrl_outcome (deep := true) hkey hmode hd
  · exact ⟨_, exec_wakeCauseClear h v, wakeClear_spec v t⟩
  · refine ⟨_, exec_rtcRead h, ?_, ?_, rfl, rfl⟩
    · simp [rtcCapture, w16]
    · simp [rtcCapture, w16]
  · refine ⟨?_, rtcSeconds_rtcSec ?_⟩
    · rw [exec_rtcLoad h, rtcCmd, if_pos (show bit v 0 = true from hv)] <;> rfl
    · have h16 := (t.reg 0xA70116).isLt
      have h15 := (t.reg 0xA70115).isLt
      omega
  · rw [exec_inputConfigWrite_si h n v, ← filt_plainWrite t (0xA70200 + n) v n] <;> rfl

end Sys2Proof.Machine

/-! Where writes to the windows of NET and SEC come to, and BANK_CLR (O42; R286). -/

namespace Sys2Proof.Machine

/-! Where a write to a window of NET, SEC or the frame buffer comes to. -/

/-- The island windows that hold output channels. -/
theorem window_outIsland (i : OutIsl) : window i.island = 0xA00000 ∨ window i.island = 0xA10000 ∨ window i.island = 0xA20000 ∨
    window i.island = 0xA50000 := by
  cases i <;> decide

theorem count_le (i : OutIsl) : i.count ≤ 108 := by
  cases i <;> decide

theorem portWord_eq_none {a : Nat} (h : ∀ i : OutIsl, a < window i.island ∨ window i.island + 0xD80 ≤ a) : portWord a = none := by
  have hfind : (outIslands.find? fun i => decide (window i.island ≤ a) && decide (a < window i.island + 0x20 * i.count)) = none := by
    rw [List.find?_eq_none]
    intro i _
    have hi := h i
    have hc := count_le i
    rw [Bool.and_eq_true, decide_eq_true_eq, decide_eq_true_eq]
    omega
  rw [portWord, hfind] <;> rfl

theorem outIsland_find_eq_none {a : Nat} (h : ∀ i : OutIsl, a / 256 ≠ i.oib / 256) :
    (outIslands.find? fun i => decide (a / 256 = i.oib / 256)) = none := by
  rw [List.find?_eq_none]
  intro i _
  rw [decide_eq_true_eq]
  exact h i

theorem icbIsland_eq_none {a : Nat} (hff : a % 0x10000 / 256 ≠ 0xFF) (hs : a / 65536 ≠ 0xA8) : icbIsland a = none := by
  rw [icbIsland, if_neg (by omega), if_neg (by omega), if_neg (fun h => hff h.1)]

/-- A word of a window without output channels, below the island's control block. -/
theorem busWrite_window {r : Requester} {a : Nat} {v : Word} {s : State} {w : Nat} (hw : a / 65536 = w)
    (hff : a % 0x10000 / 256 ≠ 0xFF) (h3 : w = 0xA3 ∨ w = 0xA4) : busWrite r a v s =
      if w = 0xA3 then netWrite a v s else secWrite r a v s := by
  have hport : portWord a = none := portWord_eq_none fun i => by
    have := window_outIsland i
    omega
  have hoib : (outIslands.find? fun i => decide (a / 256 = i.oib / 256)) = none := outIsland_find_eq_none fun i => by
    have := window_outIsland i
    rw [OutIsl.oib]
    omega
  rw [busWrite, icbIsland_eq_none hff (by omega), hport, hoib, hw]
  obtain rfl | rfl := h3 <;> rfl

/-! BANK_CLR (R286): its authority and its answer are in ACT's output island control block. -/

/-- Every island runs and is checked. -/
def allRunning : State := { isl := (List.range 12).map fun k => (k, { st := .run, chk := true }) }

theorem allRunning_arrives : Arrives (.core 0) .act allRunning allRunning := ⟨rfl, rfl, rfl, rfl⟩

/-- A word of the state after a command. -/
def regAfter (a : Nat) (o : Out) : Word :=
  match o with
  | .next t => t.reg a
  | _ => 0

/-- Without its key BANK_CLR sets its denied bit at 0xA1F80A and leaves 0xA1F00A. -/
theorem bankClr_denied_word : regAfter 0xA1F00A (exec (.bankClr (.core 0) 0) allRunning) = 0 := by
  decide +kernel

/-- Refutes O42: the statement's 0xA1F00A is not the word of the control block, which stands at 0xA1F800, that BANK_CLR
answers in. -/
theorem not_outputIslandCommands : ¬ Obligations.OutputIslandCommands := by
  intro h
  obtain ⟨-, -, hbank, -⟩ := h (.core 0) .act .sup 0 0 allRunning allRunning
  obtain ⟨hdenied, -⟩ := hbank allRunning_arrives 0 rfl
  have hword := bankClr_denied_word
  rw [hdenied (.inl (by decide))] at hword
  exact absurd hword (by decide)

end Sys2Proof.Machine

/-! Commands through the registers of NET (O43; R350 to R378). -/

namespace Sys2Proof.Machine

/-! Where a write to NET's words comes to. -/

theorem windowIsland_net {a : Nat} (h : 0xA30000 ≤ a) (h' : a < 0xA3FF00) : windowIsland a = some .net := by
  have hw : a / 0x10000 = 0xA3 := by omega
  rw [windowIsland, if_pos ⟨by omega, by omega⟩, if_neg (by omega), hw] <;> rfl

/-- A write that arrives at NET, below its control block. -/
theorem write_net {r : Requester} {s t : State} (h : Arrives r .net s t) {a : Nat} (ha : 0xA30000 ≤ a) (ha' : a < 0xA3FF00)
    (v : Word) : (Host.Outcome.next (accessWrite r a v s) : Out) = .next (netWrite a v t) :=
  (write_arrives h a v (windowIsland_net ha ha')).trans
    (congrArg _ ((busWrite_window (by omega) (by omega) (.inl rfl)).trans (if_pos rfl)))

section
variable (v : Word) (s : State)

theorem netWrite_canMode {n : Nat} (hn : n < 8) : netWrite (canBase n) v s = canMode n v s := by
  have hdiv : (canBase n - 0xA30100) / 0x20 = n := by unfold canBase; omega
  have hmod : canBase n % 0x20 = 0 := by unfold canBase; omega
  unfold netWrite
  rw [if_pos (by unfold canBase; omega)]
  simp only [hdiv, hmod]

theorem netWrite_canTxr {n : Nat} (hn : n < 8) : netWrite (canBase n + 0xA) v s = txrWp n v s := by
  have hdiv : (canBase n + 0xA - 0xA30100) / 0x20 = n := by unfold canBase; omega
  have hmod : (canBase n + 0xA) % 0x20 = 0xA := by unfold canBase; omega
  unfold netWrite
  rw [if_pos (by unfold canBase; omega)]
  simp only [hdiv, hmod]

theorem netWrite_canBorec {n : Nat} (hn : n < 8) : netWrite (canBase n + 0xF) v s = canBorec n v s := by
  have hdiv : (canBase n + 0xF - 0xA30100) / 0x20 = n := by unfold canBase; omega
  have hmod : (canBase n + 0xF) % 0x20 = 0xF := by unfold canBase; omega
  unfold netWrite
  rw [if_pos (by unfold canBase; omega)]
  simp only [hdiv, hmod]

theorem netWrite_ethTc10 {n : Nat} (hn : n < 2) : netWrite (ethBase n + 8) v s = ethTc10 n v s := by
  have hdiv : (ethBase n + 8 - 0xA30200) / 0x20 = n := by unfold ethBase; omega
  have hmod : (ethBase n + 8) % 0x20 = 8 := by unfold ethBase; omega
  unfold netWrite
  rw [if_neg (by unfold ethBase; omega), if_pos (by unfold ethBase; omega)]
  simp only [hdiv, hmod, hn, if_true]

theorem netWrite_ethTxr {n : Nat} (hn : n < 6) : netWrite (ethBase n + 0xB) v s = txrWp (8 + n) v s := by
  have hdiv : (ethBase n + 0xB - 0xA30200) / 0x20 = n := by unfold ethBase; omega
  have hmod : (ethBase n + 0xB) % 0x20 = 0xB := by unfold ethBase; omega
  unfold netWrite
  rw [if_neg (by unfold ethBase; omega), if_pos (by unfold ethBase; omega)]
  simp only [hdiv, hmod]

theorem netWrite_linHdr {n : Nat} (hn : n < 12) : netWrite (linBase n + 2) v s = linHdr n v s := by
  have hdiv : (linBase n + 2 - 0xA30300) / 0x10 = n := by unfold linBase; omega
  have hmod : (linBase n + 2) % 0x10 = 2 := by unfold linBase; omega
  unfold netWrite
  rw [if_neg (by unfold linBase; omega), if_neg (by unfold linBase; omega), if_pos (by unfold linBase; omega)]
  simp only [hdiv, hmod]

theorem netWrite_linWakeSend {n : Nat} (hn : n < 12) : netWrite (linBase n + 8) v s = linWakeSend n v s := by
  have hdiv : (linBase n + 8 - 0xA30300) / 0x10 = n := by unfold linBase; omega
  have hmod : (linBase n + 8) % 0x10 = 8 := by unfold linBase; omega
  unfold netWrite
  rw [if_neg (by unfold linBase; omega), if_neg (by unfold linBase; omega), if_pos (by unfold linBase; omega)]
  simp only [hdiv, hmod]

theorem netWrite_linPub {n : Nat} (hn : n < 12) (id : BitVec 6) : netWrite (linEntry n id + 5) v s = linPub n id s := by
  have hid := id.isLt
  have hdiv : (linEntry n id + 5 - 0xA34000) / 0x200 = n := by unfold linEntry; omega
  have hid' : BitVec.ofNat 6 ((linEntry n id + 5 - 0xA34000) / 8) = id := by
    apply BitVec.eq_of_toNat_eq
    rw [BitVec.toNat_ofNat]
    unfold linEntry
    omega
  unfold netWrite
  rw [if_neg (by unfold linEntry; omega), if_neg (by unfold linEntry; omega), if_neg (by unfold linEntry; omega),
    if_pos (by unfold linEntry; omega), hdiv, hid']

end

section
variable {r : Requester} {s t : State} (h : Arrives r .net s t)
include h

theorem exec_txrWpWrite (p : Fin 14) (v : Word) : exec (.txrWpWrite r p v) s = .next (txrWp p v t) := by
  have hp := p.isLt
  refine (write_net h ?_ ?_ v).trans (congrArg _ ?_)
  · split <;> omega
  · split <;> omega
  · split
    · next h8 => exact (congrArg (netWrite · v t) (by unfold canBase; omega)).trans (netWrite_canTxr v t h8)
    · next h8 =>
      refine (congrArg (netWrite · v t) (by unfold ethBase; omega)).trans ((netWrite_ethTxr v t (n := p - 8) (by omega)).trans ?_)
      rw [Nat.add_sub_cancel' (by omega)]

theorem exec_canModeWrite (n : Fin 8) (v : Word) : exec (.canModeWrite r n v) s = .next (canMode n v t) := by
  have hn := n.isLt
  exact (write_net h (by omega) (by omega) v).trans (congrArg _ (netWrite_canMode v t hn))

theorem exec_canBorec (n : Fin 8) (v : Word) : exec (.canBorec r n v) s = .next (canBorec n v t) := by
  have hn := n.isLt
  refine (write_net h (by omega) (by omega) v).trans (congrArg _ ?_)
  exact (congrArg (netWrite · v t) (by unfold canBase; omega)).trans (netWrite_canBorec v t hn)

theorem exec_linHdr (l : Fin 12) (v : Word) : exec (.linHdr r l v) s = .next (linHdr l v t) := by
  have hl := l.isLt
  refine (write_net h (by omega) (by omega) v).trans (congrArg _ ?_)
  exact (congrArg (netWrite · v t) (by unfold linBase; omega)).trans (netWrite_linHdr v t hl)

theorem exec_linPub (l : Fin 12) (id : BitVec 6) : exec (.linPub r l id) s = .next (linPub l id t) := by
  have hl := l.isLt
  have hid := id.isLt
  refine (write_net h (by omega) (by omega) 0).trans (congrArg _ ?_)
  exact (congrArg (netWrite · 0 t) (by unfold linEntry; omega)).trans (netWrite_linPub 0 t hl id)

theorem exec_linWakeSend (l : Fin 12) (v : Word) : exec (.linWakeSend r l v) s = .next (linWakeSend l v t) := by
  have hl := l.isLt
  refine (write_net h (by omega) (by omega) v).trans (congrArg _ ?_)
  exact (congrArg (netWrite · v t) (by unfold linBase; omega)).trans (netWrite_linWakeSend v t hl)

theorem exec_sleepreq (k : Fin 2) : exec (.sleepreq r k) s = .next (ethTc10 k 0x0001#16 t) := by
  have hk := k.isLt
  refine (write_net h (by omega) (by omega) _).trans (congrArg _ ?_)
  exact (congrArg (netWrite · _ t) (by unfold ethBase; omega)).trans (netWrite_ethTc10 _ t hk)

theorem exec_wur (k : Fin 2) : exec (.wur r k) s = .next (ethTc10 k 0x0002#16 t) := by
  have hk := k.isLt
  refine (write_net h (by omega) (by omega) _).trans (congrArg _ ?_)
  exact (congrArg (netWrite · _ t) (by unfold ethBase; omega)).trans (netWrite_ethTc10 _ t hk)

theorem exec_gwswap : exec (.gwswap r) s = .next (netCmd 0x0001#16 t) := write_net h (by decide) (by decide) _
theorem exec_wfsend : exec (.wfsend r) s = .next (netCmd 0x0002#16 t) := write_net h (by decide) (by decide) _
theorem exec_gwIsoWrite (v : Word) : exec (.gwIsoWrite r v) s = .next (setIso v t) := write_net h (by decide) (by decide) v
theorem exec_wklPulse (v : Word) : exec (.wklPulse r v) s = .next (wklCmd v t) := write_net h (by decide) (by decide) v
theorem exec_ringEnable (v : Word) : exec (.ringEnable r v) s = .next (trCtrl v t) := write_net h (by decide) (by decide) v
theorem exec_trRevoke : exec (.trRevoke r) s = .next (trCmd 0x0001#16 t) := write_net h (by decide) (by decide) _
theorem exec_trLeave : exec (.trLeave r) s = .next (trCmd 0x0002#16 t) := write_net h (by decide) (by decide) _
theorem exec_unbar : exec (.unbar r) s = .next (trCmd 0x0004#16 t) := write_net h (by decide) (by decide) _
theorem exec_netUsRead : exec (.netUsRead r) s = .next (netUsCapture t) :=
  congrArg Host.Outcome.next (accessRead_arrives h rfl)

end

/-! What the commands do there. -/

section
variable {t : State}

theorem Arrives.running {r : Requester} {i : Island} {s : State} (h : Arrives r i s t) : t.running i = true := by
  have hopen := h.still
  rw [State.gateOpen, Bool.and_eq_true] at hopen
  exact hopen.1

theorem canMode_idle {n : Nat} (h : t.net.wake.get (fun _ => none) n = none) (v : Word) :
    canMode n v t = t.setReg (canBase n) (v &&& 0x007F#16) := by
  rw [canMode, h] <;> rfl

theorem canMode_waking {n : Nat} (h : (t.net.wake.get (fun _ => none) n).isSome = true) (v : Word) :
    canMode n v t = { t with net := { t.net with modeHeld := t.net.modeHeld.set (fun _ => none) n (some v) } } := by
  rw [canMode, if_pos h]

theorem linHdr_idle {n : Nat} (hm : t.regFld (linBase n) 0 2 = 3) (hb : t.regBit (linBase n + 3) 0 = false) (v : Word) :
    linHdr n v t = (t.setReg (linBase n + 3) (pack [(0, 1), (8, (BitVec.ofNat 6 (v.toNat % 64)).toNat)])).send
      (.lin n (linBaud t n) (linPid (BitVec.ofNat 6 (v.toNat % 64))) []) := by
  rw [linHdr, if_neg (by rw [hm, hb]; decide), fld_eq_mod v 6] <;> rfl

theorem linWakeSend_idle {n : Nat} {v : Word} (hv : v.getLsbD 0 = true) (h : linWaking t n = false) :
    linWakeSend n v t = { t with net := { t.net with
      linWakeEnd := t.net.linWakeEnd.set (fun _ => 0) n (t.now + 1000) } }.send (.linWake n) := by
  rw [linWakeSend, if_pos (show bit v 0 = true from hv), linWakeStart, h] <;> rfl

section
variable {k : Nat} (hbus : onBus t (8 + k) = true) (hsel : t.regBit (ethBase k) 3 = true)
include hbus hsel

theorem ethTc10_sleep (h1 : fld (ethStat t k) 1 3 = 1) :
    ethTc10 k 0x0001#16 t = (t.setRegFld (ethBase k + 7) 1 3 2).send (.tc10 k false) := by
  have hb0 : bit 0x0001#16 0 = true := rfl
  have hb1 : bit 0x0001#16 1 = false := rfl
  rw [ethTc10, if_neg (by rw [hbus, hsel] <;> decide)]
  simp only [h1, hb0, hb1, and_self, if_true, Bool.false_eq_true, false_and, if_false]

theorem ethTc10_wake (h4 : fld (ethStat t k) 1 3 ≠ 4) : ethTc10 k 0x0002#16 t =
    (if fld (ethStat t k) 1 3 = 3 then t.setRegFld (ethBase k + 7) 1 3 4 else t).send (.tc10 k true) := by
  have hb0 : bit 0x0002#16 0 = false := rfl
  have hb1 : bit 0x0002#16 1 = true := rfl
  rw [ethTc10, if_neg (by rw [hbus, hsel] <;> decide)]
  simp only [hb0, hb1, h4, ne_eq, not_false_eq_true, and_self, if_true, Bool.false_eq_true, false_and, if_false]

end

theorem gwSwap_good (hp : t.regBit 0xA30002 0 = false) (hg : (List.range 256).find? (routeBad t) = none) :
    gwSwap t = ((t.setRegBit 0xA30002 1 false).setRegFld 0xA30002 3 8 0).setRegBit 0xA30002 0 true := by
  rw [gwSwap, if_neg (ne_true_of_eq_false hp), hg]

theorem netCmd_swap : netCmd 0x0001#16 t = gwSwap t := by
  rw [netCmd]
  exact if_neg (fun h => absurd h.1 (by decide))

theorem netCmd_wake (h : wakeBusy t = false) : netCmd 0x0002#16 t = sendWake t := by
  rw [netCmd, if_neg (show ¬ bit 0x0002#16 0 = true by decide)]
  exact if_pos ⟨by decide, by rw [h] <;> rfl⟩

theorem setIso_noneNew {v : Word} (h : v &&& ~~~ t.reg 0xA30805 &&& 0x3FFF#16 = 0) :
    setIso v t = (t.setReg 0xA30805 (v &&& 0x3FFF#16)).level 164 (decide (v &&& 0x3FFF#16 ≠ 0)) := by
  have hnone : bitsSet 14 ((v &&& ~~~ t.reg 0xA30805) &&& 0x3FFF#16).toNat = [] := by
    rw [h] <;> rfl
  rw [setIso, hnone]
  exact if_pos rfl

/-- A pulse on one line, not running yet. -/
theorem wklCmd_one {k : Fin 2} {v : Word} (hk : v.getLsbD k = true) (hother : v.getLsbD (1 - k.val) = false)
    (hidle : t.regBit 0xA30808 (2 + k) = false) : wklCmd v t = { t.setRegBit 0xA30808 (2 + k) true with
      net := { t.net with wklAt := t.net.wklAt.set (fun _ => 0) k t.now } } := by
  have hrange : List.range 2 = [0, 1] := rfl
  match k with
  | 0 =>
    have h0 : bit v 0 = true := hk
    have h1 : bit v 1 = false := hother
    have hi : t.regBit 0xA30808 (2 + 0) = false := hidle
    simp only [wklCmd, hrange, List.foldl_cons, List.foldl_nil, h0, h1, hi, Bool.not_false, Bool.and_self, Bool.false_and,
      Bool.false_eq_true, if_true, if_false]
    rfl
  | 1 =>
    have h0 : bit v 0 = false := hother
    have h1 : bit v 1 = true := hk
    have hi : t.regBit 0xA30808 (2 + 1) = false := hidle
    simp only [wklCmd, hrange, List.foldl_cons, List.foldl_nil, h0, h1, hi, Bool.not_false, Bool.and_self, Bool.false_and,
      Bool.false_eq_true, if_true, if_false]
    rfl

theorem trCtrl_joins {v : Word} (hv : v.getLsbD 0 = true) (hst : trState t = 0 ∨ trState t = 6) : trCtrl v t = enterJoining
    (modRing (fun x => { x with node := t.regFld 0xA30041 0 6, base := 64 * t.regFld 0xA30041 6 5 })
      (t.setReg 0xA30040 (v &&& 0x000F#16))) := by
  rw [trCtrl, if_pos (show bit v 0 = true from hv), if_pos hst]

theorem trCmd_revoke (hrun : t.running .net = true) (hq : inQuiet t 198000 = true) :
    trCmd 0x0001#16 t = cancelSleep (setMember t.net.ring.node true
      (sendRing (ringData 5 (trRound t) 0xFF 0xFF false 0xFF) t)) := by
  have hrevoke : ringRevoke t = cancelSleep (setMember t.net.ring.node true
      (sendRing (ringData 5 (trRound t) 0xFF 0xFF false 0xFF) t)) := by
    rw [ringRevoke, if_pos (by rw [hrun, hq] <;> rfl)]
  have hb0 : bit 0x0001#16 0 = true := rfl
  have hb1 : bit 0x0001#16 1 = false := rfl
  have hb2 : bit 0x0001#16 2 = false := rfl
  simp only [trCmd, hb0, hb1, hb2, if_true, hrevoke, Bool.false_eq_true, false_and, if_false]

theorem trCmd_leave (hst : trState t = 2) : trCmd 0x0002#16 t = trCmd.leave t := by
  have hb0 : bit 0x0002#16 0 = false := rfl
  have hb1 : bit 0x0002#16 1 = true := rfl
  have hb2 : bit 0x0002#16 2 = false := rfl
  simp only [trCmd, hb0, hb1, hb2, hst, and_self, if_true, Bool.false_eq_true, if_false]

theorem trCmd_unbar : trCmd 0x0004#16 t = trCmd.unbarAll t := by
  have hb0 : bit 0x0004#16 0 = false := rfl
  have hb1 : bit 0x0004#16 1 = false := rfl
  have hb2 : bit 0x0004#16 2 = true := rfl
  simp only [trCmd, hb0, hb1, hb2, if_true, Bool.false_eq_true, false_and, if_false]

end

/-- Settles O43. -/
theorem networkCommands : Obligations.NetworkCommands := by
  intro r p n l k id v s t h
  refine ⟨exec_txrWpWrite h p v, fun hidle => ?_, fun hwake => ?_, fun hv hoff hrec => ?_, fun hm hb => ?_, exec_linPub h l id,
    fun hv hidle => ?_, fun hbus hsel => ⟨fun h1 => ?_, fun h4 => ?_⟩, fun hp hg => ?_, fun hidle => ?_, fun hnew => ?_,
    exec_gwIsoWrite h v, fun hk hother hidle => ?_, exec_netUsRead h, fun hv hst => ?_, fun hq => ?_, fun hst => ?_, ?_⟩
  · rw [exec_canModeWrite h, canMode_idle hidle]
  · rw [exec_canModeWrite h, canMode_waking hwake]
  · rw [exec_canBorec h, canBorec, if_pos ⟨hv, hoff, hrec⟩]
  · exact (exec_linHdr h l v).trans (congrArg _ (linHdr_idle hm hb v))
  · rw [exec_linWakeSend h, linWakeSend_idle hv hidle]
  · rw [exec_sleepreq h, ethTc10_sleep hbus hsel h1]
  · rw [exec_wur h, ethTc10_wake hbus hsel h4]
  · rw [exec_gwswap h, netCmd_swap, gwSwap_good hp hg]
  · rw [exec_wfsend h, netCmd_wake hidle]
  · rw [exec_gwIsoWrite h, setIso_noneNew hnew]
  · rw [exec_wklPulse h, wklCmd_one hk hother hidle]
  · rw [exec_ringEnable h, trCtrl_joins hv hst]
  · rw [exec_trRevoke h, trCmd_revoke h.running hq]
  · rw [exec_trLeave h, trCmd_leave hst]
  · rw [exec_unbar h, trCmd_unbar]

end Sys2Proof.Machine

/-! Commands through the registers of SEC (O44; R380 to R420). -/

namespace Sys2Proof.Machine

theorem windowIsland_sec {a : Nat} (h : 0xA40000 ≤ a) (h' : a < 0xA4FF00) : windowIsland a = some .sec := by
  have hw : a / 0x10000 = 0xA4 := by omega
  rw [windowIsland, if_pos ⟨by omega, by omega⟩, if_neg (by omega), hw] <;> rfl

/-- A write that arrives at SEC, below its control block. -/
theorem write_sec {r : Requester} {s t : State} (h : Arrives r .sec s t) {a : Nat} (ha : 0xA40000 ≤ a) (ha' : a < 0xA4FF00)
    (v : Word) : (Host.Outcome.next (accessWrite r a v s) : Out) = .next (secWrite (asRequester t r) a v t) :=
  (write_arrives h a v (windowIsland_sec ha ha')).trans
    (congrArg _ ((busWrite_window (by omega) (by omega) (.inr rfl)).trans (if_neg (by decide))))

section
variable (r : Requester) (v : Word) (s : State)

theorem secWrite_jobStage {j w : Nat} (hj : j < 4) (hw : w < 0x1A) : secWrite r (jobAt j w) v s = jobStage r j w v s := by
  have hdiv : (jobAt j w - 0xA42020) / 0x20 = j := by unfold jobAt; omega
  have hmod : jobAt j w % 0x20 = w := by unfold jobAt; omega
  unfold secWrite
  rw [if_pos (by unfold jobAt; omega)]
  simp only [hdiv, hmod, hw, if_true]

theorem secWrite_jobGo {j : Nat} (hj : j < 4) : secWrite r (jobAt j 0x1A) v s = jobGo r j v s := by
  have hdiv : (jobAt j 0x1A - 0xA42020) / 0x20 = j := by unfold jobAt; omega
  have hmod : jobAt j 0x1A % 0x20 = 0x1A := by unfold jobAt; omega
  unfold secWrite
  rw [if_pos (by unfold jobAt; omega)]
  simp only [hdiv, hmod, Nat.lt_irrefl, if_false, if_true]

end

section
variable {r : Requester} {s t : State} (h : Arrives r .sec s t)
include h

theorem exec_generalSession (v : Word) : exec (.generalSession r v) s = .next (accCmd v t) := write_sec h (by decide) (by decide) v
theorem exec_addressedSession (v : Word) : exec (.addressedSession r v) s = .next (accCmd v t) :=
  write_sec h (by decide) (by decide) v
theorem exec_sessionAbort (v : Word) : exec (.sessionAbort r v) s = .next (accCmd v t) := write_sec h (by decide) (by decide) v
theorem exec_rngArm (v : Word) : exec (.rngArm r v) s = .next (rngArm v t) := write_sec h (by decide) (by decide) v
theorem exec_rngTround (v : Word) : exec (.rngTround r v) s = .next (rngTround v t) := write_sec h (by decide) (by decide) v
theorem exec_enrolment (v : Word) : exec (.enrolment r v) s = .next (enrCmd (asRequester t r) v t) :=
  write_sec h (by decide) (by decide) v
theorem exec_revocation (v : Word) : exec (.revocation r v) s = .next (enrCmd (asRequester t r) v t) :=
  write_sec h (by decide) (by decide) v
theorem exec_immoRelease (v : Word) : exec (.immoRelease r v) s = .next (immoCmd (asRequester t r) v t) :=
  write_sec h (by decide) (by decide) v
theorem exec_immoLock (v : Word) : exec (.immoLock r v) s = .next (immoCmd (asRequester t r) v t) :=
  write_sec h (by decide) (by decide) v
theorem exec_immoSet (v : Word) : exec (.immoSet r v) s = .next (immoCmd (asRequester t r) v t) :=
  write_sec h (by decide) (by decide) v

/-- The five key-store commands are writes of one word. -/
theorem exec_keyStore (v : Word) {mk : Requester → Word → Instr} (hmk : mk ∈ [(fun r v => .ksLoad r v : Requester → Word → Instr),
    .ksLoadotp, .ksGen, .ksImport, .ksErase]) : exec (mk r v) s = .next (ksCmd (asRequester t r) v t) := by
  simp only [List.mem_cons, List.not_mem_nil, or_false] at hmk
  obtain rfl | rfl | rfl | rfl | rfl := hmk <;> exact write_sec h (by decide) (by decide) v

theorem exec_jobStagingWrite (j : Fin 4) (w : Fin 26) (v : Word) :
    exec (.jobStagingWrite r j w v) s = .next (jobStage (asRequester t r) j w v t) := by
  have hj := j.isLt
  have hw := w.isLt
  exact (write_sec h (by omega) (by omega) v).trans (congrArg _ (secWrite_jobStage _ v t hj hw))

theorem exec_jobGo (j : Fin 4) (v : Word) : exec (.jobGo r j v) s = .next (jobGo (asRequester t r) j v t) := by
  have hj := j.isLt
  refine (write_sec h (by omega) (by omega) v).trans (congrArg _ ?_)
  exact (congrArg (secWrite _ · v t) (by unfold jobAt; omega)).trans (secWrite_jobGo _ v t hj)

theorem exec_trnRead : exec (.trnRead r) s = .next (trnRead t).2 := congrArg Host.Outcome.next (accessRead_arrives h rfl)

theorem exec_spiDataWrite (p : Fin 2) (v : Word) (b : Byte) : exec (.spiDataWrite r p v b) s = .next (spiWrite p v b t) := by
  obtain ⟨hruns, rfl, hstill, hfirst⟩ := h
  change execSpiDataWrite r p v b s = _
  rw [execSpiDataWrite, if_pos hruns]
  exact congrArg _ (if_pos (by rw [hstill, hfirst] <;> rfl))

end

/-! What the commands do there. -/

section
variable {t : State}

theorem accCmd_general {v : Word} (h : v.toNat % 4 = 1) : accCmd v t = startSession false v t := by
  rw [accCmd, fld_eq_mod v 2, show v.toNat % 2 ^ 2 = 1 from h] <;> rfl

theorem accCmd_addressed {v : Word} (h : v.toNat % 4 = 2) : accCmd v t = startSession true v t := by
  rw [accCmd, fld_eq_mod v 2, show v.toNat % 2 ^ 2 = 2 from h] <;> rfl

theorem accCmd_abort {v : Word} (h : v.toNat % 4 = 3) : accCmd v t = abortSession t := by
  rw [accCmd, fld_eq_mod v 2, show v.toNat % 2 ^ 2 = 3 from h] <;> rfl

/-- What is sent stays with what was sent: SEC's own record does not change. -/
theorem sendChallenges_sec (type slot mask : Nat) (body : List Byte) (s : State) :
    (sendChallenges type slot mask body s).sec = s.sec := by
  unfold sendChallenges
  exact List.foldlRecOn (motive := fun u : State => u.sec = s.sec) _ _ rfl fun u hu e _ => hu

/-- A session started with nothing in the way is there. -/
theorem startSession_isSome (addressed : Bool) (v : Word) (hs : t.sec.session = none) (he : t.sec.enr = none)
    (htrn : t.sec.trnFail = false) (hband : t.band ≠ .over) : (startSession addressed v t).sec.session.isSome = true := by
  rw [startSession, if_neg (by rw [hs, he]; decide)]
  dsimp only
  rw [if_neg (by rw [htrn]; simpa using hband), sendChallenges_sec]
  rfl

theorem spiWrite_room {p : Nat} (h : (t.sec.spi.get (fun _ => []) p).length < 16) (v : Word) (b : Byte) : spiWrite p v b t =
    { (if t.straps.isSome then t.send (.spi p (spiDiv t p) (t.regBit (0xA41020 + 3 * p) 7) (loByte v)) else t) with
      sec := { t.sec with
        spiEnd := t.sec.spiEnd.set (fun _ => 0) p (t.now + (16 * (spiDiv t p + 1) + 249) / 250)
        spi := t.sec.spi.set (fun _ => []) p (t.sec.spi.get (fun _ => []) p ++ [b]) } } := by
  rw [spiWrite]
  dsimp only
  rw [if_neg (by omega)]
  split <;> rfl

section
variable {q : Requester} {v : Word} (hkey : v.toNat / 256 = 0xE7) (hidle : t.sec.enr = none)
include hkey hidle

theorem enrCmd_begins (h5 : v.getLsbD 5 = false) (hs : t.sec.session = none) : enrCmd q v t = beginEnrolment q v t := by
  have h5 : bit v 5 = false := h5
  rw [enrCmd, fld_key, hkey, hidle, h5, hs] <;> rfl

theorem enrCmd_held (h5 : v.getLsbD 5 = false) (hs : t.sec.session.isSome = true) (hh : t.sec.enrHeld = none) :
    enrCmd q v t = { t with sec := { t.sec with enrHeld := some (q, v) } } := by
  have h5 : bit v 5 = false := h5
  rw [enrCmd, fld_key, hkey, hidle, h5, hs, hh] <;> rfl

theorem enrCmd_revokes (h5 : v.getLsbD 5 = true) (hq : coreNamed t 0xA41003 q = true)
    (hn : enrolled t (v.toNat % 32) = true) : enrCmd q v t = enrStatus true 0 (dropSlot (v.toNat % 32)
      (setEnrolled (v.toNat % 32) false { t with sec := { t.sec with enr := some (q, v) } })) := by
  have h5 : bit v 5 = true := h5
  have hfld : fld v 0 5 = v.toNat % 32 := fld_eq_mod v 5
  rw [enrCmd, fld_key, hkey, hidle, h5, beginRevocation, hfld]
  simp only [hq, hn, Bool.not_true, Bool.false_eq_true, if_false, if_true, Option.isSome_none, ne_eq, not_true_eq_false, or_self]

end

/-- The release or lock frame of a slot's key, its counter advanced (R401). -/
def immoFramed (op : Byte) (k : KeySlot) (t : State) : State :=
  let body := op :: beBytes 3 (immoCnt t + 1)
  ((setImmoCnt (immoCnt t + 1) t).setRegList 0xA41047
    (wordsOf (body ++ (cmac k.key (regBytes t 0xA41000 ++ body)).take 4))).setReg 0xA41046 0x0002#16

theorem immoFrame_framed {q : Requester} {release : Bool} {k : KeySlot} (hs : t.slot (t.regFld 0xA41040 0 6) = some k)
    (h : immoRefusal t q release = 0) : immoFrame q release t = immoFramed (byte (if release then 0x11 else 0x12)) k t := by
  rw [immoFrame, h, hs] <;> rfl

section
variable {q : Requester} {v : Word} (hkey : v.toNat / 256 = 0x96)
include hkey

theorem immoCmd_release (h : v.toNat % 4 = 1) : immoCmd q v t = immoFrame q true t := by
  rw [immoCmd, fld_key, hkey, fld_eq_mod v 2, show v.toNat % 2 ^ 2 = 1 from h] <;> rfl

theorem immoCmd_lock (h : v.toNat % 4 = 2) : immoCmd q v t = immoFrame q false t := by
  rw [immoCmd, fld_key, hkey, fld_eq_mod v 2, show v.toNat % 2 ^ 2 = 2 from h] <;> rfl

theorem immoCmd_set (h : v.toNat % 4 = 3) (hc : t.cntSet = false) : immoCmd q v t =
    { setImmoCnt (t.regN 0xA41043 + 65536 * t.regFld 0xA41044 0 8) (t.setReg 0xA41046 0) with cntSet := true } := by
  rw [immoCmd, fld_key, hkey, fld_eq_mod v 2, show v.toNat % 2 ^ 2 = 3 from h]
  exact if_neg (ne_true_of_eq_false hc)

end

theorem ksCmd_taken {q : Requester} {v : Word} (hkey : v.toNat / 256 = 0x4B) (hks : t.sec.ks = none) (h1 : 1 ≤ v.toNat % 8)
    (h5 : v.toNat % 8 ≤ 5) : ksCmd q v t = { t with sec := { t.sec with
      ks := some { op := v.toNat % 8, r := q, staged := t.regList 0xA42003 8 } } }.setReg 0xA4200C 0x0001#16 := by
  have hop : fld v 0 3 = v.toNat % 8 := fld_eq_mod v 3
  rw [ksCmd, fld_key, hkey, hks, hop, if_neg]
  simp only [ne_eq, not_true_eq_false, Option.isSome_none, Bool.false_eq_true, false_or, not_or]
  omega

theorem job_setJob (s : State) (j : Nat) (x : Job) : (s.setJob j x).job j = x := by
  change (s.sec.jobs.set (fun _ => {}) j x).get (fun _ => {}) j = x
  rw [Sparse.get_set, if_pos rfl]

/-- The job a slot takes with its staged words. -/
def jobTaken (q : Requester) (j : Nat) (v : Word) (t : State) : Job :=
  { t.job j with busy := true, run := false, wbusy := false, code := 0, key := [], seq := v, r := q,
                 snap := t.regList (jobAt j 0) 26 }

section
variable {q : Requester} {j : Nat} (hq : jobOwner t j q = true) (hj : (t.job j).busy = false)
include hq hj

theorem jobStage_idle (w : Nat) (v : Word) : jobStage q j w v t = t.setReg (jobAt j w) (v &&& jobMask w) := by
  rw [jobStage, if_neg (by rw [hq]; decide), if_neg (by rw [hj]; decide)]

theorem jobGo_idle (v : Word) : (jobGo q j v t).sec.jobQ = t.sec.jobQ ++ [j] ∧ ((jobGo q j v t).job j).busy = true ∧
    ((jobGo q j v t).job j).snap = t.regList (jobAt j 0) 26 ∧ (jobGo q j v t).mem = t.mem := by
  have htaken : jobGo q j v t = { t.setJob j (jobTaken q j v t) with
      sec := { (t.setJob j (jobTaken q j v t)).sec with jobQ := (t.setJob j (jobTaken q j v t)).sec.jobQ ++ [j] } } := by
    rw [jobGo, if_neg (by rw [hq]; decide), if_neg (by rw [hj]; decide)] <;> rfl
  rw [htaken]
  have hjob := job_setJob t j (jobTaken q j v t)
  exact ⟨rfl, congrArg Job.busy hjob, congrArg Job.snap hjob, rfl⟩

end

theorem trnRead_ready (h : t.sec.trnReady = true) :
    (trnRead t).2 = { t.used with sec := { t.sec with trnReady := false } } := by
  rw [trnRead, if_pos h]

end

/-- Settles O44. -/
theorem securityCommands : Obligations.SecurityCommands := by
  intro r p j w v b s t h q
  refine ⟨fun hs he => ⟨fun h1 => ?_, fun h2 => ?_, fun htrn hband => ⟨startSession_isSome false v hs he htrn hband,
      startSession_isSome true v hs he htrn hband⟩⟩, fun h3 _ => ?_, ?_, exec_rngTround h v, fun hroom => ?_,
    fun hkey hidle => ⟨fun h5 hs => ?_, fun h5 hs hh => ?_, fun h5 hq hn => ?_⟩,
    fun hkey k hk => ⟨fun h1 hr => ?_, fun h2 hr => ?_⟩, fun hkey h3 hc => ?_, fun hkey hks h1 h5 mk hmk => ?_,
    fun hq hj => ⟨?_, _, exec_jobGo h j v, jobGo_idle hq hj v⟩, fun hready => ?_⟩
  · rw [exec_generalSession h, accCmd_general h1]
  · rw [exec_addressedSession h, accCmd_addressed h2]
  · rw [exec_sessionAbort h, accCmd_abort h3]
  · have hn : fld v 0 5 = v.toNat % 32 := fld_eq_mod v 5
    have hport : fld v 5 1 = v.toNat / 32 % 2 := fld_eq_div_mod v 5 1
    rw [exec_rngArm h, rngArm, hn, hport]
  · rw [exec_spiDataWrite h, spiWrite_room hroom]
  · rw [exec_enrolment h, enrCmd_begins hkey hidle h5 hs]
  · rw [exec_enrolment h, enrCmd_held hkey hidle h5 hs hh]
  · rw [exec_revocation h, enrCmd_revokes hkey hidle h5 hq hn]
  · rw [exec_immoRelease h, immoCmd_release hkey h1, immoFrame_framed hk hr] <;> rfl
  · rw [exec_immoLock h, immoCmd_lock hkey h2, immoFrame_framed hk hr] <;> rfl
  · rw [exec_immoSet h, immoCmd_set hkey h3 hc]
  · rw [exec_keyStore h v hmk, ksCmd_taken hkey hks h1 h5]
  · rw [exec_jobStagingWrite h, jobStage_idle hq hj] <;> rfl
  · rw [exec_trnRead h, trnRead_ready hready]

end Sys2Proof.Machine

/-! Commands through the registers of LNK and MEM (O45, O46; R460 to R463, R470). -/

namespace Sys2Proof.Machine

/-! Remote reset (R462). -/

theorem exec_lnkRrst {r : Requester} {s t : State} (h : Arrives r .lnk s t) (v : Word) :
    exec (.lnkRrst r v) s = .next (remoteReset (asRequester t r) v t) := write_arrives h 0xA6000E v rfl

/-- Settles O45. -/
theorem remoteResetAuthority : Obligations.RemoteResetAuthority := by
  intro r v s t h d
  rw [exec_lnkRrst h, remoteReset, fld_key]
  refine ⟨fun hkey hnamed hother hgo => ?_, fun hdenied => ?_⟩
  · have hgo : bit v 0 = true := hgo
    refine congrArg _ ((if_neg ?_).trans (if_neg (by rw [hgo]; decide)))
    rw [hkey, hnamed]
    rintro (h | h | h)
    · exact h rfl
    · exact absurd h (by decide)
    · exact hother h
  · refine congrArg _ (if_pos ?_)
    obtain hkey | hnamed | hown := hdenied
    · exact .inl hkey
    · exact .inr (.inl (by rw [hnamed] <;> rfl))
    · exact .inr (.inr hown)

/-! Channel command, mail and port restart (R460, R461, R463). -/

/-- The command word of each port. -/
theorem busWrite_pcfg (q : Requester) (v : Word) (t : State) :
    (p : Fin 4) → busWrite q (pcfg p + 3) v t = portCommand p v t
  | 0 | 1 | 2 | 3 => rfl

section
variable {r : Requester} {s t : State} (h : Arrives r .lnk s t) (v : Word)
include h

theorem exec_ccGo : exec (.ccGo r v) s = .next (channelGo v t) := write_arrives h 0xA6008A v rfl

theorem exec_mbxTxgo : exec (.mbxTxgo r v) s = .next (mailGo v t) := write_arrives h 0xA60079 v rfl

theorem exec_portRestart (p : Fin 4) : exec (.portRestart r p v) s = .next (portCommand p v t) := by
  refine (write_arrives h (pcfg p + 3) v ?_).trans (congrArg _ ?_)
  · revert p
    decide
  · exact busWrite_pcfg _ _ _ p

end

section
variable {v : Word} {t : State}

theorem channelGo_sent (hidle : t.regBit 0xA6008B 0 = false) (hr : reachable t (t.regFld 0xA60080 0 9) = true) :
    channelGo v t = request .chan { stitchFrom t 5 (t.regFld 0xA60080 0 9) with
      len := 8, addr := BitVec.ofNat 24 ((t.reg 0xA60081).toNat + 65536 * t.regFld 0xA60082 0 8)
      payload := [t.reg 0xA60083 &&& 0x7FFF#16] ++ t.regList 0xA60084 6 ++ [v] } (t.setReg 0xA6008B 0x0001#16) := by
  rw [channelGo, if_neg (ne_true_of_eq_false hidle), if_neg (by rw [hr]; decide)]

theorem channelGo_unreachable (hidle : t.regBit 0xA6008B 0 = false) (hr : reachable t (t.regFld 0xA60080 0 9) = false) :
    channelGo v t = linkEvent 3 (t.setReg 0xA6008B (pack [(1, 5)])) := by
  rw [channelGo, if_neg (ne_true_of_eq_false hidle), if_pos (by rw [hr]; rfl)]

theorem mailGo_sent (hidle : t.regBit 0xA6007A 0 = false) (hone : t.regBit 0xA60078 12 = false)
    (hr : reachable t (t.regFld 0xA60078 0 9) = true) : mailGo v t = request .mail { stitchFrom t 7 (t.regFld 0xA60078 0 9) with
      len := 8, addr := BitVec.ofNat 24 (t.regFld 0xA60078 9 3), seq := byte (v.toNat % 256)
      payload := t.regList 0xA60070 8 } (t.setReg 0xA6007A 0x0001#16) := by
  have hlow : fld v 0 8 = v.toNat % 256 := fld_eq_mod v 8
  rw [mailGo, if_neg (ne_true_of_eq_false hidle), if_neg (ne_true_of_eq_false hone), if_neg (by rw [hr]; decide), hlow]

theorem portCommand_restarts {p : Nat} (hv : v.getLsbD 0 = true) (hno : t.regBit (pstat p) 2 = true) :
    portCommand p v t = (t.setRegBit (pstat p) 2 false).setLport p { trainFrom := t.now } := by
  have hv : bit v 0 = true := hv
  rw [portCommand, hv, hno] <;> rfl

end

/-! Flash commands (R470). -/

theorem exec_flash {r : Requester} {s t : State} (h : Arrives r .mem s t) (v : Word) {mk : Requester → Word → Instr}
    (hmk : mk ∈ [(fun r v => .flashProgram r v : Requester → Word → Instr), .flashErase, .flashEraseBank, .flashEraseGen]) :
    exec (mk r v) s = .next (flashCmd (asRequester t r) v t) := by
  simp only [List.mem_cons, List.not_mem_nil, or_false] at hmk
  obtain rfl | rfl | rfl | rfl := hmk <;> exact write_arrives h 0xA90005 v rfl

/-- A flash command with its key while none runs: what its checks say. -/
theorem flashCmd_checked {q : Requester} {v : Word} {t : State} (hkey : v.toNat / 256 = 0xF1) (hidle : t.flashOp = none)
    (h1 : 1 ≤ v.toNat % 8) (h4 : v.toNat % 8 ≤ 4) : flashCmd q v t =
    match flashCheck q (v.toNat % 8) t with
    | 8 => (t.raiseIsl .mem 1 none).setReg 0xA90006 (pack [(1, 8)])
    | 0 =>
      let n := if v.toNat % 8 = 1 then t.regFld 0xA90004 0 10 else 0
      let s1 := { t with flashOp := some { op := v.toNat % 8, addr := flAddr t, n := n, data := t.memList (flSrc t) n } }
      (if inProgram (flAddr t) then setVerified (flAddr t / 0x400000) false s1 else s1).setReg 0xA90006 0x0001#16
    | k => t.setReg 0xA90006 (pack [(1, k)]) := by
  have hop : fld v 0 3 = v.toNat % 8 := fld_eq_mod v 3
  rw [flashCmd, fld_key, hkey, hidle, hop]
  refine if_neg ?_
  simp only [ne_eq, not_true_eq_false, Option.isSome_none, Bool.false_eq_true, false_or, not_or]
  omega

/-- A command whose checks pass holds its operation and the words of its source; memory is as it was. -/
theorem flashCmd_starts {q : Requester} {v : Word} {t : State} {n : Nat} (hkey : v.toNat / 256 = 0xF1) (hidle : t.flashOp = none)
    (h1 : 1 ≤ v.toNat % 8) (h4 : v.toNat % 8 ≤ 4) (hn : (if v.toNat % 8 = 1 then t.regFld 0xA90004 0 10 else 0) = n)
    (hc : flashCheck q (v.toNat % 8) t = 0) :
    (flashCmd q v t).flashOp = some { op := v.toNat % 8, addr := flAddr t, n := n, data := t.memList (flSrc t) n } ∧
      (flashCmd q v t).reg 0xA90006 = 0x0001#16 ∧ (flashCmd q v t).mem = t.mem := by
  subst hn
  rw [flashCmd_checked hkey hidle h1 h4, hc]
  refine ⟨?_, (State.reg_setReg _ _ _ _).trans (if_pos rfl), ?_⟩ <;>
    cases inProgram (flAddr t) <;> rfl

theorem flashCmd_refused {q : Requester} {v : Word} {t : State} (hkey : v.toNat / 256 = 0xF1) (hidle : t.flashOp = none)
    (h1 : 1 ≤ v.toNat % 8) (h4 : v.toNat % 8 ≤ 4) (hc : flashCheck q (v.toNat % 8) t ≠ 0) : flashCmd q v t =
    (if flashCheck q (v.toNat % 8) t = 8 then t.raiseIsl .mem 1 none else t).setReg 0xA90006
      (pack [(1, flashCheck q (v.toNat % 8) t)]) := by
  rw [flashCmd_checked hkey hidle h1 h4]
  generalize flashCheck q (v.toNat % 8) t = code at hc
  split
  · rw [if_pos rfl]
  · exact absurd rfl hc
  · next h8 _ => rw [if_neg h8]

/-- Settles O46. -/
theorem linkAndFlashCommands : Obligations.LinkAndFlashCommands := by
  intro r p v s t
  refine ⟨fun h => ⟨fun hidle hr => ?_, fun hidle hr => ?_, fun hidle hone hr => ?_, fun hv hno => ?_⟩,
    fun h hkey hidle h1 h4 => ?_⟩
  · rw [exec_ccGo h, channelGo_sent hidle hr]
  · rw [exec_ccGo h, channelGo_unreachable hidle hr]
  · rw [exec_mbxTxgo h, mailGo_sent hidle hone hr]
  · rw [exec_portRestart h, portCommand_restarts hv hno]
  · intro op n mk hmk
    refine ⟨fun hc => ⟨_, exec_flash h v hmk, flashCmd_starts hkey hidle h1 h4 rfl hc⟩, fun hc => ?_⟩
    rw [exec_flash h v hmk, flashCmd_refused hkey hidle h1 h4 hc]

end Sys2Proof.Machine

/-! Parking, the RTC, supply measurements and the sensor supplies (O50; R119, R121 to R123, R52, R53). -/

namespace Sys2Proof.Machine

section
variable (s : State)

theorem execWklWake_latches (l : Fin 2) {us : Nat} (hrun : s.running .aon = true) (hclear : s.regBit 0xA30808 (2 + l) = false)
    (hus : 50 ≤ us) : execWklWake l us s = .next (latchCause (1 + l) 0 s) := by
  rw [execWklWake, hrun, hclear, decide_eq_true hus] <;> rfl

theorem execParkVbatLow_latches (hmode : s.mode = .park ∨ s.mode = .deepPark) (hband : s.band ≠ .off) :
    execParkVbatLow s = .next (latchCause 9 0 { s with band := .undervoltage, parkLow := true }) := by
  unfold execParkVbatLow
  obtain h | h := hmode <;> rw [h] <;> exact congrArg _ (if_neg hband)

theorem execParkVbatReturn_latches (hmode : s.mode = .park ∨ s.mode = .deepPark) (hlow : s.parkLow = true) :
    execParkVbatReturn s = .next (latchCause 8 0 { s with band := .reduced, parkLow := false }) := by
  unfold execParkVbatReturn
  obtain h | h := hmode <;> simp only [h, hlow, parkRise, if_true]

/-- The RTC inside a second. -/
theorem execRtcTick_fraction (hrun : s.running .aon = true) (hlt : s.rtcFrac + 1 < 32768) :
    execRtcTick s = .next { s with rtcFrac := s.rtcFrac + 1 } := by
  rw [execRtcTick, if_pos hrun, if_pos hlt]

/-- The end of a second: the alarm's cause is latched at the second the alarm names. -/
theorem execRtcTick_second (hrun : s.running .aon = true) (hfull : 32768 ≤ s.rtcFrac + 1) :
    let u := pollDay { s with rtcFrac := 0, rtcSec := (s.rtcSec + 1) % 2 ^ 32 }
    execRtcTick s = .next (if (s.rtcSec + 1) % 2 ^ 32 ≠ s.rtcSec ∧
      (s.rtcSec + 1) % 2 ^ 32 = hiLo (s.reg 0xA70114) (s.reg 0xA70113) then latchCause 0 0 u else u) := by
  rw [execRtcTick, if_pos hrun, if_neg (Nat.not_lt.mpr hfull), rtcSeconds, pollDay_rtcSec] <;> rfl

/-- Five words written in a row read back. -/
theorem regList_setRegList_five (a : Nat) (v0 v1 v2 v3 v4 : Word) :
    (s.setRegList a [v0, v1, v2, v3, v4]).regList a 5 = [v0, v1, v2, v3, v4] := by
  simp [State.regList, State.setRegList, State.reg_setReg, List.range_succ, Nat.add_assoc]

theorem execSupplyMeasureUpdate_stands (va vb vc vd vbus : Word) (hmode : s.mode = .run) (hrun : s.running .aon = true) :
    ∃ t, execSupplyMeasureUpdate va vb vc vd vbus s = .next t ∧ t.regList 0xA70106 5 = [va, vb, vc, vd, vbus] :=
  ⟨_, by rw [execSupplyMeasureUpdate, if_pos ⟨hmode, hrun⟩], regList_setRegList_five s _ _ _ _ _ _⟩

theorem execVsenRestart_ends {n : Fin 4} {since : Nat} (h : s.vsen.get (fun _ => .normal) n.val = .restarting since)
    (hnow : since + 10000 ≤ s.now) :
    execVsenRestart n s = .next { s with vsen := s.vsen.set (fun _ => .normal) n.val .normal } := by
  unfold execVsenRestart
  rw [h]
  exact congrArg _ (if_neg (Nat.not_lt.mpr hnow))

end

/-- Settles O50. -/
theorem parkingAndSensorEvents : Obligations.ParkingAndSensorEvents := by
  intro s l n us at_ va vb vc vd vbus vs put
  refine ⟨execWklWake_latches s l, fun hmode => ⟨execParkVbatLow_latches s hmode, execParkVbatReturn_latches s hmode⟩,
    fun hrun => ⟨execRtcTick_fraction s hrun, fun hfull => ⟨fun hne heq => ?_, fun hne => ?_⟩⟩,
    execSupplyMeasureUpdate_stands s va vb vc vd vbus, rfl, fun h => congrArg _ (if_pos h), fun h => congrArg _ (if_pos h),
    fun h => congrArg _ (if_pos h), execVsenRestart_ends s⟩
  · exact (execRtcTick_second s hrun hfull).trans (congrArg _ (if_pos ⟨hne, heq⟩))
  · exact (execRtcTick_second s hrun hfull).trans (congrArg _ (if_neg fun h => hne h.2))

end Sys2Proof.Machine

/-! Clock loss, island release, gates and MEM service (O48; R8, R45, R42 to R44, R112). -/

namespace Sys2Proof.Machine

/-! A step repeated for each element of a list. -/

/-- What the step for an element brings about, and every other step keeps, holds of each element at the end. -/
theorem foldl_forall {α β : Type} {P : α → β → Prop} {f : α → β → α} (hmake : ∀ t k, P (f t k) k)
    (hkeep : ∀ t k m, P t m → P (f t k) m) (l : List β) (t : α) : ∀ m ∈ l, P (l.foldl f t) m := by
  induction l generalizing t with
  | nil => exact fun _ h => absurd h List.not_mem_nil
  | cons k l ih =>
    intro m hm
    obtain rfl | hm := List.mem_cons.mp hm
    · exact List.foldlRecOn l f (hmake t m) fun u hu j _ => hkeep u j m hu
    · exact ih (f t k) m hm

/-- What no step changes is as it was. -/
theorem foldl_same {α β γ : Type} {g : α → γ} {f : α → β → α} (h : ∀ t k, g (f t k) = g t) (l : List β) (t : α) :
    g (l.foldl f t) = g t :=
  List.foldlRecOn l f (motive := fun u => g u = g t) rfl fun u hu k _ => (h u k).trans hu

/-! The gates of an island. -/

section
variable (s : State)

theorem gate_setGate_dst (d k m : Nat) (g : Gate) : (s.setGate k d g).gate m d = if m = k then g else s.gate m d := by
  rw [State.gate, State.setGate, Sparse.get_set]
  split
  · next h => rw [if_pos (by omega)]
  · next h => rw [if_neg (by omega)] <;> rfl

/-- A gate that holds no transfer. -/
def Gate.Empty (g : Gate) : Prop := g.q = [] ∧ g.src = []

theorem discardGates_empty (i : Island) {k : Nat} (hk : k < 12) : ((discardGates i s).gate k i.num).Empty := by
  refine foldl_forall (P := fun t k => (State.gate t k i.num).Empty) (fun t k => ?_) (fun t k m hm => ?_) _ s k
    (List.mem_range.mpr hk)
  · dsimp only
    split
    · next h => exact ⟨List.eq_nil_of_length_eq_zero (by omega), List.eq_nil_of_length_eq_zero (by omega)⟩
    · change ((t.setGate k i.num _).gate k i.num).Empty
      rw [State.gate_setGate_same]
      exact ⟨rfl, rfl⟩
  · dsimp only
    split
    · exact hm
    · change ((t.setGate k i.num _).gate m i.num).Empty
      rw [gate_setGate_dst]
      split
      · exact ⟨rfl, rfl⟩
      · exact hm

theorem discardGates_isl (i : Island) : (discardGates i s).isl = s.isl :=
  foldl_same (g := State.isl) (fun t k => by dsimp only; split <;> rfl) _ s

theorem maskRange_isl (i : Island) : (maskRange i s).isl = s.isl :=
  foldl_same (g := State.isl) (fun t k => by dsimp only; split <;> rfl) _ s

theorem liftFences_fenced (i : Island) {k : Nat} (hk : k < 12) : ((liftFences i s).gate k i.num).fenced = false := by
  refine foldl_forall (P := fun t k => (State.gate t k i.num).fenced = false) (fun t k => ?_) (fun t k m hm => ?_) _ s k
    (List.mem_range.mpr hk)
  · rw [State.gate_setGate_same]
  · rw [gate_setGate_dst]
    split
    · rfl
    · exact hm

theorem liftFences_isl (i : Island) : (liftFences i s).isl = s.isl := by
  unfold liftFences
  refine foldl_same (g := State.isl) (fun t k => ?_) _ s
  rfl

/-! Clock loss (R8). -/

/-- An island whose monitored clock is lost: out of RUN, its fault records cleared, its gates emptied. -/
def clockLost (i : Island) (s : State) : State :=
  discardGates i (maskRange i (s.setIsland i { s.island i with
    loss := true, lock := false, ready := false, chk := false, cnt := 0
    st := if (s.island i).st = .inReset then .inReset else .clockLost }))

theorem execClockLoss_resets {i : Island} (hst : (s.island i).st ≠ .clockLost) (hm : monitored s i = true) :
    execClockLoss i s = .next (if i = .aon ∨ i = .sup ∨ i = .mem then resetSource 10 0 0 (clockLost i s)
      else resetSource 9 i.num 0 (clockLost i s)) := by
  rw [execClockLoss, hm]
  exact if_neg (by simp [hst])

theorem clockLost_island (i : Island) : (clockLost i s).island i = { s.island i with
    loss := true, lock := false, ready := false, chk := false, cnt := 0
    st := if (s.island i).st = .inReset then .inReset else .clockLost } := by
  rw [State.island, clockLost, discardGates_isl, maskRange_isl]
  exact State.island_setIsland_same s i _

theorem clockLost_not_running (i : Island) : (clockLost i s).running i = false := by
  rw [State.running, clockLost_island]
  dsimp only
  split <;> rfl

/-! Release of an island (R112). -/

/-- What an island does when it is let go: retirement records, the key slots, the option load. -/
def releaseWork (i : Island) (s : State) : State :=
  match i with
  | .sw => restoreRetired .sw s
  | .act => restoreRetired .act s
  | .lux => restoreRetired .lux s
  | .fld => restoreRetired .fld s
  | .sec => releaseSec s
  | .sup => { s with bring := { s.bring with loading := true, loaded := false, retry := false } }
  | _ => s

/-- An output island's calibration bit (R109). -/
def showCalib (i : Island) (s : State) : State :=
  match i with
  | .sw => s.setRegBit 0xA80005 5 (s.calib.get (fun _ => false) 0)
  | .act => s.setRegBit 0xA80005 6 (s.calib.get (fun _ => false) 1)
  | .lux => s.setRegBit 0xA80005 7 (s.calib.get (fun _ => false) 2)
  | .fld => s.setRegBit 0xA80005 8 (s.calib.get (fun _ => false) 5)
  | _ => s

/-- An island put into RUN at the time given, its gates open. -/
def putInRun (now : Nat) (i : Island) (s : State) : State :=
  showCalib i (liftFences i (s.setIsland i
    { s.island i with st := .run, lock := true, ready := true, loss := false, chk := false, cnt := 64, runAt := now }))

theorem showCalib_isl (i : Island) : (showCalib i s).isl = s.isl := by cases i <;> rfl

theorem showCalib_gate (i : Island) (k d : Nat) : (showCalib i s).gate k d = s.gate k d := by cases i <;> rfl

theorem putInRun_running (now : Nat) (i : Island) : (putInRun now i s).running i = true := by
  rw [State.running, State.island, putInRun, showCalib_isl, liftFences_isl]
  refine decide_eq_true ((congrArg Isl.st (State.island_setIsland_same s i _)).trans ?_)
  rfl

theorem putInRun_fenced (now : Nat) (i : Island) {k : Nat} (hk : k < 12) : ((putInRun now i s).gate k i.num).fenced = false := by
  rw [putInRun, showCalib_gate]
  exact liftFences_fenced _ i hk

theorem execIslandRelease_other {i : Island} (h : releasable i s = true) (ha : i ≠ .cpa) (hb : i ≠ .cpb) :
    execIslandRelease i s = .next (marCheckEnd (proceed (onRun i (putInRun s.now i (releaseWork i s))))) := by
  unfold execIslandRelease
  rw [if_neg (by rw [h]; decide)]
  cases i
  case cpa => exact absurd rfl ha
  case cpb => exact absurd rfl hb
  all_goals rfl

theorem execIslandRelease_cores {i : Island} (h : releasable i s = true) (hi : i = .cpa ∨ i = .cpb) :
    execIslandRelease i s = .next (if (putInRun s.now i (releaseWork i s)).bring.taken
      then execIslandRelease.recheckCores i (putInRun s.now i (releaseWork i s)) else proceed (putInRun s.now i (releaseWork i s))) := by
  unfold execIslandRelease
  rw [if_neg (by rw [h]; decide)]
  obtain rfl | rfl := hi <;> rfl

/-! A handshake that times out (R10). -/

theorem execHandshakeTimeout_fences {i j : Island} (hij : i ≠ j) (hrun : s.running j = true)
    (hf : (s.gate i.num j.num).fenced = false) :
    let u := s.setGate i.num j.num { q := [], src := [], fenced := true }
    let n := (s.gate i.num j.num).q.length + (s.gate i.num j.num).src.length - 1
    execHandshakeTimeout i j s = .next (((if n = 0 then u else (u.setReg (icb j + 4)
      (w16 (clampN 0 0xFFFF (s.regN (icb j + 4) + n)))).setRegBit (icb j + 3) 0 true).setRegBit (icb j + 3) 1 true).raiseIsl
        j 0 none) := by
  rw [execHandshakeTimeout, hf, hrun]
  exact if_neg (by simp [hij])

end

/-! MEM serves the request of the highest rank (R43). -/

theorem leastBy_spec {f : MemReq → Nat} {l : List MemReq} {q : MemReq} (h : leastBy f l = some q) :
    q ∈ l ∧ ∀ p ∈ l, f q ≤ f p := by
  induction l generalizing q with
  | nil => cases h
  | cons p l ih =>
    rw [leastBy] at h
    split at h
    · next hnone =>
      cases h
      have hl : l = [] := by
        cases l with
        | nil => rfl
        | cons b l =>
          rw [leastBy] at hnone
          split at hnone
          · cases hnone
          · split at hnone <;> cases hnone
      subst hl
      exact ⟨List.mem_cons_self, fun b hb => Nat.le_of_eq (congrArg f (List.mem_singleton.mp hb).symm)⟩
    · next b hb =>
      obtain ⟨hmem, hle⟩ := ih hb
      split at h <;> cases h
      · next hlt => exact ⟨List.mem_cons_of_mem _ hmem, List.forall_mem_cons.mpr ⟨Nat.le_of_lt hlt, hle⟩⟩
      · next hge => exact ⟨List.mem_cons_self, List.forall_mem_cons.mpr ⟨Nat.le_refl _, fun p hp => by have := hle p hp; omega⟩⟩

theorem mem_memq_of_memNext {s : State} {q : MemReq} (h : memNext s = some q) : q ∈ s.memq := by
  obtain ⟨i, -, hi⟩ := List.mem_filterMap.mp (leastBy_spec h).1
  exact (List.mem_filter.mp (leastBy_spec hi).1).1

/-- The wait of a request recorded, and raised when it took more than 48 cycles (R44). -/
def waited (q : MemReq) (wait : Nat) (s : State) : State :=
  let t := s.setReg (icb q.isl + 5) (w16 (Nat.min 0xFFFF (Nat.max wait (s.regN (icb q.isl + 5)))))
  if 48 < wait then t.raise 4 none else t

theorem memServe_next {s : State} {q : MemReq} (h : memNext s = some q) :
    memServe s = waited q (s.memTick - q.issued) (putOf q.put (dequeued q s)) := by
  rw [memServe, h] <;> rfl

theorem waited_keeps {γ : Type} {g : State → γ} (hreg : ∀ t a v, g (State.setReg t a v) = g t)
    (hsrc : ∀ t n r, g (State.setSrc t n r) = g t) (q : MemReq) (wait : Nat) (s : State) : g (waited q wait s) = g s := by
  have hraise (t : State) : g (t.raise 4 none) = g t := by
    unfold State.raise
    split
    · dsimp only
      split
      · exact hsrc _ _ _
      · exact hreg _ _ _
    · rfl
  unfold waited
  dsimp only
  split
  · rw [hraise, hreg]
  · rw [hreg]

/-- A stored word reads back, its copy in a paired core's memory or not. -/
theorem memWord_storeWord_same (s : State) (a : Nat) (v : Word) : (s.storeWord a v).memWord a = v := by
  cases h : s.twinAddr a with
  | none => rw [memWord_storeWord_alone h, if_pos rfl]
  | some b =>
    have hb : b ≠ a := by
      rintro rfl
      simp only [State.twinAddr, Option.ite_none_right_eq_some, Option.some.injEq] at h
      obtain ⟨-, h⟩ := h
      split at h <;> omega
    rw [State.storeWord, h]
    change (s.putWord a v).memWord a = v
    simp only [State.putWord, h]
    rw [memWord_putOne, if_neg hb.symm, memWord_putOne, if_pos rfl]

theorem putWord_memq (s : State) (a : Nat) (v : Word) : (s.putWord a v).memq = s.memq := by
  have hone (t : State) (b : Nat) : (t.putOne b v).memq = t.memq := rfl
  unfold State.putWord
  split
  · rw [hone, hone]
  · rw [hone]

theorem storeWord_memq (s : State) (a : Nat) (v : Word) : (s.storeWord a v).memq = s.memq := by
  have hresv (t : State) (b : Nat) : (t.clearResv b).memq = t.memq := rfl
  unfold State.storeWord
  split
  · rw [hresv, hresv, putWord_memq]
  · rw [hresv, putWord_memq]

theorem putOf_memq (put : Option (Nat × Word)) (s : State) : (putOf put s).memq = s.memq := by
  cases put with
  | none => rfl
  | some p => exact storeWord_memq s p.1 p.2

theorem memServe_spec {s : State} {q : MemReq} (h : memNext s = some q) : (memServe s).memq = s.memq.erase q ∧
    ∀ a v, q.put = some (a, v) → (memServe s).memWord a = v := by
  rw [memServe_next h]
  refine ⟨?_, fun a v hput => ?_⟩
  · rw [waited_keeps (g := State.memq) (fun _ _ _ => rfl) (fun _ _ _ => rfl), putOf_memq] <;> rfl
  · rw [waited_keeps (g := fun t => State.memWord t a) (fun _ _ _ => rfl) (fun _ _ _ => rfl), hput]
    exact memWord_storeWord_same _ a v

/-- Settles O48. -/
theorem clockGateAndMemoryEvents : Obligations.ClockGateAndMemoryEvents := by
  intro s i j
  refine ⟨fun hst hm => ⟨_, execClockLoss_resets s hst hm, clockLost_not_running s i, ?_, fun k hk => discardGates_empty _ i hk⟩,
    fun h => ⟨_, putInRun_running _ _ i, fun k hk => putInRun_fenced _ _ i hk, execIslandRelease_other s h, fun hi => ?_⟩,
    fun hij hrun hf => ?_, fun hrun => congrArg _ (if_pos hrun),
    fun q h => ⟨(leastBy_spec h).2, mem_memq_of_memNext h, memServe_spec h⟩⟩
  · rw [clockLost_island]
  · constructor <;> intro ht <;> refine (execIslandRelease_cores s h hi).trans ?_ <;> rw [ht] <;> rfl
  · intro u n
    have hexec := execHandshakeTimeout_fences s hij hrun hf
    refine ⟨fun hn => hexec.trans ?_, fun hn => hexec.trans ?_⟩
    · rw [if_pos (Nat.sub_eq_zero_of_le hn)]
    · rw [if_neg (Nat.sub_ne_zero_of_lt hn)]

end Sys2Proof.Machine

/-! Supply, straps and the test access port (O47; R49 to R57, R69, R75 to R79). -/

namespace Sys2Proof.Machine

/-! What outlives the supply: fuses and flash. -/

/-- The fuses are as they were. -/
def FusesKept (s t : State) : Prop := t.otp = s.otp ∧ t.otpDone = s.otpDone ∧ t.otpBusy = s.otpBusy

namespace FusesKept

theorem refl (s : State) : FusesKept s s := ⟨rfl, rfl, rfl⟩

theorem trans {s t u : State} : FusesKept s t → FusesKept t u → FusesKept s u :=
  fun ⟨ha, hb, hc⟩ ⟨ha', hb', hc'⟩ => ⟨ha'.trans ha, hb'.trans hb, hc'.trans hc⟩

theorem leaveUndefined (a n : Nat) (s : State) : FusesKept s (leaveUndefined a n s) := by
  unfold Machine.leaveUndefined
  split <;> exact ⟨rfl, rfl, rfl⟩

theorem clearMem (s : State) (a n : Nat) : FusesKept s (s.clearMem a n) := ⟨rfl, rfl, rfl⟩

theorem used (s : State) : FusesKept s s.used := ⟨rfl, rfl, rfl⟩

theorem abandonOp (o : FlashOp) (s : State) : FusesKept s (abandonOp o s) := by
  unfold Machine.abandonOp
  dsimp only
  split
  · split <;> exact leaveUndefined _ _ s
  · split <;> exact leaveUndefined _ _ s
  · exact (used s).trans ((clearMem _ _ _).trans (leaveUndefined _ _ _))
  · have hpages (l : List Nat) (base : Nat) : FusesKept s (l.foldl (fun t j =>
        if abandonOp.keptPage j then t else t.clearMem (base + 64 * j) 64) s.used) :=
      List.foldlRecOn l _ (used s) fun t ht j _ => by
        split
        · exact ht
        · exact ht.trans (clearMem _ _ _)
    split
    · exact hpages _ _
    · exact (hpages _ _).trans (leaveUndefined _ _ _)

theorem abandonFlash (s : State) : FusesKept s (abandonFlash s) := by
  unfold Machine.abandonFlash
  extract_lets s1 base s2
  have hop : FusesKept s s1 := by
    unfold s1
    split
    · next o _ => exact (abandonOp o s).trans ⟨rfl, rfl, rfl⟩
    · exact refl s
  have hprep : FusesKept s1 s2 := (leaveUndefined _ _ _).trans ((leaveUndefined _ _ _).trans (leaveUndefined _ _ _))
  clear_value s2 s1
  split
  · exact hop.trans (hprep.trans ⟨rfl, rfl, rfl⟩)
  · exact hop

end FusesKept

section
variable (s : State)

/-- Power lost while no fuse word is being programmed: the fuses stay. -/
theorem unpowered_otp (h : s.otpBusy = none) : (unpowered s).otp = s.otp ∧ (unpowered s).otpDone = s.otpDone := by
  obtain ⟨hotp, hdone, hbusy⟩ := FusesKept.abandonFlash s
  have hno : abandonOtp (abandonFlash s) = abandonFlash s := by rw [abandonOtp, hbusy, h]
  change (abandonOtp (abandonFlash s)).otp = _ ∧ (abandonOtp (abandonFlash s)).otpDone = _
  rw [hno]
  exact ⟨hotp, hdone⟩

theorem byteAt_flashOnly {b : Nat} (h : isFlash (b / 2) = true) :
    Sparse.get Memory.unlisted (flashOnly s.mem) b = s.byteAt b := by
  have hdrop : flashOnly s.mem = Sparse.drop s.mem fun k => !isFlash (k / 2) := by simp [flashOnly, Sparse.drop]
  rw [hdrop, Sparse.get_drop, h] <;> rfl

theorem abandonFlash_idle (hop : s.flashOp = none) (hp : s.upd.preparing = false) : abandonFlash s = s := by
  rw [abandonFlash, hop]
  exact if_neg (ne_true_of_eq_false hp)

/-- Flash that is not being changed outlives the supply. -/
theorem memWord_unpowered (hop : s.flashOp = none) (hp : s.upd.preparing = false) {a : Nat} (ha : isFlash a = true) :
    (unpowered s).memWord a = s.memWord a := by
  have hmem : (abandonOtp s).mem = s.mem ∧ (abandonOtp s).undef = s.undef := by
    unfold abandonOtp
    split <;> exact ⟨rfl, rfl⟩
  have hbyte (b : Nat) (hb : b / 2 = a) : (unpowered s).byteAt b = s.byteAt b := by
    change Sparse.get Memory.unlisted (flashOnly (abandonOtp (abandonFlash s)).mem) b = _
    rw [abandonFlash_idle s hop hp, hmem.1, byteAt_flashOnly s (hb ▸ ha)]
  have hundef : (unpowered s).undefAt a = s.undefAt a := by
    change Option.map _ (List.find? _ (abandonOtp (abandonFlash s)).undef) = _
    rw [abandonFlash_idle s hop hp, hmem.2] <;> rfl
  rw [State.memWord, State.memWord, hundef, hbyte _ (by omega), hbyte _ (by omega)]

theorem memWord_setBand (b : Band) (a : Nat) : ({ s with band := b } : State).memWord a = s.memWord a := rfl

/-- What follows the supply's return: ticks start from the present time. -/
theorem execPowerOn_powered : ∃ t, execPowerOn s = .next t ∧ t.bring.ref = s.now ∧ t.stageBase = s.now ∧
    t.regs = State.reset.regs ∧ t.chans = State.reset.chans ∧ t.cores = State.reset.cores ∧
    (∀ i, t.island i = State.reset.island i) ∧ t.otp = (unpowered s).otp ∧ t.otpDone = (unpowered s).otpDone :=
  ⟨_, rfl, rfl, rfl, rfl, rfl, rfl, fun _ => rfl, rfl, rfl⟩

/-! Bands and brown-out. -/

theorem execVcoreBrownout_run (h : ¬(s.mode = .park ∨ s.mode = .deepPark)) :
    execVcoreBrownout s = .next (resetSource 1 0 0 s) := by
  unfold execVcoreBrownout
  split
  · next hm => exact absurd (.inl hm) h
  · next hm => exact absurd (.inr hm) h
  · rfl

theorem execVcoreBrownout_parked (h : s.mode = .park ∨ s.mode = .deepPark) : execVcoreBrownout s = .next s := by
  unfold execVcoreBrownout
  obtain h | h := h <;> rw [h]

theorem execBandChange_off (h : s.band ≠ .off) : execBandChange .off s = .next { unpowered s with band := .off } :=
  if_neg h

theorem execBandChange_undervoltage_run (h : s.band ≠ .off) (hm : ¬(s.mode = .park ∨ s.mode = .deepPark)) :
    execBandChange .undervoltage s = .next (fieldDown (bandChanged s.band .undervoltage
      (resetSource 2 0 0 (({ s with band := .undervoltage }).level 18 false)))) := by
  refine (if_neg h).trans ?_
  dsimp only
  split
  · next hp => exact absurd (.inl hp) hm
  · next hp => exact absurd (.inr hp) hm
  · rfl

theorem execBandChange_undervoltage_parked (h : s.band ≠ .off) (hm : s.mode = .park ∨ s.mode = .deepPark) :
    execBandChange .undervoltage s = .next (latchCause 9 0 { enterBand .undervoltage s with parkLow := true }) := by
  refine (if_neg h).trans ?_
  dsimp only
  split
  · rfl
  · rfl
  · next hp hd => exact absurd hm (not_or.mpr ⟨hp, hd⟩)

theorem execBandChange_hold (h : s.band ≠ .off) : execBandChange .hold s = .next (enterBand .hold s) :=
  if_neg h

/-- A band other than off, undervoltage and hold. -/
theorem execBandChange_other {b : Band} (h : s.band ≠ .off) (ho : b ≠ .off) (hu : b ≠ .undervoltage) (hh : b ≠ .hold) :
    execBandChange b s = match s.mode with
      | .park | .deepPark => .next (parkRise (enterBand b s))
      | _ => .next (enterBand b s) := by
  unfold execBandChange
  rw [if_neg h]
  split
  · exact absurd rfl ho
  · exact absurd rfl hu
  · exact absurd rfl hh
  · rfl

theorem execBandChange_other_run {b : Band} (h : s.band ≠ .off) (ho : b ≠ .off) (hu : b ≠ .undervoltage) (hh : b ≠ .hold)
    (hm : ¬(s.mode = .park ∨ s.mode = .deepPark)) : execBandChange b s = .next (enterBand b s) := by
  rw [execBandChange_other s h ho hu hh]
  split
  · next hp => exact absurd (.inl hp) hm
  · next hp => exact absurd (.inr hp) hm
  · rfl

theorem execBandChange_other_parked {b : Band} (h : s.band ≠ .off) (ho : b ≠ .off) (hu : b ≠ .undervoltage) (hh : b ≠ .hold)
    (hm : s.mode = .park ∨ s.mode = .deepPark) : execBandChange b s = .next (parkRise (enterBand b s)) := by
  rw [execBandChange_other s h ho hu hh]
  obtain hm | hm := hm <;> rw [hm]

/-- A band entered from another than undervoltage. -/
theorem enterBand_powered {b : Band} (h : s.band ≠ .undervoltage) :
    enterBand b s = bandChanged s.band b (({ s with band := b }).level 18 (decide (b = Band.over))) := by
  rw [enterBand, if_neg h]

/-! Straps and the test access port. -/

theorem execStrapSample_second {v : BitVec 9} (hs : s.straps = none) (hb : s.band ≠ .off) (hl : s.strapLast = some v) :
    execStrapSample v s = .next { s with straps := some v } := by
  rw [execStrapSample, if_neg (by simp [hs, hb]), if_pos hl]

theorem execStrapSample_first {v : BitVec 9} (hs : s.straps = none) (hb : s.band ≠ .off) (hl : s.strapLast ≠ some v) :
    execStrapSample v s = .next { s with strapLast := some v } := by
  rw [execStrapSample, if_neg (by simp [hs, hb]), if_neg hl]

theorem loadTap_free (t : Tap) (h : tapHeld s = false) : loadTap t s = ({ s with tap := t, bypassReg := false }).level 3
    (decide (t = Tap.extest) || decide (t = Tap.clamp) || decide (t = Tap.highz)) :=
  if_neg (ne_true_of_eq_false h)

theorem execSamplePreload_free (ls : List Bool) (h : tapHeld s = false) : execSamplePreload ls s =
    .next { ({ s with tap := .sample, bypassReg := false }).level 3 false with boundary := ls } := by
  rw [execSamplePreload, if_neg (ne_true_of_eq_false h), loadTap_free s .sample h] <;> rfl

theorem execBypass_free {code : Byte} (h : tapHeld s = false) (hc : code.toNat ∉ [0x00, 0x01, 0x03, 0x04]) :
    execBypass code s = .next (({ s with tap := .bypass, bypassReg := false }).level 3 false) := by
  rw [execBypass, if_neg hc, loadTap_free s .bypass h] <;> rfl

end

/-- Settles O47. -/
theorem supplyAndTestAccessEvents : Obligations.SupplyAndTestAccessEvents := by
  intro s b sec present v ls code parked
  have hotp := unpowered_otp s
  refine ⟨?_, ⟨_, rfl, rfl, fun _ => rfl, hotp, fun hop hp a ha => ?_⟩, ⟨_, rfl, rfl, rfl, fun _ => rfl, hotp⟩,
    execVcoreBrownout_run s, execVcoreBrownout_parked s,
    fun h => ⟨execBandChange_off s h, execBandChange_undervoltage_run s h, execBandChange_undervoltage_parked s h,
      execBandChange_hold s h, fun ho hu hh => ⟨execBandChange_other_run s h ho hu hh, execBandChange_other_parked s h ho hu hh⟩⟩,
    enterBand_powered s, rfl, rfl,
    fun hs hb => ⟨execStrapSample_second s hs hb, execStrapSample_first s hs hb⟩,
    fun h => ⟨congrArg _ (loadTap_free s .extest h), congrArg _ (loadTap_free s .clamp h), congrArg _ (loadTap_free s .highz h),
      execSamplePreload_free s ls h, execBypass_free s h⟩⟩
  · obtain ⟨t, hexec, href, hbase, hregs, hchans, hcores, hisl, hto, htd⟩ := execPowerOn_powered s
    exact ⟨t, hexec, href, hbase, hregs, hchans, hcores, hisl, fun h => hto ▸ htd ▸ hotp h⟩
  · exact (memWord_setBand (unpowered s) .off a).trans (memWord_unpowered s hop hp (by simp [isFlash, ha]))

end Sys2Proof.Machine

/-! Resets and bring-up (O49; R98 to R118). -/

namespace Sys2Proof.Machine

/-! What the journal's records leave as it was. -/

/-- A part of the state that no register, source, memory word or request of MEM belongs to. -/
structure OffMem {γ : Type} (g : State → γ) : Prop where
  reg : ∀ s a v, g (State.setReg s a v) = g s
  src : ∀ s n r, g (State.setSrc s n r) = g s
  isl : ∀ s i r, g (State.setIsland s i r) = g s
  word : ∀ s a v, g (State.putOne s a v) = g s
  resv : ∀ s a, g (State.clearResv s a) = g s
  clear : ∀ s a n, g (State.clearMem s a n) = g s
  queue : ∀ (s : State) q l k, g { s with memq := q, memLast := l, memTick := k } = g s

/-- One that no update record belongs to either. -/
structure Aside {γ : Type} (g : State → γ) : Prop extends OffMem g where
  upd : ∀ (s : State) u v, g { s with upd := u, updAon := v } = g s

namespace OffMem

variable {γ : Type} {g : State → γ} (h : OffMem g)
include h

theorem storeWord (s : State) (a : Nat) (v : Word) : g (s.storeWord a v) = g s := by
  unfold State.storeWord State.putWord
  cases s.twinAddr a with
  | none => exact (h.resv _ _).trans (h.word _ _ _)
  | some b => exact (h.resv _ _).trans ((h.resv _ _).trans ((h.word _ _ _).trans (h.word _ _ _)))

theorem storeList (s : State) (a : Nat) (l : List Word) : g (s.storeList a l) = g s := by
  induction l generalizing s a with
  | nil => rfl
  | cons v l ih => exact (ih _ _).trans (h.storeWord s a v)

theorem memServe (s : State) : g (memServe s) = g s := by
  cases hq : memNext s with
  | none => rw [Machine.memServe, hq]
  | some q =>
    rw [memServe_next hq, waited_keeps h.reg h.src]
    have hput (t : State) : g (putOf q.put t) = g t := by
      unfold putOf
      split
      · exact h.storeWord _ _ _
      · rfl
    rw [hput, dequeued, h.isl]
    exact h.queue s _ _ _

theorem memCycle (s : State) : g (memCycle s) = g s := (h.memServe _).trans (h.queue s _ _ _)

theorem serveOwn (i : Island) (k : Nat) (s : State) : g (serveOwn i k s) = g s :=
  foldl_same (fun t _ => by
    split
    · exact h.memCycle t
    · rfl) _ s

theorem issueMem (i : Island) (k : Nat) (put : Option (Nat × Word)) (s : State) : g (issueMem i k put s) = g s :=
  (h.queue _ _ _ _).trans (h.serveOwn i k s)

theorem memAccess (i : Island) (k : Nat) (s : State) : g (memAccess i k s) = g s := by
  unfold Machine.memAccess
  split
  · exact (h.serveOwn _ _ _).trans (h.issueMem _ _ _ s)
  · rfl

theorem memBurst (i : Island) (k n : Nat) (s : State) : g (memBurst i k n s) = g s :=
  foldl_same (fun t _ => h.memAccess i k t) _ s

theorem compactTo (j : Nat) (u : UpdRec) (s : State) (k seq : Nat) : g (programJournal.compactTo j u s k seq) = g s :=
  (h.storeList _ _ _).trans (h.clear s _ _)

theorem programJournal (j : Nat) (r : List Word) (u : UpdRec) (s : State) : g (programJournal j r u s) = g s := by
  unfold Machine.programJournal
  split
  · split
    · exact h.storeList s _ _
    · exact h.compactTo j u s _ _
  · exact h.compactTo j u s _ _

theorem updEvent (k : Nat) (s : State) : g (updEvent k s) = g s := by
  have hroute (t : State) (w : Word) : g (t.route w) = g t := by
    unfold State.route
    split
    · rfl
    · exact h.reg t _ _
  unfold Machine.updEvent
  dsimp only
  split
  · exact (hroute _ _).trans (h.reg s _ _)
  · exact h.reg s _ _

end OffMem

namespace Aside

theorem bring : Aside State.bring where
  reg _ _ _ := rfl
  src _ _ _ := rfl
  isl _ _ _ := rfl
  word _ _ _ := rfl
  resv _ _ := rfl
  clear _ _ _ := rfl
  queue _ _ _ _ := rfl
  upd _ _ _ := rfl

variable {γ : Type} {g : State → γ} (h : Aside g)
include h

theorem journalPut (type bank gen mref : Nat) (s : State) : g (journalPut type bank gen mref s) = g s := by
  unfold Machine.journalPut
  extract_lets r u s1 b s2 s3
  have h2 : g s2 = g s := (h.upd s1 _ s1.updAon).trans
    ((h.programJournal _ _ _ _).trans ((h.programJournal _ _ _ _).trans (h.memBurst _ _ _ s)))
  have h3 : g s3 = g s := by
    unfold s3
    split
    · exact (h.updEvent _ _).trans h2
    · exact h2
  split
  · exact (h.updEvent _ _).trans h3
  · exact h3

theorem setActiveBank (b : Nat) (s : State) : g (setActiveBank b s) = g s := by
  unfold Machine.setActiveBank
  split
  · exact (h.upd _ _ _).trans (h.journalPut _ _ _ _ s)
  · exact h.journalPut _ _ _ _ s

end Aside

/-! The option load's status word (Table 4.8). -/

/-- OTP_LOAD as the load leaves it: DONE, COUNT, BLOCK, FIXES. -/
theorem toNat_loadStatus {a n w f : Nat} (ha : a ≤ 1) (hn : n ≤ 3) (hw : w < 16) (hf : f ≤ 255) :
    (pack [(0, a), (1, n), (4, w), (8, f)]).toNat = a + 2 * n + 16 * w + 256 * f := by
  simp only [pack, List.foldl, w16, BitVec.toNat_ofNat, Nat.shiftLeft_eq]
  omega

/-- DONE of a good load. -/
theorem bit_loadDone (w f : Nat) : bit (pack [(0, 1), (4, w), (8, f)]) 0 = true := by
  have hodd : (1 + w * 16 + f * 256) % 2 = 1 := by omega
  simp [pack, bit, w16, BitVec.getLsbD_ofNat, Nat.shiftLeft_eq, hodd]

theorem satInc_three (k : Nat) : satInc 3 k = if k < 3 then k + 1 else 3 := rfl

theorem satInc_three_le (k : Nat) : satInc 3 k ≤ 3 := by
  rw [satInc_three]
  split <;> omega

section
variable (s : State)

theorem regFld_le_one (a : Nat) : s.regFld a 0 1 ≤ 1 := Nat.le_of_lt_succ (fld_lt _ _ 1)

theorem clampN_byte (f : Nat) : clampN 0 0xFF f ≤ 255 := by
  unfold clampN
  split
  · omega
  · split <;> omega

/-- A load that fails at word `w`: its block and the failures so far. -/
theorem execOptionLoadComplete_bad (w : Fin 1024) (fixes : Nat) (hl : s.bring.loading = true) (hh : s.bring.halted = false)
    (hr : s.running .sup = true) : ∃ t, execOptionLoadComplete (some w) fixes s = .next t ∧ t.bring.loading = false ∧
      t.bring.loaded = s.bring.loaded ∧ t.resetNLow = s.resetNLow ∧
      t.reg 0xA80004 = pack [(0, s.regFld 0xA80004 0 1), (1, satInc 3 (s.regFld 0xA80004 1 2)), (4, w.val / 64),
        (8, clampN 0 0xFF fixes)] ∧
      (if satInc 3 (s.regFld 0xA80004 1 2) = 3 then t.bring.halted = true else t.bring.retry = true ∧ t.bring.failAt = s.now) ∧
      t.shadow = (s.otp.filter fun e => decide (e.1 < w.val) && !(decide (0x100 ≤ e.1) && decide (e.1 < 0x140))) ++
        s.shadow.filter fun e => decide (w.val ≤ e.1) := by
  have hsat := satInc_three_le (s.regFld 0xA80004 1 2)
  rw [execOptionLoadComplete, if_neg (by simp [hl, hh, hr])]
  dsimp only
  split
  · next h3 => exact ⟨_, rfl, rfl, rfl, rfl, (State.reg_setReg s 0xA80004 0xA80004 _).trans (if_pos rfl), Eq.mpr (if_pos (by omega)) rfl, rfl⟩
  · next h3 =>
    refine ⟨_, rfl, rfl, rfl, rfl, (State.reg_setReg s 0xA80004 0xA80004 _).trans (if_pos rfl),
      Eq.mpr (if_neg fun h => h3 (Nat.le_of_eq h.symm)) ?_, ?_⟩
    · exact ⟨rfl, rfl⟩
    · dsimp only [State.setReg_shadow]

theorem execOptionLoadComplete_good (fixes : Nat) (hl : s.bring.loading = true) (hh : s.bring.halted = false)
    (hr : s.running .sup = true) : ∃ t, execOptionLoadComplete none fixes s = .next t ∧ t.bring.loaded = true ∧
      t.bring.loading = false ∧ t.resetNLow = false ∧ t.resetNFree = s.now ∧ t.otp = s.otp ∧
      t.reg 0xA80004 = pack [(0, 1), (4, s.regFld 0xA80004 4 4), (8, clampN 0 0xFF fixes)] ∧
      t.shadow = s.otp.filter fun e => decide (e.1 < 1024) && !(decide (0x100 ≤ e.1) && decide (e.1 < 0x140)) := by
  rw [execOptionLoadComplete, if_neg (by simp [hl, hh, hr])]
  exact ⟨_, rfl, rfl, rfl, rfl, rfl, rfl, (State.reg_setReg s 0xA80004 0xA80004 _).trans (if_pos rfl), rfl⟩

/-! A verified payload. -/

theorem imagePassed_bring : (imagePassed s).bring.imgOk = true ∧ (imagePassed s).bring.verifying = false ∧
    (imagePassed s).regBit 0xA80005 0 = true := by
  refine ⟨rfl, rfl, ?_⟩
  unfold imagePassed
  exact State.regBit_setRegBit_same _ _ (by decide) _

theorem imagePassed_taken : (imagePassed s).bring.taken = s.bring.taken := by
  have hbank : (if s.bring.second then (setActiveBank (bankInCheck s) s).setRegBit 0xA80005 2 true else s).bring = s.bring := by
    split
    · exact Aside.bring.setActiveBank _ s
    · rfl
  have htaken := congrArg Bring.taken hbank
  exact htaken

theorem execPayloadVerificationComplete_good (hv : s.bring.verifying = true) (hr : s.running .sec = true)
    (ht : s.bring.taken = false) (hok : payloadOk s (bankInCheck s) = true) : execPayloadVerificationComplete s =
      .next (proceed (imagePassed (setVerified (bankInCheck s) true { s with bring := { s.bring with verifying := false } }))) := by
  rw [execPayloadVerificationComplete, if_neg (by simp [hv, hr])]
  dsimp only
  rw [if_pos hok, if_neg]
  rw [imagePassed_taken]
  exact ne_true_of_eq_false ht

/-! Zero fill. -/

/-- Memory cleared in a range reads 0 there, if no flash word lies in it, and as before elsewhere. -/
theorem memWord_clearMem (a n b : Nat) : (s.clearMem a n).memWord b =
    if a ≤ b ∧ b < a + n then (if isFlash b then 0xFFFF#16 else 0) else s.memWord b := by
  have hundef : (s.clearMem a n).undefAt b = if a ≤ b ∧ b < a + n then none else s.undefAt b := runAt_cutRuns a n s.undef b
  have hbyte (k : Nat) : (s.clearMem a n).byteAt k = if 2 * a ≤ k ∧ k < 2 * (a + n) then Memory.unlisted k else s.byteAt k := by
    refine (Sparse.get_drop s.mem (fun k => decide (2 * a ≤ k) && decide (k < 2 * (a + n))) k).trans ?_
    simp only [Bool.and_eq_true, decide_eq_true_eq]
    rfl
  rw [State.memWord, State.memWord, hundef, hbyte, hbyte]
  by_cases h : a ≤ b ∧ b < a + n
  · rw [if_pos h, if_pos h, if_pos (by omega), if_pos (by omega), Memory.unlisted, Memory.unlisted,
      show 2 * b / 2 = b by omega, show (2 * b + 1) / 2 = b by omega]
    cases isFlash b <;> rfl
  · rw [if_neg h, if_neg h, if_neg (by omega), if_neg (by omega)]

/-- Zero fill clears the SRAM but what is retained, and the local memories. -/
theorem execZeroFillComplete_clears (hf : s.bring.filling = true) (hr : s.running .mem = true) :
    ∃ t, execZeroFillComplete s = .next (proceed t) ∧ t.bring.filling = false ∧ t.memWord =
      ((s.clearMem 0x800000 (if s.bring.retain then 0x7F000 else 0x80000)).clearMem 0x880000 0x40000).memWord := by
  rw [execZeroFillComplete, if_neg (by simp [hf, hr])]
  exact ⟨_, rfl, rfl, rfl⟩

/-! The Marionette table. -/

/-- The table read is refused, or holds at most 48 entries and runs. -/
theorem execMarionetteTableRead_reads (hsup : s.running .sup = true) (hmem : s.running .mem = true)
    (ht : s.bring.taken = false) (hrun : s.regBit 0xA80005 9 = false) (hend : s.regBit 0xA80005 10 = false)
    (hb : settingsBusy s (activeGen s) = false) : ∃ t, execMarionetteTableRead s = .next t ∧
      (t.regBit 0xA80008 6 = true ∨ t.regBit 0xA80005 9 = true ∧ t.mar = [] ∧ t.marTable.length ≤ 48) := by
  rw [execMarionetteTableRead, if_neg (by simp [hsup, hmem, ht, hrun, hend, hb])]
  extract_lets base hdr n words t u es es' bad s1
  split
  · exact ⟨_, rfl, .inl (State.regBit_setRegBit_same _ _ (by decide) _)⟩
  · next h =>
    refine ⟨_, rfl, .inr ⟨State.regBit_setRegBit_same s1 0xA80005 (by decide) true, rfl, ?_⟩⟩
    have hn : n ≤ 48 := by
      simp only [not_or, Nat.not_lt] at h
      exact h.2.2.1
    have hes : es.length = n := by rw [List.length_map, List.length_range]
    exact Nat.le_trans (Nat.le_trans (List.takeWhile_sublist _).length_le (Nat.le_of_eq hes)) hn

/-- A blinking entry toggles its group. -/
theorem execMarionetteToggle_blink {n : Fin 48} (ha : (s.marAt n).active = true)
    (h2 : fld ((s.marTable.getD n []).getD 2 0) 0 4 = 2) : execMarionetteToggle n s =
      .next (marDrive (((marGroup s n).filter fun k => (s.marAt k).active &&
        decide (fld ((s.marTable.getD k []).getD 2 0) 0 4 = 2)).foldl (fun t k => marFlip (!(s.marAt n).on) k t) s)) := by
  rw [execMarionetteToggle, if_neg (not_or.mpr ⟨by simp [ha], fun h => h.1 h2⟩),
    if_neg fun h => absurd (h2.symm.trans h) (by decide)]

/-- A flash ends. -/
theorem execMarionetteToggle_flash {n : Fin 48} (ha : (s.marAt n).active = true)
    (h3 : fld ((s.marTable.getD n []).getD 2 0) 0 4 = 3) (hon : (s.marAt n).on = true) :
    execMarionetteToggle n s = .next (marDrive (marFlip false n s)) := by
  rw [execMarionetteToggle, if_neg (not_or.mpr ⟨by simp [ha], fun h => h.2 h3⟩), if_pos h3, if_neg (by simp [hon]), hon] <;> rfl

end

/-- Settles O49. -/
theorem resetAndBringUpEvents : Obligations.ResetAndBringUpEvents := by
  intro s c i w fixes n src
  refine ⟨fun hl hf hb => ?_, rfl, fun h => ?_, fun h => ?_, fun h => ⟨?_, ?_⟩, fun h => ⟨?_, ?_⟩,
    fun hl hh hr => ⟨?_, ?_⟩, fun hr hh ht => ?_, fun hv hr ht hok => ⟨execPayloadVerificationComplete_good s hv hr ht hok,
      imagePassed_bring⟩, fun hf hr => ?_, fun ht hr => ?_, fun h => ?_, execMarionetteTableRead_reads s,
    fun ha => ⟨execMarionetteToggle_blink s ha, execMarionetteToggle_flash s ha⟩⟩
  · exact if_neg (by simp [hl, hb, Nat.not_lt.mpr hf])
  · change execHoldExpiry s = _
    rw [execHoldExpiry, if_pos h]
  · exact congrArg Host.Outcome.next (if_pos h)
  · exact if_neg (by simp [h])
  · exact if_neg (by simp [h])
  · exact congrArg Host.Outcome.next (if_pos h)
  · exact if_pos h
  · obtain ⟨t, hexec, hloaded, hloading, hlow, hfree, hotp, hstat, hshadow⟩ := execOptionLoadComplete_good s fixes hl hh hr
    refine ⟨t, hexec, hloaded, hloading, hlow, hfree, hotp, ?_, hshadow⟩
    rw [State.regBit, hstat]
    exact bit_loadDone _ _
  · obtain ⟨t, hexec, hloading, hloaded, hlow, hstat, hfail, hshadow⟩ := execOptionLoadComplete_bad s w fixes hl hh hr
    have hone := regFld_le_one s 0xA80004
    have hthree := satInc_three_le (s.regFld 0xA80004 1 2)
    have hbits := toNat_loadStatus hone hthree (show w.val / 64 < 16 by omega) (clampN_byte fixes)
    rw [← hstat] at hbits
    have hcount : t.regFld 0xA80004 1 2 = satInc 3 (s.regFld 0xA80004 1 2) := by
      rw [State.regFld, fld_eq_div_mod]
      omega
    refine ⟨t, hexec, hloading, hloaded, hlow, ?_, hcount, ?_, hshadow⟩
    · rw [State.regFld, fld_eq_div_mod]
      omega
    · rw [hcount]
      exact hfail
  · exact congrArg Host.Outcome.next (if_pos ⟨hr, by simp [hh], ht⟩)
  · obtain ⟨t, hexec, hfill, hmem⟩ := execZeroFillComplete_clears s hf hr
    refine ⟨t, hexec, hfill, fun a ha ha' => ?_, fun a ha ha' => ?_⟩
    · have hlt : a < 0x880000 := by
        split at ha' <;> omega
      have hno : isFlash a = false := by simp [isFlash]; omega
      rw [hmem, memWord_clearMem, if_neg (by omega), memWord_clearMem, if_pos ⟨ha, ha'⟩, hno] <;> rfl
    · have hno : isFlash a = false := by simp [isFlash]; omega
      rw [hmem, memWord_clearMem, if_pos ⟨ha, by omega⟩, hno] <;> rfl
  · exact if_neg (by simp [ht, hr])
  · exact if_pos h

end Sys2Proof.Machine

/-! Lockstep, timers and watchdogs of the cores (O51; R149 to R160). -/

namespace Sys2Proof.Machine

section
variable (s : State)

theorem pairRuns_paired {c : Nat} (h : pairRuns s c = true) : s.paired c = true := by
  simp only [pairRuns, Bool.and_eq_true] at h
  exact h.1.1.1.1

/-- A checkpoint asked for in a pair is due. -/
theorem checkpointDue_asked {c : Nat} (h : s.paired c = true) :
    checkpointDue (s.modCore c fun k => { k with ckDue := true }) c = true := by
  have hp : (s.modCore c fun k => { k with ckDue := true }).paired c = true := ((SameMap.modCore s c _).paired c).trans h
  rw [checkpointDue, hp, State.core_modCore_same]
  simp

theorem settle_due {c : Nat} (hd : checkpointDue s c = true) (hb : atBoundary (s.core c) = true) :
    settle c s = takeCheckpoint c s := by
  rw [settle, hd, hb] <;> rfl

theorem settle_inside {c : Nat} (hb : atBoundary (s.core c) = false) : settle c s = s := by
  rw [settle, hb, Bool.and_false] <;> rfl

/-- The condition of the pair events: the pair runs, with no rollback and no takeover in progress. -/
theorem pairFree {c : Nat} (hp : pairRuns s c = true) (hr : (s.core c).rolling = false) (ht : (s.core c).taking = none) :
    (pairRuns s c && !(s.core c).rolling && (s.core c).taking.isNone) = true := by
  rw [hp, hr, ht] <;> rfl

theorem execCheckpoint_free {c : CoreId} (hp : pairRuns s c = true) (hr : (s.core c).rolling = false)
    (ht : (s.core c).taking = none) : execCheckpoint c s = .next (settle c (s.modCore c fun k => { k with ckDue := true })) :=
  congrArg Host.Outcome.next (if_pos (pairFree s hp hr ht))

theorem execLockstepMismatch_free {c : CoreId} (hp : pairRuns s c = true) (hr : (s.core c).rolling = false)
    (ht : (s.core c).taking = none) : execLockstepMismatch c s = .next (countMismatch c s) :=
  congrArg Host.Outcome.next (if_pos (pairFree s hp hr ht))

theorem finishRecord_ckBusy {c : Nat} (h : (s.core c).ckBusy = true) : ((finishRecord c s).core c).ckBusy = false := by
  rw [finishRecord, if_neg (by simp [h])]
  dsimp only
  rw [State.core_modCore_same]

/-- A finished record: the pair goes on, with the exception that waited for it if there is one. -/
theorem execCheckpointWriteDone_busy {c : CoreId} (h : (s.core c).ckBusy = true) :
    let u := finishRecord c s
    execCheckpointWriteDone c s = .next (if pairRuns u c && !(u.core c).rolling && (u.core c).taking.isNone then
      (if (u.core c).excLine.isSome then excEntry c u else settle c u) else u) :=
  if_neg (by simp [h])

theorem execRollbackComplete_rolling {c : CoreId} (x : Replay) (hp : pairRuns s c = true) (hr : (s.core c).rolling = true) :
    execRollbackComplete c x s = .next (replayEnds c x s) :=
  congrArg Host.Outcome.next (if_pos (by rw [hp, hr] <;> rfl))

/-- The logical pair `q` at the spare `p`, whose standby ends (R157). -/
def atSpare (q p : Nat) (s : State) : State :=
  ((s.setRegFld 0xA8FD04 (2 * q) 2 p).setRegBit 0xA8FD04 8 true).setPhys p { s.physPair p with standby := false }

theorem atSpare_mapPair {q p : Nat} (hq : q < 4) (hp : p < 4) : (atSpare q p s).mapPair q = p := by
  have hreg : (atSpare q p s).reg 0xA8FD04 = putBit ((s.setRegFld 0xA8FD04 (2 * q) 2 p).reg 0xA8FD04) 8 true :=
    State.reg_setRegBit_same _ _ _ _
  rw [State.mapPair, State.regFld, hreg, fld_putBit_other (by decide) (by omega)]
  refine (State.regFld_setRegFld_same s 0xA8FD04 (by omega) p).trans ?_
  exact Nat.mod_eq_of_lt (by omega)

theorem atSpare_standby (q p : Nat) : ((atSpare q p s).physPair p).standby = false := by
  rw [State.physPair, atSpare, State.setPhys, Sparse.get_set, if_pos rfl]

theorem mapPair_modCore (c : Nat) (f : Core → Core) (q : Nat) : (s.modCore c f).mapPair q = s.mapPair q := rfl

theorem physPair_modCore (c : Nat) (f : Core → Core) (p : Nat) : (s.modCore c f).physPair p = s.physPair p := rfl

/-- A takeover that ends: the pair runs at its spare and replays (R157). -/
theorem execTakeoverComplete_taking {c : CoreId} (x : Replay) {p : Nat} (h : (s.core c).taking = some p) :
    ∃ u, execTakeoverComplete c x s = .next (replayEnds c x ((atSpare (c.val / 2) p u).modCore c fun k =>
      { k with st := .running, taking := none, rolling := true })) := by
  refine ⟨copyLocal (s.mapPair (c.val / 2)) p (finishRecord c s), ?_⟩
  rw [execTakeoverComplete, h] <;> rfl

/-! Timers and watchdogs. -/

theorem execTimerExpiry_set {c : CoreId} {n : Fin 2}
    (h : (if n = 0 then (s.core (s.lead c)).tmr0 else (s.core (s.lead c)).tmr1).isSome = true) :
    let b := coreBlock (s.lead c)
    execTimerExpiry c n s = .next (setTimer (s.lead c) n (if s.regBit (b + 0x1C) n ∧ s.regN (b + 0x1D + n) ≠ 0 then
      some (s.now + s.regN (b + 0x1D + n)) else none) (s.raiseLine (s.lead c) (6 + n))) :=
  if_neg (by rw [Option.isNone_iff_eq_none]; exact Option.isSome_iff_ne_none.mp h)

end

/-- Settles O51. -/
theorem lockstepTimerAndWatchdogEvents : Obligations.LockstepTimerAndWatchdogEvents := by
  intro s c n x
  refine ⟨fun hp hr ht => ?_, fun hb => ?_, fun hp hr => ⟨?_, ?_, ?_⟩, fun p hlt ht => ?_, rfl, fun h => ?_, fun h => ⟨?_, ?_⟩⟩
  · intro u
    refine ⟨fun hb => ⟨checkpointDue_asked s (pairRuns_paired s hp), ?_⟩, fun hb => ?_, execLockstepMismatch_free s hp hr ht⟩
    · exact (execCheckpoint_free s hp hr ht).trans
        (congrArg _ (settle_due _ (checkpointDue_asked s (pairRuns_paired s hp)) hb))
    · exact (execCheckpoint_free s hp hr ht).trans (congrArg _ (settle_inside _ hb))
  · intro u
    have hexec := execCheckpointWriteDone_busy s hb
    refine ⟨finishRecord_ckBusy s hb, fun hp hr ht hl => hexec.trans ?_, fun hp hr ht hl => hexec.trans ?_,
      fun h => hexec.trans ?_⟩
    · exact congrArg _ ((if_pos (pairFree u hp hr ht)).trans (if_neg (by rw [hl]; decide)))
    · exact congrArg _ ((if_pos (pairFree u hp hr ht)).trans (if_pos hl))
    · refine congrArg _ (if_neg ?_)
      obtain h | h | h := h
      · simp [u, h]
      · simp [u, h]
      · simp [u, Option.isNone_iff_eq_none, Option.isSome_iff_ne_none.mp h]
  · exact execRollbackComplete_rolling s .agreed hp hr
  · exact execRollbackComplete_rolling s .mismatch hp hr
  · exact execRollbackComplete_rolling s .differs hp hr
  · obtain ⟨u, hexec⟩ := execTakeoverComplete_taking s x ht
    refine ⟨_, hexec, ?_, ?_, ?_, ?_, ?_⟩
    · rw [State.core_modCore_same]
    · rw [State.core_modCore_same]
    · rw [State.core_modCore_same]
    · rw [mapPair_modCore, atSpare_mapPair u (by omega) hlt]
    · rw [physPair_modCore, atSpare_standby]
  · intro b u
    have hexec := execTimerExpiry_set s h
    refine ⟨fun hoff => hexec.trans ?_, fun hauto hne => hexec.trans ?_⟩
    · rw [if_neg]
      rintro ⟨hauto, hne⟩
      exact hoff.elim (ne_true_of_eq_false · hauto) hne
    · rw [if_pos ⟨hauto, hne⟩]
  · exact fun hw => congrArg Host.Outcome.next (if_pos (by rw [h, hw] <;> rfl))
  · exact congrArg Host.Outcome.next (if_pos h)

end Sys2Proof.Machine

/-! Channels: periods, pauses, trips, thermal latch, wire model, governor, diagnosis (O52; spec 07 and 08). -/

namespace Sys2Proof.Machine

/-! A channel of Table 7.1. -/

theorem chan_setChan_same (s : State) (ch : ChanRef) (c : Chan) : (s.setChan ch c).chan ch = c := by
  rw [State.chan, State.setChan, Sparse.get_set, if_pos rfl]

theorem chan_setChan_other (s : State) {ch d : ChanRef} (h : d.key ≠ ch.key) (c : Chan) : (s.setChan ch c).chan d = s.chan d := by
  rw [State.chan, State.setChan, Sparse.get_set, if_neg h] <;> rfl

theorem chan_modChan_same (s : State) (ch : ChanRef) (f : Chan → Chan) : (s.modChan ch f).chan ch = f (s.chan ch) :=
  chan_setChan_same s ch _

theorem chan_modChan_other (s : State) {ch d : ChanRef} (h : d.key ≠ ch.key) (f : Chan → Chan) :
    (s.modChan ch f).chan d = s.chan d :=
  chan_setChan_other s h _

theorem port_ne (ch : ChanRef) {w x : Nat} (h : w ≠ x) : ch.port w ≠ ch.port x := by
  unfold ChanRef.port
  omega

theorem evidence_reg (ch : ChanRef) (b : Bool) (s : State) (a : Nat) : (evidence ch b s).reg a = s.reg a := by
  unfold evidence
  dsimp only
  split <;> rfl

section
variable (s : State) {ch : ChanRef} (hok : ch.ok = true)
include hok

/-- A guard on the channel passes at a channel the part has. -/
theorem not_unknown : ¬(!ch.ok) = true := by
  rw [hok]
  decide

/-! Period boundaries. -/

theorem execPeriodBoundary_applies {l : List Word} {v : Word} {r : Requester} (hp : (s.chan ch).pend = some (l, v, r))
    (hlux : ch.isl ≠ .lux) (hc : (s.chan ch).carries = none) (hb : isBoundary s ch = true) :
    execPeriodBoundary ch s = .next (tryStart ch ((applyCommit ch l v r (s.modChan ch fun x => { x with pend := none })).modChan
      ch fun x => { x with atEdge := x.atEdge && decide (s.band = .over) })) := by
  rw [execPeriodBoundary, if_neg (not_unknown hok)]
  dsimp only
  rw [if_neg hlux, periodBoundary, if_neg (by simp [hb]), hc]
  dsimp only
  rw [applyPending, hp]
  simp only [decide_eq_false hlux, Bool.or_false]

theorem execPeriodBoundary_between (hlux : ch.isl ≠ .lux) (hb : isBoundary s ch = false) :
    execPeriodBoundary ch s = .next s := by
  rw [execPeriodBoundary, if_neg (not_unknown hok)]
  dsimp only
  rw [if_neg hlux, periodBoundary, if_pos (by simp [hb])]

theorem execPeriodBoundary_lux (hlux : ch.isl = .lux) :
    execPeriodBoundary ch s = .next (luxBoundary ch.idx (periodBoundary ch s)) := by
  rw [execPeriodBoundary, if_neg (not_unknown hok)]
  exact congrArg Host.Outcome.next (if_pos hlux)

/-! Pauses, forgiveness. -/

theorem execRetryPauseEnd_tries (hr : (s.chan ch).pauseRun.isSome = true) (hl : pauseLeft s (s.chan ch) = some 0)
    (h0 : (s.chan ch).reason = 0) :
    let u := s.setChan ch { (s.chan ch).resetEvidence with pause := none, pauseRun := none }
    (ch.isl = .act → execRetryPauseEnd ch s = .next (tryBank (ch.idx / 4) u)) ∧
      (ch.isl ≠ .act → execRetryPauseEnd ch s = .next (tryStart ch u)) := by
  rw [execRetryPauseEnd, if_neg (not_unknown hok)]
  dsimp only
  rw [if_pos ⟨hr, hl, h0⟩]
  refine ⟨fun hact => by rw [hact], fun hact => ?_⟩
  split
  · exact absurd ‹_› hact
  · rfl

theorem execForgiveExpiry_forgives (h7 : wd (s.chan ch).pf 7 ≠ 0) (hc : (s.chan ch).count ≠ 0) (h0 : (s.chan ch).reason = 0)
    (hq : 100000 * (wd (s.chan ch).pf 7).toNat ≤ quietTime s (s.chan ch)) : execForgiveExpiry ch s =
      .next (restartQuiet ch (s.setChan ch { s.chan ch with count := (s.chan ch).count - 1 })) := by
  rw [execForgiveExpiry, if_neg (not_unknown hok)]
  exact if_pos ⟨h7, hc, h0, hq⟩

/-! Trips and windows. -/

theorem execShortComparatorTrip_trips {side : Side} {n : Nat} (hsw : ch.isl = .sw) (hon : sideOn s ch side = true)
    (hn : (swClass ch.idx).short ≤ n) :
    execShortComparatorTrip ch side n s = .next (countedTrip ch (match side with | .high => 3 | .low => 4) s) := by
  unfold execShortComparatorTrip
  rw [if_neg (not_unknown hok), hsw]
  dsimp only
  rw [if_pos (by rw [hon, decide_eq_true hn] <;> rfl)] <;> cases side <;> rfl

/-- A switch over its limit: it regulates in its window, or trips after the filter time. -/
theorem execLimitTrip_over {n us term : Nat} (hsw : ch.isl = .sw) (hon : (s.chan ch).on = true)
    (hn : swLimit (s.chan ch) ch.idx < n) : execLimitTrip ch n us term s =
      match limitFilter (fld (wd (s.chan ch).pf 0) 0 3) (s.chan ch).win.isSome with
      | none => .next (s.setChan ch { s.chan ch with regul := true })
      | some f => if f ≤ us then .next (countedTrip ch (limitCode s ch term) s) else .next s := by
  rw [execLimitTrip, if_neg (not_unknown hok)]
  dsimp only
  rw [if_neg (by simp [hon]), hsw]
  exact if_neg (Nat.not_le.mpr hn)

theorem execInrushWindowEnd_fld {term : Nat} (hw : (s.chan ch).win.isSome = true) (he : (s.chan ch).winEnd ≤ s.now)
    (hf : ch.isl = .fld) : execInrushWindowEnd ch term s = .next (s.setChan ch { s.chan ch with win := none, regul := false }) := by
  rw [execInrushWindowEnd, if_neg (not_unknown hok)]
  dsimp only
  rw [if_neg (by simp [Option.isSome_iff_ne_none.mp hw, Nat.not_lt.mpr he]), hf]

theorem execInrushWindowEnd_sw {term : Nat} (hw : (s.chan ch).win.isSome = true) (he : (s.chan ch).winEnd ≤ s.now)
    (hsw : ch.isl = .sw) (hf : fld (wd (s.chan ch).pf 0) 0 3 ≠ 5) : execInrushWindowEnd ch term s =
      .next (clusterRetries (swCluster ch.idx) (s.setChan ch { s.chan ch with win := none, regul := false, tlstart := 0 })) := by
  rw [execInrushWindowEnd, if_neg (not_unknown hok)]
  dsimp only
  rw [if_neg (by simp [Option.isSome_iff_ne_none.mp hw, Nat.not_lt.mpr he]), hsw]
  dsimp only
  rw [if_neg fun h => hf h.1]

/-! The thermal latch. -/

theorem execThermalLatchSet_over {x y : Therm} (hl : (s.chan ch).latch = false) (ho : thermalOver s ch x y = true) :
    execThermalLatchSet (.chan ch) x y s = .next (latchSet ch y s) := by
  rw [execThermalLatchSet, if_neg (not_unknown hok), if_neg (by simp [hl, ho])]

theorem execThermalLatchClear_cool {x y : Therm} (hl : (s.chan ch).latch = true) (hc : thermalCool s ch x y = true) :
    execThermalLatchClear (.chan ch) x y s = .next (tryStart ch (refreshQuiet ch (refreshPause ch
      ((putThermal ch y s).modChan ch fun c => { c with latch := false })))) := by
  rw [execThermalLatchClear, if_neg (not_unknown hok), if_neg (by simp [hl, hc])]

/-! The wire model (R217 to R219). -/

/-- The wire temperature a millisecond later, at the mean square current `n`. -/
def wireNext (s : State) (ch : ChanRef) (n : Nat) : Rat :=
  let c := s.chan ch
  let w := if s.regBit (OutIsl.sw.oib + 3) 0 ∨ c.mar.isSome ∨ c.prof ≠ [] then fld (wd c.pf 4) 0 3 else 0
  wireTemp s c + (1 / (((wireConst w).2 * 1000 : Nat) : Rat)) * ((wireAmb s : Rat) +
    50 * ((n : Rat) / 10000) / (((wireConst w).1 * (wireConst w).1 : Nat) : Rat) - wireTemp s c)

/-- What the wire model does with the new temperature. -/
theorem execWireModelUpdate_sw {n : Nat} (hsw : ch.isl = .sw) :
    let c := s.chan ch
    let t1 := wireNext s ch n
    let u := s.setChan ch { c with wireT := some t1 }
    execWireModelUpdate ch n s = if (wireLimit c : Rat) ≤ t1 ∧ !c.wirelock ∧ c.on then
        .next (swEvent 3 (some ch.idx) ((countedTrip ch 2 ((u.modChan ch fun x => { x with wirelock := true }).diag ch 8)).raise
          86 (some ch.idx)))
      else if c.wirelock ∧ t1 ≤ (wireLimit c : Rat) - 10 then
        .next (match c.carriedBy with
          | some p => tryStart ⟨.sw, p⟩ (tryStart ch (u.modChan ch fun x => { x with wirelock := false }))
          | none => tryStart ch (u.modChan ch fun x => { x with wirelock := false }))
      else .next u := by
  unfold execWireModelUpdate wireNext
  rw [if_neg (by simp [hok, hsw])] <;> rfl

/-! Stall and regulation of a half-bridge (R221, R223). -/

theorem execStallDetect_flags {n us : Nat} (hsw : ch.isl = .sw) (h64 : 64 ≤ ch.idx) (hon : (s.chan ch).on = true)
    (hw : (s.chan ch).win = none) (h14 : wd (s.chan ch).pf 14 ≠ 0) (hlink : bit (wd (s.chan ch).act 0x0A) 7 = false)
    (hst : (s.chan ch).stall = false) (hn : (wd (s.chan ch).pf 14).toNat ≤ n) (hus : fld (wd (s.chan ch).pf 15) 0 8 ≤ us)
    (hact : fld (wd (s.chan ch).pf 15) 8 2 = 0) :
    execStallDetect ch n us s = .next (swEvent 0 (some ch.idx) (s.setChan ch { s.chan ch with stall := true })) := by
  rw [execStallDetect, if_neg (by simp [hok, hsw, h64])]
  dsimp only
  rw [if_neg (by simp [hon, hw, show ¬wd (s.chan ch).pf 14 = 0#16 from h14, hlink, hst, hn, hus]), if_pos hact]

theorem execHbRegulationPeriod_moves {mean : Int} {d : Nat} (hsw : ch.isl = .sw) (h64 : 64 ≤ ch.idx)
    (hon : (s.chan ch).on = true) (hd : (s.chan ch).duty = some d) (hm : modeOf (s.chan ch).set = 3)
    (hb : isBoundary s ch = true) (hi : wd (s.chan ch).set 0x0E ≠ 0) : execHbRegulationPeriod ch mean s =
      .next (s.setChan ch { s.chan ch with duty := some (clampI 0 (dutyOf (s.chan ch).set) ((d : Int) +
        ((((wd (s.chan ch).set 0x0E).toNat : Int) - mean) * 1024).tdiv ((wd (s.chan ch).set 0x0E).toNat : Int))).toNat }) := by
  have hne : ((wd (s.chan ch).set 0x0E).toNat : Int) ≠ 0 := by
    intro h
    exact hi (BitVec.eq_of_toNat_eq (Int.natCast_eq_zero.mp h))
  rw [execHbRegulationPeriod, if_neg (by simp [hok, hsw, h64])]
  dsimp only
  rw [hd]
  dsimp only
  rw [if_neg (by simp [hm, hon, hb]), if_neg hne]

/-! Diagnosis points (R225 to R231). -/

/-- An off-state check of a switch. -/
theorem execOffStateCheck_sw {n : Nat} (hsw : ch.isl = .sw) (hoff : offChecks s ch = true) :
    let u := s.modChan ch fun x => { x with offAt := some s.now }
    execOffStateCheck ch n none s = if 450 ≤ n then .next (u.modChan ch fun x => { x with shbDue := some s.now })
      else .next (evidence ch (decide (n ≤ (wd (u.chan ch).pf 10).toNat)) u) := by
  rw [execOffStateCheck, if_neg (not_unknown hok), hsw]
  exact if_neg (by simp [hoff])

theorem execShortBatConfirm_high {n at_ : Nat} (hd : (s.chan ch).shbDue = some at_) (hat : at_ + 1000 ≤ s.now) (hn : 450 ≤ n) :
    execShortBatConfirm ch n none s = .next ((s.setChan ch { s.chan ch with
      shbDue := none, evid := satInc 127 (s.chan ch).evid, okRun := 0, openRun := none, outcome := some 4 }).diag ch 5) := by
  rw [execShortBatConfirm, if_neg (not_unknown hok)]
  dsimp only
  rw [hd]
  dsimp only
  rw [if_neg (Nat.not_lt.mpr hat), if_pos hn]

theorem execOpenConfirm_confirms {at_ : Nat} (ho : (s.chan ch).openRun = some at_) (hr : (s.chan ch).reason = 0)
    (hat : at_ + 1000 * (wd (s.chan ch).pf 11).toNat ≤ s.now) (hb : bit (wd (s.chan ch).pf 12) 2 = false) :
    execOpenConfirm ch s = .next ((s.setChan ch { s.chan ch with outcome := some 1 }).diag ch 6) := by
  rw [execOpenConfirm, if_neg (not_unknown hok)]
  dsimp only
  rw [ho]
  dsimp only
  rw [if_neg (by simp [hr, Nat.not_lt.mpr hat]), if_neg (ne_true_of_eq_false hb)]

/-! Measurements (R55, R224). -/

/-- The words a measurement of a switch leaves. -/
theorem execCurrentMeasurement_words (m : Measure) (hsw : ch.isl = .sw) : ∃ t, execCurrentMeasurement ch m s = .next t ∧
    t.reg (ch.port 0x13) = wordOfInt m.tj ∧ t.reg (ch.port 0x14) = wordOfInt (m.tj - m.tcase) ∧
      t.reg (ch.port 0x1D) = w16 m.pdiss ∧
      ((s.chan ch).on = true → m.kind = .onState → pwmSet ch (s.chan ch).set = false → 40 ≤ s.now - (s.chan ch).onAt →
        t.reg (ch.port 0x12) = wordOfInt (swReading ch.idx m.i)) := by
  have hfld : ch.isl ≠ .fld := by rw [hsw]; decide
  unfold execCurrentMeasurement
  rw [if_neg (not_unknown hok)]
  simp -zeta only [hsw]
  extract_lets s1 c s2 i age valid ets s3
  have h13 : s2.reg (ch.port 0x13) = wordOfInt m.tj := by
    unfold s2 s1 putThermal
    rw [State.reg_setReg_other _ (port_ne ch (by decide)), State.reg_setReg_other _ (port_ne ch (by decide)), State.reg_setReg,
      if_pos rfl]
  have h14 : s2.reg (ch.port 0x14) = wordOfInt (m.tj - m.tcase) := by
    unfold s2 s1 putThermal
    rw [State.reg_setReg_other _ (port_ne ch (by decide)), State.reg_setReg, if_pos rfl, if_neg hfld]
  have h1d : s2.reg (ch.port 0x1D) = w16 m.pdiss := by
    unfold s2
    rw [State.reg_setReg, if_pos rfl]
  have hother (a : Nat) (ha : a ≠ ch.port 0x12) : s3.reg a = s2.reg a := by
    unfold s3
    split
    · exact State.reg_setReg_other _ ha _
    · rfl
  have hvalue : (s.chan ch).on = true → m.kind = .onState → pwmSet ch (s.chan ch).set = false → 40 ≤ s.now - (s.chan ch).onAt →
      s3.reg (ch.port 0x12) = wordOfInt (swReading ch.idx m.i) := by
    intro hon hkind hpwm hage
    have hc : c = s.chan ch := rfl
    have hage : age = s.now - (s.chan ch).onAt := by
      change (if pwmSet ch (s.chan ch).set then _ else _) = _
      rw [if_neg (ne_true_of_eq_false hpwm)] <;> rfl
    have hvalid : valid = true := by
      unfold valid
      rw [hage, hc]
      simp [hon, hkind, hpwm]
      omega
    unfold s3
    rw [if_pos hvalid]
    exact (State.reg_setReg s2 _ _ _).trans (if_pos rfl)
  have hreg (a : Nat) : State.reg (if valid || ets then evidence ch (decide ((wd c.pf 9).toNat ≤ i.natAbs)) s3 else s3) a =
      s3.reg a := by
    split
    · exact evidence_reg ch _ s3 a
    · rfl
  refine ⟨_, rfl, ?_, ?_, ?_, fun hon hkind hpwm hage => ?_⟩
  · rw [hreg, hother _ (port_ne ch (by decide)), h13]
  · rw [hreg, hother _ (port_ne ch (by decide)), h14]
  · rw [hreg, hother _ (port_ne ch (by decide)), h1d]
  · rw [hreg, hvalue hon hkind hpwm hage]

end

/-! The governor and the section currents (R233 to R238). -/

/-- The governor's history of section power. -/
theorem govStep_sw (down : Bool) (ch : ChanRef) (s : State) : (govStep down ch s).sw = s.sw := by
  unfold govStep
  dsimp only
  repeat' split
  all_goals rfl

theorem swEvent_sw (k : Nat) (ch : Option Nat) (s : State) : (swEvent k ch s).sw = s.sw := by
  have hroute (t : State) (w : Word) : (t.route w).sw = t.sw := by
    unfold State.route
    split <;> rfl
  unfold swEvent
  extract_lets s1 s2
  have h2 : s2.sw = s.sw := by
    unfold s2 s1
    cases ch <;> rfl
  clear_value s2
  split
  · exact (hroute s2 _).trans h2
  · exact h2

theorem setRegList_sw (s : State) (a : Nat) (l : List Word) : (s.setRegList a l).sw = s.sw := by
  induction l generalizing s a with
  | nil => rfl
  | cons v l ih => rw [State.setRegList, ih] <;> rfl

theorem execGovernorEvaluation_history (g : GovInput) (s : State) (h : s.running .sw = true) :
    ∃ t, execGovernorEvaluation g s = .next (waitReports (admitWaiting 77 t)) ∧
      t.sw.pnow = ((g.pSw + (g.pAct + g.pLux) + 250) :: s.sw.pnow).take 100 := by
  rw [execGovernorEvaluation, if_neg (by simp [h])]
  extract_lets pext pnow hist psum tb lim ceil held lvl raiseIn sw0 s1 s2 s3 s4 s5 s6 e1 e2 s7
  refine ⟨s7, rfl, ?_⟩
  have hbase : s1.sw.pnow = hist := rfl
  clear_value s1
  have h2 : s2.sw = s1.sw := setRegList_sw _ _ _
  clear_value s2
  have h3 : s3.sw = s2.sw := by
    unfold s3
    refine foldl_same (g := State.sw) (fun t k => ?_) _ s2
    rfl
  clear_value s3
  have h4 : s4.sw = s3.sw := rfl
  clear_value s4
  have h5 : s5.sw = s4.sw := by
    unfold s5
    split
    · exact foldl_same (g := State.sw) (fun t c => govStep_sw _ c t) _ s4
    · split
      · exact foldl_same (g := State.sw) (fun t c => govStep_sw _ c t) _ s4
      · rfl
  clear_value s5
  have h6 : s6.sw = s5.sw := rfl
  clear_value s6
  have he1 : e1.sw = s6.sw := by
    unfold e1
    split
    · exact swEvent_sw _ _ _
    · rfl
  clear_value e1
  have he2 : e2.sw = e1.sw := by
    unfold e2
    split <;> rfl
  clear_value e2
  have h7 : s7.sw = e2.sw := by
    unfold s7
    split <;> rfl
  rw [h7, he2, he1, h6, h5, h4, h3, h2, hbase]

/-- A section's mean current, and the means kept for its root mean square. -/
theorem execSectionCurrentUpdate_mean (k : Fin 4) (n : Nat) (s : State) (h : s.running .sw = true) :
    ∃ t, execSectionCurrentUpdate k n s = .next t ∧ t.reg (0xA0F024 + k) = w16 n ∧
      t.sw.means.get (fun _ => []) k = (n :: s.sw.means.get (fun _ => []) k).take 10000 := by
  rw [execSectionCurrentUpdate, if_neg (by simp [h])]
  extract_lets ms rms sw0 s1 s2
  refine ⟨_, rfl, ?_, ?_⟩
  · change s2.reg _ = _
    unfold s2
    rw [State.reg_setReg_other _ (by omega), State.reg_setReg, if_pos rfl]
  · have hmeans : s2.sw.means = s.sw.means.set (fun _ => []) k.val ms := rfl
    have hlevel : (s2.level (90 + k) (decide (s2.regN 0xA0F028 < rms))).sw = s2.sw := rfl
    rw [hlevel, hmeans, Sparse.get_set, if_pos rfl]

/-! Profile copies and records of an island (R187, R207). -/

section
variable (s : State)

theorem execProfileSwap_none {i : OutIsl} (h : s.running i.island = true) (hc : (s.out i).copy = none) :
    execProfileSwap i s = .next s := by
  rw [execProfileSwap, if_pos h, profileSwap, hc]

theorem execProfileSwap_copy {i : OutIsl} (h : s.running i.island = true) {a : Nat} {l : Sparse Word}
    (hc : (s.out i).copy = some (a, l)) :
    let u := (memBurst i.island 0 1024 s).setOut i { s.out i with copy := none, copyBad := false }
    execProfileSwap i s = .next (if (s.out i).copyBad then
      (u.raiseIsl i.island 1 none).setReg (i.oib + 3) (putFld (putBit (u.reg (i.oib + 3)) 1 false) 2 2 3) else takeCopy i a l u) := by
  rw [execProfileSwap, if_pos h, profileSwap]
  dsimp only
  rw [hc]

theorem execRetirementRecordWrite_first {i : OutIsl} (h : s.running i.island = true) {r : RetRec} {q : List RetRec}
    (hq : (s.out i).queue = r :: q) (hh : (s.out i).half = none) (hd : (s.out i).compDue = false)
    (hb : settingsBusyIn s 0 = false) : execRetirementRecordWrite i s =
      .next ((programRecord i 0 r s).setOut i { s.out i with queue := q, half := some r }) := by
  rw [execRetirementRecordWrite, if_pos h, recordWrite]
  dsimp only
  rw [if_neg (by simp [hd]), hh]
  dsimp only
  rw [hq]
  dsimp only
  rw [if_pos (by simp [hb])]

/-! A partner takes over (R209, R210). -/

theorem key_ne {ch p : ChanRef} (hisl : p.isl = ch.isl) (hne : p ≠ ch) : p.key ≠ ch.key := by
  intro h
  apply hne
  obtain ⟨i, k⟩ := p
  obtain ⟨j, l⟩ := ch
  simp only [ChanRef.key] at h hisl
  subst hisl
  rw [ChanRef.mk.injEq]
  exact ⟨rfl, by omega⟩

/-- A partner's record while it carries the set of channel number `k`, whose record is `c` (log 33). -/
def carrier (c : Chan) (k : Nat) (ref : Option Nat) (q : Chan) : Chan :=
  { q.resetEvidence with
    aside := q.act, asideProf := q.prof, act := carriedSet c.act, prof := c.prof, carries := some k, perRef := ref }

/-- The partner `p` takes over the retired channel `ch`; both are marked. -/
def carrying (ch p : ChanRef) (ref : Option Nat) (s : State) : State :=
  let s0 := s.modChan ch fun c => { c with tkDue := none }
  (((s0.setChan p (carrier (s.chan ch) ch.idx ref (s.chan p))).modChan ch fun c =>
    { c with carriedBy := some p.idx }).diag ch 11).diag p 11

theorem chan_diag (s : State) (c : ChanRef) (b : Nat) (d : ChanRef) : (s.diag c b).chan d = s.chan d := rfl

theorem carrying_partner {ch p : ChanRef} (hk : p.key ≠ ch.key) (ref : Option Nat) :
    (carrying ch p ref s).chan p = carrier (s.chan ch) ch.idx ref (s.chan p) := by
  rw [carrying, chan_diag, chan_diag, chan_modChan_other _ hk, chan_setChan_same]

theorem carrying_carried {ch p : ChanRef} (hk : p.key ≠ ch.key) (ref : Option Nat) :
    (carrying ch p ref s).chan ch = { s.chan ch with tkDue := none, carriedBy := some p.idx } := by
  rw [carrying, chan_diag, chan_diag, chan_modChan_same, chan_setChan_other _ hk.symm, chan_modChan_same]

/-- A takeover that is due, at a free partner of its own. -/
theorem execPartnerTakeover_takes {ch p : ChanRef} {at_ : Nat} (hok : ch.ok = true) (hr : s.running ch.isl.island = true)
    (hd : (s.chan ch).tkDue = some at_) (ht : takeoverTime s ch at_ = true) (hp : partnerOf ch (s.chan ch).act = some p)
    (hne : p ≠ ch) (h0 : (s.chan p).reason = 0) (hm : modeOf (s.chan p).act = 0) (hl : (s.chan p).latch = false) :
    p.key ≠ ch.key ∧ ∃ ref, execPartnerTakeover ch s = .next ((tryStart p (carrying ch p ref s)).oibEvent ch.isl 10) := by
  have hisl : p.isl = ch.isl := by
    unfold partnerOf at hp
    split at hp <;> cases hp
    rfl
  have hk := key_ne hisl hne
  have hq : (s.modChan ch fun c => { c with tkDue := none }).chan p = s.chan p := chan_modChan_other s hk _
  refine ⟨hk, if pwmSet ch (s.chan ch).act || decide (ch.isl = .lux) then
    (if isBoundary s ch then (s.chan ch).perRef else some s.now) else none, ?_⟩
  have hlatch (ref : Option Nat) : ((carrying ch p ref s).chan p).latch = false := by
    rw [carrying_partner s hk]
    exact hl
  rw [execPartnerTakeover, if_neg (not_unknown hok), if_pos hr, partnerTakeover]
  dsimp only
  rw [hd]
  dsimp only
  rw [if_neg (by simp [ht]), hp]
  dsimp only
  rw [hq, if_neg (by simp [h0, hm])]
  unfold carrying carrier at hlatch ⊢
  dsimp only at hlatch ⊢
  rw [if_neg (ne_true_of_eq_false (hlatch _))]

end

/-- Settles O52. -/
theorem channelLifecycleAndProtection : Obligations.ChannelLifecycleAndProtection := by
  intro s ch p i side x y mean n us term at_ k g m hok c trip
  refine ⟨fun l v r hp hlux hc hb => execPeriodBoundary_applies s hok hp hlux hc hb, execPeriodBoundary_between s hok,
    execPeriodBoundary_lux s hok, fun hr => ⟨execProfileSwap_none s hr, fun a l hc => ?_, fun r q hq hh hd hb =>
      execRetirementRecordWrite_first s hr hq hh hd hb⟩, execRetryPauseEnd_tries s hok, execForgiveExpiry_forgives s hok,
    ?_, ?_, fun hr hd ht hp hne _ _ h0 hm hl => ?_, fun hsw hon hn => ?_, fun hsw hon hn => ⟨fun hf => ?_, fun f hf => ?_⟩,
    fun hw he => ⟨execInrushWindowEnd_fld s hok hw he, execInrushWindowEnd_sw s hok hw he⟩,
    execThermalLatchSet_over s hok, execThermalLatchClear_cool s hok, fun hsw => ?_,
    fun hsw h64 hon => ⟨fun hw h14 hlink hst hn hus hact => execStallDetect_flags s hok hsw h64 hon hw h14 hlink hst hn hus hact,
      fun d hd hm hb hi => execHbRegulationPeriod_moves s hok hsw h64 hon hd hm hb hi⟩,
    fun hr => ⟨execGovernorEvaluation_history g s hr, execSectionCurrentUpdate_mean k n s hr⟩,
    execCurrentMeasurement_words s hok m, fun hsw hoff => ?_, execShortBatConfirm_high s hok, execOpenConfirm_confirms s hok⟩
  · exact ⟨fun h => (execProfileSwap_copy s hr hc).trans (by rw [if_neg (ne_true_of_eq_false h)]),
      fun h => (execProfileSwap_copy s hr hc).trans (by rw [if_pos h])⟩
  · exact if_neg (not_unknown hok)
  · exact if_neg (not_unknown hok)
  · obtain ⟨hk, ref, hexec⟩ := execPartnerTakeover_takes s hok hr hd ht hp hne h0 hm hl
    refine ⟨_, hexec, ?_, ?_, ?_, ?_⟩
    · rw [carrying_partner s hk] <;> rfl
    · rw [carrying_partner s hk] <;> rfl
    · rw [carrying_carried s hk]
    · rw [carrying_carried s hk]
  · refine (execShortComparatorTrip_trips s hok hsw hon hn).trans ?_
    cases side <;> rfl
  · refine (execLimitTrip_over s hok hsw hon hn).trans ?_
    rw [hf]
  · have hexec := execLimitTrip_over s hok (us := us) (term := term) hsw hon hn
    rw [hf] at hexec
    exact ⟨fun hle => hexec.trans (if_pos hle), fun hlt => hexec.trans (if_neg (Nat.not_le.mpr hlt))⟩
  · have hexec := execWireModelUpdate_sw s hok (n := n) hsw
    intro w t1 u
    refine ⟨fun hl hlt => hexec.trans ((if_neg fun h => Rat.not_le.mpr hlt h.1).trans (if_neg fun h => ?_)),
      fun hl hlt => hexec.trans ((if_neg fun h => ?_).trans (if_neg fun h => Rat.not_le.mpr hlt h.2)),
      fun hl hle hc => hexec.trans ((if_neg fun h => ?_).trans ((if_pos ⟨hl, hle⟩).trans ?_)),
      fun hl hle hon => hexec.trans (if_pos ⟨hle, by simp [c, hl], hon⟩)⟩
    · exact ne_true_of_eq_false hl h.1
    · exact ne_true_of_eq_false (by simp [c, hl]) h.2.1
    · exact ne_true_of_eq_false (by simp [c, hl]) h.2.1
    · split
      · next p hp => exact absurd (hp.symm.trans hc) (Option.some_ne_none p)
      · rfl
  · have hexec := execOffStateCheck_sw s hok (n := n) hsw hoff
    exact ⟨fun hle => hexec.trans (if_pos hle), fun hlt => hexec.trans (if_neg (Nat.not_le.mpr hlt))⟩

end Sys2Proof.Machine

/-! Valve drive: peaks, pulses, banks and boost (O53; spec 09). -/

namespace Sys2Proof.Machine

section
variable (s : State) (n : Fin 16)

/-! Peaks and pulses (R245 to R252). -/

section
variable {drawn vbst : Nat} (hp : ((boostMeasure vbst s).valve n).ph = .peak)
include hp

theorem execPeakEnd_pulse (hf : ((boostMeasure vbst s).valve n).firing = true)
    (ht : ((boostMeasure vbst s).valve n).at_ + pulseUs ((boostMeasure vbst s).chan (vl n)) ≤ (boostMeasure vbst s).now) :
    execPeakEnd n .pulse drawn vbst s = .next (afterPeak (endPulse n
      ((endPeak n drawn (boostMeasure vbst s)).setRegBit ((vl n).port 0x1E) 8 false))) := by
  rw [execPeakEnd]
  dsimp only
  rw [if_neg (Classical.not_not.mpr hp), if_neg (by simp [hf, Nat.not_lt.mpr ht])]

theorem execPeakEnd_tmax {i : Nat} (ht : ((boostMeasure vbst s).chan (vl n)).winEnd ≤ (boostMeasure vbst s).now) :
    let u := (endPeak n drawn (boostMeasure vbst s)).setRegBit ((vl n).port 0x1E) 8 true
    execPeakEnd n (.tmax i) drawn vbst s = .next (afterPeak
      (if i < (wd ((boostMeasure vbst s).chan (vl n)).pf 9).toNat then evidence (vl n) false u else u)) := by
  rw [execPeakEnd]
  dsimp only
  rw [if_neg (Classical.not_not.mpr hp), if_neg (Nat.not_lt.mpr ht)]

theorem execPeakEnd_reached {i : Nat} (hi : iPeak ((boostMeasure vbst s).chan (vl n)) ≤ i) :
    let m := boostMeasure vbst s
    let u := ((endPeak n drawn m).setRegFld ((vl n).port 0x1E) 0 8 (Nat.min ((m.now - (m.valve n).at_) / 10) 255)).setRegBit
      ((vl n).port 0x1E) 8 false
    execPeakEnd n (.reached i) drawn vbst s = .next (afterPeak
      (if m.now - (m.valve n).at_ < fld (wd (m.chan (vl n)).pf 14) 0 8 then valveTrip n 4 u else evidence (vl n) true u)) := by
  rw [execPeakEnd]
  dsimp only
  rw [if_neg (Classical.not_not.mpr hp), if_neg (Nat.not_lt.mpr hi)]

end

theorem execPulseEnd_holding {vbst : Nat} (hf : ((boostMeasure vbst s).valve n).firing = true)
    (ht : ((boostMeasure vbst s).valve n).at_ + pulseUs ((boostMeasure vbst s).chan (vl n)) ≤ (boostMeasure vbst s).now)
    (hp : ((boostMeasure vbst s).valve n).ph ≠ .peak) :
    execPulseEnd n vbst s = .next (endPulse n (boostMeasure vbst s)) := by
  rw [execPulseEnd, if_neg (by simp [hf, Nat.not_lt.mpr ht]), if_neg hp]

theorem execPeakAbandon_due {at_ : Nat} (hd : (s.valve n).due = some at_) (ht : at_ + delayUs (s.chan (vl n)) ≤ s.now) :
    execPeakAbandon n s = .next (actEvent 0 (some n) none (((((s.modValve n fun v =>
      { v with due := none, gaveUp := true, pulse := false }).modBank (n.val / 4) fun b => { b with probe := none }).modChan (vl n)
        fun c => { c with retry := false }).setRegBit ((vl n).port 0x1E) 9 true).raise 121 (some n))) := by
  unfold execPeakAbandon
  rw [hd]
  dsimp only
  rw [if_neg (Nat.not_lt.mpr ht)]

/-! The boost rail (R253 to R256). -/

theorem execBoostFault_low {vbst at_ : Nat} (hl : (boostMeasure vbst s).boostLow = some at_)
    (ht : at_ + 100000 ≤ (boostMeasure vbst s).now) (hb : (boostMeasure vbst s).regBit 0xA1F004 4 = false) :
    execBoostFault vbst s =
      .next (actEvent 2 none none (((boostMeasure vbst s).setRegBit 0xA1F004 4 true).level 119 true)) := by
  unfold execBoostFault
  dsimp only
  rw [hl]
  exact if_pos ⟨ht, hb⟩

/-! Nodes and banks (R257 to R262). -/

theorem execVlShortGndTrip_trips {v us : Nat} (hv : v < 100) (hu : 5 ≤ us) (hl : (s.valve n).low = false)
    (ht : (s.valve n).lowAt + 5 ≤ s.now) (hr : rail s (n.val / 4) ≠ 0) (h0 : (s.chan (vl n)).reason = 0)
    (hp : (s.chan (vl n)).prof ≠ []) : execVlShortGndTrip n v us s = .next (valveTrip n 3 s) := by
  rw [execVlShortGndTrip]
  dsimp only
  rw [if_neg (by simp [hl, hr, h0]; omega), if_neg hp]

theorem execRailShortTrip_trips {k : Fin 4} {i v : Nat} (hr : rail s k ≠ 0) (hi : 4000 ≤ i) (hv : 100 ≤ v) :
    let w := ((bankOff k s).bank k).bretry + 1
    execRailShortTrip k i v s = .next (newLock k (decide (lockWhy s k ≠ 0)) ((bankOff k s).modBank k fun b => { b with
      bretry := w, quiet := 0, probe := none, lock2 := decide (3 < w)
      retryAt := if w ≤ 3 then some (s.now + 10000 * 2 ^ (w - 1)) else none })) := by
  rw [execRailShortTrip, if_neg (by omega)]

theorem execRailRetry_due {k : Fin 4} {at_ : Nat} (hr : (s.bank k).retryAt = some at_) (ht : at_ ≤ s.now) :
    execRailRetry k s = .next (tryBank k (s.modBank k fun b => { b with retryAt := none })) := by
  unfold execRailRetry
  rw [hr]
  dsimp only
  rw [if_neg (Nat.not_lt.mpr ht)]

theorem execBankOffCheck_marks {k : Fin 4} {node : Nat} (hr : rail s k = 0)
    (hb : ((bankValves k).any fun v => bit (wd (s.chan (vl v)).pf 12) 0) = true) :
    execBankOffCheck k node s = .next (s.modBank k fun b => { b with nodeLow := decide (node < 100) }) := by
  rw [execBankOffCheck, if_neg (by rw [hr, hb]; decide)]

theorem bankLatchSet_hot {k : Fin 4} {x y : Therm} (hh : (s.bank k).hot = false) (ha : actHot x y = true) :
    bankLatchSet k x y s = actEvent 3 none none
      ((bankOff k (s.modBank k fun b => { b with hot := true, probe := none })).raiseIsl .act 5 none) := by
  rw [bankLatchSet, if_neg (by simp [hh, ha])]

theorem bankLatchClear_cool {k : Fin 4} {x y : Therm} (hh : (s.bank k).hot = true) (ha : actCool x y = true) :
    bankLatchClear k x y s = tryBank k (s.modBank k fun b => { b with hot := false }) := by
  rw [bankLatchClear, if_neg (by simp [hh, ha])]

end

/-- Settles O53. -/
theorem valveAndBoostEvents : Obligations.ValveAndBoostEvents := by
  intro s n k x y drawn vbst node i v us at_ m b c ended
  refine ⟨fun hr => ?_, fun hp => ⟨execPeakEnd_pulse s n hp, fun ht => ?_, fun hi => ?_⟩, execPulseEnd_holding s n, fun hq hi => ?_,
    execPeakAbandon_due s n, rfl, rfl, execBoostFault_low s, execVlShortGndTrip_trips s n, execRailShortTrip_trips s,
    execRailRetry_due s, execBankOffCheck_marks s, fun hh ha => ?_, fun hh ha => ?_⟩
  · exact congrArg Host.Outcome.next (if_pos hr)
  · have hexec := execPeakEnd_tmax s n (drawn := drawn) hp (i := i) ht
    exact ⟨fun hlt => hexec.trans (by rw [if_pos hlt]), fun hle => hexec.trans (by rw [if_neg (Nat.not_lt.mpr hle)])⟩
  · have hexec := execPeakEnd_reached s n (drawn := drawn) hp hi
    exact ⟨fun hle => hexec.trans (by rw [if_neg (Nat.not_lt.mpr hle)]), fun hlt => hexec.trans (by rw [if_pos hlt])⟩
  · exact if_pos ⟨hq, hi⟩
  · exact congrArg Host.Outcome.next (bankLatchSet_hot s hh ha)
  · exact congrArg Host.Outcome.next (bankLatchClear_cool s hh ha)

end Sys2Proof.Machine

/-! Buses and the tatting ring (O55; spec 12). -/

namespace Sys2Proof.Machine

section
variable (s : State)

/-! Received frames (R281 to R290). -/

section
variable {n : Nat} {f : CanFrame} {u : State} (hu : selectiveWake n f s = u) (hr : u.running .net = true)
  (hp : portEn u n = true) (hi : isolated u n = false) (hb : onBus u n = true) (hq : inQuiet u 200000 = false)
include hu hr hp hi hb hq

theorem canReceive_bus : canReceive n f s =
    if inRingRange u f && decide (n ∈ trSeg u) then
      match ringFields u f with
      | some (typ, r) => ringTake n typ r.src r f (countUp (txr n 5) u)
      | none => countUp (txr n 5) u
    else
      let flags := (if f.fd then 16 else 0) + (if f.brs then 32 else 0) + (if f.ide then 64 else 0) + (if f.esi then 128 else 0) +
        (if inRingRange u f then 256 else 0)
      routeFrame n f.id f.ide (.can f) (recordHead (countUp (txr n 5) u) n flags f.data.length f.id ++ wordsOf f.data)
        (countUp (txr n 5) u) := by
  unfold canReceive
  rw [hu]
  dsimp only
  rw [hr, hp, hi, hb, hq] <;> rfl

theorem canReceive_ring {typ : Nat} {x : RingFrame} (hin : inRingRange u f = true) (hseg : n ∈ trSeg u)
    (hf : ringFields u f = some (typ, x)) : canReceive n f s = ringTake n typ x.src x f (countUp (txr n 5) u) := by
  rw [canReceive_bus s hu hr hp hi hb hq, if_pos (by rw [hin, decide_eq_true hseg] <;> rfl), hf]

theorem canReceive_gateway (hin : inRingRange u f = false) (hfd : f.fd = false) (hbrs : f.brs = false) (hide : f.ide = false)
    (hesi : f.esi = false) : canReceive n f s = routeFrame n f.id false (.can f)
      (recordHead (countUp (txr n 5) u) n 0 f.data.length f.id ++ wordsOf f.data) (countUp (txr n 5) u) := by
  rw [canReceive_bus s hu hr hp hi hb hq, hin, hfd, hbrs, hide, hesi] <;> rfl

end

section
variable {e : Fin 6} (g : EthFrame) (hr : s.running .net = true) (hp : portEn s (8 + e) = true)
  (hi : isolated s (8 + e) = false)
include hr hp hi

theorem execEthFrameReceived_good (hf : g.fcsOk = true) {v : BitVec 12} (hv : g.tag = some v) :
    execEthFrameReceived e g s = .next (routeFrame (8 + e) v.toNat false (.eth g.bytes)
      (recordHead (countUp (txr (8 + e) 5) s) (8 + e) 0 g.bytes.length v.toNat ++ wordsOf g.bytes) (countUp (txr (8 + e) 5) s)) := by
  unfold execEthFrameReceived
  dsimp only
  rw [if_neg (by simp [hr, hp]), if_neg (by simp [hi]), if_neg (by simp [hf]), hv]

theorem execEthFrameReceived_bad (hf : g.fcsOk = false) : execEthFrameReceived e g s =
    .next (s.setRegFld (ethBase e + 0x10) 0 8 (satInc 0xFF (s.regFld (ethBase e + 0x10) 0 8))) := by
  unfold execEthFrameReceived
  dsimp only
  rw [if_neg (by simp [hr, hp]), if_neg (by simp [hi]), if_pos (by simp [hf])]

end

theorem execReceiveRecordWrite_enters {n : Fin 8} {r : List Word} {q : List (List Word)}
    (hq : s.net.rxq.get (fun _ => []) n.val = r :: q) {base m : Nat}
    (hring : ringOk s (0xA30010 + 4 * n.val) (if s.regBit (0xA30010 + 4 * n.val + 1) 12 then 776 else 40) = some (base, m))
    (hlen : r.length ≤ if s.regBit (0xA30010 + 4 * n.val + 1) 12 then 776 else 40)
    (hfree : (s.regN (0xA30010 + 4 * n.val + 2) % 2 ^ m + 1) % 2 ^ m ≠ s.regN (0xA30010 + 4 * n.val + 3) % 2 ^ m) :
    let b := 0xA30010 + 4 * n.val
    let slot := if s.regBit (b + 1) 12 then 776 else 40
    let u := { s with net := { s.net with rxq := s.net.rxq.set (fun _ => []) n.val q } }
    execReceiveRecordWrite n s = .next (netEvent 0 (((memBurst .net n r.length u).storeList
      (base + s.regN (b + 2) % 2 ^ m * slot) r).setReg (b + 2) (w16 ((s.regN (b + 2) % 2 ^ m + 1) % 2 ^ m)))) := by
  unfold execReceiveRecordWrite
  rw [hq]
  dsimp only
  rw [hring]
  dsimp only
  rw [if_neg (not_or.mpr ⟨hfree, Nat.not_lt.mpr hlen⟩)]

/-! Sent frames (R291, R300). -/

theorem quietOn_outside {k : Nat} (hq : inQuiet s 200000 = false) : quietOn s k = false := by
  rw [quietOn, hq, Bool.false_and]

section
variable {p : Fin 14} (hr : s.running .net = true) (hi : isolated s p = false)
include hr hi

theorem execFrameTransmitted_can (h8 : p.val < 8) (hw : s.net.wake.get (fun _ => none) p.val = none)
    (hc : canSends s p = true) (hq : inQuiet s 200000 = false) : execFrameTransmitted p true s = .next (canSent p s) := by
  unfold execFrameTransmitted
  rw [if_neg (by simp [hr, hi]), if_neg (by decide), if_pos h8, hw]
  dsimp only
  rw [if_pos (by rw [hc, quietOn_outside s hq] <;> rfl)]

theorem execFrameTransmitted_wakeFailed (h8 : p.val < 8) {w : CanFrame}
    (hw : s.net.wake.get (fun _ => none) p.val = some w) : execFrameTransmitted p false s = .next (wakeFailed p s) := by
  unfold execFrameTransmitted
  rw [if_neg (by simp [hr, hi]), if_pos (by decide), if_pos ⟨h8, by rw [hw] <;> rfl⟩]

theorem execFrameTransmitted_wake (h8 : p.val < 8) {w : CanFrame} (hw : s.net.wake.get (fun _ => none) p.val = some w)
    (hq : inQuiet s 200000 = false) : execFrameTransmitted p true s = .next (endWake p (countUp (txr p 6)
      (s.send (.can p (wakeBit s p) (wakeBit s p) w)))) := by
  unfold execFrameTransmitted
  rw [if_neg (by simp [hr, hi]), if_neg (by decide), if_pos h8, hw]
  dsimp only
  rw [if_neg (ne_true_of_eq_false (quietOn_outside s hq))]

theorem execFrameTransmitted_eth (h8 : ¬p.val < 8) (hb : onBus s p = true) :
    execFrameTransmitted p true s = .next (ethSent p s) := by
  unfold execFrameTransmitted
  rw [if_neg (by simp [hr, hi]), if_neg (by decide), if_neg h8, if_pos hb]

end

/-! Bus-off (R353). -/

theorem execCanBusOff_reports {n : Fin 8} (hw : s.net.wake.get (fun _ => none) n.val = none) (hb : onBus s n = true) :
    ∃ t, execCanBusOff n s = .next ((netEvent 3 t).raise 162 (some n.val)) ∧ t.regFld (canBase n + 6) 0 2 = 2 := by
  unfold execCanBusOff
  rw [hw]
  extract_lets s0 a s1 s2
  have h0 : s0 = s := if_neg (by simp)
  rw [if_neg (by rw [h0, hb]; decide)]
  refine ⟨_, rfl, ?_⟩
  change s2.regFld a 0 2 = 2
  have h2 : s2.reg a = s1.reg a := State.reg_setReg_other s1 (Nat.ne_of_lt (Nat.lt_succ_self a)) _
  have h1 : s1.reg a = putFld ((s0.setRegFld a 0 2 2).reg a) 7 3 (s0.freeBelow 8) := State.reg_setRegFld_same _ a 7 3 _
  rw [State.regFld, h2, h1, fld_putFld_other (.inl (by decide)), State.reg_setRegFld_same, fld_putFld_same (by decide)] <;> rfl

theorem execCanBusOffRecovery_restores {n : Fin 8} (hr : s.running .net = true) (hoff : s.regFld (canBase n + 6) 0 2 = 2)
    (hask : s.regBit (canBase n) 6 = true ∨ n.val ∈ s.net.recov) : ∃ t, execCanBusOffRecovery n s =
      .next (if trSeg t = [n.val] ∧ (trState t = 1 ∨ trState t = 2) then sendJoin t else t) ∧
        t.regFld (canBase n + 6) 0 2 = 0 ∧ t.reg (canBase n + 7) = 0 ∧ n.val ∉ t.net.recov := by
  refine ⟨_, if_pos ⟨hr, hoff, hask⟩, ?_, ?_, ?_⟩
  · rw [State.regFld, State.reg_setReg_other _ (Nat.ne_of_lt (Nat.lt_succ_self _)), State.reg_setRegFld_same,
      fld_putFld_same (by decide)] <;> rfl
  · exact (State.reg_setReg _ _ _ _).trans (if_pos rfl)
  · intro h
    exact absurd rfl (of_decide_eq_true (List.mem_filter.mp h).2)

/-! LIN (R318 to R326). -/

section
variable {l : Fin 12} {id : BitVec 6}

theorem execLinHeader_badSync {us : Nat} (hr : s.running .net = true) (hen : s.regBit (linBase l) 0 = true)
    (hm : s.regBit (linBase l) 1 = false) (hs : linSync s l us = false) :
    execLinHeader l id us s = .next (linFlags l false 64 (linIdle l s)) := by
  unfold execLinHeader
  rw [if_neg (by simp [hr, hen]), if_pos (by rw [hm, hs]; decide)]

theorem linEntry_ne_linBase (l k : Fin 12) (id : BitVec 6) (w : Nat) (hw : w < 0x10) : linEntry l id ≠ linBase k + w := by
  unfold linEntry linBase
  omega

/-- A header whose entry subscribes: the response is awaited. -/
theorem execLinHeader_subscribed {us : Nat} (hr : s.running .net = true) (hen : s.regBit (linBase l) 0 = true)
    (hs : s.regBit (linBase l) 1 = true ∨ linSync s l us = true) (he : s.regFld (linEntry l id) 0 2 = 2) :
    ∃ t, execLinHeader l id us s = .next (linFlags l true 0 t) ∧ t.net.lin.get (fun _ => none) l.val = some id := by
  have hentry : ((linIdle l s).setRegFld (linBase l + 3) 8 6 id.toNat).regFld (linEntry l id) 0 2 = 2 :=
    (State.regFld_congr (State.reg_setRegFld_other (linIdle l s) (linEntry_ne_linBase l l id 3 (by decide)) 8 6 id.toNat) 0 2).trans he
  have hno : ¬(!s.regBit (linBase l) 1 && !linSync s l us) = true := by
    obtain h | h := hs <;> simp [h]
  unfold execLinHeader
  rw [if_neg (by simp [hr, hen]), if_neg hno]
  dsimp only
  rw [hentry]
  exact ⟨_, rfl, by rw [Sparse.get_set, if_pos rfl]⟩

theorem execLinResponse_good {bs : List Byte} {sum : Byte} (hl : s.net.lin.get (fun _ => none) l.val = some id)
    (hs : sum = linSum (s.regBit (linEntry l id) 2) (linPid id) (bs.take (linLen s l id))) :
    execLinResponse l (.data bs sum) s = .next (linFlags l false 2 ((linIdle l s).setRegList (linBase l + 4)
      (wordsOf (bs.take (linLen s l id))))) := by
  unfold execLinResponse
  rw [hl]
  dsimp only
  rw [if_neg (Classical.not_not.mpr hs)]

theorem execLinResponse_badSum {bs : List Byte} {sum : Byte} (hl : s.net.lin.get (fun _ => none) l.val = some id)
    (hs : sum ≠ linSum (s.regBit (linEntry l id) 2) (linPid id) (bs.take (linLen s l id))) :
    execLinResponse l (.data bs sum) s = .next (linFlags l false 8 (linIdle l s)) := by
  unfold execLinResponse
  rw [hl]
  dsimp only
  rw [if_pos hs]

theorem execLinResponse_bitError (hl : s.net.lin.get (fun _ => none) l.val = some id) :
    execLinResponse l .bitError s = .next (linFlags l false 32 (linIdle l s)) := by
  unfold execLinResponse
  rw [hl]

theorem execLinNoResponse_awaited (hl : s.net.lin.get (fun _ => none) l.val = some id) :
    execLinNoResponse l s = .next (linFlags l false 16 (linIdle l s)) := by
  rw [execLinNoResponse, hl] <;> rfl

end

/-! Routes (R297). -/

theorem execRouteSwapApply_swaps (h : s.regBit 0xA30002 0 = true) : ∃ t, execRouteSwapApply s = .next t ∧
    t.regBit 0xA30002 0 = false ∧
      t.net.routes = (s.regs.filter fun x => inBackBank x.1).map fun x => (x.1 - 0xA32000, x.2) := by
  unfold execRouteSwapApply
  rw [if_neg (by simp [h])]
  exact ⟨_, rfl, State.regBit_setRegBit_same _ _ (by decide) _, rfl⟩

/-! The ring's token and quiet window (R304 to R316). -/

theorem execTokenLost_regenerates (hr : s.running .net = true) (ht : trState s = 2)
    (hl : s.net.ring.lostFrom + trLost s ≤ s.now) :
    let u := setTrState 2 s
    u.net.ring.lostFrom + trLost u + 20000 * ringRank u ≤ u.now →
      execTokenLost s = .next (forward (modRing (fun r => { r with regen := true, wait := none }) u)) := by
  intro u hu
  rw [execTokenLost, if_neg (by simp [hr, ht, Nat.not_lt.mpr hl])]
  exact congrArg Host.Outcome.next (if_neg (Nat.not_lt.mpr hu))

theorem execTokenResend_due {w : RingWait} (hr : s.running .net = true) (ht : trState s = 2)
    (hw : s.net.ring.wait = some w) (hdue : w.since + trPace s + 25000 ≤ s.now) : execTokenResend s =
      .next (if w.again then passOn true w s else tokenTimer
        (modRing (fun r => { r with wait := some { w with again := true, since := s.now } }) (sendRing w.bytes s))) := by
  unfold execTokenResend
  rw [hw]
  dsimp only
  rw [if_neg (by simp [hr, ht, Nat.not_lt.mpr hdue])]

/-- The end of the quiet window: the ring sleeps, and the mode its register names is asked for. -/
theorem execQuietWindowEnd_sleeps (hr : s.running .net = true) (ht : trState s = 3) (hq : inQuiet s 201999 = false) :
    let u := setTrState 4 (modRing (fun r => { r with quietFrom := none }) s)
    (u.regFld 0xA30040 1 2 = 0 → execQuietWindowEnd s = .next u) ∧
      ((u.regFld 0xA30040 1 2 = 1 ∨ u.regFld 0xA30040 1 2 = 2) →
        (pwrCtrl (pack [(0, u.regFld 0xA30040 1 2), (8, 0xA5)]) u).mode ≠ .run → execQuietWindowEnd s =
          .next ((pwrCtrl (pack [(0, u.regFld 0xA30040 1 2), (8, 0xA5)]) u).setRegBit 0xA30049 4 false)) := by
  intro u
  rw [execQuietWindowEnd, if_neg (by simp [hr, ht, hq])]
  refine ⟨fun h0 => if_pos (.inl h0), fun hm hmode => ?_⟩
  have hno : ¬(u.regFld 0xA30040 1 2 = 0 ∨ u.regFld 0xA30040 1 2 = 3) := by omega
  exact (if_neg hno).trans (if_pos hmode)

end

/-- Settles O55. -/
theorem busAndRingEvents : Obligations.BusAndRingEvents := by
  intro s n e k l id f g rf up bs sum us phase
  refine ⟨?_, ?_, fun hr hp hi => ⟨fun hf v hv => execEthFrameReceived_good s g hr hp hi hf hv,
      execEthFrameReceived_bad s g hr hp hi⟩, ?_, fun hr hi hie => ⟨fun hw hc hq p hpn => ?_, fun w hw p hpn => ?_, fun hb p hpn => ?_⟩,
    execCanBusOff_reports s, execCanBusOffRecovery_restores s,
    fun hr hen => ⟨execLinHeader_badSync s hr hen, execLinHeader_subscribed s hr hen⟩,
    fun hl => ⟨execLinResponse_good s hl, execLinResponse_badSum s hl, execLinResponse_bitError s hl, execLinNoResponse_awaited s hl⟩,
    fun hr hb hus => ?_, fun hm hr hi hb => ?_, fun hm hb hi hp hus => ?_, fun hm hb hi => ?_, fun hb he => ?_, fun hr h2 => ?_,
    execRouteSwapApply_swaps s, fun hat => ?_, fun hr ht => ⟨fun h3 hp => ?_, execTokenLost_regenerates s hr ht,
      fun w hw hdue => ⟨fun ha => ?_, fun ha => ?_⟩⟩, execQuietWindowEnd_sleeps s⟩
  · intro u hr hp hi hb hq
    exact ⟨fun typ x hin hseg hf => congrArg _ (canReceive_ring s rfl hr hp hi hb hq hin hseg hf),
      fun hin hfd hbrs hide hesi => congrArg _ (canReceive_gateway s rfl hr hp hi hb hq hin hfd hbrs hide hesi)⟩
  · intro p hp c u
    have hexec : exec (p.1 n rf) s = .next (canReceive n c s) := by
      simp only [List.mem_cons, List.not_mem_nil, or_false] at hp
      obtain rfl | rfl | rfl | rfl | rfl | rfl := hp <;> rfl
    exact ⟨hexec, fun hr hp hi hb hq typ x hin hseg hf =>
      hexec.trans (congrArg _ (canReceive_ring s rfl hr hp hi hb hq hin hseg hf))⟩
  · intro r q hq b slot u base m hring hlen hfree
    exact execReceiveRecordWrite_enters s hq hring hlen hfree
  · rw [← hpn] at hi hw hc ⊢
    exact execFrameTransmitted_can s hr hi (by omega) hw hc hq
  · rw [← hpn] at hi hw ⊢
    exact ⟨execFrameTransmitted_wakeFailed s hr hi (by omega) hw, execFrameTransmitted_wake s hr hi (by omega) hw⟩
  · rw [← hpn] at hie hb ⊢
    exact execFrameTransmitted_eth s hr hie (by omega) hb
  · exact congrArg Host.Outcome.next (if_pos (by simp [hr, hb, hus]))
  · exact congrArg Host.Outcome.next (if_neg (by simp [hm, hr, hi, hb]))
  · exact congrArg Host.Outcome.next (if_pos (by simp [hm, hb, hi, hp, hus]))
  · exact congrArg Host.Outcome.next (if_pos (by simp [hm, hb, hi]))
  · change execEthLinkChange e up s = _
    rw [execEthLinkChange, if_neg (by simp [hb])]
    exact congrArg Host.Outcome.next (if_pos he)
  · exact congrArg Host.Outcome.next (if_pos ⟨hr, h2⟩)
  · exact congrArg Host.Outcome.next (if_neg (Nat.not_lt.mpr hat))
  · exact congrArg Host.Outcome.next (if_pos (by simp [hr, h3, ht, hp]))
  · exact (execTokenResend_due s hr ht hw hdue).trans (by rw [if_pos ha])
  · exact (execTokenResend_due s hr ht hw hdue).trans (by rw [if_neg (ne_true_of_eq_false ha)])

end Sys2Proof.Machine

/-! Sessions, polling, enrolment, key store, jobs and alarms (O56; spec 13 and 14). -/

namespace Sys2Proof.Machine

section
variable (s : State)

/-! A session's phases and frames (R372 to R378). -/

section
variable {x : Session} (hr : s.running .sec = true) (hx : s.sec.session = some x)
include hr hx

section
variable (peak : List Nat) (ht : x.from_ + phaseUs s x ≤ s.now)
include ht

theorem execSessionPhaseEnd_challenge (hp : x.phase = 1) :
    execSessionPhaseEnd peak s = .next (setPhase 2 (framesEnded peak s)) := by
  unfold execSessionPhaseEnd
  rw [if_neg (by simp [hr]), hx]
  dsimp only
  rw [if_neg (Nat.not_lt.mpr ht), hp] <;> rfl

theorem execSessionPhaseEnd_resolve (hp : x.phase = 3) : execSessionPhaseEnd peak s =
    .next (nextResolve (framesEnded peak (modSession (fun y => { y with resolve := y.resolve.tail }) s))) := by
  unfold execSessionPhaseEnd
  rw [if_neg (by simp [hr]), hx]
  dsimp only
  rw [if_neg (Nat.not_lt.mpr ht), hp] <;> rfl

theorem execSessionPhaseEnd_ranging (hp : x.phase = 4) : execSessionPhaseEnd peak s = .next (endSession s) := by
  unfold execSessionPhaseEnd
  rw [if_neg (by simp [hr]), hx]
  dsimp only
  rw [if_neg (Nat.not_lt.mpr ht), hp] <;> rfl

end

theorem execUhfFrameReceived_response {bytes : List Byte} (pre : Nat) (hm : s.mode ≠ .park) (hp : x.phase = 3)
    (h18 : frameCrcOk bytes 18 = false) (h16 : frameCrcOk bytes 16 = true) :
    execUhfFrameReceived pre true bytes s = .next (sessionResponse x (respSlot s x pre) bytes s) := by
  unfold execUhfFrameReceived
  rw [if_neg hm, if_neg (by simp [hr]), hx]
  dsimp only
  rw [if_neg (by rw [h18]; simp), if_pos ⟨rfl, h16⟩, if_neg (by rw [hp]; decide)]

theorem execAntennaShortTrip_trips {a : Fin 8} {i : Nat} (hp : x.phase = 1) (hm : x.mask.testBit a = true) (hi : 250 ≤ i) :
    execAntennaShortTrip a i s = .next (antennaLevel ((markTrip a s).setRegBit 0xA41006 (8 + a) true)) := by
  unfold execAntennaShortTrip
  rw [hx, hr]
  dsimp only
  rw [if_pos (by simp [hp, hm, hi])]

end

/-! Polling in Park (R384 to R390). -/

theorem execPoll_due (hp : polling s = true) (hn : s.poll = none) (ht : s.pollAt + pollPer s ≤ s.now) :
    execPoll s = .next { s.send (.presence false (s.regFld 0xA40802 0 8)) with
      poll := some { spread := false, at_ := s.now }, pollAt := s.now } :=
  congrArg Host.Outcome.next (if_pos ⟨hp, by rw [hn] <;> rfl, ht⟩)

theorem execSpreadPoll_due {at_ : Nat} (hp : polling s = true) (hn : s.poll = none) (hd : s.spreadDue = some at_)
    (ht : at_ ≤ s.now) : execSpreadPoll s = .next { s.send (.presence true (s.regFld 0xA40802 0 8)) with
      poll := some { spread := true, at_ := s.now }, spreadDue := none } := by
  unfold execSpreadPoll
  rw [hd]
  exact congrArg Host.Outcome.next (if_pos ⟨hp, ht, by rw [hn] <;> rfl⟩)

theorem execPollWindowEnd_closed {w : PollWin} (hw : s.poll = some w) (ht : pollCloses s w ≤ s.now) :
    execPollWindowEnd s = .next (if w.spread then
        (if w.hit then { s with poll := none }
          else ({ s with poll := none } : State).setRegFld 0xA40804 0 8 (satInc 0xFF (s.regFld 0xA40804 0 8)))
      else { s with poll := none, spreadDue := w.corrupt.map fun t => t + 20000 }) := by
  unfold execPollWindowEnd
  rw [hw]
  dsimp only
  rw [if_neg (Nat.not_lt.mpr ht)] <;> rfl

/-- MEM out of RUN, its fault records cleared. -/
def memStopped (s : State) : State :=
  maskRange .mem (s.setIsland .mem { s.island .mem with st := .inReset, lock := false, ready := false, chk := false })

theorem memStopped_running : (memStopped s).running .mem = false := by
  rw [State.running, State.island, memStopped, maskRange_isl]
  refine decide_eq_false ?_
  rw [show (State.setIsland s .mem _).isl.get (fun _ => {}) Island.mem.num = _ from State.island_setIsland_same s .mem _]
  exact fun h => by cases h

theorem running_setPoll (m : PMode) (p : Option PollWin) (d : Option Nat) (i : Island) :
    ({ s with mode := m, poll := p, spreadDue := d } : State).running i = s.running i := rfl

/-- The poll's stop: Deep Park. -/
theorem execPollStop_stops (hm : s.mode = .park) (hb : s.regBit 0xA40800 0 = true) (hd : 86400 * pollDays s ≤ parkTime s) :
    execPollStop s = .next { memStopped (s.setReg 0xA40803 (pack [(0, pollDays s), (6, 1)])) with
      mode := .deepPark, poll := none, spreadDue := none } :=
  congrArg Host.Outcome.next (if_pos ⟨hm, hb, hd⟩)

/-! Enrolment (R403 to R408). -/

section
variable {r : Requester} {v : Word} (he : s.sec.enr = some (r, v)) (lo : Nat)
include he

theorem execEnrolmentComplete_revokes (hv : v.getLsbD 5 = true) :
    execEnrolmentComplete none true lo s = .next (revoked (fld v 0 5) true s) := by
  unfold execEnrolmentComplete
  rw [he]
  exact if_pos hv

theorem execEnrolmentComplete_answered {bytes : List Byte} (hv : v.getLsbD 5 = false)
    (ha : enrolAnswer s (fld v 0 5) bytes = true) : execEnrolmentComplete (some bytes) true lo s =
      .next (enrolRecords (fld v 0 5) true (enrFrameEnded lo s)) := by
  unfold execEnrolmentComplete
  rw [he]
  exact (if_neg (ne_true_of_eq_false hv)).trans (if_pos ha)

theorem execEnrolmentComplete_late (hv : v.getLsbD 5 = false) (hl : enrLate s = true) :
    execEnrolmentComplete none true lo s = .next (endEnrol 6 (enrFrameEnded lo s)) := by
  unfold execEnrolmentComplete
  rw [he]
  exact (if_neg (ne_true_of_eq_false hv)).trans ((if_neg Bool.false_ne_true).trans (if_pos hl))

end

theorem aside_otpDone : Aside State.otpDone where
  reg _ _ _ := rfl
  src _ _ _ := rfl
  isl _ _ _ := rfl
  word _ _ _ := rfl
  resv _ _ := rfl
  clear _ _ _ := rfl
  queue _ _ _ _ := rfl
  upd _ _ _ := rfl

/-- An enrolment programs the next count word. -/
theorem enrolRecords_programs (n : Nat) {k : Nat} (hk : nextEnrolment s = some k) :
    ∃ t, enrolRecords n true s = endEnrol 0 (setEnrolled n true t) ∧ (0x180 + k) ∈ t.otpDone := by
  unfold enrolRecords
  rw [hk]
  refine ⟨_, if_pos rfl, ?_⟩
  rw [aside_otpDone.storeList, aside_otpDone.storeList, aside_otpDone.memBurst]
  exact List.mem_cons_self

/-! Key store and jobs (R414 to R419). -/

theorem execKeyStoreComplete_works {k : KsCmd} (hk : s.sec.ks = some k) (hc : ksCheck s k = 0) : execKeyStoreComplete s =
    .next (let (code, t) := ksWork k (ksAccess k s)
      cipherEvent 1 (({ t with sec := { t.sec with ks := none } } : State).setReg 0xA4200C (pack [(1, code)]))) := by
  unfold execKeyStoreComplete
  rw [hk]
  dsimp only
  rw [if_pos hc]

theorem execKeyStoreComplete_refused {k : KsCmd} (hk : s.sec.ks = some k) (hc : ksCheck s k ≠ 0) (h9 : ksCheck s k ≠ 9) :
    execKeyStoreComplete s = .next (cipherEvent 1 (({ s with sec := { s.sec with ks := none } } : State).setReg 0xA4200C
      (pack [(1, ksCheck s k)]))) := by
  unfold execKeyStoreComplete
  rw [hk]
  dsimp only
  rw [if_neg hc, if_neg h9]

theorem execJobStart_starts {j : Nat} {rest : List Nat} (hq : s.sec.jobQ = j :: rest) (hn : runningJob s = none) :
    ∃ t, execJobStart s = .next t ∧ t.sec.jobQ = rest ∧ (t.job j).run = true ∧ (t.job j).code = jobCheck s (s.job j) := by
  unfold execJobStart
  rw [hq, hn]
  refine ⟨_, rfl, rfl, ?_, ?_⟩ <;> rw [job_setJob]

theorem execJobComplete_failed {j : Nat} (hj : runningJob s = some j) (h1 : 1 ≤ (s.job j).code) (h4 : (s.job j).code ≤ 4) :
    execJobComplete s = .next (jobEnd j (s.job j).code 0 s) := by
  unfold execJobComplete
  rw [hj]
  dsimp only
  rw [if_pos ⟨h1, h4⟩, if_neg (by omega)]

/-! Alarms (R413, R420). -/

theorem execRandomHealthFail_fails (hr : s.running .sec = true) : execRandomHealthFail true s =
    .next (abortSession (({ s with sec := { s.sec with
      trnFail := true, ks := s.sec.ks.map fun k : KsCmd => { k with noRandom := true } } } : State).level 182 true)) :=
  if_neg (by simp [hr])

theorem execRandomHealthFail_recovers (hr : s.running .sec = true) : execRandomHealthFail false s =
    .next (({ s with sec := { s.sec with trnFail := false } } : State).level 182 false) :=
  if_neg (by simp [hr])

theorem execErasingAlarm_erases {q : Fin 5} (h : q ≠ 4 ∨ secureActive s = true) :
    execErasingAlarm q s = .next (eraseAlarm q s) := by
  refine congrArg Host.Outcome.next (if_neg ?_)
  rintro ⟨hq, hs⟩
  obtain h | h := h
  · exact h hq
  · simp [h] at hs

/-- The last alarm ends: the root key is loaded again. -/
theorem execAlarmEnd_last {q : Fin 5} (ha : s.alive = 2 ^ q.val) (h : q ≠ 4 ∨ secureActive s = false)
    (hr : s.running .sec = true) : execAlarmEnd q s = .next (loadRoot { s with alive := 0 }) := by
  have hbit : s.alive.testBit q = true := by rw [ha, Nat.testBit_two_pow_self]
  have hzero : s.alive - 2 ^ q.val = 0 := by rw [ha, Nat.sub_self]
  have hno : ¬(!s.alive.testBit q ∨ (q = 4 ∧ secureActive s = true)) := by
    rw [hbit]
    rintro (h' | ⟨hq, hs⟩)
    · cases h'
    · exact h.elim (· hq) (ne_true_of_eq_false · hs)
  rw [execAlarmEnd, if_neg hno, hzero]
  exact congrArg Host.Outcome.next (if_pos ⟨rfl, hr⟩)

end

/-- Settles O56. -/
theorem accessAndCipherEvents : Obligations.AccessAndCipherEvents := by
  intro s a q bytes peak pre i lo at_
  refine ⟨fun hr x hx => ⟨fun ht => ⟨execSessionPhaseEnd_challenge s hr hx peak ht,
      execSessionPhaseEnd_resolve s hr hx peak ht, execSessionPhaseEnd_ranging s hr hx peak ht⟩,
      fun hm hp h18 h16 => execUhfFrameReceived_response s hr hx pre hm hp h18 h16, execAntennaShortTrip_trips s hr hx⟩,
    fun hm => if_pos hm, fun hp hn => ⟨execPoll_due s hp hn, execSpreadPoll_due s hp hn⟩, fun w hw ht => ?_,
    fun hm hb hd => ⟨_, execPollStop_stops s hm hb hd, rfl, rfl, rfl, ?_⟩,
    fun r v he => ⟨execEnrolmentComplete_revokes s he lo, execEnrolmentComplete_answered s he lo, execEnrolmentComplete_late s he lo⟩,
    fun n => rfl, fun n k => enrolRecords_programs s n,
    fun k hk => ⟨execKeyStoreComplete_works s hk, execKeyStoreComplete_refused s hk⟩,
    fun j rest => execJobStart_starts s, fun j => execJobComplete_failed s,
    fun hr => ⟨execRandomHealthFail_fails s hr, execRandomHealthFail_recovers s hr⟩,
    execErasingAlarm_erases s, execAlarmEnd_last s⟩
  · have hexec := execPollWindowEnd_closed s hw ht
    refine ⟨fun h => hexec.trans ?_, fun h h' => hexec.trans ?_, fun h h' => hexec.trans ?_⟩
    · rw [if_neg (ne_true_of_eq_false h)]
    · rw [if_pos h, if_pos h']
    · rw [if_pos h, if_neg (ne_true_of_eq_false h')]
  · exact (running_setPoll _ _ _ _ _).trans (memStopped_running _)

end Sys2Proof.Machine

/-! The Bobbin link: ports, arriving requests and answers (O58; R447 to R463). -/

namespace Sys2Proof.Machine

section
variable (s : State) (p : Fin 4)

/-! Ports (R447, R450, R463). -/

theorem execPortTrained_hello {off : Bool} (hm : mayTrain s p = true) (ht : trainsIn s p = if off then 2 else 1) :
    execPortTrained p off s =
      .next (sendHello p ((s.setLport p { s.lport p with trained := true }).setRegBit (pstat p) 1 off)) :=
  if_neg (by simp [hm, ht])

theorem execPortTrainTimeout_offBoard (hm : mayTrain s p = true) (hc : s.regFld (pcfg p) 1 2 = 0 ∨ s.regFld (pcfg p) 1 2 = 3)
    (ht : (s.lport p).trainFrom + 100 ≤ s.now) :
    execPortTrainTimeout p s = .next (s.setLport p { s.lport p with tryOff := true }) :=
  congrArg Host.Outcome.next (if_pos ⟨hm, by simpa using hc, ht⟩)

/-- A resend round; the eighth takes the port down. -/
theorem execLinkResend_due (hp : portUp s p = true) (hu : (s.lport p).unacked ≠ []) (ht : (s.lport p).ackAt + 1 ≤ s.now) :
    let r := s.lport p
    let u := (s.setLport p { r with rounds := r.rounds + 1, ackAt := s.now }).setRegFld (pcfg p + 2) 8 8
      (satInc 0xFF (s.regFld (pcfg p + 2) 8 8))
    execLinkResend p s = .next (if 8 ≤ r.rounds + 1 then portFalls p u
      else r.unacked.foldl (fun t e => putLine p e.1 e.2 t) u) :=
  if_neg (by simp [hp, hu, Nat.not_lt.mpr ht])

/-! Arrival of a stitch (R450, R456). -/

section
variable {lw : Word} {st : Stitch} (hr : s.running .lnk = true) (ht : (s.lport p).trained = true)
include hr ht

theorem execStitchArrival_outOfTurn (hseq : fld lw 0 4 ≠ (((takeAck p (fld lw 4 4) s).lport p).rxSeq + 1) % 16) :
    execStitchArrival p lw st s = .next (takeAck p (fld lw 4 4) s) := by
  rw [execStitchArrival, if_neg (by simp [hr, ht])]
  exact if_pos hseq

/-- A stitch in its turn at a port that is UP goes to the local agent or on. -/
theorem execStitchArrival_inTurn {v : State} {own : Nat}
    (hv : takeNext p (fld lw 0 4) st (takeAck p (fld lw 4 4) s) = v)
    (hseq : fld lw 0 4 = (((takeAck p (fld lw 4 4) s).lport p).rxSeq + 1) % 16) (hp : portUp v p = true)
    (hk : knownType st.type.toNat = true) (hd : st.type ≠ 0xB) (ho : ownId v = some own) : execStitchArrival p lw st s =
      if st.bc ∨ st.dest.toNat = own then deliver p st v else .next (forwardOn p st v) := by
  rw [execStitchArrival, if_neg (by simp [hr, ht])]
  dsimp only
  rw [if_neg (Classical.not_not.mpr hseq), hv, routeStitch, if_neg hd, if_neg (by simp [hp]), if_neg (by simp [hk]), ho]

end

/-- The requests the local agent serves. -/
theorem deliver_request {st : Stitch} (h : st.type = 1 ∨ st.type = 2 ∨ st.type = 5 ∨ st.type = 9) (v : State) :
    deliver p st v = .next (inbound p st v) := by
  unfold deliver
  obtain h | h | h | h := h <;> rw [h] <;> rfl

/-! Requests (R459 to R462). -/

theorem inbound_served {st : Stitch} (hw : mustWait s st = false) (hq : ∀ e ∈ s.lnk.waitq, e.1 ≠ p.val) :
    inbound p st s = serveRequest p st s := by
  refine if_neg (not_or.mpr ⟨?_, ne_true_of_eq_false hw⟩)
  rw [List.any_eq_true]
  rintro ⟨e, he, heq⟩
  exact hq e he (of_decide_eq_true heq)

/-- A malformed request does not wait, and is answered ERROR 7 (log 57). -/
theorem mustWait_malformed {st : Stitch} (hm : malformed st = true) : mustWait s st = false := by
  have h7 : readRefusal s st = 7 := if_pos hm
  rw [mustWait, h7]
  simp

theorem serveRequest_malformed {st : Stitch} (hb : st.bc = false) (hm : malformed st = true)
    (ht : st.type = 1 ∨ st.type = 2 ∨ st.type = 5 ∨ st.type = 7 ∨ st.type = 9) :
    serveRequest p st s = answerError 7 st s := by
  have hread : readRefusal s st = 7 := if_pos hm
  have hwrite : writeRefusal s st = 7 := if_pos hm
  have hchcmd : chcmdRefusal s st = 7 := if_pos (.inl hm)
  unfold serveRequest
  obtain h | h | h | h | h := ht <;> rw [h]
  · change serveRead p st s = _
    rw [serveRead, hread] <;> rfl
  · change serveWrite p st s = _
    rw [serveWrite, hwrite] <;> rfl
  · change serveChcmd p st s = _
    rw [serveChcmd, hchcmd]
    cases portWord st.addr.toNat <;> rfl
  · change serveMail st s = _
    rw [serveMail, hb, hm] <;> rfl
  · change serveReset st s = _
    rw [serveReset, if_pos hm]

/-! Answers (R458, R460, R461). -/

section
variable {st : Stitch} {q : LReq} (hf : forUs s st = true) (ho : openRequest s st = some q)
include hf ho

theorem execRdata_answers {c : Nat} (ht : st.type = 3) (hk : q.kind = .load c) :
    execRdata st s = .next (loadAnswer c q.tag 0 (st.payload.getD 0 0) (requestDone q s)) := by
  rw [execRdata, if_neg (by simp [ht, hf]), ho]
  dsimp only
  rw [hk]

theorem execWack_answers {k : Nat} (ht : st.type = 4) (hk : q.kind = .store k) :
    execWack st s = .next (requestDone q s) := by
  rw [execWack, if_neg (by simp [ht, hf]), ho]
  dsimp only
  rw [hk]

theorem execChack_answers (ht : st.type = 6) (hk : q.kind = .chan) : execChack st s =
    .next (linkEvent 3 (((requestDone q s).setReg 0xA6008B (pack [(1, st.status.toNat)])).setRegList 0xA6008C
      [st.payload.getD 0 0, st.payload.getD 1 0, st.payload.getD 2 0])) := by
  rw [execChack, if_neg (by simp [ht, hf]), ho]
  dsimp only
  rw [hk]

theorem execMack_answers (ht : st.type = 8) (hk : q.kind = .mail) : execMack st s =
    .next (linkEvent 3 ((requestDone q s).setReg 0xA6007A (pack [(1, st.status.toNat)]))) := by
  rw [execMack, if_neg (by simp [ht, hf]), ho]
  dsimp only
  rw [hk]

theorem execErrorStitch_fails (ht : st.type = 0xA) :
    execErrorStitch st s = .next (requestFails q st.status.toNat s) := by
  rw [execErrorStitch, if_neg (by simp [ht, hf]), ho]

end

theorem execRemoteTimeout_fails {tag : Byte} {q : LReq} (hr : s.running .lnk = true)
    (hq : (s.lnk.reqs.find? fun e => decide (e.tag = tag.toNat) && decide (e.due ≤ s.now)) = some q) :
    execRemoteTimeout tag s = .next (requestFails q 8 s) := by
  rw [execRemoteTimeout, if_neg (by simp [hr]), hq]

/-- A store that fails is counted in its core's word. -/
theorem requestFails_store {q : LReq} {k : Nat} (hk : q.kind = .store k) (code : Nat) :
    requestFails q code s = linkEvent 4 ((requestDone q s).regInc (0xA60043 + 4 * k)) := by
  rw [requestFails, hk] <;> rfl

end

/-- Settles O58. -/
theorem linkPortAndRequestEvents : Obligations.LinkPortAndRequestEvents := by
  intro s p lw st off q c k own tag
  refine ⟨execPortTrained_hello s p, execPortTrainTimeout_offBoard s p, fun hp => ⟨?_, ?_, ?_⟩, fun hr hb hp ht => ?_, fun hr ht => ?_,
    fun hf hc => ⟨fun h => ?_, fun h => ?_, fun h => ?_, fun h => ?_, fun h hb => ?_, fun h hb => ?_⟩,
    inbound_served s p, fun hb hm ht => ⟨mustWait_malformed s hm, serveRequest_malformed s p hb hm ht⟩,
    fun hf ho => ⟨execRdata_answers s hf ho, execWack_answers s hf ho, execChack_answers s hf ho, execMack_answers s hf ho,
      execErrorStitch_fails s hf ho⟩, execRemoteTimeout_fails s, fun hk => requestFails_store s hk 8⟩
  · intro r u hu ht
    have hexec := execLinkResend_due s p hp hu ht
    exact ⟨fun h8 => hexec.trans (by rw [if_pos h8]), fun h8 => hexec.trans (by rw [if_neg (Nat.not_le.mpr h8)])⟩
  · exact congrArg Host.Outcome.next (if_pos hp)
  · exact congrArg Host.Outcome.next (if_pos hp)
  · exact congrArg Host.Outcome.next (if_pos ⟨hr, hb, by simp [hp], ht⟩)
  · intro u v
    refine ⟨execStitchArrival_outOfTurn s p hr ht, fun hseq hp hk hd ho => ?_⟩
    have hexec := execStitchArrival_inTurn s p hr ht rfl hseq hp hk hd ho
    refine ⟨fun hme => hexec.trans (if_pos hme), fun hme htype => hexec.trans ((if_pos hme).trans (deliver_request p htype v)),
      fun hb hne => hexec.trans (if_neg ?_)⟩
    simp [hb, hne]
  · exact congrArg Host.Outcome.next (if_pos ⟨h, hf, hc⟩)
  · exact congrArg Host.Outcome.next (if_pos ⟨h, hf, hc⟩)
  · exact congrArg Host.Outcome.next (if_pos ⟨h, hf, hc⟩)
  · exact congrArg Host.Outcome.next (if_pos ⟨h, hf, hc⟩)
  · exact congrArg Host.Outcome.next ((if_pos ⟨h, hf, hc⟩).trans (if_neg (ne_true_of_eq_false hb)))
  · exact congrArg Host.Outcome.next ((if_pos ⟨h, hf, hc⟩).trans (if_pos hb))

end Sys2Proof.Machine

/-! Discovery over the Bobbin link (O59; R453, R454). -/

namespace Sys2Proof.Machine

/-- What routing and sending leave: the registers but LNK_STAT, LNK_DEVS and the routes, the time, the option shadow, and
what discovery has heard. -/
structure LinkFrame (s t : State) : Prop where
  reg : ∀ a, a < 0xA61000 → a ≠ 0xA60005 → a ≠ 0xA60006 → t.reg a = s.reg a
  now : t.now = s.now
  shadow : t.shadow = s.shadow
  seen : t.lnk.seen = s.lnk.seen
  devs : t.lnk.devs = s.lnk.devs
  negs : t.lnk.negs = s.lnk.negs
  given : t.lnk.given = s.lnk.given
  allocating : t.lnk.allocating = s.lnk.allocating

namespace LinkFrame

theorem refl (s : State) : LinkFrame s s := ⟨fun _ _ _ _ => rfl, rfl, rfl, rfl, rfl, rfl, rfl, rfl⟩

theorem trans {s t u : State} (h : LinkFrame s t) (h' : LinkFrame t u) : LinkFrame s u where
  reg a h1 h2 h3 := (h'.reg a h1 h2 h3).trans (h.reg a h1 h2 h3)
  now := h'.now.trans h.now
  shadow := h'.shadow.trans h.shadow
  seen := h'.seen.trans h.seen
  devs := h'.devs.trans h.devs
  negs := h'.negs.trans h.negs
  given := h'.given.trans h.given
  allocating := h'.allocating.trans h.allocating

theorem foldl {α : Type} {f : State → α → State} (hf : ∀ t x, LinkFrame t (f t x)) (l : List α) (s : State) :
    LinkFrame s (l.foldl f s) :=
  List.foldlRecOn l f (refl s) fun t ht x _ => ht.trans (hf t x)

theorem ownId {s t : State} (h : LinkFrame s t) : ownId t = ownId s := by
  have hreg := h.reg 0xA60000 (by decide) (by decide) (by decide)
  rw [Machine.ownId, Machine.ownId, State.regBit_congr hreg, State.regFld_congr hreg]

theorem idSource {s t : State} (h : LinkFrame s t) : idSource t = idSource s := by
  rw [Machine.idSource, Machine.idSource, h.shadow]

theorem heard {s t : State} (h : LinkFrame s t) (st : Stitch) : heard t st = heard s st := by
  rw [Machine.heard, Machine.heard, h.seen]

theorem setReg (s : State) {a : Nat} (h : 0xA61000 ≤ a ∨ a = 0xA60005 ∨ a = 0xA60006) (v : Word) : LinkFrame s (s.setReg a v) where
  reg b h1 h2 h3 := State.reg_setReg_other s (by omega) v
  now := rfl
  shadow := rfl
  seen := rfl
  devs := rfl
  negs := rfl
  given := rfl
  allocating := rfl

theorem enqueue (inp p : Nat) (st : Stitch) (s : State) : LinkFrame s (enqueue inp p st s) :=
  ⟨fun _ _ _ _ => rfl, rfl, rfl, rfl, rfl, rfl, rfl, rfl⟩

theorem sendHello (p : Nat) (s : State) : LinkFrame s (sendHello p s) :=
  ⟨fun _ _ _ _ => rfl, rfl, rfl, rfl, rfl, rfl, rfl, rfl⟩

theorem flood (ws : List Word) (s : State) : LinkFrame s (flood ws s) := by
  have hseq : LinkFrame s { s with lnk := { s.lnk with seq := (s.lnk.seq + 1) % 256 } } :=
    ⟨fun _ _ _ _ => rfl, rfl, rfl, rfl, rfl, rfl, rfl, rfl⟩
  unfold Machine.flood
  refine hseq.trans (foldl (fun t p => ?_) _ _)
  split
  · exact enqueue _ _ _ t
  · exact refl t

theorem sendLinks (s : State) : LinkFrame s (sendLinks s) := by
  unfold Machine.sendLinks
  split
  · exact refl s
  · exact flood _ s

theorem refloods (p : Nat) (st : Stitch) (s : State) : LinkFrame s (refloods p st s) := by
  unfold Machine.refloods
  split
  · exact refl s
  · refine foldl (fun t q => ?_) _ s
    split
    · exact enqueue _ _ _ t
    · exact refl t

theorem portSource (s : State) : LinkFrame s (portSource s) := by
  unfold Machine.portSource
  split <;> exact ⟨fun _ _ _ _ => rfl, rfl, rfl, rfl, rfl, rfl, rfl, rfl⟩

theorem topoChanged (s : State) : LinkFrame s (topoChanged s) := ⟨fun _ _ _ _ => rfl, rfl, rfl, rfl, rfl, rfl, rfl, rfl⟩

theorem dropRoutes (s : State) : LinkFrame s (s.dropRegs fun a => decide (0xA61000 ≤ a) && decide (a < 0xA61200)) where
  reg a h1 h2 h3 := by
    have h := Sparse.get_drop (d := regReset) s.regs (fun a => decide (0xA61000 ≤ a) && decide (a < 0xA61200)) a
    rw [if_neg (by simp; omega)] at h
    exact h
  now := rfl
  shadow := rfl
  seen := rfl
  devs := rfl
  negs := rfl
  given := rfl
  allocating := rfl

theorem reroute (s : State) : LinkFrame s (reroute s) := by
  unfold Machine.reroute
  extract_lets rts word changed s1 s2 n isRoot s3
  have h1 : LinkFrame s s1 := dropRoutes s
  have h2 : LinkFrame s1 s2 := foldl (fun t e => setReg t (.inl (Nat.le_add_right _ _)) _) rts s1
  have h3 : LinkFrame s2 s3 := (setReg s2 (.inr (.inr rfl)) _).trans (setReg _ (.inr (.inl rfl)) _)
  clear_value s3 s2 s1
  exact h1.trans (h2.trans (h3.trans ⟨fun _ _ _ _ => rfl, rfl, rfl, rfl, rfl, rfl, rfl, rfl⟩))

end LinkFrame

section
variable (s : State) (p : Fin 4) {st : Stitch}

/-! HELLO (R454). -/

theorem discHere_hello (h : discHere s p 1 st = true) : s.running .lnk = true := by
  rw [discHere, Bool.and_eq_true, Bool.and_eq_true, Bool.and_eq_true] at h
  exact h.1.1.1

/-- The word a HELLO of this system leaves in PSTAT. -/
def helloWord (old : Word) (st : Stitch) : Word :=
  let w := st.payload.getD 6 0
  (old &&& 0x0006#16) ||| pack [(0, 1), (4, fld w 0 9), (13, b2n (bit w 15)), (14, fld (st.payload.getD 1 0) 0 2)]

/-- The bits kept of PSTAT are 1 and 2. -/
theorem bit_keptPstat (old : Word) {k : Nat} (h : k ≠ 1) (h' : k ≠ 2) : bit (old &&& 0x0006#16) k = false := by
  have h6 : bit 0x0006#16 k = false := by
    by_cases h3 : k < 3
    · obtain rfl : k = 0 := by omega
      decide
    · rw [bit, BitVec.getLsbD_ofNat, Nat.testBit_lt_two_pow, Bool.and_false]
      calc 6 < 2 ^ 3 := by decide
        _ ≤ 2 ^ k := Nat.pow_le_pow_right (by decide) (by omega)
  rw [bit, BitVec.getLsbD_and]
  change (_ && bit 0x0006#16 k) = false
  rw [h6, Bool.and_false]

theorem bit_or_keptPstat (old w : Word) {k : Nat} (h : k ≠ 1) (h' : k ≠ 2) : bit ((old &&& 0x0006#16) ||| w) k = bit w k := by
  have hkept := bit_keptPstat old h h'
  rw [bit] at hkept ⊢
  rw [BitVec.getLsbD_or, hkept, Bool.false_or] <;> rfl

theorem fld_or_keptPstat (old w : Word) {lo n : Nat} (h : 3 ≤ lo) : fld ((old &&& 0x0006#16) ||| w) lo n = fld w lo n :=
  fld_congr fun i _ => bit_or_keptPstat old w (by omega) (by omega)

theorem toNat_helloPack {f b q : Nat} (hf : f < 512) (hb : b ≤ 1) (hq : q < 4) :
    (pack [(0, 1), (4, f), (13, b), (14, q)]).toNat = 1 + 16 * f + 8192 * b + 16384 * q := by
  simp only [pack, List.foldl, w16, BitVec.toNat_ofNat, Nat.shiftLeft_eq]
  omega

theorem bit_eq_fld_one (w : Word) (k : Nat) : bit w k = decide (fld w k 1 = 1) := by
  have h0 := testBit_fld w k 1 0
  have hlt := fld_lt w k 1
  rw [Nat.add_zero, decide_eq_true (by decide : 0 < 1), Bool.true_and] at h0
  rw [← h0, Nat.testBit_zero]
  congr 1
  simp only [eq_iff_iff]
  omega

theorem helloWord_fields (old : Word) (st : Stitch) : bit (helloWord old st) 0 = true ∧
    fld (helloWord old st) 4 9 = fld (st.payload.getD 6 0) 0 9 ∧
    bit (helloWord old st) 13 = bit (st.payload.getD 6 0) 15 ∧
    fld (helloWord old st) 14 2 = fld (st.payload.getD 1 0) 0 2 := by
  have hf := fld_lt (st.payload.getD 6 0) 0 9
  have hq := fld_lt (st.payload.getD 1 0) 0 2
  have hb : b2n (bit (st.payload.getD 6 0) 15) ≤ 1 := by
    cases bit (st.payload.getD 6 0) 15 <;> decide
  have hn := toNat_helloPack hf hb hq
  unfold helloWord
  dsimp only
  refine ⟨?_, ?_, ?_, ?_⟩
  · rw [bit_or_keptPstat old _ (by decide) (by decide), bit_eq_fld_one, decide_eq_true_eq, fld_eq_div_mod]
    omega
  · rw [fld_or_keptPstat old _ (by decide), fld_eq_div_mod]
    omega
  · rw [bit_or_keptPstat old _ (by decide) (by decide), bit_eq_fld_one, fld_eq_div_mod]
    have hbit : bit (st.payload.getD 6 0) 15 = decide (b2n (bit (st.payload.getD 6 0) 15) = 1) := by
      cases bit (st.payload.getD 6 0) 15 <;> rfl
    refine Eq.trans (decide_eq_decide.mpr ?_) hbit.symm
    omega
  · rw [fld_or_keptPstat old _ (by decide), fld_eq_div_mod]
    omega

theorem pstat_inFrame (p : Fin 4) : pstat p < 0xA61000 ∧ pstat p ≠ 0xA60005 ∧ pstat p ≠ 0xA60006 := by
  unfold pstat
  omega

/-- What a port that comes UP says: its sources, its routes, its links. -/
theorem LinkFrame.comesUp (l : List Nat) : LinkFrame s (Machine.sendLinks (Machine.reroute
    (Machine.portSource { s with lnk := { s.lnk with down := l } }))) := by
  have hdown : LinkFrame s { s with lnk := { s.lnk with down := l } } := ⟨fun _ _ _ _ => rfl, rfl, rfl, rfl, rfl, rfl, rfl, rfl⟩
  exact hdown.trans ((LinkFrame.portSource _).trans ((LinkFrame.reroute _).trans (LinkFrame.sendLinks _)))

theorem topoAt_topoChanged : (topoChanged s).lnk.topoAt = some s.now := rfl

/-- A HELLO of the same system brings the port UP. -/
theorem execHello_comesUp (h : discHere s p 1 st = true) (hsys : st.payload.getD 5 0 = sysId s) (hp : portUp s p = false) :
    ∃ t, execHello p st s = .next (linkEvent 1 t) ∧ t.reg (pstat p) = helloWord (s.reg (pstat p)) st ∧
      t.lnk.topoAt = some s.now := by
  have hold : bit (s.reg (pstat p)) 0 = false := by
    rw [portUp, discHere_hello s p h, Bool.true_and] at hp
    exact hp
  have hnew : bit (helloWord (s.reg (pstat p)) st) 0 = true := (helloWord_fields _ st).1
  have hne : helloWord (s.reg (pstat p)) st ≠ s.reg (pstat p) := by
    intro heq
    rw [heq, hold] at hnew
    cases hnew
  rw [execHello, if_neg (by simp [h])]
  extract_lets w port old fallen lport new s1 lnk1 s2 s3
  have h1 : s1.reg (pstat p) = helloWord (s.reg (pstat p)) st := (State.reg_setReg _ _ _ _).trans (if_pos rfl)
  have hup : LinkFrame s1 (sendLinks (reroute s2)) := .comesUp s1 _
  have h3 : LinkFrame s1 s3 := hup.trans (.topoChanged _)
  have htopo : s3.lnk.topoAt = some s.now := (topoAt_topoChanged _).trans (congrArg some hup.now)
  have hchanged : ¬new = old := hne
  have hwas : ¬bit old 0 = true := ne_true_of_eq_false hold
  clear_value s3
  rw [if_neg (Classical.not_not.mpr hsys), if_neg hchanged, if_neg hwas]
  obtain ⟨hlt, h5, h6⟩ := pstat_inFrame p
  exact ⟨_, rfl, (h3.reg (pstat p) hlt h5 h6).trans h1, htopo⟩

/-- A HELLO of another system. -/
theorem execHello_otherSystem (h : discHere s p 1 st = true) (hsys : st.payload.getD 5 0 ≠ sysId s) :
    ∃ t, execHello p st s = .next t ∧ t.reg (pstat p) = (s.reg (pstat p) &&& 0x0006#16) ||| 0x0008#16 := by
  rw [execHello, if_neg (by simp [h])]
  extract_lets w port old new s1
  rw [if_pos hsys]
  exact ⟨_, rfl, (State.reg_setReg _ _ _ _).trans (if_pos rfl)⟩

/-! LINKS (R453 to R455). -/

theorem heard_noteFlood (st : Stitch) : heard (noteFlood st s) st = true := by
  rw [heard, List.contains_iff_mem]
  exact List.mem_cons_self

/-- A flooded stitch that goes on has been heard. -/
theorem heard_flooded (p : Nat) (st : Stitch) : heard (refloods p st (noteFlood st s)) st = true :=
  ((LinkFrame.refloods p st _).heard st).trans (heard_noteFlood s st)

theorem ownId_flooded (p : Nat) (st : Stitch) : ownId (refloods p st (noteFlood st s)) = ownId s :=
  (LinkFrame.refloods p st (noteFlood st s)).ownId

theorem devs_flooded (p : Nat) (st : Stitch) : (refloods p st (noteFlood st s)).lnk.devs = s.lnk.devs :=
  (LinkFrame.refloods p st (noteFlood st s)).devs

section
variable (h : discHere s p 2 st = true) (hh : heard s st = false)
include h hh

/-- LINKS of this device's own ID: the higher serial gives way. -/
theorem execLinksDisc_own (ho : ownId s = some st.src.toNat) :
    ∃ t, execLinksDisc p st s = .next (if hiLo (st.payload.getD 7 0) (st.payload.getD 6 0) < (Config.serial >>> 16).toNat
      then withdrawId t else refloods p st (noteFlood st s)) := by
  rw [execLinksDisc, if_neg (by simp [h, hh])]
  extract_lets s1 id serial nbr l mine
  rw [if_pos ((ownId_flooded s p st).trans ho)]
  exact ⟨_, rfl⟩

theorem execLinksDisc_new (ho : ownId s ≠ some st.src.toNat) (hd : ∀ l ∈ s.lnk.devs, l.id ≠ st.src.toNat) :
    ∃ t, execLinksDisc p st s = .next t ∧ ∃ l ∈ t.lnk.devs, l.id = st.src.toNat ∧
      l.serial = hiLo (st.payload.getD 7 0) (st.payload.getD 6 0) := by
  rw [execLinksDisc, if_neg (by simp [h, hh])]
  extract_lets s1 id serial nbr l mine lnk0 old
  have hold : old = none := by
    refine List.find?_eq_none.mpr fun e he => ?_
    rw [decide_eq_true_eq]
    exact hd e ((devs_flooded s p st) ▸ he)
  rw [if_neg fun heq => ho ((ownId_flooded s p st).symm.trans heq), hold]
  dsimp only
  have hroute : LinkFrame { s1 with lnk := { s1.lnk with devs := l :: s1.lnk.devs } }
      (topoChanged (reroute { s1 with lnk := { s1.lnk with devs := l :: s1.lnk.devs } })) :=
    (LinkFrame.reroute _).trans (LinkFrame.topoChanged _)
  have hmem (t : State) (ht : t.lnk.devs = l :: s1.lnk.devs) : l ∈ t.lnk.devs := by
    rw [ht]
    exact List.mem_cons_self
  split
  · exact ⟨_, rfl, l, hmem _ (hroute.trans (LinkFrame.sendLinks _)).devs, rfl, rfl⟩
  · exact ⟨_, rfl, l, hmem _ hroute.devs, rfl, rfl⟩

end

/-! Negotiated IDs (R454). -/

/-- A request recorded. -/
theorem execNegreq_records (h : discHere s p 3 st = true) (hh : heard s st = false) (ha : s.lnk.allocating = false) :
    ∃ t, execNegreq p st s = .next t ∧ discSerial st ∈ t.lnk.negs ∧ heard t st = true := by
  rw [execNegreq, if_neg (by simp [h, hh])]
  extract_lets s1 n lnk1 s2
  have hframe : LinkFrame (noteFlood st s) s1 := .refloods p st _
  have hno : ¬(s2.lnk.allocating = true ∧ isAllocator s2 = true) := by
    rintro ⟨hall, -⟩
    exact ne_true_of_eq_false (hframe.allocating.trans ha) hall
  rw [if_neg hno]
  exact ⟨s2, rfl, List.mem_cons_self, heard_flooded s p st⟩

section
variable (h : discHere s p 4 st = true) (hh : heard s st = false)
include h hh

/-- A grant for another device is noted. -/
theorem execNeggrant_noted (hn : discSerial st ≠ Config.serial.toNat) : ∃ t, execNeggrant p st s = .next t ∧
    heard t st = true ∧ (discSerial st, fld (st.payload.getD 5 0) 0 9) ∈ t.lnk.given := by
  rw [execNeggrant, if_neg (by simp [h, hh])]
  extract_lets s1 id n lnk1 s2 s3 s4
  have hno : ¬(n = Config.serial.toNat ∧ idSource s2 = 2 ∧ (ownId s2).isNone = true) := fun hall => hn hall.1
  rw [if_neg hno]
  exact ⟨s2, rfl, heard_flooded s p st, List.mem_cons_self⟩

/-- A grant for this device gives it its ID. -/
theorem execNeggrant_own (hn : discSerial st = Config.serial.toNat) (hs : idSource s = 2) (ho : ownId s = none) :
    ∃ t, execNeggrant p st s = .next t ∧ t.reg 0xA60000 = pack [(0, fld (st.payload.getD 5 0) 0 9), (9, 2), (11, 1)] := by
  rw [execNeggrant, if_neg (by simp [h, hh])]
  extract_lets s1 id n lnk1 s2 s3 s4
  have hframe : LinkFrame (noteFlood st s) s1 := .refloods p st _
  have hsource : idSource s2 = 2 := hframe.idSource.trans hs
  have hown : (ownId s2).isNone = true := by
    have hsame : ownId s2 = ownId s := hframe.ownId
    rw [hsame, ho] <;> rfl
  have hhello : LinkFrame s3 s4 := .foldl (fun t q => by
    split
    · exact .sendHello q t
    · exact .refl t) fourPorts s3
  have hall : LinkFrame s3 (topoChanged (sendLinks (reroute s4))) :=
    hhello.trans ((LinkFrame.reroute _).trans ((LinkFrame.sendLinks _).trans (LinkFrame.topoChanged _)))
  rw [if_pos ⟨hn, hsource, hown⟩]
  refine ⟨_, rfl, (hall.reg 0xA60000 (by decide) (by decide) (by decide)).trans ?_⟩
  exact (State.reg_setReg s2 _ _ _).trans (if_pos rfl)

end

theorem execNegreqTimer_due (hn : negotiating s = true) (ht : s.lnk.negAt = none ∨ timePassed s s.lnk.negAt 1000 = true) :
    execNegreqTimer s = .next (sendNegreq { s with lnk := { s.lnk with negAt := some s.now } }) :=
  congrArg Host.Outcome.next (if_pos ⟨hn, by simpa using ht⟩)

theorem execNegAllocate_begins (hr : s.running .lnk = true) (ha : isAllocator s = true)
    (ht : timePassed s s.lnk.upAt 2000 = true) (hn : s.lnk.allocating = false) :
    execNegAllocate s = .next (grantHeard { s with lnk := { s.lnk with allocating := true } }) :=
  congrArg Host.Outcome.next (if_pos ⟨hr, ha, ht, hn⟩)

/-! The end of discovery (R454). -/

theorem linkEvent_running (k : Nat) (i : Island) : (linkEvent k s).running i = s.running i := by
  have hroute (t : State) (w : Word) : (t.route w).running i = t.running i := by
    unfold State.route
    split <;> rfl
  unfold linkEvent
  dsimp only
  split
  · exact hroute _ _
  · rfl

/-- LNK_STAT at the end of discovery. -/
def discovered (s : State) : State :=
  (({ s with lnk := { s.lnk with topoAt := none } } : State).setRegBit 0xA60005 0 true).setRegFld 0xA60005 8 8
    (s.regFld 0xA60005 8 8 + 1)

theorem discovered_stat : (discovered s).regBit 0xA60005 0 = true ∧
    (discovered s).regFld 0xA60005 8 8 = (s.regFld 0xA60005 8 8 + 1) % 256 := by
  refine ⟨?_, State.regFld_setRegFld_same _ _ (by decide) _⟩
  rw [State.regBit, discovered, State.reg_setRegFld_same, bit_putFld_other (.inl (by decide))]
  exact State.regBit_setRegBit_same _ _ (by decide) _

theorem execDiscoveryDone_ends (hr : s.running .lnk = true) (ht : timePassed s s.lnk.topoAt 1000 = true) :
    execDiscoveryDone s = .next (if s.running .sup then sendWaiting (linkEvent 2 (discovered s))
      else linkEvent 2 (discovered s)) := by
  have hrun : (linkEvent 2 (discovered s)).running .sup = s.running .sup := linkEvent_running _ _ _
  rw [← hrun]
  exact if_neg (by simp [hr, ht])

end

/-- Settles O59. -/
theorem linkDiscoveryEvents : Obligations.LinkDiscoveryEvents := by
  intro s p st
  refine ⟨fun h => ⟨fun hsys hp => ?_, fun hsys => ?_⟩, fun h hh => ?_, execNegreq_records s p,
    fun h hh => ⟨execNeggrant_noted s p h hh, execNeggrant_own s p h hh⟩, execNegreqTimer_due s,
    fun hn ht => congrArg Host.Outcome.next (if_pos ⟨hn, ht⟩), execNegAllocate_begins s,
    fun hr ht => ⟨discovered s, (discovered_stat s).1, rfl, (discovered_stat s).2, fun hs => ?_, fun hs => ?_⟩⟩
  · obtain ⟨t, hexec, hreg, htopo⟩ := execHello_comesUp s p h hsys hp
    obtain ⟨h0, h4, h13, h14⟩ := helloWord_fields (s.reg (pstat p)) st
    rw [← hreg] at h0 h4 h13 h14
    exact ⟨t, hexec, h0, h4, h13, h14, htopo⟩
  · obtain ⟨t, hexec, hreg⟩ := execHello_otherSystem s p h hsys
    refine ⟨t, hexec, ?_, ?_⟩
    · rw [State.regBit, hreg, bit_or_keptPstat _ _ (by decide) (by decide)] <;> rfl
    · rw [State.regBit, hreg, bit_or_keptPstat _ _ (by decide) (by decide)] <;> rfl
  · intro u serial
    refine ⟨heard_flooded s p st, fun ho => ?_, execLinksDisc_new s p h hh⟩
    obtain ⟨t, hexec⟩ := execLinksDisc_own s p h hh ho
    exact ⟨fun hlt => ⟨t, hexec.trans (by rw [if_pos hlt])⟩, fun hle => hexec.trans (by rw [if_neg (Nat.not_lt.mpr hle)])⟩
  · exact (execDiscoveryDone_ends s hr ht).trans (by rw [if_neg (ne_true_of_eq_false hs)])
  · exact (execDiscoveryDone_ends s hr ht).trans (by rw [if_pos hs])

end Sys2Proof.Machine

/-! Flash completion, PREPARE and activation (O60; R471, R476 to R484). -/

namespace Sys2Proof.Machine

section
variable (s : State)

/-! The end of a flash operation and of PREPARE. -/

theorem leaveUndefined_flashOp (a n : Nat) : (leaveUndefined a n s).flashOp = s.flashOp := by
  unfold leaveUndefined
  split <;> rfl

theorem leaveUndefined_upd (a n : Nat) : (leaveUndefined a n s).upd = s.upd := by
  unfold leaveUndefined
  split <;> rfl

theorem execFlashComplete_fails {o : FlashOp} (h : s.flashOp = some o) :
    ∃ t, execFlashComplete false s = .next t ∧ t.reg 0xA90006 = pack [(1, 9)] ∧ t.flashOp = none := by
  refine ⟨((flashRuns o).foldl (fun t e => leaveUndefined e.1 e.2 t) { s with flashOp := none }).setReg 0xA90006
    (pack [(1, 9)]), ?_, (State.reg_setReg _ _ _ _).trans (if_pos rfl), ?_⟩
  · rw [execFlashComplete, h] <;> rfl
  · exact foldl_same (g := State.flashOp) (fun t e => leaveUndefined_flashOp t e.1 e.2) (flashRuns o) { s with flashOp := none }

theorem offMem_upd : OffMem State.upd where
  reg _ _ _ := rfl
  src _ _ _ := rfl
  isl _ _ _ := rfl
  word _ _ _ := rfl
  resv _ _ := rfl
  clear _ _ _ := rfl
  queue _ _ _ _ := rfl

/-- PREPARE no longer runs. -/
def prepareEnded : State := { s.setRegBit 0xA82008 1 false with upd := { s.upd with preparing := false } }

theorem execPrepareComplete_good (h : s.upd.preparing = true) :
    ∃ t, execPrepareComplete true s = .next (partDone 0 (journalPut 1 (activeBank s) (activeGen s) s.upd.mref t)) ∧
      t.upd.preparing = false ∧ t.updAon.voted = false := by
  unfold execPrepareComplete
  rw [if_neg (by simp [h]), if_pos rfl]
  extract_lets regs upd s2 s3 aon
  refine ⟨_, rfl, ?_, rfl⟩
  have h2 : s2.upd = { s.upd with preparing := false } := 
    (offMem_upd.clear _ _ _).trans ((offMem_upd.clear _ _ _).trans ((offMem_upd.clear _ _ _).trans
      (offMem_upd.memBurst .mem 0 0x100 (prepareEnded s))))
  have h3 : s3.upd = s2.upd := (offMem_upd.storeList _ _ _).trans (offMem_upd.storeList _ _ _)
  exact congrArg UpdRec.preparing (h3.trans h2)

theorem execPrepareComplete_bad (h : s.upd.preparing = true) :
    ∃ t, execPrepareComplete false s = .next (partDone 13 t) ∧ t.upd.preparing = false := by
  unfold execPrepareComplete
  rw [if_neg (by simp [h]), if_neg Bool.false_ne_true]
  refine ⟨_, rfl, ?_⟩
  rw [leaveUndefined_upd, leaveUndefined_upd, leaveUndefined_upd]

/-! Received activation stitches (R481 to R484). -/

variable {s} {u : UpdMsg}

theorem updReceive_acts (sub : Nat) (hr : s.running .sup = true) (hh : s.upd.held = []) (hb : updBusy s = false) :
    updReceive sub u s = updAct sub u s := by
  unfold updReceive updGate
  rw [if_neg (by simp [hr]), if_neg (by simp [hh, hb])]

theorem updKnown_own (hm : u.mref.toNat = s.upd.mref) (f : State → State) : updKnown u s f = f s := if_pos (.inl hm)

theorem atCoord_listed (hc : coordinates s = true) (hm : u.mref.toNat = s.upd.mref) (hd : u.src.toNat ∈ manifestDevs s)
    (f : State → State) : atCoord u s f = f s := if_pos ⟨hc, hm, hd⟩

theorem stateArg_own (hm : u.mref.toNat = s.upd.mref) {k : Nat} (hk : k = 1 ∨ k = 2 ∨ k = 3) (hp : s.upd.phase = k) :
    stateArg s u.mref.toNat = k := by
  unfold stateArg
  rw [if_pos hm, hp]
  rcases hk with rfl | rfl | rfl <;> rfl

section
variable (hm : u.mref.toNat = s.upd.mref)
include hm

theorem updQueryAct_answers : updQueryAct u s = sendUpd 11 (stateArg s s.upd.mref) u.src.toNat u.mref.toNat s := by
  rw [updQueryAct, updKnown_own hm, hm]

theorem updPrepareAct_prepared (hp : s.upd.phase = 1) :
    updPrepareAct u s = sendUpd 2 0 u.src.toNat u.mref.toNat (giveVote s) := by
  rw [updPrepareAct, updKnown_own hm, if_pos hp, if_pos hm] <;> rfl

theorem updPrepareAct_other (hp : s.upd.phase ≠ 1) : updPrepareAct u s = sendUpd 2 1 u.src.toNat u.mref.toNat s := by
  rw [updPrepareAct, updKnown_own hm, if_neg hp] <;> rfl

theorem updAbortAct_prepared (hp : s.upd.phase = 1) :
    updAbortAct u s = sendUpd 8 0 u.src.toNat u.mref.toNat (abortNow s) := by
  rw [updAbortAct, updKnown_own hm, stateArg_own hm (.inl rfl) hp] <;> rfl

theorem updCommitAct_prepared (hp : s.upd.phase = 1) (ho : preparedOver s = false) : updCommitAct u s = commitNow u s := by
  rw [updCommitAct, updKnown_own hm, if_neg (by simp [ho])]
  dsimp only
  rw [stateArg_own hm (.inl rfl) hp] <;> rfl

theorem updConfirmAct_await (hp : s.upd.phase = 3) :
    updConfirmAct u s = sendUpd 8 0 u.src.toNat u.mref.toNat (confirmNow s) := by
  rw [updConfirmAct, updKnown_own hm, stateArg_own hm (.inr (.inr rfl)) hp] <;> rfl

theorem updRevertAct_trial (hp : s.upd.phase = 2 ∨ s.upd.phase = 3) :
    updRevertAct u s = resetSoon (sendUpd 8 0 u.src.toNat u.mref.toNat
      (let t := revertRecord s; { t with upd := { t.upd with wait := [] } })) := by
  rw [updRevertAct, updKnown_own hm]
  rcases hp with hp | hp
  · rw [stateArg_own hm (.inr (.inl rfl)) hp] <;> rfl
  · rw [stateArg_own hm (.inr (.inr rfl)) hp] <;> rfl

variable (hc : coordinates s = true) (hd : u.src.toNat ∈ manifestDevs s)
include hc hd

theorem updVoteAct_no (h1 : s.upd.step = 1) (ha : u.arg ≠ 0) : updVoteAct u s = decideRevert s := by
  rw [updVoteAct, updKnown_own hm, atCoord_listed hc hm hd, if_neg (Classical.not_not.mpr h1), if_pos ha]

theorem updVoteAct_yes (h1 : s.upd.step = 1) (ha : u.arg = 0) :
    updVoteAct u s = (let t := { s with upd := { s.upd with acks := addDev u.src.toNat s.upd.acks } }
      if unanswered t = [] then decideStep 8 t else t) := by
  rw [updVoteAct, updKnown_own hm, atCoord_listed hc hm hd, if_neg (Classical.not_not.mpr h1), if_neg (Classical.not_not.mpr ha)]

theorem updStateAct_voting (h1 : s.upd.step = 1) : updStateAct u s = decideRevert s := by
  unfold updStateAct
  dsimp only
  rw [if_neg (Classical.not_not.mpr hm), if_pos ⟨hc, hd, h1⟩]

theorem updFailedAct_open (h3 : s.upd.dec ≠ 3) : updFailedAct u s = decideRevert s := by
  rw [updFailedAct, updKnown_own hm, atCoord_listed hc hm hd, if_neg h3]

theorem updHealthyAct_collects (h1 : s.upd.dec = 1) :
    updHealthyAct u s = (let t := { s with upd := { s.upd with healthy := addDev u.src.toNat s.upd.healthy } }
      if (manifestDevs t).all (t.upd.healthy.contains ·) then decideStep 9 t else t) := by
  rw [updHealthyAct, updKnown_own hm, atCoord_listed hc hm hd, if_pos h1]

theorem updAckAct_collects (h : s.upd.step = 2 ∨ s.upd.step = 4) :
    updAckAct u s = (let t := { s with upd := { s.upd with acks := addDev u.src.toNat s.upd.acks } }
      if unanswered t ≠ [] then t
      else { t with upd := { t.upd with step := if t.upd.step = 2 ∧ t.upd.dec = 1 then 3 else 0, acks := [] } }) := by
  rw [updAckAct, updKnown_own hm, atCoord_listed hc hm hd, if_neg (by omega)]

end

/-! What time brings (R478 to R484). -/

theorem stepSub_ended (h : s.upd.step = 0) : stepSub s = 0 := by rw [stepSub, h] <;> rfl

theorem stepSub_voting (h : s.upd.step = 1) : stepSub s = 1 := by rw [stepSub, h] <;> rfl

theorem execUpdResend_idle (hr : s.running .sup = true) (ht : s.upd.sentAt + 10000 ≤ s.now) (h0 : s.upd.step = 0) :
    execUpdResend s = .next (sendWaiting { s with upd := { s.upd with sentAt := s.now } }) := by
  unfold execUpdResend
  rw [if_neg (by simp [hr, ht])]
  extract_lets upd v sent
  have hsent : sent = v := by
    unfold sent
    rw [stepSub_ended (s := v) h0] <;> rfl
  rw [hsent]

theorem execUpdResend_voting (hr : s.running .sup = true) (ht : s.upd.sentAt + 10000 ≤ s.now)
    (hc : coordinates { s with upd := { s.upd with sentAt := s.now } } = true) (h1 : s.upd.step = 1) :
    execUpdResend s = .next (let v := { s with upd := { s.upd with sentAt := s.now } }
      sendWaiting (sendUpdAll 1 (unanswered v) v)) := by
  unfold execUpdResend
  rw [if_neg (by simp [hr, ht])]
  extract_lets upd v sent
  have hsent : sent = sendUpdAll 1 (unanswered v) v := by
    unfold sent
    rw [stepSub_voting (s := v) h1]
    exact if_pos hc
  rw [hsent]

theorem execWindowExpiry_over (hr : s.running .sup = true) (hb : updBusy s = false) (hp : s.upd.phase = 2)
    (ht : windowOf s * 1000000 ≤ runTime s s.updAon.ran s.updAon.since) :
    execWindowExpiry s = .next (updReset (let t := revertRecord s; { t with updAon := { t.updAon with expired := true } })) :=
  if_neg (by simp [hr, hb, hp, ht])

/-- Watching the coordinator changes neither the time nor the islands. -/
theorem watchCoord_now : (watchCoord s).now = s.now ∧ (watchCoord s).running .sup = s.running .sup := by
  unfold watchCoord
  split
  · split <;> exact ⟨rfl, rfl⟩
  · split <;> exact ⟨rfl, rfl⟩

theorem execOrphanQuery_first {lost : Nat} (hr : s.running .sup = true) (ho : orphaned (watchCoord s) = true)
    (hl : (watchCoord s).upd.lostAt = some lost) (ht : lost + orphanTime (watchCoord s) * 1000000 ≤ s.now)
    (hq : (watchCoord s).upd.queryAt = none) :
    execOrphanQuery s = .next
      (let v := watchCoord s
       let w := { v with upd := { v.upd with orphan := true, queryAt := some s.now } }
       sendUpdAll 10 ((manifestDevs w).filter fun d => decide (ownId v ≠ some d)) w) := by
  obtain ⟨hnow, hrun⟩ := watchCoord_now (s := s)
  rw [← hnow] at ht ⊢
  rw [← hrun] at hr
  unfold execOrphanQuery
  dsimp only
  rw [hl, hq]
  dsimp only
  rw [if_neg (by simp [hr, ho, ht])]

end

/-- Settles O60. -/
theorem updateAndFlashEvents : Obligations.UpdateAndFlashEvents := by
  intro s u o at_
  refine ⟨fun h => ⟨?_, execFlashComplete_fails s h⟩, fun h => ⟨execPrepareComplete_good s h, execPrepareComplete_bad s h⟩,
    fun hr hh hb hm => ?_, fun hr ht => ⟨execUpdResend_idle hr ht, execUpdResend_voting hr ht⟩,
    fun hr hb => ⟨fun h1 ht => ?_, fun h1 hc ht => ?_, fun ho => ?_, execWindowExpiry_over hr hb⟩,
    execOrphanQuery_first⟩
  · rw [exec, execFlashComplete, h] <;> rfl
  · intro reply
    have hturn {sub : Nat} {t : State} (h : updAct sub u s = t) : (.next (updReceive sub u s) : Out) = .next t :=
      congrArg Host.Outcome.next ((updReceive_acts sub hr hh hb).trans h)
    refine ⟨hturn (updQueryAct_answers hm),
      fun hp => ⟨hturn (updPrepareAct_prepared hm hp), hturn (updAbortAct_prepared hm hp),
        fun ho => hturn (updCommitAct_prepared hm hp ho)⟩,
      fun hp => hturn (updPrepareAct_other hm hp), fun hp => hturn (updConfirmAct_await hm hp),
      fun hp => hturn (updRevertAct_trial hm hp), fun hc hd => ⟨fun h1 => ⟨fun ha => hturn (updVoteAct_no hm hc hd h1 ha),
        hturn (updStateAct_voting hm hc hd h1), fun ha => hturn (updVoteAct_yes hm hc hd h1 ha)⟩,
      fun h3 => hturn (updFailedAct_open hm hc hd h3), fun h1 => hturn (updHealthyAct_collects hm hc hd h1),
      fun h => hturn (updAckAct_collects hm hc hd h)⟩⟩
  · exact congrArg Host.Outcome.next (if_pos ⟨hr, hb, h1, ht⟩)
  · exact congrArg Host.Outcome.next (if_pos ⟨hr, hb, h1, hc, ht⟩)
  · exact congrArg Host.Outcome.next (if_pos ⟨hr, hb, ho⟩)

end Sys2Proof.Machine

/-! OPEN while a store to the staged header waits at MEM (O39; R34, R42, R474). OPEN reads the header through MEM, which serves
the older store first, and its checks see the words as they then stand: a header that would pass at the moment of the command
is refused. The statement grants the part to any header that passes at that moment. -/

namespace Sys2Proof.Machine

/-- A manifest's header of system 0x0042 with its CMAC under the all-zero fleet key. -/
def stagedHeader : List Word :=
  [0x464C, 0x8600, 0x0016, 0, 0, 24, 0, 0x0011, 0, 0, 1, 0x0042] ++ List.replicate 44 0 ++
    [41574, 35483, 30018, 39054, 61829, 1906, 53016, 48470]

/-- A store of core 4 to the header's first word. -/
def overtakingStore : MemReq := { isl := .cpb, k := 4, stamp := 0, issued := 0, put := some (0x800000, 0) }

/-- Device 5, core 0 in UPD_AUTH, the header staged at 0x800000 for the manifest's place of bank B; that store waits at
MEM. -/
def stagedUnderStore : State :=
  ({ isl := (List.range 12).map fun k => (k, { st := .run })
     regs := [(0xA60000, 0x0805), (0xA8200C, 0x0001), (0xA82004, 0x0080), (0xA82006, 0x003F)]
     sec := { slots := [(0, some ⟨List.replicate 16 0, 0, 1, 0⟩)] }
     shadow := [(0x143, 0x0042)]
     memTick := 10
     memq := [overtakingStore] } : State).storeList
    0x800000 stagedHeader

theorem arrives_stagedUnderStore : Arrives (.core 0) .sup stagedUnderStore stagedUnderStore :=
  ⟨by decide +kernel, rfl, by decide +kernel, by decide +kernel⟩

/-- The header passes every check of OPEN at the moment of the command. -/
theorem openCheck_stagedUnderStore : openCheck stagedUnderStore = 0 := by decide +kernel

/-! What MEM serves while OPEN reads. -/

/-- UPD_HADDR names 0x800000, whose word is 0 and which no waiting request writes. -/
structure Overtaken (t : State) : Prop where
  low : t.reg 0xA82003 = 0x0000
  high : t.reg 0xA82004 = 0x0080
  word : t.memWord 0x800000 = 0
  stores : ∀ q ∈ t.memq, q.put = none

namespace Overtaken
variable {t : State} (h : Overtaken t)
include h

theorem setReg {a : Nat} (hlow : a ≠ 0xA82003) (hhigh : a ≠ 0xA82004) (v : Word) : Overtaken (t.setReg a v) where
  low := (State.reg_setReg_other t hlow.symm v).trans h.low
  high := (State.reg_setReg_other t hhigh.symm v).trans h.high
  word := h.word
  stores := h.stores

theorem setSrc (n : Nat) (r : Src) : Overtaken (t.setSrc n r) := ⟨h.low, h.high, h.word, h.stores⟩

theorem raiseHeld (n : Nat) : Overtaken (t.raiseHeld n none) := by
  unfold State.raiseHeld
  dsimp only
  split
  · exact h.setSrc _ _
  · exact h.setReg (by decide) (by decide) _

theorem waited (q : MemReq) (wait : Nat) : Overtaken (waited q wait t) := by
  have hicb : icb q.isl + 5 ≠ 0xA82003 ∧ icb q.isl + 5 ≠ 0xA82004 := by cases q.isl <;> decide
  unfold Machine.waited
  dsimp only
  split
  · unfold State.raise
    split
    · exact (h.setReg hicb.1 hicb.2 _).raiseHeld 4
    · exact h.setReg hicb.1 hicb.2 _
  · exact h.setReg hicb.1 hicb.2 _

theorem memServe : Overtaken (memServe t) := by
  cases hq : memNext t with
  | none => rw [Machine.memServe, hq]; exact h
  | some q =>
    rw [memServe_next hq, h.stores q (mem_memq_of_memNext hq)]
    have hout : Overtaken (dequeued q t) := ⟨h.low, h.high, h.word, fun p hp => h.stores p (List.mem_of_mem_erase hp)⟩
    exact hout.waited q _

theorem memCycle : Overtaken (memCycle t) := memServe ⟨h.low, h.high, h.word, h.stores⟩

theorem serveOwn (i : Island) (k : Nat) : Overtaken (serveOwn i k t) :=
  List.foldlRecOn _ _ h fun _ hu _ _ => by
    split
    · exact hu.memCycle
    · exact hu

theorem memAccess (i : Island) (k : Nat) : Overtaken (memAccess i k t) := by
  unfold Machine.memAccess
  split
  · obtain ⟨low, high, word, stores⟩ := h.serveOwn i k
    have hissued : Overtaken (issueMem i k none t) := by
      refine ⟨low, high, word, fun q hq => ?_⟩
      obtain hq | hq := List.mem_append.mp hq
      · exact stores q hq
      · rw [List.mem_singleton.mp hq]
    exact hissued.serveOwn i k
  · exact h

theorem updHaddr : updHaddr t = 0x800000 := by
  rw [Machine.updHaddr, State.regN, State.regFld, h.low, h.high] <;> rfl

/-- Such a header fails OPEN's checks: its magic word is gone. -/
theorem openCheck_ne_zero : openCheck t ≠ 0 := by
  have hform : headerForm (t.memList 0x800000 64) = false := by
    have hmagic : decide ((t.memList 0x800000 64).getD 0 0 = 0x464C#16) = false :=
      decide_eq_false fun hw => absurd (h.word.symm.trans hw) (by decide)
    simp only [headerForm, hmagic, Bool.false_and]
  unfold openCheck
  simp only [h.updHaddr, hform, Bool.not_false, if_true]
  split
  · decide
  split
  · decide
  split <;> decide

end Overtaken

/-- The store is the older of two that wait, so MEM serves it first. -/
theorem memNext_overtakingStore {s : State} {q : MemReq} (hq : s.memq = [overtakingStore, q]) (hi : q.isl = .sup)
    (hrank : memRank s overtakingStore < memRank s q) : memNext s = some overtakingStore := by
  have hheads : memHeads s = [q, overtakingStore] := by
    simp [memHeads, allIslands, headNext, hq, hi, overtakingStore, leastBy]
  rw [memNext, hheads]
  exact if_pos hrank

theorem memRank_overtakingStore {s : State} (ht : s.memTick = 10) :
    memRank { s with memTick := 11 } overtakingStore < memRank { s with memTick := 11 } (requestOf .sup 2 none s) := by
  have hlag : b2n (Config.tickLag Island.sup.num 10) ≤ 1 := by
    cases Config.tickLag Island.sup.num 10 <;> decide
  simp only [memRank, memAge, overtakingStore, requestOf, islandTick, ht]
  omega

theorem reg_storeWord (s : State) (a : Nat) (v : Word) (b : Nat) : (s.storeWord a v).reg b = s.reg b := by
  have hone (t : State) (c : Nat) : (t.putOne c v).reg b = t.reg b := rfl
  have hresv (t : State) (c : Nat) : (t.clearResv c).reg b = t.reg b := rfl
  unfold State.storeWord State.putWord
  cases s.twinAddr a with
  | none => exact (hresv _ _).trans (hone _ _)
  | some c => exact (hresv _ _).trans ((hresv _ _).trans ((hone _ _).trans (hone _ _)))

/-- MEM serves the store. -/
theorem overtaken_memServe {s : State} {q : MemReq} (hnext : memNext s = some overtakingStore)
    (hq : s.memq = [overtakingStore, q]) (hput : q.put = none) (hlow : s.reg 0xA82003 = 0x0000)
    (hhigh : s.reg 0xA82004 = 0x0080) : Overtaken (memServe s) := by
  rw [memServe_next hnext]
  have hreg (b : Nat) : (putOf overtakingStore.put (dequeued overtakingStore s)).reg b = s.reg b := reg_storeWord _ _ _ b
  refine Overtaken.waited ⟨(hreg _).trans hlow, (hreg _).trans hhigh, memWord_storeWord_same _ _ _, fun p hp => ?_⟩ _ _
  rw [putOf_memq] at hp
  change p ∈ s.memq.erase overtakingStore at hp
  rw [hq, List.erase_cons_head] at hp
  rw [List.mem_singleton.mp hp, hput]

theorem serveOwn_two {s : State} {p q : MemReq} {i : Island} {k : Nat} (hq : s.memq = [p, q]) (hw : memWaits s i k = true) :
    serveOwn i k s = if memWaits (memCycle s) i k then memCycle (memCycle s) else memCycle s := by
  rw [serveOwn, hq]
  change List.foldl _ s [0, 1] = _
  rw [List.foldl_cons, List.foldl_cons, List.foldl_nil, if_pos hw]

/-- The first of OPEN's accesses: its request joins the store, which is served before it. -/
theorem overtaken_memAccess {s : State} (hlow : s.reg 0xA82003 = 0x0000) (hhigh : s.reg 0xA82004 = 0x0080)
    (ht : s.memTick = 10) (hq : s.memq = [overtakingStore]) (hrun : s.running .mem = true) :
    Overtaken (memAccess .sup 2 s) := by
  have hserve : serveOwn .sup 2 s = s := by
    rw [serveOwn, hq]
    exact if_neg (by rw [memWaits, hq]; decide)
  have hissue : issueMem .sup 2 none s = { s with memq := [overtakingStore, requestOf .sup 2 none s] } := by
    rw [issueMem, hserve, hq] <;> rfl
  have hfirst : Overtaken (memCycle { s with memq := [overtakingStore, requestOf .sup 2 none s] }) := by
    rw [memCycle, ht]
    exact overtaken_memServe (memNext_overtakingStore rfl rfl (memRank_overtakingStore ht)) rfl rfl hlow hhigh
  rw [memAccess, if_pos hrun, hissue, serveOwn_two rfl (by simp [memWaits, requestOf])]
  split
  · exact hfirst.memCycle
  · exact hfirst

theorem overtaken_memBurst {s : State} (h : Overtaken (memAccess .sup 2 s)) (n : Nat) : Overtaken (memBurst .sup 2 (n + 1) s) := by
  rw [memBurst, List.range_succ_eq_map, List.foldl_cons, List.foldl_map]
  exact List.foldlRecOn _ _ h fun _ hu _ _ => hu.memAccess .sup 2

theorem overtaken_updRead {s : State} (h : Overtaken (memAccess .sup 2 s)) : Overtaken (updRead 0x800000 64 s) := by
  unfold updRead
  dsimp only
  split
  · exact (overtaken_memBurst h 7).raiseHeld 1
  · exact overtaken_memBurst h 7

/-! What OPEN answers. -/

/-- Whether an outcome leaves a part open. -/
def leavesPart : Out → Bool
  | .next t => t.upd.part.isSome
  | _ => false

theorem leavesPart_partDone (code : Nat) (s : State) : leavesPart (.next (partDone code s)) = s.upd.part.isSome :=
  congrArg (fun u => u.part.isSome) (offMem_upd.updEvent 0 (s.setRegFld 0xA82008 2 4 code))

theorem updRead_upd (a n : Nat) (s : State) : (updRead a n s).upd = s.upd := by
  have hraise (t : State) : (t.raiseHeld 1 none).upd = t.upd := by
    unfold State.raiseHeld
    dsimp only
    split <;> rfl
  unfold updRead
  dsimp only
  split
  · exact (hraise _).trans (offMem_upd.memBurst _ _ _ s)
  · exact offMem_upd.memBurst _ _ _ s

/-- OPEN that reads a header a store has overtaken opens no part. -/
theorem openStep_overtaken {s : State} (hphase : s.upd.phase = 0) (hpart : s.upd.part = none) (haddr : updHaddr s = 0x800000)
    (h : Overtaken (updRead 0x800000 64 s)) : leavesPart (.next (openStep s)) = false := by
  unfold openStep
  rw [if_pos ⟨hphase, by rw [hpart]; rfl, by rw [haddr]; decide⟩, haddr]
  dsimp only
  split
  · next hgood => exact absurd hgood h.openCheck_ne_zero
  · rw [leavesPart_partDone, updRead_upd, hpart] <;> rfl

theorem exec_openPart {r : Requester} {s t : State} (h : Arrives r .sup s t) (v : Word) :
    exec (.openPart r v) s = .next (updCmd (asRequester t r) v t) := write_arrives h 0xA82007 v rfl

theorem openPart_refused : leavesPart (exec (.openPart (.core 0) 0xD201) stagedUnderStore) = false := by
  have hread := overtaken_updRead (overtaken_memAccess (s := stagedUnderStore) (by decide +kernel) (by decide +kernel)
    (by decide +kernel) (by decide +kernel) (by decide +kernel))
  have hcmd : updCmd (asRequester stagedUnderStore (.core 0)) 0xD201 stagedUnderStore = openStep stagedUnderStore := by
    unfold updCmd
    rw [if_neg (by decide +kernel), if_neg (by decide +kernel), if_neg (by decide +kernel)] <;> rfl
  rw [exec_openPart arrives_stagedUnderStore, hcmd]
  exact openStep_overtaken (by decide +kernel) (by decide +kernel) (by decide +kernel) hread

/-- Refutes O39: OPEN of a header that passes its checks at the command, but whose first word an older store at MEM overwrites
before OPEN has read it, opens no part. -/
theorem not_updateCommands : ¬ Obligations.UpdateCommands := by
  intro h
  obtain ⟨hopen, -⟩ := h (.core 0) 0xD201 _ _ arrives_stagedUnderStore (by decide) (by decide +kernel) (by decide +kernel)
  have hexec := hopen (by decide +kernel) (by decide +kernel) (by decide) openCheck_stagedUnderStore
  have hpart := congrArg leavesPart hexec
  rw [openPart_refused, leavesPart_partDone] at hpart
  exact Bool.false_ne_true hpart

end Sys2Proof.Machine
